-- ==== Sys2Proof/Word.lean ====
section
/-! DEFINITION. The word types of the G12 (R2, R39, R44) and the table type in which sparse state is held. -/

namespace Sys2Proof

/-- One byte of memory. -/
abbrev Byte := BitVec 8
/-- A 32-bit lane register value (R44). -/
abbrev W32 := BitVec 32
/-- A 64-bit value: an s or c register, a pair, an address (R44). -/
abbrev W64 := BitVec 64
/-- An instruction index, 28 bits (R59). -/
abbrev Label := BitVec 28
/-- A set of lanes of one group: bit i is lane i (R77). -/
abbrev LaneMask := BitVec 32
/-- A 128-bit instruction word (R39). -/
abbrev Code128 := BitVec 128

/-- Sparse data by key: a list of key and value pairs with strictly rising keys (the form `Tbl.wf` of
Machine/Tbl.lean states). -/
abbrev Tbl (α : Type) := List (Nat × α)

end Sys2Proof
end

