-- ==== Sys2Proof/Syntax.lean ====
section
/-! DEFINITION. The syntax of the G12: the fields of the 128-bit word (R39, R44, R45), and ONE inductive `Instr` with a constructor for
every row of spec/opcode_table.json. The 110 major forms of R47 carry the fields of their word; the other rows
are the steps of engines, slices, the work distributor, the power controller, the host and the peers, and carry what names the one that
acts. -/

namespace Sys2Proof

/-- An operand code (R44). `u` is an s register in group programs and a c register in control programs. The codes 0xD8 to 0xDF and 0xE2 to
0xFF are reserved and name no operand. -/
inductive Operand where
  | v (n : BitVec 7)
  | u (n : BitVec 6)
  | q (n : BitVec 4)
  | p (n : BitVec 3)
  | zero
  | imm
deriving DecidableEq, Repr, Inhabited

/-- The type codes 0 to 15, in order (R45). -/
inductive DType where
  | n32 | i32 | n64 | i64 | f32 | f16 | bf16 | n8 | i8 | n16 | i16 | e4m3 | e5m2 | e2m1 | l6 | e8m0
deriving DecidableEq, Repr, Inhabited

/-- The rounding modes of RM, in order (R39). -/
inductive Rm where
  | rne | rz | rd | ru
deriving DecidableEq, Repr, Inhabited

/-- The fields of an instruction word but for OPC and the reserved bits [63:60], which are zero (R39). -/
structure Fields where
  fn : BitVec 4
  ty : DType
  d : Operand
  a : Operand
  b : Operand
  c : Operand
  pg : BitVec 3
  pn : Bool
  uni : Bool
  gate : Bool
  fe : BitVec 3
  sat : Bool
  rm : Rm
  wk : BitVec 8
  md : BitVec 8
  e : Operand
  g : Operand
  imm : W32
deriving DecidableEq, Repr, Inhabited

/-- An executing agent (R10): group `who` of a team for `who` below 128, the team's control thread for `who` = 128. -/
structure AgentId where
  team : Nat
  who : Nat
deriving DecidableEq, Repr, Inhabited

/-- What a request that gets no completion was made for (R282, R343). -/
inductive Victim where
  | agent (a : AgentId)
  | command (n : Nat)
  | completion (grid : Nat)
deriving DecidableEq, Repr, Inhabited

/-- An access that arrives over the peer links (R345, R346): the offset names a byte in the layout of VF BAR 4. -/
inductive PeerOp where
  | read (off n : Nat)
  | write (off : Nat) (bytes : List Byte)
  | atomic (fn : BitVec 4) (ty : DType) (rm : Rm) (off : Nat) (v : W64)
  | cas (wide : Bool) (off : Nat) (expect new : W64)
deriving DecidableEq, Repr, Inhabited

/-- Where an uncorrectable error is found (R282, R289, R351). -/
inductive ErrPlace where
  | access (a : AgentId) (addr : Nat)
  | command (n : Nat) (addr : Nat)
  | stopRecord (a : AgentId)
  | completion (grid : Nat)
  | teamState (team : Nat) (addr : Nat)
  | llcTag (part : Nat) (addr : Nat)
  | noConsumer (addr : Nat)
deriving DecidableEq, Repr, Inhabited

/-- One row of spec/opcode_table.json each. -/
inductive Instr where
  -- sweep and synchronisation, 0x00 to 0x10
  | nop (f : Fields) | j (f : Fields) | jr (f : Fields) | call (f : Fields) | callr (f : Fields) | ret (f : Fields)
  | exit (f : Fields) | yield (f : Fields) | bar (f : Fields) | barn (f : Fields) | bara (f : Fields) | wait (f : Fields)
  | wtok (f : Fields) | trap (f : Fields) | brk (f : Fields) | launch (f : Fields) | nap (f : Fields)
  -- integer and logic, 0x20 to 0x3F
  | add (f : Fields) | sub (f : Fields) | mul (f : Fields) | mulh (f : Fields) | mad (f : Fields) | div (f : Fields)
  | rem (f : Fields) | min (f : Fields) | max (f : Fields) | abs (f : Fields) | and (f : Fields) | or (f : Fields)
  | xor (f : Fields) | andn (f : Fields) | not (f : Fields) | shl (f : Fields) | shr (f : Fields) | sar (f : Fields)
  | rot (f : Fields) | popc (f : Fields) | clz (f : Fields) | ctz (f : Fields) | brev (f : Fields) | bfx (f : Fields)
  | bfi (f : Fields) | lea (f : Fields) | sel (f : Fields) | mov (f : Fields) | setp (f : Fields) | plog (f : Fields)
  | addx (f : Fields) | idp4 (f : Fields)
  -- floating point, 0x40 to 0x55
  | fadd (f : Fields) | fsub (f : Fields) | fmul (f : Fields) | ffma (f : Fields) | fmin (f : Fields) | fmax (f : Fields)
  | fsetp (f : Fields) | fcls (f : Fields) | frcp (f : Fields) | frsq (f : Fields) | fsqrt (f : Fields) | fexp2 (f : Fields)
  | flog2 (f : Fields) | ftanh (f : Fields) | hadd2 (f : Fields) | hmul2 (f : Fields) | hfma2 (f : Fields) | fdp2 (f : Fields)
  | cvt (f : Fields) | cvts (f : Fields) | frnd (f : Fields) | fscale (f : Fields)
  -- lane movement and group operations, 0x60 to 0x69
  | shfl (f : Fields) | vote (f : Fields) | gred (f : Fields) | gscan (f : Fields) | rebal (f : Fields) | rdln (f : Fields)
  | mfs (f : Fields) | mts (f : Fields) | qstat (f : Fields) | mtch (f : Fields)
  -- memory, 0x80 to 0x88
  | ld (f : Fields) | st (f : Fields) | atom (f : Fields) | red (f : Fields) | cas (f : Fields) | fence (f : Fields)
  | pref (f : Fields) | cctl (f : Fields) | testp (f : Fields)
  -- engine commands, 0xA0 to 0xA4
  | cpsl (f : Fields) | cpc (f : Fields) | gath (f : Fields) | scat (f : Fields) | scata (f : Fields)
  -- matrix and control, 0xC0 to 0xC8
  | mma (f : Fields) | mmag (f : Fields) | acalloc (f : Fields) | acfree (f : Fields) | aczero (f : Fields)
  | obres (f : Fields) | obrel (f : Fields) | drain (f : Fields) | qcfg (f : Fields)
  -- system, 0xE0 to 0xE5
  | sysc (f : Fields) | csrr (f : Fields) | csrw (f : Fields) | tlbi (f : Fields) | eret (f : Fields) | halt (f : Fields)
  -- sequencer, results and replies
  | activeSetSwap (a : AgentId) | goose (a : AgentId) | resultLands (a : AgentId) (n : Nat) | loadReply (a : AgentId) (n : Nat)
  | storeAcknowledge (a : AgentId) (n : Nat) | exclusivityIdleEnd (line : Nat) | queueWake (team q : Nat)
  -- engines
  | rltGrant (cmd : Nat) | engineLineLands (cmd line : Nat) | copyComplete (cmd : Nat) | copyFault (cmd line : Nat)
  | geComplete (cmd : Nat) | geFault (cmd : Nat) | oxRingRead (cmd : Nat) | drainQueuePush (cmd : Nat) | oxComplete (cmd : Nat)
  | oxFault (cmd : Nat) | acallocGrant (cluster : Nat) | eventPost (team : Nat)
  -- monitors and naps
  | monitorRegister (n : Nat) | monitorWake (n : Nat) | monitorTimeout (slice : Nat) | napWake (a : AgentId) (lane : Nat)
  -- contexts, faults, saves
  | contextEnd (part asid : Nat) | faultQueueRetry (part idx : Nat) | faultQueueRefuse (part idx : Nat) | fqrdWrite (part : Nat) (w : W64)
  | teamSave (team : Nat) | teamRestore (team cluster : Nat) | teamMigrate (team cluster : Nat)
  -- host queues and dispatch
  | queueEnable (part q : Nat) (w : W64) | queueDisable (part q : Nat) (w : W64) | qdoor (part q : Nat) (w : W64)
  | launchPacket (part q : Nat) | copyPacket (part q : Nat) | signalPacket (part q : Nat) | waitmonPacket (part q : Nat)
  | fencePacket (part q : Nat) | markerPacket (part q : Nat) | childValidate (n : Nat) | teamStart (grid : Nat) | gridEnd (grid : Nat)
  -- power
  | telemetryFrame (linkB : Bool) (bytes : List Byte) | partialFrameDiscard (linkB : Bool) | failsafeEntry | curveTick
  | graceExpiry (cls : Nat) | controlInterval (die : Nat) (temps : List Nat) | currentLimit (pair : Nat) (above : Bool)
  | mule (pair lower upper : Nat) | thermalMigration (pair : Nat) | pairPowerGate (pair : Nat)
  | powerEnable (w : W64) | powerDisable (w : W64)
  -- debug
  | sessionOpen (part ctx : Nat) (w : W64) | sessionClose (part ctx : Nat) (w : W64) | lostClear (part ctx : Nat)
  | watchpointArm (part ctx j : Nat) (w : W64) | sample (cluster part ctx : Nat) | lcrClear (part cluster bin ctr : Nat)
  -- host, peers, security
  | hostWrite (part off : Nat) (bytes : List Byte) | hostRead (part off n : Nat) | mdoor (w : W64) | cecntClear
  | registerWrite (vf : Option Nat) (bar off : Nat) (w : W64) | requestTimeout (x : Victim)
  | peerAccess (dev srcPart part : Nat) (op : PeerOp) | atcmd (part : Nat) (w : W64) | attestationReport (part : Nat) (ok : Bool)
  | powerOnReset | correctedError | uncorrectableError (x : ErrPlace) | patrolScrub (line : Nat)
  -- decoding, fetch, late completions
  | reservedOpcode (w : Code128) | fetchFault (code : Byte) | linkValidFrameTimeout (linkB : Bool) | releaseWaitExpiry (a : AgentId)
  | tlbiComplete (a : AgentId) | syscAnswer (a : AgentId) (w : W64) | firmwareTimer (die : Nat)
  | privilegedThreadStart (die entry : Nat) | replayWaitDelivery (a : AgentId) (lane : Nat)
deriving DecidableEq, Repr, Inhabited

end Sys2Proof
end

