-- ==== Sys2Proof/Machine/Types.lean ====
section
/-! DEFINITION. What the type codes mean (R45) and the bit-field, sign and byte-order helpers that every family uses. -/

namespace Sys2Proof.Machine

/-- The width in bits of a type (R45). -/
def tyWidth : DType → Nat
  | .n32 | .i32 | .f32 => 32
  | .n64 | .i64 => 64
  | .f16 | .bf16 | .n16 | .i16 => 16
  | .n8 | .i8 | .e4m3 | .e5m2 | .e8m0 => 8
  | .e2m1 => 4
  | .l6 => 6

/-- The types read as signed integers (R45). -/
def tySigned : DType → Bool
  | .i32 | .i64 | .i8 | .i16 => true
  | _ => false

/-- The integer types (R45). -/
def tyIsInt : DType → Bool
  | .n32 | .i32 | .n64 | .i64 | .n8 | .i8 | .n16 | .i16 => true
  | _ => false

/-- f32, f16 and bf16: the types of the floating-point operations (R111). -/
def tyIsFp : DType → Bool
  | .f32 | .f16 | .bf16 => true
  | _ => false

/-- The code of a type (R45). -/
def tyCode : DType → BitVec 4
  | .n32 => 0 | .i32 => 1 | .n64 => 2 | .i64 => 3 | .f32 => 4 | .f16 => 5 | .bf16 => 6 | .n8 => 7
  | .i8 => 8 | .n16 => 9 | .i16 => 10 | .e4m3 => 11 | .e5m2 => 12 | .e2m1 => 13 | .l6 => 14 | .e8m0 => 15

/-- The type of a code; every code names one (R45). -/
def tyOf (c : BitVec 4) : DType :=
  match c.toNat with
  | 0 => .n32 | 1 => .i32 | 2 => .n64 | 3 => .i64 | 4 => .f32 | 5 => .f16 | 6 => .bf16 | 7 => .n8
  | 8 => .i8 | 9 => .n16 | 10 => .i16 | 11 => .e4m3 | 12 => .e5m2 | 13 => .e2m1 | 14 => .l6 | _ => .e8m0

/-- Bits [hi:lo] of a 64-bit word, as a number. -/
def bits (x : W64) (hi lo : Nat) : Nat := (x.toNat / 2 ^ lo) % 2 ^ (hi + 1 - lo)

/-- Bit i of a 64-bit word. -/
def bit (x : W64) (i : Nat) : Bool := x.getLsbD i

/-- A truth value as the number 1 or 0. -/
def b2n (b : Bool) : Nat := if b then 1 else 0

/-- The low w bits of a word, the others zero. -/
def lowBits (w : Nat) (x : W64) : W64 := (x.setWidth w).setWidth 64

/-- The low w bits of a word, sign-extended to 64 bits. -/
def signBits (w : Nat) (x : W64) : W64 := (x.setWidth w).signExtend 64

/-- n little-endian bytes of a number (R2). -/
def toBytes : Nat → Nat → List Byte
  | 0, _ => []
  | n + 1, x => BitVec.ofNat 8 x :: toBytes n (x / 256)

/-- The number whose little-endian bytes are given (R2). -/
def ofBytes : List Byte → Nat
  | [] => 0
  | b :: bs => b.toNat + 256 * ofBytes bs

/-- x rounded up to a multiple of 2^k. -/
def roundUp (k x : Nat) : Nat := ((x + 2 ^ k - 1) / 2 ^ k) * 2 ^ k

/-- x rounded down to a multiple of 2^k. -/
def roundDown (k x : Nat) : Nat := (x / 2 ^ k) * 2 ^ k

/-- The least of a list of numbers, if it has one. -/
def leastOf : List Nat → Option Nat
  | [] => none
  | x :: xs => match leastOf xs with
    | none => some x
    | some y => some (min x y)

/-- The greatest of a list of numbers, 0 for the empty list. -/
def greatestOf (l : List Nat) : Nat := l.foldl max 0

/-- A number inserted into a list of numbers kept in ascending order. -/
def insertAsc (x : Nat) : List Nat → List Nat
  | [] => [x]
  | y :: ys => if x ≤ y then x :: y :: ys else y :: insertAsc x ys

/-- A list of numbers in ascending order. -/
def sortAsc : List Nat → List Nat
  | [] => []
  | x :: xs => insertAsc x (sortAsc xs)

/-- The elements of a list that are not there again later. -/
def nubNat : List Nat → List Nat
  | [] => []
  | x :: xs => if xs.contains x then nubNat xs else x :: nubNat xs

/-- The lanes 0 to 31 (R11). -/
def lanes32 : List Nat :=
  [0, 1, 2, 3, 4, 5, 6, 7, 8, 9, 10, 11, 12, 13, 14, 15, 16, 17, 18, 19, 20, 21, 22, 23, 24, 25, 26, 27, 28, 29, 30, 31]

end Sys2Proof.Machine
end

