-- ==== Sys2Proof/Machine/Legal.lean ====
section
/-! DEFINITION. Which field values each form accepts and the decode checks of R49: one row of rules per major form (R78, R96, R111, R116, R118,
R119, R127 to R129, R158 to R161, R179, R196, R215, R234, R256, R283, R303) and the seven checks in order. -/

namespace Sys2Proof.Machine

/-- Who executes: a group, a control thread, or a privileged control thread (R10, R304). -/
inductive AgentKind where
  | group | control | privileged
deriving DecidableEq, Repr, Inhabited

/-- The agent marks of the opcode map (R10, R47). -/
inductive Mark where
  | g | b | c | p
deriving DecidableEq, Repr, Inhabited

/-- What a form says of UNI: any legal value; 0; 1 in group code (R128, R179, R196); 0 with PG = 7 and PN = 0 (the barriers, R78). -/
inductive UniRule where
  | any | zero | groupOne | bar
deriving DecidableEq, Repr, Inhabited

/-- What an operand field calls for. A value slot says whether it is a destination, how many consecutive v registers a v code names there (its
number must be a multiple of that), the width at which a literal is read, and which codes it accepts: v, s or c, zero, 0xE1; its `q` says whether
R12 decides on a queue register there, which is refused in step 7 otherwise (log entry 5). -/
inductive Slot where
  | unused
  | val (dst : Bool) (n w : Nat) (v u q z i : Bool)
  | pred (dst : Bool)
  | queue
deriving DecidableEq, Repr, Inhabited

/-- The rules of one form for given field values: mark, whether FN, TY, SAT, RM, MD and WK are accepted (step 2), the rule for UNI (step 3),
the six operand slots (step 4) and whether IMM is accepted (step 5). -/
structure Row where
  mark : Mark
  ok : Bool
  uni : UniRule
  d : Slot
  a : Slot
  b : Slot
  c : Slot
  e : Slot
  g : Slot
  imm : Bool
deriving DecidableEq, Repr, Inhabited

/-- v registers that a value of w bits takes: a pair for 64 (R44). -/
def regsFor (w : Nat) : Nat := if w = 64 then 2 else 1

/-- A value source of w bits: v, s or c, q, zero or a literal (R96). -/
def srcV (w : Nat) : Slot := .val false (regsFor w) w true true true true true
/-- A value destination of w bits (R96). -/
def dstV (w : Nat) : Slot := .val true (regsFor w) w true true true true false
/-- A data operand of a memory form: no literal (R158). -/
def dataV (w : Nat) : Slot := .val false (regsFor w) w true true true true false
/-- A pointer: an even v register, an s or c register (R158). -/
def ptrV : Slot := .val false 2 64 true true true false false
/-- An offset: a v register of 32 bits, an s or c register of 64, or zero (R158, R162). -/
def offV : Slot := .val false 1 32 true true true true false
/-- A 64-bit s or c register (R196, R234). -/
def regU : Slot := .val false 1 64 false true true false false
/-- A 64-bit s or c register, or zero (R179). -/
def regUz : Slot := .val false 1 64 false true true true false
/-- A v register of w bits and no other code (R119). -/
def onlyV (dst : Bool) (w : Nat) : Slot := .val dst (regsFor w) w true false false false false

/-- The operand of a field names 0xE1. -/
def hasImm (f : Fields) : Bool :=
  decide (f.d = .imm) || decide (f.a = .imm) || decide (f.b = .imm) || decide (f.c = .imm) || decide (f.e = .imm) || decide (f.g = .imm)

/-- IMM of a form whose literal fills w bits: zero when no field is 0xE1, else no bit above w (R34, R40). -/
def immLit (f : Fields) (w : Nat) : Bool :=
  if hasImm f then decide (w ≥ 32) || decide (f.imm.toNat < 2 ^ w) else decide (f.imm = 0)

/-- IMM has no bit set outside the mask. -/
def immMask (f : Fields) (m : W32) : Bool := decide (f.imm &&& ~~~m = 0)

/-- A CSR number that the spec names: 0x000 to 0x004, and the fields 0 to 6 of the records of twelve partitions (R297, R306). -/
def csrNamed (n : Nat) : Bool := decide (n ≤ 4) || (decide (0x100 ≤ n) && decide (n < 0x100 + 0x20 * 12) && decide (n % 0x20 ≤ 6))

/-- FN, TY, SAT and RM are all zero. -/
def plain0 (f : Fields) : Bool := decide (f.fn = 0) && decide (f.ty = .n32) && !f.sat && decide (f.rm = .rne)

/-- FN is zero, SAT is zero unless allowed, RM is zero, MD is zero: the integer forms (R96). -/
def intOk (f : Fields) (tys : List DType) (sat : Bool) : Bool :=
  decide (f.fn = 0) && tys.contains f.ty && (sat || !f.sat) && decide (f.rm = .rne) && decide (f.md = 0)

/-- The four integer types of the integer forms. -/
def int4 : List DType := [.n32, .i32, .n64, .i64]
/-- n32 and n64. -/
def nat2 : List DType := [.n32, .n64]
/-- f32, f16, bf16. -/
def fp3 : List DType := [.f32, .f16, .bf16]
/-- f16, bf16. -/
def fp2 : List DType := [.f16, .bf16]

/-- MD of class F: the neg and abs bits only at the given float source positions, FTZ where accepted (R46, R111). -/
def mdF (f : Fields) (a b c ftz : Bool) : Bool :=
  !f.md.getLsbD 7 && (ftz || !f.md.getLsbD 6) && (a || decide (f.md &&& 0x03#8 = 0)) && (b || decide (f.md &&& 0x0C#8 = 0))
    && (c || decide (f.md &&& 0x30#8 = 0))

/-- FN, TY, SAT, RM and MD of the floating-point forms (R111). -/
def fpOk (f : Fields) (tys : List DType) (rm a b c ftz : Bool) : Bool :=
  decide (f.fn = 0) && tys.contains f.ty && !f.sat && (rm || decide (f.rm = .rne)) && mdF f a b c ftz

/-- The order of a class M byte (R46). -/
def mdOrder (md : BitVec 8) : Nat := md.toNat % 4
/-- The scope of a class M byte (R46). -/
def mdScope (md : BitVec 8) : Nat := md.toNat / 4 % 4
/-- The policy of a class M byte (R46). -/
def mdPolicy (md : BitVec 8) : Nat := md.toNat / 16 % 4

/-- MD of class M with the orders a form accepts; a relaxed order requires scope 0 (R161). -/
def mdM (f : Fields) (orders : List Nat) (policy : Bool) : Bool :=
  decide (f.md.toNat < 64) && orders.contains (mdOrder f.md) && (decide (mdOrder f.md ≠ 0) || decide (mdScope f.md = 0))
    && (policy || decide (mdPolicy f.md = 0))

/-- MD of class E: bits [79:77] zero (R46). -/
def mdE (f : Fields) : Bool := decide (f.md.toNat < 32)

/-- FN and TY of an atomic (R166). -/
def atomicTy (fn : BitVec 4) (ty : DType) : Bool :=
  match fn.toNat with
  | 0 | 1 | 2 => int4.contains ty
  | 3 | 4 | 5 => nat2.contains ty
  | 6 => [DType.n32, .n64, .f32].contains ty
  | 7 | 8 => nat2.contains ty
  | 9 | 10 | 11 => decide (ty = .f32)
  | _ => false

/-- FN, TY, SAT and RM of an atomic: RM only with FN 9 (R158, R166). -/
def atomicOk (f : Fields) : Bool :=
  atomicTy f.fn f.ty && !f.sat && (decide (f.fn = 9) || decide (f.rm = .rne))

/-- The elements of a single or multiple load or store: 1, 2 or 4 by FN (R160). -/
def multOf (fn : BitVec 4) : Nat := if fn = 1 then 2 else if fn = 2 then 4 else 1

/-- FN and TY of LD and ST (R160). -/
def ldstTy (fn : BitVec 4) (ty : DType) : Bool :=
  match fn.toNat with
  | 0 => [DType.n8, .i8, .n16, .i16, .f16, .bf16, .n32, .i32, .f32, .n64, .i64].contains ty
  | 1 => [DType.n32, .i32, .f32, .n64, .i64].contains ty
  | 2 => [DType.n32, .i32, .f32].contains ty
  | _ => false

/-- The register slot of LD and ST: one register or pair, or a set of 2 or 4 v registers (R160). -/
def ldstSlot (dst : Bool) (f : Fields) : Slot :=
  if f.fn = 0 then .val dst (regsFor (tyWidth f.ty)) (tyWidth f.ty) true true true true false
  else .val dst (multOf f.fn * regsFor (tyWidth f.ty)) (tyWidth f.ty) true false true true false

/-- The types of R116's "integer". -/
def cvtInt (t : DType) : Bool := tyIsInt t
/-- The types of R116's "float". -/
def cvtFloat (t : DType) : Bool := [DType.f32, .f16, .bf16, .e4m3, .e5m2, .e2m1].contains t

/-- Whether CVT accepts a pair, and with it RM and SAT (R116). The SAT cell of e8m0 to f32 reads "0 or 1 for FTZ only", which the model takes of the
FTZ bit: SAT is 0 there and FTZ may be set (DESIGN CHOICE, log entry 70). -/
def cvtOk (f : Fields) : Bool :=
  let src := tyOf f.fn
  let dst := f.ty
  let rm0 := decide (f.rm = .rne)
  if cvtInt src && cvtInt dst then rm0
  else if f.sat then false
  else if (cvtFloat src || decide (src = .l6)) && cvtInt dst then true
  else if (cvtInt src || cvtFloat src || decide (src = .l6)) && cvtFloat dst then true
  else if (cvtInt src || cvtFloat src || decide (src = .l6)) && decide (dst = .l6) then rm0
  else if decide (src = .f32) && decide (dst = .e8m0) then rm0
  else if decide (src = .e8m0) && decide (dst = .f32) then rm0
  else false

/-- Whether a CVT source takes neg and abs bits (R46, R116). -/
def cvtSigned (f : Fields) : Bool := cvtFloat (tyOf f.fn) || decide (tyOf f.fn = .l6)

/-- IMM of DRAIN by kind, CMP and QUEUE (R234). -/
def drainImm (f : Fields) : Bool :=
  let m := f.imm.toNat
  let cmp := f.fn.getLsbD 3
  let kind := f.fn.toNat % 8
  let queue := f.imm.getLsbD 5
  let mxf := m / 512 % 16
  let blc := m / 128 % 4
  decide (m < 2 ^ 14) && (cmp || !f.imm.getLsbD 13) && (queue || !f.imm.getLsbD 6) && !(queue && cmp)
    && (if kind = 3 then decide (mxf ≤ 5) && decide (blc ≠ 0) && (!cmp || decide (mxf = 4) || decide (mxf = 5))
        else decide (mxf = 0) && decide (blc = 0))

/-- A row with the six slots unused. -/
def rowOf (mark : Mark) (ok : Bool) (imm : Bool) : Row :=
  { mark := mark, ok := ok, uni := .any, d := .unused, a := .unused, b := .unused, c := .unused, e := .unused, g := .unused, imm := imm }

/-- The opcode (R47) and the fields of a form; none for the steps that are no form. -/
def formOf : Instr → Option (BitVec 8 × Fields)
  | .nop f => some (0x00, f) | .j f => some (0x01, f) | .jr f => some (0x02, f) | .call f => some (0x03, f)
  | .callr f => some (0x04, f) | .ret f => some (0x05, f) | .exit f => some (0x06, f) | .yield f => some (0x07, f)
  | .bar f => some (0x08, f) | .barn f => some (0x09, f) | .bara f => some (0x0A, f) | .wait f => some (0x0B, f)
  | .wtok f => some (0x0C, f) | .trap f => some (0x0D, f) | .brk f => some (0x0E, f) | .launch f => some (0x0F, f)
  | .nap f => some (0x10, f)
  | .add f => some (0x20, f) | .sub f => some (0x21, f) | .mul f => some (0x22, f) | .mulh f => some (0x23, f)
  | .mad f => some (0x24, f) | .div f => some (0x25, f) | .rem f => some (0x26, f) | .min f => some (0x27, f)
  | .max f => some (0x28, f) | .abs f => some (0x29, f) | .and f => some (0x2A, f) | .or f => some (0x2B, f)
  | .xor f => some (0x2C, f) | .andn f => some (0x2D, f) | .not f => some (0x2E, f) | .shl f => some (0x2F, f)
  | .shr f => some (0x30, f) | .sar f => some (0x31, f) | .rot f => some (0x32, f) | .popc f => some (0x33, f)
  | .clz f => some (0x34, f) | .ctz f => some (0x35, f) | .brev f => some (0x36, f) | .bfx f => some (0x37, f)
  | .bfi f => some (0x38, f) | .lea f => some (0x39, f) | .sel f => some (0x3A, f) | .mov f => some (0x3B, f)
  | .setp f => some (0x3C, f) | .plog f => some (0x3D, f) | .addx f => some (0x3E, f) | .idp4 f => some (0x3F, f)
  | .fadd f => some (0x40, f) | .fsub f => some (0x41, f) | .fmul f => some (0x42, f) | .ffma f => some (0x43, f)
  | .fmin f => some (0x44, f) | .fmax f => some (0x45, f) | .fsetp f => some (0x46, f) | .fcls f => some (0x47, f)
  | .frcp f => some (0x48, f) | .frsq f => some (0x49, f) | .fsqrt f => some (0x4A, f) | .fexp2 f => some (0x4B, f)
  | .flog2 f => some (0x4C, f) | .ftanh f => some (0x4D, f) | .hadd2 f => some (0x4E, f) | .hmul2 f => some (0x4F, f)
  | .hfma2 f => some (0x50, f) | .fdp2 f => some (0x51, f) | .cvt f => some (0x52, f) | .cvts f => some (0x53, f)
  | .frnd f => some (0x54, f) | .fscale f => some (0x55, f)
  | .shfl f => some (0x60, f) | .vote f => some (0x61, f) | .gred f => some (0x62, f) | .gscan f => some (0x63, f)
  | .rebal f => some (0x64, f) | .rdln f => some (0x65, f) | .mfs f => some (0x66, f) | .mts f => some (0x67, f)
  | .qstat f => some (0x68, f) | .mtch f => some (0x69, f)
  | .ld f => some (0x80, f) | .st f => some (0x81, f) | .atom f => some (0x82, f) | .red f => some (0x83, f)
  | .cas f => some (0x84, f) | .fence f => some (0x85, f) | .pref f => some (0x86, f) | .cctl f => some (0x87, f)
  | .testp f => some (0x88, f)
  | .cpsl f => some (0xA0, f) | .cpc f => some (0xA1, f) | .gath f => some (0xA2, f) | .scat f => some (0xA3, f)
  | .scata f => some (0xA4, f)
  | .mma f => some (0xC0, f) | .mmag f => some (0xC1, f) | .acalloc f => some (0xC2, f) | .acfree f => some (0xC3, f)
  | .aczero f => some (0xC4, f) | .obres f => some (0xC5, f) | .obrel f => some (0xC6, f) | .drain f => some (0xC7, f)
  | .qcfg f => some (0xC8, f)
  | .sysc f => some (0xE0, f) | .csrr f => some (0xE1, f) | .csrw f => some (0xE2, f) | .tlbi f => some (0xE3, f)
  | .eret f => some (0xE4, f) | .halt f => some (0xE5, f)
  | _ => none

/-- The form of an assigned opcode; none for a reserved one (R47, R48). -/
def formAt (opc : BitVec 8) (f : Fields) : Option Instr :=
  match opc.toNat with
  | 0x00 => some (.nop f) | 0x01 => some (.j f) | 0x02 => some (.jr f) | 0x03 => some (.call f) | 0x04 => some (.callr f)
  | 0x05 => some (.ret f) | 0x06 => some (.exit f) | 0x07 => some (.yield f) | 0x08 => some (.bar f) | 0x09 => some (.barn f)
  | 0x0A => some (.bara f) | 0x0B => some (.wait f) | 0x0C => some (.wtok f) | 0x0D => some (.trap f) | 0x0E => some (.brk f)
  | 0x0F => some (.launch f) | 0x10 => some (.nap f)
  | 0x20 => some (.add f) | 0x21 => some (.sub f) | 0x22 => some (.mul f) | 0x23 => some (.mulh f) | 0x24 => some (.mad f)
  | 0x25 => some (.div f) | 0x26 => some (.rem f) | 0x27 => some (.min f) | 0x28 => some (.max f) | 0x29 => some (.abs f)
  | 0x2A => some (.and f) | 0x2B => some (.or f) | 0x2C => some (.xor f) | 0x2D => some (.andn f) | 0x2E => some (.not f)
  | 0x2F => some (.shl f) | 0x30 => some (.shr f) | 0x31 => some (.sar f) | 0x32 => some (.rot f) | 0x33 => some (.popc f)
  | 0x34 => some (.clz f) | 0x35 => some (.ctz f) | 0x36 => some (.brev f) | 0x37 => some (.bfx f) | 0x38 => some (.bfi f)
  | 0x39 => some (.lea f) | 0x3A => some (.sel f) | 0x3B => some (.mov f) | 0x3C => some (.setp f) | 0x3D => some (.plog f)
  | 0x3E => some (.addx f) | 0x3F => some (.idp4 f)
  | 0x40 => some (.fadd f) | 0x41 => some (.fsub f) | 0x42 => some (.fmul f) | 0x43 => some (.ffma f) | 0x44 => some (.fmin f)
  | 0x45 => some (.fmax f) | 0x46 => some (.fsetp f) | 0x47 => some (.fcls f) | 0x48 => some (.frcp f) | 0x49 => some (.frsq f)
  | 0x4A => some (.fsqrt f) | 0x4B => some (.fexp2 f) | 0x4C => some (.flog2 f) | 0x4D => some (.ftanh f)
  | 0x4E => some (.hadd2 f) | 0x4F => some (.hmul2 f) | 0x50 => some (.hfma2 f) | 0x51 => some (.fdp2 f) | 0x52 => some (.cvt f)
  | 0x53 => some (.cvts f) | 0x54 => some (.frnd f) | 0x55 => some (.fscale f)
  | 0x60 => some (.shfl f) | 0x61 => some (.vote f) | 0x62 => some (.gred f) | 0x63 => some (.gscan f) | 0x64 => some (.rebal f)
  | 0x65 => some (.rdln f) | 0x66 => some (.mfs f) | 0x67 => some (.mts f) | 0x68 => some (.qstat f) | 0x69 => some (.mtch f)
  | 0x80 => some (.ld f) | 0x81 => some (.st f) | 0x82 => some (.atom f) | 0x83 => some (.red f) | 0x84 => some (.cas f)
  | 0x85 => some (.fence f) | 0x86 => some (.pref f) | 0x87 => some (.cctl f) | 0x88 => some (.testp f)
  | 0xA0 => some (.cpsl f) | 0xA1 => some (.cpc f) | 0xA2 => some (.gath f) | 0xA3 => some (.scat f) | 0xA4 => some (.scata f)
  | 0xC0 => some (.mma f) | 0xC1 => some (.mmag f) | 0xC2 => some (.acalloc f) | 0xC3 => some (.acfree f)
  | 0xC4 => some (.aczero f) | 0xC5 => some (.obres f) | 0xC6 => some (.obrel f) | 0xC7 => some (.drain f)
  | 0xC8 => some (.qcfg f)
  | 0xE0 => some (.sysc f) | 0xE1 => some (.csrr f) | 0xE2 => some (.csrw f) | 0xE3 => some (.tlbi f) | 0xE4 => some (.eret f)
  | 0xE5 => some (.halt f)
  | _ => none

/-- The rules of a form for its field values; none for the steps that are no form. -/
def rowFor (i : Instr) : Option Row :=
  match i with
  | .nop f | .ret f | .exit f | .yield f => some (rowOf .b (plain0 f && decide (f.md = 0)) (decide (f.imm = 0)))
  | .j f =>
    some { rowOf .b (decide (f.fn.toNat ≤ 2) && decide (f.ty = .n32) && !f.sat && decide (f.rm = .rne) && decide (f.md = 0))
        (immMask f 0x0FFFFFFF#32) with
      a := if f.fn = 0 then .unused else .val false 1 64 false true false false false }
  | .call f => some (rowOf .b (plain0 f && decide (f.md = 0)) (immMask f 0x0FFFFFFF#32))
  | .jr f | .callr f =>
    some { rowOf .b (plain0 f && decide (f.md = 0)) (decide (f.imm = 0)) with a := .val false 1 32 true true false false false }
  | .bar f => some { rowOf .g (plain0 f && decide (f.md = 0)) (decide (f.imm = 0)) with uni := .bar }
  | .barn f | .bara f =>
    some { rowOf .g (decide (f.ty = .n32) && !f.sat && decide (f.rm = .rne) && decide (f.md = 0))
        (if f.a = .imm then decide (1 ≤ f.imm.toNat) && decide (f.imm.toNat ≤ 128) else decide (f.imm = 0)) with
      uni := .bar, a := .val false 1 64 false true false false true }
  | .wait f =>
    some { rowOf .b (decide (f.fn.toNat ≤ 11) && int4.contains f.ty && !f.sat && decide (f.rm = .rne) && mdM f [0, 1] false) true with
      d := dstV (tyWidth f.ty), a := ptrV, b := offV, c := dataV (tyWidth f.ty), e := .pred true,
      g := .val false 1 64 false true true true false }
  | .wtok f => some (rowOf .b (plain0 f && decide (f.md = 0) && decide (f.wk ≠ 0)) (decide (f.imm = 0)))
  | .trap f | .brk f => some (rowOf .b (plain0 f && decide (f.md = 0)) true)
  | .launch f => some { rowOf .b (plain0 f && mdE f) (decide (f.imm = 0)) with a := ptrV }
  | .nap f =>
    some { rowOf .b (decide (f.fn.toNat ≤ 1) && decide (f.ty = .n32) && !f.sat && decide (f.rm = .rne) && decide (f.md = 0))
        (if f.a = .imm then true else decide (f.imm = 0)) with
      a := if f.fn = 0 then ptrV else .val false 1 32 true true true false true }
  | .add f | .sub f | .mul f =>
    some { rowOf .b (intOk f int4 true) (immLit f 32) with d := dstV (tyWidth f.ty), a := srcV (tyWidth f.ty), b := srcV (tyWidth f.ty) }
  | .mulh f | .div f | .rem f | .min f | .max f =>
    some { rowOf .b (intOk f int4 false) (immLit f 32) with d := dstV (tyWidth f.ty), a := srcV (tyWidth f.ty), b := srcV (tyWidth f.ty) }
  | .mad f =>
    some { rowOf .b (intOk f int4 true) (immLit f 32) with
      d := dstV (tyWidth f.ty), a := srcV (tyWidth f.ty), b := srcV (tyWidth f.ty), c := srcV (tyWidth f.ty) }
  | .abs f => some { rowOf .b (intOk f [.i32, .i64] true) (immLit f 32) with d := dstV (tyWidth f.ty), a := srcV (tyWidth f.ty) }
  | .and f | .or f | .xor f | .andn f =>
    some { rowOf .b (intOk f nat2 false) (immLit f 32) with d := dstV (tyWidth f.ty), a := srcV (tyWidth f.ty), b := srcV (tyWidth f.ty) }
  | .not f | .popc f | .clz f | .ctz f | .brev f =>
    some { rowOf .b (intOk f nat2 false) (immLit f 32) with d := dstV (tyWidth f.ty), a := srcV (tyWidth f.ty) }
  | .shl f | .shr f | .rot f =>
    some { rowOf .b (intOk f nat2 false) (immLit f 32) with d := dstV (tyWidth f.ty), a := srcV (tyWidth f.ty), b := srcV 32 }
  | .sar f =>
    some { rowOf .b (intOk f [.i32, .i64] false) (immLit f 32) with d := dstV (tyWidth f.ty), a := srcV (tyWidth f.ty), b := srcV 32 }
  | .bfx f => some { rowOf .b (intOk f int4 false) (immLit f 32) with d := dstV (tyWidth f.ty), a := srcV (tyWidth f.ty), b := srcV 32 }
  | .bfi f =>
    some { rowOf .b (intOk f nat2 false) (immLit f 32) with
      d := dstV (tyWidth f.ty), a := srcV (tyWidth f.ty), b := srcV (tyWidth f.ty), c := srcV 32 }
  | .lea f =>
    some { rowOf .b (intOk f [.n32, .i32, .n64] false) (immLit f 32) with
      d := dstV 64, a := .val false 2 64 true true true true true, b := srcV (tyWidth f.ty), c := srcV 32 }
  | .sel f =>
    some { rowOf .b (intOk f int4 false) (immLit f 32) with
      d := dstV (tyWidth f.ty), a := srcV (tyWidth f.ty), b := srcV (tyWidth f.ty), c := .pred false }
  | .mov f => some { rowOf .b (intOk f int4 false) (immLit f 32) with d := dstV (tyWidth f.ty), a := srcV (tyWidth f.ty) }
  | .setp f =>
    some { rowOf .b (decide (f.fn.toNat ≤ 9) && int4.contains f.ty && !f.sat && decide (f.rm = .rne) && decide (f.md = 0)) (immLit f 32) with
      d := .pred true, a := srcV (tyWidth f.ty), b := srcV (tyWidth f.ty) }
  | .plog f =>
    some { rowOf .b (plain0 f && decide (f.md = 0)) (immMask f 0xF#32) with
      d := .pred true, a := .pred false, b := .pred false, c := .val false 1 32 false false false false true }
  | .addx f =>
    some { rowOf .b (intOk f nat2 false) (immLit f 32) with
      d := dstV (tyWidth f.ty), a := srcV (tyWidth f.ty), b := srcV (tyWidth f.ty), c := .pred false, e := .pred true }
  | .idp4 f => some { rowOf .b (intOk f [.n8, .i8] true) (immLit f 32) with d := dstV 32, a := srcV 32, b := srcV 32, c := srcV 32 }
  | .fadd f | .fsub f | .fmul f =>
    some { rowOf .b (fpOk f fp3 true true true false true) (immLit f (tyWidth f.ty)) with
      d := dstV (tyWidth f.ty), a := srcV (tyWidth f.ty), b := srcV (tyWidth f.ty) }
  | .ffma f =>
    some { rowOf .b (fpOk f fp3 true true true true true) (immLit f (tyWidth f.ty)) with
      d := dstV (tyWidth f.ty), a := srcV (tyWidth f.ty), b := srcV (tyWidth f.ty), c := srcV (tyWidth f.ty) }
  | .fmin f | .fmax f =>
    some { rowOf .b (fpOk f fp3 false true true false true) (immLit f (tyWidth f.ty)) with
      d := dstV (tyWidth f.ty), a := srcV (tyWidth f.ty), b := srcV (tyWidth f.ty) }
  | .fsetp f =>
    some { rowOf .b (decide (f.fn.toNat ≤ 5) && fp3.contains f.ty && !f.sat && decide (f.rm = .rne) && mdF f true true false true)
        (immLit f (tyWidth f.ty)) with
      d := .pred true, a := srcV (tyWidth f.ty), b := srcV (tyWidth f.ty) }
  | .fcls f =>
    some { rowOf .g (fpOk f fp3 false true false false false) (immLit f (tyWidth f.ty)) with d := dstV 32, a := srcV (tyWidth f.ty) }
  | .frcp f | .frsq f | .fsqrt f | .fexp2 f | .flog2 f | .ftanh f | .frnd f =>
    some { rowOf .g (fpOk f fp3 true true false false true) (immLit f (tyWidth f.ty)) with d := dstV (tyWidth f.ty), a := srcV (tyWidth f.ty) }
  | .hadd2 f | .hmul2 f =>
    some { rowOf .g (fpOk f fp2 true true true false true) (immLit f 32) with d := dstV 32, a := srcV 32, b := srcV 32 }
  | .hfma2 f | .fdp2 f =>
    some { rowOf .g (fpOk f fp2 true true true true true) (immLit f 32) with d := dstV 32, a := srcV 32, b := srcV 32, c := srcV 32 }
  | .cvt f =>
    some { rowOf .b (cvtOk f && mdF f (cvtSigned f) false false true) (immLit f (tyWidth (tyOf f.fn))) with
      d := dstV (tyWidth f.ty), a := srcV (tyWidth (tyOf f.fn)) }
  | .cvts f =>
    some { rowOf .g (decide (f.fn.toNat % 8 ≤ 5) && decide (f.ty = .n32) && !f.sat
          && (decide (f.fn ≠ 0) || decide (f.rm = .rne)) && mdF f (!f.fn.getLsbD 3) false false true) (immLit f 32) with
      d := dstV 32, a := srcV 32, b := srcV 32, c := srcV 32 }
  | .fscale f =>
    some { rowOf .g (fpOk f fp3 true true false false true) (immLit f (if f.a = .imm then tyWidth f.ty else 32)) with
      d := dstV (tyWidth f.ty), a := srcV (tyWidth f.ty), b := srcV 32 }
  | .shfl f =>
    some { rowOf .g (decide (f.fn.toNat ≤ 3) && nat2.contains f.ty && !f.sat && decide (f.rm = .rne) && decide (f.md = 0)) (immLit f 32) with
      uni := .zero, d := onlyV true (tyWidth f.ty), a := onlyV false (tyWidth f.ty),
      b := .val false 1 32 true true false true true, c := .val false 1 32 false true false true true }
  | .vote f =>
    some { rowOf .g (decide (f.fn.toNat ≤ 3) && decide (f.ty = .n32) && !f.sat && decide (f.rm = .rne) && decide (f.md = 0))
        (decide (f.imm = 0)) with
      d := if f.fn = 2 then .val true 1 32 true true false false false else .pred true, a := .pred false }
  | .gred f =>
    some { rowOf .g ((if f.fn.toNat ≤ 5 then int4.contains f.ty else decide (f.fn.toNat ≤ 8) && decide (f.ty = .f32)) && !f.sat
          && (decide (f.fn = 6) || decide (f.rm = .rne)) && decide (f.md = 0)) (decide (f.imm = 0)) with
      d := .val true (regsFor (tyWidth f.ty)) (tyWidth f.ty) true true false false false, a := onlyV false (tyWidth f.ty),
      e := .val true 1 32 true true false true false }
  | .gscan f =>
    some { rowOf .g ((if f.fn.toNat % 8 ≤ 5 then int4.contains f.ty else decide (f.fn.toNat % 8 = 6) && decide (f.ty = .f32)) && !f.sat
          && (decide (f.fn.toNat % 8 = 6) || decide (f.rm = .rne)) && decide (f.md = 0)) (decide (f.imm = 0)) with
      uni := .zero, d := onlyV true (tyWidth f.ty), a := onlyV false (tyWidth f.ty),
      e := .val true (regsFor (tyWidth f.ty)) (tyWidth f.ty) true false false true false }
  | .rebal f =>
    some { rowOf .g (plain0 f && decide (f.md = 0)) (immLit f 32) with
      uni := .zero, d := onlyV true 32, a := onlyV false 32, b := .val false 1 32 true true false true true,
      e := onlyV true 32, g := .val true 1 32 true false false true false }
  | .rdln f =>
    some { rowOf .g (decide (f.fn = 0) && nat2.contains f.ty && !f.sat && decide (f.rm = .rne) && decide (f.md = 0)) (immLit f 32) with
      d := .val true (regsFor (tyWidth f.ty)) (tyWidth f.ty) true true false false false, a := onlyV false (tyWidth f.ty),
      b := .val false 1 32 false true false true true }
  | .mfs f =>
    some { rowOf .b (decide (f.fn = 0) && nat2.contains f.ty && !f.sat && decide (f.rm = .rne) && decide (f.md = 0))
        (decide (f.imm.toNat ≤ 0x19)) with d := dstV (match f.d with | .u _ => 64 | _ => tyWidth f.ty) }
  | .mts f =>
    some { rowOf .b (plain0 f && decide (f.md = 0)) (decide (f.imm = 0x13)) with uni := .groupOne, a := .val false 1 32 true true false true false }
  | .qstat f => some { rowOf .b (plain0 f && decide (f.md = 0)) (decide (f.imm = 0)) with d := dstV 32, a := .queue }
  | .mtch f =>
    some { rowOf .g (decide (f.fn = 0) && nat2.contains f.ty && !f.sat && decide (f.rm = .rne) && decide (f.md = 0)) (decide (f.imm = 0)) with
      d := .val true 1 32 true true false false false, a := onlyV false (tyWidth f.ty) }
  | .ld f =>
    some { rowOf .b (ldstTy f.fn f.ty && !f.sat && decide (f.rm = .rne) && mdM f [0, 1] true) true with
      d := ldstSlot true f, a := ptrV, b := offV }
  | .st f =>
    some { rowOf .b (ldstTy f.fn f.ty && !f.sat && decide (f.rm = .rne) && mdM f [0, 2] true) true with
      a := ptrV, b := offV, c := ldstSlot false f }
  | .atom f =>
    some { rowOf .b (atomicOk f && mdM f [0, 1, 2, 3] true) true with
      d := dstV (tyWidth f.ty), a := ptrV, b := offV, c := dataV (tyWidth f.ty) }
  | .red f => some { rowOf .b (atomicOk f && mdM f [0, 2] true) true with a := ptrV, b := offV, c := dataV (tyWidth f.ty) }
  | .cas f =>
    some { rowOf .b (decide (f.fn = 0) && nat2.contains f.ty && !f.sat && decide (f.rm = .rne) && mdM f [0, 1, 2, 3] true) true with
      d := dstV (tyWidth f.ty), a := ptrV, b := offV, c := dataV (tyWidth f.ty), e := dataV (tyWidth f.ty) }
  | .fence f => some (rowOf .b (plain0 f && mdM f [1, 2, 3] false) (decide (f.imm = 0)))
  | .pref f =>
    some { rowOf .b (decide (f.fn.toNat ≤ 1) && decide (f.ty = .n32) && !f.sat && decide (f.rm = .rne) && mdM f [0] false) true with
      a := ptrV, b := offV }
  | .cctl f =>
    some { rowOf .b (decide (f.fn.toNat ≤ 3) && decide (f.ty = .n32) && !f.sat && decide (f.rm = .rne)
          && mdM f (if f.fn = 0 then [0, 2] else [0]) false) (if f.fn = 3 then decide (f.imm = 0) else true) with
      a := if f.fn = 3 then .unused else ptrV, b := if f.fn = 3 then .unused else offV }
  | .testp f => some { rowOf .b (plain0 f && mdM f [0] false) true with d := .pred true, a := ptrV, b := offV }
  | .cpsl f =>
    some { rowOf .g (decide (f.ty = .n32) && !f.sat && decide (f.rm = .rne) && mdE f) (immMask f 0x00FFFF7F#32) with
      uni := .groupOne, d := regUz, a := regUz, b := regUz, c := regUz, e := regUz }
  | .cpc f => some { rowOf .c (plain0 f && mdE f) (immMask f 0x00FF0000#32) with d := regUz, a := regUz, b := regUz, c := regUz, e := regUz }
  | .gath f =>
    some { rowOf .b (plain0 f && mdE f) (immMask f 0x1FFF#32) with uni := .groupOne, d := regU, a := regU, b := regU, c := regUz }
  | .scat f =>
    some { rowOf .b (plain0 f && mdE f) (immMask f 0x1FFF#32) with uni := .groupOne, a := regU, b := regU, c := regUz, e := regU }
  | .scata f =>
    some { rowOf .b (atomicOk f && mdE f) (immMask f 0x1FFF#32) with uni := .groupOne, a := regU, b := regU, c := regUz, e := regU }
  | .mma f | .mmag f =>
    some { rowOf .c ((match i with | .mmag _ => decide (f.fn.toNat / 2 = 1) | _ => decide (f.fn.toNat ≤ 3)) && decide (f.ty = .n32) && !f.sat
          && decide (f.rm = .rne) && mdE f) (immMask f 0x1FFF#32) with
      d := (match i with | .mmag _ => regU | _ => .unused),
      a := if f.fn.getLsbD 0 then regU else .unused, c := if f.fn.getLsbD 0 then regUz else .unused,
      b := if f.fn.getLsbD 1 then regU else .unused, e := if f.fn.getLsbD 1 then regUz else .unused, g := regU }
  | .acalloc f =>
    some { rowOf .c (plain0 f && decide (f.md = 0)) (if f.a = .imm then decide (f.imm.toNat < 64) else decide (f.imm = 0)) with
      d := .val true 1 64 false true true true false, a := .val false 1 64 false true true false true }
  | .acfree f =>
    some { rowOf .c (plain0 f && decide (f.md = 0)) (if f.a = .imm then true else decide (f.imm = 0)) with
      a := .val false 1 64 false true true false true }
  | .aczero f => some (rowOf .c (plain0 f && mdE f) (immMask f 0x1F#32))
  | .obres f =>
    some { rowOf .c (decide (f.ty = .n32) && !f.sat && decide (f.rm = .rne) && decide (f.md = 0)) (decide (f.imm = 0)) with
      d := .val true 1 64 false true true true false, a := regU }
  | .obrel f => some (rowOf .c (decide (f.ty = .n32) && !f.sat && decide (f.rm = .rne) && decide (f.md = 0)) (decide (f.imm = 0)))
  | .drain f =>
    some { rowOf .c (decide (f.fn.toNat % 8 ≤ 3) && decide (f.ty = .n32) && !f.sat && decide (f.rm = .rne) && mdE f) (drainImm f) with
      a := if f.imm.getLsbD 5 then .unused else regU, b := regUz,
      c := if f.fn.toNat % 8 = 3 then regU else .unused, e := if f.fn.getLsbD 3 then regUz else .unused }
  | .qcfg f =>
    some { rowOf .c (decide (8 ≤ f.fn.toNat) && decide (f.fn.toNat ≤ 13) && decide (f.ty = .n32) && !f.sat && decide (f.rm = .rne)
          && decide (f.md = 0)) (immLit f 32) with a := .val false 1 64 false true false true true }
  | .sysc f =>
    some { rowOf .p (plain0 f && decide (f.md = 0)) (immMask f 0xFFFF#32) with
      uni := .zero, d := .val true 1 64 false true false true false, a := .val false 1 64 false true false true false }
  | .csrr f =>
    some { rowOf .p (plain0 f && decide (f.md = 0)) (immMask f 0xFFFF#32 && csrNamed f.imm.toNat) with uni := .zero, d := .val true 1 64 false true false false false }
  | .csrw f =>
    some { rowOf .p (plain0 f && decide (f.md = 0)) (immMask f 0xFFFF#32 && csrNamed f.imm.toNat) with uni := .zero, a := .val false 1 64 false true false true false }
  | .tlbi f =>
    some { rowOf .p (decide (f.fn.toNat ≤ 3) && decide (f.ty = .n32) && !f.sat && decide (f.rm = .rne) && decide (f.md = 0))
        (decide (f.imm = 0)) with
      uni := .zero, a := if f.fn = 3 then .unused else .val false 1 64 false true false false false,
      b := if f.fn = 0 then .val false 1 64 false true false false false else .unused }
  | .eret f | .halt f => some { rowOf .p (plain0 f && decide (f.md = 0)) (decide (f.imm = 0)) with uni := .zero }
  | _ => none

/-! ### The checks of R49 -/

/-- Step 1: the agent within the mark; privileged forms on a privileged thread (R10, R304). -/
def markOk (k : AgentKind) : Mark → Bool
  | .b => true
  | .g => decide (k = .group)
  | .c => !decide (k = .group)
  | .p => decide (k = .privileged)

/-- A destination slot whose operand is an s register. -/
def dstU : Slot → Operand → Bool
  | .val true _ _ _ _ _ _ _, .u _ => true
  | _, _ => false

/-- Step 3: UNI, PG and PN (R41, R42). -/
def uniOk (k : AgentKind) (r : Row) (f : Fields) : Bool :=
  !(decide (f.pg = 7) && f.pn)
    && (!f.uni || (decide (f.pg = 7) && !f.pn))
    && (decide (k = .group) || !f.uni)
    && (match r.uni with
        | .any => true
        | .zero => !f.uni
        | .groupOne => !decide (k = .group) || f.uni
        | .bar => !f.uni && decide (f.pg = 7) && !f.pn)
    && (!decide (k = .group) || f.uni ||
        !(dstU r.d f.d || dstU r.a f.a || dstU r.b f.b || dstU r.c f.c || dstU r.e f.e || dstU r.g f.g))

/-- The forms whose rules refuse a queue register in any field with 0x0D (R158, R179, R196, R234, R256, R283). -/
def noQueue : Instr → Bool
  | .wait _ | .launch _ | .nap _ => true
  | .ld _ | .st _ | .atom _ | .red _ | .cas _ | .fence _ | .pref _ | .cctl _ | .testp _ => true
  | .cpsl _ | .cpc _ | .wtok _ | .gath _ | .scat _ | .scata _ => true
  | .mma _ | .mmag _ | .acalloc _ | .acfree _ | .aczero _ | .obres _ | .obrel _ | .drain _ => true
  | _ => false

/-- Step 4 for one field: the operand is of the kind the field calls for, a v number is a multiple of the registers it names, and no v code on
a control thread (R40, R44). A queue register is of the kind of a field whose rule names no kinds of operand (R94), and step 7 judges its use (R12);
a field whose rule lists its kinds, a predicate field and an unused field take none. Where `any` holds, step 7 refuses it in every field (log
entry 5). -/
def slotOk (k : AgentKind) (any : Bool) (s : Slot) (o : Operand) : Bool :=
  match s, o with
  | .unused, .q _ => any
  | .unused, o => decide (o = .v 0)
  | .val _ n _ v _ _ _ _, .v r => v && decide (k = .group) && decide (r.toNat % n = 0)
  | .val _ _ _ _ u _ _ _, .u _ => u
  | .val _ _ _ _ _ q _ _, .q _ => q || any
  | .val _ _ _ _ _ _ z _, .zero => z
  | .val _ _ _ _ _ _ _ i, .imm => i
  | .val _ _ _ _ _ _ _ _, .p _ => false
  | .pred _, .p _ => true
  | .pred _, .q _ => any
  | .pred _, _ => false
  | .queue, .q _ => true
  | .queue, _ => false

/-- A FE bit may be set only for a source that names a v, s or c register (R54). -/
def feOk (s : Slot) (o : Operand) : Bool :=
  match s, o with
  | .val false _ _ _ _ _ _ _, .v _ => true
  | .val false _ _ _ _ _ _ _, .u _ => true
  | _, _ => false

/-- Step 4 for all fields. -/
def operandsOk (k : AgentKind) (any : Bool) (r : Row) (f : Fields) : Bool :=
  slotOk k any r.d f.d && slotOk k any r.a f.a && slotOk k any r.b f.b && slotOk k any r.c f.c && slotOk k any r.e f.e && slotOk k any r.g f.g
    && (!f.fe.getLsbD 0 || feOk r.a f.a) && (!f.fe.getLsbD 1 || feOk r.b f.b) && (!f.fe.getLsbD 2 || feOk r.c f.c)

/-- Step 6 for one field: every v register it names below the budget (R44, R160). -/
def budgetOk (budget : Nat) (s : Slot) (o : Operand) : Bool :=
  match s, o with
  | .val _ n _ _ _ _ _ _, .v r => decide (r.toNat + n ≤ budget)
  | _, _ => true

/-- Step 6 for all fields. -/
def budgetsOk (budget : Nat) (r : Row) (f : Fields) : Bool :=
  budgetOk budget r.d f.d && budgetOk budget r.a f.a && budgetOk budget r.b f.b && budgetOk budget r.c f.c && budgetOk budget r.e f.e
    && budgetOk budget r.g f.g

/-- How a field uses a queue register: none; a read or a write with the width of the slot (true for more than 32 bits); or QSTAT. -/
inductive QUse where
  | none
  | read (q : BitVec 4) (wide : Bool)
  | write (q : BitVec 4) (wide : Bool)
  | stat (q : BitVec 4)
  | bad
deriving DecidableEq, Repr, Inhabited

/-- The queue use of one field: `bad` where no queue register may stand (R13). -/
def quse (s : Slot) (o : Operand) : QUse :=
  match s, o with
  | .val true _ w _ _ true _ _, .q n => .write n (decide (w > 32))
  | .val false _ w _ _ true _ _, .q n => .read n (decide (w > 32))
  | .queue, .q n => .stat n
  | _, .q _ => .bad
  | _, _ => .none

/-- Two uses joined: an instruction names at most one queue register (R13). -/
def QUse.join (x y : QUse) : QUse :=
  match x, y with
  | .none, y => y
  | x, .none => x
  | _, _ => .bad

/-- The queue use of an instruction. -/
def quseOf (r : Row) (f : Fields) : QUse :=
  ((((quse r.d f.d).join (quse r.a f.a)).join (quse r.b f.b)).join (quse r.c f.c)).join ((quse r.e f.e).join (quse r.g f.g))

/-- A source field that names a v register. -/
def srcIsV (s : Slot) (o : Operand) : Bool :=
  match s, o with
  | .val false _ _ _ _ _ _ _, .v _ => true
  | _, _ => false

/-- The width of the destination is more than 32 bits. -/
def dstWide : Slot → Bool
  | .val true _ w _ _ _ _ _ => decide (w > 32)
  | _ => false

/-- A position in which step 7 takes no queue register though its field names no kinds of operand: LEA's address base (R13), and the D of CVTS.pack,
which is both read and written (DESIGN CHOICE, log entry 70). -/
def baseIsQueue (i : Instr) : Bool :=
  match i with
  | .lea f => (match f.a with | .q _ => true | _ => false)
  | .cvts f => !f.fn.getLsbD 3 && (match f.d with | .q _ => true | _ => false)
  | _ => false

/-- Step 7: the queue use is permitted (R12 to R14, R129). A report entry comes from an s register, zero or IMM, so a form without a source (MFS)
writes none. -/
def queueOk (k : AgentKind) (i : Instr) (r : Row) (f : Fields) : Bool :=
  match quseOf r f with
  | .none => true
  | .bad => false
  | .stat q => if k = .group then decide (q.toNat ≤ 13) else decide (q.toNat ≤ 7) || decide (q.toNat = 15)
  | .read q wide =>
    !noQueue i && !baseIsQueue i &&
    (if k = .group then
      if q.toNat ≤ 3 then f.uni && dstU r.d f.d
      else if 12 ≤ q.toNat ∧ q.toNat ≤ 13 then
        !f.uni && !wide && !dstWide r.d && (match f.d with | .v _ => true | _ => false) && (match r.d with | .val true _ _ _ _ _ _ _ => true | _ => false)
      else false
    else (decide (4 ≤ q.toNat) && decide (q.toNat ≤ 7)) || decide (q.toNat = 15))
  | .write q wide =>
    !noQueue i && !baseIsQueue i &&
    (if k = .group then
      if 4 ≤ q.toNat ∧ q.toNat ≤ 7 then
        f.uni && decide (r.a ≠ .unused) && !(srcIsV r.a f.a || srcIsV r.b f.b || srcIsV r.c f.c || srcIsV r.e f.e || srcIsV r.g f.g)
      else if 8 ≤ q.toNat ∧ q.toNat ≤ 11 then !f.uni && !wide
      else false
    else decide (q.toNat ≤ 3))

/-- The fault of the first check of R49 that fails, none when all pass. The steps that are no form pass none of them. -/
def decodeFault (k : AgentKind) (budget : Nat) (i : Instr) : Option Byte :=
  match rowFor i, formOf i with
  | some r, some (_, f) =>
    if !markOk k r.mark then some 0x01
    else if !r.ok then some 0x01
    else if !uniOk k r f then some 0x01
    else if !operandsOk k (noQueue i) r f then some 0x01
    else if !r.imm then some 0x01
    else if k = .group ∧ !budgetsOk budget r f then some 0x03
    else if !queueOk k i r f then some 0x0D
    else none
  | _, _ => some 0x01

/-- Some agent may execute the word: a group with the largest budget, a control thread or a privileged one. -/
def legalSomewhere (i : Instr) : Bool :=
  decide (decodeFault .group 128 i = none) || decide (decodeFault .control 0 i = none) || decide (decodeFault .privileged 0 i = none)

end Sys2Proof.Machine
end

