-- ==== Sys2Proof/WellFormed.lean ====
section
/-! DEFINITION. Which instructions are well-formed: a form that some agent may execute (R49), or a step that names agents, lanes, partitions,
queues and clusters that the part has. -/

namespace Sys2Proof

/-- An agent number: a group 0 to 127 or 128 for the control thread (R11). -/
def AgentId.ok (a : AgentId) : Bool := decide (a.who ≤ 128)

/-- The arguments of a step that is no form are in the ranges the spec gives: 12 partitions and dies (R1, R297), 64 host queues (R270),
16 queues of a team (R12), 384 clusters and 192 pairs (R1), 768 slices (R1), 32 lanes (R11), 128 groups (R11). -/
def Instr.argsOk : Instr → Bool
  | .activeSetSwap a | .goose a | .resultLands a _ | .loadReply a _ | .storeAcknowledge a _ | .releaseWaitExpiry a | .tlbiComplete a
  | .syscAnswer a _ => a.ok
  | .napWake a l | .replayWaitDelivery a l => a.ok && decide (l < 32)
  | .queueWake _ q => decide (q < 16)
  | .acallocGrant c => decide (c < 384)
  | .teamRestore _ c | .teamMigrate _ c => decide (c < 384)
  | .monitorTimeout s => decide (s < 768)
  | .contextEnd p a => decide (p < 12) && decide (a < 65536)
  | .faultQueueRetry p _ | .faultQueueRefuse p _ | .fqrdWrite p _ => decide (p < 12)
  | .queueEnable p q _ | .queueDisable p q _ | .qdoor p q _ => decide (p < 12) && decide (q < 64)
  | .launchPacket p q | .copyPacket p q | .signalPacket p q | .waitmonPacket p q | .fencePacket p q | .markerPacket p q =>
    decide (p < 12) && decide (q < 64)
  | .graceExpiry c => decide (c < 4)
  | .controlInterval d _ | .firmwareTimer d | .privilegedThreadStart d _ => decide (d < 12)
  | .currentLimit p _ | .mule p _ _ | .thermalMigration p | .pairPowerGate p => decide (p < 192)
  | .sessionOpen p c _ | .sessionClose p c _ | .lostClear p c => decide (p < 12) && decide (c < 65536)
  | .watchpointArm p c k _ => decide (p < 12) && decide (c < 65536) && decide (k < 16)
  | .sample cl p c => decide (cl < 384) && decide (p < 12) && decide (c < 65536)
  | .lcrClear p cl b c => decide (p < 12) && decide (cl < 384) && decide (b < 64) && decide (c < 64)
  | .hostWrite p _ _ | .hostRead p _ _ => decide (p < 12)
  | .registerWrite (some v) _ _ _ => decide (v < 12)
  | .peerAccess d sp p _ => decide (d < 1024) && decide (sp < 16) && decide (p < 12)
  | .atcmd p _ | .attestationReport p _ => decide (p < 12)
  | _ => true

/-- Well-formed: some agent may execute the form, or the step's arguments are in range. -/
def Instr.wellFormed (i : Instr) : Bool :=
  match Machine.formOf i with
  | some _ => Machine.legalSomewhere i
  | none => i.argsOk

end Sys2Proof
end

