-- ==== Sys2Proof/Decode.lean ====
section
/-! DEFINITION. The decoder of the 128-bit instruction word (R39 to R49), total and rejecting by name, and after it the encoder, written from the
same field table. -/

namespace Sys2Proof

/-- Why a word is no instruction: bits [63:60] nonzero (R39), an operand code that names no operand (R44), a reserved opcode (R48), or the
fault of a decode check that fails for every agent (R49). -/
inductive Reject where
  | reservedBits
  | reservedOperand
  | reservedOpcode
  | check (fault : Byte)
deriving DecidableEq, Repr, Inhabited

/-- The operand of a code; none for the reserved codes (R44). -/
def operandOf (c : Byte) : Option Operand :=
  if c.toNat < 0x80 then some (.v (c.setWidth 7))
  else if c.toNat < 0xC0 then some (.u (c.setWidth 6))
  else if c.toNat < 0xD0 then some (.q (c.setWidth 4))
  else if c.toNat < 0xD8 then some (.p (c.setWidth 3))
  else if c = 0xE0 then some .zero
  else if c = 0xE1 then some .imm
  else none

/-- The code of an operand (R44). -/
def operandCode : Operand → Byte
  | .v n => BitVec.ofNat 8 n.toNat
  | .u n => BitVec.ofNat 8 (0x80 + n.toNat)
  | .q n => BitVec.ofNat 8 (0xC0 + n.toNat)
  | .p n => BitVec.ofNat 8 (0xD0 + n.toNat)
  | .zero => 0xE0
  | .imm => 0xE1

/-- The rounding mode of a code (R39). -/
def rmOf (c : BitVec 2) : Rm :=
  match c.toNat with
  | 0 => .rne | 1 => .rz | 2 => .rd | _ => .ru

/-- The code of a rounding mode (R39). -/
def rmCode : Rm → BitVec 2
  | .rne => 0 | .rz => 1 | .rd => 2 | .ru => 3

/-- The n bits of a word from bit lo on. -/
def field (w : Code128) (lo n : Nat) : BitVec n := w.extractLsb' lo n

/-- The fields of a word; refused where an operand code is reserved (R39, R44). -/
def fieldsOf (w : Code128) : Option Fields :=
  match operandOf (field w 16 8), operandOf (field w 24 8), operandOf (field w 32 8), operandOf (field w 40 8),
      operandOf (field w 80 8), operandOf (field w 88 8) with
  | some d, some a, some b, some c, some e, some g =>
    some { fn := field w 8 4, ty := Machine.tyOf (field w 12 4), d := d, a := a, b := b, c := c, pg := field w 48 3,
           pn := w.getLsbD 51, uni := w.getLsbD 52, gate := w.getLsbD 53, fe := field w 54 3, sat := w.getLsbD 57,
           rm := rmOf (field w 58 2), wk := field w 64 8, md := field w 72 8, e := e, g := g, imm := field w 96 32 }
  | _, _, _, _, _, _ => none

/-- The instruction that a word's fields name, before the checks of R49. -/
def parse (w : Code128) : Except Reject Instr :=
  if field w 60 4 ≠ 0#4 then .error .reservedBits
  else match Machine.formAt (field w 0 8) default with
    | none => .error .reservedOpcode
    | some _ => match fieldsOf w with
      | none => .error .reservedOperand
      | some f => match Machine.formAt (field w 0 8) f with
        | none => .error .reservedOpcode
        | some i => .ok i

/-- What the sequencer decodes for an agent with a register budget: the instruction, or the fault of the first check that fails (R49). A word
that does not parse fails a check of steps 1 to 5, all of which raise fault 0x01. -/
def decodeFor (k : Machine.AgentKind) (budget : Nat) (w : Code128) : Except Byte Instr :=
  match parse w with
  | .error _ => .error 0x01
  | .ok i => match Machine.decodeFault k budget i with
    | some c => .error c
    | none => .ok i

/-- The decoder: the instruction of a word that some agent may execute; every other word is refused by name. -/
def decode (w : Code128) : Except Reject Instr :=
  match parse w with
  | .error r => .error r
  | .ok i =>
    if Machine.legalSomewhere i then .ok i
    else .error (.check ((Machine.decodeFault .group 128 i).getD 0x01))

/-- The sixteen bytes of a word in memory order (R39). -/
def wordBytes (w : Code128) : List Byte := Machine.toBytes 16 w.toNat

/-- The word of sixteen bytes in memory order (R39). -/
def wordOfBytes (bs : List Byte) : Code128 := BitVec.ofNat 128 (Machine.ofBytes bs)

/-- The instruction the decoder reads from bits numbered from the least significant bit of the first byte; a word is 128 bits whatever `nbits`. -/
def decodeTableWord (_nbits w : Nat) : Option Instr :=
  match decode (wordOfBytes (wordBytes (BitVec.ofNat 128 w))) with
  | .ok i => some i
  | .error _ => none

/-! ### The encoder -/

/-- A truth value as one bit. -/
def bit1 (b : Bool) : BitVec 1 := BitVec.ofBool b

/-- The word of an opcode and fields, from the highest bits down (R39). -/
def assemble (opc : BitVec 8) (f : Fields) : Code128 :=
  f.imm ++ operandCode f.g ++ operandCode f.e ++ f.md ++ f.wk ++ 0#4 ++ rmCode f.rm ++ bit1 f.sat ++ f.fe ++ bit1 f.gate ++ bit1 f.uni
    ++ bit1 f.pn ++ f.pg ++ operandCode f.c ++ operandCode f.b ++ operandCode f.a ++ operandCode f.d ++ Machine.tyCode f.ty ++ f.fn ++ opc

/-- The word of a form; the steps that are no form have none. -/
def encode (i : Instr) : Option Code128 :=
  match Machine.formOf i with
  | some (opc, f) => some (assemble opc f)
  | none => none

end Sys2Proof
end

