-- ==== Sys2Proof/Machine/Flags.lean ====
section
/-! DEFINITION. Floating-point values, formats and flags: the formats of R105 to R107, exact values, the one rounding of R108 and the five
sticky flags of R109 and R110. Every floating-point and matrix operation forms an exact value and rounds it here. -/

namespace Sys2Proof.Machine

/-- The sticky flags: [0] invalid, [1] divide-by-zero, [2] overflow, [3] underflow, [4] inexact (R109). -/
abbrev FpFlags := BitVec 5

/-- The flag invalid (R109). -/
abbrev fInvalid : FpFlags := 1
/-- The flag divide-by-zero (R109). -/
abbrev fDivZero : FpFlags := 2
/-- The flag overflow (R109). -/
abbrev fOverflow : FpFlags := 4
/-- The flag underflow (R109). -/
abbrev fUnderflow : FpFlags := 8
/-- The flag inexact (R109). -/
abbrev fInexact : FpFlags := 16

/-- What a format's codes of the top exponent mean (R105): infinities and NaNs, one NaN (e4m3), or neither. -/
inductive TopKind where
  | ieee | oneNan | finite
deriving DecidableEq, Repr, Inhabited

/-- A floating-point format: exponent bits, mantissa bits, bias and the meaning of the top exponent (R105). -/
structure Fmt where
  eb : Nat
  mb : Nat
  bias : Nat
  top : TopKind
deriving DecidableEq, Repr, Inhabited

/-- binary32. -/
def fmtF32 : Fmt := ⟨8, 23, 127, .ieee⟩
/-- binary16. -/
def fmtF16 : Fmt := ⟨5, 10, 15, .ieee⟩
/-- bfloat16. -/
def fmtBf16 : Fmt := ⟨8, 7, 127, .ieee⟩
/-- e5m2. -/
def fmtE5m2 : Fmt := ⟨5, 2, 15, .ieee⟩
/-- e4m3. -/
def fmtE4m3 : Fmt := ⟨4, 3, 7, .oneNan⟩
/-- e3m2. -/
def fmtE3m2 : Fmt := ⟨3, 2, 3, .finite⟩
/-- e2m3. -/
def fmtE2m3 : Fmt := ⟨2, 3, 1, .finite⟩
/-- e2m1. -/
def fmtE2m1 : Fmt := ⟨2, 1, 1, .finite⟩

/-- The format a type code names; the integer types, l6 and e8m0 name none of them and answer f32. -/
def tyFmt : DType → Fmt
  | .f16 => fmtF16
  | .bf16 => fmtBf16
  | .e5m2 => fmtE5m2
  | .e4m3 => fmtE4m3
  | .e2m1 => fmtE2m1
  | _ => fmtF32

/-- The width of a format. -/
def Fmt.width (f : Fmt) : Nat := 1 + f.eb + f.mb

/-- The largest magnitude code that is finite (R105). -/
def Fmt.maxCode (f : Fmt) : Nat :=
  match f.top with
  | .ieee => (2 ^ f.eb - 1) * 2 ^ f.mb - 1
  | .oneNan => 2 ^ (f.eb + f.mb) - 2
  | .finite => 2 ^ (f.eb + f.mb) - 1

/-- The canonical NaN; the formats without a NaN answer +0 (R107, R116). -/
def Fmt.nanCode (f : Fmt) : Nat :=
  match f.top with
  | .ieee => (2 ^ f.eb - 1) * 2 ^ f.mb + 2 ^ (f.mb - 1)
  | .oneNan => 2 ^ (f.eb + f.mb) - 1
  | .finite => 0

/-- The exponent of the least bit of a subnormal (R105). -/
def Fmt.emin (f : Fmt) : Int := 1 - (f.bias : Int) - (f.mb : Int)

/-- A floating-point value. `fin s m e` is (-1)^s times m times 2^e, exactly; m = 0 is a zero of sign s. -/
inductive FpVal where
  | nan (signalling : Bool)
  | inf (s : Bool)
  | fin (s : Bool) (m : Nat) (e : Int)
deriving DecidableEq, Repr, Inhabited

/-- The value of a code of a format (R105). -/
def Fmt.decode (f : Fmt) (c : Nat) : FpVal :=
  let s := decide ((c / 2 ^ (f.eb + f.mb)) % 2 = 1)
  let ex := (c / 2 ^ f.mb) % 2 ^ f.eb
  let ma := c % 2 ^ f.mb
  if f.top = .ieee ∧ ex = 2 ^ f.eb - 1 then
    if ma = 0 then .inf s else .nan (decide (ma < 2 ^ (f.mb - 1)))
  else if f.top = .oneNan ∧ ex = 2 ^ f.eb - 1 ∧ ma = 2 ^ f.mb - 1 then .nan false
  else if ex = 0 then .fin s ma f.emin
  else .fin s (2 ^ f.mb + ma) (f.emin + ((ex - 1 : Nat) : Int))

/-- Whether the code is a nonzero subnormal (R105, R110). -/
def Fmt.isSubnormal (f : Fmt) (c : Nat) : Bool :=
  decide ((c / 2 ^ f.mb) % 2 ^ f.eb = 0) && decide (c % 2 ^ f.mb ≠ 0)

/-- m times 2^e brought to the exponent q, with what is cut off as a remainder over 2^sh: (kept, remainder, sh). -/
def alignTo (m : Nat) (e q : Int) : Nat × Nat × Nat :=
  if q ≤ e then (m * 2 ^ (e - q).toNat, 0, 0)
  else (m / 2 ^ (q - e).toNat, m % 2 ^ (q - e).toNat, (q - e).toNat)

/-- Whether a kept magnitude n with remainder r over 2^sh rounds up in magnitude (R108). -/
def roundsUp (rm : Rm) (s : Bool) (n r sh : Nat) : Bool :=
  match rm with
  | .rne => decide (2 * r > 2 ^ sh) || (decide (2 * r = 2 ^ sh) && decide (sh ≠ 0) && decide (n % 2 = 1))
  | .rz => false
  | .rd => s && decide (r ≠ 0)
  | .ru => !s && decide (r ≠ 0)

/-- m times 2^e rounded to a multiple of 2^q: the multiple, and whether it is inexact. -/
def roundAt (rm : Rm) (s : Bool) (m : Nat) (e q : Int) : Nat × Bool :=
  let a := alignTo m e q
  (a.1 + b2n (roundsUp rm s a.1 a.2.1 a.2.2), decide (a.2.1 ≠ 0))

/-- How a finite magnitude above the largest finite one is delivered. -/
inductive OverflowTo where
  | ieee       -- infinity or the largest finite value, by the rounding mode (R108)
  | largest    -- the largest finite value (R116)
deriving DecidableEq, Repr, Inhabited

/-- The sign bit of a code. -/
def signCode (f : Fmt) (s : Bool) : Nat := b2n s * 2 ^ (f.eb + f.mb)

/-- A finite value rounded once to a format: the code and the flags (R108, R109, R110, R116). Tininess is detected after rounding. -/
def Fmt.roundFin (f : Fmt) (rm : Rm) (ov : OverflowTo) (ftz : Bool) (s : Bool) (m : Nat) (e : Int) : Nat × FpFlags :=
  if m = 0 then (signCode f s, 0)
  else
    let top : Int := (Nat.log2 m : Int) + e            -- the exponent of the leading bit
    let q : Int := max (top - (f.mb : Int)) f.emin
    let (n, inex) := roundAt rm s m e q
    let code : Nat := n + (q - f.emin).toNat * 2 ^ f.mb
    let tiny : Bool := decide (top < f.emin + (f.mb : Int)) &&
      !(decide (top + 1 = f.emin + (f.mb : Int)) && decide ((roundAt rm s m e (top - (f.mb : Int))).1 = 2 ^ (f.mb + 1)))
    if code > f.maxCode then
      let toInf : Bool := match ov, rm with
        | .largest, _ => false
        | .ieee, .rne => true
        | .ieee, .rz => false
        | .ieee, .rd => s
        | .ieee, .ru => !s
      (signCode f s + (if toInf then f.maxCode + 1 else f.maxCode), fOverflow ||| fInexact)
    else if ftz && decide (code < 2 ^ f.mb) && decide (code ≠ 0) then
      (signCode f s, fUnderflow ||| fInexact)
    else
      (signCode f s + code, (if inex then fInexact else 0) ||| (if inex && tiny then fUnderflow else 0))

/-- A value delivered in a format of the floating-point operations: a NaN is canonical (R107, R108). -/
def Fmt.deliver (f : Fmt) (rm : Rm) (ftz : Bool) (v : FpVal) : Nat × FpFlags :=
  match v with
  | .nan _ => (f.nanCode, 0)
  | .inf s => (signCode f s + (f.maxCode + 1), 0)
  | .fin s m e => f.roundFin rm .ieee ftz s m e

/-- A value delivered in an element format, saturated (R116): an infinity gives the largest value with no flag; a NaN gives the canonical
NaN, or +0 and invalid in a format without one. -/
def Fmt.deliverSat (f : Fmt) (rm : Rm) (v : FpVal) : Nat × FpFlags :=
  match v with
  | .nan _ => (f.nanCode, if f.top = .finite then fInvalid else 0)
  | .inf s => (signCode f s + f.maxCode, 0)
  | .fin s m e => f.roundFin rm .largest false s m e

/-- The flag that signalling NaN sources raise (R109). -/
def snanFlag : List FpVal → FpFlags
  | [] => 0
  | .nan true :: _ => fInvalid
  | _ :: vs => snanFlag vs

/-- Whether a value is a NaN. -/
def FpVal.isNan : FpVal → Bool
  | .nan _ => true
  | _ => false

/-- The magnitude, for an abs bit (R46, R111). -/
def FpVal.abs : FpVal → FpVal
  | .inf _ => .inf false
  | .fin _ m e => .fin false m e
  | v => v

/-- The inverted sign, for a neg bit (R46, R111). -/
def FpVal.neg : FpVal → FpVal
  | .inf s => .inf (!s)
  | .fin s m e => .fin (!s) m e
  | v => v

/-- FTZ, then abs, then neg, on a source (R110, R111). -/
def Fmt.source (f : Fmt) (ftz abs neg : Bool) (x : W64) : FpVal :=
  let c := (x.setWidth f.width).toNat
  let v := f.decode c
  let v := if ftz && f.isSubnormal c then (match v with | .fin s _ e => .fin s 0 e | v => v) else v
  let v := if abs then v.abs else v
  if neg then v.neg else v

/-- The sign of an exact zero that a sum of terms with the given signs gives (R108). -/
def zeroSumSign (rm : Rm) (signs : List Bool) : Bool :=
  if signs.all id then true
  else if signs.all (!·) then false
  else decide (rm = .rd)

/-- The integer that a signed magnitude is, at exponent q, which is at most e. -/
def signedAt (s : Bool) (m : Nat) (e q : Int) : Int :=
  let n : Int := ((m * 2 ^ (e - q).toNat : Nat) : Int)
  if s then -n else n

/-- The least exponent of a list of finite values. -/
def leastExp : List (Bool × Nat × Int) → Int
  | [] => 0
  | [x] => x.2.2
  | x :: xs => min x.2.2 (leastExp xs)

/-- The exact sum of finite terms; an exact zero takes the sign of `zeroSumSign` (R108). -/
def sumFin (rm : Rm) (ts : List (Bool × Nat × Int)) : FpVal :=
  let q := leastExp ts
  let z := ts.foldl (fun acc t => acc + signedAt t.1 t.2.1 t.2.2 q) (0 : Int)
  if z = 0 then .fin (zeroSumSign rm (ts.map (·.1))) 0 0
  else .fin (decide (z < 0)) z.natAbs q

/-- The finite terms of a list of values. -/
def finTerms : List FpVal → List (Bool × Nat × Int)
  | [] => []
  | .fin s m e :: vs => (s, m, e) :: finTerms vs
  | _ :: vs => finTerms vs

/-- The exact sum of values, with the invalid flag of infinities of both signs (R111). -/
def sumVals (rm : Rm) (vs : List FpVal) : FpVal × FpFlags :=
  let pos := vs.contains (.inf false)
  let neg := vs.contains (.inf true)
  if vs.any FpVal.isNan then (.nan false, if pos && neg then fInvalid else 0)
  else if pos && neg then (.nan false, fInvalid)
  else if pos then (.inf false, 0)
  else if neg then (.inf true, 0)
  else (sumFin rm (finTerms vs), 0)

/-- The exact product, with the invalid flag of zero times infinity (R111). -/
def mulVals (a b : FpVal) : FpVal × FpFlags :=
  match a, b with
  | .nan _, _ => (.nan false, 0)
  | _, .nan _ => (.nan false, 0)
  | .inf s, .inf t => (.inf (s != t), 0)
  | .inf s, .fin t m _ => if m = 0 then (.nan false, fInvalid) else (.inf (s != t), 0)
  | .fin s m _, .inf t => if m = 0 then (.nan false, fInvalid) else (.inf (s != t), 0)
  | .fin s m e, .fin t n d => (.fin (s != t) (m * n) (e + d), 0)

/-- The order of two values that are no NaN: less, equal or greater; the zeros are equal. -/
def cmpVals (a b : FpVal) : Ordering :=
  match a, b with
  | .inf s, .inf t => if s == t then .eq else if s then .lt else .gt
  | .inf s, _ => if s then .lt else .gt
  | _, .inf t => if t then .gt else .lt
  | .fin s m e, .fin t n d =>
    let q := min e d
    compare (signedAt s m e q) (signedAt t n d q)
  | _, _ => .eq

/-- Whether the sign of a value is negative. -/
def FpVal.sign : FpVal → Bool
  | .inf s => s
  | .fin s _ _ => s
  | .nan _ => false

/-- minimumNumber, or maximumNumber with `big`: -0 orders below +0, and a NaN gives way to the other source (R112). -/
def minMaxNum (big : Bool) (a b : FpVal) : FpVal :=
  match a.isNan, b.isNan with
  | true, true => .nan false
  | true, false => b
  | false, true => a
  | false, false =>
    let less := match cmpVals a b with
      | .lt => true
      | .gt => false
      | .eq => a.sign
    if less != big then a else b

end Sys2Proof.Machine
end

