-- ==== Sys2Proof/Machine/Tbl.lean ====
section
/-! DEFINITION. Sparse tables: lists of key and value pairs with strictly rising keys. `find?`, `ins` and `del` hold records; `get` and `put` hold
values with a default that is never listed, so that equal contents are equal lists. -/

namespace Sys2Proof

/-- The value listed under a key. -/
def Tbl.find? {α : Type} (m : Tbl α) (k : Nat) : Option α :=
  match m with
  | [] => none
  | (j, v) :: rest => if j = k then some v else Tbl.find? rest k

/-- The table with a value listed under a key, in the place of its key. -/
def Tbl.ins {α : Type} (m : Tbl α) (k : Nat) (v : α) : Tbl α :=
  match m with
  | [] => [(k, v)]
  | (j, x) :: rest =>
    if k < j then (k, v) :: (j, x) :: rest
    else if j = k then (k, v) :: rest
    else (j, x) :: Tbl.ins rest k v

/-- The table without a key. -/
def Tbl.del {α : Type} (m : Tbl α) (k : Nat) : Tbl α :=
  match m with
  | [] => []
  | (j, x) :: rest => if j = k then Tbl.del rest k else (j, x) :: Tbl.del rest k

/-- The value under a key, or the default that unlisted keys hold. -/
def Tbl.get {α : Type} (d : α) (m : Tbl α) (k : Nat) : α := (Tbl.find? m k).getD d

/-- The table with a value under a key; the default value is not listed. -/
def Tbl.put {α : Type} [DecidableEq α] (d : α) (m : Tbl α) (k : Nat) (v : α) : Tbl α :=
  if v = d then Tbl.del m k else Tbl.ins m k v

/-- The keys rise strictly, each above the bound where one is given. -/
def Tbl.rising {α : Type} (lo : Option Nat) (m : Tbl α) : Bool :=
  match m with
  | [] => true
  | (j, _) :: rest => (match lo with | none => true | some l => decide (l < j)) && Tbl.rising (some j) rest

/-- The canonical form: strictly rising keys and no listed default. -/
def Tbl.wf {α : Type} [DecidableEq α] (d : α) (m : Tbl α) : Bool :=
  Tbl.rising none m && m.all (fun e => !decide (e.2 = d))

/-- The table with the value under a key changed, if it is listed. -/
def Tbl.modify {α : Type} (m : Tbl α) (k : Nat) (f : α → α) : Tbl α :=
  match m with
  | [] => []
  | (j, x) :: rest => if j = k then (j, f x) :: rest else (j, x) :: Tbl.modify rest k f

/-- A key that a table does not list: the one above all of its keys, so that the keys of what it holds follow the order of their listing. -/
def Tbl.freshKey {α : Type} (m : Tbl α) : Nat := m.foldl (fun n e => max n (e.1 + 1)) 0

/-- n consecutive values from a key on. -/
def Tbl.getMany {α : Type} (d : α) (m : Tbl α) (k : Nat) : Nat → List α
  | 0 => []
  | n + 1 => Tbl.get d m k :: Tbl.getMany d m (k + 1) n

/-- Consecutive values put from a key on. -/
def Tbl.putMany {α : Type} [DecidableEq α] (d : α) (m : Tbl α) (k : Nat) : List α → Tbl α
  | [] => m
  | v :: vs => Tbl.putMany d (Tbl.put d m k v) (k + 1) vs

end Sys2Proof
end

