-- ==== Sys2Proof/Machine/State.lean ====
section
/-! DEFINITION. The state of the machine as plain data, its reasons to stop, and the state after reset. -/

namespace Sys2Proof.Machine

/-- Reasons for which the machine stops. -/
inductive Fault where
  /-- Raised by the meaning of a form when no agent stands at the beats of an instruction (`State.cur`). Safe: the sequencer never executes a
  form without an agent. -/
  | noAgent
deriving DecidableEq, Repr, Inhabited

/-- Reasons for which an instruction has no meaning. -/
inductive Refusal where
  /-- Raised by the dispatcher for an instruction that has no meaning yet. Safe: nothing can be proved of it. -/
  | notModelled (mnemonic : String)
deriving DecidableEq, Repr, Inhabited

/-! ### Places: where an access performs -/

/-- The owner of a location (R131, R139, R141). -/
inductive Owned where
  /-- A slice: HBM, host or pool memory (R141). -/
  | slice
  /-- A team's scratchpad. -/
  | scratch (team : Nat)
  /-- The top of a cluster's scratchpad: a HOME 2 page (R139). -/
  | pinned
  /-- A peer's slice (R141, R346). -/
  | peer
deriving DecidableEq, Repr, Inhabited

/-- Where an access performs: its location, owner, the page-table entry behind it (0 for none), its virtual address (0 for none) and the slice that owns
its line (R140). -/
structure Place where
  loc : Nat
  owned : Owned
  pte : W64
  va : Nat
  slice : Nat := 0
deriving DecidableEq, Repr, Inhabited

/-! ### Agents: groups and control threads -/

/-- The state of a lane (R59). -/
inductive LaneSt where
  | run | mon | nap | done
deriving DecidableEq, Repr, Inhabited

/-- The program counter and CSEQ of a site (R19). -/
structure Site where
  pc : Label
  cseq : W32
deriving DecidableEq, Repr, Inhabited

/-- A lane (R59). -/
structure LaneRec where
  /-- `L[i].W`, the wanted label, 28 bits. -/
  w : Label
  /-- `L[i].D`, the frame depth, 8 bits. -/
  d : Byte
  /-- `L[i].S`. -/
  s : LaneSt
  /-- The link entries held in hardware, by depth; the others stand in local memory (R66). A control thread holds all of them (R209). -/
  link : Tbl Label
  /-- The D and E codes of the WAIT that parked the lane (R259). -/
  codeD : Operand
  codeE : Operand
  /-- The parking WAIT has a 64-bit type: its value goes to a pair (R262). -/
  wide : Bool
  /-- The site of the WAIT that parked the lane, and the lanes of its request (R259, R334). -/
  site : Site
  mates : LaneMask
  /-- The device time at which a napping lane wakes (R269). -/
  nap : Nat
  /-- A replay run holds the lane until its logged wake is delivered (R335). -/
  held : Bool
deriving DecidableEq, Repr, Inhabited

/-- A value on its way to a register (R54). -/
inductive RegWrite where
  /-- A lane register. -/
  | v (lane reg : Nat) (x : W32)
  /-- An s or c register. -/
  | u (reg : Nat) (x : W64)
  /-- A predicate of a lane. -/
  | p (reg lane : Nat) (b : Bool)
deriving DecidableEq, Repr, Inhabited

/-- A record of the trace unit: kind, P0, P1, the site and its agent (R328). -/
structure Nguxis where
  kind : Byte
  eng : Nat
  ctl : Bool
  group : Nat
  slot : Nat
  site : Site
  p0 : W32
  p1 : W64
deriving DecidableEq, Repr, Inhabited

/-- The registers that a reply of memory fills: the type and D of its form, the lanes that take it and the elements that each takes (R160). -/
structure ReplyForm where
  ty : DType
  d : Operand
  lanes : List Nat
  mult : Nat
deriving DecidableEq, Repr, Inhabited

/-- A long-latency result or a reply that has not landed (R54, R165). -/
structure Pending where
  /-- A reply of memory, which a LOAD_REPLY lands; otherwise a RESULT_LANDS lands it. -/
  mem : Bool
  /-- What a result writes when it lands. -/
  writes : List RegWrite
  /-- What a reply of memory fills. -/
  form : Option ReplyForm
  /-- The bytes of a reply of memory, and how many of its accesses have not performed yet. -/
  data : List Byte
  parts : Nat
  /-- Flags that the reply ORs in (R166). -/
  flags : FpFlags
  /-- The c or Wc that enters `G.GWCT` (R144); none enters from a result. -/
  c : Option Nat
  /-- The lanes whose later accesses the reply holds back: an acquire (R149). -/
  acq : LaneMask
  /-- Records that enter the replay log when the value lands (R334). -/
  log : List Nguxis
deriving DecidableEq, Repr, Inhabited

/-- What an access that has been issued does when it performs (R165 to R167, R171). -/
inductive OpKind where
  /-- It reads n bytes, byte `off` on of reply number `reply`. -/
  | load (n reply off : Nat)
  | store (bytes : List Byte)
  /-- CCTL's zero operation (R171). -/
  | zero
  /-- ATOM, RED or, with the value that it compares with, CAS: the operation, the operand, and ATOM's and CAS's reply. -/
  | atomic (fn : BitVec 4) (ty : DType) (rm : Rm) (cas : Option W64) (v : W64) (reply : Option Nat)
  /-- ATOM and CAS in a replay run: the value that it stores, if any, as the logged value decides (R335). -/
  | replayed (ty : DType) (new : Option W64)
deriving DecidableEq, Repr, Inhabited

/-- An access of a lane that has been issued and has not performed (R145, R165). -/
structure MemOp where
  /-- The lanes whose access it is: one, or A(P) for a uniform form. -/
  lanes : LaneMask
  /-- The number of the beat that issued it, and of the arrival of its instruction (R152). -/
  beat : Nat
  insn : Nat
  place : Place
  /-- The address that the lane named, and the site of its instruction (R20, R286). -/
  addr : W64
  site : Site
  policy : Nat
  kind : OpKind
  /-- Another part of the lane's access has performed (R202). -/
  half : Bool := false
  /-- For how many ns its request has been on its way, where it goes out of the module (R343). -/
  age : Nat := 0
deriving DecidableEq, Repr, Inhabited

/-- A store that the owner has serialised and not yet acknowledged (R143, R165). -/
structure Ack where
  lanes : LaneMask
  loc : Nat
  bytes : List Byte
  c : Nat
  /-- The L1 line that the acknowledgement updates: virtual line of the context. -/
  vline : Option Nat
  /-- The write's place among all writes (`State.writeSeq`). -/
  stamp : Nat
  /-- An access to peer memory, whose target acknowledges it (R147, R346). -/
  peer : Bool
deriving DecidableEq, Repr, Inhabited

/-- Why an agent is blocked (R74, R208). -/
inductive BlockWhy where
  | empty | queue | absent | token | rlt | children | replayRoom | member | acquire | acalloc | range | tiles | sysc | tlbi | halt | faultQueue
  | barrier | monitor
deriving DecidableEq, Repr, Inhabited

/-- What stands fixed from an instruction's arrival to its last beat: A(P), the word and what its beats still owe (R61, R70). -/
structure Arrival where
  a : LaneMask
  word : Code128
  /-- The tokens still waited on (R16). -/
  wk : Byte
  /-- The release wait of the instruction is done (R148, R165). -/
  released : Bool
  /-- The queue entry granted to a parked read (R15): word, CSEQ and drain bytes. -/
  granted : Option (W64 × W32 × List Byte)
  /-- The entry of a parked write has been taken (R15). -/
  pushed : Bool
  /-- Watchpoint matching is skipped for the next beat (R290). -/
  noWatch : Bool
  /-- The number of the arrival: beats issued before it (R152). -/
  insn : Nat
  /-- The command that waits for its RLT entries (R24). -/
  cmd : Option Nat
  /-- The lanes of a LAUNCH beat that have passed their checks and wait to be queued (R284). -/
  left : Option (List (Nat × Place))
deriving DecidableEq, Repr, Inhabited

/-- Where an agent stands (R61, R74, R289). -/
inductive Issue where
  /-- The census has chosen P: the instruction is to be fetched. `gated` is false when a resume skips the gate (R290). -/
  | arrive (gated : Bool)
  /-- The instruction is decoded: its beats issue from Restart. -/
  | beats
  /-- No lane is RUN: the group is idle, the thread parked (R61). -/
  | idle
  /-- The group waits in a barrier (R87, R89). -/
  | barrier
  /-- The agent is parked on a queue (R15). -/
  | queue
  /-- A replayable fault parks the beat on a fault-queue record (R293). -/
  | replay
  /-- The agent has stopped on a fault (R289, R290). -/
  | stopped
  /-- The group or thread has ended (R67, R83), or a privileged thread is halted for good (R306). -/
  | ended
deriving DecidableEq, Repr, Inhabited

/-- How a stopped agent resumes (R290). -/
inductive Resume where
  | refetch | beat | census
deriving DecidableEq, Repr, Inhabited

/-- The stop of an agent, with its record (R286, R289). -/
structure Stop where
  code : Byte
  how : Resume
  record : List Byte
deriving DecidableEq, Repr, Inhabited

/-- The failing access of a beat that is parked on a fault-queue record (R293). -/
structure ParkedFault where
  lanes : LaneMask
  addr : W64
  write : Bool
deriving DecidableEq, Repr, Inhabited

/-- A group or a control thread: one agent record; a control thread has one lane, and its c registers stand in `u` (R59, R76, R209). -/
structure Agent where
  kind : AgentKind
  /-- 0 producer, 1 consumer (R11). -/
  role : Nat
  /-- The register budget of the role (R11). -/
  budget : Nat
  lanes : List LaneRec
  /-- `G.P`, 28 bits. -/
  p : Label
  /-- `G.F`, 8 bits. -/
  f : Byte
  /-- `G.N`, 64 bits. -/
  n : W64
  /-- `G.Frame[d]` held in hardware, by depth (R59, R66). -/
  frame : Tbl Label
  /-- The depths above 15 whose frame word stands in local memory; the others hold 0 as at the group's start (R59, R66). -/
  spilled : Tbl Bool
  /-- `G.Restart`, 3 bits. -/
  restart : Nat
  /-- `G.GWCT`, a device time (R144). -/
  gwct : Nat
  /-- FPFLAGS, 5 bits (R109). -/
  fp : FpFlags
  /-- v registers, 32 bits, by 128 × lane + register; zero when unlisted (R60). -/
  v : Tbl W32
  /-- s or c registers, 64 bits (R60, R209). -/
  u : Tbl W64
  /-- p0 to p6, a bit for each lane (R44). -/
  pr : Tbl LaneMask
  /-- Empty bits of v registers, by 128 × lane + register: true is empty (R54). -/
  vE : Tbl Bool
  /-- Empty bits of s or c registers (R54). -/
  uE : Tbl Bool
  /-- Empty bits of predicates, a bit for each lane (R54). -/
  prE : Tbl LaneMask
  issue : Issue
  arr : Arrival
  pend : Tbl Pending
  /-- Accesses issued and not performed, and stores not acknowledged, by the order of their issue (R143, R145). -/
  ops : Tbl MemOp
  acks : Tbl Ack
  opSeq : Nat
  /-- The CSEQ of the agent's site (R19). -/
  cseq : W32
  /-- The rail, 0–31 (R58). -/
  rail : Nat
  /-- The age rank: a later number is younger (R73). -/
  rank : Nat
  /-- In the rail's active set (R58, R74). -/
  active : Bool
  block : Option BlockWhy
  /-- The rail clock at which its present block began (R74). -/
  blockedAt : Nat
  /-- The Goose timer in ns (R75). -/
  goose : Nat
  /-- The last gated arrival wrapped (R75). -/
  gateWrapped : Bool
  /-- The number of the beat it issued last, and the number of the last beat before its Goose timer restarted (R75). -/
  lastBeat : Nat
  gooseSeq : Nat
  /-- Goose has struck: fault 0x16 at the next beat boundary (R75). -/
  goosed : Bool
  stop : Option Stop
  /-- The pending replay (R293, R300). -/
  replay : Option ParkedFault
  /-- PCAUSE, PEPC, PADDR, PHND and INH of a privileged thread (R306). -/
  pcause : Byte
  pepc : Label
  paddr : W64
  phnd : Label
  inh : Bool
  /-- The answer to a SYSC or the completion of a TLBI that the thread waits for (R305). -/
  answer : Option W64
  /-- It has reached a shed point while its team is to be saved there, and issues no more (R319). -/
  held : Bool
deriving DecidableEq, Repr, Inhabited

/-! ### Teams -/

/-- A barrier state (R86). -/
structure Bar where
  armed : Bool
  count : Nat
  arrived : Nat
  waiters : List Nat
deriving DecidableEq, Repr, Inhabited

/-- The operands of a copy slice: pointers, geometry and pitches (R181). -/
structure CopySlice where
  idx : Nat
  dst : W64
  src : W64
  geo : W64
  sstr : W64
  dstr : W64
  /-- Members of the cluster set whose presence bits its arrival cleared (R191). -/
  cleared : Nat
deriving DecidableEq, Repr, Inhabited

/-- A copy state `T.Copy[id]` (R184), with the operands of the slices in hand and the site of the first (R185). -/
structure CopyState where
  armed : Bool
  count : Nat
  arrived : Nat
  slices : List CopySlice
  tok : Nat
  ssp : Nat
  dsp : Nat
  mask : Nat
  ev : Bool
  site : Site
deriving DecidableEq, Repr, Inhabited

/-- A reserved operand-buffer range (R236): its record word and first line. -/
structure ObRange where
  word : W64
  first : Nat
deriving DecidableEq, Repr, Inhabited

/-- An accumulator tile held by a team: 4,096 elements of 32 bits, by 64 × row + column, and TYPE: unset, f32 or INT32 (R232, R242). -/
structure Tile where
  els : Tbl W32
  ty : Option Bool
deriving DecidableEq, Repr, Inhabited

/-- A bound feed queue's ring: WC, RD, FILL (R238). -/
structure Ring where
  wc : Nat
  rd : Nat
  fill : Nat
deriving DecidableEq, Repr, Inhabited

/-- Where a team stands (R266, R298). -/
inductive Residence where
  | on (cluster : Nat)
  /-- Admitted to a cluster that has not loaded it (R281). -/
  | loading (cluster : Nat)
  | saved
  /-- Ended, with the cluster on which the commands that it issued run on (R67, R83). -/
  | ended (cluster : Option Nat)
deriving DecidableEq, Repr, Inhabited

/-- A pending slot of the wake record: the value, the predicate and the lanes it wakes (R266). -/
structure WakeSlot where
  group : Nat
  lanes : LaneMask
  value : W64
  pred : Bool
deriving DecidableEq, Repr, Inhabited

/-- An event that waits to enter q15, with the record that ends the context if it is a fault's and the control thread has gone (R22). -/
structure HeldEvent where
  word : W64
  bytes : List Byte
deriving DecidableEq, Repr, Inhabited

/-- A stop of an agent: who stopped, and where (R336). -/
structure StopMark where
  who : Nat
  site : Site
deriving DecidableEq, Repr, Inhabited

/-- A team (R11, R278, R300). -/
structure Team where
  res : Residence
  part : Nat
  asid : Nat
  /-- The save slot (R288). -/
  slot : Nat
  grid : Nat
  x : Nat
  y : Nat
  z : Nat
  /-- Age: the place in the device's order of team start (R282). -/
  age : Nat
  cls : Nat
  g0 : Nat
  g1 : Nat
  /-- Whether the launch has a control program (R11). -/
  hasCtl : Bool
  /-- The control thread has executed EXIT, or there is none (R83, R214). -/
  ctlGone : Bool
  /-- The teams of the cluster set, by member (R281). -/
  set : List Nat
  /-- SCRATCH in bytes (R134). -/
  scratch : Nat
  /-- Operand-buffer and accumulator needs (R275). -/
  obl : Nat
  acc : Nat
  agents : Tbl Agent
  /-- T.Tok[0..7] (R16). -/
  tok : Tbl Nat
  /-- The CSEQ last assigned (R18). -/
  cseq : W32
  /-- Decision, report and event queue entries with their CSEQ (R12, R19). -/
  q : Tbl (List (W64 × W32))
  /-- Drain queue entries of 128 bytes (R14). -/
  drain : Tbl (List (List Byte))
  /-- The order in which parked agents reached each queue (R15). -/
  qwait : Tbl (List Nat)
  /-- Events held until q15 has room (R22). -/
  heldEvents : List HeldEvent
  /-- T.Bar[0..16] (R86). -/
  bars : Tbl Bar
  /-- T.Copy[0..15] (R184). -/
  copies : Tbl CopyState
  /-- T.QBind[8..13] (R215). -/
  qbind : Tbl W64
  rings : Tbl Ring
  /-- T.Range[0..15] (R236). -/
  ranges : Tbl ObRange
  /-- Held tiles by name (R239). -/
  tiles : Tbl Tile
  /-- A blocked ACALLOC: the count asked for (R239). -/
  alloc : Option Nat
  /-- What an ACALLOC blocked before was answered: the name mask, or all ones (R239, R240). -/
  allocated : Option W64
  /-- Scratchpad lines whose presence bit is clear (R23, R24). -/
  absent : Tbl Bool
  /-- Pending wakes (R266). -/
  wake : List WakeSlot
  /-- 1 from the shed event until the restore begins (R130). -/
  shedNote : Bool
  /-- The class is being shed: the team is held at its shed points and saved (R319). -/
  saveAsked : Bool
  /-- A save stops the team at its next boundaries: grace expiry, a placement need or firmware's request (R298, R320). -/
  preempt : Bool
  /-- The device time by which a team that is being shed is to be saved out (R317). -/
  shedBy : Option Nat
  /-- The save was forced (R320). -/
  forced : Bool
  /-- The save was caused by a shed (R21). -/
  byShed : Bool
  /-- A privileged thread's team (R304). -/
  priv : Bool
  /-- Records written to the replay log, whether it has ended, and records consumed by a replay run (R334, R335). -/
  logWr : Nat
  logEnd : Bool
  logRd : Nat
  /-- The team's last stop (R336). -/
  lastStop : Option StopMark
deriving DecidableEq, Repr, Inhabited

/-- The launch packet's parameters that a grid's teams start from (R275). -/
structure Launch where
  cset : Nat
  aff : Nat
  affp : W32
  cls : Nat
  pop0 : Nat
  pop1 : Nat
  g0 : Nat
  g1 : Nat
  regs0 : Nat
  regs1 : Nat
  gx : Nat
  gy : Nat
  gz : Nat
  codeCount : Nat
  acc : Nat
  scr : Nat
  obl : Nat
  ctlEntry : Nat
  grpEntry : Nat
  codeBase : W64
  args : W64
  compVal : W32
  compAddr : W64
deriving DecidableEq, Repr, Inhabited

/-- A grid (R282): its launch, the teams started and how many have ended. -/
structure Grid where
  part : Nat
  asid : Nat
  launch : Launch
  cls : Nat
  /-- Teams started so far, in ascending linear index (R282). -/
  started : Nat
  endedTeams : Nat
  /-- The order in which the grid's packet began (R282). -/
  order : Nat
  /-- The host queue and packet index that wait for it (R273). -/
  host : Option (Nat × Nat)
  /-- The instruction-cache lines were discarded at the start (R53, R154). -/
  begun : Bool
  finished : Bool
deriving DecidableEq, Repr, Inhabited

/-- A queued child launch (R284). -/
structure Child where
  team : Nat
  who : Nat
  part : Nat
  asid : Nat
  cls : Nat
  tok : Nat
  ev : Bool
  site : Site
  /-- The order in which it was created (R282). -/
  order : Nat
  packet : List Byte
deriving DecidableEq, Repr, Inhabited

/-! ### Engine commands -/

/-- Who issued a command: an agent of a team, or a host queue's packet (R9, R274). -/
inductive Owner where
  | agent (team who : Nat)
  | host (part q idx : Nat)
deriving DecidableEq, Repr, Inhabited

/-- A running copy (R187 to R192). -/
structure CopyCmd where
  slices : List CopySlice
  mask : Nat
  /-- Bits of members that receive nothing (R191). -/
  undelivered : Nat
  /-- Lines landed, by target and by their place in the order of the destinations. -/
  landed : Tbl Bool
  /-- The copy state that the copy leaves at its start (R185). -/
  id : Option Nat
deriving DecidableEq, Repr, Inhabited

/-- A running gather or scatter (R199). -/
structure GeCmd where
  /-- 0 GATH, 1 SCAT, 2 SCATA. -/
  kind : Nat
  fn : BitVec 4
  ty : DType
  rm : Rm
  strict : Bool
  dst : W64
  list : W64
  count : Nat
  status : Option W64
  data : W64
  base : Nat
  limit : Nat
  esz : Nat
  /-- The list, once read (R199). -/
  idx : Option (List Nat)
  done : Tbl Bool
  /-- Elements that have been read and not written. -/
  held : Tbl (List Byte)
deriving DecidableEq, Repr, Inhabited

/-- A matrix operand: from range `range`, in the range or streamed from scratchpad with its two registers (R244). -/
structure OxSrc where
  range : Nat
  word : W64
  first : Nat
  /-- The registers of a scratchpad operand. -/
  sp : Option (W64 × W64)
  /-- The feed queue whose ring the operand is read from (R238). -/
  ring : Option Nat
deriving DecidableEq, Repr, Inhabited

/-- A matrix command (R242 to R249). -/
inductive OxKind where
  | mma (a b : OxSrc) (k0 k : Nat)
  | mmag (a b : OxSrc) (k0 k row0 toff ng : Nat)
  | aczero
  | drain (kind : Nat) (cmp trap : Bool) (mxf blc : Nat) (queue : Option Nat) (dst pitch scale : W64) (status : Option W64)
deriving DecidableEq, Repr, Inhabited

/-- A running matrix command with its progress (R245, R246, R252). -/
structure OxCmd where
  kind : OxKind
  tile : Nat
  /-- Sub-blocks done (R245); for MMAG within its pass; for DRAIN the lines or entries out. -/
  prog : Nat
  pass : Nat
  /-- MMAG's row counts, once read (R246). -/
  cnt : Option (List Nat)
  /-- The ring lines of A and of B still to be read and consumed (R238). -/
  waitA : Bool
  waitB : Bool
  /-- The operand lines of A and B taken from the rings (R238). -/
  lines : Tbl Byte
  linesB : Tbl Byte
deriving DecidableEq, Repr, Inhabited

/-- What a command does. -/
inductive CmdKind where
  | copy (c : CopyCmd)
  | ge (c : GeCmd)
  | ox (c : OxCmd)
deriving DecidableEq, Repr, Inhabited

/-- An engine command from its issue to its completion or fault (R16, R17, R155). -/
structure Cmd where
  owner : Owner
  part : Nat
  asid : Nat
  kind : CmdKind
  tok : Nat
  ev : Bool
  site : Site
  /-- It holds its RLT entries and runs (R24, R187). -/
  started : Bool
  /-- RLT ranges that it takes: space key, first byte, last byte, destination (R24). -/
  ranges : List (Nat × Nat × Nat × Bool)
  /-- The latest c of its writes and Wc of its reads (R144). -/
  c : Nat
  /-- The source lines that it has read, by address over 128 (R155). -/
  src : Tbl (List Byte)
  /-- The cause for which it ends in fault 0x1A once its writes are acknowledged (R155, R190). -/
  ending : Option Nat
  /-- Parked on a fault-queue record (R190, R333). -/
  parked : Bool
  /-- Watchpoints are ignored for the command (R333). -/
  noWatch : Bool
  /-- The order of issue. -/
  seq : Nat
deriving DecidableEq, Repr, Inhabited

/-- An entry of a range lock table (R23, R24). -/
structure RltEnt where
  cluster : Nat
  cmd : Nat
  space : Nat
  lo : Nat
  hi : Nat
  dst : Bool
deriving DecidableEq, Repr, Inhabited

/-! ### Slices, caches, monitors -/

/-- What a slice keeps of a line whose tag it holds (R142, R153). -/
structure LineRec where
  /-- The slice that holds it (R140). -/
  slice : Nat
  lmax : Nat
  wc : Nat
  zero : Bool
  pinned : Bool
  spilledWatch : Bool
  /-- The cluster that holds the line exclusively, and when it last accessed it (R153). -/
  excl : Option (Nat × Nat)
  /-- The clusters to which leases were granted; none where the line is marked shared (R153). -/
  lessees : Option (List Nat)
  /-- Its replacement priority: 0 lowest, 1 normal, 2 highest (R133). -/
  prio : Nat
  /-- A line of a HOME 3 page: a tag without data (R139). -/
  tagOnly : Bool
deriving DecidableEq, Repr, Inhabited

/-- An L1 copy of a line (R143). -/
structure L1Line where
  cluster : Nat
  part : Nat
  asid : Nat
  vline : Nat
  line : Nat
  data : List Byte
  exp : Nat
  wc : Nat
  /-- The writes that its fill contains (`State.writeSeq`), and by byte the later stores that acknowledgements have put in (R143, R146). -/
  seen : Nat
  stamps : Tbl Nat
deriving DecidableEq, Repr, Inhabited

/-- An instruction-cache line (R51). -/
structure ILine where
  cluster : Nat
  part : Nat
  asid : Nat
  vline : Nat
  data : List Byte
deriving DecidableEq, Repr, Inhabited

/-- A cached page-table entry of one level, by the address bits above the level, in a cluster's L1 TLB (unit = the cluster) or a die's shared TLB
(unit = 384 + the die) (R295). -/
structure TlbEnt where
  unit : Nat
  part : Nat
  asid : Nat
  level : Nat
  tag : Nat
  pte : W64
deriving DecidableEq, Repr, Inhabited

/-- A monitor entry (R259). -/
structure Mon where
  operand : W64
  /-- A device time; 2^64 - 1 for none. -/
  deadline : Nat
  lanes : LaneMask
  /-- The location of the word. -/
  loc : Nat
  group : Nat
  slot : Nat
  asid : Nat
  part : Nat
  fn : BitVec 4
  w64 : Bool
  hostq : Bool
  /-- The entry of the spill area that holds it (R265). -/
  spill : Option Nat
  /-- It waits on the disposition word of a stopped agent (R289). -/
  disp : Bool
  /-- The waiter is the control thread. -/
  ctl : Bool
  /-- The slice that owns the word (R140). -/
  slice : Nat
deriving DecidableEq, Repr, Inhabited

/-- A wake on its way to its waiter (R261, R262). -/
structure Wake where
  mon : Mon
  value : W64
  pred : Bool
  c : Nat
  /-- How many writes had been serialised when the value was captured (R146). -/
  stamp : Nat := 0
deriving DecidableEq, Repr, Inhabited

/-- A request on its way to its slice, with the page-table entry behind its word, its virtual address and the lane's address (R259, R286). -/
structure RegReq where
  mon : Mon
  pte : W64
  va : Nat
  /-- The address that the lane named (R286). -/
  addr : W64
deriving DecidableEq, Repr, Inhabited

/-- The requests of one WAIT beat, or of a WAITMON packet (R259, R260, R268): the agent that waits for the replies, or the partition, queue and packet
index. -/
structure RegBatch where
  agent : Option AgentId
  host : Option (Nat × Nat × Nat)
  reqs : List RegReq
deriving DecidableEq, Repr, Inhabited

/-! ### Partitions, host queues, fault queue -/

/-- A host queue (R270). -/
structure HostQ where
  base : W64
  ctl : W64
  rd : W64
  door : W64
  /-- The last accepted doorbell value (R271). -/
  accepted : W64
  stat : W64
  /-- The index of the packet that failed (R272). -/
  failed : Option Nat
  /-- Packets begun and not completed, by index (R273). -/
  running : List Nat
  /-- The packet index that its WAITMON belongs to, with TOERR and RESULT (R274). -/
  waitmon : Option (Nat × Bool × W64)
  /-- FENCE packets begun and not completed, by index (R273). -/
  fences : List Nat
  /-- The latest completion time of the writes of its packets: what its releases wait out (R147, R274). -/
  gwct : Nat
deriving DecidableEq, Repr, Inhabited

/-- A replayable record that the driver has not answered (R293, R333). -/
structure Replay where
  idx : Nat
  asid : Nat
  page : Nat
  agents : List AgentId
  cmds : List Nat
  /-- A watchpoint's record, not a page fault (R333). -/
  watch : Bool
deriving DecidableEq, Repr, Inhabited

/-- A watchpoint's registers (R327), and the location that its address translated to when it was armed. -/
structure Watch where
  addr : W64
  mask : W64
  ctl : W64
  loc : Option Nat
deriving DecidableEq, Repr, Inhabited

/-- A context's debug block (R327). -/
structure Debug where
  wp : Tbl Watch
  tctl : W64
  sinkBase : W64
  sinkWr : W64
  sinkRd : W64
  sper : W64
  scur : W64
  lost : W64
  bkTag : W64
  /-- Records dropped since the last written record, which a kind 0x0A record reports (R329). -/
  dropped : Nat
  /-- Records written since the sampling period last changed (R330). -/
  sinceChange : Nat
  /-- The device time of a cluster's last sample, by cluster (R330). -/
  sampled : Tbl Nat
deriving DecidableEq, Repr, Inhabited

/-- The attestation mailbox of a partition (R349). -/
structure Mailbox where
  nonce : List Byte
  dst : W64
  stat : Nat
deriving DecidableEq, Repr, Inhabited

/-- A record or message that a unit has sent and a full ring holds back (R22, R294). -/
structure HeldRecord where
  bytes : List Byte
  replay : Option Replay
deriving DecidableEq, Repr, Inhabited

/-- A partition (R297, R270, R294). -/
structure Part where
  pstate : W64
  ctxBase : W64
  htBase : W64
  htLen : W64
  spBase : W64
  spillB : W64
  goose : W64
  queues : Tbl HostQ
  fqBase : W64
  fqCtl : W64
  fqWr : W64
  fqRd : W64
  heldRecords : List HeldRecord
  replays : List Replay
  /-- Debug blocks by context index (R327). -/
  debug : Tbl Debug
  mail : Mailbox
  /-- Peer table entries by device number (R345). -/
  peers : Tbl W64
deriving DecidableEq, Repr, Inhabited

/-! ### Power -/

/-- The level of a curve (R313). -/
inductive CurveLevel where
  | none
  | point (i : Nat)
  | failsafe
deriving DecidableEq, Repr, Inhabited

/-- A curve (R313): level, start of its hold timer, last input, and whether that input was marked invalid (R310). -/
structure Curve where
  level : CurveLevel
  timer : Option Nat
  x : Int
  invalid : Bool
deriving DecidableEq, Repr, Inhabited

/-- The part of a frame that a link has received, and the device time of its last byte (R307). -/
structure PartFrame where
  bytes : List Byte
  last : Nat
deriving DecidableEq, Repr, Inhabited

/-- The power controller: its registers (R311) and what its rules keep (R309, R310, R313, R318). -/
structure Pwc where
  pctl : W64
  pmax : W64
  grace : W64
  hold : W64
  hyst : W64
  fspt : W64
  therm : W64
  fpt : Tbl W64
  vpt : Tbl W64
  lastSeq : Nat
  /-- The next valid frame is accepted whatever its SEQ (R309). -/
  first : Bool
  /-- The device time from which the 5 ms of R310 count. -/
  since : Nat
  failsafe : Bool
  capMiss : Bool
  linkA : Option Nat
  linkB : Option Nat
  partA : Option PartFrame
  partB : Option PartFrame
  freq : Curve
  volt : Curve
  /-- The applied cap and mask (R313). -/
  cap : Nat
  mask : BitVec 4
  maskAt : Nat
  headroom : Option Nat
  /-- When the grace timer of a class started (R318). -/
  graceAt : Tbl Nat
  /-- The ROCOF of the accepted frames with the times of their arrival, latest first (R308; log entry 49). -/
  rocof : List (Nat × BitVec 16)
  /-- When the applied cap changed last, and the millisecond of the last tick (R313, R317). -/
  capAt : Option Nat
  tickAt : Nat
deriving DecidableEq, Repr, Inhabited

/-- A die's clock, and the device time of the control interval that it served last (R314, R315, R324). -/
structure Die where
  clock : Nat
  served : Option Nat
  thermCap : Nat
  curCap : Nat
  /-- 64-byte measurement registers MREG[0..3] (R348). -/
  mreg : Tbl (List Byte)
deriving DecidableEq, Repr, Inhabited

/-- A cluster pair (R322 to R324): gating, throttle in sixteenths, issue shares in sixteenths, measurements over 10 %, temperature. -/
structure Pair where
  gated : Bool
  throttle : Nat
  lower : Nat
  upper : Nat
  overFor : Nat
  /-- A difference of more than 10 % has lasted 10 µs, which the next interval answers (R323). -/
  overLong : Bool
  /-- When Mule measured last (R323). -/
  measured : Option Nat
  temp : Nat
  /-- The layers differ by more than 8 %: true when the upper one is the heavier (R323). -/
  heavy : Option Bool
  /-- When a team was last migrated off the pair (R324). -/
  moved : Option Nat
deriving DecidableEq, Repr, Inhabited

/-- A message-signalled interrupt that has fired: function 0 is the PF, n the VF of partition n - 1 (R341). -/
structure Msix where
  fn : Nat
  vector : Nat
deriving DecidableEq, Repr, Inhabited

/-! ### The machine -/

/-- What happens next: an agent runs, a step of an engine, slice, distributor, controller, the host or a peer, time, or one of the moves that
the spec leaves to the implementation or to the outside world (log entry 1). -/
inductive Turn where
  | run (a : AgentId)
  | ev (i : Instr)
  /-- Device time runs forward. -/
  | time (ns : Nat)
  /-- A rail clock of a cluster without a beat (R74, R332). -/
  | railClock (cluster rail : Nat)
  /-- An L1, an instruction cache or a TLB gives up entry i (R51, R143, R295). -/
  | l1Evict (i : Nat)
  | icEvict (i : Nat)
  | tlbEvict (i : Nat)
  /-- An agent's access performs at its owner, with those of its beat that name the same bytes (R145, R152). -/
  | access (a : AgentId) (n : Nat)
  /-- The host, a CXL device or a peer device writes memory of its own (R141, R346). -/
  | systemWrite (loc : Nat) (bytes : List Byte)
  /-- The host reads a register of the PF or of a partition's VF (R338). -/
  | registerRead (vf : Option Nat) (bar off : Nat)
  /-- Firmware writes a page table, context record or handle table in device memory (R194, R287, R304). -/
  | firmwareWrite (loc : Nat) (bytes : List Byte)
  /-- Firmware sets up its page table on a die (R304). -/
  | firmwareTable (die root localVa : Nat)
  /-- Firmware asks for the save of a team (R298). -/
  | askSave (team : Nat)
  /-- Firmware sets a partition's record (R297). -/
  | partitionLive (part : Nat) (live : Bool)
  /-- A command reads its sources for a line or element some time before that lands (R155). -/
  | engineRead (cmd line : Nat)
  /-- A byte of a frame that is not its last arrives on a shelf link (R307). -/
  | shelfByte (linkB : Bool) (b : Byte)
  /-- The DMC stops a privileged thread (R304). -/
  | stopThread (team : Nat)
  /-- An L1 evicts a line that its cluster holds exclusively (R153). -/
  | exclEvict (line : Nat)
  /-- One sub-block of a matrix command (R245). -/
  | oxStep (cmd : Nat)
  /-- A flash image is staged (R347). -/
  | flash (stage : Nat) (bytes : List Byte)
deriving DecidableEq, Repr, Inhabited

/-- The last beat of a rail: the group, its age rank then, its site, the lanes of A(P) and `G.N` (R72, R330, R332). -/
structure BeatMark where
  a : AgentId
  rank : Nat
  site : Site
  act : LaneMask
  n : W64
deriving DecidableEq, Repr, Inhabited

/-- The thread that a control core issued last, and how many instructions in a row (R208). -/
structure CcMark where
  team : Nat
  run : Nat
deriving DecidableEq, Repr, Inhabited

/-- The machine. -/
structure State where
  /-- What happens next; when the list is empty, `Config.freeTurn` says. The model's own field (log entry 1). -/
  agenda : List Turn
  /-- How many free values have been drawn. The model's own field (log entry 1). -/
  fresh : Nat
  /-- The agent at whose instruction the last step stood. The model's own field. -/
  cur : Option AgentId
  /-- Device time in ns, 64 bits (R3). -/
  dtime : Nat
  /-- All memory, by location (log entry 3). -/
  mem : Tbl Byte
  /-- How many writes have been serialised. The model's own field (log entry 72). -/
  writeSeq : Nat
  lines : Tbl LineRec
  /-- EvMax by slice and set (R142). -/
  evMax : Tbl Nat
  l1 : List L1Line
  icache : List ILine
  tlb : List TlbEnt
  mons : List Mon
  /-- Filter bits (R265), by slice and hash. -/
  filter : Tbl Bool
  wakes : Tbl Wake
  batches : Tbl RegBatch
  cmds : Tbl Cmd
  cmdSeq : Nat
  rlt : List RltEnt
  teams : Tbl Team
  grids : Tbl Grid
  children : Tbl Child
  parts : Tbl Part
  pwc : Pwc
  dies : Tbl Die
  pairs : Tbl Pair
  /-- Counters of the lane-cycle record, by cluster, bin and register (R331). -/
  lcr : Tbl W64
  /-- A rail's last beat, by 32 × cluster + rail (R330, R332). -/
  lastBeat : Tbl BeatMark
  /-- Rail clocks so far, by 32 × cluster + rail (R74). -/
  railClocks : Tbl Nat
  /-- The last issue of a cluster's control core, by cluster (R208). -/
  ccLast : Tbl CcMark
  /-- The rail that a cluster samples next, by cluster (R330). -/
  sampleRail : Tbl Nat
  /-- The context a cluster's buffers belong to, by cluster: partition and ASID (R302). -/
  clusterOwner : Tbl (Nat × Nat)
  ageSeq : Nat
  rankSeq : Nat
  orderSeq : Nat
  /-- Beats issued so far: it tells who has issued since a Goose timer restarted (R75). -/
  beatSeq : Nat
  devNum : W64
  bootStat : W64
  elBase : W64
  elCtl : W64
  elWr : W64
  elRd : W64
  cecnt : W64
  /-- The value written to MDOOR last, and to the firmware of every die (R339). -/
  mdoor : W64
  /-- What the last host read returned (R340). -/
  hostData : List Byte
  /-- What the reply to the last peer access carried: none where it was refused (R345, R346). -/
  peerData : Option (List Byte)
  /-- Interrupts fired, latest first (R341). -/
  msix : List Msix
  /-- Images in the module flash, by stage (R347). -/
  flash : Tbl (List Byte)
  /-- The firmware page table of a die: its root and the address of its local area (R304). -/
  fwTable : Tbl (Nat × Nat)
  /-- Error records that halted privileged threads have sent to the DMC (R306). -/
  dmcErrors : List AgentId
  /-- Lines whose stored check bits hold an uncorrectable error that was found without a consumer (R351). -/
  flaws : List Nat
deriving DecidableEq, Repr, Inhabited

/-! ### After reset -/

/-- A partition after reset: no die, not live; registers at their reset values (R270, R294, R297, R327, R345, R349). -/
def Part.reset : Part :=
  { pstate := 0, ctxBase := 0, htBase := 0, htLen := 0, spBase := 0, spillB := 0, goose := 8000, queues := [], fqBase := 0, fqCtl := 0,
    fqWr := 0, fqRd := 0, heldRecords := [], replays := [], debug := [], mail := { nonce := List.replicate 32 0, dst := 0, stat := 0 },
    peers := [] }

/-- A host queue after reset (R270). -/
def HostQ.reset : HostQ :=
  { base := 0, ctl := 0, rd := 0, door := 0, accepted := 0, stat := 0, failed := none, running := [], waitmon := none, fences := [], gwct := 0 }

/-- A watchpoint after reset (R327). -/
def Watch.reset : Watch := { addr := 0, mask := 0, ctl := 0, loc := none }

/-- A debug block after reset (R327). -/
def Debug.reset : Debug :=
  { wp := [], tctl := 0, sinkBase := 0, sinkWr := 0, sinkRd := 0, sper := 100, scur := 100, lost := 0, bkTag := 0, dropped := 0,
    sinceChange := 0, sampled := [] }

/-- A curve with no point reached (R313). -/
def Curve.reset : Curve := { level := .none, timer := none, x := 0, invalid := false }

/-- The power controller after reset (R311). -/
def Pwc.reset : Pwc :=
  { pctl := 0, pmax := 7200, grace := 1000, hold := 2000, hyst := 0, fspt := 0x000E020000000000#64, therm := 0x695F#64, fpt := [], vpt := [],
    lastSeq := 0, first := true, since := 0, failsafe := false, capMiss := false, linkA := none, linkB := none, partA := none, partB := none, freq := Curve.reset,
    volt := Curve.reset, cap := 1024, mask := 0, maskAt := 0, headroom := none, graceAt := [],
    rocof := [], capAt := none, tickAt := 0 }

/-- A die after reset: MREGs zero (R348); the clock, which the spec leaves open, at the boost step (log entry 7). -/
def Die.reset : Die := { clock := 850, served := none, thermCap := 850, curCap := 850, mreg := [] }

/-- A pair after reset: not gated, no throttle, full shares (log entry 7). -/
def Pair.reset : Pair := { gated := false, throttle := 0, lower := 16, upper := 16, overFor := 0, overLong := false, measured := none, temp := 0, heavy := none, moved := none }

/-- The machine right after power-on reset (R3): device time 0, nothing in memory, no partition live, every register at its reset value. -/
def State.reset : State :=
  { agenda := [], fresh := 0, cur := none, dtime := 0, mem := [], writeSeq := 0, lines := [], evMax := [], l1 := [], icache := [], tlb := [], mons := [],
    filter := [], wakes := [], batches := [], cmds := [], cmdSeq := 0, rlt := [], teams := [], grids := [], children := [], parts := [],
    pwc := Pwc.reset, dies := [], pairs := [], lcr := [], lastBeat := [], railClocks := [], ccLast := [], sampleRail := [], clusterOwner := [], ageSeq := 0, rankSeq := 0,
    orderSeq := 0, beatSeq := 0, devNum := 0, bootStat := 0, elBase := 0, elCtl := 0, elWr := 0, elRd := 0, cecnt := 0, mdoor := 0, hostData := [], peerData := none,
    msix := [], flash := [], fwTable := [], dmcErrors := [], flaws := [] }

end Sys2Proof.Machine
end

