-- ==== Sys2Proof/Config.lean ====
section
/-! DEFINITION. What an implementation fixes and the spec leaves open: free values without a body, so that nothing can be proved of what they
are (log entries 1 and 2). -/

namespace Sys2Proof.Config

/-- What happens next when the agenda is empty, for draw number n (log entry 1). -/
opaque freeTurn : Nat → Machine.Turn

/-- A free number, for draw number n: which of two orders or values the spec leaves open comes about (log entry 2). -/
opaque freeNat : Nat → Nat

/-- The resume pointer that a spilled frame word gives which no longer translates, after a number of beats (R66, log entry 26). -/
opaque lostFrame : Nat → Nat

/-- The engine that a trace record without a site names, by its kind (R328, log entry 82). -/
opaque plainEng : Nat → Nat

/-- The hash of a line that picks its slice among those its page spreads over (R140). -/
opaque sliceHash : Nat → Nat

/-- The set of its slice that a line stands in (R142). -/
opaque setOf : Nat → Nat

/-- The choice among lines or entries that a cache may give up, for the line or page that comes in and how many writes have been serialised
(R142, R143). -/
opaque victim : Nat → Nat → Nat

/-- The hash of a line that picks its spill bucket (R265). -/
opaque bucketHash : Nat → Nat

/-- The hash of a line that picks its filter bit (R265). -/
opaque filterHash : Nat → Nat

/-- The power of the present load in W at a clock step of a die, by the PWC's model, for draw number n (R314). -/
opaque power : Nat → Nat → Nat → Nat

/-- The copy of device time of a die is brought within the skew bound (R3). -/
opaque syncs : Nat → Bool

/-- The header of an image of a stage is well formed (R347). -/
opaque headerOk : Nat → List Byte → Bool

/-- The header and body of an image, over whose digest it is signed (R347). -/
opaque signedPart : List Byte → List Byte

/-- The Falcon-1024 signature of an image verifies on a die over a digest, against the root key whose digest is fused there (R347). -/
opaque signatureOk : Nat → List Byte → List Byte → Bool

/-- The security version of an image (R347). -/
opaque version : List Byte → Nat

/-- The Falcon-1024 signature in padded form by the identity key (R349). -/
opaque sign : List Byte → List Byte

/-- The certificate chain in the module flash (R349). -/
opaque certChain : List Byte

/-- The fused minimum security version of a stage (R347, R349). -/
opaque minVersion : Nat → Nat

end Sys2Proof.Config
end

