-- ==== Sys2Proof/Machine/Access.lean ====
section
/-! DEFINITION. Reading and changing the parts of the state: teams, agents, lanes, registers and their full/empty bits, partitions. -/

namespace Sys2Proof.Machine

/-- What a step comes to. -/
abbrev Next := Host.Outcome State Fault Refusal

/-! ### Teams and agents -/

/-- A team. -/
def State.team (s : State) (t : Nat) : Option Team := Tbl.find? s.teams t
/-- The state with a team replaced. -/
def State.setTeam (s : State) (t : Nat) (x : Team) : State := { s with teams := Tbl.ins s.teams t x }
/-- The state with a team changed, if there is one. -/
def State.modTeam (s : State) (t : Nat) (f : Team → Team) : State := { s with teams := Tbl.modify s.teams t f }

/-- An agent. -/
def State.agent (s : State) (a : AgentId) : Option Agent := (s.team a.team).bind fun t => Tbl.find? t.agents a.who
/-- The state with an agent changed, if there is one. -/
def State.modAgent (s : State) (a : AgentId) (f : Agent → Agent) : State :=
  s.modTeam a.team fun t => { t with agents := Tbl.modify t.agents a.who f }
/-- The state with an agent replaced. -/
def State.setAgent (s : State) (a : AgentId) (x : Agent) : State := s.modAgent a fun _ => x

/-- The cluster on which a team stands. -/
def Team.cluster (t : Team) : Option Nat :=
  match t.res with
  | .on c => some c
  | _ => none

/-- Whether a team has ended. -/
def Team.isEnded (t : Team) : Bool :=
  match t.res with
  | .ended _ => true
  | _ => false

/-- The cluster on which a team's engine commands run: also those that an ended team left behind (R83). -/
def Team.engCluster (t : Team) : Option Nat :=
  match t.res with
  | .on c => some c
  | .ended c => c
  | _ => none

/-- Whether a team is resident. -/
def Team.resident (t : Team) : Bool := t.cluster.isSome

/-- The number of the control thread among a team's agents. -/
abbrev ctlWho : Nat := 128

/-- Whether an agent is a group. -/
def Agent.isGroup (x : Agent) : Bool := decide (x.kind = .group)

/-- The die of a cluster: 32 clusters each (R1). -/
def dieOf (cluster : Nat) : Nat := cluster / 32
/-- The TLB unit of a die: a cluster's L1 TLB is the unit of its number (R295). -/
def dieUnit (die : Nat) : Nat := 384 + die
/-- The die whose shared TLB stands behind a TLB unit (R295). -/
def unitDie (unit : Nat) : Nat := if unit < 384 then dieOf unit else unit - 384

/-- A partition; one that nothing has written is as after reset. -/
def State.partition (s : State) (p : Nat) : Part := (Tbl.find? s.parts p).getD Part.reset
/-- The state with a partition changed. -/
def State.modPart (s : State) (p : Nat) (f : Part → Part) : State := { s with parts := Tbl.ins s.parts p (f (s.partition p)) }

/-- The dies of a partition, ascending (R297). -/
def Part.dies (p : Part) : List Nat := [0, 1, 2, 3, 4, 5, 6, 7, 8, 9, 10, 11].filter fun d => bit p.pstate d
/-- The dies on which a partition's contexts run; the firmware of die d, partition 12 + d, runs on its die (R297, R304). -/
def State.diesOf (s : State) (part : Nat) : List Nat := if part < 12 then (s.partition part).dies else [part - 12]
/-- Whether a partition is live (R297). -/
def Part.live (p : Part) : Bool := bit p.pstate 16

/-- A write to a register of a VF: ignored while the partition is not live (R338). -/
def State.vf (s : State) (part : Nat) (f : State → State) : State := if (s.partition part).live then f s else s

/-- An Ox command of a team. -/
def Cmd.oxOf (c : Cmd) (team : Nat) : Bool :=
  match c.owner, c.kind with
  | .agent t _, .ox _ => t == team
  | _, _ => false

/-- A team that holds no tile, range or binding (R239, R236, R216). -/
def Team.freed (t : Team) : Team := { t with tiles := [], ranges := [], qbind := [], rings := [] }

/-! ### Lanes -/

/-- Lane i; an agent has none beyond its lanes. -/
def Agent.lane (x : Agent) (i : Nat) : LaneRec := x.lanes.getD i default

/-- The lanes with lane i changed. -/
def modNth {α : Type} (l : List α) (i : Nat) (f : α → α) : List α :=
  match l, i with
  | [], _ => []
  | y :: ys, 0 => f y :: ys
  | y :: ys, n + 1 => y :: modNth ys n f

/-- The agent with lane i changed. -/
def Agent.modLane (x : Agent) (i : Nat) (f : LaneRec → LaneRec) : Agent := { x with lanes := modNth x.lanes i f }

/-- The lane numbers of an agent. -/
def Agent.laneNos (x : Agent) : List Nat := lanes32.take x.lanes.length

/-- The mask of the lanes that a test picks. -/
def maskOf (l : List Nat) (t : Nat → Bool) : LaneMask := l.foldl (fun m i => if t i then m ||| (1#32 <<< i) else m) 0

/-- The lanes of a mask, ascending. -/
def lanesIn (m : LaneMask) : List Nat := lanes32.filter fun i => m.getLsbD i

/-- The lowest lane of a mask. -/
def lowestLane (m : LaneMask) : Nat := (lanesIn m).headD 0

/-- The lanes 4q to 4q + 3 of a mask (R69). -/
def quadOf (m : LaneMask) (q : Nat) : LaneMask := m &&& (0xF#32 <<< (4 * q))

/-! ### Registers and their full/empty bits (R44, R54) -/

/-- The value of lane register r of lane i. -/
def Agent.getV (x : Agent) (i r : Nat) : W32 := Tbl.get 0 x.v (128 * i + r)
/-- The value of s or c register r. -/
def Agent.getU (x : Agent) (r : Nat) : W64 := Tbl.get 0 x.u r
/-- Predicate r of lane i; p7 reads true (R41). -/
def Agent.getP (x : Agent) (r i : Nat) : Bool := if r = 7 then true else (Tbl.get (0 : LaneMask) x.pr r).getLsbD i

/-- Lane register r of lane i is empty. -/
def Agent.emptyV (x : Agent) (i r : Nat) : Bool := Tbl.get false x.vE (128 * i + r)
/-- s or c register r is empty. -/
def Agent.emptyU (x : Agent) (r : Nat) : Bool := Tbl.get false x.uE r
/-- Predicate r of lane i is empty; p7 never is. -/
def Agent.emptyP (x : Agent) (r i : Nat) : Bool := if r = 7 then false else (Tbl.get (0 : LaneMask) x.prE r).getLsbD i

/-- A bit of a mask set or cleared. -/
def setBit (m : LaneMask) (i : Nat) (b : Bool) : LaneMask := if b then m ||| (1#32 <<< i) else m &&& ~~~(1#32 <<< i)

/-- A register written and full (R54). p7 discards (R44). -/
def Agent.write (x : Agent) : RegWrite → Agent
  | .v i r y => { x with v := Tbl.put 0 x.v (128 * i + r) y, vE := Tbl.put false x.vE (128 * i + r) false }
  | .u r y => { x with u := Tbl.put 0 x.u r y, uE := Tbl.put false x.uE r false }
  | .p r i b =>
    if r = 7 then x
    else { x with pr := Tbl.put 0 x.pr r (setBit (Tbl.get 0 x.pr r) i b), prE := Tbl.put 0 x.prE r (setBit (Tbl.get 0 x.prE r) i false) }

/-- The register of a write marked empty (R54). -/
def Agent.markEmpty (x : Agent) : RegWrite → Agent
  | .v i r _ => { x with vE := Tbl.put false x.vE (128 * i + r) true }
  | .u r _ => { x with uE := Tbl.put false x.uE r true }
  | .p r i _ => if r = 7 then x else { x with prE := Tbl.put 0 x.prE r (setBit (Tbl.get 0 x.prE r) i true) }

/-- The register of a write marked full, its value kept: what a refusal or an undone park restores (R57). -/
def Agent.markFull (x : Agent) : RegWrite → Agent
  | .v i r _ => { x with vE := Tbl.put false x.vE (128 * i + r) false }
  | .u r _ => { x with uE := Tbl.put false x.uE r false }
  | .p r i _ => if r = 7 then x else { x with prE := Tbl.put 0 x.prE r (setBit (Tbl.get 0 x.prE r) i false) }

/-- The register of a write is empty. -/
def Agent.isEmpty (x : Agent) : RegWrite → Bool
  | .v i r _ => x.emptyV i r
  | .u r _ => x.emptyU r
  | .p r i _ => x.emptyP r i

/-- Writes performed in order. -/
def Agent.writeAll (x : Agent) (ws : List RegWrite) : Agent := ws.foldl Agent.write x
/-- The registers of writes marked empty. -/
def Agent.emptyAll (x : Agent) (ws : List RegWrite) : Agent := ws.foldl Agent.markEmpty x

/-- The pair that even register r of lane i names (R44). -/
def Agent.getPair (x : Agent) (i r : Nat) : W64 := (x.getV i (r + 1)) ++ (x.getV i r)

/-- The writes of a value of w bits to a v register or pair of lane i (R44). -/
def vWrites (w i r : Nat) (y : W64) : List RegWrite :=
  if w = 64 then [.v i r (y.setWidth 32), .v i (r + 1) ((y >>> 32).setWidth 32)] else [.v i r (y.setWidth 32)]

/-- A long-latency result that will write some registers (R54). -/
def Pending.result (ws : List RegWrite) : Pending :=
  { mem := false, writes := ws, form := none, data := [], parts := 0, flags := 0, c := none, acq := 0, log := [] }

/-- Something pending added under a fresh number. -/
def Agent.addPending (x : Agent) (p : Pending) : Agent := { x with pend := Tbl.ins x.pend (Tbl.freshKey x.pend) p }

end Sys2Proof.Machine
end

