-- ==== Sys2Proof/Machine/Memory.lean ====
section
/-! DEFINITION. The memory hierarchy: locations, page-table walks (R136 to R141, R292, R295), the slices' line state and leases (R142 to R146),
exclusivity (R153), and the monitors' compare at every serialised write (R261). -/

namespace Sys2Proof.Machine

/-! ### Locations (log entry 3) -/

/-- The location of byte `off` of region r: 0 HBM, 1 host memory, 2 CXL pool, 3 peer memory (partition × 2^60
+ device × 2^50 + offset), 5 pinned cluster SRAM
(cluster × 2^20 + offset), 6 team memory (team × 2^23 + offset: the scratchpad, and from 2^22 the operand buffer). -/
def locOf (r off : Nat) : Nat := r * 2 ^ 64 + off

/-- The location of a byte of a team's scratchpad (R134). -/
def spLoc (team off : Nat) : Nat := locOf 6 (team * 2 ^ 23 + off)
/-- The location of a byte of a team's operand-buffer region (R236). -/
def obLoc (team off : Nat) : Nat := locOf 6 (team * 2 ^ 23 + 2 ^ 22 + off)

/-- n bytes of memory; a byte that nothing has written reads as zero (log entry 4). -/
def State.read (s : State) (loc n : Nat) : List Byte := Tbl.getMany 0 s.mem loc n
/-- n bytes of memory as a little-endian number (R2). -/
def State.readNat (s : State) (loc n : Nat) : Nat := ofBytes (s.read loc n)
/-- Bytes put into memory. -/
def State.poke (s : State) (loc : Nat) (bs : List Byte) : State := { s with mem := Tbl.putMany 0 s.mem loc bs }

/-- The canonical form of memory: strictly rising locations and no listed zero. -/
abbrev Memory.wf (m : Tbl Byte) : Prop := Tbl.wf 0 m = true

/-! ### Tags (R131, R132) -/

/-- The tag of an address (R131). -/
def tagOf (addr : W64) : Nat := bits addr 63 60

/-- Step 1: an assigned tag, and zeros where R131 requires them (R132). -/
def tagOk (addr : W64) : Bool :=
  match tagOf addr with
  | 0 | 1 | 2 | 0xC => decide (bits addr 59 52 = 0)
  | 4 => decide (bits addr 59 22 = 0)
  | 5 => decide (bits addr 59 27 = 0) && decide (bits addr 23 22 = 0)
  | 6 => decide (bits addr 59 16 = 0)
  | 8 => true
  | _ => false

/-! ### Contexts and walks -/

/-- A context record (R287). -/
structure Ctx where
  idx : Nat
  root : Nat
  localVa : Nat
  savePool : Nat
  dbg : Bool
deriving DecidableEq, Repr, Inhabited

/-- The valid context record with an ASID among records i, i + 1, … of a table (R287). -/
def findCtxFrom (s : State) (base asid : Nat) : Nat → Nat → Option Ctx
  | 0, _ => none
  | n + 1, i =>
    let r := base + 64 * i
    if s.readNat r 1 % 2 = 1 ∧ s.readNat (r + 8) 2 = asid then
      some { idx := i, root := s.readNat (r + 16) 8, localVa := s.readNat (r + 24) 8, savePool := s.readNat (r + 32) 8,
             dbg := decide (s.readNat (r + 1) 1 % 2 = 1) }
    else findCtxFrom s base asid n (i + 1)

/-- The context of a partition and ASID; partition 12 + d stands for the firmware of die d (R287, R304). -/
def State.ctx (s : State) (part asid : Nat) : Option Ctx :=
  if part < 12 then findCtxFrom s (s.partition part).ctxBase.toNat asid 64 0
  else (Tbl.find? s.fwTable (part - 12)).map fun r => { idx := 0, root := r.1, localVa := r.2, savePool := 0, dbg := false }

/-- What a translation gives: a leaf and the offset within its page; a fault; or a replayable fault (R138, R292). -/
inductive Xlat where
  | leaf (pte : W64) (big : Bool)
  | fault (code : Byte)
  | replay
deriving DecidableEq, Repr, Inhabited

/-- FRAME of an entry (R137). -/
def pteFrame (e : W64) : Nat := bits e 51 16
/-- KIND of an entry: 0 HBM, 1 host, 2 pool, 3 peer (R137). -/
def pteKind (e : W64) : Nat := bits e 11 10
/-- ILV of an entry (R137). -/
def pteIlv (e : W64) : Nat := bits e 9 8
/-- HOME of an entry (R137). -/
def pteHome (e : W64) : Nat := bits e 5 4
/-- HOMEID of an entry (R137). -/
def pteHomeId (e : W64) : Nat := bits e 15 12
/-- The lease of an entry in ns, none for class 3 (R137). -/
def pteLease (e : W64) : Option Nat :=
  match bits e 7 6 with
  | 0 => some 2000
  | 1 => some 256
  | 2 => some 1000000
  | _ => none

/-- The address bits above a level of the table (R136). -/
def levelTag (level va : Nat) : Nat := if level = 1 then va / 2 ^ 40 else if level = 2 then va / 2 ^ 28 else va / 2 ^ 16

/-- Whether a cached entry is a unit's entry of a level for an address (R295). -/
def TlbEnt.serves (e : TlbEnt) (unit part asid level va : Nat) : Bool :=
  e.unit == unit && e.part == part && e.asid == asid && e.level == level && e.tag == levelTag level va

/-- The entry of a level of the walk: one that the unit caches, one of its die's shared TLB, or the one in memory (R295). -/
def entryAt (s : State) (unit part asid level table va : Nat) : W64 :=
  match s.tlb.find? (fun e => e.serves unit part asid level va), s.tlb.find? (fun e => e.serves (dieUnit (unitDie unit)) part asid level va) with
  | some e, _ => e.pte
  | none, some e => e.pte
  | none, none => BitVec.ofNat 64 (s.readNat (locOf 0 (table + 8 * (levelTag level va % 4096))) 8)

/-- The walk of an entry of a level reads memory at a line whose stored check bits hold an uncorrectable error (R295, R351). -/
def entryFlawed (s : State) (unit part asid level table va : Nat) : Bool :=
  !s.flaws.isEmpty && s.flaws.contains (locOf 0 (table + 8 * (levelTag level va % 4096)) / 128)
    && !(s.tlb.any fun e => e.serves unit part asid level va || e.serves (dieUnit (unitDie unit)) part asid level va)

/-- What an entry with V = 0 gives (R138, R292). -/
def notPresent (e : W64) : Xlat :=
  if bit e 56 && (decide (pteKind e = 1) || decide (pteKind e = 2)) then .replay else .fault 0x07

/-- Bytes of HBM on a die: 96 GB (R1). -/
abbrev hbmBytes : Nat := 96000000000

/-- A physical address lies in the HBM of a die, 2^37 apart (R1, R338, log entry 15). -/
def inHbm (addr : Nat) : Bool := decide (addr / 2 ^ 37 < 12) && decide (addr % 2 ^ 37 < hbmBytes)

/-- A leaf names a page that does not lie whole in a die's HBM (log entry 76); a page, aligned to its size, lies in the range of one die. -/
def beyondHbm (e : W64) (big : Bool) : Bool :=
  decide (pteKind e = 0) && decide (pteHome e ≠ 2) && !inHbm (pteFrame e * 65536 + (if big then 2 ^ 28 else 65536) - 1)

/-- What a leaf gives: malformed leaves are not present (R138), nor is a page that the HBM does not have whole (DESIGN CHOICE, log entry 76). -/
def leafOf (e : W64) (big : Bool) : Xlat :=
  if bits e 55 52 ≠ 0 ∨ pteIlv e = 3 ∨ (big = true ∧ (pteFrame e % 4096 ≠ 0 ∨ pteHome e = 2)) ∨ beyondHbm e big = true then .fault 0x07
  else .leaf e big

/-- The walk of a 52-bit virtual address (R136, R138); one that consumes an uncorrectable error gives code 0x18 (R351). -/
def State.walk (s : State) (unit part asid va : Nat) : Xlat :=
  match s.ctx part asid with
  | none => .fault 0x07
  | some c =>
    let e1 := entryAt s unit part asid 1 c.root va
    if entryFlawed s unit part asid 1 c.root va then .fault 0x18
    else if !bit e1 0 then notPresent e1
    else if bit e1 3 then .fault 0x07
    else
      let e2 := entryAt s unit part asid 2 (pteFrame e1 * 65536) va
      if entryFlawed s unit part asid 2 (pteFrame e1 * 65536) va then .fault 0x18
      else if !bit e2 0 then notPresent e2
      else if bit e2 3 then leafOf e2 true
      else
        let e3 := entryAt s unit part asid 3 (pteFrame e2 * 65536) va
        if entryFlawed s unit part asid 3 (pteFrame e2 * 65536) va then .fault 0x18
        else if !bit e3 0 then notPresent e3
        else if bit e3 3 then leafOf e3 false
        else .fault 0x07

/-- How many entries a TLB unit holds (R295). -/
def unitSize (unit : Nat) : Nat := if unit < 384 then 256 else 32768

/-- A cached entry put into a unit, which gives up one when it is full (R295). -/
def tlbPut (l : List TlbEnt) (e : TlbEnt) (pick : Nat) : List TlbEnt :=
  if l.length < 256 ∨ (l.filter fun x => x.unit == e.unit).length < unitSize e.unit then e :: l
  else e :: (l.filter (fun x => x.unit == e.unit)).eraseIdx (pick % unitSize e.unit) ++ l.filter fun x => x.unit != e.unit

/-- A valid entry of the walk put into a TLB unit, if it is not there (R295). -/
def State.cacheIn (s : State) (unit part asid level va : Nat) (e : W64) : State :=
  if !bit e 0 || s.tlb.any fun x => x.serves unit part asid level va then s
  else { s with tlb := tlbPut s.tlb { unit := unit, part := part, asid := asid, level := level, tag := levelTag level va, pte := e }
                         (Config.victim (levelTag level va) s.writeSeq) }

/-- A valid entry of the walk put into the unit and into its die's shared TLB (R295). -/
def State.cacheEntry (s : State) (unit part asid level va : Nat) (e : W64) : State :=
  (s.cacheIn unit part asid level va e).cacheIn (dieUnit (unitDie unit)) part asid level va e

/-- The TLBs after a walk that succeeded: the leaf and the non-leaf entries above it (R295). -/
def State.cacheWalk (s : State) (unit part asid va : Nat) : State :=
  match s.ctx part asid with
  | none => s
  | some c =>
    let e1 := entryAt s unit part asid 1 c.root va
    let e2 := entryAt s unit part asid 2 (pteFrame e1 * 65536) va
    let s1 := (s.cacheEntry unit part asid 1 va e1).cacheEntry unit part asid 2 va e2
    if bit e2 3 then s1 else s1.cacheEntry unit part asid 3 va (entryAt s unit part asid 3 (pteFrame e2 * 65536) va)

/-! ### Places: where an access performs -/

/-- The cluster that holds a HOME 2 page: FRAME [51:48] die, [21] cluster within the pair; HOMEID the pair (R139). -/
def pinCluster (e : W64) : Nat := pteFrame e / 2 ^ 32 * 32 + pteHomeId e * 2 + pteFrame e / 2 ^ 5 % 2

/-- The location behind a leaf; HOME 2 decides before KIND (R137, R139, R141; log entry 75). -/
def leafLoc (e : W64) (big : Bool) (va : Nat) : Nat :=
  let off := if big then va % 2 ^ 28 else va % 65536
  let fr := pteFrame e
  if pteHome e = 2 then locOf 5 (pinCluster e * 2 ^ 20 + (fr % 16) * 65536 + off)
  else
    match pteKind e with
    | 0 => locOf 0 (fr * 65536 + off)
    | 1 => locOf 1 (fr * 65536 + off)
    | 2 => locOf 2 (fr * 65536 + off)
    | _ => locOf 3 ((fr / 2 ^ 26) * 2 ^ 50 + (fr % 2 ^ 26) * 65536 + off)

/-- The page of an address behind a leaf, by its first 64 KiB (R136). -/
def pageOf (big : Bool) (va : Nat) : Nat := if big then va / 2 ^ 28 * 4096 else va / 65536

/-- A write to a leaf with W = 0 that is replayable (R292). -/
def writeReplays (pte : W64) : Bool := bit pte 57 && (decide (pteKind pte = 1) || decide (pteKind pte = 2))

/-- The place of a leaf. -/
def placeOfLeaf (e : W64) (big : Bool) (va : Nat) : Place :=
  { loc := leafLoc e big va, owned := if pteHome e = 2 then .pinned else if pteKind e = 3 then .peer else .slice, pte := e, va := va }

/-- The peer device and the offset in it that a place names (R141, R344). -/
def Place.peerDev (p : Place) : Nat := p.loc % 2 ^ 60 / 2 ^ 50
/-- The offset in a peer device that a place names (R344). -/
def Place.peerOff (p : Place) : Nat := p.loc % 2 ^ 50

/-- A place in a peer, in the partition of it that the peer table names (R344). -/
def State.onPeer (s : State) (part : Nat) (p : Place) : Place :=
  if p.owned = .peer then { p with loc := p.loc + bits (Tbl.get (0 : W64) (s.partition part).peers p.peerDev) 4 1 * 2 ^ 60 } else p

/-- The slice that owns a line of a page, among those of ILV (R140). -/
def State.sliceOf (s : State) (part : Nat) (p : Place) : Nat :=
  let h := Config.sliceHash (p.loc / 128)
  match pteIlv p.pte with
  | 0 => h % 768
  | 1 => pteHomeId p.pte * 64 + h % 64
  | _ =>
    let ds := s.diesOf part
    (ds.getD (h / 64 % (max 1 ds.length)) 0) * 64 + h % 64

/-- The place of a leaf of a partition's page table. -/
def State.leafPlace (s : State) (part : Nat) (e : W64) (big : Bool) (va : Nat) : Place :=
  let p := s.onPeer part (placeOfLeaf e big va)
  { p with slice := s.sliceOf part p }

/-- The slice of a line that no page names: one of all 768 (R140). -/
def homeSlice (l : Nat) : Nat := Config.sliceHash l % 768

/-- An outgoing access to a peer device is configured (R345). -/
def State.peerOk (s : State) (part dev off : Nat) : Bool :=
  let e := Tbl.get (0 : W64) (s.partition part).peers dev
  bit e 0 && decide (off < bits e 63 32 * 2 ^ 30) && decide (dev ≠ bits s.devNum 9 0)

/-- A place is none in a peer, or the access to it is configured (R345). -/
def State.reaches (s : State) (part : Nat) (p : Place) : Bool := decide (p.owned ≠ .peer) || s.peerOk part p.peerDev p.peerOff

/-- Lines that may enter an L1: slice-owned, HOME 0 or 1, lease class not 3 (R133, R139). -/
def Place.l1able (p : Place) : Bool :=
  decide (p.owned = .slice) && decide (pteHome p.pte < 2) && (pteLease p.pte).isSome

/-! ### What the page tables map -/

/-- The entries that a page table of a level holds (R136). -/
def State.tableWords (s : State) (table : Nat) : List W64 :=
  (nubNat ((s.mem.filter fun e => decide (table ≤ e.1) && decide (e.1 < table + 32768)).map fun e => (e.1 - table) / 8)).map fun i =>
    BitVec.ofNat 64 (s.readNat (locOf 0 (table + 8 * i)) 8)

/-- The tables below some tables (R136). -/
def State.tablesBelow (s : State) (ts : List Nat) : List Nat :=
  (ts.flatMap s.tableWords).filterMap fun e => if bit e 0 && !bit e 3 then some (pteFrame e * 65536) else none

/-- The roots of the contexts of a partition, or of a die's firmware (R287, R304). -/
def State.roots (s : State) (part : Nat) : List Nat :=
  if 12 ≤ part then ((Tbl.find? s.fwTable (part - 12)).map fun r => r.1).toList
  else
    let base := (s.partition part).ctxBase.toNat
    (List.range 64).filterMap fun i => if s.readNat (base + 64 * i) 1 % 2 = 1 then some (s.readNat (base + 64 * i + 16) 8) else none

/-- The leaves of 64 KiB pages below some root tables (R137). -/
def State.smallBelow (s : State) (roots : List Nat) : List W64 :=
  ((s.tablesBelow (s.tablesBelow roots)).flatMap s.tableWords).filter fun e => bit e 0 && bit e 3 && decide (leafOf e false = .leaf e false)

/-- The leaves of 256 MiB pages below some root tables (R137). -/
def State.bigBelow (s : State) (roots : List Nat) : List W64 :=
  ((s.tablesBelow roots).flatMap s.tableWords).filter fun e => bit e 0 && bit e 3 && decide (leafOf e true = .leaf e true)

/-- The leaves of 64 KiB pages in a partition's contexts (R137). -/
def State.smallLeaves (s : State) (part : Nat) : List W64 := s.smallBelow (s.roots part)

/-- The leaves of 256 MiB pages in a partition's contexts (R137). -/
def State.bigLeaves (s : State) (part : Nat) : List W64 := s.bigBelow (s.roots part)

/-- The partitions, and the firmware, whose page tables there are (R287, R304). -/
def State.tableOwners (s : State) : List Nat := s.parts.map (·.1) ++ s.fwTable.map fun e => 12 + e.1

/-- A leaf covers a line of a location that a slice owns (R137, R141). -/
def leafCovers (e : W64) (big : Bool) (l : Nat) : Bool :=
  decide (pteKind e = 128 * l / 2 ^ 64) && decide (pteFrame e * 65536 ≤ 128 * l % 2 ^ 64) &&
    decide (128 * l % 2 ^ 64 < pteFrame e * 65536 + (if big then 2 ^ 28 else 65536))

/-- A page-table entry maps a line that a slice owns, as a test of leaves says. -/
def State.mapped (s : State) (l : Nat) (test : W64 → Bool) : Bool :=
  s.tableOwners.any fun part =>
    (s.smallLeaves part).any (fun e => leafCovers e false l && test e) || (s.bigLeaves part).any fun e => leafCovers e true l && test e

/-- A page-table entry maps a line with HOME 1 (R139). -/
def State.mapsPinned (s : State) (l : Nat) : Bool := s.mapped l fun e => decide (pteHome e = 1)

/-! ### Line state (R142, R153) -/

/-- A set of a slice, of 2,048 (R1, R142): the key of its EvMax. -/
def setKey (slice l : Nat) : Nat := slice * 2048 + Config.setOf l % 2048

/-- What a slice keeps of a line; a line filled after an eviction takes Lmax = EvMax and Wc = 0, and counts as shared while such a lease may live
(R142, R153). -/
def State.lineIn (s : State) (slice l : Nat) : LineRec :=
  (Tbl.find? s.lines l).getD
    { slice := slice, lmax := Tbl.get 0 s.evMax (setKey slice l), wc := 0, zero := false, pinned := false, spilledWatch := false, excl := none,
      lessees := if Tbl.get 0 s.evMax (setKey slice l) = 0 then some [] else none, prio := 1, tagOnly := false }

/-- What its slice keeps of a line. -/
def State.line (s : State) (l : Nat) : LineRec := s.lineIn (homeSlice l) l

/-- The state with a line's record. -/
def State.setLine (s : State) (l : Nat) (r : LineRec) : State := { s with lines := Tbl.ins s.lines l r }

/-- The line is given up by a cluster that holds it exclusively, unless it is the given one; the write-back is a write of the whole line that the slice
serialises (R153, R351). No monitor watches an exclusively held line. -/
def State.recall (s : State) (l : Nat) (but : Option Nat) : State :=
  let r := s.line l
  match r.excl with
  | none => s
  | some (cl, _) =>
    if but = some cl then s else ({ s with flaws := s.flaws.filter fun k => k != l } : State).setLine l { r with excl := none, wc := max s.dtime r.lmax }

/-- Whether a cluster holds a line exclusively. -/
def State.holds (s : State) (l : Nat) (cluster : Option Nat) : Bool :=
  match (s.line l).excl, cluster with
  | some (cl, _), some c => cl == c
  | _, _ => false

/-! ### The ways of a set (R139, R142) -/

/-- A line has a data way: it is no zero line, and its page's HOME is not 3 (R139, R142). -/
def LineRec.hasData (r : LineRec) : Bool := !r.zero && !r.tagOnly

/-- The set of a line's record. -/
def LineRec.set (r : LineRec) (l : Nat) : Nat := setKey r.slice l

/-- The other lines of a line's set. -/
def State.setLines (s : State) (slice l : Nat) : List (Nat × LineRec) :=
  s.lines.filter fun e => decide (e.2.set e.1 = setKey slice l) && decide (e.1 ≠ l)

/-- A slice evicts a line: one held exclusively comes back first; EvMax of its set keeps its latest lease (R142, R153). -/
def State.evictLine (s : State) (l : Nat) : State :=
  let s1 := s.recall l none
  let k := (s1.line l).set l
  { s1 with lines := Tbl.del s1.lines l, evMax := Tbl.put 0 s1.evMax k (max (Tbl.get 0 s1.evMax k) (s1.line l).lmax) }

/-- A line that replacement may choose: an unpinned one of the lowest priority among those that would make room (R133, R142). -/
def victimsOf (here : List (Nat × LineRec)) (data : Bool) : List (Nat × LineRec) :=
  let pool := here.filter fun e => !e.2.pinned && (!data || e.2.hasData)
  pool.filter fun e => pool.all fun x => decide (e.2.prio ≤ x.2.prio)

/-- Room for a line in its set of 16 tag ways and, if it takes data, 12 data ways (R142). -/
def State.makeRoom (s : State) (slice l : Nat) (data : Bool) : State :=
  if s.lines.length < 12 then s
  else
    let here := s.setLines slice l
    let noWay := data && decide (12 ≤ (here.filter fun e => e.2.hasData).length)
    if noWay || decide (16 ≤ here.length) then
      let vs := victimsOf here noWay
      match vs[Config.victim l s.writeSeq % vs.length]? with
      | some e => s.evictLine e.1
      | none => s
    else s

/-- Pinned lines are pinned no longer where no page-table entry maps them with HOME 1 (R139). -/
def State.unpin (s : State) : State :=
  { s with lines := s.lines.map fun e => (e.1, { e.2 with pinned := e.2.pinned && s.mapsPinned e.1 }) }

/-- A HOME 1 line may take a pinned way: at most 8 of a set's are (R139, R142). -/
def State.pinsLeft (s : State) (slice l : Nat) : Bool :=
  decide (s.lines.length < 8) || decide (((s.setLines slice l).filter fun e => e.2.pinned).length < 8)

/-- The line of an access in its slice, with its priority and pin (R133, R139, R142; log entry 74). -/
def State.touchLine (s0 : State) (p : Place) (policy : Nat) : State :=
  let s := s0.unpin
  let l := p.loc / 128
  let isNew := (Tbl.find? s.lines l).isNone
  let bare := decide (pteHome p.pte = 3)
  let r0 := s.lineIn p.slice l
  let s1 := if isNew || (r0.tagOnly && !bare) then s.makeRoom r0.slice l (!bare) else s
  let r := s1.lineIn p.slice l
  s1.setLine l { r with pinned := r.pinned || (decide (pteHome p.pte = 1) && s1.pinsLeft r.slice l), tagOnly := bare,
                        prio := if policy = 1 then (if isNew then 0 else r.prio) else if policy = 3 then 2 else 1 }

/-- A write of all its bytes leaves no error in what a line stores (R351). -/
def State.rewritten (s : State) (l n : Nat) : State := if n = 128 then { s with flaws := s.flaws.filter fun k => k != l } else s

/-! ### Monitors' words -/

/-- The comparison of WAIT and of monitor entries (R261). -/
def waitTest (fn : BitVec 4) (w64 : Bool) (v op : W64) : Bool :=
  let w := if w64 then 64 else 32
  let sv := (v.setWidth w).toInt
  let so := (op.setWidth w).toInt
  let uv := (v.setWidth w).toNat
  let uo := (op.setWidth w).toNat
  match fn.toNat with
  | 0 => uv == uo
  | 1 => uv != uo
  | 2 => decide (sv < so)
  | 3 => decide (sv ≤ so)
  | 4 => decide (sv > so)
  | 5 => decide (sv ≥ so)
  | 6 => decide (uv < uo)
  | 7 => decide (uv ≤ uo)
  | 8 => decide (uv > uo)
  | 9 => decide (uv ≥ uo)
  | 10 => (v.setWidth w &&& op.setWidth w) != 0
  | _ => (v.setWidth w &&& op.setWidth w) == op.setWidth w

/-- The bytes of a watched word (R259). -/
def Mon.bytes (m : Mon) : Nat := if m.w64 then 8 else 4

/-- The value of a monitor's word (R261). -/
def State.monWord (s : State) (m : Mon) : W64 := BitVec.ofNat 64 (s.readNat m.loc m.bytes)

/-- An entry as it stands in the spill area (R259). -/
def Mon.encode (m : Mon) : List Byte :=
  toBytes 32 (1 + b2n m.hostq * 2 + b2n m.w64 * 4 + m.fn.toNat * 8 + m.part % 16 * 2 ^ 7 + m.asid * 2 ^ 11 + m.slot * 2 ^ 27 + m.group * 2 ^ 39
    + (m.loc % 2 ^ 52 / 4) * 2 ^ 46 + m.lanes.toNat * 2 ^ 96 + m.deadline * 2 ^ 128 + m.operand.toNat * 2 ^ 192)

/-- Entries taken out; the spill area's copies are freed, and the filter is cleared when no spilled entry is left (R261, R265). -/
def State.dropMons (s : State) (gone : Mon → Bool) : State :=
  let out := s.mons.filter gone
  let kept := s.mons.filter fun m => !gone m
  let s1 := out.foldl (fun t m => match m.spill with
    | some i => t.poke (locOf 0 ((t.partition m.part).spBase.toNat + 32 * i)) (List.replicate 32 0)
    | none => t) s
  { s1 with mons := kept, filter := s1.filter.filter fun e => kept.any fun m => m.spill.isSome && m.slice == e.1 / 8192 }

/-- A wake sent (R261). -/
def State.sendWake (s : State) (w : Wake) : State := { s with wakes := Tbl.ins s.wakes (Tbl.freshKey s.wakes) w }

/-- Whether a write to n bytes at a location changes or rewrites a byte of a watched word (R261). -/
def Mon.touched (m : Mon) (loc n : Nat) : Bool := decide (m.loc < loc + n) && decide (loc < m.loc + m.bytes)

/-- The compare after a write serialised at a slice: satisfied entries are removed, and each wakes with the value just after the write
(R261). -/
def State.compare (s : State) (loc n c : Nat) : State :=
  let hit := fun m : Mon => m.touched loc n && waitTest m.fn m.w64 (s.monWord m) m.operand
  let out := s.mons.filter hit
  out.foldl (fun t m => t.sendWake { mon := m, value := s.monWord m, pred := true, c := c, stamp := s.writeSeq }) (s.dropMons hit)

/-- A write serialised at the owner of a place, by a cluster or by none, with a policy (R133, R142, R144, R146, R153, R261). Answers the completion
time c; a peer's reply carries none (R346). -/
def State.writeWith (s0 : State) (p : Place) (bs : List Byte) (cluster : Option Nat) (policy : Nat) : State × Option Nat :=
  let s : State := { s0 with writeSeq := s0.writeSeq + 1 }
  match p.owned with
  | .scratch _ => (s.poke p.loc bs, some s.dtime)
  | .pinned => (s.poke p.loc bs, some s.dtime)
  | .peer => (s.poke p.loc bs, none)
  | .slice =>
    let l := p.loc / 128
    let s1 := ((s.recall l cluster).touchLine p policy).rewritten l bs.length
    if s1.holds l cluster then
      let r := s1.line l
      ((s1.poke p.loc bs).setLine l { r with excl := cluster.map fun c => (c, s1.dtime), zero := false }, some s1.dtime)
    else
      let r := s1.line l
      let c := max s1.dtime r.lmax
      let zeros := decide (bs.length = 128) && bs.all fun b => decide (b = 0)
      let s2 := if r.zero && !zeros then s1.makeRoom r.slice l true else s1
      let s3 := (s2.poke p.loc bs).setLine l { r with wc := c, zero := r.zero && zeros }
      (s3.compare p.loc bs.length c, some c)

/-- A write at normal policy. -/
def State.writeAt (s : State) (p : Place) (bs : List Byte) (cluster : Option Nat) : State × Option Nat := s.writeWith p bs cluster 0

/-! ### Reads and leases (R143, R146) -/

/-- The lease expiry granted now: rounded up to a multiple of 16 ns (R143). -/
def expiryAt (dtime lease : Nat) : Nat := roundUp 4 (dtime + lease)

/-- Whether an L1 entry is the copy of a virtual line of a context on a cluster (R143). -/
def L1Line.isCopy (c : L1Line) (cluster part asid vline : Nat) : Bool :=
  c.cluster == cluster && c.part == part && c.asid == asid && c.vline == vline

/-- The copy of a virtual line. -/
def State.copyOf (s : State) (cluster part asid vline : Nat) : Option L1Line := s.l1.find? fun c => c.isCopy cluster part asid vline

/-- An L1 gives up its entry i; one of a line that its cluster holds exclusively is written back (R143, R153). -/
def State.l1Evict (s : State) (i : Nat) : State :=
  match s.l1[i]? with
  | none => s
  | some c => ({ s with l1 := s.l1.eraseIdx i } : State).recall c.line (if s.holds c.line (some c.cluster) then none else (s.line c.line).excl.map (·.1))

/-- The places in the list of L1 entries that are a cluster's. -/
def State.l1Of (s : State) (cluster : Nat) : List Nat :=
  (List.range s.l1.length).filter fun i => (s.l1[i]?.map fun c => c.cluster) == some cluster

/-- A copy put into its cluster's L1, which holds 2,048 lines (R1, R143). -/
def State.l1Put (s : State) (c : L1Line) : State :=
  let s1 : State := { s with l1 := s.l1.filter fun e => !e.isCopy c.cluster c.part c.asid c.vline }
  let s2 := if s1.l1.length < 2048 then s1
    else
      let mine := s1.l1Of c.cluster
      if mine.length < 2048 then s1 else s1.l1Evict (mine.getD (Config.victim c.vline s1.writeSeq % mine.length) 0)
  { s2 with l1 := c :: s2.l1 }

/-- A read reply's lease: Lmax is raised, the cluster is a lessee, and the data enter the L1 where a copy is present or where the policy allocates
(R143, R146, R153). -/
def State.fill (s : State) (cluster part asid : Nat) (p : Place) (allocate : Bool) : State :=
  match pteLease p.pte with
  | none => s
  | some lease =>
    let vline := p.va / 128
    let l := p.loc / 128
    let r := s.line l
    let e := expiryAt s.dtime lease
    let live := if s.dtime < r.lmax then r.lessees else some []
    let s1 := s.setLine l { r with lmax := max r.lmax e, lessees := live.map fun cs => if cs.contains cluster then cs else cluster :: cs }
    if !p.l1able || !(allocate || (s.copyOf cluster part asid vline).isSome) then s1
    else s1.l1Put { cluster := cluster, part := part, asid := asid, vline := vline, line := l, data := s.read (l * 128) 128, exp := e, wc := r.wc,
                    seen := s.writeSeq, stamps := [] }

/-- The copies of a line that a cluster's L1 filled before a read's value was captured are dropped: no later read of the reader goes back behind that value
(R146; DEDUCED, log entry 89). -/
def State.dropStale (s : State) (cluster l stamp : Nat) : State :=
  { s with l1 := s.l1.filter fun c => !(c.cluster == cluster && c.line == l && decide (c.seen < stamp)) }

/-- A present copy refreshed by a reply of the owner (R146). -/
def State.refresh (s : State) (cluster part asid : Nat) (p : Place) : State :=
  if (s.copyOf cluster part asid (p.va / 128)).isSome then s.fill cluster part asid p false else s

/-- The policy of an access: MD's when nonzero, else its tag's: 0 normal, 1 stream, 2 no-L1, 3 keep near (R131, R133). -/
def policyOf (md : BitVec 8) (addr : W64) : Nat :=
  if mdPolicy md ≠ 0 then mdPolicy md
  else match bits addr 63 60 with
    | 1 => 1
    | 2 => 2
    | _ => 0

/-- n bytes read on a cluster, the Wc that enters GWCT, and the state with the lease granted (R133, R143, R144, R146). A cluster that holds the
line reads it near, and each such access restarts the 16 µs (R153). -/
def State.readBy (s : State) (cluster part asid : Nat) (p : Place) (n policy : Nat) : List Byte × Option Nat × State :=
  match p.owned with
  | .scratch _ => (s.read p.loc n, none, s)
  | .pinned => (s.read p.loc n, none, s)
  | .peer => (s.read p.loc n, none, s)
  | .slice =>
    let l := p.loc / 128
    if s.holds l (some cluster) then (s.read p.loc n, some (s.line l).wc, s.setLine l { s.line l with excl := some (cluster, s.dtime) })
    else match (s.copyOf cluster part asid (p.va / 128)).filter fun c => p.l1able && decide (policy ≠ 2) && decide (s.dtime < c.exp) with
      | some c => ((c.data.drop (p.loc % 128)).take n, some c.wc, s)
      | none =>
        let s1 := (s.recall l none).touchLine p policy
        (s1.read p.loc n, some (s1.line l).wc, s1.fill cluster part asid p (policy = 0 ∨ policy = 3))

/-- A copy with a store's bytes: those that neither its fill nor a later store has overtaken; its Wc rises to the store's c (R143, R144, R146; log
entry 73). -/
def L1Line.take (x : L1Line) (off stamp c : Nat) (bs : List Byte) : L1Line :=
  let new := fun (k : Nat) => decide (off ≤ k) && decide (k < off + bs.length) && decide (x.seen < stamp) && decide (Tbl.get 0 x.stamps k < stamp)
  { x with data := x.data.mapIdx fun k b => if new k then bs.getD (k - off) b else b,
           stamps := (List.range 128).foldl (fun m k => if new k then Tbl.ins m k stamp else m) x.stamps,
           wc := max x.wc c }

/-- A present copy takes a store's bytes (R143). -/
def State.updateCopy (s : State) (cluster part asid vline loc stamp c : Nat) (bs : List Byte) : State :=
  { s with l1 := s.l1.map fun x =>
      if x.isCopy cluster part asid vline && decide (x.line = loc / 128) then x.take (loc % 128) stamp c bs else x }

end Sys2Proof.Machine
end

