-- ==== Sys2Proof/Machine/Geometry.lean ====
section
/-! DEFINITION. The geometry of a copy (R181 to R183): rows, bounds, the lines that it writes, and the members whose scratchpads they stand in. -/

namespace Sys2Proof.Machine

/-- What a slice's geometry word says; a linear copy is one row of N bytes (R181, R182). -/
structure Geo where
  sparse : Bool
  /-- Bytes of a sparse element. -/
  esz : Nat
  x : Nat
  y : Nat
  z : Nat
  srw : Nat
  spl : Nat
  drw : Nat
  dpl : Nat
deriving DecidableEq, Repr, Inhabited

/-- The slice is linear (R181). -/
def CopySlice.linear (c : CopySlice) : Bool := decide (bits c.geo 63 32 = 0)

/-- The geometry of a slice (R181, R182). -/
def CopySlice.geom (c : CopySlice) : Geo :=
  if c.linear then { sparse := false, esz := 1, x := bits c.geo 31 0, y := 1, z := 1, srw := 0, spl := 0, drw := 0, dpl := 0 }
  else
    { sparse := bit c.geo 48, esz := 2 ^ bits c.geo 50 49, x := bits c.geo 15 0, y := bits c.geo 31 16, z := bits c.geo 47 32,
      srw := bits c.sstr 31 0, spl := bits c.sstr 63 32, drw := bits c.dstr 31 0, dpl := bits c.dstr 63 32 }

/-- Step 1 of R186 (R181, R183); X below its range is malformed as well. -/
def CopySlice.formed (c : CopySlice) : Bool :=
  let g := c.geom
  c.linear ||
    (decide (bits c.geo 63 51 = 0) && decide (g.y ≠ 0) && decide (g.z ≠ 0) && decide (g.x % 4 = 0) && decide (g.x ≠ 0)
      && decide (bits c.geo 50 49 ≠ 3) && (!g.sparse || (decide (g.y = 64) && decide (g.x = 64 * g.esz))))

/-- A row of a copy: where it is read from and written to, its bytes, and for a sparse one its tile's address, its row and element size. -/
structure CopyRow where
  src : Nat
  dst : Nat
  len : Nat
  tile : Option (Nat × Nat × Nat)
deriving DecidableEq, Repr, Inhabited

/-- The rows of a slice in flattened order (R182, R183). -/
def CopySlice.rows (c : CopySlice) : List CopyRow :=
  let g := c.geom
  if g.x = 0 then []
  else (List.range g.z).flatMap fun z => (List.range g.y).map fun y =>
    { src := c.src.toNat + z * g.spl + y * g.srw, dst := c.dst.toNat + z * g.dpl + y * g.drw, len := g.x,
      tile := if g.sparse then some (c.src.toNat + z * g.spl, y, g.esz) else none }

/-- The bytes of the largest compressed tile (R183). -/
def tileMax (esz : Nat) : Nat := 512 + 4096 * esz

/-- The source spans of a slice: its rows, or for a sparse one its tiles at their largest size (R182). -/
def CopySlice.srcSpans (c : CopySlice) : List (Nat × Nat) :=
  let g := c.geom
  if g.sparse then (List.range g.z).map fun z => (c.src.toNat + z * g.spl, tileMax g.esz)
  else c.rows.map fun r => (r.src, r.len)

/-- The destination spans of a slice. -/
def CopySlice.dstSpans (c : CopySlice) : List (Nat × Nat) := c.rows.map fun r => (r.dst, r.len)

/-- The highest source address of a slice (R182); its pointer for a copy of no bytes. -/
def CopySlice.srcTop (c : CopySlice) : Nat :=
  let g := c.geom
  if g.x = 0 then c.src.toNat
  else if g.sparse then c.src.toNat + (g.z - 1) * g.spl + tileMax g.esz - 1
  else c.src.toNat + (g.z - 1) * g.spl + (g.y - 1) * g.srw + g.x - 1

/-- The number of set bits of a word's low n bits. -/
def onesBelow (w : W64) (n : Nat) : Nat := ((List.range n).filter fun i => bit w i).length

/-- The highest destination address of a slice (R182). -/
def CopySlice.dstTop (c : CopySlice) : Nat :=
  let g := c.geom
  if g.x = 0 then c.dst.toNat else c.dst.toNat + (g.z - 1) * g.dpl + (g.y - 1) * g.drw + g.x - 1

/-- A slice moves no byte. -/
def CopySlice.nothing (c : CopySlice) : Bool := decide (c.geom.x = 0)

/-- Step 2 of R186 for an endpoint: a pointer and its exact highest address. -/
def endpointOk (ptr : W64) (top : Nat) : Bool :=
  tagOk ptr && decide (top < 2 ^ 64) && tagOk (BitVec.ofNat 64 top) && decide (tagOf (BitVec.ofNat 64 top) = tagOf ptr)

/-- The lines that some bytes of a span lie in. -/
def spanLines (addr n : Nat) : List Nat := if n = 0 then [] else (List.range ((addr + n - 1) / 128 + 1 - addr / 128)).map fun k => addr / 128 + k

/-- The tiles of a sparse slice, by their addresses (R183). -/
def CopySlice.tileAddrs (c : CopySlice) : List Nat := (List.range c.geom.z).map fun z => c.src.toNat + z * c.geom.spl

/-- The source lines that hold the masks of a slice's tiles (R183). -/
def CopySlice.maskLines (c : CopySlice) : List Nat := if c.geom.sparse then c.tileAddrs.flatMap fun a => spanLines a 512 else []

/-- The elements of a list, each at its first place only. -/
def firstsOf (l : List Nat) : List Nat := l.foldl (fun acc x => if acc.contains x then acc else acc ++ [x]) []

/-- The destination lines of a copy, by address over 128, in flattened order (R182, R192). -/
def destLines (l : List CopySlice) : List Nat := firstsOf (l.flatMap fun c => c.rows.flatMap fun r => spanLines r.dst r.len)

/-- The place of a team in its cluster set. -/
def memberNo (team : Nat) (t : Team) : Nat := (t.set.findIdx? (· == team)).getD 0

/-- The members that a mask of 8 bits names, ascending. -/
def membersIn (mask : Nat) : List Nat := (List.range 8).filter fun m => mask / 2 ^ m % 2 = 1

/-- The scratchpad lines that a slice writes, by member of the cluster set and line (R185, R191). -/
def CopySlice.spLines (c : CopySlice) (team : Nat) (t : Team) (mask : Nat) : List (Nat × Nat) :=
  let ls := firstsOf (c.rows.flatMap fun r => spanLines r.dst r.len)
  let at' := fun (m : Nat) => ls.map fun l => (m, l % 2 ^ 15)
  if mask ≠ 0 then (membersIn mask).flatMap at'
  else match tagOf c.dst with
    | 4 => at' (memberNo team t)
    | 5 => ls.map fun l => (l / 2 ^ 17 % 8, l % 2 ^ 15)
    | _ => []

/-- The team of a member of the cluster set. -/
def Team.member (t : Team) (m : Nat) : Option Nat := t.set[m]?

/-- A member's team is resident. -/
def State.memberResident (s : State) (t : Team) (m : Nat) : Bool :=
  ((t.member m).bind s.team).any fun v => v.resident

/-- Scratchpad lines of a team made absent (R24). -/
def State.clearPresence (s : State) (team : Nat) (lines : List Nat) : State :=
  s.modTeam team fun t => { t with absent := lines.foldl (fun m l => Tbl.put false m l true) t.absent }

/-- Scratchpad lines of a team made present (R24). -/
def State.setPresence (s : State) (team : Nat) (lines : List Nat) : State :=
  s.modTeam team fun t => { t with absent := lines.foldl (fun m l => Tbl.put false m l false) t.absent }

/-- Lines of members cleared where the member's team is resident and no bit of `skip` names it (R185, R191). -/
def State.clearMembers (s : State) (t : Team) (ls : List (Nat × Nat)) (skip : Nat) : State :=
  ls.foldl (fun u e =>
    if skip / 2 ^ e.1 % 2 = 0 ∧ s.memberResident t e.1 = true then
      match t.member e.1 with
      | some v => u.clearPresence v [e.2]
      | none => u
    else u) s

/-- The members of some lines whose teams are resident, as a mask. -/
def State.residentMask (s : State) (t : Team) (ls : List (Nat × Nat)) : Nat :=
  ((List.range 8).filter fun m => ls.any (fun e => e.1 == m) && s.memberResident t m).foldl (fun n m => n + 2 ^ m) 0

/-- The judgement of the named members at a copy's start: the bits of those whose team has not started or has ended (R191). -/
def State.undelivered (s : State) (t : Team) (mask : Nat) : Nat :=
  ((membersIn mask).filter fun m => match (t.member m).bind s.team with
    | none => true
    | some v => (match v.res with | .ended _ => true | .loading _ => true | _ => false)).foldl (fun n m => n + 2 ^ m) 0

/-- What the start of a copy does beside its locks: named members are judged, members that have become resident since a slice's arrival lose
their presence bits, and the copy state is free (R185, R191). -/
def State.startCopy (s : State) (team : Nat) (k : CopyCmd) : State × CopyCmd :=
  match s.team team with
  | none => (s, k)
  | some t =>
    let s1 := k.slices.foldl (fun u c => u.clearMembers t (c.spLines team t k.mask) c.cleared) s
    let s2 := match k.id with
      | some i => s1.modTeam team fun t => { t with copies := Tbl.del t.copies i }
      | none => s1
    (s2, { k with undelivered := s.undelivered t k.mask })

end Sys2Proof.Machine
end

