-- ==== Sys2Proof/Machine/Elementary.lean ====
section
/-! DEFINITION. The elementary functions of R113 as exact values: reciprocal, square roots, 2^x, log2 and tanh. An irrational result is held as a
dyadic number inside an interval of the fixed-point computation that no rounding boundary of the formats meets (DEDUCED, log entry 12), so
that rounding it once gives the rounding of the exact result. -/

namespace Sys2Proof.Machine

/-- The integer square root of n, found bit by bit from bit k - 1 down. -/
def isqrtFrom : Nat → Nat → Nat → Nat
  | 0, _, r => r
  | k + 1, n, r => let c := r + 2 ^ k
    isqrtFrom k n (if c * c ≤ n then c else r)

/-- The integer square root. -/
def isqrt (n : Nat) : Nat := isqrtFrom (Nat.log2 n / 2 + 1) n 0

/-- A value strictly between n and n + 1 times 2^e, or exactly n times 2^e. -/
def between (exact : Bool) (s : Bool) (n : Nat) (e : Int) : FpVal :=
  if exact then .fin s n e else .fin s (2 * n + 1) (e - 1)

/-- 1/x for a finite nonzero x (R113). -/
def recipVal (s : Bool) (m : Nat) (e : Int) : FpVal :=
  let k := Nat.log2 m + 80
  between (decide (2 ^ k % m = 0)) s (2 ^ k / m) (-(k : Int) - e)

/-- A magnitude with its exponent made even. -/
def evenExp (m : Nat) (e : Int) : Nat × Int := if e % 2 = 0 then (m, e) else (2 * m, e - 1)

/-- The square root of a positive x (R113). -/
def sqrtVal (m : Nat) (e : Int) : FpVal :=
  let p := evenExp m e
  let n := p.1 * 2 ^ 80
  let r := isqrt n
  between (decide (r * r = n)) false r (p.2 / 2 - 40)

/-- 1/√x for a positive x (R113). -/
def rsqrtVal (m : Nat) (e : Int) : FpVal :=
  let p := evenExp m e
  let r := isqrt (2 ^ 200 / p.1)
  between (decide (r * r * p.1 = 2 ^ 200)) false r (-100 - p.2 / 2)

/-- The bits of the fixed-point numbers below. -/
abbrev fixK : Nat := 640

/-- The terms from number i on of the series of artanh (1/n), at fixed point, from t = 2^K / n^(2i+1). -/
def artanhSum (n : Nat) : Nat → Nat → Nat → Nat
  | 0, _, _ => 0
  | k + 1, i, t => t / (2 * i + 1) + artanhSum n k (i + 1) (t / (n * n))

/-- ln 2 at fixed point. -/
def ln2Fix : Nat :=
  18 * artanhSum 26 72 0 (2 ^ fixK / 26) + 8 * artanhSum 8749 30 0 (2 ^ fixK / 8749)
    - 2 * artanhSum 4801 30 0 (2 ^ fixK / 4801)

/-- The terms from number i on of the series of exp r, at fixed point, from the term t. -/
def expSum (r : Nat) : Nat → Nat → Nat → Nat
  | 0, _, _ => 0
  | k + 1, i, t => t + expSum r k (i + 1) (t * r / 2 ^ fixK / (i + 1))

/-- 2^f at fixed point, for a fraction f at fixed point. -/
def exp2Frac (f : Nat) : Nat := expSum (f * ln2Fix / 2 ^ fixK) 140 0 (2 ^ fixK)

/-- 2^x for a finite x (R113). -/
def exp2Val (s : Bool) (m : Nat) (e : Int) : FpVal :=
  if m = 0 then .fin false 1 0
  else if (Nat.log2 m : Int) + e ≥ 9 then .fin false 1 (if s then -1000 else 1000)
  else
    let z := signedAt s m (e + (fixK : Int)) 0
    let n := z.fdiv ((2 ^ fixK : Nat) : Int)
    let f := (z - n * ((2 ^ fixK : Nat) : Int)).toNat
    if f = 0 then .fin false 1 n
    else between false false (exp2Frac f / 2 ^ 80) (n - ((fixK - 80 : Nat) : Int))

/-- k bits of the base-2 logarithm of y, a number from 1 to 2 at fixed point, appended to acc. -/
def log2Bits : Nat → Nat → Nat → Nat
  | 0, _, acc => acc
  | k + 1, y, acc =>
    let z := y * y / 2 ^ fixK
    if z ≥ 2 ^ (fixK + 1) then log2Bits k (z / 2) (2 * acc + 1) else log2Bits k z (2 * acc)

/-- log2 x for a positive x (R113). -/
def log2Val (m : Nat) (e : Int) : FpVal :=
  let l := Nat.log2 m
  let n : Int := (l : Int) + e
  if m = 2 ^ l then .fin (decide (n < 0)) n.natAbs 0
  else
    let z := n * ((2 ^ 240 : Nat) : Int) + (log2Bits 240 (m * 2 ^ fixK / 2 ^ l) 0 : Int)
    if z < 0 then between false true (z.natAbs - 1) (-240) else between false false z.natAbs (-240)

/-- tanh x for a finite nonzero x (R113). -/
def tanhVal (s : Bool) (m : Nat) (e : Int) : FpVal :=
  let top : Int := (Nat.log2 m : Int) + e
  if top < -60 then .fin s (m * 2 ^ 101 - 1) (e - 101)
  else if top ≥ 6 then .fin s (2 ^ 90 - 1) (-90)
  else
    let x2 := (signedAt false m (e + (fixK : Int) + 1) 0).toNat
    let t := x2 * 2 ^ fixK / ln2Fix
    let ex := exp2Frac (t % 2 ^ fixK) * 2 ^ (t / 2 ^ fixK)
    between false s ((ex - 2 ^ fixK) * 2 ^ 300 / (ex + 2 ^ fixK)) (-300)

/-- The six functions of R113. -/
inductive Elem where
  | rcp | rsq | sqrt | exp2 | log2 | tanh
deriving DecidableEq, Repr, Inhabited

/-- The exact result of an elementary function, with the flags of its special operands (R113). -/
def elemVal (k : Elem) (v : FpVal) : FpVal × FpFlags :=
  match k, v with
  | _, .nan _ => (.nan false, 0)
  | .rcp, .inf s => (.fin s 0 0, 0)
  | .rcp, .fin s m e => if m = 0 then (.inf s, fDivZero) else (recipVal s m e, 0)
  | .rsq, .inf s => if s then (.nan false, fInvalid) else (.fin false 0 0, 0)
  | .rsq, .fin s m e =>
    if m = 0 then (.inf s, fDivZero) else if s then (.nan false, fInvalid) else (rsqrtVal m e, 0)
  | .sqrt, .inf s => if s then (.nan false, fInvalid) else (.inf false, 0)
  | .sqrt, .fin s m e =>
    if m = 0 then (.fin s 0 0, 0) else if s then (.nan false, fInvalid) else (sqrtVal m e, 0)
  | .exp2, .inf s => if s then (.fin false 0 0, 0) else (.inf false, 0)
  | .exp2, .fin s m e => (exp2Val s m e, 0)
  | .log2, .inf s => if s then (.nan false, fInvalid) else (.inf false, 0)
  | .log2, .fin s m e =>
    if m = 0 then (.inf true, fDivZero) else if s then (.nan false, fInvalid) else (log2Val m e, 0)
  | .tanh, .inf s => (.fin s 1 0, 0)
  | .tanh, .fin s m e => if m = 0 then (.fin s 0 0, 0) else (tanhVal s m e, 0)

end Sys2Proof.Machine
end

