-- ==== Sys2Proof/Machine/Lane.lean ====
section
/-! DEFINITION. The results of the integer and logic instructions as functions of their source values (R94 to R104). A source value is the 64
bits read for it; a 32-bit source has its upper half zero or ignored. -/

namespace Sys2Proof.Machine

/-- A source as an integer of type ty (R94, R95). -/
def intVal (ty : DType) (x : W64) : Int :=
  if tySigned ty then (x.setWidth (tyWidth ty)).toInt else ((x.setWidth (tyWidth ty)).toNat : Int)

/-- An exact value modulo 2^w, zero-extended (R95). -/
def wrapTo (w : Nat) (z : Int) : W64 := (BitVec.ofInt w z).setWidth 64

/-- The least value of an integer type (R95). -/
def tyMin (ty : DType) : Int := if tySigned ty then -((2 ^ (tyWidth ty - 1) : Nat) : Int) else 0

/-- The greatest value of an integer type (R95). -/
def tyMax (ty : DType) : Int :=
  if tySigned ty then ((2 ^ (tyWidth ty - 1) : Nat) : Int) - 1 else ((2 ^ tyWidth ty : Nat) : Int) - 1

/-- A value clamped to the range of a type (R95). -/
def clampTo (ty : DType) (z : Int) : Int := if z < tyMin ty then tyMin ty else if z > tyMax ty then tyMax ty else z

/-- Delivery of an exact value under SAT (R95). -/
def deliver (ty : DType) (sat : Bool) (z : Int) : W64 :=
  wrapTo (tyWidth ty) (if sat then clampTo ty z else z)

/-- ADD (R97). -/
def aluAdd (ty : DType) (sat : Bool) (a b : W64) : W64 := deliver ty sat (intVal ty a + intVal ty b)
/-- SUB (R97). -/
def aluSub (ty : DType) (sat : Bool) (a b : W64) : W64 := deliver ty sat (intVal ty a - intVal ty b)
/-- MUL (R97). -/
def aluMul (ty : DType) (sat : Bool) (a b : W64) : W64 := deliver ty sat (intVal ty a * intVal ty b)
/-- MULH: bits [2w-1:w] of the exact product (R97). -/
def aluMulh (ty : DType) (a b : W64) : W64 :=
  wrapTo (tyWidth ty) ((intVal ty a * intVal ty b).fdiv ((2 ^ tyWidth ty : Nat) : Int))
/-- MAD (R97). -/
def aluMad (ty : DType) (sat : Bool) (a b c : W64) : W64 :=
  deliver ty sat (intVal ty a * intVal ty b + intVal ty c)
/-- DIV: truncated; division by zero gives all ones (R97). -/
def aluDiv (ty : DType) (a b : W64) : W64 :=
  if intVal ty b = 0 then wrapTo (tyWidth ty) (-1) else wrapTo (tyWidth ty) ((intVal ty a).tdiv (intVal ty b))
/-- REM: a minus b times the quotient; division by zero gives a (R97). -/
def aluRem (ty : DType) (a b : W64) : W64 :=
  if intVal ty b = 0 then wrapTo (tyWidth ty) (intVal ty a) else wrapTo (tyWidth ty) ((intVal ty a).tmod (intVal ty b))
/-- MIN (R97). -/
def aluMin (ty : DType) (a b : W64) : W64 :=
  wrapTo (tyWidth ty) (if intVal ty a ≤ intVal ty b then intVal ty a else intVal ty b)
/-- MAX (R97). -/
def aluMax (ty : DType) (a b : W64) : W64 :=
  wrapTo (tyWidth ty) (if intVal ty a ≤ intVal ty b then intVal ty b else intVal ty a)
/-- ABS (R97). -/
def aluAbs (ty : DType) (sat : Bool) (a : W64) : W64 :=
  deliver ty sat (if intVal ty a < 0 then -(intVal ty a) else intVal ty a)
/-- AND (R97). -/
def aluAnd (ty : DType) (a b : W64) : W64 := lowBits (tyWidth ty) (a &&& b)
/-- OR (R97). -/
def aluOr (ty : DType) (a b : W64) : W64 := lowBits (tyWidth ty) (a ||| b)
/-- XOR (R97). -/
def aluXor (ty : DType) (a b : W64) : W64 := lowBits (tyWidth ty) (a ^^^ b)
/-- ANDN (R97). -/
def aluAndn (ty : DType) (a b : W64) : W64 := lowBits (tyWidth ty) (a &&& ~~~b)
/-- NOT (R97). -/
def aluNot (ty : DType) (a : W64) : W64 := lowBits (tyWidth ty) (~~~a)
/-- A shift count: the low 32 bits, unsigned (R97). -/
def shiftCount (b : W64) : Nat := (b.setWidth 32).toNat
/-- SHL; 0 when the count is the width or more (R97). -/
def aluShl (ty : DType) (a b : W64) : W64 :=
  if shiftCount b ≥ tyWidth ty then 0 else lowBits (tyWidth ty) (a <<< shiftCount b)
/-- SHR; 0 when the count is the width or more (R97). -/
def aluShr (ty : DType) (a b : W64) : W64 :=
  if shiftCount b ≥ tyWidth ty then 0 else (lowBits (tyWidth ty) a) >>> shiftCount b
/-- SAR; the sign in every bit when the count is the width or more (R97). -/
def aluSar (ty : DType) (a b : W64) : W64 :=
  lowBits (tyWidth ty) ((signBits (tyWidth ty) a).sshiftRight (if shiftCount b ≥ tyWidth ty then 63 else shiftCount b))
/-- ROT: rotate left by the count modulo the width (R97). -/
def aluRot (ty : DType) (a b : W64) : W64 :=
  ((a.setWidth (tyWidth ty)).rotateLeft (shiftCount b % tyWidth ty)).setWidth 64

/-- The number of the low n bits of a word that are 1. -/
def countOnes : Nat → W64 → Nat
  | 0, _ => 0
  | n + 1, x => b2n (bit x n) + countOnes n x
/-- The number of zero bits of x from bit n - 1 down to its highest 1 bit. -/
def leadZeros : Nat → W64 → Nat
  | 0, _ => 0
  | n + 1, x => if bit x n then 0 else 1 + leadZeros n x
/-- The number of zero bits of x below its lowest 1 bit, counted over n bits from bit i. -/
def trailZeros : Nat → Nat → W64 → Nat
  | 0, _, _ => 0
  | n + 1, i, x => if bit x i then 0 else 1 + trailZeros n (i + 1) x
/-- The low n bits of x in reverse order. -/
def reverseBits : Nat → W64 → Nat
  | 0, _ => 0
  | n + 1, x => b2n (bit x n) + 2 * reverseBits n x

/-- POPC (R97). -/
def aluPopc (ty : DType) (a : W64) : W64 := BitVec.ofNat 64 (countOnes (tyWidth ty) a)
/-- CLZ; the width when a is 0 (R97). -/
def aluClz (ty : DType) (a : W64) : W64 := BitVec.ofNat 64 (leadZeros (tyWidth ty) a)
/-- CTZ; the width when a is 0 (R97). -/
def aluCtz (ty : DType) (a : W64) : W64 := BitVec.ofNat 64 (trailZeros (tyWidth ty) 0 a)
/-- BREV (R97). -/
def aluBrev (ty : DType) (a : W64) : W64 := BitVec.ofNat 64 (reverseBits (tyWidth ty) a)

/-- BFX: position b[7:0], length b[15:8] (R98). -/
def aluBfx (ty : DType) (a b : W64) : W64 :=
  let w := tyWidth ty
  let p := bits b 7 0
  let n := min (bits b 15 8) w
  let v := ((a.setWidth w).toNat / 2 ^ p) % 2 ^ n
  if n = 0 then 0
  else if tySigned ty && decide (v ≥ 2 ^ (n - 1)) then wrapTo w ((v : Int) - ((2 ^ n : Nat) : Int))
  else BitVec.ofNat 64 v

/-- BFI: position c[7:0], length c[15:8] (R98). -/
def aluBfi (ty : DType) (a b c : W64) : W64 :=
  let w := tyWidth ty
  let p := bits c 7 0
  let n := bits c 15 8
  let mask := (2 ^ n - 1) * 2 ^ p
  let x := (a.setWidth w).toNat
  let y := ((b.setWidth w).toNat % 2 ^ n) * 2 ^ p
  BitVec.ofNat 64 (((x ^^^ (x &&& mask)) ||| y) % 2 ^ w)

/-- LEA: a + (x shifted left by c), x = B by TY (R99). -/
def aluLea (ty : DType) (a b c : W64) : W64 :=
  let x := if tySigned ty then signBits 32 b else lowBits (tyWidth ty) b
  if shiftCount c ≥ 64 then a else a + (x <<< shiftCount c)

/-- The comparisons of SETP: 0 to 5 signed, 6 to 9 unsigned, over the width of TY (R101). -/
def aluCompare (fn : BitVec 4) (ty : DType) (a b : W64) : Bool :=
  let w := tyWidth ty
  let sa := (a.setWidth w).toInt
  let sb := (b.setWidth w).toInt
  let ua := (a.setWidth w).toNat
  let ub := (b.setWidth w).toNat
  match fn.toNat with
  | 0 => sa == sb
  | 1 => sa != sb
  | 2 => decide (sa < sb)
  | 3 => decide (sa ≤ sb)
  | 4 => decide (sa > sb)
  | 5 => decide (sa ≥ sb)
  | 6 => decide (ua < ub)
  | 7 => decide (ua ≤ ub)
  | 8 => decide (ua > ub)
  | _ => decide (ua ≥ ub)

/-- PLOG: bit 2a + b of IMM (R102). -/
def aluPlog (imm : W32) (a b : Bool) : Bool := imm.getLsbD (2 * b2n a + b2n b)

/-- ADDX: the sum with carry in, modulo 2^w, and the carry out (R103). -/
def aluAddx (ty : DType) (a b : W64) (k : Bool) : W64 × Bool :=
  let w := tyWidth ty
  let s := (a.setWidth w).toNat + (b.setWidth w).toNat + b2n k
  (BitVec.ofNat 64 (s % 2 ^ w), decide (s ≥ 2 ^ w))

/-- Byte k of a word, signed for i8 and unsigned for n8 (R104). -/
def byteVal (ty : DType) (x : W64) (k : Nat) : Int := intVal ty (x >>> (8 * k))

/-- IDP4 (R104). -/
def aluIdp4 (ty : DType) (sat : Bool) (a b c : W64) : W64 :=
  let wide : DType := if tySigned ty then .i32 else .n32
  deliver wide sat (intVal wide c + byteVal ty a 0 * byteVal ty b 0 + byteVal ty a 1 * byteVal ty b 1
    + byteVal ty a 2 * byteVal ty b 2 + byteVal ty a 3 * byteVal ty b 3)

end Sys2Proof.Machine
end

