-- ==== Sys2Proof/Machine/FloatOps.lean ====
section
/-! DEFINITION. The results and flags of the floating-point instructions and conversions as functions of their source values (R105 to R118). -/

namespace Sys2Proof.Machine

/-- The modifiers of a floating-point instruction: rounding, FTZ and the abs and neg bits of its three source positions (R39, R46). -/
structure FpMod where
  rm : Rm
  ftz : Bool
  absA : Bool
  negA : Bool
  absB : Bool
  negB : Bool
  absC : Bool
  negC : Bool
deriving DecidableEq, Repr, Inhabited

/-- The modifiers that RM and a class F byte MD give (R46). -/
def fpMod (rm : Rm) (md : BitVec 8) : FpMod :=
  { rm := rm, ftz := md.getLsbD 6, negA := md.getLsbD 0, absA := md.getLsbD 1, negB := md.getLsbD 2, absB := md.getLsbD 3,
    negC := md.getLsbD 4, absC := md.getLsbD 5 }

/-- Source A of a format. -/
def FpMod.a (p : FpMod) (f : Fmt) (x : W64) : FpVal := f.source p.ftz p.absA p.negA x
/-- Source B of a format. -/
def FpMod.b (p : FpMod) (f : Fmt) (x : W64) : FpVal := f.source p.ftz p.absB p.negB x
/-- Source C of a format. -/
def FpMod.c (p : FpMod) (f : Fmt) (x : W64) : FpVal := f.source p.ftz p.absC p.negC x

/-- A code and flags as a register value and flags. -/
def asWord (r : Nat × FpFlags) : W64 × FpFlags := (BitVec.ofNat 64 r.1, r.2)

/-- An exact value with flags, rounded once and delivered, the flags joined (R108, R109). -/
def finish (f : Fmt) (p : FpMod) (fl : FpFlags) (v : FpVal × FpFlags) : W64 × FpFlags :=
  let r := f.deliver p.rm p.ftz v.1
  (BitVec.ofNat 64 r.1, fl ||| v.2 ||| r.2)

/-- a + b (FADD), or a - b with `sub` (FSUB) (R111). -/
def fpAdd (ty : DType) (p : FpMod) (sub : Bool) (a b : W64) : W64 × FpFlags :=
  let f := tyFmt ty
  let x := p.a f a
  let y := p.b f b
  finish f p (snanFlag [x, y]) (sumVals p.rm [x, if sub then y.neg else y])

/-- a × b (FMUL) (R111). -/
def fpMul (ty : DType) (p : FpMod) (a b : W64) : W64 × FpFlags :=
  let f := tyFmt ty
  let x := p.a f a
  let y := p.b f b
  finish f p (snanFlag [x, y]) (mulVals x y)

/-- a × b + c with one rounding (FFMA) (R111). -/
def fpFma (ty : DType) (p : FpMod) (a b c : W64) : W64 × FpFlags :=
  let f := tyFmt ty
  let x := p.a f a
  let y := p.b f b
  let z := p.c f c
  let m := mulVals x y
  finish f p (snanFlag [x, y, z] ||| m.2) (sumVals p.rm [m.1, z])

/-- FMIN, or FMAX with `big` (R112). -/
def fpMinMax (ty : DType) (p : FpMod) (big : Bool) (a b : W64) : W64 × FpFlags :=
  let f := tyFmt ty
  let x := p.a f a
  let y := p.b f b
  finish f p (snanFlag [x, y]) (minMaxNum big x y, 0)

/-- The comparisons of FSETP: 0 eq, 1 ne, 2 lt, 3 le, 4 gt, 5 ge, quiet (R112). -/
def fpCompare (fn : BitVec 4) (ty : DType) (p : FpMod) (a b : W64) : Bool × FpFlags :=
  let f := tyFmt ty
  let x := p.a f a
  let y := p.b f b
  let fl := snanFlag [x, y]
  if x.isNan || y.isNan then (decide (fn = 1), fl)
  else
    let o := cmpVals x y
    match fn.toNat with
    | 0 => (o == .eq, fl)
    | 1 => (o != .eq, fl)
    | 2 => (o == .lt, fl)
    | 3 => (o != .gt, fl)
    | 4 => (o == .gt, fl)
    | _ => (o != .lt, fl)

/-- FCLS: the one bit that names the class; no flag (R112). -/
def fpClass (ty : DType) (p : FpMod) (a : W64) : W64 :=
  let f := tyFmt ty
  let c := (a.setWidth f.width).toNat
  match p.a f a with
  | .nan sig => if sig then 1 else 2
  | .inf s => if s then 4 else 512
  | .fin s m _ =>
    if m = 0 then (if s then 32 else 64)
    else if f.isSubnormal c then (if s then 16 else 128)
    else if s then 8 else 256

/-- FRCP, FRSQ, FSQRT, FEXP2, FLOG2, FTANH (R113). -/
def fpElem (k : Elem) (ty : DType) (p : FpMod) (a : W64) : W64 × FpFlags :=
  let f := tyFmt ty
  let x := p.a f a
  finish f p (snanFlag [x]) (elemVal k x)

/-- FRND: rounded to integral in its own format; no inexact (R115). -/
def fpRound (ty : DType) (p : FpMod) (a : W64) : W64 × FpFlags :=
  let f := tyFmt ty
  let x := p.a f a
  match x with
  | .fin s m e => asWord ((f.roundFin p.rm .ieee p.ftz s (roundAt p.rm s m e 0).1 0).1, 0)
  | _ => asWord ((f.deliver p.rm p.ftz x).1, snanFlag [x])

/-- FSCALE: a × 2^n, n = B as a signed 32-bit integer (R115). -/
def fpScale (ty : DType) (p : FpMod) (a b : W64) : W64 × FpFlags :=
  let f := tyFmt ty
  let x := p.a f a
  let n := (b.setWidth 32).toInt
  -- beyond 600 either way every nonzero value of the formats overflows or is below half the least subnormal
  let n' := if n > 600 then 600 else if n < -600 then -600 else n
  finish f p (snanFlag [x]) ((match x with | .fin s m e => .fin s m (e + n') | v => v), 0)

/-- The low or high half of a packed operand (R114). -/
def half (hi : Bool) (x : W64) : W64 := lowBits 16 (if hi then x >>> 16 else x)

/-- Two halves and their flags joined (R114). -/
def packHalves (lo hi : W64 × FpFlags) : W64 × FpFlags :=
  (lowBits 16 lo.1 ||| (lowBits 16 hi.1 <<< 16), lo.2 ||| hi.2)

/-- HADD2 (R114). -/
def fpHadd2 (ty : DType) (p : FpMod) (a b : W64) : W64 × FpFlags :=
  packHalves (fpAdd ty p false (half false a) (half false b)) (fpAdd ty p false (half true a) (half true b))
/-- HMUL2 (R114). -/
def fpHmul2 (ty : DType) (p : FpMod) (a b : W64) : W64 × FpFlags :=
  packHalves (fpMul ty p (half false a) (half false b)) (fpMul ty p (half true a) (half true b))
/-- HFMA2 (R114). -/
def fpHfma2 (ty : DType) (p : FpMod) (a b c : W64) : W64 × FpFlags :=
  packHalves (fpFma ty p (half false a) (half false b) (half false c)) (fpFma ty p (half true a) (half true b) (half true c))
/-- FDP2: two products and an f32 addend, one rounding to f32 (R114). -/
def fpFdp2 (ty : DType) (p : FpMod) (a b c : W64) : W64 × FpFlags :=
  let f := tyFmt ty
  let x0 := p.a f (half false a)
  let x1 := p.a f (half true a)
  let y0 := p.b f (half false b)
  let y1 := p.b f (half true b)
  let z := p.c fmtF32 c
  let m0 := mulVals x0 y0
  let m1 := mulVals x1 y1
  finish fmtF32 p (snanFlag [x0, x1, y0, y1, z] ||| m0.2 ||| m1.2) (sumVals p.rm [m0.1, m1.1, z])

/-! ### L6 and e8m0 (R105, R106, R117) -/

/-- The signed quarter count L of an L6 code (R106). -/
def l6Quarters (c : Nat) : Int := if c % 32 ≥ 16 then ((c % 32 : Nat) : Int) - 32 else ((c % 32 : Nat) : Int)

/-- 2^(l/4), exact when 4 divides l (R106). -/
def quarterPower (s : Bool) (l : Int) : FpVal :=
  if l % 4 = 0 then .fin s 1 (l / 4)
  else between false s (isqrt (isqrt (2 ^ (l + 320).toNat))) (-80)

/-- The value of an L6 code (R106). -/
def l6Val (c : Nat) : FpVal :=
  let s := decide ((c / 32) % 2 = 1)
  if l6Quarters c = -16 then .fin s 0 0 else quarterPower s (l6Quarters c)

/-- L = round-half-even (4 log2 |x|) for a nonzero dyadic x: t = floor (8 log2 |x|), and no dyadic x stands on a threshold (R117). -/
def l6Round (m : Nat) (e : Int) : Int := ((Nat.log2 (m ^ 8) : Int) + 8 * e + 1) / 2

/-- The L6 code of a sign and a quarter count, which is no less than -15. -/
def l6Code (s : Bool) (l : Int) : Nat := 32 * b2n s + (l % 32).toNat

/-- Conversion to L6 of a value divided by the scale 2^k. Inexact is raised unless the magnitude is one of the powers 2^(L/4), so for a zero and a
NaN too (R117; log entry 69). -/
def toL6 (v : FpVal) (k : Int) : Nat × FpFlags :=
  match v with
  | .nan _ => (0x10, fInvalid ||| fInexact)
  | .inf s => (l6Code s 15, fInexact)
  | .fin s m e =>
    if m = 0 then (0x10, fInexact)
    else
      let l := l6Round m (e - k)
      if l < -15 then (0x10, fInexact)
      else if l > 15 then (l6Code s 15, fInexact)
      else (l6Code s l, if m = 2 ^ Nat.log2 m ∧ 4 * ((Nat.log2 m : Int) + (e - k)) = l then 0 else fInexact)

/-- The value of an e8m0 code (R105). -/
def e8m0Val (c : Nat) : FpVal := if c % 256 = 255 then .nan false else .fin false 1 ((c % 256 : Nat) - 127 : Int)

/-- f32 to e8m0: floor (log2 |x|) + 127, clamped (R116). -/
def toE8m0 (v : FpVal) : Nat :=
  match v with
  | .nan _ => 255
  | .inf _ => 255
  | .fin _ m e =>
    if m = 0 then 0
    else
      let x : Int := (Nat.log2 m : Int) + e + 127
      if x < 0 then 0 else if x > 254 then 254 else x.toNat

/-! ### CVT and CVTS (R116, R118) -/

/-- A source of CVT as a value: an integer exactly, a float or an L6 code after FTZ, abs and neg (R116). -/
def cvtSource (src : DType) (p : FpMod) (x : W64) : FpVal :=
  if tyIsInt src then .fin (decide (intVal src x < 0)) (intVal src x).natAbs 0
  else match src with
    | .l6 =>
      let v := l6Val (x.setWidth 6).toNat
      let v := if p.absA then v.abs else v
      if p.negA then v.neg else v
    | .e8m0 => e8m0Val (x.setWidth 8).toNat
    | t => (tyFmt t).source (p.ftz && tyIsFp t) p.absA p.negA x

/-- A value to an integer type: rounded, then clamped (R116). -/
def toInteger (ty : DType) (rm : Rm) (v : FpVal) : Int × FpFlags :=
  match v with
  | .nan _ => (0, fInvalid)
  | .inf s => (if s then tyMin ty else tyMax ty, fInvalid)
  | .fin s m e =>
    let r := roundAt rm s m e 0
    let z : Int := if s then -(r.1 : Int) else (r.1 : Int)
    if clampTo ty z = z then (z, if r.2 then fInexact else 0) else (clampTo ty z, fInvalid)

/-- Placement of an integer result: i8 and i16 sign-extended to 32 bits, the others zero-extended (R116). -/
def placeInt (ty : DType) (z : Int) : W64 :=
  if tySigned ty && decide (tyWidth ty < 32) then lowBits 32 (BitVec.ofInt 64 z) else wrapTo (tyWidth ty) z

/-- The sign and magnitude bits of an L6 source after abs and neg, as a code. -/
def l6SourceCode (p : FpMod) (x : W64) : Nat :=
  let c := (x.setWidth 6).toNat
  let s := decide (c / 32 = 1)
  let s := if p.absA then false else s
  let s := if p.negA then !s else s
  c % 32 + 32 * b2n s

/-- CVT from the type `src` to the type `ty` (R116). -/
def fpCvt (ty src : DType) (p : FpMod) (sat : Bool) (x : W64) : W64 × FpFlags :=
  if tyIsInt ty then
    if tyIsInt src then
      (placeInt ty (if sat then clampTo ty (intVal src x) else
        (if tySigned ty then ((BitVec.ofInt (tyWidth ty) (intVal src x)).toInt)
         else ((BitVec.ofInt (tyWidth ty) (intVal src x)).toNat : Int))), 0)
    else
      let v := cvtSource src p x
      let r := toInteger ty p.rm v
      (placeInt ty r.1, snanFlag [v] ||| r.2)
  else
    let v := cvtSource src p x
    match ty with
    | .l6 =>
      if src = .l6 then
        -- an L6 value but zero is exactly representable: its own code, zero always +0 (R117)
        let c := l6SourceCode p x
        if c % 32 = 16 then (16, fInexact) else (BitVec.ofNat 64 c, 0)
      else let r := toL6 v 0; (BitVec.ofNat 64 r.1, snanFlag [v] ||| r.2)
    | .e8m0 => (BitVec.ofNat 64 (toE8m0 v), 0)
    | .e4m3 | .e5m2 | .e2m1 =>
      let r := match v with
        -- a float to the same float delivers the value: an e5m2 infinity stays one (R116)
        | .inf neg => if src = ty then (0x7C + 128 * b2n neg, 0) else (tyFmt ty).deliverSat p.rm v
        | _ => (tyFmt ty).deliverSat p.rm v
      (BitVec.ofNat 64 r.1, snanFlag [v] ||| r.2)
    | _ => finish (tyFmt ty) p (snanFlag [v]) (v, 0)

/-- The element format of a format code of CVTS; none for L6 (R118). -/
def cvtsFmt : Nat → Option Fmt
  | 1 => some fmtE2m1
  | 2 => some fmtE2m3
  | 3 => some fmtE3m2
  | 4 => some fmtE4m3
  | 5 => some fmtE5m2
  | _ => none

/-- The width of a slot and the number of slots of a format code (R106, R118). -/
def cvtsSlots : Nat → Nat × Nat
  | 1 => (4, 8)
  | 4 | 5 => (8, 4)
  | _ => (6, 5)

/-- A code put into slot j of a word, the other bits kept (R118). -/
def putSlot (wd j c : Nat) (x : W64) : W64 :=
  let n := (x.setWidth 32).toNat
  let old := (n / 2 ^ (wd * j)) % 2 ^ wd
  BitVec.ofNat 64 (n - old * 2 ^ (wd * j) + c * 2 ^ (wd * j))

/-- A slot number of CVTS that its words have (R118). -/
def cvtsInRange (fm : Nat) (c : W64) : Bool := decide ((c.setWidth 32).toNat < (cvtsSlots fm).2)

/-- CVTS pack: the new value of D for a slot in range (R118). -/
def cvtsPack (fm : Nat) (p : FpMod) (d a b c : W64) : W64 × FpFlags :=
  let sl := cvtsSlots fm
  let j := (c.setWidth 32).toNat
  let sc := bits b 7 0
  if sc = 255 then (putSlot sl.1 j (if fm = 0 then 0x10 else 0) d, fInvalid)
  else
    let v := p.a fmtF32 a
    let k : Int := (sc : Int) - 127
    let r := match cvtsFmt fm with
      | none => toL6 v k
      | some f => f.deliverSat p.rm (match v with | .fin s m e => .fin s m (e - k) | v => v)
    (putSlot sl.1 j r.1 d, snanFlag [v] ||| r.2)

/-- A value multiplied by 2^k. -/
def scaleVal (k : Int) : FpVal → FpVal
  | .fin s m e => .fin s m (e + k)
  | v => v

/-- CVTS unpack: slot j of A times the scale, as f32 (R118). -/
def cvtsUnpack (fm : Nat) (p : FpMod) (a b c : W64) : W64 × FpFlags :=
  let sl := cvtsSlots fm
  let j := (c.setWidth 32).toNat
  let sc := bits b 7 0
  if j ≥ sl.2 then (0, 0)
  else
    let code := ((a.setWidth 32).toNat / 2 ^ (sl.1 * j)) % 2 ^ sl.1
    let v := match cvtsFmt fm with
      | none => l6Val code
      | some f => f.decode code
    finish fmtF32 p (snanFlag [v]) (if sc = 255 then .nan false else scaleVal ((sc : Int) - 127) v, 0)

/-- A value as an operation of GRED or GSCAN delivers it: the NaN of the f32 operations is the canonical one (R107). -/
def redDeliver (fn : Nat) (x : W64) : W64 :=
  if fn ≥ 6 ∧ (fmtF32.decode (x.setWidth 32).toNat).isNan = true then 0x7FC00000#64 else x

/-- One operation of GRED and GSCAN on two values, by FN: integer 0 to 5, f32 6 to 8 (R122). -/
def redOp (fn : Nat) (ty : DType) (rm : Rm) (a b : W64) : W64 × FpFlags :=
  let p : FpMod := { rm := rm, ftz := false, absA := false, negA := false, absB := false, negB := false, absC := false, negC := false }
  match fn with
  | 0 => (aluAdd ty false a b, 0)
  | 1 => (aluMin ty a b, 0)
  | 2 => (aluMax ty a b, 0)
  | 3 => (aluAnd ty a b, 0)
  | 4 => (aluOr ty a b, 0)
  | 5 => (aluXor ty a b, 0)
  | 6 => fpAdd .f32 p false a b
  | 7 => fpMinMax .f32 p false a b
  | _ => fpMinMax .f32 p true a b

end Sys2Proof.Machine
end

