-- ==== Sys2Proof/Machine/Ops.lean ====
section
/-! DEFINITION. Operations that every family shares: queues and events (R21, R22), fault records and the fault queue (R286, R294), interrupts
(R341), the trace sink (R328, R329), monitor insertion (R260, R265), the end of a context (R291), and taking a fault (R289, R290, R306) with
the return from a privileged handler beside it. -/

namespace Sys2Proof.Machine

/-! ### Interrupts and the wake of halted firmware threads -/

/-- An interrupt fires: function 0 is the PF, n the VF of partition n - 1 (R341). -/
def State.fire (s : State) (fn vector : Nat) : State := { s with msix := { fn := fn, vector := vector } :: s.msix }

/-- A thread parked in HALT goes on (R305). -/
def Agent.unhalt (x : Agent) : Agent := if x.block = some .halt then { x with block := none, answer := some 0 } else x

/-- A DMC event: every privileged thread parked in HALT goes on (R305). -/
def State.dmcEvent (s : State) : State :=
  let wake := fun t : Team => if t.priv then { t with agents := t.agents.map fun g => (g.1, g.2.unhalt) } else t
  { s with teams := s.teams.map fun e => (e.1, wake e.2) }

/-! ### The fault queue and the error log (R294, R351) -/

/-- The ring size of the fault queue, none when it is disabled (R294). -/
def Part.fqSize (p : Part) : Option Nat := if bits p.fqCtl 4 0 = 0 then none else some (2 ^ bits p.fqCtl 4 0)

/-- A place in HBM by its physical address: what a device write to a ring uses. -/
def physPlace (addr : Nat) : Place := { loc := locOf 0 addr, owned := .slice, pte := 0, va := 0, slice := homeSlice (locOf 0 addr / 128) }

/-- A record written into the ring, which has room: FQWR advances after it; vector 0 fires when FQWR first differs from FQRD (R294, R341); a
fault record is a DMC event (R305). -/
def State.fqWrite (s : State) (part : Nat) (h : HeldRecord) (size : Nat) : State :=
  let p := s.partition part
  let s1 := (s.writeAt (physPlace (p.fqBase.toNat + 32 * (p.fqWr.toNat % size))) h.bytes none).1
  let s2 := s1.modPart part fun q =>
    { q with fqWr := q.fqWr + 1,
             replays := match h.replay with
               | none => q.replays
               | some r => { r with idx := p.fqWr.toNat } :: q.replays }
  let s3 := if p.fqWr = p.fqRd then s2.fire (part + 1) 0 else s2
  s3.dmcEvent

/-- A record sent to the fault queue: discarded when the queue is disabled, held while it is full (R294). -/
def State.fqSend (s : State) (part : Nat) (h : HeldRecord) : State :=
  let p := s.partition part
  match p.fqSize with
  | none => s
  | some size =>
    if (p.fqWr - p.fqRd).toNat < size ∧ p.heldRecords = [] then s.fqWrite part h size
    else s.modPart part fun q => { q with heldRecords := q.heldRecords ++ [h] }

/-- Held records enter while there is room (R294). -/
def State.fqFlush (s : State) (part : Nat) : Nat → State
  | 0 => s
  | n + 1 =>
    let p := s.partition part
    match p.heldRecords, p.fqSize with
    | h :: hs, some size =>
      if (p.fqWr - p.fqRd).toNat < size then
        ((s.modPart part fun q => { q with heldRecords := hs }).fqWrite part h size).fqFlush part n
      else s
    | _, _ => s

/-- The fields of a fault record (R286). -/
structure Rec where
  code : Byte
  eng : Nat
  group : Nat
  ctl : Bool
  slot : Nat
  asid : Nat
  part : Nat
  restart : Nat
  write : Bool
  replay : Bool
  site : Site
  addr : W64
  lanes : LaneMask
deriving DecidableEq, Repr, Inhabited

/-- The 32 bytes of a fault record (R286). That of a die's firmware, which has no partition, takes the low four bits of the model's own number 12 + d for
it (DESIGN CHOICE, log entry 91). -/
def Rec.encode (r : Rec) : List Byte :=
  toBytes 32 (r.code.toNat + r.eng * 2 ^ 8 + r.group * 2 ^ 16 + b2n r.ctl * 2 ^ 23 + r.slot * 2 ^ 24 + r.asid * 2 ^ 36 + r.part % 16 * 2 ^ 52
    + r.restart * 2 ^ 56 + b2n r.write * 2 ^ 59 + b2n r.replay * 2 ^ 60 + r.site.pc.toNat * 2 ^ 64 + r.site.cseq.toNat * 2 ^ 96
    + r.addr.toNat * 2 ^ 128 + r.lanes.toNat * 2 ^ 192)

/-- A record written to the PF error log; dropped when the log is full or disabled (R351). -/
def State.logError (s : State) (r : Rec) : State :=
  let k := bits s.elCtl 4 0
  if k = 0 ∨ (s.elWr - s.elRd).toNat ≥ 2 ^ k then s
  else
    let s1 := (s.writeAt (physPlace (s.elBase.toNat + 32 * (s.elWr.toNat % 2 ^ k))) r.encode none).1
    let s2 := { s1 with elWr := s1.elWr + 1 }
    if s.elWr = s.elRd then s2.fire 0 0 else s2

/-! ### Nguxis records (R328, R329) -/

/-- The 32 bytes of a record at a device time (R328). -/
def Nguxis.encode (r : Nguxis) (dtime : Nat) : List Byte :=
  toBytes 32 (r.kind.toNat + r.eng * 2 ^ 12 + b2n r.ctl * 2 ^ 16 + r.group * 2 ^ 17 + r.slot * 2 ^ 24 + r.site.pc.toNat * 2 ^ 36
    + (dtime % 2 ^ 64) * 2 ^ 64 + r.site.cseq.toNat * 2 ^ 128 + r.p0.toNat * 2 ^ 160 + r.p1.toNat * 2 ^ 192)

/-- A record without a site (R328). The spec names no engine for it: ENG is a free one of R9's (DESIGN CHOICE, log entry 82). -/
def plainRec (kind : Byte) (p0 : W32) (p1 : W64) : Nguxis :=
  { kind := kind, eng := Config.plainEng kind.toNat % 10, ctl := false, group := 0, slot := 0, site := ⟨0, 0⟩, p0 := p0, p1 := p1 }

/-- The debug block of context i of a partition (R327). -/
def State.debugOf (s : State) (part i : Nat) : Debug := (Tbl.find? (s.partition part).debug i).getD Debug.reset
/-- A debug block changed. -/
def State.modDebug (s : State) (part i : Nat) (f : Debug → Debug) : State :=
  s.modPart part fun p => { p with debug := Tbl.ins p.debug i (f ((Tbl.find? p.debug i).getD Debug.reset)) }

/-- A trace session is open (R327). -/
def Debug.isOpen (d : Debug) : Bool := bit d.tctl 0
/-- The size of the sink ring (R327). -/
def Debug.sinkSize (d : Debug) : Nat := 2 ^ bits d.tctl 12 8

/-- The place of a record in a sink: none where its page is not present or a peer access is not configured (R329, R345). Every cluster of the context walks
the same tables; die 0's TLB serves the trace unit. -/
def State.sinkPlace (s : State) (part asid va : Nat) : Option Place :=
  match s.walk (dieUnit 0) part asid va with
  | .leaf pte big =>
    let p := s.leafPlace part pte big va
    if s.reaches part p then some p else none
  | _ => none

/-- A record put into the sink, which has room: SINKWR rises past it; vector 2 fires when the sink passes half full (R329, R341). -/
def State.sinkPut (s : State) (part asid i : Nat) (r : Nguxis) : State :=
  let d := s.debugOf part i
  let va := (d.sinkBase.toNat + 32 * (d.sinkWr.toNat % d.sinkSize)) % 2 ^ 52
  match s.sinkPlace part asid va with
  | some p =>
    let s1 := (s.writeAt p (r.encode s.dtime) none).1
    let s2 := s1.modDebug part i fun d => { d with sinkWr := d.sinkWr + 1, sinceChange := d.sinceChange + 1 }
    if 2 * ((d.sinkWr + 1) - d.sinkRd).toNat > d.sinkSize ∧ ¬ 2 * (d.sinkWr - d.sinkRd).toNat > d.sinkSize then s2.fire (part + 1) 2 else s2
  | none => s.modDebug part i fun d => { d with lost := d.lost + 1, dropped := d.dropped + 1 }

/-- A record entered in the sink, or dropped and counted when it is full; the first record after a drop is one of kind 0x0A with the count
(R329). -/
def State.sink (s : State) (part asid i : Nat) (r : Nguxis) : State :=
  let d := s.debugOf part i
  if (d.sinkWr - d.sinkRd).toNat ≥ d.sinkSize then
    s.modDebug part i fun d => { d with lost := d.lost + 1, dropped := d.dropped + 1 }
  else if d.dropped ≠ 0 then
    let s1 := (s.sinkPut part asid i (plainRec 0x0A (BitVec.ofNat 32 d.dropped) 0)).modDebug part i fun d => { d with dropped := 0 }
    let d1 := s1.debugOf part i
    if (d1.sinkWr - d1.sinkRd).toNat ≥ d1.sinkSize then
      s1.modDebug part i fun d => { d with lost := d.lost + 1, dropped := d.dropped + 1 }
    else s1.sinkPut part asid i r
  else s.sinkPut part asid i r

/-- The sampling period adapts to the sink's fill at a record write, and each change writes a record of kind 0x02 (R330). -/
def State.adaptPeriod (s : State) (part asid i : Nat) : State :=
  let d := s.debugOf part i
  let f := (d.sinkWr - d.sinkRd).toNat
  if d.sinceChange < 64 then s
  else
    let per := bits d.sper 19 0
    let cur := d.scur.toNat
    let new := if 4 * f > 3 * d.sinkSize then min (2 * cur) (min (2 ^ 20 * per) (2 ^ 28 - 1))
               else if 4 * f < d.sinkSize then max (cur / 2) per else cur
    if new = cur then s
    else
      let s1 := s.modDebug part i fun d => { d with scur := BitVec.ofNat 64 new, sinceChange := 0 }
      (s1.sink part asid i (plainRec 0x02 (BitVec.ofNat 32 new) 0)).modDebug part i fun d => { d with sinceChange := 0 }

/-- A record of a context, entered only while its session is open (R329, R330). -/
def State.trace (s : State) (part asid : Nat) (r : Nguxis) : State :=
  match s.ctx part asid with
  | none => s
  | some c => if (s.debugOf part c.idx).isOpen then (s.sink part asid c.idx r).adaptPeriod part asid c.idx else s

/-! ### Sites -/

/-- The site of an agent: its program counter and CSEQ (R19). -/
def Agent.site (x : Agent) : Site := { pc := x.p, cseq := x.cseq }

/-- Entry number `who` as the record's GROUP and CTL fields (R286). -/
def whoGroup (who : Nat) : Nat := if who = ctlWho then 0 else who

/-! ### Monitor insertion (R260, R265) -/

/-- Two requests agree in every field except LANES (R259). -/
def Mon.same (a b : Mon) : Bool :=
  a.operand == b.operand && a.deadline == b.deadline && a.loc == b.loc && a.group == b.group && a.slot == b.slot && a.asid == b.asid
    && a.part == b.part && a.fn == b.fn && a.w64 == b.w64 && a.hostq == b.hostq && a.disp == b.disp && a.ctl == b.ctl

/-- The first free spill entry of a line's eight buckets (R265). -/
def freeSpill (used : List Nat) (b : Nat) (h : Nat) : Nat → Nat → Option Nat
  | 0, _ => none
  | n + 1, k =>
    let e := ((h + k / 4) % 2 ^ b) * 4 + k % 4
    if used.contains e then freeSpill used b h n (k + 1) else some e

/-- An entry inserted: merged, placed in the slice's table of 512 entries, or spilled; none when it is refused (R260, R265). -/
def State.insertMon (s : State) (m : Mon) : Option State :=
  if s.mons.any fun e => e.same m then
    let s1 : State := { s with mons := s.mons.map fun e => if e.same m then { e with lanes := e.lanes ||| m.lanes } else e }
    some (s1.mons.foldl (fun t e => match e.spill with
      | some i => if e.same m then t.poke (locOf 0 ((t.partition e.part).spBase.toNat + 32 * i)) e.encode else t
      | none => t) s1)
  else if (s.mons.filter fun e => e.slice == m.slice && e.spill.isNone).length < 512 then
    some { s with mons := s.mons ++ [m] }
  else
    let b := bits (s.partition m.part).spillB 63 0
    if b = 0 then none
    else
      let used := (s.mons.filter fun e => e.part == m.part).filterMap fun e => e.spill
      match freeSpill used b (Config.bucketHash (m.loc / 128) % 2 ^ b) 32 0 with
      | none => none
      | some i =>
        let m1 := { m with spill := some i }
        let l := m.loc / 128
        let s1 := s.poke (locOf 0 ((s.partition m.part).spBase.toNat + 32 * i)) m1.encode
        some { s1.setLine l { s1.line l with spilledWatch := true } with
               mons := s.mons ++ [m1], filter := Tbl.ins s1.filter (m.slice * 8192 + Config.filterHash l % 8192) true }

/-- Bytes written by the device to a virtual address of a context: none when the translation, the permission or a peer access fails (R289, R345). -/
def State.deviceWrite (s : State) (unit part asid va : Nat) (bs : List Byte) : Option State :=
  match s.walk unit part asid (va % 2 ^ 52) with
  | .leaf pte big =>
    let p := s.leafPlace part pte big (va % 2 ^ 52)
    if bit pte 1 && s.reaches part p then some (s.writeAt p bs none).1 else none
  | _ => none

/-! ### Replay logs (R334) -/

/-- The team's values enter its log (R334). -/
def logging (ctl : W64) (t : Team) : Bool := bit ctl 2 && !t.logEnd
/-- Records in a log (R327). -/
def logSize (ctl : W64) : Nat := 2 ^ bits ctl 20 16

/-- The address of a team's log (R334). -/
def logVa (c : Ctx) (t : Team) : Nat := c.localVa + t.slot * 2 ^ 29 + 2 ^ 28 + 2 ^ 17

/-- n bytes at a virtual address of a team's context, read by the device; zeros where it does not translate or a peer
access is not configured (R345). -/
def State.deviceRead (s : State) (t : Team) (va n : Nat) : List Byte :=
  match s.walk (t.cluster.getD 0) t.part t.asid (va % 2 ^ 52) with
  | .leaf pte big =>
    let p := s.leafPlace t.part pte big (va % 2 ^ 52)
    if s.reaches t.part p then s.read p.loc n else List.replicate n 0
  | _ => List.replicate n 0

/-- The read index that software keeps at log offset -8 (R334). -/
def State.logReadIndex (s : State) (t : Team) : Nat :=
  match s.ctx t.part t.asid with
  | some c => ofBytes (s.deviceRead t (logVa c t - 8) 8)
  | none => 0

/-- A team's last stop; where nothing of it has stopped, its first agent stands where the context's end stops it (R291, R336). -/
def Team.stopMark (t : Team) : StopMark :=
  match t.lastStop, t.agents with
  | some m, _ => m
  | none, (w, x) :: _ => { who := w, site := { pc := x.p, cseq := x.cseq } }
  | none, [] => { who := 0, site := ⟨0, 0⟩ }

/-- A record of an agent of a team at a site (R328). -/
def siteRec (t : Team) (who : Nat) (site : Site) (kind : Byte) (p0 : W32) (p1 : W64) : Nguxis :=
  { kind := kind, eng := if who = ctlWho then 1 else 0, ctl := decide (who = ctlWho), group := whoGroup who, slot := t.slot, site := site, p0 := p0,
    p1 := p1 }

/-- A replay log that is still written ends with a record of kind 0x13 when its context ends (R336). -/
def State.endLog (s : State) (c : Ctx) (ctl : W64) (team : Nat) (t : Team) : State :=
  if !logging ctl t then s
  else
    let size := logSize ctl
    let k := if t.logWr ≥ s.logReadIndex t + size then t.logWr - 1 else t.logWr
    let r := siteRec t t.stopMark.who t.stopMark.site 0x13 0 0
    let s1 := (s.deviceWrite (t.cluster.getD 0) t.part t.asid (logVa c t + 32 * (k % size)) (r.encode s.dtime)).getD s
    s1.modTeam team fun t => { t with logEnd := true }

/-! ### The end of a context (R291, R302, R336) -/

/-- Memory without the bytes of a range of locations. -/
def State.clear (s : State) (loc n : Nat) : State := { s with mem := s.mem.filter fun e => decide (e.1 < loc) || decide (loc + n ≤ e.1) }

/-- Whether a team belongs to a context. -/
def Team.inCtx (t : Team) (part asid : Nat) : Bool := t.part == part && t.asid == asid && !t.isEnded

/-- The session of a context that ends is closed: records of kinds 0x07 and 0x09, then OPEN = 0; its teams' replay logs end (R336). -/
def State.endSession (s : State) (part asid : Nat) : State :=
  match s.ctx part asid with
  | none => s
  | some c =>
    if (s.debugOf part c.idx).isOpen then
      let lostNow := (s.debugOf part c.idx).dropped
      let s1 := s.sink part asid c.idx (plainRec 0x07 (BitVec.ofNat 32 lostNow) 0)
      let s2 := s1.sink part asid c.idx (plainRec 0x09 0 0)
      let s3 := s2.modDebug part c.idx fun d => { d with tctl := d.tctl &&& ~~~1#64 }
      let ctl := (s.debugOf part c.idx).tctl
      s3.teams.foldl (fun u e => if e.2.inCtx part asid then u.endLog c ctl e.1 e.2 else u) s3
    else s

/-- An agent stands at a shed point, or has stopped or ended (R319). -/
def Agent.atShedPoint (x : Agent) : Bool :=
  (match x.issue with | .idle | .barrier | .queue | .replay | .stopped | .ended => true | _ => false) ||
    decide (x.block = some .absent) || decide (x.block = some .member)

/-- An agent that has reached a shed point while its team is to be saved there is held (R319). -/
def State.markHeld (s : State) (a : AgentId) : State :=
  s.modTeam a.team fun t =>
    if t.saveAsked then { t with agents := Tbl.modify t.agents a.who fun x => if x.atShedPoint then { x with held := true } else x } else t

/-- A team stopped by its context's end: not saved, its buffers zero (R291, R302). -/
def Team.stopped (t : Team) : Team :=
  { t with res := .ended none, agents := [], q := [], drain := [], qwait := [], heldEvents := [], bars := [], copies := [], qbind := [],
           rings := [], ranges := [], tiles := [], alloc := none, allocated := none, absent := [], wake := [], tok := [] }

/-- Everything of some contexts is gone from the machine: their teams stop, their buffers are zero, and their commands, monitor entries, wakes and cached
lines and translations are dropped; no status, token or event comes of it (R204, R267, R291, R302). -/
def State.dropContexts (s0 : State) (mine : Nat → Nat → Bool) : State :=
  let out := fun (t : Team) => mine t.part t.asid && !t.isEnded
  let s1 := (s0.teams.filter fun e => out e.2).foldl (fun t e => t.clear (spLoc e.1 0) (2 ^ 22) |>.clear (obLoc e.1 0) (2 ^ 20)) s0
  let dead := (s1.cmds.filter fun e => mine e.2.part e.2.asid).map (·.1)
  let s2 : State :=
    { s1 with
      teams := s1.teams.map fun e => if out e.2 then (e.1, e.2.stopped) else e
      cmds := s1.cmds.filter fun e => !mine e.2.part e.2.asid
      rlt := s1.rlt.filter fun r => !dead.contains r.cmd
      wakes := s1.wakes.filter fun e => !mine e.2.mon.part e.2.mon.asid
      batches := s1.batches.filter fun e => !(e.2.reqs.any fun m => mine m.mon.part m.mon.asid)
      grids := s1.grids.map fun e => if mine e.2.part e.2.asid then (e.1, { e.2 with finished := true }) else e
      children := s1.children.filter fun e => !mine e.2.part e.2.asid
      l1 := s1.l1.filter fun c => !mine c.part c.asid
      icache := s1.icache.filter fun c => !mine c.part c.asid
      tlb := s1.tlb.filter fun c => !mine c.part c.asid }
  s2.dropMons fun m => mine m.part m.asid

/-- A host queue whose context has ended or whose partition has been reset: nothing of it runs, and it begins nothing (R267, R291). -/
def HostQ.halted (h : HostQ) : HostQ := { h with ctl := h.ctl &&& ~~~(1#64 <<< 31), running := [], waitmon := none, fences := [] }

/-- The context of a partition and ASID ends, with the record that goes to the fault queue (R291). -/
def State.endContext (s : State) (part asid : Nat) (rec : List Byte) : State :=
  let s1 := (s.endSession part asid).dropContexts fun p a => p == part && a == asid
  if part < 12 then
    (s1.modPart part fun p =>
      { p with queues := p.queues.map fun e => if bits e.2.ctl 15 0 = asid then (e.1, e.2.halted) else e,
               replays := p.replays.filter fun r => r.asid != asid,
               heldRecords := p.heldRecords.filter fun h => match h.replay with | some r => r.asid != asid | none => true }).fqSend part
      { bytes := rec, replay := none }
  else s1

/-! ### Events (R21, R22) -/

/-- An event word (R21). -/
def eventWord (kind eng : Nat) (cseq : W32) (detail : Nat) : W64 :=
  BitVec.ofNat 64 (kind * 2 ^ 56 + eng * 2 ^ 48 + cseq.toNat * 2 ^ 16 + detail)

/-- The queue of a team (R12). -/
def Team.queue (t : Team) (q : Nat) : List (W64 × W32) := Tbl.get [] t.q q
/-- A queue replaced. -/
def Team.setQueue (t : Team) (q : Nat) (l : List (W64 × W32)) : Team := { t with q := Tbl.put [] t.q q l }

/-- An event can enter q15: the pop of kind 0x02 acquires what the stopped group's quads have performed, so that one waits for them (R212, R289). -/
def Team.eventReady (t : Team) (e : HeldEvent) : Bool :=
  decide (bits e.word 63 56 ≠ 2) || (match Tbl.find? t.agents (bits e.word 6 0) with
    | some x => x.ops.isEmpty && x.acks.isEmpty
    | none => true)

/-- Held events enter q15 while it has room and the team is resident (R22). -/
def Team.flushEvents (t : Team) : Nat → Team
  | 0 => t
  | n + 1 => match t.heldEvents.find? t.eventReady with
    | none => t
    | some e =>
      if t.resident ∧ (t.queue 15).length < 64 then
        ({ t with heldEvents := t.heldEvents.erase e }.setQueue 15 (t.queue 15 ++ [(e.word, t.cseq)])).flushEvents n
      else t

/-- Every held event that can enter q15 does (R22). -/
def Team.flush (t : Team) : Team := t.flushEvents t.heldEvents.length

/-- An event held for q15 (R22). -/
def Team.holdEvent (t : Team) (w : W64) (rec : List Byte) : Team := { t with heldEvents := t.heldEvents ++ [{ word := w, bytes := rec }] }

/-- An event of a team with a control thread: queued, or held while q15 is full or the team is out (R22). -/
def Team.pushEvent (t : Team) (w : W64) (rec : List Byte) : Team := (t.holdEvent w rec).flush

/-- An event of kind 0x01, 0x04 or 0x05: discarded without a control thread (R22). -/
def State.postEvent (s : State) (team kind eng : Nat) (cseq : W32) (detail : Nat) : State :=
  s.modTeam team fun t => if t.ctlGone then t else t.pushEvent (eventWord kind eng cseq detail) []

/-- An event of kind 0x02 or 0x03: without a control thread the fault is unhandled and ends the context (R22). That of a stop is posted once the writes
to the TCB are acknowledged, by EVENT_POST (R289). -/
def State.postFault (s : State) (team kind eng : Nat) (cseq : W32) (detail : Nat) (rec : Rec) : State :=
  match s.team team with
  | none => s
  | some t =>
    if t.ctlGone then s.endContext t.part t.asid rec.encode
    else s.modTeam team fun t =>
      if kind = 0x02 then t.holdEvent (eventWord kind eng cseq detail) rec.encode else t.pushEvent (eventWord kind eng cseq detail) rec.encode

/-- A group's stop is still to be posted (R22). -/
def Team.stopHeld (t : Team) (who : Nat) : Bool := t.heldEvents.any fun e => decide (bits e.word 63 56 = 2) && decide (bits e.word 6 0 = who)

/-! ### Taking a fault -/

/-- The address of a team's control block (R288). -/
def tcbVa (c : Ctx) (slot : Nat) : Nat := c.localVa + slot * 2 ^ 29 + 2 ^ 28 + 2 ^ 16

/-- The disposition entry of a stopped agent on DISP (R289). -/
def dispMon (s : State) (part asid slot who va : Nat) (pte : W64) (big : Bool) : Mon :=
  let p := s.leafPlace part pte big (va % 2 ^ 52)
  { operand := 0, deadline := 2 ^ 64 - 1, lanes := 0, loc := p.loc, group := whoGroup who, slot := slot, asid := asid, part := part, fn := 1,
    w64 := false, hostq := false, spill := none, disp := true, ctl := decide (who = ctlWho), slice := p.slice }

/-- An agent's record written to its place in the TCB, where that can be written; and whether it was (R288 to R290). -/
def State.writeRecord (s : State) (die part asid slot who : Nat) (rec : List Byte) : State × Bool :=
  match s.ctx part asid with
  | none => (s, false)
  | some c => match s.deviceWrite die part asid (tcbVa c slot + (if who = ctlWho then 0x1000 else 32 * who)) rec with
    | some s1 => (s1, true)
    | none => (s, false)

/-- DISP = 0 and the record written to the TCB and the disposition entry registered; and whether a disposition can reach the agent (R289). -/
def State.openDisp (s : State) (die part asid slot who : Nat) (rec : List Byte) : State × Bool :=
  let r := s.writeRecord die part asid slot who rec
  match s.ctx part asid with
  | none => (s, false)
  | some c =>
    let dispVa := tcbVa c slot + (if who = ctlWho then 0x1280 else 0x1080 + 4 * who)
    match r.1.deviceWrite die part asid dispVa (toBytes 4 0), r.1.walk die part asid (dispVa % 2 ^ 52) with
    | some s1, .leaf pte big =>
      if r.2 then match s1.insertMon (dispMon s1 part asid slot who dispVa pte big) with
        | some s2 => (s2, true)
        | none => (s1, false)
      else (s1, false)
    | _, _ => (r.1, false)

/-- What a fault is raised with: its code, how a resume goes on, the failing lanes, the address and whether the access writes (R285, R286). -/
structure Raise where
  code : Byte
  how : Resume
  lanes : LaneMask
  addr : W64
  write : Bool
  /-- For a watchpoint, its index and kind as the trace record holds them (R328). -/
  watch : Nat := 0
  /-- It fails the whole instruction, whose form issues by quads (R71, R285). -/
  whole : Bool := false
deriving DecidableEq, Repr, Inhabited

/-- The record of an agent's fault (R286). -/
def recOf (t : Team) (who : Nat) (x : Agent) (r : Raise) : Rec :=
  { code := r.code, eng := if who = ctlWho then 1 else 0, group := whoGroup who, ctl := decide (who = ctlWho), slot := t.slot, asid := t.asid,
    part := t.part, restart := x.restart, write := r.write, replay := false, site := x.site, addr := r.addr,
    lanes := if who = ctlWho then 1 else r.lanes }

/-- The fault of a privileged thread: PCAUSE, PADDR, PEPC, W = PHND and INH = 1; with INH = 1 already, the thread halts for good and an error
record goes to the DMC (R306). -/
def Agent.privFault (x : Agent) (r : Raise) : Agent :=
  if x.inh then { x with issue := .ended }
  else
    let resume := if r.code = 0x14 ∨ r.code = 0x15 then x.p + 1 else x.p
    { (x.modLane 0 fun l => { l with w := x.phnd }) with
      pcause := r.code, paddr := r.addr, pepc := resume, inh := true, p := x.phnd, restart := 0, issue := .arrive true, block := none }

/-- An agent takes a fault at quad x.restart. One that has consumed an uncorrectable error ends its context (R285, R351). A privileged thread enters its handler (R306). A group stops with its record and DISP in the TCB,
its disposition entry and event kind 0x02 (R289); a control thread stops with its record, which with DBG = 1 also enters the fault queue
(R290). Where no disposition can reach the agent, or a control thread's context has DBG = 0, the context ends (R289, R290, R291). -/
def State.takeFault (s : State) (a : AgentId) (r : Raise) : State :=
  match s.team a.team, s.agent a with
  | some t, some x =>
    if r.code = 0x18 then s.endContext t.part t.asid (recOf t a.who x r).encode
    else if x.kind = .privileged then
      let s1 := s.setAgent a { x.privFault r with gooseSeq := s.beatSeq }
      if x.inh then { s1 with dmcErrors := a :: s1.dmcErrors } else s1
    else
      let rec0 := recOf t a.who x r
      let s1 := (s.setAgent a { x with gooseSeq := if x.isGroup then x.gooseSeq else s.beatSeq, issue := .stopped, stop := some { code := r.code, how := r.how, record := rec0.encode }, block := none, active := false }).modTeam a.team
        fun t => { t with lastStop := some { who := a.who, site := x.site } }
      let s0 := if r.code = 0x13 then s1.trace t.part t.asid (siteRec t a.who x.site 0x05 (BitVec.ofNat 32 r.watch) r.addr) else s1
      let s2 := s0.trace t.part t.asid (siteRec t a.who x.site 0x04 (BitVec.ofNat 32 r.code.toNat) r.addr)
      if a.who = ctlWho then
        match s2.ctx t.part t.asid with
        | none => s2.endContext t.part t.asid rec0.encode
        | some c =>
          if !c.dbg then (s2.writeRecord (t.cluster.getD 0) t.part t.asid t.slot a.who rec0.encode).1.endContext t.part t.asid rec0.encode
          else match s2.openDisp (t.cluster.getD 0) t.part t.asid t.slot a.who rec0.encode with
            | (s3, false) => s3.endContext t.part t.asid rec0.encode
            | (s3, true) => s3.fqSend t.part { bytes := rec0.encode, replay := none }
      else
        match s2.openDisp (t.cluster.getD 0) t.part t.asid t.slot a.who rec0.encode with
        | (s3, false) => s3.endContext t.part t.asid rec0.encode
        | (s3, true) => s3.postFault a.team 0x02 0 x.cseq (r.code.toNat * 256 + whoGroup a.who) rec0
  | _, _ => s

/-- The return from a privileged handler: W = PEPC and INH = 0 (R306). -/
def Agent.privReturn (x : Agent) : Agent := { (x.modLane 0 fun l => { l with w := x.pepc }) with inh := false }

/-- A replay record is one of a page, and no watchpoint's. -/
def Replay.ofPage (q : Replay) (asid page : Nat) : Bool := q.asid == asid && q.page == page && !q.watch

/-- A record of a page is pending: in the ring, or held back by it (R293, R294). -/
def Part.pendingPage (p : Part) (asid page : Nat) : Bool :=
  p.replays.any (fun q => q.ofPage asid page) || p.heldRecords.any fun h => match h.replay with | some q => q.ofPage asid page | none => false

/-- The pending record of a page gets another waiter (R293). -/
def Part.joinPage (p : Part) (asid page : Nat) (f : Replay → Replay) : Part :=
  let g := fun (q : Replay) => if q.ofPage asid page then f q else q
  { p with replays := p.replays.map g, heldRecords := p.heldRecords.map fun h => { h with replay := h.replay.map g } }

/-- A replayable fault parks the agent's beat: a record with REPLAY = 1 enters the fault queue, unless one of the same page is pending; with the
queue disabled the fault is refused at once, with code 0x07 (R293, R294). The park restarts the Goose timer and ends a thread's run (R75, R208). -/
def State.parkReplay (s : State) (a : AgentId) (r : Raise) (page : Nat) : State :=
  match s.team a.team, s.agent a with
  | some t, some x =>
    let p := s.partition t.part
    match p.fqSize with
    | none => s.takeFault a { r with code := 0x07 }
    | some _ =>
      let s1 := s.setAgent a { x with goose := 0, gooseSeq := s.beatSeq, issue := .replay, block := some .faultQueue, replay := some { lanes := r.lanes, addr := r.addr, write := r.write } }
      if p.pendingPage t.asid page then s1.modPart t.part fun p => p.joinPage t.asid page fun q => { q with agents := q.agents ++ [a] }
      else
        s1.fqSend t.part { bytes := { recOf t a.who x { r with code := 0x19 } with replay := true }.encode,
                           replay := some { idx := 0, asid := t.asid, page := page, agents := [a], cmds := [], watch := false } }
  | _, _ => s

end Sys2Proof.Machine
end

