-- ==== Sys2Proof/Machine/Operands.lean ====
section
/-! DEFINITION. Operand forms (R34, R44): reading sources, forming destination writes, and the full/empty checks of a beat (R55, R56). -/

namespace Sys2Proof.Machine

/-- The literal of a form is sign-extended where its 64-bit source position has type i64 (R34). R34 names no type for LEA's 64-bit A under TY n32 or
i32; the model zero-extends its literal, as for n64 (DESIGN CHOICE, log entry 70). -/
def signedLit (i : Instr) (f : Fields) : Bool :=
  match i with
  | .cvt f => decide (tyOf f.fn = .i64)
  | .lea _ => false
  | _ => decide (f.ty = .i64)

/-- The literal that 0xE1 supplies to a source of w bits (R34). -/
def literal (signed : Bool) (w : Nat) (imm : W32) : W64 :=
  if w = 64 ∧ signed = true then imm.signExtend 64 else imm.setWidth 64

/-- A source of w bits read for a lane: a 32-bit source takes the low 32 bits of an s or c register (R44). `qv` is the entry that a queue source
has popped. -/
def readOp (x : Agent) (lane w : Nat) (signed : Bool) (imm : W32) (qv : W64) (o : Operand) : W64 :=
  match o with
  | .v r => if w = 64 then x.getPair lane r.toNat else (x.getV lane r.toNat).setWidth 64
  | .u r => if w = 64 then x.getU r.toNat else lowBits 32 (x.getU r.toNat)
  | .q _ => if w = 64 then qv else lowBits 32 qv
  | .zero => 0
  | .imm => literal signed w imm
  | .p r => BitVec.ofNat 64 (b2n (x.getP r.toNat lane))

/-- The width that a slot reads or writes. -/
def slotWidth : Slot → Nat
  | .val _ _ w _ _ _ _ _ => if w = 64 then 64 else 32
  | _ => 32

/-- The writes of a value to a destination operand: one lane's v register or pair, or an s or c register with a 32-bit result zero-extended
(R44). Zero discards; a queue is pushed elsewhere. -/
def destWrites (w lane : Nat) (y : W64) (o : Operand) : List RegWrite :=
  match o with
  | .v r => vWrites w lane r.toNat y
  | .u r => [.u r.toNat (if w = 64 then y else lowBits 32 y)]
  | .p r => [.p r.toNat lane (bit y 0)]
  | _ => []

/-- The registers that a source slot reads in a lane, as writes whose values do not matter (R55). -/
def slotRegs (s : Slot) (o : Operand) (lane : Nat) : List RegWrite :=
  match s, o with
  | .val _ n _ _ _ _ _ _, .v r => (List.range n).map fun k => .v lane (r.toNat + k) 0
  | .val _ _ _ _ _ _ _ _, .u r => [.u r.toNat 0]
  | .pred _, .p r => [.p r.toNat lane false]
  | _, _ => []

/-- The slot is a source. -/
def Slot.isSrc : Slot → Bool
  | .val d _ _ _ _ _ _ _ => !d
  | .pred d => !d
  | _ => false

/-- The slot is a destination. -/
def Slot.isDst : Slot → Bool
  | .val d _ _ _ _ _ _ _ => d
  | .pred d => d
  | _ => false

/-- A slot of a kind has an empty register in some of the lanes. -/
def slotEmpty (x : Agent) (pick : Slot → Bool) (s : Slot) (o : Operand) (lanes : List Nat) : Bool :=
  pick s && lanes.any fun l => (slotRegs s o l).any x.isEmpty

/-- What the full/empty bits say of a beat (R55, R56). -/
inductive Ready where
  | ready
  | trap
  | blocked
deriving DecidableEq, Repr, Inhabited

/-- The forms that combine lanes: a uniform one reads every lane of A(P) (R119). -/
def combines : Instr → Bool
  | .shfl _ | .vote _ | .gred _ | .gscan _ | .rebal _ | .rdln _ | .mtch _ => true
  | _ => false

/-- The lanes whose sources a beat reads: the performing lanes, or the lowest lane of A(P) for a uniform form (R42, R55). -/
def sourceLanes (i : Instr) (f : Fields) (act perf : LaneMask) : List Nat :=
  if f.uni && !combines i then [lowestLane act] else lanesIn perf

/-- The rules whose sources are checked in those lanes: SHFL and RDLN read A, and REBAL reads a v register B, in lanes of their own (R119, R120,
R125). -/
def checkedRow (i : Instr) (r : Row) : Row :=
  match i with
  | .shfl _ | .rdln _ => { r with a := .unused }
  | .rebal _ => { r with b := .unused }
  | _ => r

/-- The check before a beat over the lanes that it reads: an empty source in A, B or C traps under its FE bit and blocks without it; an empty
source in E or G, an empty guard, or an empty destination blocks (R55, R56). Where one source traps and another blocks, the beat traps at once: R55
does not say which comes first (DESIGN CHOICE, log entry 71). -/
def readiness (x : Agent) (r : Row) (f : Fields) (src perf act : List Nat) (skipDst : Bool) : Ready :=
  let a := slotEmpty x Slot.isSrc r.a f.a src
  let b := slotEmpty x Slot.isSrc r.b f.b src
  let c := slotEmpty x Slot.isSrc r.c f.c src
  let others := slotEmpty x Slot.isSrc r.d f.d src || slotEmpty x Slot.isSrc r.e f.e src || slotEmpty x Slot.isSrc r.g f.g src
  let guardEmpty := act.any fun l => x.emptyP f.pg.toNat l
  let dst := slotEmpty x Slot.isDst r.d f.d perf || slotEmpty x Slot.isDst r.e f.e perf || slotEmpty x Slot.isDst r.g f.g perf
  if guardEmpty then .blocked
  else if (a && f.fe.getLsbD 0) || (b && f.fe.getLsbD 1) || (c && f.fe.getLsbD 2) then .trap
  else if a || b || c || others || (dst && !skipDst) then .blocked
  else .ready

/-- The lanes of a mask that pass the guard: p[PG] exclusive-or PN (R41). -/
def performing (x : Agent) (f : Fields) (m : LaneMask) : LaneMask :=
  maskOf (lanesIn m) fun l => x.getP f.pg.toNat l != f.pn

end Sys2Proof.Machine
end

