-- ==== Sys2Proof/Machine/Perform.lean ====
section
/-! DEFINITION. Accesses between their issue and their acknowledgement: how each performs at its owner, in which orders, and what its reply or
acknowledgement brings (R143 to R146, R151 to R153, R160, R165 to R168, R171, R173). -/

namespace Sys2Proof.Machine

/-! ### Elements (R160) -/

/-- The bytes of one element of a type (R160). -/
def elemBytes (ty : DType) : Nat := tyWidth ty / 8

/-- A loaded element in 64 bits: signed types are sign-extended (R160). -/
def extendElem (ty : DType) (bs : List Byte) : W64 :=
  let v := BitVec.ofNat 64 (ofBytes bs)
  if tySigned ty then signBits (tyWidth ty) v else v

/-- The writes of the elements of a load from element j on: register D + j or pair D + 2j, or all of an s or c register (R160). -/
def loadWrites (ty : DType) (d : Operand) (lane : Nat) : Nat → List Byte → Nat → List RegWrite
  | 0, _, _ => []
  | n + 1, bs, j =>
    let k := elemBytes ty
    let v := extendElem ty (bs.take k)
    let ws := match d with
      | .v r => vWrites (if tyWidth ty = 64 then 64 else 32) lane (r.toNat + j * regsFor (tyWidth ty)) v
      | .u r => [RegWrite.u r.toNat v]
      | _ => []
    ws ++ loadWrites ty d lane n (bs.drop k) (j + 1)

/-- What a reply of memory writes for its bytes (R160, R165). -/
def ReplyForm.writes (r : ReplyForm) (bs : List Byte) : List RegWrite := r.lanes.flatMap fun l => loadWrites r.ty r.d l r.mult bs 0

/-- What lands with a pending result or reply (R54, R165). -/
def Pending.lands (p : Pending) : List RegWrite := match p.form with | some r => r.writes p.data | none => p.writes

/-- The new value of an atomic and its flags (R166). -/
def atomicNew (fn : BitVec 4) (ty : DType) (rm : Rm) (old v : W64) : W64 × FpFlags :=
  let w := tyWidth ty
  let o := lowBits w old
  let b := lowBits w v
  match fn.toNat with
  | 0 => (aluAdd ty false o b, 0)
  | 1 => (aluMin ty o b, 0)
  | 2 => (aluMax ty o b, 0)
  | 3 => (aluAnd ty o b, 0)
  | 4 => (aluOr ty o b, 0)
  | 5 => (aluXor ty o b, 0)
  | 6 => (b, 0)
  | 7 => (if o.toNat ≥ b.toNat then 0 else lowBits w (o + 1), 0)
  | 8 => (if o = 0 ∨ o.toNat > b.toNat then b else lowBits w (o - 1), 0)
  | 9 => redOp 6 .f32 rm o b
  | 10 => redOp 7 .f32 rm o b
  | _ => redOp 8 .f32 rm o b

/-- What an atomic stores for the value that it finds, if anything, with its flags: a CAS stores only where it finds the value that it compares with
(R166, R167). -/
def atomicStores (fn : BitVec 4) (ty : DType) (rm : Rm) (cas : Option W64) (v old : W64) : Option W64 × FpFlags :=
  match cas with
  | some c => (if lowBits (tyWidth ty) old = lowBits (tyWidth ty) c then some (lowBits (tyWidth ty) v) else none, 0)
  | none => let r := atomicNew fn ty rm old v; (some r.1, r.2)

/-- A place that a request over PCI Express, CXL or a peer link reaches (R141, R343, R345). -/
def Place.remote (p : Place) : Bool := decide (2 ^ 64 ≤ p.loc) && decide (p.loc < 4 * 2 ^ 64)

/-! ### The order of an agent's accesses (R144 to R146, R149, R152, R344) -/

/-- The bytes that an access names. -/
def MemOp.size (o : MemOp) : Nat :=
  match o.kind with
  | .load n _ _ => n
  | .store bs => bs.length
  | .zero => 128
  | .atomic _ ty _ _ _ _ => elemBytes ty
  | .replayed ty _ => elemBytes ty

/-- Two accesses name a common byte. -/
def MemOp.meets (a b : MemOp) : Bool := decide (a.place.loc < b.place.loc + b.size) && decide (b.place.loc < a.place.loc + a.size)

/-- The access only reads. -/
def MemOp.isLoad (o : MemOp) : Bool := match o.kind with | .load _ _ _ => true | _ => false
/-- The access returns what it reads. -/
def MemOp.reads (o : MemOp) : Bool := match o.kind with | .load _ _ _ | .atomic _ _ _ _ _ _ | .replayed _ _ => true | _ => false
/-- The bytes that the access stores, where they are known before it performs (R143). -/
def MemOp.stores (o : MemOp) : Option (List Byte) :=
  match o.kind with
  | .store bs => some bs
  | .zero => some (List.replicate 128 0)
  | _ => none

/-- An access waits for an earlier one of its agent: to bytes that both name, in one lane (R145; a load takes its own lane's store at once, R143), in
one instruction (R152), or where both read (R146); and to one line of a peer (R344). -/
def MemOp.waitsFor (o j : MemOp) : Bool :=
  (decide (o.beat ≠ j.beat) && o.meets j &&
    ((decide (o.lanes &&& j.lanes ≠ 0) && !(o.isLoad && j.stores.isSome)) || decide (o.insn = j.insn) || (o.reads && j.reads))) ||
  (decide (o.place.owned = .peer) && decide (j.place.owned = .peer) && decide (o.place.loc / 128 = j.place.loc / 128) && decide (o.beat ≠ j.beat))

/-- The accesses that perform with one: those of its beat that name its bytes, in ascending order (R152). -/
def Agent.opsWith (x : Agent) (o : MemOp) : Tbl MemOp := x.ops.filter fun e => decide (e.2.beat = o.beat) && e.2.meets o

/-- Nothing earlier holds an access back, or those that perform with it. -/
def Agent.opReady (x : Agent) (o : MemOp) : Bool :=
  (x.opsWith o).all fun e => x.ops.all fun j => decide (e.1 ≤ j.1) || !e.2.waitsFor j.2

/-- Bytes of a store laid over bytes that begin at a location. -/
def layOver (loc : Nat) (bs : List Byte) (at' : Nat) (new : List Byte) : List Byte :=
  bs.mapIdx fun k b => if at' ≤ loc + k ∧ loc + k < at' + new.length then new.getD (loc + k - at') b else b

/-- Bytes with a lane's own earlier stores laid over that are not yet acknowledged (R143). -/
def Agent.overlay (x : Agent) (n : Nat) (o : MemOp) (bs : List Byte) : List Byte :=
  let acked := x.acks.foldl (fun acc e => if e.1 < n ∧ e.2.lanes &&& o.lanes ≠ 0 then layOver o.place.loc acc e.2.loc e.2.bytes else acc) bs
  x.ops.foldl (fun acc e => match e.2.stores with
    | some new => if e.1 < n ∧ e.2.lanes &&& o.lanes ≠ 0 then layOver o.place.loc acc e.2.place.loc new else acc
    | none => acc) acked

/-- An access issued. -/
def Agent.addOp (x : Agent) (o : MemOp) : Agent := { x with ops := Tbl.ins x.ops x.opSeq o, opSeq := x.opSeq + 1 }

/-! ### Exclusivity (R153) -/

/-- Where an access performs: the agent with its team's cluster and context. -/
structure Perf where
  a : AgentId
  cluster : Nat
  part : Nat
  asid : Nat

/-- A live lease on a line belongs to another cluster, or the line is marked shared (R153). -/
def State.leasedElsewhere (s : State) (l cluster : Nat) : Bool :=
  decide (s.dtime < (s.line l).lmax) && (match (s.line l).lessees with | some cs => cs.any fun c => c != cluster | none => true)

/-- A cluster's L1 holds a line that it is to hold exclusively: where it has no copy, one enters whose lease is over (R133, R153). -/
def State.l1Holds (s : State) (q : Perf) (p : Place) : State :=
  if (s.copyOf q.cluster q.part q.asid (p.va / 128)).isSome then s
  else s.l1Put { cluster := q.cluster, part := q.part, asid := q.asid, vline := p.va / 128, line := p.loc / 128, data := s.read (p.loc / 128 * 128) 128,
                 exp := 0, wc := (s.line (p.loc / 128)).wc, seen := s.writeSeq, stamps := [] }

/-- Exclusivity granted to a cluster after a far atomic with policy keep near, where R153 allows it and the line may enter an L1 (R133, R153). -/
def State.grantExclusive (s : State) (q : Perf) (p : Place) : State :=
  let l := p.loc / 128
  if p.l1able = true ∧ pteKind p.pte = 0 ∧ s.leasedElsewhere l q.cluster = false ∧ (s.mons.any fun m => decide (m.loc / 128 = l)) = false then
    let s1 := s.l1Holds q p
    s1.setLine l { s1.line l with excl := some (q.cluster, s.dtime) }
  else s

/-! ### Performing (R151, R165) -/

/-- The access is gone from the agent, which changes otherwise as `f` says. -/
def State.opDone (s : State) (a : AgentId) (n : Nat) (f : Agent → Agent) : State := s.modAgent a fun x => f { x with ops := Tbl.del x.ops n }

/-- Bytes in the place of others. -/
def splice (bs : List Byte) (off : Nat) (new : List Byte) : List Byte := bs.take off ++ new ++ bs.drop (off + new.length)

/-- A reply with more of its bytes: the latest Wc or c, the flags of an atomic and the value that its log record carries (R144, R166, R334). -/
def Pending.receive (p : Pending) (off : Nat) (bs : List Byte) (c : Option Nat) (fl : FpFlags) : Pending :=
  { p with data := splice p.data off bs, parts := p.parts - 1, flags := p.flags ||| fl,
           c := match c with | some k => some (max (p.c.getD 0) k) | none => p.c,
           log := p.log.map fun r => { r with p1 := BitVec.ofNat 64 (ofBytes bs) } }

/-- A load performs: its lane's own stores are laid over what the L1 or the owner gives (R143, R145). -/
def State.loadPerforms (s : State) (q : Perf) (n : Nat) (o : MemOp) (size reply off : Nat) : State :=
  match s.agent q.a with
  | none => s
  | some x =>
    let r := s.readBy q.cluster q.part q.asid o.place size o.policy
    r.2.2.opDone q.a n fun y => { y with pend := Tbl.modify y.pend reply fun p => p.receive off (x.overlay n o r.1) r.2.1 0 }

/-- A write is near: the cluster holds its line, and stores do not write through (R153). -/
def State.isNear (s : State) (p : Place) (cluster : Nat) : Bool := decide (p.owned = .slice) && s.holds (p.loc / 128) (some cluster)

/-- The store of an access has been serialised: near writes and writes to on-chip memory complete with it and their c enters GWCT; the others are
acknowledged later, with a peer's carrying no c (R143, R144, R165, R173, R346). -/
def State.stored (s : State) (q : Perf) (n : Nat) (o : MemOp) (bs : List Byte) (near : Bool) (c : Option Nat) : State :=
  let chip := match o.place.owned with | .scratch _ => true | .pinned => true | _ => false
  let vline := if o.place.l1able then some (o.place.va / 128) else none
  if near || chip then
    let s1 := s.opDone q.a n fun x => { x with gwct := max x.gwct (c.getD 0) }
    if near then s1.updateCopy q.cluster q.part q.asid (o.place.va / 128) o.place.loc s.writeSeq (c.getD 0) bs else s1
  else s.opDone q.a n fun x =>
    { x with acks := Tbl.ins x.acks n { lanes := o.lanes, loc := o.place.loc, bytes := bs, c := c.getD 0, vline := vline, stamp := s.writeSeq,
                                        peer := decide (o.place.owned = .peer) } }

/-- A store performs (R143, R165). -/
def State.storePerforms (s : State) (q : Perf) (n : Nat) (o : MemOp) (bs : List Byte) : State :=
  let near := s.isNear o.place q.cluster
  let r := s.writeWith o.place bs (some q.cluster) o.policy
  r.1.stored q n o bs near r.2

/-- CCTL's zero operation performs: 128 zero bytes; at a slice the line comes back from its holder first, and the zero flag is set (R142, R153,
R171). -/
def State.zeroPerforms (s : State) (q : Perf) (n : Nat) (o : MemOp) : State :=
  let r := s.writeWith o.place (List.replicate 128 0) none o.policy
  let l := o.place.loc / 128
  let s1 := if o.place.owned = .slice then r.1.setLine l { r.1.line l with zero := true } else r.1
  s1.stored q n o (List.replicate 128 0) false r.2

/-- The slice holds no data of the line of an atomic that it sends on to host or pool memory: it has written its copy back (R168). -/
def Place.sentOn (p : Place) : Place := if p.owned = .slice ∧ pteKind p.pte ≠ 0 then { p with pte := p.pte ||| 0x30#64 } else p

/-- The line of an atomic at its slice: back from another holder, and written back where the atomic is sent on (R153, R168). -/
def State.atomicLine (s : State) (p : Place) (cluster policy : Nat) : State :=
  if p.owned = .slice then
    let s1 := (s.recall (p.loc / 128) (some cluster)).touchLine p.sentOn policy
    if pteKind p.pte = 0 then s1 else s1.setLine (p.loc / 128) { s1.line (p.loc / 128) with zero := false }
  else s

/-- What follows at an atomic's line: a near one restarts the holder's 16 µs; a far one refreshes a present L1 copy (R146) and, with policy keep near, may
gain exclusivity (R153). -/
def State.atomicAfter (s : State) (q : Perf) (o : MemOp) (near : Bool) : State :=
  if near then s.setLine (o.place.loc / 128) { s.line (o.place.loc / 128) with excl := some (q.cluster, s.dtime) }
  else
    let s1 := if o.place.owned = .slice then s.refresh q.cluster q.part q.asid o.place else s
    if o.policy = 3 then s1.grantExclusive q o.place else s1

/-- An atomic reads and writes at its owner: near on a line that the cluster holds, whatever its policy (R151, R153; log entry 77). Answers the old
value, what it stored, the flags, and c or Wc. -/
def State.rmw (s : State) (q : Perf) (o : MemOp) (ty : DType) (new : W64 → Option W64 × FpFlags) :
    W64 × Option (List Byte) × FpFlags × Option Nat × State :=
  let near := s.isNear o.place q.cluster
  let s1 := s.atomicLine o.place q.cluster o.policy
  let old := BitVec.ofNat 64 (s1.readNat o.place.loc (elemBytes ty))
  let v := new old
  match v.1 with
  | some w =>
    let bs := toBytes (elemBytes ty) w.toNat
    let r := s1.writeWith o.place.sentOn bs (some q.cluster) o.policy
    let s2 := if near then r.1.updateCopy q.cluster q.part q.asid (o.place.va / 128) o.place.loc r.1.writeSeq (r.2.getD 0) bs else r.1
    (old, some bs, v.2, r.2, s2.atomicAfter q o near)
  | none => (old, none, v.2, if o.place.owned = .slice then some (s1.line (o.place.loc / 128)).wc else none, s1.atomicAfter q o near)

/-- ATOM or CAS performs, and its reply is on its way; RED's c comes with an acknowledgement (R165 to R167, R173). -/
def State.atomicPerforms (s : State) (q : Perf) (n : Nat) (o : MemOp) (ty : DType) (reply : Option Nat) (new : W64 → Option W64 × FpFlags) : State :=
  let near := s.isNear o.place q.cluster
  let r := s.rmw q o ty new
  match reply with
  | some k => r.2.2.2.2.opDone q.a n fun x =>
      { x with pend := Tbl.modify x.pend k fun p => p.receive 0 (toBytes (elemBytes ty) r.1.toNat) r.2.2.2.1 r.2.2.1 }
  | none => r.2.2.2.2.stored q n o [] near r.2.2.2.1

/-- A replayed ATOM or CAS stores what its logged value decides (R335). -/
def State.replayPerforms (s : State) (q : Perf) (n : Nat) (o : MemOp) (ty : DType) (new : Option W64) : State :=
  match new with
  | some v => s.storePerforms q n o (toBytes (elemBytes ty) v.toNat)
  | none => s.opDone q.a n id

/-- The record of an error that an access of an agent meets: what the access names, or an access that the agent makes at no data of its own (R20,
R286, R351). -/
def errorAt (t : Team) (who : Nat) (x : Agent) (o : Option MemOp) : Rec :=
  match o with
  | some o => { recOf t who x { code := 0x18, how := .beat, lanes := o.lanes, addr := o.addr, write := !o.isLoad } with site := o.site }
  | none => recOf t who x { code := 0x18, how := .beat, lanes := x.arr.a, addr := 0, write := false }

/-- An access consumes what its owner reads at a line whose stored check bits hold an uncorrectable error; what an L1 holds is sound (R351). -/
def State.consumesFlaw (s : State) (q : Perf) (o : MemOp) : Bool :=
  !s.flaws.isEmpty && s.flaws.contains (o.place.loc / 128) && !s.isNear o.place q.cluster &&
    (match o.kind with
     | .load _ _ _ => !(o.place.l1able && decide (o.policy ≠ 2) && (s.copyOf q.cluster q.part q.asid (o.place.va / 128)).any fun c => decide (s.dtime < c.exp))
     | .atomic _ _ _ _ _ _ => true
     | _ => false)

/-- The context of an access that consumes an uncorrectable error ends; the error was logged when it was found (R291, R351; log entry 92). -/
def State.consumed (s : State) (q : Perf) (o : MemOp) : State :=
  match s.team q.a.team, s.agent q.a with
  | some t, some x => s.endContext q.part q.asid (errorAt t q.a.who x (some o)).encode
  | _, _ => s

/-- One access performs, that consumes no uncorrectable error. -/
def State.performs (s : State) (q : Perf) (n : Nat) (o : MemOp) : State :=
  match o.kind with
  | .load size reply off => s.loadPerforms q n o size reply off
  | .store bs => s.storePerforms q n o bs
  | .zero => s.zeroPerforms q n o
  | .atomic fn ty rm cas v reply => s.atomicPerforms q n o ty reply (atomicStores fn ty rm cas v)
  | .replayed ty new => s.replayPerforms q n o ty new

/-- One access performs, or ends its context (R351). -/
def State.performsAt (s : State) (q : Perf) (n : Nat) (o : MemOp) : State := if s.consumesFlaw q o then s.consumed q o else s.performs q n o

/-- The other parts of the accesses that have just performed are marked: an element of a gather or scatter waits for them (R202). -/
def Agent.markHalf (x : Agent) (done : Tbl MemOp) : Agent :=
  { x with ops := x.ops.map fun e => (e.1, { e.2 with half := e.2.half || done.any fun d => decide (d.2.beat = e.2.beat) && decide (d.2.lanes = e.2.lanes) }) }

/-- Access number n of an agent performs, with those of its beat that name the same bytes, once nothing earlier holds it back (R145, R152). -/
def State.access (s : State) (a : AgentId) (n : Nat) : State :=
  match s.team a.team, s.agent a with
  | some t, some x => match t.cluster, Tbl.find? x.ops n with
    | some cl, some o =>
      if x.opReady o then
        ((x.opsWith o).foldl (fun u e => u.performsAt { a := a, cluster := cl, part := t.part, asid := t.asid } e.1 e.2) s).modAgent a fun y =>
          y.markHalf (x.opsWith o)
      else s
    | _, _ => s
  | _, _ => s

/-- Every access of an agent performs, in the order of issue. -/
def State.accessAll (s : State) (a : AgentId) : State :=
  match s.agent a with
  | none => s
  | some x => (x.ops.map (·.1)).foldl (fun u n => u.access a n) s

/-! ### Acknowledgements -/

/-- The acknowledgement of a store: c enters GWCT, and a present L1 copy takes the bytes (R143, R165). -/
def State.applyAck (s : State) (a : AgentId) (n : Nat) : State :=
  match s.team a.team, s.agent a with
  | some t, some x => match Tbl.find? x.acks n with
    | none => s
    | some k =>
      let s1 := s.setAgent a { x with acks := Tbl.del x.acks n, gwct := max x.gwct k.c }
      match k.vline, t.cluster with
      | some vl, some cl => s1.updateCopy cl t.part t.asid vl k.loc k.stamp k.c k.bytes
      | _, _ => s1
  | _, _ => s

/-- Every access of an agent performs and is acknowledged: what a save and a team's end wait for (R143, R165). -/
def State.applyAcks (s0 : State) (a : AgentId) : State :=
  let s := s0.accessAll a
  match s.agent a with
  | none => s
  | some x => (x.acks.map (·.1)).foldl (fun t n => t.applyAck a n) s

end Sys2Proof.Machine
end

