-- ==== Sys2Proof/Machine/Sweep.lean ====
section
/-! DEFINITION. The sweep: the census and its ends (R61, R67), barriers' release (R87, R89), link and frame spills (R66), and the beat engine that
every form's meaning runs through (R55, R62, R69 to R71, R332). -/

namespace Sys2Proof.Machine

/-! ### Local windows, links and frames (R66, R135, R288) -/

/-- The virtual address of byte `off` of an agent's lane-private window (R288). -/
def localVaOf (c : Ctx) (slot who lane off : Nat) : Nat :=
  if who = ctlWho then c.localVa + slot * 2 ^ 29 + 2 ^ 28 + off
  else c.localVa + slot * 2 ^ 29 + who * 2 ^ 21 + lane * 2 ^ 16 + off

/-- The place of the sequencer's word at an offset of a lane's window; none when its translation or permission fails, or a peer access that is not
configured (R66, R345). -/
def seqPlace (s : State) (t : Team) (who lane off : Nat) (write : Bool) : Option Place :=
  match s.ctx t.part t.asid with
  | none => none
  | some c =>
    let va := localVaOf c t.slot who lane off % 2 ^ 52
    match s.walk (t.cluster.getD 0) t.part t.asid va with
    | .leaf pte big =>
      let p := s.leafPlace t.part pte big va
      if (write && !bit pte 1) || !s.reaches t.part p then none else some p
    | _ => none

/-- What a word of the sequencer's local memory holds. A word that no longer translates, which only a fall at a census without a RET beat meets, reads as a
free value, for R66 gives that no fault (DESIGN CHOICE, log entry 26). -/
def seqRead (s : State) (t : Team) (who lane off : Nat) : Label :=
  match seqPlace s t who lane off false with
  | some p => BitVec.ofNat 28 (s.readNat p.loc 4)
  | none => BitVec.ofNat 28 (Config.lostFrame s.beatSeq)

/-- A word of the sequencer's local memory written. -/
def seqWrite (s : State) (t : Team) (who lane off : Nat) (x : Label) : State :=
  match seqPlace s t who lane off true with
  | some p => (s.writeAt p (toBytes 4 x.toNat) t.cluster).1
  | none => s

/-- `G.Frame[d]`: in hardware for d below 16, on a control thread, and until it is spilled; else in lane 0's local memory (R59, R66, R209). -/
def frameOf (s : State) (a : AgentId) (t : Team) (x : Agent) (d : Nat) : Label :=
  if d < 16 ∨ x.kind ≠ .group ∨ Tbl.get false x.spilled d = false then (Tbl.find? x.frame d).getD 0 else seqRead s t a.who 0 (1024 + 4 * d)

/-- `G.Frame[d]` written. A word above 15 goes to lane 0's local memory; where it has no place there at a census, which R66 gives no fault, it stays in
hardware (R66, log entry 26). -/
def setFrame (s : State) (a : AgentId) (t : Team) (x : Agent) (d : Nat) (l : Label) : State :=
  let out := decide (16 ≤ d) && decide (x.kind = .group) && (seqPlace s t a.who 0 (1024 + 4 * d) true).isSome
  let y := { x with frame := if out then Tbl.del x.frame d else Tbl.ins x.frame d l, spilled := Tbl.put false x.spilled d out }
  if out then seqWrite (s.setAgent a y) t a.who 0 (1024 + 4 * d) l else s.setAgent a y

/-! ### The census (R61) -/

/-- The RUN lanes of an agent. -/
def Agent.runLanes (x : Agent) : List Nat := x.laneNos.filter fun i => decide ((x.lane i).s = .run)
/-- The RUN lanes at a depth. -/
def Agent.atDepth (x : Agent) (f : Nat) : List Nat := x.runLanes.filter fun i => (x.lane i).d.toNat == f
/-- The wanted labels of some lanes. -/
def Agent.wants (x : Agent) (l : List Nat) : List Nat := l.map fun i => (x.lane i).w.toNat
/-- Every lane is DONE. -/
def Agent.allDone (x : Agent) : Bool := x.laneNos.all fun i => decide ((x.lane i).s = .done)

/-- The Goose timer restarts (R75). -/
def Agent.restartGoose (x : Agent) (seq : Nat) : Agent := { x with goose := 0, gooseSeq := seq }

/-- The blocks after which a group leaves the active set (R74); an absent member counts as an absent line (R134). -/
def BlockWhy.counts : BlockWhy → Bool
  | .monitor | .queue | .absent | .member | .barrier | .token | .empty | .rlt | .children | .replayRoom => true
  | _ => false

/-- The agent stands in a block that R74 counts. -/
def Agent.counted (x : Agent) : Bool := match x.block with | some w => w.counts | none => false

/-- A block begins, or goes on from one that counts (R74). -/
def Agent.blockOn (x : Agent) (clock : Nat) (w : BlockWhy) : Agent :=
  { x with block := some w, blockedAt := if x.counted then x.blockedAt else clock }

/-- The clock of the rail on which an agent of a team stands (R74). -/
def State.railTime (s : State) (team : Nat) (x : Agent) : Nat :=
  Tbl.get 0 s.railClocks ((((s.team team).bind Team.cluster).getD 0) * 32 + x.rail)

/-- An agent sent to arrival at a label. -/
def Agent.arriveAt (x : Agent) (p : Nat) : Agent :=
  { x with p := BitVec.ofNat 28 p, issue := .arrive true, restart := 0, block := none }

/-- A copy that a team's end leaves armed is discarded: the presence bits that its slices cleared are set, in every member's scratchpad, its token falls
and event kind 0x03 with ENG 3 and cause 0x0F is posted or discarded (R185). -/
def discardCopies (s : State) (team : Nat) : State :=
  match s.team team with
  | none => s
  | some t => t.copies.foldl (fun u e =>
      if e.2.armed then
        let u1 := u.modTeam team fun t => { t with copies := Tbl.del t.copies e.1, tok := Tbl.put 0 t.tok e.2.tok (Tbl.get 0 t.tok e.2.tok - 1) }
        let u2 := (e.2.slices.flatMap fun c => (c.spLines team t e.2.mask).filter fun l => decide (c.cleared / 2 ^ l.1 % 2 = 1)).foldl (fun v l =>
          match t.member l.1 with
          | some m => v.setPresence m [l.2]
          | none => v) u1
        u2.postEvent team 0x03 3 e.2.site.cseq (0x1A00 + 0x0F)
      else u) s

/-- The team ends: armed copies are discarded, its monitor entries are purged, its tiles and ranges are free once no command of it uses them, and its
grid counts it (R67, R83, R185, R267; log entry 18). -/
def State.teamEnd (s : State) (team : Nat) : State :=
  match s.team team with
  | none => s
  | some t =>
    let s1 := discardCopies s team
    let s2 := s1.dropMons fun m => m.part == t.part && m.asid == t.asid && m.slot == t.slot && !m.hostq
    let s3 : State := { s2 with wakes := s2.wakes.filter fun e =>
      !(e.2.mon.part == t.part && e.2.mon.asid == t.asid && e.2.mon.slot == t.slot && !e.2.mon.hostq) }
    let s4 := s3.modTeam team fun t =>
      let u := { t with res := .ended t.cluster, ctlGone := true, wake := [], alloc := none }
      if s.cmds.any fun e => e.2.oxOf team then u else u.freed
    { s4 with grids := Tbl.modify s4.grids t.grid fun g => { g with endedTeams := g.endedTeams + 1 } }

/-- Every group has ended and the control thread, if there is one, has executed EXIT (R67). -/
def Team.allEnded (t : Team) : Bool :=
  t.ctlGone && t.agents.all fun e => decide (e.2.issue = .ended)

/-- The waiting groups of a barrier go on: the lanes of their A(P) take W = P + 1, and their census runs next (R87, R89). `arrive` at P + 1 stands for
the census: see `State.census`. -/
def Agent.passBarrier (x : Agent) : Agent :=
  let x1 := (lanesIn x.arr.a).foldl (fun y i => y.modLane i fun l => if l.s = .run ∧ l.w = x.p then { l with w := x.p + 1 } else l) x
  { x1 with block := none, restart := 0 }

/-- The end of a group or thread: it frees its place and counts as arrived at the team barrier; unlanded results are dropped and its stores are
acknowledged (R67, R83). -/
def State.agentEnded (s : State) (a : AgentId) : State :=
  let s1 := s.applyAcks a
  s1.modAgent a fun x => { x with issue := .ended, active := false, pend := [], block := none, restart := 0 }

/-- The census after an instruction, or with `from` where a wake or a release calls it: it chooses the next P, wraps, rises or falls in depth, ends
the group or leaves it idle (R61). What follows the end of a group (the team barrier, the team's end) is `State.settle`. -/
def State.census (s : State) (a : AgentId) (frm : Nat) : State :=
  match s.team a.team, s.agent a with
  | some t, some x =>
    match x.runLanes with
    | [] =>
      if x.allDone then s.agentEnded a
      else s.setAgent a { (x.restartGoose s.beatSeq) with issue := .idle, active := false, block := none, restart := 0 }
    | _ :: _ =>
      let f := greatestOf (x.runLanes.map fun i => (x.lane i).d.toNat)
      let gf := x.f.toNat
      if f > gf then
        let s1 := setFrame s a t x gf (BitVec.ofNat 28 frm)
        s1.modAgent a fun y => { y with f := BitVec.ofNat 8 f }.arriveAt ((leastOf (y.wants (y.atDepth f))).getD 0)
      else
        let from' := if f < gf then (frameOf s a t x f).toNat else frm
        let x1 := { x with f := BitVec.ofNat 8 f }
        let ws := x1.wants (x1.atDepth f)
        match leastOf (ws.filter fun w => decide (w ≥ from')) with
        | some w => s.setAgent a (x1.arriveAt w)
        | none => s.setAgent a ({ x1 with n := x1.n + 1 }.arriveAt ((leastOf ws).getD 0))
  | _, _ => s

/-- The team barrier releases when every group has arrived or ended (R87). -/
def Team.barReady (t : Team) : Bool :=
  match Tbl.find? t.bars 16 with
  | none => false
  | some b => decide (b.waiters ≠ []) &&
      t.agents.all fun e => decide (e.1 = ctlWho) || decide (e.2.issue = .ended) || b.waiters.contains e.1

/-- A barrier phase releases: the state returns to zero, and every waiting group goes on by census (R87, R89). -/
def State.releaseBar (s : State) (team id : Nat) : State :=
  match s.team team with
  | none => s
  | some t => match Tbl.find? t.bars id with
    | none => s
    | some b =>
      let s1 := s.modTeam team fun t => { t with bars := Tbl.del t.bars id }
      b.waiters.foldl (fun u g =>
        let a : AgentId := ⟨team, g⟩
        match u.agent a with
        | none => u
        | some x => if x.issue = .barrier then (u.setAgent a x.passBarrier).census a (x.p.toNat + 1) else u) s1

/-- What follows an agent's end: the team barrier is tested again, and the team ends with its last agent (R67, R87). -/
def State.settle (s : State) (team : Nat) : State :=
  match s.team team with
  | none => s
  | some t =>
    if t.isEnded then s
    else if t.allEnded then s.teamEnd team
    else if t.barReady then
      let s1 := s.releaseBar team 16
      match s1.team team with
      | some t1 => if t1.allEnded && !t1.isEnded then s1.teamEnd team else s1
      | none => s1
    else s

/-- The census after the last beat, with what follows the group's end. -/
def State.nextIndex (s : State) (a : AgentId) : State :=
  match s.agent a with
  | none => s
  | some x => (s.census a (x.p.toNat + 1)).settle a.team

/-! ### The lane-cycle record (R331, R332) -/

/-- A counter of a bin raised. -/
def lcrAdd (m : Tbl W64) (k n : Nat) : Tbl W64 := Tbl.put 0 m k (Tbl.get 0 m k + BitVec.ofNat 64 n)

/-- The bins of a cluster that hold an index of a context (R331). -/
def lcrBins (m : Tbl W64) (cluster asid p : Nat) : List Nat :=
  (List.range 16).filter fun j =>
    let r := Tbl.get (0 : W64) m ((cluster * 16 + j) * 8)
    bit r 63 && decide (bits r 47 32 = asid) && decide (bits r 27 0 ≤ p) && decide (p ≤ bits (Tbl.get (0 : W64) m ((cluster * 16 + j) * 8 + 1)) 27 0)

/-- Positions added to every bin that holds the index: active, predicated off, unwanted, absent, idle (R332). -/
def State.lcrCount (s : State) (cluster asid p act poff unw abs idle : Nat) : State :=
  { s with lcr := (lcrBins s.lcr cluster asid p).foldl (fun m j =>
      let k := (cluster * 16 + j) * 8
      lcrAdd (lcrAdd (lcrAdd (lcrAdd (lcrAdd m (k + 2) act) (k + 3) poff) (k + 4) unw) (k + 5) abs) (k + 6) idle) s.lcr }

/-! ### Beats -/

/-- What a beat of an instruction works on: the agent's number, its team and record before the beat, the fields and rules of the form, the lanes of
A(P) and the performing lanes of this beat, and the quad. -/
structure Beat where
  a : AgentId
  t : Team
  x : Agent
  cluster : Nat
  f : Fields
  row : Row
  act : LaneMask
  perf : LaneMask
  quad : Nat
  /-- Sign-extended literal (R34). -/
  signed : Bool
  /-- The form issues one beat whatever quads A(P) reaches (R69). -/
  one : Bool
deriving Inhabited

/-- How a beat ends. -/
inductive Out where
  /-- It has performed: the state with its effects and the lanes' new W. -/
  | done (s : State)
  /-- It has performed, and the agent stands elsewhere already: at a barrier, or stopped after the instruction. -/
  | left (s : State)
  /-- It raises a fault; nothing of it has performed. -/
  | fault (r : Raise)
  /-- It raises a replayable fault on a page (R293). -/
  | replay (r : Raise) (page : Nat)
  /-- It blocks, to be tried again. -/
  | block (w : BlockWhy)
  /-- It has not performed, and waits in a state of its own: a queue park. -/
  | wait (s : State)
deriving Inhabited

/-- The beat-precise fault of a code for lanes of the beat. -/
def beatFault (code : Byte) (lanes : LaneMask) (addr : W64) (write : Bool) : Raise :=
  { code := code, how := .beat, lanes := lanes, addr := addr, write := write }

/-- How a form issues: as a whole or by quads (R69, R71), whether it accesses memory (held back by an acquire, R149), and the scope of the release
that it performs first (R147, R165). -/
structure Shape where
  whole : Bool
  mem : Bool
  rel : Option Nat
deriving DecidableEq, Repr, Inhabited

/-- The forms that act on the group as a whole: one beat whatever UNI holds (R69). -/
def oneBeat : Instr → Bool
  | .bar _ | .barn _ | .bara _ | .fence _ => true
  | .cctl f => decide (f.fn = 3)
  | _ => false

/-- The scope of a release order of a class M byte, none without one (R46, R147). -/
def releaseScope (md : BitVec 8) : Option Nat := if mdOrder md ≥ 2 then some (mdScope md) else none

/-- An instruction names a queue register as a source or destination. -/
def usesQueue (i : Instr) (f : Fields) : Bool :=
  match rowFor i with
  | some r => (match quseOf r f with | .none => false | _ => true)
  | none => false

/-- A write to a decision or report queue is a team-scope release (R211). -/
def queueRelease (i : Instr) (f : Fields) : Option Nat :=
  match rowFor i with
  | some r => (match quseOf r f with | .write q _ => if q.toNat < 8 then some 1 else none | _ => none)
  | none => none

/-- The device-scope release of an engine command and of LAUNCH, unless MD [75] is set (R46, R155). -/
def commandRelease (f : Fields) : Option Nat := if f.md.getLsbD 3 then none else some 2

/-- How each form issues (R69, R71, R147, R149, R155, R211). -/
def shapeOf (i : Instr) (f : Fields) : Shape :=
  match i with
  | .nop _ | .j _ | .jr _ | .call _ | .callr _ | .ret _ | .exit _ | .yield _ | .wtok _ | .nap _ | .qstat _ => { whole := f.uni, mem := false, rel := none }
  | .bar _ | .barn _ | .bara _ => { whole := true, mem := false, rel := some 1 }
  | .fence _ => { whole := true, mem := true, rel := releaseScope f.md }
  | .wait _ => { whole := f.uni, mem := true, rel := none }
  | .launch _ => { whole := f.uni, mem := true, rel := commandRelease f }
  | .ld _ | .st _ | .atom _ | .red _ | .cas _ | .pref _ | .testp _ => { whole := f.uni, mem := true, rel := releaseScope f.md }
  | .cctl _ => { whole := f.uni || decide (f.fn = 3), mem := true, rel := releaseScope f.md }
  | .cpsl _ | .cpc _ | .gath _ | .scat _ | .scata _ | .mma _ | .mmag _ | .aczero _ | .drain _ => { whole := true, mem := true, rel := commandRelease f }
  | .tlbi _ => { whole := true, mem := false, rel := some 2 }
  | .trap _ | .brk _ | .shfl _ | .vote _ | .gred _ | .gscan _ | .rebal _ | .rdln _ | .mtch _ | .acalloc _ | .acfree _ | .obres _ | .obrel _ | .qcfg _
  | .sysc _ | .csrr _ | .csrw _ | .eret _ | .halt _ => { whole := true, mem := false, rel := none }
  | _ => { whole := f.uni || usesQueue i f, mem := false, rel := queueRelease i f }

/-- Every token named in a mask is complete (R16). -/
def tokensDone (t : Team) (wk : Byte) : Bool :=
  (List.range 8).all fun k => !wk.getLsbD k || decide (Tbl.get 0 t.tok k = 0)

/-- The wait of a release at a scope is complete: every earlier access has been performed and acknowledged, at device and system scope device time has
reached GWCT + 4 ns, and below system scope no peer is waited for (R147, R346). -/
def releaseDone (s : State) (x : Agent) (scope : Nat) : Bool :=
  x.ops.all (fun e => decide (scope < 3) && decide (e.2.place.owned = .peer) && !e.2.reads)
    && x.acks.all (fun e => decide (scope < 3) && e.2.peer) && x.pend.all (fun e => !e.2.mem)
    && (decide (scope < 2) || decide (s.dtime ≥ x.gwct + 4))

/-- The quads from q on that hold a lane of A(P) (R69). -/
def quadsFrom (m : LaneMask) (q : Nat) : List Nat := [0, 1, 2, 3, 4, 5, 6, 7].filter fun k => decide (q ≤ k) && decide (quadOf m k ≠ 0)

/-- The lanes of a beat take W = P + 1: what every lane of A(P) takes unless its instruction says otherwise (R62). -/
def Agent.advance (x : Agent) (m : LaneMask) : Agent :=
  (lanesIn m).foldl (fun y i => y.modLane i fun l => { l with w := x.p + 1 }) x

/-- The agent blocks: its Goose timer restarts (R74, R75). A block that goes on is no new one. -/
def State.blockAgent (s : State) (a : AgentId) (w : BlockWhy) : State :=
  s.modAgent a fun x => if x.block = some w then x else (x.restartGoose s.beatSeq).blockOn (s.railTime a.team x) w

/-- The positions of a quad's beat in the lane-cycle record (R332). -/
def State.countQuad (s : State) (b : Beat) (q : Nat) : State :=
  let n := (lanesIn (quadOf b.perf q)).length
  let m := (lanesIn (quadOf b.act q)).length
  let abs := ([4 * q, 4 * q + 1, 4 * q + 2, 4 * q + 3].filter fun i => decide ((b.x.lane i).s = .done)).length
  s.lcrCount b.cluster b.t.asid b.x.p.toNat n (m - n) (4 - m - abs) abs 0

/-- The quads whose beats a step issues: all of them where the form performs as a whole (R69, R71). -/
def Beat.quads (b : Beat) (whole : Bool) : List Nat := if b.one then [0] else if whole then quadsFrom b.act 0 else [b.quad]

/-- A group's beats are counted: the lane-cycle record (R332), the rail's last issuer (R72) and its clocks (R74). -/
def State.countGroup (s : State) (b : Beat) (whole : Bool) : State :=
  let qs := b.quads whole
  let s1 := if b.one then s.lcrCount b.cluster b.t.asid b.x.p.toNat 1 0 0 0 3 else qs.foldl (fun u q => u.countQuad b q) s
  let k := b.cluster * 32 + b.x.rail
  { s1 with lastBeat := Tbl.ins s1.lastBeat k { a := b.a, rank := b.x.rank, site := b.x.site, act := b.x.arr.a, n := b.x.n },
            railClocks := Tbl.put 0 s1.railClocks k (Tbl.get 0 s1.railClocks k + qs.length) }

/-- A control thread's instruction is counted: it goes on with its run, or begins one (R208). -/
def State.countThread (s : State) (b : Beat) : State :=
  let run := match Tbl.find? s.ccLast b.cluster with
    | some m => if m.team = b.a.team ∧ b.x.gooseSeq < b.x.lastBeat then m.run + 1 else 1
    | none => 1
  { s with ccLast := Tbl.ins s.ccLast b.cluster { team := b.a.team, run := run } }

/-- A beat is counted, and numbered (R75); the group that issues it is in its rail's active set (R72). -/
def State.countBeat (s : State) (b : Beat) (whole : Bool) : State :=
  let s1 := if b.x.isGroup then s.countGroup b whole else s.countThread b
  ({ s1 with beatSeq := s1.beatSeq + 1 } : State).modAgent b.a fun x =>
    { x with lastBeat := s1.beatSeq + 1, active := x.active || (x.isGroup && decide (x.issue = .beats)) }

/-- A beat that has performed is left behind: the next quad or the census follows (R69, R70). -/
def State.passBeat (s : State) (b : Beat) (whole : Bool) : State :=
  match (if whole then [] else quadsFrom b.x.arr.a (b.quad + 1)) with
  | q :: _ => s.modAgent b.a fun x => { x with restart := q, block := none, arr := { x.arr with noWatch := false } }
  | [] => (s.modAgent b.a fun x => { x with restart := 0, block := none }).nextIndex b.a

/-- After a beat: counters, and either the next quad or the census (R69, R70, R332). -/
def State.afterBeat (s : State) (b : Beat) (whole : Bool) : State := (s.countBeat b whole).passBeat b whole

/-- The agent whose instruction the last step stands at, with its team and cluster. -/
def State.current (s : State) : Option (AgentId × Team × Agent) :=
  match s.cur with
  | none => none
  | some a => match s.team a.team, s.agent a with
    | some t, some x => if x.issue = .beats then some (a, t, x) else none
    | _, _ => none

/-- The next beat of the current agent's instruction: the lanes of A(P) it carries and its quad (R69). -/
def nextBeat (x : Agent) (whole : Bool) : LaneMask × Nat :=
  if whole then (x.arr.a, 0)
  else match quadsFrom x.arr.a x.restart with
    | q :: _ => (quadOf x.arr.a q, q)
    | [] => (0, 0)

/-- The beat that an agent issues next for a form. -/
def beatOf (i : Instr) (f : Fields) (r : Row) (a : AgentId) (t : Team) (x : Agent) : Beat :=
  let nb := nextBeat x (shapeOf i f).whole
  { a := a, t := t, x := x, cluster := t.cluster.getD 0, f := f, row := r, act := nb.1, perf := performing x f nb.1, quad := nb.2,
    signed := signedLit i f, one := f.uni || oneBeat i }

/-- A fault that fails a whole instruction names its performing lanes (R286). -/
def Raise.forWhole (r : Raise) (whole : Bool) (perf : LaneMask) : Raise := if whole then { r with lanes := perf } else r

/-- The end of a beat turned into the next state. -/
def State.concludeBeat (s : State) (b : Beat) (whole : Bool) (o : Out) : State :=
  match o with
  | .done s' => s'.afterBeat b whole
  | .left s' => s'.countBeat b whole
  | .fault r => (s.modAgent b.a fun x => { x with restart := if whole || r.whole then 0 else b.quad }).takeFault b.a (r.forWhole whole b.perf)
  | .replay r page => (s.modAgent b.a fun x => { x with restart := if whole then 0 else b.quad }).parkReplay b.a (r.forWhole whole b.perf) page
  | .block w => s.blockAgent b.a w
  | .wait s' => s'.modAgent b.a fun x => { x with arr := { x.arr with wk := 0 } }

/-- The end of a beat; an agent of a team that is being shed is held where it has reached a shed point (R319). The group whose own arrival releases a
barrier phase has not waited there and is not held (DEDUCED, log entry 94). -/
def State.conclude (s : State) (b : Beat) (whole : Bool) (o : Out) : State := (s.concludeBeat b whole o).markHeld b.a

/-- What holds a beat back, in the order in which it is found: the WK wait (R16), the full/empty checks (R55), an acquire whose value has not
returned (R149), the release that the form performs first (R165). -/
inductive Gate where
  | token | empty | trap | acquire | release | ready
deriving DecidableEq, Repr, Inhabited

/-- What holds a beat of a form back. -/
def beatGate (s : State) (i : Instr) (b : Beat) : Gate :=
  let anyPerf := decide (b.perf ≠ 0)
  if !tokensDone b.t b.x.arr.wk then .token
  else match readiness b.x (checkedRow i b.row) b.f (if anyPerf then sourceLanes i b.f b.act b.perf else []) (lanesIn b.perf) (lanesIn b.act)
      (b.x.arr.granted.isSome || b.x.arr.pushed) with
    | .trap => .trap
    | .blocked => .empty
    | .ready =>
      if (shapeOf i b.f).mem && anyPerf && b.x.pend.any (fun e => decide (e.2.acq &&& b.perf ≠ 0)) then .acquire
      else if anyPerf && !b.x.arr.released && (match (shapeOf i b.f).rel with | some sc => !releaseDone s b.x sc | none => false) then .release
      else .ready

/-- One beat of a form by the current agent (R69 to R71), once nothing holds it back. The body gets the beat and the state in which the beat's
lanes have their new W. -/
def issueBeat (i : Instr) (f : Fields) (s : State) (body : Beat → State → Out) : Host.Outcome State Fault Refusal :=
  match s.current, rowFor i with
  | some (a, t, x), some r =>
    let b := beatOf i f r a t x
    let whole := (shapeOf i f).whole
    let anyPerf := decide (b.perf ≠ 0)
    let gate := beatGate s i b
    if gate = .token then .next (s.blockAgent a .token)
    else
      let s := s.modAgent a fun y => { y with arr := { y.arr with wk := 0 } }
      match gate with
      | .token => .next s
      | .trap =>
        let lanes := lanesIn b.perf
        let empties := maskOf lanes fun l => decide (readiness x (checkedRow i r) f [l] [l] [l] true = .trap)
        .next (s.conclude b whole (.fault (beatFault 0x04 empties 0 false)))
      | .empty => .next (s.blockAgent a .empty)
      | .acquire => .next (s.blockAgent a .acquire)
      | .release => .next (s.modAgent a fun y => { y with block := none })
      | .ready =>
        let s1 := s.modAgent a fun y => { (y.advance b.act) with arr := { y.arr with released := y.arr.released || anyPerf } }
        .next (s.conclude b whole (body b s1))
  | _, _ => .fault .noAgent

end Sys2Proof.Machine
end

