-- ==== Sys2Proof/Machine/Fetch.lean ====
section
/-! DEFINITION. Fetch, the gate and decoding at an arrival (R49 to R53, R61, R63, R76). -/

namespace Sys2Proof.Machine

/-- What a fetch gives: the word, with the lines it filled; or a fault (R51, R52). -/
inductive Fetched where
  | word (w : Code128) (s : State)
  | stop (code : Byte) (addr : W64)

/-- CODECOUNT and CODEBASE of a team's grid (R50, R275); a privileged thread's code begins at address 0 of its firmware's table and has every index
(R304). -/
def State.codeOf (s : State) (t : Team) : Nat × W64 :=
  if t.priv then (2 ^ 28, 0)
  else match Tbl.find? s.grids t.grid with
  | some g => (g.launch.codeCount, g.launch.codeBase)
  | none => (0, 0)

/-- Whether an instruction-cache line is a cluster's line of a virtual line of a context (R51). -/
def ILine.isLine (c : ILine) (cluster part asid vline : Nat) : Bool :=
  c.cluster == cluster && c.part == part && c.asid == asid && c.vline == vline

/-- The places in the list of instruction-cache lines that are a cluster's. -/
def State.icOf (s : State) (cluster : Nat) : List Nat :=
  (List.range s.icache.length).filter fun i => (s.icache[i]?.map fun c => c.cluster) == some cluster

/-- A line put into its cluster's instruction cache, which holds 2,048 (R1, R51). -/
def State.icPut (s : State) (c : ILine) : State :=
  let mine := s.icOf c.cluster
  let gone := if s.icache.length < 2048 ∨ mine.length < 2048 then s.icache
    else s.icache.eraseIdx (mine.getD (Config.victim c.vline s.writeSeq % mine.length) 0)
  { s with icache := c :: gone }

/-- A fetch line read whole through its owner and kept (R51). -/
def State.fetchLine (s : State) (cluster part asid vline : Nat) (p : Place) : List Byte × State :=
  match s.icache.find? fun c => c.isLine cluster part asid vline with
  | some c => (c.data, s)
  | none =>
    let s1 := if p.owned = .slice then (s.recall (p.loc / 128) none).touchLine p 0 else s
    let data := s1.read (p.loc / 128 * 128) 128
    (data, s1.icPut { cluster := cluster, part := part, asid := asid, vline := vline, data := data })

/-- The fetch of index p by an agent of a team on a cluster (R50 to R52, R345). A replayable page is a missing page for a fetch (DEDUCED, log
entry 37); one that consumes an uncorrectable error gives code 0x18 (R351). -/
def State.fetch (s : State) (t : Team) (cluster p : Nat) : Fetched :=
  let code := s.codeOf t
  if p ≥ code.1 then .stop 0x08 0
  else
    let va := (code.2.toNat + 16 * p) % 2 ^ 52
    match s.walk cluster t.part t.asid va with
    | .leaf pte big =>
      let q := s.leafPlace t.part pte big va
      if !bit pte 2 || !s.reaches t.part q then .stop 0x08 (BitVec.ofNat 64 va)
      else if !s.flaws.isEmpty && s.flaws.contains (q.loc / 128) && !(s.icache.any fun c => c.isLine cluster t.part t.asid (va / 128)) then
        .stop 0x18 (BitVec.ofNat 64 va)
      else
        let s1 := s.cacheWalk cluster t.part t.asid va
        let l := s1.fetchLine cluster t.part t.asid (va / 128) q
        .word (wordOfBytes ((l.1.drop (va % 128)).take 16)) l.2
    | .fault code => .stop code (BitVec.ofNat 64 va)
    | .replay => .stop 0x07 (BitVec.ofNat 64 va)

/-- What a turn of an agent comes to before any beat: it is done, or an instruction stands at its beats. -/
inductive Prepared where
  | stay (s : State)
  | go (i : Instr) (s : State)

/-- The stop of an arrival before decoding has passed (R49, R51, R52); a stopped group counts as held (R319). -/
def arrivalStop (s : State) (a : AgentId) (act : LaneMask) (code : Byte) (addr : W64) : State :=
  (s.takeFault a { code := code, how := .refetch, lanes := act, addr := addr, write := false }).markHeld a

/-- The lanes that an arrival at P serves: RUN, at depth F and wanting P (R61). -/
def Agent.arrivals (x : Agent) : LaneMask := maskOf (x.atDepth x.f.toNat) fun i => decide ((x.lane i).w = x.p)

/-- Some RUN lane at depth F wants a label behind P (R61). -/
def Agent.behind (x : Agent) : Bool := (x.wants (x.atDepth x.f.toNat)).any fun w => decide (w < x.p.toNat)

/-- The word gates: GATE is set, or the opcode is BAR (R61). -/
def gates (w : Code128) : Bool := w.getLsbD 53 || decide (field w 0 8 = 0x08#8)

/-- The arrival fixed: A(P), the word, the tokens it waits on, and its number (R61, R152). -/
def arrivalOf (act : LaneMask) (w : Code128) (seq : Nat) : Arrival :=
  { a := act, word := w, wk := field w 64 8, released := false, granted := none, pushed := false, noWatch := false, insn := seq, cmd := none, left := none }

/-- The agent at the beats of an instruction. -/
def Agent.atBeats (x : Agent) (act : LaneMask) (w : Code128) (seq : Nat) : Agent :=
  { x with issue := .beats, restart := 0, arr := arrivalOf act w seq, block := none }

/-- A word whose opcode the map reserves (R48). -/
def opcodeReserved (w : Code128) : Bool := (formAt (field w 0 8) default).isNone

/-- An arrival that the gate turns away: the sweep wraps to the lowest wanted label (R61, R63). -/
def Agent.wraps (x : Agent) (gated : Bool) (w : Code128) : Bool := gated && x.isGroup && gates w && x.behind

/-- A gated arrival that does not wrap restarts the Goose timer (R75). -/
def Agent.passGate (x : Agent) (gated : Bool) (w : Code128) (seq : Nat) : Agent :=
  if gated && x.isGroup && gates w then { x.restartGoose seq with gateWrapped := false } else x

/-- An arrival: fetch, gate, A(P), decode (R49, R61). `gated` is false when a resume skips the gate (R290). GATE has no effect on a control thread
(R43). -/
def State.arrive (s : State) (a : AgentId) (t : Team) (x : Agent) (gated : Bool) : Prepared :=
  match s.fetch t (t.cluster.getD 0) x.p.toNat with
  | .stop code _ => .go (.fetchFault code) { s with cur := some a }
  | .word w s1 =>
    if x.wraps gated w then
      let low := (leastOf (x.wants (x.atDepth x.f.toNat))).getD 0
      .stay (s1.setAgent a { { x with n := x.n + 1, gateWrapped := true }.arriveAt low with issue := .arrive true })
    else if opcodeReserved w then .go (.reservedOpcode w) { s with cur := some a }
    else
      let x1 := x.passGate gated w s1.beatSeq
      match decodeFor x.kind x.budget w with
      | .error code => .stay (arrivalStop (s1.setAgent a x1) a x.arrivals code 0)
      | .ok i => .go i { s1.setAgent a (x1.atBeats x.arrivals w s.beatSeq) with cur := some a }

/-- The groups in the active set of a rail of a cluster (R58). -/
def State.activeOn (s : State) (cluster rail : Nat) : Nat :=
  s.teams.foldl (fun n e => if e.2.cluster = some cluster then
    n + (e.2.agents.filter fun g => g.1 != ctlWho && g.2.active && g.2.rail == rail).length else n) 0

/-- An agent issues nothing: it is held at a shed point of a team that is being shed; a control thread also at an instruction boundary once every group
is held; and every agent of a team that is pre-empted, at its next boundary (R299, R319, R320). A group in the midst of a form that issues as a whole
has no boundary before its end, and an agent whose queue read has taken its entry none before that has landed (R57). -/
def Agent.stays (t : Team) (who : Nat) (x : Agent) : Bool :=
  (t.preempt && x.arr.granted.isNone) || (t.saveAsked && (x.held || (decide (who = ctlWho) && (match x.issue with | .arrive _ => true | _ => false) &&
    t.agents.all fun e => decide (e.1 = ctlWho) || e.2.held)))

/-- The agent that stands at an arrival, with its team, where nothing holds it back. -/
def State.arriving (s : State) : Option (AgentId × Team × Agent × Bool) :=
  match s.cur with
  | none => none
  | some a => match s.team a.team, s.agent a with
    | some t, some x => match x.issue with
      | .arrive g => if t.resident && !x.stays t a.who then some (a, t, x, g) else none
      | _ => none
    | _, _ => none

/-- RESERVED_OPCODE: decoding a word whose opcode is reserved raises fault 0x01 (R48, R49). -/
def execReservedOpcode (w : Code128) (s : State) : Next :=
  match s.arriving with
  | none => .next s
  | some (a, t, x, g) => match s.fetch t (t.cluster.getD 0) x.p.toNat with
    | .word v s1 => if v = w ∧ opcodeReserved w = true ∧ x.wraps g w = false then
        .next (arrivalStop (s1.setAgent a (x.passGate g w s1.beatSeq)) a x.arrivals 0x01 0) else .next s
    | .stop _ _ => .next s

/-- FETCH_FAULT: a fetch that fails raises its fault before any decoding (R51, R52). -/
def execFetchFault (code : Byte) (s : State) : Next :=
  match s.arriving with
  | none => .next s
  | some (a, t, x, _) => match s.fetch t (t.cluster.getD 0) x.p.toNat with
    | .stop c addr => if c = code then .next (arrivalStop s a x.arrivals c addr) else .next s
    | .word _ _ => .next s

end Sys2Proof.Machine
end

