-- ==== Sys2Proof/Machine/LaneOps.lean ====
section
/-! DEFINITION. Queue pops and pushes (R12 to R15, R19, R83, R211 to R214, R238) and the one operation through which every register-to-register form
performs: sources in, results, flags and queue entries out. -/

namespace Sys2Proof.Machine

/-! ### Queues -/

/-- Some group of the team has not ended (R213). -/
def Team.groupsRemain (t : Team) : Bool := t.agents.any fun e => decide (e.1 ≠ ctlWho) && !decide (e.2.issue = .ended)

/-- Parked writers that have been let through and have not pushed yet: they keep their room (R15). -/
def Team.letThrough (t : Team) (q : Nat) : Nat :=
  (t.agents.filter fun e => e.2.arr.pushed && decide (e.2.issue = .beats) && decide ((e.2.arr.word.extractLsb' 16 8).toNat = 0xC0 + q)).length

/-- The agents that wait on a queue, in the order in which they reached it (R15). -/
def Team.waiters (t : Team) (q : Nat) : List Nat := Tbl.get [] t.qwait q

/-- The groups, or the control thread, that wait on a queue: one of the two reads it and the other writes it (R12, R15). -/
def Team.waitersLike (t : Team) (q : Nat) (group : Bool) : List Nat := (t.waiters q).filter fun w => decide (w ≠ ctlWho) == group

/-- Lines of the ring of a bound feed queue (R216). -/
def ringLines (bind : W64) : Nat := bits bind 37 24
/-- The first line of the ring (R216). -/
def ringStart (bind : W64) : Nat := bits bind 20 8
/-- V of a binding (R216). -/
def bound (bind : W64) : Bool := bit bind 7
/-- The binding of a feed or drain queue (R215). -/
def Team.bind (t : Team) (q : Nat) : W64 := Tbl.get 0 t.qbind q
/-- The ring of a bound feed queue. -/
def Team.ring (t : Team) (q : Nat) : Ring := (Tbl.find? t.rings q).getD ⟨0, 0, 0⟩

/-- What a queue read finds. -/
inductive Pop where
  | entry (word : W64) (cseq : W32) (bytes : List Byte) (t : Team)
  | fault
  | park
deriving Repr, Inhabited

/-- A queue read by an agent (R15, R83, R213). -/
def popQueue (t : Team) (x : Agent) (q : Nat) : Pop :=
  match x.arr.granted with
  | some (w, c, bs) => .entry w c bs t
  | none =>
    if 12 ≤ q ∧ q ≤ 13 then
      if !bound (t.bind q) then .fault
      else match Tbl.get [] t.drain q, t.waitersLike q x.isGroup with
        | e :: es, [] => .entry 0 0 e { t with drain := Tbl.put [] t.drain q es }
        | _, _ => .park
    else match t.queue q, t.waitersLike q x.isGroup with
      | (w, c) :: es, [] =>
        let t1 := t.setQueue q es
        .entry w c [] (if q = 15 then t1.flush else t1)
      | [], _ =>
        if q ≤ 3 ∧ t.ctlGone = true then .fault
        else if 4 ≤ q ∧ q ≤ 7 ∧ t.groupsRemain = false then .fault
        else .park
      | _, _ => .park

/-- What a queue write does. -/
inductive Push where
  | ok (s : State)
  | fault
  | park
deriving Inhabited

/-- The 128-byte entry of a feed push: lane i supplies bytes 4i to 4i + 3, the others zero (R14). -/
def feedEntry (vals : List (Nat × W64)) : List Byte :=
  lanes32.flatMap fun i => match vals.find? fun e => e.1 == i with
    | some e => toBytes 4 (e.2.toNat % 2 ^ 32)
    | none => [0, 0, 0, 0]

/-- A queue write by an agent: a word, or lane values for a feed queue (R14, R15, R83, R213, R238). -/
def pushQueue (s : State) (team : Nat) (t : Team) (x : Agent) (q : Nat) (word : W64) (vals : List (Nat × W64)) : Push :=
  let mine := x.arr.pushed
  if q < 8 then
    if 4 ≤ q ∧ t.ctlGone = true then .ok s
    else if (t.queue q).length + (if mine then 0 else t.letThrough q) < 64 ∧ (mine = true ∨ t.waitersLike q x.isGroup = []) then
      .ok (s.modTeam team fun t => t.setQueue q (t.queue q ++ [(word, t.cseq)]))
    else if q ≤ 3 ∧ t.groupsRemain = false then .fault
    else .park
  else
    let bd := t.bind q
    let r := t.ring q
    if !bound bd then .fault
    else if r.fill + (if mine then 0 else t.letThrough q) < ringLines bd ∧ (mine = true ∨ t.waitersLike q x.isGroup = []) then
      match Tbl.find? t.ranges (bits bd 3 0) with
      | none => .fault
      | some g =>
        let s1 := s.poke (obLoc team ((g.first + r.wc) * 128)) (feedEntry vals)
        let r1 : Ring := { wc := ringStart bd + (r.wc - ringStart bd + 1) % ringLines bd, rd := r.rd, fill := r.fill + 1 }
        .ok (s1.modTeam team fun t => { t with rings := Tbl.ins t.rings q r1 })
    else .park

/-- The agent parks on a queue, its read's destinations empty (R15, R54). -/
def parkOnQueue (s : State) (b : Beat) (q : Nat) (marks : List RegWrite) : State :=
  let s1 := s.modAgent b.a fun x => 
    { (((x.restartGoose s.beatSeq).blockOn (s.railTime b.a.team x) .queue).emptyAll marks) with issue := .queue, restart := 0 }
  s1.modTeam b.a.team fun t => { t with qwait := Tbl.put [] t.qwait q (t.waiters q ++ [b.a.who]) }

/-! ### Register-to-register forms -/

/-- The source values of a lane: A, B, C, the old D, E, and the predicates that A, B and C may name. -/
structure Vals where
  a : W64
  b : W64
  c : W64
  d : W64
  pa : Bool
  pb : Bool
  pc : Bool
deriving DecidableEq, Repr, Inhabited

/-- The results of a lane: D as a value or a predicate, E as a predicate, and flags; or D left as it is (R118). -/
structure Res where
  d : W64
  e : Option Bool
  fl : FpFlags
  keep : Bool := false
deriving DecidableEq, Repr, Inhabited

/-- A value result without flags. -/
def resV (x : W64) : Res := { d := x, e := none, fl := 0 }
/-- A value result with flags. -/
def resF (x : W64 × FpFlags) : Res := { d := x.1, e := none, fl := x.2 }
/-- A predicate result with flags. -/
def resP (b : Bool) (fl : FpFlags) : Res := { d := BitVec.ofNat 64 (b2n b), e := none, fl := fl }

/-- The value that a queue source supplies to a lane: the word, or the lane's part of a drain entry (R14). -/
def queueVal (word : W64) (bytes : List Byte) (lane : Nat) : W64 :=
  if bytes = [] then word else BitVec.ofNat 64 (ofBytes ((bytes.drop (4 * lane)).take 4))

/-- The source values of a lane. -/
def valsOf (b : Beat) (word : W64) (bytes : List Byte) (lane : Nat) : Vals :=
  let rd := fun (s : Slot) (o : Operand) => readOp b.x lane (slotWidth s) b.signed b.f.imm (queueVal word bytes lane) o
  let pr := fun (o : Operand) => match o with | .p r => b.x.getP r.toNat lane | _ => false
  { a := rd b.row.a b.f.a, b := rd b.row.b b.f.b, c := rd b.row.c b.f.c, d := rd b.row.d b.f.d,
    pa := pr b.f.a, pb := pr b.f.b, pc := pr b.f.c }

/-- The writes of a lane's results to D and E. -/
def resWrites (b : Beat) (lane : Nat) (r : Res) : List RegWrite :=
  (if r.keep then [] else destWrites (slotWidth b.row.d) lane r.d b.f.d) ++
    (match r.e, b.f.e with | some p, .p n => [.p n.toNat lane p] | _, _ => [])

/-- The lanes that an instruction computes for: one for a uniform instruction, the lowest of A(P) (R42). -/
def Beat.lanes (b : Beat) : List Nat := if b.f.uni then [lowestLane b.act] else lanesIn b.perf

/-- The writes of all lanes' results: a uniform result goes to every lane of A(P) (R42). -/
def spread (b : Beat) (rs : List (Nat × Res)) : List RegWrite :=
  if b.f.uni then
    match rs with
    | (_, r) :: _ => (lanesIn b.act).flatMap fun l => resWrites b l r
    | [] => []
  else rs.flatMap fun e => resWrites b e.1 e.2

/-- Writes delivered: now and full, or as a long-latency result that empties its destinations until it lands (R54). -/
def deliverWrites (long : Bool) (ws : List RegWrite) (x : Agent) : Agent :=
  if long then (x.emptyAll ws).addPending (Pending.result ws) else x.writeAll ws

/-- The lanes' results delivered: flags at once (R109), a queue destination pushed, registers written. -/
def finishLanes (b : Beat) (long : Bool) (s : State) (rs : List (Nat × Res)) : Out :=
  let fl := rs.foldl (fun m e => m ||| e.2.fl) (0 : FpFlags)
  let s1 := s.modAgent b.a fun x => deliverWrites long (spread b rs) { x with fp := x.fp ||| fl }
  match b.f.d, b.row.d with
  | .q n, .val true _ _ _ _ _ _ _ =>
    let word := match rs with | e :: _ => e.2.d | [] => 0
    match pushQueue s1 b.a.team b.t b.x n.toNat word (rs.map fun e => (e.1, e.2.d)) with
    | .ok s2 => .done (s2.modAgent b.a fun x => { x with arr := { x.arr with pushed := false } })
    | .fault => .fault (beatFault 0x0D b.perf 0 false)
    | .park => .block .queue
  | _, _ => .done s1

/-- What follows the pop of a queue source, if the form has one: the entry's word and bytes are handed on (R15). A queue park leaves the lanes at P
and the destinations `marks` empty. `s0` is the state before the beat. -/
def withQueue (s0 : State) (b : Beat) (s : State) (marks : List RegWrite) (k : W64 → List Byte → State → Out) : Out :=
  match quseOf b.row b.f with
  | .read q _ =>
    match popQueue b.t b.x q.toNat with
    | .fault => .fault (beatFault 0x0D b.perf 0 false)
    | .park => .wait (parkOnQueue s0 b q.toNat marks)
    | .entry w c bs t1 =>
      let s1 := s.modTeam b.a.team fun t => { t with q := t1.q, drain := t1.drain, heldEvents := t1.heldEvents }
      k w bs (s1.modAgent b.a fun x =>
        { x with cseq := if x.isGroup && decide (q.toNat ≤ 3) then c else x.cseq, arr := { x.arr with granted := none } })
  | _ => k 0 [] s

/-- Results delivered, or the writer parked on a full queue (R15). -/
def finishOrPark (s0 : State) (b : Beat) (long : Bool) (s : State) (rs : List (Nat × Res)) : Out :=
  match quseOf b.row b.f with
  | .write q _ => match finishLanes b long s rs with
    | .block _ => .wait (parkOnQueue s0 b q.toNat [])
    | o => o
  | _ => finishLanes b long s rs

/-- The body of a register-to-register form: a queue source is popped first (R15); then each lane's results are formed and delivered. -/
def laneBody (s0 : State) (long : Bool) (op : Vals → Res) (b : Beat) (s : State) : Out :=
  if b.perf = 0 then .done s
  else withQueue s0 b s (spread b (b.lanes.map fun l => (l, { d := 0, e := some false, fl := 0 }))) fun w bs s1 =>
    finishOrPark s0 b long s1 (b.lanes.map fun l => (l, op (valsOf b w bs l)))

/-- A register-to-register form: per lane, or as a whole when uniform or with a queue (R64, R69, R71). -/
def laneOp (i : Instr) (f : Fields) (long : Bool) (op : Vals → Res) (s : State) : Host.Outcome State Fault Refusal :=
  issueBeat i f s (laneBody s long op)

end Sys2Proof.Machine
end

