-- ==== Sys2Proof/Machine/Integer.lean ====
section
/-! DEFINITION. Integer and logic instructions (R94 to R104). -/

namespace Sys2Proof.Machine

/-- ADD (R97). -/
def execAdd (f : Fields) (s : State) : Next :=
  laneOp (.add f) f false (fun v => resV (aluAdd f.ty f.sat v.a v.b)) s

/-- SUB (R97). -/
def execSub (f : Fields) (s : State) : Next :=
  laneOp (.sub f) f false (fun v => resV (aluSub f.ty f.sat v.a v.b)) s

/-- MUL (R97). -/
def execMul (f : Fields) (s : State) : Next :=
  laneOp (.mul f) f false (fun v => resV (aluMul f.ty f.sat v.a v.b)) s

/-- MULH (R97). -/
def execMulh (f : Fields) (s : State) : Next :=
  laneOp (.mulh f) f false (fun v => resV (aluMulh f.ty v.a v.b)) s

/-- MAD (R97). -/
def execMad (f : Fields) (s : State) : Next :=
  laneOp (.mad f) f false (fun v => resV (aluMad f.ty f.sat v.a v.b v.c)) s

/-- DIV (R97); its destination is empty until the result lands (R54). -/
def execDiv (f : Fields) (s : State) : Next :=
  laneOp (.div f) f true (fun v => resV (aluDiv f.ty v.a v.b)) s

/-- REM (R97); its destination is empty until the result lands (R54). -/
def execRem (f : Fields) (s : State) : Next :=
  laneOp (.rem f) f true (fun v => resV (aluRem f.ty v.a v.b)) s

/-- MIN (R97). -/
def execMin (f : Fields) (s : State) : Next :=
  laneOp (.min f) f false (fun v => resV (aluMin f.ty v.a v.b)) s

/-- MAX (R97). -/
def execMax (f : Fields) (s : State) : Next :=
  laneOp (.max f) f false (fun v => resV (aluMax f.ty v.a v.b)) s

/-- ABS (R97). -/
def execAbs (f : Fields) (s : State) : Next :=
  laneOp (.abs f) f false (fun v => resV (aluAbs f.ty f.sat v.a)) s

/-- AND (R97). -/
def execAnd (f : Fields) (s : State) : Next :=
  laneOp (.and f) f false (fun v => resV (aluAnd f.ty v.a v.b)) s

/-- OR (R97). -/
def execOr (f : Fields) (s : State) : Next :=
  laneOp (.or f) f false (fun v => resV (aluOr f.ty v.a v.b)) s

/-- XOR (R97). -/
def execXor (f : Fields) (s : State) : Next :=
  laneOp (.xor f) f false (fun v => resV (aluXor f.ty v.a v.b)) s

/-- ANDN (R97). -/
def execAndn (f : Fields) (s : State) : Next :=
  laneOp (.andn f) f false (fun v => resV (aluAndn f.ty v.a v.b)) s

/-- NOT (R97). -/
def execNot (f : Fields) (s : State) : Next :=
  laneOp (.not f) f false (fun v => resV (aluNot f.ty v.a)) s

/-- SHL (R97). -/
def execShl (f : Fields) (s : State) : Next :=
  laneOp (.shl f) f false (fun v => resV (aluShl f.ty v.a v.b)) s

/-- SHR (R97). -/
def execShr (f : Fields) (s : State) : Next :=
  laneOp (.shr f) f false (fun v => resV (aluShr f.ty v.a v.b)) s

/-- SAR (R97). -/
def execSar (f : Fields) (s : State) : Next :=
  laneOp (.sar f) f false (fun v => resV (aluSar f.ty v.a v.b)) s

/-- ROT (R97). -/
def execRot (f : Fields) (s : State) : Next :=
  laneOp (.rot f) f false (fun v => resV (aluRot f.ty v.a v.b)) s

/-- POPC (R97). -/
def execPopc (f : Fields) (s : State) : Next :=
  laneOp (.popc f) f false (fun v => resV (aluPopc f.ty v.a)) s

/-- CLZ (R97). -/
def execClz (f : Fields) (s : State) : Next :=
  laneOp (.clz f) f false (fun v => resV (aluClz f.ty v.a)) s

/-- CTZ (R97). -/
def execCtz (f : Fields) (s : State) : Next :=
  laneOp (.ctz f) f false (fun v => resV (aluCtz f.ty v.a)) s

/-- BREV (R97). -/
def execBrev (f : Fields) (s : State) : Next :=
  laneOp (.brev f) f false (fun v => resV (aluBrev f.ty v.a)) s

/-- BFX (R98). -/
def execBfx (f : Fields) (s : State) : Next :=
  laneOp (.bfx f) f false (fun v => resV (aluBfx f.ty v.a v.b)) s

/-- BFI (R98). -/
def execBfi (f : Fields) (s : State) : Next :=
  laneOp (.bfi f) f false (fun v => resV (aluBfi f.ty v.a v.b v.c)) s

/-- LEA (R99). -/
def execLea (f : Fields) (s : State) : Next :=
  laneOp (.lea f) f false (fun v => resV (aluLea f.ty v.a v.b v.c)) s

/-- SEL (R100). -/
def execSel (f : Fields) (s : State) : Next :=
  laneOp (.sel f) f false (fun v => resV (if v.pc then lowBits (tyWidth f.ty) v.a else lowBits (tyWidth f.ty) v.b)) s

/-- MOV (R97). -/
def execMov (f : Fields) (s : State) : Next :=
  laneOp (.mov f) f false (fun v => resV (lowBits (tyWidth f.ty) v.a)) s

/-- SETP (R101). -/
def execSetp (f : Fields) (s : State) : Next :=
  laneOp (.setp f) f false (fun v => resP (aluCompare f.fn f.ty v.a v.b) 0) s

/-- PLOG (R102). -/
def execPlog (f : Fields) (s : State) : Next :=
  laneOp (.plog f) f false (fun v => resP (aluPlog f.imm v.pa v.pb) 0) s

/-- ADDX (R103). -/
def execAddx (f : Fields) (s : State) : Next :=
  laneOp (.addx f) f false (fun v =>
    let r := aluAddx f.ty v.a v.b v.pc
    { d := r.1, e := some r.2, fl := 0 }) s

/-- IDP4 (R104). -/
def execIdp4 (f : Fields) (s : State) : Next :=
  laneOp (.idp4 f) f false (fun v => resV (aluIdp4 f.ty f.sat v.a v.b v.c)) s

end Sys2Proof.Machine
end

