-- ==== Sys2Proof/Machine/Flow.lean ====
section
/-! DEFINITION. Sweep and synchronisation instructions (R78 to R92, R65, R66) but for WAIT, NAP and LAUNCH. -/

namespace Sys2Proof.Machine

/-- Lanes of an agent changed. -/
def State.modLanes (s : State) (a : AgentId) (lanes : List Nat) (f : Nat → LaneRec → LaneRec) : State :=
  s.modAgent a fun x => lanes.foldl (fun y i => y.modLane i (f i)) x

/-- The jump target in IMM (R78). -/
def immTarget (f : Fields) : Label := f.imm.setWidth 28

/-- The A operand of JR and CALLR for a lane: its v register, or all of an s or c register (R80). A uniform instruction reads a v register in the
lowest lane of A(P) (R42). -/
def targetVal (b : Beat) (lane : Nat) : W64 :=
  match b.f.a with
  | .v r => (b.x.getV (if b.f.uni then lowestLane b.act else lane) r.toNat).setWidth 64
  | .u r => b.x.getU r.toNat
  | _ => 0

/-- The performing lanes whose register target does not fit 28 bits (R80). -/
def badTargets (b : Beat) : LaneMask := maskOf (lanesIn b.perf) fun i => decide ((targetVal b i).toNat ≥ 2 ^ 28)

/-- NOP (R84). -/
def execNop (f : Fields) (s : State) : Next :=
  issueBeat (.nop f) f s fun _ s1 => .done s1

/-- J: FN 0 unconditional, FN 1 when A ≠ 0, FN 2 when A = 0 (R80). -/
def execJ (f : Fields) (s : State) : Next :=
  issueBeat (.j f) f s fun b s1 =>
    let v := targetVal b 0
    let taken := decide (f.fn = 0) || (decide (f.fn = 1) && decide (v ≠ 0)) || (decide (f.fn = 2) && decide (v = 0))
    if taken then .done (s1.modLanes b.a (lanesIn b.perf) fun _ l => { l with w := immTarget f }) else .done s1

/-- JR (R80). -/
def execJr (f : Fields) (s : State) : Next :=
  issueBeat (.jr f) f s fun b s1 =>
    if badTargets b ≠ 0 then .fault (beatFault 0x08 (badTargets b) 0 false)
    else .done (s1.modLanes b.a (lanesIn b.perf) fun i l => { l with w := (targetVal b i).setWidth 28 })

/-! ### Links (R65, R66) -/

/-- What the sequencer's access to a word of a lane's local window comes to. -/
inductive SeqTry where
  | ok
  | fault (code : Byte) (va : Nat)
  | replay (va page : Nat)
deriving DecidableEq, Repr, Inhabited

/-- The translation and permission of a spill or fill word, and whether a peer access is configured (R66, R292, R345). -/
def seqTry (s : State) (t : Team) (who lane off : Nat) (write : Bool) : SeqTry :=
  match s.ctx t.part t.asid with
  | none => .fault 0x07 0
  | some c =>
    let va := localVaOf c t.slot who lane off % 2 ^ 52
    match s.walk (t.cluster.getD 0) t.part t.asid va with
    | .leaf pte big =>
      if !s.reaches t.part (s.leafPlace t.part pte big va) then .fault 0x08 va
      else if write && !bit pte 1 then (if writeReplays pte then .replay va (pageOf big va) else .fault 0x08 va)
      else .ok
    | .fault c => .fault c va
    | .replay => .replay va (va / 65536)

/-- The first of a list of spills and fills (lane, offset, write) that does not translate, with its lane. -/
def firstBad (s : State) (t : Team) (who : Nat) : List (Nat × Nat × Bool) → Option (Nat × SeqTry)
  | [] => none
  | (lane, off, wr) :: rest => match seqTry s t who lane off wr with
    | .ok => firstBad s t who rest
    | bad => some (lane, bad)

/-- The fault of a spill or fill that does not translate (R66). -/
def seqFault (lane : Nat) (write : Bool) : SeqTry → Out
  | .ok => .block .empty
  | .fault code va => .fault (beatFault code (1#32 <<< lane) (BitVec.ofNat 64 va) write)
  | .replay va page => .replay (beatFault 0x19 (1#32 <<< lane) (BitVec.ofNat 64 va) write) page

/-- The lowest link held in hardware. -/
def lowestLink (m : Tbl Label) : Nat := match m with | (k, _) :: _ => k | [] => 0

/-- The words that a call of some lanes spills: the lowest held link of a lane that holds eight, and lane 0's frame word for a depth of 16 or
more (R66). -/
def callSpills (b : Beat) : List (Nat × Nat × Bool) :=
  if !b.x.isGroup then []
  else (lanesIn b.perf).flatMap fun i =>
    let l := b.x.lane i
    (if l.link.length ≥ 8 then [(i, 4 * lowestLink l.link, true)] else []) ++
      (if l.d.toNat ≥ 16 then [(0, 1024 + 4 * l.d.toNat, true)] else [])

/-- A link pushed by a lane, its lowest held link spilled when it holds eight (R66). -/
def pushLink (s : State) (b : Beat) (i : Nat) : State :=
  let l := b.x.lane i
  if b.x.isGroup && decide (l.link.length ≥ 8) then
    let k := lowestLink l.link
    let s1 := seqWrite s b.t b.a.who i (4 * k) ((Tbl.find? l.link k).getD 0)
    s1.modLanes b.a [i] fun _ y => { y with link := Tbl.ins (Tbl.del y.link k) l.d.toNat (b.x.p + 1), d := y.d + 1 }
  else s.modLanes b.a [i] fun _ y => { y with link := Tbl.ins y.link l.d.toNat (b.x.p + 1), d := y.d + 1 }

/-- The calls of a beat: to a target for each lane (R65, R80). -/
def callBody (target : Beat → Nat → Label) (b : Beat) (s : State) : Out :=
  let deep := maskOf (lanesIn b.perf) fun i => decide ((b.x.lane i).d = 255)
  if deep ≠ 0 then .fault (beatFault 0x0C deep 0 false)
  else match firstBad s b.t b.a.who (callSpills b) with
    | some (lane, bad) => seqFault lane true bad
    | none => .done ((lanesIn b.perf).foldl (fun u i => (pushLink u b i).modLanes b.a [i] fun _ l => { l with w := target b i }) s)

/-- CALL (R80). -/
def execCall (f : Fields) (s : State) : Next :=
  issueBeat (.call f) f s (callBody fun _ _ => immTarget f)

/-- CALLR (R80). -/
def execCallr (f : Fields) (s : State) : Next :=
  issueBeat (.callr f) f s fun b s1 =>
    if badTargets b ≠ 0 then .fault (beatFault 0x08 (badTargets b) 0 false)
    else callBody (fun b i => (targetVal b i).setWidth 28) b s1

/-- The words that a return of some lanes fills: a link not held in hardware, and lane 0's frame word of a depth that has been spilled (R66). -/
def retFills (b : Beat) : List (Nat × Nat × Bool) :=
  if !b.x.isGroup then []
  else (lanesIn b.perf).flatMap fun i =>
    let d := (b.x.lane i).d.toNat - 1
    (if (Tbl.find? (b.x.lane i).link d).isNone then [(i, 4 * d, false)] else []) ++ (if Tbl.get false b.x.spilled d then [(0, 1024 + 4 * d, false)] else [])

/-- The link that a lane's return pops (R66, R81). -/
def popLink (s : State) (b : Beat) (i : Nat) : Label :=
  let d := (b.x.lane i).d.toNat - 1
  match Tbl.find? (b.x.lane i).link d with
  | some w => w
  | none => if b.x.isGroup then seqRead s b.t b.a.who i (4 * d) else 0

/-- RET (R65, R80, R81). -/
def execRet (f : Fields) (s : State) : Next :=
  issueBeat (.ret f) f s fun b s1 =>
    let top := maskOf (lanesIn b.perf) fun i => decide ((b.x.lane i).d = 0)
    if top ≠ 0 then .fault (beatFault 0x0C top 0 false)
    else match firstBad s1 b.t b.a.who (retFills b) with
      | some (lane, bad) => seqFault lane false bad
      | none => .done (s1.modLanes b.a (lanesIn b.perf) fun i l =>
          { l with w := popLink s1 b i, d := l.d - 1, link := Tbl.del l.link (l.d.toNat - 1) })

/-! ### Ends, yields, tokens -/

/-- EXIT (R82, R83): the performing lanes are DONE and drop depth and links; on a control thread the thread ends. -/
def execExit (f : Fields) (s : State) : Next :=
  issueBeat (.exit f) f s fun b s1 =>
    let s2 := s1.modLanes b.a (lanesIn b.perf) fun i l => { l with w := (b.x.lane i).w, s := .done, d := 0, link := [] }
    if b.x.isGroup || decide (b.perf = 0) then .done s2 else .done (s2.modTeam b.a.team fun t => { t with ctlGone := true })

/-- The agent takes the youngest age rank, and its Goose timer restarts with this beat; a control thread's run ends (R73, R85, R208). -/
def State.yieldRank (s : State) (a : AgentId) : State :=
  { s.modAgent a fun x => { x.restartGoose (s.beatSeq + 1) with rank := s.rankSeq } with rankSeq := s.rankSeq + 1 }

/-- A YIELD is a shed point, whatever its lanes' predicates hold: an agent of a team that is being shed is held there (R85, R319). -/
def State.yieldPoint (s : State) (a : AgentId) : State :=
  let shed := ((s.team a.team).map fun t => t.saveAsked).getD false
  s.modAgent a fun x => { x with held := x.held || shed }

/-- YIELD (R85): its effect on rank and timer needs a performing lane. -/
def execYield (f : Fields) (s : State) : Next :=
  issueBeat (.yield f) f s fun b s1 =>
    let s2 := s1.yieldPoint b.a
    .done (if b.perf = 0 then s2 else s2.yieldRank b.a)

/-- WTOK: the wait on its tokens and nothing else (R16, R193). -/
def execWtok (f : Fields) (s : State) : Next :=
  issueBeat (.wtok f) f s fun _ s1 => .done s1

/-! ### Barriers (R86 to R91) -/

/-- The group waits in a barrier: its lanes stay at P, and its Goose timer restarts (R75, R87). `s0` is the state before the beat. -/
def State.waitAt (s0 : State) (b : Beat) : State :=
  s0.modAgent b.a fun x =>
    { (x.restartGoose s0.beatSeq).blockOn (s0.railTime b.a.team x) .barrier with issue := .barrier, restart := 0 }

/-- A barrier state with one more arrival. -/
def Bar.arrive (old : Option Bar) (n : Nat) (waiter : Option Nat) : Bar :=
  let k := old.getD { armed := true, count := n, arrived := 0, waiters := [] }
  { k with arrived := k.arrived + 1, waiters := match waiter with | some g => k.waiters ++ [g] | none => k.waiters }

/-- BAR (R87). -/
def execBar (f : Fields) (s : State) : Next :=
  issueBeat (.bar f) f s fun b _ =>
    let s1 := (s.waitAt b).modTeam b.a.team fun t => { t with bars := Tbl.ins t.bars 16 (Bar.arrive (Tbl.find? t.bars 16) 0 (some b.a.who)) }
    .left (s1.settle b.a.team)

/-- The count of a named barrier: an s register or IMM (R89). -/
def barCount (b : Beat) : Nat :=
  match b.f.a with
  | .u r => (b.x.getU r.toNat).toNat
  | _ => b.f.imm.toNat

/-- The arrival of a group at a named barrier refused (R89). -/
def barRefused (b : Beat) : Bool :=
  let n := barCount b
  decide (n < 1) || decide (n > 128) || (match Tbl.find? b.t.bars b.f.fn.toNat with | some k => decide (k.count ≠ n) | none => false)

/-- The arrival counted; it releases the phase when it is the last (R89). -/
def State.arriveNamed (s : State) (b : Beat) (waits : Bool) : State :=
  let k := Bar.arrive (Tbl.find? b.t.bars b.f.fn.toNat) (barCount b) (if waits then some b.a.who else none)
  let s1 := s.modTeam b.a.team fun t => { t with bars := Tbl.ins t.bars b.f.fn.toNat k }
  if k.arrived = k.count then s1.releaseBar b.a.team b.f.fn.toNat else s1

/-- BARN: arrive and wait (R89). -/
def execBarn (f : Fields) (s : State) : Next :=
  issueBeat (.barn f) f s fun b _ =>
    if barRefused b then .fault (beatFault 0x0B b.act 0 false) else .left ((s.waitAt b).arriveNamed b true)

/-- BARA: arrive and go on (R89). -/
def execBara (f : Fields) (s : State) : Next :=
  issueBeat (.bara f) f s fun b s1 =>
    if barRefused b then .fault (beatFault 0x0B b.act 0 false) else .done (s1.arriveNamed b false)

/-! ### TRAP (R92) -/

/-- A stop after the instruction for its performing lanes: the lanes go to P + 1, and the resume goes on by census (R92). -/
def stopAfter (code : Byte) (b : Beat) (s : State) : Out :=
  if b.perf = 0 then .done s
  else .left ((s.modAgent b.a fun x => { x with restart := 0 }).takeFault b.a
    { code := code, how := .census, lanes := b.perf, addr := b.f.imm.setWidth 64, write := false })

/-- TRAP (R92). -/
def execTrap (f : Fields) (s : State) : Next :=
  issueBeat (.trap f) f s (stopAfter 0x15)

end Sys2Proof.Machine
end

