-- ==== Sys2Proof/Machine/Trace.lean ====
section
/-! DEFINITION. The replay log and the replay run (R334, R335), and BRK with its trace record (R92, R329). -/

namespace Sys2Proof.Machine

/-! ### The replay log (R334) -/

/-- TCTL of a team's context (R327). -/
def State.tctlOf (s : State) (t : Team) : W64 :=
  match s.ctx t.part t.asid with
  | some c => (s.debugOf t.part c.idx).tctl
  | none => 0

/-- A full log stalls (R327). -/
def stalls (ctl : W64) : Bool := bit ctl 3
/-- The team takes its values from its log (R335). -/
def replaying (ctl : W64) : Bool := bit ctl 4
/-- Records whose values are still on their way: atomics' replies and parked lanes' wakes, one for the lanes of a uniform WAIT (R334). -/
def Team.logInFlight (t : Team) : Nat :=
  t.agents.foldl (fun n e => e.2.pend.foldl (fun m p => m + p.2.log.length)
    (n + (e.2.laneNos.filter fun i => decide ((e.2.lane i).s = .mon) && decide (lowestLane (e.2.lane i).mates = i)).length)) 0

/-- Room for n more records; a log that does not stall always takes them (R334). -/
def State.logRoom (s : State) (t : Team) (n : Nat) : Bool :=
  let ctl := s.tctlOf t
  !(logging ctl t && stalls ctl) || decide (t.logWr + t.logInFlight + n ≤ s.logReadIndex t + logSize ctl)

/-- An agent's logged values enter the log in the order of its instructions: one whose value lands at once, or later by a wake, waits for the atomics'
replies that are still on their way (R334, R335; log entry 36). -/
def State.logReady (s : State) (t : Team) (x : Agent) : Bool := !logging (s.tctlOf t) t || x.pend.all fun e => e.2.log.isEmpty

/-- A record enters a team's log; a full log that does not stall ends with a kind 0x13 record in its last slot (R334). -/
def State.logPut (s : State) (team : Nat) (r : Nguxis) : State :=
  match s.team team with
  | none => s
  | some t =>
    let ctl := s.tctlOf t
    if !logging ctl t then s
    else match s.ctx t.part t.asid with
      | none => s
      | some c =>
        let size := logSize ctl
        let at' := fun (k : Nat) => logVa c t + 32 * (k % size)
        let unit := t.cluster.getD 0
        if t.logWr ≥ s.logReadIndex t + size then
          let s1 := (s.deviceWrite unit t.part t.asid (at' (t.logWr - 1)) ({ r with kind := 0x13, p0 := 0, p1 := 0 }.encode s.dtime)).getD s
          s1.modTeam team fun t => { t with logEnd := true }
        else
          let s1 := (s.deviceWrite unit t.part t.asid (at' t.logWr) (r.encode s.dtime)).getD s
          s1.modTeam team fun t => { t with logWr := t.logWr + 1 }

/-- The record of a value of an agent: kind 0x10 to 0x12, lane and value (R328). -/
def valueRec (t : Team) (who : Nat) (x : Agent) (kind : Byte) (p0 : W32) (p1 : W64) : Nguxis := siteRec t who x.site kind p0 p1

/-- The bytes of the next logged record (R335). -/
def State.logNext (s : State) (t : Team) : List Byte :=
  match s.ctx t.part t.asid with
  | some c => s.deviceRead t (logVa c t + 32 * (t.logRd % logSize (s.tctlOf t))) 32
  | none => []

/-- A logged record is one of an agent: kind, program counter, CSEQ, group and thread mark agree (R335). -/
def recMatches (r : List Byte) (who : Nat) (x : Agent) (kind : Byte) : Bool :=
  let n := ofBytes r
  n % 256 == kind.toNat && n / 2 ^ 36 % 2 ^ 28 == x.p.toNat && n / 2 ^ 128 % 2 ^ 32 == x.cseq.toNat
    && n / 2 ^ 17 % 128 == whoGroup who && n / 2 ^ 16 % 2 == b2n (decide (who = ctlWho))

/-- A logged record stands for an agent. -/
def recOwner (r : List Byte) (who : Nat) : Bool :=
  let n := ofBytes r
  n / 2 ^ 17 % 128 == whoGroup who && n / 2 ^ 16 % 2 == b2n (decide (who = ctlWho))

/-- A logged value: P0, P1 and DTIME. -/
structure Logged where
  p0 : W32
  p1 : W64
  dtime : Nat
deriving DecidableEq, Repr, Inhabited

/-- The values of a logged record. -/
def loggedOf (r : List Byte) : Logged :=
  let n := ofBytes r
  { p0 := BitVec.ofNat 32 (n / 2 ^ 160), p1 := BitVec.ofNat 64 (n / 2 ^ 192), dtime := n / 2 ^ 64 % 2 ^ 64 }

/-- What an agent finds in its team's log (R335). -/
inductive LogTake where
  /-- The values of its lanes, and the state with the records consumed. -/
  | taken (l : List Logged) (s : State)
  /-- The next record is another agent's, or the wake of a lane of its own. -/
  | wait
  /-- The next record is its own and of another site, kind or lane. -/
  | differs
deriving Inhabited

/-- Whether a record stands for some agent of a team other than one (R328, R335). -/
def Team.recOther (t : Team) (r : List Byte) (who : Nat) : Bool := t.agents.any fun e => e.1 != who && recOwner r e.1

/-- A record is the wake of a lane of the agent that a replay run holds (R335). -/
def Agent.recWake (x : Agent) (r : List Byte) (who : Nat) : Bool := x.laneNos.any fun i =>
  (x.lane i).held && recMatches r who { x with p := (x.lane i).site.pc, cseq := (x.lane i).site.cseq } 0x11

/-- The values of some lanes taken from a team's log for an agent, in log order (R334, R335). -/
def State.logTake (s : State) (a : AgentId) (x : Agent) (kind : Byte) : List Nat → LogTake
  | [] => .taken [] s
  | lane :: lanes => match s.team a.team with
    | none => .differs
    | some t =>
      let r := s.logNext t
      if recMatches r a.who x kind && decide ((loggedOf r).p0.toNat % 2 ^ 31 = lane) then
        match (s.modTeam a.team fun t => { t with logRd := t.logRd + 1 }).logTake a x kind lanes with
        | .taken ls s1 => .taken (loggedOf r :: ls) s1
        | o => o
      else if (t.recOther r a.who && decide (ofBytes r % 256 ≠ 0x13)) || x.recWake r a.who then .wait
      else .differs

/-! ### BRK -/

/-- A BRK whose tag matches BKTAG writes a kind 0x03 record while a session is open (R329). -/
def State.traceBreak (s : State) (t : Team) (who : Nat) (x : Agent) (tag : W32) (lanes : LaneMask) : State :=
  match s.ctx t.part t.asid with
  | none => s
  | some c =>
    let d := s.debugOf t.part c.idx
    let mask : W32 := (d.bkTag >>> 32).setWidth 32
    if tag &&& mask = d.bkTag.setWidth 32 &&& mask then s.trace t.part t.asid (siteRec t who x.site 0x03 tag (lanes.setWidth 64)) else s

/-- The stop of a BRK with tag 0xFFFFFFFF, which a replay run makes where it leaves its log (R335). -/
def State.breakReplay (s : State) (a : AgentId) (t : Team) (x : Agent) (lanes : LaneMask) : State :=
  (s.traceBreak t a.who x 0xFFFFFFFF lanes).takeFault a { code := 0x14, how := .census, lanes := lanes, addr := 0xFFFFFFFF, write := false }

/-- The stop of an agent whose replay leaves its log at an instruction (R335). -/
def replayStop (b : Beat) (s : State) : Out :=
  .left ((s.modAgent b.a fun x => { (x.advance b.x.arr.a) with restart := 0 }).breakReplay b.a b.t b.x b.perf)

/-- BRK (R92, R329). -/
def execBrk (f : Fields) (s : State) : Next :=
  issueBeat (.brk f) f s fun b s1 =>
    stopAfter 0x14 b (if b.perf = 0 then s1 else s1.traceBreak b.t b.a.who b.x f.imm b.perf)

end Sys2Proof.Machine
end

