-- ==== Sys2Proof/Machine/Address.lean ====
section
/-! DEFINITION. Forming an address (R162) and the checks of R164, which every lane of a beat passes in the order of its table. -/

namespace Sys2Proof.Machine

/-- How a form accesses its location; `red` is true for RED, which returns nothing. -/
inductive Access where
  | load | store | atomic (fn : BitVec 4) (ty : DType) (red : Bool) | cas | zero | drop | test
deriving DecidableEq, Repr, Inhabited

/-- The access writes (R164). -/
def Access.writes : Access → Bool
  | .store | .atomic _ _ _ | .cas | .zero => true
  | _ => false

/-- The access is one of a form that a read watchpoint watches: LD, WAIT, ATOM, CAS (R333). -/
def Access.reads : Access → Bool
  | .load | .cas => true
  | .atomic _ _ red => !red
  | _ => false

/-- What a lane's checks come to: its place; a fault, a wait or a replayable fault at a step of R164. -/
inductive Chk where
  | ok (p : Place)
  | fault (step : Nat) (code : Byte) (watch : Nat)
  | wait (step : Nat) (why : BlockWhy)
  | replay (step page : Nat)
deriving DecidableEq, Repr, Inhabited

/-- The step at which a lane's checks end; 9 when they pass. -/
def Chk.step : Chk → Nat
  | .ok _ => 9
  | .fault n _ _ => n
  | .wait n _ => n
  | .replay n _ => n

/-- The scratchpad space of a tag 0x4 or 0x5 address: the team it lies in, or why it has none (R134). -/
inductive SpTeam where
  | team (t : Nat)
  | fault
  | absent
deriving DecidableEq, Repr, Inhabited

/-- The team whose scratchpad an address names (R134). -/
def spTeam (s : State) (team : Nat) (t : Team) (addr : W64) : SpTeam :=
  if tagOf addr = 4 then .team team
  else
    let m := bits addr 26 24
    match t.set[m]? with
    | none => .fault
    | some u => match s.team u with
      | none => .absent
      | some v => if v.isEnded then .fault else if v.resident then .team u else .absent

/-- SCRATCH of a team (R134). -/
def State.scratchOf (s : State) (team : Nat) : Nat := ((s.team team).map fun t => t.scratch).getD 0

/-- Whether an operation is accepted behind a page: atomics by KIND (R168), and CCTL's zero on KIND 0 alone (R171). That a zero on another page raises 0x08,
and at step 5, after translation and permission, is the model's choice (DESIGN CHOICE, log entry 95). -/
def atomicAt (acc : Access) (kind : Nat) : Bool :=
  match acc with
  | .atomic fn ty _ => if kind = 1 ∨ kind = 2 then (decide (fn = 0) || decide (fn = 6)) && int4.contains ty else true
  | .zero => decide (kind = 0)
  | _ => true

/-- The space of an address for range locks, with the address in it: 0 device virtual, 0xC system, 8 peer, 16 + the first team of the cluster set
for scratchpads, by member and offset; local memory meets no lock (R24). -/
def lockKey (team : Nat) (t : Team) (addr : W64) : Option (Nat × Nat) :=
  let set := 16 + t.set.headD team
  match tagOf addr with
  | 0 | 1 | 2 => some (0, bits addr 51 0)
  | 0xC => some (0xC, bits addr 51 0)
  | 8 => some (8, bits addr 59 0)
  | 4 => some (set, (t.set.findIdx? (· == team)).getD 0 * 2 ^ 24 + bits addr 21 0)
  | 5 => some (set, bits addr 26 0)
  | _ => none

/-- Step 6: an access meets a lock of its cluster: a write in a source range, any access in a destination range (R23, R24). -/
def locked (s : State) (cluster team : Nat) (t : Team) (acc : Access) (addr : W64) (n : Nat) : Bool :=
  match lockKey team t addr with
  | none => false
  | some (k, a) => s.rlt.any fun r =>
      r.cluster == cluster && r.space == k && decide (r.lo < a + n) && decide (a ≤ r.hi) && (r.dst || acc.writes)

/-- The first byte of an access of n bytes at an address that an armed watchpoint watches for one of the kinds: the watchpoint's
index and, in bit 2, whether it watches a write: a match through both counts as a write (R328, R333, log entry 79). -/
def watchFrom (d : Debug) (kinds : W64) (addr n : Nat) : Nat → Option Nat
  | 0 => none
  | k + 1 =>
    let i := 3 - k
    let w := (Tbl.find? d.wp i).getD Watch.reset
    let base := bits w.addr 51 0
    let size := 16 * 2 ^ bits w.ctl 1 0
    if bit w.ctl 8 && decide (w.ctl &&& kinds ≠ 0) && (List.range n).any (fun j =>
        decide (base ≤ addr + j) && decide (addr + j < base + size) && bit w.mask (addr + j - base)) then
      some (i + 4 * b2n (decide (w.ctl &&& kinds &&& 0x400#64 ≠ 0)))
    else watchFrom d kinds addr n k

/-- Step 8: the watchpoint that a lane access matches; tags 0x0 to 0x2 only (R333). -/
def watched (s : State) (t : Team) (acc : Access) (addr : W64) (n : Nat) : Option Nat :=
  if tagOf addr > 2 then none
  else match s.ctx t.part t.asid with
    | none => none
    | some c =>
      let kinds : W64 := (if acc.reads then 0x200#64 else 0) ||| (if acc.writes then 0x400#64 else 0)
      watchFrom (s.debugOf t.part c.idx) kinds (bits addr 51 0) n 4

/-- Steps 6 to 8 at a place. -/
def lateChecks (s : State) (b : Beat) (acc : Access) (addr : W64) (n : Nat) (p : Place) : Chk :=
  if acc = .test then .ok p
  else if locked s b.cluster b.a.team b.t acc addr n then .fault 6 0x09 0
  else
    let absent := match p.owned with
      | .scratch u => ((s.team u).map fun v => Tbl.get false v.absent (p.loc % 2 ^ 22 / 128)).getD false
      | _ => false
    if absent && acc.writes then .fault 7 0x0A 0
    else if absent && decide (acc = .load) then .wait 7 .absent
    else match (if b.x.arr.noWatch then none else watched s b.t acc addr n) with
      | some i => .fault 8 0x13 i
      | none => .ok p

/-- Steps 4 to 8 for an address that translates (R138, R168, R292). -/
def pageChecks (s : State) (b : Beat) (acc : Access) (addr : W64) (n va : Nat) : Chk :=
  match s.walk b.cluster b.t.part b.t.asid va with
  | .fault c => .fault 4 c 0
  | .replay => .replay 4 (va / 65536)
  | .leaf pte big =>
    let k := pteKind pte
    let p := s.leafPlace b.t.part pte big va
    if !s.reaches b.t.part p then .fault 3 0x08 0
    else if tagOf addr = 0xC ∧ (k = 0 ∨ k = 3) then .fault 4 0x08 0
    else if acc.writes && !bit pte 1 then
      if writeReplays pte then .replay 4 (pageOf big va) else .fault 4 0x08 0
    else if p.owned ≠ .pinned ∧ atomicAt acc k = false then .fault 5 0x08 0
    else lateChecks s b acc addr n p

/-- The checks of one lane for an access of n bytes that must be a multiple of `al` (R164). TESTP makes only steps 1 and 3. The refusal of the tags that CCTL
does not accept, to which R171 gives no step, stands at step 3 (DESIGN CHOICE, log entry 95). -/
def laneChecks (s : State) (b : Beat) (acc : Access) (lane : Nat) (addr : W64) (n al : Nat) : Chk :=
  let tag := tagOf addr
  if !tagOk addr then .fault 1 0x06 0
  else if addr.toNat % al ≠ 0 then .fault 2 0x05 0
  else if acc = .test ∧ tag ≠ 4 ∧ tag ≠ 5 then .fault 3 0x08 0
  else if acc = .zero ∧ (tag = 5 ∨ tag = 8 ∨ tag = 0xC) then .fault 3 0x08 0
  else if acc = .drop ∧ (tag = 4 ∨ tag = 5 ∨ tag = 8 ∨ tag = 0xC) then .fault 3 0x08 0
  else if tag = 4 ∨ tag = 5 then
    match spTeam s b.a.team b.t addr with
    | .fault => .fault 3 0x08 0
    | .absent => .wait 3 .member
    | .team u =>
      let off := bits addr 21 0
      if off + n > s.scratchOf u then .fault 3 0x08 0
      else lateChecks s b acc addr n { loc := spLoc u off, owned := .scratch u, pte := 0, va := 0 }
  else if tag = 8 then
    let p := s.onPeer b.t.part { loc := locOf 3 (bits addr 59 0), owned := .peer, pte := 0, va := 0 }
    if !s.reaches b.t.part p then .fault 3 0x08 0 else lateChecks s b acc addr n p
  else if tag = 6 then
    let off := bits addr 15 0
    if b.x.isGroup && decide (off < 2048) then .fault 3 0x08 0
    else match s.ctx b.t.part b.t.asid with
      | none => .fault 4 0x07 0
      | some c => pageChecks s b acc addr n (localVaOf c b.t.slot b.a.who lane off % 2 ^ 52)
  else pageChecks s b acc addr n (bits addr 51 0)

/-- The offset operand of a lane: a v register from 32 bits, an s or c register as 64 bits, zero (R162). -/
def offsetOf (x : Agent) (lane : Nat) : Operand → W64
  | .v r => (x.getV lane r.toNat).setWidth 64
  | .u r => x.getU r.toNat
  | _ => 0

/-- The pointer operand of a lane (R162). -/
def pointerOf (x : Agent) (lane : Nat) : Operand → W64
  | .v r => x.getPair lane r.toNat
  | .u r => x.getU r.toNat
  | _ => 0

/-- The address of a lane (R162). -/
def addressOf (x : Agent) (f : Fields) (lane : Nat) : W64 := pointerOf x lane f.a + offsetOf x lane f.b + f.imm.signExtend 64

/-- A lane's access that has passed its checks. -/
structure Passed where
  lane : Nat
  addr : W64
  place : Place
deriving DecidableEq, Repr, Inhabited

/-- The result of a beat's checks: every lane passes, or the beat ends so. -/
inductive Checked where
  | pass (l : List Passed)
  | out (o : Out)

/-- The first failing check of the table, its lanes and the address of the lowest of them (R164). Among lanes that fail the same check with
different outcomes the lowest lane decides (DEDUCED, log entry 38); a replayable fault names every lane of the quad that meets one at that check (R286). -/
def firstFailing (rs : List (Nat × W64 × Chk)) (write : Bool) : Out :=
  let n := (leastOf (rs.map fun r => r.2.2.step)).getD 9
  match rs.find? (fun r => r.2.2.step == n && (match r.2.2 with | .fault _ _ _ => true | _ => false)) with
  | some (_, addr, .fault _ code w) =>
    let lanes := maskOf (rs.filterMap fun r => match r.2.2 with | .fault m c _ => if m = n ∧ c = code then some r.1 else none | _ => none)
      fun _ => true
    .fault { code := code, how := .beat, lanes := lanes, addr := addr, write := write, watch := w }
  | _ => match rs.find? fun r => r.2.2.step == n with
    | some (_, addr, .replay _ page) =>
      let lanes := maskOf (rs.filterMap fun r => match r.2.2 with | .replay m _ => if m = n then some r.1 else none | _ => none) fun _ => true
      .replay { code := 0x19, how := .beat, lanes := lanes, addr := addr, write := write } page
    | some (_, _, .wait _ why) => .block why
    | _ => .block .empty

/-- The lanes' checks of a beat (R164). -/
def checkAll (s : State) (b : Beat) (acc : Access) (n al : Nat) : Checked :=
  let rs := b.lanes.map fun l => (l, addressOf b.x b.f l, laneChecks s b acc l (addressOf b.x b.f l) n al)
  if rs.all fun r => r.2.2.step == 9 then
    .pass (rs.filterMap fun r => match r.2.2 with | .ok p => some { lane := r.1, addr := r.2.1, place := p } | _ => none)
  else .out (firstFailing rs acc.writes)

/-- The TLB after a lane's translation (R295). -/
def State.touchTlb (s : State) (b : Beat) (p : Place) : State :=
  if p.va = 0 ∧ p.pte = 0 then s else s.cacheWalk b.cluster b.t.part b.t.asid p.va

end Sys2Proof.Machine
end

