-- ==== Sys2Proof/Machine/Command.lean ====
section
/-! DEFINITION. What the copy, gather and matrix engines share: issue, range locks, tokens, presence bits, places, engine watchpoints, completion and
fault ends (R16 to R24, R155, R190, R333), and the host queue's part in them (R272, R273). -/

namespace Sys2Proof.Machine

/-! ### The host queue's ends -/

/-- A queue changed. -/
def State.modQueue (s : State) (part q : Nat) (f : HostQ → HostQ) : State :=
  s.modPart part fun p => { p with queues := Tbl.ins p.queues q (f ((Tbl.find? p.queues q).getD HostQ.reset)) }

/-- A host queue (R270). -/
def State.hostq (s : State) (part q : Nat) : HostQ := (Tbl.find? (s.partition part).queues q).getD HostQ.reset

/-- A packet completes (R273). -/
def State.packetDone (s : State) (part q idx : Nat) : State :=
  s.modQueue part q fun h => { h with running := h.running.filter fun i => i != idx }

/-- A queue stops with an error code; `failed` is the index of the packet that failed, if one has. A record goes to the fault queue, with the
cause of a copy that failed (R272); vector 1 fires where ERR was clear (R341). -/
def State.queueStop (s : State) (part q : Nat) (code : Byte) (failed : Option Nat) (cause : Nat) : State :=
  let h := s.hostq part q
  let idx := failed.getD h.rd.toNat
  let s1 := s.modQueue part q fun h =>
    { h with stat := BitVec.ofNat 64 ((idx % 2 ^ 32) * 2 ^ 32 + code.toNat * 256 + 1),
             failed := (match failed with | some i => some i | none => h.failed),
             running := (match failed with | some i => h.running.filter (fun k => k != i) | none => h.running),
             waitmon := h.waitmon.filter fun w => some w.1 != failed }
  (if bit h.stat 0 then s1 else s1.fire (part + 1) 1).fqSend part { replay := none, bytes := toBytes 32 (code.toNat + 6 * 2 ^ 8 + q * 2 ^ 16 + bits h.ctl 15 0 * 2 ^ 36 + part * 2 ^ 52
    + (idx % 2 ^ 64) * 2 ^ 128 + cause * 2 ^ 192) }

/-! ### Tokens and sequence numbers -/

/-- The token of a class E byte (R46). -/
def tokOf (md : BitVec 8) : Nat := md.toNat % 8
/-- The event bit of a class E byte (R46). -/
def evOf (md : BitVec 8) : Bool := md.getLsbD 4

/-- The next command sequence number (R18). -/
def nextSeq (c : W32) : W32 := if c = 0xFFFFFFFF#32 then 1 else c + 1

/-- A control thread's command takes the next CSEQ (R18). -/
def State.takeSeq (s : State) (a : AgentId) : State :=
  if a.who = ctlWho then
    match s.team a.team with
    | none => s
    | some t =>
      let n := nextSeq t.cseq
      (s.modTeam a.team fun t => { t with cseq := n }).modAgent a fun x => { x with cseq := n }
  else s

/-- A token's count raised (R16). -/
def State.tokenUp (s : State) (team k : Nat) : State := s.modTeam team fun t => { t with tok := Tbl.put 0 t.tok k (Tbl.get 0 t.tok k + 1) }
/-- A token's count lowered (R16). -/
def State.tokenDown (s : State) (team k : Nat) : State := s.modTeam team fun t => { t with tok := Tbl.put 0 t.tok k (Tbl.get 0 t.tok k - 1) }
/-- The token's count is at its limit (R16). -/
def tokenFull (t : Team) (k : Nat) : Bool := decide (Tbl.get 0 t.tok k ≥ 255)

/-! ### Where an engine's access performs -/

/-- What an engine's access comes to: its place, a failure with its cause, a replayable page, or a wait for a member that is saved out. -/
inductive EPlace where
  | ok (p : Place)
  | fault (cause : Nat)
  | replay (page : Nat)
  | wait
deriving DecidableEq, Repr, Inhabited

/-- The TLB that an owner's accesses use: its die's shared one, or that of the partition's first die for a host queue (log entry 78). -/
def State.engUnit (s : State) (part : Nat) : Owner → Nat
  | .agent team _ => dieUnit (dieOf (((s.team team).bind fun t => t.engCluster).getD 0))
  | .host _ _ _ => dieUnit ((s.diesOf part).headD 0)

/-- The place of a byte of a command at an address (R131, R138, R141, R345). -/
def State.engPlace (s : State) (c : Cmd) (addr : W64) (write : Bool) : EPlace :=
  let tag := tagOf addr
  if !tagOk addr || decide (tag = 6) then .fault 0x08
  else if tag = 4 ∨ tag = 5 then
    match c.owner with
    | .host _ _ _ => .fault 0x08
    | .agent team _ => match s.team team with
      | none => .fault 0x08
      | some t => match spTeam s team t addr with
        | .team u => .ok { loc := spLoc u (bits addr 21 0), owned := .scratch u, pte := 0, va := 0 }
        | .absent => .wait
        | .fault => .fault 0x08
  else if tag = 8 then
    let p := s.onPeer c.part { loc := locOf 3 (bits addr 59 0), owned := .peer, pte := 0, va := 0 }
    if s.reaches c.part p then .ok p else .fault 0x08
  else
    let va := bits addr 51 0
    match s.walk (s.engUnit c.part c.owner) c.part c.asid va with
    | .fault k => .fault k.toNat
    | .replay => .replay (va / 65536)
    | .leaf pte big =>
      let k := pteKind pte
      let p := s.leafPlace c.part pte big va
      if !s.reaches c.part p then .fault 0x08
      else if tag = 0xC ∧ (k = 0 ∨ k = 3) then .fault 0x08
      else if write && !bit pte 1 then (if writeReplays pte then .replay (pageOf big va) else .fault 0x08)
      else .ok p

/-- A command changed. -/
def State.modCmd (s : State) (n : Nat) (f : Cmd → Cmd) : State := { s with cmds := Tbl.modify s.cmds n f }

/-- A source line of a command read at its owner, once and whole; its Wc enters the command (R144, R153, R155). A line with an uncorrectable error ends the
command (R351). -/
def State.readLine (s : State) (n line : Nat) : Except EPlace State :=
  match Tbl.find? s.cmds n with
  | none => .ok s
  | some c =>
    if (Tbl.find? c.src line).isSome then .ok s
    else match s.engPlace c (BitVec.ofNat 64 (128 * line)) false with
      | .ok p => if s.flaws.contains (p.loc / 128) then .error (.fault 0x18) else
        let s1 := if p.owned = .slice then (s.recall (p.loc / 128) none).touchLine p 0 else s
        let wc := if p.owned = .slice then (s1.line (p.loc / 128)).wc else 0
        .ok (s1.modCmd n fun c => { c with src := Tbl.ins c.src line (s1.read p.loc 128), c := max c.c wc })
      | e => .error e

/-- Source lines of a command read, or the first failure (R155). -/
def State.readLines (s : State) (n : Nat) : List Nat → Except EPlace State
  | [] => .ok s
  | l :: ls => match s.readLine n l with
    | .ok s1 => s1.readLines n ls
    | .error e => .error e

/-- n bytes of the source lines that a command has read. -/
def Cmd.bytes (c : Cmd) (addr n : Nat) : List Byte :=
  (((spanLines addr n).flatMap fun l => (Tbl.find? c.src l).getD (List.replicate 128 0)).drop (addr % 128)).take n

/-! ### Range locks (R24) -/

/-- A command's range of n bytes from its lowest address on, for the issuing team: an end beyond its space locks the range all the same (R24). -/
def rangeOf (team : Nat) (t : Team) (lo : W64) (n : Nat) (dst : Bool) : List (Nat × Nat × Nat × Bool) :=
  match lockKey team t lo with
  | some (k, a) => [(k, a, a + n - 1, dst)]
  | none => []

/-- Enough of a cluster's 64 entries are free (R24). -/
def State.rltRoom (s : State) (cluster : Nat) (n : Nat) : Bool :=
  decide ((s.rlt.filter fun r => r.cluster == cluster).length + n ≤ 64)

/-- The slices of a copy that move bytes. -/
def CopyCmd.moving (k : CopyCmd) : List CopySlice := k.slices.filter fun c => !c.nothing

/-- The lines that hold the masks of a copy's compressed tiles (R183). -/
def CopyCmd.maskLines (k : CopyCmd) : List Nat := k.moving.flatMap CopySlice.maskLines

/-- The highest source byte of a slice that a command reads: of a sparse one, the last that the masks name, which the command has read (R183, R187). -/
def Cmd.readTop (c : Cmd) (sl : CopySlice) : Nat :=
  if sl.geom.sparse then
    greatestOf (sl.tileAddrs.map fun a =>
      a + 512 + sl.geom.esz * ((List.range 64).map fun r => onesBelow (BitVec.ofNat 64 (ofBytes (c.bytes (a + 8 * r) 8))) 64).sum) - 1
  else sl.srcTop

/-- The ranges that a command locks at its start: of a sparse copy's source, to the highest byte read, once it has the masks (R187; log entry 80). -/
def Cmd.locks (c : Cmd) : List (Nat × Nat × Nat × Bool) :=
  match c.kind with
  | .copy k =>
    if k.maskLines ≠ [] ∧ (k.maskLines.all fun l => (Tbl.find? c.src l).isSome) = true then
      let n := greatestOf (k.moving.map c.readTop) - (leastOf (k.moving.map fun sl => sl.src.toNat)).getD 0
      c.ranges.map fun r => if r.2.2.2 then r else (r.1, r.2.1, r.2.1 + n, false)
    else c.ranges
  | _ => c.ranges

/-- The masks of a sparse copy read, where they can be now (R183, R187). -/
def State.readMasks (s : State) (n : Nat) (kind : CmdKind) : State :=
  match kind with
  | .copy k => match s.readLines n k.maskLines with
    | .ok s1 => s1
    | .error _ => s
  | _ => s

/-- The entries that a started command takes (R24). -/
def Cmd.entries (c : Cmd) (cluster n : Nat) : List RltEnt :=
  c.ranges.map fun r => { cluster := cluster, cmd := n, space := r.1, lo := r.2.1, hi := r.2.2.1, dst := r.2.2.2 }

/-- A command starts: it holds its entries; a copy does what its start asks for, a sparse one reads its masks (R24, R187, R191). -/
def State.startCmd (s : State) (cluster n : Nat) : State :=
  match Tbl.find? s.cmds n with
  | none => s
  | some c =>
    let r : State × CmdKind := match c.owner, c.kind with
      | .agent team _, .copy k => let u := s.startCopy team k; (u.1, .copy u.2)
      | _, k => (s, k)
    let s1 := ({ r.1 with cmds := Tbl.ins r.1.cmds n { c with started := true, kind := r.2 } } : State).readMasks n r.2
    match Tbl.find? s1.cmds n with
    | none => s1
    | some c1 =>
      let c2 := { c1 with ranges := c1.locks }
      { s1 with cmds := Tbl.ins s1.cmds n c2, rlt := s1.rlt ++ c2.entries cluster n }

/-- A command formed by an agent: its owner, context, token and site are the agent's. -/
def cmdOf (b : Beat) (x : Agent) (kind : CmdKind) (tok : Nat) (ev : Bool) (ranges : List (Nat × Nat × Nat × Bool)) : Cmd :=
  { owner := .agent b.a.team b.a.who, part := b.t.part, asid := b.t.asid, kind := kind, tok := tok, ev := ev, site := x.site, started := false,
    ranges := ranges, c := 0, src := [], ending := none, parked := false, noWatch := false, seq := 0 }

/-- A command added under the next number. -/
def State.addCmd (s : State) (c : Cmd) : State :=
  { s with cmds := Tbl.ins s.cmds s.cmdSeq { c with seq := s.cmdSeq }, cmdSeq := s.cmdSeq + 1 }

/-- The issue of a command. `token` are the effects that come before its RLT entries are taken, `mk` all of them; with too few entries its issuer
blocks, and RLT_GRANT goes on (R24, R185, R199). `s0` is the state before the beat, `s` the one with the lanes gone on. -/
def issueCommand (s0 s : State) (b : Beat) (token mk : State → State) (c : State → Cmd) : Out :=
  let s1 := mk s
  let k := c s1
  if s1.rltRoom b.cluster k.ranges.length then .done ((s1.addCmd k).startCmd b.cluster s1.cmdSeq)
  else
    let s2 := token s0
    .wait ((s2.addCmd (c s2)).modAgent b.a fun x =>
      { (x.restartGoose s0.beatSeq).blockOn (s0.railTime b.a.team x) .rlt with arr := { x.arr with cmd := some s2.cmdSeq } })

/-- What a beat finds that comes back to a command it has formed: it goes on once the command has started (R24). -/
def issuedBefore (s : State) (b : Beat) (first : Out) : Out :=
  match b.x.arr.cmd with
  | none => if b.a.who = ctlWho ∧ s.logRoom b.t 1 = false then .block .replayRoom else first
  | some n => match Tbl.find? s.cmds n with
    | some c => if c.started then .done s else .block .rlt
    | none => .done s

/-! ### Writes -/

/-- A command in name only, by which a host queue's packet reaches memory. -/
def hostCmd (part asid q idx : Nat) : Cmd :=
  { owner := .host part q idx, part := part, asid := asid, kind := .copy { slices := [], mask := 0, undelivered := 0, landed := [], id := none },
    tok := 0, ev := false, site := ⟨0, 0⟩, started := true, ranges := [], c := 0, src := [], ending := none, parked := false, noWatch := false, seq := 0 }

/-- A write of a host queue's packet has been serialised: its c counts for the queue's releases (R144, R274). -/
def State.hostWrote (s : State) (c : Cmd) (k : Option Nat) : State :=
  match c.owner with
  | .host part q _ => s.modQueue part q fun h => { h with gwct := max h.gwct (k.getD 0) }
  | .agent _ _ => s

/-- The write of a host queue's packet at a place. -/
def State.hostWrite (s : State) (c : Cmd) (p : Place) (bs : List Byte) : State :=
  let r := s.writeAt p bs none
  r.1.hostWrote c r.2

/-- Bytes written for a host queue at consecutive addresses, one write a line; none where some line does not translate. -/
def State.hostPutFrom (s : State) (c : Cmd) (addr : W64) (bs : List Byte) : Nat → Option State
  | 0 => some s
  | fuel + 1 =>
    if bs = [] then some s
    else
      let m := min bs.length (128 - addr.toNat % 128)
      match s.engPlace c addr true with
      | .ok p => (s.hostWrite c p (bs.take m)).hostPutFrom c (addr + BitVec.ofNat 64 m) (bs.drop m) fuel
      | _ => none

/-- Bytes written for a host queue (R274). -/
def State.hostPut (s : State) (part asid q idx : Nat) (addr : W64) (bs : List Byte) : Option State :=
  s.hostPutFrom (hostCmd part asid q idx) addr bs (bs.length / 128 + 2)

/-- The bytes of one write of a command, all in one line, at a place; c enters the command (R144, R155). -/
def State.engWrite (s : State) (n : Nat) (p : Place) (bs : List Byte) : State :=
  let r := s.writeAt p bs none
  r.1.modCmd n fun c => { c with c := max c.c (r.2.getD 0) }

/-- Runs of bytes of one line written as one write; the bytes between them keep their values (R155). -/
def State.engWriteRuns (s : State) (n : Nat) (p : Place) (rs : List (Nat × List Byte)) : State :=
  match rs with
  | [] => s
  | [(o, bs)] => s.engWrite n { p with loc := p.loc + o } bs
  | (o, _) :: _ =>
    let top := greatestOf (rs.map fun r => r.1 + r.2.length)
    let old := s.read (p.loc + o) (top - o)
    s.engWrite n { p with loc := p.loc + o } (rs.foldl (fun m r => layOver o m r.1 r.2) old)

/-! ### Engine watchpoints (R333) -/

/-- The armed engine watchpoint of a context that a write of n bytes at a location matches, with the watched address of the first matching
byte. -/
def engWatchFrom (d : Debug) (loc n : Nat) : Nat → Option (Nat × Nat)
  | 0 => none
  | k + 1 =>
    let i := 3 - k
    let w := (Tbl.find? d.wp i).getD Watch.reset
    let size := 16 * 2 ^ bits w.ctl 1 0
    match w.loc with
    | some base =>
      match (List.range n).find? fun j => decide (base ≤ loc + j) && decide (loc + j < base + size) && bit w.mask (loc + j - base) with
      | some j => if bit w.ctl 8 && bit w.ctl 11 then some (i, bits w.addr 51 0 + (loc + j - base)) else engWatchFrom d loc n k
      | none => engWatchFrom d loc n k
    | none => engWatchFrom d loc n k

/-- The record of a command's report or refusal (R286, R333). -/
def cmdRec (s : State) (c : Cmd) (code : Byte) (eng : Nat) (addr : Nat) (write replay : Bool) : Rec :=
  match c.owner with
  | .agent team who =>
    { code := code, eng := eng, group := whoGroup who, ctl := decide (who = ctlWho), slot := ((s.team team).map fun t => t.slot).getD 0,
      asid := c.asid, part := c.part, restart := 0, write := write, replay := replay, site := c.site, addr := BitVec.ofNat 64 addr, lanes := 0 }
  | .host _ q _ =>
    { code := code, eng := eng, group := q, ctl := false, slot := 0, asid := c.asid, part := c.part, restart := 0, write := write,
      replay := replay, site := c.site, addr := BitVec.ofNat 64 addr, lanes := 0 }

/-! ### Ends (R17, R155, R189, R190) -/

/-- A command leaves: its locks are released, and with the last of an ended team's Ox commands the team's tiles and ranges (R83). -/
def State.dropCmd (s : State) (n : Nat) : State :=
  let s1 : State := { s with cmds := Tbl.del s.cmds n, rlt := s.rlt.filter fun r => r.cmd != n }
  match (Tbl.find? s.cmds n).map fun (c : Cmd) => c.owner with
  | some (Owner.agent team _) => s1.modTeam team fun t => if t.isEnded && !(s1.cmds.any fun e => e.2.oxOf team) then t.freed else t
  | _ => s1

/-- A command's completion: its token falls, and with EV it posts event kind 0x01; a host packet completes (R17, R189). -/
def State.completeCmd (s : State) (n : Nat) (c : Cmd) (eng status : Nat) : State :=
  let s1 := s.dropCmd n
  match c.owner with
  | .agent team _ =>
    let s2 := s1.tokenDown team c.tok
    if c.ev then s2.postEvent team 0x01 eng c.site.cseq (status * 256 + c.tok) else s2
  | .host part q idx => s1.packetDone part q idx

/-- A command's end in fault 0x1A: its token falls and event kind 0x03 carries the cause; a host copy stops its queue (R17, R190, R272). -/
def State.failCmd (s : State) (n : Nat) (c : Cmd) (eng cause : Nat) : State :=
  let s1 := s.dropCmd n
  match c.owner with
  | .agent team _ => (s1.tokenDown team c.tok).postFault team 0x03 eng c.site.cseq (0x1A00 + cause) (cmdRec s c 0x1A eng 0 false false)
  | .host part q idx => s1.queueStop part q 0x07 (some idx) cause

/-- The writes of a command are acknowledged and its release margin is over (R155). -/
def Cmd.settled (c : Cmd) (s : State) : Bool := decide (s.dtime ≥ c.c + 4) || decide (c.c = 0)

/-- A command parks on a fault-queue record of a page, or of a watchpoint; with the queue disabled it is refused at once (R190, R293, R294,
R333). -/
def State.parkCmd (s : State) (n : Nat) (c : Cmd) (eng : Nat) (code : Byte) (addr page : Nat) (watch write : Bool) (refuse : State → State) :
    State :=
  let p := s.partition c.part
  match p.fqSize with
  | none => refuse s
  | some _ =>
    let s1 : State := { s with cmds := Tbl.ins s.cmds n { c with parked := true } }
    if !watch && p.pendingPage c.asid page then s1.modPart c.part fun p => p.joinPage c.asid page fun q => { q with cmds := q.cmds ++ [n] }
    else
      s1.fqSend c.part { bytes := (cmdRec s c code eng addr write true).encode,
                         replay := some { idx := 0, asid := c.asid, page := page, agents := [], cmds := [n], watch := watch } }

/-- What follows an engine write of some runs of bytes at a location, through an address of a tag: a matching watchpoint suspends the command, once, and
reports it; accesses through tags other than 0x0 to 0x2 never match (R333). -/
def State.engWatched (s : State) (n eng tag loc : Nat) (rs : List (Nat × List Byte)) (refuse : State → State) : State :=
  match Tbl.find? s.cmds n with
  | none => s
  | some c =>
    if c.noWatch || decide (2 < tag) then s
    else match s.ctx c.part c.asid with
      | none => s
      | some x => match (rs.filterMap fun r => engWatchFrom (s.debugOf c.part x.idx) (loc + r.1) r.2.length 4).head? with
        | none => s
        | some (i, addr) =>
          let r := cmdRec s c 0x13 eng addr true true
          let s1 := s.trace c.part c.asid { kind := 0x05, eng := eng, ctl := r.ctl, group := r.group, slot := r.slot, site := c.site,
                                            p0 := BitVec.ofNat 32 (i + 8), p1 := BitVec.ofNat 64 addr }
          s1.parkCmd n c eng 0x13 addr 0 true true refuse

/-- The end of a command in fault 0x1A, as `fail` says, once its writes are acknowledged (R155, R190); until then it does nothing more. -/
def State.endCmd (s : State) (n : Nat) (c : Cmd) (cause : Nat) (fail : State → State) : State :=
  if c.settled s then fail s else s.modCmd n fun c => { c with ending := some cause, parked := false }

/-- A command runs: it has started, is not parked, and is not about to end (R190). -/
def Cmd.runs (c : Cmd) : Bool := c.started && !c.parked && c.ending.isNone

end Sys2Proof.Machine
end

