-- ==== Sys2Proof/Machine/Copy.lean ====
section
/-! DEFINITION. The copy engine: CPSL and CPC (R179 to R187), and the copy's lines and ends (R188 to R191). -/

namespace Sys2Proof.Machine

/-! ### Issue (R185, R186) -/

/-- A 64-bit register or zero operand of an engine command (R179). -/
def regOrZero (x : Agent) : Operand → W64
  | .u r => x.getU r.toNat
  | _ => 0

/-- The slice that an instruction's operands describe (R179). -/
def sliceOfBeat (b : Beat) (idx : Nat) : CopySlice :=
  { idx := idx, dst := regOrZero b.x b.f.d, src := regOrZero b.x b.f.a, geo := regOrZero b.x b.f.b, sstr := regOrZero b.x b.f.c,
    dstr := regOrZero b.x b.f.e, cleared := 0 }

/-- Step 6 of R186 for a span of an endpoint. -/
def spanOk (s : State) (team : Nat) (t : Team) (addr n : Nat) : Bool :=
  let a := BitVec.ofNat 64 addr
  if tagOf a ≠ 4 ∧ tagOf a ≠ 5 then true
  else
    let inside := tagOk a && decide (bits a 21 0 + n ≤ t.scratch)
    if tagOf a = 4 then inside
    else inside && (match spTeam s team t a with | .fault => false | _ => true)

/-- Whether every pitch that a strided geometry uses is a multiple of 4 (R186). -/
def CopySlice.pitchesOk (c : CopySlice) : Bool :=
  let g := c.geom
  decide (g.spl % 4 = 0) && decide (g.drw % 4 = 0) && decide (g.dpl % 4 = 0) && (g.sparse || decide (g.srw % 4 = 0))

/-- Steps 1 to 6 of R186: the code of the first check that fails. -/
def copyChecks (s : State) (team : Nat) (t : Team) (c : CopySlice) (mask : Nat) : Option Byte :=
  let sparse := c.geom.sparse
  let dt := tagOf c.dst
  if !c.formed then some 0x01
  else if !endpointOk c.src c.srcTop || !endpointOk c.dst c.dstTop then some 0x06
  else if tagOf c.src = 6 ∨ dt = 6 ∨ (mask ≠ 0 ∧ dt ≠ 4) ∨ (sparse = true ∧ dt ≠ 4 ∧ dt ≠ 5) then some 0x08
  else if c.src.toNat % 4 ≠ 0 ∨ c.dst.toNat % 4 ≠ 0 ∨ c.pitchesOk = false then some 0x05
  else if (membersIn mask).any fun m => decide (t.set.length ≤ m) then some 0x10
  else if !(c.srcSpans.all fun p => spanOk s team t p.1 p.2) || !(c.dstSpans.all fun p => spanOk s team t p.1 p.2) then some 0x08
  else none

/-- The bounding ranges that a copy locks (R187); a copy of no bytes locks none. A sparse source's tiles count at their largest size here; the start
of the copy, which reads their masks, ends the range at the last byte that they name (`Cmd.locks`). -/
def copyRanges (team : Nat) (t : Team) (l : List CopySlice) : List (Nat × Nat × Nat × Bool) :=
  match l.filter fun c => !c.nothing with
  | [] => []
  | c :: cs =>
    let all := c :: cs
    let span := fun (lo hi : CopySlice → Nat) (dst : Bool) =>
      let a := (leastOf (all.map lo)).getD 0
      rangeOf team t (BitVec.ofNat 64 a) (greatestOf (all.map hi) + 1 - a) dst
    span (fun c => c.src.toNat) CopySlice.srcTop false ++
      (if tagOf c.dst = 4 ∨ tagOf c.dst = 5 then [] else span (fun c => c.dst.toNat) CopySlice.dstTop true)

/-- A copy of some slices (R187). -/
def copyCmd (l : List CopySlice) (mask : Nat) (id : Option Nat) : CmdKind :=
  .copy { slices := l, mask := mask, undelivered := 0, landed := [], id := id }

/-- A whole-instruction fault of an engine command's issue (R71). -/
def issueFault (b : Beat) (code : Byte) : Out := .fault (beatFault code b.perf 0 false)

/-- The presence bits of a slice's scratchpad lines cleared at its arrival, with the slice as it is kept (R185, R191). -/
def arriveSlice (s : State) (b : Beat) (c : CopySlice) (mask : Nat) : State × CopySlice :=
  let ls := c.spLines b.a.team b.t mask
  (s.clearMembers b.t ls 0, { c with cleared := s.residentMask b.t ls })

/-- Step 7 of R186 for a slice of a collective (R185). -/
def sliceClash (t : Team) (k : Option CopyState) (c : CopySlice) (n tok mask : Nat) : Bool :=
  decide (n = 0) || decide (n > 128) || decide (c.idx ≥ n) ||
    (match k with
     | some k => decide (k.count ≠ n) || decide (k.tok ≠ tok) || (k.slices.any fun e => e.idx == c.idx) || decide (k.ssp ≠ tagOf c.src)
        || decide (k.dsp ≠ tagOf c.dst) || decide (k.mask ≠ mask)
     | none => tokenFull t tok)

/-- The copy state after a slice has arrived (R185). -/
def CopyState.take (k : Option CopyState) (c : CopySlice) (n tok mask : Nat) (ev : Bool) (site : Site) : CopyState :=
  let k0 := k.getD { armed := true, count := n, arrived := 0, slices := [], tok := tok, ssp := tagOf c.src, dsp := tagOf c.dst, mask := mask,
                     ev := false, site := site }
  { k0 with arrived := k0.arrived + 1, slices := k0.slices ++ [c], ev := k0.ev || ev }

/-- Slices in ascending index (R182). -/
def sortSlices (l : List CopySlice) : List CopySlice :=
  (List.range 128).flatMap fun i => l.filter fun c => c.idx == i

/-- A slice's arrival at its copy state; the last starts the copy (R185). -/
def cpslArrive (s0 : State) (b : Beat) (s : State) (c : CopySlice) (n tok mask : Nat) : Out :=
  let id := b.f.fn.toNat
  let old := Tbl.find? b.t.copies id
  let mk := fun (u : State) =>
    let u1 := if old.isNone then u.tokenUp b.a.team tok else u
    let r := arriveSlice u1 b c mask
    r.1.modTeam b.a.team fun t => { t with copies := Tbl.ins t.copies id (CopyState.take old r.2 n tok mask (evOf b.f.md) b.x.site) }
  let k := CopyState.take old (arriveSlice s b c mask).2 n tok mask (evOf b.f.md) b.x.site
  if k.arrived = n then
    let sl := sortSlices k.slices
    issueCommand s0 s b mk mk fun _ => cmdOf b b.x (copyCmd sl mask (some id)) tok k.ev (copyRanges b.a.team b.t sl)
  else .done (mk s)

/-- CPSL (R185, R186). -/
def execCpsl (f : Fields) (s : State) : Next :=
  issueBeat (.cpsl f) f s fun b s1 =>
    issuedBefore s1 b <|
      let n := bits (f.imm.setWidth 64) 15 8
      let mask := bits (f.imm.setWidth 64) 23 16
      let c := sliceOfBeat b (bits (f.imm.setWidth 64) 6 0)
      match copyChecks s b.a.team b.t c mask with
      | some code => issueFault b code
      | none =>
        if sliceClash b.t (Tbl.find? b.t.copies f.fn.toNat) c n (tokOf f.md) mask then issueFault b 0x0F
        else cpslArrive s b s1 c n (tokOf f.md) mask

/-- CPC: the steps of a collective of one slice, under the next CSEQ (R185). -/
def execCpc (f : Fields) (s : State) : Next :=
  issueBeat (.cpc f) f s fun b s1 =>
    if b.perf = 0 then .done s1
    else issuedBefore s1 b <|
      let mask := bits (f.imm.setWidth 64) 23 16
      let c := sliceOfBeat b 0
      let tok := tokOf f.md
      match copyChecks s b.a.team b.t c mask with
      | some code => issueFault b code
      | none =>
        if tokenFull b.t tok then issueFault b 0x0F
        else
          let mk := fun (u : State) => (arriveSlice ((u.takeSeq b.a).tokenUp b.a.team tok) b c mask).1
          let kept := (arriveSlice s1 b c mask).2
          issueCommand s s1 b mk mk fun u =>
            cmdOf b ((u.agent b.a).getD b.x) (copyCmd [kept] mask none) tok (evOf f.md) (copyRanges b.a.team b.t [c])

/-! ### Lines (R182, R183, R188) -/

/-- The mask words of rows 0 to r of a compressed tile (R183). -/
def tileMasks (c : Cmd) (tile r : Nat) : List W64 := (List.range (r + 1)).map fun k => BitVec.ofNat 64 (ofBytes (c.bytes (tile + 8 * k) 8))

/-- The packed elements of a row of a tile: the place of its first among the tile's, and their number (R183). -/
def tileSpan (c : Cmd) (tile r : Nat) : Nat × Nat :=
  let ms := tileMasks c tile r
  (((ms.take r).map fun m => onesBelow m 64).sum, onesBelow (ms.getD r 0) 64)

/-- The elements of a row of a tile: present ones in the order of their packing, the others zero (R183). -/
def expandRow (esz : Nat) (mask : W64) (packed : List Byte) : List Byte :=
  (List.range 64).flatMap fun k => if bit mask k then (packed.drop (esz * onesBelow mask k)).take esz else List.replicate esz 0

/-- The dense bytes of row r of a compressed tile (R183). -/
def tileRow (c : Cmd) (tile r esz : Nat) : List Byte :=
  let p := tileSpan c tile r
  expandRow esz ((tileMasks c tile r).getD r 0) (c.bytes (tile + 512 + esz * p.1) (esz * p.2))

/-- The part of a row that lies in a line: its first and its end. -/
def CopyRow.within (r : CopyRow) (line : Nat) : Nat × Nat := (max r.dst (128 * line), min (r.dst + r.len) (128 * line + 128))

/-- The bytes that a row supplies to a line: their place in the line, and their values (R182, R183). -/
def rowPiece (c : Cmd) (line : Nat) (r : CopyRow) : Nat × List Byte :=
  let w := r.within line
  match r.tile with
  | none => (w.1 - 128 * line, c.bytes (r.src + (w.1 - r.dst)) (w.2 - w.1))
  | some (tile, row, esz) => (w.1 - 128 * line, ((tileRow c tile row esz).drop (w.1 - r.dst)).take (w.2 - w.1))

/-- The source lines that a row needs for a line, of a sparse row the masks' (R183). -/
def rowLines (line : Nat) (r : CopyRow) : List Nat :=
  let w := r.within line
  match r.tile with
  | none => spanLines (r.src + (w.1 - r.dst)) (w.2 - w.1)
  | some (tile, row, _) => spanLines tile (8 * (row + 1))

/-- The source lines of a sparse row's elements, once its masks have been read (R183). -/
def rowElems (c : Cmd) (r : CopyRow) : List Nat :=
  match r.tile with
  | none => []
  | some (tile, row, esz) => let p := tileSpan c tile row; spanLines (tile + 512 + esz * p.1) (esz * p.2)

/-- The rows of a copy that write a line. -/
def rowsAt (k : CopyCmd) (line : Nat) : List CopyRow :=
  (k.slices.flatMap CopySlice.rows).filter fun r => decide (r.dst < 128 * line + 128) && decide (128 * line < r.dst + r.len)

/-- A list rotated. -/
def rotate {α : Type} (n : Nat) (l : List α) : List α := l.drop (n % (max 1 l.length)) ++ l.take (n % (max 1 l.length))

/-- Byte o of a line from the pieces that reach it: where several do, a free number picks one for each 8-byte part (R188, log entry 2). -/
def byteFrom (draw o : Nat) (ps : List (Nat × List Byte)) : Option Byte :=
  match (rotate (Config.freeNat (draw + o / 8)) ps).find? fun p => decide (p.1 ≤ o) && decide (o < p.1 + p.2.length) with
  | some p => p.2[o - p.1]?
  | none => none

/-- The offsets in a line. -/
def offsets128 : List Nat := List.range 128

/-- The data of a line of a copy: a single piece as it is, several merged byte by byte (R188). -/
def lineBytes (draw : Nat) (ps : List (Nat × List Byte)) : List (Option Byte) :=
  match ps with
  | [(o, bs)] => List.replicate o none ++ bs.map some ++ List.replicate (128 - o - bs.length) none
  | _ => offsets128.map fun o => byteFrom draw o ps

/-- The data that a copy writes to a line, its source lines read where they have not been (R155, R188). -/
def copyData (s : State) (n : Nat) (k : CopyCmd) (line : Nat) : Except EPlace (List (Option Byte) × State) :=
  let rows := rowsAt k line
  match s.readLines n (rows.flatMap (rowLines line)) with
  | .error e => .error e
  | .ok s1 => match s1.readLines n (((Tbl.find? s1.cmds n).map fun c => rows.flatMap (rowElems c)).getD []) with
    | .error e => .error e
    | .ok s2 => match Tbl.find? s2.cmds n with
      | some c => .ok (lineBytes s2.fresh (rows.map (rowPiece c line)), { s2 with fresh := s2.fresh + 16 })
      | none => .ok ([], s2)

/-- The runs of bytes that a line's data holds, with their places. -/
def runsOf : Nat → List (Option Byte) → List (Nat × List Byte)
  | _, [] => []
  | o, none :: rest => runsOf (o + 1) rest
  | o, some b :: rest => match runsOf (o + 1) rest with
    | (p, bs) :: more => if p = o + 1 then (o, b :: bs) :: more else (o, [b]) :: (p, bs) :: more
    | [] => [(o, [b])]

/-- A copy that runs. -/
def State.runningCopy (s : State) (n : Nat) : Option (Cmd × CopyCmd) :=
  match Tbl.find? s.cmds n with
  | some c => match c.kind with
    | .copy k => if c.runs then some (c, k) else none
    | _ => none
  | none => none

/-- A command's kind replaced. -/
def State.setKind (s : State) (n : Nat) (k : CmdKind) : State := { s with cmds := Tbl.modify s.cmds n fun c => { c with kind := k } }

/-- The address of a line's first byte for target m: the destination, or the same offset in the scratchpad of member m (R191). -/
def copyAddr (k : CopyCmd) (line m : Nat) : W64 :=
  BitVec.ofNat 64 (if k.mask = 0 then 128 * line else 5 * 2 ^ 60 + m * 2 ^ 24 + 128 * (line % 2 ^ 15))

/-- The place of a line's first byte for target m (R191). -/
def copyTarget (s : State) (c : Cmd) (k : CopyCmd) (line m : Nat) : EPlace := s.engPlace c (copyAddr k line m) true

/-- The targets of a copy: one, or the members that receive it (R191). -/
def CopyCmd.targets (k : CopyCmd) (gone : Nat) : List Nat :=
  if k.mask = 0 then [0] else (membersIn k.mask).filter fun m => decide (gone / 2 ^ m % 2 = 0)

/-- The scratchpad lines of a copy that have not landed, by member and line. -/
def CopyCmd.unlanded (k : CopyCmd) (team : Nat) (t : Team) : List (Nat × Nat) :=
  let ls := destLines k.slices
  let inPad := k.mask ≠ 0 ∨ (k.slices.any fun c => decide (tagOf c.dst = 4) || decide (tagOf c.dst = 5)) = true
  if ¬ inPad then []
  else (k.targets k.undelivered).flatMap fun m => ((List.range ls.length).filter fun i => !Tbl.get false k.landed (m * ls.length + i)).map fun i =>
    let l := ls.getD i 0
    (if k.mask ≠ 0 then m else if tagOf (BitVec.ofNat 64 (128 * l)) = 5 then l / 2 ^ 17 % 8 else memberNo team t, l % 2 ^ 15)

/-- A refusal of a copy: a scratchpad line that has not landed is marked present (R190). -/
def releaseLines (s : State) (c : Cmd) (k : CopyCmd) : State :=
  match c.owner with
  | .agent team _ => match s.team team with
    | none => s
    | some t => (k.unlanded team t).foldl (fun v e => match t.member e.1 with
        | some w => v.setPresence w [e.2]
        | none => v) s
  | .host _ _ _ => s

/-- The end of a copy in fault 0x1A (R190). -/
def failCopy (s : State) (n : Nat) (c : Cmd) (k : CopyCmd) (cause : Nat) : State := (releaseLines s c k).failCmd n c 3 cause

/-- The runs of a line written at a place as one write; watchpoints are matched after it (R188, R333). -/
def writeRuns (s : State) (n : Nat) (c : Cmd) (k : CopyCmd) (tag : Nat) (p : Place) (rs : List (Nat × List Byte)) : State :=
  let s1 := s.engWriteRuns n p rs
  let s2 := match p.owned with | .scratch w => s1.setPresence w [p.loc % 2 ^ 22 / 128] | _ => s1
  s2.engWatched n 3 tag p.loc rs fun v => v.endCmd n ((Tbl.find? v.cmds n).getD c) 0x13 fun u => failCopy u n c k 0x13

/-- A line of a copy that is still to land, by its number and target: target of the copy / lines of the copy (R191). -/
def CopyCmd.wants (k : CopyCmd) (key : Nat) : Bool :=
  let ls := destLines k.slices
  let m := key / ls.length
  (if k.mask = 0 then decide (m = 0) else (membersIn k.mask).contains m && decide (k.undelivered / 2 ^ m % 2 = 0))
    && decide (ls ≠ []) && !Tbl.get false k.landed key

/-- Line number i of target i / lines of a copy lands (R188, R191). -/
def landCopy (s : State) (n : Nat) (c : Cmd) (k : CopyCmd) (key : Nat) : State :=
  let ls := destLines k.slices
  let line := ls.getD (key % ls.length) 0
  if !k.wants key then s
  else match copyTarget s c k line (key / ls.length) with
    | .ok p => match copyData s n k line with
      | .ok (d, s1) =>
        let k1 := { k with landed := Tbl.put false k.landed key true }
        writeRuns (s1.setKind n (.copy k1)) n c k1 (tagOf (copyAddr k line (key / ls.length))) p (runsOf 0 d)
      | .error _ => s
    | _ => s

/-- A copy that has started and is not about to end, parked or not. -/
def State.startedCopy (s : State) (n : Nat) : Option (Cmd × CopyCmd) :=
  match Tbl.find? s.cmds n with
  | some c => match c.kind with
    | .copy k => if c.started && c.ending.isNone then some (c, k) else none
    | _ => none
  | none => none

/-- A line of a copy lands if its source lines have all been read (R192). -/
def landRead (s : State) (n key : Nat) : State :=
  match s.startedCopy n with
  | none => s
  | some (c, k) => match copyData s n k ((destLines k.slices).getD (key % (destLines k.slices).length) 0) with
    | .ok (_, s1) => if ((Tbl.find? s1.cmds n).map fun c => c.src.length) = some c.src.length then landCopy s n c k key else s
    | .error _ => s

/-- Every line of a copy whose source lines have been read lands, also of one that waits on a fault-queue record: what a save does with a copy that it
does not complete (R192). -/
def landAllRead (s : State) (n : Nat) : State :=
  match s.startedCopy n with
  | none => s
  | some (_, k) => (List.range ((destLines k.slices).length * (if k.mask = 0 then 1 else 8))).foldl (fun u key => landRead u n key) s

/-! ### Ends (R189 to R191) -/

/-- The members of a multicast whose teams have ended (R191). -/
def State.endedMembers (s : State) (c : Cmd) (mask : Nat) : Nat :=
  match c.owner with
  | .agent team _ => match s.team team with
    | none => 0
    | some t => ((membersIn mask).filter fun m => match (t.member m).bind s.team with
        | some v => v.isEnded
        | none => false).foldl (fun n m => n + 2 ^ m) 0
  | .host _ _ _ => 0

/-- Every line has landed on every target that is to receive it. -/
def CopyCmd.allLanded (k : CopyCmd) (gone : Nat) : Bool :=
  let n := (destLines k.slices).length
  (k.targets gone).all fun m => (List.range n).all fun i => Tbl.get false k.landed (m * n + i)

/-- The issuing team of a command is not saved out: it stands on its cluster, or has ended there (R83). -/
def State.ownerHere (s : State) (c : Cmd) : Bool :=
  match c.owner with
  | .agent team _ => ((s.team team).map fun t => t.engCluster.isSome).getD true
  | .host _ _ _ => true

/-- COPY_COMPLETE (R189): once every line has landed and every write has been acknowledged for 4 ns. -/
def execCopyComplete (cmd : Nat) (s : State) : Next :=
  match s.runningCopy cmd with
  | none => .next s
  | some (c, k) =>
    let gone := k.undelivered ||| s.endedMembers c k.mask
    if k.allLanded gone && c.settled s then .next (s.completeCmd cmd c 3 gone) else .next s

/-- What stands in the way of a line, and whether it is its destination: its sources come first. -/
def copyBlocked (s : State) (n : Nat) (c : Cmd) (k : CopyCmd) (key : Nat) : Option (EPlace × Bool) :=
  let ls := destLines k.slices
  let line := ls.getD (key % ls.length) 0
  if !k.wants key then none
  else match copyData s n k line with
    | .error e => some (e, false)
    | .ok _ => match copyTarget s c k line (key / ls.length) with
      | .ok _ => none
      | .fault cause => if k.mask = 0 then some (.fault cause, true) else none
      | e => some (e, true)

/-- The landed lines that a stop at a line keeps: those before it (R190, R192). -/
def keepBefore (l : Tbl Bool) (n key : Nat) : Tbl Bool := l.filter fun e => decide (e.1 % n < key % n)

/-- COPY_FAULT (R190): a line of a running copy that does not translate ends it, or parks it where its page is replayable; a copy that is to end does
once its writes are acknowledged. -/
def execCopyFault (cmd line : Nat) (s : State) : Next :=
  match (Tbl.find? s.cmds cmd).bind fun c => (match c.kind with | .copy k => c.ending.map fun cause => (c, k, cause) | _ => none) with
  | some (c, k, cause) => .next (if c.settled s then failCopy s cmd c k cause else s)
  | none => match s.runningCopy cmd with
    | none => .next s
    | some (c, k) => match copyBlocked s cmd c k line with
      | some (.fault cause, _) => .next (s.endCmd cmd c cause fun u => failCopy u cmd c k cause)
      | some (.replay page, write) =>
        let k1 := { k with landed := keepBefore k.landed (max 1 (destLines k.slices).length) line }
        let c1 := { c with kind := .copy k1 }
        .next (s.parkCmd cmd c1 3 0x19 (page * 65536) page false write fun u => u.endCmd cmd c 0x07 fun v => failCopy v cmd c k 0x07)
      | _ => .next s

end Sys2Proof.Machine
end

