-- ==== Sys2Proof/Machine/MemoryOps.lean ====
section
/-! DEFINITION. LD, ST, ATOM, RED, CAS, FENCE, PREF, CCTL and TESTP (R158 to R173). -/

namespace Sys2Proof.Machine

/-- The order includes acquire (R46). -/
def acquires (md : BitVec 8) : Bool := decide (mdOrder md % 2 = 1)

/-- The lanes whose results a lane's reply carries: its own, or every lane of A(P) for a uniform form (R165). -/
def Beat.replyLanes (b : Beat) (lane : Nat) : List Nat := if b.f.uni then lanesIn b.act else [lane]

/-- The lanes whose access a lane's is: its own, or A(P) for a uniform form. -/
def Beat.opLanes (b : Beat) (lane : Nat) : LaneMask := if b.f.uni then b.act else 1#32 <<< lane

/-- The lanes that an acquire of a lane holds back (R149). -/
def Beat.acqMask (b : Beat) (lane : Nat) : LaneMask := if acquires b.f.md then b.opLanes lane else 0

/-- A place some bytes on. -/
def Place.plus (p : Place) (k : Nat) : Place := { p with loc := p.loc + k, va := p.va + k }

/-- An access of a lane that has passed its checks, some bytes into its location. -/
def Beat.op (b : Beat) (q : Passed) (off : Nat) (kind : OpKind) : MemOp :=
  { lanes := b.opLanes q.lane, beat := b.x.opSeq, insn := b.x.arr.insn, place := q.place.plus off,
    addr := q.addr + BitVec.ofNat 64 off, site := b.x.site, policy := policyOf b.f.md q.addr, kind := kind }

/-- The aligned 8-byte parts of n bytes: first byte and length. An access is single-copy atomic in each (R145). -/
def partsOf (n : Nat) : List (Nat × Nat) := (List.range ((n + 7) / 8)).map fun k => (8 * k, min 8 (n - 8 * k))

/-! ### Loads -/

/-- A reply of memory on its way to a lane: D is empty until it lands (R54, R165). -/
def Beat.reply (b : Beat) (q : Passed) (n mult : Nat) : Pending :=
  { mem := true, writes := [], form := some { ty := b.f.ty, d := b.f.d, lanes := b.replyLanes q.lane, mult := mult }, data := List.replicate n 0,
    parts := (partsOf n).length, flags := 0, c := none, acq := b.acqMask q.lane, log := [] }

/-- One lane's load issued: D empties in its lanes, and the reads are on their way (R165). -/
def loadLane (b : Beat) (n : Nat) (s : State) (q : Passed) : State :=
  (s.touchTlb b q.place).modAgent b.a fun x =>
    let p := b.reply q n (multOf b.f.fn)
    let key := Tbl.freshKey x.pend
    (partsOf n).foldl (fun y e => y.addOp (b.op q e.1 (.load e.2 key e.1))) ((x.emptyAll p.lands).addPending p)

/-- LD (R165). -/
def execLd (f : Fields) (s : State) : Next :=
  issueBeat (.ld f) f s fun b s1 =>
    if b.perf = 0 then .done s1
    else
      let n := elemBytes f.ty * multOf f.fn
      match checkAll s b .load n n with
      | .out o => o
      | .pass l => .done (l.foldl (loadLane b n) s1)

/-! ### Stores -/

/-- The value of a data operand of w bits of a lane. -/
def dataOf (b : Beat) (w lane : Nat) (o : Operand) : W64 := readOp b.x lane (if w = 64 then 64 else 32) false 0 0 o

/-- The bytes that a lane's store takes from element j on (R160). -/
def storeBytes (b : Beat) (lane : Nat) : Nat → Nat → List Byte
  | 0, _ => []
  | n + 1, j =>
    let w := tyWidth b.f.ty
    let o := match b.f.c with
      | .v r => Operand.v (BitVec.ofNat 7 (r.toNat + j * regsFor w))
      | o => o
    toBytes (elemBytes b.f.ty) (dataOf b w lane o).toNat ++ storeBytes b lane n (j + 1)

/-- One lane's store issued: its writes are on their way (R165). -/
def storeLane (b : Beat) (s : State) (q : Passed) : State :=
  let bs := storeBytes b q.lane (multOf b.f.fn) 0
  (s.touchTlb b q.place).modAgent b.a fun x =>
    (partsOf bs.length).foldl (fun y e => y.addOp (b.op q e.1 (.store ((bs.drop e.1).take e.2)))) x

/-- ST (R165). -/
def execSt (f : Fields) (s : State) : Next :=
  issueBeat (.st f) f s fun b s1 =>
    if b.perf = 0 then .done s1
    else
      let n := elemBytes f.ty * multOf f.fn
      match checkAll s b .store n n with
      | .out o => o
      | .pass l => .done (l.foldl (storeLane b) s1)

/-! ### Atomics -/

/-- The old value returned to D as a loaded one of TY, with the record that a replay log takes of it (R160, R165 to R167, R334; log entry 17). -/
def Beat.oldReply (b : Beat) (s : State) (q : Passed) : Pending :=
  { b.reply q (elemBytes b.f.ty) 1 with
    parts := 1, log := if logging (s.tctlOf b.t) b.t then [valueRec b.t b.a.who b.x 0x10 (BitVec.ofNat 32 q.lane) 0] else [] }

/-- What an ATOM or CAS asks its owner for, in a lane. -/
def Beat.atomic (b : Beat) (cas : Bool) (lane : Nat) (reply : Option Nat) : OpKind :=
  let w := tyWidth b.f.ty
  if cas then .atomic b.f.fn b.f.ty b.f.rm (some (dataOf b w lane b.f.c)) (dataOf b w lane b.f.e) reply
  else .atomic b.f.fn b.f.ty b.f.rm none (dataOf b w lane b.f.c) reply

/-- One lane's ATOM or CAS issued (R165). -/
def atomLane (b : Beat) (cas : Bool) (s : State) (q : Passed) : State :=
  let u := s.touchTlb b q.place
  u.modAgent b.a fun x =>
    let p := b.oldReply u q
    ((x.emptyAll p.lands).addPending p).addOp (b.op q 0 (b.atomic cas q.lane (some (Tbl.freshKey x.pend))))

/-- One lane's ATOM or CAS in a replay run: D takes the logged value, and the location what the operation makes of it (R335). -/
def replayLane (b : Beat) (cas : Bool) (s : State) (q : Passed) (v : W64) : State :=
  let w := tyWidth b.f.ty
  let r := if cas then atomicStores b.f.fn b.f.ty b.f.rm (some (dataOf b w q.lane b.f.c)) (dataOf b w q.lane b.f.e) v
    else atomicStores b.f.fn b.f.ty b.f.rm none (dataOf b w q.lane b.f.c) v
  (s.touchTlb b q.place).modAgent b.a fun x =>
    let p := { b.reply q (elemBytes b.f.ty) 1 with data := toBytes (elemBytes b.f.ty) v.toNat, parts := 0, flags := r.2 }
    ((x.emptyAll p.lands).addPending p).addOp (b.op q 0 (.replayed b.f.ty r.1))

/-- ATOM and CAS over the lanes of a beat, ascending; in a replay run each lane takes its logged value, once the log's next record is the agent's
(R152, R335). -/
def atomBody (s0 : State) (acc : Access) (cas : Bool) (b : Beat) (s : State) : Out :=
  if b.perf = 0 then .done s
  else
    let n := elemBytes b.f.ty
    match checkAll s0 b acc n n with
    | .out o => o
    | .pass l =>
      if replaying (s.tctlOf b.t) then
        match s.logTake b.a b.x 0x10 (l.map fun q => q.lane) with
        | .wait => .block .replayRoom
        | .differs => replayStop b s0
        | .taken vs s1 => .done ((l.zip vs).foldl (fun u e => replayLane b cas u e.1 e.2.p1) s1)
      else if !s.logRoom b.t l.length then .block .replayRoom
      else .done (l.foldl (atomLane b cas) s)

/-- ATOM (R165, R166). -/
def execAtom (f : Fields) (s : State) : Next := issueBeat (.atom f) f s (atomBody s (.atomic f.fn f.ty false) false)

/-- CAS (R167). -/
def execCas (f : Fields) (s : State) : Next := issueBeat (.cas f) f s (atomBody s .cas true)

/-- One lane's RED issued: no value and no flag returns; its c enters with the acknowledgement (R166, R173). -/
def redLane (b : Beat) (s : State) (q : Passed) : State :=
  (s.touchTlb b q.place).modAgent b.a fun x => x.addOp (b.op q 0 (b.atomic false q.lane none))

/-- RED (R165, R166). -/
def execRed (f : Fields) (s : State) : Next :=
  issueBeat (.red f) f s fun b s1 =>
    if b.perf = 0 then .done s1
    else
      let n := elemBytes f.ty
      match checkAll s b (.atomic f.fn f.ty true) n n with
      | .out o => o
      | .pass l => .done (l.foldl (redLane b) s1)

/-! ### FENCE, PREF, CCTL, TESTP -/

/-- FENCE (R169): one beat; a release waits for its scope, an acquire until every earlier load's reply has landed. -/
def execFence (f : Fields) (s : State) : Next :=
  issueBeat (.fence f) f s fun b s1 =>
    if b.perf ≠ 0 ∧ acquires f.md = true ∧ (b.x.pend.any fun e => e.2.mem) = true then .block .acquire else .done s1

/-- One lane's prefetch: a line requested into the L1 under a lease, or into the slice only; dropped without effect where a check would fail
(R164, R170). It is checked as a read, so a read watchpoint drops it (DESIGN CHOICE, log entry 95). -/
def prefLane (b : Beat) (s : State) (lane : Nat) : State :=
  match laneChecks s b .load lane (addressOf b.x b.f lane) 1 1 with
  | .ok p =>
    if p.owned = .slice then
      let s1 := ((s.touchTlb b p).recall (p.loc / 128) (some b.cluster)).touchLine p (policyOf b.f.md (addressOf b.x b.f lane))
      if b.f.fn = 0 ∧ p.l1able = true then s1.fill b.cluster b.t.part b.t.asid p true else s1
    else s
  | _ => s

/-- PREF (R170). -/
def execPref (f : Fields) (s : State) : Next :=
  issueBeat (.pref f) f s fun b s1 =>
    if b.perf = 0 then .done s1 else .done (b.lanes.foldl (prefLane b) s1)

/-- One lane's zero operation issued: a write of 128 zero bytes (R171). -/
def zeroLane (b : Beat) (s : State) (q : Passed) : State :=
  (s.touchTlb b q.place).modAgent b.a fun x => x.addOp (b.op q 0 .zero)

/-- One lane's end of exclusivity: the write-back is a write that the slice serialises (R153, R171). -/
def relxLane (b : Beat) (s : State) (q : Passed) : State :=
  if q.place.owned = .slice ∧ s.holds (q.place.loc / 128) (some b.cluster) = true then s.recall (q.place.loc / 128) none else s

/-- One lane's drop of the cluster's L1 copy; a line that the cluster holds exclusively comes back first (R153, R171). -/
def dropLane (b : Beat) (s : State) (q : Passed) : State :=
  let s1 := relxLane b s q
  { s1 with l1 := s1.l1.filter fun c => !c.isCopy b.cluster b.t.part b.t.asid (q.place.va / 128) }

/-- The L1 lines of a context on a cluster dropped; those that the cluster holds exclusively come back first (R153, R171). -/
def State.dropContext (s : State) (cluster part asid : Nat) : State :=
  let mine := fun (c : L1Line) => c.cluster == cluster && c.part == part && c.asid == asid
  let s1 := (s.l1.filter mine).foldl (fun u c => if u.holds c.line (some cluster) then u.recall c.line none else u) s
  { s1 with l1 := s1.l1.filter fun c => !mine c }

/-- CCTL (R171): FN 0 zero, 1 l1drop, 2 relx, 3 l1all. -/
def execCctl (f : Fields) (s : State) : Next :=
  issueBeat (.cctl f) f s fun b s1 =>
    if b.perf = 0 then .done s1
    else if f.fn = 3 then
      .done (s1.dropContext b.cluster b.t.part b.t.asid)
    else
      match checkAll s b (if f.fn = 0 then .zero else .drop) 128 128 with
      | .out o => o
      | .pass l =>
        if f.fn = 0 then .done (l.foldl (zeroLane b) s1)
        else if f.fn = 1 then .done (l.foldl (dropLane b) s1)
        else .done (l.foldl (relxLane b) s1)

/-- TESTP (R172): presence read at the beat; the predicate fills at the reply. -/
def execTestp (f : Fields) (s : State) : Next :=
  issueBeat (.testp f) f s fun b s1 =>
    if b.perf = 0 then .done s1
    else
      match checkAll s b .test 1 1 with
      | .out o => o
      | .pass l => .done (l.foldl (fun u q =>
          let there := match q.place.owned with
            | .scratch t => !((s.team t).map fun v => Tbl.get false v.absent (q.place.loc % 2 ^ 22 / 128)).getD false
            | _ => false
          let ws := (b.replyLanes q.lane).flatMap fun l => destWrites 32 l (BitVec.ofNat 64 (b2n there)) f.d
          u.modAgent b.a fun x => deliverWrites true ws x) s1)

end Sys2Proof.Machine
end

