-- ==== Sys2Proof/Machine/Gather.lean ====
section
/-! DEFINITION. The gather engine: GATH, SCAT and SCATA (R194 to R199), and the elements and ends of their commands (R199 to R201). -/

namespace Sys2Proof.Machine

/-! ### Handles (R194) -/

/-- An entry of a handle table (R194). -/
structure Handle where
  part : Nat
  asid : Nat
  usable : Bool
  rights : Nat
  esz : Nat
  limit : Nat
  base : Nat
deriving DecidableEq, Repr, Inhabited

/-- Entry h of a partition's handle table (R194). -/
def State.handle (s : State) (part h : Nat) : Handle :=
  let x := s.readNat (locOf 0 ((s.partition part).htBase.toNat + 32 * h)) 32
  let fld := fun (lo n : Nat) => x / 2 ^ lo % 2 ^ n
  let esz := fld 96 8
  { part := fld 144 4, asid := fld 128 16,
    usable := decide (fld 127 1 = 1) && decide (fld 148 108 = 0) && decide (fld 107 20 = 0) && decide (fld 52 12 = 0)
      && decide (4 ≤ esz) && decide (esz ≤ 128) && decide (esz % 4 = 0),
    rights := fld 104 3, esz := esz, limit := fld 64 32, base := fld 0 52 }

/-! ### Issue (R196 to R199, R202) -/

/-- The operands of a GE form: which kind it is, its destination or data pointer, list, count and status. -/
structure GeArgs where
  kind : Nat
  dst : W64
  list : W64
  count : Nat
  status : Option W64
  data : W64
  h : Nat
  strict : Bool
deriving DecidableEq, Repr, Inhabited

/-- The operands of a beat of GATH (kind 0), SCAT (1) or SCATA (2) (R196). -/
def geArgs (b : Beat) (kind : Nat) : GeArgs :=
  { kind := kind, dst := regOrZero b.x b.f.d, list := regOrZero b.x b.f.a, count := (regOrZero b.x b.f.b).toNat,
    status := (match b.f.c with | .u r => some (b.x.getU r.toNat) | _ => none), data := regOrZero b.x b.f.e,
    h := bits (b.f.imm.setWidth 64) 11 0, strict := b.f.imm.getLsbD 12 }

/-- The bytes of a status area (R198, R200). -/
def statusLen (n : Nat) : Nat := 8 + 8 * ((n + 63) / 64)

/-- The destination of a gather or the data of a scatter: what R198 checks beside the list and the status. -/
def GeArgs.other (g : GeArgs) : W64 := if g.kind = 0 then g.dst else g.data

/-- A tag that a list, data or status pointer may have (R198). -/
def geTag (p : W64) : Bool := decide (tagOf p < 3) || decide (tagOf p = 4)

/-- The scratchpad bytes of a pointer lie within SCRATCH (R198). -/
def geSpan (t : Team) (p : W64) (n : Nat) : Bool := decide (n = 0) || decide (tagOf p ≠ 4) || decide (bits p 21 0 + n ≤ t.scratch)

/-- Steps 1 to 7 of R198: the code of the first check that fails. -/
def geChecks (s : State) (t : Team) (f : Fields) (g : GeArgs) : Option Byte :=
  let e := s.handle t.part g.h
  let st := g.status.toList
  let w := tyWidth f.ty / 8
  if !([g.list, g.other] ++ st).all tagOk then some 0x06
  else if !(g.list :: st).all geTag || !(if g.kind = 0 then decide (tagOf g.dst = 4) else geTag g.data) then some 0x08
  else if g.other.toNat % (if g.kind = 0 then 128 else 4) ≠ 0 ∨ g.list.toNat % 4 ≠ 0 ∨ (st.any fun p => decide (p.toNat % 8 ≠ 0)) = true then some 0x05
  else if decide (g.h ≥ (s.partition t.part).htLen.toNat) || !e.usable || decide (e.part ≠ t.part) || decide (e.asid ≠ t.asid)
      || decide (e.rights / 2 ^ g.kind % 2 = 0) || (decide (g.kind = 2) && (decide (e.esz ≠ w) || decide (e.base % e.esz ≠ 0))) then some 0x11
  else if g.count * e.esz > 65536 then some 0x01
  else if !geSpan t g.list (4 * g.count) || !geSpan t g.other (g.count * e.esz) || !(st.all fun p => geSpan t p (statusLen g.count)) then some 0x08
  else if tokenFull t (tokOf f.md) then some 0x0F
  else none

/-- The ranges that a command locks (R202); none with no element. -/
def geRanges (team : Nat) (t : Team) (g : GeArgs) (e : Handle) : List (Nat × Nat × Nat × Bool) :=
  let span := fun (p : W64) (n : Nat) (dst : Bool) => if n = 0 then [] else rangeOf team t p n dst
  if g.count = 0 then []
  else span g.list (4 * g.count) false ++ (if g.kind = 0 then [] else span g.data (g.count * e.esz) false)
    ++ span (BitVec.ofNat 64 e.base) (e.limit * e.esz) (decide (g.kind ≠ 0))
    ++ (match g.status with
        | some p => if tagOf p = 4 then [] else span p (statusLen g.count) true
        | none => [])

/-- The scratchpad lines of the destination and of the status area (R199). -/
def geLines (g : GeArgs) (e : Handle) : List Nat :=
  (if g.kind = 0 then spanLines (bits g.dst 21 0) (g.count * e.esz) else []) ++
    (match g.status with
     | some p => if tagOf p = 4 then spanLines (bits p 21 0) (statusLen g.count) else []
     | none => [])

/-- A GE command as its beat and a handle entry form it (R199). -/
def geCmd (b : Beat) (g : GeArgs) (e : Handle) : CmdKind :=
  .ge { kind := g.kind, fn := b.f.fn, ty := b.f.ty, rm := b.f.rm, strict := g.strict, dst := g.dst, list := g.list, count := g.count,
        status := g.status, data := g.data, base := e.base, limit := e.limit, esz := e.esz, idx := none, done := [], held := [] }

/-- What the issue of a GE command does once its range locks are taken: the scratchpad lines that it writes lose their presence bits, and a control
thread takes the next CSEQ (R199). -/
def geBegin (b : Beat) (g : GeArgs) (e : Handle) (u : State) : State := (u.clearPresence b.a.team (geLines g e)).takeSeq b.a

/-- The issue of a GE command (R198, R199). An instruction that finds too few free entries has raised its token, and issues when RLT_GRANT finds them
(R24, R203). -/
def geIssue (kind : Nat) (s0 : State) (b : Beat) (s : State) : Out :=
  if b.perf = 0 then .done s
  else issuedBefore s b <|
    let g := geArgs b kind
    let e := s.handle b.t.part g.h
    match geChecks s b.t b.f g with
    | some code => issueFault b code
    | none =>
      let token := fun (u : State) => u.tokenUp b.a.team (tokOf b.f.md)
      issueCommand s0 s b token (fun u => geBegin b g e (token u)) fun u =>
        cmdOf b ((u.agent b.a).getD b.x) (geCmd b g e) (tokOf b.f.md) (evOf b.f.md) (geRanges b.a.team b.t g e)

/-- What a GE instruction that waited for its range locks comes to when they are free: its checks are made once more with the handle entry as it then
stands, and it issues, or raises its fault with its token lowered (R194, R198, R203). -/
def geGrant (kind : Nat) (s : State) (b : Beat) (n : Nat) : State :=
  let g := geArgs b kind
  let e := s.handle b.t.part g.h
  let s1 := s.tokenDown b.a.team (tokOf b.f.md)
  let t := (s1.team b.a.team).getD b.t
  match geChecks s1 t b.f g with
  | some code =>
    let s2 := ({ s1 with cmds := Tbl.del s1.cmds n } : State).modAgent b.a fun x => { x with arr := { x.arr with cmd := none } }
    s2.conclude b true (issueFault b code)
  | none =>
    let rs := geRanges b.a.team b.t g e
    if s.rltRoom b.cluster rs.length then
      let s2 := geBegin b g e s
      let c := { cmdOf b ((s2.agent b.a).getD b.x) (geCmd b g e) (tokOf b.f.md) (evOf b.f.md) rs with seq := n }
      ({ s2 with cmds := Tbl.ins s2.cmds n c } : State).startCmd b.cluster n
    else s

/-- GATH (R196, R199). -/
def execGath (f : Fields) (s : State) : Next := issueBeat (.gath f) f s (geIssue 0 s)
/-- SCAT (R196, R199). -/
def execScat (f : Fields) (s : State) : Next := issueBeat (.scat f) f s (geIssue 1 s)
/-- SCATA (R196, R199). -/
def execScata (f : Fields) (s : State) : Next := issueBeat (.scata f) f s (geIssue 2 s)

/-! ### Elements (R195, R199) -/

/-- One access of a command: its number, its offset in the destination or data, its address (none for a refused element of a gather) and its
bytes. An element that spans two lines has two (R199). -/
structure GePart where
  key : Nat
  off : Nat
  addr : Option Nat
  len : Nat
deriving DecidableEq, Repr, Inhabited

/-- The accesses of element number `n` with index x. -/
def GeCmd.partsOf (g : GeCmd) (n x : Nat) : List GePart :=
  let a := g.base + x * g.esz
  let first := min g.esz (128 - a % 128)
  if x ≥ g.limit then (if g.kind = 0 then [{ key := 2 * n, off := n * g.esz, addr := none, len := g.esz }] else [])
  else { key := 2 * n, off := n * g.esz, addr := some a, len := first } ::
    (if first < g.esz then [{ key := 2 * n + 1, off := n * g.esz + first, addr := some (a + first), len := g.esz - first }] else [])

/-- The accesses of a command whose list has been read, in list order. -/
def GeCmd.parts (g : GeCmd) : List GePart :=
  ((g.idx.getD []).zipIdx).flatMap fun e => g.partsOf e.2 e.1

/-- Refused elements of a list (R195). -/
def GeCmd.refused (g : GeCmd) : List Nat := (((g.idx.getD []).zipIdx).filter fun e => decide (e.1 ≥ g.limit)).map (·.2)

/-- The number of the status area's first line; its other lines have the numbers after it. -/
def GeCmd.statusKey (g : GeCmd) : Nat := 2 * g.count

/-- The lines of a status area: number, offset in the area, address and bytes (R155, R200). -/
def GeCmd.statusParts (g : GeCmd) : List GePart :=
  match g.status with
  | none => []
  | some q =>
    let a := q.toNat
    let n := statusLen g.count
    (spanLines a n).zipIdx.map fun e =>
      { key := g.statusKey + e.2, off := max a (128 * e.1) - a, addr := some (max a (128 * e.1)), len := min (a + n) (128 * e.1 + 128) - max a (128 * e.1) }

/-- An access has been written. -/
def GeCmd.isDone (g : GeCmd) (key : Nat) : Bool := Tbl.get false g.done key

/-- The status area, where there is one, has been written (R200). -/
def GeCmd.statusDone (g : GeCmd) : Bool := g.statusParts.all fun p => g.isDone p.key

/-- An access has performed at its slice: a gather's when it has been read, another's when it has been written. -/
def GeCmd.performed (g : GeCmd) (key : Nat) : Bool := g.isDone key || (decide (g.kind = 0) && (Tbl.find? g.held key).isSome)

/-- The status area's bytes (R200). -/
def GeCmd.statusBytes (g : GeCmd) (done : Nat) : List Byte :=
  let words := (g.count + 63) / 64
  let mask := g.refused.foldl (fun n j => n + 2 ^ j) 0
  toBytes 4 g.refused.length ++ toBytes 4 done ++ toBytes (8 * words) mask

/-- A command whose list is read, if it has not been (R199). -/
def readList (s : State) (n : Nat) (g : GeCmd) : Except EPlace (GeCmd × State) :=
  match g.idx with
  | some _ => .ok (g, s)
  | none => match s.readLines n (spanLines g.list.toNat (4 * g.count)) with
    | .error e => .error e
    | .ok s1 =>
      let bs := ((Tbl.find? s1.cmds n).map fun c => c.bytes g.list.toNat (4 * g.count)).getD []
      let g1 := { g with idx := some ((List.range g.count).map fun k => ofBytes ((bs.drop (4 * k)).take 4)) }
      .ok (g1, s1.setKind n (.ge g1))

/-- An agent's access of several parts has performed some of them, and is still to perform one that names some of n bytes: an element's access to them
comes after it (R156, R202). -/
def State.halfway (s : State) (loc n : Nat) : Bool :=
  s.teams.any fun t => t.2.agents.any fun x => x.2.ops.any fun o =>
    o.2.half && decide (o.2.place.loc < loc + n) && decide (loc < o.2.place.loc + o.2.size)

/-- The place of an element's access: HOME 2 and peer pages end the command, no page replays, and an atomic must be accepted behind its page
(R199, R201); an address of 2^52 or more ends it with cause 0x08 (DESIGN CHOICE, log entry 90). A list, data or status area behind such pages is served
(DESIGN CHOICE, log entry 90). -/
def gePlace (s : State) (c : Cmd) (g : GeCmd) (addr : Nat) : EPlace :=
  let a := BitVec.ofNat 64 addr
  match s.engPlace c a (decide (g.kind ≠ 0)) with
  | .ok p =>
    if p.owned ≠ .slice then .fault 0x08
    else if g.kind ≠ 1 ∧ s.flaws.contains (p.loc / 128) = true then .fault 0x18
    else if g.kind = 2 ∧ atomicAt (.atomic g.fn g.ty true) (pteKind p.pte) = false then .fault 0x08
    else .ok p
  | .replay _ => match s.engPlace c a false with
    | .ok _ => .fault 0x08
    | _ => .fault 0x07
  | e => e

/-- The slice that an access goes to, if it translates. -/
def geOwner (s : State) (c : Cmd) (g : GeCmd) (p : GePart) : Option Nat :=
  match p.addr with
  | none => none
  | some a => match gePlace s c g a with
    | .ok q => some q.slice
    | _ => none

/-- Every earlier access that goes to the same slice has performed there (R199). -/
def geInOrder (s : State) (c : Cmd) (g : GeCmd) (p : GePart) : Bool :=
  match geOwner s c g p with
  | none => true
  | some o => (g.parts.filter fun q => decide (q.key < p.key)).all fun q => g.performed q.key || decide (geOwner s c g q ≠ some o)

/-- No agent's access stands halfway in the bytes of an element's (R202). -/
def geApart (s : State) (c : Cmd) (g : GeCmd) (p : GePart) : Bool :=
  match p.addr with
  | none => true
  | some a => match gePlace s c g a with
    | .ok q => !s.halfway q.loc p.len
    | _ => true

/-- An access's bytes read: a gather's element part at its slice, whose Wc enters the command, or a scatter's data (R144, R155, R199). -/
def geSource (s : State) (n : Nat) (c : Cmd) (g : GeCmd) (p : GePart) : Except EPlace (List Byte × State) :=
  match p.addr with
  | none => .ok (List.replicate p.len 0, s)
  | some a =>
    if g.kind = 0 then match gePlace s c g a with
      | .ok q =>
        let s1 := (s.recall (q.loc / 128) none).touchLine q 0
        .ok (s1.read q.loc p.len, s1.modCmd n fun c => { c with c := max c.c (s1.line (q.loc / 128)).wc })
      | e => .error e
    else match s.readLines n (spanLines (g.data.toNat + p.off) p.len) with
      | .ok s1 => .ok (((Tbl.find? s1.cmds n).map fun c => c.bytes (g.data.toNat + p.off) p.len).getD [], s1)
      | .error e => .error e

/-- The source of an access read, if it has not been (R155). -/
def readGePart (s : State) (n : Nat) (c : Cmd) (g : GeCmd) (p : GePart) : Except EPlace (List Byte × GeCmd × State) :=
  match Tbl.find? g.held p.key with
  | some bs => .ok (bs, g, s)
  | none => match geSource s n c g p with
    | .error e => .error e
    | .ok (bs, s1) =>
      let g1 := { g with held := Tbl.ins g.held p.key bs }
      .ok (bs, g1, s1.setKind n (.ge g1))

/-- Bytes written at consecutive addresses, one write a line; none where some line does not translate. -/
def writeSpanFrom (s : State) (n : Nat) (c : Cmd) (addr : W64) (bs : List Byte) : Nat → Option State
  | 0 => some s
  | fuel + 1 =>
    if bs = [] then some s
    else
      let m := min bs.length (128 - addr.toNat % 128)
      match s.engPlace c addr true with
      | .ok p => writeSpanFrom (s.engWrite n p (bs.take m)) n c (addr + BitVec.ofNat 64 m) (bs.drop m) fuel
      | _ => none

/-- Bytes written at consecutive addresses by a command. -/
def writeSpan (s : State) (n : Nat) (c : Cmd) (addr : W64) (bs : List Byte) : Option State :=
  writeSpanFrom s n c addr bs (bs.length / 128 + 2)

/-- Some bytes of a scratchpad and a line of it share one. -/
def meetsLine (line lo n : Nat) : Bool := decide (lo < 128 * line + 128) && decide (128 * line < lo + n)

/-- Every byte that a gather delivers in a scratchpad line has come; of one whose list has not been read, none has (R199). -/
def GeCmd.filled (g : GeCmd) (line : Nat) : Bool :=
  let d := bits g.dst 21 0
  decide (g.kind ≠ 0) || ((g.idx.isSome || !meetsLine line d (g.count * g.esz)) && g.parts.all fun p => !meetsLine line (d + p.off) p.len || g.isDone p.key)

/-- Everything that a command writes in a scratchpad line has landed (R199). -/
def GeCmd.lineDone (g : GeCmd) (line : Nat) : Bool :=
  g.filled line && (match g.status with
    | some q => decide (tagOf q ≠ 4) || g.statusParts.all fun p => !meetsLine line (bits q 21 0 + p.off) p.len || g.isDone p.key
    | none => true)

/-- The presence bits of the complete ones of some lines set. -/
def gePresent (s : State) (c : Cmd) (g : GeCmd) (lines : List Nat) : State :=
  match c.owner with
  | .agent team _ => s.setPresence team (lines.filter g.lineDone)
  | .host _ _ _ => s

/-- What a gather delivers in a scratchpad line: runs of bytes by their offset in it (R199). -/
def GeCmd.runsIn (g : GeCmd) (line : Nat) : List (Nat × List Byte) :=
  g.parts.filterMap fun p =>
    let lo := bits g.dst 21 0 + p.off
    if meetsLine line lo p.len then
      some (lo - 128 * line, (((Tbl.find? g.held p.key).getD []).drop (128 * line - lo)).take (128 * line + 128 - max lo (128 * line)))
    else none

/-- A gather's line in the scratchpad takes its bytes, once all have come (R199, R201). -/
def landGeLine (n : Nat) (c : Cmd) (g : GeCmd) (s : State) (line : Nat) : State :=
  if !g.filled line then s
  else match s.engPlace c (BitVec.ofNat 64 (4 * 2 ^ 60 + 128 * line)) true with
    | .ok p => s.engWriteRuns n p (g.runsIn line)
    | _ => s

/-- The scratchpad lines that a command has not completed, marked present at its end (R201). -/
def geRelease (s : State) (c : Cmd) (g : GeCmd) : State :=
  let all := (if g.kind = 0 then spanLines (bits g.dst 21 0) (g.count * g.esz) else []) ++
    (match g.status with | some q => if tagOf q = 4 then spanLines (bits q 21 0) (statusLen g.count) else [] | none => [])
  match c.owner with
  | .agent team _ => s.setPresence team (all.filter fun l => !g.lineDone l)
  | .host _ _ _ => s

/-- An access counts as performed: a scatter's that has been written, a gather's whose bytes stand in its scratchpad lines (DESIGN CHOICE, log entry
90). -/
def GeCmd.counts (g : GeCmd) (p : GePart) : Bool :=
  g.isDone p.key && (decide (g.kind ≠ 0) || (spanLines (bits g.dst 21 0 + p.off) p.len).all g.filled)

/-- The elements that have accesses, all of which have performed: DONE at an end in fault (R200). A refused element of a gather counts once its zeros have
landed, a refused one of a scatter does not (DESIGN CHOICE, log entry 90). -/
def GeCmd.doneCount (g : GeCmd) : Nat :=
  match g.idx with
  | none => 0
  | some idx => ((idx.zipIdx).filter fun e => decide (g.partsOf e.2 e.1 ≠ []) && (g.partsOf e.2 e.1).all g.counts).length

/-- The end of a command in fault 0x1A (R201). -/
def failGe (s : State) (n : Nat) (c : Cmd) (g : GeCmd) (cause : Nat) : State := (geRelease s c g).failCmd n c 4 cause

/-- What follows the write of some bytes of a status area, where a watchpoint matches it (R333). -/
def geWatched (s : State) (n : Nat) (c : Cmd) (q : W64) (bs : List Byte) (refuse : State → State) : State :=
  let hits := (spanLines q.toNat bs.length).filterMap fun l =>
    let a := max q.toNat (128 * l)
    match s.engPlace c (BitVec.ofNat 64 a) true with
    | .ok p => some (p.loc, (bs.drop (a - q.toNat)).take (128 * l + 128 - a))
    | _ => none
  s.engWatched n 4 (tagOf q) 0 hits refuse

/-- A command is to end in fault 0x1A: its status is written where it can be, and it ends once its writes are acknowledged (R155, R200, R201). -/
def endGe (s : State) (n : Nat) (c : Cmd) (g : GeCmd) (cause done : Nat) : State :=
  let bs := g.statusBytes done
  let s1 := match g.status with
    | some q => (writeSpan s n c q bs).getD s
    | none => s
  let s2 := s1.modCmd n fun c => { c with ending := some cause, parked := false }
  let s3 := match g.status with
    | some q => geWatched s2 n c q bs fun v => v.modCmd n fun c => { c with ending := some 0x13 }
    | none => s2
  match Tbl.find? s3.cmds n with
  | some c1 => if c1.parked || !c1.settled s3 then s3 else failGe s3 n c1 g (c1.ending.getD cause)
  | none => s3

/-- A command whose wait is refused ends; one that is about to end does so with that cause (R190, R201, R333). -/
def refuseGe (s : State) (n : Nat) (c : Cmd) (g : GeCmd) (cause : Nat) : State :=
  if c.ending.isSome then s.modCmd n fun c => { c with ending := some cause, parked := false } else endGe s n c g cause g.doneCount

/-- A GE command that runs. -/
def State.runningGe (s : State) (n : Nat) : Option (Cmd × GeCmd) :=
  match Tbl.find? s.cmds n with
  | some c => match c.kind with
    | .ge g => if c.runs then some (c, g) else none
    | _ => none
  | none => none

/-- A strict command has a refused element (R199). -/
def GeCmd.strictRefusal (g : GeCmd) : Bool := g.strict && decide (g.refused ≠ [])

/-- The write of an access whose source has been read: a gather's bytes wait for the rest of their lines (R199, R201). -/
def writePart (s : State) (n : Nat) (c : Cmd) (g : GeCmd) (p : GePart) (bs : List Byte) : State :=
  match g.kind, p.addr with
  | 0, _ =>
    let g1 := { g with done := Tbl.put false g.done p.key true }
    let lines := spanLines (bits g.dst 21 0 + p.off) p.len
    gePresent (lines.foldl (landGeLine n c g1) (s.setKind n (.ge g1))) c g1 lines
  | _, some a => match gePlace s c g a with
    | .ok q =>
      let g1 := { g with done := Tbl.put false g.done p.key true, held := Tbl.del g.held p.key }
      let s0 := if g.kind = 2 then s.recall (q.loc / 128) none else s
      let out := if g.kind = 2 then
          toBytes g.esz (atomicNew g.fn g.ty g.rm (BitVec.ofNat 64 (s0.readNat q.loc g.esz)) (BitVec.ofNat 64 (ofBytes bs))).1.toNat
        else bs
      let s1 := ((s0.setKind n (.ge g1)).engWrite n (if g.kind = 2 then q.sentOn else q) out)
      s1.engWatched n 4 0 q.loc [(0, out)] fun v => endGe v n c g1 0x13 g1.doneCount
    | _ => s
  | _, none => s

/-- A line of the status area lands, once every element has (R199, R200). -/
def landStatus (s : State) (n : Nat) (c : Cmd) (g : GeCmd) (key : Nat) : State :=
  match g.status, g.statusParts.find? fun p => p.key == key with
  | some q, some p =>
    if g.isDone key || !(g.parts.all fun p => g.isDone p.key) then s
    else
      let g1 := { g with done := Tbl.put false g.done key true }
      let bs := ((g.statusBytes g.count).drop p.off).take p.len
      match writeSpan (s.setKind n (.ge g1)) n c (q + BitVec.ofNat 64 p.off) bs with
      | some s1 =>
        let s2 := gePresent s1 c g1 (if tagOf q = 4 then spanLines (bits q 21 0 + p.off) p.len else [])
        geWatched s2 n c (q + BitVec.ofNat 64 p.off) bs fun v => v.endCmd n ((Tbl.find? v.cmds n).getD c) 0x13 fun u => failGe u n c g1 0x13
      | none => s
  | _, _ => s

/-- An access or a line of the status of a running command lands (R199). -/
def landGe (s : State) (n : Nat) (c : Cmd) (g0 : GeCmd) (key : Nat) : State :=
  match readList s n g0 with
  | .error _ => s
  | .ok (g, s1) =>
    if g.strictRefusal then s1
    else if g.statusKey ≤ key then landStatus s1 n c g key
    else match g.parts.find? fun p => p.key == key with
      | none => s1
      | some p =>
        if g.isDone key || !geInOrder s1 c g p || !geApart s1 c g p then s1
        else match readGePart s1 n c g p with
          | .error _ => s1
          | .ok (bs, g1, s2) => writePart s2 n c g1 p bs

/-- GE_COMPLETE (R199, R200): once everything has landed and is acknowledged. -/
def execGeComplete (cmd : Nat) (s : State) : Next :=
  match s.runningGe cmd with
  | none => .next s
  | some (c, g) =>
    let all := (g.idx.isSome || decide (g.count = 0)) && !g.strictRefusal && (g.parts.all fun p => g.isDone p.key)
      && g.statusDone
    if all && c.settled s then .next (s.completeCmd cmd c 4 (min g.refused.length 255)) else .next s

/-- The cause that a failing place of a command gives: no page replays (R201). -/
def EPlace.cause : EPlace → Option Nat
  | .fault k => some k
  | .replay _ => some 0x07
  | _ => none

/-- The cause that a place which is to be written gives: a page that may be read and not written fails with 0x08 (R201). -/
def writeCause (s : State) (c : Cmd) (addr : W64) : Option Nat :=
  match s.engPlace c addr true with
  | .ok _ => none
  | .replay _ => (match s.engPlace c addr false with | .ok _ => some 0x08 | _ => some 0x07)
  | e => e.cause

/-- The cause for which an access of a command that has not landed ends it. -/
def partCause (s : State) (n : Nat) (c : Cmd) (g : GeCmd) (p : GePart) : Option Nat :=
  if g.isDone p.key then none
  else match p.addr.bind fun a => (match gePlace s c g a with | .ok _ => none | e => e.cause) with
    | some k => some k
    | none => match geSource s n c g p with
      | .error e => e.cause
      | .ok _ => none

/-- The cause for which a running command ends, if there is one (R199, R201): of several, that of the list, then of the first element in list order, then of
the status area (DESIGN CHOICE, log entry 90). -/
def geCause (s : State) (n : Nat) (c : Cmd) (g0 : GeCmd) : Option (Nat × GeCmd) :=
  match readList s n g0 with
  | .error e => e.cause.map fun k => (k, g0)
  | .ok (g, s1) =>
    if g.strictRefusal then some (0x11, g)
    else
      let st := (g.statusParts.filter fun p => !g.isDone p.key).filterMap fun p => writeCause s c (BitVec.ofNat 64 (p.addr.getD 0))
      (g.parts.filterMap (partCause s1 n c g) ++ st).head?.map fun k => (k, g)

/-- GE_FAULT (R199, R201). -/
def execGeFault (cmd : Nat) (s : State) : Next :=
  match (Tbl.find? s.cmds cmd).bind fun c => (match c.kind with | .ge g => c.ending.map fun cause => (c, g, cause) | _ => none) with
  | some (c, g, cause) => .next (if c.settled s && !c.parked then failGe s cmd c g cause else s)
  | none => match s.runningGe cmd with
    | none => .next s
    | some (c, g) => match geCause s cmd c g with
      | some (cause, g1) => .next (endGe (s.setKind cmd (.ge g1)) cmd c g1 cause (if g1.strictRefusal then 0 else g1.doneCount))
      | none => .next s

end Sys2Proof.Machine
end

