-- ==== Sys2Proof/Machine/GroupOps.lean ====
section
/-! DEFINITION. Group operations (R71, R119 to R126): each performs as a whole over the contributing lanes. -/

namespace Sys2Proof.Machine

/-- A value operand of a lane, as a number. -/
def Beat.num (b : Beat) (s : Slot) (o : Operand) (lane : Nat) : Nat := (readOp b.x lane (slotWidth s) b.signed b.f.imm 0 o).toNat

/-- The A value of a lane. -/
def Beat.valA (b : Beat) (lane : Nat) : W64 := readOp b.x lane (slotWidth b.row.a) b.signed b.f.imm 0 b.f.a

/-- An empty bit among registers read in lanes of their own: it traps under the FE bit, else it blocks (R55, R119). -/
def laneCheck (b : Beat) (s : Slot) (o : Operand) (lanes : List Nat) (fe : Nat) (o2 : Out) : Out :=
  if slotEmpty b.x Slot.isSrc s o lanes then
    if b.f.fe.getLsbD fe then .fault (beatFault 0x04 b.perf 0 false) else .block .empty
  else o2

/-- Results delivered to contributing lanes (R119). -/
def groupDone (b : Beat) (long : Bool) (s : State) (ws : List RegWrite) (fl : FpFlags) : Out :=
  .done (s.modAgent b.a fun x => deliverWrites long ws { x with fp := x.fp ||| fl })

/-- The source lane of SHFL for lane i (R120). -/
def shflSource (fn : BitVec 4) (w b i : Nat) : Nat :=
  let base := i - i % w
  let inSeg := fun (j : Nat) => if base ≤ j ∧ j < base + w then j else i
  match fn.toNat with
  | 0 => inSeg (base + b % w)
  | 1 => if b ≤ i then inSeg (i - b) else i
  | 2 => inSeg (i + b)
  | _ => inSeg (i ^^^ (b % w))

/-- The segment width of SHFL (R120). -/
def shflWidth (c : Nat) : Nat := if [1, 2, 4, 8, 16, 32].contains c then c else 32

/-- SHFL (R120). -/
def execShfl (f : Fields) (s : State) : Next :=
  issueBeat (.shfl f) f s fun b s1 =>
    if b.perf = 0 then .done s1
    else
      let src := fun i => shflSource f.fn (shflWidth (b.num b.row.c f.c i)) (b.num b.row.b f.b i) i
      laneCheck b b.row.a f.a ((lanesIn b.perf).map src) 0
        (groupDone b false s1 ((lanesIn b.perf).flatMap fun i => destWrites (slotWidth b.row.d) i (b.valA (src i)) f.d) 0)

/-- The predicate A of a lane. -/
def Beat.predA (b : Beat) (lane : Nat) : Bool := match b.f.a with | .p r => b.x.getP r.toNat lane | _ => false

/-- VOTE (R121). -/
def voteResult (fn : BitVec 4) (lanes : List Nat) (p : Nat → Bool) : W64 :=
  match fn.toNat with
  | 0 => BitVec.ofNat 64 (b2n (lanes.all p))
  | 1 => BitVec.ofNat 64 (b2n (lanes.any p))
  | 2 => (maskOf lanes p).setWidth 64
  | _ => BitVec.ofNat 64 (b2n (lanes.all p || lanes.all fun i => !p i))

/-- VOTE (R121). -/
def execVote (f : Fields) (s : State) : Next :=
  issueBeat (.vote f) f s fun b s1 =>
    if b.perf = 0 then .done s1
    else groupDone b false s1 ((lanesIn b.perf).flatMap fun i => destWrites 32 i (voteResult f.fn (lanesIn b.perf) b.predA) f.d) 0

/-- Two lane values combined, either of which may be absent (R122). -/
def combine (op : W64 → W64 → W64 × FpFlags) (x y : Option W64 × FpFlags) : Option W64 × FpFlags :=
  match x.1, y.1 with
  | none, _ => (y.1, x.2 ||| y.2)
  | _, none => (x.1, x.2 ||| y.2)
  | some a, some b => let r := op a b; (some r.1, x.2 ||| y.2 ||| r.2)

/-- One level of the tree: neighbours combined (R122). -/
def treeLevel (op : W64 → W64 → W64 × FpFlags) : List (Option W64 × FpFlags) → List (Option W64 × FpFlags)
  | x :: y :: rest => combine op x y :: treeLevel op rest
  | l => l

/-- The fixed tree of GRED over 32 lanes (R122). -/
def gredTree (op : W64 → W64 → W64 × FpFlags) (xs : List (Option W64)) : W64 × FpFlags :=
  let l0 := xs.map fun x => (x, (0 : FpFlags))
  let r := (treeLevel op (treeLevel op (treeLevel op (treeLevel op (treeLevel op l0))))).headD (none, 0)
  (r.1.getD 0, r.2)

/-- GRED (R122). -/
def execGred (f : Fields) (s : State) : Next :=
  issueBeat (.gred f) f s fun b s1 =>
    if b.perf = 0 then .done s1
    else
      let r := gredTree (redOp f.fn.toNat f.ty f.rm) (lanes32.map fun i => if b.perf.getLsbD i then some (b.valA i) else none)
      let v := redDeliver f.fn.toNat r.1
      let n := BitVec.ofNat 64 (lanesIn b.perf).length
      groupDone b true s1 ((lanesIn b.perf).flatMap fun i => destWrites (slotWidth b.row.d) i v f.d ++ destWrites 32 i n f.e) r.2

/-- The value that the first lane of an exclusive scan receives (R123). -/
def scanIdentity (fn : Nat) (ty : DType) : W64 :=
  match fn with
  | 1 => wrapTo (tyWidth ty) (tyMax ty)
  | 2 => wrapTo (tyWidth ty) (tyMin ty)
  | 3 => wrapTo (tyWidth ty) (-1)
  | 6 => 0x80000000#64
  | _ => 0

/-- The inclusive values of a scan over lanes in ascending order, from the value of the lane before, and the flags (R123). -/
def scanFrom (op : W64 → W64 → W64 × FpFlags) (val : Nat → W64) : Option W64 → List Nat → List (Nat × W64) × FpFlags
  | _, [] => ([], 0)
  | prev, i :: rest =>
    let r := match prev with
      | none => (val i, (0 : FpFlags))
      | some p => op p (val i)
    let t := scanFrom op val (some r.1) rest
    ((i, r.1) :: t.1, r.2 ||| t.2)

/-- The exclusive values: each lane receives its predecessor's inclusive value (R123). -/
def shiftScan (first : W64) : List (Nat × W64) → List (Nat × W64)
  | [] => []
  | (i, x) :: rest => (i, first) :: shiftScan x rest

/-- GSCAN (R123). The values are delivered as R107 asks; each sum is formed from the value of the lane before as it was (log entry 69). -/
def execGscan (f : Fields) (s : State) : Next :=
  issueBeat (.gscan f) f s fun b s1 =>
    if b.perf = 0 then .done s1
    else
      let fn := f.fn.toNat % 8
      let r := scanFrom (redOp fn f.ty f.rm) b.valA none (lanesIn b.perf)
      let ys := if f.fn.getLsbD 3 then shiftScan (scanIdentity fn f.ty) r.1 else r.1
      let total := ((r.1.getLast?).map fun e => e.2).getD 0
      groupDone b true s1 (ys.flatMap fun e =>
        destWrites (slotWidth b.row.d) e.1 (redDeliver fn e.2) f.d ++ destWrites (slotWidth b.row.e) e.1 (redDeliver fn total) f.e) r.2

/-- The row and offset of a position among rows of lengths from row j on, `pre` being the sum of the lengths before; none past the end
(R124). -/
def rowOfPos : List Nat → Nat → Nat → Nat → Option (Nat × Nat)
  | [], _, _, _ => none
  | n :: rest, j, pre, pos => if pos < pre + n then some (j, pos - pre) else rowOfPos rest (j + 1) (pre + n) pos

/-- REBAL (R124). The cursor is read in the lowest lane of A(P) (R119). -/
def execRebal (f : Fields) (s : State) : Next :=
  issueBeat (.rebal f) f s fun b s1 =>
    if b.perf = 0 then .done s1
    else
      let lens := lanes32.map fun j => if b.perf.getLsbD j then (b.valA j).toNat else 0
      let total := lens.foldl (· + ·) 0
      let c := b.num b.row.b f.b (lowestLane b.act)
      let g := min (min (c + 32) total) (2 ^ 32 - 1)
      laneCheck b b.row.b f.b [lowestLane b.act] 1
        (groupDone b true s1 ((lanesIn b.perf).flatMap fun i =>
          let re := (rowOfPos lens 0 0 (c + i)).getD (2 ^ 32 - 1, 0)
          destWrites 32 i (BitVec.ofNat 64 re.1) f.d ++ destWrites 32 i (BitVec.ofNat 64 re.2) f.e
            ++ destWrites 32 i (BitVec.ofNat 64 g) f.g) 0)

/-- RDLN (R125). -/
def execRdln (f : Fields) (s : State) : Next :=
  issueBeat (.rdln f) f s fun b s1 =>
    if b.perf = 0 then .done s1
    else
      let lane := b.num b.row.b f.b (lowestLane b.act) % 32
      laneCheck b b.row.a f.a [lane] 0
        (groupDone b false s1 ((lanesIn b.perf).flatMap fun i => destWrites (slotWidth b.row.d) i (b.valA lane) f.d) 0)

/-- MATCH (R126). -/
def execMtch (f : Fields) (s : State) : Next :=
  issueBeat (.mtch f) f s fun b s1 =>
    if b.perf = 0 then .done s1
    else
      let mask := fun i => maskOf (lanesIn b.perf) fun j => decide (b.valA j = b.valA i)
      let lanes := lanesIn b.perf
      groupDone b false s1 (lanes.flatMap fun i =>
        destWrites 32 i ((mask (if f.uni then lowestLane b.act else i)).setWidth 64) f.d) 0

end Sys2Proof.Machine
end

