-- ==== Sys2Proof/Machine/MatrixMath.lean ====
section
/-! DEFINITION. Matrix number formats and accumulation (R220 to R231): records, element places, sub-blocks, and DRAIN's requantisation. -/

namespace Sys2Proof.Machine

/-! ### Formats (R222) and records (R228) -/

/-- The bits of an element and the elements in a 32-bit word of a format code (R222). -/
def mxSlots : Nat → Nat × Nat
  | 0 => (6, 5) | 1 => (4, 8) | 2 => (6, 5) | 3 => (6, 5) | 4 => (8, 4) | 5 => (8, 4) | 6 => (8, 4) | _ => (16, 2)

/-- The k that Ox steps in a clock for a format (R222). -/
def mxRate : Nat → Nat
  | 0 => 16 | 1 => 16 | 7 => 4 | 8 => 4 | _ => 8

/-- emax of a format for requantisation (R222). -/
def mxEmax : Nat → Int
  | 0 => 3 | 1 => 2 | 2 => 2 | 3 => 4 | 4 => 8 | _ => 15

/-- The floating-point layout of a format; none for L6 and INT8 (R222). -/
def mxFmt : Nat → Option Fmt
  | 7 => some fmtBf16
  | 8 => some fmtF16
  | n => cvtsFmt n

/-- The block length of a BLK code (R228). -/
def blkLen : Nat → Nat
  | 0 => 0 | 1 => 16 | 2 => 32 | _ => 64

/-- The fields of a reservation record (R228). -/
def recFmt (w : W64) : Nat := bits w 3 0
/-- BL of a record. -/
def recBl (w : W64) : Nat := blkLen (bits w 5 4)
/-- ORIENT of a record: k-outer. -/
def recOuter (w : W64) : Bool := bit w 6
/-- LINES of a record. -/
def recLines (w : W64) : Nat := bits w 21 8
/-- SOFF of a record. -/
def recSoff (w : W64) : Nat := bits w 37 24
/-- PITCH of a record. -/
def recPitch (w : W64) : Nat := bits w 55 40

/-- A record that OBRES accepts (R228). -/
def recOk (w : W64) : Bool :=
  decide (bits w 63 56 = 0) && decide (bits w 39 38 = 0) && decide (bits w 23 22 = 0) && decide (bits w 7 7 = 0) && decide (recFmt w ≤ 8)
    && (decide (recFmt w ≤ 5) || decide (bits w 5 4 = 0)) && (if bits w 5 4 = 0 then decide (recSoff w = 0) else decide (recSoff w < recLines w))
    && decide (1 ≤ recLines w) && decide (recLines w ≤ 8192) && decide (recPitch w ≠ 0) && decide (recPitch w % 4 = 0)

/-- The pairings of R223, with their rates. -/
def pairRate (a b : Nat) : Option Nat :=
  if a = b ∧ (a = 0 ∨ a = 6 ∨ a = 7 ∨ a = 8) then some (mxRate a)
  else if 1 ≤ a ∧ a ≤ 5 ∧ 1 ≤ b ∧ b ≤ 5 then some (min (mxRate a) (mxRate b))
  else none

/-- The sub-block length of two block lengths (R224). -/
def subLen (a b : Nat) : Nat := if a = 0 then (if b = 0 then 16 else b) else if b = 0 then a else min a b

/-! ### Where elements lie (R229, R244) -/

/-- An operand of a command: FMT, BL, ORIENT, PITCH and SOFF. -/
structure Layout where
  fmt : Nat
  bl : Nat
  outer : Bool
  pitch : Nat
  soff : Nat
deriving DecidableEq, Repr, Inhabited

/-- The layout of an operand: its record's, with the register's pitch for one that streams from scratchpad (R244). -/
def OxSrc.layout (o : OxSrc) : Layout :=
  { fmt := recFmt o.word, bl := recBl o.word, outer := recOuter o.word, soff := recSoff o.word,
    pitch := match o.sp with | some (r, _) => bits r 63 32 | none => recPitch o.word }

/-- The byte offset of the word that holds (r, k), and its slot (R229). -/
def Layout.wordAt (l : Layout) (r k : Nat) : Nat × Nat :=
  let p := (mxSlots l.fmt).2
  if l.outer then (k * l.pitch + 4 * (r / p), r % p) else (r * l.pitch + 4 * (k / p), k % p)

/-- The byte offset of the scale of row r, block b (R229). -/
def Layout.scaleAt (l : Layout) (r b : Nat) : Nat := 128 * l.soff + 64 * b + r

/-- The end of the elements (r, k) for r below 64 and k up to kmax. -/
def Layout.elemEnd (l : Layout) (kmax : Nat) : Nat := (l.wordAt 63 kmax).1 + 4

/-- The first element byte for k from k0 on. -/
def Layout.elemStart (l : Layout) (k0 : Nat) : Nat := (l.wordAt 0 k0).1

/-- The end of everything that k0 to kmax address. -/
def Layout.areaEnd (l : Layout) (kmax : Nat) : Nat :=
  if l.bl = 0 then l.elemEnd kmax else max (l.elemEnd kmax) (l.scaleAt 63 (kmax / l.bl) + 1)

/-- The start of everything that k0 on addresses. -/
def Layout.areaStart (l : Layout) (k0 : Nat) : Nat :=
  if l.bl = 0 then l.elemStart k0 else min (l.elemStart k0) (l.scaleAt 0 (k0 / l.bl))

/-- A code read through a byte reader. -/
def codeAt (l : Layout) (rd : Nat → Byte) (r k : Nat) : Nat :=
  let w := l.wordAt r k
  let n := ofBytes [rd w.1, rd (w.1 + 1), rd (w.1 + 2), rd (w.1 + 3)]
  n / 2 ^ ((mxSlots l.fmt).1 * w.2) % 2 ^ (mxSlots l.fmt).1

/-- A scale read through a byte reader; 127 for an unscaled operand (R224). -/
def scaleOf (l : Layout) (rd : Nat → Byte) (r k : Nat) : Nat :=
  if l.bl = 0 then 127 else (rd (l.scaleAt r (k / l.bl))).toNat

/-! ### Accumulation (R221, R225 to R227) -/

/-- The table T of R221. -/
def l6Table : Nat → Nat
  | 0 => 16384 | 1 => 19484 | 2 => 23170 | _ => 27554

/-- The product of two L6 codes in units of 2^-22 (R221). -/
def l6Product (a b : Nat) : FpVal :=
  if a % 32 = 16 ∨ b % 32 = 16 then .fin false 0 (-22)
  else
    let l := l6Quarters a + l6Quarters b
    .fin (a / 32 % 2 != b / 32 % 2) (l6Table (l % 4).toNat * 2 ^ (l / 4 + 8).toNat) (-22)

/-- The product of two element codes of their formats (R226). -/
def mxProduct (fa fb a b : Nat) : FpVal :=
  match mxFmt fa, mxFmt fb with
  | some f, some g => (mulVals (f.decode a) (g.decode b)).1
  | _, _ => l6Product a b

/-- `rne_f32` (R225). -/
def rneF32 (v : FpVal) : Nat := (fmtF32.deliver .rne false v).1

/-- The rounded sum of a sub-block's products; a zero sum gives +0 (R226). -/
def subblock (ea eb : Nat) (ps : List FpVal) : FpVal :=
  if ea = 255 ∨ eb = 255 then .nan false
  else match (sumVals .rne ps).1 with
    | .fin _ 0 _ => .fin false 0 0
    | v => fmtF32.decode (rneF32 v)

/-- An accumulator element after a sub-block with its scales (R225). -/
def accumulate (c : W32) (ea eb : Nat) (ps : List FpVal) : W32 :=
  let t := fmtF32.decode (rneF32 (scaleVal (((ea : Int) - 127) + ((eb : Int) - 127)) (subblock ea eb ps)))
  BitVec.ofNat 32 (rneF32 (sumVals .rne [fmtF32.decode c.toNat, t]).1)

/-- A code of a signed byte as an integer. -/
def int8 (c : Nat) : Int := (BitVec.ofNat 8 c).toInt

/-- An INT32 accumulator element after K products (R227). -/
def accumulateInt (c : W32) (ps : List (Nat × Nat)) : W32 :=
  c + BitVec.ofInt 32 (ps.foldl (fun z p => z + int8 p.1 * int8 p.2) (0 : Int))

/-- The tile's elements after one step over the given k for the given rows (R225, R246). -/
def stepTile (els : Tbl W32) (la lb : Layout) (ra rb : Nat → Byte) (rows : List Nat) (ks : List Nat) : Tbl W32 :=
  (List.range 4096).filterMap fun i =>
    let old := Tbl.get 0 els i
    let m := i / 64
    let n := i % 64
    let new :=
      if !rows.contains m then old
      else if la.fmt = 6 then accumulateInt old (ks.map fun k => (codeAt la ra m k, codeAt lb rb n k))
      else
        let k0 := ks.headD 0
        accumulate old (scaleOf la ra m k0) (scaleOf lb rb n k0)
          (ks.map fun k => mxProduct la.fmt lb.fmt (codeAt la ra m k) (codeAt lb rb n k))
    if new = 0 then none else some (i, new)

/-! ### Requantisation (R230, R231) -/

/-- A plain element of a drain: raw, bf16 or f16 (R230). -/
def plainElem (kind : Nat) (x : W32) : Nat :=
  match kind with
  | 0 => x.toNat
  | 1 => (fmtBf16.deliver .rne false (fmtF32.decode x.toNat)).1
  | _ => (fmtF16.deliver .rne false (fmtF32.decode x.toNat)).1

/-- The bytes of a plain element (R247). -/
def plainBytes (kind : Nat) : Nat := if kind = 0 then 4 else 2

/-- `conv` of R231. -/
def requantElem (fmt : Nat) (e : Int) (v : FpVal) : Nat :=
  match cvtsFmt fmt with
  | none => (toL6 v (e - 127)).1
  | some f => (f.deliverSat .rne (scaleVal (127 - e) v)).1

/-- The code of +0 in a format (R231). -/
def mxZero (fmt : Nat) : Nat := if fmt = 0 then 0x10 else 0

/-- A block's scale byte and codes (R231). -/
def requantBlock (fmt : Nat) (xs : List W32) : Nat × List Nat :=
  let vs := xs.map fun x => fmtF32.decode x.toNat
  let isInf : FpVal → Bool := fun v => match v with | .inf _ => true | _ => false
  let isZero : FpVal → Bool := fun v => match v with | .fin _ 0 _ => true | _ => false
  if vs.any FpVal.isNan then
    (255, vs.map fun _ => if fmt = 4 then 0x7F else if fmt = 5 then 0x7E else mxZero fmt)
  else if vs.any isInf then (254, vs.map (requantElem fmt 254))
  else if vs.all isZero then (0, vs.map fun _ => mxZero fmt)
  else
    let top := vs.foldl (fun (m : Int) v => match v with
      | .fin _ 0 _ => m
      | .fin _ k e => max m ((Nat.log2 k : Int) + e)
      | _ => m) (-1000)
    let e := max 0 (min 254 (top - mxEmax fmt + 127))
    (e.toNat, vs.map (requantElem fmt e))

/-- The codes of a block packed P to a word (R222, R247); the slots of its last word that have no element are zero (DESIGN CHOICE, log entry 96). -/
def packBlock (fmt : Nat) (codes : List Nat) : List Byte :=
  let sl := mxSlots fmt
  (List.range ((codes.length + sl.2 - 1) / sl.2)).flatMap fun w =>
    toBytes 4 ((List.range sl.2).foldl (fun n k => n + (codes.getD (w * sl.2 + k) 0) * 2 ^ (sl.1 * k)) 0)

end Sys2Proof.Machine
end

