-- ==== Sys2Proof/Machine/Special.lean ====
section
/-! DEFINITION. Special registers and queue status (R77, R127 to R130). -/

namespace Sys2Proof.Machine

/-- ARCHREV (R4). -/
def archRev : W64 := 0x0100#64

/-- The launch of a team's grid; a team of no grid has none (R275). -/
def State.launchOf (s : State) (t : Team) : Option Launch := (Tbl.find? s.grids t.grid).map fun g => g.launch

/-- The lanes that are not DONE (R77). -/
def Agent.liveMask (x : Agent) : LaneMask := maskOf x.laneNos fun i => !decide ((x.lane i).s = .done)

/-- The value of a special register for a lane (R77, R130). A privileged thread's team has no grid and no class: it reads 0 in TEAMX to TEAMZ, GRIDX
to GRIDZ, PRIOCLASS and ARGS, of which the spec is silent (DESIGN CHOICE, log entry 70). -/
def special (s : State) (b : Beat) (lane n : Nat) : W64 :=
  let g := b.x.isGroup
  let l := s.launchOf b.t
  let num := fun (k : Nat) => BitVec.ofNat 64 k
  match n with
  | 0x00 => num (if g then lane else 0)
  | 0x01 => if g then num b.a.who else 0xFFFFFFFF#64
  | 0x02 => num (b.t.g0 + b.t.g1)
  | 0x03 => num b.t.x
  | 0x04 => num b.t.y
  | 0x05 => num b.t.z
  | 0x06 => num ((l.map fun l => l.gx).getD 0)
  | 0x07 => num ((l.map fun l => l.gy).getD 0)
  | 0x08 => num ((l.map fun l => l.gz).getD 0)
  | 0x09 => if g then num b.x.role else 0xFFFFFFFF#64
  | 0x0A => num b.cluster
  | 0x0B => num (dieOf b.cluster)
  | 0x0C => num s.dtime
  | 0x0D => b.x.cseq.setWidth 64
  | 0x0E => b.x.n
  | 0x0F => b.x.p.setWidth 64
  | 0x10 => if g then b.x.f.setWidth 64 else (b.x.lane 0).d.setWidth 64
  | 0x11 => if g then b.x.liveMask.setWidth 64 else 1
  | 0x12 => if g then b.x.arr.a.setWidth 64 else 1
  | 0x13 => b.x.fp.setWidth 64
  | 0x14 => archRev
  | 0x15 => num b.t.cls
  | 0x16 => (l.map fun l => l.args).getD 0
  | 0x17 => 0x4000000000000000#64
  | 0x18 => if g then 0x6000000000000800#64 else 0x6000000000000000#64
  | 0x19 => num (b2n b.t.shedNote)
  | _ => 0

/-- A DTIME read for some lanes: logged, or taken from the log in a replay run (R334, R335). -/
def readTime (s0 : State) (b : Beat) (s : State) : Out :=
  if replaying (s.tctlOf b.t) then
    match s.logTake b.a b.x 0x12 b.lanes with
    | .taken ls s1 => finishOrPark s0 b false s1 ((b.lanes.zip ls).map fun e => (e.1, resV e.2.p1))
    | .wait => .block .replayRoom
    | .differs => replayStop b s0
  else if !s.logRoom b.t b.lanes.length || !s.logReady b.t b.x then .block .replayRoom
  else
    let v := BitVec.ofNat 64 s.dtime
    match finishOrPark s0 b false s (b.lanes.map fun l => (l, resV v)) with
    | .done s1 => .done (b.lanes.foldl (fun u l => u.logPut b.a.team (valueRec b.t b.a.who b.x 0x12 (BitVec.ofNat 32 l) v)) s1)
    | o => o

/-- MFS (R127, R130). -/
def execMfs (f : Fields) (s : State) : Next :=
  issueBeat (.mfs f) f s fun b s1 =>
    if b.perf = 0 then .done s1
    else if f.imm = 0x0C then readTime s b s1
    else finishOrPark s b false s1 (b.lanes.map fun l => (l, resV (special s b l f.imm.toNat)))

/-- MTS FPFLAGS (R128). -/
def execMts (f : Fields) (s : State) : Next :=
  issueBeat (.mts f) f s fun b s1 =>
    if b.perf = 0 then .done s1
    else withQueue s b s1 [] fun w bs s2 =>
      .done (s2.modAgent b.a fun x => { x with fp := ((valsOf b w bs (b.lanes.headD 0)).a).setWidth 5 })

/-- The number of entries that a queue holds (R129). -/
def Team.fillOf (t : Team) (q : Nat) : Nat :=
  if q < 8 ∨ q = 15 then (t.queue q).length
  else if !bound (t.bind q) then 0
  else if q < 12 then (t.ring q).fill
  else if q < 14 then (Tbl.get [] t.drain q).length
  else 0

/-- QSTAT (R129). -/
def execQstat (f : Fields) (s : State) : Next :=
  issueBeat (.qstat f) f s fun b s1 =>
    if b.perf = 0 then .done s1
    else
      let n := match f.a with | .q q => b.t.fillOf q.toNat | _ => 0
      finishLanes b false s1 (b.lanes.map fun l => (l, resV (BitVec.ofNat 64 n)))

end Sys2Proof.Machine
end

