-- ==== Sys2Proof/Machine/Matrix.lean ====
section
/-! DEFINITION. Ox: ranges, tiles and bindings (R215 to R218, R232 to R242), and the issue of MMA, MMAG, ACZERO and DRAIN (R243, R244, R246,
R247). -/

namespace Sys2Proof.Machine

/-! ### Ranges (R236, R237) -/

/-- Lines f to f + n - 1 of a region are free. -/
def linesFree (t : Team) (f n : Nat) : Bool :=
  decide (f + n ≤ t.obl) && t.ranges.all fun e => decide (f + n ≤ e.2.first) || decide (e.2.first + recLines e.2.word ≤ f)

/-- The lowest line from which n lines are free: the start of the region or the end of a range (R236). -/
def firstFit (t : Team) (n : Nat) : Option Nat :=
  leastOf ((0 :: t.ranges.map fun e => e.2.first + recLines e.2.word).filter fun f => linesFree t f n)

/-- A 64-bit result of a control thread's instruction written to its D. -/
def resultTo (b : Beat) (w : W64) (s : State) : State := s.modAgent b.a fun x => x.writeAll (destWrites 64 0 w b.f.d)

/-- OBRES (R236). -/
def execObres (f : Fields) (s : State) : Next :=
  issueBeat (.obres f) f s fun b s1 =>
    if b.perf = 0 then .done s1
    else
      let id := f.fn.toNat
      let w := regOrZero b.x f.a
      if !recOk w || (Tbl.find? b.t.ranges id).isSome then issueFault b 0x12
      else match firstFit b.t (recLines w) with
        | none => .done (resultTo b 0xFFFFFFFFFFFFFFFF#64 s1)
        | some l =>
          let s2 := (s1.clear (obLoc b.a.team (l * 128)) (recLines w * 128)).modTeam b.a.team fun t =>
            { t with ranges := Tbl.ins t.ranges id { word := w, first := l } }
          .done (resultTo b (BitVec.ofNat 64 l) s2)

/-- An operand is read from a range, in place or from its ring. -/
def OxSrc.reads (o : OxSrc) (id : Nat) : Bool := o.sp.isNone && o.range == id

/-- A command reads a range. -/
def OxCmd.readsRange (k : OxCmd) (id : Nat) : Bool :=
  match k.kind with
  | .mma a b _ _ => a.reads id || b.reads id
  | .mmag a b _ _ _ _ _ => a.reads id || b.reads id
  | _ => false

/-- The matrix commands of a team, by number. -/
def State.oxOf (s : State) (team : Nat) : List (Nat × Cmd × OxCmd) :=
  s.cmds.filterMap fun e => match e.2.owner, e.2.kind with
    | .agent t _, .ox k => if t = team then some (e.1, e.2, k) else none
    | _, _ => none

/-- The feed queues bound to a range. -/
def Team.feedsOf (t : Team) (id : Nat) : List Nat :=
  [8, 9, 10, 11].filter fun q => bound (t.bind q) && decide (bits (t.bind q) 3 0 = id)

/-- A queue's binding set to zero and its entries discarded (R218). -/
def Team.unbind (t : Team) (q : Nat) : Team :=
  { t with qbind := Tbl.put 0 t.qbind q 0, rings := Tbl.del t.rings q, drain := Tbl.del t.drain q }

/-- OBREL (R237). -/
def execObrel (f : Fields) (s : State) : Next :=
  issueBeat (.obrel f) f s fun b s1 =>
    let id := f.fn.toNat
    if b.perf = 0 then .done s1
    else if (Tbl.find? b.t.ranges id).isNone then issueFault b 0x12
    else if (s.oxOf b.a.team).any fun e => e.2.2.readsRange id then .block .range
    else .done (s1.modTeam b.a.team fun t =>
      let t1 := (t.feedsOf id).foldl Team.unbind t
      { t1 with ranges := Tbl.del t1.ranges id })

/-! ### Tiles (R239 to R241) -/

/-- Tiles of a cluster's pool that no resident team holds (R232). -/
def State.freeTiles (s : State) (cluster : Nat) : Nat :=
  32 - s.teams.foldl (fun n e => if e.2.engCluster = some cluster then n + e.2.tiles.length else n) 0

/-- The n lowest names that a team does not hold (R239). -/
def Team.newNames (t : Team) (n : Nat) : List Nat := ((List.range 32).filter fun k => (Tbl.find? t.tiles k).isNone).take n

/-- n tiles given to a team: every element +0, TYPE unset; the answer waits for its thread (R239). -/
def Team.giveTiles (t : Team) (n : Nat) : Team :=
  { t with tiles := (t.newNames n).foldl (fun m k => Tbl.ins m k { els := [], ty := none }) t.tiles, alloc := none,
           allocated := some (BitVec.ofNat 64 ((t.newNames n).foldl (fun m k => m + 2 ^ k) 0)) }

/-- The teams of a cluster with a blocked ACALLOC, with their ages and counts. -/
def State.blockedAllocs (s : State) (cluster : Nat) : List (Nat × Nat × Nat) :=
  s.teams.filterMap fun e => if e.2.cluster = some cluster then e.2.alloc.map fun n => (e.1, e.2.age, n) else none

/-- The oldest blocked request. -/
def oldestAlloc (l : List (Nat × Nat × Nat)) : Option (Nat × Nat × Nat) :=
  l.find? fun e => l.all fun g => decide (e.2.1 ≤ g.2.1)

/-- Blocked requests served in strict order of age while they fit (R239). -/
def State.serveTiles (s : State) (cluster : Nat) : Nat → State
  | 0 => s
  | k + 1 => match oldestAlloc (s.blockedAllocs cluster) with
    | none => s
    | some (team, _, n) =>
      if n ≤ s.freeTiles cluster then (s.modTeam team fun t => t.giveTiles n).serveTiles cluster k else s

/-- A team whose thread is not blocked in ACALLOC holds a tile (R240). -/
def Team.canFree (t : Team) : Bool := decide (t.tiles ≠ []) && t.alloc.isNone

/-- The test of R240: every blocked request but the oldest fails. -/
def State.failTiles (s : State) (cluster : Nat) : State :=
  match oldestAlloc (s.blockedAllocs cluster) with
  | none => s
  | some (old, _, _) =>
    if s.teams.any fun e => decide (e.2.engCluster = some cluster) && e.2.canFree then s
    else { s with teams := s.teams.map fun e =>
      if e.2.cluster = some cluster ∧ e.1 ≠ old ∧ e.2.alloc.isSome = true then
        (e.1, { e.2 with alloc := none, allocated := some 0xFFFFFFFFFFFFFFFF#64 })
      else e }

/-- ACALLOC_GRANT: blocked requests are served, and the test of R240 is made (R239, R240). -/
def execAcallocGrant (cluster : Nat) (s : State) : Next := .next ((s.serveTiles cluster 384).failTiles cluster)

/-- A register or literal operand of 64 bits. -/
def litOrReg (b : Beat) (o : Operand) : W64 := readOp b.x 0 64 b.signed b.f.imm 0 o

/-- ACALLOC (R239). -/
def execAcalloc (f : Fields) (s : State) : Next :=
  issueBeat (.acalloc f) f s fun b s1 =>
    if b.perf = 0 then .done s1
    else match b.t.allocated with
      | some m => .done (resultTo b m (s1.modTeam b.a.team fun t => { t with allocated := none }))
      | none =>
        let n := (litOrReg b f.a).toNat
        if b.t.alloc.isSome then .block .acalloc
        else if n = 0 ∨ n + b.t.tiles.length > b.t.acc then issueFault b 0x12
        else if n ≤ s.freeTiles b.cluster ∧ (s.blockedAllocs b.cluster).all (fun e => decide (b.t.age < e.2.1)) = true then
          let t1 := b.t.giveTiles n
          .done (resultTo b (t1.allocated.getD 0) (s1.modTeam b.a.team fun t => { t.giveTiles n with allocated := none }))
        else
          .wait ((s.blockAgent b.a .acalloc).modTeam b.a.team fun t => { t with alloc := some n })

/-- The names in a mask. -/
def namesIn (m : W64) : List Nat := (List.range 32).filter fun k => bit m k

/-- A command names a tile. -/
def State.tileBusy (s : State) (team tile : Nat) : Bool := (s.oxOf team).any fun e => e.2.2.tile == tile

/-- ACFREE (R241). -/
def execAcfree (f : Fields) (s : State) : Next :=
  issueBeat (.acfree f) f s fun b s1 =>
    if b.perf = 0 then .done s1
    else
      let m := litOrReg b f.a
      let ks := namesIn m
      if bits m 63 32 ≠ 0 ∨ (ks.any fun k => (Tbl.find? b.t.tiles k).isNone) = true then issueFault b 0x12
      else if ks.any fun k => s.tileBusy b.a.team k then .block .tiles
      else .done (s1.modTeam b.a.team fun t =>
        let t1 := ([12, 13].filter fun q => bound (t.bind q) && ks.contains (bits (t.bind q) 4 0)).foldl Team.unbind t
        { t1 with tiles := ks.foldl Tbl.del t1.tiles })

/-! ### QCFG (R215 to R217) -/

/-- The reserved bits of a binding word are zero (R216). -/
def bindingFormed (n : Nat) (w : W64) : Bool :=
  (if n ≤ 11 then decide (bits w 63 38 = 0) && decide (bits w 23 21 = 0) && decide (bits w 6 4 = 0)
   else decide (bits w 63 8 = 0) && decide (bits w 6 5 = 0)) && (bit w 7 || decide (w = 0))

/-- A command of the team uses a binding (R217). -/
def State.bindingUsed (s : State) (team : Nat) (t : Team) (n : Nat) : Bool :=
  (s.oxOf team).any fun e => match e.2.2.kind with
    | .drain _ _ _ _ _ q _ _ _ _ => decide (q = some n)
    | _ => decide (n ≤ 11) && bound (t.bind n) && e.2.2.readsRange (bits (t.bind n) 3 0)

/-- QCFG (R217). -/
def execQcfg (f : Fields) (s : State) : Next :=
  issueBeat (.qcfg f) f s fun b s1 =>
    if b.perf = 0 then .done s1
    else
      let n := f.fn.toNat
      let w := litOrReg b f.a
      let lines := (Tbl.find? b.t.ranges (bits w 3 0)).map fun r => recLines r.word
      if !bindingFormed n w then issueFault b 0x01
      else if b.t.fillOf n ≠ 0 ∨ s.bindingUsed b.a.team b.t n = true then issueFault b 0x0D
      else if bound w && decide (n ≤ 11) && (decide (ringLines w = 0) || lines.all fun l => decide (ringStart w + ringLines w > l)) then
        issueFault b 0x12
      else if bound w && decide (n > 11) && (Tbl.find? b.t.tiles (bits w 4 0)).isNone then issueFault b 0x12
      else .done (s1.modTeam b.a.team fun t =>
        let t1 := { t with qbind := Tbl.put 0 t.qbind n w }
        if n ≤ 11 then
          { t1 with rings := if bound w then Tbl.ins t1.rings n { wc := ringStart w, rd := ringStart w, fill := 0 } else Tbl.del t1.rings n }
        else t1)

/-! ### MMA and MMAG: operands and checks (R243, R244, R246) -/

/-- The source of an operand: the named range, or scratchpad with its two registers (R244). -/
def oxSrc (b : Beat) (t : Team) (range : Nat) (fromSp : Bool) (r1 r2 : Operand) : OxSrc :=
  let g := (Tbl.find? t.ranges range).getD { word := 0, first := 0 }
  { range := range, word := g.word, first := g.first, sp := if fromSp then some (regOrZero b.x r1, regOrZero b.x r2) else none,
    ring := if fromSp then none else (t.feedsOf range).head? }

/-- K0 and K of a K word (R244). -/
def kFirst (w : W64) : Nat := bits w 47 32
/-- K of a K word. -/
def kCount (w : W64) : Nat := bits w 12 0

/-- The registers of a scratchpad operand are well formed (R244). -/
def spFormed (o : OxSrc) : Bool :=
  match o.sp with
  | none => true
  | some (r1, r2) => decide (bits r1 63 32 ≠ 0) && decide (bits r1 63 32 % 4 = 0) && decide (bits r2 63 35 = 0)

/-- The K word and the table word are well formed (R244, R246). -/
def kFormed (w : W64) (grouped : Option W64) : Bool :=
  decide (bits w 31 13 = 0) && decide (1 ≤ kCount w) && decide (kCount w ≤ 4096) &&
    (match grouped with
     | none => decide (bits w 63 48 = 0)
     | some d => decide (bits d 63 41 = 0) && decide (bits d 31 22 = 0) && decide (1 ≤ bits d 40 32) && decide (bits d 40 32 ≤ 256))

/-- Elements stay clear of the scale area, and everything in a range lies in it (R229). -/
def placed (o : OxSrc) (kmax : Nat) : Bool :=
  let l := o.layout
  (decide (l.bl = 0) || decide (l.elemEnd kmax ≤ 128 * l.soff)) && (o.sp.isSome || decide (l.areaEnd kmax ≤ 128 * recLines o.word))

/-- U: one more than the highest range line that a command reads (R238). -/
def OxSrc.ringNeed (o : OxSrc) (kmax : Nat) : Nat := (o.layout.areaEnd kmax + 127) / 128

/-- The ring of an operand is long enough (R243). -/
def ringFits (t : Team) (o : OxSrc) (kmax : Nat) : Bool :=
  match o.ring with
  | some q => decide (o.ringNeed kmax ≤ ringLines (t.bind q))
  | none => true

/-- The scratchpad bytes of an operand: start and end over all its groups (R244, R246). -/
def spArea (o : OxSrc) (k0 kmax groups : Nat) : Option (Nat × Nat) :=
  o.sp.map fun r =>
    let base := bits r.1 31 0
    (base + o.layout.areaStart k0, base + (groups - 1) * bits r.2 31 0 + o.layout.areaEnd kmax)

/-- Step 3 of R243 for a pair. -/
def pairChecks (t : Team) (a b : OxSrc) (k0 k : Nat) (ty : Option Bool) : Bool :=
  let la := a.layout
  let lb := b.layout
  let sl := subLen la.bl lb.bl
  let isInt := decide (la.fmt = 6)
  let kmax := k0 + k - 1
  (Tbl.find? t.ranges a.range).isSome && (Tbl.find? t.ranges b.range).isSome &&
    (match pairRate la.fmt lb.fmt with | some r => decide (k % r = 0) | none => false) &&
    (isInt || (decide (k0 % sl = 0) && decide (k % sl = 0))) && placed a kmax && placed b kmax && ringFits t a kmax && ringFits t b kmax &&
    (a.range != b.range || decide (t.feedsOf a.range = [])) && (match ty with | some i => i == isInt | none => true)

/-- The scratchpad areas that a command reads: A, B with every group's, and the table (R250). -/
def mmaAreas (a b : OxSrc) (k0 kmax groups : Nat) (table : Option (Nat × Nat)) : List (Nat × Nat) :=
  (spArea a k0 kmax 1).toList ++ (spArea b k0 kmax groups).toList ++ table.toList

/-- Bases, group pitches and the table offset are multiples of 4 (R243). -/
def mmaAligned (a b : OxSrc) (grouped : Option W64) : Bool :=
  let base := fun (o : OxSrc) => match o.sp with | some r => decide (bits r.1 31 0 % 4 = 0) | none => true
  base a && base b &&
    (match grouped with
     | none => true
     | some d => decide (bits d 21 0 % 4 = 0) && (match b.sp with | some r => decide (bits r.2 31 0 % 4 = 0) | none => true))

/-- The operands of an MMA or MMAG in hand. -/
structure MmaArgs where
  tile : Nat
  a : OxSrc
  b : OxSrc
  k : W64
  grouped : Option W64
deriving DecidableEq, Repr, Inhabited

/-- The operands that a beat names (R234). -/
def mmaArgs (b : Beat) (grouped : Bool) : MmaArgs :=
  let m := b.f.imm.setWidth 64
  { tile := bits m 4 0, a := oxSrc b b.t (bits m 8 5) (b.f.fn.getLsbD 0) b.f.a b.f.c,
    b := oxSrc b b.t (bits m 12 9) (b.f.fn.getLsbD 1) b.f.b b.f.e, k := regOrZero b.x b.f.g,
    grouped := if grouped then some (regOrZero b.x b.f.d) else none }

/-- The groups of a command: one without a table. -/
def MmaArgs.groups (g : MmaArgs) : Nat := match g.grouped with | some d => bits d 40 32 | none => 1

/-- The areas that a command reads in scratchpad. -/
def MmaArgs.areas (g : MmaArgs) : List (Nat × Nat) :=
  mmaAreas g.a g.b (kFirst g.k) (kFirst g.k + kCount g.k - 1) g.groups
    (g.grouped.map fun d => (bits d 21 0, bits d 21 0 + 4 * bits d 40 32))

/-- The checks of R243 for MMA and MMAG: the code of the first that fails. -/
def mmaChecks (t : Team) (g : MmaArgs) (tok : Nat) : Option Byte :=
  match Tbl.find? t.tiles g.tile with
  | none => some 0x12
  | some tile =>
    if !kFormed g.k g.grouped || !spFormed g.a || !spFormed g.b then some 0x12
    else if !pairChecks t g.a g.b (kFirst g.k) (kCount g.k) tile.ty then some 0x12
    else if !(g.areas.all fun r => decide (r.2 ≤ t.scratch)) then some 0x08
    else if !mmaAligned g.a g.b g.grouped then some 0x05
    else if tokenFull t tok then some 0x0F
    else none

/-- A team's own scratchpad address. -/
def spAddr (off : Nat) : W64 := BitVec.ofNat 64 (4 * 2 ^ 60 + off)

/-- TYPE of a tile set at issue, if it is unset (R242). -/
def Team.typeTile (t : Team) (tile : Nat) (isInt : Bool) : Team :=
  { t with tiles := Tbl.modify t.tiles tile fun k => { k with ty := some (k.ty.getD isInt) } }

/-- What every matrix command does at its issue, before its locks (R243). -/
def oxBegin (b : Beat) (upd : Team → Team) (lines : List Nat) (u : State) : State :=
  (((u.takeSeq b.a).tokenUp b.a.team (tokOf b.f.md)).modTeam b.a.team upd).clearPresence b.a.team lines

/-- A matrix command at its issue. -/
def oxNew (kind : OxKind) (tile : Nat) : CmdKind :=
  .ox { kind := kind, tile := tile, prog := 0, pass := 0, cnt := none,
        waitA := (match kind with | .mma a _ _ _ => a.ring.isSome | .mmag a _ _ _ _ _ _ => a.ring.isSome | _ => false),
        waitB := (match kind with | .mma _ b _ _ => b.ring.isSome | _ => false), lines := [], linesB := [] }

/-- The issue of a matrix command that has passed its checks (R243). -/
def oxIssue (s0 : State) (b : Beat) (s : State) (kind : OxKind) (tile : Nat) (upd : Team → Team) (lines : List Nat)
    (ranges : List (Nat × Nat × Nat × Bool)) : Out :=
  issueCommand s0 s b (oxBegin b upd lines) (oxBegin b upd lines) fun u =>
    cmdOf b ((u.agent b.a).getD b.x) (oxNew kind tile) (tokOf b.f.md) (evOf b.f.md) ranges

/-- The issue of MMA and MMAG (R243). -/
def mmaIssue (grouped : Bool) (s0 : State) (b : Beat) (s : State) : Out :=
  if b.perf = 0 then .done s
  else issuedBefore s b <|
    let g := mmaArgs b grouped
    match mmaChecks b.t g (tokOf b.f.md) with
    | some code => issueFault b code
    | none =>
      let k0 := kFirst g.k
      let kind : OxKind := match g.grouped with
        | none => .mma g.a g.b k0 (kCount g.k)
        | some d => .mmag g.a g.b k0 (kCount g.k) (bits g.k 63 48) (bits d 21 0) (bits d 40 32)
      oxIssue s0 b s kind g.tile (fun t => t.typeTile g.tile (decide (g.a.layout.fmt = 6))) []
        (g.areas.flatMap fun r => rangeOf b.a.team b.t (spAddr r.1) (r.2 - r.1) false)

/-- MMA (R243 to R245). -/
def execMma (f : Fields) (s : State) : Next := issueBeat (.mma f) f s (mmaIssue false s)
/-- MMAG (R243, R246). -/
def execMmag (f : Fields) (s : State) : Next := issueBeat (.mmag f) f s (mmaIssue true s)

/-- ACZERO (R242, R243). -/
def execAczero (f : Fields) (s : State) : Next :=
  issueBeat (.aczero f) f s fun b s1 =>
    if b.perf = 0 then .done s1
    else issuedBefore s1 b <|
      let tile := bits (f.imm.setWidth 64) 4 0
      if (Tbl.find? b.t.tiles tile).isNone then issueFault b 0x12
      else if tokenFull b.t (tokOf f.md) then issueFault b 0x0F
      else oxIssue s b s1 .aczero tile (fun t => { t with tiles := Tbl.modify t.tiles tile fun k => { k with ty := none } }) [] []

/-! ### DRAIN: operands and checks (R243, R247 to R249) -/

/-- The operands of a DRAIN in hand (R234, R247). -/
structure DrainArgs where
  tile : Nat
  kind : Nat
  cmp : Bool
  trap : Bool
  mxf : Nat
  bl : Nat
  queue : Option Nat
  dst : W64
  pitch : W64
  scale : W64
  status : Option W64
deriving DecidableEq, Repr, Inhabited

/-- The operands that a beat names (R234). -/
def drainArgs (b : Beat) : DrainArgs :=
  let m := b.f.imm.setWidth 64
  { tile := bits m 4 0, kind := b.f.fn.toNat % 8, cmp := b.f.fn.getLsbD 3, trap := bit m 13, mxf := bits m 12 9, bl := blkLen (bits m 8 7),
    queue := if bit m 5 then some (12 + bits m 6 6) else none, dst := regOrZero b.x b.f.a, pitch := regOrZero b.x b.f.b,
    scale := regOrZero b.x b.f.c,
    status := if b.f.fn.getLsbD 3 ∧ regOrZero b.x b.f.e ≠ 0 then some (regOrZero b.x b.f.e) else none }

/-- RB: the bytes of an output row (R247). -/
def rowBytes (kind mxf bl : Nat) : Nat :=
  match kind with
  | 0 => 256
  | 1 => 128
  | 2 => 128
  | _ => (64 / bl) * 4 * ((bl + (mxSlots mxf).2 - 1) / (mxSlots mxf).2)

/-- The pitch of a drain that is not compressed (R247). -/
def drainPitch (pitch : W64) (rb : Nat) : Nat := if bits pitch 31 0 = 0 then rb else bits pitch 31 0

/-- The areas that a drain writes, with their lengths: elements, scales, status (R247, R249, R250). -/
def DrainArgs.areas (g : DrainArgs) : List (W64 × Nat) :=
  let rb := rowBytes g.kind g.mxf g.bl
  (if g.queue.isSome then [] else [(g.dst, if g.cmp then bits g.pitch 31 0 else 63 * drainPitch g.pitch rb + rb)]) ++
    (if g.kind = 3 then [(g.scale, 64 * (64 / g.bl))] else []) ++ (g.status.map fun p => (p, 8)).toList

/-- A tag that a drain may write (R243). -/
def drainTag (p : W64) : Bool := decide (tagOf p < 3) || decide (tagOf p = 4) || decide (tagOf p = 0xC)

/-- The checks of R243 for DRAIN: the code of the first that fails. -/
def drainChecks (t : Team) (g : DrainArgs) (tok : Nat) : Option Byte :=
  match Tbl.find? t.tiles g.tile with
  | none => some 0x12
  | some tile =>
    let rb := rowBytes g.kind g.mxf g.bl
    let p := bits g.pitch 31 0
    let al := if g.cmp then 8 else 4
    if bits g.pitch 63 32 ≠ 0 ∨ (if g.cmp then p < 512 else p ≠ 0 ∧ (p < rb ∨ p % 4 ≠ 0)) then some 0x12
    else if tile.ty = some true ∧ g.kind ≠ 0 then some 0x12
    else if !(g.areas.all fun r => tagOk r.1) then some 0x06
    else if !(g.areas.all fun r => drainTag r.1 && geSpan t r.1 r.2) then some 0x08
    else if (g.queue.isNone ∧ g.dst.toNat % al ≠ 0) ∨ (g.kind = 3 ∧ g.scale.toNat % 4 ≠ 0)
        ∨ (g.status.any fun q => decide (q.toNat % 8 ≠ 0)) = true then some 0x05
    else if (match g.queue with | some q => !(bound (t.bind q) && decide (bits (t.bind q) 4 0 = g.tile)) | none => false) then some 0x0D
    else if tokenFull t tok then some 0x0F
    else none

/-- The spans that a drain writes: its rows, or with CMP the first CAP bytes, its scales and its status (R247, R249, R250). -/
def DrainArgs.spans (g : DrainArgs) : List (W64 × Nat) :=
  let rb := rowBytes g.kind g.mxf g.bl
  (if g.queue.isSome then [] else if g.cmp then [(g.dst, bits g.pitch 31 0)]
   else (List.range 64).map fun m => (g.dst + BitVec.ofNat 64 (m * drainPitch g.pitch rb), rb)) ++
    (if g.kind = 3 then [(g.scale, 64 * (64 / g.bl))] else []) ++ (g.status.map fun p => (p, 8)).toList

/-- The scratchpad lines that a drain may write (R250). -/
def DrainArgs.lines (g : DrainArgs) : List Nat :=
  firstsOf (g.spans.flatMap fun r => if tagOf r.1 = 4 then spanLines (bits r.1 21 0) r.2 else [])

/-- DRAIN (R243, R247 to R249). -/
def execDrain (f : Fields) (s : State) : Next :=
  issueBeat (.drain f) f s fun b s1 =>
    if b.perf = 0 then .done s1
    else issuedBefore s1 b <|
      let g := drainArgs b
      match drainChecks b.t g (tokOf f.md) with
      | some code => issueFault b code
      | none =>
        oxIssue s b s1 (.drain g.kind g.cmp g.trap g.mxf g.bl g.queue g.dst g.pitch g.scale g.status) g.tile id g.lines
          (g.areas.flatMap fun r => if tagOf r.1 = 4 then [] else rangeOf b.a.team b.t r.1 r.2 true)

end Sys2Proof.Machine
end

