-- ==== Sys2Proof/Machine/OxRun.lean ====
section
/-! DEFINITION. Ox at work: order on a tile (R233), ring reads (R238), sub-blocks (R245, R246), DRAIN's rows (R247 to R249), and the ends of matrix
commands (R250, R251); and the lines of all engines (R188). -/

namespace Sys2Proof.Machine

/-! ### What runs -/

/-- A matrix command that runs, with its team. -/
def State.runningOx (s : State) (n : Nat) : Option (Nat × Team × Cmd × OxCmd) :=
  match Tbl.find? s.cmds n with
  | some c => match c.owner, c.kind with
    | .agent team _, .ox k => match s.team team with
      | some t => if c.runs && t.engCluster.isSome then some (team, t, c, k) else none
      | none => none
    | _, _ => none
  | none => none

/-- No earlier command of the team names the tile (R233). -/
def State.tileTurn (s : State) (team n : Nat) (k : OxCmd) : Bool :=
  (s.oxOf team).all fun e => decide (n ≤ e.1) || decide (e.2.2.tile ≠ k.tile)

/-- The state with a matrix command's progress. -/
def State.setOx (s : State) (n : Nat) (k : OxCmd) : State := s.setKind n (.ox k)

/-- A tile of a team. -/
def Team.tileOf (t : Team) (k : Nat) : Tile := (Tbl.find? t.tiles k).getD { els := [], ty := none }

/-! ### Rings (R238) -/

/-- The operands A and B of a command. -/
def OxCmd.srcs (k : OxCmd) : Option (OxSrc × OxSrc) :=
  match k.kind with
  | .mma a b _ _ => some (a, b)
  | .mmag a b _ _ _ _ _ => some (a, b)
  | _ => none

/-- K0 and K of a command. -/
def OxCmd.span (k : OxCmd) : Nat × Nat :=
  match k.kind with
  | .mma _ _ k0 n => (k0, n)
  | .mmag _ _ k0 n _ _ _ => (k0, n)
  | _ => (0, 0)

/-- A command still has lines of a queue's ring to read. -/
def OxCmd.awaits (k : OxCmd) (q : Nat) : Bool :=
  match k.srcs with
  | some (a, b) => (k.waitA && decide (a.ring = some q)) || (k.waitB && decide (b.ring = some q))
  | none => false

/-- The ring lines that a command reads are there, and no earlier reader of the ring is left (R233, R238). -/
def ringReady (s : State) (team n : Nat) (t : Team) (q u : Nat) : Bool :=
  decide (u ≤ (t.ring q).fill) && (s.oxOf team).all fun e => decide (n ≤ e.1) || !e.2.2.awaits q

/-- The bytes of u ring lines from the read point on, by their offset (R238). -/
def ringBytes (s : State) (team : Nat) (t : Team) (o : OxSrc) (q u : Nat) : Tbl Byte :=
  let bd := t.bind q
  let at' := fun (l : Nat) => ringStart bd + ((t.ring q).rd - ringStart bd + l) % (ringLines bd)
  ((List.range u).flatMap fun l => ((s.read (obLoc team ((o.first + at' l) * 128)) 128).zipIdx).map fun e => (128 * l + e.2, e.1)).filter
    fun e => decide (e.2 ≠ 0)

/-- A ring after u lines have been consumed (R238). -/
def Team.consume (t : Team) (q u : Nat) : Team :=
  let bd := t.bind q
  let r := t.ring q
  let r1 : Ring := { wc := r.wc, rd := ringStart bd + (r.rd - ringStart bd + u) % (max 1 (ringLines bd)), fill := r.fill - u }
  { t with rings := Tbl.ins t.rings q r1 }

/-- OX_RING_READ: the ring lines of A, then of B, are read and consumed, once earlier commands on the tile are done (R233, R238, R245). -/
def execOxRingRead (cmd : Nat) (s : State) : Next :=
  match s.runningOx cmd with
  | none => .next s
  | some (team, t, _, k) => if !s.tileTurn team cmd k then .next s else match k.srcs with
    | none => .next s
    | some (a, b) =>
      let kmax := k.span.1 + k.span.2 - 1
      let ua := a.ringNeed kmax
      let ub := b.ringNeed kmax
      match k.waitA, a.ring, k.waitB, b.ring with
      | true, some q, _, _ =>
        if ringReady s team cmd t q ua then
          .next ((s.modTeam team fun t => t.consume q ua).setOx cmd { k with waitA := false, lines := ringBytes s team t a q ua })
        else .next s
      | _, _, true, some q =>
        if ringReady s team cmd t q ub then
          .next ((s.modTeam team fun t => t.consume q ub).setOx cmd { k with waitB := false, linesB := ringBytes s team t b q ub })
        else .next s
      | _, _, _, _ => .next s

/-! ### Sub-blocks (R245, R246) -/

/-- The location of a byte of an operand that is read in place: in scratchpad, or in its range of the operand buffer (R229, R244). -/
def OxSrc.locAt (o : OxSrc) (team group off : Nat) : Nat :=
  match o.sp with
  | some r => spLoc team (bits r.1 31 0 + group * bits r.2 31 0 + off)
  | none => obLoc team (o.first * 128 + off)

/-- The byte of an operand at an offset: of its captured ring lines, or of the lines that the command has read (R155, R238). -/
def oxByte (c : Cmd) (team : Nat) (o : OxSrc) (lines : Tbl Byte) (group off : Nat) : Byte :=
  if o.ring.isSome then Tbl.get 0 lines off
  else
    let loc := o.locAt team group off
    ((Tbl.find? c.src (loc / 128)).getD []).getD (loc % 128) 0

/-- The offsets of an operand that a step addresses for some rows (or columns) and k: its words, and its scales (R229). -/
def OxSrc.offsets (o : OxSrc) (rows ks : List Nat) : List Nat :=
  let l := o.layout
  rows.flatMap fun i => ks.flatMap fun k => (l.wordAt i k).1 :: (if l.bl = 0 then [] else [l.scaleAt i (k / l.bl)])

/-- Every scratchpad line of an operand that a step addresses is present (R229, R246, R250). -/
def oxPresent (t : Team) (o : OxSrc) (group : Nat) (rows ks : List Nat) : Bool :=
  match o.sp with
  | none => true
  | some r => t.absent = [] || (o.offsets rows ks).all fun off => !Tbl.get false t.absent ((bits r.1 31 0 + group * bits r.2 31 0 + off) / 128)

/-- On-chip lines that a matrix command reads, by location over 128: each once and whole (R155). -/
def State.oxRead (s : State) (n : Nat) (lines : List Nat) : State :=
  s.modCmd n fun c => { c with src := lines.foldl (fun m l => if (Tbl.find? m l).isSome then m else Tbl.ins m l (s.read (l * 128) 128)) c.src }

/-- The lines of an operand that is read in place for a step. -/
def OxSrc.stepLines (o : OxSrc) (team group : Nat) (rows ks : List Nat) : List Nat :=
  if o.ring.isSome then [] else firstsOf ((o.offsets rows ks).map fun off => o.locAt team group off / 128)

/-- The k of one step: sub-block number `prog`, or all of an INT8 command's (R225, R227). -/
def OxCmd.stepKs (k : OxCmd) (la lb : Layout) : List Nat :=
  let sl := subLen la.bl lb.bl
  if la.fmt = 6 then (List.range k.span.2).map fun i => k.span.1 + i
  else (List.range sl).map fun i => k.span.1 + k.prog * sl + i

/-- The steps of a pass. -/
def OxCmd.steps (k : OxCmd) (la lb : Layout) : Nat := if la.fmt = 6 then 1 else k.span.2 / subLen la.bl lb.bl

/-- The rows of the tile that belong to group g (R246). -/
def groupRows (row0 : Nat) (cnt : List Nat) (g : Nat) : List Nat :=
  let pre := (cnt.take g).foldl (· + ·) 0
  (List.range 64).filter fun r => decide (pre ≤ row0 + r) && decide (row0 + r < pre + cnt.getD g 0)

/-- The first group from g on that has rows. -/
def nextGroup (row0 : Nat) (cnt : List Nat) (g : Nat) : Option Nat :=
  (List.range cnt.length).find? fun i => decide (g ≤ i) && decide (groupRows row0 cnt i ≠ [])

/-- The rows and the group of a command's next step; none when nothing is left. -/
def OxCmd.nextPass (k : OxCmd) (steps : Nat) : Option (List Nat × Nat) :=
  match k.kind with
  | .mma _ _ _ _ => if k.prog < steps then some (List.range 64, 0) else none
  | .mmag _ _ _ _ row0 _ _ => match k.cnt with
    | some cnt => (nextGroup row0 cnt k.pass).map fun g => (groupRows row0 cnt g, g)
    | none => none
  | _ => none

/-- The table of an MMAG read at its start, once its lines are present: its row counts, and the state in which the command has read the lines
(R155, R246, R250). -/
def readCounts (s : State) (n team : Nat) (t : Team) (k : OxCmd) : Option (OxCmd × State) :=
  match k.kind, k.cnt with
  | .mmag _ _ _ _ _ toff ng, none =>
    let ls := spanLines toff (4 * ng)
    if ls.all fun l => !Tbl.get false t.absent l then
      some ({ k with cnt := some ((List.range ng).map fun g => s.readNat (spLoc team (toff + 4 * g)) 4) }, s.oxRead n (ls.map fun l => spLoc team (128 * l) / 128))
    else none
  | _, _ => some (k, s)

/-- A matrix command's progress after a step of group g (R245, R246). -/
def OxCmd.stepped (k : OxCmd) (g : Nat) (la lb : Layout) : OxCmd :=
  let k1 := { k with prog := k.prog + 1 }
  match k1.kind with
  | .mmag _ _ _ _ _ _ _ => if k1.prog ≥ k1.steps la lb then { k1 with pass := g + 1, prog := 0 } else k1
  | _ => k1

/-- One sub-block of an MMA or MMAG, in the order of its tile, once the lines that it addresses are present; each is read once (R155, R233, R245,
R246). -/
def State.oxStep (s : State) (n : Nat) : State :=
  match s.runningOx n with
  | none => s
  | some (team, t, _, k0) =>
    if !s.tileTurn team n k0 || k0.waitA || k0.waitB then s
    else match k0.srcs, readCounts s n team t k0 with
      | some (a, b), some (k, s0) =>
        let la := a.layout
        let lb := b.layout
        match k.nextPass (k.steps la lb) with
        | none => s0.setOx n k
        | some (rows, g) =>
          let k1 := if g ≠ k.pass then { k with pass := g, prog := 0 } else k
          let ks := k1.stepKs la lb
          let cols := List.range 64
          if !oxPresent t a 0 rows ks || !oxPresent t b g cols ks then s0.setOx n k
          else
            let s1 := s0.oxRead n (a.stepLines team 0 rows ks ++ b.stepLines team g cols ks)
            match Tbl.find? s1.cmds n with
            | none => s
            | some c =>
              let els := stepTile (t.tileOf k.tile).els la lb (oxByte c team a k.lines 0) (oxByte c team b k.linesB g) rows ks
              (s1.modTeam team fun t => { t with tiles := Tbl.modify t.tiles k.tile fun x => { x with els := els } }).setOx n (k1.stepped g la lb)
      | _, _ => s

/-- Every step of an MMA or MMAG is done. -/
def OxCmd.multiplied (k : OxCmd) : Bool :=
  match k.srcs with
  | some (a, b) =>
    (match k.kind with | .mmag _ _ _ _ _ _ _ => k.cnt.isSome | _ => true) && !k.waitA && !k.waitB &&
      (k.nextPass (k.steps a.layout b.layout)).isNone
  | none => true

/-! ### DRAIN (R247 to R249) -/

/-- Row m of a tile. -/
def tileRowEls (els : Tbl W32) (m : Nat) : List W32 := Tbl.getMany 0 els (64 * m) 64

/-- The blocks of a row for requantisation: scale bytes and codes (R231). -/
def rowBlocks (els : Tbl W32) (mxf bl m : Nat) : List (Nat × List Nat) :=
  (List.range (64 / bl)).map fun b => requantBlock mxf (((tileRowEls els m).drop (b * bl)).take bl)

/-- The element bytes of output row m (R247). -/
def drainRow (els : Tbl W32) (kind mxf bl m : Nat) : List Byte :=
  if kind = 3 then (rowBlocks els mxf bl m).flatMap fun b => packBlock mxf b.2
  else (tileRowEls els m).flatMap fun x => toBytes (plainBytes kind) (plainElem kind x)

/-- The scale bytes of row m (R231, R247). -/
def drainScales (els : Tbl W32) (mxf bl m : Nat) : List Byte := (rowBlocks els mxf bl m).map fun b => BitVec.ofNat 8 b.1

/-- The encoded elements of row m of a compressed drain, with their size (R249). -/
def cmpElems (els : Tbl W32) (kind mxf bl m : Nat) : List Nat :=
  if kind = 3 then (rowBlocks els mxf bl m).flatMap (·.2) else (tileRowEls els m).map (plainElem kind)

/-- The element size of a compressed drain (R249). -/
def cmpSize (kind : Nat) : Nat := match kind with | 0 => 4 | 1 => 2 | 2 => 2 | _ => 1

/-- The number of rows whose elements fit in a capacity, counted from a row on with `used` elements before it (R249). -/
def rowsFit (els : Tbl W32) (kind mxf bl cap : Nat) : Nat → Nat → Nat → Nat
  | 0, m, _ => m
  | k + 1, m, used =>
    let n := used + ((cmpElems els kind mxf bl m).filter fun x => x != 0).length
    if 512 + cmpSize kind * n ≤ cap then rowsFit els kind mxf bl cap k (m + 1) n else m

/-- The mask word of a row (R183). -/
def rowMask (xs : List Nat) : Nat := (xs.zipIdx).foldl (fun n e => if e.1 != 0 then n + 2 ^ e.2 else n) 0

/-- What a compressed drain writes at its destination, its NR and its bytes (R249). -/
def compressed (els : Tbl W32) (kind mxf bl cap : Nat) : List Byte × Nat :=
  let nr := rowsFit els kind mxf bl cap 64 0 0
  let rows := (List.range nr).map (cmpElems els kind mxf bl)
  let masks := (List.range 64).flatMap fun m => toBytes 8 (rowMask (rows.getD m []))
  (masks ++ rows.flatMap (fun xs => (xs.filter fun x => x != 0).flatMap (toBytes (cmpSize kind))), nr)

/-- Bytes at consecutive addresses cut at line boundaries. -/
def cutLines (addr : Nat) (bs : List Byte) : Nat → List (Nat × List Byte)
  | 0 => []
  | fuel + 1 =>
    if bs = [] then []
    else
      let m := 128 - addr % 128
      (addr, bs.take m) :: cutLines (addr + m) (bs.drop m) fuel

/-- The writes of a row of a drain that is not compressed, each within one line (R247). -/
def drainRowPieces (els : Tbl W32) (kind mxf bl : Nat) (queue : Option Nat) (dst pitch scale : W64) (m : Nat) : List (Nat × List Byte) :=
  let cut := fun (a : Nat) (bs : List Byte) => cutLines a bs (bs.length / 128 + 2)
  (if queue.isSome then [] else cut (dst.toNat + m * drainPitch pitch (rowBytes kind mxf bl)) (drainRow els kind mxf bl m)) ++
    (if kind = 3 then cut (scale.toNat + m * (64 / bl)) (drainScales els mxf bl m) else [])

/-- The writes of a drain to memory, in order, each within one line (R247, R249). -/
def drainPieces (els : Tbl W32) (kind : Nat) (cmp : Bool) (mxf bl : Nat) (queue : Option Nat) (dst pitch scale : W64) (status : Option W64) :
    List (Nat × List Byte) :=
  let cut := fun (a : Nat) (bs : List Byte) => cutLines a bs (bs.length / 128 + 2)
  if cmp then
    let out := compressed els kind mxf bl (bits pitch 31 0)
    cut dst.toNat out.1 ++ (if kind = 3 then (List.range 64).flatMap fun m => cut (scale.toNat + m * (64 / bl)) (drainScales els mxf bl m) else []) ++
      (match status with
       | some p => cut p.toNat (toBytes 8 (out.1.length * 2 ^ 32 + b2n (decide (out.2 < 64)) * 128 + out.2))
       | none => [])
  else (List.range 64).flatMap (drainRowPieces els kind mxf bl queue dst pitch scale)

/-- The entries of a drain to a queue (R248). -/
def drainEntries (els : Tbl W32) (kind mxf bl : Nat) : List (List Byte) :=
  let all := (List.range 64).flatMap (drainRow els kind mxf bl)
  (List.range ((all.length + 127) / 128)).map fun j =>
    let e := (all.drop (128 * j)).take 128
    e ++ List.replicate (128 - e.length) 0

/-- A drain in its turn: its memory writes, its queue and entries. -/
def drainWork (t : Team) (k : OxCmd) : Option (List (Nat × List Byte) × Option Nat × List (List Byte)) :=
  match k.kind with
  | .drain kind cmp _ mxf blc queue dst pitch scale status =>
    let els := (t.tileOf k.tile).els
    some (drainPieces els kind cmp mxf blc queue dst pitch scale status, queue,
      if queue.isSome then drainEntries els kind mxf blc else [])
  | _ => none

/-- The scratchpad lines that a drain may write. -/
def OxCmd.padLines (k : OxCmd) : List Nat :=
  match k.kind with
  | .drain kind cmp trap mxf blc queue dst pitch scale status =>
    DrainArgs.lines { tile := k.tile, kind := kind, cmp := cmp, trap := trap, mxf := mxf, bl := blc, queue := queue, dst := dst, pitch := pitch,
                      scale := scale, status := status }
  | _ => []

/-- How many memory writes of a drain have landed: the entries of a drain to a queue are counted apart. -/
def OxCmd.landed (k : OxCmd) (queue : Option Nat) : Nat := if queue.isSome then k.pass else k.prog

/-- The scratchpad line of a drain's write (R250). -/
def padLineOf (addr : Nat) : Nat := addr % 2 ^ 22 / 128

/-- The scratchpad lines that a drain may write and whose presence it has not set by landing there: those that it has not written, or not to the end
(R250, R251). -/
def OxCmd.unset (k : OxCmd) (t : Team) : List Nat :=
  match drainWork t k with
  | none => k.padLines
  | some (ps, queue, _) =>
    let i := k.landed queue
    k.padLines.filter fun l => !((ps.take i).any (fun q => padLineOf q.1 == l && tagOf (BitVec.ofNat 64 q.1) == 4)) ||
      (ps.drop i).any fun q => padLineOf q.1 == l && tagOf (BitVec.ofNat 64 q.1) == 4

/-- The presence bits of a matrix command that ends are settled (R250, R251). -/
def State.settlePads (s : State) (team : Nat) (k : OxCmd) : State :=
  match s.team team with
  | none => s
  | some t => s.setPresence team (k.unset t)

/-- The end of a matrix command in fault 0x1A (R251). -/
def failOx (s : State) (n team : Nat) (c : Cmd) (k : OxCmd) (cause : Nat) : State := (s.settlePads team k).failCmd n c 2 cause

/-- The next memory write of a drain lands (R247, R250). -/
def landOx (s : State) (n key : Nat) : State :=
  match s.runningOx n with
  | none => s
  | some (team, t, c, k) =>
    if !s.tileTurn team n k then s
    else match drainWork t k with
      | none => s
      | some (ps, queue, _) =>
        let i := k.landed queue
        match ps[i]? with
        | none => s
        | some (addr, bs) =>
          if key ≠ i then s
          else match s.engPlace c (BitVec.ofNat 64 addr) true with
            | .ok p =>
              let k1 := if queue.isSome then { k with pass := i + 1 } else { k with prog := i + 1 }
              let s1 := (s.setOx n k1).engWrite n p bs
              let line := addr / 128
              let s2 := match p.owned with
                | .scratch w => if (ps.drop (i + 1)).any fun q => q.1 / 128 == line then s1 else s1.setPresence w [p.loc % 2 ^ 22 / 128]
                | _ => s1
              s2.engWatched n 2 (tagOf (BitVec.ofNat 64 addr)) p.loc [(0, bs)] fun v => v.endCmd n ((Tbl.find? v.cmds n).getD c) 0x13 fun u => failOx u n team c k1 0x13
            | _ => s

/-- DRAIN_QUEUE_PUSH: the next entry of a drain to a queue that is not full (R248). -/
def execDrainQueuePush (cmd : Nat) (s : State) : Next :=
  match s.runningOx cmd with
  | none => .next s
  | some (team, t, _, k) =>
    if !s.tileTurn team cmd k then .next s
    else match drainWork t k with
      | some (_, some q, es) => match es[k.prog]? with
        | some e =>
          if (Tbl.get [] t.drain q).length < 16 then
            .next ((s.modTeam team fun t => { t with drain := Tbl.put [] t.drain q (Tbl.get [] t.drain q ++ [e]) }).setOx cmd
              { k with prog := k.prog + 1 })
          else .next s
        | none => .next s
      | _ => .next s

/-- The entries that a drain to a queue has pushed when its last whole row is out (R248, R252). -/
def OxCmd.wholeRows (k : OxCmd) : Nat :=
  match k.kind with
  | .drain kind _ _ mxf blc _ _ _ _ _ => let rb := rowBytes kind mxf blc; 128 * k.prog / rb * rb / 128
  | _ => k.prog

/-- A drain stands between rows: a save may stop it there (R252). A compressed one, whose rows are packed, is stopped at its beginning or end only; one
that a full queue holds within a row is taken back to the row's start by the save (`OxCmd.rewound`). -/
def OxCmd.betweenRows (k : OxCmd) (t : Team) : Bool :=
  match k.kind, drainWork t k with
  | .drain kind cmp _ mxf blc queue dst pitch scale _, some (ps, _, _) =>
    if cmp then decide (k.prog = 0) || decide (ps.length ≤ k.prog)
    else match queue with
      | some q =>
        let rb := rowBytes kind mxf blc
        decide (16 ≤ (Tbl.get [] t.drain q).length) || (decide (128 * k.prog % rb = 0) && (decide (kind ≠ 3) || decide (k.pass = 128 * k.prog / rb)))
      | none => (List.range 65).any fun m =>
          decide (((List.range m).map fun r => (drainRowPieces (t.tileOf k.tile).els kind mxf blc queue dst pitch scale r).length).sum = k.prog)
  | _, _ => true

/-- A drain whose row a full queue cuts off goes back to the start of the row, and the entries of that row, the last in the queue, go with it: what is
saved is the state after a whole row (R252; log entry 81). -/
def State.rewindDrain (s : State) (n : Nat) : State :=
  match Tbl.find? s.cmds n with
  | some c => match c.owner, c.kind with
    | .agent team _, .ox k => match k.kind with
      | .drain _ false _ _ _ (some q) _ _ _ _ =>
        let extra := k.prog - k.wholeRows
        if extra = 0 then s
        else (s.modTeam team fun t => { t with drain := Tbl.put [] t.drain q ((Tbl.get [] t.drain q).take ((Tbl.get [] t.drain q).length - extra)) }).setOx n
          { k with prog := k.wholeRows }
      | _ => s
    | _, _ => s
  | none => s

/-- Everything that a command does but its acknowledgements is done. -/
def oxDone (s : State) (team n : Nat) (t : Team) (k : OxCmd) : Bool :=
  s.tileTurn team n k &&
    (match k.kind with
     | .aczero => true
     | .drain _ _ _ _ _ _ _ _ _ _ => match drainWork t k with
       | some (ps, queue, es) => decide (k.landed queue ≥ ps.length) && (queue.isNone || decide (k.prog ≥ es.length))
       | none => true
     | _ => k.multiplied)

/-- A compressed drain overflowed; and whether that ends it in fault (R249). -/
def OxCmd.overflow (k : OxCmd) (t : Team) : Bool × Bool :=
  match k.kind with
  | .drain kind true trap mxf blc _ _ pitch _ _ =>
    let o := decide ((compressed (t.tileOf k.tile).els kind mxf blc (bits pitch 31 0)).2 < 64)
    (o, o && trap)
  | _ => (false, false)

/-- OX_COMPLETE (R242, R249, R250): ACZERO clears its tile here. -/
def execOxComplete (cmd : Nat) (s : State) : Next :=
  match s.runningOx cmd with
  | none => .next s
  | some (team, t, c, k) =>
    if !oxDone s team cmd t k || !c.settled s || (k.overflow t).2 then .next s
    else
      let s1 := match k.kind with
        | .aczero => s.modTeam team fun t => { t with tiles := Tbl.modify t.tiles k.tile fun x => { x with els := [] } }
        | _ => s
      .next ((s1.settlePads team k).completeCmd cmd c 2 (b2n (k.overflow t).1))

/-- The cause for which a drain ends: its overflow under TRAPOVF once it is written, or the failure of its next write (R249, R251). -/
def oxCause (s : State) (team n : Nat) (t : Team) (c : Cmd) (k : OxCmd) : Option Nat :=
  if !s.tileTurn team n k then none
  else if oxDone s team n t k && (k.overflow t).2 && c.settled s then some 0x12
  else match drainWork t k with
    | none => none
    | some (ps, queue, _) => match ps[k.landed queue]? with
      | none => none
      | some (addr, _) => writeCause s c (BitVec.ofNat 64 addr)

/-- A matrix command that is to end in fault, with its team and cause (R251). -/
def State.endingOx (s : State) (n : Nat) : Option (Nat × Cmd × OxCmd × Nat) :=
  match Tbl.find? s.cmds n with
  | some c => match c.owner, c.kind, c.ending with
    | .agent team _, .ox k, some cause => some (team, c, k, cause)
    | _, _, _ => none
  | none => none

/-- OX_FAULT (R249, R251): a command that is to end does once its writes are acknowledged (R155). -/
def execOxFault (cmd : Nat) (s : State) : Next :=
  match s.endingOx cmd with
  | some (team, c, k, cause) => .next (if c.settled s then failOx s cmd team c k cause else s)
  | none => match s.runningOx cmd with
    | none => .next s
    | some (team, t, c, k) => match oxCause s team cmd t c k with
      | some cause => .next (s.endCmd cmd c cause fun u => failOx u cmd team c k cause)
      | none => .next s

/-! ### All engines -/

/-- The beat at which an agent stands. -/
def State.beatAt (s : State) (a : AgentId) : Option Beat :=
  match s.team a.team, s.agent a with
  | some t, some x => match decodeFor x.kind x.budget x.arr.word with
    | .ok i => match formOf i, rowFor i with
      | some (_, f), some r => if x.issue = .beats then some (beatOf i f r a t x) else none
      | _, _ => none
    | .error _ => none
  | _, _ => none

/-- RLT_GRANT: a command that waits for its entries starts once they are free; a GE instruction issues then (R24, R187, R203). -/
def execRltGrant (cmd : Nat) (s : State) : Next :=
  match Tbl.find? s.cmds cmd with
  | none => .next s
  | some c => match c.owner with
    | .agent team who =>
      let waits := ((s.agent ⟨team, who⟩).map fun x => decide (x.arr.cmd = some cmd)).getD false
      match (s.team team).bind fun t => t.cluster with
      | some cl =>
        if !waits || c.started then .next s
        else match c.kind, s.beatAt ⟨team, who⟩ with
          | .ge g, some b => .next (geGrant g.kind s b cmd)
          | .ge _, none => .next s
          | _, _ => .next (if s.rltRoom cl c.ranges.length then s.startCmd cl cmd else s)
      | none => .next s
    | .host _ _ _ => .next s

/-- ENGINE_LINE_LANDS: a line of a copy, an access or status write of a GE command, or a drain's next write (R188, R199, R247). -/
def execEngineLineLands (cmd line : Nat) (s : State) : Next :=
  match Tbl.find? s.cmds cmd with
  | none => .next s
  | some c =>
    if !c.runs || !s.ownerHere c then .next s
    else match c.kind with
      | .copy k => .next (landCopy s cmd c k line)
      | .ge g => .next (landGe s cmd c g line)
      | .ox _ => .next (landOx s cmd line)

/-- A source line of a copy, or the source of an element, read before anything of it lands (R155). -/
def State.engineRead (s : State) (cmd line : Nat) : State :=
  match Tbl.find? s.cmds cmd with
  | none => s
  | some c =>
    if !c.runs || !s.ownerHere c then s
    else match c.kind with
      | .copy k =>
        if k.wants line then
          match copyData s cmd k ((destLines k.slices).getD (line % (destLines k.slices).length) 0) with
          | .ok r => r.2
          | .error _ => s
        else s
      | .ge g0 => match readList s cmd g0 with
        | .error _ => s
        | .ok (g, s1) => match g.parts.find? fun p => p.key == line with
          | none => s1
          | some p =>
            if g.isDone line || g.strictRefusal || (decide (g.kind = 0) && !geInOrder s1 c g p) then s1
            else match readGePart s1 cmd c g p with
              | .error _ => s1
              | .ok r => r.2.2
      | .ox _ => s

end Sys2Proof.Machine
end

