-- ==== Sys2Proof/Machine/Results.lean ====
section
/-! DEFINITION. What happens to an agent between its beats: results and replies land (R54, R144, R165), stores are acknowledged (R143), release
waits end (R147, R148), queue parks end (R15), exclusivity ends (R153), and events enter q15 (R22). -/

namespace Sys2Proof.Machine

/-! ### Results and replies -/

/-- A pending value lands: registers fill, flags are ORed in, c enters GWCT (R54, R144, R166). -/
def Agent.land (x : Agent) (n : Nat) (p : Pending) : Agent :=
  { (x.writeAll p.lands) with pend := Tbl.del x.pend n, fp := x.fp ||| p.flags, gwct := max x.gwct (p.c.getD 0) }

/-- A pending value can land: its accesses have performed, and of those that a replay log takes it is the earliest (R165, R334). -/
def Agent.landable (x : Agent) (n : Nat) (p : Pending) : Bool :=
  decide (p.parts = 0) && (p.log.isEmpty || x.pend.all fun e => decide (n ≤ e.1) || e.2.log.isEmpty)

/-- Pending number n of an agent lands, if it is of the kind and can; its log records are written with it (R334). -/
def State.landPending (s : State) (a : AgentId) (n : Nat) (mem : Bool) : State :=
  match s.agent a with
  | none => s
  | some x => match Tbl.find? x.pend n with
    | none => s
    | some p =>
      if p.mem = mem ∧ x.landable n p = true then p.log.foldl (fun u r => u.logPut a.team r) (s.setAgent a (x.land n p)) else s

/-- RESULT_LANDS (R54). -/
def execResultLands (a : AgentId) (n : Nat) (s : State) : Next := .next (s.landPending a n false)

/-- LOAD_REPLY (R165). -/
def execLoadReply (a : AgentId) (n : Nat) (s : State) : Next := .next (s.landPending a n true)

/-- STORE_ACKNOWLEDGE (R143, R165). -/
def execStoreAcknowledge (a : AgentId) (n : Nat) (s : State) : Next := .next (s.applyAck a n)

/-- The wait of the release that an agent's instruction performs is complete at the scope of that release (R147). -/
def Agent.releaseOver (x : Agent) (s : State) : Bool :=
  match decodeFor x.kind x.budget x.arr.word with
  | .ok i => match formOf i with
    | some (_, f) => match (shapeOf i f).rel with
      | some scope => releaseDone s x scope
      | none => false
    | none => false
  | .error _ => false

/-- RELEASE_WAIT_EXPIRY: the wait of the release at an agent's instruction is over at its scope: what came before it is acknowledged, and at device
scope and above device time has passed GWCT by 4 ns (R147, R148). -/
def execReleaseWaitExpiry (a : AgentId) (s : State) : Next :=
  match s.agent a with
  | some x =>
    if x.issue = .beats ∧ x.arr.released = false ∧ x.releaseOver s = true then
      .next (s.modAgent a fun y => { y with arr := { y.arr with released := true } })
    else .next s
  | none => .next s

/-- EXCLUSIVITY_IDLE_END: 16 µs without an access of the holder (R153). -/
def execExclusivityIdleEnd (line : Nat) (s : State) : Next :=
  match (s.line line).excl with
  | some (_, t) => if s.dtime ≥ t + 16000 then .next (s.recall line none) else .next s
  | none => .next s

/-! ### Queue parks (R15) -/

/-- The queue use of the instruction at which an agent stands. -/
def Agent.queueUse (x : Agent) : QUse :=
  match decodeFor x.kind x.budget x.arr.word with
  | .ok i => match formOf i, rowFor i with
    | some (_, f), some r => quseOf r f
    | _, _ => .none
  | .error _ => .none

/-- The destinations of a slot that a queue park left empty, full again (R57). -/
def refill (x : Agent) (s : Slot) (o : Operand) (lanes : List Nat) : Agent :=
  if s.isDst then lanes.foldl (fun y l => (slotRegs s o l).foldl Agent.markFull y) x else x

/-- The queue read that an agent is parked at is undone: its destinations are as they were before the beat (R57). -/
def Agent.undoRead (x : Agent) : Agent :=
  match decodeFor x.kind x.budget x.arr.word with
  | .ok i => match formOf i, rowFor i with
    | some (_, f), some r =>
      let ls := lanesIn (performing x f x.arr.a)
      refill (refill x r.d f.d ls) r.e f.e ls
    | _, _ => x
  | .error _ => x

/-- An agent leaves its queue park. -/
def Agent.unpark (x : Agent) : Agent := { x with issue := .beats, block := none }

/-- What the first waiter of a queue finds: it goes on with an entry, with room for its own, or to the fault that its retry raises; or it waits
on. -/
def wakeWaiter (s : State) (team q who : Nat) (t : Team) (x : Agent) : Option State :=
  let t1 := { t with qwait := Tbl.put [] t.qwait q [] }
  let rest := fun (u : State) => u.modTeam team fun v => { v with qwait := Tbl.put [] v.qwait q ((v.waiters q).filter fun w => decide (w ≠ who)) }
  match x.queueUse with
  | .read _ _ => match popQueue t1 x q with
    | .entry w c bs t2 =>
      some ((rest (s.modTeam team fun v => { v with q := t2.q, drain := t2.drain, heldEvents := t2.heldEvents })).modAgent ⟨team, who⟩ fun y =>
        let z := y.unpark
        { z with arr := { z.arr with granted := some (w, c, bs) } })
    | .fault => some ((rest s).modAgent ⟨team, who⟩ fun y => y.undoRead.unpark)
    | .park => none
  | .write _ _ => match pushQueue s team t1 x q 0 [] with
    | .ok _ => some ((rest s).modAgent ⟨team, who⟩ fun y =>
        let z := y.unpark
        { z with arr := { z.arr with pushed := true } })
    | .fault => some ((rest s).modAgent ⟨team, who⟩ Agent.unpark)
    | .park => none
  | _ => some (rest s)

/-- The first group that waits on a queue, or the control thread that does, goes on where it can. -/
def wakeFirst (s : State) (team q : Nat) (t : Team) (group : Bool) : Option State :=
  match t.waitersLike q group with
  | [] => none
  | who :: _ =>
    let gone := s.modTeam team fun v => { v with qwait := Tbl.put [] v.qwait q ((v.waiters q).filter fun w => decide (w ≠ who)) }
    match s.agent ⟨team, who⟩ with
    | some x => if x.issue = .queue then wakeWaiter s team q who t x else some gone
    | none => some gone

/-- QUEUE_WAKE: the first reader or the first writer that waits on a queue goes on where it can (R15). -/
def execQueueWake (team q : Nat) (s : State) : Next :=
  match s.team team with
  | none => .next s
  | some t =>
    if !t.resident || t.saveAsked || t.preempt then .next s
    else match wakeFirst s team q t true with
      | some s1 => .next s1
      | none => .next ((wakeFirst s team q t false).getD s)

/-! ### Events (R22) -/

/-- EVENT_POST: held events enter q15 when there is room; where the control thread has gone, the first is discarded, or ends the context if it is a
fault's (R22). -/
def execEventPost (team : Nat) (s : State) : Next :=
  match s.team team with
  | none => .next s
  | some t =>
    if !t.ctlGone then .next (s.modTeam team Team.flush)
    else match t.heldEvents with
      | [] => .next s
      | e :: es =>
        if bits e.word 63 56 = 2 ∨ bits e.word 63 56 = 3 then .next (s.endContext t.part t.asid e.bytes)
        else .next (s.modTeam team fun v => { v with heldEvents := es })

end Sys2Proof.Machine
end

