-- ==== Sys2Proof/Machine/Monitors.lean ====
section
/-! DEFINITION. WAIT and NAP, and the wait monitor table: registration, wakes, timeouts and naps (R256 to R269), with the wakes of a replay run
(R335). -/

namespace Sys2Proof.Machine

/-! ### WAIT: checks (R258) -/

/-- Steps 4 to 7 of R258 at a virtual address. -/
def waitPage (s : State) (b : Beat) (addr : W64) (n va : Nat) : Chk :=
  match s.walk b.cluster b.t.part b.t.asid va with
  | .fault c => .fault 4 c 0
  | .replay => .replay 4 (va / 65536)
  | .leaf pte big =>
    let k := pteKind pte
    let p := s.leafPlace b.t.part pte big va
    if tagOf addr = 0xC ∧ (k = 0 ∨ k = 3) then .fault 4 0x08 0
    else if p.owned ≠ .slice then .fault 5 0x0E 0
    else if locked s b.cluster b.a.team b.t .load addr n then .fault 6 0x09 0
    else match (if b.x.arr.noWatch then none else watched s b.t .load addr n) with
      | some i => .fault 7 0x13 i
      | none => .ok p

/-- The checks of R258 for one lane: a word of n bytes. -/
def waitChecks (s : State) (b : Beat) (lane : Nat) (addr : W64) (n : Nat) : Chk :=
  let tag := tagOf addr
  if !tagOk addr then .fault 1 0x06 0
  else if addr.toNat % n ≠ 0 then .fault 2 0x05 0
  else if tag = 4 ∨ tag = 5 ∨ tag = 8 then .fault 3 0x0E 0
  else if tag = 6 then
    if b.x.isGroup && decide (bits addr 15 0 < 2048) then .fault 3 0x08 0
    else match s.ctx b.t.part b.t.asid with
      | none => .fault 4 0x07 0
      | some c => waitPage s b addr n (localVaOf c b.t.slot b.a.who lane (bits addr 15 0) % 2 ^ 52)
  else waitPage s b addr n (bits addr 51 0)

/-- The checks of the lanes of a beat (R258). -/
def waitAll (s : State) (b : Beat) (n : Nat) : Checked :=
  let rs := b.lanes.map fun l => (l, addressOf b.x b.f l, waitChecks s b l (addressOf b.x b.f l) n)
  if rs.all fun r => r.2.2.step == 9 then
    .pass (rs.filterMap fun r => match r.2.2 with | .ok p => some { lane := r.1, addr := r.2.1, place := p } | _ => none)
  else .out (firstFailing rs false)

/-! ### WAIT: the requests of a beat (R259) -/

/-- The comparison function and width of a WAIT's type are the entry's; its deadline is G's (R256, R259). -/
def waitMon (b : Beat) (q : Passed) : Mon :=
  { operand := readOp b.x q.lane (if tyWidth b.f.ty = 64 then 64 else 32) false 0 0 b.f.c,
    deadline := (match b.f.g with | .u r => (b.x.getU r.toNat).toNat | _ => 2 ^ 64 - 1),
    lanes := if b.f.uni then b.perf else 1#32 <<< q.lane,
    loc := q.place.loc, group := whoGroup b.a.who, slot := b.t.slot, asid := b.t.asid, part := b.t.part, fn := b.f.fn,
    w64 := decide (tyWidth b.f.ty = 64), hostq := false, spill := none, disp := false, ctl := decide (b.a.who = ctlWho),
    slice := q.place.slice }

/-- A lane parked by a WAIT (R62, R259, R263). -/
def LaneRec.park (l : LaneRec) (b : Beat) (mates : LaneMask) (held : Bool) : LaneRec :=
  { l with s := .mon, w := b.x.p + 1, codeD := b.f.d, codeE := b.f.e, wide := decide (tyWidth b.f.ty = 64), site := b.x.site, mates := mates,
           held := held }

/-- The registers that a WAIT writes in a lane: D and E. -/
def waitMarks (d e : Operand) (wide : Bool) (lane : Nat) (v : W64) (p : Bool) : List RegWrite :=
  destWrites (if wide then 64 else 32) lane v d ++ (match e with | .p n => [.p n.toNat lane p] | _ => [])

/-- The lanes of some requests parked, D and E empty (R57, R263). -/
def Agent.parkLanes (x : Agent) (b : Beat) (masks : List LaneMask) (held : Bool) : Agent :=
  masks.foldl (fun y m => (lanesIn m).foldl (fun z i =>
    (z.modLane i fun l => l.park b m held).emptyAll (waitMarks b.f.d b.f.e (decide (tyWidth b.f.ty = 64)) i 0 false)) y) x

/-- The batch of an agent that is on its way. -/
def State.batchOf (s : State) (a : AgentId) : Bool := s.batches.any fun e => decide (e.2.agent = some a)

/-- WAIT (R258 to R263): the beat checks its lanes and issues its requests; it performs when their replies come. In a replay run its lanes park until
the log's wake (R335). -/
def execWait (f : Fields) (s : State) : Next :=
  issueBeat (.wait f) f s fun b s1 =>
    if b.perf = 0 then .done s1
    else if s.batchOf b.a then .block .monitor
    else match waitAll s b (tyWidth f.ty / 8) with
      | .out o => o
      | .pass l =>
        if replaying (s.tctlOf b.t) then
          .done (s1.modAgent b.a fun x => (x.restartGoose s1.beatSeq).parkLanes b (l.map fun q => (waitMon b q).lanes) true)
        else if !s.logRoom b.t (if b.f.uni then 1 else l.length) || !s.logReady b.t b.x then .block .replayRoom
        else
          let s2 := l.foldl (fun u q => u.touchTlb b q.place) s
          let reqs : List RegReq := l.map fun q => { mon := waitMon b q, pte := q.place.pte, va := q.place.va, addr := q.addr }
          let batch : RegBatch := { agent := some b.a, host := none, reqs := reqs }
          .wait ((({ s2 with batches := Tbl.ins s2.batches (Tbl.freshKey s2.batches) batch } : State).countBeat b f.uni).blockAgent b.a .monitor)

/-! ### Registration (R260, R265) -/

/-- What a registration comes to: refused, parked, or a reply at once with the predicate. -/
inductive Reg where
  | refused
  | parked (s : State)
  | reply (s : State) (w : Wake)
deriving Inhabited

/-- A request registered at its slice. A present copy of a cluster is refreshed (R146, R260). -/
def State.register (s : State) (r : RegReq) (cluster : Option Nat) : Reg :=
  let m := r.mon
  let p : Place := { loc := m.loc, owned := .slice, pte := r.pte, va := r.va, slice := m.slice }
  let s1 := (s.recall (m.loc / 128) none).touchLine p 0
  let s2 := match cluster with
    | some cl => s1.refresh cl m.part m.asid p
    | none => s1
  let v := s2.monWord m
  let c := (s2.line (m.loc / 128)).wc
  if waitTest m.fn m.w64 v m.operand then .reply s2 { mon := m, value := v, pred := true, c := c }
  else if m.deadline ≤ s2.dtime then .reply s2 { mon := m, value := v, pred := false, c := c }
  else match s2.insertMon m with
    | none => .refused
    | some s3 => .parked s3

/-- The Wc of a parked reply enters the agent's GWCT, or counts for the releases of the host queue whose WAITMON it is (R144, R260, R274). -/
def parkedAck (s : State) (a : Option AgentId) (m : Mon) : State :=
  let c := (s.line (m.loc / 128)).wc
  match a with
  | some a => s.modAgent a fun x => { x with gwct := max x.gwct c }
  | none => s.modQueue m.part m.group fun h => { h with gwct := max h.gwct c }

/-- What the registrations of a beat have come to: the state, the replies that came at once, and the requests that were refused. -/
structure Registered where
  s : State
  replies : List Wake
  refused : List RegReq
deriving Inhabited

/-- One more request of a beat registered (R260, R265). -/
def Registered.add (a : Option AgentId) (cluster : Option Nat) (g : Registered) (r : RegReq) : Registered :=
  match g.s.register r cluster with
  | .refused => { g with refused := g.refused ++ [r] }
  | .parked s1 => { g with s := parkedAck s1 a r.mon }
  | .reply s1 w => { g with s := s1, replies := g.replies ++ [w] }

/-- The requests of a beat registered one by one. -/
def registerAll (s : State) (a : Option AgentId) (cluster : Option Nat) (rs : List RegReq) : Registered :=
  rs.foldl (Registered.add a cluster) { s := s, replies := [], refused := [] }

/-! ### Wakes (R261, R262, R266) -/

/-- The team and agent that an entry's waiter is, by partition, ASID, slot and group (R266). -/
def State.waiterOf (s : State) (m : Mon) : Option AgentId :=
  (List.find? (fun e => e.2.inCtx m.part m.asid && e.2.slot == m.slot) s.teams).map fun e => ⟨e.1, if m.ctl then ctlWho else m.group⟩

/-- The lanes of a mask that are parked on a monitor. -/
def Agent.parked (x : Agent) (m : LaneMask) : List Nat := (lanesIn m).filter fun i => decide ((x.lane i).s = .mon)

/-- A wake delivered to an agent's lanes: D and E are written, and the lanes are RUN (R262). -/
def Agent.wake (x : Agent) (m : LaneMask) (v : W64) (p : Bool) (c : Nat) : Agent :=
  let y := (x.parked m).foldl (fun z i =>
    let l := z.lane i
    (z.writeAll (waitMarks l.codeD l.codeE l.wide i v p)).modLane i fun l => { l with s := .run, held := false }) x
  { y with gwct := max y.gwct c }

/-- The records that a wake enters in the replay log: one for a uniform WAIT, in its lowest lane (R334). -/
def wakeRecs (t : Team) (who : Nat) (x : Agent) (m : LaneMask) (v : W64) (p : Bool) : List Nguxis :=
  match x.parked m with
  | [] => []
  | i :: is =>
    let one := fun (k : Nat) =>
      let l := x.lane k
      valueRec t who { x with p := l.site.pc, cseq := l.site.cseq } 0x11 (BitVec.ofNat 32 (k + b2n p * 2 ^ 31)) v
    if (x.lane i).mates = m ∧ is ≠ [] then [one i] else (i :: is).map one

/-- An idle agent whose lane has woken goes on with `census(G.P + 1)` (R68). -/
def State.resumeIdle (s : State) (a : AgentId) : State :=
  match s.agent a with
  | some x => if x.issue = .idle ∧ x.runLanes ≠ [] then s.nextIndex a else s
  | none => s

/-- What a wake writes: its agent's lanes, and the records of it in the replay log (R262, R334). -/
def State.applyWake (s : State) (a : AgentId) (m : LaneMask) (v : W64) (p : Bool) (c : Nat) : State :=
  match s.team a.team, s.agent a with
  | some t, some x => (wakeRecs t a.who x m v p).foldl (fun u r => u.logPut a.team r) (s.setAgent a (x.wake m v p c))
  | _, _ => s

/-- A wake delivered to a resident agent, which goes on (R68, R262). -/
def State.deliverWake (s : State) (a : AgentId) (m : LaneMask) (v : W64) (p : Bool) (c : Nat) : State := (s.applyWake a m v p c).resumeIdle a

/-! ### The beat of a WAIT (R62, R263) -/

/-- The beat of a WAIT, issued with its requests, whose replies have come: its lanes are parked, those whose reply created no entry have their wake at once, and the instruction goes
on (R62, R260, R263). -/
def waitPerforms (s : State) (a : AgentId) (f : Fields) (t : Team) (x : Agent) (reqs : List RegReq) (replies : List Wake) : State :=
  match rowFor (.wait f) with
  | none => s
  | some r =>
    let b := beatOf (.wait f) f r a t x
    let s1 := s.modAgent a fun y => ({ y.advance b.act with block := none }.restartGoose s.beatSeq).parkLanes b (reqs.map fun (q : RegReq) => q.mon.lanes) false
    (replies.foldl (fun u w => u.deliverWake a w.mon.lanes w.value w.pred w.c) s1).passBeat b f.uni

/-- An access of an agent to a watched word is still to perform: the registration reads the word after it (R145, R146). -/
def Agent.opsBefore (x : Agent) (reqs : List RegReq) : Bool :=
  x.ops.any fun e => reqs.any fun r => decide (e.2.place.loc < r.mon.loc + r.mon.bytes) && decide (r.mon.loc < e.2.place.loc + e.2.size)

/-- A beat of a WAIT some of whose registrations are refused: fault 0x0E at its quad, in the lanes that were refused (R265, R286). -/
def waitRefused (s : State) (a : AgentId) (f : Fields) (x : Agent) (refused : List RegReq) : State :=
  let nb := nextBeat x f.uni
  let lanes := refused.foldl (fun m r => m ||| r.mon.lanes) 0
  (s.modAgent a fun y => { y with restart := if f.uni then 0 else nb.2 }).takeFault a
    (beatFault 0x0E (if f.uni then performing x f nb.1 else lanes) ((refused.head?.map fun r => r.addr).getD 0) false)

/-- A stopped agent's lanes are all DONE (R290). -/
def Agent.abort (x : Agent) : Agent :=
  { x with lanes := x.lanes.map fun l => { l with s := .done, d := 0, link := [] }, stop := none, pend := [] }

/-- The abort of a stopped agent: it ends, and its monitor entries are purged (R67, R267, R290). -/
def State.abortAgent (s : State) (a : AgentId) (t : Team) : State :=
  let mine := fun (m : Mon) => m.part == t.part && m.asid == t.asid && m.slot == t.slot && !m.hostq && !m.disp && m.ctl == decide (a.who = ctlWho)
    && m.group == whoGroup a.who
  let s1 := s.dropMons mine
  let s2 : State := { s1 with wakes := s1.wakes.filter fun e => !mine e.2.mon }
  let s3 := s2.modAgent a Agent.abort
  let s4 := if a.who = ctlWho then s3.modTeam a.team fun t => { t with ctlGone := true } else s3
  (s4.agentEnded a).settle a.team

/-- The resume of a stopped agent: an acquire, by the c of the disposing store (R290). -/
def State.resumeAgent (s : State) (a : AgentId) (x : Agent) (st : Stop) (c : Nat) : State :=
  let go := fun (y : Agent) => { y with stop := none, block := none, gwct := max y.gwct c }
  match st.how with
  | .refetch => s.setAgent a { go x with issue := .arrive false, restart := 0 }
  | .beat =>
    let y := go (if st.code = 0x16 then x.restartGoose s.beatSeq else x)
    s.setAgent a { y with issue := .beats, arr := { y.arr with noWatch := decide (st.code = 0x13), wk := 0 } }
  | .census => (s.setAgent a (go x)).nextIndex a

/-- The disposition of a stopped agent (R290); any value but 1 and 2 ends the context with the record of the stop (R291). -/
def State.dispose (s : State) (a : AgentId) (v c : Nat) : State :=
  match s.team a.team, s.agent a with
  | some t, some x => match x.stop with
    | none => s
    | some st =>
      if v = 1 then s.resumeAgent a x st c
      else if v = 2 then s.abortAgent a t
      else s.endContext t.part t.asid st.record
  | _, _ => s

/-- A wake that finds its team out goes to the wake record (R266); its c enters GWCT (R144). -/
def Team.recordWake (t : Team) (who : Nat) (w : Wake) : Team :=
  { t with wake := t.wake ++ [{ group := who, lanes := w.mon.lanes, value := w.value, pred := w.pred }],
           agents := Tbl.modify t.agents who fun x => { x with gwct := max x.gwct w.c } }

/-- What a host queue does with its WAITMON's wake: its c counts for the queue's releases (R144, R274); RESULT, then completion, or an error stop where a
timeout is one (R268, R272, R274). -/
def State.waitmonWake (s : State) (m : Mon) (v : W64) (p : Bool) (c : Nat) : State :=
  match (s.hostq m.part m.group).waitmon with
  | none => s
  | some (idx, toerr, result) =>
    let s0 := s.modQueue m.part m.group fun h => { h with waitmon := none, gwct := max h.gwct c }
    match (if result = 0 then some s0 else s0.hostPut m.part m.asid m.group idx result (toBytes 8 v.toNat ++ toBytes 8 (b2n p))) with
    | none => s0.queueStop m.part m.group 0x03 (some idx) 0
    | some s1 => if !p && toerr then s1.queueStop m.part m.group 0x05 (some idx) 0 else s1.packetDone m.part m.group idx

/-- MONITOR_REGISTER: the requests of a WAIT beat reach their slices. A refusal raises fault 0x0E, and nothing of the beat performs (R260, R265); a
refused WAITMON stops its queue (R268, R272). -/
def execMonitorRegister (n : Nat) (s : State) : Next :=
  match Tbl.find? s.batches n with
  | none => .next s
  | some bt =>
    let s0 := { s with batches := Tbl.del s.batches n }
    match bt.agent, bt.host with
    | some a, _ => match s0.team a.team, s0.agent a with
      | some t, some x =>
        if x.issue ≠ .beats then .next s0
        else if x.opsBefore bt.reqs then .next s
        else match decodeFor x.kind x.budget x.arr.word with
          | .ok (.wait f) =>
            let g := registerAll s0 (some a) t.cluster bt.reqs
            if g.refused = [] then .next ((waitPerforms g.s a f t ((g.s.agent a).getD x) bt.reqs g.replies).markHeld a)
            else .next ((waitRefused s0 a f x g.refused).markHeld a)
          | _ => .next s0
      | _, _ => .next s0
    | none, some (part, q, idx) =>
      let g := registerAll s0 none none bt.reqs
      if g.refused = [] then .next (g.replies.foldl (fun u w => u.waitmonWake w.mon w.value w.pred w.c) g.s)
      else .next (s0.queueStop part q 0x04 (some idx) 0)
    | none, none => .next s0

/-- MONITOR_WAKE: a wake reaches its waiter (R262, R266, R268, R290). A disposition waits for the event of the stop that it disposes of (R22). -/
def execMonitorWake (n : Nat) (s : State) : Next :=
  match Tbl.find? s.wakes n with
  | none => .next s
  | some w =>
    let s1 := { s with wakes := Tbl.del s.wakes n }
    if w.mon.hostq then .next (s1.waitmonWake w.mon w.value w.pred w.c)
    else match s1.waiterOf w.mon with
      | none => .next s1
      | some a => match s1.team a.team with
        | none => .next s1
        | some t =>
          if w.mon.disp then .next (if !t.resident then s1 else if t.stopHeld a.who then s else s1.dispose a w.value.toNat w.c)
          else match t.cluster with
            | some cl => .next ((s1.dropStale cl (w.mon.loc / 128) w.stamp).deliverWake a w.mon.lanes w.value w.pred w.c)
            | none => .next (s1.modTeam a.team fun v => v.recordWake a.who w)

/-- MONITOR_TIMEOUT: a tick of a slice's wheel takes out the entries whose deadline is past, and wakes each with the word's value (R264). -/
def execMonitorTimeout (slice : Nat) (s : State) : Next :=
  let tick := s.dtime / 1000 * 1000
  let due := fun (m : Mon) => m.slice == slice && decide (m.deadline ≤ tick)
  let out := s.mons.filter due
  .next (out.foldl (fun u m => u.sendWake { mon := m, value := s.monWord m, pred := false, c := (s.line (m.loc / 128)).wc, stamp := s.writeSeq })
    (s.dropMons due))

/-! ### NAP (R269) -/

/-- The time to which a lane naps. -/
def napTime (s : State) (b : Beat) (lane : Nat) : Nat :=
  if b.f.fn = 0 then (pointerOf b.x lane b.f.a).toNat else s.dtime + (lowBits 32 (readOp b.x lane 32 false b.f.imm 0 b.f.a)).toNat

/-- NAP (R269). -/
def execNap (f : Fields) (s : State) : Next :=
  issueBeat (.nap f) f s fun b s1 =>
    let src := fun (i : Nat) => if f.uni then lowestLane b.act else i
    let sleepers := (lanesIn b.perf).filter fun i => decide (s.dtime < napTime s b (src i))
    if sleepers = [] then .done s1
    else .done ((s1.modLanes b.a sleepers fun i l => { l with s := .nap, nap := napTime s b (src i) }).modAgent b.a fun x =>
      x.restartGoose s1.beatSeq)

/-- A napping lane whose time has come is RUN (R269). -/
def Agent.wakeNap (x : Agent) (lane dtime : Nat) : Agent :=
  x.modLane lane fun l => if l.s = .nap ∧ l.nap ≤ dtime then { l with s := .run } else l

/-- NAP_WAKE (R269). -/
def execNapWake (a : AgentId) (lane : Nat) (s : State) : Next :=
  match s.team a.team with
  | some t => if t.resident then .next ((s.modAgent a fun x => x.wakeNap lane s.dtime).resumeIdle a) else .next s
  | none => .next s

/-! ### The wakes of a replay run (R335) -/

/-- REPLAY_WAIT_DELIVERY: a held lane takes the logged value of its WAIT no earlier than the logged time. A next record of the same agent that is no wake of
a held lane stops the agent, which waits for one, as a BRK would (R335). -/
def execReplayWaitDelivery (a : AgentId) (lane : Nat) (s : State) : Next :=
  match s.team a.team, s.agent a with
  | some t, some x =>
    let l := x.lane lane
    if !l.held || decide (l.s ≠ .mon) || !t.resident then .next s
    else
      let r := s.logNext t
      let g := loggedOf r
      let at' := { x with p := l.site.pc, cseq := l.site.cseq }
      if recMatches r a.who at' 0x11 && g.p0.toNat % 2 ^ 31 == lane then
        if g.dtime ≤ s.dtime then
          let s1 := s.modTeam a.team fun t => { t with logRd := t.logRd + 1 }
          .next ((s1.setAgent a (x.wake l.mates g.p1 (g.p0.getLsbD 31) 0)).resumeIdle a)
        else .next s
      else if x.issue = .idle ∧ recOwner r a.who = true ∧ x.recWake r a.who = false then
        .next ((s.breakReplay a t x (if a.who = ctlWho then 1 else 1#32 <<< lane)).markHeld a)
      else .next s
  | _, _ => .next s

end Sys2Proof.Machine
end

