-- ==== Sys2Proof/Machine/Launching.lean ====
section
/-! DEFINITION. Launch packets (R275 to R277), LAUNCH (R283, R284), and the host queues with their packets (R270 to R274). -/

namespace Sys2Proof.Machine

/-! ### Launch packets (R275, R276) -/

/-- Word i of a packet. -/
def packetWord (bs : List Byte) (i : Nat) : W64 := BitVec.ofNat 64 (ofBytes ((bs.drop (8 * i)).take 8))

/-- The launch that 64 bytes describe (R275); its class is the packet's. -/
def parseLaunch (bs : List Byte) : Launch :=
  let w := packetWord bs
  { cset := bits (w 0) 55 52, aff := bits (w 0) 51 50, affp := BitVec.ofNat 32 (bits (w 6) 31 0), cls := bits (w 0) 49 48, pop0 := bits (w 0) 37 32,
    pop1 := bits (w 0) 45 40, g0 := bits (w 0) 23 16, g1 := bits (w 0) 31 24, regs0 := bits (w 1) 55 48, regs1 := bits (w 1) 63 56,
    gx := bits (w 1) 15 0, gy := bits (w 1) 31 16, gz := bits (w 1) 47 32, codeCount := bits (w 2) 63 36, acc := bits (w 2) 34 29,
    scr := bits (w 2) 28 14, obl := bits (w 2) 13 0, ctlEntry := bits (w 3) 55 28, grpEntry := bits (w 3) 27 0, codeBase := w 4, args := w 5,
    compVal := BitVec.ofNat 32 (bits (w 6) 63 32), compAddr := w 7 }

/-- The zero fields of a launch packet; OVERLAP is zero in a device launch (R275, R276). -/
def launchZeros (bs : List Byte) (device : Bool) : Bool :=
  let w := packetWord bs
  decide (bits (w 0) 63 56 = 0) && decide (bits (w 0) 47 46 = 0) && decide (bits (w 0) 39 38 = 0) && decide (bits (w 0) 15 9 = 0)
    && (!device || !bit (w 0) 8) && decide (bits (w 2) 35 35 = 0) && decide (bits (w 3) 63 56 = 0)

/-- A role's population and register budget (R276). -/
def roleOk (g pop regs : Nat) : Bool :=
  if g = 0 then decide (pop = 0) && (decide (regs = 0) || (decide (8 ≤ regs) && decide (regs ≤ 128) && decide (regs % 8 = 0)))
  else decide (1 ≤ pop) && decide (pop ≤ 32) && decide (8 ≤ regs) && decide (regs ≤ 128) && decide (regs % 8 = 0)

/-- COMPADDR's rule (R276). -/
def compOk (p : W64) : Bool :=
  decide (p = 0) || (decide (p.toNat % 4 = 0) && tagOk p && (decide (tagOf p < 3) || decide (tagOf p = 0xC)))

/-- A well-formed launch (R276). -/
def Launch.formed (l : Launch) : Bool :=
  decide (1 ≤ l.g0 + l.g1) && decide (l.g0 + l.g1 ≤ 128) && roleOk l.g0 l.pop0 l.regs0 && roleOk l.g1 l.pop1 l.regs1
    && decide (l.gx ≠ 0) && decide (l.gy ≠ 0) && decide (l.gz ≠ 0) && decide (1 ≤ l.cset) && decide (l.cset ≤ 8)
    && decide (l.obl ≤ 8192) && decide (l.acc ≤ 32) && decide (l.aff ≠ 3) && (decide (l.aff ≠ 0) || decide (l.affp = 0))
    && decide (bits l.codeBase 63 52 = 0) && decide (l.codeBase.toNat % 128 = 0) && decide (l.codeCount ≠ 0)
    && decide (l.ctlEntry < l.codeCount) && decide (l.grpEntry < l.codeCount) && compOk l.compAddr

/-- A well-formed packet (R276). -/
def launchOk (bs : List Byte) (device : Bool) : Bool :=
  decide (bits (packetWord bs 0) 7 0 = 1) && launchZeros bs device && (parseLaunch bs).formed

/-- The groups of a launch with their roles, ascending: producers first (R278). -/
def Launch.roles (l : Launch) : List Nat := List.replicate l.g0 0 ++ List.replicate l.g1 1

/-- The register budget of a role. -/
def Launch.regs (l : Launch) (role : Nat) : Nat := if role = 0 then l.regs0 else l.regs1

/-! ### Rails (R58) -/

/-- A rail's load: registers in use and resident groups. -/
structure RailLoad where
  regs : Nat
  groups : Nat
deriving DecidableEq, Repr, Inhabited

/-- The rail that a group of a budget goes to: the most free registers, ties to the lowest; none where it does not fit (R58). -/
def pickRail (loads : List RailLoad) (limit regs : Nat) : Option Nat :=
  let fits := (loads.zipIdx).filter fun e => decide (e.1.groups < limit) && decide (e.1.regs + regs ≤ 16384)
  match leastOf (fits.map fun e => e.1.regs) with
  | none => none
  | some m => (fits.find? fun e => e.1.regs == m).map (·.2)

/-- Budgets placed on rails in order; none where one does not fit (R58). -/
def placeGroups (loads : List RailLoad) (limit : Nat) : List Nat → Option (List Nat)
  | [] => some []
  | b :: bs => match pickRail loads limit (32 * b) with
    | none => none
    | some r =>
      (placeGroups (modNth loads r fun x => { regs := x.regs + 32 * b, groups := x.groups + 1 }) limit bs).map fun rest => r :: rest

/-- 32 empty rails. -/
def emptyRails : List RailLoad := List.replicate 32 ⟨0, 0⟩

/-- The budgets of a launch's groups, ascending. -/
def Launch.budgets (l : Launch) : List Nat := l.roles.map l.regs

/-- Whether some empty cluster of a partition could admit a team, with members of a set on clusters of one die (R280, R281). -/
def State.everFits (s : State) (part : Nat) (l : Launch) : Bool :=
  decide (s.diesOf part ≠ []) && (placeGroups emptyRails 16 l.budgets).isSome && decide (l.scr ≤ 32768) && decide (l.obl ≤ 8192)
    && decide (min l.cset (l.gx * l.gy * l.gz) ≤ 32)

/-- A grid of a launch in a class (R277, R282). -/
def newGrid (part asid cls order : Nat) (l : Launch) (host : Option (Nat × Nat)) : Grid :=
  { part := part, asid := asid, launch := l, cls := max l.cls cls, started := 0, endedTeams := 0, order := order, host := host, begun := false,
    finished := false }

/-- A grid added. -/
def State.addGrid (s : State) (g : Grid) : State := { s with grids := Tbl.ins s.grids (Tbl.freshKey s.grids) g }

/-! ### LAUNCH (R283, R284) -/

/-- The place of a packet behind a page (R284, R345). -/
def launchPage (s : State) (b : Beat) (addr : W64) (va : Nat) : Chk :=
  match s.walk b.cluster b.t.part b.t.asid va with
  | .fault c => .fault 4 c 0
  | .replay => .replay 4 (va / 65536)
  | .leaf pte big =>
    let p := s.leafPlace b.t.part pte big va
    if !s.reaches b.t.part p then .fault 3 0x08 0
    else if tagOf addr = 0xC ∧ (pteKind pte = 0 ∨ pteKind pte = 3) then .fault 4 0x08 0 else .ok p

/-- Steps 1, 2 and 4 of R164 on a packet of 64 bytes (R284); an access to a peer is one that R345 allows. -/
def launchCheck (s : State) (b : Beat) (lane : Nat) (addr : W64) : Chk :=
  if !tagOk addr then .fault 1 0x06 0
  else if addr.toNat % 64 ≠ 0 then .fault 2 0x05 0
  else match tagOf addr with
    | 4 => .ok { loc := spLoc b.a.team (bits addr 21 0), owned := .scratch b.a.team, pte := 0, va := 0 }
    | 5 => match spTeam s b.a.team b.t addr with
      | .team u => .ok { loc := spLoc u (bits addr 21 0), owned := .scratch u, pte := 0, va := 0 }
      | .absent => .wait 4 .member
      | .fault => .fault 4 0x08 0
    | 8 =>
      let p := s.onPeer b.t.part { loc := locOf 3 (bits addr 59 0), owned := .peer, pte := 0, va := 0 }
      if s.reaches b.t.part p then .ok p else .fault 3 0x08 0
    | 6 => match s.ctx b.t.part b.t.asid with
      | none => .fault 4 0x07 0
      | some c => launchPage s b addr (localVaOf c b.t.slot b.a.who lane (bits addr 15 0) % 2 ^ 52)
    | _ => launchPage s b addr (bits addr 51 0)

/-- The pointer of a lane. -/
def launchPtr (b : Beat) (lane : Nat) : W64 := pointerOf b.x lane b.f.a

/-- A child queued for a lane: its packet is read once, at its owner (R284). -/
def queueChild (b : Beat) (s : State) (q : Nat × Place) : State :=
  let s1 := s.touchTlb b q.2
  let s2 := if q.2.owned = .slice then (s1.recall (q.2.loc / 128) none).touchLine q.2 0 else s1
  let site := ((s2.agent b.a).getD b.x).site
  let child : Child := { team := b.a.team, who := b.a.who, part := b.t.part, asid := b.t.asid, cls := b.t.cls, tok := tokOf b.f.md,
                         ev := evOf b.f.md, site := site, order := s2.orderSeq, packet := s2.read q.2.loc 64 }
  { s2.tokenUp b.a.team (tokOf b.f.md) with children := Tbl.ins s2.children (Tbl.freshKey s2.children) child, orderSeq := s2.orderSeq + 1 }

/-- Queued children of a partition (R284). -/
def State.childCount (s : State) (part : Nat) : Nat := (s.children.filter fun e => e.2.part == part).length

/-- The children of a beat's lanes, ascending: those for which the partition has room are queued, and the beat blocks with the others (R284).
`s0` is the state before the beat, `s` the one with the lanes gone on. Other agents may have raised the token since the first test: an issue
that would raise it above 255 is a fault (R16). -/
def queueChildren (s0 s : State) (b : Beat) (qs : List (Nat × Place)) : Out :=
  let room := 4096 - s.childCount b.t.part
  let left := fun (u : State) (l : Option (List (Nat × Place))) => u.modAgent b.a fun x => { x with arr := { x.arr with left := l } }
  if Tbl.get 0 b.t.tok (tokOf b.f.md) + qs.length > 255 then .fault (beatFault 0x0F (maskOf (qs.map (·.1)) fun _ => true) 0 false)
  else if room = 0 ∧ qs ≠ [] then .block .children
  else if qs.length ≤ room then .done (left (qs.foldl (queueChild b) s) none)
  else
    .wait (left (((qs.take room).foldl (queueChild b) s0).blockAgent b.a .children) (some (qs.drop room)))

/-- LAUNCH: the token is tested before anything is issued; then a beat checks its packets and queues its children (R284). -/
def execLaunch (f : Fields) (s : State) : Next :=
  issueBeat (.launch f) f s fun b s1 =>
    let all := if f.uni then 1 else (lanesIn (performing b.x f b.x.arr.a)).length
    let first := f.uni || decide ((quadsFrom b.x.arr.a 0).head? = some b.quad)
    match b.x.arr.left with
    | some qs => queueChildren s s1 b qs
    | none =>
      if first && decide (all ≠ 0) && decide (Tbl.get 0 b.t.tok (tokOf f.md) + all > 255) then
        .fault { beatFault 0x0F (performing b.x f b.x.arr.a) 0 false with whole := true }
      else if b.perf = 0 then .done s1
      else if b.a.who = ctlWho ∧ s.logRoom b.t 1 = false then .block .replayRoom
      else
        let rs := b.lanes.map fun l => (l, launchPtr b l, launchCheck s b l (launchPtr b l))
        if rs.all fun r => r.2.2.step == 9 then
          queueChildren s (s1.takeSeq b.a) b (rs.filterMap fun r => match r.2.2 with | .ok p => some (r.1, p) | _ => none)
        else firstFailing rs false

/-- CHILD_VALIDATE: a queued child's packet is good and its grid joins the order, or it ends in fault 0x1A with cause 0x01; its token falls either
way (R284). -/
def execChildValidate (n : Nat) (s : State) : Next :=
  match Tbl.find? s.children n with
  | none => .next s
  | some c =>
    let s0 : State := { s with children := Tbl.del s.children n }
    let s1 := s0.tokenDown c.team c.tok
    let eng := if c.who = ctlWho then 1 else 0
    let l := parseLaunch c.packet
    if launchOk c.packet true && s.everFits c.part l then
      let s2 := s1.addGrid (newGrid c.part c.asid c.cls c.order l none)
      .next (if c.ev then s2.postEvent c.team 0x01 eng c.site.cseq c.tok else s2)
    else
      let slot := ((s.team c.team).map fun t => t.slot).getD 0
      let rec0 : Rec := { code := 0x1A, eng := eng, group := whoGroup c.who, ctl := decide (c.who = ctlWho), slot := slot, asid := c.asid,
                          part := c.part, restart := 0, write := false, replay := false, site := c.site, addr := 0, lanes := 0 }
      .next (s1.postFault c.team 0x03 eng c.site.cseq 0x1A01 rec0)

/-! ### Host queues (R270 to R273) -/

/-- EN, LOG2N and the context of a queue (R270). -/
def HostQ.en (h : HostQ) : Bool := bit h.ctl 31
/-- Packets in the ring. -/
def HostQ.size (h : HostQ) : Nat := 2 ^ bits h.ctl 28 24
/-- The context's ASID. -/
def HostQ.asid (h : HostQ) : Nat := bits h.ctl 15 0
/-- The queue has stopped on an error (R272). -/
def HostQ.err (h : HostQ) : Bool := bit h.stat 0

/-- A write of QCTL with EN = 1: it is stored; one that breaks R270 stops the queue at once (R270, R272). -/
def execQueueEnable (part q : Nat) (w : W64) (s : State) : Next :=
  if !bit w 31 || !(s.partition part).live then .next s
  else
    let s1 := s.modQueue part q fun h => { h with ctl := w }
    let h := s1.hostq part q
    let okBase := decide (h.base.toNat % 4096 = 0) && (decide (tagOf h.base = 0) || decide (tagOf h.base = 0xC))
    let okCtl := decide (bits w 63 32 = 0) && decide (bits w 30 29 = 0) && decide (bits w 23 18 = 0) && decide (4 ≤ bits w 28 24)
      && decide (bits w 28 24 ≤ 16)
    if okBase && okCtl then .next s1 else .next (s1.queueStop part q 0x01 none 0)

/-- A write of QCTL with EN = 0: it is stored, ERR is cleared, and a failed packet is passed (R272). -/
def execQueueDisable (part q : Nat) (w : W64) (s : State) : Next :=
  if bit w 31 || !(s.partition part).live then .next s
  else .next (s.modQueue part q fun h =>
    { h with ctl := w, stat := h.stat &&& ~~~1#64, failed := none, rd := match h.failed with | some i => BitVec.ofNat 64 (i + 1) | none => h.rd })

/-- QDOOR: a doorbell announces packets, or stops the queue where it is out of range (R271). -/
def execQdoor (part q : Nat) (w : W64) (s : State) : Next :=
  let h := s.hostq part q
  let s1 := s.modQueue part q fun h => { h with door := w }
  if !(s.partition part).live then .next s
  else if w.toNat < h.accepted.toNat ∨ w.toNat > h.rd.toNat + h.size then .next (s1.queueStop part q 0x02 none 0)
  else .next (s1.modQueue part q fun h => { h with accepted := w })

/-- The next packet of a queue may begin: the queue runs, its doorbell covers the packet, no WAITMON is outstanding (R268, R271 to R273). -/
def HostQ.may (h : HostQ) : Bool := h.en && !h.err && decide (h.rd.toNat < h.accepted.toNat) && h.waitmon.isNone

/-- The packet before the next one has completed, or the next one overlaps it (R273). -/
def HostQ.inTurn (h : HostQ) (overlap : Bool) : Bool := overlap || !h.running.contains (h.rd.toNat - 1) || decide (h.rd = 0)

/-- A packet begins: QRD passes it (R273). -/
def State.beginPacket (s : State) (part q idx : Nat) : State :=
  s.modQueue part q fun h => { h with rd := BitVec.ofNat 64 (idx + 1), running := idx :: h.running }

/-- The next packet of a queue of the given type: it is read once at its owner, and handed on begun; `k` answers the state after it, or an error
code (R271 to R273). -/
def State.withPacket (s : State) (part q type : Nat) (k : HostQ → Nat → List Byte → State → Except Byte State) : State :=
  let h := s.hostq part q
  if !h.may then s
  else
    let idx := h.rd.toNat
    let c := hostCmd part h.asid q idx
    let addr := h.base + BitVec.ofNat 64 (64 * (idx % h.size))
    match s.engPlace c addr false with
    | .ok p =>
      let s0 := if p.owned = .slice then (s.recall (p.loc / 128) none).touchLine p 0 else s
      let bs := s0.read p.loc 64
      let ty := bits (packetWord bs 0) 7 0
      if ty = 0 ∨ ty > 6 then s0.queueStop part q 0x01 (some idx) 0
      else if ty ≠ type ∨ h.inTurn (bit (packetWord bs 0) 8) = false then s
      else
        match k h idx bs (s0.beginPacket part q idx) with
        | .ok s1 => s1
        | .error code => (s0.beginPacket part q idx).queueStop part q code (some idx) 0
    | _ => s.queueStop part q 0x03 (some idx) 0

/-- The words of a packet from i on are zero. -/
def wordsZero (bs : List Byte) (i : Nat) : Bool := (bs.drop (8 * i)).all fun b => decide (b = 0)

/-- LAUNCH packet (R275 to R277): its grid joins the order. -/
def execLaunchPacket (part q : Nat) (s : State) : Next :=
  .next (s.withPacket part q 1 fun h idx bs s1 =>
    let l := parseLaunch bs
    if !launchOk bs false then .error 0x01
    else if !s1.everFits part l then .error 0x06
    else .ok { s1.addGrid (newGrid part h.asid (bits h.ctl 17 16) s1.orderSeq l (some (q, idx))) with orderSeq := s1.orderSeq + 1 })

/-- COPY packet (R274): a copy of the host queue, which locks nothing and has no token. -/
def execCopyPacket (part q : Nat) (s : State) : Next :=
  .next (s.withPacket part q 2 fun h idx bs s1 =>
    let w := packetWord bs
    let c : CopySlice := { idx := 0, dst := w 1, src := w 2, geo := w 3, sstr := w 4, dstr := w 5, cleared := 0 }
    let tagsOk := fun (p : W64) => decide (tagOf p ≠ 4) && decide (tagOf p ≠ 5) && decide (tagOf p ≠ 6)
    let sound := decide (bits (w 0) 63 9 = 0) && wordsZero bs 6 && c.formed && endpointOk c.src c.srcTop && endpointOk c.dst c.dstTop
      && tagsOk c.src && tagsOk c.dst && !c.geom.sparse && decide (c.src.toNat % 4 = 0) && decide (c.dst.toNat % 4 = 0) && c.pitchesOk
    if sound then .ok (s1.addCmd { hostCmd part h.asid q idx with kind := copyCmd [c] 0 none }) else .error 0x01)

/-- The place of a packet's address of n bytes: none where it does not translate (R272). -/
def hostPlace (s : State) (part asid q idx : Nat) (addr : W64) (write : Bool) : Option Place :=
  match s.engPlace (hostCmd part asid q idx) addr write with
  | .ok p => some p
  | _ => none

/-- What a queue's packets have written may be released: device time has passed the latest of it (R147, R274). -/
def HostQ.released (h : HostQ) (s : State) : Bool := decide (h.gwct = 0) || decide (s.dtime ≥ h.gwct + 4)

/-- SIGNAL packet (R274): once the release of what its queue has completed has performed, one atomic store or add at the owner; the packet
completes with it. -/
def execSignalPacket (part q : Nat) (s : State) : Next :=
  if (s.hostq part q).released s = false then .next s
  else .next (s.withPacket part q 3 fun h idx bs s1 =>
    let w := packetWord bs
    let op := bits (w 0) 17 16
    let n := if bit (w 0) 18 then 8 else 4
    if bits (w 0) 63 19 ≠ 0 ∨ bits (w 0) 15 9 ≠ 0 ∨ op > 1 ∨ wordsZero bs 3 = false ∨ (w 1).toNat % n ≠ 0 ∨ (n = 4 ∧ bits (w 2) 63 32 ≠ 0) then
      .error 0x01
    else match hostPlace s1 part h.asid q idx (w 1) true with
      | none => .error 0x03
      | some p =>
        let s2 := if p.owned = .slice then s1.recall (p.loc / 128) none else s1
        let v := if op = 0 then (w 2).toNat else s2.readNat p.loc n + (w 2).toNat
        .ok ((s2.hostWrite (hostCmd part h.asid q idx) p (toBytes n v)).packetDone part q idx))

/-- WAITMON packet (R268, R274): its entry goes to its slice. -/
def execWaitmonPacket (part q : Nat) (s : State) : Next :=
  .next (s.withPacket part q 4 fun h idx bs s1 =>
    let w := packetWord bs
    let n := if bit (w 0) 20 then 8 else 4
    let tag := tagOf (w 1)
    if bits (w 0) 63 22 ≠ 0 ∨ bits (w 0) 15 9 ≠ 0 ∨ bits (w 0) 19 16 > 11 ∨ wordsZero bs 5 = false ∨ (w 1).toNat % n ≠ 0
        ∨ (n = 4 ∧ bits (w 2) 63 32 ≠ 0) ∨ (w 4).toNat % 8 ≠ 0 ∨ tag = 4 ∨ tag = 5 ∨ tag = 6 ∨ tag = 8 then .error 0x01
    else match hostPlace s1 part h.asid q idx (w 1) false, (w 4 = 0 ∨ (hostPlace s1 part h.asid q idx (w 4) true).isSome : Bool) with
      | some p, true =>
        if p.owned ≠ .slice then .error 0x04
        else
          let m : Mon := { operand := w 2, deadline := if w 3 = 0 then 2 ^ 64 - 1 else (w 3).toNat, lanes := 0, loc := p.loc, group := q,
                           slot := 0, asid := h.asid, part := part, fn := BitVec.ofNat 4 (bits (w 0) 19 16), w64 := bit (w 0) 20, hostq := true,
                           spill := none, disp := false, ctl := false, slice := p.slice }
          let batch : RegBatch := { agent := none, host := some (part, q, idx), reqs := [{ mon := m, pte := p.pte, va := p.va, addr := w 1 }] }
          let s2 := s1.modQueue part q fun h => { h with waitmon := some (idx, bit (w 0) 21, w 4) }
          .ok { s2 with batches := Tbl.ins s2.batches (Tbl.freshKey s2.batches) batch }
      | _, _ => .error 0x03)

/-- The first FENCE of a queue that every earlier packet of it has left behind (R273). -/
def HostQ.fenceDue (h : HostQ) : Option Nat := h.fences.find? fun f => h.running.all fun i => decide (f ≤ i)

/-- FENCE packet (R273, R274): an outstanding one completes once every earlier packet has and its release has performed; else the next one begins. -/
def execFencePacket (part q : Nat) (s : State) : Next :=
  match (s.hostq part q).fenceDue with
  | some f => if (s.hostq part q).released s = false then .next s else
    .next ((s.modQueue part q fun h => { h with fences := h.fences.filter fun i => i != f }).packetDone part q f)
  | none => .next (s.withPacket part q 5 fun _ idx bs s1 =>
    let w := packetWord bs 0
    if bits w 63 18 ≠ 0 ∨ bits w 15 9 ≠ 0 ∨ bits w 17 16 < 2 ∨ wordsZero bs 1 = false then .error 0x01
    else .ok (s1.modQueue part q fun h => { h with fences := h.fences ++ [idx] }))

/-- MARKER packet (R274, R329): the device time at ADDR, and TAG to the trace unit. -/
def execMarkerPacket (part q : Nat) (s : State) : Next :=
  .next (s.withPacket part q 6 fun h idx bs s1 =>
    let w := packetWord bs
    if bits (w 0) 63 9 ≠ 0 ∨ wordsZero bs 3 = false ∨ (w 1).toNat % 8 ≠ 0 then .error 0x01
    else
      let put := if w 1 = 0 then some s1 else s1.hostPut part h.asid q idx (w 1) (toBytes 8 s1.dtime)
      match put with
      | none => .error 0x03
      | some s2 => .ok ((s2.trace part h.asid (plainRec 0x06 0 (w 2))).packetDone part q idx))

end Sys2Proof.Machine
end

