-- ==== Sys2Proof/Machine/Keccak.lean ====
section
/-! DEFINITION. SHAKE256, the digest of 64 bytes that boot and attestation use (R347 to R349): the sponge of rate 136 over Keccak-f[1600], as FIPS 202
defines it (PRESUMED, log entry 97); the spec names the function only. -/

namespace Sys2Proof.Machine

/-- The lane at (x, y) of a Keccak state of 25 lanes. -/
def kLane (a : List W64) (x y : Nat) : W64 := a.getD (x % 5 + 5 * (y % 5)) 0

/-- The rotations of the lanes, in the order of the state. -/
def kRot : List Nat := [0, 1, 62, 28, 27, 36, 44, 6, 55, 20, 3, 10, 43, 25, 39, 41, 45, 15, 21, 8, 18, 2, 61, 56, 14]

/-- The constants of the 24 rounds. -/
def kRounds : List W64 :=
  [0x0000000000000001, 0x0000000000008082, 0x800000000000808A, 0x8000000080008000, 0x000000000000808B, 0x0000000080000001, 0x8000000080008081,
   0x8000000000008009, 0x000000000000008A, 0x0000000000000088, 0x0000000080008009, 0x000000008000000A, 0x000000008000808B, 0x800000000000008B,
   0x8000000000008089, 0x8000000000008003, 0x8000000000008002, 0x8000000000000080, 0x000000000000800A, 0x800000008000000A, 0x8000000080008081,
   0x8000000000008080, 0x0000000080000001, 0x8000000080008008]

/-- A state of 25 lanes by its coordinates. -/
def kBuild (f : Nat → Nat → W64) : List W64 := (List.range 25).map fun i => f (i % 5) (i / 5)

/-- The step θ: each lane takes the parities of two columns. -/
def kTheta (a : List W64) : List W64 :=
  let col := (List.range 5).map fun x => kLane a x 0 ^^^ kLane a x 1 ^^^ kLane a x 2 ^^^ kLane a x 3 ^^^ kLane a x 4
  kBuild fun x y => kLane a x y ^^^ (col.getD ((x + 4) % 5) 0 ^^^ (col.getD ((x + 1) % 5) 0).rotateLeft 1)

/-- The steps ρ and π: lane (x, y), rotated, goes to (y, 2x + 3y). -/
def kRhoPi (a : List W64) : List W64 :=
  kBuild fun x y =>
    let x0 := (x + 3 * y) % 5
    (kLane a x0 x).rotateLeft (kRot.getD (x0 + 5 * x) 0)

/-- The step χ. -/
def kChi (a : List W64) : List W64 := kBuild fun x y => kLane a x y ^^^ (~~~(kLane a (x + 1) y) &&& kLane a (x + 2) y)

/-- One round, with the constant of the step ι. -/
def kRound (a : List W64) (rc : W64) : List W64 := (kChi (kRhoPi (kTheta a))).modifyHead fun l => l ^^^ rc

/-- Keccak-f[1600]. -/
def kPermute (a : List W64) : List W64 := kRounds.foldl kRound a

/-- The bytes of a message with the padding of SHAKE: 0x1F, zeros, and the top bit of the last byte of the block. -/
def shakePad (m : List Byte) : List Byte :=
  let n := 136 - m.length % 136
  if n = 1 then m ++ [0x9F] else m ++ [0x1F] ++ List.replicate (n - 2) 0 ++ [0x80]

/-- Blocks of 136 bytes taken into the state. -/
def kAbsorb : Nat → List Byte → List W64 → List W64
  | 0, _, a => a
  | n + 1, m, a =>
    kAbsorb n (m.drop 136) (kPermute (a.mapIdx fun i l => if i < 17 then l ^^^ BitVec.ofNat 64 (ofBytes ((m.drop (8 * i)).take 8)) else l))

/-- SHAKE256 of some bytes, to 64 bytes (R347 to R349). -/
def shake256 (m : List Byte) : List Byte :=
  let p := shakePad m
  ((kAbsorb (p.length / 136) p (List.replicate 25 0)).take 8).flatMap fun l => toBytes 8 l.toNat

end Sys2Proof.Machine
end

