-- ==== Sys2Proof/Machine/Work.lean ====
section
/-! DEFINITION. The work distributor: homes (R279), admission (R280, R321 to R323), the order of work (R282), the start of teams and grids (R58, R60,
R134, R154, R278, R281, R288, R302) and the end of a grid (R154, R282). -/

namespace Sys2Proof.Machine

/-! ### Clusters and what stands on them -/

/-- The cluster that a team holds a place on. -/
def Team.place (t : Team) : Option Nat :=
  match t.res with
  | .on c => some c
  | .loading c => some c
  | _ => none

/-- The teams that hold a place on a cluster. -/
def State.teamsAt (s : State) (cluster : Nat) : List (Nat × Team) := s.teams.filter fun e => decide (e.2.place = some cluster)

/-- The loads of a cluster's rails: the groups that have not ended (R58, R67). -/
def State.railLoads (s : State) (cluster : Nat) : List RailLoad :=
  (s.teamsAt cluster).foldl (fun ls e => e.2.agents.foldl (fun m g =>
    if g.1 = ctlWho ∨ g.2.issue = .ended then m
    else modNth m g.2.rail fun x => { regs := x.regs + 32 * g.2.budget, groups := x.groups + 1 }) ls) emptyRails

/-- PLIM: the limits of groups on a rail and of teams on a cluster (R311, R321). -/
def capLimit (most cap : Nat) : Nat := max 1 ((most * cap + 1023) / 1024)
/-- Groups per rail (R321). -/
def State.groupLimit (s : State) : Nat := capLimit 16 s.pwc.cap
/-- Teams per cluster (R321). -/
def State.teamLimit (s : State) : Nat := capLimit 8 s.pwc.cap

/-- What a team asks of a cluster (R280). -/
structure Need where
  part : Nat
  asid : Nat
  budgets : List Nat
  /-- Scratchpad lines. -/
  scr : Nat
  obl : Nat
  /-- Tiles that a saved team holds. -/
  tiles : Nat
  /-- A privileged thread's team, which no partition's team joins and which the caps do not count (R304). -/
  priv : Bool
deriving DecidableEq, Repr, Inhabited

/-- A cluster holds HOME 2 pages of a partition: some leaf of its contexts places a page there (R139). -/
def State.holdsPinned (s : State) (part cluster : Nat) : Bool :=
  (s.smallLeaves part).any fun e => decide (pteHome e = 2) && decide (pinCluster e = cluster)

/-- Whether a cluster offers n scratchpad lines in all to a partition's teams: 24,576 where it holds HOME 2 pages, else 32,768 (R139). -/
def State.offers (s : State) (part cluster n : Nat) : Bool :=
  decide (n ≤ 24576) || (decide (n ≤ 32768) && !s.holdsPinned part cluster)

/-- The rails on which a cluster would take a team's groups; none where it does not admit the team (R280, R321). -/
def State.admits (s : State) (n : Need) (cluster : Nat) : Option (List Nat) :=
  let there := s.teamsAt cluster
  let sum := fun (f : Team → Nat) => there.foldl (fun k e => k + f e.2) 0
  if (s.diesOf n.part).contains (dieOf cluster) && decide (there.length < s.teamLimit)
      && there.all (fun e => e.2.part == n.part && e.2.asid == n.asid && e.2.priv == n.priv)
      && s.offers n.part cluster (sum (fun t => t.scratch / 128) + n.scr) && decide (sum (fun t => t.obl) + n.obl ≤ 8192)
      && decide (n.tiles ≤ s.freeTiles cluster) then
    placeGroups (s.railLoads cluster) s.groupLimit n.budgets
  else none

/-! ### Homes (R279) -/

/-- A home: a die and a slice, or no preference of one. -/
structure Home where
  die : Nat
  slice : Option Nat
deriving DecidableEq, Repr, Inhabited

/-- The round-robin home of team t (R279). -/
def roundRobin (dies : List Nat) (t : Nat) : Home := { die := dies.getD (t % max 1 dies.length) 0, slice := none }

/-- The home of team t of a grid (R279). -/
def State.homeOf (s : State) (g : Grid) (t : Nat) : Home :=
  let dies := s.diesOf g.part
  let rr := roundRobin dies t
  let at' := fun (a : W64) => s.engPlace (hostCmd g.part g.asid 0 0) a false
  match g.launch.aff with
  | 1 => match at' (g.launch.args + BitVec.ofNat 64 t * g.launch.affp.setWidth 64) with
    | .ok p =>
      let sl := p.slice
      if p.owned = .slice ∧ dies.contains (sl / 64) then { die := sl / 64, slice := some (sl % 64) } else rr
    | _ => rr
  | 2 => match at' (g.launch.args + g.launch.affp.setWidth 64 + BitVec.ofNat 64 (2 * t)) with
    | .ok p =>
      let w := s.readNat p.loc 2
      if w / 1024 = 0 ∧ dies.contains (w % 16) then { die := w % 16, slice := some (w / 16 % 64) } else rr
    | _ => rr
  | _ => rr

/-- The distance of two numbers. -/
def distance (a b : Nat) : Nat := (a - b) + (b - a)

/-- x put before the first number with a greater or equal key. -/
def insertByKey (key : Nat → Nat) (x : Nat) : List Nat → List Nat
  | [] => [x]
  | y :: ys => if key x ≤ key y then x :: y :: ys else y :: insertByKey key x ys

/-- Numbers in ascending order of a key; equal keys keep their order. -/
def byKey (key : Nat → Nat) : List Nat → List Nat
  | [] => []
  | x :: xs => insertByKey key x (byKey key xs)

/-- The dies of a partition from the home on (R279). -/
def Home.dies (h : Home) (dies : List Nat) : List Nat := byKey (distance h.die) dies

/-- The clusters of a die in the order in which a home chooses them (R279). -/
def Home.clusters (h : Home) (die : Nat) : List Nat :=
  let key := match h.slice with
    | none => fun c => c
    | some sl => fun c => distance c (sl / 2)
  (byKey key (List.range 32)).map fun c => 32 * die + c

/-- The heavier layer of a pair more than 8 % apart passes a team to its partner where that admits it (R323). -/
def State.muleSide (s : State) (ok : Nat → Bool) (cluster : Nat) : Nat :=
  let partner := if cluster % 2 = 0 then cluster + 1 else cluster - 1
  match ((Tbl.find? s.pairs (cluster / 2)).getD Pair.reset).heavy with
  | some upper => if decide (cluster % 2 = 1) == upper && ok partner then partner else cluster
  | none => cluster

/-- n distinct clusters out of a list in order, each with the layer that Mule gives it (R281, R323). -/
def State.takeClusters (s : State) (ok : List Nat) : Nat → List Nat → List Nat
  | 0, acc => acc
  | n + 1, acc => match ok.find? fun c => !acc.contains c with
    | none => acc
    | some c => s.takeClusters ok n (acc ++ [s.muleSide (fun k => ok.contains k && !acc.contains k) c])

/-- Distinct clusters of one die for n teams of a need: the first die that has them (R279, R281). -/
def State.chooseClusters (s : State) (need : Need) (n : Nat) (h : Home) : List Nat → Option (List Nat)
  | [] => none
  | d :: ds =>
    let ok := (h.clusters d).filter fun c => (s.admits need c).isSome
    let got := s.takeClusters ok n []
    if got.length = n then some got else s.chooseClusters need n h ds

/-! ### What waits for a place, in order (R282) -/

/-- The teams of a grid. -/
def Launch.teams (l : Launch) : Nat := l.gx * l.gy * l.gz

/-- The need of a new team of a grid (R280). -/
def Grid.need (g : Grid) : Need :=
  { part := g.part, asid := g.asid, budgets := g.launch.budgets, scr := g.launch.scr, obl := g.launch.obl, tiles := 0, priv := false }

/-- The need of a saved team (R280). -/
def Team.need (t : Team) : Need :=
  { part := t.part, asid := t.asid, scr := t.scratch / 128, obl := t.obl, tiles := t.tiles.length, priv := t.priv,
    budgets := (t.agents.filter fun e => e.1 != ctlWho && !decide (e.2.issue = .ended)).map fun e => e.2.budget }

/-- The members of a grid's next set (R281). -/
def Grid.nextSet (g : Grid) : Nat := min g.launch.cset (g.launch.teams - g.started)

/-- A class is being shed (R318). -/
def State.shed (s : State) (cls : Nat) : Bool := s.pwc.mask.getLsbD cls

/-- The teams of a context that hold a slot or are to have one (R288). -/
def State.slotsHeld (s : State) (part asid : Nat) : Nat := (s.teams.filter fun e => e.2.inCtx part asid).length

/-- The clusters that the next set of a grid would take (R281, R282, R288). -/
def State.nextPlaces (s : State) (g : Grid) : Option (List Nat) :=
  if g.finished || decide (g.started ≥ g.launch.teams) || s.shed g.cls || decide (s.slotsHeld g.part g.asid + g.nextSet > 4096) then none
  else
    let h := s.homeOf g g.started
    s.chooseClusters g.need g.nextSet h (h.dies (s.diesOf g.part))

/-- A command of a team. -/
def Cmd.ofTeam (c : Cmd) (team : Nat) : Bool :=
  match c.owner with
  | .agent t _ => t == team
  | .host _ _ _ => false

/-- The RLT entries of the commands that a team had running (R192, R252, R301). -/
def State.lockAgain (s : State) (team cluster : Nat) : List RltEnt :=
  s.cmds.flatMap fun e => if e.2.ofTeam team && e.2.started then e.2.entries cluster e.1 else []

/-- A cluster's rails for a saved team; none where it does not admit the team or lacks RLT entries for it (R280, R301). -/
def State.takesBack (s : State) (team : Nat) (t : Team) (cluster : Nat) : Option (List Nat) :=
  if s.rltRoom cluster (s.lockAgain team cluster).length then s.admits t.need cluster else none

/-- The clusters that take a saved team back now (R280, R301). -/
def State.restorePlaces (s : State) (team : Nat) (t : Team) : List Nat :=
  if t.res ≠ .saved ∨ s.shed t.cls = true then []
  else ((s.diesOf t.part).flatMap fun d => (List.range 32).map fun c => 32 * d + c).filter fun c => (s.takesBack team t c).isSome

/-- The rank of a piece of work: class, then saved teams with a wake, saved teams, new teams; then age or the grid's order (R282). -/
structure WorkRank where
  cls : Nat
  kind : Nat
  order : Nat
deriving DecidableEq, Repr, Inhabited

/-- One rank comes before another. -/
def WorkRank.before (a b : WorkRank) : Bool :=
  decide (a.cls < b.cls) || (a.cls == b.cls && (decide (a.kind < b.kind) || (a.kind == b.kind && decide (a.order < b.order))))

/-- The rank of a saved team (R282). -/
def Team.rank (t : Team) : WorkRank := { cls := t.cls, kind := if t.wake ≠ [] then 0 else 1, order := t.age }
/-- The rank of a grid's next team (R282). -/
def Grid.rank (g : Grid) : WorkRank := { cls := g.cls, kind := 2, order := g.order }

/-- Work of a partition that can be placed now comes before a rank (R282). -/
def State.earlierWork (s : State) (part : Nat) (r : WorkRank) : Bool :=
  s.teams.any (fun e => e.2.part == part && decide (e.2.res = .saved) && e.2.rank.before r && decide (s.restorePlaces e.1 e.2 ≠ [])) ||
    s.grids.any fun e => e.2.part == part && e.2.rank.before r && (s.nextPlaces e.2).isSome

/-! ### Owners of a cluster (R302) -/

/-- A cluster gives up its exclusive lines (R153). -/
def State.yieldLines (s : State) (cluster : Nat) : State :=
  (s.lines.filter fun e => (e.2.excl.map (·.1)) == some cluster).foldl (fun u e => u.recall e.1 none) s

/-- A cluster discards its L1 (R154). -/
def State.dropL1 (s : State) (cluster : Nat) : State :=
  { s.yieldLines cluster with l1 := s.l1.filter fun c => c.cluster != cluster }

/-- The L1s of a partition discard their lines (R154). -/
def State.dropAllL1 (s : State) (part : Nat) : State :=
  (nubNat ((s.l1.map fun c => c.cluster) ++ s.lines.filterMap fun e => e.2.excl.map (·.1))).foldl
    (fun u cl => if (s.diesOf part).contains (dieOf cl) then u.dropL1 cl else u) s

/-- A cluster passes to a context: when another had it, its L1, its instruction cache and its L1 TLB are emptied (R302). -/
def State.own (s : State) (cluster part asid : Nat) : State :=
  if Tbl.find? s.clusterOwner cluster = some (part, asid) then s
  else
    let s1 := s.dropL1 cluster
    { s1 with icache := s1.icache.filter (fun c => c.cluster != cluster), tlb := s1.tlb.filter (fun e => e.unit != cluster),
              clusterOwner := Tbl.ins s1.clusterOwner cluster (part, asid) }

/-- The pair of a cluster is brought up (R322). -/
def State.ungate (s : State) (cluster : Nat) : State :=
  let p := (Tbl.find? s.pairs (cluster / 2)).getD Pair.reset
  if p.gated then { s with pairs := Tbl.ins s.pairs (cluster / 2) { p with gated := false } } else s

/-! ### The start of a team -/

/-- A lane at its start (R59, R60). -/
def LaneRec.fresh (entry : Label) (runs : Bool) : LaneRec :=
  { w := entry, d := 0, s := if runs then .run else .done, link := [], codeD := .zero, codeE := .zero, wide := false, site := ⟨0, 0⟩, mates := 0,
    nap := 0, held := false }

/-- An arrival of nothing. -/
def Arrival.none : Arrival :=
  { a := 0, word := 0, wk := 0, released := false, granted := Option.none, pushed := false, noWatch := false, insn := 0,
    cmd := Option.none, left := Option.none }

/-- An agent at its start, its registers zero and full (R60, R209). -/
def Agent.fresh (kind : AgentKind) (role budget : Nat) (lanes : List LaneRec) (entry : Label) (rail rank seq : Nat) : Agent :=
  { kind := kind, role := role, budget := budget, lanes := lanes, p := entry, f := 0, n := 0, frame := [], spilled := [], restart := 0, gwct := 0, fp := 0, v := [],
    u := [], pr := [], vE := [], uE := [], prE := [], issue := .arrive true, arr := Arrival.none, pend := [], ops := [], acks := [],
    opSeq := 0, cseq := 0, rail := rail, rank := rank, active := false, block := Option.none, blockedAt := 0, goose := 0, gateWrapped := false, lastBeat := 0, gooseSeq := seq, goosed := false,
    stop := Option.none, replay := Option.none, pcause := 0, pepc := 0, paddr := 0, phnd := 0, inh := false, answer := Option.none, held := false }

/-- The lanes that the launch populates in a group: all, but in the last group of its role (R278). -/
def Launch.population (l : Launch) (who : Nat) : Nat :=
  if who + 1 = l.g0 then l.pop0 else if who + 1 = l.g0 + l.g1 then l.pop1 else 32

/-- The groups of a team at their start. -/
def Launch.groups (l : Launch) (rails : List Nat) (rank seq : Nat) : Tbl Agent :=
  l.roles.zipIdx.map fun e =>
    let entry : Label := BitVec.ofNat 28 l.grpEntry
    (e.2, Agent.fresh .group e.1 (l.regs e.1) (lanes32.map fun i => LaneRec.fresh entry (decide (i < l.population e.2))) entry (rails.getD e.2 0)
      (rank + e.2) seq)

/-- A control thread at its start. -/
def newThread (kind : AgentKind) (entry : Label) : Tbl Agent :=
  [(ctlWho, Agent.fresh kind 0 0 [LaneRec.fresh entry true] entry 0 0 0)]

/-- No slot: what a team has before its start (R288). -/
abbrev noSlot : Nat := 4096

/-- A team without history, on no cluster. -/
def Team.fresh (part asid grid cls : Nat) (agents : Tbl Agent) (hasCtl : Bool) : Team :=
  { res := .saved, part := part, asid := asid, slot := noSlot, grid := grid, x := 0, y := 0, z := 0, age := 0, cls := cls, g0 := 0, g1 := 0,
    hasCtl := hasCtl, ctlGone := !hasCtl, set := [], scratch := 0, obl := 0, acc := 0, agents := agents, tok := [], cseq := 0, q := [], drain := [],
    qwait := [], heldEvents := [], bars := [], copies := [], qbind := [], rings := [], ranges := [], tiles := [], alloc := none, allocated := none,
    absent := [], wake := [], shedNote := false, saveAsked := false, preempt := false, shedBy := Option.none, forced := false, byShed := false, priv := false, logWr := 0,
    logEnd := false, logRd := 0, lastStop := Option.none }

/-- The team of linear index t of a grid, to be loaded by a cluster (R278). -/
def Grid.newTeam (g : Grid) (no t cluster : Nat) (rails set : List Nat) (rank seq : Nat) : Team :=
  let l := g.launch
  let ctl := decide (l.ctlEntry ≠ 0)
  let agents := l.groups rails rank seq ++ (if ctl then newThread .control (BitVec.ofNat 28 l.ctlEntry) else [])
  { Team.fresh g.part g.asid no g.cls agents ctl with
    res := .loading cluster, x := t % l.gx, y := t / l.gx % l.gy, z := t / (l.gx * l.gy), g0 := l.g0, g1 := l.g1, set := set,
    scratch := l.scr * 128, obl := l.obl, acc := l.acc }

/-- n team numbers that are free. -/
def freshTeams (ts : Tbl Team) : Nat → List Nat
  | 0 => []
  | n + 1 =>
    let k := Tbl.freshKey ts
    k :: freshTeams (Tbl.ins ts k (Team.fresh 0 0 0 0 [] false)) n

/-- The start of a grid: the partition's L1s discard their lines and its instruction caches those of the grid's code (R53, R154). -/
def State.beginGrid (s : State) (no : Nat) (g : Grid) : State :=
  if g.begun then s
  else
    let s1 := s.dropAllL1 g.part
    let lo := g.launch.codeBase.toNat / 128
    let hi := (g.launch.codeBase.toNat + 16 * g.launch.codeCount + 127) / 128
    { s1 with icache := s1.icache.filter (fun c => !(c.part == g.part && c.asid == g.asid && decide (lo ≤ c.vline) && decide (c.vline < hi))),
              grids := Tbl.modify s1.grids no fun g => { g with begun := true } }

/-- A set admitted: its members stand on their clusters, to be loaded (R281). -/
def State.admitSet (s : State) (no : Nat) (g : Grid) (places : List Nat) : State :=
  let ids := freshTeams s.teams places.length
  let s1 := (ids.zip places).zipIdx.foldl (fun u e =>
    let cl := e.1.2
    let rails := (u.admits g.need cl).getD []
    let t := g.newTeam no (g.started + e.2) cl rails ids u.rankSeq u.beatSeq
    ((u.ungate cl).own cl g.part g.asid).setTeam e.1.1 t) (s.beginGrid no g)
  { s1 with grids := Tbl.modify s1.grids no fun g => { g with started := g.started + places.length } }

/-- The lowest slot that no other team of a context holds (R288). -/
def State.lowestSlot (s : State) (part asid : Nat) : Nat :=
  let used := s.teams.filterMap fun e => if e.2.inCtx part asid then some e.2.slot else none
  ((List.range 4097).find? fun k => !used.contains k).getD noSlot

/-- The groups of a team that becomes resident take the youngest age ranks in ascending order, and their Goose timers start (R73, R75). -/
def youngest (agents : Tbl Agent) (rank seq : Nat) : Tbl Agent :=
  agents.map fun e => if e.1 = ctlWho then e else (e.1, { e.2 with rank := rank + e.1, gooseSeq := seq })

/-- A loading team starts: its slot, age, age ranks and zero buffers; the TCB's address enters the control thread's window (R73, R134, R288, R302). -/
def State.startTeam (s : State) (team : Nat) : State :=
  match s.team team with
  | none => s
  | some t => match t.res with
    | .loading cl =>
      let slot := s.lowestSlot t.part t.asid
      let s1 := (s.clear (spLoc team 0) (2 ^ 22)).clear (obLoc team 0) (2 ^ 20)
      let s2 : State :=
        { (s1.setTeam team { t with res := .on cl, slot := slot, age := s1.ageSeq, agents := youngest t.agents s1.rankSeq s1.beatSeq }) with
          ageSeq := s1.ageSeq + 1, rankSeq := s1.rankSeq + t.g0 + t.g1 }
      match s2.ctx t.part t.asid with
      | none => s2
      | some c => (s2.deviceWrite cl t.part t.asid (localVaOf c slot ctlWho 0 0) (toBytes 8 (tcbVa c slot))).getD s2
    | _ => s

/-- The members of a grid that wait for their clusters (R281). -/
def State.loadingOf (s : State) (no : Nat) : List Nat :=
  s.teams.filterMap fun e => if e.2.grid = no ∧ (match e.2.res with | .loading _ => true | _ => false) = true then some e.1 else none

/-- The next set of a grid admitted, where it is its turn and a place is free; a set of one starts with it (R281, R282). -/
def State.admitNext (s : State) (no : Nat) (g : Grid) : State :=
  if s.earlierWork g.part g.rank then s
  else match s.nextPlaces g with
    | none => s
    | some places =>
      let s1 := s.admitSet no g places
      match places, s1.loadingOf no with
      | [_], team :: _ => if s.loadingOf no = [] then s1.startTeam team else s1
      | _, _ => s1

/-- TEAM_START: the next set of a grid is admitted, or a member whose cluster has loaded it starts; a free number says which where both wait
(R281, R282). -/
def execTeamStart (grid : Nat) (s : State) : Next :=
  match Tbl.find? s.grids grid with
  | none => .next s
  | some g =>
    if g.finished || s.shed g.cls then .next s
    else match s.loadingOf grid with
      | [] => .next (s.admitNext grid g)
      | l =>
        let k := Config.freeNat s.fresh % (l.length + 1)
        let s1 := { s with fresh := s.fresh + 1 }
        if k < l.length then .next (s1.startTeam (l.getD k 0)) else .next (s1.admitNext grid g)

/-! ### The end of a grid (R154, R282) -/

/-- The release of a grid's agents has performed: device time has passed the latest GWCT of them (R147, R154). -/
def State.gridReleased (s : State) (no : Nat) : Bool :=
  s.teams.all fun e => e.2.grid != no || e.2.agents.all fun a => decide (a.2.gwct = 0) || decide (s.dtime ≥ a.2.gwct + 4)

/-- Every team of a grid has ended, every token of its teams is complete, and its release has performed (R154). -/
def State.gridOver (s : State) (no : Nat) (g : Grid) : Bool :=
  decide (g.started ≥ g.launch.teams) &&
    s.teams.all (fun e => e.2.grid != no || (e.2.isEnded && e.2.tok.all fun k => decide (k.2 = 0))) && s.gridReleased no

/-- The record of a completion word that is not written (R282). -/
def State.completionFails (s : State) (g : Grid) (code : Byte) : State :=
  s.fqSend g.part
    { replay := none, bytes := ({ code := code, eng := 6, group := 0, ctl := false, slot := 0, asid := g.asid, part := g.part, restart := 0, write := true,
                                  replay := false, site := ⟨0, 0⟩, addr := g.launch.compAddr, lanes := 0 } : Rec).encode }

/-- The place of a grid's completion word, or the code of its failure; it is translated once and never replayed (R282). -/
def State.completionPlace (s : State) (g : Grid) : Except Byte Place :=
  let c := hostCmd g.part g.asid 0 0
  match s.engPlace c g.launch.compAddr true with
  | .ok p => .ok p
  | .fault cause => .error (BitVec.ofNat 8 cause)
  | _ => match s.engPlace c g.launch.compAddr false with
    | .ok _ => .error 0x08
    | _ => .error 0x07

/-- The completion word written as one atomic write, or the record of its failure (R282); its c counts for its host queue's releases (R144, R274). -/
def State.writeCompletion (s : State) (g : Grid) : State :=
  if g.launch.compAddr = 0 then s
  else match s.completionPlace g with
    | .ok p =>
      let r := s.writeAt p (toBytes 4 g.launch.compVal.toNat) none
      match g.host with
      | some (q, idx) => r.1.hostWrote (hostCmd g.part g.asid q idx) r.2
      | none => r.1
    | .error code => s.completionFails g code

/-- A grid that is over ends: its writes are released, `put` stands for the write of its completion word, and its packet completes (R154, R273, R282). -/
def State.endGrid (s : State) (no : Nat) (put : Grid → State → State) : State :=
  match Tbl.find? s.grids no with
  | none => s
  | some g =>
    if g.finished || !s.gridOver no g then s
    else
      let s1 := put g (s.dropAllL1 g.part)
      let s2 : State := { s1 with grids := Tbl.del s1.grids no, teams := s1.teams.filter fun e => e.2.grid != no }
      match g.host with
      | some (q, idx) => s2.packetDone g.part q idx
      | none => s2

/-- GRID_END: the grid's completion word is written (R154, R273, R282). -/
def execGridEnd (grid : Nat) (s : State) : Next := .next (s.endGrid grid fun g u => u.writeCompletion g)

/-- A grid ends whose completion word meets an uncorrectable error or a failed request (R282). -/
def State.endGridUnwritten (s : State) (no : Nat) : State :=
  s.endGrid no fun g u => if g.launch.compAddr = 0 then u else u.completionFails g 0x18

end Sys2Proof.Machine
end

