-- ==== Sys2Proof/Machine/Saves.lean ====
section
/-! DEFINITION. Saves, restores and migration of teams (R298 to R301, R319, R320, with R192, R203 and R252), the end of a context (R291), and the
fault queue's answers (R293, R294, R333). -/

namespace Sys2Proof.Machine

/-! ### When a team can be saved -/

/-- A save need not wait for a command: a GE command that has been issued and an ACZERO come to their end first, a drain to the end of a row, and a
command that is to end in fault to that (R155, R203, R252). -/
def Cmd.saveable (c : Cmd) (t : Team) : Bool :=
  !c.started || (c.ending.isNone && match c.kind with
    | .copy _ => true
    | .ge _ => false
    | .ox k => (match k.kind with | .aczero => false | _ => true) && k.betweenRows t)

/-- Nothing of a team is in the midst: its commands can be left, no queue read has taken an entry that has not landed, and no WAIT beat waits for its
replies (R57, R263, R299). -/
def State.canSave (s : State) (team : Nat) (t : Team) : Bool :=
  t.resident && !t.priv && (t.agents.all fun e => e.2.arr.granted.isNone) && (s.cmds.all fun e => !e.2.ofTeam team || e.2.saveable t) &&
    !(s.batches.any fun e => (e.2.agent.map fun a => a.team) == some team)

/-- An agent held at a shed point or at one now (R319). -/
def Agent.atRest (x : Agent) : Bool := x.held || x.atShedPoint

/-- Every group of a team that is being shed is held, and with them the control thread (R319). -/
def Team.shedHeld (t : Team) : Bool := t.saveAsked && t.agents.all fun e => decide (e.1 = ctlWho) || e.2.atRest

/-- A save now stops some group or the control thread at a boundary that is no shed point (R320). -/
def Team.saveForced (t : Team) : Bool := t.agents.any fun e => !e.2.atRest

/-- Some work of a partition, of a class below one, has no place now (R298). -/
def State.unplaced (s : State) (part : Nat) (cls : Nat) : Bool :=
  s.teams.any (fun e => e.2.part == part && decide (e.2.res = .saved) && decide (e.2.cls < cls) && !s.shed e.2.cls && decide (s.restorePlaces e.1 e.2 = [])) ||
    s.grids.any fun e => e.2.part == part && !e.2.finished && decide (e.2.started < e.2.launch.teams) && decide (e.2.cls < cls) && !s.shed e.2.cls
      && (s.nextPlaces e.2).isNone

/-- The team is the one that a placement need saves: the youngest of the highest class above that of the work that waits, no other being on its
way out (R298). -/
def State.placementNeed (s : State) (t : Team) : Bool :=
  t.resident && !t.priv && s.unplaced t.part t.cls &&
    s.teams.all fun e => e.2.part != t.part || !e.2.resident || e.2.priv ||
      (!e.2.preempt && (decide (e.2.cls < t.cls) || (e.2.cls == t.cls && decide (e.2.age ≤ t.age))))

/-- An older team of the cluster that is being shed is to be saved first (R319). -/
def State.olderSave (s : State) (team : Nat) (t : Team) : Bool :=
  t.saveAsked && s.teams.any fun e => e.1 != team && decide (e.2.cluster = t.cluster) && e.2.saveAsked && (e.2.shedHeld || e.2.preempt)
    && decide (e.2.age < t.age)

/-! ### The save (R299, R300) -/

/-- The lines of a copy up to PROG: the leading ones that have landed on every target (R192). -/
def CopyCmd.checkpoint (k : CopyCmd) : CopyCmd :=
  let n := (destLines k.slices).length
  let whole := fun (i : Nat) => (k.targets k.undelivered).all fun m => Tbl.get false k.landed (m * n + i)
  let prog := ((List.range n).find? fun i => !whole i).getD n
  { k with landed := k.landed.filter fun e => decide (e.1 % max 1 n < prog) }

/-- A command as a save keeps it: a copy from PROG on, a matrix command with its progress (R192, R252). -/
def Cmd.checkpoint (c : Cmd) : Cmd :=
  match c.kind with
  | .copy k => { c with kind := .copy k.checkpoint, src := [] }
  | _ => c

/-- Everything on its way to an agent performs and lands, and its stores are acknowledged (R57, R143, R299). -/
def State.quiesce (s : State) (a : AgentId) : State :=
  let s1 := s.accessAll a
  let nos := ((s1.agent a).map fun x => x.pend.map (·.1)).getD []
  (nos.foldl (fun (u : State) n => (u.landPending a n false).landPending a n true) s1).applyAcks a

/-- A queue park undone: the instruction issues again, that of a control thread from its arrival (R57, R219). -/
def Agent.undoPark (x : Agent) : Agent :=
  if x.issue = .queue then
    let y := x.undoRead
    { y with issue := if x.isGroup then .beats else .arrive true, restart := 0, block := none }
  else x

/-- An agent that has been saved out: a write that was let into a queue has pushed nothing (R57); a control thread's run ends (R208). -/
def Agent.out (x : Agent) (seq : Nat) : Agent :=
  let y := x.undoPark
  { y with active := false, held := false, arr := { y.arr with pushed := false }, gooseSeq := if x.isGroup then y.gooseSeq else seq }

/-- The commands of a team leave nothing half done: what a copy has read lands, and a drain stands after a whole row (R192, R252). -/
def State.settleCmds (s : State) (team : Nat) : State :=
  ((s.cmds.filter fun e => e.2.ofTeam team).map (·.1)).foldl (fun u n => (landAllRead u n).rewindDrain n) s

/-- A team saved out (R299, R300); one whose context an access of its own has ended on the way is not (R351). -/
def State.saveTeam (s : State) (team : Nat) (t : Team) : State :=
  let s1 := (t.agents.map (·.1)).foldl (fun u w => u.quiesce ⟨team, w⟩) (s.settleCmds team)
  let mine := fun (m : Mon) => m.disp && m.part == t.part && m.asid == t.asid && m.slot == t.slot
  let s2 := s1.dropMons mine
  let cmds := s2.cmds.map fun e => if e.2.ofTeam team then (e.1, e.2.checkpoint) else e
  let s3 : State :=
    { s2 with cmds := cmds, wakes := s2.wakes.filter (fun e => !mine e.2.mon),
              rlt := s2.rlt.filter fun r => !(s2.cmds.any fun e => e.1 == r.cmd && e.2.ofTeam team) }
  s3.modTeam team fun v => if v.isEnded then v else
    { v with res := .saved, alloc := none, agents := v.agents.map (fun e => (e.1, e.2.out s.beatSeq)), qwait := [], saveAsked := false, preempt := false,
             shedBy := none, forced := t.saveForced, byShed := t.saveAsked }

/-- TEAM_SAVE: a team that is to be saved is, once it can be; for a placement need it is stopped first where something of it is in the midst
(R298, R299, R319, R320). -/
def execTeamSave (team : Nat) (s : State) : Next :=
  match s.team team with
  | none => .next s
  | some t =>
    let need := s.placementNeed t
    if t.shedHeld || t.preempt || need then
      if s.canSave team t then (if s.olderSave team t then .next s else .next (s.saveTeam team t))
      else if need then .next (s.modTeam team fun v => { v with preempt := true })
      else .next s
    else .next s

/-! ### The restore (R301) -/

/-- Groups that have not ended take their rails, and the youngest age ranks from one on, in ascending order (R58, R73): not the ranks that the save holds
under R300, which the model discards (DEDUCED, log entry 88). -/
def seat : Tbl Agent → List Nat → Nat → Tbl Agent
  | [], _, _ => []
  | (w, x) :: rest, rails, rank =>
    if w = ctlWho ∨ x.issue = .ended then (w, x) :: seat rest rails rank
    else match rails with
      | r :: rs => (w, { x with rail := r, rank := rank }) :: seat rest rs (rank + 1)
      | [] => (w, x) :: seat rest [] rank

/-- The stopped agent's disposition entry registered again: a DISP already written replies at once, and where the registration fails no disposition can
reach the agent (R260, R289, R301). -/
def State.disposeAgain (s : State) (a : AgentId) : State :=
  match s.team a.team, s.agent a with
  | some t, some x => match x.stop, s.ctx t.part t.asid with
    | some st, some c =>
      let va := tcbVa c t.slot + (if a.who = ctlWho then 0x1280 else 0x1080 + 4 * a.who)
      match s.walk (t.cluster.getD 0) t.part t.asid (va % 2 ^ 52) with
      | .leaf pte big =>
        let m := dispMon s t.part t.asid t.slot a.who va pte big
        let s1 := (s.recall (m.loc / 128) none).touchLine (s.leafPlace t.part pte big (va % 2 ^ 52)) 0
        if s1.monWord m ≠ 0 then s1.sendWake { mon := m, value := s1.monWord m, pred := true, c := (s1.line (m.loc / 128)).wc, stamp := s1.writeSeq }
        else match s1.insertMon m with
          | some s2 => s2
          | none => s.endContext t.part t.asid st.record
      | _ => s.endContext t.part t.asid st.record
    | _, _ => s
  | _, _ => s

/-- The napping lanes of an agent whose time has come are RUN (R269). -/
def Agent.wakeNaps (x : Agent) (dtime : Nat) : Agent := x.laneNos.foldl (fun y i => y.wakeNap i dtime) x

/-- A saved team on a cluster, its groups on rails (R301): locks, every slot of the wake record and the NAP times, dispositions, event kind 0x05, and then
the groups that are no longer idle resume (R266). The cluster's L1 gives up
its lines: the team reads nothing there that is older than what it has read elsewhere (R146, R177; log entry 84). -/
def State.restoreTeam (s : State) (team : Nat) (t : Team) (cluster : Nat) (rails : List Nat) : State :=
  let s0 := ((s.ungate cluster).own cluster t.part t.asid).dropL1 cluster
  let s1 := { s0.setTeam team { t with res := .on cluster, agents := seat t.agents rails s0.rankSeq, shedNote := false, wake := [], forced := false,
                                       byShed := false } with rankSeq := s0.rankSeq + rails.length }
  let s2 := { s1 with rlt := s1.rlt ++ s1.lockAgain team cluster }
  let s3 := t.wake.foldl (fun u w => u.applyWake ⟨team, w.group⟩ w.lanes w.value w.pred 0) s2
  let who := t.agents.map (·.1)
  let s4 := who.foldl (fun u w => u.modAgent ⟨team, w⟩ fun x => x.wakeNaps u.dtime) s3
  let s5 := who.foldl (fun u w => u.disposeAgain ⟨team, w⟩) s4
  let s6 := s5.postEvent team 0x05 (if t.byShed then 8 else 1) t.cseq (if t.forced then 0x1700 else 0)
  who.foldl (fun u w => u.resumeIdle ⟨team, w⟩) s6

/-- The cluster that a team goes to where the WD has chosen one for its restore: the partner of a heavier layer that takes it (R323). -/
def State.restoreOn (s : State) (team : Nat) (t : Team) (cluster : Nat) (but : Option Nat) : Nat :=
  s.muleSide (fun c => decide (some c ≠ but) && (s.takesBack team t c).isSome) cluster

/-- TEAM_RESTORE: a saved team is restored on a cluster that admits it, in its turn (R280, R282, R301). -/
def execTeamRestore (team cluster : Nat) (s : State) : Next :=
  match s.team team with
  | none => .next s
  | some t =>
    if t.res ≠ .saved ∨ s.shed t.cls = true ∨ s.earlierWork t.part t.rank = true then .next s
    else
      let c := s.restoreOn team t cluster none
      match s.takesBack team t c with
      | some rails => .next (s.restoreTeam team t c rails)
      | none => .next s

/-- A team saved and restored in one step on another cluster of its partition; none where that does not admit it (R301). -/
def State.migrate (s : State) (team cluster : Nat) : Option State :=
  match s.team team with
  | none => none
  | some t =>
    if !s.canSave team t || decide (t.cluster = some cluster) || t.saveAsked then none
    else
      let s1 := s.saveTeam team t
      match s1.team team with
      | none => none
      | some t1 =>
        let c := s1.restoreOn team t1 cluster t.cluster
        if t1.isEnded then some s1 else (s1.takesBack team t1 c).map fun rails => s1.restoreTeam team t1 c rails

/-- TEAM_MIGRATE: compaction, or a migration that firmware asks for (R298, R301). -/
def execTeamMigrate (team cluster : Nat) (s : State) : Next := .next ((s.migrate team cluster).getD s)

/-! ### The end of a context (R291) -/

/-- CONTEXT_END: firmware destroys a context. The spec names no code and no engine for the record of such an end: both are free, the
engine one of R9's (DESIGN CHOICE, log entries 2 and 83). -/
def execContextEnd (part asid : Nat) (s : State) : Next :=
  match s.ctx part asid with
  | none => .next s
  | some _ =>
    let r : Rec := { code := BitVec.ofNat 8 (Config.freeNat s.fresh), eng := Config.freeNat (s.fresh + 1) % 10, group := 0, ctl := false, slot := 0,
                     asid := asid, part := part, restart := 0, write := false, replay := false, site := ⟨0, 0⟩, addr := 0, lanes := 0 }
    .next ({ s with fresh := s.fresh + 2 }.endContext part asid r.encode)

/-! ### The fault queue's answers (R293, R294, R333) -/

/-- A beat that was parked on a record is tried again from its RESTART (R293). -/
def Agent.retry (x : Agent) : Agent := if x.issue = .replay then { x with issue := .beats, block := none, replay := none } else x

/-- The command goes on; after a watchpoint's report it ignores watchpoints (R190, R333). -/
def Cmd.retry (c : Cmd) (watch : Bool) : Cmd := { c with parked := false, noWatch := c.noWatch || watch }

/-- A command ends in fault 0x1A with a cause, once its writes are acknowledged (R155, R190, R201, R251). -/
def State.endAny (s : State) (n cause : Nat) : State :=
  match Tbl.find? s.cmds n with
  | none => s
  | some c =>
    match c.kind, c.owner with
    | .copy k, _ => s.endCmd n c cause fun u => failCopy u n c k cause
    | .ge g, _ => refuseGe s n c g cause
    | .ox k, .agent team _ => s.endCmd n c cause fun u => failOx u n team c k cause
    | .ox _, .host _ _ _ => s

/-- A beat that waited on a refused record stops with fault 0x07 (R293). -/
def State.refuseAgent (s : State) (a : AgentId) : State :=
  match s.agent a with
  | none => s
  | some x => match x.replay with
    | none => s
    | some r =>
      if x.issue = .replay then
        (s.setAgent a { x with issue := .beats, replay := none }).takeFault a { code := 0x07, how := .beat, lanes := r.lanes, addr := r.addr, write := r.write }
      else s

/-- The pending record that an answer names, by the low 32 bits of its index (R294). -/
def Part.pending (p : Part) (idx : Nat) : Option Replay := p.replays.find? fun r => r.idx % 2 ^ 32 == idx % 2 ^ 32

/-- An answer to a pending record (R293, R294). -/
def State.answer (s : State) (part idx : Nat) (retry : Bool) : State :=
  match (s.partition part).pending idx with
  | none => s
  | some r =>
    let s1 := s.modPart part fun p => { p with replays := p.replays.filter fun q => q.idx != r.idx }
    if retry then
      let s2 := r.agents.foldl (fun u a => u.modAgent a Agent.retry) s1
      { s2 with cmds := r.cmds.foldl (fun m n => Tbl.modify m n fun c => c.retry r.watch) s2.cmds }
    else
      r.cmds.foldl (fun u n => u.endAny n (if r.watch then 0x13 else 0x07)) (r.agents.foldl (fun u a => u.refuseAgent a) s1)

/-- FAULT_QUEUE_RETRY (R293). -/
def execFaultQueueRetry (part idx : Nat) (s : State) : Next := .next (s.vf part fun u => u.answer part idx true)

/-- FAULT_QUEUE_REFUSE (R293). -/
def execFaultQueueRefuse (part idx : Nat) (s : State) : Next := .next (s.vf part fun u => u.answer part idx false)

/-- FQRD_WRITE: records that waited for room enter (R294); vector 0 fires where FQRD comes to differ from FQWR (R341). -/
def execFqrdWrite (part : Nat) (w : W64) (s : State) : Next :=
  .next (s.vf part fun u =>
    let p := u.partition part
    let s1 := u.modPart part fun p => { p with fqRd := w }
    let s2 := if p.fqWr = p.fqRd ∧ w ≠ p.fqWr then s1.fire (part + 1) 0 else s1
    s2.fqFlush part p.heldRecords.length)

end Sys2Proof.Machine
end

