-- ==== Sys2Proof/Machine/System.lean ====
section
/-! DEFINITION. The six forms of privileged threads (R303 to R306), TLBI (R296), the partition records in CSRs (R297, R348), and how a privileged
thread comes to run (R304). -/

namespace Sys2Proof.Machine

/-- The answer that a blocked thread has received is taken (R305). -/
def State.takeAnswer (s : State) (a : AgentId) : State := s.modAgent a fun x => { x with answer := none }

/-! ### SYSC and HALT (R305) -/

/-- SYSC: the thread blocks until firmware answers; the answer goes to D (R305). -/
def execSysc (f : Fields) (s : State) : Next :=
  issueBeat (.sysc f) f s fun b s1 =>
    if b.perf = 0 then .done s1
    else match b.x.answer with
      | some w => .done (resultTo b w (s1.takeAnswer b.a))
      | none => .block .sysc

/-- HALT: the thread is parked until the next event of its DMC (R305). -/
def execHalt (f : Fields) (s : State) : Next :=
  issueBeat (.halt f) f s fun b s1 =>
    if b.perf = 0 then .done s1
    else match b.x.answer with
      | some _ => .done (s1.takeAnswer b.a)
      | none => .block .halt

/-- A thread blocked for a reason receives an answer. -/
def Agent.receive (x : Agent) (why : BlockWhy) (w : W64) : Agent :=
  if x.issue = .beats ∧ x.block = some why ∧ x.answer = none then { x with answer := some w, block := none } else x

/-- SYSC_ANSWER (R305). -/
def execSyscAnswer (a : AgentId) (w : W64) (s : State) : Next := .next (s.modAgent a fun x => x.receive .sysc w)

/-- An event of one die's DMC: the threads of its firmware that are parked in HALT go on (R305). -/
def State.dmcEventOn (s : State) (die : Nat) : State :=
  let wake := fun t : Team => if t.priv && t.part == 12 + die then { t with agents := t.agents.map fun g => (g.1, g.2.unhalt) } else t
  { s with teams := s.teams.map fun e => (e.1, wake e.2) }

/-- FIRMWARE_TIMER (R305). -/
def execFirmwareTimer (die : Nat) (s : State) : Next := .next (s.dmcEventOn die)

/-! ### CSRs (R297, R305, R306) -/

/-- Field f of a partition's record (R297). -/
def Part.csr (p : Part) (f : Nat) : W64 :=
  match f with
  | 0 => p.pstate | 1 => p.ctxBase | 2 => p.htBase | 3 => p.htLen | 4 => p.spBase | 5 => p.spillB | _ => p.goose

/-- The value of a CSR (R297, R306). -/
def State.csr (s : State) (x : Agent) (n : Nat) : W64 :=
  match n with
  | 0 => x.pcause.setWidth 64
  | 1 => x.pepc.setWidth 64
  | 2 => x.paddr
  | 3 => x.phnd.setWidth 64
  | 4 => BitVec.ofNat 64 (b2n x.inh)
  | _ => (s.partition ((n - 0x100) / 0x20)).csr (n % 0x20)

/-- CSRR (R305). -/
def execCsrr (f : Fields) (s : State) : Next :=
  issueBeat (.csrr f) f s fun b s1 =>
    if b.perf = 0 then .done s1 else .done (resultTo b (s.csr b.x f.imm.toNat) s1)

/-- A measurement register of a die extended with a digest (R348). -/
def State.extend (s : State) (die i : Nat) (h : List Byte) : State :=
  let d := (Tbl.find? s.dies die).getD Die.reset
  let old := (Tbl.find? d.mreg i).getD (List.replicate 64 0)
  { s with dies := Tbl.ins s.dies die { d with mreg := Tbl.ins d.mreg i (shake256 (old ++ h)) } }

/-- The bytes whose digest is a partition's configuration: its die mask and peer table (R348). -/
def Part.config (p : Part) : List Byte :=
  toBytes 8 (bits p.pstate 11 0) ++ (List.range 1024).flatMap fun d => toBytes 8 (Tbl.get (0 : W64) p.peers d).toNat

/-- The frames of HBM that a partition's contexts map: their locations and sizes (R137). -/
def State.framesOf (s : State) (part : Nat) : List (Nat × Nat) :=
  let hbm := fun (l : List W64) (n : Nat) => (l.filter fun e => decide (pteKind e = 0) && decide (pteHome e ≠ 2)).map fun e => (pteFrame e * 65536, n)
  hbm (s.smallLeaves part) 65536 ++ hbm (s.bigLeaves part) (2 ^ 28)

/-- A partition's memory is scrubbed: every line of its frames becomes a zero line (R204, R302). -/
def State.scrub (s : State) (part : Nat) : State :=
  let inFrame := fun (loc : Nat) => (s.framesOf part).any fun f => decide (f.1 ≤ loc) && decide (loc < f.1 + f.2)
  { s with mem := s.mem.filter (fun e => !inFrame e.1), flaws := s.flaws.filter (fun l => !inFrame (128 * l)),
           lines := s.lines.map fun e => if inFrame (128 * e.1) then (e.1, { e.2 with zero := true }) else e }

/-- A partition is reset: nothing of its contexts is left, its monitor entries are purged by PART, those of host queues too, its memory is scrubbed, and
the reset completes with it (R204, R267; log entry 85). -/
def State.resetPart (s : State) (part : Nat) : State :=
  ((s.scrub part).dropContexts fun p _ => p == part).modPart part fun p =>
    { p with queues := p.queues.map (fun e => (e.1, e.2.halted)), replays := [], heldRecords := [] }

/-- PSTATE written: a partition goes live only after every die has booted, and then MREG[1] of its dies is extended; one that is live no more is reset
(R204, R297, R347, R348). -/
def State.setPstate (s : State) (part : Nat) (w : W64) : State :=
  let live := bit w 16 && bit s.bootStat 0
  let was := (s.partition part).live
  let s0 := if was && !live then s.resetPart part else s
  let s1 := s0.modPart part fun p => { p with pstate := if live then w else w &&& 0xFFF#64 }
  if live && !was then
    let p := s1.partition part
    p.dies.foldl (fun u d => u.extend d 1 (shake256 p.config)) s1
  else s1

/-- What a CSR takes: no bit outside its field, and a value of the range that the spec gives it (R297, R305, R306, log entry 14). -/
def csrTakes (n : Nat) (w : W64) : Bool :=
  match n with
  | 0 => false
  | 1 => decide (bits w 63 28 = 0)
  | 2 => false
  | 3 => decide (bits w 63 28 = 0)
  | 4 => false
  | _ => match n % 0x20 with
    | 0 => decide (w &&& ~~~0x10FFF#64 = 0)
    | 3 => decide (w.toNat ≤ 4096)
    | 5 => decide (w.toNat = 0) || (decide (10 ≤ w.toNat) && decide (w.toNat ≤ 20))
    | 6 => decide (1000 ≤ w.toNat) && decide (w.toNat ≤ 1000000)
    | _ => true

/-- Field f of a partition's record written (R297). -/
def State.setPartCsr (s : State) (part f : Nat) (w : W64) : State :=
  match f with
  | 0 => s.setPstate part w
  | 1 => s.modPart part fun p => { p with ctxBase := w }
  | 2 => s.modPart part fun p => { p with htBase := w }
  | 3 => s.modPart part fun p => { p with htLen := w }
  | 4 => s.modPart part fun p => { p with spBase := w }
  | 5 => s.modPart part fun p => { p with spillB := w }
  | _ => s.modPart part fun p => { p with goose := w }

/-- A CSR written (R305). -/
def State.setCsr (s : State) (a : AgentId) (n : Nat) (w : W64) : State :=
  match n with
  | 1 => s.modAgent a fun x => { x with pepc := w.setWidth 28 }
  | 3 => s.modAgent a fun x => { x with phnd := w.setWidth 28 }
  | _ => s.setPartCsr ((n - 0x100) / 0x20) (n % 0x20) w

/-- CSRW: a write to a read-only CSR or of a reserved bit raises fault 0x01 (R305). -/
def execCsrw (f : Fields) (s : State) : Next :=
  issueBeat (.csrw f) f s fun b s1 =>
    let w := regOrZero b.x f.a
    if b.perf = 0 then .done s1
    else if csrTakes f.imm.toNat w then .done (s1.setCsr b.a f.imm.toNat w)
    else issueFault b 0x01

/-! ### TLBI (R296, R305) -/

/-- Whether a TLBI names an entry or access of a partition and ASID that covers a virtual page; the forms that name an ASID name it in every
partition. -/
def tlbiNames (fn : BitVec 4) (a b : W64) (part asid : Nat) (covers : Nat → Bool) : Bool :=
  match fn.toNat with
  | 0 => decide (asid = bits a 15 0) && covers (bits b 51 0)
  | 1 => decide (asid = bits a 15 0)
  | 2 => decide (part = bits a 3 0)
  | _ => true

/-- The entries that a TLBI names are dropped: those of the walk that cover the address, of every level (R296, R305). -/
def State.dropTlb (s : State) (fn : BitVec 4) (a b : W64) : State :=
  { s with tlb := s.tlb.filter fun e => !tlbiNames fn a b e.part e.asid fun va => e.tag == levelTag e.level va }

/-- An access that translated through an entry that a TLBI names, of any level of its walk, has not performed: one of an agent, or a registration
(R259, R296). -/
def State.tlbiWaits (s : State) (fn : BitVec 4) (a b : W64) : Bool :=
  let through := fun (part asid va : Nat) => tlbiNames fn a b part asid fun v => decide (levelTag 1 va = levelTag 1 v)
  s.batches.any (fun e => e.2.reqs.any fun r => through r.mon.part r.mon.asid r.va) ||
    s.teams.any fun e => e.2.agents.any fun x => x.2.ops.any fun o => decide (o.2.place.pte ≠ 0) && through e.2.part e.2.asid o.2.place.va

/-- TLBI: the thread blocks until TLBI_COMPLETE (R296, R305). -/
def execTlbi (f : Fields) (s : State) : Next :=
  issueBeat (.tlbi f) f s fun b s1 =>
    if b.perf = 0 then .done s1
    else match b.x.answer with
      | some _ => .done (s1.takeAnswer b.a)
      | none => .block .tlbi

/-- TLBI_COMPLETE: the named entries are gone from every TLB and every access through them has performed (R296). -/
def execTlbiComplete (a : AgentId) (s : State) : Next :=
  match s.agent a with
  | none => .next s
  | some x => match parse x.arr.word with
    | .ok (.tlbi f) =>
      let p := regOrZero x f.a
      let q := regOrZero x f.b
      if x.issue ≠ .beats ∨ x.block ≠ some .tlbi ∨ s.tlbiWaits f.fn p q = true then .next s
      else .next ((s.dropTlb f.fn p q).modAgent a fun y => y.receive .tlbi 0)
    | _ => .next s

/-! ### ERET (R306) -/

/-- ERET: W = PEPC and INH = 0; outside a handler it raises fault 0x01 (R306). -/
def execEret (f : Fields) (s : State) : Next :=
  issueBeat (.eret f) f s fun b s1 =>
    if b.perf = 0 then .done s1
    else if b.x.inh then .done (s1.modAgent b.a Agent.privReturn)
    else issueFault b 0x01

/-! ### Privileged threads (R304) -/

/-- The cluster that a die's DMC reserves for privileged threads: the one they run on, else the lowest empty one (R304). -/
def State.privCluster (s : State) (die : Nat) : Option Nat :=
  let here := (List.range 32).map fun c => 32 * die + c
  match here.find? fun c => (s.teamsAt c).any fun e => e.2.priv with
  | some c => if (s.teamsAt c).length < 8 then some c else none
  | none => here.find? fun c => decide (s.teamsAt c = [])

/-- No grid: what the team of a privileged thread belongs to (R304). -/
abbrev noGrid : Nat := 2 ^ 64

/-- PRIVILEGED_THREAD_START: the DMC starts a team without groups whose thread is privileged, once boot has verified its image (R304, R347). -/
def execPrivilegedThreadStart (die entry : Nat) (s : State) : Next :=
  match s.privCluster die with
  | none => .next s
  | some cl =>
    if !bit s.bootStat 0 then .next s
    else
      let team := Tbl.freshKey s.teams
      let t : Team := { Team.fresh (12 + die) 0 noGrid 0 (newThread .privileged (BitVec.ofNat 28 entry)) true with
        res := .loading cl, set := [team], priv := true }
      .next ((((s.ungate cl).own cl (12 + die) 0).setTeam team t).startTeam team)

/-- The DMC stops a privileged thread: its team ends (R304). -/
def State.stopThread (s : State) (team : Nat) : State :=
  match s.team team with
  | some t => if t.priv && t.resident then ((s.agentEnded ⟨team, ctlWho⟩).modTeam team fun v => { v with ctlGone := true }).settle team else s
  | none => s

end Sys2Proof.Machine
end

