-- ==== Sys2Proof/Machine/Choice.lean ====
section
/-! DEFINITION. Which agent issues: readiness, the choice of a rail and of a control core (R58, R72, R74, R208), what an agent does when its turn
comes, Goose (R75), and device time with what runs with it (R75, R332). -/

namespace Sys2Proof.Machine

/-! ### The choice of a rail and of a control core (R72, R74, R208) -/

/-- The bodies of the forms that can block after the checks of `beatGate`. -/
def bodyOf (i : Instr) : Option (State → Next) :=
  match i with
  | .ld f => some (execLd f)
  | .st f => some (execSt f)
  | .atom f => some (execAtom f)
  | .cas f => some (execCas f)
  | .red f => some (execRed f)
  | .fence f => some (execFence f)
  | .pref f => some (execPref f)
  | .cctl f => some (execCctl f)
  | .testp f => some (execTestp f)
  | .wait f => some (execWait f)
  | .launch f => some (execLaunch f)
  | .cpsl f => some (execCpsl f)
  | .cpc f => some (execCpc f)
  | .gath f => some (execGath f)
  | .scat f => some (execScat f)
  | .scata f => some (execScata f)
  | .mma f => some (execMma f)
  | .mmag f => some (execMmag f)
  | .aczero f => some (execAczero f)
  | .drain f => some (execDrain f)
  | .obrel f => some (execObrel f)
  | .acalloc f => some (execAcalloc f)
  | .acfree f => some (execAcfree f)
  | .mfs f => some (execMfs f)
  | .sysc f => some (execSysc f)
  | .halt f => some (execHalt f)
  | .tlbi f => some (execTlbi f)
  | .shfl f => some (execShfl f)
  | .vote f => some (execVote f)
  | .gred f => some (execGred f)
  | .gscan f => some (execGscan f)
  | .rebal f => some (execRebal f)
  | .rdln f => some (execRdln f)
  | .mtch f => some (execMtch f)
  | _ => none

/-- A block in which an instruction stands after it has issued its request: its beat was no less ready for that. -/
def BlockWhy.afterIssue : BlockWhy → Bool
  | .monitor | .sysc | .halt | .tlbi => true
  | _ => false

/-- What an agent has come to, from x to y, is that its beat issued: it does not stand at a block or a park that kept it from issuing. -/
def Agent.wentOn (x y : Agent) : Bool :=
  match y.issue with
  | .queue => false
  | .replay => false
  | .beats => y.block.isNone || decide (y.arr.left ≠ x.arr.left) || (decide (y.block ≠ x.block) && y.block.any BlockWhy.afterIssue)
  | _ => true

/-- Nothing that the form itself finds keeps the beat of an agent from issuing: an absent line, RLT entries, room for children or in a log, a replayable
page, and the rest. -/
def State.bodyLets (s : State) (a : AgentId) (x : Agent) (i : Instr) : Bool :=
  match bodyOf i with
  | none => true
  | some body => match body { s with cur := some a } with
    | .next s1 => match s1.agent a with
      | some y => x.wentOn y
      | none => true
    | _ => true

/-- The queue that an instruction reads or writes does not park it (R15). -/
def State.queueLets (s : State) (a : AgentId) (t : Team) (x : Agent) : Bool :=
  match x.queueUse with
  | .read q _ => match popQueue t x q.toNat with
    | .park => false
    | _ => true
  | .write q _ => match pushQueue s a.team t x q.toNat 0 [] with
    | .park => false
    | _ => true
  | _ => true

/-- The next beat of an agent that stands at the beats of a form can issue: its WK tokens are complete, its sources are full or trap, and nothing parks
or blocks it (R72, R208). -/
def State.canIssue (s : State) (a : AgentId) (t : Team) (x : Agent) (i : Instr) : Bool :=
  match formOf i, rowFor i with
  | some (_, f), some r =>
    let g := beatGate s i (beatOf i f r a t x)
    decide (g = .trap) || (decide (g = .ready) && s.queueLets a t x && s.bodyLets a x i)
  | _, _ => true

/-- The agent stands at the beats of an instruction and the next can issue; it is not held back or about to stop (R72, R208). -/
def State.readyBeat (s : State) (a : AgentId) (t : Team) (x : Agent) : Bool :=
  decide (x.issue = .beats) && !x.stays t a.who && !x.goosed &&
    (match decodeFor x.kind x.budget x.arr.word with
     | .ok i => s.canIssue a t x i
     | .error _ => false)

/-- What an arrival has come to goes on: it stops, or the first beat of its instruction can issue. -/
def Prepared.goesOn (p : Prepared) (a : AgentId) (t : Team) : Bool :=
  match p with
  | .stay _ => true
  | .go i s => match s.agent a with
    | some y => s.canIssue a t y i
    | none => true

/-- The agent stands at an arrival whose instruction can issue, after a wrap of the gate where it wraps (R61, R72, R208). -/
def State.readyArrival (s : State) (a : AgentId) (t : Team) (x : Agent) : Bool :=
  match x.issue with
  | .arrive g => !x.stays t a.who && !x.goosed &&
    (match s.arrive a t x g with
     | .go i s1 => Prepared.goesOn (.go i s1) a t
     | .stay s1 => match s1.agent a with
       | some y => match y.issue with
         | .arrive h => (s1.arrive a t y h).goesOn a t
         | _ => true
       | none => true)
  | _ => false

/-- An agent is ready: its beat can issue, or it stands at an arrival whose first beat can (R72, R75, R208). -/
def State.mayIssue (s : State) (a : AgentId) (t : Team) (x : Agent) : Bool := s.readyBeat a t x || s.readyArrival a t x

/-- A group counts as ready for its rail at its beats only: the fetch and the census before them take clocks that the spec leaves to timing (R63, R72; log
entry 33). A control thread has no census to wait for and counts at its arrivals too (R208). -/
def State.rivals (s : State) (a : AgentId) (cluster : Nat) (like : Agent → Bool) : List (AgentId × Agent) :=
  s.teams.flatMap fun e =>
    if e.2.cluster = some cluster then
      (e.2.agents.filter fun g => like g.2 && !(e.1 == a.team && g.1 == a.who) &&
        (if g.2.isGroup then s.readyBeat ⟨e.1, g.1⟩ e.2 g.2 else s.mayIssue ⟨e.1, g.1⟩ e.2 g.2)).map fun g => (⟨e.1, g.1⟩, g.2)
    else []

/-- A producer ranks ahead of every consumer, and an older group ahead of a younger (R72). -/
def Agent.outranks (x y : Agent) : Bool := decide (x.role < y.role) || (decide (x.role = y.role) && decide (x.rank < y.rank))

/-- A rail may issue from a group: it keeps the group that issued last while that is ready and has not yielded, and takes the oldest ready group of the
active set otherwise, producers first (R72, R73). -/
def State.railLets (s : State) (a : AgentId) (cluster : Nat) (x : Agent) : Bool :=
  let last := Tbl.find? s.lastBeat (cluster * 32 + x.rail)
  let kept := fun (c : AgentId) (y : Agent) => match last with | some m => decide (m.a = c) && decide (m.rank = y.rank) | none => false
  kept a x || (s.rivals a cluster fun y => y.isGroup && y.active && y.rail == x.rail).all fun r => !kept r.1 r.2 && !r.2.outranks x

/-- A control core may issue from a thread: it keeps the thread that issued last while that is ready, has issued fewer than 16 instructions in a row
and has not yielded or blocked since; otherwise it takes the ready thread whose last issue is oldest (R208). -/
def State.coreLets (s : State) (a : AgentId) (cluster : Nat) (x : Agent) : Bool :=
  let kept := fun (c : AgentId) (y : Agent) => match Tbl.find? s.ccLast cluster with
    | some m => decide (m.team = c.team) && decide (m.run < 16) && decide (y.gooseSeq < y.lastBeat)
    | none => false
  kept a x || (s.rivals a cluster fun y => !y.isGroup).all fun r => !kept r.1 r.2 && decide (x.lastBeat ≤ r.2.lastBeat)

/-- The rail or core lets an agent of a cluster issue. -/
def State.lets (s : State) (a : AgentId) (cluster : Nat) (x : Agent) : Bool :=
  if x.isGroup then s.railLets a cluster x else s.coreLets a cluster x

/-- A group is in its rail's active set, or may take a free slot of it: no older ready pending group is there to take it, producers first
(R58, R74). -/
def State.enters (s : State) (a : AgentId) (cluster : Nat) (x : Agent) : Bool :=
  !x.isGroup || x.active ||
    (decide (s.activeOn cluster x.rail < 8) &&
      (s.rivals a cluster fun y => y.isGroup && !y.active && y.rail == x.rail).all fun r => !r.2.outranks x)

/-- A group that Goose has struck stands at a beat boundary: its instruction is decoded and its WK tokens are complete (R61, R70, R75); it is none where a
queue read has taken its entry. -/
def State.struck (s : State) (a : AgentId) : Bool :=
  match s.team a.team, s.agent a with
  | some t, some x => x.goosed && x.isGroup && decide (x.issue = .beats) && tokensDone t x.arr.wk && x.arr.granted.isNone
  | _, _ => false

/-- Goose's fault, at a beat boundary (R70, R75). -/
def State.gooseStop (s : State) (a : AgentId) : State :=
  ((s.modAgent a fun y => { y with goosed := false }).takeFault a { code := 0x16, how := .beat, lanes := 0, addr := 0, write := false }).markHeld a

/-- What an arrival comes to: an instruction of a group that Goose has struck stops before its first beat (R75). -/
def Prepared.orStruck (p : Prepared) (a : AgentId) : Prepared :=
  match p with
  | .go i s => if s.struck a then .stay (s.gooseStop a) else .go i s
  | .stay s => .stay s

/-- The turn of an agent (R72, R75, R208): a group that Goose has struck stops; an arrival is fetched and decoded; an instruction at its beats goes
on. A group or thread that its rail or core passes over does nothing. -/
def State.prepare (s : State) (a : AgentId) : Prepared :=
  match s.team a.team, s.agent a with
  | some t, some x =>
    match t.cluster with
    | none => .stay s
    | some cl =>
      if x.stays t a.who then .stay s
      else if s.struck a then .stay (s.gooseStop a)
      else if !s.enters a cl x || !s.lets a cl x then .stay s
      else match x.issue with
        | .arrive g => (s.arrive a t x g).orStruck a
        | .beats => match decodeFor x.kind x.budget x.arr.word with
          | .ok i => .go i { s with cur := some a }
          | .error _ => .stay s
        | _ => .stay s
  | _, _ => .stay s

/-! ### Device time and rail clocks -/

/-- Some other group of the rail is ready and has issued no beat since the timer restarted (R75). -/
def State.starves (s : State) (a : AgentId) (cluster : Nat) (x : Agent) : Bool :=
  s.teams.any fun e => decide (e.2.cluster = some cluster) && e.2.agents.any fun g =>
    g.1 != ctlWho && !(e.1 == a.team && g.1 == a.who) && g.2.rail == x.rail && s.mayIssue ⟨e.1, g.1⟩ e.2 g.2 && decide (g.2.lastBeat ≤ x.gooseSeq)

/-- The Goose timer of a resident group runs (R75). -/
def State.gooseRuns (s : State) (team cluster : Nat) (g : Nat × Agent) : Bool :=
  g.1 != ctlWho && !decide (g.2.issue = .ended) && (g.2.gateWrapped || s.starves ⟨team, g.1⟩ cluster g.2)

/-- The Goose timer of a group after ns of time (R75). -/
def goosePass (s : State) (ns team : Nat) (cluster : Option Nat) (g : Nat × Agent) : Nat × Agent :=
  match cluster with
  | none => g
  | some cl => if s.gooseRuns team cl g then (g.1, { g.2 with goose := g.2.goose + ns }) else g

/-- The requests of an agent that go out of the module, after ns of time (R343). -/
def Agent.ageOps (x : Agent) (ns : Nat) : Agent :=
  { x with ops := x.ops.map fun e => (e.1, { e.2 with age := if e.2.place.remote && x.opReady e.2 then e.2.age + ns else e.2.age }) }

/-- Device time, a count of 64 bits, runs forward by ns (R3), and with it Goose's timers (R75) and the requests on their way (R343). -/
def State.pass (s : State) (ns : Nat) : State :=
  { s with dtime := (s.dtime + ns) % 2 ^ 64,
           teams := s.teams.map fun e => (e.1, { e.2 with agents := e.2.agents.map fun g =>
             let g1 := goosePass s ns e.1 e.2.cluster g
             (g1.1, g1.2.ageOps ns) }) }

/-- A list without its entry i. -/
def dropNth {α : Type} (l : List α) (i : Nat) : List α := l.take i ++ l.drop (i + 1)

/-- The groups of a rail whose block is over stand blocked no more (R74). -/
def State.freeBlocks (s : State) (cluster rail : Nat) : State :=
  let freed := fun (team : Nat) (t : Team) (g : Nat × Agent) =>
    g.2.isGroup && decide (g.2.rail = rail) && g.2.counted && s.readyBeat ⟨team, g.1⟩ t g.2
  { s with teams := s.teams.map fun e =>
      if e.2.cluster = some cluster then
        (e.1, { e.2 with agents := e.2.agents.map fun g => if freed e.1 e.2 g then (g.1, { g.2 with block := none }) else g })
      else e }

/-- A rail clock of a cluster without a beat: it counts for the groups of the rail that are still blocked, and the group that issued the rail's last beat counts
four idle positions at its index (R74, R332). -/
def State.railClock (s : State) (cluster rail : Nat) : State :=
  let k := cluster * 32 + rail
  let s1 : State := { s.freeBlocks cluster rail with railClocks := Tbl.put 0 s.railClocks k (Tbl.get 0 s.railClocks k + 1) }
  match Tbl.find? s.lastBeat k with
  | none => s1
  | some m => match s.team m.a.team, s.agent m.a with
    | some t, some x => if t.cluster = some cluster then s1.lcrCount cluster t.asid x.p.toNat 0 0 0 0 4 else s1
    | _, _ => s1

/-! ### Active sets and Goose's strike (R74, R75) -/

/-- A group leaves the active set: at once when idle, after 32 rail clocks blocked, unless what blocked it is over (R74). -/
def State.leaves (s : State) (a : AgentId) (x : Agent) : Bool :=
  decide (x.issue = .idle) || (x.counted && decide (x.blockedAt + 32 ≤ s.railTime a.team x) && !((s.team a.team).any fun t => s.readyBeat a t x))

/-- ACTIVE_SET_SWAP: an active group that is to leave does; a ready pending group takes a free slot (R58, R74). -/
def execActiveSetSwap (a : AgentId) (s : State) : Next :=
  match s.team a.team, s.agent a with
  | some t, some x => match t.cluster with
    | none => .next s
    | some cl =>
      if !x.isGroup then .next s
      else if x.active then
        if s.leaves a x then .next (s.modAgent a fun y => { y with active := false }) else .next s
      else if s.mayIssue a t x ∧ s.enters a cl x = true then .next (s.modAgent a fun y => { y with active := true })
      else .next s
  | _, _ => .next s

/-- The Goose period of a partition in ns (R75, R297). -/
def Part.goosePeriod (p : Part) : Nat := p.goose.toNat * 1000

/-- GOOSE: a group whose timer has reached the period is struck; fault 0x16 follows at its next beat boundary (R75). -/
def execGoose (a : AgentId) (s : State) : Next :=
  match s.team a.team, s.agent a with
  | some t, some x =>
    if x.isGroup && t.resident && decide ((s.partition t.part).goosePeriod ≤ x.goose) then
      .next (s.modAgent a fun y => { y with goosed := true })
    else .next s
  | _, _ => .next s

end Sys2Proof.Machine
end

