-- ==== Sys2Proof/Machine/Power.lean ====
section
/-! DEFINITION. The power controller (R307 to R324): telemetry frames, curves, the applied cap and shed mask, shedding and its release, the clock,
Mule, heat and gating. -/

namespace Sys2Proof.Machine

/-! ### Registers (R311) -/

/-- EN of PCTL. -/
def Pwc.en (p : Pwc) : Bool := bit p.pctl 0
/-- The hold time in ns. -/
def Pwc.holdNs (p : Pwc) : Nat := p.hold.toNat * 1000000
/-- SHED of a point, the fail-safe point among them. -/
def ptShed (w : W64) : BitVec 4 := BitVec.ofNat 4 (bits w 51 48)
/-- CAP of a point. -/
def ptCap (w : W64) : Nat := bits w 42 32
/-- V of a point. -/
def ptValid (w : W64) : Bool := bit w 63
/-- The points of a curve's table up to the first that is not valid. -/
def validPoints (m : Tbl W64) : List W64 := ((List.range 16).map fun i => Tbl.get (0 : W64) m i).takeWhile ptValid

/-- THRESH of a point: signed mHz of 24 bits, or unsigned mV of 16 bits. -/
def thresh (volt : Bool) (w : W64) : Int := if volt then (bits w 15 0 : Int) else (BitVec.ofNat 24 (bits w 23 0)).toInt

/-- The bits that a point's register holds. -/
def ptMask (volt : Bool) : W64 := if volt then 0x800F07FF0000FFFF#64 else 0x800F07FF00FFFFFF#64

/-! ### Enabling (R312) -/

/-- A point or FSPT that no curve may hold. -/
def ptBad (w mask : W64) : Bool := bit w 48 || decide (ptCap w > 1024) || decide (w &&& ~~~mask ≠ 0)

/-- Each point against the one before it: THRESH descends, CAP does not rise, SHED loses no bit. -/
def ptsDescend (volt : Bool) : List W64 → Bool
  | a :: b :: rest =>
    decide (thresh volt b < thresh volt a) && decide (ptCap b ≤ ptCap a) && decide (ptShed a &&& ~~~ptShed b = 0) && ptsDescend volt (b :: rest)
  | _ => true

/-- A curve's table passes R312. -/
def tableOk (volt : Bool) (m : Tbl W64) : Bool :=
  let all := (List.range 16).map fun i => Tbl.get (0 : W64) m i
  decide ((all.filter ptValid).length = (validPoints m).length) && ptsDescend volt (validPoints m) && all.all fun w => !ptBad w (ptMask volt)

/-! ### Curves (R313) -/

/-- What a level or a target asks for. -/
structure Demand where
  cap : Nat
  mask : BitVec 4
deriving DecidableEq, Repr, Inhabited

/-- The more severe of two (R313). -/
def Demand.worse (a b : Demand) : Demand := { cap := min a.cap b.cap, mask := a.mask ||| b.mask }
/-- What a point's register asks for. -/
def demandOf (w : W64) : Demand := { cap := ptCap w, mask := ptShed w }

/-- The largest point that an input reaches: `x ≤ THRESH[i]` (R313). -/
def reachedPoint (volt : Bool) (pts : List W64) (x : Int) : CurveLevel :=
  match ((pts.zipIdx).filter fun e => decide (x ≤ thresh volt e.1)).getLast? with
  | some e => .point e.2
  | none => .none

/-- The result of a level (R313). -/
def levelDemand (pts : List W64) (fspt : W64) : CurveLevel → Demand
  | .none => { cap := 1024, mask := 0 }
  | .point i => demandOf (pts.getD i 0)
  | .failsafe => demandOf fspt

/-- A level as a number: -1 for no point. -/
def CurveLevel.rank : CurveLevel → Int
  | .none => -1
  | .point i => i
  | .failsafe => 16

/-- A curve after an accepted frame or a tick at a time, and whether its hold ran out (R313). -/
def Curve.tick (c : Curve) (volt yields : Bool) (pts : List W64) (hyst : Int) (hold now : Nat) : Curve :=
  let reached := reachedPoint volt pts c.x
  let started := c.timer.getD now
  if yields then { c with level := .failsafe, timer := none }
  else match c.level with
    | .failsafe => if now - started ≥ hold then { c with level := reached, timer := none } else { c with timer := some started }
    | l =>
      if l.rank < reached.rank then { c with level := reached, timer := none }
      else match l with
        | .point i =>
          if thresh volt (pts.getD i 0) + hyst < c.x then
            if now - started ≥ hold then { c with level := if i = 0 then .none else .point (i - 1), timer := none } else { c with timer := some started }
          else { c with timer := none }
        | _ => { c with timer := none }

/-- The result of a curve; while it stands at F and no longer yields, the more severe of FSPT and the reached level (R313). -/
def Curve.demand (c : Curve) (volt yields : Bool) (pts : List W64) (fspt : W64) : Demand :=
  let d := levelDemand pts fspt c.level
  if c.level = .failsafe ∧ yields = false then d.worse (levelDemand pts fspt (reachedPoint volt pts c.x)) else d

/-! ### Shedding (R318, R321) -/

/-- The teams of shed classes on a team's cluster (R317). -/
def State.shedHere (s : State) (t : Team) : Nat :=
  (s.teams.filter fun e => decide (e.2.cluster = t.cluster) && e.2.resident && !e.2.priv && s.pwc.mask.getLsbD e.2.cls).length

/-- A class joins the mask: events, SHEDNOTE, the hold at shed points, the grace timer, and the time by which each team is to be out (R317 to R319).
The CSEQ of the event, which names no site, is the team's last one (DESIGN CHOICE, log entry 42). -/
def State.shedStart (s : State) (cls : Nat) : State :=
  let hit := (s.teams.filter fun e => e.2.cls == cls && e.2.resident && !e.2.priv).map (·.1)
  let s1 := hit.foldl (fun u t =>
    let u1 := match u.team t with | some x => u.postEvent t 0x04 8 x.cseq cls | none => u
    u1.modTeam t fun x =>
      { x with shedNote := true, saveAsked := true, shedBy := some (s.dtime + s.pwc.grace.toNat * 1000 + 60000 * s.shedHere x),
               agents := x.agents.map fun g => (g.1, { g.2 with held := g.2.held || g.2.atShedPoint }) }) s
  { s1 with pwc := { s1.pwc with graceAt := Tbl.ins s1.pwc.graceAt cls s1.dtime } }

/-- A team released where it is held (R321). -/
def Team.unshed (t : Team) : Team :=
  { t with shedNote := false, saveAsked := false, preempt := false, shedBy := none, agents := t.agents.map fun g => (g.1, { g.2 with held := false }) }

/-- A class leaves the mask: its resident teams are released; its saved ones are placed by TEAM_RESTORE (R321). -/
def State.shedEnd (s : State) (cls : Nat) : State :=
  let teams := s.teams.map fun e => if e.2.cls == cls && e.2.resident && !e.2.priv then (e.1, e.2.unshed) else e
  { s with teams := teams, pwc := { s.pwc with graceAt := Tbl.del s.pwc.graceAt cls } }

/-- The classes of a mask. -/
def classesIn (m : BitVec 4) : List Nat := [0, 1, 2, 3].filter fun c => m.getLsbD c

/-- A mask applied at the present time, with what its joining and leaving classes bring (R313, R318, R321). -/
def State.setMask (s : State) (m : BitVec 4) : State :=
  let old := s.pwc.mask
  if m = old then s
  else
    let s1 : State := { s with pwc := { s.pwc with mask := m, maskAt := s.dtime } }
    (classesIn (m &&& ~~~old)).foldl State.shedStart ((classesIn (old &&& ~~~m)).foldl State.shedEnd s1)

/-- The applied mask after a target: classes join at once; one leaves once HOLD has passed since the last change, the lowest (R313). -/
def nextMask (p : Pwc) (target : BitVec 4) (now : Nat) : BitVec 4 :=
  let joined := p.mask ||| target
  if joined ≠ p.mask then joined
  else match classesIn (p.mask &&& ~~~target) with
    | c :: _ => if now - p.maskAt ≥ p.holdNs then p.mask &&& ~~~(1#4 <<< c) else p.mask
    | [] => p.mask

/-- The curves evaluated, and the combined target applied (R313). -/
def State.applyCurves (s : State) : State :=
  let p := s.pwc
  let fy := p.failsafe || p.freq.invalid
  let vy := p.failsafe || p.volt.invalid
  let fp := validPoints p.fpt
  let vp := validPoints p.vpt
  let f := p.freq.tick false fy fp (bits p.hyst 15 0) p.holdNs s.dtime
  let v := p.volt.tick true vy vp (bits p.hyst 31 16) p.holdNs s.dtime
  let d := (f.demand false fy fp p.fspt).worse (v.demand true vy vp p.fspt)
  let s1 : State := { s with pwc := { p with freq := f, volt := v, cap := d.cap, capAt := if d.cap = p.cap then p.capAt else some s.dtime } }
  s1.setMask (nextMask p d.mask s.dtime)

/-! ### Frames (R307 to R310) -/

/-- CRC-16/CCITT over one byte: polynomial 0x1021, no reflection (R308). -/
def crcByte (crc : BitVec 16) (b : Byte) : BitVec 16 :=
  (List.range 8).foldl (fun c _ => if c.getLsbD 15 then (c <<< 1) ^^^ 0x1021#16 else c <<< 1) (crc ^^^ (b.setWidth 16 <<< 8))

/-- The CRC of some bytes (R308). -/
def crc16 (bs : List Byte) : BitVec 16 := bs.foldl crcByte 0xFFFF#16

/-- The number in bytes lo to hi of a frame (R308). -/
def frameField (bs : List Byte) (hi lo : Nat) : Nat := ofBytes ((bs.drop lo).take (hi + 1 - lo))

/-- A valid frame (R309). -/
def frameValid (bs : List Byte) : Bool :=
  decide (bs.length = 32) && decide (frameField bs 1 0 = 0xA55A) && decide (frameField bs 2 2 = 1) && decide (frameField bs 3 3 = 0)
    && decide (frameField bs 29 19 = 0) && decide (frameField bs 18 17 < 8) && decide (frameField bs 31 30 = (crc16 (bs.take 30)).toNat)

/-- A valid frame that the PWC accepts (R309). -/
def Pwc.accepts (p : Pwc) (seq : Nat) : Bool :=
  let ahead := (seq + 65536 - p.lastSeq) % 65536
  p.en && (p.first || p.failsafe || (decide (1 ≤ ahead) && decide (ahead ≤ 32767)))

/-- The inputs of an accepted frame (R308, R310, R313). -/
def Pwc.take (p : Pwc) (bs : List Byte) (now : Nat) : Pwc :=
  let flags := frameField bs 18 17
  let nominal : Int := if bit p.pctl 1 then 60000 else 50000
  { p with
    lastSeq := frameField bs 5 4, first := false, since := now, failsafe := false,
    freq := { p.freq with x := frameField bs 8 6 - nominal, invalid := decide (flags % 2 = 1) },
    volt := { p.volt with x := frameField bs 12 11, invalid := decide (flags / 2 % 2 = 1) },
    headroom := if flags / 4 % 2 = 1 then none else some (frameField bs 16 13),
    rocof := (now, BitVec.ofNat 16 (frameField bs 10 9)) :: p.rocof,
    tickAt := if p.first then now else p.tickAt }

/-- A link's partial frame replaced. -/
def Pwc.setPart (p : Pwc) (linkB : Bool) (f : Option PartFrame) : Pwc := if linkB then { p with partB := f } else { p with partA := f }

/-- The bytes of a frame that a link has received by a time; a partial frame without a start bit for 20 µs is discarded (R307). -/
def Pwc.received (p : Pwc) (linkB : Bool) (now : Nat) : List Byte :=
  match (if linkB then p.partB else p.partA) with
  | some f => if now ≥ f.last + 20000 then [] else f.bytes
  | none => []

/-- TELEMETRY_FRAME: the last bytes of a frame arrive on a link, after those that it holds (R307, R309, R311). -/
def execTelemetryFrame (linkB : Bool) (bytes : List Byte) (s : State) : Next :=
  let frame := s.pwc.received linkB s.dtime ++ bytes
  let p0 := s.pwc.setPart linkB none
  if !frameValid frame then .next { s with pwc := p0 }
  else
    let p1 := if linkB then { p0 with linkB := some s.dtime } else { p0 with linkA := some s.dtime }
    if p1.accepts (frameField frame 5 4) then .next ({ s with pwc := p1.take frame s.dtime }.applyCurves)
    else .next { s with pwc := p1 }

/-- A byte of a frame that is not its last (R307). -/
def State.shelfByte (s : State) (linkB : Bool) (b : Byte) : State :=
  let old := s.pwc.received linkB s.dtime
  if old.length ≥ 31 then s else { s with pwc := s.pwc.setPart linkB (some { bytes := old ++ [b], last := s.dtime }) }

/-- PARTIAL_FRAME_DISCARD: no start bit for 20 µs within a frame (R307). -/
def execPartialFrameDiscard (linkB : Bool) (s : State) : Next :=
  match (if linkB then s.pwc.partB else s.pwc.partA) with
  | some f => if s.dtime ≥ f.last + 20000 then .next { s with pwc := s.pwc.setPart linkB none } else .next s
  | none => .next s

/-- LINK_VALID_FRAME_TIMEOUT: a link has delivered no valid frame for 5 ms (R311). -/
def execLinkValidFrameTimeout (linkB : Bool) (s : State) : Next :=
  match (if linkB then s.pwc.linkB else s.pwc.linkA) with
  | some t =>
    if s.dtime ≥ t + 5000000 then .next { s with pwc := if linkB then { s.pwc with linkB := none } else { s.pwc with linkA := none } } else .next s
  | none => .next s

/-- FAILSAFE_ENTRY: more than 5 ms without an accepted frame (R310, R341). -/
def execFailsafeEntry (s : State) : Next :=
  if s.pwc.en && !s.pwc.failsafe && decide (s.dtime > s.pwc.since + 5000000) then
    .next (({ s with pwc := { s.pwc with failsafe := true, tickAt := s.dtime } }.applyCurves).fire 0 1)
  else .next s

/-- CURVE_TICK: the tick at each ms of device time, once; before the first frame there is no input (R313). -/
def execCurveTick (s : State) : Next :=
  if s.pwc.en && decide (s.dtime % 1000000 = 0) && decide (s.pwc.tickAt < s.dtime) && (!s.pwc.first || s.pwc.failsafe) then
    .next { s with pwc := { s.pwc with tickAt := s.dtime } }.applyCurves
  else .next s

/-- GRACE_EXPIRY: the teams of a class that are not out yet are pre-empted (R320). -/
def execGraceExpiry (cls : Nat) (s : State) : Next :=
  match Tbl.find? s.pwc.graceAt cls with
  | none => .next s
  | some t =>
    if s.dtime ≥ t + s.pwc.grace.toNat * 1000 then
      let teams := s.teams.map fun e => if e.2.cls == cls && e.2.resident && e.2.saveAsked then (e.1, { e.2 with preempt := true }) else e
      .next { s with teams := teams, pwc := { s.pwc with graceAt := Tbl.del s.pwc.graceAt cls } }
    else .next s

/-- POWER_ENABLE: a write of PCTL with EN = 1 (R310 to R312). -/
def execPowerEnable (w : W64) (s : State) : Next :=
  if !bit w 0 then .next s
  else
    let p := s.pwc
    let modes := w &&& 6#64
    if p.en then .next { s with pwc := { p with pctl := modes ||| 1#64 } }
    else if tableOk false p.fpt && tableOk true p.vpt && !ptBad p.fspt 0x000F07FF00000000#64 then
      .next { s with pwc := { p with pctl := modes ||| 1#64, first := true, since := s.dtime, tickAt := s.dtime, failsafe := false, freq := Curve.reset, volt := Curve.reset } }
    else .next { s with pwc := { p with pctl := modes ||| 0x10#64 } }

/-- POWER_DISABLE: a write of PCTL with EN = 0: the applied cap is 1,024 and the applied mask 0 (R312). -/
def execPowerDisable (w : W64) (s : State) : Next :=
  if bit w 0 then .next s
  else
    let p := s.pwc
    let p1 := { p with
      pctl := (w &&& 6#64) ||| (p.pctl &&& 0x10#64), failsafe := false, cap := 1024, capAt := if p.cap = 1024 then p.capAt else some s.dtime,
      freq := Curve.reset, volt := Curve.reset }
    .next ({ s with pwc := p1 }.setMask 0)

/-! ### The clock (R314 to R316, R324) -/

/-- The grid power cap in W (R314). -/
def Pwc.gridCap (p : Pwc) : Nat :=
  let w := p.cap * p.pmax.toNat / 1024
  match p.headroom with
  | some h => if bit p.pctl 2 then min w h else w
  | none => w

/-- The clock steps from 850 MHz down to 200 MHz (R314). -/
def clockSteps : List Nat := (List.range 27).map fun k => 850 - 25 * k

/-- The grid frequency cap of a die: the highest step whose power stays within the cap, by a model that the spec leaves open (R314, log entry 2). -/
def State.gridStep (s : State) (die : Nat) : Nat :=
  (clockSteps.find? fun f => decide (Config.power die f s.fresh ≤ s.pwc.gridCap)).getD 200

/-- TMIG and TCAP (R311). -/
def Pwc.tmig (p : Pwc) : Nat := bits p.therm 7 0
/-- TCAP (R311). -/
def Pwc.tcap (p : Pwc) : Nat := bits p.therm 15 8

/-- A pair (R322 to R324). -/
def State.pair (s : State) (p : Nat) : Pair := (Tbl.find? s.pairs p).getD Pair.reset
/-- A pair changed. -/
def State.modPair (s : State) (p : Nat) (f : Pair → Pair) : State := { s with pairs := Tbl.ins s.pairs p (f (s.pair p)) }
/-- A die (R314). -/
def State.die (s : State) (d : Nat) : Die := (Tbl.find? s.dies d).getD Die.reset

/-- The pairs of a die. -/
def pairsOf (die : Nat) : List Nat := (List.range 16).map fun k => 16 * die + k

/-- The thermal cap after an interval: a step below the clock while a pair is above TCAP (R324). -/
def nextTherm (clock cap tcap : Nat) (temps : List Nat) : Nat :=
  if temps.any fun t => decide (t > tcap) then max 200 (min cap clock - 25)
  else if temps.all fun t => decide (t + 5 ≤ tcap) then min 850 (cap + 25)
  else cap

/-- The current cap for the next interval: one step less where a pair's layers differed by over 10 % for 10 µs, and a step below the clock where a pair's
current passed its rating; else as the regulators allow, which the spec leaves open (R315, R323, log entry 2). -/
def nextCurrent (clock cap draw : Nat) (ps : List Pair) : Nat :=
  let free := clockSteps.getD (Config.freeNat draw % 27) 850
  let less := if ps.any fun p => p.overLong then max 200 (cap - 25) else 850
  let slow := if ps.any fun p => decide (p.throttle > 0) then max 200 (clock - 25) else 850
  if (ps.any fun p => p.overLong) || ps.any fun p => decide (p.throttle > 0) then min less slow else free

/-- Every shed class is saved out (R316). -/
def State.shedOut (s : State) : Bool := s.teams.all fun e => !(e.2.resident && s.shed e.2.cls && !e.2.priv)

/-- CAPMISS: every clock at the floor, shed classes out, and power above the cap still (R316). -/
def State.missesCap (s : State) : Bool :=
  s.shedOut && (List.range 12).all (fun d => decide ((s.die d).clock = 200)) && decide (Config.power 12 200 s.fresh > s.pwc.gridCap)

/-- A period of n ns in which nothing marked at a time has come yet. -/
def duePeriod (n now : Nat) : Option Nat → Bool
  | some t => decide (t / n < now / n)
  | none => true

/-- CONTROL_INTERVAL, once in each 10 µs: temperatures are reported, caps are taken and the die's clock is set; its DMC has an event (R305, R315, R316,
R324). -/
def execControlInterval (die : Nat) (temps : List Nat) (s : State) : Next :=
  if !duePeriod 10000 s.dtime (s.die die).served then .next s
  else
    let s1 := ((pairsOf die).zip temps).foldl (fun u e => u.modPair e.1 fun p => { p with temp := e.2 }) s
    let ps := (pairsOf die).map s1.pair
    let d := s1.die die
    let th := nextTherm d.clock d.thermCap s1.pwc.tcap (ps.map fun p => p.temp)
    let cu := nextCurrent d.clock d.curCap s1.fresh ps
    let clock := max 200 (min (min th cu) (s1.gridStep die))
    let s2 : State := { s1 with dies := Tbl.ins s1.dies die { d with thermCap := th, curCap := cu, clock := clock, served := some s.dtime } }
    let s3 := (pairsOf die).foldl (fun u k => u.modPair k fun p => { p with throttle := 0, overLong := false }) s2
    let miss := s3.missesCap
    let s4 : State := { s3 with fresh := s3.fresh + 1, pwc := { s3.pwc with capMiss := miss } }
    .next ((if miss && !s.pwc.capMiss then s4.fire 0 1 else s4).dmcEventOn die)

/-- CURRENT_LIMIT: a pair's current passes its rating; issue on it is throttled by another sixteenth (R315). -/
def execCurrentLimit (pair : Nat) (above : Bool) (s : State) : Next :=
  if above then .next (s.modPair pair fun p => { p with throttle := min 16 (p.throttle + 1) }) else .next s

/-- MULE, once in each µs: a measurement of both layers' currents, in thousandths of the pair's rating (R323). -/
def execMule (pair lower upper : Nat) (s : State) : Next :=
  let d := distance lower upper
  let upperHeavy := decide (lower < upper)
  if !duePeriod 1000 s.dtime (s.pair pair).measured then .next s
  else .next (s.modPair pair fun p =>
    let down := fun (x : Nat) => max 4 (x - 1)
    let up := fun (x : Nat) => min 16 (x + 1)
    let n := if d > 100 then p.overFor + 1 else 0
    { p with
      lower := if d > 80 ∧ upperHeavy = false then down p.lower else if d < 40 then up p.lower else p.lower,
      upper := if d > 80 ∧ upperHeavy = true then down p.upper else if d < 40 then up p.upper else p.upper,
      heavy := if d > 80 then some upperHeavy else none,
      overFor := if n ≥ 10 then 0 else n,
      overLong := p.overLong || decide (n ≥ 10),
      measured := some s.dtime })

/-- Clusters of a die by ascending temperature of their pair, none hotter than TMIG - 10 (R324). -/
def State.coolClusters (s : State) (die : Nat) : List Nat :=
  let ok := (List.range 32).map (fun c => 32 * die + c) |>.filter fun c => decide ((s.pair (c / 2)).temp + 10 ≤ s.pwc.tmig)
  byKey (fun c => (s.pair (c / 2)).temp) ok

/-- The first of some clusters that takes a team by migration. -/
def State.firstMigration (s : State) (team : Nat) : List Nat → Option State
  | [] => none
  | c :: cs => match s.migrate team c with
    | some s1 => some s1
    | none => s.firstMigration team cs

/-- THERMAL_MIGRATION: a pair above TMIG passes a team to the coolest cluster that admits it, one team each millisecond; a free number picks the team
(R324, log entry 2). -/
def execThermalMigration (pair : Nat) (s : State) : Next :=
  let p := s.pair pair
  let due := match p.moved with | some t => decide (s.dtime ≥ t + 1000000) | none => true
  if p.temp ≤ s.pwc.tmig ∨ due = false then .next s
  else
    let teams := (s.teams.filter fun e => (decide (e.2.cluster = some (2 * pair)) || decide (e.2.cluster = some (2 * pair + 1))) && !e.2.priv).map (·.1)
    let pick : Option Nat := match teams with
      | [t] => some t
      | l => l[Config.freeNat s.fresh % max 1 l.length]?
    match pick with
    | none => .next s
    | some t =>
      let s0 := { s with fresh := s.fresh + 1 }
      match s0.firstMigration t (s.coolClusters (pair / 16)) with
      | some s1 => .next (s1.modPair pair fun p => { p with moved := some s.dtime })
      | none => .next s0

/-- PAIR_POWER_GATE: a pair without teams is gated; an admission that has come first keeps it up (R322). -/
def execPairPowerGate (pair : Nat) (s : State) : Next :=
  if s.teamsAt (2 * pair) = [] ∧ s.teamsAt (2 * pair + 1) = [] then .next (s.modPair pair fun p => { p with gated := true }) else .next s

end Sys2Proof.Machine
end

