-- ==== Sys2Proof/Machine/Debug.lean ====
section
/-! DEFINITION. Debug blocks: sessions, watchpoints, sampling and the lane-cycle record (R327, R329 to R331, R333). -/

namespace Sys2Proof.Machine

/-- The ASID of context i of a partition; 0 where its record is not valid (R287). -/
def State.asidOf (s : State) (part i : Nat) : Nat :=
  let r := (s.partition part).ctxBase.toNat + 64 * i
  if s.readNat r 1 % 2 = 1 then s.readNat (r + 8) 2 else 0

/-- A value that TCTL takes: reserved bits zero, SLOG2 8 to 20, RLOG2 10 to 20 (R327). -/
def tctlTakes (w : W64) : Bool :=
  decide (bits w 63 21 = 0) && decide (bits w 7 5 = 0) && decide (8 ≤ bits w 12 8) && decide (bits w 12 8 ≤ 20) && decide (10 ≤ bits w 20 16)
    && decide (bits w 20 16 ≤ 20)

/-- SESSION_OPEN: a write of TCTL with OPEN = 1 (R327, R329, R330). -/
def execSessionOpen (part ctx : Nat) (w : W64) (s : State) : Next :=
  .next (s.vf part fun u =>
    if !bit w 0 || !tctlTakes w || decide (64 ≤ ctx) then u
    else
      let s1 := u.modDebug part ctx fun d =>
        { d with tctl := w, sinkWr := 0, sinkRd := 0, lost := 0, dropped := 0, scur := d.sper, sinceChange := 0, sampled := [] }
      s1.sink part (s1.asidOf part ctx) ctx (plainRec 0x08 0 0))

/-- The sink of a context is above half full (R329). -/
def Debug.aboveHalf (d : Debug) : Bool := decide (2 * (d.sinkWr - d.sinkRd).toNat > d.sinkSize)

/-- A debug block's register written: vector 2 fires where the write puts the sink above half full (R341). -/
def State.writeDebug (s : State) (part ctx : Nat) (f : Debug → Debug) : State :=
  let s1 := s.modDebug part ctx f
  if (s1.debugOf part ctx).aboveHalf && !(s.debugOf part ctx).aboveHalf then s1.fire (part + 1) 2 else s1

/-- SESSION_CLOSE: a write of TCTL with OPEN = 0; an open session gets its last record (R327, R329). -/
def execSessionClose (part ctx : Nat) (w : W64) (s : State) : Next :=
  .next (s.vf part fun u =>
    if bit w 0 || !tctlTakes w || decide (64 ≤ ctx) then u
    else
      let s1 := if (u.debugOf part ctx).isOpen then u.sink part (u.asidOf part ctx) ctx (plainRec 0x09 0 0) else u
      s1.writeDebug part ctx fun d => { d with tctl := w })

/-- LOST_CLEAR (R327). -/
def execLostClear (part ctx : Nat) (s : State) : Next := .next (s.vf part fun u => u.modDebug part ctx fun d => { d with lost := 0 })

/-- A watchpoint of a debug block (R327). -/
def Debug.watch (d : Debug) (k : Nat) : Watch := (Tbl.find? d.wp k).getD Watch.reset

/-- The bytes of a watchpoint's range (R327). -/
def Watch.size (x : Watch) : Nat := 16 * 2 ^ bits x.ctl 1 0
/-- An address that WPADDR takes: tag 0x0 to 0x2, a multiple of the size (R327). -/
def Watch.takesAddr (x : Watch) (a : W64) : Bool := decide (tagOf a ≤ 2) && tagOk a && decide (a.toNat % x.size = 0)
/-- A mask that WPMASK takes: no bit at or above the size (R327). -/
def Watch.takesMask (x : Watch) (m : W64) : Bool := decide (m.toNat < 2 ^ x.size)
/-- A value that WPCTL takes: reserved bits zero, and no reserved size (R327). -/
def ctlTakes (w : W64) : Bool := decide (bits w 63 13 = 0) && decide (bits w 7 2 = 0) && decide (bits w 1 0 ≤ 2)
/-- A watchpoint's registers agree, as arming it asks (R327). -/
def Watch.formed (x : Watch) : Bool := ctlTakes x.ctl && x.takesAddr x.addr && x.takesMask x.mask

/-- The location that a watched address translates to; none where it does not (R327). -/
def State.watchLoc (s : State) (part asid : Nat) (addr : W64) : Option Nat :=
  match s.walk (dieUnit ((s.diesOf part).headD 0)) part asid (bits addr 51 0) with
  | .leaf pte big => some (s.leafPlace part pte big (bits addr 51 0)).loc
  | _ => none

/-- WATCHPOINT_ARM: a write of WPCTL with V = 1 translates WPADDR and holds the physical line (R327). -/
def execWatchpointArm (part ctx j : Nat) (w : W64) (s : State) : Next :=
  .next (s.vf part fun u =>
    let x := { (u.debugOf part ctx).watch j with ctl := w }
    if !bit w 8 || !x.formed || decide (64 ≤ ctx) || decide (4 ≤ j) then u
    else u.modDebug part ctx fun d => { d with wp := Tbl.ins d.wp j { x with loc := u.watchLoc part (u.asidOf part ctx) x.addr } })

/-- When a cluster's next sample is due: SCUR µs after its last one, or after a whole number of such periods in which it took none; its first one at once
(R330; DESIGN CHOICE, log entry 22). -/
def Debug.sampleAt (d : Debug) (cluster now : Nat) : Nat :=
  match Tbl.find? d.sampled cluster with
  | some t => let p := max 1 (d.scur.toNat * 1000); t + p * max 1 ((now - t + p - 1) / p)
  | none => now

/-- A cluster's sample is due (R330). -/
def Debug.sampleDue (d : Debug) (cluster now : Nat) : Bool := decide (now = d.sampleAt cluster now)

/-- SAMPLE, once in each SCUR µs: a cluster with a resident team of the context looks at its next rail; whether a beat was issued there in this clock is
a free number (R330, log entry 2). -/
def execSample (cluster part ctx : Nat) (s : State) : Next :=
  let asid := s.asidOf part ctx
  let d := s.debugOf part ctx
  let here := s.teams.any fun e => e.2.part == part && e.2.asid == asid && decide (e.2.cluster = some cluster)
  if !bit d.tctl 0 || !bit d.tctl 1 || !here || !d.sampleDue cluster s.dtime then .next s
  else
    let r := Tbl.get 0 s.sampleRail cluster
    let s0 := s.modDebug part ctx fun d => { d with sampled := Tbl.ins d.sampled cluster s.dtime }
    let s1 := { s0 with sampleRail := Tbl.put 0 s0.sampleRail cluster ((r + 1) % 32), fresh := s0.fresh + 1 }
    match Tbl.find? s.lastBeat (cluster * 32 + r) with
    | none => .next s1
    | some m => match s.team m.a.team with
      | none => .next s1
      | some t =>
        if t.part == part && t.asid == asid && decide (Config.freeNat s.fresh % 2 = 0) then
          .next (s1.trace part asid { kind := 0x01, eng := 0, ctl := false, group := m.a.who, slot := t.slot, site := m.site, p0 := m.act, p1 := m.n })
        else .next s1

/-- LCR_CLEAR: a write to a counter of a bin clears it; clusters outside the partition take none (R331, R338). -/
def execLcrClear (part cluster bin ctr : Nat) (s : State) : Next :=
  .next (s.vf part fun u =>
    if (u.diesOf part).contains (dieOf cluster) && decide (bin < 16) && decide (2 ≤ ctr) && decide (ctr ≤ 6) then
      { u with lcr := Tbl.put 0 u.lcr ((cluster * 16 + bin) * 8 + ctr) 0 }
    else u)

end Sys2Proof.Machine
end

