-- ==== Sys2Proof/Machine/Float.lean ====
section
/-! DEFINITION. Floating-point instructions and conversions (R105 to R118). -/

namespace Sys2Proof.Machine

/-- FADD (R111). -/
def execFadd (f : Fields) (s : State) : Next :=
  laneOp (.fadd f) f false (fun v => resF (fpAdd f.ty (fpMod f.rm f.md) false v.a v.b)) s

/-- FSUB (R111). -/
def execFsub (f : Fields) (s : State) : Next :=
  laneOp (.fsub f) f false (fun v => resF (fpAdd f.ty (fpMod f.rm f.md) true v.a v.b)) s

/-- FMUL (R111). -/
def execFmul (f : Fields) (s : State) : Next :=
  laneOp (.fmul f) f false (fun v => resF (fpMul f.ty (fpMod f.rm f.md) v.a v.b)) s

/-- FFMA (R111). -/
def execFfma (f : Fields) (s : State) : Next :=
  laneOp (.ffma f) f false (fun v => resF (fpFma f.ty (fpMod f.rm f.md) v.a v.b v.c)) s

/-- FMIN (R112). -/
def execFmin (f : Fields) (s : State) : Next :=
  laneOp (.fmin f) f false (fun v => resF (fpMinMax f.ty (fpMod f.rm f.md) false v.a v.b)) s

/-- FMAX (R112). -/
def execFmax (f : Fields) (s : State) : Next :=
  laneOp (.fmax f) f false (fun v => resF (fpMinMax f.ty (fpMod f.rm f.md) true v.a v.b)) s

/-- FSETP (R112). -/
def execFsetp (f : Fields) (s : State) : Next :=
  laneOp (.fsetp f) f false (fun v => (fun r => resP r.1 r.2) (fpCompare f.fn f.ty (fpMod f.rm f.md) v.a v.b)) s

/-- FCLS (R112). -/
def execFcls (f : Fields) (s : State) : Next :=
  laneOp (.fcls f) f false (fun v => resV (fpClass f.ty (fpMod f.rm f.md) v.a)) s

/-- FRCP (R113); its destination is empty until the result lands (R54). -/
def execFrcp (f : Fields) (s : State) : Next :=
  laneOp (.frcp f) f true (fun v => resF (fpElem .rcp f.ty (fpMod f.rm f.md) v.a)) s

/-- FRSQ (R113); its destination is empty until the result lands (R54). -/
def execFrsq (f : Fields) (s : State) : Next :=
  laneOp (.frsq f) f true (fun v => resF (fpElem .rsq f.ty (fpMod f.rm f.md) v.a)) s

/-- FSQRT (R113); its destination is empty until the result lands (R54). -/
def execFsqrt (f : Fields) (s : State) : Next :=
  laneOp (.fsqrt f) f true (fun v => resF (fpElem .sqrt f.ty (fpMod f.rm f.md) v.a)) s

/-- FEXP2 (R113); its destination is empty until the result lands (R54). -/
def execFexp2 (f : Fields) (s : State) : Next :=
  laneOp (.fexp2 f) f true (fun v => resF (fpElem .exp2 f.ty (fpMod f.rm f.md) v.a)) s

/-- FLOG2 (R113); its destination is empty until the result lands (R54). -/
def execFlog2 (f : Fields) (s : State) : Next :=
  laneOp (.flog2 f) f true (fun v => resF (fpElem .log2 f.ty (fpMod f.rm f.md) v.a)) s

/-- FTANH (R113); its destination is empty until the result lands (R54). -/
def execFtanh (f : Fields) (s : State) : Next :=
  laneOp (.ftanh f) f true (fun v => resF (fpElem .tanh f.ty (fpMod f.rm f.md) v.a)) s

/-- HADD2 (R114). -/
def execHadd2 (f : Fields) (s : State) : Next :=
  laneOp (.hadd2 f) f false (fun v => resF (fpHadd2 f.ty (fpMod f.rm f.md) v.a v.b)) s

/-- HMUL2 (R114). -/
def execHmul2 (f : Fields) (s : State) : Next :=
  laneOp (.hmul2 f) f false (fun v => resF (fpHmul2 f.ty (fpMod f.rm f.md) v.a v.b)) s

/-- HFMA2 (R114). -/
def execHfma2 (f : Fields) (s : State) : Next :=
  laneOp (.hfma2 f) f false (fun v => resF (fpHfma2 f.ty (fpMod f.rm f.md) v.a v.b v.c)) s

/-- FDP2 (R114). -/
def execFdp2 (f : Fields) (s : State) : Next :=
  laneOp (.fdp2 f) f false (fun v => resF (fpFdp2 f.ty (fpMod f.rm f.md) v.a v.b v.c)) s

/-- CVT (R116, R117). -/
def execCvt (f : Fields) (s : State) : Next :=
  laneOp (.cvt f) f false (fun v => resF (fpCvt f.ty (tyOf f.fn) (fpMod f.rm f.md) f.sat v.a)) s

/-- The result of CVTS in a lane: a pack to a slot that a word does not have leaves D as it is (R118). -/
def cvtsRes (f : Fields) (v : Vals) : Res :=
  let fm := f.fn.toNat % 8
  if f.fn.getLsbD 3 then resF (cvtsUnpack fm (fpMod f.rm f.md) v.a v.b v.c)
  else if cvtsInRange fm v.c then resF (cvtsPack fm (fpMod f.rm f.md) v.d v.a v.b v.c)
  else { resV v.d with keep := true }

/-- CVTS (R118). -/
def execCvts (f : Fields) (s : State) : Next := laneOp (.cvts f) f false (cvtsRes f) s

/-- FRND (R115). -/
def execFrnd (f : Fields) (s : State) : Next :=
  laneOp (.frnd f) f false (fun v => resF (fpRound f.ty (fpMod f.rm f.md) v.a)) s

/-- FSCALE (R115). -/
def execFscale (f : Fields) (s : State) : Next :=
  laneOp (.fscale f) f false (fun v => resF (fpScale f.ty (fpMod f.rm f.md) v.a v.b)) s

end Sys2Proof.Machine
end

