-- ==== Sys2Proof/Machine/Host.lean ====
section
/-! DEFINITION. The host's window and registers (R338 to R341), failed requests (R343), peers (R345, R346), attestation (R349), reset and boot (R3,
R347, R348), and errors (R350, R351). -/

namespace Sys2Proof.Machine

/-! ### VF BAR 4 (R338, R340) -/

/-- The location of an offset of BAR 4; none beyond a die's HBM or the partition's dies (R338, log entry 15). -/
def State.barLoc (s : State) (part off : Nat) : Option Nat :=
  match (s.diesOf part)[off / 2 ^ 37]? with
  | some d => if off % 2 ^ 37 < hbmBytes then some (locOf 0 (d * 2 ^ 37 + off % 2 ^ 37)) else none
  | none => none

/-- Bytes of a partition's memory written in aligned parts of 8, at their slices; parts beyond the HBM are dropped (R338, R340). -/
def State.barWrite (s : State) (part off : Nat) (bs : List Byte) : Nat → State
  | 0 => s
  | fuel + 1 =>
    if bs = [] then s
    else
      let n := min bs.length (8 - off % 8)
      let s1 := match s.barLoc part off with
        | some l => (s.writeAt (physPlace (l % 2 ^ 64)) (bs.take n) none).1
        | none => s
      s1.barWrite part (off + n) (bs.drop n) fuel

/-- The line of an offset given up by its holder (R153). -/
def State.barRecall (s : State) (part off : Nat) : State :=
  match s.barLoc part off with | some l => s.recall (l / 128) none | none => s

/-- n bytes of a partition's memory; zeros beyond the HBM (R338). -/
def State.barRead (s : State) (part off n : Nat) : List Byte :=
  (List.range n).map fun k => match s.barLoc part (off + k) with | some l => Tbl.get 0 s.mem l | none => 0

/-- The lines of n bytes from an offset on given up by their holders (R153). -/
def State.barRecalls (s : State) (part off n : Nat) : State :=
  (List.range (n / 128 + 2)).foldl (fun u k => if 128 * k < n + off % 128 then u.barRecall part (off + 128 * k) else u) s

/-- HOST_WRITE (R340). -/
def execHostWrite (part off : Nat) (bytes : List Byte) (s : State) : Next :=
  .next (s.vf part fun u => u.barWrite part off bytes (bytes.length + 1))

/-- HOST_READ: the bytes read, zeros while the partition is not live (R338, R340). -/
def execHostRead (part off n : Nat) (s : State) : Next :=
  if (s.partition part).live then .next { s.barRecalls part off n with hostData := s.barRead part off n }
  else .next { s with hostData := List.replicate n 0 }

/-! ### Registers (R338, R339) -/

/-- MDOOR: a doorbell event goes to the DMC of every die (R305, R339). -/
def execMdoor (w : W64) (s : State) : Next := .next ({ s with mdoor := w }.dmcEvent)

/-- CECNT_CLEAR (R339). -/
def execCecntClear (s : State) : Next := .next { s with cecnt := 0 }

/-- Some partition is live. -/
def State.anyLive (s : State) : Bool := s.parts.any fun e => e.2.live

/-- A register of the power window written (R311). The curve points, FSPT and HYST are ignored while EN is 1; PMAX, GRACE and HOLD outside their ranges
are. PCTL is written by POWER_ENABLE and POWER_DISABLE. -/
def Pwc.writeReg (p : Pwc) (off : Nat) (w : W64) : Pwc :=
  let within := fun (lo hi : Nat) => decide (lo ≤ w.toNat) && decide (w.toNat ≤ hi)
  match off with
  | 0x008 => if within 1000 7200 then { p with pmax := w } else p
  | 0x010 => if within 100 8000 then { p with grace := w } else p
  | 0x018 => if within 100 60000 then { p with hold := w } else p
  | 0x020 => if p.en then p else { p with hyst := lowBits 32 w }
  | 0x028 => if p.en then p else { p with fspt := w }
  | 0x040 => { p with therm := lowBits 16 w }
  | _ =>
    if p.en || decide (off % 8 ≠ 0) then p
    else if 0x080 ≤ off ∧ off < 0x100 then { p with fpt := Tbl.put 0 p.fpt ((off - 0x080) / 8) w }
    else if 0x100 ≤ off ∧ off < 0x180 then { p with vpt := Tbl.put 0 p.vpt ((off - 0x100) / 8) w }
    else p

/-- A register of PF BAR 0 written (R339); vector 0 fires where ELRD comes to differ from ELWR (R341). -/
def State.writePf (s : State) (off : Nat) (w : W64) : State :=
  if off < 0x1000 then { s with pwc := s.pwc.writeReg off w }
  else match off with
    | 0x1000 => if s.anyLive then s else { s with devNum := lowBits 10 w }
    | 0x1010 => { s with elBase := w }
    | 0x1018 => { s with elCtl := lowBits 5 w }
    | 0x1028 => let s1 := { s with elRd := w }; if s.elWr = s.elRd ∧ w ≠ s.elWr then s1.fire 0 0 else s1
    | _ => s

/-- A peer table entry written (R345). -/
def State.writePeer (s : State) (off : Nat) (w : W64) : State :=
  if off < 0x2000 * 12 ∧ off % 8 = 0 then
    s.modPart (off / 0x2000) fun p => { p with peers := Tbl.put 0 p.peers (off % 0x2000 / 8) (w &&& 0xFFFFFFFF0000003F#64) }
  else s

/-- A watchpoint's or a session's register written; a value that breaks a reserved field, a range or an alignment is ignored. TCTL, LOST and a WPCTL with
V = 1 have rows of their own (R327). -/
def Debug.writeReg (d : Debug) (r : Nat) (w : W64) : Debug :=
  if r < 0x80 then
    let k := r / 0x20
    let x := d.watch k
    match r % 0x20 with
    | 0x00 => if x.takesAddr w then { d with wp := Tbl.ins d.wp k { x with addr := w } } else d
    | 0x08 => if x.takesMask w then { d with wp := Tbl.ins d.wp k { x with mask := w } } else d
    | 0x10 => if bit w 8 || !ctlTakes w then d else { d with wp := Tbl.ins d.wp k { x with ctl := w } }
    | _ => d
  else match r with
    | 0x88 => if w.toNat % 4096 = 0 ∧ bits w 63 52 = 0 then { d with sinkBase := w } else d
    | 0x98 => { d with sinkRd := w }
    | 0xA0 => if 1 ≤ w.toNat ∧ w.toNat ≤ 1000000 then { d with sper := w } else d
    | 0xB8 => { d with bkTag := w }
    | _ => d

/-- Eight bytes of ATNONCE written (R349). -/
def Mailbox.writeNonce (m : Mailbox) (k : Nat) (w : W64) : Mailbox :=
  { m with nonce := m.nonce.take (8 * k) ++ toBytes 8 w.toNat ++ m.nonce.drop (8 * k + 8) }

/-- A register of VF BAR 0 written, but for those with a row of their own (R270, R294, R327, R338, R349). -/
def State.writeVf (s : State) (part off : Nat) (w : W64) : State :=
  if off < 0x1000 then
    if off % 64 = 0 then s.modQueue part (off / 64) fun h => { h with base := w } else s
  else if off < 0x2000 then
    match off with
    | 0x1000 => s.modPart part fun p => { p with fqBase := w }
    | 0x1008 => s.modPart part fun p => { p with fqCtl := lowBits 5 w }
    | _ => s
  else if off < 0x6000 then s.writeDebug part ((off - 0x2000) / 0x100) fun d => d.writeReg (off % 0x100) w
  else if off < 0x6020 then s.modPart part fun p => { p with mail := p.mail.writeNonce ((off - 0x6000) / 8) w }
  else if off = 0x6020 then s.modPart part fun p => { p with mail := { p.mail with dst := w } }
  else s

/-- BRANGE or BHI of a bin written (R331, R338). -/
def State.writeLcr (s : State) (part off : Nat) (w : W64) : State :=
  let cl := off / 0x400
  let bin := off % 0x400 / 0x40
  let key := (cl * 16 + bin) * 8
  if !(s.diesOf part).contains (dieOf cl) then s
  else match off % 0x40 with
    | 0x00 => { s with lcr := Tbl.put 0 s.lcr key (w &&& 0x8000FFFF0FFFFFFF#64) }
    | 0x08 => { s with lcr := Tbl.put 0 s.lcr (key + 1) (lowBits 28 w) }
    | _ => s

/-- REGISTER_WRITE: a write of 8 aligned bytes to a register without a row of its own, of the PF or of a partition's VF (R311, R338, R339). -/
def execRegisterWrite (vf : Option Nat) (bar off : Nat) (w : W64) (s : State) : Next :=
  if off % 8 ≠ 0 then .next s
  else match vf with
    | none => .next (if bar = 0 then s.writePf off w else if bar = 2 then s.writePeer off w else s)
    | some part => .next (s.vf part fun u => if bar = 0 then u.writeVf part off w else if bar = 2 then u.writeLcr part off w else u)

/-- A link delivered a valid frame in the last 5 ms (R311). -/
def linkUp (last : Option Nat) (now : Nat) : Bool := last.any fun t => decide (now < t + 5000000)

/-- PSTAT (R311). -/
def Pwc.stat (p : Pwc) (now : Nat) : Nat :=
  p.lastSeq * 2 ^ 48 + b2n p.capMiss * 2 ^ 27 + b2n (linkUp p.linkB now) * 2 ^ 26 + b2n (linkUp p.linkA now) * 2 ^ 25 + b2n p.failsafe * 2 ^ 24
    + p.mask.toNat * 2 ^ 16 + p.cap

/-- What a read of a PF BAR 0 register gives (R311, R339). -/
def State.readPf (s : State) (off : Nat) : W64 :=
  let p := s.pwc
  match off with
  | 0x000 => p.pctl | 0x008 => p.pmax | 0x010 => p.grace | 0x018 => p.hold | 0x020 => p.hyst | 0x028 => p.fspt
  | 0x030 => BitVec.ofNat 64 (p.stat s.dtime)
  | 0x038 => BitVec.ofNat 64 (s.groupLimit * 256 + s.teamLimit)
  | 0x040 => p.therm
  | 0x1000 => s.devNum | 0x1008 => s.bootStat | 0x1010 => s.elBase | 0x1018 => s.elCtl | 0x1020 => s.elWr | 0x1028 => s.elRd | 0x1030 => s.cecnt
  | _ =>
    if off % 8 ≠ 0 then 0
    else if 0x080 ≤ off ∧ off < 0x100 then Tbl.get 0 p.fpt ((off - 0x080) / 8)
    else if 0x100 ≤ off ∧ off < 0x180 then Tbl.get 0 p.vpt ((off - 0x100) / 8)
    else 0

/-- What a read of a host queue's register gives (R270). -/
def HostQ.readReg (h : HostQ) (r : Nat) : W64 :=
  match r with | 0x00 => h.base | 0x08 => h.ctl | 0x10 => h.rd | 0x18 => h.door | 0x20 => h.stat | _ => 0

/-- What a read of a debug block's register gives (R327). -/
def Debug.readReg (d : Debug) (r : Nat) : W64 :=
  if r < 0x80 then
    match r % 0x20 with | 0x00 => (d.watch (r / 0x20)).addr | 0x08 => (d.watch (r / 0x20)).mask | 0x10 => (d.watch (r / 0x20)).ctl | _ => 0
  else match r with
    | 0x80 => d.tctl | 0x88 => d.sinkBase | 0x90 => d.sinkWr | 0x98 => d.sinkRd | 0xA0 => d.sper | 0xA8 => d.scur | 0xB0 => d.lost | 0xB8 => d.bkTag
    | _ => 0

/-- What a read of a VF BAR 0 register gives; zeros while the partition is not live (R338). -/
def State.readVf (s : State) (part off : Nat) : W64 :=
  let p := s.partition part
  if !p.live || decide (off % 8 ≠ 0) then 0
  else if off < 0x1000 then (s.hostq part (off / 64)).readReg (off % 64)
  else if off < 0x2000 then match off with | 0x1000 => p.fqBase | 0x1008 => p.fqCtl | 0x1010 => p.fqWr | 0x1018 => p.fqRd | _ => 0
  else if off < 0x6000 then (s.debugOf part ((off - 0x2000) / 0x100)).readReg (off % 0x100)
  else match off with | 0x6020 => p.mail.dst | 0x6030 => BitVec.ofNat 64 p.mail.stat | _ => 0

/-- What a read of PF BAR 2 gives: a peer table entry (R338, R345). -/
def State.readPeer (s : State) (off : Nat) : W64 :=
  if off < 0x2000 * 12 ∧ off % 8 = 0 then Tbl.get 0 (s.partition (off / 0x2000)).peers (off % 0x2000 / 8) else 0

/-- What a read of VF BAR 2 gives: BRANGE, BHI or a counter of a bin; zero for a cluster outside the partition, and while that is not live (R331,
R338). -/
def State.readLcr (s : State) (part off : Nat) : W64 :=
  let cl := off / 0x400
  let r := off % 0x40 / 8
  if !(s.partition part).live || !(s.diesOf part).contains (dieOf cl) || decide (off % 8 ≠ 0) || decide (6 < r) then 0
  else Tbl.get 0 s.lcr ((cl * 16 + off % 0x400 / 0x40) * 8 + r)

/-- A host's read of a register: 8 bytes come back (R338). -/
def State.registerRead (s : State) (vf : Option Nat) (bar off : Nat) : State :=
  let w : W64 := match vf with
    | none => if bar = 0 then s.readPf off else if bar = 2 then s.readPeer off else 0
    | some part => if bar = 0 then s.readVf part off else if bar = 2 then s.readLcr part off else 0
  { s with hostData := toBytes 8 w.toNat }

/-! ### Failed requests and errors (R343, R350, R351) -/

/-- An access of an agent meets an uncorrectable error: its context ends with code 0x18, and the error is logged with its physical address (R291, R343,
R351). -/
def State.accessError (s : State) (a : AgentId) (o : Option MemOp) (addr : Nat) : State :=
  match s.team a.team, s.agent a with
  | some t, some x =>
    let r := errorAt t a.who x o
    (s.endContext t.part t.asid r.encode).logError { r with addr := BitVec.ofNat 64 addr }
  | _, _ => s

/-- The access of an agent that names a byte by its physical address. -/
def Agent.opAt (x : Agent) (addr : Nat) : Option MemOp :=
  (List.find? (fun e : Nat × MemOp => decide (e.2.place.loc % 2 ^ 64 ≤ addr) && decide (addr < e.2.place.loc % 2 ^ 64 + e.2.size)) x.ops).map (·.2)

/-- An access of an agent to such a place that is on its way. -/
def Agent.remoteOp (x : Agent) : Option MemOp := (List.find? (fun e : Nat × MemOp => e.2.place.remote) x.ops).map (·.2)

/-- The addresses of the accesses that a copy has still to make: source lines not read, and destination lines not landed (R188, R191). -/
def Cmd.copyLeft (c : Cmd) (k : CopyCmd) : List W64 :=
  let ls := destLines k.slices
  ((List.range ((if k.mask = 0 then 1 else 8) * ls.length)).filter k.wants).flatMap fun key =>
    let line := ls.getD (key % ls.length) 0
    let need := (rowsAt k line).flatMap fun r => rowLines line r ++ rowElems c r
    copyAddr k line (key / ls.length) :: (need.filter fun l => (Tbl.find? c.src l).isNone).map fun l => BitVec.ofNat 64 (128 * l)

/-- The addresses of the accesses that a GE command has still to make: its list, its elements, a scatter's data and its status (R199). -/
def Cmd.geLeft (c : Cmd) (g : GeCmd) : List W64 :=
  let unread := fun (ls : List Nat) => (ls.filter fun l => (Tbl.find? c.src l).isNone).map fun l => BitVec.ofNat 64 (128 * l)
  (if g.idx.isNone then unread (spanLines g.list.toNat (4 * g.count)) else []) ++
    ((g.parts.filter fun p => !g.isDone p.key).flatMap fun p =>
      (p.addr.toList.map fun a => BitVec.ofNat 64 a) ++ (if g.kind = 0 then [] else unread (spanLines (g.data.toNat + p.off) p.len))) ++
    ((g.statusParts.filter fun p => !g.isDone p.key).filterMap fun p => p.addr.map fun a => BitVec.ofNat 64 a)

/-- The addresses of the memory writes that a drain has still to make (R247). -/
def State.oxLeft (s : State) (team : Nat) (k : OxCmd) : List W64 :=
  match s.team team with
  | none => []
  | some t => match drainWork t k with
    | some (ps, queue, _) => (ps.drop (k.landed queue)).map fun p => BitVec.ofNat 64 p.1
    | none => []

/-- Some access that a command has still to make goes out of the module (R343). -/
def State.cmdRemote (s : State) (c : Cmd) : Bool :=
  let out := fun (addr : W64) => match s.engPlace c addr false with | .ok p => p.remote | _ => false
  match c.kind, c.owner with
  | .copy k, _ => (c.copyLeft k).any out
  | .ge g, _ => (c.geLeft g).any out
  | .ox k, .agent team _ => (s.oxLeft team k).any out
  | .ox _, .host _ _ _ => false

/-- REQUEST_TIMEOUT: a request over PCI Express or CXL, or one that a peer refuses, fails or has no completion within 10 ms (R343, R345); that of a
completion word leaves the word unwritten (R282). -/
def execRequestTimeout (x : Victim) (s : State) : Next :=
  match x with
  | .agent a => match (s.agent a).bind Agent.remoteOp with
    | some o => .next (s.accessError a (some o) (o.place.loc % 2 ^ 64))
    | none => .next s
  | .command n => match Tbl.find? s.cmds n with
    | some c => if c.runs && s.cmdRemote c then .next (s.endAny n 0x18) else .next s
    | none => .next s
  | .completion grid => match (Tbl.find? s.grids grid).map s.completionPlace with
    | some (.ok p) => .next (if p.remote then s.endGridUnwritten grid else s)
    | _ => .next s

/-- CORRECTED_ERROR (R350). -/
def execCorrectedError (s : State) : Next := .next { s with cecnt := s.cecnt + 1 }

/-- PATROL_SCRUB: a line is read and its stored word stays as it is; what it finds are rows of their own (R350, R351). -/
def execPatrolScrub (_line : Nat) (s : State) : Next := .next s

/-- The engine that runs a command (R9). -/
def Cmd.engine (c : Cmd) : Nat := match c.kind with | .copy _ => 3 | .ge _ => 4 | .ox _ => 2

/-- The record of an uncorrectable error in the PF error log that no site is behind (R351). -/
def State.logFound (s : State) (eng addr part asid : Nat) : State :=
  s.logError { code := 0x18, eng := eng, group := 0, ctl := false, slot := 0, asid := asid, part := part, restart := 0, write := false, replay := false,
               site := ⟨0, 0⟩, addr := BitVec.ofNat 64 addr, lanes := 0 }

/-- The record with which a context ends for an error that no agent met. -/
def errorRec (eng part asid addr : Nat) : Rec :=
  { code := 0x18, eng := eng, group := 0, ctl := false, slot := 0, asid := asid, part := part, restart := 0, write := false, replay := false,
    site := ⟨0, 0⟩, addr := BitVec.ofNat 64 addr, lanes := 0 }

/-- The valid contexts of a partition, by ASID (R287). -/
def State.asids (s : State) (part : Nat) : List Nat :=
  (List.range 64).filterMap fun i =>
    let r := (s.partition part).ctxBase.toNat + 64 * i
    if s.readNat r 1 % 2 = 1 then some (s.readNat (r + 8) 2) else none

/-- The contexts of the partitions and of the firmware: partition and ASID. -/
def State.contexts (s : State) : List (Nat × Nat) :=
  (List.range 12).flatMap (fun p => (s.asids p).map fun a => (p, a)) ++ s.fwTable.map fun e => (12 + e.1, 0)

/-- A context maps a page with ILV 0 (R137, R140). -/
def State.mapsIlv0 (s : State) (part asid : Nat) : Bool :=
  match s.ctx part asid with
  | none => false
  | some c => (s.smallBelow [c.root] ++ s.bigBelow [c.root]).any fun e => decide (pteIlv e = 0)

/-- Contexts that end for an error in an LLC tag or monitor entry: those of the slice's partition, and those that map a page with ILV 0 (R351). -/
def State.tagVictims (s : State) (part : Nat) : List (Nat × Nat) := s.contexts.filter fun e => decide (e.1 = part) || s.mapsIlv0 e.1 e.2

/-- The physical address of the record that a stopped agent's writes go to; 0 where it does not translate (R288, R351). -/
def State.recordAddr (s : State) (t : Team) (who : Nat) : Nat :=
  match s.ctx t.part t.asid with
  | none => 0
  | some c =>
    let va := (tcbVa c t.slot + (if who = ctlWho then 0x1000 else 32 * who)) % 2 ^ 52
    match s.walk (t.cluster.getD 0) t.part t.asid va with
    | .leaf pte big => (s.leafPlace t.part pte big va).loc % 2 ^ 64
    | _ => 0

/-- An error on the write of a stop's record or DISP: no disposition can reach the agent, and its context ends with the record of the stop; the log names
the agent's site (R20, R289, R351). -/
def State.stopUnwritten (s : State) (a : AgentId) : State :=
  match s.team a.team, s.agent a with
  | some t, some x => match x.stop with
    | none => s
    | some st =>
      if a.who = ctlWho ∨ t.stopHeld a.who = true then
        (s.endContext t.part t.asid st.record).logError
          { recOf t a.who x { code := 0x18, how := .beat, lanes := 0, addr := 0, write := true } with addr := BitVec.ofNat 64 (s.recordAddr t a.who) }
      else s
  | _, _ => s

/-- UNCORRECTABLE_ERROR: contained by its place, and logged (R282, R289, R351). A tag's or a monitor entry's error is the monitor's, engine 5 (log entry
51). An error without a consumer stays in its line; the number of its finder, which R9 leaves open, is a free value (log entry 2). -/
def execUncorrectableError (x : ErrPlace) (s : State) : Next :=
  match x with
  | .access a addr =>
    .next (s.accessError a ((s.agent a).bind fun g => g.opAt addr) addr)
  | .command n addr => match Tbl.find? s.cmds n with
    | some c =>
      if c.runs then .next ((s.endAny n 0x18).logError { cmdRec s c 0x18 c.engine addr false false with addr := BitVec.ofNat 64 addr }) else .next s
    | none => .next s
  | .stopRecord a => .next (s.stopUnwritten a)
  | .completion grid => match Tbl.find? s.grids grid with
    | some g => match s.completionPlace g with
      | .ok p =>
        if s.gridOver grid g && decide (g.launch.compAddr ≠ 0) then
          .next ((s.endGridUnwritten grid).logFound 6 (p.loc % 2 ^ 64) g.part g.asid)
        else .next s
      | .error _ => .next s
    | none => .next s
  | .teamState team addr => match s.team team with
    | some t =>
      if t.isEnded then .next s else .next ((s.endContext t.part t.asid (errorRec 0 t.part t.asid addr).encode).logFound 0 addr t.part t.asid)
    | none => .next s
  | .llcTag part addr =>
    let s1 := (s.tagVictims part).foldl (fun u e => u.endContext e.1 e.2 (errorRec 5 e.1 e.2 addr).encode) s
    .next (s1.logFound 5 addr part 0)
  | .noConsumer addr =>
    .next ({ s with fresh := s.fresh + 1, flaws := addr / 128 :: s.flaws }.logFound (Config.freeNat s.fresh % 10) addr 0 0)

/-! ### Peers (R345, R346) -/

/-- An access from a device's partition is accepted (R345). -/
def Part.acceptsPeer (p : Part) (dev srcPart : Nat) : Bool :=
  let e := Tbl.get (0 : W64) p.peers dev
  bit e 0 && bit e 5 && decide (bits e 4 1 = srcPart)

/-- The contexts of a partition with a debug block whose armed watchpoint of remote atomics matches n bytes at a location: the context's index, the
watchpoint's and the watched address of the access (R333). -/
def remoteWatch (p : Part) (loc n : Nat) : List (Nat × Nat × Nat) :=
  List.filterMap (fun e =>
    (([0, 1, 2, 3] : List Nat).findSome? fun k =>
      let w := e.2.watch k
      match w.loc with
      | some base =>
        if bit w.ctl 8 && bit w.ctl 12 && (List.range n).any (fun j =>
            decide (base ≤ loc + j) && decide (loc + j < base + 16 * 2 ^ bits w.ctl 1 0) && bit w.mask (loc + j - base)) then
          some (e.1, k, bits w.addr 51 0 + loc - base)
        else none
      | none => none)) p.debug

/-- A remote atomic's watchpoint reports, after it has performed (R333). -/
def State.remoteWatched (s : State) (part dev loc n : Nat) : State :=
  (remoteWatch (s.partition part) loc n).foldl (fun u e =>
    let asid := u.asidOf part e.1
    let r : Rec := { code := 0x13, eng := 7, group := 0, ctl := false, slot := 0, asid := asid, part := part, restart := 0, write := false, replay := false,
                     site := ⟨0, 0⟩, addr := BitVec.ofNat 64 e.2.2, lanes := BitVec.ofNat 32 dev }
    let u1 := u.trace part asid { kind := 0x05, eng := 7, ctl := false, group := 0, slot := 0, site := ⟨0, 0⟩,
                                  p0 := BitVec.ofNat 32 (e.2.1 + 12 + dev * 65536), p1 := BitVec.ofNat 64 e.2.2 }
    u1.fqSend part { bytes := r.encode, replay := none }) s

/-- A read-modify-write of a peer at its slice (R151, R168, R346): the old value goes back. -/
def State.peerRmw (s : State) (part dev off w : Nat) (new : W64 → Option W64) : State :=
  match s.barLoc part off with
  | none => { s with peerData := some (List.replicate (w / 8) 0) }
  | some loc =>
    let s1 := s.recall (loc / 128) none
    let old := s1.read loc (w / 8)
    let s2 := match new (BitVec.ofNat 64 (ofBytes old)) with
      | some v => (s1.writeAt (physPlace (loc % 2 ^ 64)) (toBytes (w / 8) v.toNat) none).1
      | none => s1
    { s2.remoteWatched part dev loc (w / 8) with peerData := some old }

/-- PEER_ACCESS: an access of a peer device's partition to a partition of this one (R345, R346). -/
def execPeerAccess (dev srcPart part : Nat) (op : PeerOp) (s : State) : Next :=
  if !(s.partition part).acceptsPeer dev srcPart then .next { s with peerData := none }
  else match op with
    | .read off n => .next { s.barRecalls part off n with peerData := some (s.barRead part off n) }
    | .write off bytes => .next { s.barWrite part off bytes (bytes.length + 1) with peerData := some [] }
    | .atomic fn ty rm off v => .next (s.peerRmw part dev off (tyWidth ty) fun old => some (atomicNew fn ty rm old v).1)
    | .cas wide off expect new =>
      let w := if wide then 64 else 32
      .next (s.peerRmw part dev off w fun old => if lowBits w old = lowBits w expect then some (lowBits w new) else none)

/-! ### Attestation (R349) -/

/-- ATCMD: a write of 1 asks for a report; it is ignored while one is being made (R349). -/
def execAtcmd (part : Nat) (w : W64) (s : State) : Next :=
  .next (s.vf part fun u =>
    if !bit w 0 || decide ((u.partition part).mail.stat = 1) then u else u.modPart part fun p => { p with mail := { p.mail with stat := 1 } })

/-- A list cut or filled with zeros to n bytes. -/
def fitBytes (n : Nat) (l : List Byte) : List Byte := (l ++ List.replicate n 0).take n

/-- The measurement registers of a partition's dies, ascending (R349). -/
def State.measures (s : State) (part : Nat) : List Byte :=
  (s.diesOf part).flatMap fun d => [0, 1, 2, 3].flatMap fun i => (Tbl.find? (s.die d).mreg i).getD (List.replicate 64 0)

/-- The fused minimum security version of a stage, a number of two bytes (R347, R349). -/
def minVersion (stage : Nat) : Nat := Config.minVersion stage % 65536

/-- Bytes 0 to 255 of a report (R349). -/
def State.reportBody (s : State) (part : Nat) : List Byte :=
  let p := s.partition part
  toBytes 4 0x54524147 ++ toBytes 4 1 ++ toBytes 2 part ++ toBytes 2 (bits s.devNum 9 0) ++ toBytes 4 (bits p.pstate 11 0) ++ List.replicate 16 0
    ++ p.mail.nonce ++ shake256 Config.certChain ++ shake256 (s.measures part)
    ++ [1, 2, 3, 4].flatMap (fun g => toBytes 2 (minVersion g)) ++ List.replicate 56 0

/-- Bytes written to host memory at a bus address, line by line. -/
def State.busWrite (s : State) (addr : Nat) (bs : List Byte) : Nat → State
  | 0 => s
  | fuel + 1 =>
    if bs = [] then s
    else
      let n := min bs.length (128 - addr % 128)
      ((s.writeAt { loc := locOf 1 addr, owned := .slice, pte := 0, va := 0, slice := homeSlice (locOf 1 addr / 128) } (bs.take n) none).1).busWrite (addr + n) (bs.drop n) fuel

/-- ATTESTATION_REPORT: the signed report is written whole, then ATSTAT is 2; 3 where the buffer cannot be written (R341, R349). -/
def execAttestationReport (part : Nat) (ok : Bool) (s : State) : Next :=
  let m := (s.partition part).mail
  if m.stat ≠ 1 then .next s
  else
    let body := s.reportBody part
    let s1 := if ok then s.busWrite m.dst.toNat (body ++ fitBytes 1280 (Config.sign body)) 14 else s
    .next ((s1.modPart part fun p => { p with mail := { p.mail with stat := if ok then 2 else 3 } }).fire (part + 1) 3)

/-! ### Reset and boot (R3, R347, R348) -/

/-- Dies and stages in the order in which boot is judged (log entry 16). -/
def bootOrder : List (Nat × Nat) := [1, 2, 3, 4].flatMap fun stage => (List.range 12).map fun die => (stage, die)

/-- The digest of an image's header and body (R347, R348; log entry 93). -/
def imageDigest (image : List Byte) : List Byte := shake256 (Config.signedPart image)

/-- What verifying an image of a stage on a die gives: 0 accepted, 1 bad header, 2 bad signature, 3 version below the fused minimum (R339, R347). -/
def imageCheck (stage die : Nat) (image : List Byte) : Nat :=
  if !Config.headerOk stage image then 1
  else if !Config.signatureOk die (imageDigest image) image then 2
  else if Config.version image < minVersion stage then 3
  else 0

/-- Images verified and measured up to the first that fails (R347, R348). -/
def bootFrom (s : State) : List (Nat × Nat) → State
  | [] => { s with bootStat := 1 }
  | (stage, die) :: rest =>
    let image := (Tbl.find? s.flash stage).getD []
    match imageCheck stage die image with
    | 0 => bootFrom (s.extend die (stage - 1) (imageDigest image)) rest
    | cause => { s with bootStat := BitVec.ofNat 64 (cause * 65536 + die * 4096 + stage * 256) }

/-- What outlives a reset of the module: the memory of the host, the pool and peers, and the flash. -/
def State.outside (s : State) : State :=
  { State.reset with mem := s.mem.filter (fun e => decide (2 ^ 64 ≤ e.1) && decide (e.1 < 4 * 2 ^ 64)), flash := s.flash, agenda := s.agenda, fresh := s.fresh }

/-- POWER_ON_RESET: device time starts at 0 on every die, and every die boots; one whose copy of it cannot be synchronised is reported as failed, with
stage and code 0 (R3, R347; log entry 86). -/
def execPowerOnReset (s : State) : Next :=
  match (List.range 12).find? fun d => !Config.syncs d with
  | some d => .next { s.outside with bootStat := BitVec.ofNat 64 (d * 4096) }
  | none => .next (bootFrom s.outside bootOrder)

end Sys2Proof.Machine
end

