-- ==== Sys2Proof/Machine/Dispatch.lean ====
section
/-! DEFINITION. The meaning of every row of the opcode table, by its constructor. -/

namespace Sys2Proof.Machine

/-- What a row does: one beat of the form at which the current agent stands, or one step of an engine, slice, distributor, controller, host or
peer. -/
def exec (i : Instr) (s : State) : Host.Outcome State Fault Refusal :=
  match i with
  | .nop f => Sys2Proof.Machine.execNop f s
  | .j f => Sys2Proof.Machine.execJ f s
  | .jr f => Sys2Proof.Machine.execJr f s
  | .call f => Sys2Proof.Machine.execCall f s
  | .callr f => Sys2Proof.Machine.execCallr f s
  | .ret f => Sys2Proof.Machine.execRet f s
  | .exit f => Sys2Proof.Machine.execExit f s
  | .yield f => Sys2Proof.Machine.execYield f s
  | .bar f => Sys2Proof.Machine.execBar f s
  | .barn f => Sys2Proof.Machine.execBarn f s
  | .bara f => Sys2Proof.Machine.execBara f s
  | .wait f => Sys2Proof.Machine.execWait f s
  | .wtok f => Sys2Proof.Machine.execWtok f s
  | .trap f => Sys2Proof.Machine.execTrap f s
  | .brk f => Sys2Proof.Machine.execBrk f s
  | .launch f => Sys2Proof.Machine.execLaunch f s
  | .nap f => Sys2Proof.Machine.execNap f s
  | .add f => Sys2Proof.Machine.execAdd f s
  | .sub f => Sys2Proof.Machine.execSub f s
  | .mul f => Sys2Proof.Machine.execMul f s
  | .mulh f => Sys2Proof.Machine.execMulh f s
  | .mad f => Sys2Proof.Machine.execMad f s
  | .div f => Sys2Proof.Machine.execDiv f s
  | .rem f => Sys2Proof.Machine.execRem f s
  | .min f => Sys2Proof.Machine.execMin f s
  | .max f => Sys2Proof.Machine.execMax f s
  | .abs f => Sys2Proof.Machine.execAbs f s
  | .and f => Sys2Proof.Machine.execAnd f s
  | .or f => Sys2Proof.Machine.execOr f s
  | .xor f => Sys2Proof.Machine.execXor f s
  | .andn f => Sys2Proof.Machine.execAndn f s
  | .not f => Sys2Proof.Machine.execNot f s
  | .shl f => Sys2Proof.Machine.execShl f s
  | .shr f => Sys2Proof.Machine.execShr f s
  | .sar f => Sys2Proof.Machine.execSar f s
  | .rot f => Sys2Proof.Machine.execRot f s
  | .popc f => Sys2Proof.Machine.execPopc f s
  | .clz f => Sys2Proof.Machine.execClz f s
  | .ctz f => Sys2Proof.Machine.execCtz f s
  | .brev f => Sys2Proof.Machine.execBrev f s
  | .bfx f => Sys2Proof.Machine.execBfx f s
  | .bfi f => Sys2Proof.Machine.execBfi f s
  | .lea f => Sys2Proof.Machine.execLea f s
  | .sel f => Sys2Proof.Machine.execSel f s
  | .mov f => Sys2Proof.Machine.execMov f s
  | .setp f => Sys2Proof.Machine.execSetp f s
  | .plog f => Sys2Proof.Machine.execPlog f s
  | .addx f => Sys2Proof.Machine.execAddx f s
  | .idp4 f => Sys2Proof.Machine.execIdp4 f s
  | .fadd f => Sys2Proof.Machine.execFadd f s
  | .fsub f => Sys2Proof.Machine.execFsub f s
  | .fmul f => Sys2Proof.Machine.execFmul f s
  | .ffma f => Sys2Proof.Machine.execFfma f s
  | .fmin f => Sys2Proof.Machine.execFmin f s
  | .fmax f => Sys2Proof.Machine.execFmax f s
  | .fsetp f => Sys2Proof.Machine.execFsetp f s
  | .fcls f => Sys2Proof.Machine.execFcls f s
  | .frcp f => Sys2Proof.Machine.execFrcp f s
  | .frsq f => Sys2Proof.Machine.execFrsq f s
  | .fsqrt f => Sys2Proof.Machine.execFsqrt f s
  | .fexp2 f => Sys2Proof.Machine.execFexp2 f s
  | .flog2 f => Sys2Proof.Machine.execFlog2 f s
  | .ftanh f => Sys2Proof.Machine.execFtanh f s
  | .hadd2 f => Sys2Proof.Machine.execHadd2 f s
  | .hmul2 f => Sys2Proof.Machine.execHmul2 f s
  | .hfma2 f => Sys2Proof.Machine.execHfma2 f s
  | .fdp2 f => Sys2Proof.Machine.execFdp2 f s
  | .cvt f => Sys2Proof.Machine.execCvt f s
  | .cvts f => Sys2Proof.Machine.execCvts f s
  | .frnd f => Sys2Proof.Machine.execFrnd f s
  | .fscale f => Sys2Proof.Machine.execFscale f s
  | .shfl f => Sys2Proof.Machine.execShfl f s
  | .vote f => Sys2Proof.Machine.execVote f s
  | .gred f => Sys2Proof.Machine.execGred f s
  | .gscan f => Sys2Proof.Machine.execGscan f s
  | .rebal f => Sys2Proof.Machine.execRebal f s
  | .rdln f => Sys2Proof.Machine.execRdln f s
  | .mfs f => Sys2Proof.Machine.execMfs f s
  | .mts f => Sys2Proof.Machine.execMts f s
  | .qstat f => Sys2Proof.Machine.execQstat f s
  | .mtch f => Sys2Proof.Machine.execMtch f s
  | .ld f => Sys2Proof.Machine.execLd f s
  | .st f => Sys2Proof.Machine.execSt f s
  | .atom f => Sys2Proof.Machine.execAtom f s
  | .red f => Sys2Proof.Machine.execRed f s
  | .cas f => Sys2Proof.Machine.execCas f s
  | .fence f => Sys2Proof.Machine.execFence f s
  | .pref f => Sys2Proof.Machine.execPref f s
  | .cctl f => Sys2Proof.Machine.execCctl f s
  | .testp f => Sys2Proof.Machine.execTestp f s
  | .cpsl f => Sys2Proof.Machine.execCpsl f s
  | .cpc f => Sys2Proof.Machine.execCpc f s
  | .gath f => Sys2Proof.Machine.execGath f s
  | .scat f => Sys2Proof.Machine.execScat f s
  | .scata f => Sys2Proof.Machine.execScata f s
  | .mma f => Sys2Proof.Machine.execMma f s
  | .mmag f => Sys2Proof.Machine.execMmag f s
  | .acalloc f => Sys2Proof.Machine.execAcalloc f s
  | .acfree f => Sys2Proof.Machine.execAcfree f s
  | .aczero f => Sys2Proof.Machine.execAczero f s
  | .obres f => Sys2Proof.Machine.execObres f s
  | .obrel f => Sys2Proof.Machine.execObrel f s
  | .drain f => Sys2Proof.Machine.execDrain f s
  | .qcfg f => Sys2Proof.Machine.execQcfg f s
  | .sysc f => Sys2Proof.Machine.execSysc f s
  | .csrr f => Sys2Proof.Machine.execCsrr f s
  | .csrw f => Sys2Proof.Machine.execCsrw f s
  | .tlbi f => Sys2Proof.Machine.execTlbi f s
  | .eret f => Sys2Proof.Machine.execEret f s
  | .halt f => Sys2Proof.Machine.execHalt f s
  | .activeSetSwap a => Sys2Proof.Machine.execActiveSetSwap a s
  | .goose a => Sys2Proof.Machine.execGoose a s
  | .resultLands a n => Sys2Proof.Machine.execResultLands a n s
  | .loadReply a n => Sys2Proof.Machine.execLoadReply a n s
  | .storeAcknowledge a n => Sys2Proof.Machine.execStoreAcknowledge a n s
  | .exclusivityIdleEnd line => Sys2Proof.Machine.execExclusivityIdleEnd line s
  | .queueWake team q => Sys2Proof.Machine.execQueueWake team q s
  | .rltGrant cmd => Sys2Proof.Machine.execRltGrant cmd s
  | .engineLineLands cmd line => Sys2Proof.Machine.execEngineLineLands cmd line s
  | .copyComplete cmd => Sys2Proof.Machine.execCopyComplete cmd s
  | .copyFault cmd line => Sys2Proof.Machine.execCopyFault cmd line s
  | .geComplete cmd => Sys2Proof.Machine.execGeComplete cmd s
  | .geFault cmd => Sys2Proof.Machine.execGeFault cmd s
  | .oxRingRead cmd => Sys2Proof.Machine.execOxRingRead cmd s
  | .drainQueuePush cmd => Sys2Proof.Machine.execDrainQueuePush cmd s
  | .oxComplete cmd => Sys2Proof.Machine.execOxComplete cmd s
  | .oxFault cmd => Sys2Proof.Machine.execOxFault cmd s
  | .acallocGrant cluster => Sys2Proof.Machine.execAcallocGrant cluster s
  | .eventPost team => Sys2Proof.Machine.execEventPost team s
  | .monitorRegister n => Sys2Proof.Machine.execMonitorRegister n s
  | .monitorWake n => Sys2Proof.Machine.execMonitorWake n s
  | .monitorTimeout slice => Sys2Proof.Machine.execMonitorTimeout slice s
  | .napWake a lane => Sys2Proof.Machine.execNapWake a lane s
  | .contextEnd part asid => Sys2Proof.Machine.execContextEnd part asid s
  | .faultQueueRetry part idx => Sys2Proof.Machine.execFaultQueueRetry part idx s
  | .faultQueueRefuse part idx => Sys2Proof.Machine.execFaultQueueRefuse part idx s
  | .fqrdWrite part w => Sys2Proof.Machine.execFqrdWrite part w s
  | .teamSave team => Sys2Proof.Machine.execTeamSave team s
  | .teamRestore team cluster => Sys2Proof.Machine.execTeamRestore team cluster s
  | .teamMigrate team cluster => Sys2Proof.Machine.execTeamMigrate team cluster s
  | .queueEnable part q w => Sys2Proof.Machine.execQueueEnable part q w s
  | .queueDisable part q w => Sys2Proof.Machine.execQueueDisable part q w s
  | .qdoor part q w => Sys2Proof.Machine.execQdoor part q w s
  | .launchPacket part q => Sys2Proof.Machine.execLaunchPacket part q s
  | .copyPacket part q => Sys2Proof.Machine.execCopyPacket part q s
  | .signalPacket part q => Sys2Proof.Machine.execSignalPacket part q s
  | .waitmonPacket part q => Sys2Proof.Machine.execWaitmonPacket part q s
  | .fencePacket part q => Sys2Proof.Machine.execFencePacket part q s
  | .markerPacket part q => Sys2Proof.Machine.execMarkerPacket part q s
  | .childValidate n => Sys2Proof.Machine.execChildValidate n s
  | .teamStart grid => Sys2Proof.Machine.execTeamStart grid s
  | .gridEnd grid => Sys2Proof.Machine.execGridEnd grid s
  | .telemetryFrame linkB bytes => Sys2Proof.Machine.execTelemetryFrame linkB bytes s
  | .partialFrameDiscard linkB => Sys2Proof.Machine.execPartialFrameDiscard linkB s
  | .failsafeEntry => Sys2Proof.Machine.execFailsafeEntry s
  | .curveTick => Sys2Proof.Machine.execCurveTick s
  | .graceExpiry cls => Sys2Proof.Machine.execGraceExpiry cls s
  | .controlInterval die temps => Sys2Proof.Machine.execControlInterval die temps s
  | .currentLimit pair above => Sys2Proof.Machine.execCurrentLimit pair above s
  | .mule pair lower upper => Sys2Proof.Machine.execMule pair lower upper s
  | .thermalMigration pair => Sys2Proof.Machine.execThermalMigration pair s
  | .pairPowerGate pair => Sys2Proof.Machine.execPairPowerGate pair s
  | .powerEnable w => Sys2Proof.Machine.execPowerEnable w s
  | .powerDisable w => Sys2Proof.Machine.execPowerDisable w s
  | .sessionOpen part ctx w => Sys2Proof.Machine.execSessionOpen part ctx w s
  | .sessionClose part ctx w => Sys2Proof.Machine.execSessionClose part ctx w s
  | .lostClear part ctx => Sys2Proof.Machine.execLostClear part ctx s
  | .watchpointArm part ctx j w => Sys2Proof.Machine.execWatchpointArm part ctx j w s
  | .sample cluster part ctx => Sys2Proof.Machine.execSample cluster part ctx s
  | .lcrClear part cluster bin ctr => Sys2Proof.Machine.execLcrClear part cluster bin ctr s
  | .hostWrite part off bytes => Sys2Proof.Machine.execHostWrite part off bytes s
  | .hostRead part off n => Sys2Proof.Machine.execHostRead part off n s
  | .mdoor w => Sys2Proof.Machine.execMdoor w s
  | .cecntClear => Sys2Proof.Machine.execCecntClear s
  | .registerWrite vf bar off w => Sys2Proof.Machine.execRegisterWrite vf bar off w s
  | .requestTimeout x => Sys2Proof.Machine.execRequestTimeout x s
  | .peerAccess dev srcPart part op => Sys2Proof.Machine.execPeerAccess dev srcPart part op s
  | .atcmd part w => Sys2Proof.Machine.execAtcmd part w s
  | .attestationReport part ok => Sys2Proof.Machine.execAttestationReport part ok s
  | .powerOnReset => Sys2Proof.Machine.execPowerOnReset s
  | .correctedError => Sys2Proof.Machine.execCorrectedError s
  | .uncorrectableError x => Sys2Proof.Machine.execUncorrectableError x s
  | .patrolScrub line => Sys2Proof.Machine.execPatrolScrub line s
  | .reservedOpcode w => Sys2Proof.Machine.execReservedOpcode w s
  | .fetchFault code => Sys2Proof.Machine.execFetchFault code s
  | .linkValidFrameTimeout linkB => Sys2Proof.Machine.execLinkValidFrameTimeout linkB s
  | .releaseWaitExpiry a => Sys2Proof.Machine.execReleaseWaitExpiry a s
  | .tlbiComplete a => Sys2Proof.Machine.execTlbiComplete a s
  | .syscAnswer a w => Sys2Proof.Machine.execSyscAnswer a w s
  | .firmwareTimer die => Sys2Proof.Machine.execFirmwareTimer die s
  | .privilegedThreadStart die entry => Sys2Proof.Machine.execPrivilegedThreadStart die entry s
  | .replayWaitDelivery a lane => Sys2Proof.Machine.execReplayWaitDelivery a lane s

end Sys2Proof.Machine
end

