-- ==== Sys2Proof/Machine/Environment.lean ====
section
/-! DEFINITION. The moves that are no row of the opcode table: time, what caches give up, what the outside world writes (log entry 1). -/

namespace Sys2Proof.Machine

/-! ### What device time does not pass (R6)

Each of these is an instant at which something has to have been done. Device time comes to the instant and stays there until it is; the forms that
do it are steps of their own. -/

/-- Ticks of the slices' wheels that take entries out (R264). -/
def State.wheelBounds (s : State) : List Nat :=
  (s.mons.filter fun m => decide (m.deadline ≠ 2 ^ 64 - 1)).map fun m => (m.deadline + 999) / 1000 * 1000

/-- A microsecond after the time to which a resident agent's lane naps (R269). -/
def State.napBounds (s : State) : List Nat :=
  (s.teams.filter fun e => e.2.resident).flatMap fun e => e.2.agents.flatMap fun g =>
    (g.2.lanes.filter fun l => decide (l.s = .nap)).map fun l => l.nap + 1000

/-- The Goose periods of timers that run and have not struck (R75). -/
def State.gooseBounds (s : State) : List Nat :=
  s.teams.flatMap fun e => match e.2.cluster with
    | none => []
    | some cl => (e.2.agents.filter fun g => s.gooseRuns e.1 cl g && !g.2.goosed).map fun g => s.dtime + ((s.partition e.2.part).goosePeriod - g.2.goose)

/-- The latest acknowledgement that a save of a team waits for: of the commands that come to their end first (R155, R203, R299). -/
def State.saveMargin (s : State) (team : Nat) (t : Team) : Nat :=
  greatestOf (s.cmds.map fun e => if e.2.ofTeam team && !e.2.saveable t then e.2.c + 4 else 0)

/-- A resident team that is to be saved is out by its time, but for the acknowledgements of commands that come to their end first (R203, R317; log entry
87). -/
def State.shedBounds (s : State) : List Nat :=
  (s.teams.filter fun e => e.2.resident && (e.2.shedHeld || e.2.preempt)).filterMap fun e => e.2.shedBy.map fun b => max b (s.saveMargin e.1 e.2)

/-- A cluster with a resident team of a context whose session samples takes its sample when it is due (R330). -/
def State.sampleBounds (s : State) : List Nat :=
  s.parts.flatMap fun p =>
    List.flatMap (fun d =>
      if bit d.2.tctl 0 && bit d.2.tctl 1 then
        s.teams.filterMap fun e =>
          if e.2.part = p.1 ∧ e.2.asid = s.asidOf p.1 d.1 then e.2.cluster.map fun cl => d.2.sampleAt cl s.dtime else none
      else []) p.2.debug

/-- A request of an agent over PCI Express, CXL or a peer link has come to its end 10 ms after it was sent (R343). -/
def State.requestBounds (s : State) : List Nat :=
  s.teams.flatMap fun e => e.2.agents.flatMap fun g =>
    (g.2.ops.filter fun o => o.2.place.remote && g.2.opReady o.2).map fun o => s.dtime + (10000000 - o.2.age)

/-- The PWC: the next tick of its curves, fail-safe, the links, the expiry of a grace timer, and the frequency cap at the dies within 20 µs of a new
cap (R310, R311, R313, R317, R320). -/
def State.powerBounds (s : State) : List Nat :=
  let p := s.pwc
  (if p.en && (!p.first || p.failsafe) then [(p.tickAt / 1000000 + 1) * 1000000] else []) ++
  (if p.en && !p.failsafe then [p.since + 5000001] else []) ++
  (p.linkA.toList ++ p.linkB.toList).map (fun t => t + 5000000) ++
  p.graceAt.map (fun e => e.2 + p.grace.toNat * 1000) ++
  (match p.capAt with
    | some t => if (List.range 12).all fun d => (s.die d).served.any fun u => decide (t < u) then [] else [t + 20000]
    | none => [])

/-- How far device time may run now; an instant already past holds nothing up. -/
def State.runsTo (s : State) (ns : Nat) : Nat :=
  (s.wheelBounds ++ s.napBounds ++ s.gooseBounds ++ s.shedBounds ++ s.sampleBounds ++ s.requestBounds ++ s.powerBounds).foldl
    (fun n b => if s.dtime ≤ b then min n (b - s.dtime) else n) ns

/-- The host, a CXL device or a peer device writes memory of its own; that passes no slice (R141, R346). -/
def State.systemWrite (s : State) (loc : Nat) (bytes : List Byte) : State :=
  if 2 ^ 64 ≤ loc ∧ loc + bytes.length ≤ 4 * 2 ^ 64 then s.poke loc bytes else s

/-- Bytes that firmware writes to HBM, line by line, at their slices. -/
def State.firmwareWrite (s : State) (addr : Nat) (bs : List Byte) : Nat → State
  | 0 => s
  | fuel + 1 =>
    if bs = [] then s
    else
      let n := min bs.length (128 - addr % 128)
      ((s.writeAt (physPlace addr) (bs.take n) none).1).firmwareWrite (addr + n) (bs.drop n) fuel

/-- A move of the environment or a choice that the spec leaves open. -/
def State.turn (s : State) (t : Turn) : State :=
  match t with
  | .run _ => s
  | .ev _ => s
  | .time ns => s.pass (s.runsTo ns)
  | .railClock c r => s.railClock c r
  | .l1Evict i => s.l1Evict i
  | .icEvict i => { s with icache := dropNth s.icache i }
  | .tlbEvict i => { s with tlb := dropNth s.tlb i }
  | .access a n => s.access a n
  | .registerRead vf bar off => s.registerRead vf bar off
  | .exclEvict line => s.recall line none
  | .systemWrite loc bytes => s.systemWrite loc bytes
  | .firmwareWrite loc bytes => s.firmwareWrite loc bytes (bytes.length + 1)
  | .firmwareTable die root localVa => { s with fwTable := Tbl.ins s.fwTable die (root, localVa) }
  | .askSave team => s.modTeam team fun v => if v.priv then v else { v with preempt := true }
  | .partitionLive part live =>
    s.setPstate part (if live then (s.partition part).pstate ||| 0x10000#64 else (s.partition part).pstate &&& 0xFFF#64)
  | .shelfByte linkB b => s.shelfByte linkB b
  | .stopThread team => s.stopThread team
  | .oxStep n => s.oxStep n
  | .engineRead n l => s.engineRead n l
  | .flash stage bytes => { s with flash := Tbl.ins s.flash stage bytes }

end Sys2Proof.Machine
end

