-- ==== Sys2Proof/Machine/Placing.lean ====
section
/-! DEFINITION. A program of one word placed in the machine from outside it: what a host's launch and its work distributor would leave, with the
word where its agent fetches first (R50, R51, R278, R287, R304). It stands for the load of a program; no rule says that reset does it. -/

namespace Sys2Proof.Machine

/-- The agent that a word is for: a group where a group may execute it, else a control thread, else a privileged one (R10, R47). -/
def placedKind (w : Code128) : AgentKind :=
  match parse w with
  | .error _ => .group
  | .ok i =>
    if decodeFault .group 128 i = none then .group
    else if decodeFault .control 0 i = none then .control
    else if decodeFault .privileged 0 i = none then .privileged
    else .group

/-- The number of the agent that executes the placed word. -/
def placedWho (k : AgentKind) : Nat :=
  match k with
  | .group => 0
  | _ => ctlWho

/-- The launch of a grid of one team: one group of 32 lanes with the largest budget, code of one word at address 0. -/
def placedLaunch : Launch :=
  { cset := 1, aff := 0, affp := 0, cls := 0, pop0 := 32, pop1 := 0, g0 := 1, g1 := 0, regs0 := 128, regs1 := 0, gx := 1, gy := 1, gz := 1,
    codeCount := 1, acc := 0, scr := 0, obl := 0, ctlEntry := 0, grpEntry := 0, codeBase := 0, args := 0, compVal := 0, compAddr := 0 }

/-- The agents of the placed team. -/
def placedAgents (k : AgentKind) : Tbl Agent :=
  match k with
  | .group => placedLaunch.groups [0] 0 0
  | k => newThread k 0

/-- The placed team: on cluster 0, in slot 0 of its context. -/
def placedTeam (k : AgentKind) : Team :=
  { Team.fresh (match k with | .privileged => 12 | _ => 0) 1 0 0 (placedAgents k) (!decide (k = .group)) with
    res := .on 0, slot := 0, g0 := match k with | .group => 1 | _ => 0, priv := decide (k = .privileged) }

/-- The grid of the placed team. -/
def placedGrid : Grid :=
  { part := 0, asid := 1, launch := placedLaunch, cls := 0, started := 1, endedTeams := 0, order := 0, host := none, begun := true, finished := false }

/-- The bytes that the fetch needs on die 0: the context record of ASID 1 at 0x10000 (R287), a page table at 0x20000 whose level 2 maps the lowest
256 MiB to themselves, readable, writable and executable (R136, R137), and the word at address 0; and the pages of slot 0 in the local area at
2^41, which no L1 keeps (R288). -/
def State.placeBytes (s : State) (w : Code128) : State :=
  (((((((s.poke 0 (wordBytes w)).poke 0x10000 (toBytes 8 1)).poke 0x10008 (toBytes 8 1)).poke 0x10010
    (toBytes 8 0x20000 ++ toBytes 8 (2 ^ 41))).poke 0x20000 (toBytes 8 0x30001)).poke 0x20010 (toBytes 8 0x40001)).poke 0x30000
    (toBytes 8 0xF)).poke 0x40000 (toBytes 8 0x300000FB ++ toBytes 8 0x400000FB)

/-- The word placed where the next step fetches. -/
def State.place (s : State) (w : Code128) : State :=
  let k := placedKind w
  let s1 := (s.placeBytes w).setTeam 0 (placedTeam k)
  let s2 := s1.modPart 0 fun p => { p with pstate := 0x10001, ctxBase := 0x10000 }
  { s2 with
    grids := Tbl.ins s2.grids 0 placedGrid, fwTable := Tbl.ins s2.fwTable 0 (0x20000, 2 ^ 41), icache := [], tlb := [],
    agenda := [.run ⟨0, placedWho k⟩] }

end Sys2Proof.Machine
end

