-- ==== Sys2Proof/Machine/Step.lean ====
section
/-! DEFINITION. One step of the machine: the next turn of the agenda, or of `Config.freeTurn` when the agenda is empty (log entry 1). -/

namespace Sys2Proof.Machine

/-- The turn of an agent: it stays short of a beat, or the instruction at its beats is executed. -/
def runAgent (a : AgentId) (s : State) : Host.Outcome State Fault Refusal :=
  match s.prepare a with
  | .stay s' => .next s'
  | .go i s' => exec i s'

/-- One turn. A form has no turn of its own: an agent's turn executes it. -/
def perform (t : Turn) (s : State) : Host.Outcome State Fault Refusal :=
  match t with
  | .run a => runAgent a s
  | .ev i => match formOf i with
    | some _ => .next s
    | none => exec i s
  | other => .next (s.turn other)

/-- One step. -/
def step (s : State) : Host.Outcome State Fault Refusal :=
  match s.agenda with
  | t :: ts => perform t { s with agenda := ts }
  | [] => perform (Config.freeTurn s.fresh) { s with fresh := s.fresh + 1 }

/-- The state with an instruction where the next step fetches it; a word is 128 bits whatever `nbits`. -/
def State.withFetchWord (s : State) (_nbits w : Nat) : State := s.place (BitVec.ofNat 128 w)

end Sys2Proof.Machine
end

