-- ==== Sys2Proof/Safety.lean ====
section
/-! DEFINITION. What a safe run is, and the terms in which statements speak: the register file of an agent, a beat that is due, a destination that
holds a value, and the invariant of memory. -/

namespace Sys2Proof.Machine

/-! ### Safe runs -/

/-- A run of n steps that neither faults nor is refused. -/
def SafeRun (n : Nat) (s : State) : Prop := ∃ t, Host.Core.run Sys2Proof.core n s = .next t

/-- The invariant of memory: its canonical form. -/
def State.Inv (s : State) : Prop := Memory.wf s.mem

/-! ### What statements observe -/

/-- The register file of an agent: its registers, their empty bits and FPFLAGS (R44, R54, R109). -/
structure RegFile where
  v : Tbl W32
  u : Tbl W64
  pr : Tbl LaneMask
  vE : Tbl Bool
  uE : Tbl Bool
  prE : Tbl LaneMask
  fp : FpFlags
deriving DecidableEq, Repr

/-- The register file of an agent. -/
def Agent.regs (x : Agent) : RegFile := { v := x.v, u := x.u, pr := x.pr, vE := x.vE, uE := x.uE, prE := x.prE, fp := x.fp }

/-- The register file of an agent of the machine. -/
def State.regsOf (s : State) (a : AgentId) : Option RegFile := (s.agent a).map Agent.regs

/-- The lanes of an agent of the machine: W, depth, state and links (R59). -/
def State.lanesOf (s : State) (a : AgentId) : Option (List LaneRec) := (s.agent a).map fun x => x.lanes

/-- A byte of memory (log entry 4). -/
def State.byteAt (s : State) (loc : Nat) : Byte := Tbl.get 0 s.mem loc

/-- A byte of the spill area that holds a monitor entry (R265). -/
def State.spillByte (s : State) (loc : Nat) : Bool :=
  s.mons.any fun m => match m.spill with
    | some i => let p := locOf 0 ((s.partition m.part).spBase.toNat + 32 * i); decide (p ≤ loc) && decide (loc < p + 32)
    | none => false

/-- The value that the register of a write holds. -/
def Agent.reads (x : Agent) : RegWrite → W64
  | .v lane reg _ => (x.getV lane reg).setWidth 64
  | .u reg _ => x.getU reg
  | .p reg lane _ => BitVec.ofNat 64 (b2n (x.getP reg lane))

/-- A destination operand of a lane holds a value of w bits and is full (R44, R54): zero and p7 discard. -/
def Agent.holds (x : Agent) (w lane : Nat) (o : Operand) (y : W64) : Prop :=
  match o with
  | .v r => if w = 64 then x.getPair lane r.toNat = y ∧ x.emptyV lane r.toNat = false ∧ x.emptyV lane (r.toNat + 1) = false
            else x.getV lane r.toNat = y.setWidth 32 ∧ x.emptyV lane r.toNat = false
  | .u r => x.getU r.toNat = (if w = 64 then y else lowBits 32 y) ∧ x.emptyU r.toNat = false
  | .p r => r ≠ 7 → x.getP r.toNat lane = bit y 0 ∧ x.emptyP r.toNat lane = false
  | _ => True

/-- The result of a lane at its D operand: the value, or D as it was in the agent `x` where the result leaves it (R118). -/
def Agent.takes (y x : Agent) (w lane : Nat) (o : Operand) (r : Res) : Prop :=
  if r.keep then ∀ g ∈ destWrites w lane 0 o, y.reads g = x.reads g ∧ y.isEmpty g = x.isEmpty g else y.holds w lane o r.d

/-- An agent has stopped on a fault of a code, and resumes as `how` says (R289, R290). -/
def Agent.stoppedAs (y : Agent) (code : Byte) (how : Resume) : Prop := y.issue = .stopped ∧ ∃ st, y.stop = some st ∧ st.code = code ∧ st.how = how

/-! ### A beat that is due -/

/-- The next beat `b` of form `i` is due: the current agent stands at the form's beats, the form is one that the agent may execute (R49), its tokens
are complete (R16), its registers are full (R55), no acquire holds its accesses back (R149), the release that it performs first has been
waited for (R165), and no line of memory stores an uncorrectable error, whose read could end the agent's context meanwhile (R351). -/
structure Due (i : Instr) (f : Fields) (s : State) (b : Beat) : Prop where
  now : ∃ r, s.current = some (b.a, b.t, b.x) ∧ rowFor i = some r ∧ b = beatOf i f r b.a b.t b.x
  legal : decodeFault b.x.kind b.x.budget i = none
  tokens : tokensDone b.t b.x.arr.wk = true
  full : readiness b.x (checkedRow i b.row) f (if b.perf ≠ 0 then sourceLanes i f b.act b.perf else []) (lanesIn b.perf) (lanesIn b.act)
    (b.x.arr.granted.isSome || b.x.arr.pushed) = .ready
  held : (shapeOf i f).mem = true → b.perf ≠ 0 → (b.x.pend.any fun e => decide (e.2.acq &&& b.perf ≠ 0)) = false
  released : ∀ sc, (shapeOf i f).rel = some sc → b.perf ≠ 0 → b.x.arr.released = true ∨ releaseDone s b.x sc = true
  clean : s.flaws = []

/-- The lanes whose destinations a form writes: every lane of A(P) for a uniform form, else the performing lanes (R42). -/
def Beat.written (b : Beat) : List Nat := if b.f.uni then lanesIn b.act else lanesIn b.perf

/-- The lane whose sources give a written lane's result: for a uniform form the lowest of A(P) (R42). -/
def Beat.sourceOf (b : Beat) (l : Nat) : Nat := if b.f.uni then lowestLane b.act else l

/-- An s or c destination is written once: the form is uniform, or one lane performs (R42, R209). -/
def Beat.single (b : Beat) : Prop := b.f.uni = true ∨ (∀ r, b.f.d ≠ .u r) ∨ (lanesIn b.perf).length ≤ 1

/-- Some lane of the agent is RUN, as of every agent that stands at the beats of an instruction: the beat does not end it. -/
def Beat.alive (b : Beat) : Prop := b.x.runLanes ≠ []

/-- The state in which the tokens of an arrival have been waited for (R16). -/
def State.waited (s : State) (a : AgentId) : State := s.modAgent a fun y => { y with arr := { y.arr with wk := 0 } }

/-- The state that the body of a due beat starts from: the lanes of the beat have W = P + 1 (R62), and its release is done. -/
def State.begun (s : State) (b : Beat) : State :=
  (s.waited b.a).modAgent b.a fun y => { (y.advance b.act) with arr := { y.arr with released := y.arr.released || decide (b.perf ≠ 0) } }

end Sys2Proof.Machine
end

