-- ==== Sys2Proof/Certificates/Slice0/Obligations.lean ====
section
/-! DEFINITION. The statements about the model, for the provers. -/

open Sys2Proof Sys2Proof.Machine

/-! ### Reset, decoding, a step -/

/-- The machine right after reset: device time 0 (R3), GOOSE 8000 in every partition (R297), every host queue's registers zero (R270), the fault
queue's registers zero (R294), and the power controller's registers at the reset values of R311. That no partition is live is the model's choice
(log entry 8): no rule gives PSTATE a reset value. -/
def Obligations.ResetValues : Prop :=
  State.reset.dtime = 0 ∧
  (∀ p, (State.reset.partition p).live = false ∧ (State.reset.partition p).goose = 8000 ∧ (State.reset.partition p).fqCtl = 0 ∧
    (State.reset.partition p).fqWr = 0 ∧ (State.reset.partition p).fqRd = 0) ∧
  (∀ p q, State.reset.hostq p q = HostQ.reset) ∧
  State.reset.readPf 0x000 = 0 ∧ State.reset.readPf 0x008 = 7200 ∧ State.reset.readPf 0x010 = 1000 ∧ State.reset.readPf 0x018 = 2000 ∧
  State.reset.readPf 0x028 = 0x000E020000000000#64 ∧ State.reset.readPf 0x040 = 0x695F#64 ∧
  State.reset.readPf 0x038 = BitVec.ofNat 64 (16 * 256 + 8)

/-- Words that the spec writes out decode to the instructions it says they are: `MOV.n64 s2, q0` for a group, with fault 0x0D for a control thread
with UNI = 0, and fault 0x01 for the three variants that the spec names; and `LD.n32 v5, [s3 + v4] | wk=k1`, with fault 0x03 where D is v9 and the
budget 8 (the worked encodings after R49). -/
def Obligations.WorkedWordsDecode : Prop :=
  decodeFor .group 128 0x000000000000000000170000C082203B#128 =
    .ok (.mov { fn := 0, ty := .n64, d := .u 2, a := .q 0, b := .v 0, c := .v 0, pg := 7, pn := false, uni := true, gate := false, fe := 0,
                sat := false, rm := .rne, wk := 0, md := 0, e := .v 0, g := .v 0, imm := 0 }) ∧
  decodeFor .control 0 0x000000000000000000070000C082203B#128 = .error 0x0D ∧
  decodeFor .group 128 0x000000000000000000070000C082203B#128 = .error 0x01 ∧
  decodeFor .control 0 0x000000000000000000170000C082203B#128 = .error 0x01 ∧
  decodeFor .group 128 0x000000000000000000160000C082203B#128 = .error 0x01 ∧
  decodeFor .group 8 0x00000000000000020007000483050080#128 =
    .ok (.ld { fn := 0, ty := .n32, d := .v 5, a := .u 3, b := .v 4, c := .v 0, pg := 7, pn := false, uni := false, gate := false, fe := 0,
               sat := false, rm := .rne, wk := 2, md := 0, e := .v 0, g := .v 0, imm := 0 }) ∧
  decodeFor .group 8 0x00000000000000020007000483090080#128 = .error 0x03

/-- A step runs the decoded instruction. Where an agent's turn is next and its rail or core lets it issue, an arrival's step executes the instruction
that the fetched word decodes to, on the state in which the fetch has filled its line and the agent stands at the beats with A(P) fixed (R49, R58,
R61, R72); where the agent stands at the beats already, the step executes the instruction of its word again; a step of an engine, slice, distributor,
controller, host or peer executes its row. The agenda of turns is the model's choice (log entry 1), and so is that an access that has been issued performs in a step
of its own (log entry 6, on R145). -/
def Obligations.StepRunsDecoded : Prop :=
  (∀ (s s1 : State) (a : AgentId) (ts : List Turn) (t : Team) (x : Agent) (g : Bool) (cl : Nat) (w : Code128) (i : Instr),
    s.agenda = .run a :: ts → s.team a.team = some t → s.agent a = some x → t.cluster = some cl → x.stays t a.who = false →
    let s0 := { s with agenda := ts }
    s0.enters a cl x = true → s0.lets a cl x = true → (x.isGroup = true → x.goosed = false) → x.issue = .arrive g →
    s0.fetch t cl x.p.toNat = .word w s1 → x.wraps g w = false → decodeFor x.kind x.budget w = .ok i →
    step s = exec i { s1.setAgent a ((if g && x.isGroup && gates w then { x.restartGoose s1.beatSeq with gateWrapped := false } else x).atBeats
      x.arrivals w s.beatSeq) with cur := some a }) ∧
  (∀ (s : State) (a : AgentId) (ts : List Turn) (t : Team) (x : Agent) (cl : Nat) (i : Instr),
    s.agenda = .run a :: ts → s.team a.team = some t → s.agent a = some x → t.cluster = some cl → x.stays t a.who = false →
    let s0 := { s with agenda := ts }
    s0.enters a cl x = true → s0.lets a cl x = true → (x.isGroup = true → x.goosed = false) → x.issue = .beats →
    decodeFor x.kind x.budget x.arr.word = .ok i → step s = exec i { s0 with cur := some a }) ∧
  (∀ (s : State) (ts : List Turn) (i : Instr), s.agenda = .ev i :: ts → formOf i = none → step s = exec i { s with agenda := ts }) ∧
  (∀ (s : State) (ts : List Turn) (a : AgentId) (n : Nat), s.agenda = .access a n :: ts → step s = .next (({ s with agenda := ts } : State).access a n))

/-- The instruction at index p comes from CODEBASE + 16·p of the context: where the walk of that address gives an executable page, the fetched word is
made of the 16 bytes of the cluster's instruction-cache copy of the line, or, with no copy, of the 16 bytes behind the address (R50, R51). An index
at CODECOUNT or beyond, and a page without the execute permission, give fault 0x08; a page that is not there gives the walk's fault, 0x07 (R51, R52);
a line that stores an uncorrectable error, read from memory, gives 0x18 (R351). That a fetch from a replayable page gives 0x07 is the model's choice
(log entry 37). -/
def Obligations.FetchReadsCode : Prop :=
  ∀ (s : State) (t : Team) (cl p : Nat),
    let va := ((s.codeOf t).2.toNat + 16 * p) % 2 ^ 52
    let copy := s.icache.find? fun c => c.isLine cl t.part t.asid (va / 128)
    (∀ (pte : W64) (big : Bool), p < (s.codeOf t).1 → (s.codeOf t).2.toNat % 128 = 0 →
      s.walk cl t.part t.asid va = .leaf pte big →
      let q := s.leafPlace t.part pte big va
      (bit pte 2 = true → s.reaches t.part q = true → copy = none → q.loc / 128 ∉ s.flaws →
        ∃ s', s.fetch t cl p = .word (wordOfBytes (s.read q.loc 16)) s') ∧
      (bit pte 2 = true → s.reaches t.part q = true → ∀ c, copy = some c →
        ∃ s', s.fetch t cl p = .word (wordOfBytes ((c.data.drop (va % 128)).take 16)) s') ∧
      (bit pte 2 = true → s.reaches t.part q = true → copy = none → q.loc / 128 ∈ s.flaws → ∃ addr, s.fetch t cl p = .stop 0x18 addr) ∧
      (bit pte 2 = false → ∃ addr, s.fetch t cl p = .stop 0x08 addr)) ∧
    ((s.codeOf t).1 ≤ p → ∃ addr, s.fetch t cl p = .stop 0x08 addr) ∧
    (∀ code, p < (s.codeOf t).1 → s.walk cl t.part t.asid va = .fault code → ∃ addr, s.fetch t cl p = .stop code addr) ∧
    (p < (s.codeOf t).1 → s.walk cl t.part t.asid va = .replay → ∃ addr, s.fetch t cl p = .stop 0x07 addr)

/-- Decode and encode agree: every well-formed instruction that is a form has a word, and the word decodes to the instruction again, whatever its
operands. -/
def Obligations.EncodeThenDecode : Prop :=
  ∀ i : Instr, i.wellFormed = true → (formOf i).isSome = true → ∃ w, encode i = some w ∧ decode w = .ok i

/-- Every word that decodes is the word of the instruction that it decodes to: no bit of a word is dropped. -/
def Obligations.DecodeThenEncode : Prop := ∀ (w : Code128) (i : Instr), decode w = .ok i → encode i = some w

/-- A word with a reserved bit set, a reserved operand code or a reserved opcode raises fault 0x01 for every agent, whatever its other fields hold; and
a form marked G for a thread, one marked C for a group, and one marked P for any agent but a privileged thread raise fault 0x01, whatever their
fields hold (R39, R44, R47 to R49). -/
def Obligations.ReservedEncodingsFault : Prop :=
  (∀ (k : AgentKind) (budget : Nat) (w : Code128),
    field w 60 4 ≠ 0#4 ∨ (formAt (field w 0 8) default).isNone = true ∨
      (∃ lo, lo ∈ [16, 24, 32, 40, 80, 88] ∧ operandOf (field w lo 8) = none) →
    decodeFor k budget w = .error 0x01) ∧
  (∀ (k : AgentKind) (budget : Nat) (i : Instr) (r : Row), rowFor i = some r →
    (r.mark = .g ∧ k ≠ .group) ∨ (r.mark = .c ∧ k = .group) ∨ (r.mark = .p ∧ k ≠ .privileged) → decodeFault k budget i = some 0x01)

/-- A reserved opcode and a fetch that fails stop the arriving agent: RESERVED_OPCODE with code 0x01, FETCH_FAULT with its own code; a group or control
thread that its context's end does not take away stands stopped with that code, at the faulting index with Restart 0. -/
def Obligations.ArrivalStops : Prop :=
  (∀ (s s1 : State) (a : AgentId) (t : Team) (x : Agent) (g : Bool) (w : Code128),
    s.arriving = some (a, t, x, g) → s.fetch t (t.cluster.getD 0) x.p.toNat = .word w s1 → opcodeReserved w = true → x.wraps g w = false →
    x.kind ≠ .privileged → x.restart = 0 →
    ∃ u, exec (.reservedOpcode w) s = .next u ∧
      ∀ y, u.agent a = some y → y.stoppedAs 0x01 .refetch ∧ y.p = x.p ∧ y.restart = 0) ∧
  (∀ (s : State) (a : AgentId) (t : Team) (x : Agent) (g : Bool) (code : Byte) (addr : W64),
    s.arriving = some (a, t, x, g) → s.fetch t (t.cluster.getD 0) x.p.toNat = .stop code addr → x.kind ≠ .privileged → x.restart = 0 →
    ∃ u, exec (.fetchFault code) s = .next u ∧
      ∀ y, u.agent a = some y → y.stoppedAs code .refetch ∧ y.p = x.p ∧ y.restart = 0)

/-- The machine right after reset meets the invariant of memory. -/
def Obligations.ResetHasInvariant : Prop := State.reset.Inv

/-- Every step keeps the invariant: memory stays in its canonical form, so that equal memories are equal data. -/
def Obligations.StepKeepsInvariant : Prop := ∀ s s' : State, s.Inv → step s = .next s' → s'.Inv

/-! ### Register forms -/

/-- The integer and logic forms whose results are written at the beat, with what each gives for a lane's source values (R97 to R104). -/
def integerForm : Instr → Option (Fields × (Vals → Res))
  | .add f => some (f, fun v => resV (aluAdd f.ty f.sat v.a v.b))
  | .sub f => some (f, fun v => resV (aluSub f.ty f.sat v.a v.b))
  | .mul f => some (f, fun v => resV (aluMul f.ty f.sat v.a v.b))
  | .mulh f => some (f, fun v => resV (aluMulh f.ty v.a v.b))
  | .mad f => some (f, fun v => resV (aluMad f.ty f.sat v.a v.b v.c))
  | .min f => some (f, fun v => resV (aluMin f.ty v.a v.b))
  | .max f => some (f, fun v => resV (aluMax f.ty v.a v.b))
  | .abs f => some (f, fun v => resV (aluAbs f.ty f.sat v.a))
  | .and f => some (f, fun v => resV (aluAnd f.ty v.a v.b))
  | .or f => some (f, fun v => resV (aluOr f.ty v.a v.b))
  | .xor f => some (f, fun v => resV (aluXor f.ty v.a v.b))
  | .andn f => some (f, fun v => resV (aluAndn f.ty v.a v.b))
  | .not f => some (f, fun v => resV (aluNot f.ty v.a))
  | .shl f => some (f, fun v => resV (aluShl f.ty v.a v.b))
  | .shr f => some (f, fun v => resV (aluShr f.ty v.a v.b))
  | .sar f => some (f, fun v => resV (aluSar f.ty v.a v.b))
  | .rot f => some (f, fun v => resV (aluRot f.ty v.a v.b))
  | .popc f => some (f, fun v => resV (aluPopc f.ty v.a))
  | .clz f => some (f, fun v => resV (aluClz f.ty v.a))
  | .ctz f => some (f, fun v => resV (aluCtz f.ty v.a))
  | .brev f => some (f, fun v => resV (aluBrev f.ty v.a))
  | .bfx f => some (f, fun v => resV (aluBfx f.ty v.a v.b))
  | .bfi f => some (f, fun v => resV (aluBfi f.ty v.a v.b v.c))
  | .lea f => some (f, fun v => resV (aluLea f.ty v.a v.b v.c))
  | .sel f => some (f, fun v => resV (if v.pc then lowBits (tyWidth f.ty) v.a else lowBits (tyWidth f.ty) v.b))
  | .mov f => some (f, fun v => resV (lowBits (tyWidth f.ty) v.a))
  | .setp f => some (f, fun v => resP (aluCompare f.fn f.ty v.a v.b) 0)
  | .plog f => some (f, fun v => resP (aluPlog f.imm v.pa v.pb) 0)
  | .addx f => some (f, fun v => { d := (aluAddx f.ty v.a v.b v.pc).1, e := some (aluAddx f.ty v.a v.b v.pc).2, fl := 0 })
  | .idp4 f => some (f, fun v => resV (aluIdp4 f.ty f.sat v.a v.b v.c))
  | _ => none

/-- The floating-point forms and conversions whose results are written at the beat (R111, R112, R114 to R118). -/
def floatForm : Instr → Option (Fields × (Vals → Res))
  | .fadd f => some (f, fun v => resF (fpAdd f.ty (fpMod f.rm f.md) false v.a v.b))
  | .fsub f => some (f, fun v => resF (fpAdd f.ty (fpMod f.rm f.md) true v.a v.b))
  | .fmul f => some (f, fun v => resF (fpMul f.ty (fpMod f.rm f.md) v.a v.b))
  | .ffma f => some (f, fun v => resF (fpFma f.ty (fpMod f.rm f.md) v.a v.b v.c))
  | .fmin f => some (f, fun v => resF (fpMinMax f.ty (fpMod f.rm f.md) false v.a v.b))
  | .fmax f => some (f, fun v => resF (fpMinMax f.ty (fpMod f.rm f.md) true v.a v.b))
  | .fsetp f => some (f, fun v => resP (fpCompare f.fn f.ty (fpMod f.rm f.md) v.a v.b).1 (fpCompare f.fn f.ty (fpMod f.rm f.md) v.a v.b).2)
  | .fcls f => some (f, fun v => resV (fpClass f.ty (fpMod f.rm f.md) v.a))
  | .hadd2 f => some (f, fun v => resF (fpHadd2 f.ty (fpMod f.rm f.md) v.a v.b))
  | .hmul2 f => some (f, fun v => resF (fpHmul2 f.ty (fpMod f.rm f.md) v.a v.b))
  | .hfma2 f => some (f, fun v => resF (fpHfma2 f.ty (fpMod f.rm f.md) v.a v.b v.c))
  | .fdp2 f => some (f, fun v => resF (fpFdp2 f.ty (fpMod f.rm f.md) v.a v.b v.c))
  | .cvt f => some (f, fun v => resF (fpCvt f.ty (tyOf f.fn) (fpMod f.rm f.md) f.sat v.a))
  | .cvts f => some (f, cvtsRes f)
  | .frnd f => some (f, fun v => resF (fpRound f.ty (fpMod f.rm f.md) v.a))
  | .fscale f => some (f, fun v => resF (fpScale f.ty (fpMod f.rm f.md) v.a v.b))
  | _ => none

/-- The forms whose destinations are empty until their results land (R54, R97, R113). -/
def longForm : Instr → Option (Fields × (Vals → Res))
  | .div f => some (f, fun v => resV (aluDiv f.ty v.a v.b))
  | .rem f => some (f, fun v => resV (aluRem f.ty v.a v.b))
  | .frcp f => some (f, fun v => resF (fpElem .rcp f.ty (fpMod f.rm f.md) v.a))
  | .frsq f => some (f, fun v => resF (fpElem .rsq f.ty (fpMod f.rm f.md) v.a))
  | .fsqrt f => some (f, fun v => resF (fpElem .sqrt f.ty (fpMod f.rm f.md) v.a))
  | .fexp2 f => some (f, fun v => resF (fpElem .exp2 f.ty (fpMod f.rm f.md) v.a))
  | .flog2 f => some (f, fun v => resF (fpElem .log2 f.ty (fpMod f.rm f.md) v.a))
  | .ftanh f => some (f, fun v => resF (fpElem .tanh f.ty (fpMod f.rm f.md) v.a))
  | _ => none

/-- Every integer and logic form completes its beat: each written lane's destination holds the form's result of the lane's source values and is full,
the second destination of ADDX holds the carry out, and FPFLAGS stays. (A queue operand has statements of its own.) -/
def Obligations.IntegerResults : Prop :=
  ∀ (i : Instr) (f : Fields) (op : Vals → Res) (s : State) (b : Beat),
    integerForm i = some (f, op) → Due i f s b → quseOf b.row f = .none → b.single → b.perf ≠ 0 →
    ∃ t y, exec i s = .next t ∧ t.agent b.a = some y ∧ y.fp = b.x.fp ∧ ∀ l ∈ b.written,
      y.holds (slotWidth b.row.d) l f.d (op (valsOf b 0 [] (b.sourceOf l))).d ∧
      ∀ p, (op (valsOf b 0 [] (b.sourceOf l))).e = some p → y.holds 32 l f.e (BitVec.ofNat 64 (b2n p))

/-- Every floating-point form that writes at the beat completes it: each written lane's destination holds the result, and FPFLAGS collects the flags of
every lane that computes (R109). A CVTS pack to a slot beyond the word leaves D as it was (R118). -/
def Obligations.FloatResults : Prop :=
  ∀ (i : Instr) (f : Fields) (op : Vals → Res) (s : State) (b : Beat),
    floatForm i = some (f, op) → Due i f s b → quseOf b.row f = .none → b.single → b.perf ≠ 0 →
    ∃ t y, exec i s = .next t ∧ t.agent b.a = some y ∧
      y.fp = b.lanes.foldl (fun m l => m ||| (op (valsOf b 0 [] l)).fl) b.x.fp ∧
      ∀ l ∈ b.written, y.takes b.x (slotWidth b.row.d) l f.d (op (valsOf b 0 [] (b.sourceOf l)))

/-- DIV, REM and the elementary functions complete their beat: flags at once, every written destination empty, and one result under way that
writes exactly the lanes' results (R54). -/
def Obligations.LongResults : Prop :=
  ∀ (i : Instr) (f : Fields) (op : Vals → Res) (s : State) (b : Beat),
    longForm i = some (f, op) → Due i f s b → quseOf b.row f = .none → b.perf ≠ 0 → b.alive →
    ∃ t y n, exec i s = .next t ∧ t.agent b.a = some y ∧
      y.fp = b.lanes.foldl (fun m l => m ||| (op (valsOf b 0 [] l)).fl) b.x.fp ∧
      Tbl.find? y.pend n = some (Pending.result (spread b (b.lanes.map fun l => (l, op (valsOf b 0 [] l))))) ∧
      ∀ l ∈ b.written, ∀ r, f.d = .v r → y.emptyV l r.toNat = true

/-- A lane that its guard turns off takes no effect but W = P + 1 (R41, R62): where no lane of the beat performs, every register file stays, and the
lanes of the beat want the next index. -/
def Obligations.GuardedOff : Prop :=
  ∀ (i : Instr) (f : Fields) (op : Vals → Res) (s : State) (b : Beat),
    (integerForm i = some (f, op) ∨ floatForm i = some (f, op) ∨ longForm i = some (f, op)) → Due i f s b →
    quseOf b.row f = .none → b.perf = 0 →
    ∃ t y, exec i s = .next t ∧ (∀ c, t.regsOf c = s.regsOf c) ∧ t.agent b.a = some y ∧
      ∀ l ∈ lanesIn b.act, l < b.x.lanes.length → (y.lane l).w = b.x.p + 1

/-- Compare and carry: ADDX writes a + b + k modulo 2^w to D and, to predicate E, whether a + b + k ≥ 2^w; E = p7 discards the carry. Subtraction with
borrow is ADDX with NOT b and a carry in of 1 (R103). -/
def Obligations.AddxCarries : Prop :=
  (∀ (f : Fields) (s : State) (b : Beat), Due (.addx f) f s b → quseOf b.row f = .none → b.single → b.perf ≠ 0 →
    ∃ t y, exec (.addx f) s = .next t ∧ t.agent b.a = some y ∧ ∀ l ∈ b.written,
      let w := tyWidth f.ty
      let v := valsOf b 0 [] (b.sourceOf l)
      let sum := v.a.toNat % 2 ^ w + v.b.toNat % 2 ^ w + (if v.pc = true then 1 else 0)
      y.holds w l f.d (BitVec.ofNat 64 (sum % 2 ^ w)) ∧
      (∀ e, f.e = .p e → e ≠ 7 → (y.getP e.toNat l = true ↔ 2 ^ w ≤ sum) ∧ y.emptyP e.toNat l = false) ∧
      (f.e = .p 7 → ∀ r k, y.getP r k = b.x.getP r k)) ∧
  (∀ (ty : DType) (a b : W64), (ty = .n32 ∨ ty = .n64) → (aluAddx ty a (~~~b) true).1 = aluSub ty false a b)

/-- SETP writes the comparison that FN selects to predicate D, over the width of TY: 0 to 5 signed, 6 to 9 unsigned; n32 and i32, and n64 and i64, name
the same operation; FN 10 to 15 raise fault 0x01 (R101). -/
def Obligations.SetpCompares : Prop :=
  (∀ (f : Fields) (s : State) (b : Beat), Due (.setp f) f s b → quseOf b.row f = .none → b.perf ≠ 0 →
    ∃ t y, exec (.setp f) s = .next t ∧ t.agent b.a = some y ∧ ∀ l ∈ b.written, ∀ d, f.d = .p d → d ≠ 7 → y.emptyP d.toNat l = false ∧
      let v := valsOf b 0 [] (b.sourceOf l)
      let sx := fun x : W64 => (x.setWidth (tyWidth f.ty)).toInt
      let ux := fun x : W64 => (x.setWidth (tyWidth f.ty)).toNat
      (y.getP d.toNat l = true ↔
        (f.fn = 0 ∧ sx v.a = sx v.b) ∨ (f.fn = 1 ∧ sx v.a ≠ sx v.b) ∨ (f.fn = 2 ∧ sx v.a < sx v.b) ∨ (f.fn = 3 ∧ sx v.a ≤ sx v.b) ∨
        (f.fn = 4 ∧ sx v.a > sx v.b) ∨ (f.fn = 5 ∧ sx v.a ≥ sx v.b) ∨ (f.fn = 6 ∧ ux v.a < ux v.b) ∨ (f.fn = 7 ∧ ux v.a ≤ ux v.b) ∨
        (f.fn = 8 ∧ ux v.a > ux v.b) ∨ (f.fn = 9 ∧ ux v.a ≥ ux v.b))) ∧
  (∀ fn (a b : W64), aluCompare fn .n32 a b = aluCompare fn .i32 a b ∧ aluCompare fn .n64 a b = aluCompare fn .i64 a b) ∧
  (∀ (k : AgentKind) (budget : Nat) (f : Fields), 10 ≤ f.fn.toNat → decodeFault k budget (.setp f) = some 0x01)

/-- The results of the integer operations in numbers and bits: wrapping and clamping of ADD, SUB, MUL and MAD, the high product, DIV and REM with their
corners, MIN, MAX and ABS, the bitwise operations, every shift and rotation, the counts, BFX and BFI, LEA, SEL, MOV, PLOG and IDP4; every result of
width w is zero-extended. -/
def integerTable : Prop :=
  (∀ (ty : DType) (sat : Bool) (a b c : W64), ty ∈ int4 →
    intVal ty (aluAdd ty true a b) = clampTo ty (intVal ty a + intVal ty b) ∧
    intVal ty (aluSub ty true a b) = clampTo ty (intVal ty a - intVal ty b) ∧
    intVal ty (aluMul ty true a b) = clampTo ty (intVal ty a * intVal ty b) ∧
    aluAdd ty false a b = lowBits (tyWidth ty) (a + b) ∧ aluSub ty false a b = lowBits (tyWidth ty) (a - b) ∧
    aluMul ty false a b = lowBits (tyWidth ty) (a * b) ∧ aluMad ty false a b c = lowBits (tyWidth ty) (a * b + c) ∧
    intVal ty (aluMad ty sat a b c) =
      (if sat = true then clampTo ty (intVal ty a * intVal ty b + intVal ty c) else intVal ty (a * b + c)) ∧
    intVal ty (aluMulh ty a b) = (intVal ty a * intVal ty b) / (2 ^ tyWidth ty : Nat)) ∧
  (∀ (ty : DType) (a b : W64), ty ∈ int4 →
    (intVal ty b = 0 → aluDiv ty a b = lowBits (tyWidth ty) (-1) ∧ aluRem ty a b = lowBits (tyWidth ty) a) ∧
    (intVal ty b ≠ 0 → lowBits (tyWidth ty) (aluDiv ty a b * b + aluRem ty a b) = lowBits (tyWidth ty) a) ∧
    (tySigned ty = true → intVal ty a = tyMin ty → intVal ty b = -1 → intVal ty (aluDiv ty a b) = tyMin ty ∧ aluRem ty a b = 0) ∧
    (intVal ty b ≠ 0 → ¬ (intVal ty a = tyMin ty ∧ intVal ty b = -1) →
      intVal ty (aluDiv ty a b) = (intVal ty a).tdiv (intVal ty b) ∧
      (intVal ty (aluRem ty a b)).natAbs < (intVal ty b).natAbs ∧ 0 ≤ intVal ty (aluRem ty a b) * intVal ty a) ∧
    intVal ty (aluMin ty a b) = min (intVal ty a) (intVal ty b) ∧ intVal ty (aluMax ty a b) = max (intVal ty a) (intVal ty b) ∧
    (tySigned ty = true → intVal ty (aluAbs ty true a) = min |intVal ty a| (tyMax ty) ∧
      aluAbs ty false a = lowBits (tyWidth ty) (if intVal ty a < 0 then -a else a))) ∧
  (∀ (ty : DType) (a b : W64) (j : Nat), ty ∈ int4 → j < tyWidth ty →
    bit (aluAnd ty a b) j = (bit a j && bit b j) ∧ bit (aluOr ty a b) j = (bit a j || bit b j) ∧ bit (aluXor ty a b) j = (bit a j != bit b j) ∧
    bit (aluAndn ty a b) j = (bit a j && !bit b j) ∧ bit (aluNot ty a) j = !bit a j) ∧
  (∀ (ty : DType) (a b : W64), ty ∈ int4 → tyWidth ty ≤ shiftCount b →
    aluShl ty a b = 0 ∧ aluShr ty a b = 0 ∧ aluSar ty a b = (if bit a (tyWidth ty - 1) = true then lowBits (tyWidth ty) (-1) else 0)) ∧
  (∀ (ty : DType) (a b : W64) (j : Nat), ty ∈ int4 → j < tyWidth ty → shiftCount b < tyWidth ty →
    bit (aluShl ty a b) j = (decide (shiftCount b ≤ j) && bit a (j - shiftCount b)) ∧
    bit (aluShr ty a b) j = (decide (j + shiftCount b < tyWidth ty) && bit a (j + shiftCount b)) ∧
    bit (aluSar ty a b) j = bit a (min (j + shiftCount b) (tyWidth ty - 1))) ∧
  (∀ (ty : DType) (a b : W64) (j : Nat), ty ∈ nat2 → j < tyWidth ty →
    bit (aluRot ty a b) ((j + shiftCount b) % tyWidth ty) = bit a j ∧ bit (aluBrev ty a) (tyWidth ty - 1 - j) = bit a j) ∧
  (∀ (ty : DType) (a : W64), ty ∈ nat2 →
    (lowBits (tyWidth ty) a = 0 → aluClz ty a = BitVec.ofNat 64 (tyWidth ty) ∧ aluCtz ty a = BitVec.ofNat 64 (tyWidth ty)) ∧
    aluPopc ty a = BitVec.ofNat 64 ((List.range (tyWidth ty)).filter fun j => bit a j).length ∧
    (∀ j, j < tyWidth ty → bit a j = true → (∀ k, j < k → k < tyWidth ty → bit a k = false) →
      aluClz ty a = BitVec.ofNat 64 (tyWidth ty - 1 - j)) ∧
    (∀ j, j < tyWidth ty → bit a j = true → (∀ k, k < j → bit a k = false) → aluCtz ty a = BitVec.ofNat 64 j)) ∧
  (∀ (ty : DType) (a b c : W64) (j : Nat), ty ∈ int4 → j < tyWidth ty →
    (let p := bits b 7 0
     let n := min (bits b 15 8) (tyWidth ty)
     let field := fun k => decide (p + k < tyWidth ty) && bit a (p + k)
     bit (aluBfx ty a b) j = if j < n then field j else (tySigned ty && decide (0 < n) && field (n - 1))) ∧
    bit (aluBfi ty a b c) j =
      (if bits c 7 0 ≤ j ∧ j < bits c 7 0 + bits c 15 8 then bit b (j - bits c 7 0) else bit a j)) ∧
  (∀ (ty : DType) (a b c : W64), ty ∈ [DType.n32, .i32, .n64] →
    aluLea ty a b c = a + BitVec.ofNat 64 (2 ^ shiftCount c) *
      (if ty = .n32 then lowBits 32 b else if ty = .i32 then signBits 32 b else b)) ∧
  (∀ (f : Fields) (op : Vals → Res) (v : Vals),
    (integerForm (.sel f) = some (f, op) → (op v).d = lowBits (tyWidth f.ty) (if v.pc = true then v.a else v.b)) ∧
    (integerForm (.mov f) = some (f, op) → (op v).d = lowBits (tyWidth f.ty) v.a)) ∧
  (∀ imm : W32, aluPlog imm false false = imm.getLsbD 0 ∧ aluPlog imm false true = imm.getLsbD 1 ∧ aluPlog imm true false = imm.getLsbD 2 ∧
    aluPlog imm true true = imm.getLsbD 3) ∧
  (∀ (a b c : W64),
    (let sum := (c.setWidth 32).toInt + ((List.range 4).map fun k => ((a >>> (8 * k)).setWidth 8).toInt * ((b >>> (8 * k)).setWidth 8).toInt).sum
     aluIdp4 .i8 false a b c = (BitVec.ofInt 32 sum).setWidth 64 ∧ intVal .i32 (aluIdp4 .i8 true a b c) = clampTo .i32 sum) ∧
    (let sum := (c.setWidth 32).toNat + ((List.range 4).map fun k => ((a >>> (8 * k)).setWidth 8).toNat * ((b >>> (8 * k)).setWidth 8).toNat).sum
     aluIdp4 .n8 false a b c = BitVec.ofNat 64 (sum % 2 ^ 32) ∧ aluIdp4 .n8 true a b c = BitVec.ofNat 64 (min sum (2 ^ 32 - 1)))) ∧
  (∀ (ty : DType) (sat : Bool) (a b c : W64), ty ∈ int4 →
    ∀ r ∈ [aluAdd ty sat a b, aluSub ty sat a b, aluMul ty sat a b, aluMulh ty a b, aluMad ty sat a b c, aluDiv ty a b, aluRem ty a b, aluMin ty a b,
           aluMax ty a b, aluAbs ty sat a, aluAnd ty a b, aluOr ty a b, aluXor ty a b, aluAndn ty a b, aluNot ty a, aluShl ty a b, aluShr ty a b,
           aluSar ty a b, aluRot ty a b, aluBrev ty a, aluBfx ty a b, aluBfi ty a b c], lowBits (tyWidth ty) r = r)

/-- Every floating-point result that is a NaN is the canonical NaN of its format: payloads and signs are never carried forward (R107). -/
def nanIsCanonical : Prop :=
  ∀ (ty : DType) (m : FpMod) (a b c : W64), ty ∈ fp3 →
    ∀ x ∈ [(fpAdd ty m false a b).1, (fpAdd ty m true a b).1, (fpMul ty m a b).1, (fpFma ty m a b c).1, (fpMinMax ty m false a b).1,
           (fpMinMax ty m true a b).1, (fpRound ty m a).1, (fpScale ty m a b).1],
      ∀ sg, (tyFmt ty).decode x.toNat = .nan sg → x = BitVec.ofNat 64 (tyFmt ty).nanCode

/-- The integer operations compute the results that R95 to R104 give, on every operand, and every floating-point result that is a NaN is the
canonical one (R107). (FloatValues gives the finite results of the floating-point operations.) -/
def Obligations.OperationValues : Prop := integerTable ∧ nanIsCanonical

/-! ### Floating-point results -/

/-- A finite value is the real number x (R105). -/
def isReal (v : FpVal) (x : ℝ) : Prop :=
  match v with
  | .fin s m e => x = (if s = true then -1 else 1) * (m : ℝ) * (2 : ℝ) ^ e
  | _ => False

/-- A code of a format is finite, of the number y. -/
def codeReal (f : Fmt) (c : Nat) (y : ℝ) : Prop := c < 2 ^ f.width ∧ isReal (f.decode c) y

/-- A code is that of the number x rounded to the finite numbers of a format: to the nearest, a tie to the even mantissa; toward zero; down; up
(R108). -/
def roundsTo (f : Fmt) (rm : Rm) (x : ℝ) (c : Nat) : Prop :=
  ∃ y, codeReal f c y ∧
    match rm with
    | .rne => ∀ d z, codeReal f d z → |x - y| ≤ |x - z| ∧ (|x - y| = |x - z| → z ≠ y → c % 2 = 0)
    | .rz => |y| ≤ |x| ∧ 0 ≤ x * y ∧ ∀ d z, codeReal f d z → 0 ≤ x * z → |z| ≤ |x| → |z| ≤ |y|
    | .rd => y ≤ x ∧ ∀ d z, codeReal f d z → z ≤ x → z ≤ y
    | .ru => x ≤ y ∧ ∀ d z, codeReal f d z → x ≤ z → y ≤ z

/-- The number x overflows to an infinity: at half a step or more above the largest finite magnitude for the nearest mode; any amount beyond it in the
direction of a directed mode (R108). -/
def overflows (f : Fmt) (rm : Rm) (x : ℝ) : Prop :=
  ∃ top next, codeReal f f.maxCode top ∧ codeReal f (f.maxCode - 1) next ∧
    match rm with
    | .rne => 3 * top - next ≤ 2 * |x|
    | .rz => False
    | .rd => x < -top
    | .ru => top < x

/-- A code has the sign of the number x, or the given one for a zero. -/
def signedAs (f : Fmt) (zero : Bool) (x : ℝ) (c : Nat) : Prop :=
  (x < 0 → c / 2 ^ (f.eb + f.mb) = 1) ∧ (0 < x → c / 2 ^ (f.eb + f.mb) = 0) ∧ (x = 0 → c / 2 ^ (f.eb + f.mb) = b2n zero)

/-- A word is what a floating-point operation delivers for the exact result x, whose sign is `zero` where it is 0: an infinity where x overflows, else x
rounded once; under FTZ a subnormal result is a zero of its sign (R108, R110). -/
def delivers (f : Fmt) (rm : Rm) (ftz zero : Bool) (x : ℝ) (w : W64) : Prop :=
  ∃ c, signedAs f zero x c ∧ (overflows f rm x → c % 2 ^ (f.eb + f.mb) = f.maxCode + 1) ∧ (¬ overflows f rm x → roundsTo f rm x c) ∧
    w = BitVec.ofNat 64 (if ftz = true ∧ f.isSubnormal c = true then c - c % 2 ^ f.mb else c)

/-- A code is that of x rounded and saturated: the rounded number, or the largest of its sign where no finite number is in the direction of the mode
(R116). -/
def saturates (f : Fmt) (rm : Rm) (zero : Bool) (x : ℝ) (c : Nat) : Prop :=
  signedAs f zero x c ∧ ((∃ d, roundsTo f rm x d) → roundsTo f rm x c) ∧
  ((∀ d, ¬ roundsTo f rm x d) → c % 2 ^ (f.eb + f.mb) = f.maxCode)

/-- An integer is x rounded to an integral value (R115, R116). -/
def integral (rm : Rm) (x : ℝ) (n : Int) : Prop :=
  match rm with
  | .rne => 2 * |x - n| ≤ 1 ∧ (2 * |x - n| = 1 → n % 2 = 0)
  | .rz => |x - n| < 1 ∧ |(n : ℝ)| ≤ |x| ∧ 0 ≤ x * n
  | .rd => (n : ℝ) ≤ x ∧ x < n + 1
  | .ru => (n : ℝ) - 1 < x ∧ x ≤ n

/-- The sign of an exact zero that terms of the given signs sum to (R108). -/
def zeroOf (rm : Rm) (signs : List Bool) : Bool := if signs.all id then true else if signs.all not then false else decide (rm = .rd)

/-- The codes of the formats have the numbers of R105, and a source is its code's number after FTZ, abs and neg (R110, R111). -/
def codeValues : Prop :=
  (∀ f ∈ [fmtF32, fmtF16, fmtBf16, fmtE5m2, fmtE4m3, fmtE3m2, fmtE2m3, fmtE2m1], ∀ c : Nat, c < 2 ^ f.width →
    let neg := decide (2 ^ (f.eb + f.mb) ≤ c)
    let ex := c / 2 ^ f.mb % 2 ^ f.eb
    let ma := c % 2 ^ f.mb
    let top := decide (f.top = .ieee ∧ ex = 2 ^ f.eb - 1 ∨ f = fmtE4m3 ∧ c % 128 = 127)
    (top = true → f.decode c = if f.top = .ieee ∧ ma = 0 then .inf neg else .nan (decide (f.top = .ieee ∧ ma < 2 ^ (f.mb - 1)))) ∧
    (top = false → (f.decode c).sign = neg ∧ isReal (f.decode c) ((if neg = true then -1 else 1) *
      (if ex = 0 then (2 : ℝ) ^ (1 - (f.bias : Int)) * (ma / 2 ^ f.mb) else (2 : ℝ) ^ ((ex : Int) - f.bias) * (1 + ma / 2 ^ f.mb))))) ∧
  codeReal fmtF32 fmtF32.maxCode (2 ^ 128 - 2 ^ 104) ∧ codeReal fmtF16 fmtF16.maxCode 65504 ∧ codeReal fmtBf16 fmtBf16.maxCode (2 ^ 128 - 2 ^ 120) ∧
  codeReal fmtE5m2 0x7B 57344 ∧ codeReal fmtE4m3 0x7E 448 ∧ codeReal fmtE3m2 0x1F 28 ∧ codeReal fmtE2m3 0x1F 7.5 ∧ codeReal fmtE2m1 7 6 ∧
  (∀ f ∈ [fmtF32, fmtF16, fmtBf16, fmtE5m2, fmtE4m3, fmtE2m1], ∀ (ftz abs neg : Bool) (w : W64) (x : ℝ),
    let c := (w.setWidth f.width).toNat
    isReal (f.decode c) x →
    let y := if ftz = true ∧ f.isSubnormal c = true then 0 else x
    let z := if abs = true then |y| else y
    isReal (f.source ftz abs neg w) (if neg = true then -z else z) ∧
    (f.source ftz abs neg w).sign = (neg != (!abs && (f.decode c).sign)))

/-- The finite results of the floating-point operations on finite sources (R111 to R115). -/
def floatResults : Prop :=
  (∀ (ty : DType) (p : FpMod) (a b c : W64) (x y z : ℝ), ty ∈ fp3 →
    let f := tyFmt ty
    let sa := (p.a f a).sign
    let sb := (p.b f b).sign
    isReal (p.a f a) x →
    (∀ n, integral p.rm x n → delivers f p.rm p.ftz sa n (fpRound ty p a).1) ∧
    delivers f p.rm p.ftz sa (x * (2 : ℝ) ^ (b.setWidth 32).toInt) (fpScale ty p a b).1 ∧
    (x ≠ 0 → delivers f p.rm p.ftz sa (1 / x) (fpElem .rcp ty p a).1) ∧
    (0 < x → delivers f p.rm p.ftz sa (Real.sqrt x) (fpElem .sqrt ty p a).1 ∧ delivers f p.rm p.ftz sa (1 / Real.sqrt x) (fpElem .rsq ty p a).1) ∧
    (p.ftz = false → fpClass ty p a =
      (if x = 0 then (if sa = true then 32 else 64)
       else if |x| < (2 : ℝ) ^ (1 - (f.bias : Int)) then (if sa = true then 16 else 128) else (if sa = true then 8 else 256))) ∧
    (isReal (p.b f b) y →
      delivers f p.rm p.ftz (zeroOf p.rm [sa, sb]) (x + y) (fpAdd ty p false a b).1 ∧
      delivers f p.rm p.ftz (zeroOf p.rm [sa, !sb]) (x - y) (fpAdd ty p true a b).1 ∧
      delivers f p.rm p.ftz (sa != sb) (x * y) (fpMul ty p a b).1 ∧
      delivers f p.rm p.ftz (sa || sb) (min x y) (fpMinMax ty p false a b).1 ∧
      delivers f p.rm p.ftz (sa && sb) (max x y) (fpMinMax ty p true a b).1 ∧
      ((fpCompare 0 ty p a b).1 = true ↔ x = y) ∧ ((fpCompare 1 ty p a b).1 = true ↔ x ≠ y) ∧ ((fpCompare 2 ty p a b).1 = true ↔ x < y) ∧
      ((fpCompare 3 ty p a b).1 = true ↔ x ≤ y) ∧ ((fpCompare 4 ty p a b).1 = true ↔ x > y) ∧ ((fpCompare 5 ty p a b).1 = true ↔ x ≥ y) ∧
      (isReal (p.c f c) z → delivers f p.rm p.ftz (zeroOf p.rm [sa != sb, (p.c f c).sign]) (x * y + z) (fpFma ty p a b c).1))) ∧
  (∀ (ty : DType) (p : FpMod) (a b c : W64) (x0 x1 y0 y1 z : ℝ), ty ∈ [DType.f16, .bf16] →
    let f := tyFmt ty
    let lo := fun w : W64 => lowBits 16 w
    let hi := fun w : W64 => lowBits 16 (w >>> 16)
    (isReal (p.a f (lo a)) x0 → isReal (p.a f (hi a)) x1 → isReal (p.b f (lo b)) y0 → isReal (p.b f (hi b)) y1 → isReal (p.c fmtF32 c) z →
      delivers fmtF32 p.rm p.ftz (zeroOf p.rm [(p.a f (lo a)).sign != (p.b f (lo b)).sign, (p.a f (hi a)).sign != (p.b f (hi b)).sign,
        (p.c fmtF32 c).sign]) (x0 * y0 + x1 * y1 + z) (fpFdp2 ty p a b c).1) ∧
    (∀ h ∈ [lo, hi], h (fpHadd2 ty p a b).1 = (fpAdd ty p false (h a) (h b)).1 ∧ h (fpHmul2 ty p a b).1 = (fpMul ty p (h a) (h b)).1 ∧
      h (fpHfma2 ty p a b c).1 = (fpFma ty p (h a) (h b) (h c)).1) ∧
    (∀ w ∈ [(fpHadd2 ty p a b).1, (fpHmul2 ty p a b).1, (fpHfma2 ty p a b c).1], w = lowBits 32 w))

/-- An L6 code is the number x (R106). -/
def l6Real (c : Nat) (x : ℝ) : Prop :=
  if c % 32 = 16 then x = 0
  else x = (if 32 ≤ c then -1 else 1) * (2 : ℝ) ^ (((BitVec.ofNat 5 c).toInt : ℝ) / 4)

/-- An L6 code is that of x rounded: |x| at or above 2^((2L-1)/8) and below 2^((2L+1)/8) has the quarter count L; below the least it is +0, and
above the greatest the greatest (R117). -/
def l6Rounds (x : ℝ) (c : Nat) : Prop :=
  let sign := fun k => (x < 0 → c = 32 + k) ∧ (0 < x → c = k)
  (|x| ^ 8 < (2 : ℝ) ^ (-31 : Int) → c = 16) ∧ ((2 : ℝ) ^ (31 : Int) ≤ |x| ^ 8 → sign 15) ∧
  (∀ l : Int, -15 ≤ l → l ≤ 15 → (2 : ℝ) ^ (2 * l - 1) ≤ |x| ^ 8 → |x| ^ 8 < (2 : ℝ) ^ (2 * l + 1) → sign (l % 32).toNat)

/-- The number of a finite source of CVT, by its type: an integer, an L6 number with its abs and neg bits, or a float (R116). -/
def cvtReal (src : DType) (p : FpMod) (a : W64) (x : ℝ) : Prop :=
  if tyIsInt src = true then x = intVal src a
  else if src = .l6 then l6Real (l6SourceCode p a) x
  else isReal ((tyFmt src).source (p.ftz && tyIsFp src) p.absA p.negA a) x

/-- The results of CVT and CVTS on finite sources (R116 to R118). -/
def conversionResults : Prop :=
  (∀ (ty src : DType) (p : FpMod) (sat : Bool) (a : W64) (x : ℝ), src ≠ .e8m0 → cvtReal src p a x →
    let r := (fpCvt ty src p sat a).1
    let neg := (cvtSource src p a).sign
    (tyIsInt ty = true →
      r = (if tySigned ty = true ∧ tyWidth ty < 32 then lowBits 32 (signBits (tyWidth ty) r) else lowBits (tyWidth ty) r) ∧
      (tyIsInt src = true → r.setWidth (tyWidth ty) =
        BitVec.ofInt (tyWidth ty) (if sat = true then clampTo ty (intVal src a) else intVal src a)) ∧
      (tyIsInt src = false → ∀ n, integral p.rm x n → r.setWidth (tyWidth ty) = BitVec.ofInt (tyWidth ty) (clampTo ty n))) ∧
    (ty ∈ fp3 → delivers (tyFmt ty) p.rm p.ftz neg x r) ∧
    (ty ∈ [DType.e4m3, .e5m2, .e2m1] → saturates (tyFmt ty) p.rm neg x r.toNat) ∧
    (ty = .l6 → src ≠ .l6 → l6Rounds x r.toNat) ∧
    (ty = .l6 → src = .l6 → r.toNat = if l6SourceCode p a % 32 = 16 then 16 else l6SourceCode p a) ∧
    (ty = .e8m0 → src = .f32 → (x = 0 → r = 0) ∧
      ∀ k : Int, (2 : ℝ) ^ k ≤ |x| → |x| < (2 : ℝ) ^ (k + 1) → r = BitVec.ofNat 64 (max 0 (min 254 (k + 127))).toNat)) ∧
  (∀ (p : FpMod) (sat : Bool) (a : W64), bits a 7 0 < 255 →
    delivers fmtF32 p.rm p.ftz false ((2 : ℝ) ^ ((bits a 7 0 : Int) - 127)) (fpCvt .f32 .e8m0 p sat a).1) ∧
  (∀ (fm : Nat) (p : FpMod) (d a b c : W64) (x : ℝ), fm < 6 → cvtsInRange fm c = true → bits b 7 0 < 255 →
    let wd := [6, 4, 6, 6, 8, 8].getD fm 0
    let at0 := wd * (c.setWidth 32).toNat
    let scale := (2 : ℝ) ^ ((bits b 7 0 : Int) - 127)
    (isReal (p.a fmtF32 a) x → ∃ k, (fm = 0 → l6Rounds (x / scale) k) ∧
      (∀ f, cvtsFmt fm = some f → saturates f p.rm (p.a fmtF32 a).sign (x / scale) k) ∧
      ∀ j, bit (cvtsPack fm p d a b c).1 j =
        if at0 ≤ j ∧ j < at0 + wd then k.testBit (j - at0) else (decide (j < 32) && bit d j)) ∧
    (let k := (a.setWidth 32).toNat / 2 ^ at0 % 2 ^ wd
     (fm = 0 ∧ l6Real k x) ∨ (∃ f, cvtsFmt fm = some f ∧ isReal (f.decode k) x) →
      delivers fmtF32 p.rm p.ftz (decide (k / 2 ^ (wd - 1) = 1)) (x * scale) (cvtsUnpack fm p a b c).1))

/-- The finite results of the floating-point operations and conversions, as real numbers: every sum, product, fused or packed form, FRND, FSCALE, FRCP,
FRSQ, FSQRT, CVT and CVTS delivers its exact result rounded once to the format under RM, with the overflow, zero-sign and FTZ rules; FMIN, FMAX,
FSETP and FCLS order and class the sources as numbers (R105, R106, R108, R110 to R118). -/
def Obligations.FloatValues : Prop := codeValues ∧ floatResults ∧ conversionResults

/-- A long result, or a reply all of whose accesses have performed, lands: it fills its registers with its values, ORs in its flags and lets c into
GWCT; nothing else of the agent's registers changes (R54, R144, R165, R166). -/
def Obligations.ResultsLand : Prop :=
  ∀ (s : State) (a : AgentId) (n : Nat) (x : Agent) (p : Pending), s.agent a = some x → Tbl.find? x.pend n = some p → x.landable n p = true →
    ∃ t y, exec (if p.mem then .loadReply a n else .resultLands a n) s = .next t ∧ t.agent a = some y ∧
      Tbl.find? y.pend n = none ∧ (∀ k, k ≠ n → Tbl.find? y.pend k = Tbl.find? x.pend k) ∧
      y.fp = x.fp ||| p.flags ∧ y.gwct = max x.gwct (p.c.getD 0) ∧ (∀ w ∈ p.lands, y.isEmpty w = false) ∧
      (∀ w, p.lands = [w] → match w with
        | .v l r v => y.getV l r = v
        | .u r v => y.getU r = v
        | .p r l v => r ≠ 7 → l < 32 → y.getP r l = v) ∧
      (∀ l r, (∀ v, .v l r v ∉ p.lands) → l < 32 → r < 128 → (∀ w ∈ p.lands, ∀ i q v, w = .v i q v → q < 128) → y.getV l r = x.getV l r) ∧
      (∀ r, (∀ v, .u r v ∉ p.lands) → y.getU r = x.getU r) ∧
      (∀ r l, (∀ v, .p r l v ∉ p.lands) → (∀ w ∈ p.lands, ∀ q i v, w = .p q i v → i < 32) → y.getP r l = x.getP r l)

/-- The group operations whose results are written at the beat, with the width and the value for each contributing lane (R120, R121, R125, R126). -/
def groupAtOnce (b : Beat) : Instr → Option (Nat × (Nat → W64))
  | .shfl f => some (slotWidth b.row.d, fun i => b.valA (shflSource f.fn (shflWidth (b.num b.row.c f.c i)) (b.num b.row.b f.b i) i))
  | .vote f => some (32, fun _ => voteResult f.fn (lanesIn b.perf) b.predA)
  | .rdln f => some (slotWidth b.row.d, fun _ => b.valA (b.num b.row.b f.b (lowestLane b.act) % 32))
  | .mtch f => some (32, fun i =>
      (maskOf (lanesIn b.perf) fun j => decide (b.valA j = b.valA (if f.uni then lowestLane b.act else i))).setWidth 64)
  | _ => none

/-- The registers that a group operation reads in lanes of its own are full (R55, R119). -/
def readsFull (b : Beat) : Instr → Prop
  | .shfl f => slotEmpty b.x Slot.isSrc b.row.a f.a
      ((lanesIn b.perf).map fun i => shflSource f.fn (shflWidth (b.num b.row.c f.c i)) (b.num b.row.b f.b i) i) = false
  | .rdln f => slotEmpty b.x Slot.isSrc b.row.a f.a [b.num b.row.b f.b (lowestLane b.act) % 32] = false
  | .rebal f => slotEmpty b.x Slot.isSrc b.row.b f.b [lowestLane b.act] = false
  | _ => True

/-- SHFL, VOTE, RDLN and MATCH complete their one beat: every contributing lane's destination holds its value and is full, and FPFLAGS stays. -/
def Obligations.GroupValues : Prop :=
  ∀ (i : Instr) (f : Fields) (n : BitVec 8) (w : Nat) (v : Nat → W64) (s : State) (b : Beat),
    formOf i = some (n, f) → groupAtOnce b i = some (w, v) → Due i f s b → readsFull b i → b.perf ≠ 0 →
    ∃ t y, exec i s = .next t ∧ t.agent b.a = some y ∧ y.fp = b.x.fp ∧ ∀ l ∈ lanesIn b.perf, y.holds w l f.d (v l)

/-- An operation applied in order over some lanes' values. -/
def foldLanes (op : W64 → W64 → W64 × FpFlags) (val : Nat → W64) : List Nat → Option W64
  | [] => none
  | i :: rest => some (rest.foldl (fun x j => (op x (val j)).1) (val i))

/-- GRED, GSCAN and REBAL complete their one beat with every destination empty and one result under way. GRED brings the tree's value and the count of
contributing lanes to every contributing lane; GSCAN brings lane i the values of the contributing lanes up to i in ascending order (for the
exclusive form of those below i, the identity for the first), and the total to E, a NaN result being the canonical one (R107); REBAL brings lane i the row and offset of position c + i, and
0xFFFFFFFF and 0 past the end (R122 to R124). -/
def Obligations.GroupCombines : Prop :=
  ∀ (i : Instr) (f : Fields) (n : BitVec 8) (s : State) (b : Beat),
    formOf i = some (n, f) → (i = .gred f ∨ i = .gscan f ∨ i = .rebal f) → Due i f s b → readsFull b i → b.perf ≠ 0 → b.alive →
    ∃ t y k p, exec i s = .next t ∧ t.agent b.a = some y ∧ Tbl.find? y.pend k = some p ∧ p.mem = false ∧ (∀ w ∈ p.writes, y.isEmpty w = true) ∧
      (i = .gred f → ∀ l ∈ lanesIn b.perf,
        let r := gredTree (redOp f.fn.toNat f.ty f.rm) (lanes32.map fun j => if b.perf.getLsbD j then some (b.valA j) else none)
        (∀ w ∈ destWrites (slotWidth b.row.d) l (redDeliver f.fn.toNat r.1) f.d, w ∈ p.writes) ∧
        (∀ w ∈ destWrites 32 l (BitVec.ofNat 64 (lanesIn b.perf).length) f.e, w ∈ p.writes) ∧ y.fp = b.x.fp ||| r.2) ∧
      (i = .gscan f → ∀ l ∈ lanesIn b.perf,
        let op := redOp (f.fn.toNat % 8) f.ty f.rm
        let upTo := foldLanes op b.valA ((lanesIn b.perf).filter fun j => decide (j ≤ l))
        let below := foldLanes op b.valA ((lanesIn b.perf).filter fun j => decide (j < l))
        let v := if f.fn.getLsbD 3 then below.getD (scanIdentity (f.fn.toNat % 8) f.ty) else upTo.getD 0
        (∀ w ∈ destWrites (slotWidth b.row.d) l (redDeliver (f.fn.toNat % 8) v) f.d, w ∈ p.writes) ∧
        (∀ w ∈ destWrites (slotWidth b.row.e) l (redDeliver (f.fn.toNat % 8) ((foldLanes op b.valA (lanesIn b.perf)).getD 0)) f.e, w ∈ p.writes)) ∧
      (i = .rebal f → ∀ l ∈ lanesIn b.perf,
        let len := fun j => if b.perf.getLsbD j then (b.valA j).toNat else 0
        let pre := fun j => ((lanes32.take j).map len).sum
        let pos := b.num b.row.b f.b (lowestLane b.act) + l
        (∀ r, r < 32 → pre r ≤ pos → pos < pre (r + 1) →
          (∀ w ∈ destWrites 32 l (BitVec.ofNat 64 r) f.d, w ∈ p.writes) ∧ (∀ w ∈ destWrites 32 l (BitVec.ofNat 64 (pos - pre r)) f.e, w ∈ p.writes)) ∧
        (pre 32 ≤ pos → (∀ w ∈ destWrites 32 l 0xFFFFFFFF#64 f.d, w ∈ p.writes) ∧ (∀ w ∈ destWrites 32 l 0 f.e, w ∈ p.writes)) ∧
        (∀ w ∈ destWrites 32 l (BitVec.ofNat 64 (min (min (pos - l + 32) (pre 32)) 0xFFFFFFFF)) f.g, w ∈ p.writes))

/-- The special registers of a group other than DTIME and LIVEMASK, by number, as a lane reads them (R4, R77, R130). -/
def groupSpecials (b : Beat) (l : Launch) (lane : Nat) : List (Nat × Nat) :=
  [(0x00, lane), (0x01, b.a.who), (0x02, b.t.g0 + b.t.g1), (0x03, b.t.x), (0x04, b.t.y), (0x05, b.t.z), (0x06, l.gx), (0x07, l.gy), (0x08, l.gz),
   (0x09, b.x.role), (0x0A, b.cluster), (0x0B, b.cluster / 32), (0x0D, b.x.cseq.toNat), (0x0E, b.x.n.toNat), (0x0F, b.x.p.toNat), (0x10, b.x.f.toNat),
   (0x12, b.x.arr.a.toNat), (0x13, b.x.fp.toNat), (0x14, 0x0100), (0x15, b.t.cls), (0x16, l.args.toNat), (0x17, 0x4000000000000000),
   (0x18, 0x6000000000000800), (0x19, if b.t.shedNote = true then 1 else 0)]

/-- Those of a control thread (R4, R77, R130). -/
def threadSpecials (b : Beat) (l : Launch) : List (Nat × Nat) :=
  [(0x00, 0), (0x01, 0xFFFFFFFF), (0x02, b.t.g0 + b.t.g1), (0x03, b.t.x), (0x04, b.t.y), (0x05, b.t.z), (0x06, l.gx), (0x07, l.gy), (0x08, l.gz),
   (0x09, 0xFFFFFFFF), (0x0A, b.cluster), (0x0B, b.cluster / 32), (0x0D, b.x.cseq.toNat), (0x0E, b.x.n.toNat), (0x0F, b.x.p.toNat),
   (0x10, (b.x.lane 0).d.toNat), (0x11, 1), (0x12, 1), (0x13, b.x.fp.toNat), (0x14, 0x0100), (0x15, b.t.cls), (0x16, l.args.toNat),
   (0x17, 0x4000000000000000), (0x18, 0x6000000000000000), (0x19, if b.t.shedNote = true then 1 else 0)]

/-- MFS gives the special register that IMM names: for DTIME the device time, where the team neither replays nor lacks room in its log, for every other
number the value of its table, in a group LIVEMASK with a bit for each lane that is not DONE; MTS puts the low five bits of A into FPFLAGS; QSTAT
gives the number of entries that the queue holds (R4, R77, R127 to R130). -/
def Obligations.SpecialRegisters : Prop :=
  (∀ (f : Fields) (s : State) (b : Beat), Due (.mfs f) f s b → quseOf b.row f = .none → b.single → b.perf ≠ 0 →
    (f.imm = 0x0C → replaying (s.tctlOf b.t) = false ∧ s.logRoom b.t b.lanes.length = true ∧ s.logReady b.t b.x = true) →
    ∃ t y, exec (.mfs f) s = .next t ∧ t.agent b.a = some y ∧ y.fp = b.x.fp ∧
      ∀ l ∈ b.written, y.holds (slotWidth b.row.d) l f.d
        (if f.imm = 0x0C then BitVec.ofNat 64 s.dtime else special s b (b.sourceOf l) f.imm.toNat)) ∧
  (∀ (s : State) (b : Beat) (g : Grid) (l : Nat), Tbl.find? s.grids b.t.grid = some g →
    (b.x.kind = .group → (∀ e ∈ groupSpecials b g.launch l, special s b l e.1 = BitVec.ofNat 64 e.2) ∧
      ∀ j, bit (special s b l 0x11) j = (decide (j < 32 ∧ j < b.x.lanes.length) && !decide ((b.x.lane j).s = .done))) ∧
    (b.x.kind ≠ .group → ∀ e ∈ threadSpecials b g.launch, special s b l e.1 = BitVec.ofNat 64 e.2)) ∧
  (∀ (f : Fields) (s : State) (b : Beat), Due (.mts f) f s b → quseOf b.row f = .none → b.perf ≠ 0 →
    ∃ t y, exec (.mts f) s = .next t ∧ t.agent b.a = some y ∧ y.fp = ((valsOf b 0 [] (b.lanes.headD 0)).a).setWidth 5 ∧
      y.v = b.x.v ∧ y.u = b.x.u ∧ y.pr = b.x.pr) ∧
  (∀ (f : Fields) (q : BitVec 4) (s : State) (b : Beat), Due (.qstat f) f s b → f.a = .q q → (∀ r, f.d ≠ .q r) → b.single →
    b.perf ≠ 0 →
    ∃ t y, exec (.qstat f) s = .next t ∧ t.agent b.a = some y ∧ ∀ l ∈ b.written, y.holds 32 l f.d (BitVec.ofNat 64 (b.t.fillOf q.toNat)))

/-- A register form that names no queue, with its fields. -/
def registerForm : Instr → Option Fields
  | .shfl f | .vote f | .rdln f | .mtch f | .gred f | .gscan f | .rebal f => some f
  | i => match integerForm i, floatForm i, longForm i with
    | some e, _, _ => some e.1
    | _, some e, _ => some e.1
    | _, _, some e => some e.1
    | _, _, _ => none

/-- Lane register k is one that a destination of the form names (R44). -/
def namesV (b : Beat) (k : Nat) : Prop :=
  ∃ (slot : Slot) (r : BitVec 7), (slot, Operand.v r) ∈ [(b.row.d, b.f.d), (b.row.e, b.f.e), (b.row.g, b.f.g)] ∧
    (k = r.toNat ∨ (slotWidth slot = 64 ∧ k = r.toNat + 1))

/-- The frame of the register forms, where a lane of the group runs on and no team barrier releases: only the destinations, FPFLAGS and the sweep's own
state of the agent change. Every other agent, every queue, tile, token, barrier and copy state of every team, the partitions' registers, the
power controller, and all memory stay, but for the frame word that a rise in depth from 16 or more stores (R66, R97, R111, R119). That of the
sequencer's words only this one changes, at this moment, is the model's choice (log entry 26). -/
def Obligations.RegisterFrame : Prop :=
  ∀ (i : Instr) (f : Fields) (s t : State) (b : Beat),
    registerForm i = some f → Due i f s b → readsFull b i →
    quseOf b.row f = .none → b.alive → b.t.barReady = false → exec i s = .next t →
    (∀ c, c ≠ b.a → t.agent c = s.agent c) ∧
    (∃ y, t.agent b.a = some y ∧ y.kind = b.x.kind ∧ y.gwct = b.x.gwct ∧ y.acks = b.x.acks ∧ y.ops = b.x.ops ∧ y.pcause = b.x.pcause ∧ y.pepc = b.x.pepc ∧
      y.paddr = b.x.paddr ∧ y.phnd = b.x.phnd ∧ y.inh = b.x.inh ∧ y.cseq = b.x.cseq ∧ y.stop = b.x.stop ∧
      (∀ l k, l < 32 → k < 128 → (¬ namesV b k ∨ l ∉ b.written) → y.getV l k = b.x.getV l k ∧ y.emptyV l k = b.x.emptyV l k) ∧
      (∀ k, k < 64 → (∀ r : BitVec 6, k = r.toNat → f.d ≠ .u r ∧ f.e ≠ .u r ∧ f.g ≠ .u r) → y.getU k = b.x.getU k ∧ y.emptyU k = b.x.emptyU k) ∧
      (∀ k l, k < 8 → l < 32 → (∀ r : BitVec 3, k = r.toNat → f.d ≠ .p r ∧ f.e ≠ .p r) → y.getP k l = b.x.getP k l ∧ y.emptyP k l = b.x.emptyP k l)) ∧
    (∀ n u, s.team n = some u → ∃ v, t.team n = some v ∧ v.q = u.q ∧ v.drain = u.drain ∧ v.tiles = u.tiles ∧ v.ranges = u.ranges ∧ v.qbind = u.qbind ∧
      v.rings = u.rings ∧ v.tok = u.tok ∧ v.bars = u.bars ∧ v.copies = u.copies ∧ v.cseq = u.cseq ∧ v.res = u.res) ∧
    t.parts = s.parts ∧ t.pwc = s.pwc ∧ t.dies = s.dies ∧ t.pairs = s.pairs ∧ t.cmds = s.cmds ∧ t.dtime = s.dtime ∧ t.rlt = s.rlt ∧
    (b.x.f.toNat < 16 ∨ b.x.kind ≠ .group → t.mem = s.mem) ∧
    (∀ loc, (∀ p, seqPlace s b.t b.a.who 0 (1024 + 4 * b.x.f.toNat) true = some p → loc < p.loc ∨ p.loc + 4 ≤ loc) →
      s.spillByte loc = false → t.byteAt loc = s.byteAt loc)

/-- No frame of the group is spilled at the end of the beat, and no team barrier releases: the sweep itself stores nothing (R66). -/
def noSpill (b : Beat) : Prop := (b.x.f.toNat < 16 ∨ b.x.kind ≠ .group) ∧ b.t.barReady = false ∧ b.alive

/-- The register forms that may name a queue, with what each gives for a lane's source values, and whether the result is a long one. -/
def queueForm (i : Instr) : Option (Fields × (Vals → Res) × Bool) :=
  match integerForm i, floatForm i, longForm i with
  | some e, _, _ => some (e.1, e.2, false)
  | _, some e, _ => some (e.1, e.2, false)
  | _, _, some e => some (e.1, e.2, true)
  | _, _, _ => none

/-- The oldest entry of a queue: a word with its CSEQ, or the 128 bytes of an entry of a bound drain queue (R12, R14, R212). -/
def oldest (t : Team) (q : Nat) (w : W64) (c : W32) (bytes : List Byte) : Prop :=
  if q = 12 ∨ q = 13 then bound (t.bind q) = true ∧ w = 0 ∧ c = 0 ∧ bytes.length = 128 ∧ ∃ es, Tbl.get [] t.drain q = bytes :: es
  else bytes = [] ∧ ∃ es, t.queue q = (w, c) :: es

/-- A queue holds no entry. -/
def dry (t : Team) (q : Nat) : Prop := if q = 12 ∨ q = 13 then Tbl.get [] t.drain q = [] else t.queue q = []

/-- The oldest entry has left a queue; held events may have entered q15 behind the others (R22). -/
def popped (u t : Team) (q : Nat) : Prop :=
  if q = 12 ∨ q = 13 then Tbl.get [] u.drain q = (Tbl.get [] t.drain q).tail
  else ∃ more, u.queue q = (t.queue q).tail ++ more ∧ (q ≠ 15 → more = [])

/-- A form that reads its one queue source takes the oldest entry, in one beat: the entry leaves the queue, and its word, or for a drain queue bytes 4i
to 4i + 3 of it for lane i, is the source's value; a group that reads a decision queue takes the entry's CSEQ; DIV, REM and an elementary function
leave their results of it under way. With no entry, or others of its class before it, the agent parks on the queue with its lanes at P, and its
place in the queue's order is kept. An unbound drain queue, an empty decision queue whose control thread has ended and an empty report queue whose
groups have ended raise fault 0x0D (R12 to R15, R19, R83, R212, R213, R248). -/
def Obligations.QueueReads : Prop :=
  ∀ (i : Instr) (f : Fields) (op : Vals → Res) (long : Bool) (s : State) (b : Beat) (q : BitVec 4) (wide : Bool),
    queueForm i = some (f, op, long) → Due i f s b →
    quseOf b.row f = .read q wide → b.x.arr.granted = none → b.perf ≠ 0 → b.alive →
    (∀ w c bytes, oldest b.t q.toNat w c bytes → b.t.waitersLike q.toNat b.x.isGroup = [] →
      (f.a = .q q → ∀ l, l < 32 → (valsOf b w bytes l).a =
        if q = 12 ∨ q = 13 then BitVec.ofNat 64 (ofBytes ((bytes.drop (4 * l)).take 4)) else if wide = true then w else lowBits 32 w) ∧
      ∃ t y u, exec i s = .next t ∧ t.agent b.a = some y ∧ t.team b.a.team = some u ∧ popped u b.t q.toNat ∧
        y.cseq = (if b.x.kind = .group ∧ q.toNat ≤ 3 then c else b.x.cseq) ∧
        (long = false → b.single → ∀ l ∈ b.written, y.takes b.x (slotWidth b.row.d) l f.d (op (valsOf b w bytes (b.sourceOf l)))) ∧
        (long = true → ∃ n, Tbl.find? y.pend n = some (Pending.result (spread b (b.lanes.map fun l => (l, op (valsOf b w bytes l))))))) ∧
    ((¬ dry b.t q.toNat ∧ b.t.waitersLike q.toNat b.x.isGroup ≠ []) ∨
        (dry b.t q.toNat ∧ (q.toNat ≤ 3 → b.t.ctlGone = false) ∧ (4 ≤ q.toNat → q.toNat ≤ 7 → b.t.groupsRemain = true)) →
      (q = 12 ∨ q = 13 → bound (b.t.bind q.toNat) = true) →
      ∃ t y u, exec i s = .next t ∧ t.agent b.a = some y ∧ y.issue = .queue ∧ y.lanes = b.x.lanes ∧ t.team b.a.team = some u ∧
        u.waiters q.toNat = b.t.waiters q.toNat ++ [b.a.who] ∧ u.queue q.toNat = b.t.queue q.toNat ∧ u.drain = b.t.drain) ∧
    (((q = 12 ∨ q = 13) ∧ bound (b.t.bind q.toNat) = false) ∨ (dry b.t q.toNat ∧ q.toNat ≤ 3 ∧ b.t.ctlGone = true) ∨
        (dry b.t q.toNat ∧ 4 ≤ q.toNat ∧ q.toNat ≤ 7 ∧ b.t.groupsRemain = false) →
      b.x.kind ≠ .privileged →
      ∃ t, exec i s = .next t ∧ ∀ y, t.agent b.a = some y → y.stoppedAs 0x0D .beat ∧ y.regs = b.x.regs ∧ y.lanes = b.x.lanes)

/-- A form whose destination is a decision or report queue with room pushes its word with the team's CSEQ behind the older entries, and one whose
destination is a bound feed queue with a free line writes that line of its ring, lane i's result in bytes 4i to 4i + 3 and zeros elsewhere, and moves
the ring on; in one beat, and no register changes. On a full queue, or with others of its class before it, the writer parks. A report for a control
thread that has ended is discarded; a full decision queue whose groups have ended, and an unbound feed queue, raise fault 0x0D (R12 to R15, R19, R83,
R213, R216, R238). -/
def Obligations.QueueWrites : Prop :=
  ∀ (i : Instr) (f : Fields) (op : Vals → Res) (long : Bool) (s : State) (b : Beat) (q : BitVec 4) (wide : Bool),
    queueForm i = some (f, op, long) → Due i f s b →
    f.d = .q q → quseOf b.row f = .write q wide → b.x.arr.pushed = false → b.perf ≠ 0 → b.alive →
    let bd := b.t.bind q.toNat
    let r := b.t.ring q.toNat
    let first := b.t.waitersLike q.toNat b.x.isGroup = []
    let ahead := b.t.letThrough q.toNat
    (q.toNat < 8 → (4 ≤ q.toNat → b.t.ctlGone = false) → (b.t.queue q.toNat).length + ahead < 64 → first →
      ∃ t y u, exec i s = .next t ∧ t.agent b.a = some y ∧ y.v = b.x.v ∧ y.u = b.x.u ∧ y.pr = b.x.pr ∧ t.team b.a.team = some u ∧
        u.queue q.toNat = b.t.queue q.toNat ++ [((op (valsOf b 0 [] (b.lanes.headD 0))).d, b.t.cseq)]) ∧
    (4 ≤ q.toNat → q.toNat < 8 → b.t.ctlGone = true →
      ∃ t y u, exec i s = .next t ∧ t.agent b.a = some y ∧ y.v = b.x.v ∧ y.u = b.x.u ∧ y.pr = b.x.pr ∧ t.team b.a.team = some u ∧
        u.queue q.toNat = b.t.queue q.toNat) ∧
    (∀ g, 8 ≤ q.toNat → bound bd = true → Tbl.find? b.t.ranges (bits bd 3 0) = some g → r.fill + ahead < bits bd 37 24 → first →
      ∃ t y u, exec i s = .next t ∧ t.agent b.a = some y ∧ y.v = b.x.v ∧ y.u = b.x.u ∧ y.pr = b.x.pr ∧ t.team b.a.team = some u ∧
        u.ring q.toNat = { wc := bits bd 20 8 + (r.wc - bits bd 20 8 + 1) % bits bd 37 24, rd := r.rd, fill := r.fill + 1 } ∧
        (noSpill b → ∀ loc,
          (∀ l k, l < 32 → k < 4 → loc = obLoc b.a.team ((g.first + r.wc) * 128) + 4 * l + k →
            t.byteAt loc = if l ∈ b.lanes then BitVec.ofNat 8 ((op (valsOf b 0 [] l)).d.toNat / 256 ^ k) else 0) ∧
          (loc < obLoc b.a.team ((g.first + r.wc) * 128) ∨ obLoc b.a.team ((g.first + r.wc) * 128) + 128 ≤ loc → t.byteAt loc = s.byteAt loc))) ∧
    ((q.toNat < 8 ∧ (4 ≤ q.toNat → b.t.ctlGone = false) ∧ (q.toNat ≤ 3 → b.t.groupsRemain = true) ∧
          (64 ≤ (b.t.queue q.toNat).length + ahead ∨ ¬ first)) ∨
        (8 ≤ q.toNat ∧ bound bd = true ∧ (bits bd 37 24 ≤ r.fill + ahead ∨ ¬ first)) →
      ∃ t y u, exec i s = .next t ∧ t.agent b.a = some y ∧ y.issue = .queue ∧ y.lanes = b.x.lanes ∧ t.team b.a.team = some u ∧
        u.queue q.toNat = b.t.queue q.toNat ∧ u.ring q.toNat = r ∧ u.waiters q.toNat = b.t.waiters q.toNat ++ [b.a.who]) ∧
    ((q.toNat ≤ 3 ∧ b.t.groupsRemain = false ∧ 64 ≤ (b.t.queue q.toNat).length) ∨ (8 ≤ q.toNat ∧ bound bd = false) → b.x.kind ≠ .privileged →
      ∃ t, exec i s = .next t ∧ ∀ y, t.agent b.a = some y → y.stoppedAs 0x0D .beat ∧ y.lanes = b.x.lanes)

/-- Before its first beat a form waits: on an incomplete token of WK, and on an empty source, guard or destination; it then blocks with its lanes and
registers as they were. An empty source under its FE bit raises fault 0x04 instead, precise at the beat (R16, R55). -/
def Obligations.FormsWait : Prop :=
  ∀ (i : Instr) (f : Fields) (r : Row) (s : State) (a : AgentId) (t : Team) (x : Agent),
    s.current = some (a, t, x) → rowFor i = some r →
    ((integerForm i).map Prod.fst = some f ∨ (floatForm i).map Prod.fst = some f ∨ (longForm i).map Prod.fst = some f) → quseOf r f = .none →
    let b := beatOf i f r a t x
    let full := readiness x (checkedRow i r) f (if b.perf ≠ 0 then sourceLanes i f b.act b.perf else []) (lanesIn b.perf) (lanesIn b.act)
      (x.arr.granted.isSome || x.arr.pushed)
    (tokensDone t x.arr.wk = false → ∃ u y, exec i s = .next u ∧ u.agent a = some y ∧ y.block = some .token ∧ y.regs = x.regs ∧
      y.lanes = x.lanes ∧ y.issue = .beats) ∧
    (tokensDone t x.arr.wk = true → full = .blocked → ∃ u y, exec i s = .next u ∧ u.agent a = some y ∧ y.block = some .empty ∧
      y.regs = x.regs ∧ y.lanes = x.lanes ∧ y.issue = .beats) ∧
    (tokensDone t x.arr.wk = true → full = .trap → x.kind ≠ .privileged → ∃ u, exec i s = .next u ∧ ∀ y, u.agent a = some y →
      y.stoppedAs 0x04 .beat ∧ y.regs = x.regs ∧ y.lanes = x.lanes ∧
      y.restart = if f.uni then 0 else b.quad)

/-! ### Sweep and synchronisation -/

/-- The lanes of the agent after a beat: those of A(P) in the beat want the given label, all others stay as they were, and no depth, state or link
changes. -/
def wantsAfter (b : Beat) (y : Agent) (want : Nat → Label) : Prop :=
  ∀ l, l < b.x.lanes.length →
    (y.lane l) = if b.act.getLsbD l then { b.x.lane l with w := want l } else b.x.lane l

/-- J and JR: every performing lane wants the target where the jump is taken, every other lane of the beat the next index; a JR target of 2^28 or more
raises fault 0x08 with no lane changed (R62, R80). -/
def jumpsGo : Prop :=
  (∀ (f : Fields) (s : State) (b : Beat), Due (.j f) f s b →
    ∃ t y, exec (.j f) s = .next t ∧ t.agent b.a = some y ∧ wantsAfter b y fun l =>
      if b.perf.getLsbD l = true ∧ (f.fn = 0 ∨ (f.fn = 1 ∧ targetVal b 0 ≠ 0) ∨ (f.fn = 2 ∧ targetVal b 0 = 0)) then immTarget f else b.x.p + 1) ∧
  (∀ (f : Fields) (s : State) (b : Beat), Due (.jr f) f s b → (∀ l ∈ lanesIn b.perf, (targetVal b l).toNat < 2 ^ 28) →
    ∃ t y, exec (.jr f) s = .next t ∧ t.agent b.a = some y ∧ wantsAfter b y fun l =>
      if b.perf.getLsbD l then (targetVal b l).setWidth 28 else b.x.p + 1) ∧
  (∀ (f : Fields) (s : State) (b : Beat), Due (.jr f) f s b → (∃ l ∈ lanesIn b.perf, 2 ^ 28 ≤ (targetVal b l).toNat) →
    b.x.kind ≠ .privileged →
    ∃ t, exec (.jr f) s = .next t ∧ ∀ y, t.agent b.a = some y → y.stoppedAs 0x08 .beat ∧
      y.lanes = b.x.lanes ∧ y.restart = if f.uni then 0 else b.quad)

/-- CALL, CALLR and RET: a performing lane goes a depth deeper with P + 1 as its link at the depth it leaves and wants the target, or comes back a depth
and wants the link it pops; at depth 255, or 0, fault 0x0C is raised with no lane changed (R62, R65, R80, R81). -/
def callsGo : Prop :=
  (∀ (i : Instr) (f : Fields) (s : State) (b : Beat) (target : Nat → Label),
    ((i = .call f ∧ target = fun _ => immTarget f) ∨
      (i = .callr f ∧ (target = fun l => (targetVal b l).setWidth 28) ∧ ∀ l ∈ lanesIn b.perf, (targetVal b l).toNat < 2 ^ 28)) →
    Due i f s b →
    ((∀ l ∈ lanesIn b.perf, (b.x.lane l).d ≠ 255) → firstBad s b.t b.a.who (callSpills b) = none →
      ∃ t y, exec i s = .next t ∧ t.agent b.a = some y ∧ ∀ l, l < b.x.lanes.length →
        (b.perf.getLsbD l = true → (y.lane l).w = target l ∧ (y.lane l).d = (b.x.lane l).d + 1 ∧ (y.lane l).s = (b.x.lane l).s ∧
          Tbl.find? (y.lane l).link (b.x.lane l).d.toNat = some (b.x.p + 1)) ∧
        (b.perf.getLsbD l = false → y.lane l = if b.act.getLsbD l then { b.x.lane l with w := b.x.p + 1 } else b.x.lane l)) ∧
    ((∃ l ∈ lanesIn b.perf, (b.x.lane l).d = 255) → b.x.kind ≠ .privileged →
      ∃ t, exec i s = .next t ∧ ∀ y, t.agent b.a = some y → y.stoppedAs 0x0C .beat ∧
        y.lanes = b.x.lanes)) ∧
  (∀ (f : Fields) (s : State) (b : Beat), Due (.ret f) f s b →
    ((∀ l ∈ lanesIn b.perf, (b.x.lane l).d ≠ 0) → firstBad s b.t b.a.who (retFills b) = none →
      ∃ t y, exec (.ret f) s = .next t ∧ t.agent b.a = some y ∧ ∀ l, l < b.x.lanes.length →
        (b.perf.getLsbD l = true → (y.lane l).d = (b.x.lane l).d - 1 ∧ (y.lane l).s = (b.x.lane l).s ∧
          (y.lane l).w = match Tbl.find? (b.x.lane l).link ((b.x.lane l).d.toNat - 1) with
            | some w => w
            | none => if b.x.kind = .group then seqRead s b.t b.a.who l (4 * ((b.x.lane l).d.toNat - 1)) else 0) ∧
        (b.perf.getLsbD l = false → y.lane l = if b.act.getLsbD l then { b.x.lane l with w := b.x.p + 1 } else b.x.lane l)) ∧
    ((∃ l ∈ lanesIn b.perf, (b.x.lane l).d = 0) → b.x.kind ≠ .privileged →
      ∃ t, exec (.ret f) s = .next t ∧ ∀ y, t.agent b.a = some y → y.stoppedAs 0x0C .beat ∧
        y.lanes = b.x.lanes))

/-- Control flow: jumps, calls and returns (R62, R80 to R82). -/
def Obligations.ControlFlow : Prop := jumpsGo ∧ callsGo

/-- EXIT: performing lanes are DONE, without depth and links, and keep their registers; lanes that are predicated off fall through. The group ends at the
census that finds every lane DONE; on a control thread the thread has gone (R62, R67, R82, R83). -/
def exitsEnd : Prop :=
  ∀ (f : Fields) (s : State) (b : Beat), Due (.exit f) f s b →
    ∃ t y, exec (.exit f) s = .next t ∧ t.agent b.a = some y ∧ y.regs = b.x.regs ∧
      (∀ l, l < b.x.lanes.length → y.lane l =
        if b.perf.getLsbD l then { b.x.lane l with s := .done, d := 0, link := [] }
        else if b.act.getLsbD l then { b.x.lane l with w := b.x.p + 1 } else b.x.lane l) ∧
      ((f.uni = true ∨ quadsFrom b.x.arr.a (b.quad + 1) = []) →
        (∀ l, l < b.x.lanes.length → b.perf.getLsbD l = true ∨ (b.x.lane l).s = .done) → y.issue = .ended) ∧
      (b.x.kind ≠ .group → b.perf ≠ 0 → ∃ u, t.team b.a.team = some u ∧ u.ctlGone = true)

/-- NOP, WTOK and YIELD send every lane of the beat on, whatever its predicate, and leave every register file as it was; a YIELD with a performing
lane takes the youngest rank (R16, R84, R85). -/
def passingForms : Prop :=
  ∀ (i : Instr) (f : Fields) (s : State) (b : Beat), (i = .nop f ∨ i = .wtok f ∨ i = .yield f) → Due i f s b →
    ∃ t y, exec i s = .next t ∧ t.agent b.a = some y ∧ (wantsAfter b y fun _ => b.x.p + 1) ∧ (∀ c, t.regsOf c = s.regsOf c) ∧
      (i = .yield f → b.perf ≠ 0 → y.rank = s.rankSeq ∧ t.rankSeq = s.rankSeq + 1) ∧
      (i ≠ .yield f ∨ b.perf = 0 → y.rank = b.x.rank ∧ t.rankSeq = s.rankSeq)

/-- EXIT ends its lanes; NOP, WTOK and YIELD send theirs on. -/
def Obligations.LanesGoOnOrEnd : Prop := exitsEnd ∧ passingForms

/-- Every group of the team but the given one has arrived at the team barrier or ended (R87). -/
def othersArrived (b : Beat) : Prop :=
  ∀ e ∈ b.t.agents, e.1 = ctlWho ∨ e.1 = b.a.who ∨ e.2.issue = .ended ∨ ∃ k, Tbl.find? b.t.bars 16 = some k ∧ e.1 ∈ k.waiters

/-- The lanes of A(P) that wait at P go on to P + 1. -/
def passedOn (b : Beat) (y : Agent) : Prop :=
  ∀ l ∈ lanesIn b.x.arr.a, l < b.x.lanes.length → (b.x.lane l).s = .run → (b.x.lane l).w = b.x.p → (y.lane l).w = b.x.p + 1

/-- BAR, BARN and BARA. BAR adds one arrival and the group waits with its lanes at P; it releases, the state zero again, once every group has arrived or
ended. BARN and BARA count an arrival of the named barrier; the arrival that reaches the count releases. A count outside 1 to 128, or that differs
from an armed one, raises fault 0x0B with the barrier unchanged (R86, R87, R89). -/
def Obligations.Barriers : Prop :=
  (∀ (f : Fields) (s : State) (b : Beat), Due (.bar f) f s b → b.t.isEnded = false → b.alive → b.a.who ≠ ctlWho →
    ∃ t y u, exec (.bar f) s = .next t ∧ t.agent b.a = some y ∧ t.team b.a.team = some u ∧
      (othersArrived b → Tbl.find? u.bars 16 = none ∧ passedOn b y) ∧
      (¬ othersArrived b → y.issue = .barrier ∧ y.lanes = b.x.lanes ∧
        Tbl.find? u.bars 16 = some (Bar.arrive (Tbl.find? b.t.bars 16) 0 (some b.a.who)))) ∧
  (∀ (i : Instr) (f : Fields) (s : State) (b : Beat), (i = .barn f ∨ i = .bara f) → Due i f s b → b.alive →
    let k := Bar.arrive (Tbl.find? b.t.bars f.fn.toNat) (barCount b) (if i = .barn f then some b.a.who else none)
    (barRefused b = false → ∃ t y u, exec i s = .next t ∧ t.agent b.a = some y ∧ t.team b.a.team = some u ∧
      (k.arrived = k.count → Tbl.find? u.bars f.fn.toNat = none ∧ passedOn b y) ∧
      (k.arrived ≠ k.count → Tbl.find? u.bars f.fn.toNat = some k ∧
        (i = .barn f → y.issue = .barrier ∧ y.lanes = b.x.lanes) ∧ (i = .bara f → wantsAfter b y fun _ => b.x.p + 1))) ∧
    (barRefused b = true → b.x.kind ≠ .privileged → ∃ t, exec i s = .next t ∧ ∀ y, t.agent b.a = some y → y.stoppedAs 0x0B .beat ∧ y.restart = 0 ∧ y.lanes = b.x.lanes))

/-- TRAP and BRK perform as a whole: where no lane performs, the lanes go on and nothing else happens; otherwise every lane of A(P) takes P + 1, and the
agent takes the fault 0x15 or 0x14 with the performing lanes and IMM, stopped before the census with Restart 0 (R92). -/
def Obligations.TrapsStop : Prop :=
  ∀ (i : Instr) (code : Byte) (f : Fields) (s : State) (b : Beat), ((i = .trap f ∧ code = 0x15) ∨ (i = .brk f ∧ code = 0x14)) →
    Due i f s b →
    (b.perf = 0 → ∃ t y, exec i s = .next t ∧ t.agent b.a = some y ∧ y.regs = b.x.regs ∧ wantsAfter b y fun _ => b.x.p + 1) ∧
    (b.perf ≠ 0 → ∃ u, (i = .trap f → u = s.begun b) ∧ (i = .brk f → u = (s.begun b).traceBreak b.t b.a.who b.x f.imm b.perf) ∧
      exec i s = .next ((((u.modAgent b.a fun x => { x with restart := 0 }).takeFault b.a
        { code := code, how := .census, lanes := b.perf, addr := f.imm.setWidth 64, write := false }).countBeat b true).markHeld b.a)) ∧
    (b.perf ≠ 0 → b.x.kind ≠ .privileged → ∃ t, exec i s = .next t ∧ ∀ y, t.agent b.a = some y → y.stoppedAs code .census ∧ y.restart = 0 ∧ y.regs = b.x.regs ∧ wantsAfter b y fun _ => b.x.p + 1)

/-- A WAIT beat whose lanes all pass the checks sends their requests to their slices and waits for the replies, its lanes still at P (Monitors says how
they park); each request holds the lane's operand, G's deadline or none, and the word's width; a v register in G raises fault 0x01. That the
requests of a beat go as one batch is the model's choice (log entry 19). In a replay run the lanes park at once instead, each held until the log
wakes it, which is the model's choice too (log entry 36) (R256, R258 to R260, R335). -/
def waitsRegister : Prop :=
  ∀ (f : Fields) (s : State) (b : Beat) (l : List Passed), Due (.wait f) f s b → b.perf ≠ 0 →
    s.batchOf b.a = false → waitAll s b (tyWidth f.ty / 8) = .pass l →
    (replaying (s.tctlOf b.t) = false → s.logRoom b.t (if f.uni then 1 else l.length) = true → s.logReady b.t b.x = true →
      ∃ t y n bt, exec (.wait f) s = .next t ∧ t.agent b.a = some y ∧ y.lanes = b.x.lanes ∧ y.issue = .beats ∧ y.block = some .monitor ∧
        Tbl.find? t.batches n = some bt ∧ bt.agent = some b.a ∧ bt.reqs.length = l.length ∧
        ∀ (k : Nat) (q : Passed), l[k]? = some q → ∃ r, bt.reqs[k]? = some r ∧ r.mon.loc = q.place.loc ∧ r.addr = q.addr ∧ r.mon.fn = f.fn ∧
          r.mon.operand = readOp b.x q.lane (if tyWidth f.ty = 64 then 64 else 32) false 0 0 f.c ∧
          (f.g = .zero → r.mon.deadline = 2 ^ 64 - 1) ∧ (∀ g, f.g = .u g → r.mon.deadline = (b.x.getU g.toNat).toNat)) ∧
    (replaying (s.tctlOf b.t) = true →
      ∃ t y, exec (.wait f) s = .next t ∧ t.agent b.a = some y ∧ ∀ q ∈ l, ∀ k ∈ lanesIn (waitMon b q).lanes, k < b.x.lanes.length →
        (y.lane k).s = .mon ∧ (y.lane k).held = true ∧ (y.lane k).w = b.x.p + 1) ∧
    ∀ (k : AgentKind) (budget : Nat) (g : Fields) (r : BitVec 7), g.g = .v r → decodeFault k budget (.wait g) = some 0x01

/-- NAP parks each performing lane whose time is still to come until that time, and lets the others go on; it writes no register (R62, R269). -/
def napsPark : Prop :=
  ∀ (f : Fields) (s : State) (b : Beat), Due (.nap f) f s b →
    ∃ t y, exec (.nap f) s = .next t ∧ t.agent b.a = some y ∧ y.regs = b.x.regs ∧ ∀ l, l < b.x.lanes.length →
      let time := napTime s b (if f.uni then lowestLane b.act else l)
      y.lane l =
        if b.perf.getLsbD l = true ∧ s.dtime < time then { b.x.lane l with s := .nap, nap := time, w := b.x.p + 1 }
        else if b.act.getLsbD l then { b.x.lane l with w := b.x.p + 1 } else b.x.lane l

/-- WAIT sends its requests, or in a replay run parks its lanes; NAP parks its lanes (R256 to R260, R269, R335). -/
def Obligations.LanesPark : Prop := waitsRegister ∧ napsPark

/-- The lanes of a LAUNCH beat whose children are to be queued, with the places of their packets: those that an earlier try has left over, or every lane
that launches, where the token has room for the instruction and each packet passes its checks (R284). -/
def launchDue (f : Fields) (s : State) (b : Beat) (qs : List (Nat × Place)) : Prop :=
  b.x.arr.left = some qs ∨
  (b.x.arr.left = none ∧ (b.a.who = ctlWho → s.logRoom b.t 1 = true) ∧
    (f.uni = true ∨ (quadsFrom b.x.arr.a 0).head? = some b.quad →
      Tbl.get 0 b.t.tok (tokOf f.md) + (if f.uni then 1 else (lanesIn (performing b.x f b.x.arr.a)).length) ≤ 255) ∧
    qs.map Prod.fst = b.lanes ∧ ∀ q ∈ qs, launchCheck s b q.1 (launchPtr b q.1) = .ok q.2)

/-- A child queued for a lane's packet: the 64 bytes at its place, the order in which it was created, and who launched it (R284). -/
def childOf (f : Fields) (s : State) (b : Beat) (k : Nat) (q : Nat × Place) (c : Child) : Prop :=
  c.packet = s.read q.2.loc 64 ∧ c.order = s.orderSeq + k ∧ c.team = b.a.team ∧ c.who = b.a.who ∧ c.part = b.t.part ∧ c.asid = b.t.asid ∧
    c.cls = b.t.cls ∧ c.tok = tokOf f.md

/-- LAUNCH queues one child for each performing lane, or one for a uniform LAUNCH, in ascending lane order, each with the 64 bytes of its lane's packet
read once, and raises its token by as many. With room for some lanes only, theirs are queued and the beat blocks with the others until there is
room; where the instruction would raise the token above 255, fault 0x0F is raised with nothing issued (R16, R284). -/
def Obligations.LaunchQueues : Prop :=
  ∀ (f : Fields) (s : State) (b : Beat), Due (.launch f) f s b → b.perf ≠ 0 →
    let tok := Tbl.get 0 b.t.tok (tokOf f.md)
    let room := 4096 - s.childCount b.t.part
    (∀ qs, launchDue f s b qs → tok + qs.length ≤ 255 → qs.length ≤ room → b.alive →
      ∃ t u, exec (.launch f) s = .next t ∧ t.team b.a.team = some u ∧ Tbl.get 0 u.tok (tokOf f.md) = tok + qs.length ∧
        t.orderSeq = s.orderSeq + qs.length ∧ ∀ k q, qs[k]? = some q → ∃ n c, Tbl.find? t.children n = some c ∧ childOf f s b k q c) ∧
    (∀ qs, launchDue f s b qs → tok + qs.length ≤ 255 → 0 < room → room < qs.length →
      ∃ t y u, exec (.launch f) s = .next t ∧ t.agent b.a = some y ∧ t.team b.a.team = some u ∧ y.block = some .children ∧ y.lanes = b.x.lanes ∧
        y.arr.left = some (qs.drop room) ∧ t.childCount b.t.part = 4096 ∧ Tbl.get 0 u.tok (tokOf f.md) = tok + room ∧
        ∀ k q, k < room → qs[k]? = some q → ∃ n c, Tbl.find? t.children n = some c ∧ childOf f s b k q c) ∧
    (b.x.arr.left = none → (f.uni = true ∨ (quadsFrom b.x.arr.a 0).head? = some b.quad) →
      255 < tok + (if f.uni then 1 else (lanesIn (performing b.x f b.x.arr.a)).length) → b.x.kind ≠ .privileged →
      ∃ t, exec (.launch f) s = .next t ∧ (∀ e ∈ t.children, e ∈ s.children) ∧
        ∀ y, t.agent b.a = some y → y.stoppedAs 0x0F .beat ∧ y.restart = 0 ∧ y.lanes = b.x.lanes)

/-! ### Memory -/

/-- A beat has issued an access of each passed lane for every aligned 8-byte part of n bytes: their numbers follow on from the agent's last, in
ascending order of lanes and parts (R145, R152, R165). -/
def issued (b : Beat) (y : Agent) (l : List Passed) (n : Nat) (kind : Nat → Passed → Nat × Nat → OpKind) : Prop :=
  y.opSeq = b.x.opSeq + l.length * (partsOf n).length ∧
  ∀ k j q e, l[k]? = some q → (partsOf n)[j]? = some e →
    Tbl.find? y.ops (b.x.opSeq + k * (partsOf n).length + j) = some (b.op q e.1 (kind k q e))

/-- LD: every lane that has passed the checks has its reads issued, in aligned parts, and a reply under way that brings D's registers its bytes; D is
empty until it lands, an acquire holds back the lane, and the beat changes no byte of memory (R145, R149, R160, R165). That the beat issues the reads
and each performs in a step of its own is the model's choice (log entry 6). -/
def Obligations.LoadsRead : Prop :=
  ∀ (f : Fields) (s : State) (b : Beat) (l : List Passed), Due (.ld f) f s b → b.perf ≠ 0 →
    let n := elemBytes f.ty * multOf f.fn
    checkAll s b .load n n = .pass l → b.alive →
    ∃ t y, ∃ key : Nat → Nat, exec (.ld f) s = .next t ∧ t.agent b.a = some y ∧ (noSpill b → t.mem = s.mem) ∧
      (wantsAfter b y fun _ => b.x.p + 1) ∧ (issued b y l n fun k _ e => .load e.2 (key k) e.1) ∧
      ∀ k q, l[k]? = some q → ∃ p, Tbl.find? y.pend (key k) = some p ∧ p.mem = true ∧ p.acq = b.acqMask q.lane ∧
        p.form = some { ty := f.ty, d := f.d, lanes := b.replyLanes q.lane, mult := multOf f.fn } ∧ p.data.length = n ∧
        p.parts = (partsOf n).length ∧ (∀ w ∈ p.lands, y.isEmpty w = true)

/-- ST: every lane that has passed the checks has the writes of its bytes issued, in aligned parts; the beat itself changes no byte of memory and no
register file, and waits for no reply (R145, R160, R165). That each write performs in a step of its own, which AtomicsPerform states with the bytes
it changes, is the model's choice (log entry 6). -/
def Obligations.StoresWrite : Prop :=
  ∀ (f : Fields) (s : State) (b : Beat) (l : List Passed), Due (.st f) f s b → b.perf ≠ 0 →
    let n := elemBytes f.ty * multOf f.fn
    checkAll s b .store n n = .pass l → b.alive →
    ∃ t y, exec (.st f) s = .next t ∧ t.agent b.a = some y ∧ (noSpill b → t.mem = s.mem ∧ ∀ c, t.regsOf c = s.regsOf c) ∧ y.regs = b.x.regs ∧
      y.pend = b.x.pend ∧ (wantsAfter b y fun _ => b.x.p + 1) ∧
      issued b y l n fun _ q e => .store (((storeBytes b q.lane (multOf f.fn) 0).drop e.1).take e.2)

/-- ATOM, RED and CAS: every lane that has passed the checks has its one read-modify-write issued, with its operands read at the beat. ATOM and CAS have
a reply under way that brings D the old value; RED has none and changes no register (R152, R166, R167). -/
def atomicsIssue : Prop :=
  ∀ (i : Instr) (f : Fields) (acc : Access) (s : State) (b : Beat) (l : List Passed),
    ((i = .atom f ∧ acc = .atomic f.fn f.ty false) ∨ (i = .red f ∧ acc = .atomic f.fn f.ty true) ∨ (i = .cas f ∧ acc = .cas)) →
    Due i f s b → b.perf ≠ 0 → checkAll s b acc (elemBytes f.ty) (elemBytes f.ty) = .pass l →
    (i ≠ .red f → replaying (s.tctlOf b.t) = false ∧ s.logRoom b.t l.length = true) → b.alive →
    let w := tyWidth f.ty
    let want := fun (q : Passed) => if i = .cas f then (some (dataOf b w q.lane f.c), dataOf b w q.lane f.e) else (none, dataOf b w q.lane f.c)
    ∃ t y, ∃ key : Nat → Option Nat, exec i s = .next t ∧ t.agent b.a = some y ∧ (noSpill b → t.mem = s.mem) ∧
      (wantsAfter b y fun _ => b.x.p + 1) ∧
      (y.opSeq = b.x.opSeq + l.length ∧ ∀ k q, l[k]? = some q →
        Tbl.find? y.ops (b.x.opSeq + k) = some (b.op q 0 (.atomic f.fn f.ty f.rm (want q).1 (want q).2 (key k)))) ∧
      (i ≠ .red f → ∀ k q, l[k]? = some q → ∃ n p, key k = some n ∧ Tbl.find? y.pend n = some p ∧ p.mem = true ∧ p.acq = b.acqMask q.lane ∧
        p.form = some { ty := f.ty, d := f.d, lanes := b.replyLanes q.lane, mult := 1 } ∧ p.parts = 1 ∧ ∀ w ∈ p.lands, y.isEmpty w = true) ∧
      (i = .red f → (∀ k, key k = none) ∧ y.pend = b.x.pend ∧ y.regs = b.x.regs)

/-- Memory after an access has performed at its owner: a store's bytes, 128 zero bytes, or what an atomic stores for the value that it finds
(R166, R167, R171). -/
def opMemory (s : State) (o : MemOp) : State :=
  match o.kind with
  | .load _ _ _ => s
  | .store bs => s.poke o.place.loc bs
  | .zero => s.poke o.place.loc (List.replicate 128 0)
  | .atomic fn ty rm cas v _ =>
    match (atomicStores fn ty rm cas v (BitVec.ofNat 64 (s.readNat o.place.loc (elemBytes ty)))).1 with
    | some w => s.poke o.place.loc (toBytes (elemBytes ty) w.toNat)
    | none => s
  | .replayed ty new => match new with
    | some w => s.poke o.place.loc (toBytes (elemBytes ty) w.toNat)
    | none => s

/-- The reply that an access fills. -/
def replyOf (o : MemOp) : Option Nat :=
  match o.kind with
  | .load _ reply _ => some reply
  | .atomic _ _ _ _ _ reply => reply
  | _ => none

/-- No byte that some accesses name is one of the monitors' spill area (R265). -/
def clearOfSpill (s : State) (l : Tbl MemOp) : Prop := ∀ e ∈ l, ∀ k, k < e.2.size → s.spillByte (e.2.place.loc + k) = false

/-- An access that nothing earlier holds back performs, with those of its beat that name the same bytes, one after the other in ascending order: each on
the memory that the one before has left, and a byte that none of them stores to stays. No register and no lane of any agent changes, the accesses
are gone from the agent and its others stay, the other parts of the same lanes' access marked (R202); each load's reply gets the bytes of memory, or
of its cluster's live L1 copy with the copy's Wc, with its lane's own earlier stores laid over where they are not acknowledged, and each atomic's
reply the value that it found (R133, R143 to R145, R151 to R153, R166, R167). The order of these steps is the model's choice (log entry 6). -/
def accessesPerform : Prop :=
  ∀ (s : State) (a : AgentId) (n : Nat) (t : Team) (x : Agent) (o : MemOp) (cl : Nat),
    s.team a.team = some t → s.agent a = some x → t.cluster = some cl → Tbl.find? x.ops n = some o → x.opReady o = true →
    s.flaws = [] →
    let l := x.opsWith o
    let u := s.access a n
    ∃ y, u.agent a = some y ∧ y.regs = x.regs ∧ y.lanes = x.lanes ∧ y.issue = x.issue ∧ (∀ c, c ≠ a → u.agent c = s.agent c) ∧
      (∀ k, Tbl.find? y.ops k = if k ∈ l.map Prod.fst then none else (Tbl.find? x.ops k).map fun e =>
        { e with half := e.half || l.any fun d => decide (d.2.beat = e.beat) && decide (d.2.lanes = e.lanes) }) ∧
      (clearOfSpill s l → ∀ loc, s.spillByte loc = false → u.byteAt loc = (l.foldl (fun v e => opMemory v e.2) s).byteAt loc) ∧
      ((l.filterMap fun e => replyOf e.2).Nodup →
        ((∀ e ∈ l, e.2.isLoad = true ∧ e.2.place.loc % 128 + e.2.size ≤ 128) → (∀ c ∈ s.l1, c.cluster ≠ cl) →
          (∀ e ∈ x.ops, e.2.stores = none) → x.acks = [] →
          ∀ e ∈ l, ∀ size reply off p, e.2.kind = .load size reply off → Tbl.find? x.pend reply = some p →
            ∃ c, Tbl.find? y.pend reply = some (p.receive off (s.read e.2.place.loc size) c 0)) ∧
        (clearOfSpill s l → ∀ k e, l[k]? = some e → ∀ fn ty rm cas v reply p, e.2.kind = .atomic fn ty rm cas v (some reply) →
          Tbl.find? x.pend reply = some p →
          let old := ((l.take k).foldl (fun v e => opMemory v e.2) s).readNat e.2.place.loc (elemBytes ty)
          ∃ c, Tbl.find? y.pend reply = some (p.receive 0 (toBytes (elemBytes ty) old) c (atomicStores fn ty rm cas v (BitVec.ofNat 64 old)).2))) ∧
      (l = [(n, o)] → (∀ size reply off p, o.kind = .load size reply off → Tbl.find? x.pend reply = some p →
          let live := if o.place.owned = .slice ∧ s.holds (o.place.loc / 128) (some cl) = false ∧ o.place.l1able = true ∧ o.policy ≠ 2 then
              (s.copyOf cl t.part t.asid (o.place.va / 128)).filter fun c => decide (s.dtime < c.exp)
            else none
          (live = none → ∃ c, Tbl.find? y.pend reply = some (p.receive off (x.overlay n o (s.read o.place.loc size)) c 0)) ∧
          (∀ c, live = some c → u.l1 = s.l1 ∧
            Tbl.find? y.pend reply = some (p.receive off (x.overlay n o ((c.data.drop (o.place.loc % 128)).take size)) (some c.wc) 0))) ∧
        (∀ bs, o.kind = .store bs → o.place.owned = .slice → s.holds (o.place.loc / 128) (some cl) = false →
          ∃ k, Tbl.find? y.acks n = some k ∧ k.lanes = o.lanes ∧ k.loc = o.place.loc ∧ k.bytes = bs ∧ k.peer = false ∧
            max s.dtime (s.line (o.place.loc / 128)).lmax ≤ k.c))

/-- Atomics issue at their beat, each lane's with its operands and its reply. Every access, an atomic's among them, performs later: in its order, on exactly
its bytes, and each fills its reply (R143, R145, R151, R152, R165 to R167). -/
def Obligations.AtomicsPerform : Prop := atomicsIssue ∧ accessesPerform

/-- FENCE, PREF, CCTL and TESTP. FENCE goes on once its release is over and, for an acquire, no load's reply is under way; PREF changes no byte and no
register; CCTL issues its lines' zero writes, discards the cluster's copies of the lines, gives up exclusivity, or discards the context's copies; TESTP brings
each lane whether its scratchpad line is present (R169 to R172). -/
def Obligations.CacheForms : Prop :=
  (∀ (f : Fields) (s : State) (b : Beat), Due (.fence f) f s b →
    (acquires f.md = true → ∀ e ∈ b.x.pend, e.2.mem = false) →
    ∃ t y, exec (.fence f) s = .next t ∧ t.agent b.a = some y ∧ (noSpill b → t.mem = s.mem) ∧ (∀ c, t.regsOf c = s.regsOf c) ∧
      wantsAfter b y fun _ => b.x.p + 1) ∧
  (∀ (f : Fields) (s : State) (b : Beat), Due (.fence f) f s b → b.perf ≠ 0 →
    acquires f.md = true → (∃ e ∈ b.x.pend, e.2.mem = true) →
    ∃ t y, exec (.fence f) s = .next t ∧ t.agent b.a = some y ∧ y.lanes = b.x.lanes ∧ y.issue = .beats) ∧
  (∀ (f : Fields) (s : State) (b : Beat), Due (.pref f) f s b →
    ∃ t y, exec (.pref f) s = .next t ∧ t.agent b.a = some y ∧ (noSpill b → t.mem = s.mem) ∧ (∀ c, t.regsOf c = s.regsOf c) ∧
      (b.alive → y.gwct = b.x.gwct) ∧ wantsAfter b y fun _ => b.x.p + 1) ∧
  (∀ (f : Fields) (s : State) (b : Beat), f.fn = 3 → Due (.cctl f) f s b → b.perf ≠ 0 →
    ∃ t y, exec (.cctl f) s = .next t ∧ t.agent b.a = some y ∧ (noSpill b → t.mem = s.mem) ∧ (wantsAfter b y fun _ => b.x.p + 1) ∧
      ∀ c ∈ t.l1, ¬ (c.cluster = b.cluster ∧ c.part = b.t.part ∧ c.asid = b.t.asid)) ∧
  (∀ (f : Fields) (s : State) (b : Beat) (l : List Passed), f.fn ≠ 3 → Due (.cctl f) f s b → b.perf ≠ 0 →
    checkAll s b (if f.fn = 0 then .zero else .drop) 128 128 = .pass l → noSpill b →
    ∃ t y, exec (.cctl f) s = .next t ∧ t.agent b.a = some y ∧ (wantsAfter b y fun _ => b.x.p + 1) ∧ t.mem = s.mem ∧
      (f.fn = 0 → y.opSeq = b.x.opSeq + l.length ∧ ∀ k q, l[k]? = some q → Tbl.find? y.ops (b.x.opSeq + k) = some (b.op q 0 .zero)) ∧
      (f.fn = 1 → ∀ q ∈ l, ∀ c ∈ t.l1, c.isCopy b.cluster b.t.part b.t.asid (q.place.va / 128) = false) ∧
      (f.fn = 2 → ∀ q ∈ l, q.place.owned = .slice → t.holds (q.place.loc / 128) (some b.cluster) = false)) ∧
  (∀ (f : Fields) (s : State) (b : Beat) (l : List Passed), Due (.testp f) f s b → b.perf ≠ 0 → checkAll s b .test 1 1 = .pass l →
    b.alive →
    ∃ t y, exec (.testp f) s = .next t ∧ t.agent b.a = some y ∧ (noSpill b → t.mem = s.mem) ∧ (wantsAfter b y fun _ => b.x.p + 1) ∧
      ∀ q ∈ l, ∀ u v, q.place.owned = .scratch u → s.team u = some v →
        ∃ k p, Tbl.find? y.pend k = some p ∧ p.mem = false ∧ ∀ d ∈ b.replyLanes q.lane, ∀ r, f.d = .p r →
          .p r.toNat d (!Tbl.get false v.absent (q.place.loc % 2 ^ 22 / 128)) ∈ p.writes ∧ (r ≠ 7 → d < 32 → y.emptyP r.toNat d = true))

/-- The memory forms whose lanes make the checks of R164, with the kind of access, its size and its alignment. -/
def accessForm : Instr → Option (Fields × Access × Nat × Nat)
  | .ld f => some (f, .load, elemBytes f.ty * multOf f.fn, elemBytes f.ty * multOf f.fn)
  | .st f => some (f, .store, elemBytes f.ty * multOf f.fn, elemBytes f.ty * multOf f.fn)
  | .atom f => some (f, .atomic f.fn f.ty false, elemBytes f.ty, elemBytes f.ty)
  | .red f => some (f, .atomic f.fn f.ty true, elemBytes f.ty, elemBytes f.ty)
  | .cas f => some (f, .cas, elemBytes f.ty, elemBytes f.ty)
  | .cctl f => if f.fn = 3 then none else some (f, if f.fn = 0 then .zero else .drop, 128, 128)
  | .testp f => some (f, .test, 1, 1)
  | _ => none

/-- The checks of a beat: an address with an unassigned tag or a set zero bit in some performing lane raises fault 0x06; else a misaligned one raises
0x05; else the lane checks that fail first in the order of R164's table decide. A fault is precise at the beat: no lane of the quad performs. A beat
whose first failing check is an absent member of its set, or an absent line of a scratchpad that a load reads, parks with its lanes and registers as
they were; and one that meets a replayable page parks at its beat, with a record of its page in the partition's fault queue, one among those held
while the ring is full, or its place at the page's pending record; with the queue disabled it raises 0x07 (R23, R132, R134, R163, R164, R172, R292
to R294). That among lanes that fail at one step the lowest decides is the model's choice (log entry 38), and so is the step at which the first
2,048 bytes of local memory are refused (log entry 39). -/
def Obligations.AccessesFault : Prop :=
  ∀ (i : Instr) (f : Fields) (acc : Access) (n al : Nat) (s : State) (b : Beat),
    accessForm i = some (f, acc, n, al) → Due i f s b → b.perf ≠ 0 → b.x.kind ≠ .privileged →
    let stops := fun (code : Byte) => ∃ t, exec i s = .next t ∧ ∀ y, t.agent b.a = some y → y.stoppedAs code .beat ∧ y.lanes = b.x.lanes ∧ y.regs = b.x.regs ∧ y.restart = if f.uni then 0 else b.quad
    let chk := fun l => laneChecks s b acc l (addressOf b.x f l) n al
    ((∃ l ∈ b.lanes, tagOk (addressOf b.x f l) = false) → stops 0x06) ∧
    ((∀ l ∈ b.lanes, tagOk (addressOf b.x f l) = true) → (∃ l ∈ b.lanes, (addressOf b.x f l).toNat % al ≠ 0) → stops 0x05) ∧
    (∀ k step code w, k ∈ b.lanes → chk k = .fault step code w → (∀ l ∈ b.lanes, step ≤ (chk l).step) →
      (∀ l ∈ b.lanes, l < k → ∀ c v, chk l ≠ .fault step c v) → stops code) ∧
    (∀ k step why, k ∈ b.lanes → chk k = .wait step why → (∀ l ∈ b.lanes, step ≤ (chk l).step) → (∀ l ∈ b.lanes, ∀ c v, chk l ≠ .fault step c v) →
      ((step = 3 ∧ why = .member) ∨ (step = 7 ∧ why = .absent)) ∧
      ∃ t y, exec i s = .next t ∧ t.agent b.a = some y ∧ y.issue = .beats ∧ y.block = some why ∧ y.lanes = b.x.lanes ∧ y.regs = b.x.regs ∧
        t.mem = s.mem) ∧
    (acc = .load → ∀ l, let addr := addressOf b.x f l
      tagOf addr = 4 → tagOk addr = true → addr.toNat % al = 0 → bits addr 21 0 + n ≤ s.scratchOf b.a.team →
      locked s b.cluster b.a.team b.t .load addr n = false → Tbl.get false b.t.absent (bits addr 21 0 / 128) = true → chk l = .wait 7 .absent) ∧
    (∀ k page, k ∈ b.lanes → chk k = .replay 4 page → (∀ l ∈ b.lanes, 4 ≤ (chk l).step) → (∀ l ∈ b.lanes, ∀ c v, chk l ≠ .fault 4 c v) →
      (∀ l ∈ b.lanes, l < k → ∀ p, chk l ≠ .replay 4 p) →
      let q := s.partition b.t.part
      (q.fqSize = none → stops 0x07) ∧
      (∀ size, q.fqSize = some size →
        ∃ t y, exec i s = .next t ∧ t.agent b.a = some y ∧ y.issue = .replay ∧ y.lanes = b.x.lanes ∧ y.regs = b.x.regs ∧
          (y.restart = if f.uni then 0 else b.quad) ∧
          let v := t.partition b.t.part
          (q.pendingPage b.t.asid page = true → v.fqWr = q.fqWr ∧
            ∀ r ∈ q.replays, r.asid = b.t.asid → r.page = page → r.watch = false → { r with agents := r.agents ++ [b.a] } ∈ v.replays) ∧
          (q.pendingPage b.t.asid page = false → (q.fqWr - q.fqRd).toNat < size → q.heldRecords = [] → v.fqWr = q.fqWr + 1 ∧
            ∃ r ∈ v.replays, r.idx = q.fqWr.toNat ∧ r.asid = b.t.asid ∧ r.page = page ∧ r.agents = [b.a]) ∧
          (q.pendingPage b.t.asid page = false → ¬ ((q.fqWr - q.fqRd).toNat < size ∧ q.heldRecords = []) → v.fqWr = q.fqWr ∧
            ∃ h r, v.heldRecords = q.heldRecords ++ [h] ∧ h.replay = some r ∧ r.asid = b.t.asid ∧ r.page = page ∧ r.agents = [b.a])))

/-! ### Engine commands, ranges, tiles and bindings -/

/-- What a control thread's or group's engine form issues: the code of its first failing check, if one fails, and the ranges that it locks (R186, R187,
R198, R202, R243, R250). -/
def issueOf (s : State) (b : Beat) : Instr → Option (Option Byte × List (Nat × Nat × Nat × Bool))
  | .cpc f => some (match copyChecks s b.a.team b.t (sliceOfBeat b 0) (bits (f.imm.setWidth 64) 23 16) with
      | some c => some c
      | none => if tokenFull b.t (tokOf f.md) then some 0x0F else none, copyRanges b.a.team b.t [sliceOfBeat b 0])
  | .gath f => some (geChecks s b.t f (geArgs b 0), geRanges b.a.team b.t (geArgs b 0) (s.handle b.t.part (geArgs b 0).h))
  | .scat f => some (geChecks s b.t f (geArgs b 1), geRanges b.a.team b.t (geArgs b 1) (s.handle b.t.part (geArgs b 1).h))
  | .scata f => some (geChecks s b.t f (geArgs b 2), geRanges b.a.team b.t (geArgs b 2) (s.handle b.t.part (geArgs b 2).h))
  | .mma f => some (mmaChecks b.t (mmaArgs b false) (tokOf f.md),
      (mmaArgs b false).areas.flatMap fun r => rangeOf b.a.team b.t (spAddr r.1) (r.2 - r.1) false)
  | .mmag f => some (mmaChecks b.t (mmaArgs b true) (tokOf f.md),
      (mmaArgs b true).areas.flatMap fun r => rangeOf b.a.team b.t (spAddr r.1) (r.2 - r.1) false)
  | .aczero f => some (if (Tbl.find? b.t.tiles (bits (f.imm.setWidth 64) 4 0)).isNone then some 0x12
      else if tokenFull b.t (tokOf f.md) then some 0x0F else none, [])
  | .drain f => some (drainChecks b.t (drainArgs b) (tokOf f.md),
      (drainArgs b).areas.flatMap fun r => if tagOf r.1 = 4 then [] else rangeOf b.a.team b.t r.1 r.2 true)
  | _ => none

/-- The command that an engine form describes with its operands (R179, R196, R234). -/
def describes (b : Beat) : Instr → CmdKind → Prop
  | .cpc _, .copy c => c.slices.map (fun z => (z.dst, z.src, z.geo, z.sstr, z.dstr)) =
      [(regOrZero b.x b.f.d, regOrZero b.x b.f.a, regOrZero b.x b.f.b, regOrZero b.x b.f.c, regOrZero b.x b.f.e)] ∧ c.landed = []
  | .gath _, .ge g => g.kind = 0 ∧ g.dst = regOrZero b.x b.f.d ∧ g.list = regOrZero b.x b.f.a ∧ g.count = (regOrZero b.x b.f.b).toNat ∧ g.done = []
  | .scat _, .ge g => g.kind = 1 ∧ g.data = regOrZero b.x b.f.e ∧ g.list = regOrZero b.x b.f.a ∧ g.count = (regOrZero b.x b.f.b).toNat ∧ g.done = []
  | .scata f, .ge g => g.kind = 2 ∧ g.fn = f.fn ∧ g.ty = f.ty ∧ g.data = regOrZero b.x b.f.e ∧ g.list = regOrZero b.x b.f.a ∧
      g.count = (regOrZero b.x b.f.b).toNat ∧ g.done = []
  | .mma f, .ox o => o.tile = bits (f.imm.setWidth 64) 4 0 ∧ o.prog = 0 ∧ ∃ x y, o.kind = .mma x y (bits (regOrZero b.x f.g) 47 32) (bits (regOrZero b.x f.g) 12 0)
  | .mmag f, .ox o => o.tile = bits (f.imm.setWidth 64) 4 0 ∧ o.prog = 0 ∧ ∃ x y r t n,
      o.kind = .mmag x y (bits (regOrZero b.x f.g) 47 32) (bits (regOrZero b.x f.g) 12 0) r t n
  | .aczero f, .ox o => o.tile = bits (f.imm.setWidth 64) 4 0 ∧ o.kind = .aczero
  | .drain f, .ox o => o.tile = bits (f.imm.setWidth 64) 4 0 ∧ o.prog = 0 ∧ ∃ c r m l q p z t,
      o.kind = .drain (f.fn.toNat % 8) c r m l q (regOrZero b.x f.a) p z t
  | _, _ => False

/-- CPC, GATH, SCAT, SCATA, MMA, MMAG, ACZERO and DRAIN, with their checks passed: the command is formed under the next number with its operands, its
token and site, T.Tok rises, and it starts with its range locks where the cluster's table has room, a compressed source's to the highest byte that
its masks name, else its issuer blocks until it has; a control thread's command takes the next CSEQ. That a gather or scatter that blocks has raised
its token alone, its lines with their presence bits and the CSEQ not taken, is the model's choice (log entry 43), and so is when the masks are read
(log entry 80) (R16, R18, R24, R155, R183, R187, R199). A check that fails raises its code with nothing issued (R186, R198, R243). -/
def Obligations.CommandsIssue : Prop :=
  ∀ (i : Instr) (f : Fields) (n : BitVec 8) (fails : Option Byte) (rs : List (Nat × Nat × Nat × Bool)) (s : State) (b : Beat),
    formOf i = some (n, f) → issueOf s b i = some (fails, rs) → Due i f s b → b.perf ≠ 0 → b.x.arr.cmd = none →
    (b.a.who = ctlWho → s.logRoom b.t 1 = true) →
    (fails = none → s.rltRoom b.cluster rs.length = true → b.alive →
      ∃ t u c, exec i s = .next t ∧ t.team b.a.team = some u ∧ Tbl.find? t.cmds s.cmdSeq = some c ∧ t.cmdSeq = s.cmdSeq + 1 ∧
        c.owner = .agent b.a.team b.a.who ∧ c.part = b.t.part ∧ c.asid = b.t.asid ∧ c.tok = tokOf f.md ∧ c.ev = evOf f.md ∧ c.started = true ∧
        ((∀ k, c.kind = .copy k → k.maskLines = []) → c.ranges = rs) ∧ c.ranges = ({ c with ranges := rs } : Cmd).locks ∧ c.site.pc = b.x.p ∧ (b.a.who = ctlWho → c.site.cseq = nextSeq b.t.cseq ∧ u.cseq = nextSeq b.t.cseq) ∧
        describes b i c.kind ∧ Tbl.get 0 u.tok (tokOf f.md) = Tbl.get 0 b.t.tok (tokOf f.md) + 1 ∧
        t.rlt = s.rlt ++ c.ranges.map fun r => { cluster := b.cluster, cmd := s.cmdSeq, space := r.1, lo := r.2.1, hi := r.2.2.1, dst := r.2.2.2 }) ∧
    (fails = none → s.rltRoom b.cluster rs.length = false →
      ∃ t y u c, exec i s = .next t ∧ t.agent b.a = some y ∧ y.block = some .rlt ∧ y.arr.cmd = some s.cmdSeq ∧ y.lanes = b.x.lanes ∧
        Tbl.find? t.cmds s.cmdSeq = some c ∧ c.started = false ∧ t.rlt = s.rlt ∧ t.team b.a.team = some u ∧
        Tbl.get 0 u.tok (tokOf f.md) = Tbl.get 0 b.t.tok (tokOf f.md) + 1 ∧
        ((i = .gath f ∨ i = .scat f ∨ i = .scata f) → u.cseq = b.t.cseq ∧ u.absent = b.t.absent)) ∧
    (∀ code, fails = some code → b.x.kind ≠ .privileged → ∃ t, exec i s = .next t ∧ t.cmdSeq = s.cmdSeq ∧ ∀ y, t.agent b.a = some y →
      y.stoppedAs code .beat ∧ y.restart = 0 ∧ y.lanes = b.x.lanes)

/-- CPSL: a slice whose checks pass arrives at its copy state. The first arms the state and raises the token; the one that completes the count starts
the copy of all slices, which frees the state, where the cluster's lock table has room, with the locks of a copy (R183, R185, R187). The moment at which
a compressed source's masks are read is the model's choice (log entry 80). -/
def Obligations.SlicesArrive : Prop :=
  ∀ (f : Fields) (s : State) (b : Beat), Due (.cpsl f) f s b → b.x.arr.cmd = none → (b.a.who = ctlWho → s.logRoom b.t 1 = true) →
    let n := bits (f.imm.setWidth 64) 15 8
    let mask := bits (f.imm.setWidth 64) 23 16
    let c := sliceOfBeat b (bits (f.imm.setWidth 64) 6 0)
    let old := Tbl.find? b.t.copies f.fn.toNat
    let k := CopyState.take old (arriveSlice (s.begun b) b c mask).2 n (tokOf f.md) mask (evOf f.md) b.x.site
    copyChecks s b.a.team b.t c mask = none → sliceClash b.t old c n (tokOf f.md) mask = false → b.alive →
    (k.arrived ≠ n → ∃ t u k1, exec (.cpsl f) s = .next t ∧ t.team b.a.team = some u ∧ Tbl.find? u.copies f.fn.toNat = some k1 ∧
      k1.arrived = k.arrived ∧ k1.count = k.count ∧ k1.tok = k.tok ∧ t.cmds = s.cmds ∧
      Tbl.get 0 u.tok (tokOf f.md) = Tbl.get 0 b.t.tok (tokOf f.md) + (if old = none then 1 else 0)) ∧
    (k.arrived = n → s.rltRoom b.cluster (copyRanges b.a.team b.t (sortSlices k.slices)).length = true →
      ∃ t u cmd, exec (.cpsl f) s = .next t ∧ t.team b.a.team = some u ∧ Tbl.find? u.copies f.fn.toNat = none ∧
        Tbl.find? t.cmds s.cmdSeq = some cmd ∧ cmd.started = true ∧ cmd.tok = tokOf f.md ∧ cmd.owner = .agent b.a.team b.a.who ∧
        ((∀ k2, cmd.kind = .copy k2 → k2.maskLines = []) → cmd.ranges = copyRanges b.a.team b.t (sortSlices k.slices)) ∧
        cmd.ranges = ({ cmd with ranges := copyRanges b.a.team b.t (sortSlices k.slices) } : Cmd).locks ∧
        t.rlt = s.rlt ++ cmd.ranges.map fun r => { cluster := b.cluster, cmd := s.cmdSeq, space := r.1, lo := r.2.1, hi := r.2.2.1, dst := r.2.2.2 })

/-- OBRES, OBREL, ACALLOC, ACFREE and QCFG. OBRES gives the lowest free lines, zeroed, and answers the first, or all ones where nothing fits; OBREL
returns a range and unbinds its feed queues; ACALLOC gives the lowest free names, every element +0 and TYPE unset, and answers their mask; ACFREE
returns the named tiles; QCFG binds a queue to a range's lines or a tile. What R236 to R241 refuse raises fault 0x12, and of QCFG a malformed word
0x01, else a queue with entries or in use 0x0D, else an absent range or tile or a ring beyond the range 0x12; the ranges, tiles and bindings then
stay as they were (R215 to R217, R236 to R241). -/
def Obligations.ReservationsAct : Prop :=
  (∀ (f : Fields) (s : State) (b : Beat), Due (.obres f) f s b → b.perf ≠ 0 → noSpill b →
    let w := regOrZero b.x f.a
    recOk w = true → Tbl.find? b.t.ranges f.fn.toNat = none →
    ∃ t y u, exec (.obres f) s = .next t ∧ t.agent b.a = some y ∧ t.team b.a.team = some u ∧
      (∀ l, firstFit b.t (recLines w) = some l → linesFree b.t l (recLines w) = true ∧ y.holds 64 0 f.d (BitVec.ofNat 64 l) ∧
        Tbl.find? u.ranges f.fn.toNat = some { word := w, first := l } ∧
        ∀ k, k < recLines w * 128 → t.byteAt (obLoc b.a.team (l * 128) + k) = 0) ∧
      (firstFit b.t (recLines w) = none → u.ranges = b.t.ranges ∧ y.holds 64 0 f.d 0xFFFFFFFFFFFFFFFF#64)) ∧
  (∀ (f : Fields) (s : State) (b : Beat), Due (.obrel f) f s b → b.perf ≠ 0 → b.alive → (Tbl.find? b.t.ranges f.fn.toNat).isSome = true →
    (∀ e ∈ s.oxOf b.a.team, e.2.2.readsRange f.fn.toNat = false) →
    ∃ t u, exec (.obrel f) s = .next t ∧ t.team b.a.team = some u ∧ Tbl.find? u.ranges f.fn.toNat = none ∧ ∀ q ∈ b.t.feedsOf f.fn.toNat, u.bind q = 0) ∧
  (∀ (f : Fields) (s : State) (b : Beat), Due (.acalloc f) f s b → b.perf ≠ 0 → b.alive → b.t.allocated = none → b.t.alloc = none →
    let n := (litOrReg b f.a).toNat
    n ≠ 0 → n + b.t.tiles.length ≤ b.t.acc →
    (n ≤ s.freeTiles b.cluster → (∀ e ∈ s.blockedAllocs b.cluster, b.t.age < e.2.1) →
      ∃ t y u, exec (.acalloc f) s = .next t ∧ t.agent b.a = some y ∧ t.team b.a.team = some u ∧
        y.holds 64 0 f.d (BitVec.ofNat 64 ((b.t.newNames n).foldl (fun m k => m + 2 ^ k) 0)) ∧
        (∀ k ∈ b.t.newNames n, Tbl.find? u.tiles k = some { els := [], ty := none }) ∧
        (∀ k, k ∉ b.t.newNames n → Tbl.find? u.tiles k = Tbl.find? b.t.tiles k)) ∧
    (s.freeTiles b.cluster < n → ∃ t y u, exec (.acalloc f) s = .next t ∧ t.agent b.a = some y ∧ t.team b.a.team = some u ∧
      y.block = some .acalloc ∧ y.lanes = b.x.lanes ∧ u.alloc = some n ∧ u.tiles = b.t.tiles)) ∧
  (∀ (f : Fields) (s : State) (b : Beat), Due (.acfree f) f s b → b.perf ≠ 0 → b.alive → bits (litOrReg b f.a) 63 32 = 0 →
    (∀ k ∈ namesIn (litOrReg b f.a), (Tbl.find? b.t.tiles k).isSome = true ∧ s.tileBusy b.a.team k = false) →
    ∃ t u, exec (.acfree f) s = .next t ∧ t.team b.a.team = some u ∧
      ∀ k, Tbl.find? u.tiles k = if k ∈ namesIn (litOrReg b f.a) then none else Tbl.find? b.t.tiles k) ∧
  (∀ (f : Fields) (s : State) (b : Beat), Due (.qcfg f) f s b → b.perf ≠ 0 → b.alive →
    let w := litOrReg b f.a
    bindingFormed f.fn.toNat w = true → b.t.fillOf f.fn.toNat = 0 → s.bindingUsed b.a.team b.t f.fn.toNat = false →
    (bound w = true → f.fn.toNat ≤ 11 → ringLines w ≠ 0 ∧ ∃ r, Tbl.find? b.t.ranges (bits w 3 0) = some r ∧ ringStart w + ringLines w ≤ recLines r.word) →
    (bound w = true → 11 < f.fn.toNat → (Tbl.find? b.t.tiles (bits w 4 0)).isSome = true) →
    ∃ t u, exec (.qcfg f) s = .next t ∧ t.team b.a.team = some u ∧ u.bind f.fn.toNat = w ∧
      (f.fn.toNat ≤ 11 → bound w = true → Tbl.find? u.rings f.fn.toNat = some { wc := ringStart w, rd := ringStart w, fill := 0 })) ∧
  (∀ (i : Instr) (f : Fields) (s : State) (b : Beat), Due i f s b → b.perf ≠ 0 → b.x.kind ≠ .privileged →
    ((i = .obres f ∧ (recOk (regOrZero b.x f.a) = false ∨ (Tbl.find? b.t.ranges f.fn.toNat).isSome = true)) ∨
      (i = .obrel f ∧ Tbl.find? b.t.ranges f.fn.toNat = none) ∨
      (i = .acalloc f ∧ b.t.allocated = none ∧ b.t.alloc = none ∧
        ((litOrReg b f.a).toNat = 0 ∨ b.t.acc < (litOrReg b f.a).toNat + b.t.tiles.length)) ∨
      (i = .acfree f ∧ (bits (litOrReg b f.a) 63 32 ≠ 0 ∨ ∃ k ∈ namesIn (litOrReg b f.a), Tbl.find? b.t.tiles k = none))) →
    ∃ t, exec i s = .next t ∧ ∀ y, t.agent b.a = some y → y.stoppedAs 0x12 .beat ∧ y.lanes = b.x.lanes ∧
      ∃ u, t.team b.a.team = some u ∧ u.ranges = b.t.ranges ∧ u.tiles = b.t.tiles ∧ u.qbind = b.t.qbind ∧ u.rings = b.t.rings) ∧
  (∀ (f : Fields) (s : State) (b : Beat) (code : Byte), Due (.qcfg f) f s b → b.perf ≠ 0 → b.x.kind ≠ .privileged →
    let n := f.fn.toNat
    let w := litOrReg b f.a
    let formed := (if n ≤ 11 then bits w 63 38 = 0 ∧ bits w 23 21 = 0 ∧ bits w 6 4 = 0 else bits w 63 8 = 0 ∧ bits w 6 5 = 0) ∧ (bit w 7 = true ∨ w = 0)
    let idle := b.t.fillOf n = 0 ∧ s.bindingUsed b.a.team b.t n = false
    let there := if n ≤ 11 then ∃ r, Tbl.find? b.t.ranges (bits w 3 0) = some r ∧ bits w 37 24 ≠ 0 ∧ bits w 20 8 + bits w 37 24 ≤ recLines r.word
      else (Tbl.find? b.t.tiles (bits w 4 0)).isSome = true
    ((¬ formed ∧ code = 0x01) ∨ (formed ∧ ¬ idle ∧ code = 0x0D) ∨ (formed ∧ idle ∧ bit w 7 = true ∧ ¬ there ∧ code = 0x12)) →
    ∃ t, exec (.qcfg f) s = .next t ∧ ∀ y, t.agent b.a = some y → y.stoppedAs code .beat ∧ y.lanes = b.x.lanes ∧
      ∃ u, t.team b.a.team = some u ∧ u.ranges = b.t.ranges ∧ u.tiles = b.t.tiles ∧ u.qbind = b.t.qbind ∧ u.rings = b.t.rings)

/-! ### Privileged threads -/

/-- CSRR and CSRW. CSRR gives D the register's value. CSRW gives the register A's value: PEPC and PHND their 28 bits, a partition's field the word; a
PSTATE keeps its live bit only once every die has booted. No other register of a fault changes, and no other partition's record. A live partition
that is written not live is reset: its teams end, and nothing of its commands, monitor entries and wakes is left (R204, R267, R297, R305, R306, R347).
That the write itself is the partition's reset, done in that step, is the model's choice (log entry 85), and so is that the live bit is stored only
with BOOTSTAT OK (log entry 14, on R347). -/
def Obligations.CsrForms : Prop :=
  (∀ (f : Fields) (s : State) (b : Beat), Due (.csrr f) f s b → b.perf ≠ 0 → noSpill b →
    ∃ t y, exec (.csrr f) s = .next t ∧ t.agent b.a = some y ∧ y.holds 64 0 f.d (s.csr b.x f.imm.toNat) ∧ (wantsAfter b y fun _ => b.x.p + 1) ∧
      t.parts = s.parts ∧ t.mem = s.mem) ∧
  (∀ (f : Fields) (s : State) (b : Beat), Due (.csrw f) f s b → b.perf ≠ 0 → noSpill b →
    let n := f.imm.toNat
    let w := regOrZero b.x f.a
    let part := (n - 0x100) / 0x20
    let live := bit w 16 && bit s.bootStat 0
    let resets := n ≠ 1 ∧ n ≠ 3 ∧ n % 0x20 = 0 ∧ (s.partition part).live = true ∧ live = false
    csrTakes n w = true → (resets → b.t.part ≠ part) →
    ∃ t y, exec (.csrw f) s = .next t ∧ t.agent b.a = some y ∧ (wantsAfter b y fun _ => b.x.p + 1) ∧ y.regs = b.x.regs ∧
      (¬ resets → t.mem = s.mem) ∧
      y.pepc = (if n = 1 then w.setWidth 28 else b.x.pepc) ∧ y.phnd = (if n = 3 then w.setWidth 28 else b.x.phnd) ∧
      y.pcause = b.x.pcause ∧ y.paddr = b.x.paddr ∧ y.inh = b.x.inh ∧
      (n = 1 ∨ n = 3 → t.parts = s.parts) ∧
      (n ≠ 1 → n ≠ 3 → (∀ m, m ≠ part → t.partition m = s.partition m) ∧
        (n % 0x20 ≠ 0 → (t.partition part).csr (n % 0x20) = w) ∧
        (n % 0x20 = 0 → (t.partition part).csr 0 = if live = true then w else w &&& 0xFFF#64) ∧
        ∀ k, k ≤ 6 → k ≠ n % 0x20 → n % 0x20 ≤ 6 → (t.partition part).csr k = (s.partition part).csr k) ∧
      (resets → (∀ e ∈ t.cmds, e.2.part ≠ part) ∧ (∀ m ∈ t.mons, m.part ≠ part) ∧ (∀ e ∈ t.wakes, e.2.mon.part ≠ part) ∧
        ∀ k u, s.team k = some u → u.part = part → ∃ v, t.team k = some v ∧ v.isEnded = true))

/-- SYSC, HALT, TLBI and ERET. SYSC blocks until firmware answers, and its answer fills D; HALT parks until a DMC event and TLBI until its completion,
and then go on; ERET sends the thread to PEPC with INH = 0. Blocked threads keep their lanes (R296, R305, R306). -/
def Obligations.PrivilegedForms : Prop :=
  (∀ (f : Fields) (s : State) (b : Beat), Due (.sysc f) f s b → b.perf ≠ 0 → b.alive →
    (∀ w, b.x.answer = some w → ∃ t y, exec (.sysc f) s = .next t ∧ t.agent b.a = some y ∧ y.answer = none ∧ y.holds 64 0 f.d w ∧
      wantsAfter b y fun _ => b.x.p + 1) ∧
    (b.x.answer = none → ∃ t y, exec (.sysc f) s = .next t ∧ t.agent b.a = some y ∧ y.block = some .sysc ∧ y.issue = .beats ∧
      y.lanes = b.x.lanes ∧ y.regs = b.x.regs)) ∧
  (∀ (i : Instr) (why : BlockWhy) (f : Fields) (s : State) (b : Beat),
    ((i = .halt f ∧ why = .halt) ∨ (i = .tlbi f ∧ why = .tlbi)) →
    Due i f s b → b.perf ≠ 0 → b.alive →
    (∀ w, b.x.answer = some w → ∃ t y, exec i s = .next t ∧ t.agent b.a = some y ∧ y.answer = none ∧ y.regs = b.x.regs ∧
      wantsAfter b y fun _ => b.x.p + 1) ∧
    (b.x.answer = none → ∃ t y, exec i s = .next t ∧ t.agent b.a = some y ∧ y.block = some why ∧ y.issue = .beats ∧ y.lanes = b.x.lanes ∧
      y.regs = b.x.regs)) ∧
  (∀ (f : Fields) (s : State) (b : Beat), Due (.eret f) f s b → b.perf ≠ 0 → b.alive → b.x.inh = true → b.x.lanes.length = 1 →
    ∃ t y, exec (.eret f) s = .next t ∧ t.agent b.a = some y ∧ (y.lane 0).w = b.x.pepc ∧ y.p = b.x.pepc ∧ y.issue = .arrive true ∧ y.inh = false ∧
      y.regs = b.x.regs ∧ y.pepc = b.x.pepc ∧ y.pcause = b.x.pcause)

/-- A privileged thread's own fault. Outside a handler: PCAUSE and PADDR take the fault's code and address, PEPC the faulting index, or the next for
0x14 and 0x15, the thread arrives at PHND with INH = 1, and its registers stay. In a handler the thread halts for good and the DMC gets an error; that
PCAUSE, PEPC and the registers then stay, and that the DMC learns which thread it is, is the model's choice (log entry 63). A CSRW of what the register
does not take and an ERET outside a handler raise 0x01 so (R305, R306). -/
def privilegedFault : Prop :=
  (∀ (s : State) (a : AgentId) (t : Team) (x : Agent) (r : Raise), s.team a.team = some t → s.agent a = some x → x.kind = .privileged →
    x.lanes ≠ [] → r.code ≠ 0x18 →
    (x.inh = false → ∃ y, (s.takeFault a r).agent a = some y ∧ y.pcause = r.code ∧ y.paddr = r.addr ∧
      y.pepc = (if r.code = 0x14 ∨ r.code = 0x15 then x.p + 1 else x.p) ∧ y.phnd = x.phnd ∧ (y.lane 0).w = x.phnd ∧ y.p = x.phnd ∧ y.inh = true ∧
      y.issue = .arrive true ∧ y.regs = x.regs ∧ (s.takeFault a r).mem = s.mem ∧ (s.takeFault a r).dmcErrors = s.dmcErrors) ∧
    (x.inh = true → ∃ y, (s.takeFault a r).agent a = some y ∧ y.issue = .ended ∧ y.pcause = x.pcause ∧ y.pepc = x.pepc ∧ y.regs = x.regs ∧
      (s.takeFault a r).dmcErrors = a :: s.dmcErrors)) ∧
  (∀ (i : Instr) (f : Fields) (s : State) (b : Beat), Due i f s b → b.perf ≠ 0 → b.alive →
    ((i = .csrw f ∧ csrTakes f.imm.toNat (regOrZero b.x f.a) = false) ∨ (i = .eret f ∧ b.x.inh = false)) → b.x.inh = false →
    ∃ t y, exec i s = .next t ∧ t.agent b.a = some y ∧ y.pcause = 0x01 ∧ y.pepc = b.x.p ∧ (y.lane 0).w = b.x.phnd ∧ y.inh = true ∧
      y.issue = .arrive true ∧ y.regs = b.x.regs ∧ t.parts = s.parts)

/-! ### A stopped agent -/

/-- A fault of a group stops it with its lanes and registers as they are; where its record and DISP can be written and its entry on DISP registers,
they are, in that order, and event kind 0x02 is held until it is posted. Without a control thread the context ends (R22, R289, R291); that a control
thread which has executed EXIT is none is the model's choice (log entry 56). A fault of a control thread whose context has DBG = 0, and an
uncorrectable error that an agent consumes, end the context: the team is stopped with nothing saved (R290, R291, R351). -/
def stoppedAgent : Prop :=
  (∀ (s s1 s2 s3 : State) (a : AgentId) (t : Team) (x : Agent) (c : Ctx) (r : Raise) (pteR pteD : W64) (bigR bigD : Bool),
    s.team a.team = some t → s.agent a = some x → x.kind ≠ .privileged → a.who ≠ ctlWho → s.ctx t.part t.asid = some c →
    (s.debugOf t.part c.idx).isOpen = false → r.code ≠ 0x18 →
    let cl := t.cluster.getD 0
    let recVa := tcbVa c t.slot + 32 * a.who
    let dispVa := tcbVa c t.slot + (0x1080 + 4 * a.who)
    let rec0 := (recOf t a.who x r).encode
    let word := eventWord 0x02 0 x.cseq (r.code.toNat * 256 + whoGroup a.who)
    let pr := s.leafPlace t.part pteR bigR (recVa % 2 ^ 52)
    let pd := s.leafPlace t.part pteD bigD (dispVa % 2 ^ 52)
    let s0 := (s.setAgent a { x with issue := .stopped, stop := some { code := r.code, how := r.how, record := rec0 }, block := none,
                                     active := false, gooseSeq := if x.isGroup then x.gooseSeq else s.beatSeq }).modTeam a.team
      fun t => { t with lastStop := some { who := a.who, site := x.site } }
    let m := dispMon s2 t.part t.asid t.slot a.who dispVa pteD bigD
    let z := s.takeFault a r
    s0.walk cl t.part t.asid (recVa % 2 ^ 52) = .leaf pteR bigR → s0.deviceWrite cl t.part t.asid recVa rec0 = some s1 →
    s1.walk cl t.part t.asid (dispVa % 2 ^ 52) = .leaf pteD bigD → s1.deviceWrite cl t.part t.asid dispVa (toBytes 4 0) = some s2 →
    s2.insertMon m = some s3 →
    (t.ctlGone = false → ∃ y u, z.agent a = some y ∧ y.stoppedAs r.code r.how ∧ y.lanes = x.lanes ∧
      y.regs = x.regs ∧ y.pend = x.pend ∧ y.restart = x.restart ∧ z.team a.team = some u ∧
      u.queue 15 = t.queue 15 ∧ u.heldEvents = t.heldEvents ++ [{ word := word, bytes := rec0 }] ∧
      ((∀ k ∈ s.mons, k.spill = none) → s.mons.length < 512 → (pr.loc + 32 ≤ pd.loc ∨ pd.loc + 4 ≤ pr.loc) →
        z.read pr.loc 32 = rec0 ∧ z.read pd.loc 4 = toBytes 4 0 ∧ ∃ k ∈ z.mons, k.same m = true)) ∧
    (t.ctlGone = true → z = s3.endContext t.part t.asid rec0)) ∧
  (∀ (s : State) (team : Nat) (t : Team) (x : Agent) (c : Ctx) (r : Raise),
    s.team team = some t → s.agent ⟨team, ctlWho⟩ = some x → x.kind ≠ .privileged → s.ctx t.part t.asid = some c → c.dbg = false →
    t.isEnded = false → (s.debugOf t.part c.idx).isOpen = false →
    ∃ u, (s.takeFault ⟨team, ctlWho⟩ r).team team = some u ∧ u.agents = [] ∧ u.isEnded = true) ∧
  (∀ (s : State) (a : AgentId) (t : Team) (x : Agent) (r : Raise), s.team a.team = some t → s.agent a = some x → r.code = 0x18 → t.isEnded = false →
    ∃ u, (s.takeFault a r).team a.team = some u ∧ u.agents = [] ∧ u.isEnded = true)

/-- Taking a fault: a privileged thread's, a group's, and a control thread's. -/
def Obligations.FaultEntry : Prop := privilegedFault ∧ stoppedAgent

/-! ### Between an agent's beats -/

/-- What is due for a group: a swap takes one that is idle, or has stood blocked for 32 rail clocks and is not ready, out of its rail's active set, and
gives a free slot to one that may issue; Goose strikes a group whose timer has reached the period, and no other; a napping lane whose time has come
runs on at the label it wants; and a release whose wait is over at its scope is done, and none before. No register changes (R58, R74, R75, R147, R269).
That a free slot goes to the oldest ready group, and what counts as ready, is the model's choice (log entry 33). -/
def railEvents : Prop :=
  ∀ (s : State) (a : AgentId) (t : Team) (x : Agent), s.team a.team = some t → s.agent a = some x →
    (∀ cl, t.cluster = some cl → x.isGroup = true →
      (x.active = true → (x.issue = .idle ∨ (x.counted = true ∧ x.blockedAt + 32 ≤ s.railTime a.team x ∧ s.readyBeat a t x = false)) → ∃ u y, exec (.activeSetSwap a) s = .next u ∧ u.agent a = some y ∧ y.active = false ∧ y.issue = x.issue ∧
        y.lanes = x.lanes ∧ y.regs = x.regs) ∧
      (x.active = false → s.mayIssue a t x = true → s.enters a cl x = true → ∃ u y, exec (.activeSetSwap a) s = .next u ∧ u.agent a = some y ∧
        y.active = true ∧ y.issue = x.issue ∧ y.lanes = x.lanes ∧ y.regs = x.regs) ∧
      (x.active = false → 8 ≤ s.activeOn cl x.rail → exec (.activeSetSwap a) s = .next s)) ∧
    (x.isGroup = true → t.resident = true →
      ((s.partition t.part).goose.toNat * 1000 ≤ x.goose → ∃ u y, exec (.goose a) s = .next u ∧ u.agent a = some y ∧ y.goosed = true ∧
        y.issue = x.issue ∧ y.lanes = x.lanes ∧ y.regs = x.regs) ∧
      (x.goose < (s.partition t.part).goose.toNat * 1000 → exec (.goose a) s = .next s)) ∧
    (∀ l, l < 32 → l < x.lanes.length → t.resident = true → (x.lane l).s = .nap → (x.lane l).nap ≤ s.dtime →
      ∃ u y, exec (.napWake a l) s = .next u ∧ u.agent a = some y ∧ (y.lane l).s = .run ∧ (y.lane l).w = (x.lane l).w ∧ y.regs = x.regs ∧
        (x.issue = .idle → y.issue = .arrive true)) ∧
    (∀ (i : Instr) (n : BitVec 8) (f : Fields) (scope : Nat), x.issue = .beats → x.arr.released = false →
      decodeFor x.kind x.budget x.arr.word = .ok i → formOf i = some (n, f) → (shapeOf i f).rel = some scope →
      (releaseDone s x scope = true →
        ∃ u y, exec (.releaseWaitExpiry a) s = .next u ∧ u.agent a = some y ∧ y.arr.released = true ∧ y.lanes = x.lanes ∧ y.regs = x.regs) ∧
      (releaseDone s x scope = false → exec (.releaseWaitExpiry a) s = .next s))

/-- An acknowledgement takes the store out of the agent's list, its c enters GWCT, and the cluster's L1 copy of the line takes its bytes; exclusivity that
the holder has not used for 16 µs ends as a serialised write; memory does not change (R143, R144, R153, R165). That the copy takes only the bytes that
neither its fill nor a later store has overtaken, and that its Wc rises to the store's c, is the model's choice (log entry 73), on the stamps of log
entry 72. -/
def acknowledgements : Prop :=
  (∀ (s : State) (a : AgentId) (t : Team) (x : Agent) (n : Nat) (k : Ack), s.team a.team = some t → s.agent a = some x → Tbl.find? x.acks n = some k →
    ∃ u y, exec (.storeAcknowledge a n) s = .next u ∧ u.agent a = some y ∧ y.acks = Tbl.del x.acks n ∧ y.gwct = max x.gwct k.c ∧
      y.lanes = x.lanes ∧ y.regs = x.regs ∧ u.mem = s.mem ∧
      ∀ vl cl c, k.vline = some vl → t.cluster = some cl → c ∈ s.l1 → c.isCopy cl t.part t.asid vl = true → c.line = k.loc / 128 →
        c.take (k.loc % 128) k.stamp k.c k.bytes ∈ u.l1) ∧
  (∀ (c : L1Line) (off stamp wc i : Nat) (bs : List Byte), off + bs.length ≤ 128 → i < c.data.length →
    let d := c.take off stamp wc bs
    d.wc = max c.wc wc ∧ d.exp = c.exp ∧ d.data.length = c.data.length ∧
      d.data[i]? = if off ≤ i ∧ i < off + bs.length ∧ c.seen < stamp ∧ Tbl.get 0 c.stamps i < stamp then bs[i - off]? else c.data[i]?) ∧
  (∀ (s : State) (l cl tm : Nat), (s.line l).excl = some (cl, tm) →
    (tm + 16000 ≤ s.dtime → ∃ u, exec (.exclusivityIdleEnd l) s = .next u ∧ (u.line l).excl = none ∧ (u.line l).wc = max s.dtime (s.line l).lmax ∧
      u.mem = s.mem ∧ u.teams = s.teams) ∧
    (s.dtime < tm + 16000 → exec (.exclusivityIdleEnd l) s = .next s))

/-- What happens to an agent between its beats: rails, Goose, naps, release waits, acknowledgements and recalls. -/
def Obligations.BetweenBeats : Prop := railEvents ∧ acknowledgements

/-- The first group that waits on a queue goes on: a reader with the oldest entry, which leaves the queue for it alone, a writer with room kept for its
word; that the entry or the room is its own from then on is the model's choice (log entry 13). A held event enters q15 behind the older ones when there
is room, that of a stop once everything that the group has issued is acknowledged; with the control thread gone, which an EXIT makes it by the model's
choice (log entry 56), a fault's event ends the context, and any other is discarded (R15, R22, R212, R289). -/
def Obligations.QueueWakes : Prop :=
  (∀ (s : State) (team q who : Nat) (ws : List Nat) (t : Team) (x : Agent), s.team team = some t → t.resident = true → t.saveAsked = false →
    t.preempt = false → t.waitersLike q true = who :: ws → s.agent ⟨team, who⟩ = some x → x.issue = .queue → q < 8 →
    (∀ (qq : BitVec 4) (wide : Bool) (w : W64) (c : W32) (es : List (W64 × W32)), x.queueUse = .read qq wide → x.arr.granted = none →
      t.queue q = (w, c) :: es →
      ∃ u y v, exec (.queueWake team q) s = .next u ∧ u.agent ⟨team, who⟩ = some y ∧ y.issue = .beats ∧ y.block = none ∧
        y.arr.granted = some (w, c, []) ∧ y.lanes = x.lanes ∧ u.team team = some v ∧ v.queue q = es ∧ who ∉ v.waiters q) ∧
    (∀ (qq : BitVec 4) (wide : Bool), x.queueUse = .write qq wide → x.arr.pushed = false → (t.queue q).length + t.letThrough q < 64 →
      ∃ u y v, exec (.queueWake team q) s = .next u ∧ u.agent ⟨team, who⟩ = some y ∧ y.issue = .beats ∧ y.block = none ∧ y.arr.pushed = true ∧
        y.lanes = x.lanes ∧ u.team team = some v ∧ v.queue q = t.queue q ∧ who ∉ v.waiters q)) ∧
  (∀ (s : State) (team : Nat) (t : Team) (e : HeldEvent) (es : List HeldEvent), s.team team = some t → t.heldEvents = e :: es →
    let waits := fun (g : HeldEvent) => bits g.word 63 56 = 2 ∧ ∃ x, Tbl.find? t.agents (bits g.word 6 0) = some x ∧ (x.ops ≠ [] ∨ x.acks ≠ [])
    (t.ctlGone = false → t.resident = true → (t.queue 15).length < 64 → ¬ waits e → ∃ u v r, exec (.eventPost team) s = .next u ∧
      u.team team = some v ∧ v.queue 15 = t.queue 15 ++ (e.word, t.cseq) :: r ∧ v.agents = t.agents) ∧
    (t.ctlGone = false → (64 ≤ (t.queue 15).length ∨ ∀ g ∈ t.heldEvents, waits g) → ∃ u v, exec (.eventPost team) s = .next u ∧
      u.team team = some v ∧ v.queue 15 = t.queue 15 ∧ v.heldEvents = t.heldEvents) ∧
    (t.ctlGone = true → bits e.word 63 56 ≠ 2 → bits e.word 63 56 ≠ 3 → ∃ u v, exec (.eventPost team) s = .next u ∧ u.team team = some v ∧
      v.heldEvents = es ∧ v.queue 15 = t.queue 15) ∧
    (t.ctlGone = true → t.isEnded = false → bits e.word 63 56 = 2 ∨ bits e.word 63 56 = 3 →
      ∃ u v, exec (.eventPost team) s = .next u ∧ u.team team = some v ∧ v.isEnded = true ∧ v.agents = []))

/-! ### Engines -/

/-- Memory after a write of bytes at a location: they stand there, and every other byte is as before. A byte of the monitors' spill area is the
hardware's own (R265). -/
def lands (s u : State) (loc : Nat) (d : List (Option Byte)) : Prop :=
  ∀ a, s.spillByte a = false → u.byteAt a = if loc ≤ a ∧ a < loc + d.length then (d.getD (a - loc) none).getD (s.byteAt a) else s.byteAt a

/-- No engine watchpoint of a command's partition is armed (R333). -/
def unwatched (s : State) (c : Cmd) : Prop := ∀ e ∈ (s.partition c.part).debug, ∀ w ∈ e.2.wp, w.2.loc = none

/-- The scratchpad byte at offset k of a line is byte j of the part e of a gather (R194, R199). -/
def delivered (g : GeCmd) (e : GePart) (line j k : Nat) : Prop := j < e.len ∧ k < 128 ∧ bits g.dst 21 0 + e.off + j = 128 * line + k

/-- A write of a running command lands. A line of a copy takes the bytes that its rows' sources supply, and in scratchpad becomes present; a gather's
lines take the bytes of its parts once every part of the line has come, each element at its place in the list, and become present; a scatter's element
takes the data, and an atomic scatter's the new value, each in one step that stands in no other agent's access; a drain writes its pieces in order.
Where the queue of a drain has room, its next entry enters behind the older ones (R155, R188, R191, R199, R202, R247, R248). -/
def Obligations.EngineWrites : Prop :=
  (∀ (s s1 : State) (cmd key : Nat) (c : Cmd) (k : CopyCmd) (p : Place) (d : List (Option Byte)),
    Tbl.find? s.cmds cmd = some c → c.runs = true → s.ownerHere c = true → c.kind = .copy k → unwatched s c →
    let ls := destLines k.slices
    let i := key % ls.length
    let m := key / ls.length
    ls ≠ [] → ((k.mask = 0 ∧ m = 0) ∨ (k.mask ≠ 0 ∧ m ∈ membersIn k.mask ∧ k.undelivered / 2 ^ m % 2 = 0)) →
    Tbl.get false k.landed key = false → copyData s cmd k (ls.getD i 0) = .ok (d, s1) →
    copyTarget s c k (ls.getD i 0) m = .ok p →
    ∃ u c1 k1, exec (.engineLineLands cmd key) s = .next u ∧ lands s u p.loc d ∧ Tbl.find? u.cmds cmd = some c1 ∧ c1.kind = .copy k1 ∧
      Tbl.get false k1.landed key = true ∧
      ∀ w v, p.owned = .scratch w → u.team w = some v → Tbl.get false v.absent (p.loc % 2 ^ 22 / 128) = false) ∧
  (∀ (s s1 : State) (cmd key : Nat) (c : Cmd) (g : GeCmd) (q : GePart) (p : Place) (bs : List Byte) (a : Nat),
    Tbl.find? s.cmds cmd = some c → c.runs = true → s.ownerHere c = true → c.kind = .ge g → unwatched s c →
    g.idx.isSome = true → g.strictRefusal = false → key < g.statusKey → g.parts.find? (fun q => q.key == key) = some q → g.isDone key = false →
    geInOrder s c g q = true → geApart s c g q = true → Tbl.find? g.held q.key = none → geSource s cmd c g q = .ok (bs, s1) →
    (g.kind = 0 → let g1 := { g with held := Tbl.ins g.held q.key bs, done := Tbl.put false g.done q.key true }
      (∀ e ∈ g.parts, g1.isDone e.key = true → ∃ hb, Tbl.find? g1.held e.key = some hb ∧ hb.length = e.len) →
      let ls := spanLines (bits g.dst 21 0 + q.off) q.len
      let at' := fun (line : Nat) => s.engPlace c (BitVec.ofNat 64 (4 * 2 ^ 60 + 128 * line)) true
      ∃ u c1, exec (.engineLineLands cmd key) s = .next u ∧ Tbl.find? u.cmds cmd = some c1 ∧ c1.kind = .ge g1 ∧
        (∀ line ∈ ls, ∀ p, g1.filled line = true → at' line = .ok p → ∀ e ∈ g.parts, ∀ hb, Tbl.find? g1.held e.key = some hb → ∀ j k,
          delivered g e line j k → s.spillByte (p.loc + k) = false → u.byteAt (p.loc + k) = hb.getD j 0) ∧
        (∀ a, s.spillByte a = false → (∀ line ∈ ls, ∀ p, g1.filled line = true → at' line = .ok p → ∀ e ∈ g.parts, ∀ j k,
          delivered g e line j k → a ≠ p.loc + k) → u.byteAt a = s.byteAt a) ∧
        ∀ team who v, c.owner = .agent team who → u.team team = some v → ∀ line ∈ ls, g1.lineDone line = true →
          Tbl.get false v.absent line = false) ∧
    (g.kind = 1 → q.addr = some a → gePlace s c g a = .ok p →
      ∃ u, exec (.engineLineLands cmd key) s = .next u ∧ lands s u p.loc (bs.map some)) ∧
    (g.kind = 2 → q.addr = some a → gePlace s c g a = .ok p →
      ∃ u, exec (.engineLineLands cmd key) s = .next u ∧
        lands s u p.loc ((toBytes g.esz (atomicNew g.fn g.ty g.rm (BitVec.ofNat 64 (s.readNat p.loc g.esz)) (BitVec.ofNat 64 (ofBytes bs))).1.toNat).map
          some))) ∧
  (∀ (s : State) (cmd team : Nat) (t : Team) (c : Cmd) (k : OxCmd) (ps : List (Nat × List Byte)) (queue : Option Nat) (es : List (List Byte)),
    s.runningOx cmd = some (team, t, c, k) → s.tileTurn team cmd k = true → drainWork t k = some (ps, queue, es) →
    (∀ (addr : Nat) (bs : List Byte) (p : Place), unwatched s c → ps[k.landed queue]? = some (addr, bs) →
      s.engPlace c (BitVec.ofNat 64 addr) true = .ok p →
      ∃ u c1 k1, exec (.engineLineLands cmd (k.landed queue)) s = .next u ∧ lands s u p.loc (bs.map some) ∧ Tbl.find? u.cmds cmd = some c1 ∧
        c1.kind = .ox k1 ∧ k1.landed queue = k.landed queue + 1) ∧
    (∀ (q : Nat) (e : List Byte), queue = some q → es[k.prog]? = some e →
      ((Tbl.get [] t.drain q).length < 16 → ∃ u v c1 k1, exec (.drainQueuePush cmd) s = .next u ∧ u.team team = some v ∧
        Tbl.get [] v.drain q = Tbl.get [] t.drain q ++ [e] ∧ Tbl.find? u.cmds cmd = some c1 ∧ c1.kind = .ox k1 ∧ k1.prog = k.prog + 1) ∧
      (16 ≤ (Tbl.get [] t.drain q).length → exec (.drainQueuePush cmd) s = .next s)))

/-- All that a command was to do is done, with its engine's number and the status that it reports (R189, R200, R242, R249). -/
def finished (s : State) (i : Instr) (cmd team : Nat) (c : Cmd) (t : Team) (eng status : Nat) : Prop :=
  (∃ k, i = .copyComplete cmd ∧ eng = 3 ∧ s.runningCopy cmd = some (c, k) ∧ status = (k.undelivered ||| s.endedMembers c k.mask) ∧
    k.allLanded status = true) ∨
  (∃ g, i = .geComplete cmd ∧ eng = 4 ∧ s.runningGe cmd = some (c, g) ∧ status = min g.refused.length 255 ∧
    (g.idx.isSome = true ∨ g.count = 0) ∧ g.strictRefusal = false ∧ (∀ p ∈ g.parts, g.isDone p.key = true) ∧
    g.statusDone = true) ∨
  (∃ k, i = .oxComplete cmd ∧ eng = 2 ∧ s.runningOx cmd = some (team, t, c, k) ∧ oxDone s team cmd t k = true ∧ (k.overflow t).2 = false ∧
    status = b2n (k.overflow t).1)

/-- A command ends with a cause (R190, R201, R251). -/
def endsWith (s : State) (i : Instr) (cmd team : Nat) (c : Cmd) (t : Team) (eng cause : Nat) : Prop :=
  (∃ line k, i = .copyFault cmd line ∧ eng = 3 ∧ s.runningCopy cmd = some (c, k) ∧ (∃ w, copyBlocked s cmd c k line = some (.fault cause, w))) ∨
  (∃ g g1, i = .geFault cmd ∧ eng = 4 ∧ s.runningGe cmd = some (c, g) ∧ geCause s cmd c g = some (cause, g1)) ∨
  (∃ k, i = .oxFault cmd ∧ eng = 2 ∧ s.runningOx cmd = some (team, t, c, k) ∧ oxCause s team cmd t c k = some cause)

/-- An event has entered q15 of a team, where the team takes events. -/
def posted (t v : Team) (w : W64) : Prop :=
  t.resident = true → (t.queue 15).length < 64 → t.heldEvents = [] → v.queue 15 = t.queue 15 ++ [(w, t.cseq)]

/-- A command that was found to fail waits for its writes, and they are acknowledged (R155). -/
def awaitedEnd (s : State) (i : Instr) (cmd team : Nat) (c : Cmd) (eng cause : Nat) : Prop :=
  c.ending = some cause ∧ c.settled s = true ∧
    ((∃ line k, i = .copyFault cmd line ∧ eng = 3 ∧ c.kind = .copy k) ∨ (∃ g, i = .geFault cmd ∧ eng = 4 ∧ c.kind = .ge g ∧ c.parked = false) ∨
      (∃ k, i = .oxFault cmd ∧ eng = 2 ∧ s.endingOx cmd = some (team, c, k, cause)))

/-- The end of an agent's command: it gives up its range locks and its token falls by one. Done, and acknowledged for 4 ns, it posts event kind 0x01
with EV and no event without; failed, it posts kind 0x03 with its cause, once its writes are acknowledged for as long: until then it is marked with
the cause and its token stays. A copy whose line stands on a replayable page is parked instead, where the fault queue is enabled, its token unchanged
(R16, R17, R24, R155, R189, R190, R199 to R201, R251, R293). -/
def Obligations.CommandsEnd : Prop :=
  ∀ (s : State) (i : Instr) (cmd team who eng n : Nat) (c : Cmd) (t : Team), Tbl.find? s.cmds cmd = some c → c.owner = .agent team who →
    s.team team = some t → t.ctlGone = false →
    let failed := ∃ u v, exec i s = .next u ∧ Tbl.find? u.cmds cmd = none ∧ (∀ r ∈ u.rlt, r.cmd ≠ cmd) ∧ u.team team = some v ∧
      Tbl.get 0 v.tok c.tok = Tbl.get 0 t.tok c.tok - 1 ∧ posted t v (eventWord 0x03 eng c.site.cseq (0x1A00 + n))
    (finished s i cmd team c t eng n → c.settled s = true →
      ∃ u v, exec i s = .next u ∧ Tbl.find? u.cmds cmd = none ∧ (∀ r ∈ u.rlt, r.cmd ≠ cmd) ∧ u.team team = some v ∧
        Tbl.get 0 v.tok c.tok = Tbl.get 0 t.tok c.tok - 1 ∧ u.mem = s.mem ∧
        (c.ev = false → v.queue 15 = t.queue 15 ∧ v.heldEvents = t.heldEvents) ∧
        (c.ev = true → posted t v (eventWord 0x01 eng c.site.cseq (n * 256 + c.tok))) ∧
        (∀ k, c.kind = .ox k → k.kind = .aczero → t.isEnded = false → ∀ x, Tbl.find? v.tiles k.tile = some x → x.els = [])) ∧
    (endsWith s i cmd team c t eng n → c.settled s = true → (∀ g, c.kind = .ge g → g.status = none) → failed) ∧
    (endsWith s i cmd team c t eng n → c.settled s = false → (∀ g, c.kind = .ge g → g.status = none ∨ unwatched s c) →
      ∃ u v c1, exec i s = .next u ∧ Tbl.find? u.cmds cmd = some c1 ∧ c1.ending = some n ∧ c1.owner = c.owner ∧ u.team team = some v ∧ v.tok = t.tok) ∧
    (awaitedEnd s i cmd team c eng n → failed) ∧
    (∀ line k page size w, i = .copyFault cmd line → s.runningCopy cmd = some (c, k) → copyBlocked s cmd c k line = some (.replay page, w) →
      (s.partition c.part).fqSize = some size →
      ∃ u v c1, exec i s = .next u ∧ Tbl.find? u.cmds cmd = some c1 ∧ c1.parked = true ∧ u.team team = some v ∧ v.tok = t.tok)

/-- What a command waits for is given: its range-lock entries, once enough of its cluster's 64 are free, when a gather or scatter makes its checks with
the handle entry as it then stands and issues, or is stopped by the first that fails; ring lines, read and consumed in their turn once they are filled
and every earlier command on the tile is done, A's before B's; and a blocked ACALLOC's tiles, the oldest request's first (R24, R187, R194, R203, R238,
R239, R245). That a gather or scatter makes its checks once more at its grant is the model's choice (log entry 43), and so is when a compressed
source's masks are read (log entry 80). -/
def Obligations.EngineGrants : Prop :=
  (∀ (s : State) (cmd team who cl : Nat) (c : Cmd) (t : Team) (x : Agent), Tbl.find? s.cmds cmd = some c → c.owner = .agent team who →
    s.team team = some t → t.cluster = some cl → s.agent ⟨team, who⟩ = some x → x.arr.cmd = some cmd → c.started = false →
    (∀ g, c.kind ≠ .ge g) →
    (s.rltRoom cl c.ranges.length = true → ∃ u c1, exec (.rltGrant cmd) s = .next u ∧ Tbl.find? u.cmds cmd = some c1 ∧ c1.started = true ∧
      c1.tok = c.tok ∧ c1.site = c.site ∧ c1.ranges = ({ c1 with ranges := c.ranges } : Cmd).locks ∧
      ((∀ k, c1.kind = .copy k → k.maskLines = []) → c1.ranges = c.ranges) ∧
      u.rlt = s.rlt ++ c1.ranges.map fun r => { cluster := cl, cmd := cmd, space := r.1, lo := r.2.1, hi := r.2.2.1, dst := r.2.2.2 }) ∧
    (s.rltRoom cl c.ranges.length = false → exec (.rltGrant cmd) s = .next s)) ∧
  (∀ (s : State) (cmd team who cl : Nat) (c : Cmd) (old : GeCmd) (t t1 : Team) (x : Agent) (b : Beat), Tbl.find? s.cmds cmd = some c →
    c.owner = .agent team who → s.team team = some t → t.cluster = some cl → s.agent ⟨team, who⟩ = some x → x.arr.cmd = some cmd →
    c.started = false → c.kind = .ge old → s.beatAt ⟨team, who⟩ = some b → (s.tokenDown team (tokOf b.f.md)).team team = some t1 →
    let g := geArgs b old.kind
    let e := s.handle t.part g.h
    let rs := geRanges team t g e
    (geChecks s t1 b.f g = none → s.rltRoom cl rs.length = true → ∃ u v c1 k, exec (.rltGrant cmd) s = .next u ∧ u.team team = some v ∧
      v.tok = t.tok ∧ (∀ l ∈ geLines g e, Tbl.get false v.absent l = true) ∧ v.cseq = (if who = ctlWho then nextSeq t.cseq else t.cseq) ∧
      Tbl.find? u.cmds cmd = some c1 ∧ c1.started = true ∧ c1.ranges = rs ∧ c1.kind = .ge k ∧ k.base = e.base ∧ k.limit = e.limit ∧ k.esz = e.esz ∧
      u.rlt = s.rlt ++ rs.map fun r => { cluster := cl, cmd := cmd, space := r.1, lo := r.2.1, hi := r.2.2.1, dst := r.2.2.2 }) ∧
    (geChecks s t1 b.f g = none → s.rltRoom cl rs.length = false → exec (.rltGrant cmd) s = .next s) ∧
    (∀ code, geChecks s t1 b.f g = some code → x.kind ≠ .privileged → ∃ u, exec (.rltGrant cmd) s = .next u ∧ Tbl.find? u.cmds cmd = none ∧
      ∀ y, u.agent ⟨team, who⟩ = some y → y.stoppedAs code .beat ∧ y.lanes = x.lanes)) ∧
  (∀ (s : State) (cmd team q : Nat) (t : Team) (c : Cmd) (k : OxCmd) (a b o : OxSrc) (first : Bool),
    s.runningOx cmd = some (team, t, c, k) → k.srcs = some (a, b) →
    ((first = true ∧ k.waitA = true ∧ o = a) ∨ (first = false ∧ k.waitA = false ∧ k.waitB = true ∧ o = b)) → o.ring = some q →
    (s.tileTurn team cmd k = false → exec (.oxRingRead cmd) s = .next s) ∧
    let n := o.ringNeed (k.span.1 + k.span.2 - 1)
    let bd := t.bind q
    let r := t.ring q
    (s.tileTurn team cmd k = true → ringReady s team cmd t q n = true → ∃ u v c1 k1, exec (.oxRingRead cmd) s = .next u ∧ u.team team = some v ∧
      v.ring q = { wc := r.wc, rd := ringStart bd + (r.rd - ringStart bd + n) % (max 1 (ringLines bd)), fill := r.fill - n } ∧
      Tbl.find? u.cmds cmd = some c1 ∧ c1.kind = .ox k1 ∧ k1.waitA = false ∧ k1.waitB = (first && k.waitB) ∧ u.mem = s.mem ∧
      ∀ l j, l < n → j < 128 → Tbl.get 0 (if first then k1.lines else k1.linesB) (128 * l + j) =
        s.byteAt (obLoc team ((o.first + (ringStart bd + (r.rd - ringStart bd + l) % (ringLines bd))) * 128) + j)) ∧
    (ringReady s team cmd t q n = false → exec (.oxRingRead cmd) s = .next s)) ∧
  (∀ (s : State) (cl team age n : Nat) (t : Team), Tbl.rising none s.teams = true → s.team team = some t →
    oldestAlloc (s.blockedAllocs cl) = some (team, age, n) →
    (n ≤ s.freeTiles cl → ∃ u v, exec (.acallocGrant cl) s = .next u ∧ u.team team = some v ∧ v.alloc = none ∧
      v.allocated = some (BitVec.ofNat 64 ((t.newNames n).foldl (fun m k => m + 2 ^ k) 0)) ∧
      (∀ k ∈ t.newNames n, Tbl.find? v.tiles k = some { els := [], ty := none }) ∧
      ∀ k, k ∉ t.newNames n → Tbl.find? v.tiles k = Tbl.find? t.tiles k) ∧
    (s.freeTiles cl < n → (∃ w ∈ s.teams, w.2.engCluster = some cl ∧ w.2.canFree = true) → exec (.acallocGrant cl) s = .next s))

/-! ### Monitors -/

/-- The parked lanes that a wake names hold one WAIT's destinations. -/
def oneWait (x : Agent) (m : LaneMask) (i : Nat) : Prop :=
  i ∈ x.parked m ∧ (∀ l ∈ x.parked m, l < x.lanes.length ∧ (x.lane l).codeD = (x.lane i).codeD ∧ (x.lane l).codeE = (x.lane i).codeE ∧
    (x.lane l).wide = (x.lane i).wide) ∧ (∀ r, (x.lane i).codeD ≠ .p r) ∧
    ∀ r k, (x.lane i).codeE ≠ .v r ∧ (x.lane i).codeE ≠ .u k

/-- The lanes that a wake names run on, with the word's value in D and the predicate in E. -/
def woken (x y : Agent) (m : LaneMask) (v : W64) (p : Bool) : Prop :=
  ∀ l ∈ x.parked m, (y.lane l).s = .run ∧ (y.lane l).w = (x.lane l).w ∧ y.holds (if (x.lane l).wide then 64 else 32) l (x.lane l).codeD v ∧
    y.holds 1 l (x.lane l).codeE (BitVec.ofNat 64 (b2n p))

/-- Registration, wakes and timeouts. A request whose word passes its test, or whose deadline has passed, is answered at once with the word and no
entry; another is entered, and parks its WAIT's lanes with D empty; a refused one raises fault 0x0E with nothing parked. That a batch waits for its
agent's earlier accesses to its words is the model's choice (log entry 19). A wake gives its lanes the value and the predicate, and they run on; one that
finds its team out is recorded, and raises GWCT all the same, which is the model's choice (log entry 35). A disposition waits for the event of its stop, and
then resumes its agent where it stopped, ends it, or ends its context. A tick of the wheel takes every entry out whose deadline is past, each with a wake
of predicate 0 (R259 to R266, R290). -/
def Obligations.Monitors : Prop :=
  (∀ (s : State) (r : RegReq) (cl : Option Nat), let v := s.monWord r.mon
    (waitTest r.mon.fn r.mon.w64 v r.mon.operand = true → ∃ u w, s.register r cl = .reply u w ∧ w.mon = r.mon ∧ w.value = v ∧ w.pred = true ∧
      u.mons = s.mons) ∧
    (waitTest r.mon.fn r.mon.w64 v r.mon.operand = false → r.mon.deadline ≤ s.dtime → ∃ u w, s.register r cl = .reply u w ∧ w.mon = r.mon ∧
      w.value = v ∧ w.pred = false ∧ u.mons = s.mons) ∧
    (waitTest r.mon.fn r.mon.w64 v r.mon.operand = false → s.dtime < r.mon.deadline → s.mons.length < 512 →
      ∃ u, s.register r cl = .parked u ∧ ∃ m ∈ u.mons, m.same r.mon = true ∧ m.lanes &&& r.mon.lanes = r.mon.lanes)) ∧
  (∀ (s s1 : State) (n : Nat) (bt : RegBatch) (a : AgentId) (t : Team) (x : Agent) (f : Fields) (r : RegReq),
    Tbl.find? s.batches n = some bt → bt.agent = some a → bt.reqs = [r] → s.team a.team = some t → s.agent a = some x → x.issue = .beats →
    decodeFor x.kind x.budget x.arr.word = .ok (.wait f) →
    (x.opsBefore bt.reqs = true → exec (.monitorRegister n) s = .next s) ∧
    (x.opsBefore bt.reqs = false → (({ s with batches := Tbl.del s.batches n } : State).register r t.cluster = .parked s1) →
      ∃ u y, exec (.monitorRegister n) s = .next u ∧ Tbl.find? u.batches n = none ∧ u.agent a = some y ∧
        ∀ l ∈ lanesIn r.mon.lanes, l < x.lanes.length → (y.lane l).s = .mon ∧ (y.lane l).codeD = f.d ∧ (y.lane l).codeE = f.e ∧
          (y.lane l).wide = decide (tyWidth f.ty = 64) ∧ (y.lane l).w = x.p + 1 ∧
          ∀ w ∈ waitMarks f.d f.e (decide (tyWidth f.ty = 64)) l 0 false, w ≠ .p 7 l false → y.isEmpty w = true) ∧
    (x.opsBefore bt.reqs = false → (({ s with batches := Tbl.del s.batches n } : State).register r t.cluster = .refused) → x.kind ≠ .privileged →
      let raised : Raise := { code := 0x0E, how := .beat, lanes := if f.uni then performing x f (nextBeat x f.uni).1 else r.mon.lanes,
                              addr := r.addr, write := false }
      let there := { x with restart := if f.uni then 0 else (nextBeat x f.uni).2 }
      ∃ u, exec (.monitorRegister n) s = .next u ∧ ∀ y, u.agent a = some y → y.stoppedAs 0x0E .beat ∧ y.lanes = x.lanes ∧
        ∃ st, y.stop = some st ∧ st.record = (recOf t a.who there raised).encode)) ∧
  (∀ (s : State) (n : Nat) (w : Wake) (a : AgentId) (t : Team) (x : Agent), Tbl.find? s.wakes n = some w → w.mon.hostq = false →
    s.waiterOf w.mon = some a → s.team a.team = some t → s.agent a = some x →
    (w.mon.disp = false → t.resident = true → ∀ i, oneWait x w.mon.lanes i →
      ∃ u y, exec (.monitorWake n) s = .next u ∧ u.agent a = some y ∧ y.gwct = max x.gwct w.c ∧
        woken x y w.mon.lanes w.value w.pred) ∧
    (w.mon.disp = false → t.resident = false → ∃ u v y, exec (.monitorWake n) s = .next u ∧ Tbl.find? u.wakes n = none ∧ u.team a.team = some v ∧
      v.wake = t.wake ++ [{ group := a.who, lanes := w.mon.lanes, value := w.value, pred := w.pred }] ∧ u.agent a = some y ∧ y.lanes = x.lanes ∧
      y.gwct = max x.gwct w.c) ∧
    (w.mon.disp = true → t.resident = true → t.stopHeld a.who = true → exec (.monitorWake n) s = .next s) ∧
    (∀ st, w.mon.disp = true → t.resident = true → t.stopHeld a.who = false → x.stop = some st →
      (w.value = 1 → st.how ≠ .census → ∃ u y, exec (.monitorWake n) s = .next u ∧ u.agent a = some y ∧ y.stop = none ∧ y.block = none ∧
        y.lanes = x.lanes ∧ y.regs = x.regs ∧ y.gwct = max x.gwct w.c ∧ (st.how = .beat → y.issue = .beats ∧ y.restart = x.restart ∧ y.arr.wk = 0) ∧
        (st.how = .refetch → y.issue = .arrive false)) ∧
      (w.value = 1 → st.how = .census → exec (.monitorWake n) s = .next
        ((({ s with wakes := Tbl.del s.wakes n } : State).setAgent a { x with stop := none, block := none, gwct := max x.gwct w.c }).nextIndex a)) ∧
      (w.value = 2 → ∃ u y, exec (.monitorWake n) s = .next u ∧ u.agent a = some y ∧ y.issue = .ended ∧ ∀ l ∈ y.lanes, l.s = .done) ∧
      (2 < w.value.toNat → t.isEnded = false → ∃ u v, exec (.monitorWake n) s = .next u ∧ u.team a.team = some v ∧ v.isEnded = true ∧ v.agents = []))) ∧
  (∀ (s : State) (slice : Nat),
    ∃ u, exec (.monitorTimeout slice) s = .next u ∧
      (∀ m, m ∈ u.mons ↔ m ∈ s.mons ∧ ¬ (m.slice = slice ∧ m.deadline ≤ s.dtime / 1000 * 1000)) ∧
      ∀ m ∈ s.mons, m.slice = slice → m.deadline ≤ s.dtime / 1000 * 1000 →
        ∃ k w, Tbl.find? u.wakes k = some w ∧ w.mon = m ∧ w.value = s.monWord m ∧ w.pred = false)

/-! ### Contexts, teams and grids -/

/-- The end of a context and the fault queue's answers. Every team of a context that ends stops with nothing saved, its buffers zero, and its commands
and monitor entries are gone; other contexts' teams stay. A retry sends every parked beat on from its quad and every parked command; a refusal
stops a parked beat with fault 0x07; a new FQRD lets a record that waited for room in (R291, R293, R294). -/
def Obligations.FaultQueueAnswers : Prop :=
  (∀ (s : State) (part asid : Nat) (c : Ctx), Tbl.rising none s.teams = true → s.ctx part asid = some c →
    ∃ u, exec (.contextEnd part asid) s = .next u ∧
      (∀ n t, s.team n = some t → t.part = part → t.asid = asid → t.isEnded = false → ∃ v, u.team n = some v ∧ v.isEnded = true ∧ v.agents = [] ∧
        ∀ k, k < 2 ^ 22 → u.byteAt (spLoc n 0 + k) = 0) ∧
      (∀ n t, s.team n = some t → (t.part ≠ part ∨ t.asid ≠ asid) → t.priv = false → u.team n = some t) ∧
      (∀ n k, Tbl.find? u.cmds n = some k → ¬ (k.part = part ∧ k.asid = asid)) ∧ (∀ m ∈ u.mons, ¬ (m.part = part ∧ m.asid = asid))) ∧
  (∀ (s : State) (part idx : Nat) (r : Replay), (s.partition part).live = true → (s.partition part).pending idx = some r →
    (∃ u, exec (.faultQueueRetry part idx) s = .next u ∧ (∀ q ∈ (u.partition part).replays, q.idx ≠ r.idx) ∧
      (∀ a x, a ∈ r.agents → s.agent a = some x → x.issue = .replay → ∃ y, u.agent a = some y ∧ y.issue = .beats ∧ y.block = none ∧
        y.restart = x.restart ∧ y.lanes = x.lanes ∧ y.regs = x.regs) ∧
      ∀ n c, n ∈ r.cmds → Tbl.find? s.cmds n = some c → ∃ d, Tbl.find? u.cmds n = some d ∧ d.parked = false ∧ d.kind = c.kind ∧
        (r.watch = true → d.noWatch = true)) ∧
    (∀ a x q, r.agents = [a] → r.cmds = [] → s.agent a = some x → x.issue = .replay → x.replay = some q → x.kind ≠ .privileged →
      ∃ u, exec (.faultQueueRefuse part idx) s = .next u ∧ ∀ y, u.agent a = some y → y.stoppedAs 0x07 .beat ∧ y.lanes = x.lanes ∧ y.restart = x.restart)) ∧
  (∀ (s : State) (part : Nat) (w : W64), (s.partition part).live = true →
    ((s.partition part).heldRecords = [] → ∃ u, exec (.fqrdWrite part w) s = .next u ∧ (u.partition part).fqRd = w ∧
      (u.partition part).fqWr = (s.partition part).fqWr) ∧
    (∀ h size, (s.partition part).heldRecords = [h] → (s.partition part).fqSize = some size → ((s.partition part).fqWr - w).toNat < size →
      h.bytes.length = 32 → (∀ m ∈ s.mons, m.spill = none) →
      ∃ u, exec (.fqrdWrite part w) s = .next u ∧ (u.partition part).fqRd = w ∧ (u.partition part).fqWr = (s.partition part).fqWr + 1 ∧
        (u.partition part).heldRecords = [] ∧
        u.read (locOf 0 ((s.partition part).fqBase.toNat + 32 * ((s.partition part).fqWr.toNat % size))) 32 = h.bytes))

/-- No group of a saved team goes on at its restore: none that is idle has a lane that runs, naps, or is woken (R68, R266, R269). -/
def restsOn (t : Team) : Prop :=
  ∀ e ∈ t.agents, e.2.issue = .idle → e.2.runLanes = [] ∧ (∀ l ∈ e.2.lanes, l.s ≠ .nap) ∧ ∀ w ∈ t.wake, w.group ≠ e.1

/-- A save takes a team that is to go, and that can, off its cluster: its lanes, queues and tokens are kept, what was on its way has landed, a park on a
queue is undone, and its locks are gone. A restore puts it on the cluster asked for, or on the partner of a heavier layer, where that admits it: its
groups are the youngest there, it takes its locks again and event kind 0x05 is posted; a migration does both in one step (R57, R73, R298 to R301, R319,
R323). What the model chooses here: which saves count as forced (log entry 41), the CSEQ of event kind 0x05 and which saves a shed has caused (log
entry 42), that a group's park on a queue is undone (log entry 43), and that the saved ranks give way to new ones (log entry 88). -/
def Obligations.TeamsMove : Prop :=
  (∀ (s : State) (team : Nat) (t : Team), s.team team = some t → t.shedHeld = true ∨ t.preempt = true ∨ s.placementNeed t = true →
    (s.flaws = [] → s.canSave team t = true → s.olderSave team t = false →
      ∃ u v, exec (.teamSave team) s = .next u ∧ u.team team = some v ∧ v.res = .saved ∧ v.saveAsked = false ∧ v.preempt = false ∧ v.tiles = t.tiles ∧
        (∀ r ∈ u.rlt, ∀ c, Tbl.find? u.cmds r.cmd = some c → c.ofTeam team = false) ∧
        ((∀ e ∈ s.cmds, e.2.ofTeam team = true → ∀ k, e.2.kind ≠ .copy k) → v.q = t.q ∧ v.tok = t.tok ∧
          ∀ who x, Tbl.find? t.agents who = some x → ∃ y, Tbl.find? v.agents who = some y ∧
            y.issue = (if x.issue = .queue then (if x.isGroup then .beats else .arrive true) else x.issue)) ∧
        ∀ who x, Tbl.find? t.agents who = some x → ∃ y, Tbl.find? v.agents who = some y ∧ y.lanes = x.lanes ∧ y.p = x.p ∧ y.acks = [] ∧
          y.active = false ∧ (x.ops = [] → (∀ e ∈ x.pend, e.2.parts = 0 ∧ e.2.log = []) → y.pend = [])) ∧
    (s.canSave team t = true → s.olderSave team t = true → exec (.teamSave team) s = .next s)) ∧
  (∀ (s : State) (team cl : Nat) (t : Team) (rails : List Nat), s.team team = some t → t.res = .saved → s.shed t.cls = false →
    s.earlierWork t.part t.rank = false → let c := s.restoreOn team t cl none
    s.takesBack team t c = some rails →
    ∃ u v, exec (.teamRestore team cl) s = .next u ∧ u.team team = some v ∧ (v.isEnded = false → v.res = .on c ∧ v.wake = []) ∧
      ((∀ e ∈ t.agents, e.2.stop = none) → t.barReady = false → restsOn t → v.isEnded = false ∧ u.rlt = s.rlt ++ s.lockAgain team c ∧
        (t.ctlGone = false → t.heldEvents = [] → (t.queue 15).length < 64 →
          v.queue 15 = t.queue 15 ++ [(eventWord 0x05 (if t.byShed then 8 else 1) t.cseq (if t.forced then 0x1700 else 0), t.cseq)]) ∧
        (t.wake = [] → (∀ e ∈ t.agents, ∀ l ∈ e.2.lanes, l.s ≠ .nap) →
          ∀ who x, Tbl.find? t.agents who = some x → ∃ y, Tbl.find? v.agents who = some y ∧ y.lanes = x.lanes ∧ y.regs = x.regs) ∧
        (t.wake = [] → (∀ e ∈ t.agents, e.2.issue ≠ .idle) → rails.length = t.need.budgets.length →
          ∀ who x, Tbl.find? t.agents who = some x → who ≠ ctlWho → x.issue ≠ .ended →
            ∃ y, Tbl.find? v.agents who = some y ∧ s.rankSeq ≤ y.rank ∧ y.rail ∈ rails))) ∧
  (∀ (s : State) (team c0 cl : Nat) (t t1 : Team) (rails : List Nat), s.team team = some t → t.cluster = some c0 → c0 ≠ cl → t.saveAsked = false →
    s.canSave team t = true → (s.saveTeam team t).team team = some t1 → t1.isEnded = false → let c := (s.saveTeam team t).restoreOn team t1 cl (some c0)
    (s.saveTeam team t).takesBack team t1 c = some rails →
    ∃ u v, exec (.teamMigrate team cl) s = .next u ∧ u.team team = some v ∧ (v.isEnded = false → v.res = .on c) ∧
      ((∀ e ∈ t1.agents, e.2.stop = none) → t1.barReady = false → restsOn t1 → v.isEnded = false))

/-- Grids and their teams. A member whose cluster has loaded it starts with its slot, the next age and zero buffers; the next team of a grid starts on
the cluster that is its place, its groups at their entry with zeroed registers and the launch's lanes RUN. A grid whose teams have all ended, every
token complete and their writes released, ends: its completion word is written as one write, or its record where it cannot be, and its packet
completes. A child whose packet is sound joins the order as a grid,
and another ends in fault 0x1A with cause 0x01; its token falls either way (R60, R134, R154, R278, R281, R282, R284, R288). -/
def Obligations.GridsRun : Prop :=
  (∀ (s : State) (grid : Nat) (g : Grid), Tbl.find? s.grids grid = some g → g.finished = false → s.shed g.cls = false →
    (∀ team t cl, s.loadingOf grid ≠ [] → Config.freeNat s.fresh % ((s.loadingOf grid).length + 1) < (s.loadingOf grid).length →
      (s.loadingOf grid).getD (Config.freeNat s.fresh % ((s.loadingOf grid).length + 1)) 0 = team → s.team team = some t → t.res = .loading cl →
      ∃ u v, exec (.teamStart grid) s = .next u ∧ u.team team = some v ∧ v.res = .on cl ∧ v.slot = s.lowestSlot t.part t.asid ∧ v.age = s.ageSeq ∧
        u.ageSeq = s.ageSeq + 1 ∧ v.agents = t.agents ∧ ∀ k, k < 2 ^ 22 → u.byteAt (spLoc team 0 + k) = 0) ∧
    (∀ cl, s.loadingOf grid = [] → s.earlierWork g.part g.rank = false → s.nextPlaces g = some [cl] →
      ∃ u n v g1, exec (.teamStart grid) s = .next u ∧ s.team n = none ∧ u.team n = some v ∧ v.res = .on cl ∧ v.grid = grid ∧
        Tbl.find? u.grids grid = some g1 ∧ g1.started = g.started + 1 ∧ v.x = g.started % g.launch.gx ∧ v.y = g.started / g.launch.gx % g.launch.gy ∧
        v.z = g.started / (g.launch.gx * g.launch.gy) ∧ v.age = s.ageSeq ∧
        ∀ who y, who ≠ ctlWho → Tbl.find? v.agents who = some y → y.issue = .arrive true ∧ y.p = BitVec.ofNat 28 g.launch.grpEntry ∧ y.v = [] ∧
          y.u = [] ∧ y.pr = [] ∧ ∀ i, i < 32 → (y.lane i).s = if i < g.launch.population who then .run else .done)) ∧
  (∀ (s : State) (grid : Nat) (g : Grid), Tbl.find? s.grids grid = some g → g.finished = false → s.gridOver grid g = true →
    ∃ u, exec (.gridEnd grid) s = .next u ∧ Tbl.find? u.grids grid = none ∧ (∀ e ∈ u.teams, e.2.grid ≠ grid) ∧
      (g.launch.compAddr = 0 → u.mem = s.mem) ∧
      (∀ p, g.launch.compAddr ≠ 0 → s.engPlace (hostCmd g.part g.asid 0 0) g.launch.compAddr true = .ok p →
        lands s u p.loc ((toBytes 4 g.launch.compVal.toNat).map some)) ∧
      (∀ code size, g.launch.compAddr ≠ 0 → s.completionPlace g = .error code → let p := s.partition g.part
        p.fqSize = some size → (p.fqWr - p.fqRd).toNat < size → p.heldRecords = [] → (∀ m ∈ s.mons, m.spill = none) →
        let r : Rec := { code := code, eng := 6, group := 0, ctl := false, slot := 0, asid := g.asid, part := g.part, restart := 0, write := true,
                         replay := false, site := ⟨0, 0⟩, addr := g.launch.compAddr, lanes := 0 }
        u.read (locOf 0 (p.fqBase.toNat + 32 * (p.fqWr.toNat % size))) 32 = r.encode) ∧
      (∀ q idx, g.host = some (q, idx) → idx ∉ (u.hostq g.part q).running)) ∧
  (∀ (s : State) (n : Nat) (c : Child) (t : Team), Tbl.find? s.children n = some c → s.team c.team = some t → t.ctlGone = false →
    ∃ u v, exec (.childValidate n) s = .next u ∧ Tbl.find? u.children n = none ∧ u.team c.team = some v ∧
      Tbl.get 0 v.tok c.tok = Tbl.get 0 t.tok c.tok - 1 ∧
      (launchOk c.packet true = true → s.everFits c.part (parseLaunch c.packet) = true →
        (∃ k g, Tbl.find? s.grids k = none ∧ Tbl.find? u.grids k = some g ∧ g.launch = parseLaunch c.packet ∧ g.order = c.order ∧ g.host = none ∧
          g.part = c.part ∧ g.asid = c.asid ∧ g.cls = max (parseLaunch c.packet).cls c.cls) ∧
        (c.ev = true → posted t v (eventWord 0x01 (if c.who = ctlWho then 1 else 0) c.site.cseq c.tok))) ∧
      (launchOk c.packet true = false ∨ s.everFits c.part (parseLaunch c.packet) = false → u.grids = s.grids ∧
        posted t v (eventWord 0x03 (if c.who = ctlWho then 1 else 0) c.site.cseq 0x1A01)))

/-! ### Host queues -/

/-- The next packet of a queue may begin, and its 64 bytes are these (R271 to R273). -/
def packetDue (s : State) (part q : Nat) (bs : List Byte) : Prop :=
  let h := s.hostq part q
  h.may = true ∧ h.inTurn (bit (packetWord bs 0) 8) = true ∧
    ∃ p, s.engPlace (hostCmd part h.asid q h.rd.toNat) (h.base + BitVec.ofNat 64 (64 * (h.rd.toNat % h.size))) false = .ok p ∧ bs = s.read p.loc 64

/-- The queue has stopped with an error code: QSTAT names the packet and the code, with ERR set; vector 1 fires where ERR was clear (R272, R341). -/
def stoppedWith (s u : State) (part q idx code : Nat) : Prop :=
  (u.hostq part q).stat = BitVec.ofNat 64 ((idx % 2 ^ 32) * 2 ^ 32 + code * 256 + 1) ∧
    (bit (s.hostq part q).stat 0 = false → { fn := part + 1, vector := 1 } ∈ u.msix)

/-- The registers of a host queue (R270 to R272), in a live partition: a sound QCTL with EN enables it, another stops it with code 0x01; EN = 0 clears
its error and passes the failed packet; a doorbell in range announces packets, another stops it with code 0x02. Elsewhere nothing happens (R338). -/
def Obligations.QueueRegisters : Prop :=
  (∀ (s : State) (part q : Nat) (w : W64), (s.partition part).live = true →
    let h := s.hostq part q
    let sound := h.base.toNat % 4096 = 0 ∧ (tagOf h.base = 0 ∨ tagOf h.base = 0xC) ∧ bits w 63 32 = 0 ∧ bits w 30 29 = 0 ∧ bits w 23 18 = 0 ∧
      4 ≤ bits w 28 24 ∧ bits w 28 24 ≤ 16
    (bit w 31 = true → sound → ∃ u, exec (.queueEnable part q w) s = .next u ∧ u.hostq part q = { h with ctl := w }) ∧
    (bit w 31 = true → ¬ sound → ∃ u, exec (.queueEnable part q w) s = .next u ∧ stoppedWith s u part q h.rd.toNat 0x01) ∧
    (bit w 31 = false → ∃ u, exec (.queueDisable part q w) s = .next u ∧ (u.hostq part q).ctl = w ∧ (u.hostq part q).stat = h.stat &&& ~~~1#64 ∧
      (u.hostq part q).rd = (match h.failed with | some i => BitVec.ofNat 64 (i + 1) | none => h.rd)) ∧
    (h.accepted.toNat ≤ w.toNat → w.toNat ≤ h.rd.toNat + h.size → ∃ u, exec (.qdoor part q w) s = .next u ∧
      u.hostq part q = { h with door := w, accepted := w }) ∧
    (w.toNat < h.accepted.toNat ∨ h.rd.toNat + h.size < w.toNat → ∃ u, exec (.qdoor part q w) s = .next u ∧ stoppedWith s u part q h.rd.toNat 0x02)) ∧
  (∀ (s : State) (part q : Nat) (w : W64) (i : Instr), (s.partition part).live = false →
    i = .queueEnable part q w ∨ i = .queueDisable part q w ∨ i = .qdoor part q w → exec i s = .next s)

/-- The slice that a COPY packet describes (R274). -/
def packetSlice (bs : List Byte) : CopySlice :=
  { idx := 0, dst := packetWord bs 1, src := packetWord bs 2, geo := packetWord bs 3, sstr := packetWord bs 4, dstr := packetWord bs 5, cleared := 0 }

/-- A tag that a COPY packet may use: no scratchpad, no local window (R274). -/
def farTag (p : W64) : Prop := tagOf p ≠ 4 ∧ tagOf p ≠ 5 ∧ tagOf p ≠ 6

/-- The packets of a host queue, each in its turn. QRD passes it, and: a LAUNCH adds its grid to the order, or stops the queue with 0x01 or 0x06; a COPY
issues a copy of the queue; a SIGNAL stores its value, or adds it, in one atomic write once what its queue has written is released; a WAITMON sends
its entry to its slice, and at its wake or timeout a nonzero RESULT receives the value and the predicate, and the packet completes, or with TOERR stops
its queue at a timeout; a FENCE completes once every earlier packet has, and is released; a MARKER writes the device time. A packet of no type stops
its queue with code 0x01, and one that cannot be read with code 0x03 (R268, R271 to R277). That a packet on a replayable page gives 0x03, and a WAITMON
on a page that no slice monitors 0x04, is the model's choice (log entry 54). -/
def Obligations.PacketsRun : Prop :=
  (∀ (s : State) (part q : Nat), let h := s.hostq part q
    h.may = true → (∀ p, s.engPlace (hostCmd part h.asid q h.rd.toNat) (h.base + BitVec.ofNat 64 (64 * (h.rd.toNat % h.size))) false ≠ .ok p) →
    ∃ u, exec (.launchPacket part q) s = .next u ∧ stoppedWith s u part q h.rd.toNat 0x03) ∧
  (∀ (s : State) (n idx : Nat) (w : Wake) (toerr : Bool) (result : W64), let part := w.mon.part
    let q := w.mon.group
    Tbl.find? s.wakes n = some w → w.mon.hostq = true → (s.hostq part q).waitmon = some (idx, toerr, result) →
    (toerr = false ∨ w.pred = true → result = 0 → ∃ u, exec (.monitorWake n) s = .next u ∧ (u.hostq part q).waitmon = none ∧
      idx ∉ (u.hostq part q).running ∧ u.mem = s.mem ∧ w.c ≤ (u.hostq part q).gwct) ∧
    (∀ p, toerr = false ∨ w.pred = true → result ≠ 0 → result.toNat % 128 ≤ 112 → s.engPlace (hostCmd part w.mon.asid q idx) result true = .ok p →
      ∃ u, exec (.monitorWake n) s = .next u ∧ (u.hostq part q).waitmon = none ∧ idx ∉ (u.hostq part q).running ∧ w.c ≤ (u.hostq part q).gwct ∧
        lands s u p.loc ((toBytes 8 w.value.toNat ++ toBytes 8 (b2n w.pred)).map some)) ∧
    (toerr = true → w.pred = false → result = 0 → ∃ u, exec (.monitorWake n) s = .next u ∧ stoppedWith s u part q idx 0x05)) ∧
  ∀ (s : State) (part q : Nat) (bs : List Byte), packetDue s part q bs →
    let h := s.hostq part q
    let idx := h.rd.toNat
    let w := packetWord bs
    let ty := bits (w 0) 7 0
    let c := hostCmd part h.asid q idx
    let begun := fun (u : State) => (u.hostq part q).rd = BitVec.ofNat 64 (idx + 1)
    (ty = 0 ∨ 6 < ty → ∃ u, exec (.launchPacket part q) s = .next u ∧ stoppedWith s u part q idx 0x01) ∧
    (ty = 1 → launchOk bs false = true →
      (s.everFits part (parseLaunch bs) = true → ∃ u k g, exec (.launchPacket part q) s = .next u ∧ begun u ∧ idx ∈ (u.hostq part q).running ∧
        Tbl.find? s.grids k = none ∧ Tbl.find? u.grids k = some g ∧ g.launch = parseLaunch bs ∧ g.host = some (q, idx) ∧ g.order = s.orderSeq ∧
        g.part = part ∧ g.asid = h.asid ∧ u.orderSeq = s.orderSeq + 1) ∧
      (s.everFits part (parseLaunch bs) = false → ∃ u, exec (.launchPacket part q) s = .next u ∧ stoppedWith s u part q idx 0x06)) ∧
    (ty = 1 → launchOk bs false = false → ∃ u, exec (.launchPacket part q) s = .next u ∧ stoppedWith s u part q idx 0x01) ∧
    (let k := packetSlice bs
     ty = 2 → bits (w 0) 63 9 = 0 → wordsZero bs 6 = true → k.formed = true → endpointOk k.src k.srcTop = true → endpointOk k.dst k.dstTop = true →
      farTag k.src → farTag k.dst → k.geom.sparse = false → k.src.toNat % 4 = 0 → k.dst.toNat % 4 = 0 → k.pitchesOk = true →
      ∃ u d, exec (.copyPacket part q) s = .next u ∧ begun u ∧ Tbl.find? u.cmds s.cmdSeq = some d ∧ d.owner = .host part q idx ∧ d.started = true ∧
        d.kind = copyCmd [k] 0 none ∧ idx ∈ (u.hostq part q).running) ∧
    (let n := if bit (w 0) 18 then 8 else 4
     ∀ p, ty = 3 → bits (w 0) 63 19 = 0 → bits (w 0) 15 9 = 0 → bits (w 0) 17 16 ≤ 1 → wordsZero bs 3 = true → (w 1).toNat % n = 0 →
      (n = 4 → bits (w 2) 63 32 = 0) → s.engPlace c (w 1) true = .ok p →
      (h.gwct ≠ 0 → s.dtime < h.gwct + 4 → exec (.signalPacket part q) s = .next s) ∧
      (h.gwct = 0 ∨ h.gwct + 4 ≤ s.dtime → ∃ u, exec (.signalPacket part q) s = .next u ∧ begun u ∧ idx ∉ (u.hostq part q).running ∧
        lands s u p.loc ((toBytes n (if bits (w 0) 17 16 = 0 then (w 2).toNat else s.readNat p.loc n + (w 2).toNat)).map some))) ∧
    (let n := if bit (w 0) 20 then 8 else 4
     ∀ p, ty = 4 → bits (w 0) 63 22 = 0 → bits (w 0) 15 9 = 0 → bits (w 0) 19 16 ≤ 11 → wordsZero bs 5 = true → (w 1).toNat % n = 0 →
      (n = 4 → bits (w 2) 63 32 = 0) → (w 4).toNat % 8 = 0 → (w 4 = 0 ∨ ∃ r, s.engPlace c (w 4) true = .ok r) → tagOf (w 1) ∉ [4, 5, 6, 8] →
      s.engPlace c (w 1) false = .ok p →
      (p.owned ≠ .slice → ∃ u, exec (.waitmonPacket part q) s = .next u ∧ stoppedWith s u part q idx 0x04) ∧
      (p.owned = .slice → ∃ u k b r, exec (.waitmonPacket part q) s = .next u ∧ begun u ∧ (u.hostq part q).waitmon = some (idx, bit (w 0) 21, w 4) ∧
        Tbl.find? u.batches k = some b ∧ b.host = some (part, q, idx) ∧ b.reqs = [r] ∧ r.mon.loc = p.loc ∧ r.mon.operand = w 2 ∧
        r.mon.fn = BitVec.ofNat 4 (bits (w 0) 19 16) ∧ r.mon.hostq = true ∧ r.mon.deadline = (if w 3 = 0 then 2 ^ 64 - 1 else (w 3).toNat))) ∧
    (ty = 5 → bits (w 0) 63 18 = 0 → bits (w 0) 15 9 = 0 → 2 ≤ bits (w 0) 17 16 → wordsZero bs 1 = true → h.fenceDue = none →
      ∃ u, exec (.fencePacket part q) s = .next u ∧ begun u ∧ (u.hostq part q).fences = h.fences ++ [idx] ∧ idx ∈ (u.hostq part q).running) ∧
    (∀ f, h.fenceDue = some f → h.gwct ≠ 0 → s.dtime < h.gwct + 4 → exec (.fencePacket part q) s = .next s) ∧
    (∀ f, h.fenceDue = some f → h.gwct = 0 ∨ h.gwct + 4 ≤ s.dtime → ∃ u, exec (.fencePacket part q) s = .next u ∧ f ∉ (u.hostq part q).fences ∧ f ∉ (u.hostq part q).running) ∧
    (ty = 6 → bits (w 0) 63 9 = 0 → wordsZero bs 3 = true → (w 1).toNat % 8 = 0 → (∀ e ∈ (s.partition part).debug, e.2.isOpen = false) →
      (w 1 = 0 → ∃ u, exec (.markerPacket part q) s = .next u ∧ begun u ∧ idx ∉ (u.hostq part q).running ∧ u.mem = s.mem) ∧
      (∀ p, w 1 ≠ 0 → s.engPlace c (w 1) true = .ok p → ∃ u, exec (.markerPacket part q) s = .next u ∧ begun u ∧ idx ∉ (u.hostq part q).running ∧
        lands s u p.loc ((toBytes 8 s.dtime).map some)))

/-! ### The power controller -/

/-- The curves evaluated at the present time and the combined target applied: levels, cap and mask by R313, and the teams of a class that joins are to
be saved, with SHEDNOTE set (R318, R319). -/
def applied (s u : State) : Prop :=
  let p := s.pwc
  let fy := p.failsafe || p.freq.invalid
  let vy := p.failsafe || p.volt.invalid
  let f := p.freq.tick false fy (validPoints p.fpt) (bits p.hyst 15 0) p.holdNs s.dtime
  let v := p.volt.tick true vy (validPoints p.vpt) (bits p.hyst 31 16) p.holdNs s.dtime
  let d := (f.demand false fy (validPoints p.fpt) p.fspt).worse (v.demand true vy (validPoints p.vpt) p.fspt)
  u.pwc.freq = f ∧ u.pwc.volt = v ∧ u.pwc.cap = d.cap ∧ u.pwc.mask = nextMask p d.mask s.dtime ∧
    (∀ c, c < 4 → d.mask.getLsbD c = true → u.pwc.mask.getLsbD c = true) ∧
    ∀ n t, s.team n = some t → t.cls < 4 → t.resident = true → t.priv = false → u.pwc.mask.getLsbD t.cls = true → p.mask.getLsbD t.cls = false →
      ∃ w, u.team n = some w ∧ w.saveAsked = true ∧ w.shedNote = true

/-- The power controller after a valid frame that it accepts: the frame's inputs are taken, and the link has delivered it. -/
def frameTaken (s : State) (b : Bool) (frame : List Byte) : State :=
  let p := s.pwc.setPart b none
  { s with pwc := (if b then { p with linkB := some s.dtime } else { p with linkA := some s.dtime }).take frame s.dtime }

/-- The last bytes of a frame complete it on their link: 32 bytes that are no valid frame only end the partial frame; a valid frame marks its link; one
that is accepted ends fail-safe, its inputs and ROCOF are taken, and the curves apply (R307 to R311, R313). That ROCOF joins a list of the PWC with its time is
the model's choice (log entry 49). -/
def framesAreTaken : Prop :=
  ∀ (s : State) (b : Bool) (bytes : List Byte), let frame := s.pwc.received b s.dtime ++ bytes
    (frameValid frame = false → exec (.telemetryFrame b bytes) s = .next { s with pwc := s.pwc.setPart b none }) ∧
    (frameValid frame = true → s.pwc.accepts (frameField frame 5 4) = false → ∃ u, exec (.telemetryFrame b bytes) s = .next u ∧
      (if b then u.pwc.linkB else u.pwc.linkA) = some s.dtime ∧ (if b then u.pwc.partB else u.pwc.partA) = none ∧ u.pwc.lastSeq = s.pwc.lastSeq ∧
      u.pwc.since = s.pwc.since ∧ u.pwc.cap = s.pwc.cap ∧ u.pwc.mask = s.pwc.mask ∧ u.teams = s.teams) ∧
    (frameValid frame = true → s.pwc.accepts (frameField frame 5 4) = true → let s1 := frameTaken s b frame
      exec (.telemetryFrame b bytes) s = .next s1.applyCurves ∧ applied s1 s1.applyCurves ∧ s1.teams = s.teams ∧ s1.mem = s.mem ∧
      let u := s1.applyCurves
      (if b then u.pwc.linkB else u.pwc.linkA) = some s.dtime ∧ u.pwc.lastSeq = frameField frame 5 4 ∧ u.pwc.since = s.dtime ∧
      u.pwc.failsafe = false ∧ u.pwc.first = false ∧ s1.dtime = s.dtime ∧
      s1.pwc.freq.x = frameField frame 8 6 - (if bit s.pwc.pctl 1 then 60000 else 50000) ∧ s1.pwc.volt.x = frameField frame 12 11 ∧
      s1.pwc.freq.invalid = decide (frameField frame 18 17 % 2 = 1) ∧ s1.pwc.volt.invalid = decide (frameField frame 18 17 / 2 % 2 = 1) ∧
      u.pwc.headroom = (if frameField frame 18 17 / 4 % 2 = 1 then none else some (frameField frame 16 13)) ∧
      u.pwc.rocof = (s.dtime, BitVec.ofNat 16 (frameField frame 10 9)) :: s.pwc.rocof)

/-- The timers of the power controller run out, each on its state alone. A partial frame is discarded after 20 µs without a start bit, and a link's mark
after 5 ms without a valid frame; more than 5 ms without an accepted frame enter fail-safe; the curves apply again at each ms of device time, once; and
at the expiry of a class's grace timer its teams that are not out are pre-empted. Before its time a timer changes nothing (R307, R310, R311, R313, R320,
R341). That the ticks of the curves stand at whole ms of device time is the model's choice (log entry 47). -/
def powerTimers : Prop :=
  (∀ (s : State) (b : Bool) (p : PartFrame), (if b then s.pwc.partB else s.pwc.partA) = some p →
    (p.last + 20000 ≤ s.dtime → exec (.partialFrameDiscard b) s = .next { s with pwc := s.pwc.setPart b none } ∧ s.pwc.received b s.dtime = []) ∧
    (s.dtime < p.last + 20000 → exec (.partialFrameDiscard b) s = .next s ∧ s.pwc.received b s.dtime = p.bytes)) ∧
  (∀ (s : State) (b : Bool) (t : Nat), (if b then s.pwc.linkB else s.pwc.linkA) = some t →
    (t + 5000000 ≤ s.dtime → exec (.linkValidFrameTimeout b) s =
      .next { s with pwc := if b then { s.pwc with linkB := none } else { s.pwc with linkA := none } }) ∧
    (s.dtime < t + 5000000 → exec (.linkValidFrameTimeout b) s = .next s)) ∧
  (∀ s : State,
    (s.pwc.en = true → s.pwc.failsafe = false → s.pwc.since + 5000000 < s.dtime → ∃ u, exec .failsafeEntry s = .next u ∧ u.pwc.failsafe = true ∧
      u.pwc.freq.level = .failsafe ∧ u.pwc.volt.level = .failsafe ∧ u.pwc.cap = ptCap s.pwc.fspt ∧ { fn := 0, vector := 1 } ∈ u.msix ∧ u.mem = s.mem) ∧
    (s.dtime ≤ s.pwc.since + 5000000 → exec .failsafeEntry s = .next s) ∧
    (s.pwc.en = true → s.dtime % 1000000 = 0 → s.pwc.tickAt < s.dtime → s.pwc.first = false ∨ s.pwc.failsafe = true →
      ∃ u, exec .curveTick s = .next u ∧ applied s u ∧ u.mem = s.mem ∧ u.pwc.since = s.pwc.since ∧ u.pwc.tickAt = s.dtime) ∧
    (s.dtime % 1000000 ≠ 0 ∨ s.dtime ≤ s.pwc.tickAt → exec .curveTick s = .next s)) ∧
  (∀ (s : State) (cls t0 : Nat), Tbl.find? s.pwc.graceAt cls = some t0 →
    (t0 + s.pwc.grace.toNat * 1000 ≤ s.dtime → ∃ u, exec (.graceExpiry cls) s = .next u ∧ Tbl.find? u.pwc.graceAt cls = none ∧ u.mem = s.mem ∧
      ∀ n t, s.team n = some t → u.team n = some (if t.cls = cls ∧ t.resident = true ∧ t.saveAsked = true then { t with preempt := true } else t)) ∧
    (s.dtime < t0 + s.pwc.grace.toNat * 1000 → exec (.graceExpiry cls) s = .next s))

/-- What the power controller does by itself, for every state and operands: TELEMETRY_FRAME, PARTIAL_FRAME_DISCARD, LINK_VALID_FRAME_TIMEOUT,
FAILSAFE_ENTRY, CURVE_TICK and GRACE_EXPIRY each complete with the state that the rules give, where the frame or the time says so (R307, R309 to R311,
R313, R320). -/
def Obligations.PowerFrames : Prop := framesAreTaken ∧ powerTimers

/-- The clock, Mule, heat and gating. A write of EN = 1 enables where both tables and FSPT are sound, and else sets ERR; EN = 0 lifts cap and mask. A
control interval takes the temperatures, moves the thermal cap by a step, and sets the clock to the lowest cap, at least 200 MHz; a layer difference
that has lasted takes a step off the current cap. A current over the rating throttles its pair by a sixteenth; Mule moves the shares once in each µs; a
hot pair gives its team to the coolest cluster that takes it; a pair without teams is gated (R312, R315, R322 to R324). The model's choices: that an
interval or a measurement is one to each whole 10 µs or 1 µs of device time (log entry 47), that a throttled pair takes the current cap a step below the
clock, that Mule compares thousandths of the rating (log entry 46), and that the current cap is otherwise free, and the power model too (log entry 2). -/
def Obligations.PowerControl : Prop :=
  (∀ (s : State) (w : W64), let p := s.pwc
    (bit w 0 = true → p.en = false → tableOk false p.fpt = true → tableOk true p.vpt = true → ptBad p.fspt 0x000F07FF00000000#64 = false →
      ∃ u, exec (.powerEnable w) s = .next u ∧ u.pwc.pctl = (w &&& 6#64 ||| 1#64) ∧ u.pwc.first = true ∧ u.pwc.since = s.dtime ∧
        u.pwc.freq.level = .none ∧ u.pwc.volt.level = .none ∧ u.pwc.cap = p.cap ∧ u.pwc.mask = p.mask) ∧
    (bit w 0 = true → p.en = false → tableOk false p.fpt = false ∨ tableOk true p.vpt = false ∨ ptBad p.fspt 0x000F07FF00000000#64 = true →
      ∃ u, exec (.powerEnable w) s = .next u ∧ u.pwc.pctl = (w &&& 6#64 ||| 0x10#64) ∧ u.pwc.first = p.first) ∧
    (bit w 0 = false → ∃ u, exec (.powerDisable w) s = .next u ∧ u.pwc.en = false ∧ u.pwc.cap = 1024 ∧ u.pwc.mask = 0)) ∧
  (∀ (s : State) (die : Nat) (temps : List Nat), temps.length = 16 →
    (∀ t, (s.die die).served = some t → s.dtime / 10000 ≤ t / 10000 → exec (.controlInterval die temps) s = .next s) ∧
    ((∀ t, (s.die die).served = some t → t / 10000 < s.dtime / 10000) → ∃ u, exec (.controlInterval die temps) s = .next u ∧
      (u.die die).served = some s.dtime ∧
      (u.die die).thermCap = nextTherm (s.die die).clock (s.die die).thermCap (bits s.pwc.therm 15 8) temps ∧
      (u.die die).clock = max 200 (min (min (u.die die).thermCap (u.die die).curCap) (s.gridStep die)) ∧
      (∀ k t, temps[k]? = some t → (u.pair (16 * die + k)).temp = t ∧ (u.pair (16 * die + k)).throttle = 0 ∧ (u.pair (16 * die + k)).overLong = false) ∧
      (let differs := ∃ k, k < 16 ∧ (s.pair (16 * die + k)).overLong = true
       let throttled := ∃ k, k < 16 ∧ 0 < (s.pair (16 * die + k)).throttle
       let less := max 200 ((s.die die).curCap - 25)
       let slow := max 200 ((s.die die).clock - 25)
       (differs → ¬ throttled → (u.die die).curCap = min 850 less) ∧ (¬ differs → throttled → (u.die die).curCap = min 850 slow) ∧
         (differs → throttled → (u.die die).curCap = min less slow)) ∧
      (∀ d, d ≠ die → u.die d = s.die d) ∧
      ∀ a t x, s.team a.team = some t → t.priv = true → t.part = 12 + die → s.agent a = some x → x.block = some .halt →
        ∃ y, u.agent a = some y ∧ y.block = none ∧ y.answer = some 0)) ∧
  (∀ (s : State) (pair lower upper : Nat),
    (∃ u, exec (.currentLimit pair true) s = .next u ∧ (u.pair pair).throttle = min 16 ((s.pair pair).throttle + 1)) ∧
    exec (.currentLimit pair false) s = .next s ∧
    (∀ t, (s.pair pair).measured = some t → s.dtime / 1000 ≤ t / 1000 → exec (.mule pair lower upper) s = .next s) ∧
    ((∀ t, (s.pair pair).measured = some t → t / 1000 < s.dtime / 1000) → ∃ u, exec (.mule pair lower upper) s = .next u ∧
      (u.pair pair).measured = some s.dtime ∧
      (80 < upper - lower → (u.pair pair).upper = max 4 ((s.pair pair).upper - 1) ∧ (u.pair pair).lower = (s.pair pair).lower ∧
        (u.pair pair).heavy = some true) ∧
      (80 < lower - upper → (u.pair pair).lower = max 4 ((s.pair pair).lower - 1) ∧ (u.pair pair).upper = (s.pair pair).upper ∧
        (u.pair pair).heavy = some false) ∧
      (upper - lower < 40 → lower - upper < 40 → (u.pair pair).lower = min 16 ((s.pair pair).lower + 1) ∧
        (u.pair pair).upper = min 16 ((s.pair pair).upper + 1) ∧ (u.pair pair).heavy = none) ∧
      (100 < upper - lower ∨ 100 < lower - upper → let n := (s.pair pair).overFor + 1
        (n < 10 → (u.pair pair).overFor = n ∧ (u.pair pair).overLong = (s.pair pair).overLong) ∧
        (10 ≤ n → (u.pair pair).overFor = 0 ∧ (u.pair pair).overLong = true)) ∧
      (upper - lower ≤ 100 → lower - upper ≤ 100 → (u.pair pair).overFor = 0 ∧ (u.pair pair).overLong = (s.pair pair).overLong))) ∧
  (∀ (s : State) (pair : Nat),
    ((s.pair pair).temp ≤ bits s.pwc.therm 7 0 → exec (.thermalMigration pair) s = .next s) ∧
    (∀ team c s1 rest, bits s.pwc.therm 7 0 < (s.pair pair).temp → (∀ t, (s.pair pair).moved = some t → t + 1000000 ≤ s.dtime) →
      ((s.teams.filter fun e => (decide (e.2.cluster = some (2 * pair)) || decide (e.2.cluster = some (2 * pair + 1))) && !e.2.priv).map (·.1)) = [team] →
      s.coolClusters (pair / 16) = c :: rest → ({ s with fresh := s.fresh + 1 } : State).migrate team c = some s1 →
      ∃ u, exec (.thermalMigration pair) s = .next u ∧ u.teams = s1.teams ∧ (u.pair pair).moved = some s.dtime) ∧
    (s.teamsAt (2 * pair) = [] → s.teamsAt (2 * pair + 1) = [] → ∃ u, exec (.pairPowerGate pair) s = .next u ∧ (u.pair pair).gated = true) ∧
    (s.teamsAt (2 * pair) ≠ [] ∨ s.teamsAt (2 * pair + 1) ≠ [] → exec (.pairPowerGate pair) s = .next s))

/-! ### Debug, the host, management -/

/-- Sessions, watchpoints, samples and the lane-cycle record, in a live partition: opening a session stores TCTL and starts its sink afresh, closing it
stores TCTL; LOST and a bin's counter read zero once cleared; an armed watchpoint holds the location that its address has now; a sample moves the
cluster's rail on, once in each SCUR µs; and a logged wake is delivered to its lane at its time, while a log that names another record of the agent
stops it (R327, R329 to R331, R335). The model's choices: that a cluster's first sample is due at once and each other a whole number of periods after the
one before (log entry 22), which record of the log holds or stops an agent (log entry 36), and which context an index names (log entry 61). -/
def Obligations.DebugEvents : Prop :=
  (∀ (s : State) (part ctx : Nat) (w : W64), (s.partition part).live = true → ctx < 64 → tctlTakes w = true →
    (bit w 0 = true → ∃ u, exec (.sessionOpen part ctx w) s = .next u ∧ (u.debugOf part ctx).tctl = w ∧ (u.debugOf part ctx).isOpen = true ∧
      (u.debugOf part ctx).sinkRd = 0 ∧ (u.debugOf part ctx).scur = (s.debugOf part ctx).sper ∧
      (u.debugOf part ctx).sinkWr.toNat + (u.debugOf part ctx).lost.toNat = 1) ∧
    (bit w 0 = false → ∃ u, exec (.sessionClose part ctx w) s = .next u ∧ (u.debugOf part ctx).tctl = w ∧ (u.debugOf part ctx).isOpen = false)) ∧
  (∀ (s : State) (part ctx cluster bin ctr : Nat), (s.partition part).live = true →
    (∃ u, exec (.lostClear part ctx) s = .next u ∧ (u.debugOf part ctx).lost = 0 ∧ (u.debugOf part ctx).tctl = (s.debugOf part ctx).tctl) ∧
    (dieOf cluster ∈ s.diesOf part → bin < 16 → 2 ≤ ctr → ctr ≤ 6 → ∃ u, exec (.lcrClear part cluster bin ctr) s = .next u ∧
      Tbl.get 0 u.lcr ((cluster * 16 + bin) * 8 + ctr) = 0 ∧
      ∀ k, k ≠ (cluster * 16 + bin) * 8 + ctr → Tbl.get (0 : W64) u.lcr k = Tbl.get 0 s.lcr k)) ∧
  (∀ (s : State) (part ctx j : Nat) (w : W64), (s.partition part).live = true → ctx < 64 → j < 4 → bit w 8 = true →
    let x := { (s.debugOf part ctx).watch j with ctl := w }
    (x.formed = true → ∃ u, exec (.watchpointArm part ctx j w) s = .next u ∧ ((u.debugOf part ctx).watch j).ctl = w ∧
      ((u.debugOf part ctx).watch j).addr = x.addr ∧ ((u.debugOf part ctx).watch j).loc = s.watchLoc part (s.asidOf part ctx) x.addr) ∧
    (x.formed = false → exec (.watchpointArm part ctx j w) s = .next s)) ∧
  (∀ (s : State) (cluster part ctx : Nat), bit (s.debugOf part ctx).tctl 0 = true → bit (s.debugOf part ctx).tctl 1 = true →
    (∃ e ∈ s.teams, e.2.part = part ∧ e.2.asid = s.asidOf part ctx ∧ e.2.cluster = some cluster) →
    let due := ∀ t, Tbl.find? (s.debugOf part ctx).sampled cluster = some t → ∃ k, 0 < k ∧ s.dtime = t + k * max 1 ((s.debugOf part ctx).scur.toNat * 1000)
    (¬ due → exec (.sample cluster part ctx) s = .next s) ∧
    (due → ∃ u, exec (.sample cluster part ctx) s = .next u ∧ Tbl.get 0 u.sampleRail cluster = (Tbl.get 0 s.sampleRail cluster + 1) % 32 ∧
      Tbl.find? (u.debugOf part ctx).sampled cluster = some s.dtime)) ∧
  (∀ (s : State) (a : AgentId) (t : Team) (x : Agent) (lane : Nat), s.team a.team = some t → s.agent a = some x → t.resident = true →
    lane < x.lanes.length → (x.lane lane).held = true → (x.lane lane).s = .mon → (x.lane lane).mates = 1#32 <<< lane → lane < 32 →
    oneWait x (1#32 <<< lane) lane →
    let g := loggedOf (s.logNext t)
    let mine := recMatches (s.logNext t) a.who { x with p := (x.lane lane).site.pc, cseq := (x.lane lane).site.cseq } 0x11 = true ∧ g.p0.toNat % 2 ^ 31 = lane
    (¬ mine → x.kind ≠ .privileged → x.issue = .idle → recOwner (s.logNext t) a.who = true → x.recWake (s.logNext t) a.who = false →
      ∃ u, exec (.replayWaitDelivery a lane) s = .next u ∧ ∀ y, u.agent a = some y → y.stoppedAs 0x14 .census ∧ y.lanes = x.lanes) ∧
    (mine → g.dtime ≤ s.dtime → ∃ u y, exec (.replayWaitDelivery a lane) s = .next u ∧ u.agent a = some y ∧ woken x y (1#32 <<< lane) g.p1 (g.p0.getLsbD 31)) ∧
    (mine → s.dtime < g.dtime → exec (.replayWaitDelivery a lane) s = .next s))

/-- Bytes written through a partition's window: each byte of a place that exists stands there, and no other byte changes. -/
def windowWritten (s u : State) (part off : Nat) (bs : List Byte) : Prop :=
  (∀ k b l, bs[k]? = some b → s.barLoc part (off + k) = some l → s.spillByte l = false → u.byteAt l = b) ∧
    ∀ l, (∀ k, k < bs.length → s.barLoc part (off + k) ≠ some l) → s.spillByte l = false → u.byteAt l = s.byteAt l

/-- What a read through a partition's window answers: the bytes, and zero where no memory is. -/
def windowRead (s : State) (part off n : Nat) (d : List Byte) : Prop :=
  d.length = n ∧ ∀ k, k < n → d[k]? = some (match s.barLoc part (off + k) with | some l => s.byteAt l | none => 0)

/-- Accesses from outside. A host write puts its bytes into the partition's memory and a host read answers them; a partition that is not live takes
nothing and reads as zeros. An access of a peer device that the peer table does not list is refused; a listed one reads, writes, or performs its
atomic or compare-and-swap in one piece, and answers the old bytes (R338, R340, R345, R346). -/
def Obligations.OutsideAccesses : Prop :=
  (∀ (s : State) (part off n : Nat) (bs : List Byte), part < 12 →
    ((s.partition part).live = true →
      (∃ u, exec (.hostWrite part off bs) s = .next u ∧ windowWritten s u part off bs ∧ u.teams = s.teams) ∧
      (∃ u, exec (.hostRead part off n) s = .next u ∧ windowRead s part off n u.hostData ∧ u.mem = s.mem ∧ u.teams = s.teams)) ∧
    ((s.partition part).live = false → exec (.hostWrite part off bs) s = .next s ∧
      ∃ u, exec (.hostRead part off n) s = .next u ∧ u.hostData = List.replicate n 0 ∧ u.mem = s.mem)) ∧
  (∀ (s : State) (dev srcPart part : Nat) (op : PeerOp), part < 12 →
    ((s.partition part).acceptsPeer dev srcPart = false → exec (.peerAccess dev srcPart part op) s = .next { s with peerData := none }) ∧
    ((s.partition part).acceptsPeer dev srcPart = true →
      (∀ off n, op = .read off n → ∃ u d, exec (.peerAccess dev srcPart part op) s = .next u ∧ u.peerData = some d ∧ windowRead s part off n d ∧
        u.mem = s.mem) ∧
      (∀ off bs, op = .write off bs → ∃ u, exec (.peerAccess dev srcPart part op) s = .next u ∧ windowWritten s u part off bs) ∧
      (∀ l off, (∀ e ∈ (s.partition part).debug, ∀ w ∈ e.2.wp, w.2.loc = none) → s.barLoc part off = some l →
        (∀ fn ty rm v, op = .atomic fn ty rm off v → ∃ u, exec (.peerAccess dev srcPart part op) s = .next u ∧
          u.peerData = some (s.read l (tyWidth ty / 8)) ∧
          lands s u l ((toBytes (tyWidth ty / 8) (atomicNew fn ty rm (BitVec.ofNat 64 (s.readNat l (tyWidth ty / 8))) v).1.toNat).map some)) ∧
        (∀ wide expect new, op = .cas wide off expect new → let n := if wide then 8 else 4
          ∃ u, exec (.peerAccess dev srcPart part op) s = .next u ∧ u.peerData = some (s.read l n) ∧
            (s.readNat l n = expect.toNat % 2 ^ (8 * n) → lands s u l ((toBytes n new.toNat).map some)) ∧
            (s.readNat l n ≠ expect.toNat % 2 ^ (8 * n) → u.mem = s.mem)))))

/-- Errors. A corrected one raises CECNT, and the scrubber changes nothing; a failed request, an uncorrectable error that an agent's access meets, and an
access that consumes a line whose error was found before end its context, one in a team's state its team's, one in a tag or a monitor entry every context
of the slice's partition and every one that maps a page with ILV 0, and one that a command meets the running command, with cause 0x18 once its writes are
acknowledged; a grid whose completion word meets one ends without it; one that nobody meets stops no team, and stays in its line for the next consumer
(R155, R282, R343, R350, R351). The finder's number where R9 gives none is free, below 10 (log entries 2 and 51). -/
def Obligations.ErrorsAreContained : Prop :=
  (∀ s : State, (∃ u, exec .correctedError s = .next u ∧ u.cecnt = s.cecnt + 1 ∧ u.mem = s.mem ∧ u.teams = s.teams) ∧
    (∃ u, exec .cecntClear s = .next u ∧ u.cecnt = 0 ∧ u.mem = s.mem ∧ u.teams = s.teams) ∧ (∀ line, exec (.patrolScrub line) s = .next s) ∧
    ∀ addr, ∃ u eng, exec (.uncorrectableError (.noConsumer addr)) s = .next u ∧ u.teams = s.teams ∧ u.cmds = s.cmds ∧ eng < 10 ∧
      u = ({ s with fresh := s.fresh + 1, flaws := addr / 128 :: s.flaws } : State).logFound eng addr 0 0) ∧
  (∀ (s : State) (a : AgentId) (n cl : Nat) (t : Team) (x : Agent) (o : MemOp), s.team a.team = some t → s.agent a = some x → t.cluster = some cl →
    Tbl.find? x.ops n = some o → x.opReady o = true → x.opsWith o = [(n, o)] → t.isEnded = false →
    s.consumesFlaw { a := a, cluster := cl, part := t.part, asid := t.asid } o = true →
    ∃ v, (s.access a n).team a.team = some v ∧ v.isEnded = true ∧ v.agents = []) ∧
  (∀ (s : State) (i : Instr) (a : AgentId) (t : Team) (x : Agent) (addr : Nat), s.team a.team = some t → s.agent a = some x → t.isEnded = false →
    ((i = .requestTimeout (.agent a) ∧ x.remoteOp.isSome = true) ∨ i = .uncorrectableError (.access a addr) ∨
      i = .uncorrectableError (.teamState a.team addr)) →
    ∃ u v, exec i s = .next u ∧ u.team a.team = some v ∧ v.isEnded = true ∧ v.agents = []) ∧
  (∀ (s : State) (part addr n : Nat) (t : Team), s.team n = some t →
    ((t.part, t.asid) ∈ s.contexts → t.part = part ∨ s.mapsIlv0 t.part t.asid = true → t.isEnded = false →
      ∃ u v, exec (.uncorrectableError (.llcTag part addr)) s = .next u ∧ u.team n = some v ∧ v.isEnded = true ∧ v.agents = []) ∧
    (t.part ≠ part → s.mapsIlv0 t.part t.asid = false → t.priv = false →
      ∃ u, exec (.uncorrectableError (.llcTag part addr)) s = .next u ∧ u.team n = some t)) ∧
  (∀ (s : State) (i : Instr) (n team who addr : Nat) (c : Cmd) (t : Team), Tbl.find? s.cmds n = some c → c.owner = .agent team who →
    s.team team = some t → t.ctlGone = false → (∀ g, c.kind = .ge g → g.status = none) →
    c.runs = true → ((i = .requestTimeout (.command n) ∧ s.cmdRemote c = true) ∨ i = .uncorrectableError (.command n addr)) →
    (c.settled s = true → ∃ u v, exec i s = .next u ∧ Tbl.find? u.cmds n = none ∧ u.team team = some v ∧
      Tbl.get 0 v.tok c.tok = Tbl.get 0 t.tok c.tok - 1 ∧ posted t v (eventWord 0x03 c.engine c.site.cseq (0x1A00 + 0x18))) ∧
    (c.settled s = false → ∃ u v c1, exec i s = .next u ∧ Tbl.find? u.cmds n = some c1 ∧ c1.ending = some 0x18 ∧ c1.owner = c.owner ∧
      u.team team = some v ∧ v.tok = t.tok)) ∧
  (∀ (s : State) (grid : Nat) (g : Grid) (p : Place), Tbl.find? s.grids grid = some g → g.finished = false → s.gridOver grid g = true →
    g.launch.compAddr ≠ 0 → s.completionPlace g = .ok p → p.remote = true →
    ∃ u, exec (.requestTimeout (.completion grid)) s = .next u ∧ Tbl.find? u.grids grid = none ∧ ∀ e ∈ u.teams, e.2.grid ≠ grid)

/-- A halted privileged thread has gone on. -/
def wokenThread (s u : State) (mine : Team → Prop) : Prop :=
  ∀ a t x, s.team a.team = some t → t.priv = true → mine t → s.agent a = some x → x.block = some .halt →
    ∃ y, u.agent a = some y ∧ y.block = none ∧ y.answer = some 0 ∧ y.lanes = x.lanes

/-- The verdict on an image, by the causes of BOOTSTAT: 1 its header, 2 its signature over the SHAKE256 digest of header and body, 3 a version below the
stage's fused minimum; 0 where it is sound (R347; that the digest is of both is log entry 93). -/
def verdict (stage die : Nat) (image : List Byte) : Nat :=
  if Config.headerOk stage image = false then 1
  else if Config.signatureOk die (shake256 (Config.signedPart image)) image = false then 2
  else if Config.version image < Config.minVersion stage % 65536 then 3
  else 0

/-- Firmware and management: MDOOR and the timer wake halted threads; an answer to a SYSC, and the completion of a TLBI once no access waits on its
entries, reach their thread; a privileged thread starts once boot has verified every image. Registers take what their ranges allow; a report is
asked for once, is written whole and signed, and the module's reset starts device time at zero with every die booting: the images are judged in their
order, each that is sound extends its measurement register with its digest, and the first that is not stops the boot with its cause, die and stage (R3,
R296, R304, R305, R311, R338, R339, R347 to R349). The model's choices: that a die whose time cannot be synchronised is reported with stage and code 0 (log
entry 86), the order of dies and stages (log entry 16), the function SHAKE256 itself (log entry 97), and that memory reads zero after a reset (log
entries 4 and 60). -/
def Obligations.Management : Prop :=
  (∀ (s : State) (w : W64) (die : Nat), (∃ u, exec (.mdoor w) s = .next u ∧ u.mdoor = w ∧ wokenThread s u fun _ => True) ∧
    ∃ u, exec (.firmwareTimer die) s = .next u ∧ (wokenThread s u fun t => t.part = 12 + die) ∧ u.mem = s.mem) ∧
  (∀ (s : State) (a : AgentId) (x : Agent) (w : W64), s.agent a = some x → x.issue = .beats → x.answer = none →
    (x.block = some .sysc → ∃ u y, exec (.syscAnswer a w) s = .next u ∧ u.agent a = some y ∧ y.answer = some w ∧ y.block = none ∧ y.lanes = x.lanes) ∧
    (∀ f, x.block = some .tlbi → parse x.arr.word = .ok (.tlbi f) →
      (s.tlbiWaits f.fn (regOrZero x f.a) (regOrZero x f.b) = false → ∃ u y, exec (.tlbiComplete a) s = .next u ∧ u.agent a = some y ∧
        y.answer = some 0 ∧ y.block = none ∧ y.lanes = x.lanes ∧
        ∀ e, e ∈ u.tlb ↔ e ∈ s.tlb ∧ tlbiNames f.fn (regOrZero x f.a) (regOrZero x f.b) e.part e.asid (fun va => e.tag == levelTag e.level va) = false) ∧
      (s.tlbiWaits f.fn (regOrZero x f.a) (regOrZero x f.b) = true → exec (.tlbiComplete a) s = .next s))) ∧
  (∀ (s : State) (die entry cl : Nat), s.privCluster die = some cl →
    (bit s.bootStat 0 = true → ∃ u n t x, exec (.privilegedThreadStart die entry) s = .next u ∧ s.team n = none ∧ u.team n = some t ∧ t.res = .on cl ∧
      t.priv = true ∧ t.part = 12 + die ∧ Tbl.find? t.agents ctlWho = some x ∧ x.kind = .privileged ∧ x.p = BitVec.ofNat 28 entry ∧
      x.issue = .arrive true ∧ x.inh = false) ∧
    (bit s.bootStat 0 = false → exec (.privilegedThreadStart die entry) s = .next s)) ∧
  (∀ (s : State) (bar off : Nat) (w : W64) (vf : Option Nat),
    (off % 8 ≠ 0 → exec (.registerWrite vf bar off w) s = .next s) ∧
    (∃ u, exec (.registerWrite none 0 0x008 w) s = .next u ∧ u.pwc.pmax = if 1000 ≤ w.toNat ∧ w.toNat ≤ 7200 then w else s.pwc.pmax) ∧
    (∃ u, exec (.registerWrite none 0 0x010 w) s = .next u ∧ u.pwc.grace = if 100 ≤ w.toNat ∧ w.toNat ≤ 8000 then w else s.pwc.grace) ∧
    (∃ u, exec (.registerWrite none 0 0x018 w) s = .next u ∧ u.pwc.hold = if 100 ≤ w.toNat ∧ w.toNat ≤ 60000 then w else s.pwc.hold) ∧
    (∀ i, i < 16 → ∃ u, exec (.registerWrite none 0 (0x080 + 8 * i) w) s = .next u ∧
      Tbl.get 0 u.pwc.fpt i = if s.pwc.en = true then Tbl.get 0 s.pwc.fpt i else w) ∧
    (∀ part, (s.partition part).live = false → exec (.registerWrite (some part) bar off w) s = .next s) ∧
    (∀ part q, q < 64 → (s.partition part).live = true → ∃ u, exec (.registerWrite (some part) 0 (64 * q) w) s = .next u ∧
      u.hostq part q = { s.hostq part q with base := w })) ∧
  (∀ (s : State) (part : Nat) (w : W64), let m := (s.partition part).mail
    ((s.partition part).live = true → bit w 0 = true → m.stat ≠ 1 → ∃ u, exec (.atcmd part w) s = .next u ∧
      (u.partition part).mail = { m with stat := 1 }) ∧
    ((s.partition part).live = true → m.stat = 1 → exec (.atcmd part w) s = .next s) ∧
    (m.stat = 1 → m.nonce.length = 32 → ∃ u, exec (.attestationReport part true) s = .next u ∧ (u.partition part).mail.stat = 2 ∧
      { fn := part + 1, vector := 3 } ∈ u.msix ∧
      ∀ k b, (s.reportBody part ++ fitBytes 1280 (Config.sign (s.reportBody part)))[k]? = some b → s.spillByte (locOf 1 m.dst.toNat + k) = false →
        u.byteAt (locOf 1 m.dst.toNat + k) = b) ∧
    (m.stat = 1 → ∃ u, exec (.attestationReport part false) s = .next u ∧ (u.partition part).mail.stat = 3 ∧ u.mem = s.mem) ∧
    (m.stat ≠ 1 → ∀ ok, exec (.attestationReport part ok) s = .next s)) ∧
  (∀ s : State, ∃ u, exec .powerOnReset s = .next u ∧ u.dtime = 0 ∧ u.teams = [] ∧ u.cmds = [] ∧ u.pwc = State.reset.pwc ∧ u.parts = State.reset.parts ∧
    u.flash = s.flash ∧ (∀ l, l < 2 ^ 64 → u.byteAt l = 0) ∧
    (let image := fun (stage : Nat) => (Tbl.find? s.flash stage).getD []
     (∀ d, d < 12 → Config.syncs d = true) →
     ((∀ e ∈ bootOrder, verdict e.1 e.2 (image e.1) = 0) → u.bootStat = 1 ∧ ∀ d i, d < 12 → i < 4 →
       Tbl.find? (u.die d).mreg i = some (shake256 (List.replicate 64 0 ++ shake256 (Config.signedPart (image (i + 1)))))) ∧
     ∀ pre post stage d, bootOrder = pre ++ (stage, d) :: post → (∀ e ∈ pre, verdict e.1 e.2 (image e.1) = 0) → verdict stage d (image stage) ≠ 0 →
       u.bootStat = BitVec.ofNat 64 (verdict stage d (image stage) * 65536 + d * 4096 + stage * 256)) ∧
    ∀ d, d < 12 → Config.syncs d = false → (∀ k, k < d → Config.syncs k = true) → u.bootStat = BitVec.ofNat 64 (d * 4096))
end

