-- ==== Sys2Proof/Laws/State.lean ====
section
/-! SUPPORT. What each update of the state leaves in each field: one lemma per field per update. -/

namespace Sys2Proof.Machine


/-! ### `State.setTeam` -/

@[simp] theorem State.setTeam_agenda (s : State) (n : Nat) (x : Team) : (s.setTeam n x).agenda = s.agenda := rfl
@[simp] theorem State.setTeam_fresh (s : State) (n : Nat) (x : Team) : (s.setTeam n x).fresh = s.fresh := rfl
@[simp] theorem State.setTeam_cur (s : State) (n : Nat) (x : Team) : (s.setTeam n x).cur = s.cur := rfl
@[simp] theorem State.setTeam_dtime (s : State) (n : Nat) (x : Team) : (s.setTeam n x).dtime = s.dtime := rfl
@[simp] theorem State.setTeam_mem (s : State) (n : Nat) (x : Team) : (s.setTeam n x).mem = s.mem := rfl
@[simp] theorem State.setTeam_writeSeq (s : State) (n : Nat) (x : Team) : (s.setTeam n x).writeSeq = s.writeSeq := rfl
@[simp] theorem State.setTeam_lines (s : State) (n : Nat) (x : Team) : (s.setTeam n x).lines = s.lines := rfl
@[simp] theorem State.setTeam_evMax (s : State) (n : Nat) (x : Team) : (s.setTeam n x).evMax = s.evMax := rfl
@[simp] theorem State.setTeam_l1 (s : State) (n : Nat) (x : Team) : (s.setTeam n x).l1 = s.l1 := rfl
@[simp] theorem State.setTeam_icache (s : State) (n : Nat) (x : Team) : (s.setTeam n x).icache = s.icache := rfl
@[simp] theorem State.setTeam_tlb (s : State) (n : Nat) (x : Team) : (s.setTeam n x).tlb = s.tlb := rfl
@[simp] theorem State.setTeam_mons (s : State) (n : Nat) (x : Team) : (s.setTeam n x).mons = s.mons := rfl
@[simp] theorem State.setTeam_filter (s : State) (n : Nat) (x : Team) : (s.setTeam n x).filter = s.filter := rfl
@[simp] theorem State.setTeam_wakes (s : State) (n : Nat) (x : Team) : (s.setTeam n x).wakes = s.wakes := rfl
@[simp] theorem State.setTeam_batches (s : State) (n : Nat) (x : Team) : (s.setTeam n x).batches = s.batches := rfl
@[simp] theorem State.setTeam_cmds (s : State) (n : Nat) (x : Team) : (s.setTeam n x).cmds = s.cmds := rfl
@[simp] theorem State.setTeam_cmdSeq (s : State) (n : Nat) (x : Team) : (s.setTeam n x).cmdSeq = s.cmdSeq := rfl
@[simp] theorem State.setTeam_rlt (s : State) (n : Nat) (x : Team) : (s.setTeam n x).rlt = s.rlt := rfl
@[simp] theorem State.setTeam_teams (s : State) (n : Nat) (x : Team) : (s.setTeam n x).teams = Tbl.ins s.teams n x := rfl
@[simp] theorem State.setTeam_grids (s : State) (n : Nat) (x : Team) : (s.setTeam n x).grids = s.grids := rfl
@[simp] theorem State.setTeam_children (s : State) (n : Nat) (x : Team) : (s.setTeam n x).children = s.children := rfl
@[simp] theorem State.setTeam_parts (s : State) (n : Nat) (x : Team) : (s.setTeam n x).parts = s.parts := rfl
@[simp] theorem State.setTeam_pwc (s : State) (n : Nat) (x : Team) : (s.setTeam n x).pwc = s.pwc := rfl
@[simp] theorem State.setTeam_dies (s : State) (n : Nat) (x : Team) : (s.setTeam n x).dies = s.dies := rfl
@[simp] theorem State.setTeam_pairs (s : State) (n : Nat) (x : Team) : (s.setTeam n x).pairs = s.pairs := rfl
@[simp] theorem State.setTeam_lcr (s : State) (n : Nat) (x : Team) : (s.setTeam n x).lcr = s.lcr := rfl
@[simp] theorem State.setTeam_lastBeat (s : State) (n : Nat) (x : Team) : (s.setTeam n x).lastBeat = s.lastBeat := rfl
@[simp] theorem State.setTeam_railClocks (s : State) (n : Nat) (x : Team) : (s.setTeam n x).railClocks = s.railClocks := rfl
@[simp] theorem State.setTeam_ccLast (s : State) (n : Nat) (x : Team) : (s.setTeam n x).ccLast = s.ccLast := rfl
@[simp] theorem State.setTeam_sampleRail (s : State) (n : Nat) (x : Team) : (s.setTeam n x).sampleRail = s.sampleRail := rfl
@[simp] theorem State.setTeam_clusterOwner (s : State) (n : Nat) (x : Team) : (s.setTeam n x).clusterOwner = s.clusterOwner := rfl
@[simp] theorem State.setTeam_ageSeq (s : State) (n : Nat) (x : Team) : (s.setTeam n x).ageSeq = s.ageSeq := rfl
@[simp] theorem State.setTeam_rankSeq (s : State) (n : Nat) (x : Team) : (s.setTeam n x).rankSeq = s.rankSeq := rfl
@[simp] theorem State.setTeam_orderSeq (s : State) (n : Nat) (x : Team) : (s.setTeam n x).orderSeq = s.orderSeq := rfl
@[simp] theorem State.setTeam_beatSeq (s : State) (n : Nat) (x : Team) : (s.setTeam n x).beatSeq = s.beatSeq := rfl
@[simp] theorem State.setTeam_devNum (s : State) (n : Nat) (x : Team) : (s.setTeam n x).devNum = s.devNum := rfl
@[simp] theorem State.setTeam_bootStat (s : State) (n : Nat) (x : Team) : (s.setTeam n x).bootStat = s.bootStat := rfl
@[simp] theorem State.setTeam_elBase (s : State) (n : Nat) (x : Team) : (s.setTeam n x).elBase = s.elBase := rfl
@[simp] theorem State.setTeam_elCtl (s : State) (n : Nat) (x : Team) : (s.setTeam n x).elCtl = s.elCtl := rfl
@[simp] theorem State.setTeam_elWr (s : State) (n : Nat) (x : Team) : (s.setTeam n x).elWr = s.elWr := rfl
@[simp] theorem State.setTeam_elRd (s : State) (n : Nat) (x : Team) : (s.setTeam n x).elRd = s.elRd := rfl
@[simp] theorem State.setTeam_cecnt (s : State) (n : Nat) (x : Team) : (s.setTeam n x).cecnt = s.cecnt := rfl
@[simp] theorem State.setTeam_mdoor (s : State) (n : Nat) (x : Team) : (s.setTeam n x).mdoor = s.mdoor := rfl
@[simp] theorem State.setTeam_hostData (s : State) (n : Nat) (x : Team) : (s.setTeam n x).hostData = s.hostData := rfl
@[simp] theorem State.setTeam_peerData (s : State) (n : Nat) (x : Team) : (s.setTeam n x).peerData = s.peerData := rfl
@[simp] theorem State.setTeam_msix (s : State) (n : Nat) (x : Team) : (s.setTeam n x).msix = s.msix := rfl
@[simp] theorem State.setTeam_flash (s : State) (n : Nat) (x : Team) : (s.setTeam n x).flash = s.flash := rfl
@[simp] theorem State.setTeam_fwTable (s : State) (n : Nat) (x : Team) : (s.setTeam n x).fwTable = s.fwTable := rfl
@[simp] theorem State.setTeam_dmcErrors (s : State) (n : Nat) (x : Team) : (s.setTeam n x).dmcErrors = s.dmcErrors := rfl
@[simp] theorem State.setTeam_flaws (s : State) (n : Nat) (x : Team) : (s.setTeam n x).flaws = s.flaws := rfl

/-! ### `State.modTeam` -/

@[simp] theorem State.modTeam_agenda (s : State) (n : Nat) (f : Team → Team) : (s.modTeam n f).agenda = s.agenda := rfl
@[simp] theorem State.modTeam_fresh (s : State) (n : Nat) (f : Team → Team) : (s.modTeam n f).fresh = s.fresh := rfl
@[simp] theorem State.modTeam_cur (s : State) (n : Nat) (f : Team → Team) : (s.modTeam n f).cur = s.cur := rfl
@[simp] theorem State.modTeam_dtime (s : State) (n : Nat) (f : Team → Team) : (s.modTeam n f).dtime = s.dtime := rfl
@[simp] theorem State.modTeam_mem (s : State) (n : Nat) (f : Team → Team) : (s.modTeam n f).mem = s.mem := rfl
@[simp] theorem State.modTeam_writeSeq (s : State) (n : Nat) (f : Team → Team) : (s.modTeam n f).writeSeq = s.writeSeq := rfl
@[simp] theorem State.modTeam_lines (s : State) (n : Nat) (f : Team → Team) : (s.modTeam n f).lines = s.lines := rfl
@[simp] theorem State.modTeam_evMax (s : State) (n : Nat) (f : Team → Team) : (s.modTeam n f).evMax = s.evMax := rfl
@[simp] theorem State.modTeam_l1 (s : State) (n : Nat) (f : Team → Team) : (s.modTeam n f).l1 = s.l1 := rfl
@[simp] theorem State.modTeam_icache (s : State) (n : Nat) (f : Team → Team) : (s.modTeam n f).icache = s.icache := rfl
@[simp] theorem State.modTeam_tlb (s : State) (n : Nat) (f : Team → Team) : (s.modTeam n f).tlb = s.tlb := rfl
@[simp] theorem State.modTeam_mons (s : State) (n : Nat) (f : Team → Team) : (s.modTeam n f).mons = s.mons := rfl
@[simp] theorem State.modTeam_filter (s : State) (n : Nat) (f : Team → Team) : (s.modTeam n f).filter = s.filter := rfl
@[simp] theorem State.modTeam_wakes (s : State) (n : Nat) (f : Team → Team) : (s.modTeam n f).wakes = s.wakes := rfl
@[simp] theorem State.modTeam_batches (s : State) (n : Nat) (f : Team → Team) : (s.modTeam n f).batches = s.batches := rfl
@[simp] theorem State.modTeam_cmds (s : State) (n : Nat) (f : Team → Team) : (s.modTeam n f).cmds = s.cmds := rfl
@[simp] theorem State.modTeam_cmdSeq (s : State) (n : Nat) (f : Team → Team) : (s.modTeam n f).cmdSeq = s.cmdSeq := rfl
@[simp] theorem State.modTeam_rlt (s : State) (n : Nat) (f : Team → Team) : (s.modTeam n f).rlt = s.rlt := rfl
@[simp] theorem State.modTeam_teams (s : State) (n : Nat) (f : Team → Team) : (s.modTeam n f).teams = Tbl.modify s.teams n f := rfl
@[simp] theorem State.modTeam_grids (s : State) (n : Nat) (f : Team → Team) : (s.modTeam n f).grids = s.grids := rfl
@[simp] theorem State.modTeam_children (s : State) (n : Nat) (f : Team → Team) : (s.modTeam n f).children = s.children := rfl
@[simp] theorem State.modTeam_parts (s : State) (n : Nat) (f : Team → Team) : (s.modTeam n f).parts = s.parts := rfl
@[simp] theorem State.modTeam_pwc (s : State) (n : Nat) (f : Team → Team) : (s.modTeam n f).pwc = s.pwc := rfl
@[simp] theorem State.modTeam_dies (s : State) (n : Nat) (f : Team → Team) : (s.modTeam n f).dies = s.dies := rfl
@[simp] theorem State.modTeam_pairs (s : State) (n : Nat) (f : Team → Team) : (s.modTeam n f).pairs = s.pairs := rfl
@[simp] theorem State.modTeam_lcr (s : State) (n : Nat) (f : Team → Team) : (s.modTeam n f).lcr = s.lcr := rfl
@[simp] theorem State.modTeam_lastBeat (s : State) (n : Nat) (f : Team → Team) : (s.modTeam n f).lastBeat = s.lastBeat := rfl
@[simp] theorem State.modTeam_railClocks (s : State) (n : Nat) (f : Team → Team) : (s.modTeam n f).railClocks = s.railClocks := rfl
@[simp] theorem State.modTeam_ccLast (s : State) (n : Nat) (f : Team → Team) : (s.modTeam n f).ccLast = s.ccLast := rfl
@[simp] theorem State.modTeam_sampleRail (s : State) (n : Nat) (f : Team → Team) : (s.modTeam n f).sampleRail = s.sampleRail := rfl
@[simp] theorem State.modTeam_clusterOwner (s : State) (n : Nat) (f : Team → Team) : (s.modTeam n f).clusterOwner = s.clusterOwner := rfl
@[simp] theorem State.modTeam_ageSeq (s : State) (n : Nat) (f : Team → Team) : (s.modTeam n f).ageSeq = s.ageSeq := rfl
@[simp] theorem State.modTeam_rankSeq (s : State) (n : Nat) (f : Team → Team) : (s.modTeam n f).rankSeq = s.rankSeq := rfl
@[simp] theorem State.modTeam_orderSeq (s : State) (n : Nat) (f : Team → Team) : (s.modTeam n f).orderSeq = s.orderSeq := rfl
@[simp] theorem State.modTeam_beatSeq (s : State) (n : Nat) (f : Team → Team) : (s.modTeam n f).beatSeq = s.beatSeq := rfl
@[simp] theorem State.modTeam_devNum (s : State) (n : Nat) (f : Team → Team) : (s.modTeam n f).devNum = s.devNum := rfl
@[simp] theorem State.modTeam_bootStat (s : State) (n : Nat) (f : Team → Team) : (s.modTeam n f).bootStat = s.bootStat := rfl
@[simp] theorem State.modTeam_elBase (s : State) (n : Nat) (f : Team → Team) : (s.modTeam n f).elBase = s.elBase := rfl
@[simp] theorem State.modTeam_elCtl (s : State) (n : Nat) (f : Team → Team) : (s.modTeam n f).elCtl = s.elCtl := rfl
@[simp] theorem State.modTeam_elWr (s : State) (n : Nat) (f : Team → Team) : (s.modTeam n f).elWr = s.elWr := rfl
@[simp] theorem State.modTeam_elRd (s : State) (n : Nat) (f : Team → Team) : (s.modTeam n f).elRd = s.elRd := rfl
@[simp] theorem State.modTeam_cecnt (s : State) (n : Nat) (f : Team → Team) : (s.modTeam n f).cecnt = s.cecnt := rfl
@[simp] theorem State.modTeam_mdoor (s : State) (n : Nat) (f : Team → Team) : (s.modTeam n f).mdoor = s.mdoor := rfl
@[simp] theorem State.modTeam_hostData (s : State) (n : Nat) (f : Team → Team) : (s.modTeam n f).hostData = s.hostData := rfl
@[simp] theorem State.modTeam_peerData (s : State) (n : Nat) (f : Team → Team) : (s.modTeam n f).peerData = s.peerData := rfl
@[simp] theorem State.modTeam_msix (s : State) (n : Nat) (f : Team → Team) : (s.modTeam n f).msix = s.msix := rfl
@[simp] theorem State.modTeam_flash (s : State) (n : Nat) (f : Team → Team) : (s.modTeam n f).flash = s.flash := rfl
@[simp] theorem State.modTeam_fwTable (s : State) (n : Nat) (f : Team → Team) : (s.modTeam n f).fwTable = s.fwTable := rfl
@[simp] theorem State.modTeam_dmcErrors (s : State) (n : Nat) (f : Team → Team) : (s.modTeam n f).dmcErrors = s.dmcErrors := rfl
@[simp] theorem State.modTeam_flaws (s : State) (n : Nat) (f : Team → Team) : (s.modTeam n f).flaws = s.flaws := rfl

/-! ### `State.setAgent` -/

@[simp] theorem State.setAgent_agenda (s : State) (a : AgentId) (x : Agent) : (s.setAgent a x).agenda = s.agenda := rfl
@[simp] theorem State.setAgent_fresh (s : State) (a : AgentId) (x : Agent) : (s.setAgent a x).fresh = s.fresh := rfl
@[simp] theorem State.setAgent_cur (s : State) (a : AgentId) (x : Agent) : (s.setAgent a x).cur = s.cur := rfl
@[simp] theorem State.setAgent_dtime (s : State) (a : AgentId) (x : Agent) : (s.setAgent a x).dtime = s.dtime := rfl
@[simp] theorem State.setAgent_mem (s : State) (a : AgentId) (x : Agent) : (s.setAgent a x).mem = s.mem := rfl
@[simp] theorem State.setAgent_writeSeq (s : State) (a : AgentId) (x : Agent) : (s.setAgent a x).writeSeq = s.writeSeq := rfl
@[simp] theorem State.setAgent_lines (s : State) (a : AgentId) (x : Agent) : (s.setAgent a x).lines = s.lines := rfl
@[simp] theorem State.setAgent_evMax (s : State) (a : AgentId) (x : Agent) : (s.setAgent a x).evMax = s.evMax := rfl
@[simp] theorem State.setAgent_l1 (s : State) (a : AgentId) (x : Agent) : (s.setAgent a x).l1 = s.l1 := rfl
@[simp] theorem State.setAgent_icache (s : State) (a : AgentId) (x : Agent) : (s.setAgent a x).icache = s.icache := rfl
@[simp] theorem State.setAgent_tlb (s : State) (a : AgentId) (x : Agent) : (s.setAgent a x).tlb = s.tlb := rfl
@[simp] theorem State.setAgent_mons (s : State) (a : AgentId) (x : Agent) : (s.setAgent a x).mons = s.mons := rfl
@[simp] theorem State.setAgent_filter (s : State) (a : AgentId) (x : Agent) : (s.setAgent a x).filter = s.filter := rfl
@[simp] theorem State.setAgent_wakes (s : State) (a : AgentId) (x : Agent) : (s.setAgent a x).wakes = s.wakes := rfl
@[simp] theorem State.setAgent_batches (s : State) (a : AgentId) (x : Agent) : (s.setAgent a x).batches = s.batches := rfl
@[simp] theorem State.setAgent_cmds (s : State) (a : AgentId) (x : Agent) : (s.setAgent a x).cmds = s.cmds := rfl
@[simp] theorem State.setAgent_cmdSeq (s : State) (a : AgentId) (x : Agent) : (s.setAgent a x).cmdSeq = s.cmdSeq := rfl
@[simp] theorem State.setAgent_rlt (s : State) (a : AgentId) (x : Agent) : (s.setAgent a x).rlt = s.rlt := rfl
@[simp] theorem State.setAgent_teams (s : State) (a : AgentId) (x : Agent) : (s.setAgent a x).teams = Tbl.modify s.teams a.team (fun t => { t with agents := Tbl.modify t.agents a.who (fun _ => x) }) := rfl
@[simp] theorem State.setAgent_grids (s : State) (a : AgentId) (x : Agent) : (s.setAgent a x).grids = s.grids := rfl
@[simp] theorem State.setAgent_children (s : State) (a : AgentId) (x : Agent) : (s.setAgent a x).children = s.children := rfl
@[simp] theorem State.setAgent_parts (s : State) (a : AgentId) (x : Agent) : (s.setAgent a x).parts = s.parts := rfl
@[simp] theorem State.setAgent_pwc (s : State) (a : AgentId) (x : Agent) : (s.setAgent a x).pwc = s.pwc := rfl
@[simp] theorem State.setAgent_dies (s : State) (a : AgentId) (x : Agent) : (s.setAgent a x).dies = s.dies := rfl
@[simp] theorem State.setAgent_pairs (s : State) (a : AgentId) (x : Agent) : (s.setAgent a x).pairs = s.pairs := rfl
@[simp] theorem State.setAgent_lcr (s : State) (a : AgentId) (x : Agent) : (s.setAgent a x).lcr = s.lcr := rfl
@[simp] theorem State.setAgent_lastBeat (s : State) (a : AgentId) (x : Agent) : (s.setAgent a x).lastBeat = s.lastBeat := rfl
@[simp] theorem State.setAgent_railClocks (s : State) (a : AgentId) (x : Agent) : (s.setAgent a x).railClocks = s.railClocks := rfl
@[simp] theorem State.setAgent_ccLast (s : State) (a : AgentId) (x : Agent) : (s.setAgent a x).ccLast = s.ccLast := rfl
@[simp] theorem State.setAgent_sampleRail (s : State) (a : AgentId) (x : Agent) : (s.setAgent a x).sampleRail = s.sampleRail := rfl
@[simp] theorem State.setAgent_clusterOwner (s : State) (a : AgentId) (x : Agent) : (s.setAgent a x).clusterOwner = s.clusterOwner := rfl
@[simp] theorem State.setAgent_ageSeq (s : State) (a : AgentId) (x : Agent) : (s.setAgent a x).ageSeq = s.ageSeq := rfl
@[simp] theorem State.setAgent_rankSeq (s : State) (a : AgentId) (x : Agent) : (s.setAgent a x).rankSeq = s.rankSeq := rfl
@[simp] theorem State.setAgent_orderSeq (s : State) (a : AgentId) (x : Agent) : (s.setAgent a x).orderSeq = s.orderSeq := rfl
@[simp] theorem State.setAgent_beatSeq (s : State) (a : AgentId) (x : Agent) : (s.setAgent a x).beatSeq = s.beatSeq := rfl
@[simp] theorem State.setAgent_devNum (s : State) (a : AgentId) (x : Agent) : (s.setAgent a x).devNum = s.devNum := rfl
@[simp] theorem State.setAgent_bootStat (s : State) (a : AgentId) (x : Agent) : (s.setAgent a x).bootStat = s.bootStat := rfl
@[simp] theorem State.setAgent_elBase (s : State) (a : AgentId) (x : Agent) : (s.setAgent a x).elBase = s.elBase := rfl
@[simp] theorem State.setAgent_elCtl (s : State) (a : AgentId) (x : Agent) : (s.setAgent a x).elCtl = s.elCtl := rfl
@[simp] theorem State.setAgent_elWr (s : State) (a : AgentId) (x : Agent) : (s.setAgent a x).elWr = s.elWr := rfl
@[simp] theorem State.setAgent_elRd (s : State) (a : AgentId) (x : Agent) : (s.setAgent a x).elRd = s.elRd := rfl
@[simp] theorem State.setAgent_cecnt (s : State) (a : AgentId) (x : Agent) : (s.setAgent a x).cecnt = s.cecnt := rfl
@[simp] theorem State.setAgent_mdoor (s : State) (a : AgentId) (x : Agent) : (s.setAgent a x).mdoor = s.mdoor := rfl
@[simp] theorem State.setAgent_hostData (s : State) (a : AgentId) (x : Agent) : (s.setAgent a x).hostData = s.hostData := rfl
@[simp] theorem State.setAgent_peerData (s : State) (a : AgentId) (x : Agent) : (s.setAgent a x).peerData = s.peerData := rfl
@[simp] theorem State.setAgent_msix (s : State) (a : AgentId) (x : Agent) : (s.setAgent a x).msix = s.msix := rfl
@[simp] theorem State.setAgent_flash (s : State) (a : AgentId) (x : Agent) : (s.setAgent a x).flash = s.flash := rfl
@[simp] theorem State.setAgent_fwTable (s : State) (a : AgentId) (x : Agent) : (s.setAgent a x).fwTable = s.fwTable := rfl
@[simp] theorem State.setAgent_dmcErrors (s : State) (a : AgentId) (x : Agent) : (s.setAgent a x).dmcErrors = s.dmcErrors := rfl
@[simp] theorem State.setAgent_flaws (s : State) (a : AgentId) (x : Agent) : (s.setAgent a x).flaws = s.flaws := rfl

/-! ### `State.modAgent` -/

@[simp] theorem State.modAgent_agenda (s : State) (a : AgentId) (f : Agent → Agent) : (s.modAgent a f).agenda = s.agenda := rfl
@[simp] theorem State.modAgent_fresh (s : State) (a : AgentId) (f : Agent → Agent) : (s.modAgent a f).fresh = s.fresh := rfl
@[simp] theorem State.modAgent_cur (s : State) (a : AgentId) (f : Agent → Agent) : (s.modAgent a f).cur = s.cur := rfl
@[simp] theorem State.modAgent_dtime (s : State) (a : AgentId) (f : Agent → Agent) : (s.modAgent a f).dtime = s.dtime := rfl
@[simp] theorem State.modAgent_mem (s : State) (a : AgentId) (f : Agent → Agent) : (s.modAgent a f).mem = s.mem := rfl
@[simp] theorem State.modAgent_writeSeq (s : State) (a : AgentId) (f : Agent → Agent) : (s.modAgent a f).writeSeq = s.writeSeq := rfl
@[simp] theorem State.modAgent_lines (s : State) (a : AgentId) (f : Agent → Agent) : (s.modAgent a f).lines = s.lines := rfl
@[simp] theorem State.modAgent_evMax (s : State) (a : AgentId) (f : Agent → Agent) : (s.modAgent a f).evMax = s.evMax := rfl
@[simp] theorem State.modAgent_l1 (s : State) (a : AgentId) (f : Agent → Agent) : (s.modAgent a f).l1 = s.l1 := rfl
@[simp] theorem State.modAgent_icache (s : State) (a : AgentId) (f : Agent → Agent) : (s.modAgent a f).icache = s.icache := rfl
@[simp] theorem State.modAgent_tlb (s : State) (a : AgentId) (f : Agent → Agent) : (s.modAgent a f).tlb = s.tlb := rfl
@[simp] theorem State.modAgent_mons (s : State) (a : AgentId) (f : Agent → Agent) : (s.modAgent a f).mons = s.mons := rfl
@[simp] theorem State.modAgent_filter (s : State) (a : AgentId) (f : Agent → Agent) : (s.modAgent a f).filter = s.filter := rfl
@[simp] theorem State.modAgent_wakes (s : State) (a : AgentId) (f : Agent → Agent) : (s.modAgent a f).wakes = s.wakes := rfl
@[simp] theorem State.modAgent_batches (s : State) (a : AgentId) (f : Agent → Agent) : (s.modAgent a f).batches = s.batches := rfl
@[simp] theorem State.modAgent_cmds (s : State) (a : AgentId) (f : Agent → Agent) : (s.modAgent a f).cmds = s.cmds := rfl
@[simp] theorem State.modAgent_cmdSeq (s : State) (a : AgentId) (f : Agent → Agent) : (s.modAgent a f).cmdSeq = s.cmdSeq := rfl
@[simp] theorem State.modAgent_rlt (s : State) (a : AgentId) (f : Agent → Agent) : (s.modAgent a f).rlt = s.rlt := rfl
@[simp] theorem State.modAgent_teams (s : State) (a : AgentId) (f : Agent → Agent) : (s.modAgent a f).teams = Tbl.modify s.teams a.team (fun t => { t with agents := Tbl.modify t.agents a.who f }) := rfl
@[simp] theorem State.modAgent_grids (s : State) (a : AgentId) (f : Agent → Agent) : (s.modAgent a f).grids = s.grids := rfl
@[simp] theorem State.modAgent_children (s : State) (a : AgentId) (f : Agent → Agent) : (s.modAgent a f).children = s.children := rfl
@[simp] theorem State.modAgent_parts (s : State) (a : AgentId) (f : Agent → Agent) : (s.modAgent a f).parts = s.parts := rfl
@[simp] theorem State.modAgent_pwc (s : State) (a : AgentId) (f : Agent → Agent) : (s.modAgent a f).pwc = s.pwc := rfl
@[simp] theorem State.modAgent_dies (s : State) (a : AgentId) (f : Agent → Agent) : (s.modAgent a f).dies = s.dies := rfl
@[simp] theorem State.modAgent_pairs (s : State) (a : AgentId) (f : Agent → Agent) : (s.modAgent a f).pairs = s.pairs := rfl
@[simp] theorem State.modAgent_lcr (s : State) (a : AgentId) (f : Agent → Agent) : (s.modAgent a f).lcr = s.lcr := rfl
@[simp] theorem State.modAgent_lastBeat (s : State) (a : AgentId) (f : Agent → Agent) : (s.modAgent a f).lastBeat = s.lastBeat := rfl
@[simp] theorem State.modAgent_railClocks (s : State) (a : AgentId) (f : Agent → Agent) : (s.modAgent a f).railClocks = s.railClocks := rfl
@[simp] theorem State.modAgent_ccLast (s : State) (a : AgentId) (f : Agent → Agent) : (s.modAgent a f).ccLast = s.ccLast := rfl
@[simp] theorem State.modAgent_sampleRail (s : State) (a : AgentId) (f : Agent → Agent) : (s.modAgent a f).sampleRail = s.sampleRail := rfl
@[simp] theorem State.modAgent_clusterOwner (s : State) (a : AgentId) (f : Agent → Agent) : (s.modAgent a f).clusterOwner = s.clusterOwner := rfl
@[simp] theorem State.modAgent_ageSeq (s : State) (a : AgentId) (f : Agent → Agent) : (s.modAgent a f).ageSeq = s.ageSeq := rfl
@[simp] theorem State.modAgent_rankSeq (s : State) (a : AgentId) (f : Agent → Agent) : (s.modAgent a f).rankSeq = s.rankSeq := rfl
@[simp] theorem State.modAgent_orderSeq (s : State) (a : AgentId) (f : Agent → Agent) : (s.modAgent a f).orderSeq = s.orderSeq := rfl
@[simp] theorem State.modAgent_beatSeq (s : State) (a : AgentId) (f : Agent → Agent) : (s.modAgent a f).beatSeq = s.beatSeq := rfl
@[simp] theorem State.modAgent_devNum (s : State) (a : AgentId) (f : Agent → Agent) : (s.modAgent a f).devNum = s.devNum := rfl
@[simp] theorem State.modAgent_bootStat (s : State) (a : AgentId) (f : Agent → Agent) : (s.modAgent a f).bootStat = s.bootStat := rfl
@[simp] theorem State.modAgent_elBase (s : State) (a : AgentId) (f : Agent → Agent) : (s.modAgent a f).elBase = s.elBase := rfl
@[simp] theorem State.modAgent_elCtl (s : State) (a : AgentId) (f : Agent → Agent) : (s.modAgent a f).elCtl = s.elCtl := rfl
@[simp] theorem State.modAgent_elWr (s : State) (a : AgentId) (f : Agent → Agent) : (s.modAgent a f).elWr = s.elWr := rfl
@[simp] theorem State.modAgent_elRd (s : State) (a : AgentId) (f : Agent → Agent) : (s.modAgent a f).elRd = s.elRd := rfl
@[simp] theorem State.modAgent_cecnt (s : State) (a : AgentId) (f : Agent → Agent) : (s.modAgent a f).cecnt = s.cecnt := rfl
@[simp] theorem State.modAgent_mdoor (s : State) (a : AgentId) (f : Agent → Agent) : (s.modAgent a f).mdoor = s.mdoor := rfl
@[simp] theorem State.modAgent_hostData (s : State) (a : AgentId) (f : Agent → Agent) : (s.modAgent a f).hostData = s.hostData := rfl
@[simp] theorem State.modAgent_peerData (s : State) (a : AgentId) (f : Agent → Agent) : (s.modAgent a f).peerData = s.peerData := rfl
@[simp] theorem State.modAgent_msix (s : State) (a : AgentId) (f : Agent → Agent) : (s.modAgent a f).msix = s.msix := rfl
@[simp] theorem State.modAgent_flash (s : State) (a : AgentId) (f : Agent → Agent) : (s.modAgent a f).flash = s.flash := rfl
@[simp] theorem State.modAgent_fwTable (s : State) (a : AgentId) (f : Agent → Agent) : (s.modAgent a f).fwTable = s.fwTable := rfl
@[simp] theorem State.modAgent_dmcErrors (s : State) (a : AgentId) (f : Agent → Agent) : (s.modAgent a f).dmcErrors = s.dmcErrors := rfl
@[simp] theorem State.modAgent_flaws (s : State) (a : AgentId) (f : Agent → Agent) : (s.modAgent a f).flaws = s.flaws := rfl

/-! ### `State.modPart` -/

@[simp] theorem State.modPart_agenda (s : State) (p : Nat) (f : Part → Part) : (s.modPart p f).agenda = s.agenda := rfl
@[simp] theorem State.modPart_fresh (s : State) (p : Nat) (f : Part → Part) : (s.modPart p f).fresh = s.fresh := rfl
@[simp] theorem State.modPart_cur (s : State) (p : Nat) (f : Part → Part) : (s.modPart p f).cur = s.cur := rfl
@[simp] theorem State.modPart_dtime (s : State) (p : Nat) (f : Part → Part) : (s.modPart p f).dtime = s.dtime := rfl
@[simp] theorem State.modPart_mem (s : State) (p : Nat) (f : Part → Part) : (s.modPart p f).mem = s.mem := rfl
@[simp] theorem State.modPart_writeSeq (s : State) (p : Nat) (f : Part → Part) : (s.modPart p f).writeSeq = s.writeSeq := rfl
@[simp] theorem State.modPart_lines (s : State) (p : Nat) (f : Part → Part) : (s.modPart p f).lines = s.lines := rfl
@[simp] theorem State.modPart_evMax (s : State) (p : Nat) (f : Part → Part) : (s.modPart p f).evMax = s.evMax := rfl
@[simp] theorem State.modPart_l1 (s : State) (p : Nat) (f : Part → Part) : (s.modPart p f).l1 = s.l1 := rfl
@[simp] theorem State.modPart_icache (s : State) (p : Nat) (f : Part → Part) : (s.modPart p f).icache = s.icache := rfl
@[simp] theorem State.modPart_tlb (s : State) (p : Nat) (f : Part → Part) : (s.modPart p f).tlb = s.tlb := rfl
@[simp] theorem State.modPart_mons (s : State) (p : Nat) (f : Part → Part) : (s.modPart p f).mons = s.mons := rfl
@[simp] theorem State.modPart_filter (s : State) (p : Nat) (f : Part → Part) : (s.modPart p f).filter = s.filter := rfl
@[simp] theorem State.modPart_wakes (s : State) (p : Nat) (f : Part → Part) : (s.modPart p f).wakes = s.wakes := rfl
@[simp] theorem State.modPart_batches (s : State) (p : Nat) (f : Part → Part) : (s.modPart p f).batches = s.batches := rfl
@[simp] theorem State.modPart_cmds (s : State) (p : Nat) (f : Part → Part) : (s.modPart p f).cmds = s.cmds := rfl
@[simp] theorem State.modPart_cmdSeq (s : State) (p : Nat) (f : Part → Part) : (s.modPart p f).cmdSeq = s.cmdSeq := rfl
@[simp] theorem State.modPart_rlt (s : State) (p : Nat) (f : Part → Part) : (s.modPart p f).rlt = s.rlt := rfl
@[simp] theorem State.modPart_teams (s : State) (p : Nat) (f : Part → Part) : (s.modPart p f).teams = s.teams := rfl
@[simp] theorem State.modPart_grids (s : State) (p : Nat) (f : Part → Part) : (s.modPart p f).grids = s.grids := rfl
@[simp] theorem State.modPart_children (s : State) (p : Nat) (f : Part → Part) : (s.modPart p f).children = s.children := rfl
@[simp] theorem State.modPart_parts (s : State) (p : Nat) (f : Part → Part) : (s.modPart p f).parts = Tbl.ins s.parts p (f (s.partition p)) := rfl
@[simp] theorem State.modPart_pwc (s : State) (p : Nat) (f : Part → Part) : (s.modPart p f).pwc = s.pwc := rfl
@[simp] theorem State.modPart_dies (s : State) (p : Nat) (f : Part → Part) : (s.modPart p f).dies = s.dies := rfl
@[simp] theorem State.modPart_pairs (s : State) (p : Nat) (f : Part → Part) : (s.modPart p f).pairs = s.pairs := rfl
@[simp] theorem State.modPart_lcr (s : State) (p : Nat) (f : Part → Part) : (s.modPart p f).lcr = s.lcr := rfl
@[simp] theorem State.modPart_lastBeat (s : State) (p : Nat) (f : Part → Part) : (s.modPart p f).lastBeat = s.lastBeat := rfl
@[simp] theorem State.modPart_railClocks (s : State) (p : Nat) (f : Part → Part) : (s.modPart p f).railClocks = s.railClocks := rfl
@[simp] theorem State.modPart_ccLast (s : State) (p : Nat) (f : Part → Part) : (s.modPart p f).ccLast = s.ccLast := rfl
@[simp] theorem State.modPart_sampleRail (s : State) (p : Nat) (f : Part → Part) : (s.modPart p f).sampleRail = s.sampleRail := rfl
@[simp] theorem State.modPart_clusterOwner (s : State) (p : Nat) (f : Part → Part) : (s.modPart p f).clusterOwner = s.clusterOwner := rfl
@[simp] theorem State.modPart_ageSeq (s : State) (p : Nat) (f : Part → Part) : (s.modPart p f).ageSeq = s.ageSeq := rfl
@[simp] theorem State.modPart_rankSeq (s : State) (p : Nat) (f : Part → Part) : (s.modPart p f).rankSeq = s.rankSeq := rfl
@[simp] theorem State.modPart_orderSeq (s : State) (p : Nat) (f : Part → Part) : (s.modPart p f).orderSeq = s.orderSeq := rfl
@[simp] theorem State.modPart_beatSeq (s : State) (p : Nat) (f : Part → Part) : (s.modPart p f).beatSeq = s.beatSeq := rfl
@[simp] theorem State.modPart_devNum (s : State) (p : Nat) (f : Part → Part) : (s.modPart p f).devNum = s.devNum := rfl
@[simp] theorem State.modPart_bootStat (s : State) (p : Nat) (f : Part → Part) : (s.modPart p f).bootStat = s.bootStat := rfl
@[simp] theorem State.modPart_elBase (s : State) (p : Nat) (f : Part → Part) : (s.modPart p f).elBase = s.elBase := rfl
@[simp] theorem State.modPart_elCtl (s : State) (p : Nat) (f : Part → Part) : (s.modPart p f).elCtl = s.elCtl := rfl
@[simp] theorem State.modPart_elWr (s : State) (p : Nat) (f : Part → Part) : (s.modPart p f).elWr = s.elWr := rfl
@[simp] theorem State.modPart_elRd (s : State) (p : Nat) (f : Part → Part) : (s.modPart p f).elRd = s.elRd := rfl
@[simp] theorem State.modPart_cecnt (s : State) (p : Nat) (f : Part → Part) : (s.modPart p f).cecnt = s.cecnt := rfl
@[simp] theorem State.modPart_mdoor (s : State) (p : Nat) (f : Part → Part) : (s.modPart p f).mdoor = s.mdoor := rfl
@[simp] theorem State.modPart_hostData (s : State) (p : Nat) (f : Part → Part) : (s.modPart p f).hostData = s.hostData := rfl
@[simp] theorem State.modPart_peerData (s : State) (p : Nat) (f : Part → Part) : (s.modPart p f).peerData = s.peerData := rfl
@[simp] theorem State.modPart_msix (s : State) (p : Nat) (f : Part → Part) : (s.modPart p f).msix = s.msix := rfl
@[simp] theorem State.modPart_flash (s : State) (p : Nat) (f : Part → Part) : (s.modPart p f).flash = s.flash := rfl
@[simp] theorem State.modPart_fwTable (s : State) (p : Nat) (f : Part → Part) : (s.modPart p f).fwTable = s.fwTable := rfl
@[simp] theorem State.modPart_dmcErrors (s : State) (p : Nat) (f : Part → Part) : (s.modPart p f).dmcErrors = s.dmcErrors := rfl
@[simp] theorem State.modPart_flaws (s : State) (p : Nat) (f : Part → Part) : (s.modPart p f).flaws = s.flaws := rfl

/-! ### `State.poke` -/

@[simp] theorem State.poke_agenda (s : State) (l : Nat) (bs : List Byte) : (s.poke l bs).agenda = s.agenda := rfl
@[simp] theorem State.poke_fresh (s : State) (l : Nat) (bs : List Byte) : (s.poke l bs).fresh = s.fresh := rfl
@[simp] theorem State.poke_cur (s : State) (l : Nat) (bs : List Byte) : (s.poke l bs).cur = s.cur := rfl
@[simp] theorem State.poke_dtime (s : State) (l : Nat) (bs : List Byte) : (s.poke l bs).dtime = s.dtime := rfl
@[simp] theorem State.poke_mem (s : State) (l : Nat) (bs : List Byte) : (s.poke l bs).mem = Tbl.putMany 0 s.mem l bs := rfl
@[simp] theorem State.poke_writeSeq (s : State) (l : Nat) (bs : List Byte) : (s.poke l bs).writeSeq = s.writeSeq := rfl
@[simp] theorem State.poke_lines (s : State) (l : Nat) (bs : List Byte) : (s.poke l bs).lines = s.lines := rfl
@[simp] theorem State.poke_evMax (s : State) (l : Nat) (bs : List Byte) : (s.poke l bs).evMax = s.evMax := rfl
@[simp] theorem State.poke_l1 (s : State) (l : Nat) (bs : List Byte) : (s.poke l bs).l1 = s.l1 := rfl
@[simp] theorem State.poke_icache (s : State) (l : Nat) (bs : List Byte) : (s.poke l bs).icache = s.icache := rfl
@[simp] theorem State.poke_tlb (s : State) (l : Nat) (bs : List Byte) : (s.poke l bs).tlb = s.tlb := rfl
@[simp] theorem State.poke_mons (s : State) (l : Nat) (bs : List Byte) : (s.poke l bs).mons = s.mons := rfl
@[simp] theorem State.poke_filter (s : State) (l : Nat) (bs : List Byte) : (s.poke l bs).filter = s.filter := rfl
@[simp] theorem State.poke_wakes (s : State) (l : Nat) (bs : List Byte) : (s.poke l bs).wakes = s.wakes := rfl
@[simp] theorem State.poke_batches (s : State) (l : Nat) (bs : List Byte) : (s.poke l bs).batches = s.batches := rfl
@[simp] theorem State.poke_cmds (s : State) (l : Nat) (bs : List Byte) : (s.poke l bs).cmds = s.cmds := rfl
@[simp] theorem State.poke_cmdSeq (s : State) (l : Nat) (bs : List Byte) : (s.poke l bs).cmdSeq = s.cmdSeq := rfl
@[simp] theorem State.poke_rlt (s : State) (l : Nat) (bs : List Byte) : (s.poke l bs).rlt = s.rlt := rfl
@[simp] theorem State.poke_teams (s : State) (l : Nat) (bs : List Byte) : (s.poke l bs).teams = s.teams := rfl
@[simp] theorem State.poke_grids (s : State) (l : Nat) (bs : List Byte) : (s.poke l bs).grids = s.grids := rfl
@[simp] theorem State.poke_children (s : State) (l : Nat) (bs : List Byte) : (s.poke l bs).children = s.children := rfl
@[simp] theorem State.poke_parts (s : State) (l : Nat) (bs : List Byte) : (s.poke l bs).parts = s.parts := rfl
@[simp] theorem State.poke_pwc (s : State) (l : Nat) (bs : List Byte) : (s.poke l bs).pwc = s.pwc := rfl
@[simp] theorem State.poke_dies (s : State) (l : Nat) (bs : List Byte) : (s.poke l bs).dies = s.dies := rfl
@[simp] theorem State.poke_pairs (s : State) (l : Nat) (bs : List Byte) : (s.poke l bs).pairs = s.pairs := rfl
@[simp] theorem State.poke_lcr (s : State) (l : Nat) (bs : List Byte) : (s.poke l bs).lcr = s.lcr := rfl
@[simp] theorem State.poke_lastBeat (s : State) (l : Nat) (bs : List Byte) : (s.poke l bs).lastBeat = s.lastBeat := rfl
@[simp] theorem State.poke_railClocks (s : State) (l : Nat) (bs : List Byte) : (s.poke l bs).railClocks = s.railClocks := rfl
@[simp] theorem State.poke_ccLast (s : State) (l : Nat) (bs : List Byte) : (s.poke l bs).ccLast = s.ccLast := rfl
@[simp] theorem State.poke_sampleRail (s : State) (l : Nat) (bs : List Byte) : (s.poke l bs).sampleRail = s.sampleRail := rfl
@[simp] theorem State.poke_clusterOwner (s : State) (l : Nat) (bs : List Byte) : (s.poke l bs).clusterOwner = s.clusterOwner := rfl
@[simp] theorem State.poke_ageSeq (s : State) (l : Nat) (bs : List Byte) : (s.poke l bs).ageSeq = s.ageSeq := rfl
@[simp] theorem State.poke_rankSeq (s : State) (l : Nat) (bs : List Byte) : (s.poke l bs).rankSeq = s.rankSeq := rfl
@[simp] theorem State.poke_orderSeq (s : State) (l : Nat) (bs : List Byte) : (s.poke l bs).orderSeq = s.orderSeq := rfl
@[simp] theorem State.poke_beatSeq (s : State) (l : Nat) (bs : List Byte) : (s.poke l bs).beatSeq = s.beatSeq := rfl
@[simp] theorem State.poke_devNum (s : State) (l : Nat) (bs : List Byte) : (s.poke l bs).devNum = s.devNum := rfl
@[simp] theorem State.poke_bootStat (s : State) (l : Nat) (bs : List Byte) : (s.poke l bs).bootStat = s.bootStat := rfl
@[simp] theorem State.poke_elBase (s : State) (l : Nat) (bs : List Byte) : (s.poke l bs).elBase = s.elBase := rfl
@[simp] theorem State.poke_elCtl (s : State) (l : Nat) (bs : List Byte) : (s.poke l bs).elCtl = s.elCtl := rfl
@[simp] theorem State.poke_elWr (s : State) (l : Nat) (bs : List Byte) : (s.poke l bs).elWr = s.elWr := rfl
@[simp] theorem State.poke_elRd (s : State) (l : Nat) (bs : List Byte) : (s.poke l bs).elRd = s.elRd := rfl
@[simp] theorem State.poke_cecnt (s : State) (l : Nat) (bs : List Byte) : (s.poke l bs).cecnt = s.cecnt := rfl
@[simp] theorem State.poke_mdoor (s : State) (l : Nat) (bs : List Byte) : (s.poke l bs).mdoor = s.mdoor := rfl
@[simp] theorem State.poke_hostData (s : State) (l : Nat) (bs : List Byte) : (s.poke l bs).hostData = s.hostData := rfl
@[simp] theorem State.poke_peerData (s : State) (l : Nat) (bs : List Byte) : (s.poke l bs).peerData = s.peerData := rfl
@[simp] theorem State.poke_msix (s : State) (l : Nat) (bs : List Byte) : (s.poke l bs).msix = s.msix := rfl
@[simp] theorem State.poke_flash (s : State) (l : Nat) (bs : List Byte) : (s.poke l bs).flash = s.flash := rfl
@[simp] theorem State.poke_fwTable (s : State) (l : Nat) (bs : List Byte) : (s.poke l bs).fwTable = s.fwTable := rfl
@[simp] theorem State.poke_dmcErrors (s : State) (l : Nat) (bs : List Byte) : (s.poke l bs).dmcErrors = s.dmcErrors := rfl
@[simp] theorem State.poke_flaws (s : State) (l : Nat) (bs : List Byte) : (s.poke l bs).flaws = s.flaws := rfl

/-! ### `State.clear` -/

@[simp] theorem State.clear_agenda (s : State) (l n : Nat) : (s.clear l n).agenda = s.agenda := rfl
@[simp] theorem State.clear_fresh (s : State) (l n : Nat) : (s.clear l n).fresh = s.fresh := rfl
@[simp] theorem State.clear_cur (s : State) (l n : Nat) : (s.clear l n).cur = s.cur := rfl
@[simp] theorem State.clear_dtime (s : State) (l n : Nat) : (s.clear l n).dtime = s.dtime := rfl
@[simp] theorem State.clear_mem (s : State) (l n : Nat) : (s.clear l n).mem = s.mem.filter (fun e => decide (e.1 < l) || decide (l + n ≤ e.1)) := rfl
@[simp] theorem State.clear_writeSeq (s : State) (l n : Nat) : (s.clear l n).writeSeq = s.writeSeq := rfl
@[simp] theorem State.clear_lines (s : State) (l n : Nat) : (s.clear l n).lines = s.lines := rfl
@[simp] theorem State.clear_evMax (s : State) (l n : Nat) : (s.clear l n).evMax = s.evMax := rfl
@[simp] theorem State.clear_l1 (s : State) (l n : Nat) : (s.clear l n).l1 = s.l1 := rfl
@[simp] theorem State.clear_icache (s : State) (l n : Nat) : (s.clear l n).icache = s.icache := rfl
@[simp] theorem State.clear_tlb (s : State) (l n : Nat) : (s.clear l n).tlb = s.tlb := rfl
@[simp] theorem State.clear_mons (s : State) (l n : Nat) : (s.clear l n).mons = s.mons := rfl
@[simp] theorem State.clear_filter (s : State) (l n : Nat) : (s.clear l n).filter = s.filter := rfl
@[simp] theorem State.clear_wakes (s : State) (l n : Nat) : (s.clear l n).wakes = s.wakes := rfl
@[simp] theorem State.clear_batches (s : State) (l n : Nat) : (s.clear l n).batches = s.batches := rfl
@[simp] theorem State.clear_cmds (s : State) (l n : Nat) : (s.clear l n).cmds = s.cmds := rfl
@[simp] theorem State.clear_cmdSeq (s : State) (l n : Nat) : (s.clear l n).cmdSeq = s.cmdSeq := rfl
@[simp] theorem State.clear_rlt (s : State) (l n : Nat) : (s.clear l n).rlt = s.rlt := rfl
@[simp] theorem State.clear_teams (s : State) (l n : Nat) : (s.clear l n).teams = s.teams := rfl
@[simp] theorem State.clear_grids (s : State) (l n : Nat) : (s.clear l n).grids = s.grids := rfl
@[simp] theorem State.clear_children (s : State) (l n : Nat) : (s.clear l n).children = s.children := rfl
@[simp] theorem State.clear_parts (s : State) (l n : Nat) : (s.clear l n).parts = s.parts := rfl
@[simp] theorem State.clear_pwc (s : State) (l n : Nat) : (s.clear l n).pwc = s.pwc := rfl
@[simp] theorem State.clear_dies (s : State) (l n : Nat) : (s.clear l n).dies = s.dies := rfl
@[simp] theorem State.clear_pairs (s : State) (l n : Nat) : (s.clear l n).pairs = s.pairs := rfl
@[simp] theorem State.clear_lcr (s : State) (l n : Nat) : (s.clear l n).lcr = s.lcr := rfl
@[simp] theorem State.clear_lastBeat (s : State) (l n : Nat) : (s.clear l n).lastBeat = s.lastBeat := rfl
@[simp] theorem State.clear_railClocks (s : State) (l n : Nat) : (s.clear l n).railClocks = s.railClocks := rfl
@[simp] theorem State.clear_ccLast (s : State) (l n : Nat) : (s.clear l n).ccLast = s.ccLast := rfl
@[simp] theorem State.clear_sampleRail (s : State) (l n : Nat) : (s.clear l n).sampleRail = s.sampleRail := rfl
@[simp] theorem State.clear_clusterOwner (s : State) (l n : Nat) : (s.clear l n).clusterOwner = s.clusterOwner := rfl
@[simp] theorem State.clear_ageSeq (s : State) (l n : Nat) : (s.clear l n).ageSeq = s.ageSeq := rfl
@[simp] theorem State.clear_rankSeq (s : State) (l n : Nat) : (s.clear l n).rankSeq = s.rankSeq := rfl
@[simp] theorem State.clear_orderSeq (s : State) (l n : Nat) : (s.clear l n).orderSeq = s.orderSeq := rfl
@[simp] theorem State.clear_beatSeq (s : State) (l n : Nat) : (s.clear l n).beatSeq = s.beatSeq := rfl
@[simp] theorem State.clear_devNum (s : State) (l n : Nat) : (s.clear l n).devNum = s.devNum := rfl
@[simp] theorem State.clear_bootStat (s : State) (l n : Nat) : (s.clear l n).bootStat = s.bootStat := rfl
@[simp] theorem State.clear_elBase (s : State) (l n : Nat) : (s.clear l n).elBase = s.elBase := rfl
@[simp] theorem State.clear_elCtl (s : State) (l n : Nat) : (s.clear l n).elCtl = s.elCtl := rfl
@[simp] theorem State.clear_elWr (s : State) (l n : Nat) : (s.clear l n).elWr = s.elWr := rfl
@[simp] theorem State.clear_elRd (s : State) (l n : Nat) : (s.clear l n).elRd = s.elRd := rfl
@[simp] theorem State.clear_cecnt (s : State) (l n : Nat) : (s.clear l n).cecnt = s.cecnt := rfl
@[simp] theorem State.clear_mdoor (s : State) (l n : Nat) : (s.clear l n).mdoor = s.mdoor := rfl
@[simp] theorem State.clear_hostData (s : State) (l n : Nat) : (s.clear l n).hostData = s.hostData := rfl
@[simp] theorem State.clear_peerData (s : State) (l n : Nat) : (s.clear l n).peerData = s.peerData := rfl
@[simp] theorem State.clear_msix (s : State) (l n : Nat) : (s.clear l n).msix = s.msix := rfl
@[simp] theorem State.clear_flash (s : State) (l n : Nat) : (s.clear l n).flash = s.flash := rfl
@[simp] theorem State.clear_fwTable (s : State) (l n : Nat) : (s.clear l n).fwTable = s.fwTable := rfl
@[simp] theorem State.clear_dmcErrors (s : State) (l n : Nat) : (s.clear l n).dmcErrors = s.dmcErrors := rfl
@[simp] theorem State.clear_flaws (s : State) (l n : Nat) : (s.clear l n).flaws = s.flaws := rfl

/-! ### `State.setLine` -/

@[simp] theorem State.setLine_agenda (s : State) (l : Nat) (r : LineRec) : (s.setLine l r).agenda = s.agenda := rfl
@[simp] theorem State.setLine_fresh (s : State) (l : Nat) (r : LineRec) : (s.setLine l r).fresh = s.fresh := rfl
@[simp] theorem State.setLine_cur (s : State) (l : Nat) (r : LineRec) : (s.setLine l r).cur = s.cur := rfl
@[simp] theorem State.setLine_dtime (s : State) (l : Nat) (r : LineRec) : (s.setLine l r).dtime = s.dtime := rfl
@[simp] theorem State.setLine_mem (s : State) (l : Nat) (r : LineRec) : (s.setLine l r).mem = s.mem := rfl
@[simp] theorem State.setLine_writeSeq (s : State) (l : Nat) (r : LineRec) : (s.setLine l r).writeSeq = s.writeSeq := rfl
@[simp] theorem State.setLine_lines (s : State) (l : Nat) (r : LineRec) : (s.setLine l r).lines = Tbl.ins s.lines l r := rfl
@[simp] theorem State.setLine_evMax (s : State) (l : Nat) (r : LineRec) : (s.setLine l r).evMax = s.evMax := rfl
@[simp] theorem State.setLine_l1 (s : State) (l : Nat) (r : LineRec) : (s.setLine l r).l1 = s.l1 := rfl
@[simp] theorem State.setLine_icache (s : State) (l : Nat) (r : LineRec) : (s.setLine l r).icache = s.icache := rfl
@[simp] theorem State.setLine_tlb (s : State) (l : Nat) (r : LineRec) : (s.setLine l r).tlb = s.tlb := rfl
@[simp] theorem State.setLine_mons (s : State) (l : Nat) (r : LineRec) : (s.setLine l r).mons = s.mons := rfl
@[simp] theorem State.setLine_filter (s : State) (l : Nat) (r : LineRec) : (s.setLine l r).filter = s.filter := rfl
@[simp] theorem State.setLine_wakes (s : State) (l : Nat) (r : LineRec) : (s.setLine l r).wakes = s.wakes := rfl
@[simp] theorem State.setLine_batches (s : State) (l : Nat) (r : LineRec) : (s.setLine l r).batches = s.batches := rfl
@[simp] theorem State.setLine_cmds (s : State) (l : Nat) (r : LineRec) : (s.setLine l r).cmds = s.cmds := rfl
@[simp] theorem State.setLine_cmdSeq (s : State) (l : Nat) (r : LineRec) : (s.setLine l r).cmdSeq = s.cmdSeq := rfl
@[simp] theorem State.setLine_rlt (s : State) (l : Nat) (r : LineRec) : (s.setLine l r).rlt = s.rlt := rfl
@[simp] theorem State.setLine_teams (s : State) (l : Nat) (r : LineRec) : (s.setLine l r).teams = s.teams := rfl
@[simp] theorem State.setLine_grids (s : State) (l : Nat) (r : LineRec) : (s.setLine l r).grids = s.grids := rfl
@[simp] theorem State.setLine_children (s : State) (l : Nat) (r : LineRec) : (s.setLine l r).children = s.children := rfl
@[simp] theorem State.setLine_parts (s : State) (l : Nat) (r : LineRec) : (s.setLine l r).parts = s.parts := rfl
@[simp] theorem State.setLine_pwc (s : State) (l : Nat) (r : LineRec) : (s.setLine l r).pwc = s.pwc := rfl
@[simp] theorem State.setLine_dies (s : State) (l : Nat) (r : LineRec) : (s.setLine l r).dies = s.dies := rfl
@[simp] theorem State.setLine_pairs (s : State) (l : Nat) (r : LineRec) : (s.setLine l r).pairs = s.pairs := rfl
@[simp] theorem State.setLine_lcr (s : State) (l : Nat) (r : LineRec) : (s.setLine l r).lcr = s.lcr := rfl
@[simp] theorem State.setLine_lastBeat (s : State) (l : Nat) (r : LineRec) : (s.setLine l r).lastBeat = s.lastBeat := rfl
@[simp] theorem State.setLine_railClocks (s : State) (l : Nat) (r : LineRec) : (s.setLine l r).railClocks = s.railClocks := rfl
@[simp] theorem State.setLine_ccLast (s : State) (l : Nat) (r : LineRec) : (s.setLine l r).ccLast = s.ccLast := rfl
@[simp] theorem State.setLine_sampleRail (s : State) (l : Nat) (r : LineRec) : (s.setLine l r).sampleRail = s.sampleRail := rfl
@[simp] theorem State.setLine_clusterOwner (s : State) (l : Nat) (r : LineRec) : (s.setLine l r).clusterOwner = s.clusterOwner := rfl
@[simp] theorem State.setLine_ageSeq (s : State) (l : Nat) (r : LineRec) : (s.setLine l r).ageSeq = s.ageSeq := rfl
@[simp] theorem State.setLine_rankSeq (s : State) (l : Nat) (r : LineRec) : (s.setLine l r).rankSeq = s.rankSeq := rfl
@[simp] theorem State.setLine_orderSeq (s : State) (l : Nat) (r : LineRec) : (s.setLine l r).orderSeq = s.orderSeq := rfl
@[simp] theorem State.setLine_beatSeq (s : State) (l : Nat) (r : LineRec) : (s.setLine l r).beatSeq = s.beatSeq := rfl
@[simp] theorem State.setLine_devNum (s : State) (l : Nat) (r : LineRec) : (s.setLine l r).devNum = s.devNum := rfl
@[simp] theorem State.setLine_bootStat (s : State) (l : Nat) (r : LineRec) : (s.setLine l r).bootStat = s.bootStat := rfl
@[simp] theorem State.setLine_elBase (s : State) (l : Nat) (r : LineRec) : (s.setLine l r).elBase = s.elBase := rfl
@[simp] theorem State.setLine_elCtl (s : State) (l : Nat) (r : LineRec) : (s.setLine l r).elCtl = s.elCtl := rfl
@[simp] theorem State.setLine_elWr (s : State) (l : Nat) (r : LineRec) : (s.setLine l r).elWr = s.elWr := rfl
@[simp] theorem State.setLine_elRd (s : State) (l : Nat) (r : LineRec) : (s.setLine l r).elRd = s.elRd := rfl
@[simp] theorem State.setLine_cecnt (s : State) (l : Nat) (r : LineRec) : (s.setLine l r).cecnt = s.cecnt := rfl
@[simp] theorem State.setLine_mdoor (s : State) (l : Nat) (r : LineRec) : (s.setLine l r).mdoor = s.mdoor := rfl
@[simp] theorem State.setLine_hostData (s : State) (l : Nat) (r : LineRec) : (s.setLine l r).hostData = s.hostData := rfl
@[simp] theorem State.setLine_peerData (s : State) (l : Nat) (r : LineRec) : (s.setLine l r).peerData = s.peerData := rfl
@[simp] theorem State.setLine_msix (s : State) (l : Nat) (r : LineRec) : (s.setLine l r).msix = s.msix := rfl
@[simp] theorem State.setLine_flash (s : State) (l : Nat) (r : LineRec) : (s.setLine l r).flash = s.flash := rfl
@[simp] theorem State.setLine_fwTable (s : State) (l : Nat) (r : LineRec) : (s.setLine l r).fwTable = s.fwTable := rfl
@[simp] theorem State.setLine_dmcErrors (s : State) (l : Nat) (r : LineRec) : (s.setLine l r).dmcErrors = s.dmcErrors := rfl
@[simp] theorem State.setLine_flaws (s : State) (l : Nat) (r : LineRec) : (s.setLine l r).flaws = s.flaws := rfl

/-! ### `State.fire` -/

@[simp] theorem State.fire_agenda (s : State) (fn v : Nat) : (s.fire fn v).agenda = s.agenda := rfl
@[simp] theorem State.fire_fresh (s : State) (fn v : Nat) : (s.fire fn v).fresh = s.fresh := rfl
@[simp] theorem State.fire_cur (s : State) (fn v : Nat) : (s.fire fn v).cur = s.cur := rfl
@[simp] theorem State.fire_dtime (s : State) (fn v : Nat) : (s.fire fn v).dtime = s.dtime := rfl
@[simp] theorem State.fire_mem (s : State) (fn v : Nat) : (s.fire fn v).mem = s.mem := rfl
@[simp] theorem State.fire_writeSeq (s : State) (fn v : Nat) : (s.fire fn v).writeSeq = s.writeSeq := rfl
@[simp] theorem State.fire_lines (s : State) (fn v : Nat) : (s.fire fn v).lines = s.lines := rfl
@[simp] theorem State.fire_evMax (s : State) (fn v : Nat) : (s.fire fn v).evMax = s.evMax := rfl
@[simp] theorem State.fire_l1 (s : State) (fn v : Nat) : (s.fire fn v).l1 = s.l1 := rfl
@[simp] theorem State.fire_icache (s : State) (fn v : Nat) : (s.fire fn v).icache = s.icache := rfl
@[simp] theorem State.fire_tlb (s : State) (fn v : Nat) : (s.fire fn v).tlb = s.tlb := rfl
@[simp] theorem State.fire_mons (s : State) (fn v : Nat) : (s.fire fn v).mons = s.mons := rfl
@[simp] theorem State.fire_filter (s : State) (fn v : Nat) : (s.fire fn v).filter = s.filter := rfl
@[simp] theorem State.fire_wakes (s : State) (fn v : Nat) : (s.fire fn v).wakes = s.wakes := rfl
@[simp] theorem State.fire_batches (s : State) (fn v : Nat) : (s.fire fn v).batches = s.batches := rfl
@[simp] theorem State.fire_cmds (s : State) (fn v : Nat) : (s.fire fn v).cmds = s.cmds := rfl
@[simp] theorem State.fire_cmdSeq (s : State) (fn v : Nat) : (s.fire fn v).cmdSeq = s.cmdSeq := rfl
@[simp] theorem State.fire_rlt (s : State) (fn v : Nat) : (s.fire fn v).rlt = s.rlt := rfl
@[simp] theorem State.fire_teams (s : State) (fn v : Nat) : (s.fire fn v).teams = s.teams := rfl
@[simp] theorem State.fire_grids (s : State) (fn v : Nat) : (s.fire fn v).grids = s.grids := rfl
@[simp] theorem State.fire_children (s : State) (fn v : Nat) : (s.fire fn v).children = s.children := rfl
@[simp] theorem State.fire_parts (s : State) (fn v : Nat) : (s.fire fn v).parts = s.parts := rfl
@[simp] theorem State.fire_pwc (s : State) (fn v : Nat) : (s.fire fn v).pwc = s.pwc := rfl
@[simp] theorem State.fire_dies (s : State) (fn v : Nat) : (s.fire fn v).dies = s.dies := rfl
@[simp] theorem State.fire_pairs (s : State) (fn v : Nat) : (s.fire fn v).pairs = s.pairs := rfl
@[simp] theorem State.fire_lcr (s : State) (fn v : Nat) : (s.fire fn v).lcr = s.lcr := rfl
@[simp] theorem State.fire_lastBeat (s : State) (fn v : Nat) : (s.fire fn v).lastBeat = s.lastBeat := rfl
@[simp] theorem State.fire_railClocks (s : State) (fn v : Nat) : (s.fire fn v).railClocks = s.railClocks := rfl
@[simp] theorem State.fire_ccLast (s : State) (fn v : Nat) : (s.fire fn v).ccLast = s.ccLast := rfl
@[simp] theorem State.fire_sampleRail (s : State) (fn v : Nat) : (s.fire fn v).sampleRail = s.sampleRail := rfl
@[simp] theorem State.fire_clusterOwner (s : State) (fn v : Nat) : (s.fire fn v).clusterOwner = s.clusterOwner := rfl
@[simp] theorem State.fire_ageSeq (s : State) (fn v : Nat) : (s.fire fn v).ageSeq = s.ageSeq := rfl
@[simp] theorem State.fire_rankSeq (s : State) (fn v : Nat) : (s.fire fn v).rankSeq = s.rankSeq := rfl
@[simp] theorem State.fire_orderSeq (s : State) (fn v : Nat) : (s.fire fn v).orderSeq = s.orderSeq := rfl
@[simp] theorem State.fire_beatSeq (s : State) (fn v : Nat) : (s.fire fn v).beatSeq = s.beatSeq := rfl
@[simp] theorem State.fire_devNum (s : State) (fn v : Nat) : (s.fire fn v).devNum = s.devNum := rfl
@[simp] theorem State.fire_bootStat (s : State) (fn v : Nat) : (s.fire fn v).bootStat = s.bootStat := rfl
@[simp] theorem State.fire_elBase (s : State) (fn v : Nat) : (s.fire fn v).elBase = s.elBase := rfl
@[simp] theorem State.fire_elCtl (s : State) (fn v : Nat) : (s.fire fn v).elCtl = s.elCtl := rfl
@[simp] theorem State.fire_elWr (s : State) (fn v : Nat) : (s.fire fn v).elWr = s.elWr := rfl
@[simp] theorem State.fire_elRd (s : State) (fn v : Nat) : (s.fire fn v).elRd = s.elRd := rfl
@[simp] theorem State.fire_cecnt (s : State) (fn v : Nat) : (s.fire fn v).cecnt = s.cecnt := rfl
@[simp] theorem State.fire_mdoor (s : State) (fn v : Nat) : (s.fire fn v).mdoor = s.mdoor := rfl
@[simp] theorem State.fire_hostData (s : State) (fn v : Nat) : (s.fire fn v).hostData = s.hostData := rfl
@[simp] theorem State.fire_peerData (s : State) (fn v : Nat) : (s.fire fn v).peerData = s.peerData := rfl
@[simp] theorem State.fire_msix (s : State) (fn v : Nat) : (s.fire fn v).msix = { fn := fn, vector := v } :: s.msix := rfl
@[simp] theorem State.fire_flash (s : State) (fn v : Nat) : (s.fire fn v).flash = s.flash := rfl
@[simp] theorem State.fire_fwTable (s : State) (fn v : Nat) : (s.fire fn v).fwTable = s.fwTable := rfl
@[simp] theorem State.fire_dmcErrors (s : State) (fn v : Nat) : (s.fire fn v).dmcErrors = s.dmcErrors := rfl
@[simp] theorem State.fire_flaws (s : State) (fn v : Nat) : (s.fire fn v).flaws = s.flaws := rfl

/-! ### `State.sendWake` -/

@[simp] theorem State.sendWake_agenda (s : State) (w : Wake) : (s.sendWake w).agenda = s.agenda := rfl
@[simp] theorem State.sendWake_fresh (s : State) (w : Wake) : (s.sendWake w).fresh = s.fresh := rfl
@[simp] theorem State.sendWake_cur (s : State) (w : Wake) : (s.sendWake w).cur = s.cur := rfl
@[simp] theorem State.sendWake_dtime (s : State) (w : Wake) : (s.sendWake w).dtime = s.dtime := rfl
@[simp] theorem State.sendWake_mem (s : State) (w : Wake) : (s.sendWake w).mem = s.mem := rfl
@[simp] theorem State.sendWake_writeSeq (s : State) (w : Wake) : (s.sendWake w).writeSeq = s.writeSeq := rfl
@[simp] theorem State.sendWake_lines (s : State) (w : Wake) : (s.sendWake w).lines = s.lines := rfl
@[simp] theorem State.sendWake_evMax (s : State) (w : Wake) : (s.sendWake w).evMax = s.evMax := rfl
@[simp] theorem State.sendWake_l1 (s : State) (w : Wake) : (s.sendWake w).l1 = s.l1 := rfl
@[simp] theorem State.sendWake_icache (s : State) (w : Wake) : (s.sendWake w).icache = s.icache := rfl
@[simp] theorem State.sendWake_tlb (s : State) (w : Wake) : (s.sendWake w).tlb = s.tlb := rfl
@[simp] theorem State.sendWake_mons (s : State) (w : Wake) : (s.sendWake w).mons = s.mons := rfl
@[simp] theorem State.sendWake_filter (s : State) (w : Wake) : (s.sendWake w).filter = s.filter := rfl
@[simp] theorem State.sendWake_wakes (s : State) (w : Wake) : (s.sendWake w).wakes = Tbl.ins s.wakes (Tbl.freshKey s.wakes) w := rfl
@[simp] theorem State.sendWake_batches (s : State) (w : Wake) : (s.sendWake w).batches = s.batches := rfl
@[simp] theorem State.sendWake_cmds (s : State) (w : Wake) : (s.sendWake w).cmds = s.cmds := rfl
@[simp] theorem State.sendWake_cmdSeq (s : State) (w : Wake) : (s.sendWake w).cmdSeq = s.cmdSeq := rfl
@[simp] theorem State.sendWake_rlt (s : State) (w : Wake) : (s.sendWake w).rlt = s.rlt := rfl
@[simp] theorem State.sendWake_teams (s : State) (w : Wake) : (s.sendWake w).teams = s.teams := rfl
@[simp] theorem State.sendWake_grids (s : State) (w : Wake) : (s.sendWake w).grids = s.grids := rfl
@[simp] theorem State.sendWake_children (s : State) (w : Wake) : (s.sendWake w).children = s.children := rfl
@[simp] theorem State.sendWake_parts (s : State) (w : Wake) : (s.sendWake w).parts = s.parts := rfl
@[simp] theorem State.sendWake_pwc (s : State) (w : Wake) : (s.sendWake w).pwc = s.pwc := rfl
@[simp] theorem State.sendWake_dies (s : State) (w : Wake) : (s.sendWake w).dies = s.dies := rfl
@[simp] theorem State.sendWake_pairs (s : State) (w : Wake) : (s.sendWake w).pairs = s.pairs := rfl
@[simp] theorem State.sendWake_lcr (s : State) (w : Wake) : (s.sendWake w).lcr = s.lcr := rfl
@[simp] theorem State.sendWake_lastBeat (s : State) (w : Wake) : (s.sendWake w).lastBeat = s.lastBeat := rfl
@[simp] theorem State.sendWake_railClocks (s : State) (w : Wake) : (s.sendWake w).railClocks = s.railClocks := rfl
@[simp] theorem State.sendWake_ccLast (s : State) (w : Wake) : (s.sendWake w).ccLast = s.ccLast := rfl
@[simp] theorem State.sendWake_sampleRail (s : State) (w : Wake) : (s.sendWake w).sampleRail = s.sampleRail := rfl
@[simp] theorem State.sendWake_clusterOwner (s : State) (w : Wake) : (s.sendWake w).clusterOwner = s.clusterOwner := rfl
@[simp] theorem State.sendWake_ageSeq (s : State) (w : Wake) : (s.sendWake w).ageSeq = s.ageSeq := rfl
@[simp] theorem State.sendWake_rankSeq (s : State) (w : Wake) : (s.sendWake w).rankSeq = s.rankSeq := rfl
@[simp] theorem State.sendWake_orderSeq (s : State) (w : Wake) : (s.sendWake w).orderSeq = s.orderSeq := rfl
@[simp] theorem State.sendWake_beatSeq (s : State) (w : Wake) : (s.sendWake w).beatSeq = s.beatSeq := rfl
@[simp] theorem State.sendWake_devNum (s : State) (w : Wake) : (s.sendWake w).devNum = s.devNum := rfl
@[simp] theorem State.sendWake_bootStat (s : State) (w : Wake) : (s.sendWake w).bootStat = s.bootStat := rfl
@[simp] theorem State.sendWake_elBase (s : State) (w : Wake) : (s.sendWake w).elBase = s.elBase := rfl
@[simp] theorem State.sendWake_elCtl (s : State) (w : Wake) : (s.sendWake w).elCtl = s.elCtl := rfl
@[simp] theorem State.sendWake_elWr (s : State) (w : Wake) : (s.sendWake w).elWr = s.elWr := rfl
@[simp] theorem State.sendWake_elRd (s : State) (w : Wake) : (s.sendWake w).elRd = s.elRd := rfl
@[simp] theorem State.sendWake_cecnt (s : State) (w : Wake) : (s.sendWake w).cecnt = s.cecnt := rfl
@[simp] theorem State.sendWake_mdoor (s : State) (w : Wake) : (s.sendWake w).mdoor = s.mdoor := rfl
@[simp] theorem State.sendWake_hostData (s : State) (w : Wake) : (s.sendWake w).hostData = s.hostData := rfl
@[simp] theorem State.sendWake_peerData (s : State) (w : Wake) : (s.sendWake w).peerData = s.peerData := rfl
@[simp] theorem State.sendWake_msix (s : State) (w : Wake) : (s.sendWake w).msix = s.msix := rfl
@[simp] theorem State.sendWake_flash (s : State) (w : Wake) : (s.sendWake w).flash = s.flash := rfl
@[simp] theorem State.sendWake_fwTable (s : State) (w : Wake) : (s.sendWake w).fwTable = s.fwTable := rfl
@[simp] theorem State.sendWake_dmcErrors (s : State) (w : Wake) : (s.sendWake w).dmcErrors = s.dmcErrors := rfl
@[simp] theorem State.sendWake_flaws (s : State) (w : Wake) : (s.sendWake w).flaws = s.flaws := rfl

/-! ### `State.setKind` -/

@[simp] theorem State.setKind_agenda (s : State) (n : Nat) (k : CmdKind) : (s.setKind n k).agenda = s.agenda := rfl
@[simp] theorem State.setKind_fresh (s : State) (n : Nat) (k : CmdKind) : (s.setKind n k).fresh = s.fresh := rfl
@[simp] theorem State.setKind_cur (s : State) (n : Nat) (k : CmdKind) : (s.setKind n k).cur = s.cur := rfl
@[simp] theorem State.setKind_dtime (s : State) (n : Nat) (k : CmdKind) : (s.setKind n k).dtime = s.dtime := rfl
@[simp] theorem State.setKind_mem (s : State) (n : Nat) (k : CmdKind) : (s.setKind n k).mem = s.mem := rfl
@[simp] theorem State.setKind_writeSeq (s : State) (n : Nat) (k : CmdKind) : (s.setKind n k).writeSeq = s.writeSeq := rfl
@[simp] theorem State.setKind_lines (s : State) (n : Nat) (k : CmdKind) : (s.setKind n k).lines = s.lines := rfl
@[simp] theorem State.setKind_evMax (s : State) (n : Nat) (k : CmdKind) : (s.setKind n k).evMax = s.evMax := rfl
@[simp] theorem State.setKind_l1 (s : State) (n : Nat) (k : CmdKind) : (s.setKind n k).l1 = s.l1 := rfl
@[simp] theorem State.setKind_icache (s : State) (n : Nat) (k : CmdKind) : (s.setKind n k).icache = s.icache := rfl
@[simp] theorem State.setKind_tlb (s : State) (n : Nat) (k : CmdKind) : (s.setKind n k).tlb = s.tlb := rfl
@[simp] theorem State.setKind_mons (s : State) (n : Nat) (k : CmdKind) : (s.setKind n k).mons = s.mons := rfl
@[simp] theorem State.setKind_filter (s : State) (n : Nat) (k : CmdKind) : (s.setKind n k).filter = s.filter := rfl
@[simp] theorem State.setKind_wakes (s : State) (n : Nat) (k : CmdKind) : (s.setKind n k).wakes = s.wakes := rfl
@[simp] theorem State.setKind_batches (s : State) (n : Nat) (k : CmdKind) : (s.setKind n k).batches = s.batches := rfl
@[simp] theorem State.setKind_cmds (s : State) (n : Nat) (k : CmdKind) : (s.setKind n k).cmds = Tbl.modify s.cmds n (fun c => { c with kind := k }) := rfl
@[simp] theorem State.setKind_cmdSeq (s : State) (n : Nat) (k : CmdKind) : (s.setKind n k).cmdSeq = s.cmdSeq := rfl
@[simp] theorem State.setKind_rlt (s : State) (n : Nat) (k : CmdKind) : (s.setKind n k).rlt = s.rlt := rfl
@[simp] theorem State.setKind_teams (s : State) (n : Nat) (k : CmdKind) : (s.setKind n k).teams = s.teams := rfl
@[simp] theorem State.setKind_grids (s : State) (n : Nat) (k : CmdKind) : (s.setKind n k).grids = s.grids := rfl
@[simp] theorem State.setKind_children (s : State) (n : Nat) (k : CmdKind) : (s.setKind n k).children = s.children := rfl
@[simp] theorem State.setKind_parts (s : State) (n : Nat) (k : CmdKind) : (s.setKind n k).parts = s.parts := rfl
@[simp] theorem State.setKind_pwc (s : State) (n : Nat) (k : CmdKind) : (s.setKind n k).pwc = s.pwc := rfl
@[simp] theorem State.setKind_dies (s : State) (n : Nat) (k : CmdKind) : (s.setKind n k).dies = s.dies := rfl
@[simp] theorem State.setKind_pairs (s : State) (n : Nat) (k : CmdKind) : (s.setKind n k).pairs = s.pairs := rfl
@[simp] theorem State.setKind_lcr (s : State) (n : Nat) (k : CmdKind) : (s.setKind n k).lcr = s.lcr := rfl
@[simp] theorem State.setKind_lastBeat (s : State) (n : Nat) (k : CmdKind) : (s.setKind n k).lastBeat = s.lastBeat := rfl
@[simp] theorem State.setKind_railClocks (s : State) (n : Nat) (k : CmdKind) : (s.setKind n k).railClocks = s.railClocks := rfl
@[simp] theorem State.setKind_ccLast (s : State) (n : Nat) (k : CmdKind) : (s.setKind n k).ccLast = s.ccLast := rfl
@[simp] theorem State.setKind_sampleRail (s : State) (n : Nat) (k : CmdKind) : (s.setKind n k).sampleRail = s.sampleRail := rfl
@[simp] theorem State.setKind_clusterOwner (s : State) (n : Nat) (k : CmdKind) : (s.setKind n k).clusterOwner = s.clusterOwner := rfl
@[simp] theorem State.setKind_ageSeq (s : State) (n : Nat) (k : CmdKind) : (s.setKind n k).ageSeq = s.ageSeq := rfl
@[simp] theorem State.setKind_rankSeq (s : State) (n : Nat) (k : CmdKind) : (s.setKind n k).rankSeq = s.rankSeq := rfl
@[simp] theorem State.setKind_orderSeq (s : State) (n : Nat) (k : CmdKind) : (s.setKind n k).orderSeq = s.orderSeq := rfl
@[simp] theorem State.setKind_beatSeq (s : State) (n : Nat) (k : CmdKind) : (s.setKind n k).beatSeq = s.beatSeq := rfl
@[simp] theorem State.setKind_devNum (s : State) (n : Nat) (k : CmdKind) : (s.setKind n k).devNum = s.devNum := rfl
@[simp] theorem State.setKind_bootStat (s : State) (n : Nat) (k : CmdKind) : (s.setKind n k).bootStat = s.bootStat := rfl
@[simp] theorem State.setKind_elBase (s : State) (n : Nat) (k : CmdKind) : (s.setKind n k).elBase = s.elBase := rfl
@[simp] theorem State.setKind_elCtl (s : State) (n : Nat) (k : CmdKind) : (s.setKind n k).elCtl = s.elCtl := rfl
@[simp] theorem State.setKind_elWr (s : State) (n : Nat) (k : CmdKind) : (s.setKind n k).elWr = s.elWr := rfl
@[simp] theorem State.setKind_elRd (s : State) (n : Nat) (k : CmdKind) : (s.setKind n k).elRd = s.elRd := rfl
@[simp] theorem State.setKind_cecnt (s : State) (n : Nat) (k : CmdKind) : (s.setKind n k).cecnt = s.cecnt := rfl
@[simp] theorem State.setKind_mdoor (s : State) (n : Nat) (k : CmdKind) : (s.setKind n k).mdoor = s.mdoor := rfl
@[simp] theorem State.setKind_hostData (s : State) (n : Nat) (k : CmdKind) : (s.setKind n k).hostData = s.hostData := rfl
@[simp] theorem State.setKind_peerData (s : State) (n : Nat) (k : CmdKind) : (s.setKind n k).peerData = s.peerData := rfl
@[simp] theorem State.setKind_msix (s : State) (n : Nat) (k : CmdKind) : (s.setKind n k).msix = s.msix := rfl
@[simp] theorem State.setKind_flash (s : State) (n : Nat) (k : CmdKind) : (s.setKind n k).flash = s.flash := rfl
@[simp] theorem State.setKind_fwTable (s : State) (n : Nat) (k : CmdKind) : (s.setKind n k).fwTable = s.fwTable := rfl
@[simp] theorem State.setKind_dmcErrors (s : State) (n : Nat) (k : CmdKind) : (s.setKind n k).dmcErrors = s.dmcErrors := rfl
@[simp] theorem State.setKind_flaws (s : State) (n : Nat) (k : CmdKind) : (s.setKind n k).flaws = s.flaws := rfl

/-! ### `State.modPair` -/

@[simp] theorem State.modPair_agenda (s : State) (p : Nat) (f : Pair → Pair) : (s.modPair p f).agenda = s.agenda := rfl
@[simp] theorem State.modPair_fresh (s : State) (p : Nat) (f : Pair → Pair) : (s.modPair p f).fresh = s.fresh := rfl
@[simp] theorem State.modPair_cur (s : State) (p : Nat) (f : Pair → Pair) : (s.modPair p f).cur = s.cur := rfl
@[simp] theorem State.modPair_dtime (s : State) (p : Nat) (f : Pair → Pair) : (s.modPair p f).dtime = s.dtime := rfl
@[simp] theorem State.modPair_mem (s : State) (p : Nat) (f : Pair → Pair) : (s.modPair p f).mem = s.mem := rfl
@[simp] theorem State.modPair_writeSeq (s : State) (p : Nat) (f : Pair → Pair) : (s.modPair p f).writeSeq = s.writeSeq := rfl
@[simp] theorem State.modPair_lines (s : State) (p : Nat) (f : Pair → Pair) : (s.modPair p f).lines = s.lines := rfl
@[simp] theorem State.modPair_evMax (s : State) (p : Nat) (f : Pair → Pair) : (s.modPair p f).evMax = s.evMax := rfl
@[simp] theorem State.modPair_l1 (s : State) (p : Nat) (f : Pair → Pair) : (s.modPair p f).l1 = s.l1 := rfl
@[simp] theorem State.modPair_icache (s : State) (p : Nat) (f : Pair → Pair) : (s.modPair p f).icache = s.icache := rfl
@[simp] theorem State.modPair_tlb (s : State) (p : Nat) (f : Pair → Pair) : (s.modPair p f).tlb = s.tlb := rfl
@[simp] theorem State.modPair_mons (s : State) (p : Nat) (f : Pair → Pair) : (s.modPair p f).mons = s.mons := rfl
@[simp] theorem State.modPair_filter (s : State) (p : Nat) (f : Pair → Pair) : (s.modPair p f).filter = s.filter := rfl
@[simp] theorem State.modPair_wakes (s : State) (p : Nat) (f : Pair → Pair) : (s.modPair p f).wakes = s.wakes := rfl
@[simp] theorem State.modPair_batches (s : State) (p : Nat) (f : Pair → Pair) : (s.modPair p f).batches = s.batches := rfl
@[simp] theorem State.modPair_cmds (s : State) (p : Nat) (f : Pair → Pair) : (s.modPair p f).cmds = s.cmds := rfl
@[simp] theorem State.modPair_cmdSeq (s : State) (p : Nat) (f : Pair → Pair) : (s.modPair p f).cmdSeq = s.cmdSeq := rfl
@[simp] theorem State.modPair_rlt (s : State) (p : Nat) (f : Pair → Pair) : (s.modPair p f).rlt = s.rlt := rfl
@[simp] theorem State.modPair_teams (s : State) (p : Nat) (f : Pair → Pair) : (s.modPair p f).teams = s.teams := rfl
@[simp] theorem State.modPair_grids (s : State) (p : Nat) (f : Pair → Pair) : (s.modPair p f).grids = s.grids := rfl
@[simp] theorem State.modPair_children (s : State) (p : Nat) (f : Pair → Pair) : (s.modPair p f).children = s.children := rfl
@[simp] theorem State.modPair_parts (s : State) (p : Nat) (f : Pair → Pair) : (s.modPair p f).parts = s.parts := rfl
@[simp] theorem State.modPair_pwc (s : State) (p : Nat) (f : Pair → Pair) : (s.modPair p f).pwc = s.pwc := rfl
@[simp] theorem State.modPair_dies (s : State) (p : Nat) (f : Pair → Pair) : (s.modPair p f).dies = s.dies := rfl
@[simp] theorem State.modPair_pairs (s : State) (p : Nat) (f : Pair → Pair) : (s.modPair p f).pairs = Tbl.ins s.pairs p (f (s.pair p)) := rfl
@[simp] theorem State.modPair_lcr (s : State) (p : Nat) (f : Pair → Pair) : (s.modPair p f).lcr = s.lcr := rfl
@[simp] theorem State.modPair_lastBeat (s : State) (p : Nat) (f : Pair → Pair) : (s.modPair p f).lastBeat = s.lastBeat := rfl
@[simp] theorem State.modPair_railClocks (s : State) (p : Nat) (f : Pair → Pair) : (s.modPair p f).railClocks = s.railClocks := rfl
@[simp] theorem State.modPair_ccLast (s : State) (p : Nat) (f : Pair → Pair) : (s.modPair p f).ccLast = s.ccLast := rfl
@[simp] theorem State.modPair_sampleRail (s : State) (p : Nat) (f : Pair → Pair) : (s.modPair p f).sampleRail = s.sampleRail := rfl
@[simp] theorem State.modPair_clusterOwner (s : State) (p : Nat) (f : Pair → Pair) : (s.modPair p f).clusterOwner = s.clusterOwner := rfl
@[simp] theorem State.modPair_ageSeq (s : State) (p : Nat) (f : Pair → Pair) : (s.modPair p f).ageSeq = s.ageSeq := rfl
@[simp] theorem State.modPair_rankSeq (s : State) (p : Nat) (f : Pair → Pair) : (s.modPair p f).rankSeq = s.rankSeq := rfl
@[simp] theorem State.modPair_orderSeq (s : State) (p : Nat) (f : Pair → Pair) : (s.modPair p f).orderSeq = s.orderSeq := rfl
@[simp] theorem State.modPair_beatSeq (s : State) (p : Nat) (f : Pair → Pair) : (s.modPair p f).beatSeq = s.beatSeq := rfl
@[simp] theorem State.modPair_devNum (s : State) (p : Nat) (f : Pair → Pair) : (s.modPair p f).devNum = s.devNum := rfl
@[simp] theorem State.modPair_bootStat (s : State) (p : Nat) (f : Pair → Pair) : (s.modPair p f).bootStat = s.bootStat := rfl
@[simp] theorem State.modPair_elBase (s : State) (p : Nat) (f : Pair → Pair) : (s.modPair p f).elBase = s.elBase := rfl
@[simp] theorem State.modPair_elCtl (s : State) (p : Nat) (f : Pair → Pair) : (s.modPair p f).elCtl = s.elCtl := rfl
@[simp] theorem State.modPair_elWr (s : State) (p : Nat) (f : Pair → Pair) : (s.modPair p f).elWr = s.elWr := rfl
@[simp] theorem State.modPair_elRd (s : State) (p : Nat) (f : Pair → Pair) : (s.modPair p f).elRd = s.elRd := rfl
@[simp] theorem State.modPair_cecnt (s : State) (p : Nat) (f : Pair → Pair) : (s.modPair p f).cecnt = s.cecnt := rfl
@[simp] theorem State.modPair_mdoor (s : State) (p : Nat) (f : Pair → Pair) : (s.modPair p f).mdoor = s.mdoor := rfl
@[simp] theorem State.modPair_hostData (s : State) (p : Nat) (f : Pair → Pair) : (s.modPair p f).hostData = s.hostData := rfl
@[simp] theorem State.modPair_peerData (s : State) (p : Nat) (f : Pair → Pair) : (s.modPair p f).peerData = s.peerData := rfl
@[simp] theorem State.modPair_msix (s : State) (p : Nat) (f : Pair → Pair) : (s.modPair p f).msix = s.msix := rfl
@[simp] theorem State.modPair_flash (s : State) (p : Nat) (f : Pair → Pair) : (s.modPair p f).flash = s.flash := rfl
@[simp] theorem State.modPair_fwTable (s : State) (p : Nat) (f : Pair → Pair) : (s.modPair p f).fwTable = s.fwTable := rfl
@[simp] theorem State.modPair_dmcErrors (s : State) (p : Nat) (f : Pair → Pair) : (s.modPair p f).dmcErrors = s.dmcErrors := rfl
@[simp] theorem State.modPair_flaws (s : State) (p : Nat) (f : Pair → Pair) : (s.modPair p f).flaws = s.flaws := rfl

end Sys2Proof.Machine
end

