-- ==== Sys2Proof/Laws/Tables.lean ====
section
/-! SUPPORT. Laws of sparse tables: what a read gives after an insertion, a removal or a change, and that `put` keeps the canonical form. -/

namespace Sys2Proof

variable {α : Type}

@[simp] theorem Tbl.find?_nil (k : Nat) : Tbl.find? ([] : Tbl α) k = none := rfl

theorem Tbl.find?_ins_same (m : Tbl α) (k : Nat) (v : α) : Tbl.find? (Tbl.ins m k v) k = some v := by
  induction m with
  | nil => simp [Tbl.ins, Tbl.find?]
  | cons e rest ih =>
    obtain ⟨j, x⟩ := e
    by_cases h1 : k < j
    · simp [Tbl.ins, h1, Tbl.find?]
    · by_cases h2 : j = k <;> simp [Tbl.ins, h1, h2, Tbl.find?, ih]

theorem Tbl.find?_ins_other (m : Tbl α) {k n : Nat} (v : α) (h : n ≠ k) : Tbl.find? (Tbl.ins m k v) n = Tbl.find? m n := by
  induction m with
  | nil => simp [Tbl.ins, Tbl.find?, h.symm]
  | cons e rest ih =>
    obtain ⟨j, x⟩ := e
    by_cases h1 : k < j
    · simp [Tbl.ins, h1, Tbl.find?, h.symm]
    · by_cases h2 : j = k
      · subst h2; simp [Tbl.ins, Tbl.find?, h.symm]
      · simp [Tbl.ins, h1, h2, Tbl.find?, ih]

/-- Reading a table after an insertion. -/
theorem Tbl.find?_ins (m : Tbl α) (k n : Nat) (v : α) : Tbl.find? (Tbl.ins m k v) n = if n = k then some v else Tbl.find? m n := by
  by_cases h : n = k
  · subst h; simp [Tbl.find?_ins_same]
  · simp [h, Tbl.find?_ins_other m v h]

/-- Reading a table after a change under one key. -/
theorem Tbl.find?_modify (m : Tbl α) (k n : Nat) (f : α → α) :
    Tbl.find? (Tbl.modify m k f) n = if n = k then (Tbl.find? m n).map f else Tbl.find? m n := by
  induction m with
  | nil => simp [Tbl.modify, Tbl.find?]
  | cons e rest ih =>
    obtain ⟨j, x⟩ := e
    by_cases h1 : j = k
    · subst h1
      by_cases h2 : n = j
      · subst h2; simp [Tbl.modify, Tbl.find?]
      · simp [Tbl.modify, Tbl.find?, h2, Ne.symm h2]
    · by_cases h2 : n = k
      · subst h2; simp [Tbl.modify, Tbl.find?, h1, ih]
      · by_cases h3 : j = n
        · subst h3; simp [Tbl.modify, Tbl.find?, h1]
        · simp [Tbl.modify, Tbl.find?, h1, h2, h3, ih]

theorem Tbl.find?_modify_same (m : Tbl α) (k : Nat) (f : α → α) : Tbl.find? (Tbl.modify m k f) k = (Tbl.find? m k).map f := by
  simp [Tbl.find?_modify]

theorem Tbl.find?_modify_other (m : Tbl α) {k n : Nat} (f : α → α) (h : n ≠ k) : Tbl.find? (Tbl.modify m k f) n = Tbl.find? m n := by
  simp [Tbl.find?_modify, h]

/-! ### Rising keys -/

/-- Every key of a rising table lies above its bound. -/
theorem Tbl.rising_above {m : Tbl α} {l : Nat} (h : Tbl.rising (some l) m = true) {e : Nat × α} (he : e ∈ m) : l < e.1 := by
  induction m generalizing l with
  | nil => cases he
  | cons x rest ih =>
    obtain ⟨j, v⟩ := x
    simp only [Tbl.rising, Bool.and_eq_true, decide_eq_true_eq] at h
    rcases List.mem_cons.mp he with rfl | hin
    · exact h.1
    · exact Nat.lt_trans h.1 (ih h.2 hin)

/-- A bound may be lowered or left out. -/
theorem Tbl.rising_weaken {m : Tbl α} {l : Nat} (h : Tbl.rising (some l) m = true) {o : Option Nat}
    (ho : ∀ k, o = some k → k ≤ l) : Tbl.rising o m = true := by
  cases m with
  | nil => rfl
  | cons x rest =>
    obtain ⟨j, v⟩ := x
    simp only [Tbl.rising, Bool.and_eq_true, decide_eq_true_eq] at h ⊢
    refine ⟨?_, h.2⟩
    cases o with
    | none => rfl
    | some k => exact decide_eq_true (Nat.lt_of_le_of_lt (ho k rfl) h.1)

theorem Tbl.rising_ins {m : Tbl α} {o : Option Nat} (h : Tbl.rising o m = true) (k : Nat) (v : α)
    (ho : ∀ l, o = some l → l < k) : Tbl.rising o (Tbl.ins m k v) = true := by
  induction m generalizing o with
  | nil =>
    cases o with
    | none => rfl
    | some l => simp [Tbl.ins, Tbl.rising, ho l rfl]
  | cons x rest ih =>
    obtain ⟨j, y⟩ := x
    simp only [Tbl.rising, Bool.and_eq_true] at h
    by_cases h1 : k < j
    · simp only [Tbl.ins, h1, if_true, Tbl.rising, Bool.and_eq_true, decide_eq_true_eq]
      refine ⟨?_, trivial, h.2⟩
      cases o with
      | none => rfl
      | some l => exact decide_eq_true (ho l rfl)
    · by_cases h2 : j = k
      · subst h2
        simp only [Tbl.ins, h1, if_false, if_true, Tbl.rising, Bool.and_eq_true]
        exact ⟨h.1, h.2⟩
      · simp only [Tbl.ins, h1, h2, if_false, Tbl.rising, Bool.and_eq_true]
        exact ⟨h.1, ih h.2 fun l hl => by cases hl; omega⟩

theorem Tbl.rising_del {m : Tbl α} {o : Option Nat} (h : Tbl.rising o m = true) (k : Nat) : Tbl.rising o (Tbl.del m k) = true := by
  induction m generalizing o with
  | nil => exact h
  | cons x rest ih =>
    obtain ⟨j, y⟩ := x
    simp only [Tbl.rising, Bool.and_eq_true] at h
    by_cases h1 : j = k
    · simp only [Tbl.del, h1, if_true]
      refine ih (Tbl.rising_weaken h.2 fun l hl => ?_)
      subst hl
      have := h.1
      simp only [decide_eq_true_eq] at this
      omega
    · simp only [Tbl.del, h1, if_false, Tbl.rising, Bool.and_eq_true]
      exact ⟨h.1, ih h.2⟩

/-- Reading a table after a removal. -/
theorem Tbl.find?_del (m : Tbl α) (k n : Nat) : Tbl.find? (Tbl.del m k) n = if n = k then none else Tbl.find? m n := by
  induction m with
  | nil => simp [Tbl.del, Tbl.find?]
  | cons x rest ih =>
    obtain ⟨j, y⟩ := x
    by_cases h1 : j = k
    · subst h1
      by_cases h2 : n = j
      · subst h2
        simpa [Tbl.del] using ih
      · simp [Tbl.del, Tbl.find?, h2, Ne.symm h2, ih]
    · by_cases h2 : n = k
      · subst h2; simp [Tbl.del, Tbl.find?, h1, ih]
      · by_cases h3 : j = n
        · subst h3; simp [Tbl.del, Tbl.find?, h1]
        · simp [Tbl.del, Tbl.find?, h1, h2, h3, ih]

/-! ### Ranges -/

/-- Part of a range read is that part read. -/
theorem Tbl.getMany_take (d : α) (m : Tbl α) (k : Nat) (n j : Nat) (h : j ≤ n) : (Tbl.getMany d m k n).take j = Tbl.getMany d m k j := by
  induction n generalizing k j with
  | zero => simp_all [Tbl.getMany]
  | succ n ih =>
    cases j with
    | zero => rfl
    | succ j => simp [Tbl.getMany, ih (k + 1) j (by omega)]

theorem Tbl.getMany_drop (d : α) (m : Tbl α) (k n j : Nat) (h : j ≤ n) : (Tbl.getMany d m k n).drop j = Tbl.getMany d m (k + j) (n - j) := by
  induction j generalizing k n with
  | zero => rfl
  | succ j ih =>
    cases n with
    | zero => omega
    | succ n =>
      simp only [Tbl.getMany, List.drop_succ_cons]
      rw [ih (k + 1) n (by omega)]
      congr 1
      · omega
      · omega

theorem Tbl.length_getMany (d : α) (m : Tbl α) (k n : Nat) : (Tbl.getMany d m k n).length = n := by
  induction n generalizing k with
  | zero => rfl
  | succ n ih => simp [Tbl.getMany, ih]

/-- Ranges that read alike byte by byte read alike. -/
theorem Tbl.getMany_congr {d : α} {m m' : Tbl α} {k n : Nat} (h : ∀ i, k ≤ i → i < k + n → Tbl.get d m i = Tbl.get d m' i) :
    Tbl.getMany d m k n = Tbl.getMany d m' k n := by
  induction n generalizing k with
  | zero => rfl
  | succ n ih =>
    simp only [Tbl.getMany]
    rw [h k (by omega) (by omega), ih fun i hi hi2 => h i (by omega) (by omega)]

/-! ### The canonical form -/

theorem Tbl.wf_iff [DecidableEq α] (d : α) (m : Tbl α) : Tbl.wf d m = true ↔ Tbl.rising none m = true ∧ ∀ e ∈ m, e.2 ≠ d := by
  simp [Tbl.wf]

theorem Tbl.mem_ins {m : Tbl α} {k : Nat} {v : α} {e : Nat × α} (h : e ∈ Tbl.ins m k v) : e = (k, v) ∨ e ∈ m := by
  induction m with
  | nil => simpa [Tbl.ins] using h
  | cons x rest ih =>
    obtain ⟨j, y⟩ := x
    by_cases h1 : k < j
    · simpa [Tbl.ins, h1] using h
    · by_cases h2 : j = k
      · subst h2
        simp only [Tbl.ins, Nat.lt_irrefl, if_false, if_true, List.mem_cons] at h ⊢
        exact h.imp id Or.inr
      · simp only [Tbl.ins, h1, h2, if_false, List.mem_cons] at h ⊢
        rcases h with h | h
        · exact Or.inr (Or.inl h)
        · rcases ih h with h | h
          · exact Or.inl h
          · exact Or.inr (Or.inr h)

theorem Tbl.mem_del {m : Tbl α} {k : Nat} {e : Nat × α} (h : e ∈ Tbl.del m k) : e ∈ m := by
  induction m with
  | nil => exact h
  | cons x rest ih =>
    obtain ⟨j, y⟩ := x
    by_cases h1 : j = k
    · simp only [Tbl.del, h1, if_true] at h
      exact List.mem_cons_of_mem _ (ih h)
    · simp only [Tbl.del, h1, if_false, List.mem_cons] at h ⊢
      exact h.imp id ih

variable [DecidableEq α]

/-- A put keeps the canonical form. -/
theorem Tbl.wf_put {d : α} {m : Tbl α} (h : Tbl.wf d m = true) (k : Nat) (v : α) : Tbl.wf d (Tbl.put d m k v) = true := by
  rw [Tbl.wf_iff] at h ⊢
  by_cases hv : v = d
  · simp only [Tbl.put, hv, if_true]
    exact ⟨Tbl.rising_del h.1 k, fun e he => h.2 e (Tbl.mem_del he)⟩
  · simp only [Tbl.put, hv, if_false]
    refine ⟨Tbl.rising_ins h.1 k v (by simp), fun e he => ?_⟩
    rcases Tbl.mem_ins he with rfl | he
    · exact hv
    · exact h.2 e he

/-- Consecutive puts keep the canonical form. -/
theorem Tbl.wf_putMany {d : α} {m : Tbl α} (h : Tbl.wf d m = true) (k : Nat) (vs : List α) :
    Tbl.wf d (Tbl.putMany d m k vs) = true := by
  induction vs generalizing m k with
  | nil => exact h
  | cons v vs ih => exact ih (Tbl.wf_put h k v) (k + 1)

/-- What a put value reads as, and that every other key reads as before. -/
theorem Tbl.get_put (d : α) (m : Tbl α) (k n : Nat) (v : α) :
    Tbl.get d (Tbl.put d m k v) n = if n = k then v else Tbl.get d m n := by
  by_cases hv : v = d
  · subst hv
    simp only [Tbl.get, Tbl.put, if_true, Tbl.find?_del]
    by_cases hn : n = k <;> simp [hn]
  · simp only [Tbl.get, Tbl.put, hv, if_false, Tbl.find?_ins]
    by_cases hn : n = k <;> simp [hn]

/-- Consecutive puts leave every key outside their range alone. -/
theorem Tbl.get_putMany_other (d : α) (m : Tbl α) (k n : Nat) (vs : List α) (hn : n < k ∨ k + vs.length ≤ n) :
    Tbl.get d (Tbl.putMany d m k vs) n = Tbl.get d m n := by
  induction vs generalizing m k with
  | nil => rfl
  | cons v vs ih =>
    simp only [List.length_cons] at hn
    rw [Tbl.putMany, ih _ (k + 1) (by omega), Tbl.get_put]
    have : n ≠ k := by omega
    simp [this]

/-- Consecutive puts read back. -/
theorem Tbl.getMany_putMany (d : α) (m : Tbl α) (k : Nat) (vs : List α) : Tbl.getMany d (Tbl.putMany d m k vs) k vs.length = vs := by
  induction vs generalizing m k with
  | nil => rfl
  | cons v vs ih =>
    simp only [List.length_cons, Tbl.getMany, Tbl.putMany]
    rw [ih _ (k + 1), Tbl.get_putMany_other d _ (k + 1) k vs (by omega), Tbl.get_put]
    simp

end Sys2Proof
end

