-- ==== Sys2Proof/Laws/Agents.lean ====
section
/-! SUPPORT. Laws of teams, agents and registers: what a read gives after an update. -/

namespace Sys2Proof.Machine

/-! ### Teams and agents -/

theorem State.team_modTeam (s : State) (n k : Nat) (f : Team → Team) :
    (s.modTeam n f).team k = if k = n then (s.team k).map f else s.team k := Tbl.find?_modify s.teams n k f

@[simp] theorem State.team_modTeam_same (s : State) (n : Nat) (f : Team → Team) : (s.modTeam n f).team n = (s.team n).map f := by
  simp [State.team_modTeam]

theorem State.team_setTeam (s : State) (n k : Nat) (t : Team) : (s.setTeam n t).team k = if k = n then some t else s.team k :=
  Tbl.find?_ins s.teams n k t

/-- Agents after a team has changed: those of other teams stay. -/
theorem State.agent_modTeam (s : State) (n : Nat) (f : Team → Team) (a : AgentId) :
    (s.modTeam n f).agent a = if a.team = n then ((s.team a.team).map f).bind fun t => Tbl.find? t.agents a.who else s.agent a := by
  unfold State.agent
  rw [State.team_modTeam]
  split <;> rfl

/-- A change of a team that leaves its agents alone leaves every agent alone. -/
theorem State.agent_modTeam_keep (s : State) (n : Nat) (f : Team → Team) (hf : ∀ t, (f t).agents = t.agents) (a : AgentId) :
    (s.modTeam n f).agent a = s.agent a := by
  rw [State.agent_modTeam]
  split
  · rename_i h
    subst h
    unfold State.agent
    cases s.team a.team <;> simp [hf]
  · rfl

/-- Agents after one has changed. -/
theorem State.agent_modAgent (s : State) (a c : AgentId) (f : Agent → Agent) :
    (s.modAgent a f).agent c = if c = a then (s.agent c).map f else s.agent c := by
  unfold State.modAgent
  rw [State.agent_modTeam]
  by_cases h : c = a
  · subst h
    simp only [if_true, State.agent]
    cases s.team c.team with
    | none => rfl
    | some t => simp [Tbl.find?_modify]
  · simp only [h, if_false]
    split
    · rename_i ht
      unfold State.agent
      cases s.team c.team with
      | none => rfl
      | some t =>
        have hw : c.who ≠ a.who := fun hw => h (by cases c; cases a; simp_all)
        simp [Tbl.find?_modify, hw]
    · rfl

@[simp] theorem State.agent_modAgent_same (s : State) (a : AgentId) (f : Agent → Agent) : (s.modAgent a f).agent a = (s.agent a).map f := by
  simp [State.agent_modAgent]

/-- A team whose agent has changed. -/
theorem State.team_modAgent (s : State) (a : AgentId) (f : Agent → Agent) (n : Nat) :
    (s.modAgent a f).team n = if n = a.team then (s.team n).map (fun t => { t with agents := Tbl.modify t.agents a.who f }) else s.team n :=
  State.team_modTeam s a.team n _

/-! ### Registers -/

/-- Lane register (i, r) as the key of its entry. -/
theorem lane_key {i r k q : Nat} (hr : r < 128) (hq : q < 128) (h : 128 * i + r = 128 * k + q) : i = k ∧ r = q := by omega

theorem Agent.getV_write_v (x : Agent) (i r k q : Nat) (y : W32) :
    (x.write (.v i r y)).getV k q = if 128 * k + q = 128 * i + r then y else x.getV k q := by
  simp only [Agent.write, Agent.getV, Tbl.get_put]

theorem Agent.getU_write_u (x : Agent) (r q : Nat) (y : W64) :
    (x.write (.u r y)).getU q = if q = r then y else x.getU q := by
  simp only [Agent.write, Agent.getU, Tbl.get_put]

@[simp] theorem Agent.getU_write_v (x : Agent) (i r q : Nat) (y : W32) : (x.write (.v i r y)).getU q = x.getU q := rfl
@[simp] theorem Agent.getP_write_v (x : Agent) (i r q k : Nat) (y : W32) : (x.write (.v i r y)).getP q k = x.getP q k := rfl
@[simp] theorem Agent.getV_write_u (x : Agent) (r q k : Nat) (y : W64) : (x.write (.u r y)).getV q k = x.getV q k := rfl
@[simp] theorem Agent.getP_write_u (x : Agent) (r q k : Nat) (y : W64) : (x.write (.u r y)).getP q k = x.getP q k := rfl

@[simp] theorem Agent.getV_write_p (x : Agent) (r i q k : Nat) (b : Bool) : (x.write (.p r i b)).getV q k = x.getV q k := by
  simp only [Agent.write]; split <;> rfl
@[simp] theorem Agent.getU_write_p (x : Agent) (r i q : Nat) (b : Bool) : (x.write (.p r i b)).getU q = x.getU q := by
  simp only [Agent.write]; split <;> rfl

/-- A write touches registers and their bits only. -/
theorem Agent.write_frame (x : Agent) (w : RegWrite) :
    (x.write w).lanes = x.lanes ∧ (x.write w).p = x.p ∧ (x.write w).f = x.f ∧ (x.write w).n = x.n ∧ (x.write w).kind = x.kind ∧
      (x.write w).issue = x.issue ∧ (x.write w).arr = x.arr ∧ (x.write w).fp = x.fp ∧ (x.write w).pend = x.pend ∧
      (x.write w).acks = x.acks ∧ (x.write w).gwct = x.gwct ∧ (x.write w).cseq = x.cseq := by
  cases w <;> simp only [Agent.write] <;> (try split) <;> simp

/-- Two writes name one register. -/
def RegWrite.sameReg : RegWrite → RegWrite → Bool
  | .v i r _, .v k q _ => 128 * i + r == 128 * k + q
  | .u r _, .u q _ => r == q
  | .p r i _, .p q k _ => r == q && i == k
  | _, _ => false

end Sys2Proof.Machine
end

