-- ==== Sys2Proof/Laws/Memory.lean ====
section
/-! SUPPORT. Laws of memory: every operation keeps its canonical form, a write reads back, and it leaves every other byte alone. -/

namespace Sys2Proof.Machine

/-- Memory after reset has the canonical form. -/
theorem reset_memory_wf : Memory.wf State.reset.mem := rfl

theorem Memory.wf_rising {m : Tbl Byte} (h : Memory.wf m) : Tbl.rising none m = true := ((Tbl.wf_iff 0 m).mp h).1

/-- Putting bytes keeps the canonical form. -/
theorem State.poke_wf {s : State} (h : Memory.wf s.mem) (l : Nat) (bs : List Byte) : Memory.wf (s.poke l bs).mem := Tbl.wf_putMany h l bs

theorem Tbl.rising_filter {α : Type} {m : Tbl α} {o : Option Nat} (h : Tbl.rising o m = true) (p : Nat × α → Bool) :
    Tbl.rising o (m.filter p) = true := by
  induction m generalizing o with
  | nil => exact h
  | cons x rest ih =>
    obtain ⟨j, y⟩ := x
    simp only [Tbl.rising, Bool.and_eq_true] at h
    rw [List.filter_cons]
    split
    · simp only [Tbl.rising, Bool.and_eq_true]
      exact ⟨h.1, ih h.2⟩
    · refine Tbl.rising_weaken (ih h.2) fun l hl => ?_
      subst hl
      have := h.1
      simp only [decide_eq_true_eq] at this
      omega

/-- Taking bytes out keeps the canonical form. -/
theorem Memory.wf_filter {m : Tbl Byte} (h : Memory.wf m) (p : Nat × Byte → Bool) : Memory.wf (m.filter p) := by
  have h1 := (Tbl.wf_iff 0 m).mp h
  exact (Tbl.wf_iff 0 _).mpr ⟨Tbl.rising_filter h1.1 p, fun e he => h1.2 e (List.mem_filter.mp he).1⟩

theorem State.clear_wf {s : State} (h : Memory.wf s.mem) (l n : Nat) : Memory.wf (s.clear l n).mem := Memory.wf_filter h _

/-- What has been put reads back. -/
theorem State.read_poke (s : State) (l : Nat) (bs : List Byte) : (s.poke l bs).read l bs.length = bs :=
  Tbl.getMany_putMany 0 s.mem l bs

/-- Every byte outside the range that is put reads as before. -/
theorem State.get_poke_other (s : State) (l n : Nat) (bs : List Byte) (hn : n < l ∨ l + bs.length ≤ n) :
    Tbl.get 0 (s.poke l bs).mem n = Tbl.get 0 s.mem n := Tbl.get_putMany_other 0 s.mem l n bs hn

/-- Reads of memory depend on memory only. -/
theorem State.read_congr {s t : State} (h : s.mem = t.mem) (l n : Nat) : s.read l n = t.read l n := by
  unfold State.read; rw [h]

/-! ### Writes at a place -/

/-- No line that stores an uncorrectable error is left where there was none. -/
def State.Clean (s t : State) : Prop := s.flaws = [] → t.flaws = []

/-- What only caches hold has changed: memory and the teams stay. -/
def State.SameData (s t : State) : Prop := t.mem = s.mem ∧ t.teams = s.teams ∧ s.Clean t

theorem State.SameData.refl (s : State) : s.SameData s := ⟨rfl, rfl, id⟩
theorem State.SameData.trans {s t u : State} (h : s.SameData t) (k : t.SameData u) : s.SameData u :=
  ⟨k.1.trans h.1, k.2.1.trans h.2.1, k.2.2 ∘ h.2.2⟩

theorem State.recall_same (s : State) (l : Nat) (but : Option Nat) : s.SameData (s.recall l but) := by
  simp only [State.recall]
  repeat' split
  all_goals first
    | exact State.SameData.refl s
    | exact ⟨rfl, rfl, fun h => by simp [h]⟩

theorem State.makeRoom_same (s : State) (slice l : Nat) (data : Bool) : s.SameData (s.makeRoom slice l data) := by
  simp only [State.makeRoom]
  repeat' split
  all_goals first
    | exact State.SameData.refl s
    | exact (s.recall_same _ none).trans ⟨rfl, rfl, id⟩

theorem State.touchLine_same (s : State) (p : Place) (pol : Nat) : s.SameData (s.touchLine p pol) := by
  simp only [State.touchLine]
  split
  · exact State.SameData.trans (t := s.unpin) ⟨rfl, rfl, id⟩ ((State.makeRoom_same _ _ _ _).trans ⟨rfl, rfl, id⟩)
  · exact ⟨rfl, rfl, id⟩

theorem State.rewritten_same (s : State) (l n : Nat) : s.SameData (s.rewritten l n) := by
  unfold State.rewritten
  split
  · exact ⟨rfl, rfl, fun h => by simp [h]⟩
  · exact .refl s

theorem State.l1Evict_same (s : State) (i : Nat) : s.SameData (s.l1Evict i) := by
  unfold State.l1Evict
  split
  · exact State.SameData.refl s
  · exact State.SameData.trans ⟨rfl, rfl, id⟩ (State.recall_same _ _ _)

theorem State.l1Put_same (s : State) (c : L1Line) : s.SameData (s.l1Put c) := by
  simp only [State.l1Put]
  repeat' split
  · exact ⟨rfl, rfl, id⟩
  · exact ⟨rfl, rfl, id⟩
  · exact ⟨(State.l1Evict_same _ _).1, (State.l1Evict_same _ _).2.1, fun h => (State.l1Evict_same _ _).2.2 h⟩

theorem State.fill_same (s : State) (cl part asid : Nat) (p : Place) (al : Bool) : s.SameData (s.fill cl part asid p al) := by
  simp only [State.fill]
  split
  · exact State.SameData.refl s
  · split
    · exact ⟨rfl, rfl, id⟩
    · exact State.SameData.trans ⟨rfl, rfl, id⟩ (State.l1Put_same _ _)

/-- A read leaves memory and the teams alone. -/
theorem State.readBy_same (s : State) (cl part asid : Nat) (p : Place) (n pol : Nat) : s.SameData (s.readBy cl part asid p n pol).2.2 := by
  simp only [State.readBy]
  repeat' split
  all_goals first
    | exact ⟨rfl, rfl, id⟩
    | exact ((s.recall_same _ none).trans (State.touchLine_same _ _ _)).trans (State.fill_same _ _ _ _ _ _)

theorem foldl_keeps {α β : Type} (p : β → Prop) (f : β → α → β) (l : List α) (h : ∀ b a, a ∈ l → p b → p (f b a)) (b : β) (hb : p b) :
    p (l.foldl f b) := by
  induction l generalizing b with
  | nil => exact hb
  | cons a l ih => exact ih (fun b a ha => h b a (List.mem_cons_of_mem _ ha)) (f b a) (h b a (List.mem_cons_self ..) hb)

theorem State.dropMons_wf {s : State} (h : Memory.wf s.mem) (gone : Mon → Bool) : Memory.wf (s.dropMons gone).mem := by
  refine foldl_keeps (fun t : State => Memory.wf t.mem) _ _ (fun t m _ ht => ?_) s h
  split
  · exact State.poke_wf ht _ _
  · exact ht

theorem State.compare_wf {s : State} (h : Memory.wf s.mem) (loc n c : Nat) : Memory.wf (s.compare loc n c).mem := by
  refine foldl_keeps (fun t : State => Memory.wf t.mem) _ _ (fun t m _ ht => ?_) _ (State.dropMons_wf h _)
  simpa using ht

/-- What a write at a slice does to its line before its bytes enter leaves memory and the teams alone. -/
theorem State.serialised_same (s : State) (p : Place) (n : Nat) (cl : Option Nat) (pol : Nat) :
    s.SameData (((({ s with writeSeq := s.writeSeq + 1 } : State).recall (p.loc / 128) cl).touchLine p pol).rewritten (p.loc / 128) n) :=
  (State.SameData.trans (t := { s with writeSeq := s.writeSeq + 1 }) ⟨rfl, rfl, id⟩ (State.recall_same _ _ _)).trans
    ((State.touchLine_same _ _ _).trans (State.rewritten_same _ _ _))

/-- A write at the owner of a place keeps the canonical form. -/
theorem State.writeWith_wf {s : State} (h : Memory.wf s.mem) (p : Place) (bs : List Byte) (cl : Option Nat) (pol : Nat) :
    Memory.wf (s.writeWith p bs cl pol).1.mem := by
  unfold State.writeWith
  cases p.owned with
  | slice =>
    simp only
    have h1 : Memory.wf (((({ s with writeSeq := s.writeSeq + 1 } : State).recall (p.loc / 128) cl).touchLine p pol).rewritten (p.loc / 128)
        bs.length).mem := by
      rw [(s.serialised_same p bs.length cl pol).1]; exact h
    split
    · simpa using State.poke_wf h1 _ _
    · refine State.compare_wf ?_ _ _ _
      split
      · simpa using State.poke_wf (s := State.makeRoom _ _ _ _) (by rw [(State.makeRoom_same _ _ _ _).1]; exact h1) _ _
      · simpa using State.poke_wf h1 _ _
  | scratch t => exact State.poke_wf h _ _
  | pinned => exact State.poke_wf h _ _
  | peer => exact State.poke_wf h _ _

theorem State.writeAt_wf {s : State} (h : Memory.wf s.mem) (p : Place) (bs : List Byte) (cl : Option Nat) :
    Memory.wf (s.writeAt p bs cl).1.mem := State.writeWith_wf h p bs cl 0

end Sys2Proof.Machine
end

