-- ==== Sys2Proof/Laws/Beats.lean ====
section
/-! SUPPORT. Laws of the sweep: a due beat performs its body, and accesses that perform, the census, the barriers' release and the count of a beat
leave every register file alone. -/

namespace Sys2Proof.Machine

/-! ### A due beat performs -/

/-- Nothing holds a due beat back. -/
theorem beatGate_due {i : Instr} {f : Fields} {s : State} {b : Beat} (h : Due i f s b) (hf : b.f = f) : beatGate s i b = .ready := by
  subst hf
  obtain ⟨-, -, ht, hr, hh, hrel⟩ := h
  have hif : (if decide (b.perf ≠ 0) = true then sourceLanes i b.f b.act b.perf else []) =
      (if b.perf ≠ 0 then sourceLanes i b.f b.act b.perf else []) := by simp
  simp only [beatGate, ht, Bool.not_true, Bool.false_eq_true, if_false, hif, hr]
  have h1 : ((shapeOf i b.f).mem && decide (b.perf ≠ 0) && b.x.pend.any fun e => decide (e.2.acq &&& b.perf ≠ 0)) = false := by
    cases hm : (shapeOf i b.f).mem with
    | false => rfl
    | true =>
      by_cases hp : b.perf = 0
      · simp [hp]
      · rw [hh hm hp]; simp
  rw [h1, if_neg Bool.false_ne_true]
  refine if_neg fun hc => ?_
  simp only [Bool.and_eq_true, decide_eq_true_eq] at hc
  obtain ⟨⟨hp, hn⟩, hm⟩ := hc
  split at hm
  · rename_i sc hs
    rcases hrel sc hs hp with h | h <;> simp [h] at hn hm
  · exact Bool.false_ne_true hm

/-- What `issueBeat` does with a due beat: its body performs on the state in which the beat's lanes have advanced. -/
theorem issueBeat_due {i : Instr} {f : Fields} {s : State} {b : Beat} (h : Due i f s b) (body : Beat → State → Out) :
    issueBeat i f s body = .next ((s.waited b.a).conclude b (shapeOf i f).whole (body b (s.begun b))) := by
  obtain ⟨r, hc, hr, hb⟩ := h.now
  have hf : b.f = f := by rw [hb]; rfl
  have hg := beatGate_due h hf
  unfold issueBeat
  simp only [hc, hr]
  rw [← hb]
  simp only [hg, reduceCtorEq, if_false]
  rfl

/-! ### Register files and lanes are kept -/

/-- Where no line stores an uncorrectable error, none does, and every agent's register file and lanes are as before. (A read of such a line ends its
context, R351.) -/
structure State.Keeps (s t : State) : Prop where
  clean : s.Clean t
  agent : s.flaws = [] → ∀ c, t.regsOf c = s.regsOf c ∧ t.lanesOf c = s.lanesOf c

theorem State.Keeps.refl (s : State) : s.Keeps s := ⟨id, fun _ _ => ⟨rfl, rfl⟩⟩
theorem State.Keeps.trans {s t u : State} (h : s.Keeps t) (k : t.Keeps u) : s.Keeps u :=
  ⟨k.clean ∘ h.clean, fun hs c => ⟨(k.agent (h.clean hs) c).1.trans (h.agent hs c).1, (k.agent (h.clean hs) c).2.trans (h.agent hs c).2⟩⟩

theorem State.agent_congr {s t : State} (h : s.teams = t.teams) (c : AgentId) : s.agent c = t.agent c := by
  unfold State.agent State.team; rw [h]

/-- Register files and lanes depend on the teams only. -/
theorem State.Keeps.of_teams {s t : State} (h : t.teams = s.teams) (hf : s.Clean t) : s.Keeps t := ⟨hf, fun _ c => by
  unfold State.regsOf State.lanesOf; rw [State.agent_congr h]; exact ⟨rfl, rfl⟩⟩

theorem State.SameData.keeps {s t : State} (h : s.SameData t) : s.Keeps t := .of_teams h.2.1 h.2.2

theorem State.keeps_modTeam (s : State) (n : Nat) (f : Team → Team) (hf : ∀ t, (f t).agents = t.agents) : s.Keeps (s.modTeam n f) := ⟨id, fun _ c => by
  unfold State.regsOf State.lanesOf; rw [State.agent_modTeam_keep s n f hf]; exact ⟨rfl, rfl⟩⟩

theorem State.keeps_modAgent (s : State) (a : AgentId) (f : Agent → Agent) (hf : ∀ x, (f x).regs = x.regs ∧ (f x).lanes = x.lanes) :
    s.Keeps (s.modAgent a f) := by
  refine ⟨id, fun _ c => ?_⟩
  unfold State.regsOf State.lanesOf
  rw [State.agent_modAgent]
  split
  · cases s.agent c <;> simp [hf]
  · exact ⟨rfl, rfl⟩

theorem State.regsOf_modAgent (s : State) (a : AgentId) (f : Agent → Agent) (hf : ∀ x, (f x).regs = x.regs) (c : AgentId) :
    (s.modAgent a f).regsOf c = s.regsOf c := by
  unfold State.regsOf
  rw [State.agent_modAgent]
  split
  · cases s.agent c <;> simp [hf]
  · rfl

/-- An agent set to a record with the registers that it has keeps every register file. -/
theorem State.regsOf_setAgent (s : State) (a : AgentId) (x y : Agent) (hx : s.agent a = some x) (hy : y.regs = x.regs) (c : AgentId) :
    (s.setAgent a y).regsOf c = s.regsOf c := by
  unfold State.regsOf State.setAgent
  rw [State.agent_modAgent]
  split
  · rename_i h; subst h; simp [hx, hy]
  · rfl

/-- An agent set to a record with its registers and lanes. -/
theorem State.keeps_setAgent (s : State) (a : AgentId) (x y : Agent) (hx : s.agent a = some x) (hy : y.regs = x.regs ∧ y.lanes = x.lanes) :
    s.Keeps (s.setAgent a y) := by
  refine ⟨id, fun _ c => ?_⟩
  unfold State.regsOf State.lanesOf State.setAgent
  rw [State.agent_modAgent]
  split
  · rename_i h; subst h; simp [hx, hy.1, hy.2]
  · exact ⟨rfl, rfl⟩

theorem foldl_State_keeps {α : Type} (s : State) (l : List α) (f : State → α → State) (h : ∀ (u : State) (e : α), u.Keeps (f u e)) : s.Keeps (l.foldl f s) :=
  foldl_keeps (fun t => s.Keeps t) f l (fun t e _ ht => ht.trans (h t e)) s (.refl s)

/-! ### Writes at a place leave the teams alone -/

theorem State.dropMons_teams (s : State) (gone : Mon → Bool) : (s.dropMons gone).teams = s.teams ∧ s.Clean (s.dropMons gone) := by
  simp only [State.dropMons]
  refine foldl_keeps (fun t : State => t.teams = s.teams ∧ s.Clean t) _ _ ?_ s ⟨rfl, id⟩
  intro t m _ ht
  split
  · exact ⟨by rw [State.poke_teams]; exact ht.1, fun h => by rw [State.poke_flaws]; exact ht.2 h⟩
  · exact ht

theorem State.compare_teams (s : State) (loc n c : Nat) : (s.compare loc n c).teams = s.teams ∧ s.Clean (s.compare loc n c) := by
  simp only [State.compare]
  refine foldl_keeps (fun t : State => t.teams = s.teams ∧ s.Clean t) _ _ ?_ _ (State.dropMons_teams s _)
  intro t m _ ht
  exact ⟨by rw [State.sendWake_teams]; exact ht.1, fun h => by rw [State.sendWake_flaws]; exact ht.2 h⟩

theorem State.writeWith_keeps (s : State) (p : Place) (bs : List Byte) (cl : Option Nat) (pol : Nat) :
    (s.writeWith p bs cl pol).1.teams = s.teams ∧ s.Clean (s.writeWith p bs cl pol).1 := by
  have h1 := (s.serialised_same p bs.length cl pol).2
  unfold State.writeWith
  cases p.owned with
  | slice =>
    simp only
    split
    · exact ⟨by simpa using h1.1, fun h => by simpa using h1.2 h⟩
    · have hc := fun u : State => u.compare_teams p.loc bs.length
      refine ⟨(hc _ _).1.trans ?_, fun h => (hc _ _).2 ?_⟩
      · split
        · simpa using (State.makeRoom_same _ _ _ _).2.1.trans h1.1
        · simpa using h1.1
      · split
        · simpa using (State.makeRoom_same _ _ _ _).2.2 (h1.2 h)
        · simpa using h1.2 h
  | scratch t => exact ⟨rfl, id⟩
  | pinned => exact ⟨rfl, id⟩
  | peer => exact ⟨rfl, id⟩

theorem State.writeWith_teams (s : State) (p : Place) (bs : List Byte) (cl : Option Nat) (pol : Nat) : s.Keeps (s.writeWith p bs cl pol).1 :=
  .of_teams (s.writeWith_keeps p bs cl pol).1 (s.writeWith_keeps p bs cl pol).2

theorem State.writeAt_teams (s : State) (p : Place) (bs : List Byte) (cl : Option Nat) :
    (s.writeAt p bs cl).1.teams = s.teams ∧ s.Clean (s.writeAt p bs cl).1 := s.writeWith_keeps p bs cl 0

theorem seqWrite_teams (s : State) (t : Team) (who lane off : Nat) (x : Label) :
    (seqWrite s t who lane off x).teams = s.teams ∧ s.Clean (seqWrite s t who lane off x) := by
  unfold seqWrite
  split
  · exact State.writeAt_teams ..
  · exact ⟨rfl, id⟩

/-! ### Accesses that perform -/

theorem State.opDone_keeps (s : State) (a : AgentId) (n : Nat) (f : Agent → Agent) (hf : ∀ x, (f x).regs = x.regs ∧ (f x).lanes = x.lanes) :
    s.Keeps (s.opDone a n f) :=
  s.keeps_modAgent a _ fun x => hf { x with ops := Tbl.del x.ops n }

theorem State.stored_keeps (s : State) (q : Perf) (n : Nat) (o : MemOp) (bs : List Byte) (near : Bool) (c : Option Nat) :
    s.Keeps (s.stored q n o bs near c) := by
  simp only [State.stored]
  repeat' split
  all_goals first
    | exact s.opDone_keeps _ _ _ fun _ => ⟨rfl, rfl⟩
    | exact (s.opDone_keeps q.a n (fun x => { x with gwct := max x.gwct (c.getD 0) }) fun _ => ⟨rfl, rfl⟩).trans (.of_teams rfl id)

theorem State.atomicLine_same (s : State) (p : Place) (cluster policy : Nat) : s.SameData (s.atomicLine p cluster policy) := by
  have h := (s.recall_same (p.loc / 128) (some cluster)).trans (State.touchLine_same _ p.sentOn policy)
  simp only [State.atomicLine]
  repeat' split
  · exact h
  · exact h.trans ⟨rfl, rfl, id⟩
  · exact .refl s

theorem State.l1Holds_same (s : State) (q : Perf) (p : Place) : s.SameData (s.l1Holds q p) := by
  simp only [State.l1Holds]
  split
  · exact .refl s
  · exact s.l1Put_same _

theorem State.atomicAfter_same (s : State) (q : Perf) (o : MemOp) (near : Bool) : s.SameData (s.atomicAfter q o near) := by
  have href : ∀ u : State, u.SameData (u.refresh q.cluster q.part q.asid o.place) := fun u => by
    simp only [State.refresh]; split
    · exact u.fill_same ..
    · exact .refl u
  have hgr : ∀ u : State, u.SameData (u.grantExclusive q o.place) := fun u => by
    simp only [State.grantExclusive]; split
    · exact (u.l1Holds_same _ _).trans ⟨rfl, rfl, id⟩
    · exact .refl u
  simp only [State.atomicAfter]
  repeat' split
  · exact ⟨rfl, rfl, id⟩
  · exact (href s).trans (hgr _)
  · exact hgr s
  · exact href s
  · exact .refl s

/-- What a read-modify-write at its owner changes stands in no team. -/
theorem State.rmw_teams (s : State) (q : Perf) (o : MemOp) (ty : DType) (new : W64 → Option W64 × FpFlags) :
    (s.rmw q o ty new).2.2.2.2.teams = s.teams ∧ s.Clean (s.rmw q o ty new).2.2.2.2 := by
  have h1 := (s.atomicLine_same o.place q.cluster o.policy).2
  simp only [State.rmw]
  split
  · rename_i w _
    have h2 := State.writeWith_keeps (s.atomicLine o.place q.cluster o.policy) o.place.sentOn (toBytes (elemBytes ty) w.toNat) (some q.cluster) o.policy
    have h3 := fun u : State => (u.atomicAfter_same q o (s.isNear o.place q.cluster)).2
    split
    · exact ⟨(h3 _).1.trans (h2.1.trans h1.1), fun h => (h3 _).2 (h2.2 (h1.2 h))⟩
    · exact ⟨(h3 _).1.trans (h2.1.trans h1.1), fun h => (h3 _).2 (h2.2 (h1.2 h))⟩
  · have h3 := (State.atomicAfter_same (s.atomicLine o.place q.cluster o.policy) q o (s.isNear o.place q.cluster)).2
    exact ⟨h3.1.trans h1.1, fun h => h3.2 (h1.2 h)⟩

theorem State.storePerforms_keeps (s : State) (q : Perf) (n : Nat) (o : MemOp) (bs : List Byte) : s.Keeps (s.storePerforms q n o bs) :=
  (State.writeWith_teams ..).trans (State.stored_keeps ..)

theorem State.zeroed_same (s : State) (p : Place) (pol : Nat) :
    (if p.owned = .slice then (s.writeWith p (List.replicate 128 0) none pol).1.setLine (p.loc / 128)
      { (s.writeWith p (List.replicate 128 0) none pol).1.line (p.loc / 128) with zero := true }
      else (s.writeWith p (List.replicate 128 0) none pol).1).teams = s.teams ∧
    s.Clean (if p.owned = .slice then (s.writeWith p (List.replicate 128 0) none pol).1.setLine (p.loc / 128)
      { (s.writeWith p (List.replicate 128 0) none pol).1.line (p.loc / 128) with zero := true }
      else (s.writeWith p (List.replicate 128 0) none pol).1) := by
  split
  · exact s.writeWith_keeps ..
  · exact s.writeWith_keeps ..

/-- An access that performs leaves every register file and lane alone: values wait in the reply. -/
theorem State.performs_keeps (s : State) (q : Perf) (n : Nat) (o : MemOp) : s.Keeps (s.performs q n o) := by
  unfold State.performs
  cases o.kind with
  | load size reply off =>
    simp only [State.loadPerforms]
    split
    · exact .refl s
    · exact (s.readBy_same ..).keeps.trans (State.opDone_keeps _ _ _ _ (by intro _; exact ⟨rfl, rfl⟩))
  | store bs => exact s.storePerforms_keeps q n o bs
  | zero => exact (State.Keeps.of_teams (s.zeroed_same ..).1 (s.zeroed_same ..).2).trans (State.stored_keeps ..)
  | atomic fn ty rm cas v reply =>
    have h1 : s.Keeps (s.rmw q o ty (atomicStores fn ty rm cas v)).2.2.2.2 := .of_teams (s.rmw_teams ..).1 (s.rmw_teams ..).2
    simp only [State.atomicPerforms]
    split
    · exact h1.trans (State.opDone_keeps _ _ _ _ (by intro _; exact ⟨rfl, rfl⟩))
    · exact h1.trans (State.stored_keeps ..)
  | replayed ty new =>
    simp only [State.replayPerforms]
    split
    · exact s.storePerforms_keeps ..
    · exact s.opDone_keeps _ _ _ fun _ => ⟨rfl, rfl⟩

/-- No access consumes an uncorrectable error where no line stores one. -/
theorem State.performsAt_clean {s : State} (h : s.flaws = []) (q : Perf) (n : Nat) (o : MemOp) : s.performsAt q n o = s.performs q n o := by
  unfold State.performsAt State.consumesFlaw
  simp [h]

theorem State.performsAt_keeps (s : State) (q : Perf) (n : Nat) (o : MemOp) : s.Keeps (s.performsAt q n o) :=
  ⟨fun h => by rw [State.performsAt_clean h]; exact (s.performs_keeps q n o).clean h,
   fun h => by rw [State.performsAt_clean h]; exact (s.performs_keeps q n o).agent h⟩

theorem State.access_keeps (s : State) (a : AgentId) (n : Nat) : s.Keeps (s.access a n) := by
  unfold State.access
  repeat' split
  all_goals first
    | exact .refl s
    | exact (foldl_State_keeps s _ _ fun u e => u.performsAt_keeps _ _ _).trans (State.keeps_modAgent _ _ _ (by intro _; exact ⟨rfl, rfl⟩))

theorem State.accessAll_keeps (s : State) (a : AgentId) : s.Keeps (s.accessAll a) := by
  unfold State.accessAll
  split
  · exact .refl s
  · exact foldl_State_keeps s _ _ fun u n => u.access_keeps a n

/-! ### Acknowledgements, the census and the ends -/

theorem State.applyAck_keeps (s : State) (a : AgentId) (n : Nat) : s.Keeps (s.applyAck a n) := by
  unfold State.applyAck
  split
  · split
    · exact .refl s
    · rename_i x ht hx _ k hk
      simp only
      split
      · exact (s.keeps_setAgent a x _ hx (by exact ⟨rfl, rfl⟩)).trans (.of_teams rfl id)
      · exact s.keeps_setAgent a x _ hx ⟨rfl, rfl⟩
  · exact .refl s

theorem State.applyAcks_keeps (s : State) (a : AgentId) : s.Keeps (s.applyAcks a) := by
  simp only [State.applyAcks]
  split
  · exact s.accessAll_keeps a
  · exact (s.accessAll_keeps a).trans (foldl_State_keeps _ _ _ fun u n => u.applyAck_keeps a n)

theorem State.agentEnded_keeps (s : State) (a : AgentId) : s.Keeps (s.agentEnded a) :=
  (s.applyAcks_keeps a).trans (State.keeps_modAgent _ _ _ (by intro _; exact ⟨rfl, rfl⟩))

theorem setFrame_keeps (s : State) (a : AgentId) (t : Team) (x : Agent) (hx : s.agent a = some x) (d : Nat) (l : Label) :
    s.Keeps (setFrame s a t x d l) := by
  simp only [setFrame]
  split
  · exact (s.keeps_setAgent a x _ hx (by exact ⟨rfl, rfl⟩)).trans (.of_teams (seqWrite_teams ..).1 (seqWrite_teams ..).2)
  · exact s.keeps_setAgent a x _ hx ⟨rfl, rfl⟩

/-- The census leaves every register file and every lane alone. -/
theorem State.census_keeps (s : State) (a : AgentId) (frm : Nat) : s.Keeps (s.census a frm) := by
  unfold State.census
  split
  · rename_i t x ht hx
    split
    · split
      · exact s.agentEnded_keeps a
      · exact s.keeps_setAgent a x _ hx ⟨rfl, rfl⟩
    · simp only
      split
      · exact (setFrame_keeps s a t x hx x.f.toNat (BitVec.ofNat 28 frm)).trans (State.keeps_modAgent _ _ _ (by intro _; exact ⟨rfl, rfl⟩))
      · split <;> exact s.keeps_setAgent a x _ hx ⟨rfl, rfl⟩
  · exact .refl s

theorem Team.flushEvents_agents (n : Nat) : ∀ t : Team, (t.flushEvents n).agents = t.agents := by
  induction n with
  | zero => intro t; rfl
  | succ n ih =>
    intro t
    simp only [Team.flushEvents]
    split
    · rfl
    · split
      · rw [ih]; rfl
      · rfl

theorem Team.pushEvent_agents (t : Team) (w : W64) (bs : List Byte) : (t.pushEvent w bs).agents = t.agents := by
  unfold Team.pushEvent Team.flush; rw [Team.flushEvents_agents]; rfl

theorem State.postEvent_keeps (s : State) (team k e : Nat) (q : W32) (d : Nat) : s.Keeps (s.postEvent team k e q d) :=
  s.keeps_modTeam team _ fun t => by
    split
    · rfl
    · exact Team.pushEvent_agents _ _ _

theorem discardCopies_keeps (s : State) (team : Nat) : s.Keeps (discardCopies s team) := by
  unfold discardCopies
  split
  · exact .refl s
  · refine foldl_State_keeps s _ _ fun u e => ?_
    split
    · refine State.Keeps.trans ?_ (State.postEvent_keeps ..)
      refine State.Keeps.trans (u.keeps_modTeam team _ ?_) (foldl_State_keeps _ _ _ fun v l => ?_)
      · intro _; rfl
      · split
        · exact v.keeps_modTeam _ _ (by intro _; rfl)
        · exact .refl v
    · exact .refl u

theorem State.teamEnd_keeps (s : State) (team : Nat) : s.Keeps (s.teamEnd team) := by
  unfold State.teamEnd
  split
  · exact .refl s
  · rename_i t ht
    have h1 := (discardCopies_keeps s team).trans (.of_teams (State.dropMons_teams _ (fun m => m.part == t.part && m.asid == t.asid && m.slot == t.slot && !m.hostq)).1
      (State.dropMons_teams _ (fun m => m.part == t.part && m.asid == t.asid && m.slot == t.slot && !m.hostq)).2)
    refine h1.trans ((State.Keeps.of_teams rfl id).trans ((State.keeps_modTeam _ team _ fun t => ?_).trans (.of_teams rfl id)))
    split <;> rfl

/-! ### Other agents -/

/-- Where no line stores an uncorrectable error, none does, and every agent but one is as before. -/
structure State.Others (s : State) (a : AgentId) (t : State) : Prop where
  clean : s.Clean t
  agent : s.flaws = [] → ∀ c, c ≠ a → t.agent c = s.agent c

theorem State.Others.refl (a : AgentId) (s : State) : s.Others a s := ⟨id, fun _ _ _ => rfl⟩
theorem State.Others.trans {a : AgentId} {s t u : State} (h : s.Others a t) (k : t.Others a u) : s.Others a u :=
  ⟨k.clean ∘ h.clean, fun hs c hc => (k.agent (h.clean hs) c hc).trans (h.agent hs c hc)⟩
theorem State.Others.of_teams {a : AgentId} {s t : State} (h : t.teams = s.teams ∧ s.Clean t) : s.Others a t :=
  ⟨h.2, fun _ c _ => State.agent_congr h.1 c⟩
theorem State.SameData.others {s t : State} (h : s.SameData t) (a : AgentId) : s.Others a t := .of_teams h.2

theorem State.others_modAgent (s : State) (a : AgentId) (f : Agent → Agent) : s.Others a (s.modAgent a f) := ⟨id, fun _ c h => by
  rw [State.agent_modAgent]; simp [h]⟩

theorem State.others_setAgent (s : State) (a : AgentId) (x : Agent) : s.Others a (s.setAgent a x) := s.others_modAgent a _

theorem foldl_State_others {α : Type} (a : AgentId) (s : State) (l : List α) (f : State → α → State) (h : ∀ (u : State) (e : α), u.Others a (f u e)) :
    s.Others a (l.foldl f s) :=
  foldl_keeps (fun t => s.Others a t) f l (fun t e _ ht => ht.trans (h t e)) s (.refl a s)

theorem State.stored_others (s : State) (q : Perf) (n : Nat) (o : MemOp) (bs : List Byte) (near : Bool) (c : Option Nat) :
    s.Others q.a (s.stored q n o bs near c) := by
  simp only [State.stored]
  repeat' split
  all_goals first
    | exact s.others_modAgent q.a _
    | exact (State.others_modAgent s q.a _).trans (State.Others.of_teams (t := State.updateCopy _ _ _ _ _ _ _ _ _) ⟨rfl, id⟩)

theorem State.performs_others (s : State) (q : Perf) (n : Nat) (o : MemOp) : s.Others q.a (s.performs q n o) := by
  have hst : ∀ bs, s.Others q.a (s.storePerforms q n o bs) := fun bs =>
    (State.Others.of_teams (State.writeWith_keeps ..)).trans (State.stored_others ..)
  unfold State.performs
  cases o.kind with
  | load size reply off =>
    simp only [State.loadPerforms]
    split
    · exact .refl _ s
    · exact ((s.readBy_same ..).others q.a).trans (State.others_modAgent _ _ _)
  | store bs => exact hst bs
  | zero => exact (State.Others.of_teams (s.zeroed_same ..)).trans (State.stored_others ..)
  | atomic fn ty rm cas v reply =>
    simp only [State.atomicPerforms]
    split
    · exact (State.Others.of_teams (s.rmw_teams ..)).trans (State.others_modAgent _ _ _)
    · exact (State.Others.of_teams (s.rmw_teams ..)).trans (State.stored_others ..)
  | replayed ty new =>
    simp only [State.replayPerforms]
    split
    · exact hst _
    · exact State.others_modAgent _ _ _

theorem State.performsAt_others (s : State) (q : Perf) (n : Nat) (o : MemOp) : s.Others q.a (s.performsAt q n o) :=
  ⟨fun h => by rw [State.performsAt_clean h]; exact (s.performs_others q n o).clean h,
   fun h => by rw [State.performsAt_clean h]; exact (s.performs_others q n o).agent h⟩

theorem State.accessAll_others (s : State) (a : AgentId) : s.Others a (s.accessAll a) := by
  unfold State.accessAll
  split
  · exact .refl a s
  · refine foldl_State_others a s _ _ fun u n => ?_
    unfold State.access
    repeat' split
    all_goals first
      | exact .refl a u
      | exact (foldl_State_others a u _ _ fun v e => v.performsAt_others ⟨a, _, _, _⟩ _ _).trans (State.others_modAgent _ _ _)

theorem State.applyAcks_others (s : State) (a : AgentId) : s.Others a (s.applyAcks a) := by
  simp only [State.applyAcks]
  split
  · exact s.accessAll_others a
  · refine (s.accessAll_others a).trans (foldl_State_others a _ _ _ fun u n => ?_)
    unfold State.applyAck
    split
    · split
      · exact .refl a u
      · dsimp only
        split
        · exact (u.others_setAgent a _).trans (.of_teams ⟨rfl, id⟩)
        · exact u.others_setAgent a _
    · exact .refl a u

/-- The census of an agent leaves every other agent alone. -/
theorem State.census_others (s : State) (a : AgentId) (frm : Nat) : s.Others a (s.census a frm) := by
  unfold State.census
  split
  · split
    · split
      · exact (s.applyAcks_others a).trans (State.others_modAgent _ _ _)
      · exact s.others_setAgent a _
    · simp only
      split
      · refine State.Others.trans ?_ (State.others_modAgent _ _ _)
        simp only [setFrame]
        split
        · exact (s.others_setAgent a _).trans (.of_teams (seqWrite_teams ..))
        · exact s.others_setAgent a _
      · split <;> exact s.others_setAgent a _
  · exact .refl a s

/-! ### What follows a beat -/

theorem Agent.passBarrier_regs (x : Agent) : x.passBarrier.regs = x.regs := by
  unfold Agent.passBarrier
  have : ∀ (l : List Nat) (y : Agent), (l.foldl (fun y i => y.modLane i fun l => if l.s = .run ∧ l.w = x.p then { l with w := x.p + 1 } else l)
      y).regs = y.regs := by
    intro l
    induction l with
    | nil => intro y; rfl
    | cons i l ih => intro y; rw [List.foldl_cons, ih]; rfl
  exact this _ _

/-- Where no line stores an uncorrectable error, none does, and every register file is as before. -/
structure State.SameRegs (s t : State) : Prop where
  clean : s.Clean t
  regs : s.flaws = [] → ∀ c, t.regsOf c = s.regsOf c

theorem State.SameRegs.refl (s : State) : s.SameRegs s := ⟨id, fun _ _ => rfl⟩
theorem State.SameRegs.trans {s t u : State} (h : s.SameRegs t) (k : t.SameRegs u) : s.SameRegs u :=
  ⟨k.clean ∘ h.clean, fun hs c => (k.regs (h.clean hs) c).trans (h.regs hs c)⟩
theorem State.Keeps.sameRegs {s t : State} (h : s.Keeps t) : s.SameRegs t := ⟨h.clean, fun hs c => (h.agent hs c).1⟩

/-- The release of a barrier phase leaves every register file alone, and the lanes of every agent that does not wait in a barrier. -/
theorem State.releaseBar_regs (s : State) (team id : Nat) : s.SameRegs (s.releaseBar team id) := by
  unfold State.releaseBar
  split
  · exact .refl s
  · split
    · exact .refl s
    · refine foldl_keeps (fun t : State => s.SameRegs t) _ _ ?_ _ (s.keeps_modTeam team _ (by intro _; rfl)).sameRegs
      intro u g _ hu
      simp only
      split
      · exact hu
      · rename_i x hx
        split
        · exact (hu.trans (t := u) (u := u.setAgent ⟨team, g⟩ x.passBarrier) ⟨fun h => h, fun _ c => State.regsOf_setAgent _ _ x _ hx x.passBarrier_regs c⟩).trans (State.census_keeps _ _ _).sameRegs
        · exact hu

theorem State.releaseBar_agent (s : State) (hs : s.flaws = []) (team id : Nat) (c : AgentId) (hc : ∀ x, s.agent c = some x → x.issue ≠ .barrier) :
    (s.releaseBar team id).agent c = s.agent c := by
  unfold State.releaseBar
  split
  · rfl
  · split
    · rfl
    · refine (foldl_keeps (fun t : State => t.flaws = [] ∧ t.agent c = s.agent c) _ _ ?_ _ ?_).2
      swap
      · exact ⟨hs, State.agent_modTeam_keep _ _ _ (by intro _; rfl) c⟩
      intro u g _ hu
      simp only
      split
      · exact hu
      · rename_i x hx
        split
        · rename_i hbar
          have hk := (State.others_setAgent u ⟨team, g⟩ x.passBarrier).trans (State.census_others (u.setAgent ⟨team, g⟩ x.passBarrier) ⟨team, g⟩ (x.p.toNat + 1))
          by_cases hcg : c = ⟨team, g⟩
          · subst hcg
            rw [hu.2] at hx
            exact absurd hbar (hc x hx)
          · exact ⟨hk.clean hu.1, (hk.agent hu.1 c hcg).trans hu.2⟩
        · exact hu

theorem State.settle_regs (s : State) (team : Nat) : s.SameRegs (s.settle team) := by
  unfold State.settle
  repeat' split
  all_goals try dsimp only
  all_goals first
    | exact .refl s
    | exact (s.teamEnd_keeps team).sameRegs
    | skip
  split
  · split
    · exact (State.releaseBar_regs ..).trans (State.teamEnd_keeps _ _).sameRegs
    · exact State.releaseBar_regs ..
  · exact State.releaseBar_regs ..

theorem State.settle_lanes (s : State) (hs : s.flaws = []) (team : Nat) (c : AgentId) (hc : ∀ x, s.agent c = some x → x.issue ≠ .barrier) :
    (s.settle team).lanesOf c = s.lanesOf c := by
  have hr : (s.releaseBar team 16).lanesOf c = s.lanesOf c := by unfold State.lanesOf; rw [State.releaseBar_agent s hs team 16 c hc]
  have hk := (s.releaseBar_regs team 16).clean hs
  unfold State.settle
  repeat' split
  all_goals try dsimp only
  · exact ((s.teamEnd_keeps team).agent hs c).2
  · split
    · split
      · exact ((State.teamEnd_keeps _ _).agent hk c).2.trans hr
      · exact hr
    · exact hr

/-- What a census makes of its agent stands in no barrier. -/
theorem State.census_issue (s : State) (a : AgentId) (frm : Nat) (ha : ∀ x, s.agent a = some x → x.issue ≠ .barrier) :
    ∀ x, (s.census a frm).agent a = some x → x.issue ≠ .barrier := by
  intro y hy
  unfold State.census at hy
  split at hy
  · rename_i t x ht hx
    have hset : ∀ (u : State) (z : Agent), (u.setAgent a z).agent a = some y → y = z := by
      intro u z h
      unfold State.setAgent at h
      rw [State.agent_modAgent_same] at h
      cases hu : u.agent a with
      | none => simp [hu] at h
      | some w => simp [hu] at h; exact h.symm
    have hmod : ∀ (u : State) (g : Agent → Agent), (u.modAgent a g).agent a = some y → ∃ w, y = g w := by
      intro u g h
      rw [State.agent_modAgent_same] at h
      cases hu : u.agent a with
      | none => simp [hu] at h
      | some w => simp [hu] at h; exact ⟨w, h.symm⟩
    split at hy
    · split at hy
      · obtain ⟨w, rfl⟩ := hmod _ _ hy
        simp
      · rw [hset _ _ hy]; simp
    · simp only at hy
      split at hy
      · obtain ⟨w, rfl⟩ := hmod _ _ hy
        simp [Agent.arriveAt]
      · split at hy
        · rw [hset _ _ hy]; simp [Agent.arriveAt]
        · rw [hset _ _ hy]; simp [Agent.arriveAt]
  · exact ha y hy

theorem State.nextIndex_regs (s : State) (a : AgentId) : s.SameRegs (s.nextIndex a) := by
  unfold State.nextIndex
  split
  · exact .refl s
  · exact (State.census_keeps _ _ _).sameRegs.trans (State.settle_regs _ _)

/-- The census after the last beat, with what follows, leaves the lanes of its agent alone. -/
theorem State.nextIndex_lanes (s : State) (hs : s.flaws = []) (a : AgentId) (ha : ∀ x, s.agent a = some x → x.issue ≠ .barrier) :
    (s.nextIndex a).lanesOf a = s.lanesOf a := by
  unfold State.nextIndex
  split
  · rfl
  · rw [State.settle_lanes _ ((State.census_keeps _ _ _).clean hs) _ _ (State.census_issue s a _ ha), ((State.census_keeps _ _ _).agent hs a).2]

/-- The count of a beat touches its agent only, and there the number of its last beat and its place in the active set. -/
theorem State.countBeat_agent (s : State) (b : Beat) (whole : Bool) (c : AgentId) :
    ∃ f : Agent → Agent, (∀ x, (f x).regs = x.regs ∧ (f x).lanes = x.lanes ∧ (f x).issue = x.issue) ∧
      (s.countBeat b whole).agent c = if c = b.a then (s.agent c).map f else s.agent c := by
  have hq : ∀ (qs : List Nat) (u : State), u.teams = s.teams → (qs.foldl (fun u q => u.countQuad b q) u).teams = s.teams := by
    intro qs
    induction qs with
    | nil => intro u hu; exact hu
    | cons q qs ih => intro u hu; exact ih _ hu
  have hs : (if b.x.isGroup then s.countGroup b whole else s.countThread b).teams = s.teams := by
    split
    · simp only [State.countGroup]
      split
      · rfl
      · exact hq _ _ rfl
    · rfl
  have key : ∀ u : State, u.teams = s.teams → ∀ f : Agent → Agent,
      (u.modAgent b.a f).agent c = if c = b.a then (s.agent c).map f else s.agent c := fun u hu f => by
    rw [State.agent_modAgent, State.agent_congr hu]
  exact ⟨_, by intro x; exact ⟨rfl, rfl, rfl⟩, key _ hs _⟩

theorem State.countBeat_flaws (s : State) (b : Beat) (whole : Bool) : (s.countBeat b whole).flaws = s.flaws := by
  have hq : ∀ (qs : List Nat) (u : State), u.flaws = s.flaws → (qs.foldl (fun u q => u.countQuad b q) u).flaws = s.flaws := by
    intro qs
    induction qs with
    | nil => intro u hu; exact hu
    | cons q qs ih => intro u hu; exact ih _ hu
  have hs : (if b.x.isGroup then s.countGroup b whole else s.countThread b).flaws = s.flaws := by
    split
    · simp only [State.countGroup]
      split
      · rfl
      · exact hq _ _ rfl
    · rfl
  exact hs

theorem State.countBeat_keeps (s : State) (b : Beat) (whole : Bool) : s.Keeps (s.countBeat b whole) := by
  refine ⟨fun h => by rw [State.countBeat_flaws]; exact h, fun _ c => ?_⟩
  obtain ⟨f, hf, h⟩ := s.countBeat_agent b whole c
  unfold State.regsOf State.lanesOf
  rw [h]
  split
  · cases s.agent c <;> simp [hf]
  · exact ⟨rfl, rfl⟩

/-- What follows a beat leaves every register file alone. -/
theorem State.afterBeat_regs (s : State) (b : Beat) (whole : Bool) : s.SameRegs (s.afterBeat b whole) := by
  unfold State.afterBeat State.passBeat
  split
  · exact (s.countBeat_keeps b whole).sameRegs.trans (State.keeps_modAgent _ _ _ (by intro _; exact ⟨rfl, rfl⟩)).sameRegs
  · exact ((s.countBeat_keeps b whole).sameRegs.trans (State.keeps_modAgent _ _ _ (by intro _; exact ⟨rfl, rfl⟩)).sameRegs).trans (State.nextIndex_regs _ _)

/-- What follows a beat leaves the lanes of its agent alone. -/
theorem State.afterBeat_lanes (s : State) (hs : s.flaws = []) (b : Beat) (whole : Bool) (ha : ∀ x, s.agent b.a = some x → x.issue ≠ .barrier) :
    (s.afterBeat b whole).lanesOf b.a = s.lanesOf b.a := by
  have hm : ∀ f : Agent → Agent, (∀ x, (f x).regs = x.regs ∧ (f x).lanes = x.lanes) →
      ((s.countBeat b whole).modAgent b.a f).lanesOf b.a = s.lanesOf b.a := fun f hf =>
    ((State.keeps_modAgent _ b.a f hf).agent ((s.countBeat_keeps b whole).clean hs) b.a).2.trans ((s.countBeat_keeps b whole).agent hs b.a).2
  unfold State.afterBeat State.passBeat
  split
  · exact hm _ fun _ => ⟨rfl, rfl⟩
  · rw [State.nextIndex_lanes _ (by rw [State.modAgent_flaws, State.countBeat_flaws]; exact hs), hm _ (by intro _; exact ⟨rfl, rfl⟩)]
    intro x hx
    rw [State.agent_modAgent_same] at hx
    obtain ⟨f, hf, h⟩ := s.countBeat_agent b whole b.a
    rw [h] at hx
    simp only [if_true] at hx
    cases hs : s.agent b.a with
    | none => simp [hs] at hx
    | some y => simp [hs] at hx; rw [← hx]; exact (hf y).2.2 ▸ ha y hs

theorem State.markHeld_keeps (s : State) (a : AgentId) : s.Keeps (s.markHeld a) := by
  refine ⟨id, fun _ c => ?_⟩
  unfold State.markHeld State.regsOf State.lanesOf
  rw [State.agent_modTeam]
  split
  · unfold State.agent
    cases s.team c.team with
    | none => exact ⟨rfl, rfl⟩
    | some t =>
      simp only [Option.map_some, Option.bind_some]
      split
      · rw [Tbl.find?_modify]
        split
        · cases Tbl.find? t.agents c.who with
          | none => exact ⟨rfl, rfl⟩
          | some x => simp only [Option.map_some]; split <;> exact ⟨rfl, rfl⟩
        · exact ⟨rfl, rfl⟩
      · exact ⟨rfl, rfl⟩
  · exact ⟨rfl, rfl⟩

/-- A beat that has performed, where no line stores an uncorrectable error: every register file is the one that its body leaves. -/
theorem State.conclude_done_regs (s t : State) (ht : t.flaws = []) (b : Beat) (whole : Bool) (c : AgentId) :
    (s.conclude b whole (.done t)).regsOf c = t.regsOf c :=
  ((State.afterBeat_regs t b whole).trans (State.markHeld_keeps _ _).sameRegs).regs ht c

/-- A beat that has performed, where no line stores an uncorrectable error: its agent's lanes are those that its body leaves. -/
theorem State.conclude_done_lanes (s t : State) (ht : t.flaws = []) (b : Beat) (whole : Bool) (ha : ∀ x, t.agent b.a = some x → x.issue ≠ .barrier) :
    (s.conclude b whole (.done t)).lanesOf b.a = t.lanesOf b.a := by
  unfold State.conclude State.concludeBeat
  rw [((State.markHeld_keeps _ _).agent ((State.afterBeat_regs t b whole).clean ht) b.a).2, State.afterBeat_lanes _ ht _ _ ha]

end Sys2Proof.Machine
end

