-- ==== Sys2Proof/Laws/Encoding.lean ====
section
/-! SUPPORT. Laws of the encoding: what each field of an assembled word holds, and that the codes of operands, types and rounding modes name them. -/

namespace Sys2Proof

open Machine

theorem extract_high {m k : Nat} (h : BitVec m) (l : BitVec k) {lo n : Nat} (hk : k ≤ lo) :
    BitVec.extractLsb' lo n (h ++ l) = BitVec.extractLsb' (lo - k) n h := BitVec.extractLsb'_append_eq_of_le hk

theorem extract_low {m k : Nat} (h : BitVec m) (l : BitVec k) {lo n : Nat} (hn : lo + n ≤ k) :
    BitVec.extractLsb' lo n (h ++ l) = BitVec.extractLsb' lo n l := BitVec.extractLsb'_append_eq_of_add_le hn

theorem extract_whole {m : Nat} (l : BitVec m) : BitVec.extractLsb' 0 m l = l := BitVec.extractLsb'_eq_self

/-! ### Codes -/

/-- An operand's code names it. -/
theorem operandOf_code (o : Operand) : operandOf (operandCode o) = some o := by
  cases o with
  | v n => revert n; decide
  | u n => revert n; decide
  | q n => revert n; decide
  | p n => revert n; decide
  | zero => decide
  | imm => decide

/-- A code that names an operand is that operand's code. -/
theorem operandCode_of (c : Byte) : (operandOf c).all (fun o => decide (operandCode o = c)) = true := by
  revert c; decide

theorem tyOf_code (t : DType) : tyOf (tyCode t) = t := by cases t <;> decide

theorem tyCode_of (c : BitVec 4) : tyCode (tyOf c) = c := by revert c; decide

theorem rmOf_code (m : Rm) : rmOf (rmCode m) = m := by cases m <;> decide

theorem rmCode_of (c : BitVec 2) : rmCode (rmOf c) = c := by revert c; decide

/-! ### Fields of an assembled word -/

theorem field_assemble_opc (opc : BitVec 8) (f : Fields) : field (assemble opc f) 0 8 = opc := by
  exact Eq.trans (extract_low _ _ (by decide)) (extract_whole _)

theorem field_assemble_fn (opc : BitVec 8) (f : Fields) : field (assemble opc f) 8 4 = f.fn := by
  refine Eq.trans (extract_high _ _ (by decide)) ?_
  exact Eq.trans (extract_low _ _ (by decide)) (extract_whole _)

theorem field_assemble_ty (opc : BitVec 8) (f : Fields) : field (assemble opc f) 12 4 = tyCode f.ty := by
  refine Eq.trans (extract_high _ _ (by decide)) ?_
  refine Eq.trans (extract_high _ _ (by decide)) ?_
  exact Eq.trans (extract_low _ _ (by decide)) (extract_whole _)

theorem field_assemble_d (opc : BitVec 8) (f : Fields) : field (assemble opc f) 16 8 = operandCode f.d := by
  refine Eq.trans (extract_high _ _ (by decide)) ?_
  refine Eq.trans (extract_high _ _ (by decide)) ?_
  refine Eq.trans (extract_high _ _ (by decide)) ?_
  exact Eq.trans (extract_low _ _ (by decide)) (extract_whole _)

theorem field_assemble_a (opc : BitVec 8) (f : Fields) : field (assemble opc f) 24 8 = operandCode f.a := by
  refine Eq.trans (extract_high _ _ (by decide)) ?_
  refine Eq.trans (extract_high _ _ (by decide)) ?_
  refine Eq.trans (extract_high _ _ (by decide)) ?_
  refine Eq.trans (extract_high _ _ (by decide)) ?_
  exact Eq.trans (extract_low _ _ (by decide)) (extract_whole _)

theorem field_assemble_b (opc : BitVec 8) (f : Fields) : field (assemble opc f) 32 8 = operandCode f.b := by
  refine Eq.trans (extract_high _ _ (by decide)) ?_
  refine Eq.trans (extract_high _ _ (by decide)) ?_
  refine Eq.trans (extract_high _ _ (by decide)) ?_
  refine Eq.trans (extract_high _ _ (by decide)) ?_
  refine Eq.trans (extract_high _ _ (by decide)) ?_
  exact Eq.trans (extract_low _ _ (by decide)) (extract_whole _)

theorem field_assemble_c (opc : BitVec 8) (f : Fields) : field (assemble opc f) 40 8 = operandCode f.c := by
  refine Eq.trans (extract_high _ _ (by decide)) ?_
  refine Eq.trans (extract_high _ _ (by decide)) ?_
  refine Eq.trans (extract_high _ _ (by decide)) ?_
  refine Eq.trans (extract_high _ _ (by decide)) ?_
  refine Eq.trans (extract_high _ _ (by decide)) ?_
  refine Eq.trans (extract_high _ _ (by decide)) ?_
  exact Eq.trans (extract_low _ _ (by decide)) (extract_whole _)

theorem field_assemble_pg (opc : BitVec 8) (f : Fields) : field (assemble opc f) 48 3 = f.pg := by
  refine Eq.trans (extract_high _ _ (by decide)) ?_
  refine Eq.trans (extract_high _ _ (by decide)) ?_
  refine Eq.trans (extract_high _ _ (by decide)) ?_
  refine Eq.trans (extract_high _ _ (by decide)) ?_
  refine Eq.trans (extract_high _ _ (by decide)) ?_
  refine Eq.trans (extract_high _ _ (by decide)) ?_
  refine Eq.trans (extract_high _ _ (by decide)) ?_
  exact Eq.trans (extract_low _ _ (by decide)) (extract_whole _)

theorem field_assemble_pn (opc : BitVec 8) (f : Fields) : field (assemble opc f) 51 1 = bit1 f.pn := by
  refine Eq.trans (extract_high _ _ (by decide)) ?_
  refine Eq.trans (extract_high _ _ (by decide)) ?_
  refine Eq.trans (extract_high _ _ (by decide)) ?_
  refine Eq.trans (extract_high _ _ (by decide)) ?_
  refine Eq.trans (extract_high _ _ (by decide)) ?_
  refine Eq.trans (extract_high _ _ (by decide)) ?_
  refine Eq.trans (extract_high _ _ (by decide)) ?_
  refine Eq.trans (extract_high _ _ (by decide)) ?_
  exact Eq.trans (extract_low _ _ (by decide)) (extract_whole _)

theorem field_assemble_uni (opc : BitVec 8) (f : Fields) : field (assemble opc f) 52 1 = bit1 f.uni := by
  refine Eq.trans (extract_high _ _ (by decide)) ?_
  refine Eq.trans (extract_high _ _ (by decide)) ?_
  refine Eq.trans (extract_high _ _ (by decide)) ?_
  refine Eq.trans (extract_high _ _ (by decide)) ?_
  refine Eq.trans (extract_high _ _ (by decide)) ?_
  refine Eq.trans (extract_high _ _ (by decide)) ?_
  refine Eq.trans (extract_high _ _ (by decide)) ?_
  refine Eq.trans (extract_high _ _ (by decide)) ?_
  refine Eq.trans (extract_high _ _ (by decide)) ?_
  exact Eq.trans (extract_low _ _ (by decide)) (extract_whole _)

theorem field_assemble_gate (opc : BitVec 8) (f : Fields) : field (assemble opc f) 53 1 = bit1 f.gate := by
  refine Eq.trans (extract_high _ _ (by decide)) ?_
  refine Eq.trans (extract_high _ _ (by decide)) ?_
  refine Eq.trans (extract_high _ _ (by decide)) ?_
  refine Eq.trans (extract_high _ _ (by decide)) ?_
  refine Eq.trans (extract_high _ _ (by decide)) ?_
  refine Eq.trans (extract_high _ _ (by decide)) ?_
  refine Eq.trans (extract_high _ _ (by decide)) ?_
  refine Eq.trans (extract_high _ _ (by decide)) ?_
  refine Eq.trans (extract_high _ _ (by decide)) ?_
  refine Eq.trans (extract_high _ _ (by decide)) ?_
  exact Eq.trans (extract_low _ _ (by decide)) (extract_whole _)

theorem field_assemble_fe (opc : BitVec 8) (f : Fields) : field (assemble opc f) 54 3 = f.fe := by
  refine Eq.trans (extract_high _ _ (by decide)) ?_
  refine Eq.trans (extract_high _ _ (by decide)) ?_
  refine Eq.trans (extract_high _ _ (by decide)) ?_
  refine Eq.trans (extract_high _ _ (by decide)) ?_
  refine Eq.trans (extract_high _ _ (by decide)) ?_
  refine Eq.trans (extract_high _ _ (by decide)) ?_
  refine Eq.trans (extract_high _ _ (by decide)) ?_
  refine Eq.trans (extract_high _ _ (by decide)) ?_
  refine Eq.trans (extract_high _ _ (by decide)) ?_
  refine Eq.trans (extract_high _ _ (by decide)) ?_
  refine Eq.trans (extract_high _ _ (by decide)) ?_
  exact Eq.trans (extract_low _ _ (by decide)) (extract_whole _)

theorem field_assemble_sat (opc : BitVec 8) (f : Fields) : field (assemble opc f) 57 1 = bit1 f.sat := by
  refine Eq.trans (extract_high _ _ (by decide)) ?_
  refine Eq.trans (extract_high _ _ (by decide)) ?_
  refine Eq.trans (extract_high _ _ (by decide)) ?_
  refine Eq.trans (extract_high _ _ (by decide)) ?_
  refine Eq.trans (extract_high _ _ (by decide)) ?_
  refine Eq.trans (extract_high _ _ (by decide)) ?_
  refine Eq.trans (extract_high _ _ (by decide)) ?_
  refine Eq.trans (extract_high _ _ (by decide)) ?_
  refine Eq.trans (extract_high _ _ (by decide)) ?_
  refine Eq.trans (extract_high _ _ (by decide)) ?_
  refine Eq.trans (extract_high _ _ (by decide)) ?_
  refine Eq.trans (extract_high _ _ (by decide)) ?_
  exact Eq.trans (extract_low _ _ (by decide)) (extract_whole _)

theorem field_assemble_rm (opc : BitVec 8) (f : Fields) : field (assemble opc f) 58 2 = rmCode f.rm := by
  refine Eq.trans (extract_high _ _ (by decide)) ?_
  refine Eq.trans (extract_high _ _ (by decide)) ?_
  refine Eq.trans (extract_high _ _ (by decide)) ?_
  refine Eq.trans (extract_high _ _ (by decide)) ?_
  refine Eq.trans (extract_high _ _ (by decide)) ?_
  refine Eq.trans (extract_high _ _ (by decide)) ?_
  refine Eq.trans (extract_high _ _ (by decide)) ?_
  refine Eq.trans (extract_high _ _ (by decide)) ?_
  refine Eq.trans (extract_high _ _ (by decide)) ?_
  refine Eq.trans (extract_high _ _ (by decide)) ?_
  refine Eq.trans (extract_high _ _ (by decide)) ?_
  refine Eq.trans (extract_high _ _ (by decide)) ?_
  refine Eq.trans (extract_high _ _ (by decide)) ?_
  exact Eq.trans (extract_low _ _ (by decide)) (extract_whole _)

theorem field_assemble_zero (opc : BitVec 8) (f : Fields) : field (assemble opc f) 60 4 = 0#4 := by
  refine Eq.trans (extract_high _ _ (by decide)) ?_
  refine Eq.trans (extract_high _ _ (by decide)) ?_
  refine Eq.trans (extract_high _ _ (by decide)) ?_
  refine Eq.trans (extract_high _ _ (by decide)) ?_
  refine Eq.trans (extract_high _ _ (by decide)) ?_
  refine Eq.trans (extract_high _ _ (by decide)) ?_
  refine Eq.trans (extract_high _ _ (by decide)) ?_
  refine Eq.trans (extract_high _ _ (by decide)) ?_
  refine Eq.trans (extract_high _ _ (by decide)) ?_
  refine Eq.trans (extract_high _ _ (by decide)) ?_
  refine Eq.trans (extract_high _ _ (by decide)) ?_
  refine Eq.trans (extract_high _ _ (by decide)) ?_
  refine Eq.trans (extract_high _ _ (by decide)) ?_
  refine Eq.trans (extract_high _ _ (by decide)) ?_
  exact Eq.trans (extract_low _ _ (by decide)) (extract_whole _)

theorem field_assemble_wk (opc : BitVec 8) (f : Fields) : field (assemble opc f) 64 8 = f.wk := by
  refine Eq.trans (extract_high _ _ (by decide)) ?_
  refine Eq.trans (extract_high _ _ (by decide)) ?_
  refine Eq.trans (extract_high _ _ (by decide)) ?_
  refine Eq.trans (extract_high _ _ (by decide)) ?_
  refine Eq.trans (extract_high _ _ (by decide)) ?_
  refine Eq.trans (extract_high _ _ (by decide)) ?_
  refine Eq.trans (extract_high _ _ (by decide)) ?_
  refine Eq.trans (extract_high _ _ (by decide)) ?_
  refine Eq.trans (extract_high _ _ (by decide)) ?_
  refine Eq.trans (extract_high _ _ (by decide)) ?_
  refine Eq.trans (extract_high _ _ (by decide)) ?_
  refine Eq.trans (extract_high _ _ (by decide)) ?_
  refine Eq.trans (extract_high _ _ (by decide)) ?_
  refine Eq.trans (extract_high _ _ (by decide)) ?_
  refine Eq.trans (extract_high _ _ (by decide)) ?_
  exact Eq.trans (extract_low _ _ (by decide)) (extract_whole _)

theorem field_assemble_md (opc : BitVec 8) (f : Fields) : field (assemble opc f) 72 8 = f.md := by
  refine Eq.trans (extract_high _ _ (by decide)) ?_
  refine Eq.trans (extract_high _ _ (by decide)) ?_
  refine Eq.trans (extract_high _ _ (by decide)) ?_
  refine Eq.trans (extract_high _ _ (by decide)) ?_
  refine Eq.trans (extract_high _ _ (by decide)) ?_
  refine Eq.trans (extract_high _ _ (by decide)) ?_
  refine Eq.trans (extract_high _ _ (by decide)) ?_
  refine Eq.trans (extract_high _ _ (by decide)) ?_
  refine Eq.trans (extract_high _ _ (by decide)) ?_
  refine Eq.trans (extract_high _ _ (by decide)) ?_
  refine Eq.trans (extract_high _ _ (by decide)) ?_
  refine Eq.trans (extract_high _ _ (by decide)) ?_
  refine Eq.trans (extract_high _ _ (by decide)) ?_
  refine Eq.trans (extract_high _ _ (by decide)) ?_
  refine Eq.trans (extract_high _ _ (by decide)) ?_
  refine Eq.trans (extract_high _ _ (by decide)) ?_
  exact Eq.trans (extract_low _ _ (by decide)) (extract_whole _)

theorem field_assemble_e (opc : BitVec 8) (f : Fields) : field (assemble opc f) 80 8 = operandCode f.e := by
  refine Eq.trans (extract_high _ _ (by decide)) ?_
  refine Eq.trans (extract_high _ _ (by decide)) ?_
  refine Eq.trans (extract_high _ _ (by decide)) ?_
  refine Eq.trans (extract_high _ _ (by decide)) ?_
  refine Eq.trans (extract_high _ _ (by decide)) ?_
  refine Eq.trans (extract_high _ _ (by decide)) ?_
  refine Eq.trans (extract_high _ _ (by decide)) ?_
  refine Eq.trans (extract_high _ _ (by decide)) ?_
  refine Eq.trans (extract_high _ _ (by decide)) ?_
  refine Eq.trans (extract_high _ _ (by decide)) ?_
  refine Eq.trans (extract_high _ _ (by decide)) ?_
  refine Eq.trans (extract_high _ _ (by decide)) ?_
  refine Eq.trans (extract_high _ _ (by decide)) ?_
  refine Eq.trans (extract_high _ _ (by decide)) ?_
  refine Eq.trans (extract_high _ _ (by decide)) ?_
  refine Eq.trans (extract_high _ _ (by decide)) ?_
  refine Eq.trans (extract_high _ _ (by decide)) ?_
  exact Eq.trans (extract_low _ _ (by decide)) (extract_whole _)

theorem field_assemble_g (opc : BitVec 8) (f : Fields) : field (assemble opc f) 88 8 = operandCode f.g := by
  refine Eq.trans (extract_high _ _ (by decide)) ?_
  refine Eq.trans (extract_high _ _ (by decide)) ?_
  refine Eq.trans (extract_high _ _ (by decide)) ?_
  refine Eq.trans (extract_high _ _ (by decide)) ?_
  refine Eq.trans (extract_high _ _ (by decide)) ?_
  refine Eq.trans (extract_high _ _ (by decide)) ?_
  refine Eq.trans (extract_high _ _ (by decide)) ?_
  refine Eq.trans (extract_high _ _ (by decide)) ?_
  refine Eq.trans (extract_high _ _ (by decide)) ?_
  refine Eq.trans (extract_high _ _ (by decide)) ?_
  refine Eq.trans (extract_high _ _ (by decide)) ?_
  refine Eq.trans (extract_high _ _ (by decide)) ?_
  refine Eq.trans (extract_high _ _ (by decide)) ?_
  refine Eq.trans (extract_high _ _ (by decide)) ?_
  refine Eq.trans (extract_high _ _ (by decide)) ?_
  refine Eq.trans (extract_high _ _ (by decide)) ?_
  refine Eq.trans (extract_high _ _ (by decide)) ?_
  refine Eq.trans (extract_high _ _ (by decide)) ?_
  exact Eq.trans (extract_low _ _ (by decide)) (extract_whole _)

theorem field_assemble_imm (opc : BitVec 8) (f : Fields) : field (assemble opc f) 96 32 = f.imm := by
  refine Eq.trans (extract_high _ _ (by decide)) ?_
  refine Eq.trans (extract_high _ _ (by decide)) ?_
  refine Eq.trans (extract_high _ _ (by decide)) ?_
  refine Eq.trans (extract_high _ _ (by decide)) ?_
  refine Eq.trans (extract_high _ _ (by decide)) ?_
  refine Eq.trans (extract_high _ _ (by decide)) ?_
  refine Eq.trans (extract_high _ _ (by decide)) ?_
  refine Eq.trans (extract_high _ _ (by decide)) ?_
  refine Eq.trans (extract_high _ _ (by decide)) ?_
  refine Eq.trans (extract_high _ _ (by decide)) ?_
  refine Eq.trans (extract_high _ _ (by decide)) ?_
  refine Eq.trans (extract_high _ _ (by decide)) ?_
  refine Eq.trans (extract_high _ _ (by decide)) ?_
  refine Eq.trans (extract_high _ _ (by decide)) ?_
  refine Eq.trans (extract_high _ _ (by decide)) ?_
  refine Eq.trans (extract_high _ _ (by decide)) ?_
  refine Eq.trans (extract_high _ _ (by decide)) ?_
  refine Eq.trans (extract_high _ _ (by decide)) ?_
  refine Eq.trans (extract_high _ _ (by decide)) ?_
  exact extract_whole _

/-- A bit of a word as a field of one bit. -/
theorem getLsbD_field (w : Code128) (i : Nat) : w.getLsbD i = (field w i 1).getLsbD 0 := by simp [field]

theorem getLsbD_bit1 (b : Bool) : (bit1 b).getLsbD 0 = b := by cases b <;> rfl

/-- The fields of an assembled word are those that it was assembled from. -/
theorem fieldsOf_assemble (opc : BitVec 8) (f : Fields) : fieldsOf (assemble opc f) = some f := by
  unfold fieldsOf
  simp only [field_assemble_d, field_assemble_a, field_assemble_b, field_assemble_c, field_assemble_e, field_assemble_g, operandOf_code,
    field_assemble_fn, field_assemble_ty, field_assemble_pg, field_assemble_fe, field_assemble_rm, field_assemble_wk, field_assemble_md,
    field_assemble_imm, tyOf_code, rmOf_code, getLsbD_field (assemble opc f) 51, getLsbD_field (assemble opc f) 52,
    getLsbD_field (assemble opc f) 53, getLsbD_field (assemble opc f) 57, field_assemble_pn, field_assemble_uni, field_assemble_gate,
    field_assemble_sat, getLsbD_bit1]

end Sys2Proof
end

