-- ==== Sys2Proof/Laws/PerInstr.lean ====
section
/-! SUPPORT. A family of statements made for every constructor of `Instr`: the form that an instruction's opcode and fields name is that
instruction. -/

namespace Sys2Proof.Laws.Form

open Machine

/-- The opcode of a form names that form, with its fields (R47). -/
def Statement (i : Instr) : Prop := ∀ opc f, formOf i = some (opc, f) → formAt opc f = some i

theorem nop (f : Fields) : Statement (.nop f) := fun _ _ h => by cases h; rfl
theorem j (f : Fields) : Statement (.j f) := fun _ _ h => by cases h; rfl
theorem jr (f : Fields) : Statement (.jr f) := fun _ _ h => by cases h; rfl
theorem call (f : Fields) : Statement (.call f) := fun _ _ h => by cases h; rfl
theorem callr (f : Fields) : Statement (.callr f) := fun _ _ h => by cases h; rfl
theorem ret (f : Fields) : Statement (.ret f) := fun _ _ h => by cases h; rfl
theorem exit (f : Fields) : Statement (.exit f) := fun _ _ h => by cases h; rfl
theorem yield (f : Fields) : Statement (.yield f) := fun _ _ h => by cases h; rfl
theorem bar (f : Fields) : Statement (.bar f) := fun _ _ h => by cases h; rfl
theorem barn (f : Fields) : Statement (.barn f) := fun _ _ h => by cases h; rfl
theorem bara (f : Fields) : Statement (.bara f) := fun _ _ h => by cases h; rfl
theorem wait (f : Fields) : Statement (.wait f) := fun _ _ h => by cases h; rfl
theorem wtok (f : Fields) : Statement (.wtok f) := fun _ _ h => by cases h; rfl
theorem trap (f : Fields) : Statement (.trap f) := fun _ _ h => by cases h; rfl
theorem brk (f : Fields) : Statement (.brk f) := fun _ _ h => by cases h; rfl
theorem launch (f : Fields) : Statement (.launch f) := fun _ _ h => by cases h; rfl
theorem nap (f : Fields) : Statement (.nap f) := fun _ _ h => by cases h; rfl
theorem add (f : Fields) : Statement (.add f) := fun _ _ h => by cases h; rfl
theorem sub (f : Fields) : Statement (.sub f) := fun _ _ h => by cases h; rfl
theorem mul (f : Fields) : Statement (.mul f) := fun _ _ h => by cases h; rfl
theorem mulh (f : Fields) : Statement (.mulh f) := fun _ _ h => by cases h; rfl
theorem mad (f : Fields) : Statement (.mad f) := fun _ _ h => by cases h; rfl
theorem div (f : Fields) : Statement (.div f) := fun _ _ h => by cases h; rfl
theorem rem (f : Fields) : Statement (.rem f) := fun _ _ h => by cases h; rfl
theorem min (f : Fields) : Statement (.min f) := fun _ _ h => by cases h; rfl
theorem max (f : Fields) : Statement (.max f) := fun _ _ h => by cases h; rfl
theorem abs (f : Fields) : Statement (.abs f) := fun _ _ h => by cases h; rfl
theorem and (f : Fields) : Statement (.and f) := fun _ _ h => by cases h; rfl
theorem or (f : Fields) : Statement (.or f) := fun _ _ h => by cases h; rfl
theorem xor (f : Fields) : Statement (.xor f) := fun _ _ h => by cases h; rfl
theorem andn (f : Fields) : Statement (.andn f) := fun _ _ h => by cases h; rfl
theorem not (f : Fields) : Statement (.not f) := fun _ _ h => by cases h; rfl
theorem shl (f : Fields) : Statement (.shl f) := fun _ _ h => by cases h; rfl
theorem shr (f : Fields) : Statement (.shr f) := fun _ _ h => by cases h; rfl
theorem sar (f : Fields) : Statement (.sar f) := fun _ _ h => by cases h; rfl
theorem rot (f : Fields) : Statement (.rot f) := fun _ _ h => by cases h; rfl
theorem popc (f : Fields) : Statement (.popc f) := fun _ _ h => by cases h; rfl
theorem clz (f : Fields) : Statement (.clz f) := fun _ _ h => by cases h; rfl
theorem ctz (f : Fields) : Statement (.ctz f) := fun _ _ h => by cases h; rfl
theorem brev (f : Fields) : Statement (.brev f) := fun _ _ h => by cases h; rfl
theorem bfx (f : Fields) : Statement (.bfx f) := fun _ _ h => by cases h; rfl
theorem bfi (f : Fields) : Statement (.bfi f) := fun _ _ h => by cases h; rfl
theorem lea (f : Fields) : Statement (.lea f) := fun _ _ h => by cases h; rfl
theorem sel (f : Fields) : Statement (.sel f) := fun _ _ h => by cases h; rfl
theorem mov (f : Fields) : Statement (.mov f) := fun _ _ h => by cases h; rfl
theorem setp (f : Fields) : Statement (.setp f) := fun _ _ h => by cases h; rfl
theorem plog (f : Fields) : Statement (.plog f) := fun _ _ h => by cases h; rfl
theorem addx (f : Fields) : Statement (.addx f) := fun _ _ h => by cases h; rfl
theorem idp4 (f : Fields) : Statement (.idp4 f) := fun _ _ h => by cases h; rfl
theorem fadd (f : Fields) : Statement (.fadd f) := fun _ _ h => by cases h; rfl
theorem fsub (f : Fields) : Statement (.fsub f) := fun _ _ h => by cases h; rfl
theorem fmul (f : Fields) : Statement (.fmul f) := fun _ _ h => by cases h; rfl
theorem ffma (f : Fields) : Statement (.ffma f) := fun _ _ h => by cases h; rfl
theorem fmin (f : Fields) : Statement (.fmin f) := fun _ _ h => by cases h; rfl
theorem fmax (f : Fields) : Statement (.fmax f) := fun _ _ h => by cases h; rfl
theorem fsetp (f : Fields) : Statement (.fsetp f) := fun _ _ h => by cases h; rfl
theorem fcls (f : Fields) : Statement (.fcls f) := fun _ _ h => by cases h; rfl
theorem frcp (f : Fields) : Statement (.frcp f) := fun _ _ h => by cases h; rfl
theorem frsq (f : Fields) : Statement (.frsq f) := fun _ _ h => by cases h; rfl
theorem fsqrt (f : Fields) : Statement (.fsqrt f) := fun _ _ h => by cases h; rfl
theorem fexp2 (f : Fields) : Statement (.fexp2 f) := fun _ _ h => by cases h; rfl
theorem flog2 (f : Fields) : Statement (.flog2 f) := fun _ _ h => by cases h; rfl
theorem ftanh (f : Fields) : Statement (.ftanh f) := fun _ _ h => by cases h; rfl
theorem hadd2 (f : Fields) : Statement (.hadd2 f) := fun _ _ h => by cases h; rfl
theorem hmul2 (f : Fields) : Statement (.hmul2 f) := fun _ _ h => by cases h; rfl
theorem hfma2 (f : Fields) : Statement (.hfma2 f) := fun _ _ h => by cases h; rfl
theorem fdp2 (f : Fields) : Statement (.fdp2 f) := fun _ _ h => by cases h; rfl
theorem cvt (f : Fields) : Statement (.cvt f) := fun _ _ h => by cases h; rfl
theorem cvts (f : Fields) : Statement (.cvts f) := fun _ _ h => by cases h; rfl
theorem frnd (f : Fields) : Statement (.frnd f) := fun _ _ h => by cases h; rfl
theorem fscale (f : Fields) : Statement (.fscale f) := fun _ _ h => by cases h; rfl
theorem shfl (f : Fields) : Statement (.shfl f) := fun _ _ h => by cases h; rfl
theorem vote (f : Fields) : Statement (.vote f) := fun _ _ h => by cases h; rfl
theorem gred (f : Fields) : Statement (.gred f) := fun _ _ h => by cases h; rfl
theorem gscan (f : Fields) : Statement (.gscan f) := fun _ _ h => by cases h; rfl
theorem rebal (f : Fields) : Statement (.rebal f) := fun _ _ h => by cases h; rfl
theorem rdln (f : Fields) : Statement (.rdln f) := fun _ _ h => by cases h; rfl
theorem mfs (f : Fields) : Statement (.mfs f) := fun _ _ h => by cases h; rfl
theorem mts (f : Fields) : Statement (.mts f) := fun _ _ h => by cases h; rfl
theorem qstat (f : Fields) : Statement (.qstat f) := fun _ _ h => by cases h; rfl
theorem mtch (f : Fields) : Statement (.mtch f) := fun _ _ h => by cases h; rfl
theorem ld (f : Fields) : Statement (.ld f) := fun _ _ h => by cases h; rfl
theorem st (f : Fields) : Statement (.st f) := fun _ _ h => by cases h; rfl
theorem atom (f : Fields) : Statement (.atom f) := fun _ _ h => by cases h; rfl
theorem red (f : Fields) : Statement (.red f) := fun _ _ h => by cases h; rfl
theorem cas (f : Fields) : Statement (.cas f) := fun _ _ h => by cases h; rfl
theorem fence (f : Fields) : Statement (.fence f) := fun _ _ h => by cases h; rfl
theorem pref (f : Fields) : Statement (.pref f) := fun _ _ h => by cases h; rfl
theorem cctl (f : Fields) : Statement (.cctl f) := fun _ _ h => by cases h; rfl
theorem testp (f : Fields) : Statement (.testp f) := fun _ _ h => by cases h; rfl
theorem cpsl (f : Fields) : Statement (.cpsl f) := fun _ _ h => by cases h; rfl
theorem cpc (f : Fields) : Statement (.cpc f) := fun _ _ h => by cases h; rfl
theorem gath (f : Fields) : Statement (.gath f) := fun _ _ h => by cases h; rfl
theorem scat (f : Fields) : Statement (.scat f) := fun _ _ h => by cases h; rfl
theorem scata (f : Fields) : Statement (.scata f) := fun _ _ h => by cases h; rfl
theorem mma (f : Fields) : Statement (.mma f) := fun _ _ h => by cases h; rfl
theorem mmag (f : Fields) : Statement (.mmag f) := fun _ _ h => by cases h; rfl
theorem acalloc (f : Fields) : Statement (.acalloc f) := fun _ _ h => by cases h; rfl
theorem acfree (f : Fields) : Statement (.acfree f) := fun _ _ h => by cases h; rfl
theorem aczero (f : Fields) : Statement (.aczero f) := fun _ _ h => by cases h; rfl
theorem obres (f : Fields) : Statement (.obres f) := fun _ _ h => by cases h; rfl
theorem obrel (f : Fields) : Statement (.obrel f) := fun _ _ h => by cases h; rfl
theorem drain (f : Fields) : Statement (.drain f) := fun _ _ h => by cases h; rfl
theorem qcfg (f : Fields) : Statement (.qcfg f) := fun _ _ h => by cases h; rfl
theorem sysc (f : Fields) : Statement (.sysc f) := fun _ _ h => by cases h; rfl
theorem csrr (f : Fields) : Statement (.csrr f) := fun _ _ h => by cases h; rfl
theorem csrw (f : Fields) : Statement (.csrw f) := fun _ _ h => by cases h; rfl
theorem tlbi (f : Fields) : Statement (.tlbi f) := fun _ _ h => by cases h; rfl
theorem eret (f : Fields) : Statement (.eret f) := fun _ _ h => by cases h; rfl
theorem halt (f : Fields) : Statement (.halt f) := fun _ _ h => by cases h; rfl
theorem activeSetSwap (a : AgentId) : Statement (.activeSetSwap a) := fun _ _ h => by cases h
theorem goose (a : AgentId) : Statement (.goose a) := fun _ _ h => by cases h
theorem resultLands (a : AgentId) (n : Nat) : Statement (.resultLands a n) := fun _ _ h => by cases h
theorem loadReply (a : AgentId) (n : Nat) : Statement (.loadReply a n) := fun _ _ h => by cases h
theorem storeAcknowledge (a : AgentId) (n : Nat) : Statement (.storeAcknowledge a n) := fun _ _ h => by cases h
theorem exclusivityIdleEnd (line : Nat) : Statement (.exclusivityIdleEnd line) := fun _ _ h => by cases h
theorem queueWake (team q : Nat) : Statement (.queueWake team q) := fun _ _ h => by cases h
theorem rltGrant (cmd : Nat) : Statement (.rltGrant cmd) := fun _ _ h => by cases h
theorem engineLineLands (cmd line : Nat) : Statement (.engineLineLands cmd line) := fun _ _ h => by cases h
theorem copyComplete (cmd : Nat) : Statement (.copyComplete cmd) := fun _ _ h => by cases h
theorem copyFault (cmd line : Nat) : Statement (.copyFault cmd line) := fun _ _ h => by cases h
theorem geComplete (cmd : Nat) : Statement (.geComplete cmd) := fun _ _ h => by cases h
theorem geFault (cmd : Nat) : Statement (.geFault cmd) := fun _ _ h => by cases h
theorem oxRingRead (cmd : Nat) : Statement (.oxRingRead cmd) := fun _ _ h => by cases h
theorem drainQueuePush (cmd : Nat) : Statement (.drainQueuePush cmd) := fun _ _ h => by cases h
theorem oxComplete (cmd : Nat) : Statement (.oxComplete cmd) := fun _ _ h => by cases h
theorem oxFault (cmd : Nat) : Statement (.oxFault cmd) := fun _ _ h => by cases h
theorem acallocGrant (cluster : Nat) : Statement (.acallocGrant cluster) := fun _ _ h => by cases h
theorem eventPost (team : Nat) : Statement (.eventPost team) := fun _ _ h => by cases h
theorem monitorRegister (n : Nat) : Statement (.monitorRegister n) := fun _ _ h => by cases h
theorem monitorWake (n : Nat) : Statement (.monitorWake n) := fun _ _ h => by cases h
theorem monitorTimeout (slice : Nat) : Statement (.monitorTimeout slice) := fun _ _ h => by cases h
theorem napWake (a : AgentId) (lane : Nat) : Statement (.napWake a lane) := fun _ _ h => by cases h
theorem contextEnd (part asid : Nat) : Statement (.contextEnd part asid) := fun _ _ h => by cases h
theorem faultQueueRetry (part idx : Nat) : Statement (.faultQueueRetry part idx) := fun _ _ h => by cases h
theorem faultQueueRefuse (part idx : Nat) : Statement (.faultQueueRefuse part idx) := fun _ _ h => by cases h
theorem fqrdWrite (part : Nat) (w : W64) : Statement (.fqrdWrite part w) := fun _ _ h => by cases h
theorem teamSave (team : Nat) : Statement (.teamSave team) := fun _ _ h => by cases h
theorem teamRestore (team cluster : Nat) : Statement (.teamRestore team cluster) := fun _ _ h => by cases h
theorem teamMigrate (team cluster : Nat) : Statement (.teamMigrate team cluster) := fun _ _ h => by cases h
theorem queueEnable (part q : Nat) (w : W64) : Statement (.queueEnable part q w) := fun _ _ h => by cases h
theorem queueDisable (part q : Nat) (w : W64) : Statement (.queueDisable part q w) := fun _ _ h => by cases h
theorem qdoor (part q : Nat) (w : W64) : Statement (.qdoor part q w) := fun _ _ h => by cases h
theorem launchPacket (part q : Nat) : Statement (.launchPacket part q) := fun _ _ h => by cases h
theorem copyPacket (part q : Nat) : Statement (.copyPacket part q) := fun _ _ h => by cases h
theorem signalPacket (part q : Nat) : Statement (.signalPacket part q) := fun _ _ h => by cases h
theorem waitmonPacket (part q : Nat) : Statement (.waitmonPacket part q) := fun _ _ h => by cases h
theorem fencePacket (part q : Nat) : Statement (.fencePacket part q) := fun _ _ h => by cases h
theorem markerPacket (part q : Nat) : Statement (.markerPacket part q) := fun _ _ h => by cases h
theorem childValidate (n : Nat) : Statement (.childValidate n) := fun _ _ h => by cases h
theorem teamStart (grid : Nat) : Statement (.teamStart grid) := fun _ _ h => by cases h
theorem gridEnd (grid : Nat) : Statement (.gridEnd grid) := fun _ _ h => by cases h
theorem telemetryFrame (linkB : Bool) (bytes : List Byte) : Statement (.telemetryFrame linkB bytes) := fun _ _ h => by cases h
theorem partialFrameDiscard (linkB : Bool) : Statement (.partialFrameDiscard linkB) := fun _ _ h => by cases h
theorem failsafeEntry : Statement (.failsafeEntry) := fun _ _ h => by cases h
theorem curveTick : Statement (.curveTick) := fun _ _ h => by cases h
theorem graceExpiry (cls : Nat) : Statement (.graceExpiry cls) := fun _ _ h => by cases h
theorem controlInterval (die : Nat) (temps : List Nat) : Statement (.controlInterval die temps) := fun _ _ h => by cases h
theorem currentLimit (pair : Nat) (above : Bool) : Statement (.currentLimit pair above) := fun _ _ h => by cases h
theorem mule (pair lower upper : Nat) : Statement (.mule pair lower upper) := fun _ _ h => by cases h
theorem thermalMigration (pair : Nat) : Statement (.thermalMigration pair) := fun _ _ h => by cases h
theorem pairPowerGate (pair : Nat) : Statement (.pairPowerGate pair) := fun _ _ h => by cases h
theorem powerEnable (w : W64) : Statement (.powerEnable w) := fun _ _ h => by cases h
theorem powerDisable (w : W64) : Statement (.powerDisable w) := fun _ _ h => by cases h
theorem sessionOpen (part ctx : Nat) (w : W64) : Statement (.sessionOpen part ctx w) := fun _ _ h => by cases h
theorem sessionClose (part ctx : Nat) (w : W64) : Statement (.sessionClose part ctx w) := fun _ _ h => by cases h
theorem lostClear (part ctx : Nat) : Statement (.lostClear part ctx) := fun _ _ h => by cases h
theorem watchpointArm (part ctx j : Nat) (w : W64) : Statement (.watchpointArm part ctx j w) := fun _ _ h => by cases h
theorem sample (cluster part ctx : Nat) : Statement (.sample cluster part ctx) := fun _ _ h => by cases h
theorem lcrClear (part cluster bin ctr : Nat) : Statement (.lcrClear part cluster bin ctr) := fun _ _ h => by cases h
theorem hostWrite (part off : Nat) (bytes : List Byte) : Statement (.hostWrite part off bytes) := fun _ _ h => by cases h
theorem hostRead (part off n : Nat) : Statement (.hostRead part off n) := fun _ _ h => by cases h
theorem mdoor (w : W64) : Statement (.mdoor w) := fun _ _ h => by cases h
theorem cecntClear : Statement (.cecntClear) := fun _ _ h => by cases h
theorem registerWrite (vf : Option Nat) (bar off : Nat) (w : W64) : Statement (.registerWrite vf bar off w) := fun _ _ h => by cases h
theorem requestTimeout (x : Victim) : Statement (.requestTimeout x) := fun _ _ h => by cases h
theorem peerAccess (dev srcPart part : Nat) (op : PeerOp) : Statement (.peerAccess dev srcPart part op) := fun _ _ h => by cases h
theorem atcmd (part : Nat) (w : W64) : Statement (.atcmd part w) := fun _ _ h => by cases h
theorem attestationReport (part : Nat) (ok : Bool) : Statement (.attestationReport part ok) := fun _ _ h => by cases h
theorem powerOnReset : Statement (.powerOnReset) := fun _ _ h => by cases h
theorem correctedError : Statement (.correctedError) := fun _ _ h => by cases h
theorem uncorrectableError (x : ErrPlace) : Statement (.uncorrectableError x) := fun _ _ h => by cases h
theorem patrolScrub (line : Nat) : Statement (.patrolScrub line) := fun _ _ h => by cases h
theorem reservedOpcode (w : Code128) : Statement (.reservedOpcode w) := fun _ _ h => by cases h
theorem fetchFault (code : Byte) : Statement (.fetchFault code) := fun _ _ h => by cases h
theorem linkValidFrameTimeout (linkB : Bool) : Statement (.linkValidFrameTimeout linkB) := fun _ _ h => by cases h
theorem releaseWaitExpiry (a : AgentId) : Statement (.releaseWaitExpiry a) := fun _ _ h => by cases h
theorem tlbiComplete (a : AgentId) : Statement (.tlbiComplete a) := fun _ _ h => by cases h
theorem syscAnswer (a : AgentId) (w : W64) : Statement (.syscAnswer a w) := fun _ _ h => by cases h
theorem firmwareTimer (die : Nat) : Statement (.firmwareTimer die) := fun _ _ h => by cases h
theorem privilegedThreadStart (die entry : Nat) : Statement (.privilegedThreadStart die entry) := fun _ _ h => by cases h
theorem replayWaitDelivery (a : AgentId) (lane : Nat) : Statement (.replayWaitDelivery a lane) := fun _ _ h => by cases h

end Sys2Proof.Laws.Form
end

