-- ==== Sys2Proof/Tests/Slice0.lean ====
section
/-! SUPPORT. Tests of the model: the words that the spec writes out, ill-formed terms, single steps, and for each statement states that meet its
hypotheses. -/

namespace Sys2Proof.Tests

open Sys2Proof Sys2Proof.Machine

set_option maxRecDepth 100000

/-- The fields of a word of zeros but for its opcode. -/
def z : Fields :=
  { fn := 0, ty := .n32, d := .v 0, a := .v 0, b := .v 0, c := .v 0, pg := 0, pn := false, uni := false, gate := false, fe := 0, sat := false,
    rm := .rne, wk := 0, md := 0, e := .v 0, g := .v 0, imm := 0 }

/-! ### Decoding -/

/-- The words that spec/02 prints: 8 FFMA.f32 v6, abs(v5), s2, -1.0; 11 (p2) J nt_done; 15 ST.n32.rel.dev.strm [s1 + v4 + nt_y], v6 | gate. -/
theorem test_decode_listing :
    decode 0xBF800000000002000007E18205064043#128 = .ok (.ffma { z with ty := .f32, d := .v 6, a := .v 5, b := .u 2, c := .imm, pg := 7, md := 2, imm := 0xbf800000 }) ∧
    decode 0x0000000F000000000002000000000001#128 = .ok (.j { z with pg := 2, imm := 0xf }) ∧
    decode 0x0000008000001A000027060481000081#128 = .ok (.st { z with a := .u 1, b := .v 4, c := .v 6, pg := 7, gate := true, md := 0x1a, imm := 0x80 }) := by decide

/-- The words that spec/05 prints: J.nz c5, 21 (control); CALLR v8 | fe=a (group); BAR | wk=k1; BARN 3, 4. -/
theorem test_decode_sweep :
    decode 0x00000015000000000007000085000101#128 = .ok (.j { z with fn := 1, a := .u 5, pg := 7, imm := 0x15 }) ∧
    decode 0x00000000000000000047000008000004#128 = .ok (.callr { z with a := .v 8, pg := 7, fe := 1 }) ∧
    decode 0x00000000000000020007000000000008#128 = .ok (.bar { z with pg := 7, wk := 2 }) ∧
    decode 0x000000040000000000070000E1000309#128 = .ok (.barn { z with fn := 3, a := .imm, pg := 7, imm := 4 }) := by decide

/-- The words that spec/08 prints: LD.i8.acq.dev v3, [v0 + 12]; ATOM.add.n32.ar.dev v4, [s2 + v6], v8; ATOM.min.n64 v10, [s4 + v2], v12; CAS.n64 v10, [s2], v12, v14; FENCE.rel.sys; CCTL.zero [s4 + v2]. -/
theorem test_decode_memory :
    decode 0x0000000C00000900000700E000038080#128 = .ok (.ld { z with ty := .i8, d := .v 3, a := .v 0, b := .zero, pg := 7, md := 9, imm := 0xc }) ∧
    decode 0x0000000000000B000007080682040082#128 = .ok (.atom { z with d := .v 4, a := .u 2, b := .v 6, c := .v 8, pg := 7, md := 0xb }) ∧
    decode 0x000000000000000000070C02840A2182#128 = .ok (.atom { z with fn := 1, ty := .n64, d := .v 10, a := .u 4, b := .v 2, c := .v 12, pg := 7 }) ∧
    decode 0x00000000000E000000070CE0820A2084#128 = .ok (.cas { z with ty := .n64, d := .v 10, a := .u 2, b := .zero, c := .v 12, pg := 7, e := .v 14 }) ∧
    decode 0x0000000000000E000007000000000085#128 = .ok (.fence { z with pg := 7, md := 0xe }) ∧
    decode 0x00000000000000000007000284000087#128 = .ok (.cctl { z with a := .u 4, b := .v 2, pg := 7 }) := by decide

/-- The words that spec/09 prints: 5 SETP.eq.n32 p1, v2, 1; 9 (p2) J cz_odd; 17 ST.n32 [s1 + v1 + cz_st], v3 | gate; 19 ST.n64 [s1 + cz_sw], s2 | uni. -/
theorem test_decode_collatz :
    decode 0x0000000100000000000700E102D1003C#128 = .ok (.setp { z with d := .p 1, a := .v 2, b := .imm, pg := 7, imm := 1 }) ∧
    decode 0x0000000D000000000002000000000001#128 = .ok (.j { z with pg := 2, imm := 0xd }) ∧
    decode 0x00000010000000000027030181000081#128 = .ok (.st { z with a := .u 1, b := .v 1, c := .v 3, pg := 7, gate := true, imm := 0x10 }) ∧
    decode 0x0000002000000000001782E081002081#128 = .ok (.st { z with ty := .n64, a := .u 1, b := .zero, c := .u 2, pg := 7, uni := true, imm := 0x20 }) := by decide

/-- The words that spec/10 prints: 8 J.nz s4, ex_obs; 21 ST.n32 [s1 + v4 + ex_out], v10; 23 RED.add.n32.rel.dev [s1 + ex_flag], s5 | uni. -/
theorem test_decode_exchange :
    decode 0x00000019000000000007000084000101#128 = .ok (.j { z with fn := 1, a := .u 4, pg := 7, imm := 0x19 }) ∧
    decode 0x000001000000000000070A0481000081#128 = .ok (.st { z with a := .u 1, b := .v 4, c := .v 10, pg := 7, imm := 0x100 }) ∧
    decode 0x0000040000000A00001785E081000083#128 = .ok (.red { z with a := .u 1, b := .zero, c := .u 5, pg := 7, uni := true, md := 0xa, imm := 0x400 }) := by decide

/-- The words that spec/11 prints: CPSL.k3 2, s8, s10, s12, s13, s14, 1, 2; CPC.k1 c2, c1, c3 (nt_ctl); WTOK | wk=k3. -/
theorem test_decode_copies :
    decode 0x00000201008E030000178D8C8A8802A0#128 = .ok (.cpsl { z with fn := 2, d := .u 8, a := .u 10, b := .u 12, c := .u 13, pg := 7, uni := true, md := 3, e := .u 14, imm := 0x201 }) ∧
    decode 0x0000000000E001000007E083818200A1#128 = .ok (.cpc { z with d := .u 2, a := .u 1, b := .u 3, c := .zero, pg := 7, md := 1, e := .zero }) ∧
    decode 0x0000000000000008000700000000000C#128 = .ok (.wtok { z with pg := 7, wk := 8 }) := by decide

/-- The words that spec/13 prints: 14 REBAL v4, v1, zero, v5, v6; 37 GATH.k1 s14, s10, s13, zero, 3; 44 GSCAN.add.excl.n32 v17, v16, v18; 46 (p2) ATOM.min.n64 zero, [s3 + v22 + BEST], v10; 83 CAS.n32 v26, [s3 + v25 + PAR], v24, v23; 90 BARN 1, 1 | gate. -/
theorem test_decode_boruvka :
    decode 0x0000000006050000000700E001040064#128 = .ok (.rebal { z with d := .v 4, a := .v 1, b := .zero, pg := 7, e := .v 5, g := .v 6 }) ∧
    decode 0x00000003000001000017E08D8A8E00A2#128 = .ok (.gath { z with d := .u 14, a := .u 10, b := .u 13, c := .zero, pg := 7, uni := true, md := 1, imm := 3 }) ∧
    decode 0x00000000001200000007000010110863#128 = .ok (.gscan { z with fn := 8, d := .v 17, a := .v 16, pg := 7, e := .v 18 }) ∧
    decode 0x000005000000000000020A1683E02182#128 = .ok (.atom { z with fn := 1, ty := .n64, d := .zero, a := .u 3, b := .v 22, c := .v 10, pg := 2, imm := 0x500 }) ∧
    decode 0x000005800017000000071819831A0084#128 = .ok (.cas { z with d := .v 26, a := .u 3, b := .v 25, c := .v 24, pg := 7, e := .v 23, imm := 0x580 }) ∧
    decode 0x000000010000000000270000E1000109#128 = .ok (.barn { z with fn := 1, a := .imm, pg := 7, gate := true, imm := 1 }) := by decide

/-- The words that spec/14 prints: QCFG q9, c4; QCFG q12, 0x85; QCFG q8, zero. -/
theorem test_decode_queues :
    decode 0x000000000000000000070000840009C8#128 = .ok (.qcfg { z with fn := 9, a := .u 4, pg := 7 }) ∧
    decode 0x000000850000000000070000E1000CC8#128 = .ok (.qcfg { z with fn := 0xc, a := .imm, pg := 7, imm := 0x85 }) ∧
    decode 0x000000000000000000070000E00008C8#128 = .ok (.qcfg { z with fn := 8, a := .zero, pg := 7 }) := by decide

/-- The words that spec/16 prints: MMA.k2.ev 5, ob3, ob4(c6, c7), c9; DRAIN.mx.e4m3.b32.k1 5, c10, zero, c11; ACALLOC c3, 4. -/
theorem test_decode_matrix :
    decode 0x000008658987120000070086000002C0#128 = .ok (.mma { z with fn := 2, b := .u 6, pg := 7, md := 0x12, e := .u 7, g := .u 9, imm := 0x865 }) ∧
    decode 0x000009050000010000078BE08A0003C7#128 = .ok (.drain { z with fn := 3, a := .u 10, b := .zero, c := .u 11, pg := 7, md := 1, imm := 0x905 }) ∧
    decode 0x000000040000000000070000E18300C2#128 = .ok (.acalloc { z with d := .u 3, a := .imm, pg := 7, imm := 4 }) := by decide

/-- The words that spec/17 prints: 10 CVT.e4m3.l6 v4, v3; 42 QCFG q12, 0x80; 51 MMAG; 53 DRAIN. -/
theorem test_decode_experts :
    decode 0x0000000000000000000700000304BE52#128 = .ok (.cvt { z with fn := 0xe, ty := .e4m3, d := .v 4, a := .v 3, pg := 7 }) ∧
    decode 0x000000800000000000070000E1000CC8#128 = .ok (.qcfg { z with fn := 0xc, a := .imm, pg := 7, imm := 0x80 }) ∧
    decode 0x000002008C8B02020007E08A898D03C1#128 = .ok (.mmag { z with fn := 3, d := .u 13, a := .u 9, b := .u 10, c := .zero, pg := 7, wk := 2, md := 2, e := .u 11, g := .u 12, imm := 0x200 }) ∧
    decode 0x0000092000000200000791E0000003C7#128 = .ok (.drain { z with fn := 3, b := .zero, c := .u 17, pg := 7, md := 2, imm := 0x920 }) := by decide

/-- The words that spec/18 prints: WAIT.ge.n32.acq.dev s6, [s1 + ex_flag], s7, p1 (index 28 of ex_ring); (p3) WAIT.any.n64 v10, [v4 + 8], v12, p2, s20; NAP.for 5000. -/
theorem test_decode_waits :
    decode 0x00000400E0D10900001787E08186050B#128 = .ok (.wait { z with fn := 5, d := .u 6, a := .u 1, b := .zero, c := .u 7, pg := 7, uni := true, md := 9, e := .p 1, g := .zero, imm := 0x400 }) ∧
    decode 0x0000000894D2000000030CE0040A2A0B#128 = .ok (.wait { z with fn := 0xa, ty := .n64, d := .v 10, a := .v 4, b := .zero, c := .v 12, pg := 3, e := .p 2, g := .u 20, imm := 8 }) ∧
    decode 0x000013880000000000070000E1000110#128 = .ok (.nap { z with fn := 1, a := .imm, pg := 7, imm := 0x1388 }) := by decide

/-- The words that spec/20 prints: CSRR c1, 0x001; TLBI.page c4, c5; TLBI.all; ERET. -/
theorem test_decode_system :
    decode 0x000000010000000000070000008100E1#128 = .ok (.csrr { z with d := .u 1, pg := 7, imm := 1 }) ∧
    decode 0x000000000000000000070085840000E3#128 = .ok (.tlbi { z with a := .u 4, b := .u 5, pg := 7 }) ∧
    decode 0x000000000000000000070000000003E3#128 = .ok (.tlbi { z with fn := 3, pg := 7 }) ∧
    decode 0x000000000000000000070000000000E4#128 = .ok (.eret { z with pg := 7 }) := by decide

/-- The words that spec/22 prints: 2 NAP.for 1000000 | uni; 4 WAIT.ge.i32.acq.dev s4, [s1 + rb_tail], s3, p7; 10 ST.n32.rel.dev [s1 + rb_head], s2 | uni; 18 WAIT.gen.n32.acq.dev s4, [s1 + rb_head], s3, p7. -/
theorem test_decode_pipeline :
    decode 0x000F42400000000000170000E1000110#128 = .ok (.nap { z with fn := 1, a := .imm, pg := 7, uni := true, imm := 0xf4240 }) ∧
    decode 0x00000004E0D70900001783E08184150B#128 = .ok (.wait { z with fn := 5, ty := .i32, d := .u 4, a := .u 1, b := .zero, c := .u 3, pg := 7, uni := true, md := 9, e := .p 7, g := .zero, imm := 4 }) ∧
    decode 0x0000000000000A00001782E081000081#128 = .ok (.st { z with a := .u 1, b := .zero, c := .u 2, pg := 7, uni := true, md := 0xa }) ∧
    decode 0x00000000E0D70900001783E08184090B#128 = .ok (.wait { z with fn := 9, d := .u 4, a := .u 1, b := .zero, c := .u 3, pg := 7, uni := true, md := 9, e := .p 7, g := .zero }) := by decide

/-- The opcodes 0x00 to 0x10 of R47, each in a word whose other fields are zero. -/
theorem test_opcodes_sweep :
    ([(0x00, .nop z), (0x01, .j z), (0x02, .jr z), (0x03, .call z), (0x04, .callr z), (0x05, .ret z), (0x06, .exit z), (0x07, .yield z), 
      (0x08, .bar z), (0x09, .barn z), (0x0A, .bara z), (0x0B, .wait z), (0x0C, .wtok z), (0x0D, .trap z), (0x0E, .brk z), 
      (0x0F, .launch z), (0x10, .nap z)] : List (Nat × Instr)).all (fun e => decide (parse (BitVec.ofNat 128 e.1) = .ok e.2)) = true := by decide

/-- The opcodes 0x20 to 0x3F of R47, each in a word whose other fields are zero. -/
theorem test_opcodes_integer :
    ([(0x20, .add z), (0x21, .sub z), (0x22, .mul z), (0x23, .mulh z), (0x24, .mad z), (0x25, .div z), (0x26, .rem z), (0x27, .min z), 
      (0x28, .max z), (0x29, .abs z), (0x2A, .and z), (0x2B, .or z), (0x2C, .xor z), (0x2D, .andn z), (0x2E, .not z), (0x2F, .shl z), 
      (0x30, .shr z), (0x31, .sar z), (0x32, .rot z), (0x33, .popc z), (0x34, .clz z), (0x35, .ctz z), (0x36, .brev z), (0x37, .bfx z), 
      (0x38, .bfi z), (0x39, .lea z), (0x3A, .sel z), (0x3B, .mov z), (0x3C, .setp z), (0x3D, .plog z), (0x3E, .addx z), (0x3F, .idp4 z)] : List (Nat × Instr)).all (fun e => decide (parse (BitVec.ofNat 128 e.1) = .ok e.2)) = true := by decide

/-- The opcodes 0x40 to 0x55 of R47, each in a word whose other fields are zero. -/
theorem test_opcodes_float :
    ([(0x40, .fadd z), (0x41, .fsub z), (0x42, .fmul z), (0x43, .ffma z), (0x44, .fmin z), (0x45, .fmax z), (0x46, .fsetp z), 
      (0x47, .fcls z), (0x48, .frcp z), (0x49, .frsq z), (0x4A, .fsqrt z), (0x4B, .fexp2 z), (0x4C, .flog2 z), (0x4D, .ftanh z), 
      (0x4E, .hadd2 z), (0x4F, .hmul2 z), (0x50, .hfma2 z), (0x51, .fdp2 z), (0x52, .cvt z), (0x53, .cvts z), (0x54, .frnd z), 
      (0x55, .fscale z)] : List (Nat × Instr)).all (fun e => decide (parse (BitVec.ofNat 128 e.1) = .ok e.2)) = true := by decide

/-- The opcodes 0x60 to 0x69 of R47, each in a word whose other fields are zero. -/
theorem test_opcodes_group :
    ([(0x60, .shfl z), (0x61, .vote z), (0x62, .gred z), (0x63, .gscan z), (0x64, .rebal z), (0x65, .rdln z), (0x66, .mfs z), 
      (0x67, .mts z), (0x68, .qstat z), (0x69, .mtch z)] : List (Nat × Instr)).all (fun e => decide (parse (BitVec.ofNat 128 e.1) = .ok e.2)) = true := by decide

/-- The opcodes 0x80 to 0x88 of R47, each in a word whose other fields are zero. -/
theorem test_opcodes_memory :
    ([(0x80, .ld z), (0x81, .st z), (0x82, .atom z), (0x83, .red z), (0x84, .cas z), (0x85, .fence z), (0x86, .pref z), (0x87, .cctl z), 
      (0x88, .testp z)] : List (Nat × Instr)).all (fun e => decide (parse (BitVec.ofNat 128 e.1) = .ok e.2)) = true := by decide

/-- The opcodes 0xA0 to 0xA4 of R47, each in a word whose other fields are zero. -/
theorem test_opcodes_engines :
    ([(0xA0, .cpsl z), (0xA1, .cpc z), (0xA2, .gath z), (0xA3, .scat z), (0xA4, .scata z)] : List (Nat × Instr)).all (fun e => decide (parse (BitVec.ofNat 128 e.1) = .ok e.2)) = true := by decide

/-- The opcodes 0xC0 to 0xC8 of R47, each in a word whose other fields are zero. -/
theorem test_opcodes_matrix :
    ([(0xC0, .mma z), (0xC1, .mmag z), (0xC2, .acalloc z), (0xC3, .acfree z), (0xC4, .aczero z), (0xC5, .obres z), (0xC6, .obrel z), 
      (0xC7, .drain z), (0xC8, .qcfg z)] : List (Nat × Instr)).all (fun e => decide (parse (BitVec.ofNat 128 e.1) = .ok e.2)) = true := by decide

/-- The opcodes 0xE0 to 0xE5 of R47, each in a word whose other fields are zero. -/
theorem test_opcodes_system :
    ([(0xE0, .sysc z), (0xE1, .csrr z), (0xE2, .csrw z), (0xE3, .tlbi z), (0xE4, .eret z), (0xE5, .halt z)] : List (Nat × Instr)).all (fun e => decide (parse (BitVec.ofNat 128 e.1) = .ok e.2)) = true := by decide

/-- `MOV.n64 s2, q0` and `LD.n32 v5, [s3 + v4] | wk=k1` (spec/03, after R49). -/
theorem test_decode_agents :
    decode 0x000000000000000000170000C082203B#128 = .ok (.mov { z with ty := .n64, d := .u 2, a := .q 0, pg := 7, uni := true }) ∧
    decode 0x00000000000000020007000483050080#128 = .ok (.ld { z with d := .v 5, a := .u 3, b := .v 4, pg := 7, wk := 2 }) := by decide

/-- `CVTS.pack.l6 v9, v4, s6, 2` (spec/06). -/
theorem test_decode_cvts :
    decode 0x00000002000000000007E18604090053#128 =
      .ok (.cvts { z with d := .v 9, a := .v 4, b := .u 6, c := .imm, pg := 7, imm := 2 }) := by decide

/-- `GRED.fadd.f32 s4, v2` (spec/06). -/
theorem test_decode_gred :
    decode 0x00000000000000000017000002844662#128 = .ok (.gred { z with fn := 6, ty := .f32, d := .u 4, a := .v 2, pg := 7, uni := true }) := by
  decide

/-- `GATH.k2 s8, s9, s10, s11, 5` and `SCATA.exch.n32.k1.ev c2, c3, c5, c4, 7` (spec/12). -/
theorem test_decode_gather :
    decode 0x000000050000020000178B8A898800A2#128 =
      .ok (.gath { z with d := .u 8, a := .u 9, b := .u 10, c := .u 11, pg := 7, uni := true, md := 2, imm := 5 }) ∧
    decode 0x000000070084110000078583820006A4#128 =
      .ok (.scata { z with fn := 6, a := .u 2, b := .u 3, c := .u 5, e := .u 4, pg := 7, md := 0x11, imm := 7 }) := by decide

/-- `LAUNCH.k3 v8` (spec/19). -/
theorem test_decode_launch : decode 0x0000000000000300000700000800000F#128 = .ok (.launch { z with a := .v 8, pg := 7, md := 3 }) := by decide

/-- Fields at the ends of their ranges: v127 and a literal with every bit set; zero and p7; a control thread's c63 and q3 (R39, R44). -/
theorem test_decode_edges :
    decode 0xFFFFFFFF0000000000070000E17F0020#128 = .ok (.add { z with d := .v 127, a := .imm, b := .v 0, pg := 7, imm := 0xFFFFFFFF }) ∧
    decode 0x0000000000D700000007D7E0E07F003E#128 =
      .ok (.addx { z with d := .v 127, a := .zero, b := .zero, c := .p 7, e := .p 7, pg := 7 }) ∧
    decode 0x000000000000000000070000BFC3203B#128 = .ok (.mov { z with ty := .n64, d := .q 3, a := .u 63, pg := 7 }) := by decide

/-! ### Ill-formed terms -/

/-- A form is refused for each check of R49 that a form can fail for every agent: step 2 (FN, TY, SAT, RM, MD, WK), step 3 (UNI, PG, PN), step 4 (the
operand fields and FE), step 5 (IMM) and step 7 (queues); the last line is well-formed. -/
theorem test_ill_formed_forms :
    (Instr.add { z with fn := 1, pg := 7 }).wellFormed = false ∧ (Instr.add { z with ty := .f32, pg := 7 }).wellFormed = false ∧
    (Instr.min { z with sat := true, pg := 7 }).wellFormed = false ∧ (Instr.add { z with rm := .rz, pg := 7 }).wellFormed = false ∧
    (Instr.add { z with md := 1, pg := 7 }).wellFormed = false ∧ (Instr.wtok { z with pg := 7 }).wellFormed = false ∧
    (Instr.nop { z with uni := true, pg := 6 }).wellFormed = false ∧ (Instr.nop { z with pn := true, pg := 7 }).wellFormed = false ∧
    (Instr.bar { z with uni := true, pg := 7 }).wellFormed = false ∧ (Instr.csrr { z with d := .u 1, uni := true, pg := 7 }).wellFormed = false ∧
    (Instr.nop { z with d := .v 1, pg := 7 }).wellFormed = false ∧ (Instr.add { z with ty := .n64, d := .v 1, pg := 7 }).wellFormed = false ∧
    (Instr.add { z with d := .imm, pg := 7 }).wellFormed = false ∧ (Instr.add { z with a := .p 1, pg := 7 }).wellFormed = false ∧
    (Instr.setp { z with d := .v 1, pg := 7 }).wellFormed = false ∧ (Instr.not { z with fe := 2, pg := 7 }).wellFormed = false ∧
    (Instr.add { z with imm := 1, pg := 7 }).wellFormed = false ∧ (Instr.j { z with imm := 0x10000000, pg := 7 }).wellFormed = false ∧
    (Instr.csrr { z with d := .u 1, imm := 5, pg := 7 }).wellFormed = false ∧
    (Instr.add { z with d := .v 1, a := .q 12, b := .q 13, pg := 7 }).wellFormed = false ∧
    (Instr.ld { z with d := .q 8, a := .v 2, b := .zero, pg := 7 }).wellFormed = false ∧
    (Instr.add { z with d := .v 1, a := .q 12, pg := 7 }).wellFormed = true := by decide

/-- A step is refused whose agent, lane, queue, cluster, slice, partition, context, class, die, pair, watchpoint, bin or device no part has. -/
theorem test_ill_formed_steps :
    (Instr.goose ⟨0, 129⟩).wellFormed = false ∧ (Instr.napWake ⟨0, 0⟩ 32).wellFormed = false ∧ (Instr.queueWake 0 16).wellFormed = false ∧
    (Instr.acallocGrant 384).wellFormed = false ∧ (Instr.teamMigrate 0 384).wellFormed = false ∧ (Instr.monitorTimeout 768).wellFormed = false ∧
    (Instr.contextEnd 12 0).wellFormed = false ∧ (Instr.contextEnd 0 65536).wellFormed = false ∧ (Instr.fqrdWrite 12 0).wellFormed = false ∧
    (Instr.qdoor 0 64 0).wellFormed = false ∧ (Instr.markerPacket 12 0).wellFormed = false ∧ (Instr.graceExpiry 4).wellFormed = false ∧
    (Instr.firmwareTimer 12).wellFormed = false ∧ (Instr.mule 192 0 0).wellFormed = false ∧ (Instr.sessionOpen 0 65536 0).wellFormed = false ∧
    (Instr.watchpointArm 0 0 16 0).wellFormed = false ∧ (Instr.sample 384 0 0).wellFormed = false ∧ (Instr.lcrClear 0 0 64 0).wellFormed = false ∧
    (Instr.hostRead 12 0 0).wellFormed = false ∧ (Instr.registerWrite (some 12) 0 0 0).wellFormed = false ∧
    (Instr.peerAccess 1024 0 0 (.read 0 1)).wellFormed = false ∧ (Instr.atcmd 12 0).wellFormed = false ∧
    (Instr.goose ⟨0, 128⟩).wellFormed = true ∧ (Instr.lcrClear 11 383 63 63).wellFormed = true := by decide

/-! ### States that meet the hypotheses of the statements -/

/-- The placed group, and the placed thread. -/
def grp : AgentId := ⟨0, 0⟩
def thr : AgentId := ⟨0, ctlWho⟩

/-- The state in which the agent that may execute `i` stands at its beats, after reset with the word of `i` placed. -/
def stand (i : Instr) : State :=
  match (State.reset.place ((encode i).getD 0)).prepare ⟨0, placedWho (placedKind ((encode i).getD 0))⟩ with
  | .go _ s => s
  | .stay s => s

/-- What `Due` asks of the agent and its team besides being current, and of the accesses and the release. -/
def settledBeat (i : Instr) (f : Fields) (s : State) (b : Beat) : Bool :=
  decide (decodeFault b.x.kind b.x.budget i = none) && tokensDone b.t b.x.arr.wk &&
    decide (readiness b.x (checkedRow i b.row) f (if b.perf ≠ 0 then sourceLanes i f b.act b.perf else []) (lanesIn b.perf) (lanesIn b.act)
      (b.x.arr.granted.isSome || b.x.arr.pushed) = .ready) &&
    decide ((shapeOf i f).mem = true → b.perf ≠ 0 → (b.x.pend.any fun e => decide (e.2.acq &&& b.perf ≠ 0)) = false) &&
    (decide (b.perf = 0) || b.x.arr.released || (shapeOf i f).rel.all fun sc => releaseDone s b.x sc) && decide (s.flaws = [])

/-- The next beat of `i`, if it is due. -/
def dueAt (i : Instr) (f : Fields) (s : State) : Option Beat :=
  match s.current, rowFor i with
  | some (a, t, x), some r => if settledBeat i f s (beatOf i f r a t x) then some (beatOf i f r a t x) else none
  | _, _ => none

/-- What `dueAt` answers is due. -/
theorem due_of_dueAt {i : Instr} {f : Fields} {s : State} {b : Beat} (h : dueAt i f s = some b) : Due i f s b := by
  unfold dueAt at h
  split at h
  · rename_i a t x r hc hr
    split at h
    · rename_i hd
      rw [Option.some.injEq] at h
      have ha : b.a = a := by subst h; rfl
      have ht : b.t = t := by subst h; rfl
      have hx : b.x = x := by subst h; rfl
      rw [h] at hd
      simp only [settledBeat, Bool.and_eq_true, decide_eq_true_eq, Bool.or_eq_true] at hd
      obtain ⟨⟨⟨⟨⟨h1, h2⟩, h3⟩, h4⟩, h5⟩, h6⟩ := hd
      refine ⟨⟨r, by rw [ha, ht, hx]; exact hc, hr, by rw [ha, ht, hx]; exact h.symm⟩, h1, h2, h3, h4, fun sc hsc hp => ?_, h6⟩
      rcases h5 with (h5 | h5) | h5
      · exact absurd h5 hp
      · exact Or.inl h5
      · rw [hsc] at h5; exact Or.inr h5
    · exact absurd h (by simp)
  · exact absurd h (by simp)

/-- A beat is due that has the property `P`. -/
theorem due_with (P : Beat → Prop) [DecidablePred P] {i : Instr} {f : Fields} {s : State}
    (h : ((dueAt i f s).any fun b => decide (P b)) = true) : ∃ b, Due i f s b ∧ P b := by
  match hd : dueAt i f s with
  | none => rw [hd] at h; exact absurd h (by simp)
  | some b => exact ⟨b, due_of_dueAt hd, by rw [hd] at h; simpa using h⟩

/-- One performing lane, or UNI, makes a beat single. -/
theorem single_of {b : Beat} (h : b.f.uni = true ∨ (lanesIn b.perf).length ≤ 1) : b.single := by
  rcases h with h | h
  · exact Or.inl h
  · exact Or.inr (Or.inr h)

/-- A single beat is due that has the property `P`. -/
theorem due_single (P : Beat → Prop) [DecidablePred P] {i : Instr} {f : Fields} {s : State}
    (h : ((dueAt i f s).any fun b => decide (P b ∧ b.f.uni = true)) = true) : ∃ b, Due i f s b ∧ P b ∧ b.single :=
  (due_with (fun b => P b ∧ b.f.uni = true) h).imp fun _ hb => ⟨hb.1, hb.2.1, Or.inl hb.2.2⟩

/-- An outcome that is a next state. -/
def isNext : Host.Outcome State Fault Refusal → Bool
  | .next _ => true
  | _ => false

theorem next_of {o : Host.Outcome State Fault Refusal} (h : isNext o = true) : ∃ t, o = .next t := by
  match o with
  | .next t => exact ⟨t, rfl⟩
  | .fault _ => exact absurd h (by simp [isNext])
  | .refused _ => exact absurd h (by simp [isNext])

/-- A change to the placed group, thread and team. -/
def onGrp (s : State) (h : Agent → Agent) : State := s.modAgent grp h
def onThr (s : State) (h : Agent → Agent) : State := s.modAgent thr h
def onTeam (s : State) (h : Team → Team) : State := s.modTeam 0 h

/-- Checks that every lane passes. -/
def passes : Checked → Bool
  | .pass _ => true
  | _ => false

theorem pass_of {c : Checked} (h : passes c = true) : ∃ l, c = .pass l := by
  match c with
  | .pass l => exact ⟨l, rfl⟩
  | .out _ => exact absurd h (by simp [passes])

/-- A lane's check that passes. -/
def isOk : Chk → Bool
  | .ok _ => true
  | _ => false

theorem ok_of {c : Chk} (h : isOk c = true) : ∃ p, c = .ok p := by
  match c with
  | .ok p => exact ⟨p, rfl⟩
  | .fault _ _ _ => exact absurd h (by simp [isOk])
  | .replay _ _ => exact absurd h (by simp [isOk])
  | .wait _ _ => exact absurd h (by simp [isOk])

/-- Device time 4 ns on: what a release at device scope waits for. -/
def later (s : State) : State := { s with dtime := s.dtime + 4 }

/-- The sweep itself stores nothing. -/
theorem noSpill_of {b : Beat} (h : b.x.f.toNat < 16 ∧ b.t.barReady = false ∧ b.x.runLanes ≠ []) : noSpill b := ⟨Or.inl h.1, h.2⟩

/-- ADD s3, s1, s2. -/
def fAdd : Fields := { z with d := .u 3, a := .u 1, b := .u 2, pg := 7, uni := true }
/-- FADD.f32 v3, v1, v2 | uni. -/
def fFadd : Fields := { z with ty := .f32, d := .v 3, a := .v 1, b := .v 2, pg := 7, uni := true }
/-- DIV v3, v1, v2. -/
def fDiv : Fields := { z with d := .v 3, a := .v 1, b := .v 2, pg := 7 }
/-- (p0) ADD v3, v1, v2, with p0 false in every lane. -/
def fOff : Fields := { z with d := .v 3, a := .v 1, b := .v 2, pg := 0 }
/-- ADDX s3, s1, s2, p1, with p1 as carry out. -/
def fAddx : Fields := { z with d := .u 3, a := .u 1, b := .u 2, c := .p 1, e := .p 1, pg := 7, uni := true }
/-- SETP.eq p1, v1, v2. -/
def fSetp : Fields := { z with d := .p 1, a := .v 1, b := .v 2, pg := 7 }

theorem witness_IntegerResults : (integerForm (.add fAdd)).isSome = true ∧ ∃ b, Due (.add fAdd) fAdd (stand (.add fAdd)) b ∧
    (quseOf b.row fAdd = .none ∧ b.perf ≠ 0) ∧ b.single := ⟨rfl, due_single _ (by decide)⟩

/-- CVTS.pack.l6 s3, s1, s2, 6 | uni: slot 6 lies beyond the word. -/
def fPack : Fields := { z with d := .u 3, a := .u 1, b := .u 2, c := .imm, pg := 7, uni := true, imm := 6 }

theorem witness_FloatResults : (floatForm (.fadd fFadd)).isSome = true ∧
    (∃ b, Due (.fadd fFadd) fFadd (stand (.fadd fFadd)) b ∧ (quseOf b.row fFadd = .none ∧ b.perf ≠ 0) ∧ b.single) ∧
    floatForm (.cvts fPack) = some (fPack, cvtsRes fPack) ∧ ∃ b, Due (.cvts fPack) fPack (stand (.cvts fPack)) b ∧
      (quseOf b.row fPack = .none ∧ b.perf ≠ 0 ∧ (cvtsRes fPack (valsOf b 0 [] (b.sourceOf 0))).keep = true) ∧ b.single :=
  ⟨rfl, due_single _ (by decide), rfl, due_single _ (by decide)⟩

theorem witness_LongResults : (longForm (.div fDiv)).isSome = true ∧ ∃ b, Due (.div fDiv) fDiv (stand (.div fDiv)) b ∧
    quseOf b.row fDiv = .none ∧ b.perf ≠ 0 ∧ b.x.runLanes ≠ [] := ⟨rfl, due_with _ (by decide)⟩

theorem witness_GuardedOff : ∃ b, Due (.add fOff) fOff (stand (.add fOff)) b ∧ quseOf b.row fOff = .none ∧ b.perf = 0 :=
  due_with _ (by decide)

theorem witness_AddxCarries : ∃ b, Due (.addx fAddx) fAddx (stand (.addx fAddx)) b ∧
    (quseOf b.row fAddx = .none ∧ b.perf ≠ 0) ∧ b.single := due_single _ (by decide)

theorem witness_SetpCompares : (∃ b, Due (.setp fSetp) fSetp (stand (.setp fSetp)) b ∧
    quseOf b.row fSetp = .none ∧ b.perf ≠ 0) ∧ 10 ≤ ({ fSetp with fn := 10 } : Fields).fn.toNat := ⟨due_with _ (by decide), by decide⟩

/-- Divisors zero, one and minus one under the most negative dividend; a shift by the width; a zero to count in; a NaN result. -/
theorem witness_OperationValues : DType.i32 ∈ int4 ∧ DType.n32 ∈ nat2 ∧ DType.f32 ∈ fp3 ∧ intVal .i32 0 = 0 ∧ intVal .i32 1 ≠ 0 ∧
    tySigned .i32 = true ∧ intVal .i32 0x80000000 = tyMin .i32 ∧ intVal .i32 0xFFFFFFFF = -1 ∧ tyWidth .i32 ≤ shiftCount 32 ∧ 0 < tyWidth .n32 ∧
    lowBits (tyWidth .n32) 0x100000000 = 0 ∧ (tyFmt .f32).decode (fpMul .f32 (fpMod .rne 0) 0x7F800000 0).1.toNat = .nan false := by decide

/-- 1 as an f32 and an f16 source, an integral value and the unit codes of the conversions. -/
theorem witness_FloatValues : DType.f32 ∈ fp3 ∧ isReal ((fpMod .rne 0).a fmtF32 0x3F800000) 1 ∧ isReal ((fpMod .rne 0).b fmtF32 0x3F800000) 1 ∧
    isReal ((fpMod .rne 0).c fmtF32 0x3F800000) 1 ∧ integral .rne 1 1 ∧
    isReal ((fpMod .rne 0).a fmtF16 (lowBits 16 0x3C003C00)) 1 ∧ isReal ((fpMod .rne 0).b fmtF16 (lowBits 16 ((0x3C003C00 : W64) >>> 16))) 1 ∧
    cvtReal .n32 (fpMod .rne 0) 5 5 ∧ cvtReal .f32 (fpMod .rne 0) 0x3F800000 1 ∧ l6Real 16 0 ∧ bits (127 : W64) 7 0 < 255 ∧
    cvtsInRange 1 0 = true ∧ fmtF32.isSubnormal 0x3F800000 = false := by
  have h32 : isReal (.fin false 8388608 (-23)) 1 := by norm_num [isReal]
  have h16 : isReal (.fin false 1024 (-10)) 1 := by norm_num [isReal]
  have e1 : (fpMod .rne 0).a fmtF32 0x3F800000 = .fin false 8388608 (-23) := by decide
  have e2 : (fpMod .rne 0).b fmtF32 0x3F800000 = .fin false 8388608 (-23) := by decide
  have e3 : (fpMod .rne 0).c fmtF32 0x3F800000 = .fin false 8388608 (-23) := by decide
  have e4 : (fpMod .rne 0).a fmtF16 (lowBits 16 0x3C003C00) = .fin false 1024 (-10) := by decide
  have e5 : (fpMod .rne 0).b fmtF16 (lowBits 16 ((0x3C003C00 : W64) >>> 16)) = .fin false 1024 (-10) := by decide
  have e6 : fmtF32.source false false false 0x3F800000 = .fin false 8388608 (-23) := by decide
  refine ⟨by decide, e1 ▸ h32, e2 ▸ h32, e3 ▸ h32, by norm_num [integral], e4 ▸ h16, e5 ▸ h16, ?_, ?_, by norm_num [l6Real], by decide, by decide, by decide⟩
  · have : intVal .n32 5 = 5 := by decide
    have h : tyIsInt .n32 = true := by decide
    simp only [cvtReal, h, if_true, this]; norm_num
  · have h : tyIsInt .f32 = false := by decide
    simp only [cvtReal, h]
    simpa using e6 ▸ h32

/-- A reply that writes v1 of lane 31, and a long result that sets p1 there. -/
def sLand : State :=
  onGrp (stand (.nop { z with pg := 7 })) fun x => { x with pend := [(0, { Pending.result [] with
      mem := true, form := some { ty := .n32, d := .v 1, lanes := [31], mult := 1 }, data := [5, 0, 0, 0], c := some 9 }),
    (1, { Pending.result [.p 1 31 true] with flags := 1 })] }

theorem witness_ResultsLand : ∃ x p q, sLand.agent grp = some x ∧ Tbl.find? x.pend 0 = some p ∧ p.mem = true ∧ x.landable 0 p = true ∧
    p.lands = [.v 31 1 5] ∧ Tbl.find? x.pend 1 = some q ∧ q.mem = false ∧ x.landable 1 q = true ∧ q.lands = [.p 1 31 true] :=
  ⟨_, _, _, rfl, rfl, rfl, by decide, by decide, rfl, rfl, by decide, by decide⟩
/-- SHFL.idx v3, v1, v2, zero; RDLN s3, v1, zero; VOTE.any p1, p2; MATCH v3, v1. -/
def fShfl : Fields := { z with d := .v 3, a := .v 1, b := .v 2, c := .zero, pg := 7 }
def fRdln : Fields := { z with d := .u 3, a := .v 1, b := .zero, pg := 7, uni := true }
def fVote : Fields := { z with d := .p 1, a := .p 2, pg := 7 }
def fMatch : Fields := { z with d := .v 3, a := .v 1, pg := 7 }
/-- GRED.add s3, v1, v2; GSCAN.add v3, v1, zero; REBAL v3, v1, v2, v4, v5. -/
def fGred : Fields := { z with d := .u 3, a := .v 1, e := .zero, pg := 7, uni := true }
def fGscan : Fields := { z with d := .v 3, a := .v 1, e := .zero, pg := 7 }
def fRebal : Fields := { z with d := .v 3, a := .v 1, b := .v 2, e := .v 4, g := .v 5, pg := 7 }
/-- MFS.n64 v4, DTIME; MTS FPFLAGS, v1; QSTAT s3, q0. -/
def fMfs : Fields := { z with ty := .n64, d := .u 4, pg := 7, uni := true, imm := 0x0C }
def fMts : Fields := { z with a := .u 1, pg := 7, uni := true, imm := 0x13 }
def fQstat : Fields := { z with d := .u 3, a := .q 0, pg := 7, uni := true }

theorem witness_GroupValues :
    (∃ b, Due (.shfl fShfl) fShfl (stand (.shfl fShfl)) b ∧ slotEmpty b.x Slot.isSrc b.row.a fShfl.a
      ((lanesIn b.perf).map fun i => shflSource fShfl.fn (shflWidth (b.num b.row.c fShfl.c i)) (b.num b.row.b fShfl.b i) i) = false ∧ b.perf ≠ 0) ∧
    (∃ b, Due (.rdln fRdln) fRdln (stand (.rdln fRdln)) b ∧
      slotEmpty b.x Slot.isSrc b.row.a fRdln.a [b.num b.row.b fRdln.b (lowestLane b.act) % 32] = false ∧ b.perf ≠ 0) ∧
    (∃ b, Due (.vote fVote) fVote (stand (.vote fVote)) b ∧ b.perf ≠ 0) ∧
    (∃ b, Due (.mtch fMatch) fMatch (stand (.mtch fMatch)) b ∧ b.perf ≠ 0) :=
  ⟨due_with _ (by decide), due_with _ (by decide), due_with _ (by decide), due_with _ (by decide)⟩

theorem witness_GroupCombines :
    (∃ b, Due (.gred fGred) fGred (stand (.gred fGred)) b ∧ b.perf ≠ 0 ∧ b.x.runLanes ≠ []) ∧
    (∃ b, Due (.gscan fGscan) fGscan (stand (.gscan fGscan)) b ∧ b.perf ≠ 0 ∧ b.x.runLanes ≠ []) ∧
    (∃ b, Due (.rebal fRebal) fRebal (stand (.rebal fRebal)) b ∧
      slotEmpty b.x Slot.isSrc b.row.b fRebal.b [lowestLane b.act] = false ∧ b.perf ≠ 0 ∧ b.x.runLanes ≠ []) :=
  ⟨due_with _ (by decide), due_with _ (by decide), due_with _ (by decide)⟩

theorem witness_SpecialRegisters :
    (∃ b, Due (.mfs fMfs) fMfs (stand (.mfs fMfs)) b ∧ (quseOf b.row fMfs = .none ∧ b.perf ≠ 0 ∧ fMfs.imm = 0x0C ∧
      replaying ((stand (.mfs fMfs)).tctlOf b.t) = false ∧ (stand (.mfs fMfs)).logRoom b.t b.lanes.length = true ∧ (stand (.mfs fMfs)).logReady b.t b.x = true) ∧ b.single) ∧
    (∃ b, Due (.mts fMts) fMts (stand (.mts fMts)) b ∧ quseOf b.row fMts = .none ∧ b.perf ≠ 0) ∧
    (∃ b, Due (.qstat fQstat) fQstat (stand (.qstat fQstat)) b ∧ (fQstat.a = .q 0 ∧ b.perf ≠ 0) ∧ b.single) :=
  ⟨due_single _ (by decide), due_with _ (by decide), due_single _ (by decide)⟩

/-- Every one of the register forms' shapes completes: one that issues by quads, and a group operation. -/
theorem witness_RegisterFrame :
    (registerForm (.add fAdd) = some fAdd ∧ ∃ t b, Due (.add fAdd) fAdd (stand (.add fAdd)) b ∧
      readsFull b (.add fAdd) ∧ (quseOf b.row fAdd = .none ∧ b.x.runLanes ≠ [] ∧ b.t.barReady = false) ∧
      exec (.add fAdd) (stand (.add fAdd)) = .next t) ∧
    (registerForm (.shfl fShfl) = some fShfl ∧ ∃ t b, Due (.shfl fShfl) fShfl (stand (.shfl fShfl)) b ∧
      readsFull b (.shfl fShfl) ∧ (quseOf b.row fShfl = .none ∧ b.x.runLanes ≠ [] ∧ b.t.barReady = false) ∧
      exec (.shfl fShfl) (stand (.shfl fShfl)) = .next t) := by
  obtain ⟨t, ht⟩ := next_of (o := exec (.add fAdd) (stand (.add fAdd))) (by decide)
  obtain ⟨u, hu⟩ := next_of (o := exec (.shfl fShfl) (stand (.shfl fShfl))) (by decide)
  obtain ⟨b, hb, h⟩ := due_with (i := .add fAdd) (f := fAdd) (s := stand (.add fAdd))
    (fun b => quseOf b.row fAdd = .none ∧ b.x.runLanes ≠ [] ∧ b.t.barReady = false) (by decide)
  obtain ⟨c, hc, k, k2⟩ := due_with (i := .shfl fShfl) (f := fShfl) (s := stand (.shfl fShfl))
    (fun b => (quseOf b.row fShfl = .none ∧ b.x.runLanes ≠ [] ∧ b.t.barReady = false) ∧
      slotEmpty b.x Slot.isSrc b.row.a fShfl.a ((lanesIn b.perf).map fun i =>
        shflSource fShfl.fn (shflWidth (b.num b.row.c fShfl.c i)) (b.num b.row.b fShfl.b i) i) = false) (by decide)
  exact ⟨⟨rfl, t, b, hb, trivial, h, ht⟩, rfl, u, c, hc, k2, k, hu⟩

/-- MOV.n64 s2, q0 with one entry in the queue, and with none and a control thread. -/
def fRead : Fields := { z with ty := .n64, d := .u 2, a := .q 0, pg := 7, uni := true }
def sEntry : State := onTeam (stand (.mov fRead)) fun t => { t with q := [(0, [(5, 7)])] }
def sNoEntry : State := onTeam (stand (.mov fRead)) fun t => { t with ctlGone := false }

/-- DIV.n32 s3, q0, s2; MOV.n32 v2, q12 with a bound drain queue; MOV.n64 c2, q15 and q4 of a control thread. -/
def fReadDiv : Fields := { z with d := .u 3, a := .q 0, b := .u 2, pg := 7, uni := true }
def fReadDrain : Fields := { z with d := .v 2, a := .q 12, pg := 7 }
def fReadC (q : BitVec 4) : Fields := { z with ty := .n64, d := .u 2, a := .q q, pg := 7 }
def sDrained (bind : W64) (es : List (List Byte)) : State := onTeam (stand (.mov fReadDrain)) fun t => { t with qbind := [(12, bind)], drain := [(12, es)] }
def sReadC (q : BitVec 4) (es : List (W64 × W32)) : State := onTeam (stand (.mov (fReadC q))) fun t => { t with q := [(q.toNat, es)] }

/-- An entry of a decision queue, a drain queue, q15, and for DIV; a dry queue, and one with an older waiter; and the three ways to raise 0x0D. -/
theorem witness_QueueReads :
    (∃ b, Due (.mov fRead) fRead sEntry b ∧ (queueForm (.mov fRead)).isSome = true ∧ (quseOf b.row fRead = .read 0 true ∧
      b.x.arr.granted = none ∧ b.perf ≠ 0 ∧ b.x.runLanes ≠ [] ∧ b.t.queue 0 = [(5, 7)] ∧ b.t.waitersLike 0 b.x.isGroup = []) ∧ b.single) ∧
    (∃ b, Due (.mov fReadDrain) fReadDrain (sDrained 0x80 [List.replicate 128 1]) b ∧ quseOf b.row fReadDrain = .read 12 false ∧
      b.x.arr.granted = none ∧ b.perf ≠ 0 ∧ b.x.runLanes ≠ [] ∧ bound (b.t.bind 12) = true ∧ (List.replicate 128 (1 : Byte)).length = 128 ∧
      Tbl.get [] b.t.drain 12 = [List.replicate 128 1] ∧ b.t.waitersLike 12 b.x.isGroup = []) ∧
    (∃ b, Due (.mov (fReadC 15)) (fReadC 15) (sReadC 15 [(5, 7)]) b ∧ quseOf b.row (fReadC 15) = .read 15 true ∧ b.x.arr.granted = none ∧ b.perf ≠ 0 ∧
      b.x.runLanes ≠ [] ∧ b.t.queue 15 = [(5, 7)] ∧ b.t.waitersLike 15 b.x.isGroup = [] ∧ b.x.kind = .control) ∧
    (∃ b, Due (.div fReadDiv) fReadDiv (onTeam (stand (.div fReadDiv)) fun t => { t with q := [(0, [(5, 7)])] }) b ∧
      (queueForm (.div fReadDiv)).map (·.2.2) = some true ∧ quseOf b.row fReadDiv = .read 0 false ∧ b.x.arr.granted = none ∧ b.perf ≠ 0 ∧
      b.x.runLanes ≠ [] ∧ b.t.queue 0 = [(5, 7)] ∧ b.t.waitersLike 0 b.x.isGroup = []) ∧
    (∃ b, Due (.mov fRead) fRead sNoEntry b ∧ quseOf b.row fRead = .read 0 true ∧
      b.x.arr.granted = none ∧ b.perf ≠ 0 ∧ b.x.runLanes ≠ [] ∧ b.t.queue 0 = [] ∧ b.t.ctlGone = false) ∧
    (∃ b, Due (.mov fRead) fRead (onTeam sEntry fun t => { t with qwait := [(0, [1])] }) b ∧ quseOf b.row fRead = .read 0 true ∧
      b.x.arr.granted = none ∧ b.perf ≠ 0 ∧ b.x.runLanes ≠ [] ∧ b.t.queue 0 = [(5, 7)] ∧ b.t.waitersLike 0 b.x.isGroup = [1]) ∧
    (∃ b, Due (.mov fReadDrain) fReadDrain (sDrained 0 []) b ∧ quseOf b.row fReadDrain = .read 12 false ∧ b.x.arr.granted = none ∧ b.perf ≠ 0 ∧
      b.x.runLanes ≠ [] ∧ bound (b.t.bind 12) = false ∧ b.x.kind ≠ .privileged) ∧
    (∃ b, Due (.mov fRead) fRead (onTeam sNoEntry fun t => { t with ctlGone := true }) b ∧ quseOf b.row fRead = .read 0 true ∧
      b.x.arr.granted = none ∧ b.perf ≠ 0 ∧ b.x.runLanes ≠ [] ∧ b.t.queue 0 = [] ∧ b.t.ctlGone = true ∧ b.x.kind ≠ .privileged) ∧
    (∃ b, Due (.mov (fReadC 4)) (fReadC 4) (sReadC 4 []) b ∧ quseOf b.row (fReadC 4) = .read 4 true ∧ b.x.arr.granted = none ∧ b.perf ≠ 0 ∧
      b.x.runLanes ≠ [] ∧ b.t.queue 4 = [] ∧ b.t.groupsRemain = false ∧ b.x.kind ≠ .privileged) :=
  ⟨(due_single (fun b => (queueForm (.mov fRead)).isSome = true ∧ quseOf b.row fRead = .read 0 true ∧
      b.x.arr.granted = none ∧ b.perf ≠ 0 ∧ b.x.runLanes ≠ [] ∧ b.t.queue 0 = [(5, 7)] ∧ b.t.waitersLike 0 b.x.isGroup = []) (by decide)).imp
      fun _ h => ⟨h.1, h.2.1.1, h.2.1.2, h.2.2⟩,
    due_with _ (by decide), due_with _ (by decide), due_with _ (by decide), due_with _ (by decide), due_with _ (by decide), due_with _ (by decide),
    due_with _ (by decide), due_with _ (by decide)⟩

/-- MOV.n64 q4, s2 with room in the queue, and with 64 entries there; MOV.n32 q8, v2; and MOV.n64 q0, c2 of a control thread. -/
def fWrite : Fields := { z with ty := .n64, d := .q 4, a := .u 2, pg := 7, uni := true }
def sRoom : State := onTeam (stand (.mov fWrite)) fun t => { t with ctlGone := false, q := [(4, List.replicate 63 (0, 0))] }
def sFull : State := onTeam (stand (.mov fWrite)) fun t => { t with ctlGone := false, q := [(4, List.replicate 64 (0, 0))] }
def fFeed : Fields := { z with d := .q 8, a := .v 2, pg := 7 }
def sFeed (bind : W64) (fill : Nat) : State :=
  onTeam (stand (.mov fFeed)) fun t => { t with qbind := [(8, bind)], ranges := [(0, { word := 0x0000800000004006, first := 0 })],
                                                rings := [(8, { wc := 0, rd := 0, fill := fill })] }
def fTell : Fields := { z with ty := .n64, d := .q 0, a := .u 2, pg := 7 }
def sTell : State := onTeam (stand (.mov fTell)) fun t => { t with q := [(0, List.replicate 64 (0, 0))] }

theorem witness_QueueWrites :
    (∃ b, Due (.mov fWrite) fWrite sRoom b ∧ quseOf b.row fWrite = .write 4 true ∧
      b.t.ctlGone = false ∧ b.x.arr.pushed = false ∧ b.perf ≠ 0 ∧ b.x.runLanes ≠ [] ∧ (b.t.queue 4).length + b.t.letThrough 4 < 64 ∧
      b.t.waitersLike 4 b.x.isGroup = []) ∧
    (∃ b, Due (.mov fWrite) fWrite (onTeam sRoom fun t => { t with ctlGone := true }) b ∧ quseOf b.row fWrite = .write 4 true ∧
      b.t.ctlGone = true ∧ b.x.arr.pushed = false ∧ b.perf ≠ 0 ∧ b.x.runLanes ≠ []) ∧
    (∃ b, Due (.mov fFeed) fFeed (sFeed 0x40000080 63) b ∧ (quseOf b.row fFeed = .write 8 false ∧ b.x.arr.pushed = false ∧ b.perf ≠ 0 ∧
      b.x.runLanes ≠ [] ∧ bound (b.t.bind 8) = true ∧ (Tbl.find? b.t.ranges (bits (b.t.bind 8) 3 0)).isSome = true ∧
      (b.t.ring 8).fill + b.t.letThrough 8 < bits (b.t.bind 8) 37 24 ∧ b.t.waitersLike 8 b.x.isGroup = []) ∧ noSpill b) ∧
    (∃ b, Due (.mov fWrite) fWrite sFull b ∧ quseOf b.row fWrite = .write 4 true ∧
      b.t.ctlGone = false ∧ b.x.arr.pushed = false ∧ b.perf ≠ 0 ∧ b.x.runLanes ≠ [] ∧ 64 ≤ (b.t.queue 4).length ∧ b.t.groupsRemain = true) ∧
    (∃ b, Due (.mov fFeed) fFeed (sFeed 0x40000080 64) b ∧ quseOf b.row fFeed = .write 8 false ∧ b.x.arr.pushed = false ∧ b.perf ≠ 0 ∧
      b.x.runLanes ≠ [] ∧ bound (b.t.bind 8) = true ∧ bits (b.t.bind 8) 37 24 ≤ (b.t.ring 8).fill + b.t.letThrough 8) ∧
    (∃ b, Due (.mov fTell) fTell sTell b ∧ quseOf b.row fTell = .write 0 true ∧ b.x.arr.pushed = false ∧ b.perf ≠ 0 ∧ b.x.runLanes ≠ [] ∧
      b.t.groupsRemain = false ∧ 64 ≤ (b.t.queue 0).length ∧ b.x.kind ≠ .privileged) ∧
    (∃ b, Due (.mov fFeed) fFeed (sFeed 0 0) b ∧ quseOf b.row fFeed = .write 8 false ∧ b.x.arr.pushed = false ∧ b.perf ≠ 0 ∧
      b.x.runLanes ≠ [] ∧ bound (b.t.bind 8) = false ∧ b.x.kind ≠ .privileged) := by
  refine ⟨due_with _ (by decide), due_with _ (by decide), ?_, due_with _ (by decide), due_with _ (by decide), due_with _ (by decide), due_with _ (by decide)⟩
  exact (due_with (fun b => (quseOf b.row fFeed = .write 8 false ∧ b.x.arr.pushed = false ∧ b.perf ≠ 0 ∧
      b.x.runLanes ≠ [] ∧ bound (b.t.bind 8) = true ∧ (Tbl.find? b.t.ranges (bits (b.t.bind 8) 3 0)).isSome = true ∧
      (b.t.ring 8).fill + b.t.letThrough 8 < bits (b.t.bind 8) 37 24 ∧ b.t.waitersLike 8 b.x.isGroup = []) ∧
      b.x.f.toNat < 16 ∧ b.t.barReady = false ∧ b.x.runLanes ≠ []) (by decide)).imp fun _ h => ⟨h.1, h.2.1, noSpill_of h.2.2⟩

/-- ADD v3, v1, v2 | wk=k1 with token 1 at 1; with v1 empty in lane 0; and the latter with FE for A. -/
def fTok : Fields := { z with d := .v 3, a := .v 1, b := .v 2, pg := 7, wk := 2 }
def fTrap : Fields := { z with d := .v 3, a := .v 1, b := .v 2, pg := 7, fe := 1 }
def sTok : State := onTeam (stand (.add fTok)) fun t => { t with tok := [(1, 1)] }
def sEmpty : State := onGrp (stand (.add fDiv)) fun x => { x with vE := [(1, true)] }
def sTrap : State := onGrp (stand (.add fTrap)) fun x => { x with vE := [(1, true)] }

/-- The readiness of a form at the next beat of the current agent. -/
def readyOf (i : Instr) (f : Fields) (s : State) : Option (Bool × Ready × AgentKind) :=
  match s.current, rowFor i with
  | some (a, t, x), some r =>
    let b := beatOf i f r a t x
    some (tokensDone t x.arr.wk, readiness x (checkedRow i r) f (if b.perf ≠ 0 then sourceLanes i f b.act b.perf else []) (lanesIn b.perf)
      (lanesIn b.act) (x.arr.granted.isSome || x.arr.pushed), x.kind)
  | _, _ => none

theorem witness_FormsWait : (readyOf (.add fTok) fTok sTok).map (·.1) = some false ∧
    readyOf (.add fDiv) fDiv sEmpty = some (true, .blocked, .group) ∧ readyOf (.add fTrap) fTrap sTrap = some (true, .trap, .group) := by decide

/-- A word of PG = 7 and zeros; J.nz s1, 5 | uni; JR v1; CALL 5; CALLR v1. -/
def fNop : Fields := { z with pg := 7 }
def fUni : Fields := { z with pg := 7, uni := true }
def fJ : Fields := { z with fn := 1, a := .u 1, pg := 7, uni := true, imm := 5 }
def fJr : Fields := { z with a := .v 1, pg := 7 }
def fCall : Fields := { z with pg := 7, imm := 5 }

/-- Lane 0 of the placed group with another depth and links, and v1 of lane 0 with a value. -/
def lane0 (s : State) (d : Byte) (link : Tbl Label) : State :=
  onGrp s fun x => { x with lanes := x.lanes.set 0 { x.lane 0 with d := d, link := link } }
def allDeep (s : State) : State := onGrp s fun x => { x with lanes := x.lanes.map fun l => { l with d := 1, link := [(0, 9)] } }
def v1is (s : State) (w : W32) : State := onGrp s fun x => { x with v := [(1, w)] }

theorem witness_ControlFlow :
    (∃ b, Due (.j fJ) fJ (stand (.j fJ)) b ∧ b.perf ≠ 0) ∧
    (∃ b, Due (.jr fJr) fJr (v1is (stand (.jr fJr)) 0x0FFFFFFF) b ∧ ∀ l ∈ lanesIn b.perf, (targetVal b l).toNat < 2 ^ 28) ∧
    (∃ b, Due (.jr fJr) fJr (v1is (stand (.jr fJr)) 0x10000000) b ∧ (∃ l ∈ lanesIn b.perf, 2 ^ 28 ≤ (targetVal b l).toNat) ∧
      b.x.kind ≠ .privileged) ∧
    (∃ b, Due (.call fCall) fCall (lane0 (stand (.call fCall)) 254 []) b ∧ (∀ l ∈ lanesIn b.perf, (b.x.lane l).d ≠ 255) ∧
      firstBad (lane0 (stand (.call fCall)) 254 []) b.t b.a.who (callSpills b) = none) ∧
    (∃ b, Due (.callr fJr) fJr (stand (.callr fJr)) b ∧ (∀ l ∈ lanesIn b.perf, (targetVal b l).toNat < 2 ^ 28) ∧
      (∀ l ∈ lanesIn b.perf, (b.x.lane l).d ≠ 255) ∧ firstBad (stand (.callr fJr)) b.t b.a.who (callSpills b) = none) ∧
    (∃ b, Due (.call fCall) fCall (lane0 (stand (.call fCall)) 255 []) b ∧ (∃ l ∈ lanesIn b.perf, (b.x.lane l).d = 255) ∧
      b.x.kind ≠ .privileged) ∧
    (∃ b, Due (.ret fNop) fNop (allDeep (stand (.ret fNop))) b ∧ (∀ l ∈ lanesIn b.perf, (b.x.lane l).d ≠ 0) ∧
      firstBad (allDeep (stand (.ret fNop))) b.t b.a.who (retFills b) = none) ∧
    (∃ b, Due (.ret fNop) fNop (stand (.ret fNop)) b ∧ (∃ l ∈ lanesIn b.perf, (b.x.lane l).d = 0) ∧ b.x.kind ≠ .privileged) :=
  ⟨due_with _ (by decide), due_with _ (by decide), due_with _ (by decide), due_with _ (by decide), due_with _ (by decide), due_with _ (by decide),
    due_with _ (by decide), due_with _ (by decide)⟩

/-- EXIT on a group and on a control thread; NOP, WTOK and YIELD. -/
def sExitThr : State := { (stand (.csrr { z with d := .u 1, pg := 7 })) with cur := some thr }
def fWtok : Fields := { z with pg := 7, wk := 2 }

theorem witness_LanesGoOnOrEnd :
    (∃ b, Due (.exit fUni) fUni (stand (.exit fUni)) b ∧ fUni.uni = true ∧
      ∀ l, l < b.x.lanes.length → b.perf.getLsbD l = true ∨ (b.x.lane l).s = .done) ∧
    (∃ b, Due (.exit fNop) fNop sExitThr b ∧ b.x.kind ≠ .group ∧ b.perf ≠ 0) ∧
    (∃ b, Due (.nop fNop) fNop (stand (.nop fNop)) b ∧ b.perf ≠ 0) ∧
    (∃ b, Due (.wtok fWtok) fWtok (stand (.wtok fWtok)) b ∧ b.perf ≠ 0) ∧
    (∃ b, Due (.yield fNop) fNop (stand (.yield fNop)) b ∧ b.perf ≠ 0) ∧
    (∃ b, Due (.yield z) z (stand (.yield z)) b ∧ b.perf = 0) :=
  ⟨due_with _ (by decide), due_with _ (by decide), due_with _ (by decide), due_with _ (by decide), due_with _ (by decide), due_with _ (by decide)⟩
/-- BARN 0, 2 and BARN 0, 1. -/
def fBarn (n : W32) : Fields := { z with a := .imm, pg := 7, imm := n }
/-- The placed group with a second one in its team; and barrier 0 armed for three. -/
def twoGroups (s : State) : State := onTeam s fun t => { t with agents := t.agents ++ (t.agents.map fun e => (e.1 + 1, { e.2 with issue := .idle })) }
def armed (s : State) : State := onTeam s fun t => { t with bars := [(0, { armed := true, count := 3, arrived := 1, waiters := [1] })] }

theorem all_arrived {b : Beat} (h : ∀ e ∈ b.t.agents, e.1 = b.a.who) : othersArrived b := fun e he => Or.inr (Or.inl (h e he))

theorem one_missing {b : Beat} (h : Tbl.find? b.t.bars 16 = none ∧ ∃ e ∈ b.t.agents, e.1 ≠ ctlWho ∧ e.1 ≠ b.a.who ∧ e.2.issue ≠ .ended) :
    ¬ othersArrived b := by
  obtain ⟨h0, e, he, h1, h2, h3⟩ := h
  intro ho
  rcases ho e he with h | h | h | ⟨k, hk, -⟩
  · exact h1 h
  · exact h2 h
  · exact h3 h
  · rw [h0] at hk; exact absurd hk (by simp)

theorem witness_Barriers :
    (∃ b, Due (.bar fNop) fNop (stand (.bar fNop)) b ∧ (b.t.isEnded = false ∧ b.x.runLanes ≠ [] ∧ b.a.who ≠ ctlWho) ∧ othersArrived b) ∧
    (∃ b, Due (.bar fNop) fNop (twoGroups (stand (.bar fNop))) b ∧ (b.t.isEnded = false ∧ b.x.runLanes ≠ [] ∧ b.a.who ≠ ctlWho) ∧
      ¬ othersArrived b) ∧
    (∃ b, Due (.barn (fBarn 1)) (fBarn 1) (stand (.barn (fBarn 1))) b ∧ b.x.runLanes ≠ [] ∧ barRefused b = false ∧
      (Bar.arrive (Tbl.find? b.t.bars 0) (barCount b) (some b.a.who)).arrived = (Bar.arrive (Tbl.find? b.t.bars 0) (barCount b) (some b.a.who)).count) ∧
    (∃ b, Due (.barn (fBarn 128)) (fBarn 128) (stand (.barn (fBarn 128))) b ∧ b.x.runLanes ≠ [] ∧ barRefused b = false ∧
      (Bar.arrive (Tbl.find? b.t.bars 0) (barCount b) (some b.a.who)).arrived ≠ (Bar.arrive (Tbl.find? b.t.bars 0) (barCount b) (some b.a.who)).count) ∧
    (∃ b, Due (.bara (fBarn 2)) (fBarn 2) (stand (.bara (fBarn 2))) b ∧ b.x.runLanes ≠ [] ∧ barRefused b = false ∧
      (Bar.arrive (Tbl.find? b.t.bars 0) (barCount b) none).arrived ≠ (Bar.arrive (Tbl.find? b.t.bars 0) (barCount b) none).count) ∧
    (∃ b, Due (.barn (fBarn 2)) (fBarn 2) (armed (stand (.barn (fBarn 2)))) b ∧ b.x.runLanes ≠ [] ∧ barRefused b = true ∧
      b.x.kind ≠ .privileged) := by
  refine ⟨?_, ?_, due_with _ (by decide), due_with _ (by decide), due_with _ (by decide), due_with _ (by decide)⟩
  · exact (due_with (fun b => (b.t.isEnded = false ∧ b.x.runLanes ≠ [] ∧ b.a.who ≠ ctlWho) ∧ ∀ e ∈ b.t.agents, e.1 = b.a.who) (by decide)).imp
      fun _ h => ⟨h.1, h.2.1, all_arrived h.2.2⟩
  · exact (due_with (fun b => (b.t.isEnded = false ∧ b.x.runLanes ≠ [] ∧ b.a.who ≠ ctlWho) ∧
      (Tbl.find? b.t.bars 16 = none ∧ ∃ e ∈ b.t.agents, e.1 ≠ ctlWho ∧ e.1 ≠ b.a.who ∧ e.2.issue ≠ .ended)) (by decide)).imp
      fun _ h => ⟨h.1, h.2.1, one_missing h.2.2⟩

theorem witness_TrapsStop :
    (∃ b, Due (.trap z) z (stand (.trap z)) b ∧ b.perf = 0) ∧
    (∃ b, Due (.trap fNop) fNop (stand (.trap fNop)) b ∧ b.perf ≠ 0 ∧ b.x.kind ≠ .privileged) ∧
    (∃ b, Due (.brk fNop) fNop (stand (.brk fNop)) b ∧ b.perf ≠ 0 ∧ b.x.kind ≠ .privileged) :=
  ⟨due_with _ (by decide), due_with _ (by decide), due_with _ (by decide)⟩

/-- WAIT.ne.n32 s3, [s1 + 0x100], s2, p1, zero | uni; NAP.for 0xFFFFFFFF. -/
def fWait : Fields := { z with fn := 1, d := .u 3, a := .u 1, b := .zero, c := .u 2, e := .p 1, g := .zero, pg := 7, uni := true, imm := 0x100 }
def fNap : Fields := { z with fn := 1, a := .imm, pg := 7, imm := 0xFFFFFFFF }

/-- The context of the placed team is being replayed. -/
def replayed (s : State) : State :=
  s.modPart 0 fun p => { p with debug := [(0, { (s.debugOf 0 0) with tctl := 0x11 })] }

theorem witness_LanesPark :
    (∃ b, Due (.wait fWait) fWait (stand (.wait fWait)) b ∧ ∃ l, b.perf ≠ 0 ∧
      (stand (.wait fWait)).batchOf b.a = false ∧ waitAll (stand (.wait fWait)) b 4 = .pass l ∧ replaying ((stand (.wait fWait)).tctlOf b.t) = false ∧
      (stand (.wait fWait)).logRoom b.t (if fWait.uni then 1 else l.length) = true ∧ (stand (.wait fWait)).logReady b.t b.x = true) ∧
    (∃ b, Due (.wait fWait) fWait (replayed (stand (.wait fWait))) b ∧ ∃ l, b.perf ≠ 0 ∧
      (replayed (stand (.wait fWait))).batchOf b.a = false ∧ waitAll (replayed (stand (.wait fWait))) b 4 = .pass l ∧
      replaying ((replayed (stand (.wait fWait))).tctlOf b.t) = true) ∧
    ({ fWait with g := .v 3 } : Fields).g = .v 3 ∧
    (∃ b, Due (.nap fNap) fNap (stand (.nap fNap)) b ∧ b.perf ≠ 0 ∧ (stand (.nap fNap)).dtime < napTime (stand (.nap fNap)) b 0) := by
  refine ⟨?_, ?_, rfl, due_with _ (by decide)⟩
  · exact (due_with (fun b => b.perf ≠ 0 ∧ (stand (.wait fWait)).batchOf b.a = false ∧ passes (waitAll (stand (.wait fWait)) b 4) = true ∧
      replaying ((stand (.wait fWait)).tctlOf b.t) = false ∧ (stand (.wait fWait)).logRoom b.t 1 = true ∧
      (stand (.wait fWait)).logReady b.t b.x = true) (by decide)).imp
      fun _ h => ⟨h.1, (pass_of h.2.2.2.1).imp fun _ hl => ⟨h.2.1, h.2.2.1, hl, h.2.2.2.2⟩⟩
  · exact (due_with (fun b => b.perf ≠ 0 ∧ (replayed (stand (.wait fWait))).batchOf b.a = false ∧
      passes (waitAll (replayed (stand (.wait fWait))) b 4) = true ∧ replaying ((replayed (stand (.wait fWait))).tctlOf b.t) = true) (by decide)).imp
      fun _ h => ⟨h.1, (pass_of h.2.2.2.1).imp fun _ hl => ⟨h.2.1, h.2.2.1, hl, h.2.2.2.2⟩⟩

/-- A place in HBM, of slice 0. -/
def hbmAt (loc : Nat) : Place := { physPlace loc with slice := 0 }

/-- LAUNCH s2 | uni, of a packet at address 0x100; with its token at 255; and with two lanes left over, where there is room for one child. -/
def fLaunch : Fields := { z with a := .u 2, pg := 7, uni := true, md := 3 }
def sLaunch : State := onGrp (later (stand (.launch fLaunch))) fun x => { x with u := [(2, 0x100)] }
def sLaunchFull : State := onTeam sLaunch fun t => { t with tok := [(3, 255)] }
def aChild : Child := { team := 0, who := 0, part := 0, asid := 0, cls := 0, tok := 0, ev := false, site := ⟨0, 0⟩, order := 0, packet := [] }
def leftOver : List (Nat × Place) := [(0, hbmAt 0x100), (1, hbmAt 0x140)]
def sLaunchLeft : State :=
  { onGrp sLaunch (fun x => { x with arr := { x.arr with left := some leftOver } }) with
    children := List.replicate 4095 (0, aChild) }

theorem witness_LaunchQueues :
    (∃ b, Due (.launch fLaunch) fLaunch sLaunch b ∧ (∃ qs, launchDue fLaunch sLaunch b qs ∧ Tbl.get 0 b.t.tok 3 + qs.length ≤ 255 ∧
      qs.length ≤ 4096 - sLaunch.childCount b.t.part) ∧ b.perf ≠ 0 ∧ b.alive) ∧
    (∃ b, Due (.launch fLaunch) fLaunch sLaunchLeft b ∧ b.perf ≠ 0 ∧ launchDue fLaunch sLaunchLeft b leftOver ∧
      4096 - sLaunchLeft.childCount b.t.part = 1) ∧
    (∃ b, Due (.launch fLaunch) fLaunch sLaunchFull b ∧ b.perf ≠ 0 ∧ b.x.arr.left = none ∧ 255 < Tbl.get 0 b.t.tok 3 + 1 ∧
      fLaunch.uni = true ∧ b.x.kind ≠ .privileged) := by
  refine ⟨?_, ?_, due_with _ (by decide)⟩
  · refine (due_with (fun b => b.x.arr.left = none ∧ b.a.who ≠ ctlWho ∧ Tbl.get 0 b.t.tok 3 + 1 ≤ 255 ∧ b.lanes = [0] ∧
      isOk (launchCheck sLaunch b 0 (launchPtr b 0)) = true ∧ 1 ≤ 4096 - sLaunch.childCount b.t.part ∧ b.perf ≠ 0 ∧ b.x.runLanes ≠ [])
      (by decide)).imp fun b h => ⟨h.1, ?_, h.2.2.2.2.2.2.2⟩
    obtain ⟨-, h1, h2, h3, h4, h5, h6, -⟩ := h
    obtain ⟨p, hp⟩ := ok_of h5
    exact ⟨[(0, p)], Or.inr ⟨h1, fun h => absurd h h2, fun _ => h3, by simp [h4], by simp [hp]⟩, h3, h6⟩
  · exact (due_with (fun b => b.perf ≠ 0 ∧ b.x.arr.left = some leftOver ∧ 4096 - sLaunchLeft.childCount b.t.part = 1) (by decide)).imp
      fun _ h => ⟨h.1, h.2.1, Or.inl h.2.2.1, h.2.2.2⟩

/-- LD.n32 s3, [s1 + 0x100] | uni; LD.x4.n32 v4, [v2 + 0xFF0]; ST.n32 [v2 + 0x100], v5. -/
def fLd : Fields := { z with d := .u 3, a := .u 1, b := .zero, pg := 7, uni := true, imm := 0x100 }
def fLd4 : Fields := { z with fn := 2, d := .v 4, a := .v 2, b := .zero, pg := 7, imm := 0xFF0 }
def fSt : Fields := { z with a := .v 2, b := .zero, c := .v 5, pg := 7, imm := 0x100 }

theorem witness_LoadsRead :
    (∃ b, Due (.ld fLd) fLd (stand (.ld fLd)) b ∧ b.perf ≠ 0 ∧ (∃ l, checkAll (stand (.ld fLd)) b .load 4 4 = .pass l) ∧
      b.x.runLanes ≠ []) ∧
    (∃ b, Due (.ld fLd4) fLd4 (stand (.ld fLd4)) b ∧ b.perf ≠ 0 ∧ (∃ l, checkAll (stand (.ld fLd4)) b .load 16 16 = .pass l) ∧
      b.x.runLanes ≠ []) :=
  ⟨(due_with (fun b => b.perf ≠ 0 ∧ passes (checkAll (stand (.ld fLd)) b .load 4 4) = true ∧ b.x.runLanes ≠ []) (by decide)).imp
      fun _ h => ⟨h.1, h.2.1, pass_of h.2.2.1, h.2.2.2⟩,
    (due_with (fun b => b.perf ≠ 0 ∧ passes (checkAll (stand (.ld fLd4)) b .load 16 16) = true ∧ b.x.runLanes ≠ []) (by decide)).imp
      fun _ h => ⟨h.1, h.2.1, pass_of h.2.2.1, h.2.2.2⟩⟩

theorem witness_StoresWrite : ∃ b, Due (.st fSt) fSt (stand (.st fSt)) b ∧ b.perf ≠ 0 ∧
    (∃ l, checkAll (stand (.st fSt)) b .store 4 4 = .pass l) ∧ noSpill b :=
  (due_with (fun b => b.perf ≠ 0 ∧ passes (checkAll (stand (.st fSt)) b .store 4 4) = true ∧
    b.x.f.toNat < 16 ∧ b.t.barReady = false ∧ b.x.runLanes ≠ []) (by decide)).imp
    fun _ h => ⟨h.1, h.2.1, pass_of h.2.2.1, noSpill_of h.2.2.2⟩

/-- ATOM.add.n32 v4, [v2 + 0x100], v5; RED.add.n32; CAS.n32 v4, [v2 + 0x100], v5, v6. -/
def fAtom : Fields := { z with d := .v 4, a := .v 2, b := .zero, c := .v 5, pg := 7, imm := 0x100 }
def fCas : Fields := { z with d := .v 4, a := .v 2, b := .zero, c := .v 5, e := .v 6, pg := 7, imm := 0x100 }

/-- A beat of an atomic form whose lanes pass, on memory that no monitor spill holds. -/
def atomicReady (s : State) (acc : Access) (b : Beat) : Prop :=
  b.perf ≠ 0 ∧ ∃ l, checkAll s b acc 4 4 = .pass l ∧ (replaying (s.tctlOf b.t) = false ∧ s.logRoom b.t l.length = true) ∧ noSpill b ∧
    ∀ q ∈ l, ∀ k, k < 4 → s.spillByte (q.place.loc + k) = false

theorem atomicReady_of {s : State} {acc : Access} {b : Beat} (hs : s.mons = []) (h : b.perf ≠ 0 ∧
    (match checkAll s b acc 4 4 with | .pass l => s.logRoom b.t l.length | _ => false) = true ∧ passes (checkAll s b acc 4 4) = true ∧
    replaying (s.tctlOf b.t) = false ∧ b.x.f.toNat < 16 ∧ b.t.barReady = false ∧ b.x.runLanes ≠ []) : atomicReady s acc b := by
  obtain ⟨h1, h2, h3, h4, h5⟩ := h
  obtain ⟨l, hl⟩ := pass_of h3
  rw [hl] at h2
  exact ⟨h1, l, hl, ⟨h4, h2⟩, noSpill_of h5, fun q _ k _ => by simp [State.spillByte, hs]⟩

theorem witness_AtomicsPerform :
    (∃ b, Due (.atom fAtom) fAtom (stand (.atom fAtom)) b ∧ atomicReady (stand (.atom fAtom)) (.atomic 0 .n32 false) b) ∧
    (∃ b, Due (.red fSt) fSt (stand (.red fSt)) b ∧ atomicReady (stand (.red fSt)) (.atomic 0 .n32 true) b) ∧
    (∃ b, Due (.cas fCas) fCas (stand (.cas fCas)) b ∧ atomicReady (stand (.cas fCas)) .cas b) :=
  ⟨(due_with _ (by decide)).imp fun _ h => ⟨h.1, atomicReady_of (by decide) h.2⟩,
    (due_with _ (by decide)).imp fun _ h => ⟨h.1, atomicReady_of (by decide) h.2⟩,
    (due_with _ (by decide)).imp fun _ h => ⟨h.1, atomicReady_of (by decide) h.2⟩⟩

/-- An access of lane 0 to the word at 0x100 of HBM; and the placed group with one such access, and a reply that it fills. -/
def anOp (k : OpKind) : MemOp :=
  { lanes := 1, beat := 0, insn := 0, place := hbmAt 0x100, addr := 0x100, site := ⟨0, 0⟩, policy := 0, kind := k }
def sOps (l : Tbl MemOp) : State :=
  onGrp (stand (.nop { z with pg := 7 })) fun x => { x with ops := l, pend := [(0, { Pending.result [] with
    mem := true, form := some { ty := .n32, d := .v 1, lanes := [0], mult := 1 }, data := [0, 0, 0, 0], parts := 1 })] }

/-- What `accessesPerform` asks of a state with one access. -/
def oneAccess (k : OpKind) : Prop :=
  ∃ t x, (sOps [(0, anOp k)]).team 0 = some t ∧ (sOps [(0, anOp k)]).agent grp = some x ∧ t.cluster = some 0 ∧ Tbl.find? x.ops 0 = some (anOp k) ∧
    x.opReady (anOp k) = true ∧ x.opsWith (anOp k) = [(0, anOp k)] ∧ ∃ p, Tbl.find? x.pend 0 = some p

theorem oneAccess_of {k : OpKind} (hk : k = .load 4 0 0 ∨ k = .store [1, 2, 3, 4] ∨ k = .atomic 0 .n32 .rne none 1 (some 0)) : oneAccess k := by
  rcases hk with h | h | h <;> subst h <;> exact ⟨_, _, rfl, rfl, rfl, rfl, by decide, by decide, _, rfl⟩

/-- The load where its cluster has a live copy of the line. -/
def sLive : State :=
  { sOps [(0, anOp (.load 4 0 0))] with
    l1 := [{ (default : L1Line) with cluster := 0, part := 0, asid := 1, vline := 0, line := 2, data := List.replicate 128 0, exp := 1 }] }

/-- A load, a store and an atomic each stand alone; and a store waits for an earlier one of its lane to the same bytes. -/
theorem witness_accessesPerform : oneAccess (.load 4 0 0) ∧ oneAccess (.store [1, 2, 3, 4]) ∧ oneAccess (.atomic 0 .n32 .rne none 1 (some 0)) ∧
    (anOp (.store [1])).place.owned = .slice ∧ (sOps []).holds 2 (some 0) = false ∧ (sOps []).l1 = [] ∧ (sOps []).mons = [] ∧
    ((sOps [(0, anOp (.store [1])), (1, { anOp (.store [2]) with beat := 1 })]).agent grp).map
      (fun x => x.opReady { anOp (.store [2]) with beat := 1 }) = some false ∧
    ((sLive.copyOf 0 0 1 0).filter fun c => decide (sLive.dtime < c.exp)).isSome = true ∧ sLive.holds 2 (some 0) = false ∧
    (anOp (.load 4 0 0)).place.l1able = true ∧ (anOp (.load 4 0 0)).policy ≠ 2 ∧ sLive.flaws = [] :=
  ⟨oneAccess_of (by simp), oneAccess_of (by simp), oneAccess_of (by simp), by decide, by decide, by decide, by decide, by decide,
    by decide, by decide, by decide, by decide, by decide⟩

/-- FENCE.acqrel.dev; PREF [v2 + 0x100]; CCTL.inval, CCTL.zero, CCTL.drop [v2 + 0x100]; TESTP p1, [v2]. -/
def fFence : Fields := { z with pg := 7, md := 0x0B }
def fPref : Fields := { z with a := .v 2, b := .zero, pg := 7, imm := 0x100 }
def fInval : Fields := { z with fn := 3, pg := 7 }
def fDrop : Fields := { z with fn := 1, a := .v 2, b := .zero, pg := 7, imm := 0x100 }
def fTestp : Fields := { z with d := .p 1, a := .u 2, b := .zero, pg := 7, uni := true }
def sTestp : State := onGrp (onTeam (stand (.testp fTestp)) fun t => { t with scratch := 1024 }) fun x => { x with u := [(2, 0x4000000000000000)] }
/-- An acquire fence that a load's reply is under way for. -/
def fAcq : Fields := { z with pg := 7, md := 0x09 }
def sReply : State :=
  onGrp (stand (.fence fAcq)) fun x => { x with pend := [(0, { Pending.result [] with mem := true })] }

theorem witness_CacheForms :
    (∃ b, Due (.fence fFence) fFence (later (stand (.fence fFence))) b ∧
      ∀ e ∈ b.x.pend, e.2.mem = false) ∧
    (∃ b, Due (.fence fAcq) fAcq sReply b ∧ b.perf ≠ 0 ∧ acquires fAcq.md = true ∧
      ∃ e ∈ b.x.pend, e.2.mem = true) ∧
    (∃ b, Due (.pref fPref) fPref (stand (.pref fPref)) b ∧ b.perf ≠ 0) ∧
    (∃ b, Due (.cctl fInval) fInval (stand (.cctl fInval)) b ∧ b.perf ≠ 0) ∧
    (∃ b, Due (.cctl fPref) fPref (stand (.cctl fPref)) b ∧ b.perf ≠ 0 ∧
      (∃ l, checkAll (stand (.cctl fPref)) b .zero 128 128 = .pass l) ∧ noSpill b) ∧
    (∃ b, Due (.cctl fDrop) fDrop (stand (.cctl fDrop)) b ∧ b.perf ≠ 0 ∧
      (∃ l, checkAll (stand (.cctl fDrop)) b .drop 128 128 = .pass l) ∧ noSpill b) ∧
    (∃ b, Due (.testp fTestp) fTestp sTestp b ∧ b.perf ≠ 0 ∧ (∃ l, checkAll sTestp b .test 1 1 = .pass l) ∧ b.x.runLanes ≠ []) :=
  ⟨due_with _ (by decide), due_with _ (by decide), due_with _ (by decide), due_with _ (by decide),
    (due_with (fun b => b.perf ≠ 0 ∧ passes (checkAll (stand (.cctl fPref)) b .zero 128 128) = true ∧
      b.x.f.toNat < 16 ∧ b.t.barReady = false ∧ b.x.runLanes ≠ []) (by decide)).imp
      fun _ h => ⟨h.1, h.2.1, pass_of h.2.2.1, noSpill_of h.2.2.2⟩,
    (due_with (fun b => b.perf ≠ 0 ∧ passes (checkAll (stand (.cctl fDrop)) b .drop 128 128) = true ∧
      b.x.f.toNat < 16 ∧ b.t.barReady = false ∧ b.x.runLanes ≠ []) (by decide)).imp
      fun _ h => ⟨h.1, h.2.1, pass_of h.2.2.1, noSpill_of h.2.2.2⟩,
    (due_with (fun b => b.perf ≠ 0 ∧ passes (checkAll sTestp b .test 1 1) = true ∧ b.x.runLanes ≠ []) (by decide)).imp
      fun _ h => ⟨h.1, h.2.1, pass_of h.2.2.1, h.2.2.2⟩⟩

/-- The load of `fLd` with s1 an address of an unassigned tag, a misaligned one, and one that no page maps. -/
def s1is (w : W64) : State := onGrp (stand (.ld fLd)) fun x => { x with u := [(1, w)] }

/-- An address of a scratchpad line that is not present; and one of a replayable page: with no fault queue, one with room, one without, and one where a
record of the page is pending. -/
def sAbsent : State := onTeam (s1is 0x4000000000000000) fun t => { t with scratch := 1024, absent := [(2, true)] }
def sReplayable (h : Part → Part) : State := ((s1is 0x10000000).poke 0x30008 (toBytes 8 0x0100000000000400)).modPart 0 h
def pageRec : Replay := { idx := 0, asid := 1, page := 4096, agents := [], cmds := [], watch := false }
/-- The premises of a beat on that page. -/
abbrev onPage (s : State) (b : Beat) : Prop :=
  b.perf ≠ 0 ∧ b.x.kind ≠ .privileged ∧ b.lanes = [0] ∧ laneChecks s b .load 0 (addressOf b.x fLd 0) 4 4 = .replay 4 4096 ∧ b.t.part = 0 ∧ b.t.asid = 1

theorem witness_AccessesFault : accessForm (.ld fLd) = some (fLd, .load, 4, 4) ∧
    (∃ b, Due (.ld fLd) fLd (s1is 0xF000000000000000) b ∧ b.perf ≠ 0 ∧ b.x.kind ≠ .privileged ∧
      ∃ l ∈ b.lanes, tagOk (addressOf b.x fLd l) = false) ∧
    (∃ b, Due (.ld fLd) fLd (s1is 1) b ∧ b.perf ≠ 0 ∧ b.x.kind ≠ .privileged ∧
      (∀ l ∈ b.lanes, tagOk (addressOf b.x fLd l) = true) ∧ ∃ l ∈ b.lanes, (addressOf b.x fLd l).toNat % 4 ≠ 0) ∧
    (∃ b, Due (.ld fLd) fLd (s1is 0x10000000) b ∧ b.perf ≠ 0 ∧ b.x.kind ≠ .privileged ∧ b.lanes = [0] ∧
      laneChecks (s1is 0x10000000) b .load 0 (addressOf b.x fLd 0) 4 4 = .fault 4 0x07 0) ∧
    (∃ b, Due (.ld fLd) fLd sAbsent b ∧ b.perf ≠ 0 ∧ b.x.kind ≠ .privileged ∧ b.lanes = [0] ∧
      laneChecks sAbsent b .load 0 (addressOf b.x fLd 0) 4 4 = .wait 7 .absent ∧ tagOf (addressOf b.x fLd 0) = 4 ∧
      bits (addressOf b.x fLd 0) 21 0 + 4 ≤ sAbsent.scratchOf 0 ∧ locked sAbsent b.cluster 0 b.t .load (addressOf b.x fLd 0) 4 = false ∧
      Tbl.get false b.t.absent (bits (addressOf b.x fLd 0) 21 0 / 128) = true) ∧
    (∃ b, Due (.ld fLd) fLd (sReplayable id) b ∧ onPage (sReplayable id) b ∧ ((sReplayable id).partition 0).fqSize = none) ∧
    (∃ b, Due (.ld fLd) fLd (sReplayable fun p => { p with fqCtl := 10 }) b ∧ onPage (sReplayable fun p => { p with fqCtl := 10 }) b ∧
      ((sReplayable fun p => { p with fqCtl := 10 }).partition 0).fqSize = some 1024 ∧
      ((sReplayable fun p => { p with fqCtl := 10 }).partition 0).pendingPage 1 4096 = false ∧
      (((sReplayable fun p => { p with fqCtl := 10 }).partition 0).fqWr - ((sReplayable fun p => { p with fqCtl := 10 }).partition 0).fqRd).toNat < 1024 ∧
      ((sReplayable fun p => { p with fqCtl := 10 }).partition 0).heldRecords = []) ∧
    (∃ b, Due (.ld fLd) fLd (sReplayable fun p => { p with fqCtl := 10, fqWr := 1024 }) b ∧
      onPage (sReplayable fun p => { p with fqCtl := 10, fqWr := 1024 }) b ∧
      ((sReplayable fun p => { p with fqCtl := 10, fqWr := 1024 }).partition 0).pendingPage 1 4096 = false ∧
      1024 ≤ (((sReplayable fun p => { p with fqCtl := 10, fqWr := 1024 }).partition 0).fqWr - 0).toNat) ∧
    (∃ b, Due (.ld fLd) fLd (sReplayable fun p => { p with fqCtl := 10, replays := [pageRec] }) b ∧
      onPage (sReplayable fun p => { p with fqCtl := 10, replays := [pageRec] }) b ∧
      ((sReplayable fun p => { p with fqCtl := 10, replays := [pageRec] }).partition 0).pendingPage 1 4096 = true) :=
  ⟨rfl, due_with _ (by decide), due_with _ (by decide), due_with _ (by decide), due_with _ (by decide), due_with _ (by decide), due_with _ (by decide),
    due_with _ (by decide), due_with _ (by decide)⟩

/-! Engine forms: a team with 64 KiB of scratchpad, a tile and two INT8 ranges of 64 lines; a handle of four words at 0x100; and registers. -/

/-- A record of INT8 elements in 64 lines with pitch 128 (R228). -/
def recInt8 : W64 := 0x0000800000004006
def engineTeam (s : State) : State :=
  onTeam s fun t => { t with
    scratch := 65536, obl := 1024, acc := 4, tiles := [(0, { els := [], ty := none })],
    ranges := [(0, { word := recInt8, first := 0 }), (1, { word := recInt8, first := 64 })] }
def withHandle (s : State) : State :=
  (s.modPart 0 fun p => { p with htBase := 0x50000, htLen := 1 }).poke 0x50000
    (toBytes 32 (0x100 + 4 * 2 ^ 64 + 4 * 2 ^ 96 + 7 * 2 ^ 104 + 2 ^ 127 + 2 ^ 128))
def withRegs (s : State) (a : AgentId) (r : Tbl W64) : State := s.modAgent a fun x => { x with u := r }

/-- CPC c1, c2, c3, zero, zero | k0, 128 bytes from 0x100 to 0x200. -/
def fCpc : Fields := { z with d := .u 1, a := .u 2, b := .u 3, c := .zero, e := .zero, pg := 7 }
def sCpc : State := withRegs (later (stand (.cpc fCpc))) thr [(1, 0x200), (2, 0x100), (3, 128)]
/-- The same with no room among the 64 lock entries of the cluster, and with an unaligned source. -/
def sCpcFull : State := { sCpc with rlt := List.replicate 64 { cluster := 0, cmd := 9, space := 0, lo := 0, hi := 0, dst := false } }
def sCpcBad : State := withRegs (later (stand (.cpc fCpc))) thr [(1, 0x200), (2, 0x101), (3, 128)]
/-- GATH s1, s2, s3, zero, 0; SCAT and SCATA.add.n32 s2, s3, zero, s4, 0. -/
def fGath : Fields := { z with d := .u 1, a := .u 2, b := .u 3, c := .zero, pg := 7, uni := true }
def fScat : Fields := { z with a := .u 2, b := .u 3, c := .zero, e := .u 4, pg := 7, uni := true }
def sGe (i : Instr) : State := withRegs (withHandle (engineTeam (later (stand i)))) grp [(1, 0x4000000000000000), (2, 0x100), (3, 4), (4, 0x200)]
/-- MMA 0, ranges 0 and 1, c1; MMAG with B in scratchpad at c3, c4 and its table at c5; ACZERO 0; DRAIN to c2. -/
def fMma : Fields := { z with g := .u 1, pg := 7, imm := 0x200 }
def fMmag : Fields := { z with fn := 2, d := .u 5, b := .u 3, e := .u 4, g := .u 1, pg := 7, imm := 0x200 }
def fDrain : Fields := { z with a := .u 2, b := .zero, pg := 7 }
def sOx (i : Instr) : State :=
  withRegs (engineTeam (later (stand i))) thr [(1, 8), (2, 0x1000), (3, 0x8000000000), (4, 0), (5, 0x100008000)]

/-- An engine form whose checks pass: the command may start, or must wait for lock entries. -/
def issues (i : Instr) (f : Fields) (s : State) (room : Bool) : Prop :=
  ∃ b rs, Due i f s b ∧ issueOf s b i = some (none, rs) ∧ b.perf ≠ 0 ∧ b.x.arr.cmd = none ∧
    (b.a.who = ctlWho → s.logRoom b.t 1 = true) ∧ s.rltRoom b.cluster rs.length = room ∧ b.x.runLanes ≠ []

theorem issues_of {i : Instr} {f : Fields} {s : State} {room : Bool} (h : ((dueAt i f s).any fun b => decide ((match issueOf s b i with
      | some (none, rs) => s.rltRoom b.cluster rs.length == room
      | _ => false) = true ∧ b.perf ≠ 0 ∧ b.x.arr.cmd = none ∧ (b.a.who = ctlWho → s.logRoom b.t 1 = true) ∧ b.x.runLanes ≠ [])) = true) :
    issues i f s room := by
  obtain ⟨b, hb, h1, h2, h3, h4, h5⟩ := due_with _ h
  split at h1
  · rename_i rs hi
    exact ⟨b, rs, hb, hi, h2, h3, h4, by simpa using h1, h5⟩
  · exact absurd h1 (by simp)

theorem witness_CommandsIssue : issues (.cpc fCpc) fCpc sCpc true ∧ issues (.cpc fCpc) fCpc sCpcFull false ∧
    issues (.gath fGath) fGath (sGe (.gath fGath)) true ∧ issues (.scat fScat) fScat (sGe (.scat fScat)) true ∧
    issues (.scata fScat) fScat (sGe (.scata fScat)) true ∧ issues (.mma fMma) fMma (sOx (.mma fMma)) true ∧
    issues (.mmag fMmag) fMmag (sOx (.mmag fMmag)) true ∧ issues (.aczero fNop) fNop (sOx (.aczero fNop)) true ∧
    issues (.drain fDrain) fDrain (sOx (.drain fDrain)) true ∧
    (∃ b, Due (.cpc fCpc) fCpc sCpcBad b ∧ (issueOf sCpcBad b (.cpc fCpc)).map (·.1) = some (some 0x05) ∧ b.perf ≠ 0 ∧
      b.x.arr.cmd = none ∧ b.x.kind ≠ .privileged ∧ sCpcBad.logRoom b.t 1 = true) :=
  ⟨issues_of (by decide), issues_of (by decide), issues_of (by decide), issues_of (by decide), issues_of (by decide), issues_of (by decide),
    issues_of (by decide), issues_of (by decide), issues_of (by decide), due_with _ (by decide)⟩
/-- CPSL 0, slice 0 of n, s1, s2, s3, zero, zero. -/
def fCpsl (n : W32) : Fields := { z with d := .u 1, a := .u 2, b := .u 3, c := .zero, e := .zero, pg := 7, uni := true, imm := n * 256 }
def sCpsl (n : W32) : State := withRegs (later (stand (.cpsl (fCpsl n)))) grp [(1, 0x200), (2, 0x100), (3, 128)]

/-- The slice's arrival: what the copy state then is. -/
def copyAfter (n : W32) (b : Beat) : CopyState :=
  CopyState.take (Tbl.find? b.t.copies 0) (arriveSlice ((sCpsl n).begun b) b (sliceOfBeat b 0) 0).2 (bits ((fCpsl n).imm.setWidth 64) 15 8) 0 0 false
    b.x.site

theorem witness_SlicesArrive :
    (∃ b, Due (.cpsl (fCpsl 128)) (fCpsl 128) (sCpsl 128) b ∧ b.x.arr.cmd = none ∧ b.a.who ≠ ctlWho ∧
      copyChecks (sCpsl 128) b.a.team b.t (sliceOfBeat b 0) 0 = none ∧ sliceClash b.t (Tbl.find? b.t.copies 0) (sliceOfBeat b 0) 128 0 0 = false ∧
      b.x.runLanes ≠ [] ∧ (copyAfter 128 b).arrived ≠ 128) ∧
    (∃ b, Due (.cpsl (fCpsl 1)) (fCpsl 1) (sCpsl 1) b ∧ b.x.arr.cmd = none ∧ b.a.who ≠ ctlWho ∧
      copyChecks (sCpsl 1) b.a.team b.t (sliceOfBeat b 0) 0 = none ∧ sliceClash b.t (Tbl.find? b.t.copies 0) (sliceOfBeat b 0) 1 0 0 = false ∧
      b.x.runLanes ≠ [] ∧ (copyAfter 1 b).arrived = 1 ∧
      (sCpsl 1).rltRoom b.cluster (copyRanges b.a.team b.t (sortSlices (copyAfter 1 b).slices)).length = true) :=
  ⟨due_with _ (by decide), due_with _ (by decide)⟩

/-- OBRES 2, c3, c1; OBREL 0; ACALLOC c3, 2; ACFREE 1; QCFG q8 and q12, c1. -/
def fObres : Fields := { z with fn := 2, d := .u 3, a := .u 1, pg := 7 }
def fAcalloc : Fields := { z with d := .u 3, a := .imm, pg := 7, imm := 2 }
def fAcfree (m : W32) : Fields := { z with a := .imm, pg := 7, imm := m }
def fQcfg (n : BitVec 4) : Fields := { z with fn := n, a := .u 1, pg := 7 }
/-- The engine team standing at `i` with c1 = w; with no operand lines; with no free tile on the cluster. -/
def sThr (i : Instr) (w : W64) : State := withRegs (engineTeam (stand i)) thr [(1, w)]
def noLines (s : State) : State := onTeam s fun t => { t with obl := 0 }
def noTiles (s : State) : State :=
  { s with teams := s.teams ++ s.teams.map fun e => (1, { e.2 with alloc := none, tiles := (List.range 31).map fun k => (k, { els := [], ty := none }) }) }

/-- q8 is bound and holds an entry. -/
def sRings (s : State) : State := onTeam s fun t => { t with qbind := [(8, 0x40000080)], rings := [(8, { wc := 1, rd := 0, fill := 1 })] }

theorem witness_ReservationsAct :
    (∃ b, Due (.obres fObres) fObres (sThr (.obres fObres) recInt8) b ∧ b.perf ≠ 0 ∧ b.x.f.toNat < 16 ∧ b.t.barReady = false ∧
      b.x.runLanes ≠ [] ∧ recOk (regOrZero b.x fObres.a) = true ∧ Tbl.find? b.t.ranges 2 = none ∧ firstFit b.t 64 = some 128) ∧
    (∃ b, Due (.obres fObres) fObres (noLines (sThr (.obres fObres) recInt8)) b ∧ b.perf ≠ 0 ∧ b.x.f.toNat < 16 ∧
      b.t.barReady = false ∧ b.x.runLanes ≠ [] ∧ recOk (regOrZero b.x fObres.a) = true ∧ Tbl.find? b.t.ranges 2 = none ∧ firstFit b.t 64 = none) ∧
    (∃ b, Due (.obrel fNop) fNop (sThr (.obrel fNop) 0) b ∧ b.perf ≠ 0 ∧ b.x.runLanes ≠ [] ∧
      (Tbl.find? b.t.ranges 0).isSome = true ∧ ∀ e ∈ (sThr (.obrel fNop) 0).oxOf b.a.team, e.2.2.readsRange 0 = false) ∧
    (∃ b, Due (.acalloc fAcalloc) fAcalloc (sThr (.acalloc fAcalloc) 0) b ∧ b.perf ≠ 0 ∧ b.x.runLanes ≠ [] ∧ b.t.allocated = none ∧
      b.t.alloc = none ∧ 2 + b.t.tiles.length ≤ b.t.acc ∧ 2 ≤ (sThr (.acalloc fAcalloc) 0).freeTiles b.cluster ∧
      ∀ e ∈ (sThr (.acalloc fAcalloc) 0).blockedAllocs b.cluster, b.t.age < e.2.1) ∧
    (∃ b, Due (.acalloc fAcalloc) fAcalloc (noTiles (sThr (.acalloc fAcalloc) 0)) b ∧ b.perf ≠ 0 ∧ b.x.runLanes ≠ [] ∧
      b.t.allocated = none ∧ b.t.alloc = none ∧ 2 + b.t.tiles.length ≤ b.t.acc ∧ (noTiles (sThr (.acalloc fAcalloc) 0)).freeTiles b.cluster < 2) ∧
    (∃ b, Due (.acfree (fAcfree 1)) (fAcfree 1) (sThr (.acfree (fAcfree 1)) 0) b ∧ b.perf ≠ 0 ∧ b.x.runLanes ≠ [] ∧
      bits (litOrReg b .imm) 63 32 = 0 ∧ ∀ k ∈ namesIn (litOrReg b .imm), (Tbl.find? b.t.tiles k).isSome = true ∧
        (sThr (.acfree (fAcfree 1)) 0).tileBusy b.a.team k = false) ∧
    (∃ b, Due (.qcfg (fQcfg 8)) (fQcfg 8) (sThr (.qcfg (fQcfg 8)) 0x40000080) b ∧ b.perf ≠ 0 ∧ b.x.runLanes ≠ [] ∧
      bindingFormed 8 0x40000080 = true ∧ litOrReg b (.u 1) = 0x40000080 ∧ b.t.fillOf 8 = 0 ∧
      (sThr (.qcfg (fQcfg 8)) 0x40000080).bindingUsed b.a.team b.t 8 = false ∧ (0 : Nat) + 64 ≤ recLines recInt8) ∧
    (∃ b, Due (.qcfg (fQcfg 13)) (fQcfg 13) (sThr (.qcfg (fQcfg 13)) 0x80) b ∧ b.perf ≠ 0 ∧ b.x.runLanes ≠ [] ∧
      bindingFormed 13 0x80 = true ∧ litOrReg b (.u 1) = 0x80 ∧ b.t.fillOf 13 = 0 ∧ (sThr (.qcfg (fQcfg 13)) 0x80).bindingUsed b.a.team b.t 13 = false ∧
      (Tbl.find? b.t.tiles 0).isSome = true) ∧
    (∃ b, Due (.obres fObres) fObres (sThr (.obres fObres) 0) b ∧ b.perf ≠ 0 ∧ b.x.kind ≠ .privileged ∧
      recOk (regOrZero b.x fObres.a) = false) ∧
    (∃ b, Due (.acfree (fAcfree 2)) (fAcfree 2) (sThr (.acfree (fAcfree 2)) 0) b ∧ b.perf ≠ 0 ∧ b.x.kind ≠ .privileged ∧
      ∃ k ∈ namesIn (litOrReg b .imm), Tbl.find? b.t.tiles k = none) ∧
    (∃ b, Due (.qcfg (fQcfg 8)) (fQcfg 8) (sThr (.qcfg (fQcfg 8)) 0x10) b ∧ b.perf ≠ 0 ∧ b.x.kind ≠ .privileged ∧ bits (litOrReg b (.u 1)) 6 4 ≠ 0) ∧
    (∃ b, Due (.qcfg (fQcfg 8)) (fQcfg 8) (sRings (sThr (.qcfg (fQcfg 8)) 0)) b ∧ b.perf ≠ 0 ∧ b.x.kind ≠ .privileged ∧ litOrReg b (.u 1) = 0 ∧
      b.t.fillOf 8 ≠ 0) ∧
    (∃ b, Due (.qcfg (fQcfg 8)) (fQcfg 8) (sThr (.qcfg (fQcfg 8)) 0x41000080) b ∧ b.perf ≠ 0 ∧ b.x.kind ≠ .privileged ∧
      litOrReg b (.u 1) = 0x41000080 ∧ b.t.fillOf 8 = 0 ∧ (sThr (.qcfg (fQcfg 8)) 0x41000080).bindingUsed b.a.team b.t 8 = false ∧
      recLines recInt8 < bits 0x41000080 20 8 + bits 0x41000080 37 24) ∧
    (∃ b, Due (.qcfg (fQcfg 13)) (fQcfg 13) (sThr (.qcfg (fQcfg 13)) 0x9F) b ∧ b.perf ≠ 0 ∧ b.x.kind ≠ .privileged ∧
      litOrReg b (.u 1) = 0x9F ∧ b.t.fillOf 13 = 0 ∧ (sThr (.qcfg (fQcfg 13)) 0x9F).bindingUsed b.a.team b.t 13 = false ∧
      (Tbl.find? b.t.tiles (bits 0x9F 4 0)).isSome = false) :=
  ⟨due_with _ (by decide), due_with _ (by decide), due_with _ (by decide), due_with _ (by decide), due_with _ (by decide), due_with _ (by decide), due_with _ (by decide), due_with _ (by decide), due_with _ (by decide), due_with _ (by decide),
    due_with _ (by decide), due_with _ (by decide), due_with _ (by decide), due_with _ (by decide)⟩

/-- CSRR c1, PSTATE of partition 0; CSRW of PEPC, PSTATE and PCAUSE from c1; SYSC c1, zero; TLBI of everything. -/
def fCsrr : Fields := { z with d := .u 1, pg := 7, imm := 0x100 }
def fCsrw (n : W32) : Fields := { z with a := .u 1, pg := 7, imm := n }
def fSysc : Fields := { z with d := .u 1, a := .zero, pg := 7 }
def fTlbi : Fields := { z with fn := 3, pg := 7 }
def answered (s : State) : State := onThr s fun x => { x with answer := some 7 }
def handling (s : State) : State := onThr s fun x => { x with inh := true, pepc := 0x0FFFFFFF }

/-- `i` stands, with partition 1 live. -/
def twoLive (i : Instr) : State := (stand i).modPart 1 fun p => { p with pstate := 0x10000 }

theorem witness_CsrForms :
    (∃ b, Due (.csrr fCsrr) fCsrr (stand (.csrr fCsrr)) b ∧ b.perf ≠ 0 ∧ b.x.f.toNat < 16 ∧ b.t.barReady = false ∧ b.x.runLanes ≠ []) ∧
    (∃ b, Due (.csrw (fCsrw 1)) (fCsrw 1) (withRegs (stand (.csrw (fCsrw 1))) thr [(1, 0x0FFFFFFF)]) b ∧ b.perf ≠ 0 ∧ b.x.f.toNat < 16 ∧
      b.t.barReady = false ∧ b.x.runLanes ≠ [] ∧ csrTakes 1 (regOrZero b.x (.u 1)) = true) ∧
    (∃ b, Due (.csrw (fCsrw 0x260)) (fCsrw 0x260) (withRegs (stand (.csrw (fCsrw 0x260))) thr [(1, 0x10FFF)]) b ∧ b.perf ≠ 0 ∧
      b.x.f.toNat < 16 ∧ b.t.barReady = false ∧ b.x.runLanes ≠ [] ∧ csrTakes 0x260 (regOrZero b.x (.u 1)) = true) ∧
    (∃ b, Due (.csrw (fCsrw 0x120)) (fCsrw 0x120) (twoLive (.csrw (fCsrw 0x120))) b ∧ b.perf ≠ 0 ∧ b.x.f.toNat < 16 ∧ b.t.barReady = false ∧
      b.x.runLanes ≠ [] ∧ csrTakes 0x120 (regOrZero b.x (.u 1)) = true ∧ ((twoLive (.csrw (fCsrw 0x120))).partition 1).live = true ∧
      bit (regOrZero b.x (.u 1)) 16 = false ∧ b.t.part ≠ 1) :=
  ⟨due_with _ (by decide), due_with _ (by decide), due_with _ (by decide), due_with _ (by decide)⟩

theorem witness_PrivilegedForms :
    (∃ b, Due (.sysc fSysc) fSysc (answered (stand (.sysc fSysc))) b ∧ b.perf ≠ 0 ∧ b.x.runLanes ≠ [] ∧ b.x.answer = some 7) ∧
    (∃ b, Due (.sysc fSysc) fSysc (stand (.sysc fSysc)) b ∧ b.perf ≠ 0 ∧ b.x.runLanes ≠ [] ∧ b.x.answer = none) ∧
    (∃ b, Due (.halt fNop) fNop (answered (stand (.halt fNop))) b ∧ b.perf ≠ 0 ∧ b.x.runLanes ≠ [] ∧ b.x.answer = some 7) ∧
    (∃ b, Due (.tlbi fTlbi) fTlbi (answered (later (stand (.tlbi fTlbi)))) b ∧ b.perf ≠ 0 ∧
      b.x.runLanes ≠ [] ∧ b.x.answer = some 7) ∧
    (∃ b, Due (.tlbi fTlbi) fTlbi (later (stand (.tlbi fTlbi))) b ∧ b.perf ≠ 0 ∧
      b.x.runLanes ≠ [] ∧ b.x.answer = none) ∧
    (∃ b, Due (.eret fNop) fNop (handling (stand (.eret fNop))) b ∧ b.perf ≠ 0 ∧ b.x.runLanes ≠ [] ∧ b.x.inh = true ∧
      b.x.lanes.length = 1) :=
  ⟨due_with _ (by decide), due_with _ (by decide), due_with _ (by decide), due_with _ (by decide), due_with _ (by decide), due_with _ (by decide)⟩

theorem eq_getD {α : Type} {o : Option α} (d : α) (h : o.isSome = true) : o = some (o.getD d) := by
  match o with
  | some x => rfl
  | none => exact absurd h (by simp)

/-- A misaligned load of the placed group, with or without a control thread: the state stopped, its record written, DISP written, DISP watched. -/
def sAt (gone : Bool) : State := onTeam (stand (.ld fLd)) fun t => { t with ctlGone := gone }
def rAt : Raise := { code := 0x05, how := .beat, lanes := 1, addr := 0x101, write := false }
def tAt : Team := placedTeam .group
def cAt : Ctx := { idx := 0, root := 0x20000, localVa := 2 ^ 41, savePool := 0, dbg := false }
def xAt (gone : Bool) : Agent := ((sAt gone).agent grp).getD default
def teamAt (gone : Bool) : Team := ((sAt gone).team 0).getD tAt
def recAt (gone : Bool) : List Byte := (recOf (teamAt gone) 0 (xAt gone) rAt).encode
def s0At (gone : Bool) : State :=
  ((sAt gone).setAgent grp { xAt gone with issue := .stopped, stop := some { code := 0x05, how := .beat, record := recAt gone }, block := none,
                                           active := false,
                                           gooseSeq := if (xAt gone).isGroup then (xAt gone).gooseSeq else (sAt gone).beatSeq }).modTeam 0 fun t =>
    { t with lastStop := some { who := 0, site := (xAt gone).site } }
def s1At (gone : Bool) : State := ((s0At gone).deviceWrite 0 0 1 (tcbVa cAt 0) (recAt gone)).getD State.reset
def s2At (gone : Bool) : State := ((s1At gone).deviceWrite 0 0 1 (tcbVa cAt 0 + 0x1080) (toBytes 4 0)).getD State.reset
def mAt (gone : Bool) : Mon := dispMon (s2At gone) 0 1 0 0 (tcbVa cAt 0 + 0x1080) 0x400000FB true
def s3At (gone : Bool) : State := ((s2At gone).insertMon (mAt gone)).getD State.reset

/-- The premises of a group's stop. -/
def stopsAt (gone : Bool) : Prop :=
  (sAt gone).team 0 = some (teamAt gone) ∧ (sAt gone).agent grp = some (xAt gone) ∧ (xAt gone).kind ≠ .privileged ∧ (sAt gone).ctx 0 1 = some cAt ∧
    ((sAt gone).debugOf 0 0).isOpen = false ∧ (s0At gone).walk 0 0 1 (tcbVa cAt 0 % 2 ^ 52) = .leaf 0x400000FB true ∧
    (s0At gone).deviceWrite 0 0 1 (tcbVa cAt 0) (recAt gone) = some (s1At gone) ∧
    (s1At gone).walk 0 0 1 ((tcbVa cAt 0 + 0x1080) % 2 ^ 52) = .leaf 0x400000FB true ∧
    (s1At gone).deviceWrite 0 0 1 (tcbVa cAt 0 + 0x1080) (toBytes 4 0) = some (s2At gone) ∧ (s2At gone).insertMon (mAt gone) = some (s3At gone) ∧
    (teamAt gone).ctlGone = gone ∧ (teamAt gone).resident = true ∧ ((teamAt gone).queue 15).length < 64 ∧ (teamAt gone).heldEvents = []

theorem stopsAt_both : stopsAt true ∧ stopsAt false :=
  ⟨⟨eq_getD tAt (by decide), eq_getD default (by decide), by decide, by decide, by decide, by decide, eq_getD State.reset (by decide), by decide,
      eq_getD State.reset (by decide), eq_getD State.reset (by decide), by decide, by decide, by decide, by decide⟩,
    ⟨eq_getD tAt (by decide), eq_getD default (by decide), by decide, by decide, by decide, by decide, eq_getD State.reset (by decide), by decide,
      eq_getD State.reset (by decide), eq_getD State.reset (by decide), by decide, by decide, by decide, by decide⟩⟩

/-- A control thread that stands there. -/
def sCtl : State := stand (.acfree (fAcfree 0))

theorem witness_FaultEntry :
    (∃ t x, (stand (.csrr fCsrr)).team 0 = some t ∧ (stand (.csrr fCsrr)).agent thr = some x ∧ x.kind = .privileged ∧ x.lanes ≠ [] ∧ x.inh = false) ∧
    (∃ t x, (handling (stand (.eret fNop))).team 0 = some t ∧ (handling (stand (.eret fNop))).agent thr = some x ∧ x.kind = .privileged ∧
      x.lanes ≠ [] ∧ x.inh = true) ∧
    (∃ b, Due (.csrw (fCsrw 2)) (fCsrw 2) (stand (.csrw (fCsrw 2))) b ∧ b.perf ≠ 0 ∧ b.x.runLanes ≠ [] ∧
      csrTakes 2 (regOrZero b.x (.u 1)) = false ∧ b.x.inh = false) ∧
    (∃ b, Due (.eret fNop) fNop (stand (.eret fNop)) b ∧ b.perf ≠ 0 ∧ b.x.runLanes ≠ [] ∧ b.x.inh = false) ∧
    stopsAt true ∧ stopsAt false ∧
    (∃ t x c, sCtl.team 0 = some t ∧ sCtl.agent ⟨0, ctlWho⟩ = some x ∧ x.kind ≠ .privileged ∧ sCtl.ctx t.part t.asid = some c ∧ c.dbg = false ∧
      t.isEnded = false ∧ (sCtl.debugOf t.part c.idx).isOpen = false) ∧
    (rAt.code ≠ 0x18 ∧ (sCtl.team 0).map (·.isEnded) = some false ∧ (sCtl.agent thr).isSome = true) :=
  ⟨⟨_, _, eq_getD tAt (by decide), eq_getD default (by decide), by decide, by decide, by decide⟩,
    ⟨_, _, eq_getD tAt (by decide), eq_getD default (by decide), by decide, by decide, by decide⟩,
    due_with _ (by decide), due_with _ (by decide),
    stopsAt_both.1, stopsAt_both.2,
    ⟨_, _, _, eq_getD tAt (by decide), eq_getD default (by decide), by decide, eq_getD cAt (by decide), by decide, by decide, by decide⟩,
    by decide⟩

/-- The placed group standing at a NOP. -/
def sN : State := stand (.nop fNop)
/-- Its agent's record is changed. -/
def sNap : State := onGrp sN fun x => { x with lanes := x.lanes.set 31 { x.lane 31 with s := .nap, nap := 0 }, issue := .idle }
/-- Eight more groups of its rail are active, and it is not. -/
def sCrowd : State :=
  onTeam sN fun t => { t with agents := (t.agents.map fun e => (e.1, { e.2 with active := false })) ++
    [1, 2, 3, 4, 5, 6, 7, 8].flatMap fun k => t.agents.map fun e => (k, { e.2 with active := true }) }
/-- It has stood blocked on an empty register for n rail clocks. -/
def sStood (n : Nat) : State :=
  { (onGrp sEmpty fun x => { x with active := true, block := some .empty, blockedAt := 0 }) with railClocks := (List.range 32).map fun r => (r, n) }
/-- A store to location 0x104 that its cluster's L1 holds a copy of, and a line that cluster 0 holds exclusively. -/
def sAck : State :=
  { (onGrp sN fun x => { x with acks := [(0, { lanes := 1, loc := 0x104, bytes := [1, 2, 3, 4], c := 7, vline := some 2, stamp := 1, peer := false })] }) with
    l1 := [{ (default : L1Line) with cluster := 0, part := 0, asid := 1, vline := 2, line := 2, data := List.replicate 128 0 }] }
/-- A copy that holds a later store at byte 5. -/
def oneCopy : L1Line := { (default : L1Line) with data := List.replicate 128 0, seen := 1, stamps := [(5, 3)] }
def sExcl (now : Nat) : State := { sN with lines := [(0, { (default : LineRec) with excl := some (0, 0) })], dtime := now }

/-- The placed group of a state has the property `P`. -/
theorem has_grp {s : State} (P : Team → Agent → Prop) [∀ t x, Decidable (P t x)]
    (h : (match s.team 0, s.agent grp with | some t, some x => decide (P t x) | _, _ => false) = true) :
    ∃ t x, s.team grp.team = some t ∧ s.agent grp = some x ∧ P t x := by
  split at h
  · rename_i t x ht hx
    exact ⟨t, x, ht, hx, by simpa using h⟩
  · exact absurd h (by simp)

theorem witness_BetweenBeats :
    (∃ t x, (onGrp sN fun x => { x with active := true, issue := .idle }).team grp.team = some t ∧
      (onGrp sN fun x => { x with active := true, issue := .idle }).agent grp = some x ∧ t.cluster = some 0 ∧ x.isGroup = true ∧ x.active = true ∧
      x.issue = .idle) ∧
    (∃ t x, (sStood 32).team grp.team = some t ∧ (sStood 32).agent grp = some x ∧ t.cluster = some 0 ∧ x.isGroup = true ∧ x.active = true ∧
      x.counted = true ∧ x.blockedAt + 32 ≤ (sStood 32).railTime grp.team x ∧ (sStood 32).readyBeat grp t x = false) ∧
    (∃ t x, (onGrp sN fun x => { x with active := false }).team grp.team = some t ∧ (onGrp sN fun x => { x with active := false }).agent grp = some x ∧
      t.cluster = some 0 ∧ x.isGroup = true ∧ x.active = false ∧ (onGrp sN fun x => { x with active := false }).mayIssue grp t x = true ∧
      (onGrp sN fun x => { x with active := false }).enters grp 0 x = true) ∧
    (∃ t x, sCrowd.team grp.team = some t ∧ sCrowd.agent grp = some x ∧ t.cluster = some 0 ∧ x.isGroup = true ∧ x.active = false ∧
      8 ≤ sCrowd.activeOn 0 x.rail) ∧
    (∃ t x, (onGrp sN fun x => { x with goose := 8000000 }).team grp.team = some t ∧ (onGrp sN fun x => { x with goose := 8000000 }).agent grp = some x ∧
      x.isGroup = true ∧ t.resident = true ∧ (sN.partition t.part).goose.toNat * 1000 ≤ x.goose) ∧
    (∃ t x, (onGrp sN fun x => { x with goose := 7999999 }).team grp.team = some t ∧ (onGrp sN fun x => { x with goose := 7999999 }).agent grp = some x ∧
      x.isGroup = true ∧ t.resident = true ∧ x.goose < (sN.partition t.part).goose.toNat * 1000) ∧
    (∃ t x, sNap.team grp.team = some t ∧ sNap.agent grp = some x ∧ 31 < x.lanes.length ∧ t.resident = true ∧ (x.lane 31).s = .nap ∧
      (x.lane 31).nap ≤ sNap.dtime) ∧
    (∃ t x, (later (stand (.fence fFence))).team grp.team = some t ∧ (later (stand (.fence fFence))).agent grp = some x ∧ x.issue = .beats ∧
      x.arr.released = false ∧ decodeFor x.kind x.budget x.arr.word = .ok (.fence fFence) ∧ (shapeOf (.fence fFence) fFence).rel = some 2 ∧
      releaseDone (later (stand (.fence fFence))) x 2 = true) ∧
    (∃ t x, (onGrp (stand (.fence fFence)) fun x => { x with gwct := 1 }).team grp.team = some t ∧
      (onGrp (stand (.fence fFence)) fun x => { x with gwct := 1 }).agent grp = some x ∧ x.issue = .beats ∧
      x.arr.released = false ∧ decodeFor x.kind x.budget x.arr.word = .ok (.fence fFence) ∧
      releaseDone (onGrp (stand (.fence fFence)) fun x => { x with gwct := 1 }) x 2 = false) ∧
    (∃ t x, sAck.team grp.team = some t ∧ sAck.agent grp = some x ∧ (Tbl.find? x.acks 0).map (·.vline) = some (some 2) ∧ t.cluster = some 0 ∧
      ∀ c ∈ sAck.l1, c.isCopy 0 t.part t.asid 2 = true ∧ c.line = 0x104 / 128) ∧
    (124 + [(1 : Byte), 2, 3, 4].length ≤ 128 ∧ 127 < oneCopy.data.length ∧ oneCopy.seen < 2 ∧ Tbl.get 0 oneCopy.stamps 127 < 2) ∧
    (((sExcl 16000).line 0).excl = some (0, 0) ∧ 0 + 16000 ≤ (sExcl 16000).dtime) ∧
    (((sExcl 15999).line 0).excl = some (0, 0) ∧ (sExcl 15999).dtime < 0 + 16000) :=
  ⟨has_grp _ (by decide), has_grp _ (by decide), has_grp _ (by decide), has_grp _ (by decide), has_grp _ (by decide), has_grp _ (by decide),
    has_grp _ (by decide), has_grp _ (by decide), has_grp _ (by decide), has_grp _ (by decide), by decide, by decide, by decide⟩

/-- The group of `fRead` parked on q0, which then takes an entry; that of `fWrite` parked on q4, which has room; and an event that is held. -/
def parkedOn (s : State) (q : Nat) (es : List (W64 × W32)) : State :=
  onTeam (onGrp s fun x => { x with issue := .queue }) fun t => { t with ctlGone := false, q := [(q, es)], qwait := [(q, [0])] }
def sParkR : State := parkedOn (stand (.mov fRead)) 0 [(5, 7)]
def sParkW : State := parkedOn (stand (.mov fWrite)) 4 (List.replicate 63 (0, 0))
/-- An event of word w without bytes. -/
def ev (w : W64) : HeldEvent := { word := w, bytes := [] }
def heldEvent (gone : Bool) (n : Nat) (w : W64) : State :=
  onTeam sN fun t => { t with ctlGone := gone, heldEvents := [ev w], q := [(15, List.replicate n (0, 0))] }

/-- The event of a stop of group 0, which has a store unacknowledged. -/
def waiting (n : BitVec 8) : State :=
  onGrp (heldEvent false 0 0x0200000000000000) fun x =>
    { x with acks := [(0, { lanes := 1, loc := 0x104, bytes := [n], c := 7, vline := none, stamp := 1, peer := false })] }

theorem witness_QueueWakes :
    (∃ t x, sParkR.team grp.team = some t ∧ sParkR.agent grp = some x ∧ t.resident = true ∧ t.saveAsked = false ∧ t.preempt = false ∧
      t.waitersLike 0 true = [0] ∧ x.issue = .queue ∧ x.queueUse = .read 0 true ∧ x.arr.granted = none ∧ t.queue 0 = [(5, 7)]) ∧
    (∃ t x, sParkW.team grp.team = some t ∧ sParkW.agent grp = some x ∧ t.resident = true ∧ t.saveAsked = false ∧ t.preempt = false ∧
      t.waitersLike 4 true = [0] ∧ x.issue = .queue ∧ x.queueUse = .write 4 true ∧ x.arr.pushed = false ∧
      (t.queue 4).length + t.letThrough 4 < 64) ∧
    (∃ t x, (heldEvent false 63 1).team grp.team = some t ∧ (heldEvent false 63 1).agent grp = some x ∧ t.heldEvents = [ev 1] ∧ t.ctlGone = false ∧
      t.resident = true ∧ (t.queue 15).length < 64 ∧ bits (ev 1).word 63 56 ≠ 2) ∧
    (∃ t x, (waiting 1).team grp.team = some t ∧ (waiting 1).agent grp = some x ∧ t.heldEvents = [ev 0x0200000000000000] ∧ t.ctlGone = false ∧
      bits (ev 0x0200000000000000).word 63 56 = 2 ∧ Tbl.find? t.agents (bits (ev 0x0200000000000000).word 6 0) = some x ∧ x.acks ≠ []) ∧
    (∃ t x, (heldEvent false 64 1).team grp.team = some t ∧ (heldEvent false 64 1).agent grp = some x ∧ t.heldEvents = [ev 1] ∧ t.ctlGone = false ∧
      64 ≤ (t.queue 15).length) ∧
    (∃ t x, (heldEvent true 0 0x0100000000000000).team grp.team = some t ∧ (heldEvent true 0 0x0100000000000000).agent grp = some x ∧
      t.heldEvents = [ev 0x0100000000000000] ∧ t.ctlGone = true ∧ bits 0x0100000000000000 63 56 ≠ 2 ∧ bits 0x0100000000000000 63 56 ≠ 3) ∧
    (∃ t x, (heldEvent true 0 0x0300000000000000).team grp.team = some t ∧ (heldEvent true 0 0x0300000000000000).agent grp = some x ∧
      t.heldEvents = [ev 0x0300000000000000] ∧ t.ctlGone = true ∧ t.isEnded = false ∧ bits 0x0300000000000000 63 56 = 3) :=
  ⟨has_grp _ (by decide), has_grp _ (by decide), has_grp _ (by decide), has_grp _ (by decide), has_grp _ (by decide), has_grp _ (by decide),
    has_grp _ (by decide)⟩

/-- The state after an instruction. -/
def ran (i : Instr) (s : State) : State :=
  match exec i s with
  | .next t => t
  | _ => s
/-- Command 0, its copy, gather or matrix command; and team 0. -/
def cmd0 (s : State) : Cmd := (Tbl.find? s.cmds 0).getD default
def copy0 (s : State) : CopyCmd := match (cmd0 s).kind with | .copy k => k | _ => default
def ge0 (s : State) : GeCmd := match (cmd0 s).kind with | .ge g => g | _ => default
def ox0 (s : State) : OxCmd := match (cmd0 s).kind with | .ox k => k | _ => default
def team0 (s : State) : Team := (s.team 0).getD default
def place0 : EPlace → Place
  | .ok p => p
  | _ => default
def isPlace : EPlace → Bool
  | .ok _ => true
  | _ => false
def bytes0 {α : Type} : Except EPlace (List α × State) → List α
  | .ok d => d.1
  | _ => []
def isRead {α : Type} : Except EPlace α → Bool
  | .ok _ => true
  | _ => false

/-- CPC of 128 bytes from 0x100 to 0x200 under way; GATH, SCAT and SCATA with their first element done; DRAIN to 0x1000 and to q12. -/
def sCopy : State := ran (.cpc fCpc) sCpc
def sGe1 (i : Instr) : State := ran (.engineLineLands 0 0) (ran i (sGe i))
def fDrainQ : Fields := { z with b := .zero, pg := 7, imm := 0x20 }
def sDrain : State := ran (.drain fDrain) (sOx (.drain fDrain))
def sDrainQ (n : Nat) : State :=
  ran (.drain fDrainQ) (onTeam (sOx (.drain fDrainQ)) fun t => { t with qbind := [(12, 0x80)], drain := [(12, List.replicate n [])] })

/-- The premises of a running command that no watchpoint is set for. -/
def runs0 (s : State) (k : CmdKind) : Prop :=
  Tbl.find? s.cmds 0 = some (cmd0 s) ∧ (cmd0 s).runs = true ∧ s.ownerHere (cmd0 s) = true ∧ (cmd0 s).kind = k ∧
    unwatched s (cmd0 s)

/-- An access of the GE command by its number, and the bytes that it reads. -/
def partAt (s : State) (key : Nat) : GePart := ((ge0 s).parts.find? fun q => q.key == key).getD default
def dataAt (s : State) (key : Nat) : List Byte := bytes0 (geSource s 0 (cmd0 s) (ge0 s) (partAt s key))

/-- The premises of that access. -/
def geDue (s : State) (kind key : Nat) : Prop :=
  runs0 s (.ge (ge0 s)) ∧ (ge0 s).idx.isSome = true ∧ (ge0 s).strictRefusal = false ∧ key < (ge0 s).statusKey ∧
    (ge0 s).parts.find? (fun q => q.key == key) = some (partAt s key) ∧ (ge0 s).isDone key = false ∧ geInOrder s (cmd0 s) (ge0 s) (partAt s key) = true ∧ geApart s (cmd0 s) (ge0 s) (partAt s key) = true ∧
    Tbl.find? (ge0 s).held (partAt s key).key = none ∧ isRead (geSource s 0 (cmd0 s) (ge0 s) (partAt s key)) = true ∧ (ge0 s).kind = kind

/-- A drain has pieces, or entries, left. -/
def drainLeft (t : Team) (k : OxCmd) (q : Option Nat) (n : Nat) : Prop :=
  ∃ ps es, drainWork t k = some (ps, q, es) ∧ (if q = none then ps[n]?.isSome else es[n]?.isSome) = true

theorem drainLeft_of {t : Team} {k : OxCmd} {q : Option Nat} {n : Nat} (h : (match drainWork t k with
    | some (ps, r, es) => decide (r = q) && (if q = none then ps[n]?.isSome else es[n]?.isSome)
    | none => false) = true) : drainLeft t k q n := by
  split at h
  · rename_i ps r es hw
    simp only [Bool.and_eq_true, decide_eq_true_eq] at h
    obtain ⟨rfl, h⟩ := h
    exact ⟨ps, es, hw, h⟩
  · exact absurd h (by simp)

/-- The gather with every element but the last done, and as its last access leaves it. -/
def sGeLast : State := [0, 2, 4].foldl (fun s k => ran (.engineLineLands 0 k) s) (ran (.gath fGath) (sGe (.gath fGath)))
def geNext : GeCmd :=
  { ge0 sGeLast with held := Tbl.ins (ge0 sGeLast).held 6 (dataAt sGeLast 6), done := Tbl.put false (ge0 sGeLast).done 6 true }

theorem witness_EngineWrites :
    (runs0 sCopy (.copy (copy0 sCopy)) ∧ destLines (copy0 sCopy).slices = [4] ∧ (copy0 sCopy).mask = 0 ∧ Tbl.get false (copy0 sCopy).landed 0 = false ∧
      isRead (copyData sCopy 0 (copy0 sCopy) 4) = true ∧
      isPlace (copyTarget sCopy (cmd0 sCopy) (copy0 sCopy) 4 0) = true) ∧
    (geDue sGeLast 0 6 ∧ (∀ e ∈ (ge0 sGeLast).parts, geNext.isDone e.key = true → (Tbl.find? geNext.held e.key).map (·.length) = some e.len) ∧
      spanLines (bits (ge0 sGeLast).dst 21 0 + (partAt sGeLast 6).off) (partAt sGeLast 6).len = [0] ∧ geNext.filled 0 = true ∧ geNext.lineDone 0 = true ∧
      isPlace (sGeLast.engPlace (cmd0 sGeLast) (BitVec.ofNat 64 (4 * 2 ^ 60 + 128 * 0)) true) = true ∧
      ((ge0 (sGe1 (.gath fGath))).filled 0 = false)) ∧
    (geDue (sGe1 (.scat fScat)) 1 2 ∧ (partAt (sGe1 (.scat fScat)) 2).addr = some 0x100 ∧
      isPlace (gePlace (sGe1 (.scat fScat)) (cmd0 (sGe1 (.scat fScat))) (ge0 (sGe1 (.scat fScat))) 0x100) = true) ∧
    (geDue (sGe1 (.scata fScat)) 2 2 ∧ (partAt (sGe1 (.scata fScat)) 2).addr = some 0x100 ∧
      isPlace (gePlace (sGe1 (.scata fScat)) (cmd0 (sGe1 (.scata fScat))) (ge0 (sGe1 (.scata fScat))) 0x100) = true) ∧
    (sDrain.runningOx 0 = some (0, team0 sDrain, cmd0 sDrain, ox0 sDrain) ∧ sDrain.tileTurn 0 0 (ox0 sDrain) = true ∧ unwatched sDrain (cmd0 sDrain) ∧
      drainLeft (team0 sDrain) (ox0 sDrain) none ((ox0 sDrain).landed none)) ∧
    ((sDrainQ 15).runningOx 0 = some (0, team0 (sDrainQ 15), cmd0 (sDrainQ 15), ox0 (sDrainQ 15)) ∧
      (sDrainQ 15).tileTurn 0 0 (ox0 (sDrainQ 15)) = true ∧ drainLeft (team0 (sDrainQ 15)) (ox0 (sDrainQ 15)) (some 12) (ox0 (sDrainQ 15)).prog ∧
      (Tbl.get [] (team0 (sDrainQ 15)).drain 12).length < 16) ∧
    ((sDrainQ 16).runningOx 0 = some (0, team0 (sDrainQ 16), cmd0 (sDrainQ 16), ox0 (sDrainQ 16)) ∧
      16 ≤ (Tbl.get [] (team0 (sDrainQ 16)).drain 12).length) := by
  refine ⟨⟨⟨by decide, by decide, by decide, by decide, by unfold unwatched; decide⟩, by decide⟩,
    ⟨⟨⟨by decide, by decide, by decide, by decide, by unfold unwatched; decide⟩, by decide⟩, by decide, by decide, by decide, by decide, by decide, by decide⟩,
    ⟨⟨⟨by decide, by decide, by decide, by decide, by unfold unwatched; decide⟩, by decide⟩, by decide⟩,
    ⟨⟨⟨by decide, by decide, by decide, by decide, by unfold unwatched; decide⟩, by decide⟩, by decide⟩,
    ⟨by decide, by decide, by unfold unwatched; decide, drainLeft_of (by decide)⟩, ⟨by decide, by decide, drainLeft_of (by decide), by decide⟩,
    by decide⟩

/-- Finished commands: the copy landed, a gather with every element done, ACZERO at its turn. -/
def sCopyDone : State := later (ran (.engineLineLands 0 0) sCopy)
def sGeDone : State :=
  onTeam (later ([0, 2, 4, 6].foldl (fun s k => ran (.engineLineLands 0 k) s) (ran (.gath fGath) (sGe (.gath fGath))))) fun t => { t with ctlGone := false }
def sZero : State := later (ran (.aczero fNop) (sOx (.aczero fNop)))
/-- Commands that fail: a copy to a page that is not there, a gather whose list is on one, a drain to one; and a copy to a replayable page. -/
def sCopyBad : State := ran (.cpc fCpc) (withRegs sCpc thr [(1, 0x20000000), (2, 0x100), (3, 128)])
def sGeBad : State :=
  onTeam (ran (.gath fGath) (withRegs (sGe (.gath fGath)) grp [(1, 0x4000000000000000), (2, 0x20000000), (3, 4)])) fun t => { t with ctlGone := false }
def sDrainBad : State := ran (.drain fDrain) (withRegs (sOx (.drain fDrain)) thr [(2, 0x20000000)])
def sCopyReplay : State :=
  (ran (.cpc fCpc) (withRegs (sCpc.poke 0x30008 (toBytes 8 0x0100000000000400)) thr [(1, 0x10000000), (2, 0x100), (3, 128)])).modPart 0
    fun p => { p with fqCtl := 10 }

/-- Command 0 is one of an agent whose team has its control thread. -/
def owned0 (s : State) (who : Nat) : Prop :=
  Tbl.find? s.cmds 0 = some (cmd0 s) ∧ (cmd0 s).owner = .agent 0 who ∧ s.team 0 = some (team0 s) ∧ (team0 s).ctlGone = false

/-- A write of command 0 is not yet acknowledged; and the command is to end with a cause. -/
def unsettled (s : State) (cause : Option Nat) : State := { s with cmds := Tbl.modify s.cmds 0 fun c => { c with c := 1000, ending := cause } }

/-- What stands in the way of a line of a copy is a fault. -/
theorem blocked_of {o : Option (EPlace × Bool)} {n : Nat} (h : o.map (·.1) = some (.fault n)) : ∃ w, o = some (.fault n, w) := by
  match o with
  | some (_, w) => rw [Option.map_some, Option.some.injEq] at h; exact ⟨w, congrArg (fun x => some (x, w)) h⟩
  | none => exact absurd h (by simp)

theorem witness_CommandsEnd :
    (owned0 sCopyDone 128 ∧ finished sCopyDone (.copyComplete 0) 0 0 (cmd0 sCopyDone) (team0 sCopyDone) 3 0 ∧ (cmd0 sCopyDone).settled sCopyDone = true) ∧
    (owned0 sGeDone 0 ∧ finished sGeDone (.geComplete 0) 0 0 (cmd0 sGeDone) (team0 sGeDone) 4 0 ∧ (cmd0 sGeDone).settled sGeDone = true) ∧
    (owned0 sZero 128 ∧ finished sZero (.oxComplete 0) 0 0 (cmd0 sZero) (team0 sZero) 2 0 ∧ (cmd0 sZero).settled sZero = true) ∧
    (owned0 sCopyBad 128 ∧ endsWith sCopyBad (.copyFault 0 0) 0 0 (cmd0 sCopyBad) (team0 sCopyBad) 3 0x07 ∧
      (cmd0 sCopyBad).settled sCopyBad = true) ∧
    (owned0 (unsettled sCopyBad none) 128 ∧ endsWith (unsettled sCopyBad none) (.copyFault 0 0) 0 0 (cmd0 (unsettled sCopyBad none)) (team0 sCopyBad) 3 0x07 ∧
      (cmd0 (unsettled sCopyBad none)).settled (unsettled sCopyBad none) = false) ∧
    (owned0 (unsettled sCopyBad (some 7)) 128 ∧ awaitedEnd { unsettled sCopyBad (some 7) with dtime := 1004 } (.copyFault 0 0) 0 0
      (cmd0 (unsettled sCopyBad (some 7))) 3 0x07) ∧
    (owned0 (unsettled sGeBad (some 7)) 0 ∧ awaitedEnd { unsettled sGeBad (some 7) with dtime := 1004 } (.geFault 0) 0 0
      (cmd0 (unsettled sGeBad (some 7))) 4 0x07) ∧
    (owned0 sGeBad 0 ∧ endsWith sGeBad (.geFault 0) 0 0 (cmd0 sGeBad) (team0 sGeBad) 4 0x07 ∧ (cmd0 sGeBad).settled sGeBad = true ∧
      (ge0 sGeBad).status = none) ∧
    (owned0 sDrainBad 128 ∧ endsWith sDrainBad (.oxFault 0) 0 0 (cmd0 sDrainBad) (team0 sDrainBad) 2 0x07 ∧
      (cmd0 sDrainBad).settled sDrainBad = true) ∧
    (owned0 sCopyReplay 128 ∧ sCopyReplay.runningCopy 0 = some (cmd0 sCopyReplay, copy0 sCopyReplay) ∧
      copyBlocked sCopyReplay 0 (cmd0 sCopyReplay) (copy0 sCopyReplay) 0 = some (.replay 0x1000, true) ∧
      (sCopyReplay.partition (cmd0 sCopyReplay).part).fqSize = some 1024) := by
  refine ⟨⟨by unfold owned0; decide, Or.inl ⟨copy0 sCopyDone, by decide⟩, by decide⟩,
    ⟨by unfold owned0; decide, Or.inr (Or.inl ⟨ge0 sGeDone, by decide⟩), by decide⟩,
    ⟨by unfold owned0; decide, Or.inr (Or.inr ⟨ox0 sZero, by decide⟩), by decide⟩,
    ⟨by unfold owned0; decide, Or.inl ⟨0, copy0 sCopyBad, by decide, by decide, by decide, blocked_of (by decide)⟩, by decide⟩,
    ⟨by unfold owned0; decide, Or.inl ⟨0, copy0 sCopyBad, by decide, by decide, by decide, blocked_of (by decide)⟩, by decide⟩,
    ⟨by unfold owned0; decide, by decide, by decide, Or.inl ⟨0, copy0 sCopyBad, by decide⟩⟩,
    ⟨by unfold owned0; decide, by decide, by decide, Or.inr (Or.inl ⟨ge0 sGeBad, by decide⟩)⟩,
    ⟨by unfold owned0; decide, Or.inr (Or.inl ⟨ge0 sGeBad, ((geCause sGeBad 0 (cmd0 sGeBad) (ge0 sGeBad)).getD (0, default)).2, by decide⟩), by decide⟩,
    ⟨by unfold owned0; decide, Or.inr (Or.inr ⟨ox0 sDrainBad, by decide⟩), by decide⟩, ⟨by unfold owned0; decide, by decide⟩⟩

/-- A command that waits for lock entries, with and without room; MMAs whose A, or B, is read from the ring of q8; and a blocked ACALLOC. -/
def sWaits : State := ran (.cpc fCpc) sCpcFull
def sGrant : State := { sWaits with rlt := [] }
def sRing (bind : W64) (fill : Nat) : State :=
  ran (.mma fMma) (onTeam (sOx (.mma fMma)) fun t => { t with qbind := [(8, bind)], rings := [(8, { wc := 0, rd := 0, fill := fill })] })
def sBlocked : State := onTeam (sThr (.acalloc fAcalloc) 0) fun t => { t with alloc := some 2 }

/-- The operands of matrix command 0. -/
def srcs0 (s : State) : OxSrc × OxSrc := ((ox0 s).srcs).getD (default, default)

/-- A gather that waits for its lock entries, without and with room for them, and its operands. -/
def sGathFull : State :=
  ran (.gath fGath) { sGe (.gath fGath) with rlt := List.replicate 64 { cluster := 0, cmd := 9, space := 0, lo := 0, hi := 0, dst := false } }
def sGathRoom : State := { sGathFull with rlt := [] }
def gath0 : GeArgs := ((sGathFull.beatAt grp).map fun b => geArgs b 0).getD default

/-- Command 0 is a gather of the placed group, which is not started and whose checks pass. -/
def gathWaits (s : State) : Prop :=
  Tbl.find? s.cmds 0 = some (cmd0 s) ∧ (cmd0 s).owner = .agent 0 0 ∧ s.team 0 = some (team0 s) ∧ (team0 s).cluster = some 0 ∧
    (s.agent grp).map (·.arr.cmd) = some (some 0) ∧ (cmd0 s).started = false ∧ (cmd0 s).kind = .ge (ge0 s) ∧
    ∃ b t1, s.beatAt grp = some b ∧ (s.tokenDown 0 (tokOf b.f.md)).team 0 = some t1 ∧ geChecks s t1 b.f (geArgs b (ge0 s).kind) = none

theorem gathWaits_of {s : State} (h : (decide (Tbl.find? s.cmds 0 = some (cmd0 s) ∧ (cmd0 s).owner = .agent 0 0 ∧ s.team 0 = some (team0 s) ∧
      (team0 s).cluster = some 0 ∧ (s.agent grp).map (·.arr.cmd) = some (some 0) ∧ (cmd0 s).started = false ∧ (cmd0 s).kind = .ge (ge0 s)) &&
    (match s.beatAt grp with
     | some b => (match (s.tokenDown 0 (tokOf b.f.md)).team 0 with
       | some t1 => decide (geChecks s t1 b.f (geArgs b (ge0 s).kind) = none)
       | none => false)
     | none => false)) = true) : gathWaits s := by
  rw [Bool.and_eq_true, decide_eq_true_eq] at h
  obtain ⟨⟨h1, h2, h3, h4, h5, h6, h7⟩, h8⟩ := h
  refine ⟨h1, h2, h3, h4, h5, h6, h7, ?_⟩
  split at h8
  · rename_i b hb
    split at h8
    · rename_i t1 ht
      exact ⟨b, t1, hb, ht, by simpa using h8⟩
    · exact absurd h8 (by simp)
  · exact absurd h8 (by simp)

/-- The MMA of a ring, as command 1 behind command 0 on its tile. -/
def sRingBehind : State := { sRing 0x40000080 64 with cmds := (sRing 0x40000080 64).cmds ++ (sRing 0x40000080 64).cmds.map fun e => (1, e.2) }
def cmd1 (s : State) : Cmd := (Tbl.find? s.cmds 1).getD default
def ox1 (s : State) : OxCmd := match (cmd1 s).kind with | .ox k => k | _ => default

theorem witness_EngineGrants :
    (Tbl.find? sWaits.cmds 0 = some (cmd0 sWaits) ∧ (cmd0 sWaits).owner = .agent 0 128 ∧ sWaits.team 0 = some (team0 sWaits) ∧
      (team0 sWaits).cluster = some 0 ∧ (sWaits.agent thr).map (·.arr.cmd) = some (some 0) ∧ (cmd0 sWaits).started = false ∧
      sWaits.rltRoom 0 (cmd0 sWaits).ranges.length = false ∧ sGrant.rltRoom 0 (cmd0 sGrant).ranges.length = true) ∧
    (gathWaits sGathFull ∧ (sGathFull.rltRoom 0 (geRanges 0 (team0 sGathFull) gath0 (sGathFull.handle 0 gath0.h)).length = false)) ∧
    (gathWaits sGathRoom ∧ (sGathRoom.rltRoom 0 (geRanges 0 (team0 sGathRoom) gath0 (sGathRoom.handle 0 gath0.h)).length = true)) ∧
    ((sRing 0x40000080 64).runningOx 0 = some (0, team0 (sRing 0x40000080 64), cmd0 (sRing 0x40000080 64), ox0 (sRing 0x40000080 64)) ∧
      (ox0 (sRing 0x40000080 64)).srcs = some (srcs0 (sRing 0x40000080 64)) ∧ (ox0 (sRing 0x40000080 64)).waitA = true ∧
      (sRing 0x40000080 64).tileTurn 0 0 (ox0 (sRing 0x40000080 64)) = true ∧ (srcs0 (sRing 0x40000080 64)).1.ring = some 8 ∧ ringReady (sRing 0x40000080 64) 0 0 (team0 (sRing 0x40000080 64)) 8
        ((srcs0 (sRing 0x40000080 64)).1.ringNeed ((ox0 (sRing 0x40000080 64)).span.1 + (ox0 (sRing 0x40000080 64)).span.2 - 1)) = true) ∧
    ((sRing 0x40000081 0).runningOx 0 = some (0, team0 (sRing 0x40000081 0), cmd0 (sRing 0x40000081 0), ox0 (sRing 0x40000081 0)) ∧
      (ox0 (sRing 0x40000081 0)).srcs = some (srcs0 (sRing 0x40000081 0)) ∧ (ox0 (sRing 0x40000081 0)).waitA = false ∧
      (ox0 (sRing 0x40000081 0)).waitB = true ∧ (srcs0 (sRing 0x40000081 0)).2.ring = some 8 ∧
      ringReady (sRing 0x40000081 0) 0 0 (team0 (sRing 0x40000081 0)) 8
        ((srcs0 (sRing 0x40000081 0)).2.ringNeed ((ox0 (sRing 0x40000081 0)).span.1 + (ox0 (sRing 0x40000081 0)).span.2 - 1)) = false) ∧
    (sRingBehind.runningOx 1 = some (0, team0 sRingBehind, cmd1 sRingBehind, ox1 sRingBehind) ∧ (ox1 sRingBehind).waitA = true ∧
      ((ox1 sRingBehind).srcs.map fun r => r.1.ring) = some (some 8) ∧ sRingBehind.tileTurn 0 1 (ox1 sRingBehind) = false) ∧
    (Tbl.rising none sBlocked.teams = true ∧ sBlocked.team 0 = some (team0 sBlocked) ∧
      oldestAlloc (sBlocked.blockedAllocs 0) = some (0, (team0 sBlocked).age, 2) ∧ 2 ≤ sBlocked.freeTiles 0) ∧
    (Tbl.rising none (noTiles sBlocked).teams = true ∧ (noTiles sBlocked).freeTiles 0 < 2 ∧
      oldestAlloc ((noTiles sBlocked).blockedAllocs 0) = some (0, (team0 sBlocked).age, 2) ∧
      ∃ w ∈ (noTiles sBlocked).teams, w.2.engCluster = some 0 ∧ w.2.canFree = true) :=
  ⟨by decide, ⟨gathWaits_of (by decide), by decide⟩, ⟨gathWaits_of (by decide), by decide⟩, by decide, by decide, by decide, by decide, by decide⟩

/-- The WAIT of `fWait` with its request on its way, and with its lanes parked. -/
def sWaitB : State := ran (.wait fWait) (stand (.wait fWait))
def sParked : State := ran (.monitorRegister 0) sWaitB
/-- Its request, as it stands, and with another test or deadline. -/
def req0 : RegReq := (((Tbl.find? sWaitB.batches 0).map (·.reqs)).getD []).headD default
def reqOf (fn : BitVec 4) (deadline : Nat) : RegReq := { req0 with mon := { req0.mon with fn := fn, deadline := deadline } }
/-- Its slice has no entry left. -/
def sNoMon : State := { sWaitB with mons := List.replicate 512 { req0.mon with spill := none, loc := 0x1000 } }
/-- A wake for it, or for the disposition of the stopped group, under way. -/
def wakeOf (s : State) (disp : Bool) (v : W64) : State :=
  { s with wakes := [(0, { mon := { req0.mon with disp := disp }, value := v, pred := true, c := 3 })] }
def stoppedGrp (how : Resume) : State := onGrp sWaitB fun x => { x with issue := .stopped, stop := some { code := 0x05, how := how, record := [] } }

/-- How a registration ends: answered with its predicate, parked, refused. -/
def regEnds : Reg → Option (Option Bool)
  | .refused => none
  | .parked _ => some none
  | .reply _ w => some (some w.pred)

theorem parked_of {r : Reg} (h : regEnds r = some none) : ∃ s, r = .parked s := by
  match r with
  | .parked s => exact ⟨s, rfl⟩
  | .refused => exact absurd h (by simp [regEnds])
  | .reply _ _ => exact absurd h (by simp [regEnds])

theorem oneWait_of {x : Agent} {m : LaneMask} {i : Nat} {r : BitVec 6} {p : BitVec 3} (h : i ∈ x.parked m ∧ (∀ l ∈ x.parked m, l < x.lanes.length ∧
    (x.lane l).codeD = (x.lane i).codeD ∧ (x.lane l).codeE = (x.lane i).codeE ∧ (x.lane l).wide = (x.lane i).wide) ∧
    (x.lane i).codeD = .u r ∧ (x.lane i).codeE = .p p) : oneWait x m i :=
  ⟨h.1, h.2.1, fun _ hq => (nomatch h.2.2.1.symm.trans hq), fun _ _ => ⟨fun hq => (nomatch h.2.2.2.symm.trans hq),
    fun hq => (nomatch h.2.2.2.symm.trans hq)⟩⟩

/-- A full table without a spill area refuses. -/
theorem insertMon_full {s : State} {m e : Mon} (hm : s.mons = List.replicate 512 e) (h1 : e.same m = false) (h2 : e.slice = m.slice) (h3 : e.spill = none)
    (h4 : bits (s.partition m.part).spillB 63 0 = 0) : s.insertMon m = none := by
  simp [State.insertMon, hm, h1, h2, h3, h4]

/-- The state in which a slice tests a request. -/
def prepared (s : State) (r : RegReq) (cl : Nat) : State :=
  let p : Place := { loc := r.mon.loc, owned := .slice, pte := r.pte, va := r.va, slice := r.mon.slice }
  ((s.recall (r.mon.loc / 128) none).touchLine p 0).refresh cl r.mon.part r.mon.asid p

theorem register_refused {s : State} {r : RegReq} {cl : Nat} (h1 : waitTest r.mon.fn r.mon.w64 ((prepared s r cl).monWord r.mon) r.mon.operand = false)
    (h2 : ¬ r.mon.deadline ≤ (prepared s r cl).dtime) (h3 : (prepared s r cl).insertMon r.mon = none) : s.register r (some cl) = .refused := by
  unfold State.register
  simp only
  rw [show ((s.recall (r.mon.loc / 128) none).touchLine { loc := r.mon.loc, owned := .slice, pte := r.pte, va := r.va, slice := r.mon.slice } 0).refresh
    cl r.mon.part r.mon.asid { loc := r.mon.loc, owned := .slice, pte := r.pte, va := r.va, slice := r.mon.slice } = prepared s r cl from rfl, h1, if_neg h2, h3]
  rfl

/-- The premises of a batch that is registered, and of a wake that is delivered. -/
def batch0 (s : State) (t : Team) (x : Agent) : Prop :=
  Tbl.find? s.batches 0 = some { agent := some grp, host := none, reqs := [req0] } ∧ x.issue = .beats ∧ x.kind ≠ .privileged ∧
    decodeFor x.kind x.budget x.arr.word = .ok (.wait fWait) ∧ t.cluster = some 0 ∧ x.opsBefore [req0] = false
def wake0 (s : State) (disp : Bool) (v : W64) : Prop :=
  Tbl.find? s.wakes 0 = some { mon := { req0.mon with disp := disp }, value := v, pred := true, c := 3 } ∧ req0.mon.hostq = false ∧
    s.waiterOf { req0.mon with disp := disp } = some grp

/-- The event of group 0's stop is held. -/
def stopPosts (s : State) : State := onTeam s fun t => { t with heldEvents := [{ word := 0x0200000000000000, bytes := [] }] }
/-- An earlier store of the group to the word has not performed; and an entry whose time is past. -/
def opBefore : MemOp :=
  { lanes := 1, beat := 0, insn := 0, place := { loc := req0.mon.loc, owned := .slice, pte := 0, va := 0 }, addr := 0, site := ⟨0, 0⟩, policy := 0,
    kind := .store [1, 0, 0, 0] }
def sOpBefore : State := onGrp sWaitB fun x => { x with ops := [(0, opBefore)] }
def sExpired : State := { sParked with mons := [{ req0.mon with deadline := 1000 }], dtime := 1500 }

theorem witness_Monitors :
    (waitTest 0 req0.mon.w64 (sWaitB.monWord req0.mon) req0.mon.operand = true ∧
      waitTest 1 req0.mon.w64 (sWaitB.monWord req0.mon) req0.mon.operand = false ∧ (reqOf 1 0).mon.deadline ≤ sWaitB.dtime ∧
      sWaitB.dtime < (reqOf 1 1).mon.deadline ∧ sWaitB.mons.length < 512) ∧
    (∃ t x, sWaitB.team grp.team = some t ∧ sWaitB.agent grp = some x ∧ batch0 sWaitB t x ∧
      ∃ u, ({ sWaitB with batches := Tbl.del sWaitB.batches 0 } : State).register req0 (some 0) = .parked u) ∧
    (∃ t x, sNoMon.team grp.team = some t ∧ sNoMon.agent grp = some x ∧ batch0 sNoMon t x ∧
      ({ sNoMon with batches := Tbl.del sNoMon.batches 0 } : State).register req0 (some 0) = .refused) ∧
    (∃ t x, (wakeOf sParked false 5).team grp.team = some t ∧ (wakeOf sParked false 5).agent grp = some x ∧ wake0 (wakeOf sParked false 5) false 5 ∧
      t.resident = true ∧ oneWait x req0.mon.lanes 31) ∧
    (∃ t x, (onTeam (wakeOf sParked false 5) fun t => { t with res := .saved }).team grp.team = some t ∧
      (onTeam (wakeOf sParked false 5) fun t => { t with res := .saved }).agent grp = some x ∧
      wake0 (onTeam (wakeOf sParked false 5) fun t => { t with res := .saved }) false 5 ∧ t.resident = false) ∧
    (∃ t x, (wakeOf (stoppedGrp .beat) true 1).team grp.team = some t ∧ (wakeOf (stoppedGrp .beat) true 1).agent grp = some x ∧
      wake0 (wakeOf (stoppedGrp .beat) true 1) true 1 ∧ t.resident = true ∧ t.stopHeld 0 = false ∧ x.stop = some { code := 0x05, how := .beat, record := [] }) ∧
    (∃ t x, (wakeOf (stoppedGrp .refetch) true 2).team grp.team = some t ∧ (wakeOf (stoppedGrp .refetch) true 2).agent grp = some x ∧
      wake0 (wakeOf (stoppedGrp .refetch) true 2) true 2 ∧ t.resident = true ∧ t.stopHeld 0 = false ∧ x.stop = some { code := 0x05, how := .refetch, record := [] }) ∧
    (∃ t x, (wakeOf (stoppedGrp .beat) true 3).team grp.team = some t ∧ (wakeOf (stoppedGrp .beat) true 3).agent grp = some x ∧
      wake0 (wakeOf (stoppedGrp .beat) true 3) true 3 ∧ t.resident = true ∧ t.stopHeld 0 = false ∧ x.stop.isSome = true ∧ t.isEnded = false) ∧
    (∃ t x, (wakeOf (stoppedGrp .census) true 1).team grp.team = some t ∧ (wakeOf (stoppedGrp .census) true 1).agent grp = some x ∧
      wake0 (wakeOf (stoppedGrp .census) true 1) true 1 ∧ t.resident = true ∧ t.stopHeld 0 = false ∧
      x.stop = some { code := 0x05, how := .census, record := [] }) ∧
    (∃ t x, (stopPosts (wakeOf (stoppedGrp .beat) true 1)).team grp.team = some t ∧ (stopPosts (wakeOf (stoppedGrp .beat) true 1)).agent grp = some x ∧
      wake0 (stopPosts (wakeOf (stoppedGrp .beat) true 1)) true 1 ∧ t.resident = true ∧ t.stopHeld 0 = true) ∧
    (∃ t x, sOpBefore.team grp.team = some t ∧ sOpBefore.agent grp = some x ∧
      Tbl.find? sOpBefore.batches 0 = some { agent := some grp, host := none, reqs := [req0] } ∧ x.issue = .beats ∧
      decodeFor x.kind x.budget x.arr.word = .ok (.wait fWait) ∧ x.opsBefore [req0] = true) ∧
    (∃ m ∈ sExpired.mons, m.deadline ≤ sExpired.dtime / 1000 * 1000) := by
  refine ⟨by decide, ?_, ?_, ?_, ?_, ?_, ?_, ?_, ?_, ?_, ?_, by decide⟩
  · obtain ⟨t, x, ht, hx, h⟩ := has_grp (s := sWaitB) (fun t x => x.issue = .beats ∧ x.kind ≠ .privileged ∧ decodeFor x.kind x.budget x.arr.word = .ok (.wait fWait) ∧ t.cluster = some 0 ∧ x.opsBefore [req0] = false) (by decide)
    exact ⟨t, x, ht, hx, ⟨rfl, h⟩, parked_of (by decide)⟩
  · obtain ⟨t, x, ht, hx, h⟩ := has_grp (s := sNoMon) (fun t x => x.issue = .beats ∧ x.kind ≠ .privileged ∧ decodeFor x.kind x.budget x.arr.word = .ok (.wait fWait) ∧ t.cluster = some 0 ∧ x.opsBefore [req0] = false) (by decide)
    exact ⟨t, x, ht, hx, ⟨rfl, h⟩, register_refused (by decide) (by decide)
      (insertMon_full (e := { req0.mon with spill := none, loc := 0x1000 }) rfl (by decide) rfl rfl (by decide))⟩
  · obtain ⟨t, x, ht, hx, h, k⟩ := has_grp (s := wakeOf sParked false 5) (fun t x => t.resident = true ∧ 31 ∈ x.parked req0.mon.lanes ∧
      (∀ l ∈ x.parked req0.mon.lanes, l < x.lanes.length ∧ (x.lane l).codeD = (x.lane 31).codeD ∧ (x.lane l).codeE = (x.lane 31).codeE ∧
        (x.lane l).wide = (x.lane 31).wide) ∧ (x.lane 31).codeD = .u 3 ∧ (x.lane 31).codeE = .p 1) (by decide)
    exact ⟨t, x, ht, hx, ⟨rfl, by decide, by decide⟩, h, oneWait_of k⟩
  · obtain ⟨t, x, ht, hx, h⟩ := has_grp (s := onTeam (wakeOf sParked false 5) fun t => { t with res := .saved }) (fun t _ => t.resident = false) (by decide)
    exact ⟨t, x, ht, hx, ⟨rfl, by decide, by decide⟩, h⟩
  · obtain ⟨t, x, ht, hx, h⟩ := has_grp (s := wakeOf (stoppedGrp .beat) true 1)
      (fun t x => t.resident = true ∧ t.stopHeld 0 = false ∧ x.stop = some { code := 0x05, how := .beat, record := [] }) (by decide)
    exact ⟨t, x, ht, hx, ⟨rfl, by decide, by decide⟩, h⟩
  · obtain ⟨t, x, ht, hx, h⟩ := has_grp (s := wakeOf (stoppedGrp .refetch) true 2)
      (fun t x => t.resident = true ∧ t.stopHeld 0 = false ∧ x.stop = some { code := 0x05, how := .refetch, record := [] }) (by decide)
    exact ⟨t, x, ht, hx, ⟨rfl, by decide, by decide⟩, h⟩
  · obtain ⟨t, x, ht, hx, h⟩ := has_grp (s := wakeOf (stoppedGrp .beat) true 3)
      (fun t x => t.resident = true ∧ t.stopHeld 0 = false ∧ x.stop.isSome = true ∧ t.isEnded = false) (by decide)
    exact ⟨t, x, ht, hx, ⟨rfl, by decide, by decide⟩, h⟩
  · obtain ⟨t, x, ht, hx, h⟩ := has_grp (s := wakeOf (stoppedGrp .census) true 1)
      (fun t x => t.resident = true ∧ t.stopHeld 0 = false ∧ x.stop = some { code := 0x05, how := .census, record := [] }) (by decide)
    exact ⟨t, x, ht, hx, ⟨rfl, by decide, by decide⟩, h⟩
  · obtain ⟨t, x, ht, hx, h⟩ := has_grp (s := stopPosts (wakeOf (stoppedGrp .beat) true 1)) (fun t _ => t.resident = true ∧ t.stopHeld 0 = true)
      (by decide)
    exact ⟨t, x, ht, hx, ⟨rfl, by decide, by decide⟩, h⟩
  · obtain ⟨t, x, ht, hx, h⟩ := has_grp (s := sOpBefore) (fun _ x => x.issue = .beats ∧ decodeFor x.kind x.budget x.arr.word = .ok (.wait fWait) ∧
      x.opsBefore [req0] = true) (by decide)
    exact ⟨t, x, ht, hx, rfl, h⟩
/-- A record of partition 0 that waits for its answer, with the placed group and copy 0; with the group alone; and one held for want of room. -/
def replayOf (agents : List AgentId) (cmds : List Nat) : Replay := { idx := 0, asid := 1, page := 4096, agents := agents, cmds := cmds, watch := false }
def sReplay (s : State) (r : Replay) : State :=
  (onGrp s fun x => { x with issue := .replay, replay := some { lanes := 1, addr := 0x10000000, write := false } }).modPart 0
    fun p => { p with replays := [r] }
def sBoth : State := sReplay { sN with cmds := [(0, default)] } (replayOf [grp] [0])
def sAlone : State := sReplay sN (replayOf [grp] [])
def sHeldRec : State :=
  sN.modPart 0 fun p => { p with fqCtl := 10, fqWr := 1024, heldRecords := [{ bytes := List.replicate 32 1, replay := none }] }

theorem witness_FaultQueueAnswers :
    (Tbl.rising none sN.teams = true ∧ (sN.ctx 0 1).isSome = true ∧ ∃ t x, sN.team grp.team = some t ∧ sN.agent grp = some x ∧ t.part = 0 ∧
      t.asid = 1 ∧ t.isEnded = false) ∧
    ((sBoth.partition 0).live = true ∧ (sBoth.partition 0).pending 0 = some (replayOf [grp] [0]) ∧ (Tbl.find? sBoth.cmds 0).isSome = true ∧
      ∃ t x, sBoth.team grp.team = some t ∧ sBoth.agent grp = some x ∧ x.issue = .replay) ∧
    ((sAlone.partition 0).live = true ∧ (sAlone.partition 0).pending 0 = some (replayOf [grp] []) ∧
      ∃ t x, sAlone.team grp.team = some t ∧ sAlone.agent grp = some x ∧ x.issue = .replay ∧ x.replay.isSome = true ∧ x.kind ≠ .privileged) ∧
    ((sN.partition 0).live = true ∧ (sN.partition 0).heldRecords = []) ∧
    ((sHeldRec.partition 0).live = true ∧ (sHeldRec.partition 0).heldRecords = [{ bytes := List.replicate 32 1, replay := none }] ∧
      (sHeldRec.partition 0).fqSize = some 1024 ∧ ((sHeldRec.partition 0).fqWr - 1).toNat < 1024 ∧ (List.replicate 32 (1 : Byte)).length = 32 ∧
      ∀ m ∈ sHeldRec.mons, m.spill = none) :=
  ⟨⟨by decide, by decide, has_grp _ (by decide)⟩, ⟨by decide, by decide, by decide, has_grp _ (by decide)⟩,
    ⟨by decide, by decide, has_grp _ (by decide)⟩, by decide, by decide⟩

/-- The placed team that is to go: at once, or at its shed points; and saved. -/
def sPreempt : State := onTeam sN fun t => { t with preempt := true }
def sShed : State := onTeam (onGrp sN fun x => { x with held := true }) fun t => { t with saveAsked := true }
/-- An older team of its cluster is held at its shed points too; and the placed group is parked on a queue. -/
def sYounger : State :=
  { sShed with teams := (sShed.teams.map fun e => (0, { e.2 with age := 1 })) ++ sShed.teams.map fun e => (1, { e.2 with age := 0 }) }
def sParkedOut : State := onTeam sParkR fun t => { t with preempt := true }
def sSaved : State := ran (.teamSave 0) sPreempt
def tSaved : Team := (sSaved.team 0).getD default
def tN : Team := (sN.team 0).getD default
def tMoved : Team := ((sN.saveTeam 0 tN).team 0).getD default

theorem witness_TeamsMove :
    (∃ t x, sPreempt.team grp.team = some t ∧ sPreempt.agent grp = some x ∧ t.preempt = true ∧ sPreempt.canSave 0 t = true ∧ t.shedHeld = false ∧
      sPreempt.olderSave 0 t = false) ∧
    (∃ t x, sYounger.team grp.team = some t ∧ sYounger.agent grp = some x ∧ t.shedHeld = true ∧ sYounger.canSave 0 t = true ∧ sYounger.olderSave 0 t = true) ∧
    (∃ t x, sParkedOut.team grp.team = some t ∧ sParkedOut.agent grp = some x ∧ t.preempt = true ∧ sParkedOut.canSave 0 t = true ∧
      sParkedOut.olderSave 0 t = false ∧ x.issue = .queue ∧ x.isGroup = true) ∧
    (∃ t x, sShed.team grp.team = some t ∧ sShed.agent grp = some x ∧ t.shedHeld = true ∧ sShed.canSave 0 t = true ∧ sShed.olderSave 0 t = false) ∧
    (sSaved.team 0 = some tSaved ∧ tSaved.res = .saved ∧ sSaved.shed tSaved.cls = false ∧ sSaved.earlierWork tSaved.part tSaved.rank = false ∧
      sSaved.takesBack 0 tSaved (sSaved.restoreOn 0 tSaved 1 none) = some [0] ∧ tSaved.barReady = false ∧ tSaved.wake = [] ∧ tSaved.heldEvents = [] ∧
      ([0].length = tSaved.need.budgets.length ∧ ∀ e ∈ tSaved.agents, e.2.stop = none ∧ e.2.issue ≠ .idle ∧ ∀ l ∈ e.2.lanes, l.s ≠ .nap) ∧ restsOn tSaved) ∧
    (sN.team 0 = some tN ∧ tN.cluster = some 0 ∧ tN.saveAsked = false ∧ sN.canSave 0 tN = true ∧ (sN.saveTeam 0 tN).team 0 = some tMoved ∧
      (sN.saveTeam 0 tN).takesBack 0 tMoved ((sN.saveTeam 0 tN).restoreOn 0 tMoved 1 (some 0)) = some [0] ∧ tMoved.barReady = false ∧ tMoved.isEnded = false ∧ (∀ e ∈ tMoved.agents, e.2.stop = none) ∧ restsOn tMoved) ∧
    sPreempt.flaws = [] :=
  ⟨has_grp _ (by decide), has_grp _ (by decide), has_grp _ (by decide), has_grp _ (by decide), by unfold restsOn; decide, by unfold restsOn; decide, by decide⟩

/-- Team 7 is loading, as often over as the free number needs; a grid with no team yet; one whose teams have ended; and a launch packet. -/
def tLoading : Team := { placedTeam .group with res := .loading 0 }
def sLoading : State := { sN with teams := List.replicate (Config.freeNat sN.fresh + 1) (7, tLoading) }
theorem sLoading_fresh : sLoading.fresh = sN.fresh := by simp only [sLoading]
theorem sLoading_teams : sLoading.teams = List.replicate (Config.freeNat sN.fresh + 1) (7, tLoading) := by unfold sLoading; rfl
def sGrid : State := { sN with teams := [], grids := [(0, { placedGrid with started := 0 })] }
def sOver (comp : W64) : State :=
  { sN with teams := [], grids := [(0, { placedGrid with launch := { placedLaunch with compAddr := comp }, host := some (0, 0) })] }
/-- Its completion word on a page that is not there, with the fault queue enabled. -/
def sOverBad : State := (sOver 0x20000000).modPart 0 fun p => { p with fqCtl := 10 }
def failsWith (e : Except Byte Place) : Option Byte := match e with | .error c => some c | .ok _ => none
def packet0 : List Byte := toBytes 8 0x0010002000010001 ++ toBytes 8 0x0008000100010001 ++ toBytes 8 0x0000001000000000 ++ List.replicate 40 0
def sChild (bs : List Byte) : State :=
  { (onTeam sN fun t => { t with ctlGone := false }) with children := [(0, { (default : Child) with team := 0, ev := true, packet := bs })] }

/-- A state in which a loading team is listed once more than its free number says lets that team start. -/
theorem loading_many (s : State) (n : Nat) (t : Team) (hn : Config.freeNat s.fresh = n) (hs : s.teams = List.replicate (n + 1) (7, t))
    (hg : t.grid = 0) (hr : t.res = .loading 0) : s.loadingOf 0 ≠ [] ∧
      Config.freeNat s.fresh % ((s.loadingOf 0).length + 1) < (s.loadingOf 0).length ∧
      (s.loadingOf 0).getD (Config.freeNat s.fresh % ((s.loadingOf 0).length + 1)) 0 = 7 ∧ s.team 7 = some t := by
  have hl : s.loadingOf 0 = List.replicate (n + 1) 7 := by simp [State.loadingOf, hs, hg, hr]
  have hm : n % (n + 1 + 1) = n := Nat.mod_eq_of_lt (by omega)
  refine ⟨by simp [hl], ?_, ?_, by simp [State.team, hs, Tbl.find?, List.replicate_succ]⟩
  · rw [hl, hn, List.length_replicate, hm]; omega
  · rw [hl, hn, List.length_replicate, hm]; simp

theorem witness_GridsRun :
    (Tbl.find? sLoading.grids 0 = some placedGrid ∧ tLoading.res = .loading 0 ∧ placedGrid.finished = false ∧ sLoading.shed placedGrid.cls = false ∧ sLoading.loadingOf 0 ≠ [] ∧
      Config.freeNat sLoading.fresh % ((sLoading.loadingOf 0).length + 1) < (sLoading.loadingOf 0).length ∧
      (sLoading.loadingOf 0).getD (Config.freeNat sLoading.fresh % ((sLoading.loadingOf 0).length + 1)) 0 = 7 ∧
      sLoading.team 7 = some tLoading) ∧
    (Tbl.find? sGrid.grids 0 = some { placedGrid with started := 0 } ∧ sGrid.shed 0 = false ∧ sGrid.loadingOf 0 = [] ∧
      sGrid.earlierWork 0 ({ placedGrid with started := 0 } : Grid).rank = false ∧ sGrid.nextPlaces { placedGrid with started := 0 } = some [0]) ∧
    (∃ g, Tbl.find? (sOver 0).grids 0 = some g ∧ g.finished = false ∧ (sOver 0).gridOver 0 g = true ∧ g.launch.compAddr = 0 ∧ g.host = some (0, 0)) ∧
    (∃ g, Tbl.find? (sOver 0x200).grids 0 = some g ∧ g.finished = false ∧ (sOver 0x200).gridOver 0 g = true ∧ g.launch.compAddr ≠ 0 ∧
      isPlace ((sOver 0x200).engPlace (hostCmd g.part g.asid 0 0) g.launch.compAddr true) = true) ∧
    (∃ g, Tbl.find? sOverBad.grids 0 = some g ∧ g.finished = false ∧ sOverBad.gridOver 0 g = true ∧ g.launch.compAddr ≠ 0 ∧
      failsWith (sOverBad.completionPlace g) = some 0x07 ∧ (sOverBad.partition g.part).fqSize = some 1024 ∧
      ((sOverBad.partition g.part).fqWr - (sOverBad.partition g.part).fqRd).toNat < 1024 ∧ (sOverBad.partition g.part).heldRecords = [] ∧
      ∀ m ∈ sOverBad.mons, m.spill = none) ∧
    ((Tbl.find? (sChild packet0).children 0).map (·.packet) = some packet0 ∧ ((sChild packet0).team 0).map (·.ctlGone) = some false ∧
      launchOk packet0 true = true ∧ (sChild packet0).everFits 0 (parseLaunch packet0) = true) ∧
    ((Tbl.find? (sChild []).children 0).map (·.packet) = some [] ∧ ((sChild []).team 0).map (·.ctlGone) = some false ∧
      launchOk [] true = false) := by
  refine ⟨?_, ⟨by decide, by decide, by decide, by decide, by decide⟩, ⟨_, rfl, by decide⟩, ⟨_, rfl, by decide⟩, ⟨_, rfl, by decide⟩, by decide, by decide⟩
  exact ⟨by decide, rfl, by decide, by decide, loading_many sLoading (Config.freeNat sN.fresh) tLoading
    (congrArg Config.freeNat sLoading_fresh) sLoading_teams rfl rfl⟩

/-- A live partition's queue 0 of 16 packets at 0x1000, with one packet announced. -/
def words8 (ws : List W64) : List Byte := ws.flatMap (fun w => toBytes 8 w.toNat) ++ List.replicate (64 - 8 * ws.length) 0
def sQueue (h : HostQ → HostQ) (bs : List Byte) : State :=
  (sN.modPart 0 fun p => { p with queues := [(0, h { HostQ.reset with base := 0x1000, ctl := 0x84000001, door := 1, accepted := 1 })] }).poke 0x1000 bs
/-- Packets: no type; LAUNCH, sound and not; COPY; SIGNAL; WAITMON; FENCE; MARKER with and without an address. -/
def pNone : List Byte := words8 []
def pLaunch : List Byte := words8 [0x0010002000010001, 0x0008000100010001, 0x0000001000000000]
def pLaunchBad : List Byte := words8 [1]
def pCopy : List Byte := words8 [2, 0x2000, 0x3000, 128]
def pSignal : List Byte := words8 [0x10003, 0x2000, 0xFFFFFFFF]
def pWait : List Byte := words8 [0xB0004, 0x2000, 7]
def pFence : List Byte := words8 [0x20005]
def pMarker (a : W64) : List Byte := words8 [6, a]

theorem witness_QueueRegisters :
    (sN.partition 0).live = true ∧
    (((sN.hostq 0 0).base.toNat % 4096 = 0 ∧ tagOf (sN.hostq 0 0).base = 0) ∧ bit 0x84000000 31 = true ∧ bits 0x84000000 63 32 = 0 ∧
      bits 0x84000000 30 29 = 0 ∧ bits 0x84000000 23 18 = 0 ∧ 4 ≤ bits 0x84000000 28 24 ∧ bits 0x84000000 28 24 ≤ 16) ∧
    (bit 0x91000000 31 = true ∧ ¬ bits 0x91000000 28 24 ≤ 16) ∧ bit 0x04000000 31 = false ∧
    (let h := (sQueue id pNone).hostq 0 0; h.accepted.toNat ≤ (17 - 1 : W64).toNat ∧ (17 - 1 : W64).toNat ≤ h.rd.toNat + h.size) ∧
    (let h := (sQueue id pNone).hostq 0 0; h.rd.toNat + h.size < (17 : W64).toNat ∧ (0 : W64).toNat < h.accepted.toNat) ∧
    (sN.partition 1).live = false := by decide

/-- The premises of every packet. -/
def due0 (s : State) (bs : List Byte) (ty : Nat) : Prop := packetDue s 0 0 bs ∧ bits (packetWord bs 0) 7 0 = ty

/-- Where the next packet of queue 0 stands. -/
def packetAt (s : State) : EPlace :=
  s.engPlace (hostCmd 0 (s.hostq 0 0).asid 0 (s.hostq 0 0).rd.toNat)
    ((s.hostq 0 0).base + BitVec.ofNat 64 (64 * ((s.hostq 0 0).rd.toNat % (s.hostq 0 0).size))) false

theorem due0_of {s : State} {bs : List Byte} {ty : Nat} (h : ((s.hostq 0 0).may = true ∧ (s.hostq 0 0).inTurn (bit (packetWord bs 0) 8) = true ∧
    isPlace (packetAt s) = true ∧ bs = s.read (place0 (packetAt s)).loc 64) ∧ bits (packetWord bs 0) 7 0 = ty) : due0 s bs ty := by
  obtain ⟨⟨h1, h2, h3, h4⟩, h5⟩ := h
  refine ⟨⟨h1, h2, ?_⟩, h5⟩
  change ∃ p, packetAt s = .ok p ∧ bs = s.read p.loc 64
  match hp : packetAt s with
  | .ok p => exact ⟨p, rfl, by rw [hp] at h4; exact h4⟩
  | .fault c => rw [hp] at h3; exact absurd h3 (by simp [isPlace])
  | .replay c => rw [hp] at h3; exact absurd h3 (by simp [isPlace])
  | .wait => rw [hp] at h3; exact absurd h3 (by simp [isPlace])

theorem nowhere_of {e : EPlace} (h : isPlace e = false) (p : Place) : e ≠ .ok p := fun hp => by rw [hp] at h; exact absurd h (by simp [isPlace])

/-- A fence that every earlier packet has completed for, and whose queue's last write is not released. -/
def unreleased (h : HostQ) : HostQ := { h with gwct := 1000 }
def fenced (h : HostQ) : HostQ := { h with door := 2, accepted := 2, rd := 1, running := [0], fences := [0] }
def sFenced : State := sQueue fenced (pNone ++ words8 [0x106])
def sFencedLate : State := sQueue (fun h => unreleased (fenced h)) (pNone ++ words8 [0x106])
/-- The partition holds no die. -/
def sNoDie : State := (sQueue id pLaunch).modPart 0 fun p => { p with pstate := 0x10000 }
def place1 (s : State) (write : Bool) : Place := place0 (s.engPlace (hostCmd 0 (s.hostq 0 0).asid 0 0) 0x2000 write)

/-- A queue whose packets stand on no page; and a WAITMON on a page of HOME 2. -/
def sLost : State := sQueue (fun h => { h with base := 0x20000000 }) pNone
def pWaitNear : List Byte := words8 [0xB0004, 0x10000000, 7]
def sNear : State := ((sQueue id pWaitNear).poke 0x30008 (toBytes 8 0x60001)).poke 0x60000 (toBytes 8 0xEB)

/-- The wake, or the timeout, of a WAITMON of queue 0 with its TOERR and RESULT, under way; and a WAITMON packet with a RESULT. -/
def sHostWake (toerr : Bool) (result : W64) (pred : Bool) : State :=
  { (sQueue (fun h => { h with rd := 1, running := [0], waitmon := some (0, toerr, result) }) pWait) with
    wakes := [(0, { mon := { req0.mon with hostq := true, part := 0, asid := 1, group := 0 }, value := 5, pred := pred, c := 3 })] }
abbrev hostWaits (s : State) (toerr : Bool) (result : W64) (pred : Bool) : Prop :=
  (Tbl.find? s.wakes 0).map (fun w => (w.mon.hostq, w.mon.part, w.mon.group, w.pred)) = some (true, 0, 0, pred) ∧
    (s.hostq 0 0).waitmon = some (0, toerr, result)
def pWaitRes : List Byte := words8 [0xB0004, 0x2000, 7, 0, 0x2100]

theorem witness_PacketsRun :
    (hostWaits (sHostWake false 0 false) false 0 false ∧ hostWaits (sHostWake true 0 false) true 0 false ∧
      hostWaits (sHostWake true 0x2000 true) true 0x2000 true ∧ (0x2000 : W64).toNat % 128 ≤ 112 ∧
      isPlace ((sHostWake true 0x2000 true).engPlace (hostCmd 0 1 0 0) 0x2000 true) = true) ∧
    (due0 (sQueue id pWaitRes) pWaitRes 4 ∧ (packetWord pWaitRes 4).toNat % 8 = 0 ∧ wordsZero pWaitRes 5 = true ∧
      isPlace ((sQueue id pWaitRes).engPlace (hostCmd 0 1 0 0) 0x2000 false) = true ∧
      isPlace ((sQueue id pWaitRes).engPlace (hostCmd 0 1 0 0) (packetWord pWaitRes 4) true) = true) ∧
    ((sLost.hostq 0 0).may = true ∧ ∀ p, packetAt sLost ≠ .ok p) ∧
    due0 (sQueue id pNone) pNone 0 ∧
    (due0 (sQueue id pLaunch) pLaunch 1 ∧ launchOk pLaunch false = true ∧ (sQueue id pLaunch).everFits 0 (parseLaunch pLaunch) = true) ∧
    (due0 sNoDie pLaunch 1 ∧ launchOk pLaunch false = true ∧ sNoDie.everFits 0 (parseLaunch pLaunch) = false) ∧
    (due0 (sQueue id pLaunchBad) pLaunchBad 1 ∧ launchOk pLaunchBad false = false) ∧
    (due0 (sQueue id pCopy) pCopy 2 ∧ bits (packetWord pCopy 0) 63 9 = 0 ∧ wordsZero pCopy 6 = true ∧ (packetSlice pCopy).formed = true ∧
      endpointOk (packetSlice pCopy).src (packetSlice pCopy).srcTop = true ∧ endpointOk (packetSlice pCopy).dst (packetSlice pCopy).dstTop = true ∧
      (tagOf (packetSlice pCopy).src = 0 ∧ tagOf (packetSlice pCopy).dst = 0) ∧ (packetSlice pCopy).geom.sparse = false ∧
      (packetSlice pCopy).src.toNat % 4 = 0 ∧ (packetSlice pCopy).dst.toNat % 4 = 0 ∧ (packetSlice pCopy).pitchesOk = true) ∧
    (due0 (sQueue id pSignal) pSignal 3 ∧ bits (packetWord pSignal 0) 63 19 = 0 ∧ bits (packetWord pSignal 0) 15 9 = 0 ∧
      bits (packetWord pSignal 0) 17 16 ≤ 1 ∧ wordsZero pSignal 3 = true ∧ (packetWord pSignal 1).toNat % 4 = 0 ∧
      bits (packetWord pSignal 2) 63 32 = 0 ∧ isPlace ((sQueue id pSignal).engPlace (hostCmd 0 1 0 0) 0x2000 true) = true) ∧
    (due0 (sQueue unreleased pSignal) pSignal 3 ∧ ((sQueue unreleased pSignal).hostq 0 0).gwct ≠ 0 ∧
      (sQueue unreleased pSignal).dtime < ((sQueue unreleased pSignal).hostq 0 0).gwct + 4) ∧
    (due0 sNear pWaitNear 4 ∧ isPlace (sNear.engPlace (hostCmd 0 1 0 0) 0x10000000 false) = true ∧
      (place0 (sNear.engPlace (hostCmd 0 1 0 0) 0x10000000 false)).owned ≠ .slice) ∧
    (due0 (sQueue id pWait) pWait 4 ∧ bits (packetWord pWait 0) 63 22 = 0 ∧ bits (packetWord pWait 0) 15 9 = 0 ∧ bits (packetWord pWait 0) 19 16 ≤ 11 ∧
      wordsZero pWait 5 = true ∧ (packetWord pWait 1).toNat % 4 = 0 ∧ bits (packetWord pWait 2) 63 32 = 0 ∧ packetWord pWait 4 = 0 ∧
      tagOf (packetWord pWait 1) ∉ [4, 5, 6, 8] ∧
      isPlace ((sQueue id pWait).engPlace (hostCmd 0 1 0 0) 0x2000 false) = true ∧
      (place1 (sQueue id pWait) false).owned = .slice) ∧
    (due0 (sQueue id pFence) pFence 5 ∧ bits (packetWord pFence 0) 63 18 = 0 ∧ bits (packetWord pFence 0) 15 9 = 0 ∧
      2 ≤ bits (packetWord pFence 0) 17 16 ∧ wordsZero pFence 1 = true ∧ ((sQueue id pFence).hostq 0 0).fenceDue = none) ∧
    (due0 sFenced (words8 [0x106]) 6 ∧ (sFenced.hostq 0 0).fenceDue = some 0 ∧ (sFenced.hostq 0 0).gwct = 0) ∧
    (due0 sFencedLate (words8 [0x106]) 6 ∧ (sFencedLate.hostq 0 0).fenceDue = some 0 ∧ (sFencedLate.hostq 0 0).gwct ≠ 0 ∧
      sFencedLate.dtime < (sFencedLate.hostq 0 0).gwct + 4) ∧
    (due0 (sQueue id (pMarker 0)) (pMarker 0) 6 ∧ bits (packetWord (pMarker 0) 0) 63 9 = 0 ∧ wordsZero (pMarker 0) 3 = true ∧
      packetWord (pMarker 0) 1 = 0 ∧ ∀ e ∈ ((sQueue id (pMarker 0)).partition 0).debug, e.2.isOpen = false) ∧
    (due0 (sQueue id (pMarker 0x2000)) (pMarker 0x2000) 6 ∧ packetWord (pMarker 0x2000) 1 ≠ 0 ∧ (packetWord (pMarker 0x2000) 1).toNat % 8 = 0 ∧
      isPlace ((sQueue id (pMarker 0x2000)).engPlace (hostCmd 0 1 0 0) 0x2000 true) = true) :=
  ⟨by decide, ⟨due0_of (by decide), by decide⟩, ⟨by decide, fun p => nowhere_of (e := packetAt sLost) (by decide) p⟩, due0_of (by decide), ⟨due0_of (by decide), by decide⟩, ⟨due0_of (by decide), by decide⟩,
    ⟨due0_of (by decide), by decide⟩, ⟨due0_of (by decide), by decide⟩, ⟨due0_of (by decide), by decide⟩, ⟨due0_of (by decide), by decide⟩,
    ⟨due0_of (by decide), by decide⟩, ⟨due0_of (by decide), by decide⟩, ⟨due0_of (by decide), by decide⟩, ⟨due0_of (by decide), by decide⟩,
    ⟨due0_of (by decide), by decide⟩, ⟨due0_of (by decide), by decide⟩, ⟨due0_of (by decide), by decide⟩⟩
/-- The worked frame of spec/21 (FREQ 49,420 mHz, ROCOF −1,200 mHz/s, VBUS 51,200 mV), with a SEQ, no headroom limit (FLAGS 4) and its CRC. -/
def frameOf (seq : Nat) : List Byte :=
  let b : List Byte := [0x5A, 0xA5, 0x01, 0x00] ++ toBytes 2 seq ++ [0x0C, 0xC1, 0x00, 0x50, 0xFB, 0x00, 0xC8, 0, 0, 0, 0, 4, 0] ++ List.replicate 11 0
  b ++ toBytes 2 (crc16 b).toNat
/-- A change to the power controller. -/
def sPwc (h : Pwc → Pwc) : State := { State.reset with pwc := h State.reset.pwc }
def enabled (p : Pwc) : Pwc := { p with pctl := 1, lastSeq := 5, first := false }
def partial0 : PartFrame := { (default : PartFrame) with last := 0 }
/-- A team of class 1 that is being shed, its grace timer started at 0. -/
def sGrace (now : Nat) : State :=
  { (onTeam sN fun t => { t with cls := 1, saveAsked := true }) with dtime := now, pwc := { sN.pwc with graceAt := [(1, 0)] } }

theorem witness_PowerFrames :
    frameValid ((sPwc id).pwc.received false 0 ++ []) = false ∧ (sPwc id).pwc.received false 0 = [] ∧
    (((sPwc fun p => { p with partA := some { bytes := (frameOf 32772).take 20, last := 5 } }).pwc.received false 20004) ++ (frameOf 32772).drop 20
      = frameOf 32772) ∧ (frameValid (frameOf 5) = true ∧ (sPwc enabled).pwc.accepts (frameField (frameOf 5) 5 4) = false) ∧
    (frameValid (frameOf 32772) = true ∧ (sPwc enabled).pwc.accepts (frameField (frameOf 32772) 5 4) = true) ∧
    (let s : State := { sPwc enabled with dtime := 5000001 }; s.pwc.en = true ∧ s.pwc.failsafe = false ∧ s.pwc.since + 5000000 < s.dtime) ∧
    (let s : State := { sPwc enabled with dtime := 5000000 }; s.dtime ≤ s.pwc.since + 5000000 ∧ s.dtime % 1000000 = 0 ∧ s.pwc.tickAt < s.dtime ∧ s.pwc.en = true ∧ s.pwc.first = false) ∧
    (let s : State := { sPwc (fun p => { enabled p with tickAt := 5000000 }) with dtime := 5000000 }; s.dtime ≤ s.pwc.tickAt) ∧
    (let s : State := { sPwc (fun p => { p with partA := some partial0, linkB := some 0 }) with dtime := 5000000 };
      s.pwc.partA = some partial0 ∧ partial0.last + 20000 ≤ s.dtime ∧ s.pwc.linkB = some 0 ∧ 0 + 5000000 ≤ s.dtime) ∧
    (let s : State := { sPwc (fun p => { p with partB := some partial0, linkA := some 0 }) with dtime := 19999 };
      s.pwc.partB = some partial0 ∧ s.dtime < partial0.last + 20000 ∧ s.pwc.linkA = some 0 ∧ s.dtime < 0 + 5000000) ∧
    (Tbl.find? (sGrace 1000000).pwc.graceAt 1 = some 0 ∧ 0 + (sGrace 1000000).pwc.grace.toNat * 1000 ≤ (sGrace 1000000).dtime ∧
      ((sGrace 1000000).team 0).map (fun t => (t.cls, t.resident, t.saveAsked)) = some (1, true, true)) ∧
    Tbl.find? (sGrace 999999).pwc.graceAt 1 = some 0 ∧ (sGrace 999999).dtime < 0 + (sGrace 999999).pwc.grace.toNat * 1000 := by decide

/-- A pair over its temperature limit with one team, and coolest clusters to take it. -/
def sHot : State := { sN with pairs := [(0, { (sN.pair 0) with temp := 200 })] }

/-- Die 0's last control interval, and pair 0's last measurement, were at a time; its layers have differed for nine measurements, and before for ten. -/
def sServed (last now : Nat) : State :=
  { sN with dtime := now, dies := [(0, { sN.die 0 with served := some last })],
            pairs := [(0, { (sN.pair 0) with measured := some last, overFor := 9, overLong := true })] }

/-- Pair 15 is throttled, and pair 0's layers have differed for long, or not. -/
def sThrottled (long : Bool) : State :=
  { sServed 10000 20000 with pairs := [(0, { (sN.pair 0) with overLong := long }), (15, { (sN.pair 15) with throttle := 1 })] }

theorem witness_PowerControl :
    (bit 1 0 = true ∧ (sPwc id).pwc.en = false ∧ tableOk false (sPwc id).pwc.fpt = true ∧ tableOk true (sPwc id).pwc.vpt = true ∧
      ptBad (sPwc id).pwc.fspt 0x000F07FF00000000#64 = false) ∧
    ((sPwc fun p => { p with fspt := 0x0001000000000000 }).pwc.en = false ∧
      ptBad (sPwc fun p => { p with fspt := 0x0001000000000000 }).pwc.fspt 0x000F07FF00000000#64 = true) ∧
    bit 0 0 = false ∧ ((List.replicate 16 40).length = 16 ∧ ((sServed 10000 19999).die 0).served = some 10000 ∧
      (sServed 10000 19999).dtime / 10000 ≤ 10000 / 10000 ∧ ((sServed 10000 20000).die 0).served = some 10000 ∧ 10000 / 10000 < (sServed 10000 20000).dtime / 10000) ∧
    ((∃ k, k < 16 ∧ ((sServed 10000 20000).pair (16 * 0 + k)).overLong = true) ∧ (¬ ∃ k, k < 16 ∧ 0 < ((sServed 10000 20000).pair (16 * 0 + k)).throttle) ∧
      (∃ k, k < 16 ∧ 0 < ((sThrottled false).pair (16 * 0 + k)).throttle) ∧ (¬ ∃ k, k < 16 ∧ ((sThrottled false).pair (16 * 0 + k)).overLong = true) ∧
      (∃ k, k < 16 ∧ 0 < ((sThrottled true).pair (16 * 0 + k)).throttle) ∧ (∃ k, k < 16 ∧ ((sThrottled true).pair (16 * 0 + k)).overLong = true)) ∧
    (((sServed 10000 20000).pair 0).overLong = true ∧ ((sServed 10000 20000).pair 0).measured = some 10000 ∧
      (sServed 10000 10999).dtime / 1000 ≤ 10000 / 1000 ∧ 10000 / 1000 < (sServed 10000 11000).dtime / 1000 ∧
      ((sServed 10000 11000).pair 0).overFor = 9 ∧ 10 ≤ ((sServed 10000 11000).pair 0).overFor + 1 ∧ ((sServed 10000 11000).pair 1).overFor + 1 < 10) ∧
    (80 < (181 : Nat) - 100 ∧ 80 < (181 : Nat) - 100 ∧ (139 : Nat) - 100 < 40 ∧ (100 : Nat) - 139 < 40 ∧ 100 < (201 : Nat) - 100 ∧ (200 : Nat) - 100 ≤ 100) ∧
    (sN.pair 0).temp ≤ bits sN.pwc.therm 7 0 ∧
    (bits sHot.pwc.therm 7 0 < (sHot.pair 0).temp ∧ (sHot.pair 0).moved = none ∧
      ((sHot.teams.filter fun e => (decide (e.2.cluster = some (2 * 0)) || decide (e.2.cluster = some (2 * 0 + 1))) && !e.2.priv).map (·.1)) = [0] ∧
      (sHot.coolClusters 0).isEmpty = false ∧ (({ sHot with fresh := sHot.fresh + 1 } : State).migrate 0 ((sHot.coolClusters 0).headD 0)).isSome = true) ∧
    (sN.teamsAt (2 * 1) = [] ∧ sN.teamsAt (2 * 1 + 1) = []) ∧ sN.teamsAt (2 * 0) ≠ [] :=
  ⟨by decide, by decide, by decide, by decide, by decide, by decide, by decide, by decide, by decide, by decide, by decide⟩

/-- An open session that samples, and a sound TCTL. -/
def sSample : State := sN.modPart 0 fun p => { p with debug := [(0, { (sN.debugOf 0 0) with tctl := 3 })] }
/-- A replayed WAIT of the placed group: its one lane is held, and the next record of its log names it. -/
def heldLane (kind time : Nat) : State :=
  (replayed (onGrp sN fun x => { x with lanes := x.lanes.set 3 { x.lane 3 with
    s := .mon, held := true, w := 1, codeD := .u 3, codeE := .p 1, mates := 8, site := ⟨0, 0⟩ } })).poke 0x40020000
    (toBytes 32 (kind + time * 2 ^ 64 + 3 * 2 ^ 160 + 2 ^ 191 + 5 * 2 ^ 192))

def sHeldLane (time : Nat) : State := heldLane 0x11 time
/-- The next record of the log is another of the group, which idles. -/
def sOtherRec : State := onGrp (heldLane 0x10 0) fun x => { x with issue := .idle }
/-- The cluster was sampled at a time; SCUR is 10. -/
def sSampled (at0 now : Nat) : State :=
  { (sSample.modPart 0 fun p => { p with debug := [(0, { (sSample.debugOf 0 0) with scur := 10, sampled := [(0, at0)] })] }) with dtime := now }

/-- The premises of a delivery. -/
abbrev delivers (s : State) (t : Team) (x : Agent) : Prop :=
  t.resident = true ∧ 3 < x.lanes.length ∧ (x.lane 3).held = true ∧ (x.lane 3).s = .mon ∧ (x.lane 3).mates = 1#32 <<< 3 ∧
    recMatches (s.logNext t) 0 { x with p := (x.lane 3).site.pc, cseq := (x.lane 3).site.cseq } 0x11 = true ∧
    (loggedOf (s.logNext t)).p0.toNat % 2 ^ 31 = 3 ∧ 3 ∈ x.parked (1#32 <<< 3) ∧
    (∀ l ∈ x.parked (1#32 <<< 3), l < x.lanes.length ∧ (x.lane l).codeD = (x.lane 3).codeD ∧ (x.lane l).codeE = (x.lane 3).codeE ∧
      (x.lane l).wide = (x.lane 3).wide) ∧ (x.lane 3).codeD = .u 3 ∧ (x.lane 3).codeE = .p 1

theorem witness_DebugEvents :
    ((sN.partition 0).live = true ∧ (63 : Nat) < 64 ∧ tctlTakes 0x0A0801#64 = true ∧ bit 0x0A0801#64 0 = true ∧ tctlTakes 0x0A0800#64 = true ∧ bit 0x0A0800#64 0 = false) ∧
    (dieOf 31 ∈ sN.diesOf 0 ∧ (15 : Nat) < 16 ∧ (2 : Nat) ≤ 2 ∧ (6 : Nat) ≤ 6) ∧
    (bit 0x102 8 = true ∧ ({ (sN.debugOf 0 0).watch 3 with ctl := 0x102 } : Watch).formed = true) ∧
    (bit 0x103 8 = true ∧ ({ (sN.debugOf 0 0).watch 3 with ctl := 0x103 } : Watch).formed = false) ∧
    (bit (sSample.debugOf 0 0).tctl 0 = true ∧ bit (sSample.debugOf 0 0).tctl 1 = true ∧
      (∃ e ∈ sSample.teams, e.2.part = 0 ∧ e.2.asid = sSample.asidOf 0 0 ∧ e.2.cluster = some 0) ∧
      Tbl.find? (sSample.debugOf 0 0).sampled 0 = none ∧ Tbl.find? ((sSampled 5 10004).debugOf 0 0).sampled 0 = some 5 ∧
      (sSampled 5 10004).dtime < 5 + 1 * max 1 (((sSampled 5 10004).debugOf 0 0).scur.toNat * 1000) ∧
      (sSampled 5 10005).dtime = 5 + 1 * max 1 (((sSampled 5 10005).debugOf 0 0).scur.toNat * 1000)) ∧
    (∃ t x, (sHeldLane 0).team grp.team = some t ∧ (sHeldLane 0).agent grp = some x ∧ delivers (sHeldLane 0) t x ∧
      oneWait x (1#32 <<< 3) 3 ∧ (loggedOf ((sHeldLane 0).logNext t)).dtime ≤ (sHeldLane 0).dtime) ∧
    (∃ t x, (sHeldLane 1).team grp.team = some t ∧ (sHeldLane 1).agent grp = some x ∧ delivers (sHeldLane 1) t x ∧
      oneWait x (1#32 <<< 3) 3 ∧ (sHeldLane 1).dtime < (loggedOf ((sHeldLane 1).logNext t)).dtime) ∧
    (∃ t x, sOtherRec.team grp.team = some t ∧ sOtherRec.agent grp = some x ∧ t.resident = true ∧ (x.lane 3).held = true ∧
      recMatches (sOtherRec.logNext t) 0 { x with p := (x.lane 3).site.pc, cseq := (x.lane 3).site.cseq } 0x11 = false ∧ x.kind ≠ .privileged ∧
      x.issue = .idle ∧ recOwner (sOtherRec.logNext t) 0 = true ∧ x.recWake (sOtherRec.logNext t) 0 = false) := by
  refine ⟨by decide, by decide, by decide, by decide, by decide, ?_, ?_, has_grp _ (by decide)⟩
  · obtain ⟨t, x, ht, hx, h, k⟩ := has_grp (s := sHeldLane 0) (fun t x => delivers (sHeldLane 0) t x ∧
      (loggedOf ((sHeldLane 0).logNext t)).dtime ≤ (sHeldLane 0).dtime) (by decide)
    exact ⟨t, x, ht, hx, h, oneWait_of h.2.2.2.2.2.2.2, k⟩
  · obtain ⟨t, x, ht, hx, h, k⟩ := has_grp (s := sHeldLane 1) (fun t x => delivers (sHeldLane 1) t x ∧
      (sHeldLane 1).dtime < (loggedOf ((sHeldLane 1).logNext t)).dtime) (by decide)
    exact ⟨t, x, ht, hx, h, oneWait_of h.2.2.2.2.2.2.2, k⟩

/-! #### The outside -/

/-- Partition 0 lists peer device 3 for its own accesses. -/
def sPeer : State := sN.modPart 0 fun p => { p with peers := [(3, 0x21)] }
/-- The mailbox of partition 0 with a report asked for. -/
def sMail : State := sN.modPart 0 fun p => { p with mail := { p.mail with stat := 1 } }

theorem witness_OutsideAccesses :
    (sN.partition 0).live = true ∧ (sN.partition 1).live = false ∧ (sN.partition 0).acceptsPeer 3 0 = false ∧
    (sPeer.partition 0).acceptsPeer 3 0 = true ∧ sPeer.barLoc 0 0x10000 = some (locOf 0 0x10000) ∧ (∀ e ∈ (sPeer.partition 0).debug, ∀ w ∈ e.2.wp, w.2.loc = none) ∧
    sPeer.barLoc 0 8 = some (locOf 0 8) ∧ sPeer.readNat (locOf 0 0x10000) 8 = (1 : W64).toNat % 2 ^ (8 * 8) ∧
    sPeer.readNat (locOf 0 0x10000) 8 ≠ (2 : W64).toNat % 2 ^ (8 * 8) := by decide

/-- The placed group has an access on its way to the host; command 0 copies to the host; and the completion word stands there. -/
def sFarOp : State := onGrp sN fun x => { x with ops := [(0, { opBefore with place := { loc := locOf 1 0, owned := .slice, pte := 0x4CB, va := 0 } })] }
def sCopyFar : State := ran (.cpc fCpc) (withRegs (sCpc.poke 0x30008 (toBytes 8 0x4CB)) thr [(1, 0x10000000), (2, 0x100), (3, 128)])
def sOverFar : State := (sOver 0x10000000).poke 0x30008 (toBytes 8 0x4CB)
def placeIn (e : Except Byte Place) : Place := match e with | .ok p => p | .error _ => default
def isIn (e : Except Byte Place) : Bool := match e with | .ok _ => true | .error _ => false

/-- The line that a load of the placed group reads stores an uncorrectable error. -/
def sFlawed : State := { sOps [(0, anOp (.load 4 0 0))] with flaws := [2] }

theorem witness_ErrorsAreContained :
    (∃ t x, sN.team grp.team = some t ∧ sN.agent grp = some x ∧ t.isEnded = false) ∧
    (∃ t x, sFarOp.team grp.team = some t ∧ sFarOp.agent grp = some x ∧ x.remoteOp.isSome = true ∧ t.isEnded = false) ∧
    (∃ t x, sFlawed.team grp.team = some t ∧ sFlawed.agent grp = some x ∧ t.cluster = some 0 ∧ Tbl.find? x.ops 0 = some (anOp (.load 4 0 0)) ∧
      x.opReady (anOp (.load 4 0 0)) = true ∧ x.opsWith (anOp (.load 4 0 0)) = [(0, anOp (.load 4 0 0))] ∧ t.isEnded = false ∧
      sFlawed.consumesFlaw { a := grp, cluster := 0, part := t.part, asid := t.asid } (anOp (.load 4 0 0)) = true) ∧
    ((0, 1) ∈ sN.contexts ∧ (sN.team 0).map (fun t => (t.part, t.asid, t.isEnded, t.priv)) = some (0, 1, false, false) ∧ sN.mapsIlv0 0 1 = true ∧
      ({ sN with mem := [] } : State).mapsIlv0 0 1 = false) ∧
    (Tbl.find? sCopy.cmds 0 = some (cmd0 sCopy) ∧ (cmd0 sCopy).owner = .agent 0 ctlWho ∧ sCopy.team 0 = some (team0 sCopy) ∧
      (team0 sCopy).ctlGone = false ∧ (cmd0 sCopy).runs = true ∧ (cmd0 sCopy).settled sCopy = true ∧ (cmd0 (unsettled sCopy none)).settled (unsettled sCopy none) = false) ∧
    (Tbl.find? sCopyFar.cmds 0 = some (cmd0 sCopyFar) ∧ (cmd0 sCopyFar).owner = .agent 0 ctlWho ∧ (team0 sCopyFar).ctlGone = false ∧
      (cmd0 sCopyFar).runs = true ∧ sCopyFar.cmdRemote (cmd0 sCopyFar) = true ∧ (cmd0 sCopyFar).settled sCopyFar = true) ∧
    (∃ g, Tbl.find? sOverFar.grids 0 = some g ∧ g.finished = false ∧ sOverFar.gridOver 0 g = true ∧ g.launch.compAddr ≠ 0 ∧
      isIn (sOverFar.completionPlace g) = true ∧ (placeIn (sOverFar.completionPlace g)).remote = true) :=
  ⟨has_grp (fun t _ => t.isEnded = false) (by decide), has_grp (fun t x => x.remoteOp.isSome = true ∧ t.isEnded = false) (by decide),
    has_grp _ (by decide), by decide,
    by decide, by decide, ⟨_, rfl, by decide⟩⟩

/-- A privileged thread that waits for an answer to a SYSC or a TLBI, and one that a registration keeps from its answer. -/
def sThrWaits (i : Instr) (b : BlockWhy) : State := onThr (stand i) fun x => { x with block := some b }
def sBatch : State := { sThrWaits (.tlbi fTlbi) .tlbi with batches := [(0, { (default : RegBatch) with reqs := [default] })] }
def thr0 (s : State) : Agent := (s.agent thr).getD default
abbrev waitsTlbi (s : State) : Prop :=
  s.agent thr = some (thr0 s) ∧ (thr0 s).issue = .beats ∧ (thr0 s).answer = none ∧ (thr0 s).block = some .tlbi ∧
    parse (thr0 s).arr.word = .ok (.tlbi fTlbi)

theorem witness_Management :
    ((sThrWaits (.sysc fSysc) .sysc).agent thr = some (thr0 (sThrWaits (.sysc fSysc) .sysc)) ∧ (thr0 (sThrWaits (.sysc fSysc) .sysc)).issue = .beats ∧
      (thr0 (sThrWaits (.sysc fSysc) .sysc)).answer = none ∧ (thr0 (sThrWaits (.sysc fSysc) .sysc)).block = some .sysc) ∧
    waitsTlbi (sThrWaits (.tlbi fTlbi) .tlbi) ∧ waitsTlbi sBatch ∧
    (sThrWaits (.tlbi fTlbi) .tlbi).tlbiWaits fTlbi.fn 0 0 = false ∧ sBatch.tlbiWaits fTlbi.fn 0 0 = true ∧
    (({ sN with bootStat := 1 } : State).privCluster 0 = some 1 ∧ bit (1 : W64) 0 = true) ∧ (sN.privCluster 0 = some 1 ∧ bit sN.bootStat 0 = false) ∧
    (4 % 8 ≠ 0 ∧ (15 : Nat) < 16 ∧ (63 : Nat) < 64 ∧ (sN.partition 0).live = true ∧ (sN.partition 1).live = false) ∧
    ((sN.partition 0).mail.stat ≠ 1 ∧ bit (1 : W64) 0 = true) ∧
    ((sMail.partition 0).live = true ∧ (sMail.partition 0).mail.stat = 1 ∧ (sMail.partition 0).mail.nonce.length = 32) :=
  ⟨by decide, by decide, by decide, by decide, by decide, by decide, by decide, by decide, by decide, by decide⟩

/-! #### A step -/

/-- After reset with a word placed, and with the placed group at its beats again. -/
def sFetch : State := State.reset.place ((encode (.nop fNop)).getD 0)
def sAgain : State := { sN with agenda := [.run grp] }
def wNop : Code128 := (encode (.nop fNop)).getD 0

/-- The word that the agent of a state fetches. -/
def fetched (s : State) (t : Team) (x : Agent) : Code128 :=
  match s.fetch t (t.cluster.getD 0) x.p.toNat with
  | .word w _ => w
  | .stop _ _ => 0
/-- The premises of a turn of the placed group. -/
abbrev inTurn (s : State) (t : Team) (x : Agent) (q : State → Prop) [∀ s, Decidable (q s)] : Prop :=
  s.agenda = .run grp :: [] ∧ t.cluster = some 0 ∧ x.stays t grp.who = false ∧ (x.isGroup = true → x.goosed = false) ∧
    ({ s with agenda := [] } : State).enters grp 0 x = true ∧ ({ s with agenda := [] } : State).lets grp 0 x = true ∧ q { s with agenda := [] }
abbrev arrives (t : Team) (x : Agent) (s0 : State) : Prop :=
  x.issue = .arrive true ∧ fetched s0 t x = wNop ∧ x.wraps true wNop = false ∧
    decodeFor x.kind x.budget wNop = .ok (.nop fNop)
abbrev goesOn (x : Agent) (_ : State) : Prop := x.issue = .beats ∧ decodeFor x.kind x.budget x.arr.word = .ok (.nop fNop)

theorem witness_StepRunsDecoded :
    (∃ t x, sFetch.team grp.team = some t ∧ sFetch.agent grp = some x ∧ inTurn sFetch t x (arrives t x)) ∧
    (∃ t x, sAgain.team grp.team = some t ∧ sAgain.agent grp = some x ∧ inTurn sAgain t x (goesOn x)) ∧
    (({ sN with agenda := [.ev .correctedError] } : State).agenda = .ev .correctedError :: [] ∧ formOf .correctedError = none) :=
  ⟨has_grp (fun t x => inTurn sFetch t x (arrives t x)) (by decide), has_grp (fun t x => inTurn sAgain t x (goesOn x)) (by decide), by decide⟩

/-- The code's page: not executable, replayable, not there; its line in the instruction cache. -/
def sCodePage (pte : W64) : State := sFetch.poke 0x30000 (toBytes 8 pte.toNat)
def codeVa : Nat := ((sFetch.codeOf (team0 sFetch)).2.toNat + 16 * 0) % 2 ^ 52
def codeLine : ILine := { (default : ILine) with cluster := 0, part := 0, asid := 1, vline := codeVa / 128, data := List.replicate 128 0 }

theorem witness_FetchReadsCode :
    (0 < (sFetch.codeOf (team0 sFetch)).1 ∧ (sFetch.codeOf (team0 sFetch)).2.toNat % 128 = 0 ∧
      sFetch.walk 0 (team0 sFetch).part (team0 sFetch).asid codeVa = .leaf 0xF true ∧ bit (0xF : W64) 2 = true ∧ sFetch.icache = [] ∧
      sFetch.reaches (team0 sFetch).part (sFetch.leafPlace (team0 sFetch).part 0xF true codeVa) = true ∧ sFetch.flaws = []) ∧
    (codeLine.isLine 0 (team0 sFetch).part (team0 sFetch).asid (codeVa / 128) = true) ∧
    (let s : State := { sFetch with flaws := [(sFetch.leafPlace (team0 sFetch).part 0xF true codeVa).loc / 128] }
     (s.leafPlace (team0 sFetch).part 0xF true codeVa).loc / 128 ∈ s.flaws) ∧
    ((sCodePage 0xB).walk 0 (team0 sFetch).part (team0 sFetch).asid codeVa = .leaf 0xB true ∧ bit (0xB : W64) 2 = false) ∧
    (sCodePage 0).walk 0 (team0 sFetch).part (team0 sFetch).asid codeVa = .fault 0x07 ∧
    (sCodePage 0x0100000000000400).walk 0 (team0 sFetch).part (team0 sFetch).asid codeVa = .replay ∧
    0 < ((sCodePage 0).codeOf (team0 sFetch)).1 ∧ (sFetch.codeOf (team0 sFetch)).1 ≤ 2 ^ 28 := by
  decide

/-- A group at its arrival: at a reserved opcode, and at an index beyond the code. -/
def sReserved : State := { (State.reset.place 0xFF) with cur := some grp }
def sBeyond : State := onGrp { sFetch with cur := some grp } fun x => { x with p := BitVec.ofNat 28 (2 ^ 28 - 1) }

theorem witness_ArrivalStops :
    (∃ t x, sReserved.team grp.team = some t ∧ sReserved.agent grp = some x ∧ sReserved.arriving = some (grp, t, x, true) ∧ fetched sReserved t x = 0xFF ∧ opcodeReserved 0xFF = true ∧
      x.wraps true 0xFF = false ∧ x.kind ≠ .privileged ∧ x.restart = 0) ∧
    (∃ t x, sBeyond.team grp.team = some t ∧ sBeyond.agent grp = some x ∧ sBeyond.arriving = some (grp, t, x, true) ∧
      (match sBeyond.fetch t (t.cluster.getD 0) x.p.toNat with | .stop c _ => c | .word _ _ => 0) = 0x08 ∧
      x.kind ≠ .privileged ∧ x.restart = 0) :=
  ⟨has_grp (fun t x => sReserved.arriving = some (grp, t, x, true) ∧ fetched sReserved t x = 0xFF ∧ opcodeReserved 0xFF = true ∧
      x.wraps true 0xFF = false ∧ x.kind ≠ .privileged ∧ x.restart = 0) (by decide),
    has_grp (fun t x => sBeyond.arriving = some (grp, t, x, true) ∧
      (match sBeyond.fetch t (t.cluster.getD 0) x.p.toNat with | .stop c _ => c | .word _ _ => 0) = 0x08 ∧
      x.kind ≠ .privileged ∧ x.restart = 0) (by decide)⟩

theorem witness_encodings :
    ((Instr.nop fNop).wellFormed = true ∧ (formOf (.nop fNop)).isSome = true) ∧ decode wNop = .ok (.nop fNop) ∧
    (field (0x1000000000000000 : Code128) 60 4 ≠ 0#4 ∧ (formAt (field (0xFF : Code128) 0 8) default).isNone = true ∧
      (88 ∈ [16, 24, 32, 40, 80, 88] ∧ operandOf (field ((0xF9 : Code128) <<< 88) 88 8) = none)) ∧
    ((rowFor (.bar fNop)).map (·.mark) = some .g ∧ (rowFor (.cpc fCpc)).map (·.mark) = some .c ∧ (rowFor (.tlbi fTlbi)).map (·.mark) = some .p) := by decide

theorem witness_StepKeepsInvariant : sFetch.Inv ∧ isNext (step sFetch) = true := ⟨by unfold State.Inv; decide, by decide⟩

/-- Boot synchronises every die, or a first one fails: one premise or the other of the reset's clauses holds, whatever `Config.syncs` is. -/
theorem witness_syncs : (∀ d, d < 12 → Config.syncs d = true) ∨ ∃ d, d < 12 ∧ Config.syncs d = false ∧ ∀ k, k < d → Config.syncs k = true := by
  by_cases h : ∃ d, d < 12 ∧ Config.syncs d = false
  · refine Or.inr ⟨Nat.find h, (Nat.find_spec h).1, (Nat.find_spec h).2, fun k hk => ?_⟩
    have hn := Nat.find_min h hk
    have hb : k < 12 := lt_trans hk (Nat.find_spec h).1
    cases hc : Config.syncs k
    · exact absurd ⟨hb, hc⟩ hn
    · rfl
  · refine Or.inl fun d hd => ?_
    cases hc : Config.syncs d
    · exact absurd ⟨d, hd, hc⟩ h
    · rfl
/-- Of some images all are sound, or a first one is not: one premise or the other of boot's clauses holds, whatever the images are. -/
theorem first_unsound (l : List (Nat × Nat)) (v : Nat × Nat → Nat) : (∀ e ∈ l, v e = 0) ∨ ∃ pre e post, l = pre ++ e :: post ∧ (∀ x ∈ pre, v x = 0) ∧
    v e ≠ 0 := by
  induction l with
  | nil => exact Or.inl (by simp)
  | cons e l ih =>
    by_cases he : v e = 0
    · rcases ih with h | ⟨pre, x, post, rfl, h, hx⟩
      · exact Or.inl (by simpa [he] using h)
      · exact Or.inr ⟨e :: pre, x, post, rfl, by simpa [he] using h, hx⟩
    · exact Or.inr ⟨[], e, l, rfl, by simp, he⟩

theorem witness_verdicts (s : State) :
    (∀ e ∈ bootOrder, verdict e.1 e.2 ((Tbl.find? s.flash e.1).getD []) = 0) ∨ ∃ pre e post, bootOrder = pre ++ e :: post ∧
      (∀ x ∈ pre, verdict x.1 x.2 ((Tbl.find? s.flash x.1).getD []) = 0) ∧ verdict e.1 e.2 ((Tbl.find? s.flash e.1).getD []) ≠ 0 :=
  first_unsound bootOrder fun e => verdict e.1 e.2 ((Tbl.find? s.flash e.1).getD [])

/-! ### Single steps

Expected values are calculated by hand from the rules named. -/

/-- s3 after one step of a UNI form on s1, s2 and s4. -/
def s3After (i : Fields → Instr) (f : Fields) (a b c : W64) : Option W64 :=
  let f1 : Fields := { f with d := .u 3, a := .u 1, pg := 7, uni := true }
  ((ran (i f1) (onGrp (stand (i f1)) fun x => { x with u := [(1, a), (2, b), (4, c)] })).agent grp).map fun x => Tbl.get 0 x.u 3
def fBin : Fields := { z with b := .u 2 }
def fTern : Fields := { z with b := .u 2, c := .u 4 }

/- R95, R97: sums wrap or clamp, high products, corners of division. -/
theorem test_add_wraps : s3After .add { fBin with ty := .i32 } 0x7FFFFFFF 1 0 = some 0x80000000 := by decide
theorem test_add_sat : s3After .add { fBin with ty := .i32, sat := true } 0x7FFFFFFF 1 0 = some 0x7FFFFFFF := by decide
theorem test_sub_sat : s3After .sub { fBin with sat := true } 3 5 0 = some 0 := by decide
theorem test_mulh : s3After .mulh { fBin with ty := .i32 } 0x80000000 2 0 = some 0xFFFFFFFF := by decide
theorem test_mad_wide : s3After .mad { fTern with ty := .n64 } 0x100000000 0x100000001 7 = some 0x100000007 := by decide
/- R97 to R100: shifts by the width, a sign extended field, an insertion, an address, a selection. -/
theorem test_shl_width : s3After .shl fBin 1 32 0 = some 0 := by decide
theorem test_sar_width : s3After .sar { fBin with ty := .i32 } 0x80000000 99 0 = some 0xFFFFFFFF := by decide
theorem test_bfx : s3After .bfx { fBin with ty := .i32 } 0xF0 0x404 0 = some 0xFFFFFFFF := by decide
theorem test_bfi : s3After .bfi fTern 0xFFFFFFFF 0 0x808 = some 0xFFFF00FF := by decide
theorem test_lea : s3After .lea { fTern with ty := .i32 } 0x1000 0xFFFFFFFF 4 = some 0xFF0 := by decide
theorem test_idp4 : s3After .idp4 { fTern with ty := .i8 } 0xFF02 0x0303 10 = some 13 := by decide
/- R111: 1 + 1 and the least subnormal times one half, in f32. -/
theorem test_fadd : s3After .fadd { fBin with ty := .f32 } 0x3F800000 0x3F800000 0 = some 0x40000000 := by decide
theorem test_fmul_underflows : s3After .fmul { fBin with ty := .f32 } 1 0x3F000000 0 = some 0 := by decide
/- The worked conversions after R118. -/
theorem test_cvt_worked :
    s3After .cvt { z with fn := 4, ty := .l6 } 0x40400000 0 0 = some 0x06 ∧ s3After .cvt { z with fn := 4, ty := .l6 } 0xBD4CCCCD 0 0 = some 0x10 ∧
    s3After .cvt { z with fn := 4, ty := .e4m3 } 0x3E99999A 0 0 = some 0x2A ∧ s3After .cvt { z with fn := 4, ty := .e4m3 } 0x43FA0000 0 0 = some 0x7E ∧
    s3After .cvt { z with fn := 4, ty := .e2m1 } 0x40266666 0 0 = some 0x5 ∧ s3After .cvt { z with fn := 4, ty := .i32 } 0x4079999A 0 0 = some 4 := by
  decide
/-- CVTS.pack.l6 v9, v4, s6, 2 of −12.0 with S = 126 into a word that holds 0x06. -/
def fPackL6 : Fields := { z with d := .v 9, a := .v 4, b := .u 6, c := .imm, pg := 7, imm := 2 }
theorem test_cvts_worked :
    ((ran (.cvts fPackL6) (onGrp (stand (.cvts fPackL6)) fun x =>
      { x with u := [(6, 126)], v := [(4, 0xC1400000), (9, 6)] })).agent grp).map (fun x => x.getV 0 9) = some 0x2F006 := by decide
end Sys2Proof.Tests
end

section
/-! Register-to-register forms at a due beat: what the registers hold once the lanes' results are written (R42, R44, R54), and from that the results
of ADDX and SETP (R101, R103). -/

namespace Sys2Proof.Machine

/-! ### Registers after writes -/

/-- The register of a write holds the write's value and is full (R54). -/
def Agent.has (x : Agent) : RegWrite → Prop
  | .v i r y => x.getV i r = y ∧ x.emptyV i r = false
  | .u r y => x.getU r = y ∧ x.emptyU r = false
  | .p r i c => x.getP r i = c ∧ x.emptyP r i = false

/-- A write takes effect: p7 discards, and a predicate has 32 lanes (R41, R44). -/
def RegWrite.lasts : RegWrite → Prop
  | .p r i _ => r ≠ 7 ∧ i < 32
  | _ => True

theorem Agent.has_congr {x y : Agent} (h : x.regs = y.regs) (g : RegWrite) : x.has g ↔ y.has g := by
  obtain ⟨hv, hu, hpr, hvE, huE, hprE, -⟩ : x.v = y.v ∧ x.u = y.u ∧ x.pr = y.pr ∧ x.vE = y.vE ∧ x.uE = y.uE ∧ x.prE = y.prE ∧ x.fp = y.fp := by
    simpa [Agent.regs] using h
  cases g <;> simp only [Agent.has, Agent.getV, Agent.getU, Agent.getP, Agent.emptyV, Agent.emptyU, Agent.emptyP, hv, hu, hpr, hvE, huE, hprE]

theorem getLsbD_setBit_same (m : LaneMask) {i : Nat} (hi : i < 32) (c : Bool) : (setBit m i c).getLsbD i = c := by
  cases c <;> simp [setBit, hi]

theorem getLsbD_setBit_other (m : LaneMask) {i k : Nat} (hk : k ≠ i) (c : Bool) : (setBit m i c).getLsbD k = m.getLsbD k := by
  by_cases hk32 : k < 32
  · rcases Nat.lt_or_gt_of_ne hk with h | h
    · cases c <;> simp [setBit, hk32, h]
    · have hne : k - i ≠ 0 := by omega
      cases c <;> simp [setBit, hk32, hne]
  · rw [BitVec.getLsbD_of_ge _ _ (by omega), BitVec.getLsbD_of_ge _ _ (by omega)]

theorem Agent.has_write_self (x : Agent) {g : RegWrite} (hg : g.lasts) : (x.write g).has g := by
  cases g with
  | v i r y => simp [Agent.has, Agent.write, Agent.getV, Agent.emptyV, Tbl.get_put]
  | u r y => simp [Agent.has, Agent.write, Agent.getU, Agent.emptyU, Tbl.get_put]
  | p r i c =>
    obtain ⟨hr, hi⟩ := hg
    simp [Agent.has, Agent.write, Agent.getP, Agent.emptyP, Tbl.get_put, hr, getLsbD_setBit_same _ hi]

/-- A write leaves every other register alone. -/
theorem Agent.has_write_other (x : Agent) {g h : RegWrite} (hgh : h.sameReg g = false) : (x.write h).has g ↔ x.has g := by
  cases h with
  | v i r y =>
    cases g with
    | v k q z =>
      have hk : 128 * k + q ≠ 128 * i + r := fun e => by simp [RegWrite.sameReg, e] at hgh
      simp [Agent.has, Agent.write, Agent.getV, Agent.emptyV, Tbl.get_put, hk]
    | u | p => exact Iff.rfl
  | u r y =>
    cases g with
    | u q z =>
      have hq : q ≠ r := fun e => by simp [RegWrite.sameReg, e] at hgh
      simp [Agent.has, Agent.write, Agent.getU, Agent.emptyU, Tbl.get_put, hq]
    | v | p => exact Iff.rfl
  | p r i c =>
    by_cases hr : r = 7
    · simp [Agent.write, hr]
    · cases g with
      | p q k d =>
        by_cases hq : q = r
        · subst hq
          have hk : k ≠ i := fun e => by simp [RegWrite.sameReg, e] at hgh
          simp [Agent.has, Agent.write, Agent.getP, Agent.emptyP, Tbl.get_put, hr, getLsbD_setBit_other _ hk]
        · simp [Agent.has, Agent.write, Agent.getP, Agent.emptyP, Tbl.get_put, hr, hq]
      | v | u => simp [Agent.has, Agent.write, Agent.getV, Agent.getU, Agent.emptyV, Agent.emptyU, hr]

@[simp] theorem RegWrite.sameReg_self (g : RegWrite) : g.sameReg g = true := by cases g <;> simp [RegWrite.sameReg]

/-- No two of the writes give one register different values. -/
def RegWrite.Agree (ws : List RegWrite) : Prop := ∀ g ∈ ws, ∀ h ∈ ws, h.sameReg g = true → h = g

/-- After writes that agree, every one of them that takes effect is found in its register. -/
theorem Agent.has_writeAll (x : Agent) {ws : List RegWrite} (hws : RegWrite.Agree ws) {g : RegWrite} (hg : g ∈ ws) (hl : g.lasts) :
    (x.writeAll ws).has g := by
  induction ws using List.reverseRecOn with
  | nil => cases hg
  | append_singleton ws h ih =>
    have hstep : x.writeAll (ws ++ [h]) = (x.writeAll ws).write h := by simp [Agent.writeAll]
    rw [hstep]
    cases hs : h.sameReg g with
    | true =>
      obtain rfl := hws g hg h (by simp) hs
      exact Agent.has_write_self _ hl
    | false =>
      have hmem : g ∈ ws := by
        rcases List.mem_append.mp hg with hin | hin
        · exact hin
        · obtain rfl := List.mem_singleton.mp hin
          simp at hs
      exact (Agent.has_write_other _ hs).mpr
        (ih (fun a ha c hc => hws a (List.mem_append_left _ ha) c (List.mem_append_left _ hc)) hmem)

/-- Writes that name no predicate but p7 leave the predicates alone. -/
theorem Agent.pr_writeAll (x : Agent) {ws : List RegWrite} (hws : ∀ r i c, RegWrite.p r i c ∈ ws → r = 7) : (x.writeAll ws).pr = x.pr := by
  induction ws generalizing x with
  | nil => rfl
  | cons g ws ih =>
    have hg : (x.write g).pr = x.pr := by
      cases g with
      | v | u => rfl
      | p r i c => simp [Agent.write, hws r i c (by simp)]
    exact (ih (x.write g) fun r i c h => hws r i c (List.mem_cons_of_mem _ h)).trans hg

/-- A destination holds a value when every write of that value to it is found in its register. -/
theorem Agent.holds_of_has {x : Agent} {w lane : Nat} {o : Operand} {y : W64} (hlane : lane < 32)
    (h : ∀ g ∈ destWrites w lane y o, g.lasts → x.has g) : x.holds w lane o y := by
  cases o with
  | v r =>
    by_cases hw : w = 64
    · obtain ⟨hlo, hloE⟩ := h (.v lane r.toNat (y.setWidth 32)) (by simp [destWrites, vWrites, hw]) trivial
      obtain ⟨hhi, hhiE⟩ := h (.v lane (r.toNat + 1) ((y >>> 32).setWidth 32)) (by simp [destWrites, vWrites, hw]) trivial
      have hpair : (y >>> 32).setWidth 32 ++ y.setWidth 32 = y := by
        ext i hi
        simp only [BitVec.getElem_append, BitVec.getElem_setWidth, BitVec.getLsbD_ushiftRight]
        split
        · exact BitVec.getLsbD_eq_getElem hi
        · rw [Nat.add_sub_cancel' (by omega)]
          exact BitVec.getLsbD_eq_getElem hi
      simp [Agent.holds, hw, Agent.getPair, hlo, hhi, hpair, hloE, hhiE]
    · obtain ⟨hy, hE⟩ := h (.v lane r.toNat (y.setWidth 32)) (by simp [destWrites, vWrites, hw]) trivial
      simp [Agent.holds, hw, hy, hE]
  | u r => exact h _ (List.mem_singleton_self _) trivial
  | p r =>
    intro hr
    exact h _ (List.mem_singleton_self _) ⟨fun e => hr (BitVec.eq_of_toNat_eq e), hlane⟩
  | q | zero | imm => trivial

/-! ### The writes of a beat's results -/

theorem lt_of_mem_lanesIn {m : LaneMask} {l : Nat} (h : l ∈ lanesIn m) : l < 32 := by
  have h32 : ∀ k ∈ lanes32, k < 32 := by decide
  exact h32 l (List.mem_filter.mp h).1

theorem Beat.lt_of_mem_written {b : Beat} {l : Nat} (h : l ∈ b.written) : l < 32 := by
  unfold Beat.written at h
  split at h <;> exact lt_of_mem_lanesIn h

/-- The written lanes of a beat that writes an s or c register share their source lane. -/
theorem Beat.sourceOf_eq_of_single {b : Beat} (hs : b.single) {n : BitVec 6} (hd : b.f.d = .u n) {l k : Nat} (hl : l ∈ b.written)
    (hk : k ∈ b.written) : b.sourceOf l = b.sourceOf k := by
  cases hu : b.f.uni with
  | true => simp [Beat.sourceOf, hu]
  | false =>
    have hlen : (lanesIn b.perf).length ≤ 1 := by
      rcases hs with h | h | h
      · simp [hu] at h
      · exact absurd hd (h n)
      · exact h
    simp only [Beat.written, hu, Bool.false_eq_true, if_false] at hl hk
    rcases hm : lanesIn b.perf with _ | ⟨i, _ | _⟩ <;> simp_all

/-- Writes of two lanes' values to one operand agree, where a pair stands at an even register (R44) and the values are equal for one lane and for an
s or c register. -/
theorem destWrites_agree {w l k : Nat} {o : Operand} {y z : W64} {g h : RegWrite} (hpair : ∀ n, o = .v n → w = 64 → n.toNat % 2 = 0)
    (hu : ∀ n, o = .u n → y = z) (hlane : l = k → y = z) (hg : g ∈ destWrites w l y o) (hh : h ∈ destWrites w k z o)
    (hs : h.sameReg g = true) : h = g := by
  cases o with
  | v n =>
    have hn := n.isLt
    by_cases hw : w = 64
    · have hn1 : n.toNat + 1 < 128 := by have := hpair n rfl hw; omega
      simp only [destWrites, vWrites, hw, if_true, List.mem_cons, List.not_mem_nil, or_false] at hg hh
      rcases hg with rfl | rfl <;> rcases hh with rfl | rfl <;> simp only [RegWrite.sameReg, beq_iff_eq] at hs
      · obtain ⟨rfl, -⟩ := lane_key hn hn hs
        rw [hlane rfl]
      · exact absurd (lane_key hn1 hn hs).2 (by omega)
      · exact absurd (lane_key hn hn1 hs).2 (by omega)
      · obtain ⟨rfl, -⟩ := lane_key hn1 hn1 hs
        rw [hlane rfl]
    · simp only [destWrites, vWrites, hw, if_false, List.mem_singleton] at hg hh
      subst hg hh
      obtain ⟨rfl, -⟩ := lane_key hn hn (by simpa [RegWrite.sameReg] using hs)
      rw [hlane rfl]
  | u n =>
    simp only [destWrites, List.mem_singleton] at hg hh
    rw [hg, hh, hu n rfl]
  | p n =>
    simp only [destWrites, List.mem_singleton] at hg hh
    subst hg hh
    simp only [RegWrite.sameReg, beq_self_eq_true, Bool.true_and, beq_iff_eq] at hs
    subst hs
    rw [hlane rfl]
  | q | zero | imm => cases hg

/-- A lane's results are written to D and, where the form gives one, as a predicate to E. -/
theorem mem_resWrites {b : Beat} {l : Nat} {r : Res} {g : RegWrite} (hg : g ∈ resWrites b l r) :
    g ∈ destWrites (slotWidth b.row.d) l r.d b.f.d ∨ ∃ c n, r.e = some c ∧ b.f.e = .p n ∧ g = .p n.toNat l c := by
  rcases List.mem_append.mp hg with hd | he
  · left
    split at hd
    · cases hd
    · exact hd
  · right
    split at he
    · rename_i c n hc hn
      exact ⟨c, n, hc, hn, List.mem_singleton.mp he⟩
    · cases he

theorem RegWrite.sameReg_comm (g h : RegWrite) : g.sameReg h = h.sameReg g := by
  cases g <;> cases h <;> simp [RegWrite.sameReg, Bool.beq_comm]

/-- A value written to a predicate was written to a predicate operand. -/
theorem pred_of_mem_destWrites {w l : Nat} {y : W64} {o : Operand} {g : RegWrite} (hg : g ∈ destWrites w l y o) {r i : Nat} {c : Bool}
    (hs : (RegWrite.p r i c).sameReg g = true) : ∃ n, o = .p n := by
  cases o with
  | p n => exact ⟨n, rfl⟩
  | v n =>
    simp only [destWrites, vWrites] at hg
    split at hg
    · simp only [List.mem_cons, List.not_mem_nil, or_false] at hg
      rcases hg with rfl | rfl <;> cases hs
    · cases List.mem_singleton.mp hg
      cases hs
  | u n =>
    cases List.mem_singleton.mp hg
    cases hs
  | q | zero | imm => cases hg

/-- The writes of a beat's results, lane by lane (R42). -/
def Beat.writes (b : Beat) (op : Vals → Res) : List RegWrite :=
  b.written.flatMap fun l => resWrites b l (op (valsOf b 0 [] (b.sourceOf l)))

/-- The flags that the lanes of a beat raise (R109). -/
def Beat.flags (b : Beat) (op : Vals → Res) : FpFlags := b.lanes.foldl (fun m l => m ||| (op (valsOf b 0 [] l)).fl) 0

/-- What the results of a beat are spread to are its writes. -/
theorem spread_results (b : Beat) (op : Vals → Res) : spread b (b.lanes.map fun l => (l, op (valsOf b 0 [] l))) = b.writes op := by
  cases hu : b.f.uni <;> simp [spread, Beat.lanes, Beat.writes, Beat.written, Beat.sourceOf, hu, List.flatMap_map]

/-- The writes of a beat agree: v registers and predicates are written once in a lane, an s or c register from one source lane (R42, R44). -/
theorem Beat.writes_agree {b : Beat} {op : Vals → Res} (hs : b.single)
    (hpair : ∀ n, b.f.d = .v n → slotWidth b.row.d = 64 → n.toNat % 2 = 0) (hde : ∀ n, b.f.d = .p n → ∀ v, (op v).e = none) :
    RegWrite.Agree (b.writes op) := by
  intro g hg h hh hgh
  obtain ⟨l, hl, hg⟩ := List.mem_flatMap.mp hg
  obtain ⟨k, hk, hh⟩ := List.mem_flatMap.mp hh
  have noBoth : ∀ {i j : Nat} {c d : Bool} {q : Nat} {f : RegWrite}, f ∈ destWrites (slotWidth b.row.d) i (op (valsOf b 0 [] (b.sourceOf i))).d b.f.d →
      (op (valsOf b 0 [] (b.sourceOf j))).e = some d → (RegWrite.p q j c).sameReg f = true → False := fun hf he hsame => by
    obtain ⟨n, hn⟩ := pred_of_mem_destWrites hf hsame
    rw [hde n hn] at he
    cases he
  rcases mem_resWrites hg with hgd | ⟨c, n, hc, hn, rfl⟩ <;> rcases mem_resWrites hh with hhd | ⟨d, m, hd, hm, rfl⟩
  · refine destWrites_agree hpair (fun n hn => ?_) (fun e => by rw [e]) hgd hhd hgh
    rw [b.sourceOf_eq_of_single hs hn hl hk]
  · exact (noBoth hgd hd hgh).elim
  · exact (noBoth hhd hc (RegWrite.sameReg_comm _ _ ▸ hgh)).elim
  · obtain rfl : n = m := by simpa [hn] using hm
    obtain rfl : k = l := by simpa [RegWrite.sameReg] using hgh
    obtain rfl : c = d := Option.some.inj (hc.symm.trans hd)
    rfl

/-- A beat with a carry to p7 and no predicate D writes no predicate but p7. -/
theorem Beat.pred_of_mem_writes {b : Beat} {op : Vals → Res} (hd : ∀ n, b.f.d ≠ .p n) (he : b.f.e = .p 7) (r i : Nat) (c : Bool)
    (h : RegWrite.p r i c ∈ b.writes op) : r = 7 := by
  obtain ⟨l, -, h⟩ := List.mem_flatMap.mp h
  rcases mem_resWrites h with hdest | ⟨d, n, -, hn, heq⟩
  · obtain ⟨n, hn⟩ := pred_of_mem_destWrites hdest (RegWrite.sameReg_self _)
    exact absurd hn (hd n)
  · obtain rfl : (7 : BitVec 3) = n := by simpa [he] using hn
    cases heq
    rfl

/-! ### A due register-to-register form -/

theorem QUse.join_eq_none {x y : QUse} : x.join y = .none ↔ x = .none ∧ y = .none := by
  cases x <;> cases y <;> simp [QUse.join]

/-- A form without a queue use names no queue register as its destination (R13). -/
theorem d_ne_q_of_quseOf {r : Row} {f : Fields} (h : quseOf r f = .none) (n : BitVec 4) : f.d ≠ .q n := by
  simp only [quseOf, QUse.join_eq_none] at h
  obtain ⟨⟨⟨⟨hd, -⟩, -⟩, -⟩, -⟩ := h
  intro hq
  rw [hq] at hd
  unfold quse at hd
  split at hd <;> simp_all

/-- A performing beat without a queue use writes its lanes' results (R42, R109). -/
theorem laneBody_noQueue {s0 s : State} {long : Bool} {op : Vals → Res} {b : Beat} (hq : quseOf b.row b.f = .none) (hp : b.perf ≠ 0) :
    laneBody s0 long op b s =
      .done (s.modAgent b.a fun x => deliverWrites long (b.writes op) { x with fp := x.fp ||| b.flags op }) := by
  have hd := d_ne_q_of_quseOf hq
  have hfl : b.flags op = (b.lanes.map fun l => (l, op (valsOf b 0 [] l))).foldl (fun m e => m ||| e.2.fl) 0 := by
    rw [List.foldl_map]; rfl
  rw [← spread_results, hfl]
  simp only [laneBody, hp, if_false, withQueue, finishOrPark, hq, finishLanes]
  split
  · exact absurd ‹_› (hd _)
  · rfl

/-- A write gives equal register files from equal ones. -/
theorem Agent.write_regs {x y : Agent} (h : x.regs = y.regs) (g : RegWrite) : (x.write g).regs = (y.write g).regs := by
  simp only [Agent.regs, RegFile.mk.injEq] at h
  obtain ⟨hv, hu, hpr, hvE, huE, hprE, hfp⟩ := h
  cases g with
  | v | u => simp only [Agent.write, Agent.regs, hv, hu, hpr, hvE, huE, hprE, hfp]
  | p r i c =>
    by_cases hr : r = 7 <;> simp only [Agent.write, Agent.regs, hr, if_true, if_false, hv, hu, hpr, hvE, huE, hprE, hfp]

theorem Agent.writeAll_regs {x y : Agent} (h : x.regs = y.regs) (ws : List RegWrite) : (x.writeAll ws).regs = (y.writeAll ws).regs := by
  induction ws generalizing x y with
  | nil => exact h
  | cons g ws ih => exact ih (Agent.write_regs h g)

theorem Agent.advance_regs (x : Agent) (m : LaneMask) : (x.advance m).regs = x.regs :=
  foldl_keeps (fun y => y.regs = x.regs) (fun y i => y.modLane i fun l => { l with w := x.p + 1 }) (lanesIn m) (fun _ _ _ h => h) x rfl

theorem State.current_agent {s : State} {a : AgentId} {t : Team} {x : Agent} (h : s.current = some (a, t, x)) : s.agent a = some x := by
  simp only [State.current] at h
  repeat' split at h
  all_goals simp_all

theorem Due.f_eq {i : Instr} {f : Fields} {s : State} {b : Beat} (h : Due i f s b) : b.f = f := by
  obtain ⟨r, -, -, hb⟩ := h.now
  rw [hb]
  rfl

theorem Due.row_eq {i : Instr} {f : Fields} {s : State} {b : Beat} (h : Due i f s b) : rowFor i = some b.row := by
  obtain ⟨r, -, hr, hb⟩ := h.now
  rw [hr, hb]
  rfl

/-- The body of a due beat begins with the registers that its agent has. -/
theorem Due.begun_regsOf {i : Instr} {f : Fields} {s : State} {b : Beat} (h : Due i f s b) : (s.begun b).regsOf b.a = some b.x.regs := by
  obtain ⟨r, hc, -, -⟩ := h.now
  unfold State.begun State.waited
  rw [State.regsOf_modAgent _ _ _ (by intro y; exact Agent.advance_regs y b.act), State.regsOf_modAgent _ _ _ (by intro _; rfl), State.regsOf,
    State.current_agent hc]
  rfl

/-- A due beat of a register-to-register form without a queue use completes, and leaves its agent with the registers that it had, changed by the
flags and the writes of its lanes' results (R42, R54, R109). -/
theorem laneOp_due {i : Instr} {f : Fields} {s : State} {b : Beat} (op : Vals → Res) (h : Due i f s b) (hq : quseOf b.row f = .none)
    (hp : b.perf ≠ 0) : ∃ t y, laneOp i f false op s = .next t ∧ t.agent b.a = some y ∧
      y.regs = (Agent.writeAll { b.x with fp := b.x.fp ||| b.flags op } (b.writes op)).regs := by
  obtain ⟨x, hx, hxr⟩ := Option.map_eq_some_iff.mp h.begun_regsOf
  let u := (s.begun b).modAgent b.a fun x => deliverWrites false (b.writes op) { x with fp := x.fp ||| b.flags op }
  have hexec : laneOp i f false op s = .next ((s.waited b.a).conclude b (shapeOf i f).whole (.done u)) := by
    rw [laneOp, issueBeat_due h, laneBody_noQueue (h.f_eq ▸ hq) hp]
  have hu : u.agent b.a = some (Agent.writeAll { x with fp := x.fp ||| b.flags op } (b.writes op)) := by
    rw [State.agent_modAgent_same, hx]
    rfl
  have hregs : ((s.waited b.a).conclude b (shapeOf i f).whole (.done u)).regsOf b.a = u.regsOf b.a :=
    State.conclude_done_regs _ u h.clean b _ b.a
  rw [State.regsOf, State.regsOf, hu] at hregs
  obtain ⟨y, hy, hyr⟩ := Option.map_eq_some_iff.mp hregs
  refine ⟨_, y, hexec, hy, hyr.trans (Agent.writeAll_regs ?_ _)⟩
  simp only [Agent.regs, RegFile.mk.injEq] at hxr ⊢
  obtain ⟨hv, hu, hpr, hvE, huE, hprE, hfp⟩ := hxr
  exact ⟨hv, hu, hpr, hvE, huE, hprE, by rw [hfp]⟩

/-- Where the writes of a beat agree, its agent's destination holds the result. -/
theorem holds_of_writes {b : Beat} {op : Vals → Res} {x y : Agent} (hy : y.regs = (x.writeAll (b.writes op)).regs)
    (hag : RegWrite.Agree (b.writes op)) {l : Nat} (hl : l ∈ b.written) (hk : (op (valsOf b 0 [] (b.sourceOf l))).keep = false) :
    y.holds (slotWidth b.row.d) l b.f.d (op (valsOf b 0 [] (b.sourceOf l))).d := by
  refine Agent.holds_of_has (b.lt_of_mem_written hl) fun g hg hlast => (Agent.has_congr hy g).mpr (Agent.has_writeAll x hag ?_ hlast)
  exact List.mem_flatMap.mpr ⟨l, hl, List.mem_append_left _ (by rw [hk]; exact hg)⟩

/-- Where the writes of a beat agree, predicate E of its agent holds the predicate result (R103). -/
theorem getP_of_writes {b : Beat} {op : Vals → Res} {x y : Agent} (hy : y.regs = (x.writeAll (b.writes op)).regs)
    (hag : RegWrite.Agree (b.writes op)) {l : Nat} (hl : l ∈ b.written) {c : Bool} (hc : (op (valsOf b 0 [] (b.sourceOf l))).e = some c)
    {n : BitVec 3} (hn : b.f.e = .p n) (h7 : n ≠ 7) : y.getP n.toNat l = c ∧ y.emptyP n.toNat l = false := by
  refine (Agent.has_congr hy (.p n.toNat l c)).mpr (Agent.has_writeAll x hag ?_ ⟨fun e => h7 (BitVec.eq_of_toNat_eq e), b.lt_of_mem_written hl⟩)
  exact List.mem_flatMap.mpr ⟨l, hl, List.mem_append_right _ (by rw [hc, hn]; exact List.mem_singleton_self _)⟩

/-! ### What the decode checks say of a due form -/

/-- A form that passes the checks of R49 has acceptable fields and operands. -/
theorem ok_of_decodeFault {k : AgentKind} {budget : Nat} {i : Instr} {r : Row} {opc : Byte} {f : Fields} (hr : rowFor i = some r)
    (hf : formOf i = some (opc, f)) (h : decodeFault k budget i = none) : r.ok = true ∧ operandsOk k (noQueue i) r f = true := by
  simp only [decodeFault, hr, hf] at h
  repeat' split at h
  all_goals simp_all

/-- A form with a field value that its rules do not accept raises 0x01: step 2 of R49, and step 1 raises no other code. -/
theorem decodeFault_of_not_ok {k : AgentKind} {budget : Nat} {i : Instr} {r : Row} {opc : Byte} {f : Fields} (hr : rowFor i = some r)
    (hf : formOf i = some (opc, f)) (h : r.ok = false) : decodeFault k budget i = some 0x01 := by
  simp [decodeFault, hr, hf, h]

/-- A due form has acceptable fields, and a D operand of the kind that its field calls for. -/
theorem Due.dest_ok {i : Instr} {f : Fields} {s : State} {b : Beat} {opc : Byte} (h : Due i f s b) (hf : formOf i = some (opc, f)) :
    b.row.ok = true ∧ slotOk b.x.kind (noQueue i) b.row.d f.d = true := by
  obtain ⟨hok, hops⟩ := ok_of_decodeFault h.row_eq hf h.legal
  simp only [operandsOk, Bool.and_eq_true] at hops
  obtain ⟨⟨⟨⟨⟨⟨⟨⟨hd, -⟩, -⟩, -⟩, -⟩, -⟩, -⟩, -⟩, -⟩ := hops
  exact ⟨hok, hd⟩

/-! ### ADDX (R103) -/

/-- The results of ADDX in a lane. -/
def addxRes (ty : DType) (v : Vals) : Res := { d := (aluAddx ty v.a v.b v.pc).1, e := some (aluAddx ty v.a v.b v.pc).2, fl := 0 }

theorem exec_addx (f : Fields) (s : State) : exec (.addx f) s = laneOp (.addx f) f false (addxRes f.ty) s := rfl

/-- The sum with carry in of ADDX in numbers. -/
def addxSum (ty : DType) (v : Vals) : Nat :=
  v.a.toNat % 2 ^ tyWidth ty + v.b.toNat % 2 ^ tyWidth ty + (if v.pc = true then 1 else 0)

theorem addxRes_eq (ty : DType) (v : Vals) :
    addxRes ty v = { d := BitVec.ofNat 64 (addxSum ty v % 2 ^ tyWidth ty), e := some (decide (2 ^ tyWidth ty ≤ addxSum ty v)), fl := 0 } := by
  simp only [addxRes, aluAddx, addxSum, b2n, BitVec.toNat_setWidth]
  rfl

/-- A legal ADDX writes a value of its width to D, which is no predicate and, where a pair, stands at an even register (R44, R96). -/
theorem Due.addx_dest {f : Fields} {s : State} {b : Beat} (h : Due (.addx f) f s b) :
    slotWidth b.row.d = tyWidth f.ty ∧ (∀ n, f.d = .v n → tyWidth f.ty = 64 → n.toNat % 2 = 0) ∧ ∀ n, f.d ≠ .p n := by
  obtain ⟨hok, hd⟩ := h.dest_ok rfl
  have hrow := Option.some.inj h.row_eq
  rw [← hrow] at hok hd ⊢
  have hty : f.ty = .n32 ∨ f.ty = .n64 := by
    simp only [rowOf, intOk, nat2, Bool.and_eq_true] at hok
    obtain ⟨⟨⟨⟨-, hmem⟩, -⟩, -⟩, -⟩ := hok
    simpa using hmem
  refine ⟨?_, fun n hn hw => ?_, fun n hn => ?_⟩
  · rcases hty with hty | hty <;> rw [hty] <;> rfl
  · simp only [hn, dstV, hw, slotOk, regsFor, if_true, Bool.and_eq_true, decide_eq_true_eq] at hd
    exact hd.2
  · rw [hn] at hd
    cases hd

/-- Subtraction of words is the sum with the complement and a carry in. -/
theorem add_not_add_one {w : Nat} (x y : BitVec w) : (x.toNat + (~~~y).toNat + 1) % 2 ^ w = (x - y).toNat := by
  have hy := y.isLt
  rw [BitVec.toNat_sub, BitVec.toNat_not]
  congr 1
  omega

theorem ofInt_sub_toNat {w : Nat} (x y : BitVec w) : BitVec.ofInt w ((x.toNat : Int) - y.toNat) = x - y := by
  rw [Int.sub_eq_add_neg, BitVec.ofInt_add, BitVec.ofInt_neg, BitVec.ofInt_natCast, BitVec.ofInt_natCast]
  simp [BitVec.sub_eq_add_neg]

/-- Subtraction with borrow is ADDX with NOT b and a carry in of 1 (R103). -/
theorem aluAddx_not {ty : DType} (hty : ty = .n32 ∨ ty = .n64) (a b : W64) : (aluAddx ty a (~~~b) true).1 = aluSub ty false a b := by
  have hsigned : tySigned ty = false := by rcases hty with rfl | rfl <;> rfl
  have hw : tyWidth ty ≤ 64 := by rcases hty with rfl | rfl <;> decide
  calc (aluAddx ty a (~~~b) true).1
      = BitVec.ofNat 64 (((a.setWidth (tyWidth ty)).toNat + (~~~(b.setWidth (tyWidth ty))).toNat + 1) % 2 ^ tyWidth ty) := by
        rw [← BitVec.setWidth_not hw]; rfl
    _ = (a.setWidth (tyWidth ty) - b.setWidth (tyWidth ty)).setWidth 64 := by rw [add_not_add_one, BitVec.ofNat_toNat]
    _ = aluSub ty false a b := by
        simp only [aluSub, deliver, wrapTo, intVal, hsigned, Bool.false_eq_true, if_false, ofInt_sub_toNat]

/-- Settles O15: the writes of a due ADDX agree, so D holds the sum and E the carry. -/
theorem addxCarries : Obligations.AddxCarries := by
  refine ⟨fun f s b h hq hsingle hp => ?_, fun ty a b hty => aluAddx_not hty a b⟩
  obtain ⟨hwidth, hpair, hnp⟩ := h.addx_dest
  rw [← h.f_eq] at hpair hnp
  have hag : RegWrite.Agree (b.writes (addxRes f.ty)) :=
    Beat.writes_agree hsingle (fun n hn hw => hpair n hn (by rw [h.f_eq, ← hwidth]; exact hw)) fun n hn => absurd hn (hnp n)
  obtain ⟨t, y, hexec, hy, hregs⟩ := laneOp_due (addxRes f.ty) h hq hp
  refine ⟨t, y, (exec_addx f s).trans hexec, hy, fun l hl => ⟨?_, fun e he h7 => ?_, fun h7 r k => ?_⟩⟩
  · have hd := holds_of_writes hregs hag hl rfl
    rw [addxRes_eq, hwidth, h.f_eq] at hd
    exact hd
  · rw [← h.f_eq] at he
    obtain ⟨hget, hfull⟩ := getP_of_writes hregs hag hl (congrArg Res.e (addxRes_eq f.ty _)) he h7
    exact ⟨hget ▸ decide_eq_true_iff, hfull⟩
  · have hpr : y.pr = b.x.pr := (congrArg RegFile.pr hregs).trans (Agent.pr_writeAll _ (Beat.pred_of_mem_writes hnp (by rw [h.f_eq]; exact h7)))
    rw [Agent.getP, Agent.getP, hpr]

/-! ### SETP (R101) -/

/-- The result of SETP in a lane. -/
def setpRes (f : Fields) (v : Vals) : Res := resP (aluCompare f.fn f.ty v.a v.b) 0

theorem exec_setp (f : Fields) (s : State) : exec (.setp f) s = laneOp (.setp f) f false (setpRes f) s := rfl

@[simp] theorem bit_b2n (c : Bool) : bit (BitVec.ofNat 64 (b2n c)) 0 = c := by cases c <;> rfl

theorem fn_cases {fn : BitVec 4} (h : fn.toNat ≤ 9) :
    fn = 0 ∨ fn = 1 ∨ fn = 2 ∨ fn = 3 ∨ fn = 4 ∨ fn = 5 ∨ fn = 6 ∨ fn = 7 ∨ fn = 8 ∨ fn = 9 := by
  revert fn; decide

/-- The comparison that FN selects, over the width of TY (R101). -/
theorem aluCompare_iff {fn : BitVec 4} (h : fn.toNat ≤ 9) (ty : DType) (a b : W64) :
    let sx := fun x : W64 => (x.setWidth (tyWidth ty)).toInt
    let ux := fun x : W64 => (x.setWidth (tyWidth ty)).toNat
    aluCompare fn ty a b = true ↔
      (fn = 0 ∧ sx a = sx b) ∨ (fn = 1 ∧ sx a ≠ sx b) ∨ (fn = 2 ∧ sx a < sx b) ∨ (fn = 3 ∧ sx a ≤ sx b) ∨ (fn = 4 ∧ sx a > sx b) ∨
        (fn = 5 ∧ sx a ≥ sx b) ∨ (fn = 6 ∧ ux a < ux b) ∨ (fn = 7 ∧ ux a ≤ ux b) ∨ (fn = 8 ∧ ux a > ux b) ∨ (fn = 9 ∧ ux a ≥ ux b) := by
  intro sx ux
  rcases fn_cases h with rfl | rfl | rfl | rfl | rfl | rfl | rfl | rfl | rfl | rfl <;> simp [aluCompare, sx, ux]

theorem Due.setp_fn {f : Fields} {s : State} {b : Beat} (h : Due (.setp f) f s b) : f.fn.toNat ≤ 9 := by
  obtain ⟨hok, -⟩ := h.dest_ok rfl
  rw [← Option.some.inj h.row_eq] at hok
  simp only [rowOf, Bool.and_eq_true, decide_eq_true_eq] at hok
  obtain ⟨⟨⟨⟨hfn, -⟩, -⟩, -⟩, -⟩ := hok
  exact hfn

theorem Due.setp_dest {f : Fields} {s : State} {b : Beat} (h : Due (.setp f) f s b) : ∃ n, f.d = .p n := by
  obtain ⟨-, hd⟩ := h.dest_ok rfl
  rw [← Option.some.inj h.row_eq] at hd
  cases hf : f.d with
  | p n => exact ⟨n, rfl⟩
  | v | u | q | zero | imm =>
    rw [hf] at hd
    cases hd

/-- SETP with FN 10 to 15 is refused in step 2 of R49 (R101). -/
theorem decodeFault_setp (k : AgentKind) (budget : Nat) {f : Fields} (h : 10 ≤ f.fn.toNat) : decodeFault k budget (.setp f) = some 0x01 := by
  have hfn : ¬ f.fn.toNat ≤ 9 := by omega
  exact decodeFault_of_not_ok rfl rfl (by simp [rowOf, hfn])

/-- Settles O16: the writes of a due SETP agree, so D holds the comparison that FN selects. -/
theorem setpCompares : Obligations.SetpCompares := by
  refine ⟨fun f s b h hq hp => ?_, fun fn a b => ⟨rfl, rfl⟩, fun k budget f hfn => decodeFault_setp k budget hfn⟩
  obtain ⟨n, hn⟩ := h.setp_dest
  have hd := h.f_eq.symm ▸ hn
  have hag : RegWrite.Agree (b.writes (setpRes f)) :=
    Beat.writes_agree (Or.inr (Or.inl (by simp [hd]))) (by simp [hd]) fun _ _ _ => rfl
  obtain ⟨t, y, hexec, hy, hregs⟩ := laneOp_due (setpRes f) h hq hp
  refine ⟨t, y, (exec_setp f s).trans hexec, hy, fun l hl d hfd h7 => ?_⟩
  have hholds := holds_of_writes hregs hag hl rfl
  rw [h.f_eq, hfd] at hholds
  obtain ⟨hget, hfull⟩ := hholds h7
  refine ⟨hfull, ?_⟩
  rw [hget, setpRes, resP, bit_b2n]
  exact aluCompare_iff h.setp_fn f.ty _ _

end Sys2Proof.Machine
end

section
namespace Sys2Proof
open Machine

/-! ### The encoding -/

/-- The opcode of a form names that form (R47). -/
theorem formAt_of_formOf {i : Instr} {opc : BitVec 8} {f : Fields} (h : formOf i = some (opc, f)) : formAt opc f = some i := by
  cases i <;> cases h <;> rfl

/-- The form at an opcode has that opcode and those fields (R47). -/
theorem formOf_of_formAt {opc : BitVec 8} {f : Fields} {i : Instr} (h : formAt opc f = some i) : formOf i = some (opc, f) := by
  have hopc : opc = BitVec.ofNat 8 opc.toNat := by simp
  unfold formAt at h
  split at h <;> cases h
  all_goals
    rename_i heq
    rw [hopc, heq]
    rfl

/-- Whether an opcode is assigned does not depend on the fields (R48). -/
theorem formAt_isSome (opc : BitVec 8) (f g : Fields) : (formAt opc f).isSome = (formAt opc g).isSome := by
  unfold formAt
  split <;> rfl

/-- An assembled form parses to itself: no field of it is reserved. -/
theorem parse_assemble {i : Instr} {opc : BitVec 8} {f : Fields} (h : formOf i = some (opc, f)) : parse (assemble opc f) = .ok i := by
  have hat := formAt_of_formOf h
  have hsome : (formAt opc default).isSome = true := (formAt_isSome opc default f).trans (by rw [hat]; rfl)
  obtain ⟨j, hj⟩ := Option.isSome_iff_exists.mp hsome
  simp [parse, field_assemble_zero, field_assemble_opc, fieldsOf_assemble, hat, hj]

/-- Settles O5: an assembled form parses to itself, and a well-formed one is legal for some agent. -/
theorem encodeThenDecode : Obligations.EncodeThenDecode := by
  intro i hwf hform
  obtain ⟨⟨opc, f⟩, hf⟩ := Option.isSome_iff_exists.mp hform
  have hlegal : legalSomewhere i = true := by simpa [Instr.wellFormed, hf] using hwf
  exact ⟨assemble opc f, by simp [encode, hf], by simp [decode, parse_assemble hf, hlegal]⟩

/-! #### Words put together again -/

theorem operandCode_of_operandOf {c : Byte} {o : Operand} (h : operandOf c = some o) : operandCode o = c := by
  have hc := operandCode_of c
  rw [h] at hc
  simpa using hc

/-- Two fields side by side are one field. -/
theorem field_append_field (w : Code128) {hi lo m n : Nat} (h : hi = lo + n) : field w hi m ++ field w lo n = field w lo (m + n) := by
  refine BitVec.eq_of_getLsbD_eq fun i hi' => ?_
  simp only [field, BitVec.getLsbD_append, BitVec.getLsbD_extractLsb', h]
  split
  · next hin => simp [hin, Nat.lt_add_left m hin]
  · next hin =>
    have hsum : lo + n + (i - n) = lo + i := by omega
    have hlt : i - n < m := by omega
    simp [hsum, hlt, hi']

theorem bit1_getLsbD (w : Code128) (i : Nat) : bit1 (w.getLsbD i) = field w i 1 := by
  refine BitVec.eq_of_getLsbD_eq fun j hj => ?_
  have hj0 : j = 0 := by omega
  subst hj0
  rw [getLsbD_bit1]
  exact getLsbD_field w i

/-- A word is put together from its fields again: the places of R39 cover it. -/
theorem assemble_fields {w : Code128} {f : Fields} (h : fieldsOf w = some f) (hz : field w 60 4 = 0#4) : assemble (field w 0 8) f = w := by
  unfold fieldsOf at h
  split at h
  case h_2 => cases h
  case h_1 d a b c e g hd ha hb hc he hg =>
    cases h
    simp only [assemble, operandCode_of_operandOf hd, operandCode_of_operandOf ha, operandCode_of_operandOf hb, operandCode_of_operandOf hc,
      operandCode_of_operandOf he, operandCode_of_operandOf hg, tyCode_of, rmCode_of, bit1_getLsbD, ← hz]
    rw [field_append_field w (lo := 88) (n := 8) rfl, field_append_field w (lo := 80) (n := 8) rfl, field_append_field w (lo := 72) (n := 8) rfl, field_append_field w (lo := 64) (n := 8) rfl, field_append_field w (lo := 60) (n := 4) rfl, field_append_field w (lo := 58) (n := 2) rfl, field_append_field w (lo := 57) (n := 1) rfl, field_append_field w (lo := 54) (n := 3) rfl, field_append_field w (lo := 53) (n := 1) rfl, field_append_field w (lo := 52) (n := 1) rfl, field_append_field w (lo := 51) (n := 1) rfl, field_append_field w (lo := 48) (n := 3) rfl, field_append_field w (lo := 40) (n := 8) rfl, field_append_field w (lo := 32) (n := 8) rfl, field_append_field w (lo := 24) (n := 8) rfl, field_append_field w (lo := 16) (n := 8) rfl, field_append_field w (lo := 12) (n := 4) rfl, field_append_field w (lo := 8) (n := 4) rfl, field_append_field w (lo := 0) (n := 8) rfl]
    exact extract_whole w

/-- A word that parses has no reserved bit set and is the word of its opcode and fields. -/
theorem parse_ok {w : Code128} {i : Instr} (h : parse w = .ok i) :
    ∃ f, formAt (field w 0 8) f = some i ∧ fieldsOf w = some f ∧ field w 60 4 = 0#4 := by
  unfold parse at h
  split at h
  · cases h
  next hz =>
    split at h
    · cases h
    split at h
    · cases h
    next f hf =>
      split at h
      · cases h
      next j hj =>
        cases h
        exact ⟨f, hj, hf, not_not.mp hz⟩

theorem decode_ok {w : Code128} {i : Instr} (h : decode w = .ok i) : parse w = .ok i := by
  unfold decode at h
  split at h
  · cases h
  next j hj =>
    split at h
    · cases h; exact hj
    · cases h

/-- Settles O6: a word that parses is put together from its fields again. -/
theorem decodeThenEncode : Obligations.DecodeThenEncode := by
  intro w i h
  obtain ⟨f, hat, hf, hz⟩ := parse_ok (decode_ok h)
  simp [encode, formOf_of_formAt hat, assemble_fields hf hz]

/-! #### Words that do not parse -/

theorem decodeFor_of_error {k : AgentKind} {budget : Nat} {w : Code128} {r : Reject} (h : parse w = .error r) :
    decodeFor k budget w = .error 0x01 := by
  simp [decodeFor, h]

/-- An operand code that is reserved leaves a word without fields (R44). -/
theorem fieldsOf_eq_none {w : Code128} {lo : Nat} (hlo : lo ∈ [16, 24, 32, 40, 80, 88]) (h : operandOf (field w lo 8) = none) :
    fieldsOf w = none := by
  unfold fieldsOf
  split
  case h_2 => rfl
  case h_1 hd ha hb hc he hg =>
    simp only [List.mem_cons, List.not_mem_nil, or_false] at hlo
    rcases hlo with rfl | rfl | rfl | rfl | rfl | rfl <;> simp_all

/-- A word with a reserved bit set, a reserved opcode or a reserved operand code does not parse. -/
theorem parse_error {w : Code128} (h : field w 60 4 ≠ 0#4 ∨ (formAt (field w 0 8) default).isNone = true ∨
    ∃ lo, lo ∈ [16, 24, 32, 40, 80, 88] ∧ operandOf (field w lo 8) = none) : ∃ r, parse w = .error r := by
  cases hp : parse w with
  | error r => exact ⟨r, rfl⟩
  | ok i =>
    obtain ⟨f, hat, hf, hz⟩ := parse_ok hp
    obtain hbits | hopc | ⟨lo, hlo, hcode⟩ := h
    · exact absurd hz hbits
    · have hsome := formAt_isSome (field w 0 8) default f
      rw [hat, Option.isNone_iff_eq_none.mp hopc] at hsome
      cases hsome
    · rw [fieldsOf_eq_none hlo hcode] at hf
      cases hf

/-- A form whose mark the agent does not have fails the first check of R49 (R47). -/
theorem decodeFault_of_mark {k : AgentKind} {budget : Nat} {i : Instr} {r : Row} (hr : rowFor i = some r) (hm : markOk k r.mark = false) :
    decodeFault k budget i = some 0x01 := by
  unfold decodeFault
  rw [hr]
  split
  · next hrow _ => cases hrow; simp [hm]
  · rfl

/-- Settles O7: such a word does not parse, and such a form fails the check of its mark. -/
theorem reservedEncodingsFault : Obligations.ReservedEncodingsFault := by
  refine ⟨fun k budget w h => ?_, fun k budget i r hr h => decodeFault_of_mark hr ?_⟩
  · obtain ⟨e, he⟩ := parse_error h
    exact decodeFor_of_error he
  · obtain ⟨hm, hk⟩ | ⟨hm, hk⟩ | ⟨hm, hk⟩ := h <;> simp [hm, hk, markOk]

end Sys2Proof
end

section
namespace Sys2Proof.Machine

/-! ### Reset, a step, a fetch -/

/-- Settles O1: every register of the reset state is a literal. -/
theorem resetValues : Obligations.ResetValues := by
  refine ⟨rfl, fun p => ?_, fun _ _ => rfl, rfl, rfl, rfl, rfl, rfl, rfl, rfl⟩
  have hp : State.reset.partition p = Part.reset := rfl
  rw [hp]
  decide

set_option maxRecDepth 100000 in
/-- Settles O2, by decoding each of the seven words. -/
theorem workedWordsDecode : Obligations.WorkedWordsDecode := by
  unfold Obligations.WorkedWordsDecode
  decide

/-- Settles O9: the memory of the reset state is empty. -/
theorem resetHasInvariant : Obligations.ResetHasInvariant := reset_memory_wf

/-- A group that Goose has not struck does not stop at its next boundary (R75). -/
theorem State.struck_eq_false {s : State} {a : AgentId} (h : ∀ x, s.agent a = some x → x.isGroup = true → x.goosed = false) : s.struck a = false := by
  unfold State.struck
  split
  · next x ht hx =>
    cases hg : x.isGroup with
    | false => simp
    | true => simp [h x hx hg]
  · rfl

/-- Nothing keeps an agent's turn from its stand: it does not stay, Goose has not struck it, and its rail or core lets it issue (R72, R75, R208). -/
structure State.LetsRun (s : State) (a : AgentId) (t : Team) (x : Agent) (cl : Nat) : Prop where
  team : s.team a.team = some t
  agent : s.agent a = some x
  cluster : t.cluster = some cl
  stays : x.stays t a.who = false
  enters : s.enters a cl x = true
  lets : s.lets a cl x = true
  goosed : x.isGroup = true → x.goosed = false

theorem State.LetsRun.struck {s : State} {a : AgentId} {t : Team} {x : Agent} {cl : Nat} (h : s.LetsRun a t x cl) : s.struck a = false :=
  State.struck_eq_false fun y hy => by rw [h.agent] at hy; cases hy; exact h.goosed

theorem State.LetsRun.prepare_arrive {s : State} {a : AgentId} {t : Team} {x : Agent} {cl : Nat} (h : s.LetsRun a t x cl) {g : Bool}
    (hi : x.issue = .arrive g) : s.prepare a = (s.arrive a t x g).orStruck a := by
  simp [State.prepare, h.team, h.agent, h.cluster, h.stays, h.struck, h.enters, h.lets, hi]

theorem State.LetsRun.prepare_beats {s : State} {a : AgentId} {t : Team} {x : Agent} {cl : Nat} (h : s.LetsRun a t x cl) {i : Instr}
    (hi : x.issue = .beats) (hd : decodeFor x.kind x.budget x.arr.word = .ok i) : s.prepare a = .go i { s with cur := some a } := by
  simp [State.prepare, h.team, h.agent, h.cluster, h.stays, h.struck, h.enters, h.lets, hi, hd]

/-- A word that decodes has an assigned opcode (R48). -/
theorem opcodeReserved_of_decodeFor {k : AgentKind} {budget : Nat} {w : Code128} {i : Instr} (h : decodeFor k budget w = .ok i) :
    opcodeReserved w = false := by
  cases hp : parse w with
  | error r => rw [decodeFor_of_error hp] at h; cases h
  | ok j =>
    obtain ⟨f, hat, -, -⟩ := parse_ok hp
    rw [opcodeReserved, ← Option.not_isSome, formAt_isSome _ default f, hat]
    rfl

/-- The state in which an arrival has been fetched and decoded: the agent stands at the beats with A(P) fixed (R61). -/
def State.arrived (s s1 : State) (a : AgentId) (x : Agent) (g : Bool) (w : Code128) : State :=
  { s1.setAgent a ((x.passGate g w s1.beatSeq).atBeats x.arrivals w s.beatSeq) with cur := some a }

theorem State.arrive_of_decodes {s s1 : State} {a : AgentId} {t : Team} {x : Agent} {g : Bool} {w : Code128} {i : Instr}
    (hf : s.fetch t (t.cluster.getD 0) x.p.toNat = .word w s1) (hw : x.wraps g w = false) (hd : decodeFor x.kind x.budget w = .ok i) :
    s.arrive a t x g = .go i (s.arrived s1 a x g w) := by
  simp only [State.arrive, hf, hw, opcodeReserved_of_decodeFor hd, Bool.false_eq_true, if_false, hd]
  rfl

@[simp] theorem Agent.passGate_goosed (x : Agent) (g : Bool) (w : Code128) (n : Nat) : (x.passGate g w n).goosed = x.goosed := by
  unfold Agent.passGate
  split <;> rfl

@[simp] theorem Agent.passGate_isGroup (x : Agent) (g : Bool) (w : Code128) (n : Nat) : (x.passGate g w n).isGroup = x.isGroup := by
  unfold Agent.passGate
  split <;> rfl

/-- An agent that has been set is the one that it was set to. -/
theorem State.agent_setAgent_eq {s : State} {a : AgentId} {x y : Agent} (h : (s.setAgent a x).agent a = some y) : y = x := by
  rw [State.setAgent, State.agent_modAgent_same] at h
  obtain ⟨_, -, rfl⟩ := Option.map_eq_some_iff.mp h
  rfl

theorem State.arrived_struck {s s1 : State} {a : AgentId} {x : Agent} {g : Bool} {w : Code128} (hg : x.isGroup = true → x.goosed = false) :
    (s.arrived s1 a x g w).struck a = false := by
  refine State.struck_eq_false fun y hy hgroup => ?_
  obtain rfl := State.agent_setAgent_eq (s := s1) hy
  exact (Agent.passGate_goosed ..).trans (hg ((Agent.passGate_isGroup x g w s1.beatSeq).symm.trans hgroup))

/-- Settles O3: the next turn of the agenda is taken, and what lets an agent run brings its turn to its instruction. -/
theorem stepRunsDecoded : Obligations.StepRunsDecoded := by
  refine ⟨?_, ?_, ?_, ?_⟩
  · intro s s1 a ts t x g cl w i hag ht hx hcl hstay s0 hen hlet hgoose hissue hf hw hd
    have hlets : s0.LetsRun a t x cl := ⟨ht, hx, hcl, hstay, hen, hlet, hgoose⟩
    have harr : s0.arrive a t x g = .go i (s0.arrived s1 a x g w) := State.arrive_of_decodes (by rw [hcl]; exact hf) hw hd
    have hprep : s0.prepare a = .go i (s0.arrived s1 a x g w) := by
      simp [hlets.prepare_arrive hissue, harr, Prepared.orStruck, State.arrived_struck hgoose]
    simp only [step, hag, perform, runAgent, s0, hprep]
    rfl
  · intro s a ts t x cl i hag ht hx hcl hstay s0 hen hlet hgoose hissue hd
    have hlets : s0.LetsRun a t x cl := ⟨ht, hx, hcl, hstay, hen, hlet, hgoose⟩
    simp only [step, hag, perform, runAgent, s0, hlets.prepare_beats hissue hd]
  · intro s ts i hag hform
    simp only [step, hag, perform, hform]
  · intro s ts a n hag
    simp only [step, hag, perform, State.turn]

/-! ### A fetch (R50 to R52) -/

/-- The TLBs are all that a walk changes (R295). -/
theorem State.cacheWalk_eq (s : State) (unit part asid va : Nat) : ∃ l, s.cacheWalk unit part asid va = { s with tlb := l } := by
  have hin : ∀ (u : State) (unit level : Nat) (e : W64), (∃ l, u = { s with tlb := l }) →
      ∃ l, u.cacheIn unit part asid level va e = { s with tlb := l } := by
    rintro _ unit level e ⟨l, rfl⟩
    unfold State.cacheIn
    split
    · exact ⟨l, rfl⟩
    · exact ⟨_, rfl⟩
  have hboth : ∀ (u : State) (level : Nat) (e : W64), (∃ l, u = { s with tlb := l }) →
      ∃ l, u.cacheEntry unit part asid level va e = { s with tlb := l } := fun u level e h => hin _ _ level e (hin _ _ level e h)
  unfold State.cacheWalk
  split
  · exact ⟨s.tlb, rfl⟩
  · simp only
    split
    · exact hboth _ _ _ (hboth _ _ _ ⟨s.tlb, rfl⟩)
    · exact hboth _ _ _ (hboth _ _ _ (hboth _ _ _ ⟨s.tlb, rfl⟩))

/-- A place behind a leaf lies in its line where its address does: pages and regions are whole lines (R131, R136). -/
theorem leafPlace_loc_mod (s : State) (part : Nat) (e : W64) (big : Bool) (va : Nat) : (s.leafPlace part e big va).loc % 128 = va % 128 := by
  have hoff : (if big then va % 2 ^ 28 else va % 65536) % 128 = va % 128 := by cases big <;> simp
  have hleaf : leafLoc e big va % 128 = va % 128 := by
    unfold leafLoc
    simp only [locOf]
    generalize (if big then va % 2 ^ 28 else va % 65536) = off at hoff ⊢
    split
    · omega
    · split <;> omega
  have hpeer : (s.leafPlace part e big va).loc = (s.onPeer part (placeOfLeaf e big va)).loc := rfl
  rw [hpeer, State.onPeer]
  split
  · simp only [placeOfLeaf]
    omega
  · exact hleaf

/-- Sixteen bytes of a line that is read whole are those behind their address. -/
theorem State.read_in_line (s : State) {loc va : Nat} (hloc : loc % 128 = va % 128) (hva : va % 16 = 0) :
    ((s.read (loc / 128 * 128) 128).drop (va % 128)).take 16 = s.read loc 16 := by
  unfold State.read
  rw [Tbl.getMany_drop _ _ _ _ _ (by omega), Tbl.getMany_take _ _ _ _ _ (by omega)]
  congr 1
  omega

/-- A line that is no copy of its cluster is filled with the bytes of memory (R51). -/
theorem State.fetchLine_of_miss (s : State) {cl part asid vline : Nat} (p : Place) (h : (s.icache.find? fun c => c.isLine cl part asid vline) = none) :
    (s.fetchLine cl part asid vline p).1 = s.read (p.loc / 128 * 128) 128 := by
  simp only [State.fetchLine, h]
  split
  · exact State.read_congr (((s.recall_same _ _).trans (State.touchLine_same _ _ _)).1) _ _
  · rfl

theorem State.fetchLine_of_hit (s : State) {cl part asid vline : Nat} (p : Place) {c : ILine}
    (h : (s.icache.find? fun c => c.isLine cl part asid vline) = some c) : (s.fetchLine cl part asid vline p).1 = c.data := by
  simp only [State.fetchLine, h]

/-- The address of index p of a team's code (R50). -/
def State.codeVa (s : State) (t : Team) (p : Nat) : Nat := ((s.codeOf t).2.toNat + 16 * p) % 2 ^ 52

/-- A fetch through a leaf: a page that is not executable or reached, a line with an error that no copy stands for, or the word of the line. -/
theorem State.fetch_of_leaf {s : State} {t : Team} {cl p va : Nat} {pte : W64} {big : Bool} {q : Place} (hva : s.codeVa t p = va)
    (hq : s.leafPlace t.part pte big va = q) (hp : p < (s.codeOf t).1) (hw : s.walk cl t.part t.asid va = .leaf pte big) :
    ∃ u : State, u.mem = s.mem ∧ u.icache = s.icache ∧ s.fetch t cl p =
      if !bit pte 2 || !s.reaches t.part q then .stop 0x08 (BitVec.ofNat 64 va)
      else if !s.flaws.isEmpty && s.flaws.contains (q.loc / 128) && !(s.icache.any fun c => c.isLine cl t.part t.asid (va / 128)) then
        .stop 0x18 (BitVec.ofNat 64 va)
      else .word (wordOfBytes (((u.fetchLine cl t.part t.asid (va / 128) q).1.drop (va % 128)).take 16))
        (u.fetchLine cl t.part t.asid (va / 128) q).2 := by
  obtain ⟨l, hl⟩ := s.cacheWalk_eq cl t.part t.asid va
  refine ⟨{ s with tlb := l }, rfl, rfl, ?_⟩
  subst hva hq
  rw [← hl]
  unfold State.codeVa at hw ⊢
  simp only [State.fetch, ge_iff_le, Nat.not_le.mpr hp, if_false, hw]

/-- Settles O4, by the cases of the walk. -/
theorem fetchReadsCode : Obligations.FetchReadsCode := by
  intro s t cl p va copy
  refine ⟨fun pte big hp hal hwalk => ?_, fun hp => ?_, fun code hp hwalk => ?_, fun hp hwalk => ?_⟩
  · intro q
    have hva : va % 16 = 0 := by
      simp only [va]
      omega
    obtain ⟨u, hmem, hic, hf⟩ := State.fetch_of_leaf (va := va) (q := q) rfl rfl hp hwalk
    have hmiss : copy = none → (s.icache.any fun c => c.isLine cl t.part t.asid (va / 128)) = false := fun hc =>
      List.any_eq_false.mpr (List.find?_eq_none.mp hc)
    refine ⟨fun hx hr hc hfl => ?_, fun hx hr c hc => ?_, fun hx hr hc hfl => ?_, fun hx => ?_⟩
    · have hnf : s.flaws.contains (q.loc / 128) = false := by simpa using hfl
      have hline := u.fetchLine_of_miss q (by rw [hic]; exact hc)
      have hword := u.read_in_line (leafPlace_loc_mod s t.part pte big va) hva
      rw [hf, if_neg (by simpa [hx] using hr), if_neg (by rw [hnf]; simp)]
      exact ⟨_, congrArg (fun bs => Fetched.word (wordOfBytes bs) _) ((congrArg (fun d => (d.drop (va % 128)).take 16) hline).trans (hword.trans (State.read_congr hmem _ _)))⟩
    · have hfind : (s.icache.find? fun c => c.isLine cl t.part t.asid (va / 128)) = some c := hc
      have hhit : (s.icache.any fun c => c.isLine cl t.part t.asid (va / 128)) = true := by
        rw [← List.isSome_find?, hfind]
        rfl
      rw [hf, if_neg (by simpa [hx] using hr), if_neg (by rw [hhit]; simp)]
      exact ⟨_, congrArg (fun d => Fetched.word (wordOfBytes ((d.drop (va % 128)).take 16)) _) (u.fetchLine_of_hit q (by rw [hic]; exact hc))⟩
    · have hflaw : s.flaws.contains (q.loc / 128) = true := by simpa using hfl
      have hne : s.flaws.isEmpty = false := by
        cases hs : s.flaws with
        | nil => simp [hs] at hfl
        | cons _ _ => rfl
      rw [hf, if_neg (by simpa [hx] using hr), if_pos (by rw [hne, hflaw, hmiss hc]; rfl)]
      exact ⟨_, rfl⟩
    · rw [hf, if_pos (by simp [hx])]
      exact ⟨_, rfl⟩
  · exact ⟨0, by simp [State.fetch, hp]⟩
  · exact ⟨_, by simp only [State.fetch, ge_iff_le, Nat.not_le.mpr hp, if_false, va] at hwalk ⊢; rw [hwalk]⟩
  · exact ⟨_, by simp only [State.fetch, ge_iff_le, Nat.not_le.mpr hp, if_false, va] at hwalk ⊢; rw [hwalk]⟩

end Sys2Proof.Machine
end

section
/-! Faults: what the shared operations of a fault leave of the teams, and that an agent that takes a fault stands stopped with its code (R285 to R291). -/

namespace Sys2Proof.Machine

/-! ### Operations that leave every team alone -/

@[simp] theorem State.writeAt_teams_eq (s : State) (p : Place) (bs : List Byte) (cl : Option Nat) : (s.writeAt p bs cl).1.teams = s.teams :=
  (s.writeAt_teams p bs cl).1

@[simp] theorem State.modDebug_teams (s : State) (part i : Nat) (f : Debug → Debug) : (s.modDebug part i f).teams = s.teams := rfl

@[simp] theorem State.sinkPut_teams (s : State) (part asid i : Nat) (r : Nguxis) : (s.sinkPut part asid i r).teams = s.teams := by
  unfold State.sinkPut
  dsimp only
  split
  · split <;> simp
  · rfl

@[simp] theorem State.sink_teams (s : State) (part asid i : Nat) (r : Nguxis) : (s.sink part asid i r).teams = s.teams := by
  unfold State.sink
  dsimp only
  repeat' split
  all_goals simp

@[simp] theorem State.adaptPeriod_teams (s : State) (part asid i : Nat) : (s.adaptPeriod part asid i).teams = s.teams := by
  unfold State.adaptPeriod
  dsimp only
  repeat' split
  all_goals simp

@[simp] theorem State.trace_teams (s : State) (part asid : Nat) (r : Nguxis) : (s.trace part asid r).teams = s.teams := by
  unfold State.trace
  repeat' split
  all_goals simp

theorem State.deviceWrite_teams {s u : State} {unit part asid va : Nat} {bs : List Byte} (h : s.deviceWrite unit part asid va bs = some u) :
    u.teams = s.teams := by
  unfold State.deviceWrite at h
  dsimp only at h
  split at h
  · split at h
    · rw [← Option.some.inj h, State.writeAt_teams_eq]
    · cases h
  · cases h

theorem State.insertMon_teams {s u : State} {m : Mon} (h : s.insertMon m = some u) : u.teams = s.teams := by
  unfold State.insertMon at h
  split at h
  · extract_lets s1 at h
    rw [← Option.some.inj h]
    refine foldl_keeps (fun t : State => t.teams = s.teams) _ _ (fun t e _ ht => ?_) _ rfl
    split
    · split
      · exact (State.poke_teams ..).trans ht
      · exact ht
    · exact ht
  · split at h
    · rw [← Option.some.inj h]
    · extract_lets b used l at h
      split at h
      · cases h
      · split at h
        · cases h
        · next i _ =>
          extract_lets m1 s1 r s2 at h
          have hu : u.teams = s2.teams := by rw [← Option.some.inj h]
          exact (hu.trans (State.setLine_teams ..)).trans (State.poke_teams ..)

@[simp] theorem State.writeRecord_teams (s : State) (die part asid slot who : Nat) (rec : List Byte) :
    (s.writeRecord die part asid slot who rec).1.teams = s.teams := by
  unfold State.writeRecord
  repeat' split
  · rfl
  · next h => exact State.deviceWrite_teams h
  · rfl

@[simp] theorem State.openDisp_teams (s : State) (die part asid slot who : Nat) (rec : List Byte) :
    (s.openDisp die part asid slot who rec).1.teams = s.teams := by
  unfold State.openDisp
  dsimp only
  split
  · rfl
  · split
    · next h _ =>
      have hw := (State.deviceWrite_teams h).trans (s.writeRecord_teams die part asid slot who rec)
      split
      · split
        · next hm => exact (State.insertMon_teams hm).trans hw
        · exact hw
      · exact hw
    · simp

/-! ### The end of a context -/

/-- Reading a table all of whose values have changed. -/
theorem Tbl.find?_map {α β : Type} (m : Tbl α) (f : Nat → α → β) (k : Nat) :
    Tbl.find? (m.map fun e => (e.1, f e.1 e.2)) k = (Tbl.find? m k).map (f k) := by
  induction m with
  | nil => rfl
  | cons e rest ih =>
    obtain ⟨j, v⟩ := e
    by_cases h : j = k
    · subst h; simp [Tbl.find?]
    · simp only [List.map_cons, Tbl.find?, h, if_false]
      exact ih

/-- A team after a DMC event: the threads of a privileged one that are parked in HALT go on (R305). -/
def Team.unhalted (t : Team) : Team := if t.priv then { t with agents := t.agents.map fun g => (g.1, g.2.unhalt) } else t

theorem State.team_dmcEvent (s : State) (n : Nat) : s.dmcEvent.team n = (s.team n).map Team.unhalted :=
  Tbl.find?_map s.teams (fun _ t => t.unhalted) n

/-- A record that enters the fault queue changes the teams at most by the DMC event that it is (R294, R305). -/
theorem State.team_fqSend (s : State) (part : Nat) (h : HeldRecord) (n : Nat) :
    (s.fqSend part h).team n = s.team n ∨ (s.fqSend part h).team n = (s.team n).map Team.unhalted := by
  unfold State.fqSend
  extract_lets p
  split
  · exact .inl rfl
  · split
    · right
      unfold State.fqWrite
      extract_lets s1 s2 s3
      have hs1 : s1.teams = s.teams := State.writeAt_teams_eq ..
      have hs3 : s3.teams = s2.teams := by
        simp only [s3]
        split <;> rfl
      rw [State.team_dmcEvent]
      exact congrArg (fun m => (Tbl.find? m n).map Team.unhalted) (hs3.trans hs1)
    · exact .inl rfl

theorem State.endLog_team (s : State) (c : Ctx) (ctl : W64) (team : Nat) (t : Team) (n : Nat) :
    ∃ f : Team → Bool, (s.endLog c ctl team t).team n = (s.team n).map fun u => { u with logEnd := f u } := by
  unfold State.endLog
  split
  · exact ⟨Team.logEnd, by simp⟩
  · extract_lets size k r s1
    have hs1 : s1.teams = s.teams := by
      simp only [s1]
      cases hw : s.deviceWrite (t.cluster.getD 0) t.part t.asid (logVa c t + 32 * (k % size)) (r.encode s.dtime) with
      | none => rfl
      | some u => exact State.deviceWrite_teams hw
    rw [State.team_modTeam, State.team, State.team, hs1]
    split
    · exact ⟨fun _ => true, rfl⟩
    · exact ⟨Team.logEnd, by simp⟩

/-- The end of a context's session changes of a team at most that its replay log has ended (R336). -/
theorem State.team_endSession (s : State) (part asid n : Nat) :
    ∃ f : Team → Bool, (s.endSession part asid).team n = (s.team n).map fun u => { u with logEnd := f u } := by
  have hsame : ∃ f : Team → Bool, s.team n = (s.team n).map fun u => { u with logEnd := f u } := ⟨Team.logEnd, by simp⟩
  unfold State.endSession
  split
  · exact hsame
  · split
    · extract_lets lostNow s1 s2 s3 ctl
      have hs3 : s3.teams = s.teams := by simp [s3, s2, s1]
      refine foldl_keeps (fun u : State => ∃ f : Team → Bool, u.team n = (s.team n).map fun u => { u with logEnd := f u }) _ _
        (fun u e _ hu => ?_) s3 ?_
      · split
        · obtain ⟨f, hf⟩ := hu
          obtain ⟨g, hg⟩ := u.endLog_team ‹Ctx› ctl e.1 e.2 n
          exact ⟨fun t => g { t with logEnd := f t }, by rw [hg, hf, Option.map_map]; rfl⟩
        · exact hu
      · rw [State.team, hs3]
        exact hsame
    · exact hsame

/-- A team when some contexts are dropped: one of theirs that has not ended is stopped (R291). -/
theorem State.team_dropContexts (s : State) (mine : Nat → Nat → Bool) (n : Nat) :
    (s.dropContexts mine).team n = (s.team n).map fun t => if mine t.part t.asid && !t.isEnded then t.stopped else t := by
  unfold State.dropContexts
  extract_lets out s1 dead s2
  have hs1 : s1.teams = s.teams := by
    refine foldl_keeps (fun u : State => u.teams = s.teams) _ _ (fun u e _ h => ?_) s rfl
    rw [State.clear_teams, State.clear_teams, h]
  have hmap : (fun e : Nat × Team => if out e.2 = true then (e.1, e.2.stopped) else e) = fun e => (e.1, if out e.2 = true then e.2.stopped else e.2) := by
    funext e
    split <;> rfl
  rw [State.team, (State.dropMons_teams s2 _).1]
  simp only [s2, hs1, hmap]
  exact Tbl.find?_map s.teams (fun _ t => if out t = true then t.stopped else t) n

/-- A team after the end of a context, but for the DMC event that the record of the end may be. -/
theorem State.team_endContext (s : State) (part asid : Nat) (rec : List Byte) (n : Nat) :
    ∃ (f : Team → Bool) (g : Team → Team), (g = id ∨ g = Team.unhalted) ∧ (s.endContext part asid rec).team n = (s.team n).map fun t =>
      g (if t.inCtx part asid then { t with logEnd := f t }.stopped else { t with logEnd := f t }) := by
  obtain ⟨f, hf⟩ := s.team_endSession part asid n
  unfold State.endContext
  extract_lets s1
  have hs1 : s1.team n = (s.team n).map fun t => if t.inCtx part asid then { t with logEnd := f t }.stopped else { t with logEnd := f t } := by
    rw [State.team_dropContexts, hf, Option.map_map]
    rfl
  split
  · obtain h | h := State.team_fqSend (s1.modPart part fun p =>
      { p with queues := p.queues.map fun e => if bits e.2.ctl 15 0 = asid then (e.1, e.2.halted) else e,
               replays := p.replays.filter fun r => r.asid != asid,
               heldRecords := p.heldRecords.filter fun h => match h.replay with | some r => r.asid != asid | none => true }) part
      { bytes := rec, replay := none } n
    · exact ⟨f, id, .inl rfl, h.trans hs1⟩
    · refine ⟨f, Team.unhalted, .inr rfl, h.trans ((congrArg (Option.map Team.unhalted) hs1).trans ?_)⟩
      rw [Option.map_map]
      rfl
  · exact ⟨f, id, .inl rfl, hs1⟩

/-! ### Taking a fault -/

/-- Whatever record an agent has, it is this one. -/
structure State.HasOnly (s : State) (a : AgentId) (x : Agent) : Prop where
  eq_of_agent : ∀ y, s.agent a = some y → y = x

theorem State.HasOnly.of_teams {s t : State} {a : AgentId} {x : Agent} (h : s.HasOnly a x) (ht : t.teams = s.teams) : t.HasOnly a x :=
  ⟨fun y hy => h.eq_of_agent y (by rw [← State.agent_congr ht]; exact hy)⟩

theorem State.hasOnly_setAgent (s : State) (a : AgentId) (x : Agent) : (s.setAgent a x).HasOnly a x := ⟨fun _ => State.agent_setAgent_eq⟩

theorem State.HasOnly.modTeam {s : State} {a : AgentId} {x : Agent} (h : s.HasOnly a x) (n : Nat) {f : Team → Team}
    (hf : ∀ t, (f t).agents = t.agents) : (s.modTeam n f).HasOnly a x :=
  ⟨fun y hy => h.eq_of_agent y (by rw [← State.agent_modTeam_keep s n f hf]; exact hy)⟩

/-- An agent that is not parked in HALT is as before where its team has been told of a DMC event (R305). -/
theorem find?_unhalted {t : Team} {who : Nat} {x y : Agent} (hx : ∀ z, Tbl.find? t.agents who = some z → z = x) (hu : x.unhalt = x)
    (hy : Tbl.find? t.unhalted.agents who = some y) : y = x := by
  unfold Team.unhalted at hy
  split at hy
  · rw [Tbl.find?_map t.agents (fun _ g => g.unhalt)] at hy
    obtain ⟨z, hz, rfl⟩ := Option.map_eq_some_iff.mp hy
    rw [hx z hz, hu]
  · exact hx y hy

theorem State.HasOnly.fqSend {s : State} {a : AgentId} {x : Agent} (h : s.HasOnly a x) (hu : x.unhalt = x) (part : Nat) (r : HeldRecord) :
    (s.fqSend part r).HasOnly a x := by
  refine ⟨fun y hy => ?_⟩
  rw [State.agent] at hy
  obtain ht | ht := s.team_fqSend part r a.team
  · rw [ht] at hy
    exact h.eq_of_agent y hy
  · rw [ht] at hy
    cases hteam : s.team a.team with
    | none => simp [hteam] at hy
    | some t =>
      rw [hteam] at hy
      exact find?_unhalted (fun z hz => h.eq_of_agent z (by rw [State.agent, hteam]; exact hz)) hu hy

/-- The end of a context leaves an agent as it is or takes it away. -/
theorem State.HasOnly.endContext {s : State} {a : AgentId} {x : Agent} (h : s.HasOnly a x) (hu : x.unhalt = x) (part asid : Nat)
    (rec : List Byte) : (s.endContext part asid rec).HasOnly a x := by
  refine ⟨fun y hy => ?_⟩
  obtain ⟨f, g, hg, ht⟩ := s.team_endContext part asid rec a.team
  rw [State.agent, ht] at hy
  cases hteam : s.team a.team with
  | none => simp [hteam] at hy
  | some t =>
    have hx : ∀ z, Tbl.find? t.agents a.who = some z → z = x := fun z hz =>
      h.eq_of_agent z (by rw [State.agent, hteam]; exact hz)
    simp only [hteam, Option.map_some, Option.bind_some] at hy
    obtain rfl | rfl := hg <;> split at hy
    · cases hy
    · exact hx y hy
    · exact find?_unhalted (fun z hz => by cases hz) hu hy
    · exact find?_unhalted (t := { t with logEnd := f t }) hx hu hy

/-- The end of its context takes an agent away. -/
theorem State.agent_endContext_self {s : State} {a : AgentId} {t : Team} (ht : s.team a.team = some t) (he : t.isEnded = false)
    (rec : List Byte) : (s.endContext t.part t.asid rec).agent a = none := by
  obtain ⟨f, g, hg, hteam⟩ := s.team_endContext t.part t.asid rec a.team
  have hin : t.inCtx t.part t.asid = true := by simp [Team.inCtx, he]
  rw [State.agent, hteam, ht]
  simp only [Option.map_some, hin, if_true, Option.bind_some]
  obtain rfl | rfl := hg
  · rfl
  · simp only [Team.unhalted]
    split <;> rfl

/-- An agent that has taken a fault: stopped, with its record (R289, R290). -/
def Agent.faulted (x : Agent) (t : Team) (who seq : Nat) (r : Raise) : Agent :=
  { x with gooseSeq := if x.isGroup then x.gooseSeq else seq, issue := .stopped,
           stop := some { code := r.code, how := r.how, record := (recOf t who x r).encode }, block := none, active := false }

theorem State.HasOnly.postFault {s : State} {a : AgentId} {x : Agent} (h : s.HasOnly a x) (hu : x.unhalt = x) (team kind eng : Nat) (q : W32)
    (d : Nat) (r : Rec) : (s.postFault team kind eng q d r).HasOnly a x := by
  unfold State.postFault
  split
  · exact h
  · split
    · exact h.endContext hu ..
    · refine h.modTeam _ fun t => ?_
      split
      · rfl
      · exact Team.pushEvent_agents _ _ _

/-- A group or control thread that takes a fault stands stopped with it, unless the end of its context takes it away (R285, R289 to R291). -/
theorem State.takeFault_hasOnly_own {s : State} {a : AgentId} {t : Team} {x : Agent} (ht : s.team a.team = some t) (hx : s.agent a = some x)
    (hk : x.kind ≠ .privileged) {r : Raise} (hr : r.code ≠ 0x18) : (s.takeFault a r).HasOnly a (x.faulted t a.who s.beatSeq r) := by
  unfold State.takeFault
  simp -zeta only [ht, hx, hk, if_false, if_neg hr]
  extract_lets rec0 s1 s0 s2
  have hu : (x.faulted t a.who s.beatSeq r).unhalt = x.faulted t a.who s.beatSeq r := rfl
  have h1 : s1.HasOnly a (x.faulted t a.who s.beatSeq r) :=
    (s.hasOnly_setAgent a (x.faulted t a.who s.beatSeq r)).modTeam a.team fun _ => rfl
  have h0 : s0.teams = s1.teams := by
    simp only [s0]
    split
    · exact State.trace_teams ..
    · rfl
  have h2 : s2.HasOnly a (x.faulted t a.who s.beatSeq r) := h1.of_teams ((State.trace_teams ..).trans h0)
  have hdisp := h2.of_teams (s2.openDisp_teams (t.cluster.getD 0) t.part t.asid t.slot a.who rec0.encode)
  split
  · split
    · exact h2.endContext hu ..
    · split
      · exact (h2.of_teams (State.writeRecord_teams ..)).endContext hu ..
      · split
        · next hd =>
          rw [hd] at hdisp
          exact hdisp.endContext hu ..
        · next hd =>
          rw [hd] at hdisp
          exact hdisp.fqSend hu ..
  · split
    · next hd =>
      rw [hd] at hdisp
      exact hdisp.endContext hu ..
    · next hd =>
      rw [hd] at hdisp
      exact hdisp.postFault hu ..

/-- The same for a fault that ends the context (R351). -/
theorem State.takeFault_hasOnly {s : State} {a : AgentId} {t : Team} {x : Agent} (ht : s.team a.team = some t) (hx : s.agent a = some x)
    (hk : x.kind ≠ .privileged) (he : t.isEnded = false) (r : Raise) : (s.takeFault a r).HasOnly a (x.faulted t a.who s.beatSeq r) := by
  by_cases hr : r.code = 0x18
  · refine ⟨fun y hy => ?_⟩
    unfold State.takeFault at hy
    simp -zeta only [ht, hx, if_pos hr] at hy
    rw [State.agent_endContext_self ht he] at hy
    cases hy
  · exact State.takeFault_hasOnly_own ht hx hk hr

/-! ### An arrival that stops (R49, R51, R52) -/

theorem State.HasOnly.markHeld {s : State} {a : AgentId} {x : Agent} (h : s.HasOnly a x) : ∀ y, (s.markHeld a).agent a = some y → ∃ b, y = { x with held := b } := by
  intro y hy
  unfold State.markHeld at hy
  rw [State.agent_modTeam, if_pos rfl] at hy
  have hfind := h.eq_of_agent
  unfold State.agent at hfind
  cases ht : s.team a.team with
  | none => simp [ht] at hy
  | some t =>
    simp only [ht, Option.map_some, Option.bind_some] at hy hfind
    split at hy
    · rw [Tbl.find?_modify_same] at hy
      obtain ⟨z, hz, rfl⟩ := Option.map_eq_some_iff.mp hy
      rw [hfind z hz]
      split
      · exact ⟨true, rfl⟩
      · exact ⟨x.held, rfl⟩
    · exact ⟨x.held, hfind y hy⟩

/-- An arrival that stops leaves its agent stopped at its index, or takes it away (R49, R52). -/
theorem arrivalStop_stops {s : State} {a : AgentId} {t : Team} {x : Agent} (ht : s.team a.team = some t) (hx : s.agent a = some x)
    (hk : x.kind ≠ .privileged) (he : t.isEnded = false) (act : LaneMask) (code : Byte) (addr : W64) {y : Agent}
    (hy : (arrivalStop s a act code addr).agent a = some y) : y.stoppedAs code .refetch ∧ y.p = x.p ∧ y.restart = x.restart := by
  obtain ⟨b, rfl⟩ := (State.takeFault_hasOnly ht hx hk he _).markHeld y hy
  exact ⟨⟨rfl, _, rfl, rfl, rfl⟩, rfl, rfl⟩

theorem State.arriving_eq {s : State} {a : AgentId} {t : Team} {x : Agent} {g : Bool} (h : s.arriving = some (a, t, x, g)) :
    s.team a.team = some t ∧ s.agent a = some x ∧ t.resident = true := by
  unfold State.arriving at h
  repeat' split at h
  all_goals simp_all

theorem Team.isEnded_of_resident {t : Team} (h : t.resident = true) : t.isEnded = false := by
  unfold Team.resident Team.cluster at h
  unfold Team.isEnded
  cases hr : t.res <;> simp_all

@[simp] theorem State.cacheWalk_teams (s : State) (unit part asid va : Nat) : (s.cacheWalk unit part asid va).teams = s.teams := by
  obtain ⟨l, hl⟩ := s.cacheWalk_eq unit part asid va
  rw [hl]

theorem State.fetchLine_teams (s : State) (cl part asid vline : Nat) (p : Place) : (s.fetchLine cl part asid vline p).2.teams = s.teams := by
  unfold State.fetchLine
  split
  · rfl
  · simp only [State.icPut]
    split
    · exact ((s.recall_same _ _).trans (State.touchLine_same _ _ _)).2.1
    · rfl

/-- What a fetch leaves behind it stands in no team. -/
theorem State.fetch_teams {s s1 : State} {t : Team} {cl p : Nat} {w : Code128} (h : s.fetch t cl p = .word w s1) : s1.teams = s.teams := by
  unfold State.fetch at h
  extract_lets code va at h
  split at h
  · cases h
  · split at h
    · extract_lets q at h
      split at h
      · cases h
      · split at h
        · cases h
        · injection h with _ hs
          rw [← hs, State.fetchLine_teams, State.cacheWalk_teams]
    · cases h
    · cases h

theorem Agent.passGate_stand (x : Agent) (g : Bool) (w : Code128) (n : Nat) :
    (x.passGate g w n).kind = x.kind ∧ (x.passGate g w n).p = x.p ∧ (x.passGate g w n).restart = x.restart := by
  unfold Agent.passGate
  split <;> exact ⟨rfl, rfl, rfl⟩

/-- A team is as before, but for its agents, where one of them is set. -/
theorem State.team_setAgent_self {s : State} {a : AgentId} {t : Team} (x : Agent) (ht : s.team a.team = some t) :
    (s.setAgent a x).team a.team = some { t with agents := Tbl.modify t.agents a.who fun _ => x } := by
  rw [State.setAgent, State.team_modAgent, if_pos rfl, ht]
  rfl

theorem State.agent_setAgent_self {s : State} {a : AgentId} {x y : Agent} (hx : s.agent a = some x) : (s.setAgent a y).agent a = some y := by
  rw [State.setAgent, State.agent_modAgent_same, hx]
  rfl

/-- Settles O8: both stops are those of an arrival. -/
theorem arrivalStops : Obligations.ArrivalStops := by
  refine ⟨fun s s1 a t x g w harr hf hres hw hk h0 => ?_, fun s a t x g code addr harr hf hk h0 => ?_⟩
  · obtain ⟨ht, hx, hr⟩ := State.arriving_eq harr
    obtain ⟨hkind, hp, hrestart⟩ := x.passGate_stand g w s1.beatSeq
    have hteams := State.fetch_teams hf
    have hx1 : s1.agent a = some x := (State.agent_congr hteams a).trans hx
    have ht1 : s1.team a.team = some t := by rw [State.team, hteams]; exact ht
    refine ⟨arrivalStop (s1.setAgent a (x.passGate g w s1.beatSeq)) a x.arrivals 0x01 0, ?_, fun y hy => ?_⟩
    · simp [exec, execReservedOpcode, harr, hf, hres, hw]
    · obtain ⟨hs, hyp, hyr⟩ := arrivalStop_stops (State.team_setAgent_self _ ht1) (State.agent_setAgent_self hx1) (hkind ▸ hk)
        (Team.isEnded_of_resident hr) _ _ _ hy
      exact ⟨hs, hyp.trans hp, (hyr.trans hrestart).trans h0⟩
  · obtain ⟨ht, hx, hr⟩ := State.arriving_eq harr
    refine ⟨arrivalStop s a x.arrivals code addr, ?_, fun y hy => ?_⟩
    · simp only [exec, execFetchFault, harr, hf, if_true]
    · obtain ⟨hs, hyp, hyr⟩ := arrivalStop_stops ht hx hk (Team.isEnded_of_resident hr) _ _ _ hy
      exact ⟨hs, hyp, hyr.trans h0⟩

end Sys2Proof.Machine
end

section
/-! Memory stays canonical: the predicate, the caches, the fault queue, the debug sinks and the faults of agents. -/

namespace Sys2Proof.Machine

/-- The canonical form of memory, as a predicate of its own. -/
def Canon (m : Tbl Byte) : Prop := Memory.wf m

/-- Memory is canonical in the state that an instruction or event leads to. -/
def NextCanon (n : Next) : Prop := ∀ u, n = .next u → Canon u.mem
/-- Memory is canonical in the state, if there is one. -/
def OptCanon (o : Option State) : Prop := ∀ u, o = some u → Canon u.mem
/-- Memory is canonical in every state that the end of a beat carries. -/
def OutCanon (o : Out) : Prop := ∀ u, (o = .done u ∨ o = .left u ∨ o = .wait u) → Canon u.mem
/-- Memory is canonical in the state that a turn has prepared. -/
def PrepCanon (p : Prepared) : Prop := ∀ u, (p = .stay u ∨ ∃ i, p = .go i u) → Canon u.mem
@[simp] theorem NextCanon_next (u : State) : NextCanon (.next u) ↔ Canon u.mem := by simp [NextCanon]
@[simp] theorem NextCanon_fault (u) : NextCanon (.fault u) := by simp [NextCanon]
@[simp] theorem NextCanon_refused (u) : NextCanon (.refused u) := by simp [NextCanon]
@[simp] theorem OptCanon_some (u : State) : OptCanon (some u) ↔ Canon u.mem := by simp [OptCanon]
@[simp] theorem OptCanon_none : OptCanon none := by simp [OptCanon]
@[simp] theorem OutCanon_done (u : State) : OutCanon (.done u) ↔ Canon u.mem := by simp [OutCanon]
@[simp] theorem OutCanon_left (u : State) : OutCanon (.left u) ↔ Canon u.mem := by simp [OutCanon]
@[simp] theorem OutCanon_wait (u : State) : OutCanon (.wait u) ↔ Canon u.mem := by simp [OutCanon]
@[simp] theorem OutCanon_fault (u) : OutCanon (.fault u) := by simp [OutCanon]
@[simp] theorem OutCanon_replay (u v) : OutCanon (.replay u v) := by simp [OutCanon]
@[simp] theorem OutCanon_block (u) : OutCanon (.block u) := by simp [OutCanon]
@[simp] theorem PrepCanon_stay (u : State) : PrepCanon (.stay u) ↔ Canon u.mem := by simp [PrepCanon]
@[simp] theorem PrepCanon_go (i) (u : State) : PrepCanon (.go i u) ↔ Canon u.mem := by simp [PrepCanon]
@[simp] theorem foldl_canon {α : Type} {f : State → α → State} {l : List α} {s : State} (h : Canon s.mem) (hf : ∀ u a, Canon u.mem → Canon (f u a).mem) :
    Canon (l.foldl f s).mem :=
  foldl_keeps (fun u : State => Canon u.mem) f l (fun u a _ hu => hf u a hu) s h
@[simp] theorem State.poke_canon {s : State} (h : Canon s.mem) (l : Nat) (bs : List Byte) : Canon (s.poke l bs).mem := State.poke_wf h l bs
@[simp] theorem State.clear_canon {s : State} (h : Canon s.mem) (l n) : Canon (s.clear l n).mem := State.clear_wf h l n
@[simp] theorem State.dropMons_canon {s : State} (h : Canon s.mem) (g) : Canon (s.dropMons g).mem := State.dropMons_wf h g
@[simp] theorem State.writeWith_canon {s : State} (h : Canon s.mem) (p bs cl pol) :
    Canon (s.writeWith p bs cl pol).1.mem := State.writeWith_wf h p bs cl pol
@[simp] theorem State.writeAt_canon {s : State} (h : Canon s.mem) (p bs cl) : Canon (s.writeAt p bs cl).1.mem := State.writeAt_wf h p bs cl

@[simp] theorem foldl_mem {α : Type} {f : State → α → State} (hf : ∀ u a, (f u a).mem = u.mem) (l : List α) (s : State) :
    (l.foldl f s).mem = s.mem := by
  induction l generalizing s with
  | nil => rfl
  | cons a l ih => simp [ih, hf]
theorem OptCanon.of_some {o : Option State} (h : OptCanon o) {u : State} (e : o = some u) : Canon u.mem := h u e
@[simp] theorem OptCanon.getD {o : Option State} (h : OptCanon o) {s : State} (hs : Canon s.mem) : Canon (o.getD s).mem := by
  cases o with
  | none => exact hs
  | some u => exact h u rfl

@[simp] theorem firstFailing_canon (rs w) : OutCanon (firstFailing rs w) := by
  unfold firstFailing
  extract_lets
  (repeat' split) <;> simp
theorem checkAll_canon {s b acc n al o} (e : checkAll s b acc n al = .out o) : OutCanon o := by
  unfold checkAll at e
  extract_lets at e
  split at e <;> cases e
  exact firstFailing_canon _ _
@[simp] theorem mem_ite {c : Prop} [Decidable c] (a b : State) : (if c then a else b).mem = if c then a.mem else b.mem := apply_ite State.mem c a b
@[simp] theorem canon_ite {c : Prop} [Decidable c] {a b : Tbl Byte} : Canon (if c then a else b) ↔ (c → Canon a) ∧ (¬c → Canon b) := by
  split <;> simp -implicitDefEqProofs [*]
@[simp] theorem OutCanon_ite {c : Prop} [Decidable c] {a b : Out} : OutCanon (if c then a else b) ↔ (c → OutCanon a) ∧ (¬c → OutCanon b) := by
  split <;> simp -implicitDefEqProofs [*]
@[simp] theorem Canon.putMany {m : Tbl Byte} (h : Canon m) (l : Nat) (bs : List Byte) : Canon (Tbl.putMany 0#8 m l bs) := Tbl.wf_putMany h l bs
@[simp] theorem Canon.filter {m : Tbl Byte} (h : Canon m) (p : Nat × Byte → Bool) : Canon (m.filter p) := Memory.wf_filter h p

@[simp] theorem State.vf_canon {s : State} (h : Canon s.mem) (part : Nat) (f : State → State) (hf : ∀ u : State, Canon u.mem → Canon (f u).mem) :
    Canon (State.vf s part f).mem := by
  unfold State.vf
  split <;> simp -implicitDefEqProofs [*]

@[simp] theorem State.cacheIn_mem {s : State} (unit : Nat) (part : Nat) (asid : Nat) (level : Nat) (va : Nat) (e : W64) :
    (State.cacheIn s unit part asid level va e).mem = s.mem := by
  simp -implicitDefEqProofs [State.cacheIn]

@[simp] theorem State.cacheEntry_mem {s : State} (unit : Nat) (part : Nat) (asid : Nat) (level : Nat) (va : Nat) (e : W64) :
    (State.cacheEntry s unit part asid level va e).mem = s.mem := by
  simp -implicitDefEqProofs [State.cacheEntry]

@[simp] theorem State.cacheWalk_mem {s : State} (unit : Nat) (part : Nat) (asid : Nat) (va : Nat) :
    (State.cacheWalk s unit part asid va).mem = s.mem := by
  simp only [State.cacheWalk]
  (repeat' split) <;> simp +contextual -implicitDefEqProofs [*]

@[simp] theorem State.recall_mem {s : State} (l : Nat) (but : Option Nat) : (State.recall s l but).mem = s.mem := by
  simp only [State.recall]
  (repeat' split) <;> simp +contextual -implicitDefEqProofs [*]

@[simp] theorem State.evictLine_mem {s : State} (l : Nat) : (State.evictLine s l).mem = s.mem := by
  simp -implicitDefEqProofs [State.evictLine]

@[simp] theorem State.makeRoom_mem {s : State} (slice : Nat) (l : Nat) (data : Bool) : (State.makeRoom s slice l data).mem = s.mem := by
  simp only [State.makeRoom]
  (repeat' split) <;> simp +contextual -implicitDefEqProofs [*]

@[simp] theorem State.unpin_mem {s : State} : (State.unpin s).mem = s.mem := by
  simp -implicitDefEqProofs [State.unpin]

@[simp] theorem State.touchLine_mem {s0 : State} (p : Place) (policy : Nat) : (State.touchLine s0 p policy).mem = s0.mem := by
  simp -implicitDefEqProofs [State.touchLine]

@[simp] theorem State.rewritten_mem {s : State} (l : Nat) (n : Nat) : (State.rewritten s l n).mem = s.mem := by
  simp -implicitDefEqProofs [State.rewritten]

@[simp] theorem State.l1Evict_mem {s : State} (i : Nat) : (State.l1Evict s i).mem = s.mem := by
  simp only [State.l1Evict]
  (repeat' split) <;> simp +contextual -implicitDefEqProofs [*]

@[simp] theorem State.l1Put_mem {s : State} (c : L1Line) : (State.l1Put s c).mem = s.mem := by
  simp -implicitDefEqProofs [State.l1Put]

@[simp] theorem State.fill_mem {s : State} (cluster : Nat) (part : Nat) (asid : Nat) (p : Place) (allocate : Bool) :
    (State.fill s cluster part asid p allocate).mem = s.mem := by
  simp only [State.fill]
  (repeat' split) <;> simp +contextual -implicitDefEqProofs [*]

@[simp] theorem State.dropStale_mem {s : State} (cluster : Nat) (l : Nat) (stamp : Nat) : (State.dropStale s cluster l stamp).mem = s.mem := by
  simp -implicitDefEqProofs [State.dropStale]

@[simp] theorem State.refresh_mem {s : State} (cluster : Nat) (part : Nat) (asid : Nat) (p : Place) :
    (State.refresh s cluster part asid p).mem = s.mem := by
  simp -implicitDefEqProofs [State.refresh]

@[simp] theorem State.readBy_mem {s : State} (cluster : Nat) (part : Nat) (asid : Nat) (p : Place) (n : Nat) (policy : Nat) :
    (State.readBy s cluster part asid p n policy).2.2.mem = s.mem := by
  simp only [State.readBy]
  (repeat' split) <;> simp +contextual -implicitDefEqProofs [*]

@[simp] theorem State.updateCopy_mem {s : State} (cluster : Nat) (part : Nat) (asid : Nat) (vline : Nat) (loc : Nat) (stamp : Nat) (c : Nat) (bs : List Byte) :
    (State.updateCopy s cluster part asid vline loc stamp c bs).mem = s.mem := by
  simp -implicitDefEqProofs [State.updateCopy]

@[simp] theorem State.clearPresence_mem {s : State} (team : Nat) (lines : List Nat) : (State.clearPresence s team lines).mem = s.mem := by
  simp -implicitDefEqProofs [State.clearPresence]

@[simp] theorem State.setPresence_mem {s : State} (team : Nat) (lines : List Nat) : (State.setPresence s team lines).mem = s.mem := by
  simp -implicitDefEqProofs [State.setPresence]

@[simp] theorem State.clearMembers_mem {s : State} (t : Team) (ls : List (Nat × Nat)) (skip : Nat) :
    (State.clearMembers s t ls skip).mem = s.mem := by
  refine foldl_mem (fun u e => ?_) ls s
  (repeat' split) <;> simp

@[simp] theorem State.startCopy_mem {s : State} (team : Nat) (k : CopyCmd) : (State.startCopy s team k).1.mem = s.mem := by
  simp only [State.startCopy]
  (repeat' split) <;> simp +contextual -implicitDefEqProofs [*]

@[simp] theorem State.dmcEvent_mem {s : State} : (State.dmcEvent s).mem = s.mem := by
  simp -implicitDefEqProofs [State.dmcEvent]

@[simp] theorem State.fqWrite_canon {s : State} (hs : Canon s.mem) (part : Nat) (h : HeldRecord) (size : Nat) :
    Canon (State.fqWrite s part h size).mem := by
  simp -implicitDefEqProofs [State.fqWrite, *]

@[simp] theorem State.fqSend_canon {s : State} (hs : Canon s.mem) (part : Nat) (h : HeldRecord) : Canon (State.fqSend s part h).mem := by
  simp only [State.fqSend]
  (repeat' split) <;> simp +contextual -implicitDefEqProofs [*]

@[simp] theorem State.fqFlush_canon {s : State} (h : Canon s.mem) (part n : Nat) : Canon (s.fqFlush part n).mem := by
  induction n generalizing s with
  | zero => exact h
  | succ n ih =>
    simp only [State.fqFlush]
    split
    · split
      · exact ih (State.fqWrite_canon (by rw [State.modPart_mem]; exact h) _ _ _)
      · exact h
    · exact h

@[simp] theorem State.logError_canon {s : State} (h : Canon s.mem) (r : Rec) : Canon (State.logError s r).mem := by
  simp -implicitDefEqProofs [State.logError, *]

@[simp] theorem State.modDebug_mem {s : State} (part : Nat) (i : Nat) (f : Debug → Debug) : (State.modDebug s part i f).mem = s.mem := by
  simp -implicitDefEqProofs [State.modDebug]

@[simp] theorem State.sinkPut_canon {s : State} (h : Canon s.mem) (part : Nat) (asid : Nat) (i : Nat) (r : Nguxis) :
    Canon (State.sinkPut s part asid i r).mem := by
  simp only [State.sinkPut]
  (repeat' split) <;> simp +contextual -implicitDefEqProofs [*]

@[simp] theorem State.sink_canon {s : State} (h : Canon s.mem) (part : Nat) (asid : Nat) (i : Nat) (r : Nguxis) :
    Canon (State.sink s part asid i r).mem := by
  simp -implicitDefEqProofs [State.sink, *]

@[simp] theorem State.adaptPeriod_canon {s : State} (h : Canon s.mem) (part : Nat) (asid : Nat) (i : Nat) :
    Canon (State.adaptPeriod s part asid i).mem := by
  simp -implicitDefEqProofs [State.adaptPeriod, *]

@[simp] theorem State.trace_canon {s : State} (h : Canon s.mem) (part : Nat) (asid : Nat) (r : Nguxis) : Canon (State.trace s part asid r).mem := by
  simp only [State.trace]
  (repeat' split) <;> simp +contextual -implicitDefEqProofs [*]

@[simp] theorem State.insertMon_canon {s : State} (h : Canon s.mem) (m : Mon) : OptCanon (State.insertMon s m) := by
  unfold State.insertMon
  split
  · rw [OptCanon_some]
    refine foldl_canon h fun u e hu => ?_
    (repeat' split) <;> simp only [hu, State.poke_canon]
  · extract_lets
    (repeat' split) <;> simp only [OptCanon_none, OptCanon_some, State.setLine_mem]
    · exact h
    · exact State.poke_canon h _ _

@[simp] theorem State.deviceWrite_canon {s : State} (h : Canon s.mem) (unit : Nat) (part : Nat) (asid : Nat) (va : Nat) (bs : List Byte) :
    OptCanon (State.deviceWrite s unit part asid va bs) := by
  simp only [State.deviceWrite]
  (repeat' split) <;> simp +contextual -implicitDefEqProofs [*]

@[simp] theorem State.endLog_canon {s : State} (h : Canon s.mem) (c : Ctx) (ctl : W64) (team : Nat) (t : Team) :
    Canon (State.endLog s c ctl team t).mem := by
  unfold State.endLog
  split
  · exact h
  · exact OptCanon.getD (deviceWrite_canon h _ _ _ _ _) h

@[simp] theorem State.endSession_canon {s : State} (h : Canon s.mem) (part : Nat) (asid : Nat) : Canon (State.endSession s part asid).mem := by
  unfold State.endSession
  (repeat' split) <;> first | exact h | skip
  refine foldl_canon (by simp [h]) fun u e hu => ?_
  split <;> simp [hu]

@[simp] theorem State.markHeld_mem {s : State} (a : AgentId) : (State.markHeld s a).mem = s.mem := by
  simp -implicitDefEqProofs [State.markHeld]

@[simp] theorem State.dropContexts_canon {s0 : State} (h : Canon s0.mem) (mine : Nat → Nat → Bool) : Canon (State.dropContexts s0 mine).mem := by
  unfold State.dropContexts
  extract_lets out s1 dead s2
  have h1 : Canon s1.mem := foldl_canon h fun u e hu => by simp only [hu, State.clear_canon]
  exact State.dropMons_canon (s := s2) h1 _

@[simp] theorem State.endContext_canon {s : State} (h : Canon s.mem) (part : Nat) (asid : Nat) (rec : List Byte) :
    Canon (State.endContext s part asid rec).mem := by
  unfold State.endContext
  have h1 := State.dropContexts_canon (State.endSession_canon h part asid) fun p a => p == part && a == asid
  extract_lets s1
  split
  · refine State.fqSend_canon ?_ _ _
    rw [State.modPart_mem]
    exact h1
  · exact h1

@[simp] theorem State.postEvent_mem {s : State} (team : Nat) (kind : Nat) (eng : Nat) (cseq : W32) (detail : Nat) :
    (State.postEvent s team kind eng cseq detail).mem = s.mem := by
  simp -implicitDefEqProofs [State.postEvent]

@[simp] theorem State.postFault_canon {s : State} (h : Canon s.mem) (team : Nat) (kind : Nat) (eng : Nat) (cseq : W32) (detail : Nat) (rec : Rec) :
    Canon (State.postFault s team kind eng cseq detail rec).mem := by
  simp only [State.postFault]
  (repeat' split) <;> simp +contextual -implicitDefEqProofs [*]

@[simp] theorem State.writeRecord_canon {s : State} (h : Canon s.mem) (die : Nat) (part : Nat) (asid : Nat) (slot : Nat) (who : Nat) (rec : List Byte) :
    Canon (State.writeRecord s die part asid slot who rec).1.mem := by
  unfold State.writeRecord
  (repeat' split) <;> first | exact h | exact OptCanon.of_some (State.deviceWrite_canon h _ _ _ _ _) ‹_›

@[simp] theorem State.openDisp_canon {s : State} (h : Canon s.mem) (die : Nat) (part : Nat) (asid : Nat) (slot : Nat) (who : Nat) (rec : List Byte) :
    Canon (State.openDisp s die part asid slot who rec).1.mem := by
  unfold State.openDisp
  extract_lets r
  have hr : Canon r.1.mem := State.writeRecord_canon h _ _ _ _ _ _
  split
  · exact h
  · extract_lets
    split
    case h_1 e _ =>
      have h1 := OptCanon.of_some (State.deviceWrite_canon hr _ _ _ _ _) e
      split
      · split
        · exact OptCanon.of_some (State.insertMon_canon h1 _) ‹_›
        · exact h1
      · exact h1
    case h_2 => exact hr

@[simp] theorem State.takeFault_canon {s : State} (h : Canon s.mem) (a : AgentId) (r : Raise) : Canon (State.takeFault s a r).mem := by
  unfold State.takeFault
  split
  case h_2 => exact h
  case h_1 t x _ _ =>
  split
  · exact State.endContext_canon h _ _ _
  split
  · extract_lets src s1
    have h1 : Canon s1.mem := by rw [State.setAgent_mem]; exact h
    split <;> exact h1
  extract_lets rec0 s1 s0 s2
  have h1 : Canon s1.mem := by rw [State.modTeam_mem, State.setAgent_mem]; exact h
  have h0 : Canon s0.mem := by
    unfold s0
    split
    · exact State.trace_canon h1 _ _ _
    · exact h1
  have h2 : Canon s2.mem := State.trace_canon h0 _ _ _
  clear_value s2 rec0
  have ho := State.openDisp_canon h2 (t.cluster.getD 0) t.part t.asid t.slot a.who rec0.encode
  split
  · split
    · exact State.endContext_canon h2 _ _ _
    · split
      · exact State.endContext_canon (State.writeRecord_canon h2 _ _ _ _ _ _) _ _ _
      · split <;> rename_i e <;> rw [e] at ho
        · exact State.endContext_canon ho _ _ _
        · exact State.fqSend_canon ho _ _
  · split <;> rename_i e <;> rw [e] at ho
    · exact State.endContext_canon ho _ _ _
    · exact State.postFault_canon ho _ _ _ _ _ _

@[simp] theorem State.parkReplay_canon {s : State} (h : Canon s.mem) (a : AgentId) (r : Raise) (page : Nat) :
    Canon (State.parkReplay s a r page).mem := by
  unfold State.parkReplay
  split
  case h_2 => exact h
  case h_1 t x _ _ =>
  extract_lets p
  split
  · exact State.takeFault_canon h _ _
  · rename_i s1 _ _ _ _
    have h1 : Canon s1.mem := by rw [State.setAgent_mem]; exact h
    split
    · rw [State.modPart_mem]; exact h1
    · exact State.fqSend_canon h1 _ _

@[simp] theorem State.l1Holds_mem {s : State} (q : Perf) (p : Place) : (State.l1Holds s q p).mem = s.mem := by
  simp -implicitDefEqProofs [State.l1Holds]

@[simp] theorem State.grantExclusive_mem {s : State} (q : Perf) (p : Place) : (State.grantExclusive s q p).mem = s.mem := by
  simp -implicitDefEqProofs [State.grantExclusive]

@[simp] theorem State.opDone_mem {s : State} (a : AgentId) (n : Nat) (f : Agent → Agent) : (State.opDone s a n f).mem = s.mem := by
  simp -implicitDefEqProofs [State.opDone]

@[simp] theorem State.loadPerforms_canon {s : State} (h : Canon s.mem) (q : Perf) (n : Nat) (o : MemOp) (size : Nat) (reply : Nat) (off : Nat) :
    Canon (State.loadPerforms s q n o size reply off).mem := by
  simp only [State.loadPerforms]
  (repeat' split) <;> simp +contextual -implicitDefEqProofs [*]

@[simp] theorem State.stored_mem {s : State} (q : Perf) (n : Nat) (o : MemOp) (bs : List Byte) (near : Bool) (c : Option Nat) :
    (State.stored s q n o bs near c).mem = s.mem := by
  simp -implicitDefEqProofs [State.stored]

@[simp] theorem State.storePerforms_canon {s : State} (h : Canon s.mem) (q : Perf) (n : Nat) (o : MemOp) (bs : List Byte) :
    Canon (State.storePerforms s q n o bs).mem := by
  simp -implicitDefEqProofs [State.storePerforms, *]

end Sys2Proof.Machine
end

section
/-! Memory stays canonical: accesses, barriers, the census, and the beat that every form issues. -/

namespace Sys2Proof.Machine

@[simp] theorem State.zeroPerforms_canon {s : State} (h : Canon s.mem) (q : Perf) (n : Nat) (o : MemOp) : Canon (State.zeroPerforms s q n o).mem := by
  simp -implicitDefEqProofs [State.zeroPerforms, *]

@[simp] theorem State.atomicLine_mem {s : State} (p : Place) (cluster : Nat) (policy : Nat) : (State.atomicLine s p cluster policy).mem = s.mem := by
  simp -implicitDefEqProofs [State.atomicLine]

@[simp] theorem State.atomicAfter_canon {s : State} (h : Canon s.mem) (q : Perf) (o : MemOp) (near : Bool) :
    Canon (State.atomicAfter s q o near).mem := by
  simp -implicitDefEqProofs [State.atomicAfter, *]

@[simp] theorem State.rmw_canon {s : State} (h : Canon s.mem) (q : Perf) (o : MemOp) (ty : DType) (new : W64 → Option W64 × FpFlags) :
    Canon (State.rmw s q o ty new).2.2.2.2.mem := by
  simp only [State.rmw]
  (repeat' split) <;> simp +contextual -implicitDefEqProofs [*]

@[simp] theorem State.atomicPerforms_canon {s : State} (h : Canon s.mem) (q : Perf) (n : Nat) (o : MemOp) (ty : DType) (reply : Option Nat) (new : W64 → Option W64 × FpFlags) :
    Canon (State.atomicPerforms s q n o ty reply new).mem := by
  simp only [State.atomicPerforms]
  (repeat' split) <;> simp +contextual -implicitDefEqProofs [*]

@[simp] theorem State.replayPerforms_canon {s : State} (h : Canon s.mem) (q : Perf) (n : Nat) (o : MemOp) (ty : DType) (new : Option W64) :
    Canon (State.replayPerforms s q n o ty new).mem := by
  simp only [State.replayPerforms]
  (repeat' split) <;> simp +contextual -implicitDefEqProofs [*]

@[simp] theorem State.consumed_canon {s : State} (h : Canon s.mem) (q : Perf) (o : MemOp) : Canon (State.consumed s q o).mem := by
  simp only [State.consumed]
  (repeat' split) <;> simp +contextual -implicitDefEqProofs [*]

@[simp] theorem State.performs_canon {s : State} (h : Canon s.mem) (q : Perf) (n : Nat) (o : MemOp) : Canon (State.performs s q n o).mem := by
  simp only [State.performs]
  (repeat' split) <;> simp +contextual -implicitDefEqProofs [*]

@[simp] theorem State.performsAt_canon {s : State} (h : Canon s.mem) (q : Perf) (n : Nat) (o : MemOp) : Canon (State.performsAt s q n o).mem := by
  simp -implicitDefEqProofs [State.performsAt, *]

@[simp] theorem State.access_canon {s : State} (h : Canon s.mem) (a : AgentId) (n : Nat) : Canon (State.access s a n).mem := by
  simp only [State.access]
  (repeat' split) <;> simp +contextual -implicitDefEqProofs [*]

@[simp] theorem State.accessAll_canon {s : State} (h : Canon s.mem) (a : AgentId) : Canon (State.accessAll s a).mem := by
  simp only [State.accessAll]
  (repeat' split) <;> simp +contextual -implicitDefEqProofs [*]

@[simp] theorem State.applyAck_mem {s : State} (a : AgentId) (n : Nat) : (State.applyAck s a n).mem = s.mem := by
  simp only [State.applyAck]
  (repeat' split) <;> simp +contextual -implicitDefEqProofs [*]

@[simp] theorem State.applyAcks_canon {s0 : State} (h : Canon s0.mem) (a : AgentId) : Canon (State.applyAcks s0 a).mem := by
  simp only [State.applyAcks]
  (repeat' split) <;> simp +contextual -implicitDefEqProofs [*]

@[simp] theorem seqWrite_canon {s : State} (h : Canon s.mem) (t : Team) (who : Nat) (lane : Nat) (off : Nat) (x : Label) :
    Canon (seqWrite s t who lane off x).mem := by
  simp only [seqWrite]
  (repeat' split) <;> simp +contextual -implicitDefEqProofs [*]

@[simp] theorem setFrame_canon {s : State} (h : Canon s.mem) (a : AgentId) (t : Team) (x : Agent) (d : Nat) (l : Label) :
    Canon (setFrame s a t x d l).mem := by
  unfold setFrame
  extract_lets out y
  have h1 : Canon (s.setAgent a y).mem := by rw [State.setAgent_mem]; exact h
  split
  · exact seqWrite_canon h1 _ _ _ _ _
  · exact h1

@[simp] theorem discardCopies_mem {s : State} (team : Nat) : (discardCopies s team).mem = s.mem := by
  unfold discardCopies
  split
  · rfl
  refine foldl_mem (fun u e => ?_) _ _
  split
  · rw [State.postEvent_mem]
    refine (foldl_mem (fun v l => ?_) _ _).trans (State.modTeam_mem _ _ _)
    split <;> simp
  · rfl

@[simp] theorem State.teamEnd_canon {s : State} (h : Canon s.mem) (team : Nat) : Canon (State.teamEnd s team).mem := by
  simp only [State.teamEnd]
  (repeat' split) <;> simp +contextual -implicitDefEqProofs [*]

@[simp] theorem State.agentEnded_canon {s : State} (h : Canon s.mem) (a : AgentId) : Canon (State.agentEnded s a).mem := by
  simp -implicitDefEqProofs [State.agentEnded, *]

@[simp] theorem State.census_canon {s : State} (h : Canon s.mem) (a : AgentId) (frm : Nat) : Canon (State.census s a frm).mem := by
  simp only [State.census]
  (repeat' split) <;> simp +contextual -implicitDefEqProofs [*]

@[simp] theorem State.releaseBar_canon {s : State} (h : Canon s.mem) (team : Nat) (id : Nat) : Canon (State.releaseBar s team id).mem := by
  unfold State.releaseBar
  (repeat' split) <;> try exact h
  refine foldl_canon (by rw [State.modTeam_mem]; exact h) fun u g hu => ?_
  dsimp only
  (repeat' split) <;> simp -implicitDefEqProofs [hu]

@[simp] theorem State.settle_canon {s : State} (h : Canon s.mem) (team : Nat) : Canon (State.settle s team).mem := by
  simp only [State.settle]
  (repeat' split) <;> simp +contextual -implicitDefEqProofs [*]

@[simp] theorem State.nextIndex_canon {s : State} (h : Canon s.mem) (a : AgentId) : Canon (State.nextIndex s a).mem := by
  simp only [State.nextIndex]
  (repeat' split) <;> simp +contextual -implicitDefEqProofs [*]

@[simp] theorem State.lcrCount_mem {s : State} (cluster : Nat) (asid : Nat) (p : Nat) (act : Nat) (poff : Nat) (unw : Nat) (abs : Nat) (idle : Nat) :
    (State.lcrCount s cluster asid p act poff unw abs idle).mem = s.mem := by
  simp -implicitDefEqProofs [State.lcrCount]

@[simp] theorem State.blockAgent_mem {s : State} (a : AgentId) (w : BlockWhy) : (State.blockAgent s a w).mem = s.mem := by
  simp -implicitDefEqProofs [State.blockAgent]

@[simp] theorem State.countQuad_mem {s : State} (b : Beat) (q : Nat) : (State.countQuad s b q).mem = s.mem := by
  simp -implicitDefEqProofs [State.countQuad]

@[simp] theorem State.countGroup_mem {s : State} (b : Beat) (whole : Bool) : (State.countGroup s b whole).mem = s.mem := by
  simp -implicitDefEqProofs [State.countGroup]

@[simp] theorem State.countThread_mem {s : State} (b : Beat) : (State.countThread s b).mem = s.mem := by
  simp -implicitDefEqProofs [State.countThread]

@[simp] theorem State.countBeat_mem {s : State} (b : Beat) (whole : Bool) : (State.countBeat s b whole).mem = s.mem := by
  simp -implicitDefEqProofs [State.countBeat]

@[simp] theorem State.passBeat_canon {s : State} (h : Canon s.mem) (b : Beat) (whole : Bool) : Canon (State.passBeat s b whole).mem := by
  simp only [State.passBeat]
  (repeat' split) <;> simp +contextual -implicitDefEqProofs [*]

@[simp] theorem State.afterBeat_canon {s : State} (h : Canon s.mem) (b : Beat) (whole : Bool) : Canon (State.afterBeat s b whole).mem := by
  simp -implicitDefEqProofs [State.afterBeat, *]

@[simp] theorem State.concludeBeat_canon {s : State} (h : Canon s.mem) (b : Beat) (whole : Bool) (o : Out) (ho : OutCanon o) :
    Canon (State.concludeBeat s b whole o).mem := by
  unfold State.concludeBeat
  (repeat' split) <;> simp_all +contextual -implicitDefEqProofs

@[simp] theorem State.conclude_canon {s : State} (h : Canon s.mem) (b : Beat) (whole : Bool) (o : Out) (ho : OutCanon o) :
    Canon (State.conclude s b whole o).mem := by
  simp -implicitDefEqProofs [State.conclude, *]

@[simp] theorem issueBeat_canon {s : State} (h : Canon s.mem) {i f body} (hb : ∀ b u, Canon u.mem → OutCanon (body b u)) :
    NextCanon (issueBeat i f s body) := by
  unfold issueBeat
  split
  case h_2 => simp
  case h_1 a t x r _ _ =>
  extract_lets b whole anyPerf gate
  split
  · simp -implicitDefEqProofs [h]
  rename_i s1 _ _ s2 _
  have h1 : Canon s1.mem := by rw [State.modAgent_mem]; exact h
  have h2 : Canon s2.mem := by rw [State.modAgent_mem]; exact h1
  clear_value s1 s2 gate
  cases gate <;> dsimp only <;> rw [NextCanon_next]
  · exact h1
  · rw [State.blockAgent_mem]; exact h1
  · exact State.conclude_canon h1 _ _ _ (OutCanon_fault _)
  · rw [State.blockAgent_mem]; exact h1
  · rw [State.modAgent_mem]; exact h1
  · exact State.conclude_canon h1 _ _ _ (hb _ _ h2)

@[simp] theorem State.icPut_mem {s : State} (c : ILine) : (State.icPut s c).mem = s.mem := by
  simp -implicitDefEqProofs [State.icPut]

@[simp] theorem State.fetchLine_mem {s : State} (cluster : Nat) (part : Nat) (asid : Nat) (vline : Nat) (p : Place) :
    (State.fetchLine s cluster part asid vline p).2.mem = s.mem := by
  simp only [State.fetchLine]
  (repeat' split) <;> simp +contextual -implicitDefEqProofs [*]

theorem State.fetch_mem {s : State} {t c p w u} (e : s.fetch t c p = .word w u) : u.mem = s.mem := by
  unfold State.fetch at e
  extract_lets code va at e
  split at e
  · cases e
  · split at e
    · extract_lets q at e
      split at e
      · cases e
      · split at e
        · cases e
        · injection e with _ hs
          rw [← hs, State.fetchLine_mem, State.cacheWalk_mem]
    · cases e
    · cases e

@[simp] theorem arrivalStop_canon {s : State} (h : Canon s.mem) (a : AgentId) (act : LaneMask) (code : Byte) (addr : W64) :
    Canon (arrivalStop s a act code addr).mem := by
  simp -implicitDefEqProofs [arrivalStop, *]

@[simp] theorem State.arrive_canon {s : State} (h : Canon s.mem) (a : AgentId) (t : Team) (x : Agent) (gated : Bool) :
    PrepCanon (State.arrive s a t x gated) := by
  unfold State.arrive
  split
  · simp [h]
  · rename_i e
    have h1 := State.fetch_mem e
    (repeat' split) <;> simp_all -implicitDefEqProofs

@[simp] theorem execReservedOpcode_canon {s : State} (h : Canon s.mem) (w : Code128) : NextCanon (execReservedOpcode w s) := by
  unfold execReservedOpcode
  (repeat' split) <;> try simp [h]
  rename_i e _
  have h1 := State.fetch_mem e
  simp_all -implicitDefEqProofs

@[simp] theorem execFetchFault_canon {s : State} (h : Canon s.mem) (code : Byte) : NextCanon (execFetchFault code s) := by
  simp only [execFetchFault]
  (repeat' split) <;> simp +contextual -implicitDefEqProofs [*]

end Sys2Proof.Machine
end

section
/-! Memory stays canonical: register-to-register forms, jumps, calls, ends, barriers and the replay log. -/

namespace Sys2Proof.Machine

@[simp] theorem parkOnQueue_mem {s : State} (b : Beat) (q : Nat) (marks : List RegWrite) : (parkOnQueue s b q marks).mem = s.mem := by
  simp -implicitDefEqProofs [parkOnQueue]

theorem pushQueue_canon {s : State} (h : Canon s.mem) {n t x q w vs u} (e : pushQueue s n t x q w vs = .ok u) : Canon u.mem := by
  revert e
  unfold pushQueue
  extract_lets
  (repeat' split) <;> intro e <;> cases e
  all_goals simp -implicitDefEqProofs [h]

@[simp] theorem finishLanes_canon {s : State} (h : Canon s.mem) (b : Beat) (long : Bool) (rs : List (Nat × Res)) :
    OutCanon (finishLanes b long s rs) := by
  unfold finishLanes
  extract_lets fl s1
  have h1 : Canon s1.mem := by rw [State.modAgent_mem]; exact h
  clear_value s1
  split
  · split
    · rename_i e
      rw [OutCanon_done, State.modAgent_mem]
      exact pushQueue_canon h1 e
    · exact OutCanon_fault _
    · exact OutCanon_block _
  · simpa using h1

@[simp] theorem withQueue_canon {s0 s : State} (h0 : Canon s0.mem) (h : Canon s.mem) (b marks k) (hk : ∀ w bs u, Canon u.mem → OutCanon (k w bs u)) :
    OutCanon (withQueue s0 b s marks k) := by
  unfold withQueue
  (repeat' split) <;> simp -implicitDefEqProofs [*]

@[simp] theorem finishOrPark_canon {s0 s : State} (h : Canon s0.mem) (h1 : Canon s.mem) (b : Beat) (long : Bool) (rs : List (Nat × Res)) :
    OutCanon (finishOrPark s0 b long s rs) := by
  simp only [finishOrPark]
  (repeat' split) <;> simp +contextual -implicitDefEqProofs [*]

@[simp] theorem laneBody_canon {s0 s : State} (h : Canon s0.mem) (h1 : Canon s.mem) (long : Bool) (op : Vals → Res) (b : Beat) :
    OutCanon (laneBody s0 long op b s) := by
  simp only [laneBody]
  (repeat' split) <;> simp +contextual -implicitDefEqProofs [*]

@[simp] theorem laneOp_canon {s : State} (h : Canon s.mem) (i : Instr) (f : Fields) (long : Bool) (op : Vals → Res) :
    NextCanon (laneOp i f long op s) := by
  simp only [laneOp]
  simp +contextual -implicitDefEqProofs [*]

@[simp] theorem execAdd_canon {s : State} (h : Canon s.mem) (f : Fields) : NextCanon (execAdd f s) := by
  simp -implicitDefEqProofs [execAdd, *]

@[simp] theorem execSub_canon {s : State} (h : Canon s.mem) (f : Fields) : NextCanon (execSub f s) := by
  simp -implicitDefEqProofs [execSub, *]

@[simp] theorem execMul_canon {s : State} (h : Canon s.mem) (f : Fields) : NextCanon (execMul f s) := by
  simp -implicitDefEqProofs [execMul, *]

@[simp] theorem execMulh_canon {s : State} (h : Canon s.mem) (f : Fields) : NextCanon (execMulh f s) := by
  simp -implicitDefEqProofs [execMulh, *]

@[simp] theorem execMad_canon {s : State} (h : Canon s.mem) (f : Fields) : NextCanon (execMad f s) := by
  simp -implicitDefEqProofs [execMad, *]

@[simp] theorem execDiv_canon {s : State} (h : Canon s.mem) (f : Fields) : NextCanon (execDiv f s) := by
  simp -implicitDefEqProofs [execDiv, *]

@[simp] theorem execRem_canon {s : State} (h : Canon s.mem) (f : Fields) : NextCanon (execRem f s) := by
  simp -implicitDefEqProofs [execRem, *]

@[simp] theorem execMin_canon {s : State} (h : Canon s.mem) (f : Fields) : NextCanon (execMin f s) := by
  simp -implicitDefEqProofs [execMin, *]

@[simp] theorem execMax_canon {s : State} (h : Canon s.mem) (f : Fields) : NextCanon (execMax f s) := by
  simp -implicitDefEqProofs [execMax, *]

@[simp] theorem execAbs_canon {s : State} (h : Canon s.mem) (f : Fields) : NextCanon (execAbs f s) := by
  simp -implicitDefEqProofs [execAbs, *]

@[simp] theorem execAnd_canon {s : State} (h : Canon s.mem) (f : Fields) : NextCanon (execAnd f s) := by
  simp -implicitDefEqProofs [execAnd, *]

@[simp] theorem execOr_canon {s : State} (h : Canon s.mem) (f : Fields) : NextCanon (execOr f s) := by
  simp -implicitDefEqProofs [execOr, *]

@[simp] theorem execXor_canon {s : State} (h : Canon s.mem) (f : Fields) : NextCanon (execXor f s) := by
  simp -implicitDefEqProofs [execXor, *]

@[simp] theorem execAndn_canon {s : State} (h : Canon s.mem) (f : Fields) : NextCanon (execAndn f s) := by
  simp -implicitDefEqProofs [execAndn, *]

@[simp] theorem execNot_canon {s : State} (h : Canon s.mem) (f : Fields) : NextCanon (execNot f s) := by
  simp -implicitDefEqProofs [execNot, *]

@[simp] theorem execShl_canon {s : State} (h : Canon s.mem) (f : Fields) : NextCanon (execShl f s) := by
  simp -implicitDefEqProofs [execShl, *]

@[simp] theorem execShr_canon {s : State} (h : Canon s.mem) (f : Fields) : NextCanon (execShr f s) := by
  simp -implicitDefEqProofs [execShr, *]

@[simp] theorem execSar_canon {s : State} (h : Canon s.mem) (f : Fields) : NextCanon (execSar f s) := by
  simp -implicitDefEqProofs [execSar, *]

@[simp] theorem execRot_canon {s : State} (h : Canon s.mem) (f : Fields) : NextCanon (execRot f s) := by
  simp -implicitDefEqProofs [execRot, *]

@[simp] theorem execPopc_canon {s : State} (h : Canon s.mem) (f : Fields) : NextCanon (execPopc f s) := by
  simp -implicitDefEqProofs [execPopc, *]

@[simp] theorem execClz_canon {s : State} (h : Canon s.mem) (f : Fields) : NextCanon (execClz f s) := by
  simp -implicitDefEqProofs [execClz, *]

@[simp] theorem execCtz_canon {s : State} (h : Canon s.mem) (f : Fields) : NextCanon (execCtz f s) := by
  simp -implicitDefEqProofs [execCtz, *]

@[simp] theorem execBrev_canon {s : State} (h : Canon s.mem) (f : Fields) : NextCanon (execBrev f s) := by
  simp -implicitDefEqProofs [execBrev, *]

@[simp] theorem execBfx_canon {s : State} (h : Canon s.mem) (f : Fields) : NextCanon (execBfx f s) := by
  simp -implicitDefEqProofs [execBfx, *]

@[simp] theorem execBfi_canon {s : State} (h : Canon s.mem) (f : Fields) : NextCanon (execBfi f s) := by
  simp -implicitDefEqProofs [execBfi, *]

@[simp] theorem execLea_canon {s : State} (h : Canon s.mem) (f : Fields) : NextCanon (execLea f s) := by
  simp -implicitDefEqProofs [execLea, *]

@[simp] theorem execSel_canon {s : State} (h : Canon s.mem) (f : Fields) : NextCanon (execSel f s) := by
  simp -implicitDefEqProofs [execSel, *]

@[simp] theorem execMov_canon {s : State} (h : Canon s.mem) (f : Fields) : NextCanon (execMov f s) := by
  simp -implicitDefEqProofs [execMov, *]

@[simp] theorem execSetp_canon {s : State} (h : Canon s.mem) (f : Fields) : NextCanon (execSetp f s) := by
  simp -implicitDefEqProofs [execSetp, *]

@[simp] theorem execPlog_canon {s : State} (h : Canon s.mem) (f : Fields) : NextCanon (execPlog f s) := by
  simp -implicitDefEqProofs [execPlog, *]

@[simp] theorem execAddx_canon {s : State} (h : Canon s.mem) (f : Fields) : NextCanon (execAddx f s) := by
  simp -implicitDefEqProofs [execAddx, *]

@[simp] theorem execIdp4_canon {s : State} (h : Canon s.mem) (f : Fields) : NextCanon (execIdp4 f s) := by
  simp -implicitDefEqProofs [execIdp4, *]

@[simp] theorem State.modLanes_mem {s : State} (a : AgentId) (lanes : List Nat) (f : Nat → LaneRec → LaneRec) :
    (State.modLanes s a lanes f).mem = s.mem := by
  simp -implicitDefEqProofs [State.modLanes]

@[simp] theorem execNop_canon {s : State} (h : Canon s.mem) (f : Fields) : NextCanon (execNop f s) := by
  simp -implicitDefEqProofs [execNop, *]

@[simp] theorem execJ_canon {s : State} (h : Canon s.mem) (f : Fields) : NextCanon (execJ f s) := by
  simp only [execJ]
  simp +contextual -implicitDefEqProofs [*]

@[simp] theorem execJr_canon {s : State} (h : Canon s.mem) (f : Fields) : NextCanon (execJr f s) := by
  simp only [execJr]
  simp +contextual -implicitDefEqProofs [*]

@[simp] theorem pushLink_canon {s : State} (h : Canon s.mem) (b : Beat) (i : Nat) : Canon (pushLink s b i).mem := by
  simp -implicitDefEqProofs [pushLink, *]

@[simp] theorem seqFault_canon (l w x) : OutCanon (seqFault l w x) := by
  cases x <;> simp [seqFault]
@[simp] theorem callBody_canon {s : State} (h : Canon s.mem) (target b) : OutCanon (callBody target b s) := by
  unfold callBody
  extract_lets deep
  split
  · simp
  · split
    · simp
    · rw [OutCanon_done]
      exact foldl_canon h fun u i hu => by simp -implicitDefEqProofs [hu]

@[simp] theorem execCall_canon {s : State} (h : Canon s.mem) (f : Fields) : NextCanon (execCall f s) := by
  simp only [execCall]
  simp +contextual -implicitDefEqProofs [*]

@[simp] theorem execCallr_canon {s : State} (h : Canon s.mem) (f : Fields) : NextCanon (execCallr f s) := by
  simp only [execCallr]
  simp +contextual -implicitDefEqProofs [*]

@[simp] theorem execRet_canon {s : State} (h : Canon s.mem) (f : Fields) : NextCanon (execRet f s) := by
  unfold execRet
  refine issueBeat_canon h fun b u hu => ?_
  extract_lets top
  (repeat' split) <;> simp -implicitDefEqProofs [hu]

@[simp] theorem execExit_canon {s : State} (h : Canon s.mem) (f : Fields) : NextCanon (execExit f s) := by
  simp only [execExit]
  simp +contextual -implicitDefEqProofs [*]

@[simp] theorem State.yieldRank_mem {s : State} (a : AgentId) : (State.yieldRank s a).mem = s.mem := by
  simp -implicitDefEqProofs [State.yieldRank]

@[simp] theorem State.yieldPoint_mem {s : State} (a : AgentId) : (State.yieldPoint s a).mem = s.mem := by
  simp -implicitDefEqProofs [State.yieldPoint]

@[simp] theorem execYield_canon {s : State} (h : Canon s.mem) (f : Fields) : NextCanon (execYield f s) := by
  simp -implicitDefEqProofs [execYield, *]

@[simp] theorem execWtok_canon {s : State} (h : Canon s.mem) (f : Fields) : NextCanon (execWtok f s) := by
  simp -implicitDefEqProofs [execWtok, *]

@[simp] theorem State.waitAt_mem {s0 : State} (b : Beat) : (State.waitAt s0 b).mem = s0.mem := by
  simp -implicitDefEqProofs [State.waitAt]

@[simp] theorem execBar_canon {s : State} (h : Canon s.mem) (f : Fields) : NextCanon (execBar f s) := by
  simp -implicitDefEqProofs [execBar, *]

@[simp] theorem State.arriveNamed_canon {s : State} (h : Canon s.mem) (b : Beat) (waits : Bool) : Canon (State.arriveNamed s b waits).mem := by
  simp -implicitDefEqProofs [State.arriveNamed, *]

@[simp] theorem execBarn_canon {s : State} (h : Canon s.mem) (f : Fields) : NextCanon (execBarn f s) := by
  simp -implicitDefEqProofs [execBarn, *]

@[simp] theorem execBara_canon {s : State} (h : Canon s.mem) (f : Fields) : NextCanon (execBara f s) := by
  simp only [execBara]
  simp +contextual -implicitDefEqProofs [*]

@[simp] theorem stopAfter_canon {s : State} (h : Canon s.mem) (code : Byte) (b : Beat) : OutCanon (stopAfter code b s) := by
  simp -implicitDefEqProofs [stopAfter, *]

@[simp] theorem execTrap_canon {s : State} (h : Canon s.mem) (f : Fields) : NextCanon (execTrap f s) := by
  simp only [execTrap]
  simp +contextual -implicitDefEqProofs [*]

@[simp] theorem State.logPut_canon {s : State} (h : Canon s.mem) (team : Nat) (r : Nguxis) : Canon (State.logPut s team r).mem := by
  simp only [State.logPut]
  (repeat' split) <;> simp +contextual -implicitDefEqProofs [*]

@[simp] theorem State.traceBreak_canon {s : State} (h : Canon s.mem) (t : Team) (who : Nat) (x : Agent) (tag : W32) (lanes : LaneMask) :
    Canon (State.traceBreak s t who x tag lanes).mem := by
  simp only [State.traceBreak]
  (repeat' split) <;> simp +contextual -implicitDefEqProofs [*]

@[simp] theorem State.breakReplay_canon {s : State} (h : Canon s.mem) (a : AgentId) (t : Team) (x : Agent) (lanes : LaneMask) :
    Canon (State.breakReplay s a t x lanes).mem := by
  simp -implicitDefEqProofs [State.breakReplay, *]

@[simp] theorem replayStop_canon {s : State} (h : Canon s.mem) (b : Beat) : OutCanon (replayStop b s) := by
  simp -implicitDefEqProofs [replayStop, *]

@[simp] theorem execBrk_canon {s : State} (h : Canon s.mem) (f : Fields) : NextCanon (execBrk f s) := by
  unfold execBrk
  refine issueBeat_canon h fun b u hu => ?_
  (repeat' split) <;> simp +contextual -implicitDefEqProofs [*]

@[simp] theorem State.touchTlb_mem {s : State} (b : Beat) (p : Place) : (State.touchTlb s b p).mem = s.mem := by
  simp -implicitDefEqProofs [State.touchTlb]

@[simp] theorem State.modQueue_mem {s : State} (part : Nat) (q : Nat) (f : HostQ → HostQ) : (State.modQueue s part q f).mem = s.mem := by
  simp -implicitDefEqProofs [State.modQueue]

@[simp] theorem State.packetDone_mem {s : State} (part : Nat) (q : Nat) (idx : Nat) : (State.packetDone s part q idx).mem = s.mem := by
  simp -implicitDefEqProofs [State.packetDone]

@[simp] theorem State.queueStop_canon {s : State} (h : Canon s.mem) (part : Nat) (q : Nat) (code : Byte) (failed : Option Nat) (cause : Nat) :
    Canon (State.queueStop s part q code failed cause).mem := by
  simp -implicitDefEqProofs [State.queueStop, *]

@[simp] theorem State.takeSeq_mem {s : State} (a : AgentId) : (State.takeSeq s a).mem = s.mem := by
  simp only [State.takeSeq]
  (repeat' split) <;> simp +contextual -implicitDefEqProofs [*]

@[simp] theorem State.tokenUp_mem {s : State} (team : Nat) (k : Nat) : (State.tokenUp s team k).mem = s.mem := by
  simp -implicitDefEqProofs [State.tokenUp]

end Sys2Proof.Machine
end

section
/-! Memory stays canonical: engine commands, copies, loads and stores. -/

namespace Sys2Proof.Machine

@[simp] theorem State.tokenDown_mem {s : State} (team : Nat) (k : Nat) : (State.tokenDown s team k).mem = s.mem := by
  simp -implicitDefEqProofs [State.tokenDown]

@[simp] theorem State.modCmd_mem {s : State} (n : Nat) (f : Cmd → Cmd) : (State.modCmd s n f).mem = s.mem := by
  simp -implicitDefEqProofs [State.modCmd]

theorem State.readLine_mem {s u : State} {n l : Nat} (e : s.readLine n l = .ok u) : u.mem = s.mem := by
  revert e
  unfold State.readLine
  (repeat' split) <;> intro e <;> cases e <;> simp -implicitDefEqProofs

theorem State.readLines_mem {s u : State} {n : Nat} {ls : List Nat} (e : s.readLines n ls = .ok u) : u.mem = s.mem := by
  induction ls generalizing s with
  | nil => cases e; rfl
  | cons l ls ih =>
    simp only [State.readLines] at e
    split at e
    · exact (ih e).trans (State.readLine_mem ‹_›)
    · cases e

@[simp] theorem State.readMasks_mem {s : State} (n : Nat) (kind : CmdKind) : (State.readMasks s n kind).mem = s.mem := by
  unfold State.readMasks
  (repeat' split) <;> first | rfl | exact State.readLines_mem ‹_›

@[simp] theorem State.startCmd_mem {s : State} (cluster : Nat) (n : Nat) : (State.startCmd s cluster n).mem = s.mem := by
  simp only [State.startCmd]
  (repeat' split) <;> simp +contextual -implicitDefEqProofs [*]

@[simp] theorem State.addCmd_mem {s : State} (c : Cmd) : (State.addCmd s c).mem = s.mem := by
  simp -implicitDefEqProofs [State.addCmd]

theorem issueCommand_canon {s0 s : State} (h0 : Canon s0.mem) (h : Canon s.mem) (b : Beat) (token mk : State → State)
    (htoken : ∀ u : State, Canon u.mem → Canon (token u).mem) (hmk : ∀ u : State, Canon u.mem → Canon (mk u).mem) (c : State → Cmd) :
    OutCanon (issueCommand s0 s b token mk c) := by
  unfold issueCommand
  extract_lets s1 k s2
  have h1 : Canon s1.mem := hmk s h
  have h2 : Canon s2.mem := htoken s0 h0
  split <;> simp -implicitDefEqProofs [h1, h2]

@[simp] theorem issuedBefore_canon {s : State} (h : Canon s.mem) (b : Beat) (first : Out) (hfirst : OutCanon first) :
    OutCanon (issuedBefore s b first) := by
  simp only [issuedBefore]
  (repeat' split) <;> simp +contextual -implicitDefEqProofs [*]

@[simp] theorem State.hostWrote_mem {s : State} (c : Cmd) (k : Option Nat) : (State.hostWrote s c k).mem = s.mem := by
  simp only [State.hostWrote]
  (repeat' split) <;> simp +contextual -implicitDefEqProofs [*]

@[simp] theorem State.hostWrite_canon {s : State} (h : Canon s.mem) (c : Cmd) (p : Place) (bs : List Byte) :
    Canon (State.hostWrite s c p bs).mem := by
  simp -implicitDefEqProofs [State.hostWrite, *]

@[simp] theorem State.hostPutFrom_canon {s : State} (h : Canon s.mem) (c addr bs n) : OptCanon (s.hostPutFrom c addr bs n) := by
  induction n generalizing s addr bs with
  | zero => simpa [State.hostPutFrom] using h
  | succ n ih =>
    simp only [State.hostPutFrom]
    (repeat' split) <;> simp -implicitDefEqProofs [*]

@[simp] theorem State.hostPut_canon {s : State} (h : Canon s.mem) (part : Nat) (asid : Nat) (q : Nat) (idx : Nat) (addr : W64) (bs : List Byte) :
    OptCanon (State.hostPut s part asid q idx addr bs) := by
  simp -implicitDefEqProofs [State.hostPut, *]

@[simp] theorem State.engWrite_canon {s : State} (h : Canon s.mem) (n : Nat) (p : Place) (bs : List Byte) : Canon (State.engWrite s n p bs).mem := by
  simp -implicitDefEqProofs [State.engWrite, *]

@[simp] theorem State.engWriteRuns_canon {s : State} (h : Canon s.mem) (n : Nat) (p : Place) (rs : List (Nat × List Byte)) :
    Canon (State.engWriteRuns s n p rs).mem := by
  simp only [State.engWriteRuns]
  (repeat' split) <;> simp +contextual -implicitDefEqProofs [*]

@[simp] theorem State.dropCmd_mem {s : State} (n : Nat) : (State.dropCmd s n).mem = s.mem := by
  simp only [State.dropCmd]
  (repeat' split) <;> simp +contextual -implicitDefEqProofs [*]

@[simp] theorem State.completeCmd_mem {s : State} (n : Nat) (c : Cmd) (eng : Nat) (status : Nat) :
    (State.completeCmd s n c eng status).mem = s.mem := by
  simp only [State.completeCmd]
  (repeat' split) <;> simp +contextual -implicitDefEqProofs [*]

@[simp] theorem State.failCmd_canon {s : State} (h : Canon s.mem) (n : Nat) (c : Cmd) (eng : Nat) (cause : Nat) :
    Canon (State.failCmd s n c eng cause).mem := by
  simp only [State.failCmd]
  (repeat' split) <;> simp +contextual -implicitDefEqProofs [*]

@[simp] theorem State.parkCmd_canon {s : State} (h : Canon s.mem) (n : Nat) (c : Cmd) (eng : Nat) (code : Byte) (addr : Nat) (page : Nat) (watch : Bool) (write : Bool) (refuse : State → State) (hrefuse : ∀ u : State, Canon u.mem → Canon (refuse u).mem) :
    Canon (State.parkCmd s n c eng code addr page watch write refuse).mem := by
  simp only [State.parkCmd]
  (repeat' split) <;> simp +contextual -implicitDefEqProofs [*]

@[simp] theorem State.engWatched_canon {s : State} (h : Canon s.mem) (n : Nat) (eng : Nat) (tag : Nat) (loc : Nat) (rs : List (Nat × List Byte)) (refuse : State → State) (hrefuse : ∀ u : State, Canon u.mem → Canon (refuse u).mem) :
    Canon (State.engWatched s n eng tag loc rs refuse).mem := by
  simp only [State.engWatched]
  (repeat' split) <;> simp +contextual -implicitDefEqProofs [*]

@[simp] theorem State.endCmd_canon {s : State} (h : Canon s.mem) (n c cause) {fail : State → State} (hf : ∀ u : State, Canon u.mem → Canon (fail u).mem) :
    Canon (s.endCmd n c cause fail).mem := by
  unfold State.endCmd
  split <;> simp -implicitDefEqProofs [*]
@[simp] theorem issueFault_canon (b c) : OutCanon (issueFault b c) := OutCanon_fault _

@[simp] theorem arriveSlice_mem {s : State} (b : Beat) (c : CopySlice) (mask : Nat) : (arriveSlice s b c mask).1.mem = s.mem := by
  simp -implicitDefEqProofs [arriveSlice]

@[simp] theorem cpslArrive_canon {s0 s : State} (h : Canon s0.mem) (h1 : Canon s.mem) (b : Beat) (c : CopySlice) (n : Nat) (tok : Nat) (mask : Nat) :
    OutCanon (cpslArrive s0 b s c n tok mask) := by
  unfold cpslArrive
  extract_lets id old mk k sl
  have hm : ∀ u : State, Canon u.mem → Canon (mk u).mem := fun u hu => by
    unfold mk
    extract_lets u1
    rw [State.modTeam_mem]
    rw [arriveSlice_mem]
    unfold u1
    split <;> simp -implicitDefEqProofs [hu]
  split
  · exact issueCommand_canon h h1 _ _ _ hm hm _
  · exact (OutCanon_done _).mpr (hm s h1)

@[simp] theorem execCpsl_canon {s : State} (h : Canon s.mem) (f : Fields) : NextCanon (execCpsl f s) := by
  unfold execCpsl
  refine issueBeat_canon h fun b u hu => ?_
  extract_lets
  (repeat' split) <;> simp -implicitDefEqProofs [*]

@[simp] theorem execCpc_canon {s : State} (h : Canon s.mem) (f : Fields) : NextCanon (execCpc f s) := by
  unfold execCpc
  refine issueBeat_canon h fun b u hu => ?_
  extract_lets mask c tok mk kept
  have hm : ∀ v : State, Canon v.mem → Canon (mk v).mem := fun v hv => by simp -implicitDefEqProofs [mk, hv]
  split
  · simpa using hu
  · refine issuedBefore_canon hu _ _ ?_
    (repeat' split) <;> first | exact issueFault_canon _ _ | exact issueCommand_canon h hu _ _ _ hm hm _

theorem copyData_mem {s : State} {n k l d} (e : copyData s n k l = .ok d) : d.2.mem = s.mem := by
  unfold copyData at e
  extract_lets rows at e
  split at e
  · cases e
  split at e
  · cases e
  have e1 := (State.readLines_mem ‹_›).trans (State.readLines_mem ‹_›)
  split at e <;> cases e <;> exact e1

@[simp] theorem releaseLines_canon {s : State} (h : Canon s.mem) (c : Cmd) (k : CopyCmd) : Canon (releaseLines s c k).mem := by
  unfold releaseLines
  (repeat' split) <;> try exact h
  refine foldl_canon h fun u e hu => ?_
  split <;> simp -implicitDefEqProofs [hu]

@[simp] theorem failCopy_canon {s : State} (h : Canon s.mem) (n : Nat) (c : Cmd) (k : CopyCmd) (cause : Nat) :
    Canon (failCopy s n c k cause).mem := by
  simp -implicitDefEqProofs [failCopy, *]

@[simp] theorem writeRuns_canon {s : State} (h : Canon s.mem) (n : Nat) (c : Cmd) (k : CopyCmd) (tag : Nat) (p : Place) (rs : List (Nat × List Byte)) :
    Canon (writeRuns s n c k tag p rs).mem := by
  unfold writeRuns
  refine State.engWatched_canon ?_ _ _ _ _ _ _ fun u hu => State.endCmd_canon hu _ _ _ fun v hv => failCopy_canon hv _ _ _ _
  split <;> simp -implicitDefEqProofs [h]

@[simp] theorem landCopy_canon {s : State} (h : Canon s.mem) (n : Nat) (c : Cmd) (k : CopyCmd) (key : Nat) : Canon (landCopy s n c k key).mem := by
  unfold landCopy
  extract_lets ls line
  (repeat' split) <;> try exact h
  refine writeRuns_canon ?_ _ _ _ _ _ _
  rename_i e
  rw [State.setKind_mem]
  exact (copyData_mem e).symm ▸ h

@[simp] theorem landRead_canon {s : State} (h : Canon s.mem) (n : Nat) (key : Nat) : Canon (landRead s n key).mem := by
  simp only [landRead]
  (repeat' split) <;> simp +contextual -implicitDefEqProofs [*]

@[simp] theorem landAllRead_canon {s : State} (h : Canon s.mem) (n : Nat) : Canon (landAllRead s n).mem := by
  simp only [landAllRead]
  (repeat' split) <;> simp +contextual -implicitDefEqProofs [*]

@[simp] theorem execCopyComplete_canon {s : State} (h : Canon s.mem) (cmd : Nat) : NextCanon (execCopyComplete cmd s) := by
  simp only [execCopyComplete]
  (repeat' split) <;> simp +contextual -implicitDefEqProofs [*]

@[simp] theorem execCopyFault_canon {s : State} (h : Canon s.mem) (cmd : Nat) (line : Nat) : NextCanon (execCopyFault cmd line s) := by
  unfold execCopyFault
  split
  · split <;> simp -implicitDefEqProofs [h]
  (repeat' split) <;> rw [NextCanon_next] <;> try exact h
  · exact State.endCmd_canon h _ _ _ fun v hv => failCopy_canon hv _ _ _ _
  · exact State.parkCmd_canon h _ _ _ _ _ _ _ _ _ fun u hu => State.endCmd_canon hu _ _ _ fun v hv => failCopy_canon hv _ _ _ _

@[simp] theorem loadLane_canon {s : State} (h : Canon s.mem) (b : Beat) (n : Nat) (q : Passed) : Canon (loadLane b n s q).mem := by
  simp -implicitDefEqProofs [loadLane, *]

@[simp] theorem execLd_canon {s : State} (h : Canon s.mem) (f : Fields) : NextCanon (execLd f s) := by
  unfold execLd
  refine issueBeat_canon h fun b u hu => ?_
  extract_lets
  (repeat' split) <;> first | exact checkAll_canon ‹_› | simp +contextual -implicitDefEqProofs [*]

@[simp] theorem storeLane_canon {s : State} (h : Canon s.mem) (b : Beat) (q : Passed) : Canon (storeLane b s q).mem := by
  simp -implicitDefEqProofs [storeLane, *]

@[simp] theorem execSt_canon {s : State} (h : Canon s.mem) (f : Fields) : NextCanon (execSt f s) := by
  unfold execSt
  refine issueBeat_canon h fun b u hu => ?_
  extract_lets
  (repeat' split) <;> first | exact checkAll_canon ‹_› | simp +contextual -implicitDefEqProofs [*]

@[simp] theorem atomLane_canon {s : State} (h : Canon s.mem) (b : Beat) (cas : Bool) (q : Passed) : Canon (atomLane b cas s q).mem := by
  simp -implicitDefEqProofs [atomLane, *]

@[simp] theorem replayLane_canon {s : State} (h : Canon s.mem) (b : Beat) (cas : Bool) (q : Passed) (v : W64) :
    Canon (replayLane b cas s q v).mem := by
  simp -implicitDefEqProofs [replayLane, *]

end Sys2Proof.Machine
end

section
/-! Memory stays canonical: atomics, cache forms and the issue of gathers and scatters. -/

namespace Sys2Proof.Machine

theorem State.logTake_mem {s u : State} {a x k l vs} (e : s.logTake a x k l = .taken vs u) : u.mem = s.mem := by
  induction l generalizing s vs with
  | nil => cases e; rfl
  | cons n l ih =>
    simp only [State.logTake] at e
    split at e
    · cases e
    · split at e
      · split at e
        · rename_i e1
          cases e
          exact (ih e1).trans (State.modTeam_mem _ _ _)
        · rename_i ho
          exact absurd e (ho _ _)
      · split at e <;> cases e
@[simp] theorem atomBody_canon {s0 s : State} (h : Canon s0.mem) (h1 : Canon s.mem) (acc : Access) (cas : Bool) (b : Beat) :
    OutCanon (atomBody s0 acc cas b s) := by
  unfold atomBody
  extract_lets
  (repeat' split) <;> try simp -implicitDefEqProofs [h, h1]
  · exact checkAll_canon ‹_›
  · rename_i e
    refine foldl_canon (State.logTake_mem e ▸ h1) fun u q hu => by simp -implicitDefEqProofs [hu]
  · exact foldl_canon h1 fun u q hu => by simp -implicitDefEqProofs [hu]

@[simp] theorem execAtom_canon {s : State} (h : Canon s.mem) (f : Fields) : NextCanon (execAtom f s) := by
  simp only [execAtom]
  simp +contextual -implicitDefEqProofs [*]

@[simp] theorem execCas_canon {s : State} (h : Canon s.mem) (f : Fields) : NextCanon (execCas f s) := by
  simp only [execCas]
  simp +contextual -implicitDefEqProofs [*]

@[simp] theorem redLane_canon {s : State} (h : Canon s.mem) (b : Beat) (q : Passed) : Canon (redLane b s q).mem := by
  simp -implicitDefEqProofs [redLane, *]

@[simp] theorem execRed_canon {s : State} (h : Canon s.mem) (f : Fields) : NextCanon (execRed f s) := by
  unfold execRed
  refine issueBeat_canon h fun b u hu => ?_
  extract_lets
  (repeat' split) <;> first | exact checkAll_canon ‹_› | simp +contextual -implicitDefEqProofs [*]

@[simp] theorem execFence_canon {s : State} (h : Canon s.mem) (f : Fields) : NextCanon (execFence f s) := by
  simp only [execFence]
  simp +contextual -implicitDefEqProofs [*]

@[simp] theorem prefLane_mem {s : State} (b : Beat) (lane : Nat) : (prefLane b s lane).mem = s.mem := by
  simp only [prefLane]
  (repeat' split) <;> simp +contextual -implicitDefEqProofs [*]

@[simp] theorem execPref_canon {s : State} (h : Canon s.mem) (f : Fields) : NextCanon (execPref f s) := by
  simp -implicitDefEqProofs [execPref, *]

@[simp] theorem zeroLane_canon {s : State} (h : Canon s.mem) (b : Beat) (q : Passed) : Canon (zeroLane b s q).mem := by
  simp -implicitDefEqProofs [zeroLane, *]

@[simp] theorem relxLane_mem {s : State} (b : Beat) (q : Passed) : (relxLane b s q).mem = s.mem := by
  simp -implicitDefEqProofs [relxLane]

@[simp] theorem dropLane_mem {s : State} (b : Beat) (q : Passed) : (dropLane b s q).mem = s.mem := by
  simp -implicitDefEqProofs [dropLane]

@[simp] theorem State.dropContext_mem {s : State} (cluster : Nat) (part : Nat) (asid : Nat) :
    (State.dropContext s cluster part asid).mem = s.mem := by
  simp -implicitDefEqProofs [State.dropContext]

@[simp] theorem execCctl_canon {s : State} (h : Canon s.mem) (f : Fields) : NextCanon (execCctl f s) := by
  unfold execCctl
  refine issueBeat_canon h fun b u hu => ?_
  extract_lets
  (repeat' split) <;> first | exact checkAll_canon ‹_› | simp +contextual -implicitDefEqProofs [*]

@[simp] theorem execTestp_canon {s : State} (h : Canon s.mem) (f : Fields) : NextCanon (execTestp f s) := by
  unfold execTestp
  refine issueBeat_canon h fun b u hu => ?_
  extract_lets
  (repeat' split) <;> first | exact checkAll_canon ‹_› | simp +contextual -implicitDefEqProofs [*]

@[simp] theorem geBegin_mem {u : State} (b : Beat) (g : GeArgs) (e : Handle) : (geBegin b g e u).mem = u.mem := by
  simp -implicitDefEqProofs [geBegin]

@[simp] theorem geIssue_canon {s0 s : State} (h : Canon s0.mem) (h1 : Canon s.mem) (kind : Nat) (b : Beat) : OutCanon (geIssue kind s0 b s) := by
  unfold geIssue
  extract_lets g e token
  have ht : ∀ v : State, Canon v.mem → Canon (token v).mem := fun v hv => by simp -implicitDefEqProofs [token, hv]
  split
  · simpa using h1
  · refine issuedBefore_canon h1 _ _ ?_
    split
    · exact issueFault_canon _ _
    · exact issueCommand_canon h h1 _ _ _ ht (fun v hv => by rw [geBegin_mem]; exact ht v hv) _

@[simp] theorem geGrant_canon {s : State} (h : Canon s.mem) (kind : Nat) (b : Beat) (n : Nat) : Canon (geGrant kind s b n).mem := by
  unfold geGrant
  extract_lets g e s1 t
  have h1 : Canon s1.mem := by simpa [s1] using h
  clear_value s1
  split
  · exact State.conclude_canon (by rw [State.modAgent_mem]; exact h1) _ _ _ (issueFault_canon _ _)
  · split
    · rw [State.startCmd_mem]
      have h2 : Canon (geBegin b g e s).mem := by rw [geBegin_mem]; exact h
      exact h2
    · exact h

@[simp] theorem execGath_canon {s : State} (h : Canon s.mem) (f : Fields) : NextCanon (execGath f s) := by
  simp only [execGath]
  simp +contextual -implicitDefEqProofs [*]

@[simp] theorem execScat_canon {s : State} (h : Canon s.mem) (f : Fields) : NextCanon (execScat f s) := by
  simp only [execScat]
  simp +contextual -implicitDefEqProofs [*]

@[simp] theorem execScata_canon {s : State} (h : Canon s.mem) (f : Fields) : NextCanon (execScata f s) := by
  simp only [execScata]
  simp +contextual -implicitDefEqProofs [*]

end Sys2Proof.Machine
end

section
/-! Memory stays canonical: running gathers and scatters, group operations and special registers. -/

namespace Sys2Proof.Machine

theorem readList_mem {s : State} {n g g1 u} (e : readList s n g = .ok (g1, u)) : u.mem = s.mem := by
  unfold readList at e
  split at e
  · cases e; rfl
  · split at e
    · cases e
    · cases e
      rw [State.setKind_mem]
      exact State.readLines_mem ‹_›

theorem geSource_mem {s : State} {n c g p bs u} (e : geSource s n c g p = .ok (bs, u)) : u.mem = s.mem := by
  unfold geSource at e
  (repeat' split at e) <;> cases e <;> first | rfl | exact State.readLines_mem ‹_› | simp -implicitDefEqProofs

theorem readGePart_mem {s : State} {n c g p bs g1 u} (e : readGePart s n c g p = .ok (bs, g1, u)) : u.mem = s.mem := by
  unfold readGePart at e
  (repeat' split at e) <;> cases e
  · rfl
  · rw [State.setKind_mem]
    exact geSource_mem ‹_›

@[simp] theorem laneCheck_canon {b s o l fe o2} (h : OutCanon o2) : OutCanon (laneCheck b s o l fe o2) := by
  unfold laneCheck
  (repeat' split) <;> simp [h]
@[simp] theorem writeSpanFrom_canon {s : State} (h : Canon s.mem) (n c addr bs fuel) : OptCanon (writeSpanFrom s n c addr bs fuel) := by
  induction fuel generalizing s addr bs with
  | zero => simpa [writeSpanFrom] using h
  | succ m ih =>
    simp only [writeSpanFrom]
    (repeat' split) <;> simp -implicitDefEqProofs [*]

@[simp] theorem writeSpan_canon {s : State} (h : Canon s.mem) (n : Nat) (c : Cmd) (addr : W64) (bs : List Byte) :
    OptCanon (writeSpan s n c addr bs) := by
  simp -implicitDefEqProofs [writeSpan, *]

@[simp] theorem gePresent_mem {s : State} (c : Cmd) (g : GeCmd) (lines : List Nat) : (gePresent s c g lines).mem = s.mem := by
  simp only [gePresent]
  (repeat' split) <;> simp +contextual -implicitDefEqProofs [*]

@[simp] theorem landGeLine_canon {s : State} (h : Canon s.mem) (n : Nat) (c : Cmd) (g : GeCmd) (line : Nat) :
    Canon (landGeLine n c g s line).mem := by
  simp only [landGeLine]
  (repeat' split) <;> simp +contextual -implicitDefEqProofs [*]

@[simp] theorem geRelease_mem {s : State} (c : Cmd) (g : GeCmd) : (geRelease s c g).mem = s.mem := by
  simp only [geRelease]
  (repeat' split) <;> simp +contextual -implicitDefEqProofs [*]

@[simp] theorem failGe_canon {s : State} (h : Canon s.mem) (n : Nat) (c : Cmd) (g : GeCmd) (cause : Nat) : Canon (failGe s n c g cause).mem := by
  simp -implicitDefEqProofs [failGe, *]

@[simp] theorem geWatched_canon {s : State} (h : Canon s.mem) (n : Nat) (c : Cmd) (q : W64) (bs : List Byte) (refuse : State → State) (hrefuse : ∀ u : State, Canon u.mem → Canon (refuse u).mem) :
    Canon (geWatched s n c q bs refuse).mem := by
  simp only [geWatched]
  simp +contextual -implicitDefEqProofs [*]

@[simp] theorem endGe_canon {s : State} (h : Canon s.mem) (n : Nat) (c : Cmd) (g : GeCmd) (cause : Nat) (done : Nat) :
    Canon (endGe s n c g cause done).mem := by
  unfold endGe
  extract_lets bs s1 s2 s3
  have h1 : Canon s1.mem := by
    unfold s1
    split
    · exact OptCanon.getD (writeSpan_canon h _ _ _ _) h
    · exact h
  have h3 : Canon s3.mem := by
    unfold s3
    split <;> simp -implicitDefEqProofs +contextual [s2, h1]
  clear_value s3
  (repeat' split) <;> simp -implicitDefEqProofs [h3]

@[simp] theorem refuseGe_canon {s : State} (h : Canon s.mem) (n : Nat) (c : Cmd) (g : GeCmd) (cause : Nat) : Canon (refuseGe s n c g cause).mem := by
  simp -implicitDefEqProofs [refuseGe, *]

@[simp] theorem writePart_canon {s : State} (h : Canon s.mem) (n : Nat) (c : Cmd) (g : GeCmd) (p : GePart) (bs : List Byte) :
    Canon (writePart s n c g p bs).mem := by
  simp only [writePart]
  (repeat' split) <;> simp +contextual -implicitDefEqProofs [*]

@[simp] theorem landStatus_canon {s : State} (h : Canon s.mem) (n : Nat) (c : Cmd) (g : GeCmd) (key : Nat) : Canon (landStatus s n c g key).mem := by
  unfold landStatus
  split
  case h_2 => exact h
  split
  · exact h
  · extract_lets
    split
    case h_2 => exact h
    rename_i e
    have h1 := OptCanon.of_some (writeSpan_canon (by rw [State.setKind_mem]; exact h) _ _ _ _) e
    extract_lets
    refine geWatched_canon ?_ _ _ _ _ _ fun u hu => State.endCmd_canon hu _ _ _ fun v hv => failGe_canon hv _ _ _ _
    rw [gePresent_mem]
    exact h1

@[simp] theorem landGe_canon {s : State} (h : Canon s.mem) (n : Nat) (c : Cmd) (g0 : GeCmd) (key : Nat) : Canon (landGe s n c g0 key).mem := by
  unfold landGe
  split
  · exact h
  rename_i e
  have h1 := readList_mem e ▸ h
  (repeat' split) <;> try simp -implicitDefEqProofs [h1]
  rename_i e2
  exact writePart_canon (readGePart_mem e2 ▸ h1) _ _ _ _ _

@[simp] theorem execGeComplete_canon {s : State} (h : Canon s.mem) (cmd : Nat) : NextCanon (execGeComplete cmd s) := by
  simp only [execGeComplete]
  (repeat' split) <;> simp +contextual -implicitDefEqProofs [*]

@[simp] theorem execGeFault_canon {s : State} (h : Canon s.mem) (cmd : Nat) : NextCanon (execGeFault cmd s) := by
  simp only [execGeFault]
  (repeat' split) <;> simp +contextual -implicitDefEqProofs [*]

@[simp] theorem groupDone_canon {s : State} (h : Canon s.mem) (b : Beat) (long : Bool) (ws : List RegWrite) (fl : FpFlags) :
    OutCanon (groupDone b long s ws fl) := by
  simp -implicitDefEqProofs [groupDone, *]

@[simp] theorem execShfl_canon {s : State} (h : Canon s.mem) (f : Fields) : NextCanon (execShfl f s) := by
  unfold execShfl
  refine issueBeat_canon h fun b u hu => ?_
  (repeat' split) <;> simp +contextual -implicitDefEqProofs [*]

@[simp] theorem execVote_canon {s : State} (h : Canon s.mem) (f : Fields) : NextCanon (execVote f s) := by
  simp only [execVote]
  simp +contextual -implicitDefEqProofs [*]

@[simp] theorem execGred_canon {s : State} (h : Canon s.mem) (f : Fields) : NextCanon (execGred f s) := by
  simp only [execGred]
  simp +contextual -implicitDefEqProofs [*]

@[simp] theorem execGscan_canon {s : State} (h : Canon s.mem) (f : Fields) : NextCanon (execGscan f s) := by
  simp only [execGscan]
  (repeat' split) <;> simp +contextual -implicitDefEqProofs [*]

@[simp] theorem execRebal_canon {s : State} (h : Canon s.mem) (f : Fields) : NextCanon (execRebal f s) := by
  unfold execRebal
  refine issueBeat_canon h fun b u hu => ?_
  (repeat' split) <;> simp +contextual -implicitDefEqProofs [*]

@[simp] theorem execRdln_canon {s : State} (h : Canon s.mem) (f : Fields) : NextCanon (execRdln f s) := by
  unfold execRdln
  refine issueBeat_canon h fun b u hu => ?_
  (repeat' split) <;> simp +contextual -implicitDefEqProofs [*]

@[simp] theorem execMtch_canon {s : State} (h : Canon s.mem) (f : Fields) : NextCanon (execMtch f s) := by
  simp only [execMtch]
  (repeat' split) <;> simp +contextual -implicitDefEqProofs [*]

@[simp] theorem readTime_canon {s0 s : State} (h : Canon s0.mem) (h1 : Canon s.mem) (b : Beat) : OutCanon (readTime s0 b s) := by
  unfold readTime
  split
  · split
    · exact finishOrPark_canon h (State.logTake_mem ‹_› ▸ h1) _ _ _
    · exact OutCanon_block _
    · exact replayStop_canon h _
  · split
    · exact OutCanon_block _
    · extract_lets v
      have ho := finishOrPark_canon h h1 b false (b.lanes.map fun l => (l, resV v))
      split
      · rename_i e
        rw [e, OutCanon_done] at ho
        rw [OutCanon_done]
        exact foldl_canon ho fun u l hu => by simp -implicitDefEqProofs [hu]
      · exact ho

@[simp] theorem execMfs_canon {s : State} (h : Canon s.mem) (f : Fields) : NextCanon (execMfs f s) := by
  simp only [execMfs]
  (repeat' split) <;> simp +contextual -implicitDefEqProofs [*]

@[simp] theorem execMts_canon {s : State} (h : Canon s.mem) (f : Fields) : NextCanon (execMts f s) := by
  simp only [execMts]
  simp +contextual -implicitDefEqProofs [*]

@[simp] theorem execQstat_canon {s : State} (h : Canon s.mem) (f : Fields) : NextCanon (execQstat f s) := by
  simp only [execQstat]
  (repeat' split) <;> simp +contextual -implicitDefEqProofs [*]

@[simp] theorem resultTo_mem {s : State} (b : Beat) (w : W64) : (resultTo b w s).mem = s.mem := by
  simp -implicitDefEqProofs [resultTo]

end Sys2Proof.Machine
end

section
/-! Memory stays canonical: reservations, the matrix engine and what lands between beats. -/

namespace Sys2Proof.Machine

@[simp] theorem execObres_canon {s : State} (h : Canon s.mem) (f : Fields) : NextCanon (execObres f s) := by
  unfold execObres
  refine issueBeat_canon h fun b u hu => ?_
  extract_lets
  (repeat' split) <;> first | exact checkAll_canon ‹_› | simp +contextual -implicitDefEqProofs [*]

@[simp] theorem execObrel_canon {s : State} (h : Canon s.mem) (f : Fields) : NextCanon (execObrel f s) := by
  simp only [execObrel]
  simp +contextual -implicitDefEqProofs [*]

@[simp] theorem State.serveTiles_mem {s : State} (cl k : Nat) : (s.serveTiles cl k).mem = s.mem := by
  induction k generalizing s with
  | zero => rfl
  | succ k ih =>
    simp only [State.serveTiles]
    (repeat' split) <;> first | rfl | exact ih.trans (State.modTeam_mem _ _ _)

@[simp] theorem State.failTiles_mem {s : State} (cluster : Nat) : (State.failTiles s cluster).mem = s.mem := by
  simp only [State.failTiles]
  (repeat' split) <;> simp +contextual -implicitDefEqProofs [*]

@[simp] theorem execAcallocGrant_canon {s : State} (h : Canon s.mem) (cluster : Nat) : NextCanon (execAcallocGrant cluster s) := by
  simp -implicitDefEqProofs [execAcallocGrant, *]

@[simp] theorem execAcalloc_canon {s : State} (h : Canon s.mem) (f : Fields) : NextCanon (execAcalloc f s) := by
  unfold execAcalloc
  refine issueBeat_canon h fun b u hu => ?_
  split
  · simpa using hu
  split
  · simp only [OutCanon_done, resultTo_mem, State.modTeam_mem, hu]
  extract_lets
  (repeat' split) <;> simp only [OutCanon_done, OutCanon_block, OutCanon_wait, issueFault_canon, resultTo_mem, State.modTeam_mem, State.blockAgent_mem, hu, h]

@[simp] theorem execAcfree_canon {s : State} (h : Canon s.mem) (f : Fields) : NextCanon (execAcfree f s) := by
  simp only [execAcfree]
  simp +contextual -implicitDefEqProofs [*]

@[simp] theorem execQcfg_canon {s : State} (h : Canon s.mem) (f : Fields) : NextCanon (execQcfg f s) := by
  simp only [execQcfg]
  (repeat' split) <;> simp +contextual -implicitDefEqProofs [*]

@[simp] theorem oxBegin_mem {u : State} (b : Beat) (upd : Team → Team) (lines : List Nat) : (oxBegin b upd lines u).mem = u.mem := by
  simp -implicitDefEqProofs [oxBegin]

@[simp] theorem oxIssue_canon {s0 s : State} (h : Canon s0.mem) (h1 : Canon s.mem) (b : Beat) (kind : OxKind) (tile : Nat) (upd : Team → Team) (lines : List Nat) (ranges : List (Nat × Nat × Nat × Bool)) :
    OutCanon (oxIssue s0 b s kind tile upd lines ranges) := by
  unfold oxIssue
  exact issueCommand_canon h h1 _ _ _ (fun v hv => by rw [oxBegin_mem]; exact hv) (fun v hv => by rw [oxBegin_mem]; exact hv) _

@[simp] theorem mmaIssue_canon {s0 s : State} (h : Canon s0.mem) (h1 : Canon s.mem) (grouped : Bool) (b : Beat) :
    OutCanon (mmaIssue grouped s0 b s) := by
  simp only [mmaIssue]
  (repeat' split) <;> simp +contextual -implicitDefEqProofs [*]

@[simp] theorem execMma_canon {s : State} (h : Canon s.mem) (f : Fields) : NextCanon (execMma f s) := by
  simp only [execMma]
  simp +contextual -implicitDefEqProofs [*]

@[simp] theorem execMmag_canon {s : State} (h : Canon s.mem) (f : Fields) : NextCanon (execMmag f s) := by
  simp only [execMmag]
  simp +contextual -implicitDefEqProofs [*]

@[simp] theorem execAczero_canon {s : State} (h : Canon s.mem) (f : Fields) : NextCanon (execAczero f s) := by
  unfold execAczero
  refine issueBeat_canon h fun b u hu => ?_
  (repeat' split) <;> simp +contextual -implicitDefEqProofs [*]

@[simp] theorem execDrain_canon {s : State} (h : Canon s.mem) (f : Fields) : NextCanon (execDrain f s) := by
  unfold execDrain
  refine issueBeat_canon h fun b u hu => ?_
  extract_lets
  (repeat' split) <;> first | exact checkAll_canon ‹_› | simp +contextual -implicitDefEqProofs [*]

@[simp] theorem State.setOx_mem {s : State} (n : Nat) (k : OxCmd) : (State.setOx s n k).mem = s.mem := by
  simp -implicitDefEqProofs [State.setOx]

@[simp] theorem execOxRingRead_canon {s : State} (h : Canon s.mem) (cmd : Nat) : NextCanon (execOxRingRead cmd s) := by
  simp only [execOxRingRead]
  (repeat' split) <;> simp +contextual -implicitDefEqProofs [*]

@[simp] theorem State.oxRead_mem {s : State} (n : Nat) (lines : List Nat) : (State.oxRead s n lines).mem = s.mem := by
  simp -implicitDefEqProofs [State.oxRead]

theorem readCounts_mem {s : State} {n team t k k1 u} (e : readCounts s n team t k = some (k1, u)) : u.mem = s.mem := by
  revert e
  unfold readCounts
  split
  · extract_lets
    split <;> intro e <;> cases e
    exact State.oxRead_mem _ _
  · intro e
    cases e
    rfl

@[simp] theorem State.oxStep_canon {s : State} (h : Canon s.mem) (n : Nat) : Canon (State.oxStep s n).mem := by
  unfold State.oxStep
  split
  · exact h
  split
  · exact h
  split
  case h_2 => exact h
  rename_i e
  have h1 := readCounts_mem e ▸ h
  extract_lets
  split
  · simp -implicitDefEqProofs [h1]
  · extract_lets
    split
    · simp -implicitDefEqProofs [h1]
    · split <;> simp -implicitDefEqProofs +zetaDelta [h, h1]

@[simp] theorem State.settlePads_canon {s : State} (h : Canon s.mem) (team : Nat) (k : OxCmd) : Canon (State.settlePads s team k).mem := by
  simp only [State.settlePads]
  (repeat' split) <;> simp +contextual -implicitDefEqProofs [*]

@[simp] theorem failOx_canon {s : State} (h : Canon s.mem) (n : Nat) (team : Nat) (c : Cmd) (k : OxCmd) (cause : Nat) :
    Canon (failOx s n team c k cause).mem := by
  simp -implicitDefEqProofs [failOx, *]

@[simp] theorem landOx_canon {s : State} (h : Canon s.mem) (n : Nat) (key : Nat) : Canon (landOx s n key).mem := by
  unfold landOx
  split
  · exact h
  split
  · exact h
  split
  · exact h
  extract_lets i
  split
  · exact h
  split
  · exact h
  split
  case h_2 => exact h
  extract_lets s1 line s2
  have h1 : Canon s1.mem := by simp -implicitDefEqProofs [s1, h]
  refine State.engWatched_canon ?_ _ _ _ _ _ _ fun u hu => State.endCmd_canon hu _ _ _ fun v hv => failOx_canon hv _ _ _ _ _
  unfold s2
  (repeat' split) <;> simp -implicitDefEqProofs [h1]

@[simp] theorem execDrainQueuePush_canon {s : State} (h : Canon s.mem) (cmd : Nat) : NextCanon (execDrainQueuePush cmd s) := by
  simp only [execDrainQueuePush]
  (repeat' split) <;> simp +contextual -implicitDefEqProofs [*]

@[simp] theorem State.rewindDrain_mem {s : State} (n : Nat) : (State.rewindDrain s n).mem = s.mem := by
  simp only [State.rewindDrain]
  (repeat' split) <;> simp +contextual -implicitDefEqProofs [*]

@[simp] theorem execOxComplete_canon {s : State} (h : Canon s.mem) (cmd : Nat) : NextCanon (execOxComplete cmd s) := by
  simp only [execOxComplete]
  (repeat' split) <;> simp +contextual -implicitDefEqProofs [*]

@[simp] theorem execOxFault_canon {s : State} (h : Canon s.mem) (cmd : Nat) : NextCanon (execOxFault cmd s) := by
  simp only [execOxFault]
  (repeat' split) <;> simp +contextual -implicitDefEqProofs [*]

@[simp] theorem execRltGrant_canon {s : State} (h : Canon s.mem) (cmd : Nat) : NextCanon (execRltGrant cmd s) := by
  simp only [execRltGrant]
  (repeat' split) <;> simp +contextual -implicitDefEqProofs [*]

@[simp] theorem execEngineLineLands_canon {s : State} (h : Canon s.mem) (cmd : Nat) (line : Nat) : NextCanon (execEngineLineLands cmd line s) := by
  simp only [execEngineLineLands]
  (repeat' split) <;> simp +contextual -implicitDefEqProofs [*]

@[simp] theorem State.engineRead_canon {s : State} (h : Canon s.mem) (cmd : Nat) (line : Nat) : Canon (State.engineRead s cmd line).mem := by
  unfold State.engineRead
  (repeat' split) <;> try exact h
  · exact (copyData_mem ‹_›) ▸ h
  · exact readList_mem ‹_› ▸ h
  · exact readList_mem ‹_› ▸ h
  · exact readList_mem ‹_› ▸ h
  · rename_i e
    have h2 := readGePart_mem e
    exact h2 ▸ readList_mem ‹_› ▸ h

@[simp] theorem State.landPending_canon {s : State} (h : Canon s.mem) (a : AgentId) (n : Nat) (mem : Bool) :
    Canon (State.landPending s a n mem).mem := by
  simp only [State.landPending]
  (repeat' split) <;> simp +contextual -implicitDefEqProofs [*]

@[simp] theorem execResultLands_canon {s : State} (h : Canon s.mem) (a : AgentId) (n : Nat) : NextCanon (execResultLands a n s) := by
  simp -implicitDefEqProofs [execResultLands, *]

@[simp] theorem execLoadReply_canon {s : State} (h : Canon s.mem) (a : AgentId) (n : Nat) : NextCanon (execLoadReply a n s) := by
  simp -implicitDefEqProofs [execLoadReply, *]

@[simp] theorem execStoreAcknowledge_canon {s : State} (h : Canon s.mem) (a : AgentId) (n : Nat) : NextCanon (execStoreAcknowledge a n s) := by
  simp -implicitDefEqProofs [execStoreAcknowledge, *]

@[simp] theorem execReleaseWaitExpiry_canon {s : State} (h : Canon s.mem) (a : AgentId) : NextCanon (execReleaseWaitExpiry a s) := by
  simp only [execReleaseWaitExpiry]
  (repeat' split) <;> simp +contextual -implicitDefEqProofs [*]

@[simp] theorem execExclusivityIdleEnd_canon {s : State} (h : Canon s.mem) (line : Nat) : NextCanon (execExclusivityIdleEnd line s) := by
  simp only [execExclusivityIdleEnd]
  (repeat' split) <;> simp +contextual -implicitDefEqProofs [*]

@[simp] theorem wakeWaiter_canon {s : State} (h : Canon s.mem) (team : Nat) (q : Nat) (who : Nat) (t : Team) (x : Agent) :
    OptCanon (wakeWaiter s team q who t x) := by
  simp only [wakeWaiter]
  (repeat' split) <;> simp +contextual -implicitDefEqProofs [*]

@[simp] theorem wakeFirst_canon {s : State} (h : Canon s.mem) (team : Nat) (q : Nat) (t : Team) (group : Bool) :
    OptCanon (wakeFirst s team q t group) := by
  simp only [wakeFirst]
  (repeat' split) <;> simp +contextual -implicitDefEqProofs [*]

@[simp] theorem execQueueWake_canon {s : State} (h : Canon s.mem) (team : Nat) (q : Nat) : NextCanon (execQueueWake team q s) := by
  unfold execQueueWake
  (repeat' split) <;> rw [NextCanon_next] <;> try exact h
  · exact OptCanon.of_some (wakeFirst_canon h _ _ _ _) ‹_›
  · exact OptCanon.getD (wakeFirst_canon h _ _ _ _) h

@[simp] theorem execEventPost_canon {s : State} (h : Canon s.mem) (team : Nat) : NextCanon (execEventPost team s) := by
  simp only [execEventPost]
  (repeat' split) <;> simp +contextual -implicitDefEqProofs [*]

end Sys2Proof.Machine
end

section
/-! Memory stays canonical: the monitor table, LAUNCH and the packets of host queues. -/

namespace Sys2Proof.Machine

theorem waitAll_canon {s b n o} (e : waitAll s b n = .out o) : OutCanon o := by
  unfold waitAll at e
  extract_lets at e
  split at e <;> cases e
  exact firstFailing_canon _ _
@[simp] theorem execWait_canon {s : State} (h : Canon s.mem) (f : Fields) : NextCanon (execWait f s) := by
  unfold execWait
  refine issueBeat_canon h fun b u hu => ?_
  (repeat' split) <;> try simp -implicitDefEqProofs [hu, h]
  exact waitAll_canon ‹_›
@[simp] theorem parkedAck_mem {s : State} (a : Option AgentId) (m : Mon) : (parkedAck s a m).mem = s.mem := by
  simp only [parkedAck]
  (repeat' split) <;> simp +contextual -implicitDefEqProofs [*]

@[simp] theorem State.resumeIdle_canon {s : State} (h : Canon s.mem) (a : AgentId) : Canon (State.resumeIdle s a).mem := by
  simp only [State.resumeIdle]
  (repeat' split) <;> simp +contextual -implicitDefEqProofs [*]

@[simp] theorem State.applyWake_canon {s : State} (h : Canon s.mem) (a : AgentId) (m : LaneMask) (v : W64) (p : Bool) (c : Nat) :
    Canon (State.applyWake s a m v p c).mem := by
  simp only [State.applyWake]
  (repeat' split) <;> simp +contextual -implicitDefEqProofs [*]

@[simp] theorem State.deliverWake_canon {s : State} (h : Canon s.mem) (a : AgentId) (m : LaneMask) (v : W64) (p : Bool) (c : Nat) :
    Canon (State.deliverWake s a m v p c).mem := by
  simp -implicitDefEqProofs [State.deliverWake, *]

@[simp] theorem waitPerforms_canon {s : State} (h : Canon s.mem) (a : AgentId) (f : Fields) (t : Team) (x : Agent) (reqs : List RegReq) (replies : List Wake) :
    Canon (waitPerforms s a f t x reqs replies).mem := by
  unfold waitPerforms
  split
  · exact h
  · extract_lets b s1
    have h1 : Canon s1.mem := by rw [State.modAgent_mem]; exact h
    exact State.passBeat_canon (foldl_canon h1 fun u w hu => State.deliverWake_canon hu _ _ _ _ _) _ _

@[simp] theorem waitRefused_canon {s : State} (h : Canon s.mem) (a : AgentId) (f : Fields) (x : Agent) (refused : List RegReq) :
    Canon (waitRefused s a f x refused).mem := by
  simp -implicitDefEqProofs [waitRefused, *]

@[simp] theorem State.abortAgent_canon {s : State} (h : Canon s.mem) (a : AgentId) (t : Team) : Canon (State.abortAgent s a t).mem := by
  unfold State.abortAgent
  extract_lets mine s1 s2 s3 s4
  have h1 : Canon s1.mem := State.dropMons_canon h _
  have h3 : Canon s3.mem := by rw [State.modAgent_mem]; exact h1
  have h4 : Canon s4.mem := by
    unfold s4
    split
    · rw [State.modTeam_mem]; exact h3
    · exact h3
  exact State.settle_canon (State.agentEnded_canon h4 _) _

@[simp] theorem State.resumeAgent_canon {s : State} (h : Canon s.mem) (a : AgentId) (x : Agent) (st : Stop) (c : Nat) :
    Canon (State.resumeAgent s a x st c).mem := by
  simp only [State.resumeAgent]
  (repeat' split) <;> simp +contextual -implicitDefEqProofs [*]

@[simp] theorem State.dispose_canon {s : State} (h : Canon s.mem) (a : AgentId) (v : Nat) (c : Nat) : Canon (State.dispose s a v c).mem := by
  simp only [State.dispose]
  (repeat' split) <;> simp +contextual -implicitDefEqProofs [*]

@[simp] theorem State.waitmonWake_canon {s : State} (h : Canon s.mem) (m : Mon) (v : W64) (p : Bool) (c : Nat) :
    Canon (State.waitmonWake s m v p c).mem := by
  unfold State.waitmonWake
  split
  · exact h
  extract_lets s0
  have h0 : Canon s0.mem := by simpa [s0] using h
  clear_value s0
  split
  · simp [h0]
  · rename_i e
    have h1 : Canon _ := OptCanon.of_some (by split <;> simp [h0]) e
    split <;> simp [h1]

theorem State.register_canon {s : State} (h : Canon s.mem) (r : RegReq) (cl : Option Nat) (u : State)
    (e : s.register r cl = .parked u ∨ ∃ w, s.register r cl = .reply u w) : Canon u.mem := by
  revert e
  unfold State.register
  extract_lets m p s1 s2 v c
  have h2 : Canon s2.mem := by
    unfold s2
    split <;> simp -implicitDefEqProofs [s1, h]
  clear_value s2
  (repeat' split) <;> simp -implicitDefEqProofs
  · rintro rfl
    exact h2
  · rintro rfl
    exact h2
  · rintro rfl
    exact OptCanon.of_some (State.insertMon_canon h2 _) ‹_›
theorem Registered.add_canon {g : Registered} (h : Canon g.s.mem) (a c r) : Canon (Registered.add a c g r).s.mem := by
  have hr := fun u e => State.register_canon (s := g.s) h r c u e
  unfold Registered.add
  split
  · exact h
  · rw [parkedAck_mem]
    exact hr _ (.inl ‹_›)
  · exact hr _ (.inr ⟨_, ‹_›⟩)
theorem registerAll_canon {s : State} (h : Canon s.mem) (a c rs) : Canon (registerAll s a c rs).s.mem :=
  foldl_keeps (fun g : Registered => Canon g.s.mem) _ rs (fun _ r _ hg => Registered.add_canon hg a c r) _ h
@[simp] theorem execMonitorRegister_canon {s : State} (h : Canon s.mem) (n : Nat) : NextCanon (execMonitorRegister n s) := by
  unfold execMonitorRegister
  split
  · simpa using h
  extract_lets s0
  have h0 : Canon s0.mem := h
  clear_value s0
  split
  · split
    · split
      · exact (NextCanon_next _).mpr h0
      split
      · exact (NextCanon_next _).mpr h
      split
      · extract_lets g
        split
        · rw [NextCanon_next, State.markHeld_mem]
          exact waitPerforms_canon (registerAll_canon h0 _ _ _) _ _ _ _ _ _
        · rw [NextCanon_next, State.markHeld_mem]
          exact waitRefused_canon h0 _ _ _ _
      · exact (NextCanon_next _).mpr h0
    · exact (NextCanon_next _).mpr h0
  · split
    · exact (NextCanon_next _).mpr (foldl_canon (registerAll_canon h0 _ _ _) fun u w hu => by simp -implicitDefEqProofs [hu])
    · simp -implicitDefEqProofs [h0]
  · exact (NextCanon_next _).mpr h0

@[simp] theorem execMonitorWake_canon {s : State} (h : Canon s.mem) (n : Nat) : NextCanon (execMonitorWake n s) := by
  simp only [execMonitorWake]
  (repeat' split) <;> simp +contextual -implicitDefEqProofs [*]

@[simp] theorem execMonitorTimeout_canon {s : State} (h : Canon s.mem) (slice : Nat) : NextCanon (execMonitorTimeout slice s) := by
  simp -implicitDefEqProofs [execMonitorTimeout, *]

@[simp] theorem execNap_canon {s : State} (h : Canon s.mem) (f : Fields) : NextCanon (execNap f s) := by
  simp only [execNap]
  (repeat' split) <;> simp +contextual -implicitDefEqProofs [*]

@[simp] theorem execNapWake_canon {s : State} (h : Canon s.mem) (a : AgentId) (lane : Nat) : NextCanon (execNapWake a lane s) := by
  simp only [execNapWake]
  (repeat' split) <;> simp +contextual -implicitDefEqProofs [*]

@[simp] theorem execReplayWaitDelivery_canon {s : State} (h : Canon s.mem) (a : AgentId) (lane : Nat) :
    NextCanon (execReplayWaitDelivery a lane s) := by
  simp only [execReplayWaitDelivery]
  (repeat' split) <;> simp +contextual -implicitDefEqProofs [*]

@[simp] theorem State.addGrid_mem {s : State} (g : Grid) : (State.addGrid s g).mem = s.mem := by
  simp -implicitDefEqProofs [State.addGrid]

@[simp] theorem queueChild_mem {s : State} (b : Beat) (q : Nat × Place) : (queueChild b s q).mem = s.mem := by
  simp -implicitDefEqProofs [queueChild]

@[simp] theorem queueChildren_canon {s0 s : State} (h : Canon s0.mem) (h1 : Canon s.mem) (b : Beat) (qs : List (Nat × Place)) :
    OutCanon (queueChildren s0 s b qs) := by
  simp -implicitDefEqProofs [queueChildren, *]

@[simp] theorem execLaunch_canon {s : State} (h : Canon s.mem) (f : Fields) : NextCanon (execLaunch f s) := by
  unfold execLaunch
  refine issueBeat_canon h fun b u hu => ?_
  extract_lets all first
  split
  · exact queueChildren_canon h hu _ _
  split
  · exact OutCanon_fault _
  split
  · exact (OutCanon_done _).mpr hu
  split
  · exact OutCanon_block _
  split
  · exact queueChildren_canon h (by rw [State.takeSeq_mem]; exact hu) _ _
  · exact firstFailing_canon _ _

@[simp] theorem execChildValidate_canon {s : State} (h : Canon s.mem) (n : Nat) : NextCanon (execChildValidate n s) := by
  simp only [execChildValidate]
  (repeat' split) <;> simp +contextual -implicitDefEqProofs [*]

@[simp] theorem execQueueEnable_canon {s : State} (h : Canon s.mem) (part : Nat) (q : Nat) (w : W64) : NextCanon (execQueueEnable part q w s) := by
  simp only [execQueueEnable]
  (repeat' split) <;> simp +contextual -implicitDefEqProofs [*]

@[simp] theorem execQueueDisable_canon {s : State} (h : Canon s.mem) (part : Nat) (q : Nat) (w : W64) : NextCanon (execQueueDisable part q w s) := by
  simp only [execQueueDisable]
  (repeat' split) <;> simp +contextual -implicitDefEqProofs [*]

@[simp] theorem execQdoor_canon {s : State} (h : Canon s.mem) (part : Nat) (q : Nat) (w : W64) : NextCanon (execQdoor part q w s) := by
  simp only [execQdoor]
  (repeat' split) <;> simp +contextual -implicitDefEqProofs [*]

@[simp] theorem State.beginPacket_mem {s : State} (part : Nat) (q : Nat) (idx : Nat) : (State.beginPacket s part q idx).mem = s.mem := by
  simp -implicitDefEqProofs [State.beginPacket]

/-- Memory is canonical in the state that a packet leaves, unless it fails. -/
def ExceptCanon (r : Except Byte State) : Prop := ∀ u, r = .ok u → Canon u.mem
@[simp] theorem ExceptCanon_ok (u : State) : ExceptCanon (.ok u) ↔ Canon u.mem := by simp [ExceptCanon]
@[simp] theorem ExceptCanon_error (c) : ExceptCanon (.error c) := by simp [ExceptCanon]
theorem State.withPacket_canon {s : State} (h : Canon s.mem) {part q type k} (hk : ∀ hq idx bs u, Canon u.mem → ExceptCanon (k hq idx bs u)) :
    Canon (s.withPacket part q type k).mem := by
  unfold State.withPacket
  extract_lets hq idx c addr
  split
  · exact h
  split
  · extract_lets s0 bs ty
    have h0 : Canon s0.mem := by unfold s0; split <;> simp -implicitDefEqProofs [h]
    split
    · simp -implicitDefEqProofs [h0]
    split
    · exact h
    have h1 : Canon (s0.beginPacket part q idx).mem := by rw [State.beginPacket_mem]; exact h0
    have hw := hk hq idx bs _ h1
    split
    · rename_i e
      exact hw _ e
    · simp -implicitDefEqProofs [h0]
  · simp -implicitDefEqProofs [h]

@[simp] theorem execLaunchPacket_canon {s : State} (h : Canon s.mem) (part : Nat) (q : Nat) : NextCanon (execLaunchPacket part q s) := by
  unfold execLaunchPacket
  rw [NextCanon_next]
  refine State.withPacket_canon h fun hq idx bs u hu => ?_
  extract_lets
  (repeat' split) <;> simp -implicitDefEqProofs +zetaDelta [*]

@[simp] theorem execCopyPacket_canon {s : State} (h : Canon s.mem) (part : Nat) (q : Nat) : NextCanon (execCopyPacket part q s) := by
  unfold execCopyPacket
  rw [NextCanon_next]
  refine State.withPacket_canon h fun hq idx bs u hu => ?_
  extract_lets
  (repeat' split) <;> simp -implicitDefEqProofs +zetaDelta [*]

@[simp] theorem execSignalPacket_canon {s : State} (h : Canon s.mem) (part : Nat) (q : Nat) : NextCanon (execSignalPacket part q s) := by
  unfold execSignalPacket
  split
  · exact (NextCanon_next _).mpr h
  rw [NextCanon_next]
  refine State.withPacket_canon h fun hq idx bs u hu => ?_
  extract_lets
  (repeat' split) <;> simp -implicitDefEqProofs +zetaDelta [*]

@[simp] theorem execWaitmonPacket_canon {s : State} (h : Canon s.mem) (part : Nat) (q : Nat) : NextCanon (execWaitmonPacket part q s) := by
  unfold execWaitmonPacket
  rw [NextCanon_next]
  refine State.withPacket_canon h fun hq idx bs u hu => ?_
  extract_lets
  (repeat' split) <;> simp -implicitDefEqProofs +zetaDelta [*]

@[simp] theorem execFencePacket_canon {s : State} (h : Canon s.mem) (part : Nat) (q : Nat) : NextCanon (execFencePacket part q s) := by
  unfold execFencePacket
  split
  · split <;> simp -implicitDefEqProofs [h]
  rw [NextCanon_next]
  refine State.withPacket_canon h fun hq idx bs u hu => ?_
  extract_lets
  (repeat' split) <;> simp -implicitDefEqProofs [hu]

@[simp] theorem execMarkerPacket_canon {s : State} (h : Canon s.mem) (part : Nat) (q : Nat) : NextCanon (execMarkerPacket part q s) := by
  unfold execMarkerPacket
  rw [NextCanon_next]
  refine State.withPacket_canon h fun hq idx bs u hu => ?_
  extract_lets w
  split
  · simp
  rename_i put _
  have hp : OptCanon put := by unfold put; split <;> simp -implicitDefEqProofs [hu]
  clear_value put
  split
  · simp
  · rename_i e
    simp -implicitDefEqProofs [hp e rfl]

@[simp] theorem State.yieldLines_mem {s : State} (cluster : Nat) : (State.yieldLines s cluster).mem = s.mem := by
  simp -implicitDefEqProofs [State.yieldLines]

@[simp] theorem State.dropL1_mem {s : State} (cluster : Nat) : (State.dropL1 s cluster).mem = s.mem := by
  simp -implicitDefEqProofs [State.dropL1]

@[simp] theorem State.dropAllL1_mem {s : State} (part : Nat) : (State.dropAllL1 s part).mem = s.mem := by
  simp -implicitDefEqProofs [State.dropAllL1]

@[simp] theorem State.own_mem {s : State} (cluster : Nat) (part : Nat) (asid : Nat) : (State.own s cluster part asid).mem = s.mem := by
  simp -implicitDefEqProofs [State.own]

@[simp] theorem State.ungate_mem {s : State} (cluster : Nat) : (State.ungate s cluster).mem = s.mem := by
  simp -implicitDefEqProofs [State.ungate]

@[simp] theorem State.beginGrid_mem {s : State} (no : Nat) (g : Grid) : (State.beginGrid s no g).mem = s.mem := by
  simp -implicitDefEqProofs [State.beginGrid]

@[simp] theorem State.admitSet_canon {s : State} (h : Canon s.mem) (no : Nat) (g : Grid) (places : List Nat) :
    Canon (State.admitSet s no g places).mem := by
  simp -implicitDefEqProofs [State.admitSet, *]

end Sys2Proof.Machine
end

section
/-! Memory stays canonical: teams, grids, saves and restores, the fault queue's answers and the privileged forms. -/

namespace Sys2Proof.Machine

@[simp] theorem State.startTeam_canon {s : State} (h : Canon s.mem) (team : Nat) : Canon (State.startTeam s team).mem := by
  unfold State.startTeam
  split
  · exact h
  split
  case h_2 => exact h
  extract_lets slot s1 _ s2
  have h1 : Canon s1.mem := State.clear_canon (State.clear_canon h _ _) _ _
  clear_value s1
  have h2 : Canon s2.mem := h1
  clear_value s2
  split
  · exact h2
  · exact OptCanon.getD (State.deviceWrite_canon h2 _ _ _ _ _) h2

@[simp] theorem State.admitNext_canon {s : State} (h : Canon s.mem) (no : Nat) (g : Grid) : Canon (State.admitNext s no g).mem := by
  simp only [State.admitNext]
  (repeat' split) <;> simp +contextual -implicitDefEqProofs [*]

@[simp] theorem execTeamStart_canon {s : State} (h : Canon s.mem) (grid : Nat) : NextCanon (execTeamStart grid s) := by
  simp only [execTeamStart]
  (repeat' split) <;> simp +contextual -implicitDefEqProofs [*]

@[simp] theorem State.completionFails_canon {s : State} (h : Canon s.mem) (g : Grid) (code : Byte) : Canon (State.completionFails s g code).mem := by
  simp -implicitDefEqProofs [State.completionFails, *]

@[simp] theorem State.writeCompletion_canon {s : State} (h : Canon s.mem) (g : Grid) : Canon (State.writeCompletion s g).mem := by
  simp only [State.writeCompletion]
  (repeat' split) <;> simp +contextual -implicitDefEqProofs [*]

theorem State.endGrid_canon {s : State} (h : Canon s.mem) (no) {put : Grid → State → State} (hp : ∀ g u, Canon u.mem → Canon (put g u).mem) :
    Canon (s.endGrid no put).mem := by
  unfold State.endGrid
  split
  · exact h
  split
  · exact h
  rename_i g _ _
  extract_lets s1 s2
  have h1 : Canon s1.mem := hp g _ (by rw [State.dropAllL1_mem]; exact h)
  have h2 : Canon s2.mem := h1
  clear_value s2
  split <;> simp -implicitDefEqProofs [h2]

@[simp] theorem execGridEnd_canon {s : State} (h : Canon s.mem) (grid : Nat) : NextCanon (execGridEnd grid s) := by
  exact (NextCanon_next _).mpr (State.endGrid_canon h _ fun g u hu => State.writeCompletion_canon hu _)

@[simp] theorem State.endGridUnwritten_canon {s : State} (h : Canon s.mem) (no : Nat) : Canon (State.endGridUnwritten s no).mem := by
  refine State.endGrid_canon h _ fun g u hu => ?_
  split
  · exact hu
  · exact State.completionFails_canon hu _ _

@[simp] theorem State.quiesce_canon {s : State} (h : Canon s.mem) (a : AgentId) : Canon (State.quiesce s a).mem := by
  unfold State.quiesce
  extract_lets s1 nos
  have h1 : Canon s1.mem := State.accessAll_canon h _
  refine State.applyAcks_canon ?_ _
  exact foldl_canon h1 fun u n hu => State.landPending_canon (State.landPending_canon hu _ _ _) _ _ _

@[simp] theorem State.settleCmds_canon {s : State} (h : Canon s.mem) (team : Nat) : Canon (State.settleCmds s team).mem := by
  simp only [State.settleCmds]
  simp +contextual -implicitDefEqProofs [*]

@[simp] theorem State.saveTeam_canon {s : State} (h : Canon s.mem) (team : Nat) (t : Team) : Canon (State.saveTeam s team t).mem := by
  unfold State.saveTeam
  extract_lets s1 mine s2 cmds s3
  have h1 : Canon s1.mem := foldl_canon (State.settleCmds_canon h _) fun u w hu => State.quiesce_canon hu _
  have h2 : Canon s2.mem := State.dropMons_canon h1 _
  exact (State.modTeam_mem _ _ _).symm ▸ (show Canon s3.mem from h2)

@[simp] theorem execTeamSave_canon {s : State} (h : Canon s.mem) (team : Nat) : NextCanon (execTeamSave team s) := by
  simp only [execTeamSave]
  (repeat' split) <;> simp +contextual -implicitDefEqProofs [*]

@[simp] theorem State.disposeAgain_canon {s : State} (h : Canon s.mem) (a : AgentId) : Canon (State.disposeAgain s a).mem := by
  unfold State.disposeAgain
  split
  case h_2 => exact h
  split
  case h_2 => exact h
  extract_lets va
  split
  · extract_lets m s1
    have h1 : Canon s1.mem := by simpa [s1] using h
    clear_value s1
    split
    · simpa using h1
    split
    · exact OptCanon.of_some (State.insertMon_canon h1 _) ‹_›
    · exact State.endContext_canon h _ _ _
  · exact State.endContext_canon h _ _ _

@[simp] theorem State.restoreTeam_canon {s : State} (h : Canon s.mem) (team : Nat) (t : Team) (cluster : Nat) (rails : List Nat) :
    Canon (State.restoreTeam s team t cluster rails).mem := by
  unfold State.restoreTeam
  extract_lets s0 _ s1 s2 s3 who s4 s5 s6
  have h0 : Canon s0.mem := by simpa [s0] using h
  have h2 : Canon s2.mem := h0
  have h3 : Canon s3.mem := foldl_canon h2 fun u w hu => State.applyWake_canon hu _ _ _ _ _
  have h4 : Canon s4.mem := foldl_canon h3 fun u w hu => (State.modAgent_mem _ _ _).symm ▸ hu
  have h5 : Canon s5.mem := foldl_canon h4 fun u w hu => State.disposeAgain_canon hu _
  have h6 : Canon s6.mem := by rw [State.postEvent_mem]; exact h5
  exact foldl_canon h6 fun u w hu => State.resumeIdle_canon hu _

@[simp] theorem execTeamRestore_canon {s : State} (h : Canon s.mem) (team : Nat) (cluster : Nat) : NextCanon (execTeamRestore team cluster s) := by
  simp only [execTeamRestore]
  (repeat' split) <;> simp +contextual -implicitDefEqProofs [*]

@[simp] theorem State.migrate_canon {s : State} (h : Canon s.mem) (team : Nat) (cluster : Nat) : OptCanon (State.migrate s team cluster) := by
  unfold State.migrate
  split
  · exact OptCanon_none
  split
  · exact OptCanon_none
  extract_lets s1
  have h1 : Canon s1.mem := State.saveTeam_canon h _ _
  split
  · exact OptCanon_none
  extract_lets c
  split
  · exact (OptCanon_some _).mpr h1
  · intro u e
    obtain ⟨rails, _, rfl⟩ := Option.map_eq_some_iff.mp e
    exact State.restoreTeam_canon h1 _ _ _ _

@[simp] theorem execTeamMigrate_canon {s : State} (h : Canon s.mem) (team : Nat) (cluster : Nat) : NextCanon (execTeamMigrate team cluster s) := by
  simp -implicitDefEqProofs [execTeamMigrate, *]

@[simp] theorem execContextEnd_canon {s : State} (h : Canon s.mem) (part : Nat) (asid : Nat) : NextCanon (execContextEnd part asid s) := by
  simp only [execContextEnd]
  (repeat' split) <;> simp +contextual -implicitDefEqProofs [*]

@[simp] theorem State.endAny_canon {s : State} (h : Canon s.mem) (n : Nat) (cause : Nat) : Canon (State.endAny s n cause).mem := by
  simp only [State.endAny]
  (repeat' split) <;> simp +contextual -implicitDefEqProofs [*]

@[simp] theorem State.refuseAgent_canon {s : State} (h : Canon s.mem) (a : AgentId) : Canon (State.refuseAgent s a).mem := by
  simp only [State.refuseAgent]
  (repeat' split) <;> simp +contextual -implicitDefEqProofs [*]

@[simp] theorem State.answer_canon {s : State} (h : Canon s.mem) (part : Nat) (idx : Nat) (retry : Bool) :
    Canon (State.answer s part idx retry).mem := by
  unfold State.answer
  split
  · exact h
  rename_i r _
  extract_lets s1
  have h1 : Canon s1.mem := by rw [State.modPart_mem]; exact h
  split
  · exact foldl_canon h1 fun u a hu => (State.modAgent_mem _ _ _).symm ▸ hu
  · exact foldl_canon (foldl_canon h1 fun u a hu => State.refuseAgent_canon hu _) fun u n hu => State.endAny_canon hu _ _

@[simp] theorem execFaultQueueRetry_canon {s : State} (h : Canon s.mem) (part : Nat) (idx : Nat) : NextCanon (execFaultQueueRetry part idx s) := by
  simp only [execFaultQueueRetry]
  simp +contextual -implicitDefEqProofs [*]

@[simp] theorem execFaultQueueRefuse_canon {s : State} (h : Canon s.mem) (part : Nat) (idx : Nat) : NextCanon (execFaultQueueRefuse part idx s) := by
  simp only [execFaultQueueRefuse]
  simp +contextual -implicitDefEqProofs [*]

@[simp] theorem execFqrdWrite_canon {s : State} (h : Canon s.mem) (part : Nat) (w : W64) : NextCanon (execFqrdWrite part w s) := by
  simp only [execFqrdWrite]
  simp +contextual -implicitDefEqProofs [*]

@[simp] theorem State.takeAnswer_mem {s : State} (a : AgentId) : (State.takeAnswer s a).mem = s.mem := by
  simp -implicitDefEqProofs [State.takeAnswer]

@[simp] theorem execSysc_canon {s : State} (h : Canon s.mem) (f : Fields) : NextCanon (execSysc f s) := by
  unfold execSysc
  refine issueBeat_canon h fun b u hu => ?_
  (repeat' split) <;> simp +contextual -implicitDefEqProofs [*]

@[simp] theorem execHalt_canon {s : State} (h : Canon s.mem) (f : Fields) : NextCanon (execHalt f s) := by
  unfold execHalt
  refine issueBeat_canon h fun b u hu => ?_
  (repeat' split) <;> simp +contextual -implicitDefEqProofs [*]

@[simp] theorem execSyscAnswer_canon {s : State} (h : Canon s.mem) (a : AgentId) (w : W64) : NextCanon (execSyscAnswer a w s) := by
  simp -implicitDefEqProofs [execSyscAnswer, *]

@[simp] theorem State.dmcEventOn_mem {s : State} (die : Nat) : (State.dmcEventOn s die).mem = s.mem := by
  simp -implicitDefEqProofs [State.dmcEventOn]

@[simp] theorem execFirmwareTimer_canon {s : State} (h : Canon s.mem) (die : Nat) : NextCanon (execFirmwareTimer die s) := by
  simp -implicitDefEqProofs [execFirmwareTimer, *]

end Sys2Proof.Machine
end

section
/-! Memory stays canonical: registers of partitions, the agenda's turns of agents, and the power controller. -/

namespace Sys2Proof.Machine

@[simp] theorem execCsrr_canon {s : State} (h : Canon s.mem) (f : Fields) : NextCanon (execCsrr f s) := by
  simp -implicitDefEqProofs [execCsrr, *]

@[simp] theorem State.extend_mem {s : State} (die : Nat) (i : Nat) (h : List Byte) : (State.extend s die i h).mem = s.mem := by
  simp -implicitDefEqProofs [State.extend]

@[simp] theorem State.scrub_canon {s : State} (h : Canon s.mem) (part : Nat) : Canon (State.scrub s part).mem := by
  simp -implicitDefEqProofs [State.scrub, *]

@[simp] theorem State.resetPart_canon {s : State} (h : Canon s.mem) (part : Nat) : Canon (State.resetPart s part).mem := by
  simp -implicitDefEqProofs [State.resetPart, *]

@[simp] theorem State.setPstate_canon {s : State} (h : Canon s.mem) (part : Nat) (w : W64) : Canon (State.setPstate s part w).mem := by
  simp -implicitDefEqProofs [State.setPstate, *]

@[simp] theorem State.setPartCsr_canon {s : State} (h : Canon s.mem) (part : Nat) (f : Nat) (w : W64) : Canon (State.setPartCsr s part f w).mem := by
  simp only [State.setPartCsr]
  (repeat' split) <;> simp +contextual -implicitDefEqProofs [*]

@[simp] theorem State.setCsr_canon {s : State} (h : Canon s.mem) (a : AgentId) (n : Nat) (w : W64) : Canon (State.setCsr s a n w).mem := by
  simp only [State.setCsr]
  (repeat' split) <;> simp +contextual -implicitDefEqProofs [*]

@[simp] theorem execCsrw_canon {s : State} (h : Canon s.mem) (f : Fields) : NextCanon (execCsrw f s) := by
  simp only [execCsrw]
  simp +contextual -implicitDefEqProofs [*]

@[simp] theorem State.dropTlb_mem {s : State} (fn : BitVec 4) (a : W64) (b : W64) : (State.dropTlb s fn a b).mem = s.mem := by
  simp -implicitDefEqProofs [State.dropTlb]

@[simp] theorem execTlbi_canon {s : State} (h : Canon s.mem) (f : Fields) : NextCanon (execTlbi f s) := by
  unfold execTlbi
  refine issueBeat_canon h fun b u hu => ?_
  (repeat' split) <;> simp +contextual -implicitDefEqProofs [*]

@[simp] theorem execTlbiComplete_canon {s : State} (h : Canon s.mem) (a : AgentId) : NextCanon (execTlbiComplete a s) := by
  simp only [execTlbiComplete]
  (repeat' split) <;> simp +contextual -implicitDefEqProofs [*]

@[simp] theorem execEret_canon {s : State} (h : Canon s.mem) (f : Fields) : NextCanon (execEret f s) := by
  simp only [execEret]
  simp +contextual -implicitDefEqProofs [*]

@[simp] theorem execPrivilegedThreadStart_canon {s : State} (h : Canon s.mem) (die : Nat) (entry : Nat) :
    NextCanon (execPrivilegedThreadStart die entry s) := by
  simp only [execPrivilegedThreadStart]
  (repeat' split) <;> simp +contextual -implicitDefEqProofs [*]

@[simp] theorem State.stopThread_canon {s : State} (h : Canon s.mem) (team : Nat) : Canon (State.stopThread s team).mem := by
  simp only [State.stopThread]
  (repeat' split) <;> simp +contextual -implicitDefEqProofs [*]

@[simp] theorem State.gooseStop_canon {s : State} (h : Canon s.mem) (a : AgentId) : Canon (State.gooseStop s a).mem := by
  simp -implicitDefEqProofs [State.gooseStop, *]

theorem Prepared.orStruck_canon {p : Prepared} (h : PrepCanon p) (a : AgentId) : PrepCanon (p.orStruck a) := by
  unfold Prepared.orStruck
  split
  · rw [PrepCanon_go] at h
    split
    · exact (PrepCanon_stay _).mpr (State.gooseStop_canon h _)
    · exact (PrepCanon_go _ _).mpr h
  · exact h
@[simp] theorem State.prepare_canon {s : State} (h : Canon s.mem) (a : AgentId) : PrepCanon (s.prepare a) := by
  unfold State.prepare
  split
  case h_2 => exact (PrepCanon_stay _).mpr h
  split
  · exact (PrepCanon_stay _).mpr h
  split
  · exact (PrepCanon_stay _).mpr h
  split
  · exact (PrepCanon_stay _).mpr (State.gooseStop_canon h _)
  split
  · exact (PrepCanon_stay _).mpr h
  split
  · exact Prepared.orStruck_canon (State.arrive_canon h _ _ _ _) _
  · split
    · exact (PrepCanon_go _ _).mpr h
    · exact (PrepCanon_stay _).mpr h
  · exact (PrepCanon_stay _).mpr h
@[simp] theorem State.pass_canon {s : State} (h : Canon s.mem) (ns : Nat) : Canon (State.pass s ns).mem := by
  simp -implicitDefEqProofs [State.pass, *]

@[simp] theorem State.freeBlocks_canon {s : State} (h : Canon s.mem) (cluster : Nat) (rail : Nat) : Canon (State.freeBlocks s cluster rail).mem := by
  simp -implicitDefEqProofs [State.freeBlocks, *]

@[simp] theorem State.railClock_canon {s : State} (h : Canon s.mem) (cluster : Nat) (rail : Nat) : Canon (State.railClock s cluster rail).mem := by
  simp only [State.railClock]
  (repeat' split) <;> simp +contextual -implicitDefEqProofs [*]

@[simp] theorem execActiveSetSwap_canon {s : State} (h : Canon s.mem) (a : AgentId) : NextCanon (execActiveSetSwap a s) := by
  simp only [execActiveSetSwap]
  (repeat' split) <;> simp +contextual -implicitDefEqProofs [*]

@[simp] theorem execGoose_canon {s : State} (h : Canon s.mem) (a : AgentId) : NextCanon (execGoose a s) := by
  simp only [execGoose]
  (repeat' split) <;> simp +contextual -implicitDefEqProofs [*]

@[simp] theorem State.shedStart_mem {s : State} (cls : Nat) : (State.shedStart s cls).mem = s.mem := by
  unfold State.shedStart
  extract_lets hit s1
  refine foldl_mem (fun u t => ?_) _ _
  extract_lets u1
  rw [State.modTeam_mem]
  unfold u1
  split
  · rw [State.postEvent_mem]
  · rfl

@[simp] theorem State.shedEnd_mem {s : State} (cls : Nat) : (State.shedEnd s cls).mem = s.mem := by
  simp -implicitDefEqProofs [State.shedEnd]

@[simp] theorem State.setMask_mem {s : State} (m : BitVec 4) : (State.setMask s m).mem = s.mem := by
  simp -implicitDefEqProofs [State.setMask]

@[simp] theorem State.applyCurves_mem {s : State} : (State.applyCurves s).mem = s.mem := by
  simp -implicitDefEqProofs [State.applyCurves]

@[simp] theorem execTelemetryFrame_canon {s : State} (h : Canon s.mem) (linkB : Bool) (bytes : List Byte) :
    NextCanon (execTelemetryFrame linkB bytes s) := by
  simp only [execTelemetryFrame]
  (repeat' split) <;> simp +contextual -implicitDefEqProofs [*]

@[simp] theorem State.shelfByte_mem {s : State} (linkB : Bool) (b : Byte) : (State.shelfByte s linkB b).mem = s.mem := by
  simp -implicitDefEqProofs [State.shelfByte]

@[simp] theorem execPartialFrameDiscard_canon {s : State} (h : Canon s.mem) (linkB : Bool) : NextCanon (execPartialFrameDiscard linkB s) := by
  simp only [execPartialFrameDiscard]
  (repeat' split) <;> simp +contextual -implicitDefEqProofs [*]

@[simp] theorem execLinkValidFrameTimeout_canon {s : State} (h : Canon s.mem) (linkB : Bool) : NextCanon (execLinkValidFrameTimeout linkB s) := by
  simp only [execLinkValidFrameTimeout]
  (repeat' split) <;> simp +contextual -implicitDefEqProofs [*]

@[simp] theorem execFailsafeEntry_canon {s : State} (h : Canon s.mem) : NextCanon (execFailsafeEntry s) := by
  simp only [execFailsafeEntry]
  (repeat' split) <;> simp +contextual -implicitDefEqProofs [*]

@[simp] theorem execCurveTick_canon {s : State} (h : Canon s.mem) : NextCanon (execCurveTick s) := by
  simp only [execCurveTick]
  (repeat' split) <;> simp +contextual -implicitDefEqProofs [*]

@[simp] theorem execGraceExpiry_canon {s : State} (h : Canon s.mem) (cls : Nat) : NextCanon (execGraceExpiry cls s) := by
  simp only [execGraceExpiry]
  (repeat' split) <;> simp +contextual -implicitDefEqProofs [*]

@[simp] theorem execPowerEnable_canon {s : State} (h : Canon s.mem) (w : W64) : NextCanon (execPowerEnable w s) := by
  simp only [execPowerEnable]
  (repeat' split) <;> simp +contextual -implicitDefEqProofs [*]

@[simp] theorem execPowerDisable_canon {s : State} (h : Canon s.mem) (w : W64) : NextCanon (execPowerDisable w s) := by
  simp only [execPowerDisable]
  (repeat' split) <;> simp +contextual -implicitDefEqProofs [*]

@[simp] theorem execControlInterval_canon {s : State} (h : Canon s.mem) (die : Nat) (temps : List Nat) :
    NextCanon (execControlInterval die temps s) := by
  simp only [execControlInterval]
  (repeat' split) <;> simp +contextual -implicitDefEqProofs [*]

@[simp] theorem execCurrentLimit_canon {s : State} (h : Canon s.mem) (pair : Nat) (above : Bool) : NextCanon (execCurrentLimit pair above s) := by
  simp only [execCurrentLimit]
  (repeat' split) <;> simp +contextual -implicitDefEqProofs [*]

@[simp] theorem execMule_canon {s : State} (h : Canon s.mem) (pair : Nat) (lower : Nat) (upper : Nat) : NextCanon (execMule pair lower upper s) := by
  simp only [execMule]
  (repeat' split) <;> simp +contextual -implicitDefEqProofs [*]

@[simp] theorem State.firstMigration_canon {s : State} (h : Canon s.mem) (team : Nat) (l : List Nat) : OptCanon (s.firstMigration team l) := by
  induction l with
  | nil => exact OptCanon_none
  | cons c cs ih =>
    simp only [State.firstMigration]
    split
    · rename_i e
      exact e ▸ State.migrate_canon h _ _
    · exact ih

@[simp] theorem execThermalMigration_canon {s : State} (h : Canon s.mem) (pair : Nat) : NextCanon (execThermalMigration pair s) := by
  unfold execThermalMigration
  extract_lets p due
  split
  · exact (NextCanon_next _).mpr h
  rename_i teams pick s0 _
  have h0 : Canon s0.mem := h
  clear_value pick s0
  split
  · exact (NextCanon_next _).mpr h
  · split <;> rw [NextCanon_next]
    · rw [State.modPair_mem]
      exact OptCanon.of_some (State.firstMigration_canon h0 _ _) ‹_›
    · exact h0

@[simp] theorem execPairPowerGate_canon {s : State} (h : Canon s.mem) (pair : Nat) : NextCanon (execPairPowerGate pair s) := by
  simp only [execPairPowerGate]
  (repeat' split) <;> simp +contextual -implicitDefEqProofs [*]

end Sys2Proof.Machine
end

section
/-! Memory stays canonical: debug, float forms, host and peer accesses, errors, management, and every step. -/

namespace Sys2Proof.Machine

@[simp] theorem execSessionOpen_canon {s : State} (h : Canon s.mem) (part : Nat) (ctx : Nat) (w : W64) :
    NextCanon (execSessionOpen part ctx w s) := by
  simp only [execSessionOpen]
  (repeat' split) <;> simp +contextual -implicitDefEqProofs [*]

@[simp] theorem State.writeDebug_mem {s : State} (part : Nat) (ctx : Nat) (f : Debug → Debug) : (State.writeDebug s part ctx f).mem = s.mem := by
  simp -implicitDefEqProofs [State.writeDebug]

@[simp] theorem execSessionClose_canon {s : State} (h : Canon s.mem) (part : Nat) (ctx : Nat) (w : W64) :
    NextCanon (execSessionClose part ctx w s) := by
  simp only [execSessionClose]
  (repeat' split) <;> simp +contextual -implicitDefEqProofs [*]

@[simp] theorem execLostClear_canon {s : State} (h : Canon s.mem) (part : Nat) (ctx : Nat) : NextCanon (execLostClear part ctx s) := by
  simp -implicitDefEqProofs [execLostClear, *]

@[simp] theorem execWatchpointArm_canon {s : State} (h : Canon s.mem) (part : Nat) (ctx : Nat) (j : Nat) (w : W64) :
    NextCanon (execWatchpointArm part ctx j w s) := by
  simp -implicitDefEqProofs [execWatchpointArm, *]

@[simp] theorem execSample_canon {s : State} (h : Canon s.mem) (cluster : Nat) (part : Nat) (ctx : Nat) :
    NextCanon (execSample cluster part ctx s) := by
  simp only [execSample]
  (repeat' split) <;> simp +contextual -implicitDefEqProofs [*]

@[simp] theorem execLcrClear_canon {s : State} (h : Canon s.mem) (part : Nat) (cluster : Nat) (bin : Nat) (ctr : Nat) :
    NextCanon (execLcrClear part cluster bin ctr s) := by
  simp -implicitDefEqProofs [execLcrClear, *]

@[simp] theorem execFadd_canon {s : State} (h : Canon s.mem) (f : Fields) : NextCanon (execFadd f s) := by
  simp -implicitDefEqProofs [execFadd, *]

@[simp] theorem execFsub_canon {s : State} (h : Canon s.mem) (f : Fields) : NextCanon (execFsub f s) := by
  simp -implicitDefEqProofs [execFsub, *]

@[simp] theorem execFmul_canon {s : State} (h : Canon s.mem) (f : Fields) : NextCanon (execFmul f s) := by
  simp -implicitDefEqProofs [execFmul, *]

@[simp] theorem execFfma_canon {s : State} (h : Canon s.mem) (f : Fields) : NextCanon (execFfma f s) := by
  simp -implicitDefEqProofs [execFfma, *]

@[simp] theorem execFmin_canon {s : State} (h : Canon s.mem) (f : Fields) : NextCanon (execFmin f s) := by
  simp -implicitDefEqProofs [execFmin, *]

@[simp] theorem execFmax_canon {s : State} (h : Canon s.mem) (f : Fields) : NextCanon (execFmax f s) := by
  simp -implicitDefEqProofs [execFmax, *]

@[simp] theorem execFsetp_canon {s : State} (h : Canon s.mem) (f : Fields) : NextCanon (execFsetp f s) := by
  simp -implicitDefEqProofs [execFsetp, *]

@[simp] theorem execFcls_canon {s : State} (h : Canon s.mem) (f : Fields) : NextCanon (execFcls f s) := by
  simp -implicitDefEqProofs [execFcls, *]

@[simp] theorem execFrcp_canon {s : State} (h : Canon s.mem) (f : Fields) : NextCanon (execFrcp f s) := by
  simp -implicitDefEqProofs [execFrcp, *]

@[simp] theorem execFrsq_canon {s : State} (h : Canon s.mem) (f : Fields) : NextCanon (execFrsq f s) := by
  simp -implicitDefEqProofs [execFrsq, *]

@[simp] theorem execFsqrt_canon {s : State} (h : Canon s.mem) (f : Fields) : NextCanon (execFsqrt f s) := by
  simp -implicitDefEqProofs [execFsqrt, *]

@[simp] theorem execFexp2_canon {s : State} (h : Canon s.mem) (f : Fields) : NextCanon (execFexp2 f s) := by
  simp -implicitDefEqProofs [execFexp2, *]

@[simp] theorem execFlog2_canon {s : State} (h : Canon s.mem) (f : Fields) : NextCanon (execFlog2 f s) := by
  simp -implicitDefEqProofs [execFlog2, *]

@[simp] theorem execFtanh_canon {s : State} (h : Canon s.mem) (f : Fields) : NextCanon (execFtanh f s) := by
  simp -implicitDefEqProofs [execFtanh, *]

@[simp] theorem execHadd2_canon {s : State} (h : Canon s.mem) (f : Fields) : NextCanon (execHadd2 f s) := by
  simp -implicitDefEqProofs [execHadd2, *]

@[simp] theorem execHmul2_canon {s : State} (h : Canon s.mem) (f : Fields) : NextCanon (execHmul2 f s) := by
  simp -implicitDefEqProofs [execHmul2, *]

@[simp] theorem execHfma2_canon {s : State} (h : Canon s.mem) (f : Fields) : NextCanon (execHfma2 f s) := by
  simp -implicitDefEqProofs [execHfma2, *]

@[simp] theorem execFdp2_canon {s : State} (h : Canon s.mem) (f : Fields) : NextCanon (execFdp2 f s) := by
  simp -implicitDefEqProofs [execFdp2, *]

@[simp] theorem execCvt_canon {s : State} (h : Canon s.mem) (f : Fields) : NextCanon (execCvt f s) := by
  simp -implicitDefEqProofs [execCvt, *]

@[simp] theorem execCvts_canon {s : State} (h : Canon s.mem) (f : Fields) : NextCanon (execCvts f s) := by
  simp -implicitDefEqProofs [execCvts, *]

@[simp] theorem execFrnd_canon {s : State} (h : Canon s.mem) (f : Fields) : NextCanon (execFrnd f s) := by
  simp -implicitDefEqProofs [execFrnd, *]

@[simp] theorem execFscale_canon {s : State} (h : Canon s.mem) (f : Fields) : NextCanon (execFscale f s) := by
  simp -implicitDefEqProofs [execFscale, *]

@[simp] theorem State.barWrite_canon {s : State} (h : Canon s.mem) (part off : Nat) (bs : List Byte) (k : Nat) :
    Canon (s.barWrite part off bs k).mem := by
  induction k generalizing s off bs with
  | zero => exact h
  | succ k ih =>
    simp only [State.barWrite]
    split
    · exact h
    · refine ih ?_ _ _
      (repeat' split) <;> simp -implicitDefEqProofs [h]

@[simp] theorem State.barRecall_mem {s : State} (part : Nat) (off : Nat) : (State.barRecall s part off).mem = s.mem := by
  simp only [State.barRecall]
  (repeat' split) <;> simp +contextual -implicitDefEqProofs [*]

@[simp] theorem State.barRecalls_mem {s : State} (part : Nat) (off : Nat) (n : Nat) : (State.barRecalls s part off n).mem = s.mem := by
  simp -implicitDefEqProofs [State.barRecalls]

@[simp] theorem execHostWrite_canon {s : State} (h : Canon s.mem) (part : Nat) (off : Nat) (bytes : List Byte) :
    NextCanon (execHostWrite part off bytes s) := by
  simp only [execHostWrite]
  simp +contextual -implicitDefEqProofs [*]

@[simp] theorem execHostRead_canon {s : State} (h : Canon s.mem) (part : Nat) (off : Nat) (n : Nat) : NextCanon (execHostRead part off n s) := by
  simp only [execHostRead]
  (repeat' split) <;> simp +contextual -implicitDefEqProofs [*]

@[simp] theorem execMdoor_canon {s : State} (h : Canon s.mem) (w : W64) : NextCanon (execMdoor w s) := by
  simp -implicitDefEqProofs [execMdoor, *]

@[simp] theorem execCecntClear_canon {s : State} (h : Canon s.mem) : NextCanon (execCecntClear s) := by
  simp -implicitDefEqProofs [execCecntClear, *]

@[simp] theorem State.writePf_mem {s : State} (off : Nat) (w : W64) : (State.writePf s off w).mem = s.mem := by
  simp only [State.writePf]
  (repeat' split) <;> simp +contextual -implicitDefEqProofs [*]

@[simp] theorem State.writePeer_mem {s : State} (off : Nat) (w : W64) : (State.writePeer s off w).mem = s.mem := by
  simp -implicitDefEqProofs [State.writePeer]

@[simp] theorem State.writeVf_mem {s : State} (part : Nat) (off : Nat) (w : W64) : (State.writeVf s part off w).mem = s.mem := by
  simp only [State.writeVf]
  (repeat' split) <;> simp +contextual -implicitDefEqProofs [*]

@[simp] theorem State.writeLcr_mem {s : State} (part : Nat) (off : Nat) (w : W64) : (State.writeLcr s part off w).mem = s.mem := by
  simp only [State.writeLcr]
  (repeat' split) <;> simp +contextual -implicitDefEqProofs [*]

@[simp] theorem execRegisterWrite_canon {s : State} (h : Canon s.mem) (vf : Option Nat) (bar : Nat) (off : Nat) (w : W64) :
    NextCanon (execRegisterWrite vf bar off w s) := by
  simp only [execRegisterWrite]
  (repeat' split) <;> simp +contextual -implicitDefEqProofs [*]

@[simp] theorem State.registerRead_mem {s : State} (vf : Option Nat) (bar : Nat) (off : Nat) : (State.registerRead s vf bar off).mem = s.mem := by
  simp -implicitDefEqProofs [State.registerRead]

@[simp] theorem State.accessError_canon {s : State} (h : Canon s.mem) (a : AgentId) (o : Option MemOp) (addr : Nat) :
    Canon (State.accessError s a o addr).mem := by
  simp only [State.accessError]
  (repeat' split) <;> simp +contextual -implicitDefEqProofs [*]

@[simp] theorem execRequestTimeout_canon {s : State} (h : Canon s.mem) (x : Victim) : NextCanon (execRequestTimeout x s) := by
  simp only [execRequestTimeout]
  (repeat' split) <;> simp +contextual -implicitDefEqProofs [*]

@[simp] theorem execCorrectedError_canon {s : State} (h : Canon s.mem) : NextCanon (execCorrectedError s) := by
  simp -implicitDefEqProofs [execCorrectedError, *]

@[simp] theorem execPatrolScrub_canon {s : State} (h : Canon s.mem) (z_line : Nat) : NextCanon (execPatrolScrub z_line s) := by
  simp -implicitDefEqProofs [execPatrolScrub, *]

@[simp] theorem State.logFound_canon {s : State} (h : Canon s.mem) (eng : Nat) (addr : Nat) (part : Nat) (asid : Nat) :
    Canon (State.logFound s eng addr part asid).mem := by
  simp -implicitDefEqProofs [State.logFound, *]

@[simp] theorem State.stopUnwritten_canon {s : State} (h : Canon s.mem) (a : AgentId) : Canon (State.stopUnwritten s a).mem := by
  simp only [State.stopUnwritten]
  (repeat' split) <;> simp +contextual -implicitDefEqProofs [*]

@[simp] theorem execUncorrectableError_canon {s : State} (h : Canon s.mem) (x : ErrPlace) : NextCanon (execUncorrectableError x s) := by
  unfold execUncorrectableError
  split
  case h_6 =>
    extract_lets s1
    rw [NextCanon_next]
    refine State.logFound_canon ?_ _ _ _ _
    exact foldl_canon h fun u e hu => State.endContext_canon hu _ _ _
  all_goals (repeat' split) <;> simp -implicitDefEqProofs [h]

@[simp] theorem State.remoteWatched_canon {s : State} (h : Canon s.mem) (part : Nat) (dev : Nat) (loc : Nat) (n : Nat) :
    Canon (State.remoteWatched s part dev loc n).mem := by
  exact foldl_canon h fun u e hu => State.fqSend_canon (State.trace_canon hu _ _ _) _ _

@[simp] theorem State.peerRmw_canon {s : State} (h : Canon s.mem) (part : Nat) (dev : Nat) (off : Nat) (w : Nat) (new : W64 → Option W64) :
    Canon (State.peerRmw s part dev off w new).mem := by
  simp only [State.peerRmw]
  (repeat' split) <;> simp +contextual -implicitDefEqProofs [*]

@[simp] theorem execPeerAccess_canon {s : State} (h : Canon s.mem) (dev : Nat) (srcPart : Nat) (part : Nat) (op : PeerOp) :
    NextCanon (execPeerAccess dev srcPart part op s) := by
  simp only [execPeerAccess]
  (repeat' split) <;> simp +contextual -implicitDefEqProofs [*]

@[simp] theorem execAtcmd_canon {s : State} (h : Canon s.mem) (part : Nat) (w : W64) : NextCanon (execAtcmd part w s) := by
  simp -implicitDefEqProofs [execAtcmd, *]

@[simp] theorem State.busWrite_canon {s : State} (h : Canon s.mem) (addr : Nat) (bs : List Byte) (k : Nat) : Canon (s.busWrite addr bs k).mem := by
  induction k generalizing s addr bs with
  | zero => exact h
  | succ k ih =>
    simp only [State.busWrite]
    split
    · exact h
    · exact ih (State.writeAt_canon h _ _ _) _ _

@[simp] theorem execAttestationReport_canon {s : State} (h : Canon s.mem) (part : Nat) (ok : Bool) : NextCanon (execAttestationReport part ok s) := by
  simp only [execAttestationReport]
  (repeat' split) <;> simp +contextual -implicitDefEqProofs [*]

@[simp] theorem bootFrom_mem {s : State} (l : List (Nat × Nat)) : (bootFrom s l).mem = s.mem := by
  induction l generalizing s with
  | nil => rfl
  | cons e l ih =>
    obtain ⟨stage, die⟩ := e
    simp only [bootFrom]
    split
    · rw [ih, State.extend_mem]
    · rfl

@[simp] theorem State.outside_canon {s : State} (h : Canon s.mem) : Canon (State.outside s).mem := by
  simp -implicitDefEqProofs [State.outside, *]

@[simp] theorem execPowerOnReset_canon {s : State} (h : Canon s.mem) : NextCanon (execPowerOnReset s) := by
  simp only [execPowerOnReset]
  (repeat' split) <;> simp +contextual -implicitDefEqProofs [*]

@[simp] theorem exec_canon {s : State} (h : Canon s.mem) (i : Instr) : NextCanon (exec i s) := by
  simp only [exec]
  (repeat' split) <;> simp +contextual -implicitDefEqProofs [*]

@[simp] theorem State.systemWrite_canon {s : State} (h : Canon s.mem) (loc : Nat) (bytes : List Byte) :
    Canon (State.systemWrite s loc bytes).mem := by
  simp -implicitDefEqProofs [State.systemWrite, *]

@[simp] theorem State.firmwareWrite_canon {s : State} (h : Canon s.mem) (addr : Nat) (bs : List Byte) (k : Nat) :
    Canon (s.firmwareWrite addr bs k).mem := by
  induction k generalizing s addr bs with
  | zero => exact h
  | succ k ih =>
    simp only [State.firmwareWrite]
    split
    · exact h
    · exact ih (State.writeAt_canon h _ _ _) _ _

@[simp] theorem State.turn_canon {s : State} (h : Canon s.mem) (t : Turn) : Canon (State.turn s t).mem := by
  simp only [State.turn]
  (repeat' split) <;> simp +contextual -implicitDefEqProofs [*]

@[simp] theorem runAgent_canon {s : State} (h : Canon s.mem) (a : AgentId) : NextCanon (runAgent a s) := by
  unfold runAgent
  have hp := State.prepare_canon h a
  split <;> rename_i e <;> rw [e] at hp
  · simpa using hp
  · exact exec_canon ((PrepCanon_go _ _).mp hp) _

@[simp] theorem perform_canon {s : State} (h : Canon s.mem) (t : Turn) : NextCanon (perform t s) := by
  simp only [perform]
  (repeat' split) <;> simp +contextual -implicitDefEqProofs [*]

@[simp] theorem step_canon {s : State} (h : Canon s.mem) : NextCanon (step s) := by
  simp only [step]
  (repeat' split) <;> simp +contextual -implicitDefEqProofs [*]

/-- Settles O10: every turn keeps memory canonical, since every write to it is a `poke`, a `clear` or a filter. -/
theorem stepKeepsInvariant : Obligations.StepKeepsInvariant := by
  intro s s' h e
  exact step_canon h s' e

end Sys2Proof.Machine
end

section
/-! The end of a beat: the count, the census and the team's barrier leave most of the state alone (R69, R70, R86, R332). -/

namespace Sys2Proof.Machine

/-! ### The part of a state that accesses and the sweep leave alone -/

/-- The team without its agents and the state of its team barrier. -/
def Team.core (t : Team) : Team := { t with agents := [], bars := Tbl.del t.bars 16 }

/-- The teams without their agents and team barriers. -/
def teamCores (m : Tbl Team) : Tbl Team := m.map fun e => (e.1, e.2.core)

@[simp] theorem Tbl.del_del {α : Type} (m : Tbl α) (k : Nat) : (m.del k).del k = m.del k := by
  induction m with
  | nil => rfl
  | cons e m ih =>
    simp only [Tbl.del]
    split
    · exact ih
    · rename_i h
      simp only [Tbl.del, h, if_false, ih]

theorem teamCores_modify (m : Tbl Team) (n : Nat) {f : Team → Team} (hf : ∀ t, (f t).core = t.core) :
    teamCores (Tbl.modify m n f) = teamCores m := by
  induction m with
  | nil => rfl
  | cons e m ih =>
    unfold teamCores at ih ⊢
    simp only [Tbl.modify]
    split <;> simp [hf, ih]

/-- The state without memory, the caches, the monitor table, the wakes, the agents and the counts of beats. -/
def State.still (s : State) : State :=
  { s with agenda := [], fresh := 0, mem := [], writeSeq := 0, lines := [], evMax := [], l1 := [], tlb := [], mons := [], filter := [], wakes := [],
           teams := teamCores s.teams, lcr := [], lastBeat := [], railClocks := [], ccLast := [], beatSeq := 0, flaws := [] }

theorem State.team_of_still {s t : State} (h : t.still = s.still) (n : Nat) : (t.team n).map Team.core = (s.team n).map Team.core := by
  have ht : teamCores t.teams = teamCores s.teams := congrArg State.teams h
  have hfind : ∀ m : Tbl Team, Tbl.find? (teamCores m) n = (Tbl.find? m n).map Team.core := fun m => Tbl.find?_map m (fun _ t => t.core) n
  rw [State.team, State.team, ← hfind, ht, hfind]

@[simp] theorem still_ite {c : Prop} [Decidable c] (a b : State) : (if c then a else b).still = if c then a.still else b.still :=
  apply_ite State.still c a b

theorem foldl_still {α : Type} {f : State → α → State} (hf : ∀ u a, (f u a).still = u.still) (l : List α) (s : State) :
    (l.foldl f s).still = s.still :=
  foldl_keeps (fun u : State => u.still = s.still) f l (fun u a _ h => (hf u a).trans h) s rfl

@[simp] theorem State.poke_still (s : State) (l : Nat) (bs : List Byte) : (s.poke l bs).still = s.still := rfl
@[simp] theorem State.setLine_still (s : State) (l : Nat) (r : LineRec) : (s.setLine l r).still = s.still := rfl
@[simp] theorem State.sendWake_still (s : State) (w : Wake) : (s.sendWake w).still = s.still := rfl
theorem State.modTeam_still (s : State) (n : Nat) {f : Team → Team} (hf : ∀ t, (f t).core = t.core) : (s.modTeam n f).still = s.still := by
  unfold State.still State.modTeam
  simp only [teamCores_modify s.teams n hf]
@[simp] theorem State.modAgent_still (s : State) (a : AgentId) (f : Agent → Agent) : (s.modAgent a f).still = s.still :=
  s.modTeam_still a.team fun _ => rfl
@[simp] theorem State.setAgent_still (s : State) (a : AgentId) (x : Agent) : (s.setAgent a x).still = s.still := s.modAgent_still a _
@[simp] theorem State.unpin_still (s : State) : s.unpin.still = s.still := rfl
/-- A field update outside the still part. -/
theorem State.still_of_eq {s t u : State} (h : t.still = s.still) (k : u.still = t.still) : u.still = s.still := k.trans h

@[simp] theorem State.recall_still (s : State) (l : Nat) (but : Option Nat) : (s.recall l but).still = s.still := by
  unfold State.recall
  extract_lets r
  split
  · rfl
  · split <;> rfl

@[simp] theorem State.evictLine_still (s : State) (l : Nat) : (s.evictLine l).still = s.still := State.recall_still s l none

@[simp] theorem State.makeRoom_still (s : State) (slice l : Nat) (data : Bool) : (s.makeRoom slice l data).still = s.still := by
  simp only [State.makeRoom]
  repeat' split
  all_goals simp

@[simp] theorem State.touchLine_still (s : State) (p : Place) (pol : Nat) : (s.touchLine p pol).still = s.still := by
  simp only [State.touchLine]
  split <;> simp

@[simp] theorem State.rewritten_still (s : State) (l n : Nat) : (s.rewritten l n).still = s.still := by
  unfold State.rewritten
  split <;> rfl

@[simp] theorem State.l1Evict_still (s : State) (i : Nat) : (s.l1Evict i).still = s.still := by
  unfold State.l1Evict
  split
  · rfl
  · exact State.recall_still ({ s with l1 := s.l1.eraseIdx i } : State) _ _

@[simp] theorem State.l1Put_still (s : State) (c : L1Line) : (s.l1Put c).still = s.still := by
  simp only [State.l1Put]
  repeat' split
  · rfl
  · rfl
  · exact State.l1Evict_still ({ s with l1 := s.l1.filter fun e => !e.isCopy c.cluster c.part c.asid c.vline } : State) _

@[simp] theorem State.fill_still (s : State) (cl part asid : Nat) (p : Place) (al : Bool) : (s.fill cl part asid p al).still = s.still := by
  simp only [State.fill]
  repeat' split
  all_goals simp

@[simp] theorem State.readBy_still (s : State) (cl part asid : Nat) (p : Place) (n pol : Nat) : (s.readBy cl part asid p n pol).2.2.still = s.still := by
  simp only [State.readBy]
  repeat' split
  all_goals simp

theorem State.dropMons_still (s : State) (gone : Mon → Bool) : (s.dropMons gone).still = s.still := by
  unfold State.dropMons
  extract_lets out kept s1
  have h1 : s1.still = s.still := by
    refine foldl_still (fun u m => ?_) out s
    split
    · exact State.poke_still u _ _
    · rfl
  clear_value s1
  exact h1

@[simp] theorem State.compare_still (s : State) (loc n c : Nat) : (s.compare loc n c).still = s.still := by
  unfold State.compare
  extract_lets hit out
  refine (foldl_still (fun u m => ?_) out _).trans (State.dropMons_still s hit)
  exact State.sendWake_still u _

@[simp] theorem State.writeWith_still (s : State) (p : Place) (bs : List Byte) (cl : Option Nat) (pol : Nat) :
    (s.writeWith p bs cl pol).1.still = s.still := by
  have h0 : ({ s with writeSeq := s.writeSeq + 1 } : State).still = s.still := rfl
  unfold State.writeWith
  cases p.owned with
  | slice =>
    simp only
    split
    · simp [h0]
    · simp only [State.compare_still]
      split <;> simp [h0]
  | scratch t | pinned | peer => rfl

@[simp] theorem State.writeAt_still (s : State) (p : Place) (bs : List Byte) (cl : Option Nat) : (s.writeAt p bs cl).1.still = s.still :=
  s.writeWith_still p bs cl 0

@[simp] theorem seqWrite_still (s : State) (t : Team) (who lane off : Nat) (x : Label) : (seqWrite s t who lane off x).still = s.still := by
  unfold seqWrite
  split <;> simp

/-! ### Accesses leave it alone -/

@[simp] theorem State.opDone_still (s : State) (a : AgentId) (n : Nat) (f : Agent → Agent) : (s.opDone a n f).still = s.still :=
  s.modAgent_still a _
@[simp] theorem State.updateCopy_still (s : State) (cl part asid vline loc stamp c : Nat) (bs : List Byte) :
    (s.updateCopy cl part asid vline loc stamp c bs).still = s.still := rfl

@[simp] theorem State.stored_still (s : State) (q : Perf) (n : Nat) (o : MemOp) (bs : List Byte) (near : Bool) (c : Option Nat) :
    (s.stored q n o bs near c).still = s.still := by
  simp only [State.stored]
  repeat' split
  all_goals simp

@[simp] theorem State.atomicLine_still (s : State) (p : Place) (cl pol : Nat) : (s.atomicLine p cl pol).still = s.still := by
  simp only [State.atomicLine]
  repeat' split
  all_goals simp

@[simp] theorem State.l1Holds_still (s : State) (q : Perf) (p : Place) : (s.l1Holds q p).still = s.still := by
  simp only [State.l1Holds]
  split <;> simp

@[simp] theorem State.refresh_still (s : State) (cl part asid : Nat) (p : Place) : (s.refresh cl part asid p).still = s.still := by
  unfold State.refresh
  split <;> simp

@[simp] theorem State.grantExclusive_still (s : State) (q : Perf) (p : Place) : (s.grantExclusive q p).still = s.still := by
  simp only [State.grantExclusive]
  split <;> simp

@[simp] theorem State.atomicAfter_still (s : State) (q : Perf) (o : MemOp) (near : Bool) : (s.atomicAfter q o near).still = s.still := by
  simp only [State.atomicAfter]
  repeat' split
  all_goals simp

@[simp] theorem State.rmw_still (s : State) (q : Perf) (o : MemOp) (ty : DType) (new : W64 → Option W64 × FpFlags) :
    (s.rmw q o ty new).2.2.2.2.still = s.still := by
  unfold State.rmw
  extract_lets near s1 old v
  split
  · extract_lets bs r s2
    simp only [State.atomicAfter_still]
    unfold s2
    split <;> simp [r, s1]
  · simp [s1]

@[simp] theorem State.storePerforms_still (s : State) (q : Perf) (n : Nat) (o : MemOp) (bs : List Byte) : (s.storePerforms q n o bs).still = s.still := by
  simp [State.storePerforms]

@[simp] theorem State.zeroPerforms_still (s : State) (q : Perf) (n : Nat) (o : MemOp) : (s.zeroPerforms q n o).still = s.still := by
  simp only [State.zeroPerforms]
  simp

@[simp] theorem State.performs_still (s : State) (q : Perf) (n : Nat) (o : MemOp) : (s.performs q n o).still = s.still := by
  unfold State.performs
  cases o.kind with
  | load size reply off =>
    simp only [State.loadPerforms]
    split <;> simp
  | store bs => simp
  | zero => simp
  | atomic fn ty rm cas v reply =>
    simp only [State.atomicPerforms]
    split <;> simp
  | replayed ty new =>
    simp only [State.replayPerforms]
    split <;> simp

theorem State.performsAt_still {s : State} (h : s.flaws = []) (q : Perf) (n : Nat) (o : MemOp) : (s.performsAt q n o).still = s.still := by
  rw [State.performsAt_clean h, State.performs_still]

/-- A fold whose steps keep states clean and, where they are, the still part. -/
theorem foldl_clean_still {α : Type} {f : State → α → State} (hc : ∀ (u : State) (a : α), u.Clean (f u a)) (hf : ∀ u a, u.flaws = [] → (f u a).still = u.still)
    (l : List α) {s : State} (h : s.flaws = []) : (l.foldl f s).flaws = [] ∧ (l.foldl f s).still = s.still :=
  foldl_keeps (fun u : State => u.flaws = [] ∧ u.still = s.still) f l
    (fun u a _ hu => ⟨hc u a hu.1, (hf u a hu.1).trans hu.2⟩) s ⟨h, rfl⟩

theorem State.access_still {s : State} (h : s.flaws = []) (a : AgentId) (n : Nat) : (s.access a n).still = s.still := by
  unfold State.access
  split
  · split
    · split
      · rw [State.modAgent_still]
        exact (foldl_clean_still (fun u e => (u.performsAt_keeps _ _ _).clean) (fun u e hu => State.performsAt_still hu _ _ _) _ h).2
      · rfl
    · rfl
  · rfl

theorem State.accessAll_still {s : State} (h : s.flaws = []) (a : AgentId) : (s.accessAll a).still = s.still := by
  unfold State.accessAll
  split
  · rfl
  · exact (foldl_clean_still (fun u n => (u.access_keeps a n).clean) (fun u n hu => State.access_still hu a n) _ h).2

@[simp] theorem State.applyAck_still (s : State) (a : AgentId) (n : Nat) : (s.applyAck a n).still = s.still := by
  unfold State.applyAck
  split
  · split
    · rfl
    · dsimp only
      split <;> simp
  · rfl

theorem State.applyAcks_still {s : State} (h : s.flaws = []) (a : AgentId) : (s.applyAcks a).still = s.still := by
  unfold State.applyAcks
  extract_lets s1
  have h1 : s1.still = s.still := State.accessAll_still h a
  split
  · exact h1
  · exact (foldl_still (fun u n => u.applyAck_still a n) _ s1).trans h1

/-! ### The census, the team barrier and the count of a beat -/

theorem State.agentEnded_still {s : State} (h : s.flaws = []) (a : AgentId) : (s.agentEnded a).still = s.still := by
  simp only [State.agentEnded, State.modAgent_still, State.applyAcks_still h]

@[simp] theorem setFrame_still (s : State) (a : AgentId) (t : Team) (x : Agent) (d : Nat) (l : Label) : (setFrame s a t x d l).still = s.still := by
  unfold setFrame
  extract_lets out y
  split <;> simp

theorem State.census_still {s : State} (h : s.flaws = []) (a : AgentId) (frm : Nat) : (s.census a frm).still = s.still := by
  unfold State.census
  split
  · split
    · split
      · exact State.agentEnded_still h a
      · simp
    · simp only
      split
      · simp
      · split <;> simp
  · rfl

theorem State.releaseBar_still {s : State} (h : s.flaws = []) (team : Nat) : (s.releaseBar team 16).still = s.still := by
  unfold State.releaseBar
  split
  · rfl
  · split
    · rfl
    · rename_i b _
      have hdel : (s.modTeam team fun t => { t with bars := Tbl.del t.bars 16 }).still = s.still :=
        s.modTeam_still team fun t => by simp [Team.core]
      refine ((foldl_clean_still ?_ ?_ b.waiters (s := s.modTeam team fun t => { t with bars := Tbl.del t.bars 16 }) h).2).trans hdel
      · intro u g
        dsimp only
        split
        · exact id
        · split
          · exact fun hu => (State.census_keeps _ _ _).clean hu
          · exact id
      · intro u g hu
        dsimp only
        split
        · rfl
        · split
          · rw [State.census_still (by exact hu), State.setAgent_still]
          · rfl

end Sys2Proof.Machine
end

section
/-! An agent that lives on after its beat keeps all but the sweep's own state (R61 to R66, R69, R70). -/

namespace Sys2Proof.Machine

/-- The agent without what its rail, the sweep's own state and its team's save keep for it. -/
def Agent.core (x : Agent) : Agent :=
  { x with p := 0, f := 0, n := 0, frame := [], spilled := [], issue := .idle, restart := 0, block := none, active := false, lastBeat := 0, goose := 0,
           gooseSeq := 0, held := false, arr := { x.arr with noWatch := false } }

/-! What a record shares with one of the same core. -/

section
variable {x y : Agent} (h : y.core = x.core)
include h

theorem Agent.regs_of_core : y.regs = x.regs := (congrArg Agent.regs h : y.core.regs = x.core.regs)
theorem Agent.lanes_of_core : y.lanes = x.lanes := (congrArg Agent.lanes h : y.core.lanes = x.core.lanes)
theorem Agent.lane_of_core (l : Nat) : y.lane l = x.lane l := by rw [Agent.lane, Agent.lane, Agent.lanes_of_core h]
theorem Agent.pend_of_core : y.pend = x.pend := (congrArg Agent.pend h : y.core.pend = x.core.pend)
theorem Agent.ops_of_core : y.ops = x.ops := (congrArg Agent.ops h : y.core.ops = x.core.ops)
theorem Agent.acks_of_core : y.acks = x.acks := (congrArg Agent.acks h : y.core.acks = x.core.acks)
theorem Agent.gwct_of_core : y.gwct = x.gwct := (congrArg Agent.gwct h : y.core.gwct = x.core.gwct)
theorem Agent.kind_of_core : y.kind = x.kind := (congrArg Agent.kind h : y.core.kind = x.core.kind)
theorem Agent.cseq_of_core : y.cseq = x.cseq := (congrArg Agent.cseq h : y.core.cseq = x.core.cseq)
theorem Agent.stop_of_core : y.stop = x.stop := (congrArg Agent.stop h : y.core.stop = x.core.stop)

end

/-- The agent stands in the state with a record that differs only in what its rail, the sweep and its team's save keep, and runs on. -/
structure State.RunsOn (s : State) (a : AgentId) (x : Agent) : Prop where
  found : ∃ y, s.agent a = some y ∧ y.core = x.core ∧ (y.issue = .beats ∨ y.issue = .arrive true)

theorem State.RunsOn.mod {s : State} {a : AgentId} {x : Agent} (h : s.RunsOn a x) {f : Agent → Agent}
    (hf : ∀ y, (f y).core = y.core ∧ (f y).issue = y.issue) : (s.modAgent a f).RunsOn a x := by
  obtain ⟨y, hy, hc, hi⟩ := h.found
  exact ⟨f y, by rw [State.agent_modAgent_same, hy]; rfl, (hf y).1.trans hc, by rw [(hf y).2]; exact hi⟩

theorem Agent.runLanes_of_core {x y : Agent} (h : y.core = x.core) : y.runLanes = x.runLanes := by
  have hl : y.core.lanes = x.core.lanes := congrArg Agent.lanes h
  exact congrArg (fun ls : List LaneRec => (lanes32.take ls.length).filter fun i => decide ((ls.getD i default).s = .run)) hl

theorem State.RunsOn.team {s : State} {a : AgentId} {x : Agent} (h : s.RunsOn a x) : ∃ t, s.team a.team = some t := by
  obtain ⟨y, hy, -, -⟩ := h.found
  unfold State.agent at hy
  cases ht : s.team a.team with
  | none => simp [ht] at hy
  | some t => exact ⟨t, rfl⟩

theorem setFrame_agent (s : State) (a : AgentId) (t : Team) (x : Agent) (d : Nat) (l : Label) {z : Agent} (hz : s.agent a = some z) :
    ∃ y, (setFrame s a t x d l).agent a = some y ∧ y.core = x.core := by
  unfold setFrame
  extract_lets out y
  have hset : (s.setAgent a y).agent a = some y := State.agent_setAgent_self hz
  split
  · exact ⟨y, (State.agent_congr (seqWrite_teams ..).1 a).trans hset, rfl⟩
  · exact ⟨y, hset, rfl⟩

/-- The census sends an agent with a running lane to an index (R63). -/
theorem State.census_runsOn {s : State} {a : AgentId} {x : Agent} (h : s.RunsOn a x) (hx : x.runLanes ≠ []) (frm : Nat) :
    (s.census a frm).RunsOn a x := by
  obtain ⟨y, hy, hc, -⟩ := h.found
  obtain ⟨t, ht⟩ := h.team
  have hrun : y.runLanes ≠ [] := by rwa [Agent.runLanes_of_core hc]
  have hset : ∀ z : Agent, (s.setAgent a z).agent a = some z := fun z => agent_setAgent_self hy
  unfold State.census
  simp only [ht, hy]
  split
  · contradiction
  · split
    · obtain ⟨z, hz, hzc⟩ := setFrame_agent s a t y y.f.toNat (BitVec.ofNat 28 frm) hy
      exact ⟨_, by rw [State.agent_modAgent_same, hz]; rfl, by exact hzc.trans hc, .inr rfl⟩
    · split
      · exact ⟨_, hset _, by exact hc, .inr rfl⟩
      · exact ⟨_, hset _, by exact hc, .inr rfl⟩

theorem Tbl.mem_of_find? {α : Type} {m : Tbl α} {k : Nat} {v : α} (h : Tbl.find? m k = some v) : (k, v) ∈ m := by
  induction m with
  | nil => cases h
  | cons e m ih =>
    obtain ⟨j, w⟩ := e
    simp only [Tbl.find?] at h
    split at h
    · cases h
      subst_vars
      exact List.mem_cons_self
    · exact List.mem_cons_of_mem _ (ih h)

/-- A team one of whose agents runs on has not ended all over. -/
theorem Team.allEnded_of_runsOn {s : State} {a : AgentId} {x : Agent} {t : Team} (h : s.RunsOn a x) (ht : s.team a.team = some t) :
    t.allEnded = false := by
  obtain ⟨y, hy, -, hi⟩ := h.found
  have hf : Tbl.find? t.agents a.who = some y := by simpa [State.agent, ht] using hy
  have hne : y.issue ≠ .ended := by rcases hi with hi | hi <;> simp [hi]
  refine Bool.eq_false_iff.mpr fun hall => ?_
  simp only [Team.allEnded, Bool.and_eq_true, List.all_eq_true, decide_eq_true_eq] at hall
  exact hne (hall.2 _ (Tbl.mem_of_find? hf))

theorem State.RunsOn.notBarrier {s : State} {a : AgentId} {x : Agent} (h : s.RunsOn a x) : ∀ z, s.agent a = some z → z.issue ≠ .barrier := by
  obtain ⟨y, hy, -, hi⟩ := h.found
  intro z hz
  obtain rfl := Option.some.inj (hy.symm.trans hz)
  rcases hi with hi | hi <;> simp [hi]

theorem State.releaseBar_runsOn {s : State} (hs : s.flaws = []) {a : AgentId} {x : Agent} (h : s.RunsOn a x) (team : Nat) :
    (s.releaseBar team 16).RunsOn a x := by
  obtain ⟨y, hy, hc, hi⟩ := h.found
  exact ⟨y, (State.releaseBar_agent s hs team 16 a h.notBarrier).trans hy, hc, hi⟩

/-- What an index's census brings about in the team of an agent that runs on leaves the agent alone. -/
theorem State.settle_runsOn {s : State} (hs : s.flaws = []) {a : AgentId} {x : Agent} (h : s.RunsOn a x) :
    (s.settle a.team).RunsOn a x ∧ (s.settle a.team).still = s.still := by
  obtain ⟨t, ht⟩ := h.team
  have hrel := State.releaseBar_runsOn hs h a.team
  unfold State.settle
  simp only [ht, Team.allEnded_of_runsOn h ht]
  split
  · exact ⟨h, rfl⟩
  · simp only [Bool.false_eq_true, if_false]
    split
    · split
      · rename_i t1 ht1
        simp only [Team.allEnded_of_runsOn hrel ht1, Bool.false_and, Bool.false_eq_true, if_false]
        exact ⟨hrel, State.releaseBar_still hs _⟩
      · exact ⟨hrel, State.releaseBar_still hs _⟩
    · exact ⟨h, rfl⟩

theorem State.nextIndex_runsOn {s : State} (hs : s.flaws = []) {a : AgentId} {x : Agent} (h : s.RunsOn a x) (hx : x.runLanes ≠ []) :
    (s.nextIndex a).RunsOn a x ∧ (s.nextIndex a).still = s.still := by
  obtain ⟨y, hy, -, -⟩ := h.found
  unfold State.nextIndex
  simp only [hy]
  obtain ⟨hrun, hstill⟩ := State.settle_runsOn ((State.census_keeps s a (y.p.toNat + 1)).clean hs) (State.census_runsOn h hx (y.p.toNat + 1))
  exact ⟨hrun, hstill.trans (State.census_still hs a _)⟩

theorem State.countThread_still (s : State) (b : Beat) : (s.countThread b).still = s.still := rfl

theorem State.countGroup_still (s : State) (b : Beat) (whole : Bool) : (s.countGroup b whole).still = s.still := by
  unfold State.countGroup
  extract_lets qs s1 k
  have h1 : s1.still = s.still := by
    unfold s1
    split
    · rfl
    · exact foldl_still (f := fun u q => u.countQuad b q) (fun _ _ => rfl) qs s
  clear_value s1
  exact h1

theorem State.countGroup_teams (s : State) (b : Beat) (whole : Bool) : (s.countGroup b whole).teams = s.teams := by
  unfold State.countGroup
  extract_lets qs s1 k
  have h1 : s1.teams = s.teams := by
    unfold s1
    split
    · rfl
    · exact foldl_keeps (fun u : State => u.teams = s.teams) (fun u q => u.countQuad b q) qs (fun _ _ _ h => h) s rfl
  clear_value s1
  exact h1

/-- The count of a beat. -/
theorem State.countBeat_eq (s : State) (b : Beat) (whole : Bool) :
    ∃ u : State, ∃ n, u.still = s.still ∧ u.teams = s.teams ∧ s.countBeat b whole = u.modAgent b.a fun x =>
      { x with lastBeat := n, active := x.active || (x.isGroup && decide (x.issue = .beats)) } := by
  unfold State.countBeat
  extract_lets s1
  have h1 : s1.still = s.still ∧ s1.teams = s.teams := by
    unfold s1
    split
    · exact ⟨State.countGroup_still .., State.countGroup_teams ..⟩
    · exact ⟨rfl, rfl⟩
  clear_value s1
  exact ⟨{ s1 with beatSeq := s1.beatSeq + 1 }, _, h1.1, h1.2, rfl⟩

theorem State.RunsOn.congr {s t : State} {a : AgentId} {x : Agent} (h : s.RunsOn a x) (ht : t.teams = s.teams) : t.RunsOn a x := by
  obtain ⟨y, hy, hc, hi⟩ := h.found
  exact ⟨y, (State.agent_congr ht a).trans hy, hc, hi⟩

theorem State.countBeat_runsOn {s : State} {b : Beat} {x : Agent} (h : s.RunsOn b.a x) (whole : Bool) :
    (s.countBeat b whole).RunsOn b.a x ∧ (s.countBeat b whole).still = s.still := by
  obtain ⟨u, n, hs, ht, he⟩ := s.countBeat_eq b whole
  rw [he]
  exact ⟨(h.congr ht).mod fun y => ⟨rfl, rfl⟩, (State.modAgent_still u b.a _).trans hs⟩

theorem State.passBeat_runsOn {s : State} (hs : s.flaws = []) {b : Beat} {x : Agent} (h : s.RunsOn b.a x) (hx : x.runLanes ≠ []) (whole : Bool) :
    (s.passBeat b whole).RunsOn b.a x ∧ (s.passBeat b whole).still = s.still := by
  unfold State.passBeat
  split
  · exact ⟨h.mod fun y => ⟨rfl, rfl⟩, State.modAgent_still ..⟩
  · have hm : (s.modAgent b.a fun y => { y with restart := 0, block := none }).RunsOn b.a x := h.mod fun y => ⟨rfl, rfl⟩
    obtain ⟨hrun, hstill⟩ := State.nextIndex_runsOn (s := s.modAgent b.a fun y => { y with restart := 0, block := none }) hs hm hx
    exact ⟨hrun, hstill.trans (State.modAgent_still ..)⟩

theorem State.afterBeat_runsOn {s : State} (hs : s.flaws = []) {b : Beat} {x : Agent} (h : s.RunsOn b.a x) (hx : x.runLanes ≠ []) (whole : Bool) :
    (s.afterBeat b whole).RunsOn b.a x ∧ (s.afterBeat b whole).still = s.still := by
  obtain ⟨h1, hs1⟩ := State.countBeat_runsOn h whole
  obtain ⟨h2, hs2⟩ := State.passBeat_runsOn (by rw [State.countBeat_flaws]; exact hs) h1 hx whole
  exact ⟨h2, hs2.trans hs1⟩

@[simp] theorem State.markHeld_still (s : State) (a : AgentId) : (s.markHeld a).still = s.still :=
  s.modTeam_still a.team fun t => by split <;> rfl

/-- The mark of a shed point. -/
theorem State.markHeld_agent (s : State) (a c : AgentId) :
    ∃ f : Agent → Agent, (∀ x, f x = x ∨ (c = a ∧ f x = { x with held := true })) ∧ (s.markHeld a).agent c = (s.agent c).map f := by
  unfold State.markHeld
  rw [State.agent_modTeam]
  split
  · rename_i hteam
    unfold State.agent
    cases ht : s.team c.team with
    | none => exact ⟨id, fun _ => .inl rfl, rfl⟩
    | some t =>
      simp only [Option.map_some, Option.bind_some]
      split
      · rw [Tbl.find?_modify]
        split
        · rename_i hwho
          refine ⟨fun x => if x.atShedPoint then { x with held := true } else x, fun x => ?_, rfl⟩
          dsimp only
          split
          · exact .inr ⟨by cases c; cases a; simp_all, rfl⟩
          · exact .inl rfl
        · exact ⟨id, fun _ => .inl rfl, by simp⟩
      · exact ⟨id, fun _ => .inl rfl, by simp⟩
  · exact ⟨id, fun _ => .inl rfl, by simp⟩

theorem State.markHeld_runsOn {s : State} {a : AgentId} {x : Agent} (h : s.RunsOn a x) : (s.markHeld a).RunsOn a x := by
  obtain ⟨y, hy, hc, hi⟩ := h.found
  obtain ⟨f, hf, he⟩ := s.markHeld_agent a a
  refine ⟨f y, by rw [he, hy]; rfl, ?_, ?_⟩
  · rcases hf y with h | ⟨-, h⟩ <;> rw [h] <;> exact hc
  · rcases hf y with h | ⟨-, h⟩ <;> rw [h] <;> exact hi

/-- A beat that has performed, whose agent has a running lane and stands at its beats: the agent keeps all but the sweep's own state, and the rest of
the state stays, but for memory, caches, wakes, other agents and a team barrier that this beat lets release. -/
theorem State.conclude_done_runsOn {s t : State} (ht : t.flaws = []) {b : Beat} {x : Agent} (hx : t.agent b.a = some x) (hi : x.issue = .beats)
    (hr : x.runLanes ≠ []) (whole : Bool) :
    ∃ y, (s.conclude b whole (.done t)).agent b.a = some y ∧ y.core = x.core ∧ (s.conclude b whole (.done t)).still = t.still := by
  obtain ⟨h, hs⟩ := State.afterBeat_runsOn (b := b) ht ⟨x, hx, rfl, .inl hi⟩ hr whole
  obtain ⟨y, hy, hc, -⟩ := (State.markHeld_runsOn h).found
  exact ⟨y, hy, hc, (State.markHeld_still _ _).trans hs⟩

/-- A beat after which its lanes wait where they are. -/
theorem State.conclude_left_runsOn {s t : State} {b : Beat} {x : Agent} (hx : t.agent b.a = some x) (hi : x.issue = .beats) (whole : Bool) :
    ∃ y, (s.conclude b whole (.left t)).agent b.a = some y ∧ y.core = x.core ∧ (s.conclude b whole (.left t)).still = t.still := by
  obtain ⟨h, hs⟩ := State.countBeat_runsOn (b := b) ⟨x, hx, rfl, .inl hi⟩ whole
  obtain ⟨y, hy, hc, -⟩ := (State.markHeld_runsOn h).found
  exact ⟨y, hy, hc, (State.markHeld_still _ _).trans hs⟩

end Sys2Proof.Machine
end

section
/-! Integer, floating-point and long forms at a due beat (R41, R42, R54, R97 to R118). -/

namespace Sys2Proof.Machine

/-! ### The agent with which the body of a due beat begins -/

/-- The agent of a beat as its body finds it: its tokens are waited for, and the lanes of the beat want the next index. -/
def Beat.begunAgent (b : Beat) : Agent :=
  { (({ b.x with arr := { b.x.arr with wk := 0 } } : Agent).advance b.act) with
    arr := { b.x.arr with wk := 0, released := b.x.arr.released || decide (b.perf ≠ 0) } }

/-- An advance moves lanes only. -/
theorem Agent.advance_eq (x : Agent) (m : LaneMask) : x.advance m = { x with lanes := (x.advance m).lanes } :=
  foldl_keeps (fun y : Agent => y = { x with lanes := y.lanes }) (fun y i => y.modLane i fun l => { l with w := x.p + 1 }) (lanesIn m)
    (fun y i _ h => by rw [h]; rfl) x rfl

theorem Beat.begunAgent_eq (b : Beat) : b.begunAgent =
    { b.x with arr := { b.x.arr with wk := 0, released := b.x.arr.released || decide (b.perf ≠ 0) }, lanes := b.begunAgent.lanes } := by
  unfold Beat.begunAgent
  rw [Agent.advance_eq]

theorem Due.agent {i : Instr} {f : Fields} {s : State} {b : Beat} (h : Due i f s b) : s.agent b.a = some b.x := by
  obtain ⟨r, hc, -, -⟩ := h.now
  exact State.current_agent hc

theorem Due.team {i : Instr} {f : Fields} {s : State} {b : Beat} (h : Due i f s b) : s.team b.a.team = some b.t := by
  obtain ⟨r, hc, -, -⟩ := h.now
  unfold State.current at hc
  repeat' split at hc
  all_goals simp_all

theorem Due.issue {i : Instr} {f : Fields} {s : State} {b : Beat} (h : Due i f s b) : b.x.issue = .beats := by
  obtain ⟨r, hc, -, -⟩ := h.now
  unfold State.current at hc
  repeat' split at hc
  all_goals simp_all

theorem Due.begun_agent {i : Instr} {f : Fields} {s : State} {b : Beat} (h : Due i f s b) : (s.begun b).agent b.a = some b.begunAgent := by
  unfold State.begun State.waited
  rw [State.agent_modAgent_same, State.agent_modAgent_same, h.agent]
  simp only [Option.map_some, Beat.begunAgent]

/-! ### Lanes after an advance -/

theorem modNth_eq {α : Type} (l : List α) (i : Nat) (f : α → α) : modNth l i f = l.modify i f := by
  induction l generalizing i with
  | nil => cases i <;> rfl
  | cons y ys ih => cases i with
    | zero => rfl
    | succ n => exact congrArg (y :: ·) (ih n)

theorem Agent.lanes_length_modLane (x : Agent) (i : Nat) (f : LaneRec → LaneRec) : (x.modLane i f).lanes.length = x.lanes.length := by
  simp [Agent.modLane, modNth_eq]

/-- A changed lane is the changed record of it; every other lane stays. -/
theorem Agent.lane_modLane (x : Agent) (i k : Nat) (f : LaneRec → LaneRec) :
    (x.modLane i f).lane k = if k = i ∧ k < x.lanes.length then f (x.lane k) else x.lane k := by
  simp only [Agent.lane, Agent.modLane, modNth_eq, List.getD_eq_getElem?_getD, List.getElem?_modify]
  by_cases hk : k < x.lanes.length
  · by_cases hi : i = k
    · subst hi; simp [hk]
    · simp [hk, hi, Ne.symm hi]
  · simp [hk]

theorem mem_lanesIn {m : LaneMask} {l : Nat} : l ∈ lanesIn m ↔ m.getLsbD l = true := by
  refine ⟨fun h => (List.mem_filter.mp h).2, fun h => List.mem_filter.mpr ⟨?_, h⟩⟩
  have hall : ∀ k < 32, k ∈ lanes32 := by decide
  refine hall l (Nat.lt_of_not_le fun hge => ?_)
  rw [BitVec.getLsbD_of_ge _ _ hge] at h
  cases h

/-- The lanes of a list sent to one index. -/
theorem Agent.lane_foldl_want (ls : List Nat) (c : Label) (x : Agent) (l : Nat) :
    ((ls.foldl (fun y i => y.modLane i fun r => { r with w := c }) x).lane l) =
      if l ∈ ls ∧ l < x.lanes.length then { x.lane l with w := c } else x.lane l := by
  induction ls generalizing x with
  | nil => simp
  | cons i ls ih =>
    rw [List.foldl_cons, ih, Agent.lane_modLane, Agent.lanes_length_modLane]
    by_cases hl : l < x.lanes.length <;> by_cases hi : l = i <;> by_cases hm : l ∈ ls <;> simp [hl, hi, hm] <;> simp_all

theorem Agent.lane_advance (x : Agent) (m : LaneMask) (l : Nat) :
    (x.advance m).lane l = if m.getLsbD l = true ∧ l < x.lanes.length then { x.lane l with w := x.p + 1 } else x.lane l := by
  rw [Agent.advance, Agent.lane_foldl_want]
  simp only [mem_lanesIn]

theorem Agent.lanes_length_advance (x : Agent) (m : LaneMask) : (x.advance m).lanes.length = x.lanes.length :=
  foldl_keeps (fun y : Agent => y.lanes.length = x.lanes.length) (fun y i => y.modLane i fun l => { l with w := x.p + 1 }) (lanesIn m)
    (fun _ _ _ h => (Agent.lanes_length_modLane ..).trans h) x rfl

@[simp] theorem Beat.begunAgent_lanes_length (b : Beat) : b.begunAgent.lanes.length = b.x.lanes.length :=
  Agent.lanes_length_advance ({ b.x with arr := { b.x.arr with wk := 0 } } : Agent) b.act

/-- The lanes of a beat want the next index as its body begins (R62). -/
theorem Beat.begunAgent_lane (b : Beat) {l : Nat} (hl : l < b.x.lanes.length) :
    b.begunAgent.lane l = if b.act.getLsbD l then { b.x.lane l with w := b.x.p + 1 } else b.x.lane l := by
  have h := Agent.lane_advance ({ b.x with arr := { b.x.arr with wk := 0 } } : Agent) b.act l
  exact h.trans (if_congr (and_iff_left hl) rfl rfl)

/-- A lane's state stays as the body of the beat begins. -/
theorem Beat.begunAgent_runLanes (b : Beat) : b.begunAgent.runLanes = b.x.runLanes := by
  unfold Agent.runLanes Agent.laneNos
  rw [Beat.begunAgent_lanes_length]
  refine List.filter_congr fun l hl => ?_
  have hlt : l < b.x.lanes.length := by
    have htake : ∀ n, ∀ k ∈ lanes32.take n, k < n := by
      intro n k hk
      have h32 : lanes32 = List.range 32 := by decide
      rw [h32, List.take_range, List.mem_range] at hk
      omega
    exact htake _ l hl
  rw [Beat.begunAgent_lane b hlt]
  split <;> rfl

end Sys2Proof.Machine
end

section
/-! Integer, floating-point and long forms at a due beat (R41, R42, R54, R97 to R118). -/

namespace Sys2Proof.Machine

/-! ### The forms and their destinations -/

/-- A value slot of 64 bits takes an even lane register (R44). -/
def Slot.paired : Slot → Prop
  | .val _ n w _ _ _ _ _ => n = regsFor w
  | _ => True

theorem Slot.even_of_ok {k : AgentKind} {any : Bool} {s : Slot} (hp : s.paired) {r : BitVec 7} (h : slotOk k any s (.v r) = true)
    (hw : slotWidth s = 64) : r.toNat % 2 = 0 := by
  cases s with
  | val d n w v u q z i =>
    have h64 : w = 64 := by
      simp only [slotWidth] at hw
      split at hw
      · assumption
      · omega
    have hn : n = 2 := by rw [show n = regsFor w from hp, h64]; rfl
    simp only [slotOk, Bool.and_eq_true, decide_eq_true_eq, hn] at h
    exact h.2
  | unused | pred | queue => simp [slotWidth] at hw

/-- What a register form's row says of its destinations: D is a value or a predicate, and only a form with a predicate E gives a second result. -/
structure RegisterRow (r : Row) (op : Vals → Res) : Prop where
  paired : r.d.paired
  second : (∀ v, (op v).e = none) ∨ ((∀ c, r.d ≠ .pred c) ∧ r.e = .pred true)

theorem integerForm_spec {i : Instr} {f : Fields} {op : Vals → Res} (h : integerForm i = some (f, op)) :
    (∀ s, exec i s = laneOp i f false op s) ∧ (∃ n, formOf i = some (n, f)) ∧ (∀ r, rowFor i = some r → RegisterRow r op) ∧
      ∀ v, (op v).keep = false ∧ (op v).fl = 0 := by
  unfold integerForm at h
  split at h
  all_goals cases h
  all_goals refine ⟨fun _ => rfl, ⟨_, rfl⟩, ?_, fun _ => ⟨rfl, rfl⟩⟩
  all_goals rintro _ ⟨⟩
  case h_29 => exact ⟨rfl, .inr ⟨fun _ => nofun, rfl⟩⟩
  all_goals exact ⟨by trivial, .inl fun _ => rfl⟩

theorem floatForm_second {i : Instr} {f : Fields} {op : Vals → Res} (h : floatForm i = some (f, op)) (v : Vals) : (op v).e = none := by
  unfold floatForm at h
  split at h
  all_goals cases h
  case h_14 =>
    simp only [cvtsRes]
    repeat' split
    all_goals rfl
  all_goals rfl

theorem floatForm_spec {i : Instr} {f : Fields} {op : Vals → Res} (h : floatForm i = some (f, op)) :
    (∀ s, exec i s = laneOp i f false op s) ∧ (∃ n, formOf i = some (n, f)) ∧ (∀ r, rowFor i = some r → RegisterRow r op) := by
  have he := floatForm_second h
  unfold floatForm at h
  split at h
  all_goals cases h
  all_goals refine ⟨fun _ => rfl, ⟨_, rfl⟩, ?_⟩
  all_goals rintro _ ⟨⟩
  all_goals exact ⟨by trivial, .inl he⟩

theorem longForm_spec {i : Instr} {f : Fields} {op : Vals → Res} (h : longForm i = some (f, op)) :
    (∀ s, exec i s = laneOp i f true op s) ∧ (∃ n, formOf i = some (n, f)) ∧ (∀ r, rowFor i = some r → RegisterRow r op) ∧
      ∀ v, (op v).keep = false := by
  unfold longForm at h
  split at h
  all_goals cases h
  all_goals refine ⟨fun _ => rfl, ⟨_, rfl⟩, ?_, fun _ => rfl⟩
  all_goals rintro _ ⟨⟩
  all_goals exact ⟨by trivial, .inl fun v => rfl⟩

theorem Due.registerRow {i : Instr} {f : Fields} {s : State} {b : Beat} (h : Due i f s b) {op : Vals → Res}
    (hrow : ∀ r, rowFor i = some r → RegisterRow r op) : RegisterRow b.row op := hrow _ h.row_eq

/-- A due form has operands of the kinds that its fields call for. -/
theorem Due.operands_ok {i : Instr} {f : Fields} {s : State} {b : Beat} (h : Due i f s b) (hf : ∃ n, formOf i = some (n, f)) :
    b.row.ok = true ∧ operandsOk b.x.kind (noQueue i) b.row f = true := by
  obtain ⟨n, hn⟩ := hf
  exact ok_of_decodeFault h.row_eq hn h.legal

/-- A pair in D stands at an even register. -/
theorem Due.pair_even {i : Instr} {f : Fields} {s : State} {b : Beat} (h : Due i f s b) (hf : ∃ n, formOf i = some (n, f)) {op : Vals → Res}
    (hrow : RegisterRow b.row op) (n : BitVec 7) (hn : b.f.d = .v n) (hw : slotWidth b.row.d = 64) : n.toNat % 2 = 0 := by
  obtain ⟨k, hk⟩ := hf
  obtain ⟨-, hd⟩ := h.dest_ok hk
  rw [← h.f_eq, hn] at hd
  exact Slot.even_of_ok hrow.paired hd hw

/-- A predicate D is the form's only result. -/
theorem Due.pred_alone {i : Instr} {f : Fields} {s : State} {b : Beat} (h : Due i f s b) (hf : ∃ n, formOf i = some (n, f)) {op : Vals → Res}
    (hrow : RegisterRow b.row op) (n : BitVec 3) (hn : b.f.d = .p n) (v : Vals) : (op v).e = none := by
  rcases hrow.second with h1 | ⟨hd, -⟩
  · exact h1 v
  · obtain ⟨k, hk⟩ := hf
    obtain ⟨-, hok⟩ := h.dest_ok hk
    rw [← h.f_eq, hn] at hok
    cases hs : b.row.d with
    | pred c => exact absurd hs (hd c)
    | unused | val | queue =>
      rw [hs] at hok
      simp [slotOk] at hok

/-! ### Registers that no write names -/

theorem Agent.reads_write_other (x : Agent) {g h : RegWrite} (hgh : h.sameReg g = false) :
    (x.write h).reads g = x.reads g ∧ (x.write h).isEmpty g = x.isEmpty g := by
  cases h with
  | v i r y =>
    cases g with
    | v k q z =>
      have hk : 128 * k + q ≠ 128 * i + r := fun e => by simp [RegWrite.sameReg, e] at hgh
      simp [Agent.reads, Agent.isEmpty, Agent.write, Agent.getV, Agent.emptyV, Tbl.get_put, hk]
    | u | p => exact ⟨rfl, rfl⟩
  | u r y =>
    cases g with
    | u q z =>
      have hq : q ≠ r := fun e => by simp [RegWrite.sameReg, e] at hgh
      simp [Agent.reads, Agent.isEmpty, Agent.write, Agent.getU, Agent.emptyU, Tbl.get_put, hq]
    | v | p => exact ⟨rfl, rfl⟩
  | p r i c =>
    by_cases hr : r = 7
    · simp [Agent.write, hr]
    · cases g with
      | p q k d =>
        by_cases hq : q = r
        · subst hq
          have hk : k ≠ i := fun e => by simp [RegWrite.sameReg, e] at hgh
          simp [Agent.reads, Agent.isEmpty, Agent.write, Agent.getP, Agent.emptyP, Tbl.get_put, hr, getLsbD_setBit_other _ hk]
        · simp [Agent.reads, Agent.isEmpty, Agent.write, Agent.getP, Agent.emptyP, Tbl.get_put, hr, hq]
      | v | u => simp [Agent.reads, Agent.isEmpty, Agent.write, Agent.getV, Agent.getU, Agent.emptyV, Agent.emptyU, hr]

/-- A register that none of the writes names reads as before, and is empty as before. -/
theorem Agent.reads_writeAll_other (x : Agent) {ws : List RegWrite} {g : RegWrite} (h : ∀ w ∈ ws, w.sameReg g = false) :
    (x.writeAll ws).reads g = x.reads g ∧ (x.writeAll ws).isEmpty g = x.isEmpty g := by
  induction ws generalizing x with
  | nil => exact ⟨rfl, rfl⟩
  | cons w ws ih =>
    obtain ⟨hr, he⟩ := ih (x.write w) fun v hv => h v (List.mem_cons_of_mem _ hv)
    obtain ⟨hr0, he0⟩ := Agent.reads_write_other x (h w List.mem_cons_self)
    exact ⟨hr.trans hr0, he.trans he0⟩

theorem Agent.reads_congr {x y : Agent} (h : x.regs = y.regs) (g : RegWrite) : x.reads g = y.reads g ∧ x.isEmpty g = y.isEmpty g := by
  obtain ⟨hv, hu, hpr, hvE, huE, hprE, -⟩ : x.v = y.v ∧ x.u = y.u ∧ x.pr = y.pr ∧ x.vE = y.vE ∧ x.uE = y.uE ∧ x.prE = y.prE ∧ x.fp = y.fp := by
    simpa [Agent.regs] using h
  cases g <;>
    simp only [Agent.reads, Agent.isEmpty, Agent.getV, Agent.getU, Agent.getP, Agent.emptyV, Agent.emptyU, Agent.emptyP, hv, hu, hpr, hvE, huE, hprE,
      and_self]

theorem Agent.fp_writeAll (x : Agent) (ws : List RegWrite) : (x.writeAll ws).fp = x.fp :=
  foldl_keeps (fun y : Agent => y.fp = x.fp) Agent.write ws (fun y w _ h => (Agent.write_frame y w).2.2.2.2.2.2.2.1.trans h) x rfl

/-- The writes to one operand in two lanes name one register only in one lane, or in an s or c register (R44). -/
theorem lane_of_sameReg_destWrites {w l k : Nat} {o : Operand} {y z : W64} {g h : RegWrite} (hpair : ∀ n, o = .v n → w = 64 → n.toNat % 2 = 0)
    (hg : g ∈ destWrites w l y o) (hh : h ∈ destWrites w k z o) (hs : h.sameReg g = true) : k = l ∨ ∃ n, o = .u n := by
  by_cases hkl : k = l
  · exact .inl hkl
  · refine .inr ?_
    cases o with
    | u n => exact ⟨n, rfl⟩
    | v n =>
      have hgh := destWrites_agree hpair (fun m hm => by cases hm) (fun e => absurd e.symm hkl) hg hh hs
      subst hgh
      simp only [destWrites, vWrites] at hg hh
      split at hg
      · simp only [List.mem_cons, List.not_mem_nil, or_false] at hg
        rcases hg with rfl | rfl <;> simp_all
      · simp_all
    | p n =>
      have hgh := destWrites_agree hpair (fun m hm => by cases hm) (fun e => absurd e.symm hkl) hg hh hs
      subst hgh
      simp only [destWrites, List.mem_singleton] at hg hh
      simp_all
    | q | zero | imm => cases hg

/-- A lane whose form leaves D as it was: no write of the beat names D's registers in it. -/
theorem Beat.writes_keep {b : Beat} {op : Vals → Res} (hs : b.single) (hpair : ∀ n, b.f.d = .v n → slotWidth b.row.d = 64 → n.toNat % 2 = 0)
    (he : ∀ v, (op v).e = none) {l : Nat} (hl : l ∈ b.written) (hk : (op (valsOf b 0 [] (b.sourceOf l))).keep = true) {g : RegWrite}
    (hg : g ∈ destWrites (slotWidth b.row.d) l 0 b.f.d) {h : RegWrite} (hh : h ∈ b.writes op) : h.sameReg g = false := by
  refine Bool.eq_false_iff.mpr fun hsame => ?_
  obtain ⟨k, hkm, hw⟩ := List.mem_flatMap.mp hh
  have hdest : (op (valsOf b 0 [] (b.sourceOf k))).keep = false ∧ h ∈ destWrites (slotWidth b.row.d) k (op (valsOf b 0 [] (b.sourceOf k))).d b.f.d := by
    rcases List.mem_append.mp hw with hd | hd
    · cases hkeep : (op (valsOf b 0 [] (b.sourceOf k))).keep <;> simp_all
    · simp [he] at hd
  have hsrc : b.sourceOf k = b.sourceOf l := by
    rcases lane_of_sameReg_destWrites hpair hg hdest.2 hsame with rfl | ⟨n, hn⟩
    · rfl
    · exact b.sourceOf_eq_of_single hs hn hkm hl
  rw [hsrc, hk] at hdest
  cases hdest.1

theorem foldl_or_start (fl : Nat → FpFlags) (ls : List Nat) (m : FpFlags) : ls.foldl (fun m l => m ||| fl l) m = m ||| ls.foldl (fun m l => m ||| fl l) 0 := by
  induction ls generalizing m with
  | nil => simp
  | cons l ls ih => rw [List.foldl_cons, List.foldl_cons, ih, ih (0 ||| fl l)]; simp [BitVec.or_assoc]

/-- A due register form without a queue use leaves each written lane's D with what it takes, E with its second result, and FPFLAGS with the flags. -/
theorem laneOp_takes {i : Instr} {f : Fields} {op : Vals → Res} {s : State} {b : Beat} (h : Due i f s b) (hf : ∃ n, formOf i = some (n, f))
    (hrow : RegisterRow b.row op) (hke : (∀ v, (op v).keep = false) ∨ ∀ v, (op v).e = none) (hq : quseOf b.row f = .none) (hs : b.single)
    (hp : b.perf ≠ 0) :
    ∃ t y, laneOp i f false op s = .next t ∧ t.agent b.a = some y ∧ y.fp = b.lanes.foldl (fun m l => m ||| (op (valsOf b 0 [] l)).fl) b.x.fp ∧
      ∀ l ∈ b.written, y.takes b.x (slotWidth b.row.d) l f.d (op (valsOf b 0 [] (b.sourceOf l))) ∧
        ∀ c, (op (valsOf b 0 [] (b.sourceOf l))).e = some c → ∀ n, f.e = .p n → n ≠ 7 → y.getP n.toNat l = c ∧ y.emptyP n.toNat l = false := by
  have hpair := h.pair_even hf hrow
  have hag : RegWrite.Agree (b.writes op) := Beat.writes_agree hs hpair (h.pred_alone hf hrow)
  obtain ⟨t, y, hexec, hy, hregs⟩ := laneOp_due op h hq hp
  refine ⟨t, y, hexec, hy, ?_, fun l hl => ⟨?_, fun c hc n hn h7 => ?_⟩⟩
  · rw [foldl_or_start (fun l => (op (valsOf b 0 [] l)).fl)]
    exact (congrArg RegFile.fp hregs).trans (Agent.fp_writeAll _ _)
  · unfold Agent.takes
    rw [← h.f_eq]
    split
    · rename_i hkeep
      have he : ∀ v, (op v).e = none := by
        rcases hke with hno | he
        · rw [hno] at hkeep; cases hkeep
        · exact he
      intro g hg
      obtain ⟨hr, hE⟩ := Agent.reads_writeAll_other ({ b.x with fp := b.x.fp ||| b.flags op } : Agent) fun w hw =>
        Beat.writes_keep hs hpair he hl hkeep hg hw
      obtain ⟨hr', hE'⟩ := Agent.reads_congr hregs g
      exact ⟨hr'.trans hr, hE'.trans hE⟩
    · rename_i hkeep
      exact holds_of_writes hregs hag hl (Bool.eq_false_iff.mpr hkeep)
  · rw [← h.f_eq] at hn
    exact getP_of_writes hregs hag hl hc hn h7

/-! ### Integer and floating-point results -/

/-- Settles O11: the writes of a due integer form agree, so each written lane's D holds the result, and E the carry. -/
theorem integerResults : Obligations.IntegerResults := by
  intro i f op s b hform h hq hs hp
  obtain ⟨hexec, hf, hrow, hop⟩ := integerForm_spec hform
  have hr := h.registerRow hrow
  obtain ⟨t, y, hnext, hy, hfp, hall⟩ := laneOp_takes h hf hr (.inl fun v => (hop v).1) hq hs hp
  refine ⟨t, y, (hexec s).trans hnext, hy, ?_, fun l hl => ?_⟩
  · rw [hfp]
    exact foldl_keeps (fun m => m = b.x.fp) _ _ (fun m l _ hm => by rw [hm, (hop _).2]; simp) _ rfl
  · obtain ⟨htakes, hE⟩ := hall l hl
    have hkeep := (hop (valsOf b 0 [] (b.sourceOf l))).1
    rw [Agent.takes, hkeep] at htakes
    refine ⟨htakes, fun c hc => ?_⟩
    have hslot : b.row.e = .pred true := by
      rcases hr.second with hnone | ⟨-, he⟩
      · rw [hnone] at hc; cases hc
      · exact he
    obtain ⟨-, hok⟩ := h.operands_ok hf
    simp only [operandsOk, Bool.and_eq_true] at hok
    obtain ⟨⟨⟨⟨⟨-, he⟩, -⟩, -⟩, -⟩, -⟩ := hok
    rw [hslot] at he
    cases hfe : f.e with
    | p n =>
      intro h7
      obtain ⟨hget, hfull⟩ := hE c hc n hfe h7
      exact ⟨by rw [hget, bit_b2n], hfull⟩
    | q => trivial
    | v | u | zero | imm => rw [hfe] at he; simp [slotOk] at he

/-- Settles O12: the writes of a due floating-point form agree, and FPFLAGS collects what its lanes raise. -/
theorem floatResults : Obligations.FloatResults := by
  intro i f op s b hform h hq hs hp
  obtain ⟨hexec, hf, hrow⟩ := floatForm_spec hform
  have he : ∀ v, (op v).e = none := floatForm_second hform
  obtain ⟨t, y, hnext, hy, hfp, hall⟩ := laneOp_takes h hf (h.registerRow hrow) (.inr he) hq hs hp
  exact ⟨t, y, (hexec s).trans hnext, hy, hfp, fun l hl => (hall l hl).1⟩

/-! ### Beats that do not perform, and results under way -/

theorem laneBody_idle {s0 s : State} {long : Bool} {op : Vals → Res} {b : Beat} (hp : b.perf = 0) : laneBody s0 long op b s = .done s := by
  simp [laneBody, hp]

theorem State.begun_regsOf (s : State) (b : Beat) (c : AgentId) : (s.begun b).regsOf c = s.regsOf c := by
  unfold State.begun State.waited
  rw [State.regsOf_modAgent _ _ _ (by intro y; exact Agent.advance_regs y b.act), State.regsOf_modAgent _ _ _ (by intro _; rfl)]

theorem Due.begun_notBarrier {i : Instr} {f : Fields} {s : State} {b : Beat} (h : Due i f s b) :
    ∀ x, (s.begun b).agent b.a = some x → x.issue ≠ .barrier := by
  intro x hx
  rw [h.begun_agent] at hx
  obtain rfl := Option.some.inj hx
  rw [Beat.begunAgent_eq, h.issue]
  nofun

/-- A beat that changes nothing beyond the labels of its lanes. -/
theorem Due.idle_result {i : Instr} {f : Fields} {s : State} {b : Beat} (h : Due i f s b) (whole : Bool) :
    ∃ y, ((s.waited b.a).conclude b whole (.done (s.begun b))).agent b.a = some y ∧ y.lanes = b.begunAgent.lanes ∧ y.regs = b.x.regs ∧
      ∀ c, ((s.waited b.a).conclude b whole (.done (s.begun b))).regsOf c = s.regsOf c := by
  have hregs := fun c => (State.conclude_done_regs (s.waited b.a) (s.begun b) h.clean b whole c).trans (State.begun_regsOf s b c)
  have hlanes := State.conclude_done_lanes (s.waited b.a) (s.begun b) h.clean b whole h.begun_notBarrier
  have hra := hregs b.a
  rw [State.lanesOf, State.lanesOf, h.begun_agent] at hlanes
  rw [State.regsOf, State.regsOf, h.agent] at hra
  obtain ⟨y, hy, hyl⟩ := Option.map_eq_some_iff.mp hlanes
  rw [hy] at hra
  exact ⟨y, hy, hyl, Option.some.inj hra, hregs⟩

theorem laneOp_idle {i : Instr} {f : Fields} {s : State} {b : Beat} (h : Due i f s b) (hp : b.perf = 0) (long : Bool) (op : Vals → Res) :
    laneOp i f long op s = .next ((s.waited b.a).conclude b (shapeOf i f).whole (.done (s.begun b))) := by
  rw [laneOp, issueBeat_due h, laneBody_idle hp]

/-- Settles O14: the body of such a beat is empty. -/
theorem guardedOff : Obligations.GuardedOff := by
  intro i f op s b hform h hq hp
  obtain ⟨y, hy, hyl, -, hregs⟩ := h.idle_result (shapeOf i f).whole
  refine ⟨_, y, ?_, hregs, hy, fun l hl hlt => ?_⟩
  · rcases hform with hform | hform | hform
    · rw [(integerForm_spec hform).1, laneOp_idle h hp]
    · rw [(floatForm_spec hform).1, laneOp_idle h hp]
    · rw [(longForm_spec hform).1, laneOp_idle h hp]
  · have hlane : y.lane l = b.begunAgent.lane l := by rw [Agent.lane, hyl]; rfl
    rw [hlane, b.begunAgent_lane hlt, if_pos (mem_lanesIn.mp hl)]

/-! ### Registers that are marked empty -/

theorem Agent.isEmpty_markEmpty_self (x : Agent) {g : RegWrite} (hg : g.lasts) : (x.markEmpty g).isEmpty g = true := by
  cases g with
  | v i r y => simp [Agent.isEmpty, Agent.markEmpty, Agent.emptyV, Tbl.get_put]
  | u r y => simp [Agent.isEmpty, Agent.markEmpty, Agent.emptyU, Tbl.get_put]
  | p r i c =>
    obtain ⟨hr, hi⟩ := hg
    simp [Agent.isEmpty, Agent.markEmpty, Agent.emptyP, Tbl.get_put, hr, getLsbD_setBit_same _ hi]

/-- A mark of emptiness takes none away. -/
theorem Agent.isEmpty_markEmpty_mono (x : Agent) (h : RegWrite) {g : RegWrite} (hg : x.isEmpty g = true) : (x.markEmpty h).isEmpty g = true := by
  cases h with
  | v i r y =>
    cases g with
    | v k q z => simp only [Agent.isEmpty, Agent.markEmpty, Agent.emptyV, Tbl.get_put] at hg ⊢; split <;> simp_all
    | u | p => exact hg
  | u r y =>
    cases g with
    | u q z => simp only [Agent.isEmpty, Agent.markEmpty, Agent.emptyU, Tbl.get_put] at hg ⊢; split <;> simp_all
    | v | p => exact hg
  | p r i c =>
    by_cases hr : r = 7
    · simpa [Agent.markEmpty, hr] using hg
    · cases g with
      | p q k d =>
        by_cases hq : q = r
        · subst hq
          simp only [Agent.isEmpty, Agent.markEmpty, Agent.emptyP, Tbl.get_put, hr, if_false, if_true] at hg ⊢
          by_cases hk : k = i
          · subst hk
            by_cases h32 : k < 32
            · exact getLsbD_setBit_same _ h32 _
            · rw [BitVec.getLsbD_of_ge _ _ (by omega)] at hg
              cases hg
          · rw [getLsbD_setBit_other _ hk]
            exact hg
        · simpa [Agent.isEmpty, Agent.markEmpty, Agent.emptyP, Tbl.get_put, hr, hq] using hg
      | v | u => simpa [Agent.isEmpty, Agent.markEmpty, hr, Agent.emptyV, Agent.emptyU] using hg

/-- Every register that a list of writes names, and that takes effect, is empty once they are marked. -/
theorem Agent.isEmpty_emptyAll (x : Agent) {ws : List RegWrite} {g : RegWrite} (hg : g ∈ ws) (hl : g.lasts) : (x.emptyAll ws).isEmpty g = true := by
  induction ws generalizing x with
  | nil => cases hg
  | cons w ws ih =>
    rcases List.mem_cons.mp hg with rfl | hin
    · exact foldl_keeps (fun y : Agent => y.isEmpty g = true) Agent.markEmpty ws (fun y h _ hy => Agent.isEmpty_markEmpty_mono y h hy) _
        (Agent.isEmpty_markEmpty_self x hl)
    · exact ih (x.markEmpty w) hin

theorem Agent.markEmpty_eq (x : Agent) (w : RegWrite) : x.markEmpty w = { x with vE := (x.markEmpty w).vE, uE := (x.markEmpty w).uE, prE := (x.markEmpty w).prE } := by
  cases w with
  | v | u => rfl
  | p r i c => by_cases hr : r = 7 <;> simp [Agent.markEmpty, hr]

theorem Agent.emptyAll_eq (x : Agent) (ws : List RegWrite) :
    x.emptyAll ws = { x with vE := (x.emptyAll ws).vE, uE := (x.emptyAll ws).uE, prE := (x.emptyAll ws).prE } :=
  foldl_keeps (fun y : Agent => y = { x with vE := y.vE, uE := y.uE, prE := y.prE }) Agent.markEmpty ws
    (fun y w _ h => by rw [Agent.markEmpty_eq, h]) x rfl

/-- A due long form without a queue use leaves its results under way, its destinations empty and its flags in FPFLAGS. -/
theorem longOp_due {i : Instr} {f : Fields} {op : Vals → Res} {s : State} {b : Beat} (h : Due i f s b) (hq : quseOf b.row f = .none)
    (hp : b.perf ≠ 0) (hal : b.alive) :
    ∃ t y, laneOp i f true op s = .next t ∧ t.agent b.a = some y ∧
      y.core = (deliverWrites true (b.writes op) { b.begunAgent with fp := b.x.fp ||| b.flags op }).core := by
  let u := (s.begun b).modAgent b.a fun x => deliverWrites true (b.writes op) { x with fp := x.fp ||| b.flags op }
  have hu : u.agent b.a = some (deliverWrites true (b.writes op) { b.begunAgent with fp := b.begunAgent.fp ||| b.flags op }) := by
    rw [State.agent_modAgent_same, h.begun_agent]
    rfl
  have hfp : b.begunAgent.fp = b.x.fp := by rw [Beat.begunAgent_eq]
  have hd : ∀ z : Agent, deliverWrites true (b.writes op) z =
      { z with pend := (deliverWrites true (b.writes op) z).pend, vE := (deliverWrites true (b.writes op) z).vE,
               uE := (deliverWrites true (b.writes op) z).uE, prE := (deliverWrites true (b.writes op) z).prE } := fun z => by
    simp only [deliverWrites, if_true, Agent.addPending]
    rw [Agent.emptyAll_eq]
  have hissue : (deliverWrites true (b.writes op) { b.begunAgent with fp := b.begunAgent.fp ||| b.flags op }).issue = .beats := by
    rw [hd, Beat.begunAgent_eq]
    exact h.issue
  have hrun : (deliverWrites true (b.writes op) { b.begunAgent with fp := b.begunAgent.fp ||| b.flags op }).runLanes ≠ [] := by
    rw [hd]
    exact fun e => hal (b.begunAgent_runLanes.symm.trans e)
  obtain ⟨y, hy, hc, -⟩ := State.conclude_done_runsOn (s := s.waited b.a) (t := u) h.clean hu hissue hrun (shapeOf i f).whole
  refine ⟨_, y, ?_, hy, hfp ▸ hc⟩
  rw [laneOp, issueBeat_due h, laneBody_noQueue (h.f_eq ▸ hq) hp]

theorem mem_destWrites_v (w l : Nat) (y : W64) (r : BitVec 7) : ∃ z, RegWrite.v l r.toNat z ∈ destWrites w l y (.v r) := by
  by_cases hw : w = 64
  · exact ⟨y.setWidth 32, by simp [destWrites, vWrites, hw]⟩
  · exact ⟨y.setWidth 32, by simp [destWrites, vWrites, hw]⟩

/-- Settles O13: the results of a long form wait as one result under way. -/
theorem longResults : Obligations.LongResults := by
  intro i f op s b hform h hq hp hal
  obtain ⟨hexec, hf, hrow, hkeep⟩ := longForm_spec hform
  obtain ⟨t, y, hnext, hy, hc⟩ := longOp_due (op := op) h hq hp hal
  let x : Agent := { b.begunAgent with fp := b.x.fp ||| b.flags op }
  have hd : deliverWrites true (b.writes op) x = (x.emptyAll (b.writes op)).addPending (Pending.result (b.writes op)) := rfl
  refine ⟨t, y, Tbl.freshKey (x.emptyAll (b.writes op)).pend, (hexec s).trans hnext, hy, ?_, ?_, ?_⟩
  · rw [foldl_or_start (fun l => (op (valsOf b 0 [] l)).fl)]
    have hfp : y.fp = (deliverWrites true (b.writes op) x).fp := congrArg RegFile.fp (Agent.regs_of_core hc)
    rw [hfp, hd, Agent.addPending, Agent.emptyAll_eq]
    rfl
  · rw [spread_results, Agent.pend_of_core hc]
    exact Tbl.find?_ins_same ..
  · intro l hl r hr
    obtain ⟨z, hz⟩ := mem_destWrites_v (slotWidth b.row.d) l (op (valsOf b 0 [] (b.sourceOf l))).d r
    have hmem : RegWrite.v l r.toNat z ∈ b.writes op := by
      refine List.mem_flatMap.mpr ⟨l, hl, List.mem_append_left _ ?_⟩
      rw [hkeep, h.f_eq, hr]
      exact hz
    have hE : (deliverWrites true (b.writes op) x).isEmpty (.v l r.toNat z) = true := Agent.isEmpty_emptyAll x hmem trivial
    exact ((Agent.reads_congr (Agent.regs_of_core hc) (.v l r.toNat z)).2).trans hE

end Sys2Proof.Machine
end

section
/-! Results and replies that land (R54, R144, R165, R166). -/

namespace Sys2Proof.Machine

theorem Agent.isEmpty_write_self (x : Agent) (g : RegWrite) : (x.write g).isEmpty g = false := by
  cases g with
  | v i r y => simp [Agent.isEmpty, Agent.write, Agent.emptyV, Tbl.get_put]
  | u r y => simp [Agent.isEmpty, Agent.write, Agent.emptyU, Tbl.get_put]
  | p r i c =>
    by_cases hr : r = 7
    · simp [Agent.isEmpty, Agent.emptyP, hr]
    · by_cases hi : i < 32
      · simp [Agent.isEmpty, Agent.write, Agent.emptyP, Tbl.get_put, hr, getLsbD_setBit_same _ hi]
      · simp [Agent.isEmpty, Agent.emptyP, hr, BitVec.getLsbD_of_ge _ _ (Nat.le_of_not_lt hi)]

/-- A write empties no register. -/
theorem Agent.isEmpty_write_mono (x : Agent) (h : RegWrite) {g : RegWrite} (hg : x.isEmpty g = false) : (x.write h).isEmpty g = false := by
  cases hs : h.sameReg g with
  | false => exact (Agent.reads_write_other x hs).2.trans hg
  | true =>
    have hself := Agent.isEmpty_write_self x h
    cases h <;> cases g <;> simp only [RegWrite.sameReg, Bool.and_eq_true, beq_iff_eq, Bool.false_eq_true] at hs
    · simpa only [Agent.isEmpty, Agent.emptyV, hs] using hself
    · simpa only [Agent.isEmpty, hs] using hself
    · simpa only [Agent.isEmpty, hs.1, hs.2] using hself

/-- Every register that a list of writes names is full after them (R54). -/
theorem Agent.isEmpty_writeAll (x : Agent) {ws : List RegWrite} {g : RegWrite} (hg : g ∈ ws) : (x.writeAll ws).isEmpty g = false := by
  induction ws generalizing x with
  | nil => cases hg
  | cons w ws ih =>
    rcases List.mem_cons.mp hg with rfl | hin
    · exact foldl_keeps (fun y : Agent => y.isEmpty g = false) Agent.write ws (fun y h _ hy => Agent.isEmpty_write_mono y h hy) _
        (Agent.isEmpty_write_self x g)
    · exact ih (x.write w) hin

theorem Agent.getV_writeAll_other (x : Agent) {ws : List RegWrite} {l r : Nat} (h : ∀ v, .v l r v ∉ ws) (hr : r < 128)
    (hq : ∀ w ∈ ws, ∀ i q v, w = .v i q v → q < 128) : (x.writeAll ws).getV l r = x.getV l r := by
  refine foldl_keeps (fun y : Agent => y.getV l r = x.getV l r) Agent.write ws (fun y w hw hy => ?_) x rfl
  cases w with
  | v i q z =>
    rw [Agent.getV_write_v, if_neg, hy]
    intro he
    obtain ⟨rfl, rfl⟩ := lane_key hr (hq _ hw i q z rfl) he
    exact h z hw
  | u | p => rw [← hy]; simp

theorem Agent.getU_writeAll_other (x : Agent) {ws : List RegWrite} {r : Nat} (h : ∀ v, .u r v ∉ ws) : (x.writeAll ws).getU r = x.getU r := by
  refine foldl_keeps (fun y : Agent => y.getU r = x.getU r) Agent.write ws (fun y w hw hy => ?_) x rfl
  cases w with
  | u q z =>
    rw [Agent.getU_write_u, if_neg, hy]
    rintro rfl
    exact h z hw
  | v | p => rw [← hy]; simp

theorem Agent.getP_writeAll_other (x : Agent) {ws : List RegWrite} {r l : Nat} (h : ∀ v, .p r l v ∉ ws) : (x.writeAll ws).getP r l = x.getP r l := by
  refine foldl_keeps (fun y : Agent => y.getP r l = x.getP r l) Agent.write ws (fun y w hw hy => ?_) x rfl
  cases w with
  | p q i c =>
    by_cases hq7 : q = 7
    · rw [← hy]; simp [Agent.write, hq7]
    · by_cases hq : r = q
      · subst hq
        have hi : l ≠ i := fun e => h c (e ▸ hw)
        rw [← hy]
        simp [Agent.getP, Agent.write, Tbl.get_put, hq7, getLsbD_setBit_other _ hi]
      · rw [← hy]
        simp [Agent.getP, Agent.write, Tbl.get_put, hq7, hq]
  | v | u => rw [← hy]; simp

/-- A log record leaves every agent alone. -/
theorem State.logPut_agent (s : State) (team : Nat) (r : Nguxis) (c : AgentId) : (s.logPut team r).agent c = s.agent c := by
  have hput : ∀ (u : State) (unit part asid va : Nat) (bs : List Byte) (f : Team → Team), (∀ t, (f t).agents = t.agents) →
      (((u.deviceWrite unit part asid va bs).getD u).modTeam team f).agent c = u.agent c := fun u unit part asid va bs f hf => by
    rw [State.agent_modTeam_keep _ _ _ hf]
    cases hd : u.deviceWrite unit part asid va bs with
    | none => rfl
    | some v => exact State.agent_congr (State.deviceWrite_teams hd) c
  unfold State.logPut
  split
  · rfl
  · extract_lets ctl
    split
    · rfl
    · split
      · rfl
      · extract_lets size at' unit
        split
        · exact hput _ _ _ _ _ _ _ fun _ => rfl
        · exact hput _ _ _ _ _ _ _ fun _ => rfl

/-- The registers after a landing are those after its writes. -/
theorem Agent.land_reads (x : Agent) (n : Nat) (p : Pending) (w : RegWrite) :
    (x.land n p).isEmpty w = (x.writeAll p.lands).isEmpty w ∧ ((x.land n p).has w ↔ (x.writeAll p.lands).has w) := by
  cases w <;> exact ⟨rfl, Iff.rfl⟩

/-- Settles O19: what lands is one list of writes, and only they change registers. -/
theorem resultsLand : Obligations.ResultsLand := by
  intro s a n x p hx hp hland
  have hexec : exec (if p.mem then .loadReply a n else .resultLands a n) s =
      .next (p.log.foldl (fun u r => u.logPut a.team r) (s.setAgent a (x.land n p))) := by
    have hput : s.landPending a n p.mem = p.log.foldl (fun u r => u.logPut a.team r) (s.setAgent a (x.land n p)) := by
      simp [State.landPending, hx, hp, hland]
    cases hm : p.mem with
    | true => exact congrArg Host.Outcome.next (hm ▸ hput)
    | false => exact congrArg Host.Outcome.next (hm ▸ hput)
  have hy : (p.log.foldl (fun u r => u.logPut a.team r) (s.setAgent a (x.land n p))).agent a = some (x.land n p) :=
    foldl_keeps (fun u : State => u.agent a = some (x.land n p)) _ _ (fun u r _ hu => (u.logPut_agent _ _ _).trans hu) _ (State.agent_setAgent_self hx)
  refine ⟨_, x.land n p, hexec, hy, ?_, fun k hk => ?_, rfl, rfl, fun w hw => ?_, fun w hw => ?_, fun l r h _ hr hq => ?_, fun r h => ?_, fun r l h _ => ?_⟩
  · simp [Agent.land, Tbl.find?_del]
  · simp [Agent.land, Tbl.find?_del, hk]
  · exact (Agent.land_reads x n p w).1.trans (Agent.isEmpty_writeAll x hw)
  · have hval : w.lasts → (x.land n p).has w := fun hl => by
      refine (Agent.land_reads x n p w).2.mpr ?_
      rw [hw]
      exact Agent.has_write_self x hl
    cases w with
    | v l r v => exact (hval trivial).1
    | u r v => exact (hval trivial).1
    | p r l v => exact fun hr hl => (hval ⟨hr, hl⟩).1
  · exact Agent.getV_writeAll_other x h hr hq
  · exact Agent.getU_writeAll_other x h
  · exact Agent.getP_writeAll_other x h

end Sys2Proof.Machine
end

section
/-! SHFL, VOTE, RDLN and MATCH write their values at the beat (R119 to R126). -/

namespace Sys2Proof.Machine

/-! ### Bodies that change their agent only -/

/-- A due beat that is done: its agent's register file is as the body leaves it. -/
theorem Due.done_regs {i : Instr} {f : Fields} {s : State} {b : Beat} (h : Due i f s b) {body : Beat → State → Out} {u : State} {z : Agent}
    (hb : body b (s.begun b) = .done u) (hf : u.flaws = []) (hu : u.agent b.a = some z) :
    ∃ t y, issueBeat i f s body = .next t ∧ t.agent b.a = some y ∧ y.regs = z.regs := by
  have hregs := State.conclude_done_regs (s.waited b.a) u hf b (shapeOf i f).whole b.a
  rw [State.regsOf, State.regsOf, hu] at hregs
  obtain ⟨y, hy, hyr⟩ := Option.map_eq_some_iff.mp hregs
  exact ⟨_, y, by rw [issueBeat_due h, hb], hy, hyr⟩

theorem Due.begun_modAgent {i : Instr} {f : Fields} {s : State} {b : Beat} (h : Due i f s b) (g : Agent → Agent) :
    ((s.begun b).modAgent b.a g).agent b.a = some (g b.begunAgent) := by
  rw [State.agent_modAgent_same, h.begun_agent]
  rfl

/-- A due beat whose body changes its agent, which runs on: all but the sweep's own state is as the body leaves it, and so is what the sweep leaves
alone. -/
theorem Due.done_core {i : Instr} {f : Fields} {s : State} {b : Beat} (h : Due i f s b) {body : Beat → State → Out} {g : Agent → Agent}
    (hb : body b (s.begun b) = .done ((s.begun b).modAgent b.a g)) (hi : (g b.begunAgent).issue = .beats) (hr : (g b.begunAgent).runLanes ≠ []) :
    ∃ t y, issueBeat i f s body = .next t ∧ t.agent b.a = some y ∧ y.core = (g b.begunAgent).core ∧ t.still = s.still := by
  have hu := h.begun_modAgent g
  obtain ⟨y, hy, hc, hs⟩ := State.conclude_done_runsOn (s := s.waited b.a) (t := (s.begun b).modAgent b.a g) h.clean hu hi hr (shapeOf i f).whole
  refine ⟨_, y, by rw [issueBeat_due h, hb], hy, hc, hs.trans ?_⟩
  rw [State.modAgent_still, State.begun, State.modAgent_still, State.waited, State.modAgent_still]

/-! ### One value for each lane -/

/-- The writes of one value for each lane to one operand. -/
def laneWrites (w : Nat) (lanes : List Nat) (v : Nat → W64) (o : Operand) : List RegWrite := lanes.flatMap fun l => destWrites w l (v l) o

theorem laneWrites_agree {w : Nat} {lanes : List Nat} {v : Nat → W64} {o : Operand} (hpair : ∀ n, o = .v n → w = 64 → n.toNat % 2 = 0)
    (hu : ∀ n, o = .u n → ∀ l ∈ lanes, ∀ k ∈ lanes, v l = v k) : RegWrite.Agree (laneWrites w lanes v o) := by
  intro g hg h hh hs
  obtain ⟨l, hl, hg⟩ := List.mem_flatMap.mp hg
  obtain ⟨k, hk, hh⟩ := List.mem_flatMap.mp hh
  exact destWrites_agree hpair (fun n hn => hu n hn l hl k hk) (fun e => by rw [e]) hg hh hs

theorem holds_of_laneWrites {w : Nat} {lanes : List Nat} {v : Nat → W64} {o : Operand} (hag : RegWrite.Agree (laneWrites w lanes v o)) {x y : Agent}
    (hy : y.regs = (x.writeAll (laneWrites w lanes v o)).regs) {l : Nat} (hl : l ∈ lanes) (h32 : l < 32) : y.holds w l o (v l) :=
  Agent.holds_of_has h32 fun g hg hlast => (Agent.has_congr hy g).mpr (Agent.has_writeAll x hag (List.mem_flatMap.mpr ⟨l, hl, hg⟩) hlast)

/-- What the checks of R49 say of a due form. -/
theorem Due.checks {i : Instr} {f : Fields} {s : State} {b : Beat} (h : Due i f s b) (hf : ∃ n, formOf i = some (n, f)) :
    markOk b.x.kind b.row.mark = true ∧ b.row.ok = true ∧ uniOk b.x.kind b.row f = true ∧ operandsOk b.x.kind (noQueue i) b.row f = true ∧
      b.row.imm = true := by
  obtain ⟨n, hn⟩ := hf
  have hl := h.legal
  simp only [decodeFault, h.row_eq, hn] at hl
  repeat' split at hl
  all_goals simp_all

theorem uniOk_of_dstU {r : Row} {f : Fields} (h : uniOk .group r f = true) (hd : dstU r.d f.d = true) : f.uni = true := by
  simp only [uniOk, hd, Bool.and_eq_true] at h
  simpa using h.2

/-- The written operand of a group operation with its own rule for pairs and for an s register. -/
theorem Due.groupDest {i : Instr} {f : Fields} {s : State} {b : Beat} (h : Due i f s b) (hf : ∃ n, formOf i = some (n, f)) (hg : b.row.mark = .g)
    (hp : b.row.d.paired) : (∀ n, f.d = .v n → slotWidth b.row.d = 64 → n.toNat % 2 = 0) ∧ (dstU b.row.d f.d = true → f.uni = true) := by
  obtain ⟨hmark, -, huni, hops, -⟩ := h.checks hf
  simp only [operandsOk, Bool.and_eq_true] at hops
  obtain ⟨⟨⟨⟨⟨⟨⟨⟨hd, -⟩, -⟩, -⟩, -⟩, -⟩, -⟩, -⟩, -⟩ := hops
  refine ⟨fun n hn hw => Slot.even_of_ok hp (hn ▸ hd) hw, fun hd => ?_⟩
  have hk : b.x.kind = .group := by
    rw [hg] at hmark
    cases hk : b.x.kind <;> simp_all [markOk]
  rw [hk] at huni
  exact uniOk_of_dstU huni hd

theorem Beat.begunAgent_regs (b : Beat) : b.begunAgent.regs = b.x.regs := by
  rw [Beat.begunAgent_eq]
  rfl

/-- A due beat that is done with the writes of one value for each of some lanes. -/
theorem Due.laneWrites_hold {i : Instr} {f : Fields} {s : State} {b : Beat} (h : Due i f s b) {body : Beat → State → Out} {u : State} (w : Nat)
    (lanes : List Nat) (v : Nat → W64) (hb : body b (s.begun b) = .done u) (hf : u.flaws = [])
    (hu : u.agent b.a = some (deliverWrites false (laneWrites w lanes v f.d) { b.begunAgent with fp := b.begunAgent.fp ||| 0 }))
    (h32 : ∀ l ∈ lanes, l < 32) (hpair : ∀ n, f.d = .v n → w = 64 → n.toNat % 2 = 0)
    (hone : ∀ n, f.d = .u n → ∀ l ∈ lanes, ∀ k ∈ lanes, v l = v k) :
    ∃ t y, issueBeat i f s body = .next t ∧ t.agent b.a = some y ∧ y.fp = b.x.fp ∧ ∀ l ∈ lanes, y.holds w l f.d (v l) := by
  obtain ⟨t, y, hnext, hy, hregs⟩ := h.done_regs hb hf hu
  have hfl : ({ b.begunAgent with fp := b.begunAgent.fp ||| 0 } : Agent).regs = b.x.regs := by
    rw [← b.begunAgent_regs]
    simp [Agent.regs]
  refine ⟨t, y, hnext, hy, ?_, fun l hl => ?_⟩
  · have hfp : y.fp = (Agent.writeAll { b.begunAgent with fp := b.begunAgent.fp ||| 0 } (laneWrites w lanes v f.d)).fp :=
      congrArg RegFile.fp hregs
    rw [hfp, Agent.fp_writeAll]
    exact congrArg RegFile.fp hfl
  · exact holds_of_laneWrites (laneWrites_agree hpair hone) hregs hl (h32 l hl)

/-- A group operation that writes one value for each contributing lane at its beat. -/
theorem Due.groupDone_hold {i : Instr} {f : Fields} {s : State} {b : Beat} (h : Due i f s b) {body : Beat → State → Out} (w : Nat) (v : Nat → W64)
    (hb : body b (s.begun b) = groupDone b false (s.begun b) (laneWrites w (lanesIn b.perf) v f.d) 0)
    (hpair : ∀ n, f.d = .v n → w = 64 → n.toNat % 2 = 0) (hu : ∀ n, f.d = .u n → ∀ l k, v l = v k) :
    ∃ t y, issueBeat i f s body = .next t ∧ t.agent b.a = some y ∧ y.fp = b.x.fp ∧ ∀ l ∈ lanesIn b.perf, y.holds w l f.d (v l) :=
  h.laneWrites_hold w (lanesIn b.perf) v hb h.clean (h.begun_modAgent _) (fun _ => lt_of_mem_lanesIn) hpair fun n hn l _ k _ => hu n hn l k

/-- A shuffle's D is a lane register. -/
theorem Due.shfl_dest {f : Fields} {s : State} {b : Beat} (h : Due (.shfl f) f s b) (n : BitVec 6) : f.d ≠ .u n := by
  obtain ⟨-, hd⟩ := h.dest_ok rfl
  rw [← Option.some.inj h.row_eq] at hd
  intro hn
  rw [hn] at hd
  simp [onlyV, slotOk] at hd

theorem laneCheck_full {b : Beat} {s : Slot} {o : Operand} {lanes : List Nat} {fe : Nat} {out : Out}
    (h : slotEmpty b.x Slot.isSrc s o lanes = false) : laneCheck b s o lanes fe out = out := by
  simp [laneCheck, h]

theorem exec_shfl (f : Fields) (s : State) : exec (.shfl f) s = execShfl f s := rfl
theorem exec_vote (f : Fields) (s : State) : exec (.vote f) s = execVote f s := rfl
theorem exec_rdln (f : Fields) (s : State) : exec (.rdln f) s = execRdln f s := rfl
theorem exec_mtch (f : Fields) (s : State) : exec (.mtch f) s = execMtch f s := rfl

/-- Settles O20: each operation writes one value for each contributing lane, one value in all where D is an s register. -/
theorem groupValues : Obligations.GroupValues := by
  intro i f n w v s b hform hop h hfull hp
  cases i
  case shfl f' =>
    cases hform
    cases hop
    rw [exec_shfl, execShfl]
    obtain ⟨hpair, -⟩ := h.groupDest ⟨_, rfl⟩ (by rw [← Option.some.inj h.row_eq]; rfl) (by rw [← Option.some.inj h.row_eq]; rfl)
    refine h.groupDone_hold _ _ ?_ hpair fun n hn => absurd hn (h.shfl_dest n)
    simp only [hp, if_false]
    exact laneCheck_full hfull
  case vote f' =>
    cases hform
    cases hop
    rw [exec_vote, execVote]
    refine h.groupDone_hold 32 (fun _ => voteResult f.fn (lanesIn b.perf) b.predA) ?_ (fun _ _ hw => absurd hw (by decide)) fun _ _ _ _ => rfl
    simp only [hp, if_false]
    rfl
  case rdln f' =>
    cases hform
    cases hop
    rw [exec_rdln, execRdln]
    obtain ⟨hpair, -⟩ := h.groupDest ⟨_, rfl⟩ (by rw [← Option.some.inj h.row_eq]; rfl) (by rw [← Option.some.inj h.row_eq]; rfl)
    refine h.groupDone_hold _ (fun _ => b.valA (b.num b.row.b f.b (lowestLane b.act) % 32)) ?_ hpair fun _ _ _ _ => rfl
    simp only [hp, if_false]
    exact laneCheck_full hfull
  case mtch f' =>
    cases hform
    cases hop
    rw [exec_mtch, execMtch]
    have hd := (h.groupDest ⟨_, rfl⟩ (by rw [← Option.some.inj h.row_eq]; rfl) (by rw [← Option.some.inj h.row_eq]; rfl)).2
    refine h.groupDone_hold 32 (fun i => (maskOf (lanesIn b.perf) fun j =>
      decide (b.valA j = b.valA (if f.uni then lowestLane b.act else i))).setWidth 64) ?_ (fun _ _ hw => absurd hw (by decide)) fun n hn l k => ?_
    · simp only [hp, if_false]
      rfl
    · have huni : f.uni = true := hd (by rw [← Option.some.inj h.row_eq, hn]; rfl)
      simp [huni]
  all_goals cases hop

end Sys2Proof.Machine
end

section
/-! GRED, GSCAN and REBAL leave the combined values of the contributing lanes under way (R122 to R124). -/

namespace Sys2Proof.Machine

/-! ### Results under way of a group operation -/

theorem Agent.deliverWrites_long (x : Agent) (ws : List RegWrite) :
    deliverWrites true ws x = { x with pend := Tbl.ins x.pend (Tbl.freshKey x.pend) (Pending.result ws), vE := (x.emptyAll ws).vE,
                                       uE := (x.emptyAll ws).uE, prE := (x.emptyAll ws).prE } := by
  simp only [deliverWrites, if_true, Agent.addPending]
  rw [Agent.emptyAll_eq]

theorem destWrites_lasts {w l : Nat} {y : W64} {o : Operand} (ho : ∀ r, o ≠ .p r) {g : RegWrite} (hg : g ∈ destWrites w l y o) : g.lasts := by
  cases g with
  | p r i c =>
    obtain ⟨n, hn⟩ := pred_of_mem_destWrites hg (RegWrite.sameReg_self _)
    exact absurd hn (ho n)
  | v | u => trivial

/-- A group operation whose results are under way after its beat. -/
theorem Due.long_group {i : Instr} {f : Fields} {s : State} {b : Beat} (h : Due i f s b) (hal : b.alive) {body : Beat → State → Out}
    {ws : List RegWrite} {fl : FpFlags} (hb : body b (s.begun b) = groupDone b true (s.begun b) ws fl) (hlast : ∀ w ∈ ws, w.lasts) :
    ∃ t y k, issueBeat i f s body = .next t ∧ t.agent b.a = some y ∧ Tbl.find? y.pend k = some (Pending.result ws) ∧
      (∀ w ∈ ws, y.isEmpty w = true) ∧ y.fp = b.x.fp ||| fl := by
  obtain ⟨t, y, hnext, hy, hc, -⟩ := h.done_core hb
    (by rw [Agent.deliverWrites_long, Beat.begunAgent_eq]; exact h.issue)
    (by rw [Agent.deliverWrites_long]; exact fun e => hal (b.begunAgent_runLanes.symm.trans e))
  let x : Agent := { b.begunAgent with fp := b.begunAgent.fp ||| fl }
  refine ⟨t, y, Tbl.freshKey x.pend, hnext, hy, ?_, fun w hw => ?_, ?_⟩
  · rw [Agent.pend_of_core hc, Agent.deliverWrites_long]
    exact Tbl.find?_ins_same ..
  · rw [(Agent.reads_congr (Agent.regs_of_core hc) w).2]
    exact Agent.isEmpty_emptyAll x hw (hlast w hw)
  · have hfp : y.fp = (deliverWrites true ws x).fp := congrArg RegFile.fp (Agent.regs_of_core hc)
    rw [hfp, Agent.deliverWrites_long]
    have hx : b.begunAgent.fp = b.x.fp := congrArg RegFile.fp b.begunAgent_regs
    rw [← hx]

/-! ### Scans (R123) -/

/-- The value of a scan after one more lane. -/
def scanStep (op : W64 → W64 → W64 × FpFlags) (val : Nat → W64) (prev : Option W64) (i : Nat) : W64 :=
  match prev with
  | none => val i
  | some p => (op p (val i)).1

/-- The value of a scan after some lanes, from the value before them. -/
def foldFrom (op : W64 → W64 → W64 × FpFlags) (val : Nat → W64) (prev : Option W64) (lanes : List Nat) : Option W64 :=
  lanes.foldl (fun p i => some (scanStep op val p i)) prev

theorem foldFrom_some (op : W64 → W64 → W64 × FpFlags) (val : Nat → W64) (p : W64) (lanes : List Nat) :
    foldFrom op val (some p) lanes = some (lanes.foldl (fun x j => (op x (val j)).1) p) := by
  induction lanes generalizing p with
  | nil => rfl
  | cons i lanes ih => exact ih _

theorem foldLanes_eq (op : W64 → W64 → W64 × FpFlags) (val : Nat → W64) (lanes : List Nat) : foldLanes op val lanes = foldFrom op val none lanes := by
  cases lanes with
  | nil => rfl
  | cons i lanes => exact (foldFrom_some op val (val i) lanes).symm

theorem scanFrom_cons (op : W64 → W64 → W64 × FpFlags) (val : Nat → W64) (prev : Option W64) (i : Nat) (lanes : List Nat) :
    (scanFrom op val prev (i :: lanes)).1 = (i, scanStep op val prev i) :: (scanFrom op val (some (scanStep op val prev i)) lanes).1 := by
  cases prev <;> rfl

section
variable {op : W64 → W64 → W64 × FpFlags} {val : Nat → W64} {lanes : List Nat}

theorem filter_le_of_sorted {i l : Nat} (h : (i :: lanes).Pairwise (· < ·)) (hl : l = i ∨ l ∈ lanes) :
    (i :: lanes).filter (fun j => decide (j ≤ l)) = i :: lanes.filter (fun j => decide (j ≤ l)) := by
  rw [List.filter_cons_of_pos]
  rw [List.pairwise_cons] at h
  rcases hl with rfl | hl
  · simp
  · have := h.1 l hl
    simp only [decide_eq_true_eq]
    omega

/-- In an inclusive scan a lane's value is that of the lanes up to it. -/
theorem mem_scanFrom (h : lanes.Pairwise (· < ·)) {l : Nat} (hl : l ∈ lanes) (prev : Option W64) :
    (l, (foldFrom op val prev (lanes.filter fun j => decide (j ≤ l))).getD 0) ∈ (scanFrom op val prev lanes).1 := by
  induction lanes generalizing prev with
  | nil => cases hl
  | cons i lanes ih =>
    rw [filter_le_of_sorted h (List.mem_cons.mp hl), scanFrom_cons]
    have hp := List.pairwise_cons.mp h
    rcases List.mem_cons.mp hl with rfl | hin
    · have hnone : lanes.filter (fun j => decide (j ≤ l)) = [] := by
        refine List.filter_eq_nil_iff.mpr fun j hj => ?_
        have := hp.1 j hj
        simp only [decide_eq_true_eq]
        omega
      rw [hnone]
      exact List.mem_cons_self
    · exact List.mem_cons_of_mem _ (ih hp.2 hin _)

/-- In an exclusive scan it is that of the lanes below it, and for the first lane the identity. -/
theorem mem_shiftScan (h : lanes.Pairwise (· < ·)) {l : Nat} (hl : l ∈ lanes) (prev : Option W64) (first : W64) (hprev : prev.getD first = first) :
    (l, (foldFrom op val prev (lanes.filter fun j => decide (j < l))).getD first) ∈ shiftScan first (scanFrom op val prev lanes).1 := by
  induction lanes generalizing prev first with
  | nil => cases hl
  | cons i lanes ih =>
    rw [scanFrom_cons]
    have hp := List.pairwise_cons.mp h
    rcases List.mem_cons.mp hl with rfl | hin
    · have hnone : (l :: lanes).filter (fun j => decide (j < l)) = [] := by
        refine List.filter_eq_nil_iff.mpr fun j hj => ?_
        rcases List.mem_cons.mp hj with rfl | hj
        · simp
        · have := hp.1 j hj
          simp only [decide_eq_true_eq]
          omega
      rw [hnone]
      simp only [foldFrom, List.foldl_nil, hprev]
      exact List.mem_cons_self
    · have hi : i < l := hp.1 l hin
      rw [List.filter_cons_of_pos (by simpa using hi)]
      have hsome := ih hp.2 hin (some (scanStep op val prev i)) (scanStep op val prev i) rfl
      have hget : ∀ ls : List Nat, (foldFrom op val (some (scanStep op val prev i)) ls).getD first =
          (foldFrom op val (some (scanStep op val prev i)) ls).getD (scanStep op val prev i) := fun ls => by
        rw [foldFrom_some]; rfl
      refine List.mem_cons_of_mem _ ?_
      show (l, (foldFrom op val (some (scanStep op val prev i)) _).getD first) ∈ _
      rw [hget]
      exact hsome

/-- The last value of a scan is the total. -/
theorem getLast_scanFrom (prev : Option W64) (hne : lanes ≠ []) :
    ((scanFrom op val prev lanes).1.getLast?).map (fun e => e.2) = foldFrom op val prev lanes := by
  induction lanes generalizing prev with
  | nil => exact absurd rfl hne
  | cons i lanes ih =>
    rw [scanFrom_cons]
    cases lanes with
    | nil => cases prev <;> rfl
    | cons j lanes =>
      have h2 := ih (some (scanStep op val prev i)) (by simp)
      rw [scanFrom_cons] at h2 ⊢
      rw [List.getLast?_cons_cons]
      exact h2

end

/-! ### Rows of REBAL (R124) -/

theorem rowOfPos_eq {ns : List Nat} {j p pos r : Nat} (hr : r < ns.length) (hlo : p + (ns.take r).sum ≤ pos) (hhi : pos < p + (ns.take (r + 1)).sum) :
    rowOfPos ns j p pos = some (j + r, pos - (p + (ns.take r).sum)) := by
  induction ns generalizing j p r with
  | nil => cases hr
  | cons n ns ih =>
    cases r with
    | zero =>
      have : pos < p + n := by simpa using hhi
      simp [rowOfPos, this]
    | succ r =>
      simp only [List.take_succ_cons, List.sum_cons] at hlo hhi ⊢
      have hlt : ¬ pos < p + n := by omega
      rw [rowOfPos, if_neg hlt, ih (by simpa using hr) (by omega) (by omega)]
      simp only [Option.some.injEq, Prod.mk.injEq]
      omega

theorem rowOfPos_none {ns : List Nat} {j p pos : Nat} (h : p + ns.sum ≤ pos) : rowOfPos ns j p pos = none := by
  induction ns generalizing j p with
  | nil => rfl
  | cons n ns ih =>
    rw [List.sum_cons] at h
    rw [rowOfPos, if_neg (by omega), ih (by omega)]

theorem lanesIn_sorted (m : LaneMask) : (lanesIn m).Pairwise (· < ·) := by
  have h32 : lanes32.Pairwise (· < ·) := by decide
  exact h32.filter _

/-! ### The three operations -/

theorem exec_gred (f : Fields) (s : State) : exec (.gred f) s = execGred f s := rfl
theorem exec_gscan (f : Fields) (s : State) : exec (.gscan f) s = execGscan f s := rfl
theorem exec_rebal (f : Fields) (s : State) : exec (.rebal f) s = execRebal f s := rfl

/-- The operand of a value slot is no predicate. -/
theorem slotOk_ne_p {k : AgentKind} {any : Bool} {d : Bool} {n w : Nat} {v u q z i : Bool} {o : Operand}
    (h : slotOk k any (.val d n w v u q z i) o = true) (r : BitVec 3) : o ≠ .p r := by
  rintro rfl
  cases h

theorem mem_lanesIn_ne_nil {m : LaneMask} (h : m ≠ 0) : lanesIn m ≠ [] := by
  intro hnil
  refine h (BitVec.eq_of_getLsbD_eq fun i _ => ?_)
  refine Eq.trans ?_ BitVec.getLsbD_zero.symm
  refine Bool.eq_false_iff.mpr fun hi => ?_
  have hmem := mem_lanesIn.mpr hi
  rw [hnil] at hmem
  cases hmem

/-- GRED's results (R122). -/
theorem gred_combines {f : Fields} {s : State} {b : Beat} (h : Due (.gred f) f s b) (hp : b.perf ≠ 0) (hal : b.alive) :
    let r := gredTree (redOp f.fn.toNat f.ty f.rm) (lanes32.map fun j => if b.perf.getLsbD j then some (b.valA j) else none)
    let ws := (lanesIn b.perf).flatMap fun i => destWrites (slotWidth b.row.d) i (redDeliver f.fn.toNat r.1) f.d ++
      destWrites 32 i (BitVec.ofNat 64 (lanesIn b.perf).length) f.e
    ∃ t y k, exec (.gred f) s = .next t ∧ t.agent b.a = some y ∧ Tbl.find? y.pend k = some (Pending.result ws) ∧ (∀ w ∈ ws, y.isEmpty w = true) ∧
      y.fp = b.x.fp ||| r.2 := by
  intro r ws
  obtain ⟨-, hops⟩ := h.operands_ok ⟨_, rfl⟩
  rw [← Option.some.inj h.row_eq] at hops
  simp only [operandsOk, Bool.and_eq_true] at hops
  obtain ⟨⟨⟨⟨⟨⟨⟨⟨hd, -⟩, -⟩, -⟩, he⟩, -⟩, -⟩, -⟩, -⟩ := hops
  rw [exec_gred, execGred]
  refine h.long_group hal (ws := ws) (fl := r.2) (by simp only [hp, if_false]; rfl) fun w hw => ?_
  obtain ⟨i, -, hw⟩ := List.mem_flatMap.mp hw
  rcases List.mem_append.mp hw with hw | hw
  · exact destWrites_lasts (slotOk_ne_p hd) hw
  · exact destWrites_lasts (slotOk_ne_p he) hw

/-- GSCAN's results (R123). -/
theorem gscan_combines {f : Fields} {s : State} {b : Beat} (h : Due (.gscan f) f s b) (hp : b.perf ≠ 0) (hal : b.alive) :
    let fn := f.fn.toNat % 8
    let r := scanFrom (redOp fn f.ty f.rm) b.valA none (lanesIn b.perf)
    let ys := if f.fn.getLsbD 3 then shiftScan (scanIdentity fn f.ty) r.1 else r.1
    let total := ((r.1.getLast?).map fun e => e.2).getD 0
    let ws := ys.flatMap fun e => destWrites (slotWidth b.row.d) e.1 (redDeliver fn e.2) f.d ++ destWrites (slotWidth b.row.e) e.1 (redDeliver fn total) f.e
    ∃ t y k, exec (.gscan f) s = .next t ∧ t.agent b.a = some y ∧ Tbl.find? y.pend k = some (Pending.result ws) ∧
      (∀ w ∈ ws, y.isEmpty w = true) ∧ y.fp = b.x.fp ||| r.2 := by
  intro fn r ys total ws
  obtain ⟨-, hops⟩ := h.operands_ok ⟨_, rfl⟩
  rw [← Option.some.inj h.row_eq] at hops
  simp only [operandsOk, Bool.and_eq_true] at hops
  obtain ⟨⟨⟨⟨⟨⟨⟨⟨hd, -⟩, -⟩, -⟩, he⟩, -⟩, -⟩, -⟩, -⟩ := hops
  rw [exec_gscan, execGscan]
  refine h.long_group hal (ws := ws) (fl := r.2) (by simp only [hp, if_false]; rfl) fun w hw => ?_
  obtain ⟨e, -, hw⟩ := List.mem_flatMap.mp hw
  rcases List.mem_append.mp hw with hw | hw
  · exact destWrites_lasts (slotOk_ne_p hd) hw
  · exact destWrites_lasts (slotOk_ne_p he) hw

/-- REBAL's results (R124). -/
theorem rebal_combines {f : Fields} {s : State} {b : Beat} (h : Due (.rebal f) f s b) (hfull : readsFull b (.rebal f)) (hp : b.perf ≠ 0) (hal : b.alive) :
    let lens := lanes32.map fun j => if b.perf.getLsbD j then (b.valA j).toNat else 0
    let c := b.num b.row.b f.b (lowestLane b.act)
    let g := min (min (c + 32) (lens.foldl (· + ·) 0)) (2 ^ 32 - 1)
    let ws := (lanesIn b.perf).flatMap fun i => destWrites 32 i (BitVec.ofNat 64 ((rowOfPos lens 0 0 (c + i)).getD (2 ^ 32 - 1, 0)).1) f.d ++
      destWrites 32 i (BitVec.ofNat 64 ((rowOfPos lens 0 0 (c + i)).getD (2 ^ 32 - 1, 0)).2) f.e ++ destWrites 32 i (BitVec.ofNat 64 g) f.g
    ∃ t y k, exec (.rebal f) s = .next t ∧ t.agent b.a = some y ∧ Tbl.find? y.pend k = some (Pending.result ws) ∧
      (∀ w ∈ ws, y.isEmpty w = true) ∧ y.fp = b.x.fp ||| 0 := by
  intro lens c g ws
  obtain ⟨-, hops⟩ := h.operands_ok ⟨_, rfl⟩
  rw [← Option.some.inj h.row_eq] at hops
  simp only [operandsOk, Bool.and_eq_true] at hops
  obtain ⟨⟨⟨⟨⟨⟨⟨⟨hd, -⟩, -⟩, -⟩, he⟩, hg⟩, -⟩, -⟩, -⟩ := hops
  rw [exec_rebal, execRebal]
  refine h.long_group hal (ws := ws) (fl := 0) ?_ fun w hw => ?_
  · simp only [hp, if_false]
    exact laneCheck_full hfull
  · obtain ⟨i, -, hw⟩ := List.mem_flatMap.mp hw
    rcases List.mem_append.mp hw with hw | hw
    · rcases List.mem_append.mp hw with hw | hw
      · exact destWrites_lasts (slotOk_ne_p hd) hw
      · exact destWrites_lasts (slotOk_ne_p he) hw
    · exact destWrites_lasts (slotOk_ne_p hg) hw

/-- The row and offset of a position in REBAL's rows, and what stands past the end (R124). -/
theorem rebal_rows (len : Nat → Nat) (pos : Nat) :
    let pre := fun j => ((lanes32.take j).map len).sum
    (∀ r, r < 32 → pre r ≤ pos → pos < pre (r + 1) → rowOfPos (lanes32.map len) 0 0 pos = some (r, pos - pre r)) ∧
    (pre 32 ≤ pos → rowOfPos (lanes32.map len) 0 0 pos = none) ∧ (lanes32.map len).foldl (· + ·) 0 = pre 32 := by
  intro pre
  have hall : (lanes32.map len).sum = pre 32 := rfl
  refine ⟨fun r hr hlo hhi => ?_, fun h => rowOfPos_none (by omega), hall ▸ (List.sum_eq_foldl ..).symm⟩
  have htake : ∀ k, ((lanes32.map len).take k).sum = pre k := fun k => by rw [← List.map_take]
  have heq := rowOfPos_eq (ns := lanes32.map len) (j := 0) (p := 0) (pos := pos) (r := r) (by simpa [lanes32] using hr)
    (by rw [htake]; omega) (by rw [htake]; omega)
  rw [heq, htake, Nat.zero_add, Nat.zero_add]

/-- Settles O21: the one result under way holds the writes of every contributing lane. -/
theorem groupCombines : Obligations.GroupCombines := by
  intro i f n s b hform hi h hfull hp hal
  rcases hi with rfl | rfl | rfl
  · obtain ⟨t, y, k, hnext, hy, hk, hE, hfp⟩ := gred_combines h hp hal
    refine ⟨t, y, k, _, hnext, hy, hk, rfl, hE, fun _ l hl => ⟨fun w hw => ?_, fun w hw => ?_, hfp⟩, nofun, nofun⟩
    · exact List.mem_flatMap.mpr ⟨l, hl, List.mem_append_left _ hw⟩
    · exact List.mem_flatMap.mpr ⟨l, hl, List.mem_append_right _ hw⟩
  · obtain ⟨t, y, k, hnext, hy, hk, hE, -⟩ := gscan_combines h hp hal
    refine ⟨t, y, k, _, hnext, hy, hk, rfl, hE, nofun, fun _ l hl => ?_, nofun⟩
    have hsort := lanesIn_sorted b.perf
    simp only [foldLanes_eq]
    have hmem : (l, if f.fn.getLsbD 3 then (foldFrom (redOp (f.fn.toNat % 8) f.ty f.rm) b.valA none ((lanesIn b.perf).filter fun j => decide (j < l))).getD
          (scanIdentity (f.fn.toNat % 8) f.ty)
        else (foldFrom (redOp (f.fn.toNat % 8) f.ty f.rm) b.valA none ((lanesIn b.perf).filter fun j => decide (j ≤ l))).getD 0) ∈
        if f.fn.getLsbD 3 then shiftScan (scanIdentity (f.fn.toNat % 8) f.ty) (scanFrom (redOp (f.fn.toNat % 8) f.ty f.rm) b.valA none (lanesIn b.perf)).1
        else (scanFrom (redOp (f.fn.toNat % 8) f.ty f.rm) b.valA none (lanesIn b.perf)).1 := by
      split
      · exact mem_shiftScan hsort hl none _ rfl
      · exact mem_scanFrom hsort hl none
    rw [← getLast_scanFrom none (mem_lanesIn_ne_nil hp)]
    exact ⟨fun w hw => List.mem_flatMap.mpr ⟨_, hmem, List.mem_append_left _ hw⟩,
      fun w hw => List.mem_flatMap.mpr ⟨_, hmem, List.mem_append_right _ hw⟩⟩
  · obtain ⟨t, y, k, hnext, hy, hk, hE, -⟩ := rebal_combines h hfull hp hal
    refine ⟨t, y, k, _, hnext, hy, hk, rfl, hE, nofun, nofun, fun _ l hl => ?_⟩
    obtain ⟨hrow, hnone, htotal⟩ := rebal_rows (fun j => if b.perf.getLsbD j then (b.valA j).toNat else 0) (b.num b.row.b f.b (lowestLane b.act) + l)
    refine ⟨fun r hr hlo hhi => ⟨fun w hw => ?_, fun w hw => ?_⟩, fun hend => ⟨fun w hw => ?_, fun w hw => ?_⟩, fun w hw => ?_⟩
    · refine List.mem_flatMap.mpr ⟨l, hl, List.mem_append_left _ (List.mem_append_left _ ?_)⟩
      rw [hrow r hr hlo hhi]
      exact hw
    · refine List.mem_flatMap.mpr ⟨l, hl, List.mem_append_left _ (List.mem_append_right _ ?_)⟩
      rw [hrow r hr hlo hhi]
      exact hw
    · refine List.mem_flatMap.mpr ⟨l, hl, List.mem_append_left _ (List.mem_append_left _ ?_)⟩
      rw [hnone hend]
      exact hw
    · refine List.mem_flatMap.mpr ⟨l, hl, List.mem_append_left _ (List.mem_append_right _ ?_)⟩
      rw [hnone hend]
      exact hw
    · refine List.mem_flatMap.mpr ⟨l, hl, List.mem_append_right _ ?_⟩
      rw [htotal]
      rw [Nat.add_sub_cancel] at hw
      exact hw

end Sys2Proof.Machine
end

section
/-! Translation, the replay log and reads of memory depend on memory, the TLBs and the partitions only (R131, R136, R295). -/

namespace Sys2Proof.Machine

/-- The parts of two states on which translation and the bytes behind an address depend are equal. -/
structure State.SameMap (s t : State) : Prop where
  mem : t.mem = s.mem
  tlb : t.tlb = s.tlb
  parts : t.parts = s.parts
  fwTable : t.fwTable = s.fwTable
  flaws : t.flaws = s.flaws
  devNum : t.devNum = s.devNum

theorem State.SameMap.refl (s : State) : s.SameMap s := ⟨rfl, rfl, rfl, rfl, rfl, rfl⟩
theorem State.SameMap.trans {s t u : State} (h : s.SameMap t) (k : t.SameMap u) : s.SameMap u :=
  ⟨k.mem.trans h.mem, k.tlb.trans h.tlb, k.parts.trans h.parts, k.fwTable.trans h.fwTable, k.flaws.trans h.flaws, k.devNum.trans h.devNum⟩
theorem State.sameMap_modTeam (s : State) (n : Nat) (f : Team → Team) : s.SameMap (s.modTeam n f) := ⟨rfl, rfl, rfl, rfl, rfl, rfl⟩
theorem State.sameMap_modAgent (s : State) (a : AgentId) (f : Agent → Agent) : s.SameMap (s.modAgent a f) := s.sameMap_modTeam _ _
theorem State.sameMap_begun (s : State) (b : Beat) : s.SameMap (s.begun b) := (s.sameMap_modAgent _ _).trans (State.sameMap_modAgent _ _ _)

namespace State.SameMap
variable {s t : State} (h : s.SameMap t)
include h

theorem partition (p : Nat) : t.partition p = s.partition p := by rw [State.partition, State.partition, h.parts]

theorem read (loc n : Nat) : t.read loc n = s.read loc n := by rw [State.read, State.read, h.mem]

theorem readNat (loc n : Nat) : t.readNat loc n = s.readNat loc n := by rw [State.readNat, State.readNat, h.read]

theorem findCtxFrom (base asid n i : Nat) : Machine.findCtxFrom t base asid n i = Machine.findCtxFrom s base asid n i := by
  induction n generalizing i with
  | zero => rfl
  | succ n ih => simp only [Machine.findCtxFrom, h.readNat, ih]

theorem ctx (part asid : Nat) : t.ctx part asid = s.ctx part asid := by
  rw [State.ctx, State.ctx, h.findCtxFrom, h.partition, h.fwTable]

theorem entryAt (unit part asid level table va : Nat) : Machine.entryAt t unit part asid level table va = Machine.entryAt s unit part asid level table va := by
  simp only [Machine.entryAt, h.tlb, h.readNat]

theorem entryFlawed (unit part asid level table va : Nat) :
    Machine.entryFlawed t unit part asid level table va = Machine.entryFlawed s unit part asid level table va := by
  simp only [Machine.entryFlawed, h.tlb, h.flaws]

theorem walk (unit part asid va : Nat) : t.walk unit part asid va = s.walk unit part asid va := by
  simp only [State.walk, h.ctx, h.entryAt, h.entryFlawed]

theorem diesOf (part : Nat) : t.diesOf part = s.diesOf part := by rw [State.diesOf, State.diesOf, h.partition]

theorem sliceOf (part : Nat) (p : Place) : t.sliceOf part p = s.sliceOf part p := by simp only [State.sliceOf, h.diesOf]

theorem onPeer (part : Nat) (p : Place) : t.onPeer part p = s.onPeer part p := by simp only [State.onPeer, h.partition]

theorem leafPlace (part : Nat) (e : W64) (big : Bool) (va : Nat) : t.leafPlace part e big va = s.leafPlace part e big va := by
  simp only [State.leafPlace, h.onPeer, h.sliceOf]

theorem reaches (part : Nat) (p : Place) : t.reaches part p = s.reaches part p := by
  simp only [State.reaches, State.peerOk, h.partition, h.devNum]

theorem deviceRead (u : Team) (va n : Nat) : t.deviceRead u va n = s.deviceRead u va n := by
  simp only [State.deviceRead, h.walk, h.leafPlace, h.reaches, h.read]

theorem tctlOf (u : Team) : t.tctlOf u = s.tctlOf u := by
  simp only [State.tctlOf, State.debugOf, h.ctx, h.partition]

theorem logReadIndex (u : Team) : t.logReadIndex u = s.logReadIndex u := by
  simp only [State.logReadIndex, h.ctx, h.deviceRead]

theorem logRoom (u : Team) (n : Nat) : t.logRoom u n = s.logRoom u n := by
  simp only [State.logRoom, h.tctlOf, h.logReadIndex]

theorem logReady (u : Team) (x : Agent) : t.logReady u x = s.logReady u x := by
  simp only [State.logReady, h.tctlOf]

end State.SameMap

end Sys2Proof.Machine
end

section
/-! MFS, MTS and QSTAT (R127 to R130). -/

namespace Sys2Proof.Machine

/-! ### One value for each written lane -/

/-- The writes of one value for each source lane of a beat (R42). -/
theorem spread_values (b : Beat) (v : Nat → W64) :
    spread b (b.lanes.map fun l => (l, resV (v l))) = laneWrites (slotWidth b.row.d) b.written (fun l => v (b.sourceOf l)) b.f.d := by
  cases hu : b.f.uni <;> simp [spread, Beat.lanes, Beat.written, Beat.sourceOf, hu, List.flatMap_map, laneWrites, resWrites, resV]

theorem flags_values (b : Beat) (v : Nat → W64) :
    (b.lanes.map fun l => (l, resV (v l))).foldl (fun m e => m ||| e.2.fl) (0 : FpFlags) = 0 := by
  rw [List.foldl_map]
  exact foldl_keeps (fun m : FpFlags => m = 0) _ _ (fun m l _ hm => by rw [hm]; simp [resV]) 0 rfl

/-- A form whose D is no queue register delivers its lanes' results to registers. -/
theorem finishLanes_values {b : Beat} (hd : ∀ q, b.f.d ≠ .q q) (s : State) (v : Nat → W64) :
    finishLanes b false s (b.lanes.map fun l => (l, resV (v l))) =
      .done (s.modAgent b.a fun x => deliverWrites false (laneWrites (slotWidth b.row.d) b.written (fun l => v (b.sourceOf l)) b.f.d)
        { x with fp := x.fp ||| 0 }) := by
  unfold finishLanes
  extract_lets fl s1
  split
  · exact absurd ‹_› (hd _)
  · simp only [s1, fl, flags_values, spread_values]

theorem finishOrPark_noQueue {b : Beat} (hq : quseOf b.row b.f = .none) (s0 s : State) (long : Bool) (rs : List (Nat × Res)) :
    finishOrPark s0 b long s rs = finishLanes b long s rs := by
  simp [finishOrPark, hq]

/-- A due form that delivers one value for each source lane to its D. -/
theorem Due.values_hold {i : Instr} {f : Fields} {s : State} {b : Beat} (h : Due i f s b) {body : Beat → State → Out} {u : State} (v : Nat → W64)
    (hform : ∃ n, formOf i = some (n, f)) (hpaired : b.row.d.paired) (hs : b.single)
    (hb : body b (s.begun b) = .done u) (hf : u.flaws = [])
    (hu : u.agent b.a = some (deliverWrites false (laneWrites (slotWidth b.row.d) b.written (fun l => v (b.sourceOf l)) b.f.d)
      { b.begunAgent with fp := b.begunAgent.fp ||| 0 })) :
    ∃ t y, issueBeat i f s body = .next t ∧ t.agent b.a = some y ∧ y.fp = b.x.fp ∧
      ∀ l ∈ b.written, y.holds (slotWidth b.row.d) l f.d (v (b.sourceOf l)) := by
  rw [h.f_eq] at hu
  obtain ⟨k, hk⟩ := hform
  obtain ⟨-, hd⟩ := h.dest_ok hk
  refine h.laneWrites_hold _ _ _ hb hf hu (fun _ => b.lt_of_mem_written) (fun n hn hw => Slot.even_of_ok hpaired (hn ▸ hd) hw) fun n hn l hl k hk => ?_
  have hsrc : b.sourceOf l = b.sourceOf k := b.sourceOf_eq_of_single hs (by rw [h.f_eq, hn]) hl hk
  simp only [hsrc]

/-- The same where the body changes its agent only. -/
theorem Due.values_done {i : Instr} {f : Fields} {s : State} {b : Beat} (h : Due i f s b) {body : Beat → State → Out} (v : Nat → W64)
    (hform : ∃ n, formOf i = some (n, f)) (hpaired : b.row.d.paired) (hs : b.single)
    (hb : body b (s.begun b) = finishLanes b false (s.begun b) (b.lanes.map fun l => (l, resV (v l)))) (hd : ∀ q, f.d ≠ .q q) :
    ∃ t y, issueBeat i f s body = .next t ∧ t.agent b.a = some y ∧ y.fp = b.x.fp ∧
      ∀ l ∈ b.written, y.holds (slotWidth b.row.d) l f.d (v (b.sourceOf l)) :=
  h.values_hold v hform hpaired hs (hb.trans (finishLanes_values (h.f_eq.symm ▸ hd) (s.begun b) v)) h.clean (h.begun_modAgent _)

theorem exec_mfs (f : Fields) (s : State) : exec (.mfs f) s = execMfs f s := rfl
theorem exec_mts (f : Fields) (s : State) : exec (.mts f) s = execMts f s := rfl
theorem exec_qstat (f : Fields) (s : State) : exec (.qstat f) s = execQstat f s := rfl

theorem State.foldl_logPut_agent (s : State) (team : Nat) (r : Nat → Nguxis) (ls : List Nat) (c : AgentId) :
    (ls.foldl (fun u l => u.logPut team (r l)) s).agent c = s.agent c :=
  foldl_keeps (fun u : State => u.agent c = s.agent c) _ ls (fun u l _ hu => (u.logPut_agent team (r l) c).trans hu) s rfl

theorem State.deviceWrite_clean {s u : State} {unit part asid va : Nat} {bs : List Byte} (h : s.deviceWrite unit part asid va bs = some u) :
    s.Clean u := by
  unfold State.deviceWrite at h
  dsimp only at h
  split at h
  · split at h
    · cases h
      exact (State.writeAt_teams ..).2
    · cases h
  · cases h

/-- A log record leaves no line with an uncorrectable error where there was none. -/
theorem State.logPut_clean (s : State) (team : Nat) (r : Nguxis) : s.Clean (s.logPut team r) := by
  have hput : ∀ (u : State) (unit part asid va : Nat) (bs : List Byte) (f : Team → Team),
      u.Clean (((u.deviceWrite unit part asid va bs).getD u).modTeam team f) := fun u unit part asid va bs f => by
    cases hd : u.deviceWrite unit part asid va bs with
    | none => exact id
    | some v =>
      have hv := State.deviceWrite_clean hd
      exact hv
  unfold State.logPut
  split
  · exact id
  · extract_lets ctl
    split
    · exact id
    · split
      · exact id
      · extract_lets size at' unit
        split
        · exact hput s _ _ _ _ _ _
        · exact hput s _ _ _ _ _ _

/-- A read of the device time (R130, R334). -/
theorem readTime_done {i : Instr} {f : Fields} {s : State} {b : Beat} (h : Due i f s b) (hq : quseOf b.row f = .none)
    (hlog : replaying (s.tctlOf b.t) = false ∧ s.logRoom b.t b.lanes.length = true ∧ s.logReady b.t b.x = true) :
    ∃ u, readTime s b (s.begun b) = .done u ∧ u.flaws = [] ∧ u.agent b.a =
      some (deliverWrites false (laneWrites (slotWidth b.row.d) b.written (fun _ => BitVec.ofNat 64 s.dtime) b.f.d)
        { b.begunAgent with fp := b.begunAgent.fp ||| 0 }) := by
  obtain ⟨hr, hroom, hready⟩ := hlog
  have hd := d_ne_q_of_quseOf hq
  have hq' : quseOf b.row b.f = .none := h.f_eq.symm ▸ hq
  have hfin := (finishOrPark_noQueue hq' s (s.begun b) false (b.lanes.map fun l => (l, resV (BitVec.ofNat 64 (s.begun b).dtime)))).trans
    (finishLanes_values (h.f_eq.symm ▸ hd) (s.begun b) fun _ => BitVec.ofNat 64 (s.begun b).dtime)
  unfold readTime
  have hmap := s.sameMap_begun b
  simp only [hmap.tctlOf, hmap.logRoom, hmap.logReady, hr, hroom, hready, Bool.not_true, Bool.or_self, Bool.false_eq_true,
    if_false]
  rw [hfin]
  refine ⟨_, rfl, ?_, ?_⟩
  · exact foldl_keeps (fun u : State => u.flaws = []) _ _ (fun u l _ hu => (u.logPut_clean _ _) hu) _ h.clean
  · rw [State.foldl_logPut_agent]
    exact h.begun_modAgent _

theorem mfs_row {r : Row} {f : Fields} (h : rowFor (.mfs f) = some r) : r.d.paired := by
  cases h
  rfl

/-- MFS (R127, R130). -/
theorem mfs_reads {f : Fields} {s : State} {b : Beat} (h : Due (.mfs f) f s b) (hq : quseOf b.row f = .none) (hs : b.single) (hp : b.perf ≠ 0)
    (hlog : f.imm = 0x0C → replaying (s.tctlOf b.t) = false ∧ s.logRoom b.t b.lanes.length = true ∧ s.logReady b.t b.x = true) :
    ∃ t y, exec (.mfs f) s = .next t ∧ t.agent b.a = some y ∧ y.fp = b.x.fp ∧
      ∀ l ∈ b.written, y.holds (slotWidth b.row.d) l f.d
        (if f.imm = 0x0C then BitVec.ofNat 64 s.dtime else special s b (b.sourceOf l) f.imm.toNat) := by
  rw [exec_mfs, execMfs]
  by_cases himm : f.imm = 0x0C
  · obtain ⟨u, hu, hf, ha⟩ := readTime_done h hq (hlog himm)
    simp only [himm, if_true]
    exact h.values_hold (fun _ => BitVec.ofNat 64 s.dtime) ⟨_, rfl⟩ (mfs_row h.row_eq) hs (by simp only [hp, if_false]; exact hu) hf ha
  · simp only [himm, if_false]
    refine h.values_done (fun l => special s b l f.imm.toNat) ⟨_, rfl⟩ (mfs_row h.row_eq) hs ?_ (d_ne_q_of_quseOf hq)
    simp only [hp, if_false]
    exact finishOrPark_noQueue (h.f_eq.symm ▸ hq) _ _ _ _

/-- A due beat whose body changes its agent's record: the registers are as it leaves them. -/
theorem Due.modAgent_regs {i : Instr} {f : Fields} {s : State} {b : Beat} (h : Due i f s b) {body : Beat → State → Out} (g : Agent → Agent)
    (hb : body b (s.begun b) = .done ((s.begun b).modAgent b.a g)) :
    ∃ t y, issueBeat i f s body = .next t ∧ t.agent b.a = some y ∧ y.regs = (g b.begunAgent).regs :=
  h.done_regs hb h.clean (h.begun_modAgent g)

/-- MTS (R128). -/
theorem mts_writes {f : Fields} {s : State} {b : Beat} (h : Due (.mts f) f s b) (hq : quseOf b.row f = .none) (hp : b.perf ≠ 0) :
    ∃ t y, exec (.mts f) s = .next t ∧ t.agent b.a = some y ∧
      y.regs = ({ b.x with fp := ((valsOf b 0 [] (b.lanes.headD 0)).a).setWidth 5 } : Agent).regs := by
  have hq' : quseOf b.row b.f = .none := h.f_eq.symm ▸ hq
  rw [exec_mts, execMts]
  have hregs : ({ b.begunAgent with fp := ((valsOf b 0 [] (b.lanes.headD 0)).a).setWidth 5 } : Agent).regs =
      ({ b.x with fp := ((valsOf b 0 [] (b.lanes.headD 0)).a).setWidth 5 } : Agent).regs := by rw [Beat.begunAgent_eq]; rfl
  rw [← hregs]
  refine h.modAgent_regs (fun x => { x with fp := ((valsOf b 0 [] (b.lanes.headD 0)).a).setWidth 5 }) ?_
  simp only [hp, if_false, withQueue, hq']

/-- QSTAT (R129). -/
theorem qstat_reads {f : Fields} {q : BitVec 4} {s : State} {b : Beat} (h : Due (.qstat f) f s b) (ha : f.a = .q q) (hd : ∀ r, f.d ≠ .q r)
    (hs : b.single) (hp : b.perf ≠ 0) :
    ∃ t y, exec (.qstat f) s = .next t ∧ t.agent b.a = some y ∧ y.fp = b.x.fp ∧
      ∀ l ∈ b.written, y.holds (slotWidth b.row.d) l f.d (BitVec.ofNat 64 (b.t.fillOf q.toNat)) := by
  rw [exec_qstat, execQstat]
  refine h.values_done (fun _ => BitVec.ofNat 64 (b.t.fillOf q.toNat)) ⟨_, rfl⟩ (by rw [← Option.some.inj h.row_eq]; rfl) hs ?_ hd
  simp only [hp, if_false, ha]

/-! ### The table of special registers (R130) -/

theorem getLsbD_maskOf {ls : List Nat} (h32 : ∀ l ∈ ls, l < 32) (p : Nat → Bool) (j : Nat) : (maskOf ls p).getLsbD j = (decide (j ∈ ls) && p j) := by
  have hfold : ∀ (ls : List Nat) (m : LaneMask), (∀ l ∈ ls, l < 32) →
      (ls.foldl (fun m i => if p i then m ||| (1#32 <<< i) else m) m).getLsbD j = (m.getLsbD j || (decide (j ∈ ls) && p j)) := by
    intro ls
    induction ls with
    | nil => simp
    | cons i ls ih =>
      intro m h
      rw [List.foldl_cons, ih _ fun l hl => h l (List.mem_cons_of_mem _ hl)]
      have hi := h i List.mem_cons_self
      by_cases hj : j = i
      · subst hj
        cases hp : p j <;> simp [hi]
      · have hbit : (1#32 <<< i).getLsbD j = false := by
          by_cases hlt : j < i
          · simp [hlt]
          · have : j - i ≠ 0 := by omega
            simp [this]
        split <;> simp [hj, hbit]
  rw [maskOf, hfold ls 0 h32]
  simp

theorem mem_laneNos {x : Agent} {j : Nat} : j ∈ x.laneNos ↔ j < 32 ∧ j < x.lanes.length := by
  have h32 : lanes32 = List.range 32 := by decide
  rw [Agent.laneNos, h32, List.take_range, List.mem_range]
  omega

/-- LIVEMASK has a bit for each lane that is not DONE (R77). -/
theorem bit_liveMask (x : Agent) (j : Nat) :
    bit (x.liveMask.setWidth 64) j = (decide (j < 32 ∧ j < x.lanes.length) && !decide ((x.lane j).s = .done)) := by
  have hlt : ∀ l ∈ x.laneNos, l < 32 := fun l hl => (mem_laneNos.mp hl).1
  by_cases hj : j < 64
  · rw [bit, BitVec.getLsbD_setWidth, Agent.liveMask, getLsbD_maskOf hlt]
    simp [hj, mem_laneNos]
  · have h2 : ¬ j < 32 := by omega
    simp [bit, hj, h2]

/-- The special registers of a group by number (R130). -/
theorem special_group {s : State} {b : Beat} {g : Grid} (hg : Tbl.find? s.grids b.t.grid = some g) (hk : b.x.kind = .group) (l : Nat) :
    ∀ e ∈ groupSpecials b g.launch l, special s b l e.1 = BitVec.ofNat 64 e.2 := by
  have hgroup : b.x.isGroup = true := by simp [Agent.isGroup, hk]
  simp [groupSpecials, special, State.launchOf, hg, hgroup, dieOf, archRev, b2n]

/-- Those of a thread. -/
theorem special_thread {s : State} {b : Beat} {g : Grid} (hg : Tbl.find? s.grids b.t.grid = some g) (hk : b.x.kind ≠ .group) (l : Nat) :
    ∀ e ∈ threadSpecials b g.launch, special s b l e.1 = BitVec.ofNat 64 e.2 := by
  have hthread : b.x.isGroup = false := by simp [Agent.isGroup, hk]
  simp [threadSpecials, special, State.launchOf, hg, hthread, dieOf, archRev, b2n]

/-- Settles O22: MFS and QSTAT deliver one value for each source lane, and MTS sets FPFLAGS. -/
theorem specialRegisters : Obligations.SpecialRegisters := by
  refine ⟨fun f s b h hq hs hp hlog => mfs_reads h hq hs hp hlog, fun s b g l hg => ⟨fun hk => ⟨special_group hg hk l, fun j => ?_⟩,
    fun hk => special_thread hg hk l⟩, fun f s b h hq hp => ?_, fun f q s b h ha hd hs hp => ?_⟩
  · have hgroup : b.x.isGroup = true := by simp [Agent.isGroup, hk]
    have hlive : special s b l 0x11 = b.x.liveMask.setWidth 64 := by simp [special, hgroup]
    rw [hlive]
    exact bit_liveMask b.x j
  · obtain ⟨t, y, hnext, hy, hregs⟩ := mts_writes h hq hp
    exact ⟨t, y, hnext, hy, congrArg RegFile.fp hregs, congrArg RegFile.v hregs, congrArg RegFile.u hregs, congrArg RegFile.pr hregs⟩
  · obtain ⟨t, y, hnext, hy, -, hall⟩ := qstat_reads h ha hd hs hp
    have hw : slotWidth b.row.d = 32 := by rw [← Option.some.inj h.row_eq]; rfl
    exact ⟨t, y, hnext, hy, hw ▸ hall⟩

end Sys2Proof.Machine
end

section
/-! The bytes that a write leaves: those of its range, and beside it only records of monitor entries that it takes out (R136, R260, R265). -/

namespace Sys2Proof.Machine

/-! ### The monitor table stays where caches change -/

@[simp] theorem State.recall_mons (s : State) (l : Nat) (but : Option Nat) : (s.recall l but).mons = s.mons := by
  unfold State.recall
  extract_lets r
  split
  · rfl
  · split <;> rfl

@[simp] theorem State.makeRoom_mons (s : State) (slice l : Nat) (data : Bool) : (s.makeRoom slice l data).mons = s.mons := by
  simp only [State.makeRoom]
  repeat' split
  · rfl
  · exact State.recall_mons s _ none
  · rfl
  · rfl

@[simp] theorem State.touchLine_mons (s : State) (p : Place) (pol : Nat) : (s.touchLine p pol).mons = s.mons := by
  simp only [State.touchLine]
  split
  · exact State.makeRoom_mons s.unpin _ _ _
  · rfl

@[simp] theorem State.rewritten_mons (s : State) (l n : Nat) : (s.rewritten l n).mons = s.mons := by
  unfold State.rewritten
  split <;> rfl

theorem State.parts_of_still {s t : State} (h : t.still = s.still) : t.parts = s.parts := (congrArg State.parts h : t.still.parts = s.still.parts)

theorem State.partition_of_parts {s t : State} (h : t.parts = s.parts) (p : Nat) : t.partition p = s.partition p := by
  rw [State.partition, State.partition, h]

/-- Whether a byte stands in the spilled record of a monitor entry (R265). -/
theorem State.spillByte_iff {s : State} {loc : Nat} : s.spillByte loc = true ↔
    ∃ m ∈ s.mons, ∃ i, m.spill = some i ∧ locOf 0 ((s.partition m.part).spBase.toNat + 32 * i) ≤ loc ∧
      loc < locOf 0 ((s.partition m.part).spBase.toNat + 32 * i) + 32 := by
  simp only [State.spillByte, List.any_eq_true]
  refine exists_congr fun m => and_congr_right fun _ => ?_
  cases m.spill <;> simp

/-- A monitor table that has shrunk has fewer spilled bytes. -/
theorem State.spillByte_mono {s t : State} (hm : ∀ m ∈ t.mons, m ∈ s.mons) (hp : t.parts = s.parts) {loc : Nat} (h : s.spillByte loc = false) :
    t.spillByte loc = false := by
  refine Bool.eq_false_iff.mpr fun ht => ?_
  obtain ⟨m, hmem, i, hi, hlo, hhi⟩ := State.spillByte_iff.mp ht
  rw [State.partition_of_parts hp] at hlo hhi
  rw [State.spillByte_iff.mpr ⟨m, hm m hmem, i, hi, hlo, hhi⟩] at h
  cases h

/-! ### Bytes -/

theorem Tbl.getD_getMany {α : Type} (d : α) (m : Tbl α) (k n i : Nat) (hi : i < n) : (Tbl.getMany d m k n).getD i d = Tbl.get d m (k + i) := by
  induction n generalizing k i with
  | zero => omega
  | succ n ih =>
    cases i with
    | zero => rfl
    | succ i =>
      rw [Tbl.getMany, List.getD_cons_succ, ih (k + 1) i (by omega)]
      congr 1
      omega

theorem State.byteAt_poke (s : State) (l : Nat) (bs : List Byte) (n : Nat) :
    (s.poke l bs).byteAt n = if l ≤ n ∧ n < l + bs.length then bs.getD (n - l) 0 else s.byteAt n := by
  split
  · rename_i h
    have hb := congrArg (fun ls : List Byte => ls.getD (n - l) 0) (s.read_poke l bs)
    simp only [State.read] at hb
    rw [Tbl.getD_getMany _ _ _ _ _ (by omega), Nat.add_sub_cancel' h.1] at hb
    exact hb
  · rename_i h
    exact State.get_poke_other s l n bs (by omega)

theorem State.byteAt_congr {s t : State} (h : t.mem = s.mem) (n : Nat) : t.byteAt n = s.byteAt n := by rw [State.byteAt, State.byteAt, h]

/-- Entries that leave the monitor table clear their spilled records, and no other byte changes (R265). -/
theorem State.dropMons_bytes (s : State) (gone : Mon → Bool) : (∀ m ∈ (s.dropMons gone).mons, m ∈ s.mons) ∧
    ∀ loc, s.spillByte loc = false → (s.dropMons gone).byteAt loc = s.byteAt loc := by
  refine ⟨fun m hm => (List.mem_filter.mp hm).1, fun loc hloc => ?_⟩
  unfold State.dropMons
  extract_lets out kept s1
  have hfold : s1.parts = s.parts ∧ s1.byteAt loc = s.byteAt loc := by
    refine foldl_keeps (fun u : State => u.parts = s.parts ∧ u.byteAt loc = s.byteAt loc) _ out (fun u m hm hu => ?_) s ⟨rfl, rfl⟩
    obtain ⟨hp, hb⟩ := hu
    split
    · rename_i i hi
      refine ⟨(State.parts_of_still (State.poke_still ..)).trans hp, ?_⟩
      rw [State.byteAt_poke, if_neg, hb]
      rw [State.partition_of_parts hp]
      rintro ⟨hlo, hhi⟩
      rw [List.length_replicate] at hhi
      rw [State.spillByte_iff.mpr ⟨m, (List.mem_filter.mp hm).1, i, hi, hlo, hhi⟩] at hloc
      cases hloc
    · exact ⟨hp, hb⟩
  clear_value s1
  exact hfold.2

theorem State.compare_bytes (s : State) (loc n c : Nat) : (∀ m ∈ (s.compare loc n c).mons, m ∈ s.mons) ∧
    ∀ k, s.spillByte k = false → (s.compare loc n c).byteAt k = s.byteAt k := by
  unfold State.compare
  extract_lets hit out
  obtain ⟨hm, hb⟩ := s.dropMons_bytes hit
  refine foldl_keeps (fun u : State => (∀ m ∈ u.mons, m ∈ s.mons) ∧ ∀ k, s.spillByte k = false → u.byteAt k = s.byteAt k) _ out (fun u m _ hu => ?_) _
    ⟨hm, hb⟩
  exact hu

/-- A write puts its bytes, and no other byte changes but those of spilled records (R136, R260). -/
theorem State.writeWith_bytes (s : State) (p : Place) (bs : List Byte) (cl : Option Nat) (pol : Nat) :
    (∀ m ∈ (s.writeWith p bs cl pol).1.mons, m ∈ s.mons) ∧ ∀ loc, s.spillByte loc = false →
      (s.writeWith p bs cl pol).1.byteAt loc = if p.loc ≤ loc ∧ loc < p.loc + bs.length then bs.getD (loc - p.loc) 0 else s.byteAt loc := by
  have hpoke : ∀ u : State, u.mem = s.mem → ∀ loc,
      (u.poke p.loc bs).byteAt loc = if p.loc ≤ loc ∧ loc < p.loc + bs.length then bs.getD (loc - p.loc) 0 else s.byteAt loc := fun u hu loc => by
    rw [State.byteAt_poke, State.byteAt_congr hu]
  have hs := s.serialised_same p bs.length cl pol
  have hmons : (((({ s with writeSeq := s.writeSeq + 1 } : State).recall (p.loc / 128) cl).touchLine p pol).rewritten (p.loc / 128) bs.length).mons =
      s.mons := by simp
  have hstill : (((({ s with writeSeq := s.writeSeq + 1 } : State).recall (p.loc / 128) cl).touchLine p pol).rewritten (p.loc / 128) bs.length).still =
      s.still := by
    simp only [State.rewritten_still, State.touchLine_still, State.recall_still]
    rfl
  unfold State.writeWith
  cases p.owned with
  | slice =>
    simp only
    generalize ((({ s with writeSeq := s.writeSeq + 1 } : State).recall (p.loc / 128) cl).touchLine p pol).rewritten (p.loc / 128) bs.length = u
      at hs hmons hstill ⊢
    split
    · exact ⟨fun m hm => hmons ▸ hm, fun loc _ => hpoke u hs.1 loc⟩
    · have hroom : ∀ v : State, v.mem = u.mem → v.mons = u.mons → v.still = u.still → ∀ r c,
          (∀ m ∈ (((v.poke p.loc bs).setLine (p.loc / 128) r).compare p.loc bs.length c).mons, m ∈ s.mons) ∧ ∀ loc, s.spillByte loc = false →
            (((v.poke p.loc bs).setLine (p.loc / 128) r).compare p.loc bs.length c).byteAt loc =
              if p.loc ≤ loc ∧ loc < p.loc + bs.length then bs.getD (loc - p.loc) 0 else s.byteAt loc := fun v hv hm hst r c => by
        obtain ⟨hcm, hcb⟩ := ((v.poke p.loc bs).setLine (p.loc / 128) r).compare_bytes p.loc bs.length c
        have hvm : v.mons = s.mons := hm.trans hmons
        refine ⟨fun m hmem => hvm ▸ hcm m hmem, fun loc hloc => (hcb loc ?_).trans (hpoke v (hv.trans hs.1) loc)⟩
        exact State.spillByte_mono (s := s) (fun m hmem => hvm ▸ hmem) (State.parts_of_still (hst.trans hstill)) hloc
      split
      · exact hroom _ (State.makeRoom_same ..).1 (State.makeRoom_mons ..) (State.makeRoom_still ..) _ _
      · exact hroom u rfl rfl rfl _ _
  | scratch t | pinned | peer => exact ⟨fun m hm => hm, fun loc _ => hpoke { s with writeSeq := s.writeSeq + 1 } rfl loc⟩

end Sys2Proof.Machine
end

section
/-! The frame of a beat's end where no team barrier releases: other agents, the teams and memory (R66, R69, R70, R332). -/

namespace Sys2Proof.Machine

/-! ### Teams and other agents -/

/-- The team without its agents. -/
def Team.bare (t : Team) : Team := { t with agents := [] }

/-- No agent but one, and no team beyond its agents, has changed. -/
structure State.Fixed (a : AgentId) (s t : State) : Prop where
  others : ∀ c, c ≠ a → t.agent c = s.agent c
  teams : ∀ n, (t.team n).map Team.bare = (s.team n).map Team.bare

theorem State.Fixed.refl (a : AgentId) (s : State) : s.Fixed a s := ⟨fun _ _ => rfl, fun _ => rfl⟩
theorem State.Fixed.trans {a : AgentId} {s t u : State} (h : s.Fixed a t) (k : t.Fixed a u) : s.Fixed a u :=
  ⟨fun c hc => (k.others c hc).trans (h.others c hc), fun n => (k.teams n).trans (h.teams n)⟩
theorem State.Fixed.of_teams {a : AgentId} {s t : State} (h : t.teams = s.teams) : s.Fixed a t :=
  ⟨fun c _ => State.agent_congr h c, fun n => by rw [State.team, State.team, h]⟩

theorem State.fixed_modAgent (s : State) (a : AgentId) (f : Agent → Agent) : s.Fixed a (s.modAgent a f) := by
  refine ⟨fun c hc => by rw [State.agent_modAgent, if_neg hc], fun n => ?_⟩
  rw [State.modAgent, State.team_modTeam]
  split
  · rw [Option.map_map]
    rfl
  · rfl

theorem State.fixed_setFrame (s : State) (a : AgentId) (t : Team) (x : Agent) (d : Nat) (l : Label) : s.Fixed a (setFrame s a t x d l) := by
  unfold setFrame
  extract_lets out y
  split
  · exact (s.fixed_modAgent a fun _ => y).trans (.of_teams (seqWrite_teams ..).1)
  · exact s.fixed_modAgent a fun _ => y

/-- The census of an agent with a running lane changes nothing else in the teams. -/
theorem State.fixed_census {s : State} {a : AgentId} {x : Agent} (h : s.RunsOn a x) (hx : x.runLanes ≠ []) (frm : Nat) : s.Fixed a (s.census a frm) := by
  obtain ⟨y, hy, hc, -⟩ := h.found
  obtain ⟨t, ht⟩ := h.team
  have hrun : y.runLanes ≠ [] := by rwa [Agent.runLanes_of_core hc]
  unfold State.census
  simp only [ht, hy]
  split
  · contradiction
  · split
    · exact (s.fixed_setFrame a t y _ _).trans (State.fixed_modAgent _ _ _)
    · split <;> exact s.fixed_modAgent a _

theorem State.fixed_markHeld (s : State) (a : AgentId) : s.Fixed a (s.markHeld a) := by
  refine ⟨fun c hc => ?_, fun n => ?_⟩
  · obtain ⟨f, hf, he⟩ := s.markHeld_agent a c
    have hid : f = id := funext fun x => (hf x).resolve_right fun hr => hc hr.1
    rw [he, hid, Option.map_id_fun, id]
  · rw [State.markHeld, State.team_modTeam]
    split
    · rw [Option.map_map]
      congr 1
      funext t
      simp only [Function.comp]
      split <;> rfl
    · rfl

/-! ### The team barrier does not release -/

/-- No team barrier of the team is ready to release. -/
def State.Unreleased (s : State) (n : Nat) : Prop := ∀ t, s.team n = some t → t.barReady = false

theorem Tbl.mem_modify {α : Type} {m : Tbl α} {k : Nat} {f : α → α} {e : Nat × α} (h : e ∈ m) :
    e ∈ Tbl.modify m k f ∨ (e.1 = k ∧ (k, f e.2) ∈ Tbl.modify m k f) := by
  induction m with
  | nil => cases h
  | cons d m ih =>
    obtain ⟨j, v⟩ := d
    simp only [Tbl.modify]
    rcases List.mem_cons.mp h with rfl | hm
    · split
      · rename_i hjk
        exact .inr ⟨hjk, by rw [hjk]; exact List.mem_cons_self⟩
      · exact .inl List.mem_cons_self
    · split
      · exact .inl (List.mem_cons_of_mem _ hm)
      · rcases ih hm with h1 | ⟨h1, h2⟩
        · exact .inl (List.mem_cons_of_mem _ h1)
        · exact .inr ⟨h1, List.mem_cons_of_mem _ h2⟩

/-- A change of an agent that does not end it readies no team barrier. -/
theorem Team.barReady_modify {t : Team} (h : t.barReady = false) (k : Nat) {f : Agent → Agent} (hf : ∀ x, (f x).issue = .ended → x.issue = .ended) :
    ({ t with agents := Tbl.modify t.agents k f } : Team).barReady = false := by
  refine Bool.eq_false_iff.mpr fun hr => ?_
  rw [← Bool.not_eq_true] at h
  refine h ?_
  unfold Team.barReady at hr ⊢
  dsimp only at hr
  split at hr
  · cases hr
  · rename_i b hb
    simp only [Bool.and_eq_true, List.all_eq_true, Bool.or_eq_true, decide_eq_true_eq] at hr ⊢
    refine ⟨hr.1, fun e he => ?_⟩
    rcases Tbl.mem_modify (k := k) (f := f) he with h1 | ⟨h1, h2⟩
    · exact hr.2 e h1
    · rcases hr.2 _ h2 with (hw | hw) | hw
      · exact .inl (.inl (h1.trans hw))
      · exact .inl (.inr (hf _ hw))
      · exact .inr (h1 ▸ hw)

theorem State.Unreleased.modAgent {s : State} {a : AgentId} (h : s.Unreleased a.team) {f : Agent → Agent}
    (hf : ∀ x, (f x).issue = .ended → x.issue = .ended) : (s.modAgent a f).Unreleased a.team := by
  intro t ht
  rw [State.modAgent, State.team_modTeam, if_pos rfl] at ht
  obtain ⟨t0, ht0, rfl⟩ := Option.map_eq_some_iff.mp ht
  exact Team.barReady_modify (h t0 ht0) a.who hf

theorem State.Unreleased.congr {s t : State} {n : Nat} (h : s.Unreleased n) (ht : t.teams = s.teams) : t.Unreleased n := by
  intro u hu
  rw [State.team, ht] at hu
  exact h u hu

theorem State.unreleased_setFrame {s : State} {a : AgentId} (h : s.Unreleased a.team) (t : Team) (x : Agent) (hx : x.issue ≠ .ended) (d : Nat) (l : Label) :
    (setFrame s a t x d l).Unreleased a.team := by
  have hset : ∀ y : Agent, y.issue = x.issue → (s.setAgent a y).Unreleased a.team := fun y hy =>
    h.modAgent (f := fun _ => y) fun _ he => absurd (hy.symm.trans he) hx
  unfold setFrame
  extract_lets out y
  split
  · exact (hset y rfl).congr (seqWrite_teams ..).1
  · exact hset y rfl

theorem State.unreleased_census {s : State} {a : AgentId} {x : Agent} (hu : s.Unreleased a.team) (h : s.RunsOn a x) (hx : x.runLanes ≠ []) (frm : Nat) :
    (s.census a frm).Unreleased a.team := by
  obtain ⟨y, hy, hc, hi⟩ := h.found
  obtain ⟨t, ht⟩ := h.team
  have hrun : y.runLanes ≠ [] := by rwa [Agent.runLanes_of_core hc]
  have hne : y.issue ≠ .ended := by rcases hi with hi | hi <;> simp [hi]
  unfold State.census
  simp only [ht, hy]
  split
  · contradiction
  · split
    · exact (State.unreleased_setFrame hu t y hne _ _).modAgent fun _ he => by cases he
    · split <;> exact hu.modAgent (f := fun _ => _) fun _ he => by cases he

/-- Where the team barrier is not ready, what an agent that runs on brings about in its team is nothing. -/
theorem State.settle_unreleased {s : State} {a : AgentId} {x : Agent} (hu : s.Unreleased a.team) (h : s.RunsOn a x) : s.settle a.team = s := by
  obtain ⟨t, ht⟩ := h.team
  unfold State.settle
  simp only [ht, Team.allEnded_of_runsOn h ht, hu t ht]
  split <;> simp

/-! ### Memory -/

theorem toBytes_length (n x : Nat) : (toBytes n x).length = n := by
  induction n generalizing x with
  | zero => rfl
  | succ n ih => simp [toBytes, ih]

theorem seqPlace_congr {s s' : State} (h : s.SameMap s') {t t' : Team} (ht : t'.bare = t.bare) (who lane off : Nat) (w : Bool) :
    seqPlace s' t' who lane off w = seqPlace s t who lane off w := by
  have hpart : t'.part = t.part := (congrArg Team.part ht : t'.bare.part = t.bare.part)
  have hasid : t'.asid = t.asid := (congrArg Team.asid ht : t'.bare.asid = t.bare.asid)
  have hslot : t'.slot = t.slot := (congrArg Team.slot ht : t'.bare.slot = t.bare.slot)
  have hcl : t'.cluster = t.cluster := by
    have hres : t'.res = t.res := (congrArg Team.res ht : t'.bare.res = t.bare.res)
    rw [Team.cluster, Team.cluster, hres]
  simp only [seqPlace, hpart, hasid, hslot, hcl, h.ctx, h.walk, h.leafPlace, h.reaches]

/-- A step that stores at most the frame word of an agent that leaves its frame (R66). -/
structure State.StoresFrame (s : State) (t : Team) (who : Nat) (d : Nat) (group : Bool) (u : State) : Prop where
  quiet : d < 16 ∨ group = false → u.mem = s.mem
  bytes : ∀ loc, (∀ p, seqPlace s t who 0 (1024 + 4 * d) true = some p → loc < p.loc ∨ p.loc + 4 ≤ loc) → s.spillByte loc = false →
    u.byteAt loc = s.byteAt loc

theorem State.StoresFrame.of_mem {s u : State} (h : u.mem = s.mem) (t : Team) (who d : Nat) (g : Bool) : s.StoresFrame t who d g u :=
  ⟨fun _ => h, fun _ _ _ => State.byteAt_congr h _⟩

theorem setFrame_stores (s : State) (a : AgentId) (t : Team) (x : Agent) (d : Nat) (l : Label) :
    s.StoresFrame t a.who d (decide (x.kind = .group)) (setFrame s a t x d l) := by
  unfold setFrame
  extract_lets out y
  by_cases ho : out = true
  · simp only [ho, if_true]
    have hout : 16 ≤ d ∧ x.kind = .group := by
      simp only [out, Bool.and_eq_true, decide_eq_true_eq] at ho
      exact ho.1
    refine ⟨fun hq => ?_, fun loc hloc hsp => ?_⟩
    · rcases hq with hq | hq
      · omega
      · simp [hout.2] at hq
    · have hmap : s.SameMap (s.setAgent a y) := s.sameMap_modAgent a fun _ => y
      unfold seqWrite
      rw [seqPlace_congr hmap rfl]
      split
      · rename_i p hp
        have hb := (((s.setAgent a y).writeWith_bytes p (toBytes 4 l.toNat) t.cluster 0).2 loc hsp)
        rw [State.writeAt, hb, toBytes_length, if_neg (by have := hloc p hp; omega)]
        rfl
      · rfl
  · rw [if_neg ho]
    exact State.StoresFrame.of_mem (State.setAgent_mem ..) _ _ _ _

theorem State.StoresFrame.congr {s u u' : State} {t : Team} {who d : Nat} {g : Bool} (h : s.StoresFrame t who d g u) (hu : u'.mem = u.mem) :
    s.StoresFrame t who d g u' :=
  ⟨fun hq => hu.trans (h.quiet hq), fun loc h1 h2 => (State.byteAt_congr hu loc).trans (h.bytes loc h1 h2)⟩

theorem State.census_stores {s : State} {a : AgentId} {t : Team} {x : Agent} (ht : s.team a.team = some t) (hx : s.agent a = some x)
    (hr : x.runLanes ≠ []) (frm : Nat) : s.StoresFrame t a.who x.f.toNat (decide (x.kind = .group)) (s.census a frm) := by
  unfold State.census
  simp only [ht, hx]
  split
  · contradiction
  · split
    · exact (setFrame_stores s a t x _ _).congr rfl
    · split <;> exact State.StoresFrame.of_mem (State.setAgent_mem ..) _ _ _ _

/-! ### The count of a beat -/

/-- The state without the counts of beats. -/
def State.uncounted (s : State) : State := { s with lcr := [], lastBeat := [], railClocks := [], ccLast := [], beatSeq := 0 }

theorem State.countGroup_uncounted (s : State) (b : Beat) (whole : Bool) : (s.countGroup b whole).uncounted = s.uncounted := by
  unfold State.countGroup
  extract_lets qs s1 k
  have h1 : s1.uncounted = s.uncounted := by
    unfold s1
    split
    · rfl
    · exact foldl_keeps (fun u : State => u.uncounted = s.uncounted) (fun u q => u.countQuad b q) qs (fun _ _ _ h => h) s rfl
  clear_value s1
  exact h1

/-- The count of a beat changes the counts, and its agent's place in them. -/
theorem State.countBeat_uncounted (s : State) (b : Beat) (whole : Bool) :
    ∃ u : State, ∃ n, u.uncounted = s.uncounted ∧ s.countBeat b whole = u.modAgent b.a fun x =>
      { x with lastBeat := n, active := x.active || (x.isGroup && decide (x.issue = .beats)) } := by
  unfold State.countBeat
  extract_lets s1
  have h1 : s1.uncounted = s.uncounted := by
    unfold s1
    split
    · exact State.countGroup_uncounted ..
    · rfl
  clear_value s1
  exact ⟨{ s1 with beatSeq := s1.beatSeq + 1 }, _, h1, rfl⟩

theorem State.sameMap_of_uncounted {s u : State} (h : u.uncounted = s.uncounted) : s.SameMap u :=
  ⟨(congrArg State.mem h : u.uncounted.mem = s.uncounted.mem), (congrArg State.tlb h : u.uncounted.tlb = s.uncounted.tlb),
    (congrArg State.parts h : u.uncounted.parts = s.uncounted.parts), (congrArg State.fwTable h : u.uncounted.fwTable = s.uncounted.fwTable),
    (congrArg State.flaws h : u.uncounted.flaws = s.uncounted.flaws), (congrArg State.devNum h : u.uncounted.devNum = s.uncounted.devNum)⟩

/-! ### The end of a beat -/

/-- What an agent's end of beat leaves alone, from the state that the body leaves. -/
structure State.Ends (s : State) (a : AgentId) (t : Team) (x : Agent) (u : State) : Prop where
  fixed : s.Fixed a u
  stores : s.StoresFrame t a.who x.f.toNat (decide (x.kind = .group)) u

/-- Frames of a state in which memory, translation and the monitor table are the same. -/
theorem State.StoresFrame.base {s s' u : State} {t t' : Team} {who d : Nat} {g : Bool} (h : s'.StoresFrame t' who d g u) (hmap : s.SameMap s')
    (hmons : s'.mons = s.mons) (ht : t'.bare = t.bare) : s.StoresFrame t who d g u :=
  ⟨fun hq => (h.quiet hq).trans hmap.mem, fun loc hloc hsp =>
    (h.bytes loc (fun p hp => hloc p (by rw [← seqPlace_congr hmap ht]; exact hp))
      (State.spillByte_mono (fun m hm => hmons ▸ hm) hmap.parts hsp)).trans (State.byteAt_congr hmap.mem loc)⟩

theorem State.ends_of_quiet {s u : State} {a : AgentId} (hf : s.Fixed a u) (hm : u.mem = s.mem) (t : Team) (x : Agent) : s.Ends a t x u :=
  ⟨hf, State.StoresFrame.of_mem hm _ _ _ _⟩

theorem State.Fixed.team {a : AgentId} {s u : State} (h : s.Fixed a u) {n : Nat} {t : Team} (ht : s.team n = some t) :
    ∃ t', u.team n = some t' ∧ t'.bare = t.bare := by
  have hn := h.teams n
  rw [ht] at hn
  obtain ⟨t', ht', hb⟩ := Option.map_eq_some_iff.mp hn
  exact ⟨t', ht', hb⟩

/-- The end of a beat whose agent runs on, where no team barrier of its team releases. -/
theorem State.conclude_done_ends {s u : State} {b : Beat} {t : Team} {z : Agent} (ht : u.team b.a.team = some t) (hz : u.agent b.a = some z)
    (hi : z.issue = .beats) (hr : z.runLanes ≠ []) (hu : u.Unreleased b.a.team) (whole : Bool) :
    u.Ends b.a t z (s.conclude b whole (.done u)) := by
  obtain ⟨v, n, hv, he⟩ := u.countBeat_uncounted b whole
  have hvt : v.teams = u.teams := (congrArg State.teams hv : v.uncounted.teams = u.uncounted.teams)
  have hvm : v.mons = u.mons := (congrArg State.mons hv : v.uncounted.mons = u.uncounted.mons)
  have hmark : ∀ w : State, u.Ends b.a t z w → u.Ends b.a t z (w.markHeld b.a) := fun w hw =>
    ⟨hw.fixed.trans (w.fixed_markHeld b.a), hw.stores.congr rfl⟩
  refine hmark _ ?_
  show u.Ends b.a t z (u.afterBeat b whole)
  unfold State.afterBeat
  rw [he]
  let f1 : Agent → Agent := fun x => { x with lastBeat := n, active := x.active || (x.isGroup && decide (x.issue = .beats)) }
  have hfix1 : u.Fixed b.a (v.modAgent b.a f1) := (State.Fixed.of_teams hvt).trans (v.fixed_modAgent b.a f1)
  have hmap1 : u.SameMap (v.modAgent b.a f1) := (State.sameMap_of_uncounted hv).trans (v.sameMap_modAgent b.a f1)
  unfold State.passBeat
  split
  · exact State.ends_of_quiet (hfix1.trans (State.fixed_modAgent _ _ _)) hmap1.mem t z
  · let f2 : Agent → Agent := fun x => { x with restart := 0, block := none }
    let w := (v.modAgent b.a f1).modAgent b.a f2
    have hfix2 : u.Fixed b.a w := hfix1.trans (State.fixed_modAgent _ _ f2)
    have hmap2 : u.SameMap w := hmap1.trans (State.sameMap_modAgent _ _ f2)
    have hagent : w.agent b.a = some (f2 (f1 z)) := by
      rw [State.agent_modAgent_same, State.agent_modAgent_same, State.agent_congr hvt, hz]
      rfl
    have hrun : w.RunsOn b.a (f2 (f1 z)) := ⟨_, hagent, rfl, .inl hi⟩
    have hun : w.Unreleased b.a.team := ((hu.congr hvt).modAgent (f := f1) fun _ h => h).modAgent (f := f2) fun _ h => h
    obtain ⟨t', ht', hbare⟩ := hfix2.team ht
    have hnext : w.nextIndex b.a = w.census b.a ((f2 (f1 z)).p.toNat + 1) := by
      unfold State.nextIndex
      simp only [hagent]
      exact State.settle_unreleased (State.unreleased_census hun hrun hr _) (State.census_runsOn hrun hr _)
    show u.Ends b.a t z (w.nextIndex b.a)
    rw [hnext]
    exact ⟨hfix2.trans (State.fixed_census hrun hr _), (State.census_stores ht' hagent hr _).base hmap2 hvm hbare⟩

end Sys2Proof.Machine
end

section
/-! What register forms leave unchanged (R44, R66, R97, R111, R119). -/

namespace Sys2Proof.Machine

/-! ### The writes of a register form -/

/-- A write of a beat names a register of one of its destinations, in a lane that the beat writes (R42, R44). -/
def Beat.names (b : Beat) (w : RegWrite) : Prop :=
  ∃ l ∈ b.written, ∃ p ∈ [(b.row.d, b.f.d), (b.row.e, b.f.e), (b.row.g, b.f.g)], ∃ v, w ∈ destWrites (slotWidth p.1) l v p.2

theorem Beat.perf_written {b : Beat} (hsub : ∀ l, b.perf.getLsbD l = true → b.act.getLsbD l = true) {l : Nat} (hl : l ∈ lanesIn b.perf) :
    l ∈ b.written := by
  unfold Beat.written
  split
  · exact mem_lanesIn.mpr (hsub l (mem_lanesIn.mp hl))
  · exact hl

theorem Due.perf_sub {i : Instr} {f : Fields} {s : State} {b : Beat} (h : Due i f s b) (l : Nat) (hl : b.perf.getLsbD l = true) :
    b.act.getLsbD l = true := by
  obtain ⟨r, -, -, hb⟩ := h.now
  have hperf : b.perf = performing b.x f b.act := by rw [hb]; rfl
  rw [hperf, performing, getLsbD_maskOf fun _ => lt_of_mem_lanesIn] at hl
  simp only [Bool.and_eq_true, decide_eq_true_eq] at hl
  exact mem_lanesIn.mp hl.1

/-- The writes of a lane form's results name its destinations. -/
theorem Beat.names_of_writes {b : Beat} {op : Vals → Res} {w : RegWrite} (hw : w ∈ b.writes op) : b.names w := by
  obtain ⟨l, hl, hw⟩ := List.mem_flatMap.mp hw
  rcases mem_resWrites hw with hd | ⟨c, n, -, hn, rfl⟩
  · exact ⟨l, hl, (b.row.d, b.f.d), by simp, _, hd⟩
  · refine ⟨l, hl, (b.row.e, b.f.e), by simp, BitVec.ofNat 64 (b2n c), ?_⟩
    rw [hn, destWrites, bit_b2n]
    exact List.mem_singleton_self _

/-- The kinds of register form. -/
theorem registerForm_cases {i : Instr} {f : Fields} (h : registerForm i = some f) :
    (i = .shfl f ∨ i = .vote f ∨ i = .rdln f ∨ i = .mtch f ∨ i = .gred f ∨ i = .gscan f ∨ i = .rebal f) ∨
      ∃ op, integerForm i = some (f, op) ∨ floatForm i = some (f, op) ∨ longForm i = some (f, op) := by
  unfold registerForm at h
  split at h
  case h_8 =>
    refine .inr ?_
    split at h
    · rename_i e he
      cases h
      exact ⟨_, .inl he⟩
    · rename_i e he _
      cases h
      exact ⟨_, .inr (.inl he)⟩
    · rename_i e he _ _
      cases h
      exact ⟨_, .inr (.inr he)⟩
    · cases h
  all_goals
    cases h
    simp

/-- What the row of a register form says of its destinations: pairs stand at even registers, and G is no predicate. -/
structure DestRow (r : Row) : Prop where
  d : r.d.paired
  e : r.e.paired
  g : r.g.paired
  noPred : ∀ c, r.g ≠ .pred c

theorem registerForm_row {i : Instr} {f : Fields} (h : registerForm i = some f) {r : Row} (hr : rowFor i = some r) : DestRow r := by
  rcases registerForm_cases h with (rfl | rfl | rfl | rfl | rfl | rfl | rfl) | ⟨op, hi | hf | hl⟩
  case inl.inr.inl =>
    cases hr
    refine ⟨?_, trivial, trivial, fun _ => nofun⟩
    dsimp only
    split <;> trivial
  case inr.inl =>
    unfold integerForm at hi
    split at hi
    all_goals cases hi
    all_goals cases hr
    all_goals exact ⟨by trivial, by trivial, by trivial, fun _ => nofun⟩
  case inr.inr.inl =>
    unfold floatForm at hf
    split at hf
    all_goals cases hf
    all_goals cases hr
    all_goals exact ⟨by trivial, by trivial, by trivial, fun _ => nofun⟩
  case inr.inr.inr =>
    unfold longForm at hl
    split at hl
    all_goals cases hl
    all_goals cases hr
    all_goals exact ⟨by trivial, by trivial, by trivial, fun _ => nofun⟩
  all_goals cases hr
  all_goals exact ⟨by trivial, by trivial, by trivial, fun _ => nofun⟩

theorem registerForm_formOf {i : Instr} {f : Fields} (h : registerForm i = some f) : ∃ n, formOf i = some (n, f) := by
  rcases registerForm_cases h with (rfl | rfl | rfl | rfl | rfl | rfl | rfl) | ⟨op, hi | hf | hl⟩
  case inr.inl => exact (integerForm_spec hi).2.1
  case inr.inr.inl => exact (floatForm_spec hf).2.1
  case inr.inr.inr => exact (longForm_spec hl).2.1
  all_goals exact ⟨_, rfl⟩

/-- The body of a register form without a queue use does nothing, or delivers writes that name its destinations. -/
def RegisterBody (s : State) (b : Beat) (o : Out) : Prop :=
  o = .done (s.begun b) ∨ ∃ long ws fl, o = groupDone b long (s.begun b) ws fl ∧ ∀ w ∈ ws, b.names w

theorem laneBody_register {s : State} {b : Beat} (hq : quseOf b.row b.f = .none) (long : Bool) (op : Vals → Res) :
    RegisterBody s b (laneBody s long op b (s.begun b)) := by
  by_cases hp : b.perf = 0
  · exact .inl (laneBody_idle hp)
  · exact .inr ⟨long, b.writes op, b.flags op, laneBody_noQueue hq hp, fun w hw => Beat.names_of_writes hw⟩

theorem Beat.names_d {b : Beat} {l w : Nat} {v : W64} (hl : l ∈ b.written) (hw : slotWidth b.row.d = w) {g : RegWrite} (hg : g ∈ destWrites w l v b.f.d) :
    b.names g := ⟨l, hl, (b.row.d, b.f.d), by simp, v, hw ▸ hg⟩
theorem Beat.names_e {b : Beat} {l w : Nat} {v : W64} (hl : l ∈ b.written) (hw : slotWidth b.row.e = w) {g : RegWrite} (hg : g ∈ destWrites w l v b.f.e) :
    b.names g := ⟨l, hl, (b.row.e, b.f.e), by simp, v, hw ▸ hg⟩
theorem Beat.names_g {b : Beat} {l w : Nat} {v : W64} (hl : l ∈ b.written) (hw : slotWidth b.row.g = w) {g : RegWrite} (hg : g ∈ destWrites w l v b.f.g) :
    b.names g := ⟨l, hl, (b.row.g, b.f.g), by simp, v, hw ▸ hg⟩

theorem scanFrom_lanes (op : W64 → W64 → W64 × FpFlags) (val : Nat → W64) (prev : Option W64) (lanes : List Nat) :
    (scanFrom op val prev lanes).1.map Prod.fst = lanes := by
  induction lanes generalizing prev with
  | nil => rfl
  | cons i lanes ih => rw [scanFrom_cons, List.map_cons, ih]

theorem shiftScan_lanes (first : W64) (ls : List (Nat × W64)) : (shiftScan first ls).map Prod.fst = ls.map Prod.fst := by
  induction ls generalizing first with
  | nil => rfl
  | cons e ls ih =>
    obtain ⟨i, x⟩ := e
    rw [shiftScan, List.map_cons, ih, List.map_cons]

/-- A scan gives values to its lanes only. -/
theorem scan_lane {op : W64 → W64 → W64 × FpFlags} {val : Nat → W64} {lanes : List Nat} {first : W64} {c : Bool} {e : Nat × W64}
    (h : e ∈ if c then shiftScan first (scanFrom op val none lanes).1 else (scanFrom op val none lanes).1) : e.1 ∈ lanes := by
  have hfst := List.mem_map_of_mem (f := Prod.fst) h
  split at hfst
  · rwa [shiftScan_lanes, scanFrom_lanes] at hfst
  · rwa [scanFrom_lanes] at hfst

/-- A register form without a queue use has such a body (R119). -/
theorem registerForm_body {i : Instr} {f : Fields} {s : State} {b : Beat} (hform : registerForm i = some f) (h : Due i f s b) (hfull : readsFull b i)
    (hq : quseOf b.row f = .none) : ∃ body, exec i s = issueBeat i f s body ∧ RegisterBody s b (body b (s.begun b)) := by
  have hf := h.f_eq
  have hsub : ∀ {l}, l ∈ lanesIn b.perf → l ∈ b.written := b.perf_written h.perf_sub
  have hq' : quseOf b.row b.f = .none := hf.symm ▸ hq
  rcases registerForm_cases hform with (rfl | rfl | rfl | rfl | rfl | rfl | rfl) | ⟨op, hi | hi | hi⟩
  · refine ⟨_, (exec_shfl f s).trans (by rw [execShfl]), ?_⟩
    by_cases hp : b.perf = 0
    · exact .inl (if_pos hp)
    · refine .inr ⟨false, _, 0, (if_neg hp).trans (laneCheck_full hfull), fun w hw => ?_⟩
      obtain ⟨l, hl, hw⟩ := List.mem_flatMap.mp hw
      exact Beat.names_d (hsub hl) rfl (hf.symm ▸ hw)
  · refine ⟨_, (exec_vote f s).trans (by rw [execVote]), ?_⟩
    have hw32 : slotWidth b.row.d = 32 := by
      rw [← Option.some.inj h.row_eq]
      dsimp only
      split <;> rfl
    by_cases hp : b.perf = 0
    · exact .inl (if_pos hp)
    · refine .inr ⟨false, _, 0, if_neg hp, fun w hw => ?_⟩
      obtain ⟨l, hl, hw⟩ := List.mem_flatMap.mp hw
      exact Beat.names_d (hsub hl) hw32 (hf.symm ▸ hw)
  · refine ⟨_, (exec_rdln f s).trans (by rw [execRdln]), ?_⟩
    by_cases hp : b.perf = 0
    · exact .inl (if_pos hp)
    · refine .inr ⟨false, _, 0, (if_neg hp).trans (laneCheck_full hfull), fun w hw => ?_⟩
      obtain ⟨l, hl, hw⟩ := List.mem_flatMap.mp hw
      exact Beat.names_d (hsub hl) rfl (hf.symm ▸ hw)
  · refine ⟨_, (exec_mtch f s).trans (by rw [execMtch]), ?_⟩
    by_cases hp : b.perf = 0
    · exact .inl (if_pos hp)
    · refine .inr ⟨false, _, 0, if_neg hp, fun w hw => ?_⟩
      obtain ⟨l, hl, hw⟩ := List.mem_flatMap.mp hw
      exact Beat.names_d (hsub hl) (by rw [← Option.some.inj h.row_eq]; rfl) (hf.symm ▸ hw)
  · refine ⟨_, (exec_gred f s).trans (by rw [execGred]), ?_⟩
    by_cases hp : b.perf = 0
    · exact .inl (if_pos hp)
    · refine .inr ⟨true, _, _, if_neg hp, fun w hw => ?_⟩
      obtain ⟨l, hl, hw⟩ := List.mem_flatMap.mp hw
      rcases List.mem_append.mp hw with hw | hw
      · exact Beat.names_d (hsub hl) rfl (hf.symm ▸ hw)
      · exact Beat.names_e (hsub hl) (by rw [← Option.some.inj h.row_eq]; rfl) (hf.symm ▸ hw)
  · refine ⟨_, (exec_gscan f s).trans (by rw [execGscan]), ?_⟩
    by_cases hp : b.perf = 0
    · exact .inl (if_pos hp)
    · refine .inr ⟨true, _, _, if_neg hp, fun w hw => ?_⟩
      obtain ⟨e, he, hw⟩ := List.mem_flatMap.mp hw
      have hl : e.1 ∈ lanesIn b.perf := scan_lane (by simpa using he)
      rcases List.mem_append.mp hw with hw | hw
      · exact Beat.names_d (hsub hl) rfl (hf.symm ▸ hw)
      · exact Beat.names_e (hsub hl) rfl (hf.symm ▸ hw)
  · refine ⟨_, (exec_rebal f s).trans (by rw [execRebal]), ?_⟩
    by_cases hp : b.perf = 0
    · exact .inl (if_pos hp)
    · refine .inr ⟨true, _, 0, (if_neg hp).trans (laneCheck_full hfull), fun w hw => ?_⟩
      obtain ⟨l, hl, hw⟩ := List.mem_flatMap.mp hw
      rcases List.mem_append.mp hw with hw | hw
      · rcases List.mem_append.mp hw with hw | hw
        · exact Beat.names_d (hsub hl) (by rw [← Option.some.inj h.row_eq]; rfl) (hf.symm ▸ hw)
        · exact Beat.names_e (hsub hl) (by rw [← Option.some.inj h.row_eq]; rfl) (hf.symm ▸ hw)
      · exact Beat.names_g (hsub hl) (by rw [← Option.some.inj h.row_eq]; rfl) (hf.symm ▸ hw)
  · exact ⟨_, (integerForm_spec hi).1 s, laneBody_register hq' _ _⟩
  · exact ⟨_, (floatForm_spec hi).1 s, laneBody_register hq' _ _⟩
  · exact ⟨_, (longForm_spec hi).1 s, laneBody_register hq' _ _⟩

/-! ### Registers that no write names -/

theorem Agent.isEmpty_markEmpty_other (x : Agent) {g h : RegWrite} (hgh : h.sameReg g = false) : (x.markEmpty h).isEmpty g = x.isEmpty g := by
  cases h with
  | v i r y =>
    cases g with
    | v k q z =>
      have hk : 128 * k + q ≠ 128 * i + r := fun e => by simp [RegWrite.sameReg, e] at hgh
      simp [Agent.isEmpty, Agent.markEmpty, Agent.emptyV, Tbl.get_put, hk]
    | u | p => rfl
  | u r y =>
    cases g with
    | u q z =>
      have hq : q ≠ r := fun e => by simp [RegWrite.sameReg, e] at hgh
      simp [Agent.isEmpty, Agent.markEmpty, Agent.emptyU, Tbl.get_put, hq]
    | v | p => rfl
  | p r i c =>
    by_cases hr : r = 7
    · simp [Agent.markEmpty, hr]
    · cases g with
      | p q k d =>
        by_cases hq : q = r
        · subst hq
          have hk : k ≠ i := fun e => by simp [RegWrite.sameReg, e] at hgh
          simp [Agent.isEmpty, Agent.markEmpty, Agent.emptyP, Tbl.get_put, hr, getLsbD_setBit_other _ hk]
        · simp [Agent.isEmpty, Agent.markEmpty, Agent.emptyP, Tbl.get_put, hr, hq]
      | v | u => simp [Agent.isEmpty, Agent.markEmpty, Agent.emptyV, Agent.emptyU, hr]

/-- Delivered writes leave a register that none of them names. -/
theorem deliverWrites_other (long : Bool) (x : Agent) {ws : List RegWrite} {g : RegWrite} (h : ∀ w ∈ ws, w.sameReg g = false) :
    (deliverWrites long ws x).reads g = x.reads g ∧ (deliverWrites long ws x).isEmpty g = x.isEmpty g := by
  cases long with
  | false => exact Agent.reads_writeAll_other x h
  | true =>
    have hE : (x.emptyAll ws).isEmpty g = x.isEmpty g :=
      foldl_keeps (fun y : Agent => y.isEmpty g = x.isEmpty g) Agent.markEmpty ws
        (fun y w hw hy => (Agent.isEmpty_markEmpty_other y (h w hw)).trans hy) x rfl
    rw [Agent.deliverWrites_long]
    refine ⟨?_, ?_⟩
    · cases g <;> rfl
    · rw [← hE]
      cases g <;> rfl

/-- Writes that name the destinations of a due register form name no other register (R44). -/
theorem Due.names_v {i : Instr} {f : Fields} {s : State} {b : Beat} (h : Due i f s b) (hform : registerForm i = some f) {w : RegWrite} (hw : b.names w)
    {l k : Nat} (hk : k < 128) (hn : ¬ namesV b k ∨ l ∉ b.written) : w.sameReg (.v l k 0) = false := by
  obtain ⟨lane, hlane, p, hp, v, hw⟩ := hw
  obtain ⟨-, hops⟩ := h.operands_ok (registerForm_formOf hform)
  have hrow := registerForm_row hform h.row_eq
  simp only [operandsOk, Bool.and_eq_true] at hops
  obtain ⟨⟨⟨⟨⟨⟨⟨⟨hd, -⟩, -⟩, -⟩, he⟩, hg⟩, -⟩, -⟩, -⟩ := hops
  have hpair : ∀ n, p.2 = .v n → slotWidth p.1 = 64 → n.toNat % 2 = 0 := by
    intro n hn hw
    simp only [List.mem_cons, List.not_mem_nil, or_false] at hp
    rw [h.f_eq] at hp
    rcases hp with rfl | rfl | rfl
    · exact Slot.even_of_ok hrow.d (by rw [← hn]; exact hd) hw
    · exact Slot.even_of_ok hrow.e (by rw [← hn]; exact he) hw
    · exact Slot.even_of_ok hrow.g (by rw [← hn]; exact hg) hw
  refine Bool.eq_false_iff.mpr fun hs => ?_
  cases w with
  | u | p => cases hs
  | v i q z =>
    simp only [RegWrite.sameReg, beq_iff_eq] at hs
    have hq : i = lane ∧ q < 128 ∧ (∀ _ : q < 128, namesV b q) := by
      cases hp2 : p.2 with
      | v n =>
        have hlt := n.isLt
        rw [hp2] at hw
        simp only [destWrites, vWrites] at hw
        have hmem : (p.1, Operand.v n) ∈ [(b.row.d, b.f.d), (b.row.e, b.f.e), (b.row.g, b.f.g)] := by rw [← hp2]; exact hp
        split at hw
        · rename_i h64
          have heven := hpair n hp2 h64
          simp only [List.mem_cons, List.not_mem_nil, or_false, RegWrite.v.injEq] at hw
          rcases hw with ⟨hl, hr, -⟩ | ⟨hl, hr, -⟩
          · exact ⟨hl, by omega, fun _ => ⟨p.1, n, hmem, .inl hr⟩⟩
          · exact ⟨hl, by omega, fun _ => ⟨p.1, n, hmem, .inr ⟨h64, hr⟩⟩⟩
        · simp only [List.mem_singleton, RegWrite.v.injEq] at hw
          exact ⟨hw.1, by omega, fun _ => ⟨p.1, n, hmem, .inl hw.2.1⟩⟩
      | u n | p n => rw [hp2] at hw; simp [destWrites] at hw
      | q | zero | imm => rw [hp2] at hw; simp [destWrites] at hw
    obtain ⟨rfl, hq128, hnames⟩ := hq
    obtain ⟨rfl, rfl⟩ := lane_key hq128 hk hs
    exact hn.elim (fun hno => hno (hnames hq128)) fun hno => hno hlane

theorem Beat.names_u {b : Beat} {w : RegWrite} (hw : b.names w) {k : Nat}
    (hn : ∀ r : BitVec 6, k = r.toNat → b.f.d ≠ .u r ∧ b.f.e ≠ .u r ∧ b.f.g ≠ .u r) : w.sameReg (.u k 0) = false := by
  obtain ⟨lane, -, p, hp, v, hw⟩ := hw
  refine Bool.eq_false_iff.mpr fun hs => ?_
  cases w with
  | v | p => cases hs
  | u q z =>
    simp only [RegWrite.sameReg, beq_iff_eq] at hs
    cases hp2 : p.2 with
    | u n =>
      rw [hp2] at hw
      simp only [destWrites, List.mem_singleton, RegWrite.u.injEq] at hw
      obtain ⟨hd, he, hg⟩ := hn n (hs.symm.trans hw.1)
      simp only [List.mem_cons, List.not_mem_nil, or_false] at hp
      rcases hp with rfl | rfl | rfl
      · exact hd hp2
      · exact he hp2
      · exact hg hp2
    | v n =>
      rw [hp2] at hw
      simp only [destWrites, vWrites] at hw
      split at hw <;> simp at hw
    | p n => rw [hp2] at hw; simp [destWrites] at hw
    | q | zero | imm => rw [hp2] at hw; simp [destWrites] at hw

theorem Beat.names_p {b : Beat} {w : RegWrite} (hw : b.names w) (hg : ∀ n, b.f.g ≠ .p n) {k l : Nat}
    (hn : ∀ r : BitVec 3, k = r.toNat → b.f.d ≠ .p r ∧ b.f.e ≠ .p r) : w.sameReg (.p k l false) = false := by
  obtain ⟨lane, -, p, hp, v, hw⟩ := hw
  refine Bool.eq_false_iff.mpr fun hs => ?_
  cases w with
  | v | u => cases hs
  | p q i c =>
    simp only [RegWrite.sameReg, Bool.and_eq_true, beq_iff_eq] at hs
    obtain ⟨n, hn2⟩ := pred_of_mem_destWrites hw (RegWrite.sameReg_self _)
    rw [hn2] at hw
    simp only [destWrites, List.mem_singleton, RegWrite.p.injEq] at hw
    obtain ⟨hd, he⟩ := hn n (hs.1.symm.trans hw.1)
    simp only [List.mem_cons, List.not_mem_nil, or_false] at hp
    rcases hp with rfl | rfl | rfl
    · exact hd hn2
    · exact he hn2
    · exact hg n hn2

/-! ### The agent and the state after the body -/

/-- The agent with nothing in its registers, FPFLAGS and results under way. -/
def Agent.outline (x : Agent) : Agent := { x with v := [], vE := [], u := [], uE := [], pr := [], prE := [], pend := [], fp := 0 }

theorem Agent.write_outline (x : Agent) (w : RegWrite) : (x.write w).outline = x.outline := by
  cases w with
  | v => rfl
  | u => rfl
  | p r i b =>
    simp only [Agent.write]
    split <;> rfl

/-- Delivered writes change registers and results under way only. -/
theorem deliverWrites_outline (long : Bool) (ws : List RegWrite) (x : Agent) : (deliverWrites long ws x).outline = x.outline := by
  cases long with
  | true =>
    rw [Agent.deliverWrites_long]
    rfl
  | false =>
    exact foldl_keeps (fun y : Agent => y.outline = x.outline) Agent.write ws (fun y w _ h => (Agent.write_outline y w).trans h) x rfl

theorem Tbl.modify_id {α : Type} (m : Tbl α) (k : Nat) : Tbl.modify m k id = m := by
  induction m with
  | nil => rfl
  | cons e m ih =>
    simp only [Tbl.modify]
    split
    · rfl
    · rw [ih]

theorem State.modAgent_id (s : State) (a : AgentId) : s.modAgent a id = s := by
  have h : (fun t : Team => { t with agents := Tbl.modify t.agents a.who id }) = id := funext fun t => by rw [Tbl.modify_id]; rfl
  rw [State.modAgent, h, State.modTeam, Tbl.modify_id]

/-- Where a register form's body without a queue use leaves the machine: its agent with the writes of its lanes. -/
theorem RegisterBody.agent {s : State} {b : Beat} {o : Out} (h : RegisterBody s b o) :
    ∃ g : Agent → Agent, o = .done ((s.begun b).modAgent b.a g) ∧ (∀ x, (g x).outline = x.outline) ∧
      ∀ x w, (∀ g, b.names g → g.sameReg w = false) → (g x).reads w = x.reads w ∧ (g x).isEmpty w = x.isEmpty w := by
  rcases h with rfl | ⟨long, ws, fl, rfl, hws⟩
  · exact ⟨id, by rw [State.modAgent_id], fun _ => rfl, fun _ _ _ => ⟨rfl, rfl⟩⟩
  · refine ⟨_, rfl, fun x => (deliverWrites_outline ..).trans rfl, fun x w hw => ?_⟩
    obtain ⟨hr, he⟩ := deliverWrites_other long { x with fp := x.fp ||| fl } (g := w) fun g hg => hw g (hws g hg)
    refine ⟨hr.trans ?_, he.trans ?_⟩
    · cases w <;> rfl
    · cases w <;> rfl

theorem State.begun_fixed (s : State) (b : Beat) : s.Fixed b.a (s.begun b) := (s.fixed_modAgent b.a _).trans (State.fixed_modAgent _ _ _)

theorem Beat.begunAgent_f (b : Beat) : b.begunAgent.f = b.x.f := (congrArg Agent.f b.begunAgent_eq).trans rfl
theorem Beat.begunAgent_kind (b : Beat) : b.begunAgent.kind = b.x.kind := (congrArg Agent.kind b.begunAgent_eq).trans rfl

/-- A due beat whose body changes registers of its agent, which runs on, where no team barrier is ready. -/
theorem Due.ends {i : Instr} {f : Fields} {s : State} {b : Beat} (h : Due i f s b) {body : Beat → State → Out} {g : Agent → Agent}
    (hb : body b (s.begun b) = .done ((s.begun b).modAgent b.a g)) (hg : ∀ x, (g x).outline = x.outline) (hal : b.alive) (hbar : b.t.barReady = false) :
    ∃ t y, issueBeat i f s body = .next t ∧ t.agent b.a = some y ∧ y.core = (g b.begunAgent).core ∧ t.still = s.still ∧ s.Ends b.a b.t b.x t := by
  have hissue : ∀ x, (g x).issue = x.issue := fun x => (congrArg Agent.issue (hg x) : (g x).outline.issue = x.outline.issue)
  have hlanes : (g b.begunAgent).runLanes = b.begunAgent.runLanes :=
    congrArg (fun ls : List LaneRec => (lanes32.take ls.length).filter fun i => decide ((ls.getD i default).s = .run))
      (congrArg Agent.lanes (hg b.begunAgent) : (g b.begunAgent).outline.lanes = b.begunAgent.outline.lanes)
  have hi : (g b.begunAgent).issue = .beats := by rw [hissue, Beat.begunAgent_eq]; exact h.issue
  have hr : (g b.begunAgent).runLanes ≠ [] := by rw [hlanes, b.begunAgent_runLanes]; exact hal
  obtain ⟨t, y, hnext, hy, hcore, hstill⟩ := h.done_core hb hi hr
  have hfix : s.Fixed b.a ((s.begun b).modAgent b.a g) := (s.begun_fixed b).trans (State.fixed_modAgent _ _ _)
  have hmap : s.SameMap ((s.begun b).modAgent b.a g) := (s.sameMap_begun b).trans (State.sameMap_modAgent _ _ _)
  obtain ⟨t', ht', hbare⟩ := hfix.team h.team
  have hun : s.Unreleased b.a.team := fun u hu => by rw [Option.some.inj (hu.symm.trans h.team)]; exact hbar
  have hwait : (s.waited b.a).Unreleased b.a.team := hun.modAgent (f := fun y => { y with arr := { y.arr with wk := 0 } }) fun _ e => e
  have hbegun : (s.begun b).Unreleased b.a.team := hwait.modAgent fun x e => by rw [Agent.advance_eq] at e; exact e
  have hun' : ((s.begun b).modAgent b.a g).Unreleased b.a.team := hbegun.modAgent fun x e => (hissue x).symm.trans e
  have hends := State.conclude_done_ends (s := s.waited b.a) ht' (h.begun_modAgent g) hi hr hun' (shapeOf i f).whole
  have hnext' := issueBeat_due h body
  rw [hb] at hnext'
  obtain rfl := Host.Outcome.next.inj (hnext.symm.trans hnext')
  have hfz : (g b.begunAgent).f = b.x.f :=
    (congrArg Agent.f (hg b.begunAgent) : (g b.begunAgent).outline.f = b.begunAgent.outline.f).trans b.begunAgent_f
  have hkz : (g b.begunAgent).kind = b.x.kind :=
    (congrArg Agent.kind (hg b.begunAgent) : (g b.begunAgent).outline.kind = b.begunAgent.outline.kind).trans b.begunAgent_kind
  have hst := hends.stores
  rw [hfz, hkz] at hst
  exact ⟨_, y, hnext, hy, hcore, hstill, hfix.trans hends.fixed, hst.base hmap rfl hbare⟩

/-! ### The frame -/

/-- What a register's reading says of the register. -/
theorem Agent.getV_of_reads {x y : Agent} {l k : Nat} (h : y.reads (.v l k 0) = x.reads (.v l k 0)) : y.getV l k = x.getV l k := by
  have h32 : ((y.getV l k).setWidth 64).setWidth 32 = ((x.getV l k).setWidth 64).setWidth 32 := congrArg (BitVec.setWidth 32) h
  simpa using h32

theorem Agent.getP_of_reads {x y : Agent} {l k : Nat} (h : y.reads (.p k l false) = x.reads (.p k l false)) : y.getP k l = x.getP k l := by
  have hbit : bit (BitVec.ofNat 64 (b2n (y.getP k l))) 0 = bit (BitVec.ofNat 64 (b2n (x.getP k l))) 0 := congrArg (bit · 0) h
  rwa [bit_b2n, bit_b2n] at hbit

/-- A register form's G is no predicate. -/
theorem Due.g_ne_p {i : Instr} {f : Fields} {s : State} {b : Beat} (h : Due i f s b) (hform : registerForm i = some f) (n : BitVec 3) : b.f.g ≠ .p n := by
  obtain ⟨-, hops⟩ := h.operands_ok (registerForm_formOf hform)
  simp only [operandsOk, Bool.and_eq_true] at hops
  obtain ⟨⟨⟨⟨-, hg⟩, -⟩, -⟩, -⟩ := hops
  intro hn
  rw [← h.f_eq, hn] at hg
  have hno := (registerForm_row hform h.row_eq).noPred
  cases hs : b.row.g with
  | pred c => exact hno c hs
  | unused | val | queue => rw [hs] at hg; simp [slotOk] at hg

/-- Settles O23: the agent's record is the body's in all but the sweep's own state, the body writes named registers only, and the end of the beat stores
at most the word of the frame that it leaves. -/
theorem registerFrame : Obligations.RegisterFrame := by
  intro i f s t b hform h hfull hq hal hbar hnext
  obtain ⟨body, hexec, hbody⟩ := registerForm_body hform h hfull hq
  obtain ⟨g, hb, hg, hother⟩ := hbody.agent
  obtain ⟨t', y, hnext', hy, hcore, hstill, hends⟩ := h.ends hb hg hal hbar
  obtain rfl := Host.Outcome.next.inj (hnext.symm.trans (hexec.trans hnext'))
  have hline : (g b.begunAgent).outline = b.begunAgent.outline := hg _
  have hregs : ∀ w, (∀ u, b.names u → u.sameReg w = false) → y.reads w = b.x.reads w ∧ y.isEmpty w = b.x.isEmpty w := fun w hw => by
    obtain ⟨hr, he⟩ := hother b.begunAgent w hw
    obtain ⟨hr1, he1⟩ := Agent.reads_congr (Agent.regs_of_core hcore) w
    obtain ⟨hr0, he0⟩ := Agent.reads_congr b.begunAgent_regs w
    exact ⟨(hr1.trans hr).trans hr0, (he1.trans he).trans he0⟩
  have hrec : ∀ {α : Type} (F : Agent → α), (∀ x : Agent, F x.core = F x ∧ F x.outline = F x ∧ ∀ r ls, F { x with arr := r, lanes := ls } = F x) → F y = F b.x :=
    fun F hF => calc
      F y = F y.core := (hF y).1.symm
      _ = F (g b.begunAgent).core := congrArg F hcore
      _ = F (g b.begunAgent) := (hF _).1
      _ = F (g b.begunAgent).outline := (hF _).2.1.symm
      _ = F b.begunAgent.outline := congrArg F hline
      _ = F b.begunAgent := (hF _).2.1
      _ = F b.x := (congrArg F b.begunAgent_eq).trans ((hF b.x).2.2 _ _)
  have hstay : ∀ {α : Type} (F : State → α), (∀ u : State, F u.still = F u) → F t = F s := fun F hF =>
    (hF t).symm.trans ((congrArg F hstill).trans (hF s))
  refine ⟨hends.fixed.others, ⟨y, hy, ?_⟩, fun n u hu => ?_, State.parts_of_still hstill, hstay State.pwc fun _ => rfl, hstay State.dies fun _ => rfl,
    hstay State.pairs fun _ => rfl, hstay State.cmds fun _ => rfl, hstay State.dtime fun _ => rfl, hstay State.rlt fun _ => rfl, fun hquiet => ?_, hends.stores.bytes⟩
  · refine ⟨hrec Agent.kind fun _ => ⟨rfl, rfl, fun _ _ => rfl⟩, hrec Agent.gwct fun _ => ⟨rfl, rfl, fun _ _ => rfl⟩,
      hrec Agent.acks fun _ => ⟨rfl, rfl, fun _ _ => rfl⟩, hrec Agent.ops fun _ => ⟨rfl, rfl, fun _ _ => rfl⟩,
      hrec Agent.pcause fun _ => ⟨rfl, rfl, fun _ _ => rfl⟩, hrec Agent.pepc fun _ => ⟨rfl, rfl, fun _ _ => rfl⟩,
      hrec Agent.paddr fun _ => ⟨rfl, rfl, fun _ _ => rfl⟩, hrec Agent.phnd fun _ => ⟨rfl, rfl, fun _ _ => rfl⟩,
      hrec Agent.inh fun _ => ⟨rfl, rfl, fun _ _ => rfl⟩, hrec Agent.cseq fun _ => ⟨rfl, rfl, fun _ _ => rfl⟩,
      hrec Agent.stop fun _ => ⟨rfl, rfl, fun _ _ => rfl⟩, ?_, ?_, ?_⟩
    · intro l k _ hk hn
      obtain ⟨hr, he⟩ := hregs (.v l k 0) fun u hu => h.names_v hform hu hk hn
      exact ⟨Agent.getV_of_reads hr, he⟩
    · intro k _ hn
      exact hregs (.u k 0) fun u hu => Beat.names_u hu (h.f_eq.symm ▸ hn)
    · intro k l _ _ hn
      obtain ⟨hr, he⟩ := hregs (.p k l false) fun u hu => Beat.names_p hu (h.g_ne_p hform) (h.f_eq.symm ▸ hn)
      exact ⟨Agent.getP_of_reads hr, he⟩
  · obtain ⟨v, hv, hbare⟩ := hends.fixed.team hu
    have hfield : ∀ {α : Type} (F : Team → α), (∀ x : Team, F x.bare = F x) → F v = F u := fun F hF =>
      (hF v).symm.trans ((congrArg F hbare).trans (hF u))
    exact ⟨v, hv, hfield Team.q fun _ => rfl, hfield Team.drain fun _ => rfl, hfield Team.tiles fun _ => rfl, hfield Team.ranges fun _ => rfl,
      hfield Team.qbind fun _ => rfl, hfield Team.rings fun _ => rfl, hfield Team.tok fun _ => rfl, hfield Team.bars fun _ => rfl,
      hfield Team.copies fun _ => rfl, hfield Team.cseq fun _ => rfl, hfield Team.res fun _ => rfl⟩
  · exact hends.stores.quiet (hquiet.imp id fun hk => decide_eq_false hk)

end Sys2Proof.Machine
end

section
/-! What the integer operations compute (R95, R97 to R104). -/

namespace Sys2Proof.Machine

/-! ### Words and integers -/

theorem tyWidth_pos (ty : DType) : 0 < tyWidth ty := by cases ty <;> decide
theorem tyWidth_le (ty : DType) : tyWidth ty ≤ 64 := by cases ty <;> decide

theorem lowBits_setWidth {w : Nat} (hw : w ≤ 64) (z : BitVec w) : lowBits w (z.setWidth 64) = z.setWidth 64 := by
  rw [lowBits, BitVec.setWidth_setWidth_of_le _ hw, BitVec.setWidth_eq]

theorem setWidth_wrapTo {w : Nat} (hw : w ≤ 64) (z : Int) : (wrapTo w z).setWidth w = BitVec.ofInt w z := by
  rw [wrapTo, BitVec.setWidth_setWidth_of_le _ hw, BitVec.setWidth_eq]

theorem lowBits_wrapTo {w : Nat} (hw : w ≤ 64) (z : Int) : lowBits w (wrapTo w z) = wrapTo w z := lowBits_setWidth hw _

theorem lowBits_lowBits {w : Nat} (hw : w ≤ 64) (x : W64) : lowBits w (lowBits w x) = lowBits w x := lowBits_setWidth hw _

/-- A word's integer stands for its low bits. -/
theorem ofInt_intVal (ty : DType) (a : W64) : BitVec.ofInt (tyWidth ty) (intVal ty a) = a.setWidth (tyWidth ty) := by
  unfold intVal
  split
  · exact BitVec.ofInt_toInt
  · rw [BitVec.ofInt_natCast, BitVec.ofNat_toNat, BitVec.setWidth_eq]

theorem wrapTo_intVal (ty : DType) (a : W64) : wrapTo (tyWidth ty) (intVal ty a) = lowBits (tyWidth ty) a := by
  rw [wrapTo, ofInt_intVal, lowBits]

theorem intVal_lowBits (ty : DType) (a : W64) : intVal ty (lowBits (tyWidth ty) a) = intVal ty a := by
  rw [intVal, intVal, lowBits, BitVec.setWidth_setWidth_of_le _ (tyWidth_le ty), BitVec.setWidth_eq]

theorem two_pow_tyWidth (ty : DType) : (2 : Int) ^ tyWidth ty = 2 * 2 ^ (tyWidth ty - 1) := by
  rw [← pow_succ', Nat.sub_add_cancel (tyWidth_pos ty)]

/-- The range of a type's integers (R95). -/
theorem tyMin_eq (ty : DType) : tyMin ty = if tySigned ty = true then -2 ^ (tyWidth ty - 1) else 0 := by
  unfold tyMin
  push_cast
  rfl
theorem tyMax_eq (ty : DType) : tyMax ty = if tySigned ty = true then 2 ^ (tyWidth ty - 1) - 1 else 2 ^ tyWidth ty - 1 := by
  unfold tyMax
  push_cast
  rfl

theorem intVal_range (ty : DType) (a : W64) : tyMin ty ≤ intVal ty a ∧ intVal ty a ≤ tyMax ty := by
  rw [tyMin_eq, tyMax_eq, intVal]
  cases tySigned ty with
  | true =>
    have h1 := BitVec.le_toInt (a.setWidth (tyWidth ty))
    have h2 := BitVec.toInt_lt (x := a.setWidth (tyWidth ty))
    simp only [if_true]
    omega
  | false =>
    have h1 : ((a.setWidth (tyWidth ty)).toNat : Int) < 2 ^ tyWidth ty := by exact_mod_cast (a.setWidth (tyWidth ty)).isLt
    simp only [Bool.false_eq_true, if_false]
    omega

/-- A number of the type's range is the integer of its word. -/
theorem intVal_wrapTo {ty : DType} {z : Int} (h : tyMin ty ≤ z ∧ z ≤ tyMax ty) : intVal ty (wrapTo (tyWidth ty) z) = z := by
  have hpow := two_pow_tyWidth ty
  rw [tyMin_eq, tyMax_eq] at h
  rw [intVal, setWidth_wrapTo (tyWidth_le ty)]
  cases hs : tySigned ty with
  | true =>
    simp only [hs, if_true] at h ⊢
    rw [BitVec.toInt_ofInt]
    exact Int.bmod_eq_of_le_mul_two (by push_cast; omega) (by push_cast; omega)
  | false =>
    simp only [hs, Bool.false_eq_true, if_false] at h ⊢
    rw [BitVec.toNat_ofInt, Int.toNat_of_nonneg (Int.emod_nonneg _ (by positivity)), Int.emod_eq_of_lt h.1]
    push_cast
    omega

theorem clampTo_range (ty : DType) (z : Int) : tyMin ty ≤ clampTo ty z ∧ clampTo ty z ≤ tyMax ty := by
  have h := intVal_range ty 0
  unfold clampTo
  split
  · omega
  · split <;> omega

theorem clampTo_of_range {ty : DType} {z : Int} (h : tyMin ty ≤ z ∧ z ≤ tyMax ty) : clampTo ty z = z := by
  unfold clampTo
  rw [if_neg (by omega), if_neg (by omega)]

/-- A saturated result is the clamped exact one (R97). -/
theorem intVal_deliver_sat (ty : DType) (z : Int) : intVal ty (deliver ty true z) = clampTo ty z := intVal_wrapTo (clampTo_range ty z)

/-- A wrapped sum, difference or product is that of the words (R97). -/
theorem deliver_add (ty : DType) (a b : W64) : deliver ty false (intVal ty a + intVal ty b) = lowBits (tyWidth ty) (a + b) := by
  rw [deliver, if_neg Bool.false_ne_true, wrapTo, BitVec.ofInt_add, ofInt_intVal, ofInt_intVal, lowBits, BitVec.setWidth_add _ _ (tyWidth_le ty)]

theorem deliver_mul_add (ty : DType) (a b c : W64) :
    deliver ty false (intVal ty a * intVal ty b + intVal ty c) = lowBits (tyWidth ty) (a * b + c) := by
  rw [deliver, if_neg Bool.false_ne_true, wrapTo, BitVec.ofInt_add, BitVec.ofInt_mul, ofInt_intVal, ofInt_intVal, ofInt_intVal, lowBits,
    BitVec.setWidth_add _ _ (tyWidth_le ty), BitVec.setWidth_mul _ _ (tyWidth_le ty)]

theorem deliver_mul (ty : DType) (a b : W64) : deliver ty false (intVal ty a * intVal ty b) = lowBits (tyWidth ty) (a * b) := by
  rw [deliver, if_neg Bool.false_ne_true, wrapTo, BitVec.ofInt_mul, ofInt_intVal, ofInt_intVal, lowBits, BitVec.setWidth_mul _ _ (tyWidth_le ty)]

theorem setWidth_neg {w : Nat} (hw : w ≤ 64) (x : W64) : (-x).setWidth w = -x.setWidth w := by
  rw [BitVec.setWidth_neg_of_le hw]

theorem deliver_sub (ty : DType) (a b : W64) : deliver ty false (intVal ty a - intVal ty b) = lowBits (tyWidth ty) (a - b) := by
  rw [deliver, if_neg Bool.false_ne_true, wrapTo, Int.sub_eq_add_neg, BitVec.ofInt_add, BitVec.ofInt_neg, ofInt_intVal, ofInt_intVal, lowBits,
    BitVec.sub_eq_add_neg, BitVec.setWidth_add _ _ (tyWidth_le ty), setWidth_neg (tyWidth_le ty)]

/-! ### Products and quotients -/

/-- The magnitude of a type's integers: a product's high half stays in range (R99). -/
theorem mulh_range (ty : DType) (a b : W64) :
    tyMin ty ≤ (intVal ty a * intVal ty b) / 2 ^ tyWidth ty ∧ (intVal ty a * intVal ty b) / 2 ^ tyWidth ty ≤ tyMax ty := by
  have hpow := two_pow_tyWidth ty
  have ha := intVal_range ty a
  have hb := intVal_range ty b
  have hpos : (0 : Int) < 2 ^ tyWidth ty := by positivity
  have hpos' : (0 : Int) < 2 ^ (tyWidth ty - 1) := by positivity
  rw [tyMin_eq, tyMax_eq] at ha hb ⊢
  rw [Int.le_ediv_iff_mul_le hpos, ← Int.lt_add_one_iff (b := ite _ _ _), Int.ediv_lt_iff_lt_mul hpos, hpow]
  generalize (2 : Int) ^ (tyWidth ty - 1) = h at *
  cases hs : tySigned ty with
  | true =>
    simp only [hs, if_true] at ha hb ⊢
    constructor <;> nlinarith
  | false =>
    simp only [hs, Bool.false_eq_true, if_false, hpow] at ha hb ⊢
    constructor <;> nlinarith

/-- A quotient stays in range, but for the least number by -1 (R98). -/
theorem div_range (ty : DType) (a b : W64) (hb : intVal ty b ≠ 0) (hc : ¬ (intVal ty a = tyMin ty ∧ intVal ty b = -1)) :
    tyMin ty ≤ (intVal ty a).tdiv (intVal ty b) ∧ (intVal ty a).tdiv (intVal ty b) ≤ tyMax ty := by
  have hra := intVal_range ty a
  have hrb := intVal_range ty b
  have hpos : (0 : Int) < 2 ^ (tyWidth ty - 1) := by positivity
  generalize intVal ty a = x at *
  generalize intVal ty b = y at *
  have hq : (x.tdiv y).natAbs = x.natAbs / y.natAbs := Int.natAbs_tdiv ..
  have hle : x.natAbs / y.natAbs ≤ x.natAbs := Nat.div_le_self ..
  have hhalf : 2 ≤ y.natAbs → x.natAbs / y.natAbs ≤ x.natAbs / 2 := fun h => Nat.div_le_div_left h (by norm_num)
  rw [tyMin_eq, tyMax_eq] at *
  cases hs : tySigned ty with
  | true =>
    simp only [hs, if_true] at *
    generalize (2 : Int) ^ (tyWidth ty - 1) = h at *
    by_cases h2 : 2 ≤ y.natAbs
    · have := hhalf h2
      omega
    · have hy : y = 1 ∨ y = -1 := by omega
      rcases hy with rfl | rfl
      · rw [Int.tdiv_one]
        exact hra
      · omega
  | false =>
    simp only [hs, Bool.false_eq_true, if_false] at *
    have hnn : 0 ≤ x.tdiv y := Int.tdiv_nonneg hra.1 hrb.1
    omega

theorem rem_range (ty : DType) (a b : W64) (hb : intVal ty b ≠ 0) :
    tyMin ty ≤ (intVal ty a).tmod (intVal ty b) ∧ (intVal ty a).tmod (intVal ty b) ≤ tyMax ty := by
  have hra := intVal_range ty a
  have hrb := intVal_range ty b
  generalize intVal ty a = x at *
  generalize intVal ty b = y at *
  have hlt : (x.tmod y).natAbs < y.natAbs := by
    rw [Int.natAbs_tmod]
    exact Nat.mod_lt _ (by omega)
  rw [tyMin_eq, tyMax_eq] at *
  cases hs : tySigned ty with
  | true =>
    simp only [hs, if_true] at *
    omega
  | false =>
    simp only [hs, Bool.false_eq_true, if_false] at *
    have hnn : 0 ≤ x.tmod y := Int.tmod_nonneg _ hra.1
    omega

theorem tyMin_neg {ty : DType} (h : tySigned ty = true) : tyMin ty = -2 ^ (tyWidth ty - 1) := by rw [tyMin_eq, if_pos h]

theorem abs_range (ty : DType) (a : W64) : tyMin ty ≤ |intVal ty a| := by
  have h : tyMin ty ≤ 0 := by
    rw [tyMin_eq]
    split
    · have : (0 : Int) < 2 ^ (tyWidth ty - 1) := by positivity
      omega
    · exact le_refl _
  exact h.trans (abs_nonneg _)

/-- The clauses of the table for sums and products (R97, R99). -/
theorem sums_table (ty : DType) (sat : Bool) (a b c : W64) :
    intVal ty (aluAdd ty true a b) = clampTo ty (intVal ty a + intVal ty b) ∧
    intVal ty (aluSub ty true a b) = clampTo ty (intVal ty a - intVal ty b) ∧
    intVal ty (aluMul ty true a b) = clampTo ty (intVal ty a * intVal ty b) ∧
    aluAdd ty false a b = lowBits (tyWidth ty) (a + b) ∧ aluSub ty false a b = lowBits (tyWidth ty) (a - b) ∧
    aluMul ty false a b = lowBits (tyWidth ty) (a * b) ∧ aluMad ty false a b c = lowBits (tyWidth ty) (a * b + c) ∧
    intVal ty (aluMad ty sat a b c) =
      (if sat = true then clampTo ty (intVal ty a * intVal ty b + intVal ty c) else intVal ty (a * b + c)) ∧
    intVal ty (aluMulh ty a b) = (intVal ty a * intVal ty b) / (2 ^ tyWidth ty : Nat) := by
  refine ⟨intVal_deliver_sat .., intVal_deliver_sat .., intVal_deliver_sat .., deliver_add .., deliver_sub .., deliver_mul .., deliver_mul_add .., ?_, ?_⟩
  · cases sat with
    | true => exact intVal_deliver_sat ..
    | false => rw [aluMad, deliver_mul_add, intVal_lowBits, if_neg Bool.false_ne_true]
  · rw [aluMulh, Int.fdiv_eq_ediv_of_nonneg _ (by positivity)]
    push_cast
    exact intVal_wrapTo (mulh_range ty a b)

theorem intVal_mul_add (ty : DType) (q r : Int) (b : W64) : lowBits (tyWidth ty) (wrapTo (tyWidth ty) q * b + wrapTo (tyWidth ty) r) =
    wrapTo (tyWidth ty) (q * intVal ty b + r) := by
  rw [lowBits, BitVec.setWidth_add _ _ (tyWidth_le ty), BitVec.setWidth_mul _ _ (tyWidth_le ty), setWidth_wrapTo (tyWidth_le ty),
    setWidth_wrapTo (tyWidth_le ty), wrapTo, BitVec.ofInt_add, BitVec.ofInt_mul, ofInt_intVal]

theorem wrapTo_minus_one (ty : DType) : wrapTo (tyWidth ty) (-1) = lowBits (tyWidth ty) (-1) := by cases ty <;> decide

theorem wrapTo_add_pow (w : Nat) (z : Int) : wrapTo w (z + 2 ^ w) = wrapTo w z := by
  rw [wrapTo, wrapTo]
  congr 1
  refine BitVec.eq_of_toInt_eq ?_
  rw [BitVec.toInt_ofInt, BitVec.toInt_ofInt, ← Int.add_bmod_right z]
  push_cast
  rfl

theorem tmod_mul_nonneg (x y : Int) : 0 ≤ x.tmod y * x := by
  rcases le_total 0 x with h | h
  · exact mul_nonneg (Int.tmod_nonneg y h) h
  · have hneg : x.tmod y = -(-x).tmod y := by rw [Int.neg_tmod, neg_neg]
    rw [hneg]
    exact mul_nonneg_of_nonpos_of_nonpos (neg_nonpos.mpr (Int.tmod_nonneg y (by omega))) h

/-- The clauses of the table for quotients, the lesser, the greater and the magnitude (R98, R100). -/
theorem quotients_table (ty : DType) (a b : W64) :
    (intVal ty b = 0 → aluDiv ty a b = lowBits (tyWidth ty) (-1) ∧ aluRem ty a b = lowBits (tyWidth ty) a) ∧
    (intVal ty b ≠ 0 → lowBits (tyWidth ty) (aluDiv ty a b * b + aluRem ty a b) = lowBits (tyWidth ty) a) ∧
    (tySigned ty = true → intVal ty a = tyMin ty → intVal ty b = -1 → intVal ty (aluDiv ty a b) = tyMin ty ∧ aluRem ty a b = 0) ∧
    (intVal ty b ≠ 0 → ¬ (intVal ty a = tyMin ty ∧ intVal ty b = -1) →
      intVal ty (aluDiv ty a b) = (intVal ty a).tdiv (intVal ty b) ∧
      (intVal ty (aluRem ty a b)).natAbs < (intVal ty b).natAbs ∧ 0 ≤ intVal ty (aluRem ty a b) * intVal ty a) ∧
    intVal ty (aluMin ty a b) = min (intVal ty a) (intVal ty b) ∧ intVal ty (aluMax ty a b) = max (intVal ty a) (intVal ty b) ∧
    (tySigned ty = true → intVal ty (aluAbs ty true a) = min |intVal ty a| (tyMax ty) ∧
      aluAbs ty false a = lowBits (tyWidth ty) (if intVal ty a < 0 then -a else a)) := by
  have hra := intVal_range ty a
  have hrb := intVal_range ty b
  refine ⟨fun h => ?_, fun h => ?_, fun hs ha hb => ?_, fun h hc => ?_, ?_, ?_, fun hs => ⟨?_, ?_⟩⟩
  · refine ⟨?_, ?_⟩
    · rw [aluDiv, if_pos h, wrapTo_minus_one]
    · rw [aluRem, if_pos h, wrapTo_intVal]
  · rw [aluDiv, aluRem, if_neg h, if_neg h, intVal_mul_add, Int.tdiv_mul_add_tmod, wrapTo_intVal]
  · have hne : intVal ty b ≠ 0 := by omega
    have hmin : tyMin ty ≤ tyMin ty ∧ tyMin ty ≤ tyMax ty := ⟨le_refl _, by omega⟩
    refine ⟨?_, ?_⟩
    · have hq : (intVal ty a).tdiv (intVal ty b) = tyMin ty + 2 ^ tyWidth ty := by
        rw [ha, hb, tyMin_neg hs, two_pow_tyWidth, Int.tdiv_neg, Int.tdiv_one]
        ring
      rw [aluDiv, if_neg hne, hq, wrapTo_add_pow, intVal_wrapTo hmin]
    · rw [aluRem, if_neg hne, hb, Int.tmod_neg, Int.tmod_one, wrapTo]
      simp
  · refine ⟨?_, ?_, ?_⟩
    · rw [aluDiv, if_neg h, intVal_wrapTo (div_range ty a b h hc)]
    · rw [aluRem, if_neg h, intVal_wrapTo (rem_range ty a b h), Int.natAbs_tmod]
      exact Nat.mod_lt _ (by omega)
    · rw [aluRem, if_neg h, intVal_wrapTo (rem_range ty a b h)]
      exact tmod_mul_nonneg _ _
  · rw [aluMin, intVal_wrapTo (by split <;> assumption), min_def]
  · rw [aluMax, intVal_wrapTo (by split <;> assumption), max_def]
  · have habs : (if intVal ty a < 0 then -intVal ty a else intVal ty a) = |intVal ty a| := by
      split
      · rw [abs_of_neg (by assumption)]
      · rw [abs_of_nonneg (by omega)]
    have hlow := abs_range ty a
    rw [aluAbs, intVal_deliver_sat, habs, clampTo, if_neg (by omega), min_def]
    split <;> split <;> omega
  · rw [aluAbs, deliver, if_neg Bool.false_ne_true]
    split
    · rw [wrapTo, BitVec.ofInt_neg, ofInt_intVal, lowBits, setWidth_neg (tyWidth_le ty)]
    · rw [wrapTo_intVal]

/-! ### Bits (R101 to R103) -/

/-- A bit of a word's low bits. -/
theorem bit_lowBits {w : Nat} (hw : w ≤ 64) (x : W64) (j : Nat) : bit (lowBits w x) j = (decide (j < w) && bit x j) := by
  simp only [bit, lowBits, BitVec.getLsbD_setWidth]
  by_cases h : j < w
  · simp [h, show j < 64 by omega]
  · simp [h]

theorem bit_lowBits_lt {w j : Nat} (hw : w ≤ 64) (hj : j < w) (x : W64) : bit (lowBits w x) j = bit x j := by
  rw [bit_lowBits hw, decide_eq_true hj, Bool.true_and]

theorem logic_table (ty : DType) (a b : W64) (j : Nat) (hj : j < tyWidth ty) :
    bit (aluAnd ty a b) j = (bit a j && bit b j) ∧ bit (aluOr ty a b) j = (bit a j || bit b j) ∧ bit (aluXor ty a b) j = (bit a j != bit b j) ∧
    bit (aluAndn ty a b) j = (bit a j && !bit b j) ∧ bit (aluNot ty a) j = !bit a j := by
  have hw := tyWidth_le ty
  have hj64 : j < 64 := by omega
  refine ⟨?_, ?_, ?_, ?_, ?_⟩
  · rw [aluAnd, bit_lowBits_lt hw hj, bit, BitVec.getLsbD_and]; rfl
  · rw [aluOr, bit_lowBits_lt hw hj, bit, BitVec.getLsbD_or]; rfl
  · rw [aluXor, bit_lowBits_lt hw hj, bit, BitVec.getLsbD_xor]; rfl
  · rw [aluAndn, bit_lowBits_lt hw hj, bit, BitVec.getLsbD_and, BitVec.getLsbD_not, decide_eq_true hj64]; rfl
  · rw [aluNot, bit_lowBits_lt hw hj, bit, BitVec.getLsbD_not, decide_eq_true hj64]; rfl

/-- A bit of a word's low bits with their sign. -/
theorem bit_signBits {w j : Nat} (hw : w ≤ 64) (hw0 : 0 < w) (hj : j < 64) (x : W64) : (signBits w x).getLsbD j = bit x (min j (w - 1)) := by
  rw [signBits, BitVec.getLsbD_signExtend, decide_eq_true hj, Bool.true_and]
  split
  · rw [BitVec.getLsbD_setWidth, decide_eq_true (by assumption), Bool.true_and, Nat.min_eq_left (by omega)]
    rfl
  · rw [BitVec.msb_eq_getLsbD_last, BitVec.getLsbD_setWidth, decide_eq_true (by omega), Bool.true_and, Nat.min_eq_right (by omega)]
    rfl

/-- A bit of an arithmetic shift to the right. -/
theorem bit_aluSar (ty : DType) (a b : W64) {j : Nat} (hj : j < tyWidth ty) :
    bit (aluSar ty a b) j = bit a (min (j + shiftCount b) (tyWidth ty - 1)) := by
  have hw := tyWidth_le ty
  have hw0 := tyWidth_pos ty
  have hmsb : (signBits (tyWidth ty) a).msb = bit a (tyWidth ty - 1) := by
    rw [BitVec.msb_eq_getLsbD_last, bit_signBits hw hw0 (by omega), Nat.min_eq_right (by omega)]
  have hshift : ∀ k, bit ((signBits (tyWidth ty) a).sshiftRight k) j = bit a (min (j + k) (tyWidth ty - 1)) := fun k => by
    rw [bit, BitVec.getLsbD_sshiftRight, decide_eq_false (by omega), Bool.not_false, Bool.true_and, hmsb]
    split
    · rw [bit_signBits hw hw0 (by omega), Nat.add_comm]
    · rw [Nat.min_eq_right (by omega)]
  rw [aluSar, bit_lowBits_lt hw hj, hshift]
  split
  · rw [Nat.min_eq_right (by omega), Nat.min_eq_right (by omega)]
  · rfl

/-- Words of zeros but for their low bits are equal where these are. -/
theorem lowBits_ext {w : Nat} (hw : w ≤ 64) {x y : W64} (hx : lowBits w x = x) (hy : lowBits w y = y) (h : ∀ j, j < w → bit x j = bit y j) : x = y := by
  refine BitVec.eq_of_getLsbD_eq fun j _ => ?_
  have hbit : bit (lowBits w x) j = bit (lowBits w y) j := by
    rw [bit_lowBits hw, bit_lowBits hw]
    by_cases hj : j < w
    · rw [h j hj]
    · rw [decide_eq_false hj]
      rfl
  rwa [hx, hy] at hbit

theorem bit_minus_one {j : Nat} (hj : j < 64) : bit (-1) j = true := by
  rw [bit, show (-1 : W64) = BitVec.allOnes 64 by decide, BitVec.getLsbD_allOnes, decide_eq_true hj]

theorem shifts_out (ty : DType) (a b : W64) (h : tyWidth ty ≤ shiftCount b) :
    aluShl ty a b = 0 ∧ aluShr ty a b = 0 ∧ aluSar ty a b = (if bit a (tyWidth ty - 1) = true then lowBits (tyWidth ty) (-1) else 0) := by
  have hw := tyWidth_le ty
  refine ⟨if_pos h, if_pos h, lowBits_ext hw (lowBits_lowBits hw _) ?_ fun j hj => ?_⟩
  · split
    · exact lowBits_lowBits hw _
    · rw [lowBits]
      simp
  · rw [bit_aluSar ty a b hj, Nat.min_eq_right (by omega)]
    split
    · rename_i hb
      rw [bit_lowBits_lt hw hj, hb, bit_minus_one (by omega)]
    · rename_i hb
      rw [Bool.eq_false_iff.mpr hb]
      simp [bit]

theorem shifts_table (ty : DType) (a b : W64) (j : Nat) (hj : j < tyWidth ty) (h : shiftCount b < tyWidth ty) :
    bit (aluShl ty a b) j = (decide (shiftCount b ≤ j) && bit a (j - shiftCount b)) ∧
    bit (aluShr ty a b) j = (decide (j + shiftCount b < tyWidth ty) && bit a (j + shiftCount b)) ∧
    bit (aluSar ty a b) j = bit a (min (j + shiftCount b) (tyWidth ty - 1)) := by
  have hw := tyWidth_le ty
  refine ⟨?_, ?_, bit_aluSar ty a b hj⟩
  · rw [aluShl, if_neg (by omega), bit_lowBits_lt hw hj, bit, BitVec.getLsbD_shiftLeft, decide_eq_true (by omega), Bool.true_and, bit]
    congr 1
    by_cases hc : j < shiftCount b
    · simp [hc, Nat.not_le.mpr hc]
    · simp [hc, Nat.not_lt.mp hc]
  · rw [aluShr, if_neg (by omega), bit, BitVec.getLsbD_ushiftRight, Nat.add_comm]
    exact bit_lowBits hw ..

/-! ### Rotations, reversals and counts -/

theorem rotations_table (ty : DType) (a b : W64) (j : Nat) (hj : j < tyWidth ty) :
    bit (aluRot ty a b) ((j + shiftCount b) % tyWidth ty) = bit a j := by
  have hw := tyWidth_le ty
  have hw0 := tyWidth_pos ty
  have hlt := Nat.mod_lt (j + shiftCount b) hw0
  have hmod : (j + shiftCount b) % tyWidth ty = (j + shiftCount b % tyWidth ty) % tyWidth ty := by rw [Nat.add_mod_mod]
  have hk := Nat.mod_lt (shiftCount b) hw0
  rw [aluRot, bit, BitVec.getLsbD_setWidth, decide_eq_true (by omega), Bool.true_and, BitVec.getLsbD_rotateLeft, Nat.mod_mod, hmod]
  generalize shiftCount b % tyWidth ty = k at *
  by_cases hc : j + k < tyWidth ty
  · rw [Nat.mod_eq_of_lt hc, decide_eq_false (by omega : ¬ j + k < k), cond_false, decide_eq_true hc, Bool.true_and, BitVec.getLsbD_setWidth, Nat.add_sub_cancel, decide_eq_true hj]
    rfl
  · have hm : (j + k) % tyWidth ty = j + k - tyWidth ty := by
      rw [Nat.mod_eq_sub_mod (by omega), Nat.mod_eq_of_lt (by omega)]
    rw [hm, decide_eq_true (by omega : j + k - tyWidth ty < k), cond_true, BitVec.getLsbD_setWidth, show tyWidth ty - k + (j + k - tyWidth ty) = j by omega, decide_eq_true hj]
    rfl

theorem reverseBits_lt (n : Nat) (x : W64) : reverseBits n x < 2 ^ n := by
  induction n with
  | zero => simp [reverseBits]
  | succ n ih =>
    have hb : b2n (bit x n) ≤ 1 := by cases bit x n <;> decide
    rw [reverseBits, Nat.pow_succ']
    omega

/-- The reversed bits of a word, from bit n - 1 down. -/
theorem testBit_reverseBits (n : Nat) (x : W64) {j : Nat} (hj : j < n) : (reverseBits n x).testBit (n - 1 - j) = bit x j := by
  induction n with
  | zero => omega
  | succ n ih =>
    rw [reverseBits]
    by_cases hn : j = n
    · subst hn
      rw [show j + 1 - 1 - j = 0 by omega, Nat.testBit_zero]
      cases bit x j <;> simp [b2n, Nat.add_mod]
    · rw [show n + 1 - 1 - j = (n - 1 - j) + 1 by omega, Nat.testBit_succ]
      have hhalf : (b2n (bit x n) + 2 * reverseBits n x) / 2 = reverseBits n x := by
        have hb : b2n (bit x n) < 2 := by cases bit x n <;> decide
        omega
      rw [hhalf, ih (by omega)]

theorem reversals_table (ty : DType) (a : W64) (j : Nat) (hj : j < tyWidth ty) : bit (aluBrev ty a) (tyWidth ty - 1 - j) = bit a j := by
  have hw := tyWidth_le ty
  rw [aluBrev, bit, BitVec.getLsbD_ofNat, decide_eq_true (by omega), Bool.true_and, testBit_reverseBits _ _ hj]

theorem countOnes_eq (n : Nat) (x : W64) : countOnes n x = ((List.range n).filter fun j => bit x j).length := by
  induction n with
  | zero => rfl
  | succ n ih =>
    rw [countOnes, ih, List.range_succ, List.filter_append, List.length_append, Nat.add_comm]
    cases h : bit x n <;> simp [h, b2n]

theorem leadZeros_none {n : Nat} {x : W64} (h : ∀ j, j < n → bit x j = false) : leadZeros n x = n := by
  induction n with
  | zero => rfl
  | succ n ih =>
    rw [leadZeros, h n (by omega), if_neg Bool.false_ne_true, ih fun j hj => h j (by omega), Nat.add_comm]

theorem leadZeros_first {n j : Nat} {x : W64} (hj : j < n) (hb : bit x j = true) (h : ∀ k, j < k → k < n → bit x k = false) :
    leadZeros n x = n - 1 - j := by
  induction n with
  | zero => omega
  | succ n ih =>
    rw [leadZeros]
    by_cases hn : j = n
    · subst hn
      rw [if_pos hb]
      omega
    · rw [h n (by omega) (by omega), if_neg Bool.false_ne_true, ih (by omega) fun k h1 h2 => h k h1 (by omega)]
      omega

theorem trailZeros_none {n i : Nat} {x : W64} (h : ∀ j, i ≤ j → j < i + n → bit x j = false) : trailZeros n i x = n := by
  induction n generalizing i with
  | zero => rfl
  | succ n ih =>
    rw [trailZeros, h i (le_refl _) (by omega), if_neg Bool.false_ne_true, ih fun j h1 h2 => h j (by omega) (by omega), Nat.add_comm]

theorem trailZeros_first {n i j : Nat} {x : W64} (hi : i ≤ j) (hj : j < i + n) (hb : bit x j = true) (h : ∀ k, i ≤ k → k < j → bit x k = false) :
    trailZeros n i x = j - i := by
  induction n generalizing i with
  | zero => omega
  | succ n ih =>
    rw [trailZeros]
    by_cases hij : i = j
    · subst hij
      rw [if_pos hb, Nat.sub_self]
    · rw [h i (le_refl _) (by omega), if_neg Bool.false_ne_true, ih (by omega) (by omega) fun k h1 h2 => h k (by omega) h2]
      omega

theorem counts_table (ty : DType) (a : W64) :
    (lowBits (tyWidth ty) a = 0 → aluClz ty a = BitVec.ofNat 64 (tyWidth ty) ∧ aluCtz ty a = BitVec.ofNat 64 (tyWidth ty)) ∧
    aluPopc ty a = BitVec.ofNat 64 ((List.range (tyWidth ty)).filter fun j => bit a j).length ∧
    (∀ j, j < tyWidth ty → bit a j = true → (∀ k, j < k → k < tyWidth ty → bit a k = false) →
      aluClz ty a = BitVec.ofNat 64 (tyWidth ty - 1 - j)) ∧
    (∀ j, j < tyWidth ty → bit a j = true → (∀ k, k < j → bit a k = false) → aluCtz ty a = BitVec.ofNat 64 j) := by
  refine ⟨fun h => ?_, ?_, fun j hj hb hk => ?_, fun j hj hb hk => ?_⟩
  · have hz : ∀ j, j < tyWidth ty → bit a j = false := fun j hj => by
      rw [← bit_lowBits_lt (tyWidth_le ty) hj, h]
      simp [bit]
    exact ⟨by rw [aluClz, leadZeros_none hz], by rw [aluCtz, trailZeros_none fun j _ hj => hz j (by omega)]⟩
  · rw [aluPopc, countOnes_eq]
  · rw [aluClz, leadZeros_first hj hb hk]
  · rw [aluCtz, trailZeros_first (Nat.zero_le j) (by omega) hb fun k _ h => hk k h, Nat.sub_zero]

/-! ### Bit fields (R103) -/

/-- A bit of a field of a word. -/
theorem testBit_field {w : Nat} (a : W64) (p n j : Nat) :
    ((a.setWidth w).toNat / 2 ^ p % 2 ^ n).testBit j = (decide (j < n) && (decide (p + j < w) && bit a (p + j))) := by
  rw [Nat.testBit_mod_two_pow, Nat.testBit_div_two_pow, BitVec.testBit_toNat, BitVec.getLsbD_setWidth, Nat.add_comm j p]
  rfl

/-- A field sign-extended to a word's width. -/
theorem bit_wrapTo_sub {w n v j : Nat} (hw : w ≤ 64) (hn : n ≤ w) (hv : v < 2 ^ n) (hj : j < w) :
    bit (wrapTo w ((v : Int) - ((2 ^ n : Nat) : Int))) j = if j < n then v.testBit j else true := by
  have hnat : BitVec.ofInt w ((v : Int) - ((2 ^ n : Nat) : Int)) = BitVec.ofNat w (2 ^ n * (2 ^ (w - n) - 1) + v) := by
    have hle : 2 ^ n * (2 ^ (w - n) - 1) = 2 ^ w - 2 ^ n := by
      rw [Nat.mul_sub, ← Nat.pow_add, Nat.add_sub_cancel' hn, Nat.mul_one]
    have hpow : 2 ^ n ≤ 2 ^ w := Nat.pow_le_pow_right (by norm_num) hn
    rw [← BitVec.ofInt_natCast, hle]
    refine BitVec.eq_of_toInt_eq ?_
    rw [BitVec.toInt_ofInt, BitVec.toInt_ofInt, ← Int.add_bmod_right]
    congr 1
    push_cast [hpow]
    ring
  rw [wrapTo, hnat, bit, BitVec.getLsbD_setWidth, decide_eq_true (by omega), Bool.true_and, BitVec.getLsbD_ofNat, decide_eq_true hj, Bool.true_and,
    Nat.testBit_two_pow_mul_add _ hv]
  split
  · rfl
  · rw [Nat.testBit_two_pow_sub_one]
    exact decide_eq_true (by omega)

theorem extract_table (ty : DType) (a b : W64) (j : Nat) (hj : j < tyWidth ty) :
    let p := bits b 7 0
    let n := min (bits b 15 8) (tyWidth ty)
    let field := fun k => decide (p + k < tyWidth ty) && bit a (p + k)
    bit (aluBfx ty a b) j = if j < n then field j else (tySigned ty && decide (0 < n) && field (n - 1)) := by
  intro p n field
  have hw := tyWidth_le ty
  have hn : n ≤ tyWidth ty := Nat.min_le_right ..
  let v := (a.setWidth (tyWidth ty)).toNat / 2 ^ p % 2 ^ n
  have hv : v < 2 ^ n := Nat.mod_lt _ (by positivity)
  have hbit : ∀ k, v.testBit k = (decide (k < n) && field k) := testBit_field a p n
  have hdef : aluBfx ty a b = if n = 0 then 0
      else if (tySigned ty && decide (v ≥ 2 ^ (n - 1))) = true then wrapTo (tyWidth ty) ((v : Int) - ((2 ^ n : Nat) : Int)) else BitVec.ofNat 64 v := rfl
  have htop : 0 < n → (field (n - 1) = true ↔ 2 ^ (n - 1) ≤ v) := fun h0 => by
    have hf : v.testBit (n - 1) = field (n - 1) := by rw [hbit, decide_eq_true (by omega), Bool.true_and]
    rw [← hf]
    refine ⟨Nat.ge_two_pow_of_testBit, fun hle => ?_⟩
    rw [Nat.testBit_eq_decide_div_mod_eq]
    have h1 : v / 2 ^ (n - 1) = 1 := by
      have hlt : v < 2 ^ (n - 1) * 2 := by rwa [← Nat.pow_succ, Nat.succ_eq_add_one, Nat.sub_add_cancel h0]
      exact Nat.div_eq_of_lt_le (by omega) (by omega)
    rw [h1]
    rfl
  rw [hdef]
  by_cases h0 : n = 0
  · simp [h0, bit]
  · rw [if_neg h0]
    have hpos : 0 < n := by omega
    split
    · rename_i hs
      obtain ⟨h1, h2⟩ := Bool.and_eq_true_iff.mp hs
      rw [bit_wrapTo_sub hw hn hv hj, h1, decide_eq_true hpos, (htop hpos).mpr (of_decide_eq_true h2)]
      split
      · rename_i hjn
        rw [hbit, decide_eq_true hjn, Bool.true_and]
      · rfl
    · rename_i hs
      rw [bit, BitVec.getLsbD_ofNat, decide_eq_true (by omega), Bool.true_and, hbit]
      split
      · rename_i hjn
        rw [decide_eq_true hjn, Bool.true_and]
      · rename_i hjn
        rw [decide_eq_false hjn, Bool.false_and]
        cases ht : tySigned ty with
        | false => rfl
        | true =>
          have hno : ¬ 2 ^ (n - 1) ≤ v := fun hle => hs (by rw [ht, decide_eq_true hle]; rfl)
          rw [Bool.eq_false_iff.mpr fun h => hno ((htop hpos).mp h), Bool.and_false]

theorem insert_table (ty : DType) (a b c : W64) (j : Nat) (hj : j < tyWidth ty) :
    bit (aluBfi ty a b c) j = (if bits c 7 0 ≤ j ∧ j < bits c 7 0 + bits c 15 8 then bit b (j - bits c 7 0) else bit a j) := by
  have hw := tyWidth_le ty
  have hlow : ∀ (x : W64) k, k < tyWidth ty → (x.setWidth (tyWidth ty)).toNat.testBit k = bit x k := fun x k hk => by
    rw [BitVec.testBit_toNat, BitVec.getLsbD_setWidth, decide_eq_true hk, Bool.true_and]
    rfl
  unfold aluBfi
  dsimp only
  generalize bits c 7 0 = p
  generalize bits c 15 8 = n
  rw [bit, BitVec.getLsbD_ofNat, decide_eq_true (by omega), Bool.true_and, Nat.testBit_mod_two_pow, decide_eq_true hj, Bool.true_and, Nat.testBit_or,
    Nat.testBit_xor, Nat.testBit_and, Nat.testBit_mul_two_pow, Nat.testBit_mul_two_pow, Nat.testBit_two_pow_sub_one, Nat.testBit_mod_two_pow,
    hlow a j hj, hlow b (j - p) (by omega)]
  by_cases hp : p ≤ j
  · by_cases hn : j < p + n
    · simp [hp, hn, show j - p < n by omega]
    · simp [hp, hn, show ¬ j - p < n by omega]
  · simp [hp]

/-! ### Addresses, selections and dot products -/

theorem lea_table (ty : DType) (a b c : W64) (hty : ty ∈ [DType.n32, .i32, .n64]) :
    aluLea ty a b c = a + BitVec.ofNat 64 (2 ^ shiftCount c) * (if ty = .n32 then lowBits 32 b else if ty = .i32 then signBits 32 b else b) := by
  have hshift : ∀ x : W64, (if shiftCount c ≥ 64 then a else a + (x <<< shiftCount c)) = a + BitVec.ofNat 64 (2 ^ shiftCount c) * x := fun x => by
    split
    · rename_i h
      have h0 : BitVec.ofNat 64 (2 ^ shiftCount c) = 0#64 := by
        refine BitVec.eq_of_toNat_eq ?_
        rw [BitVec.toNat_ofNat, Nat.mod_eq_zero_of_dvd (Nat.pow_dvd_pow 2 h)]
        rfl
      rw [h0, BitVec.zero_mul, BitVec.add_zero]
    · refine congrArg (a + ·) (BitVec.eq_of_toNat_eq ?_)
      rw [BitVec.toNat_shiftLeft, BitVec.toNat_mul, BitVec.toNat_ofNat, Nat.shiftLeft_eq, Nat.mod_mul_mod, Nat.mul_comm]
  simp only [List.mem_cons, List.not_mem_nil, or_false] at hty
  rcases hty with rfl | rfl | rfl
  · exact hshift _
  · exact hshift _
  · refine (hshift _).trans ?_
    simp [lowBits, tyWidth, tySigned]

theorem select_table (f : Fields) (op : Vals → Res) (v : Vals) :
    (integerForm (.sel f) = some (f, op) → (op v).d = lowBits (tyWidth f.ty) (if v.pc = true then v.a else v.b)) ∧
    (integerForm (.mov f) = some (f, op) → (op v).d = lowBits (tyWidth f.ty) v.a) := by
  refine ⟨fun h => ?_, fun h => ?_⟩
  · cases h
    dsimp only [resV]
    split <;> rfl
  · cases h
    rfl

/-- The sums of products of four bytes (R104). -/
theorem dot_table (a b c : W64) :
    (let sum := (c.setWidth 32).toInt + ((List.range 4).map fun k => ((a >>> (8 * k)).setWidth 8).toInt * ((b >>> (8 * k)).setWidth 8).toInt).sum
     aluIdp4 .i8 false a b c = (BitVec.ofInt 32 sum).setWidth 64 ∧ intVal .i32 (aluIdp4 .i8 true a b c) = clampTo .i32 sum) ∧
    (let sum := (c.setWidth 32).toNat + ((List.range 4).map fun k => ((a >>> (8 * k)).setWidth 8).toNat * ((b >>> (8 * k)).setWidth 8).toNat).sum
     aluIdp4 .n8 false a b c = BitVec.ofNat 64 (sum % 2 ^ 32) ∧ aluIdp4 .n8 true a b c = BitVec.ofNat 64 (min sum (2 ^ 32 - 1))) := by
  have hfour : ∀ {R : Type} [AddCommMonoid R] (f : Nat → R), ((List.range 4).map f).sum = f 0 + f 1 + f 2 + f 3 := fun f => by
    simp [List.range_succ, add_assoc]
  refine ⟨?_, ?_⟩
  · intro sum
    have hsum : sum = intVal .i32 c + byteVal .i8 a 0 * byteVal .i8 b 0 + byteVal .i8 a 1 * byteVal .i8 b 1 + byteVal .i8 a 2 * byteVal .i8 b 2
        + byteVal .i8 a 3 * byteVal .i8 b 3 := by
      unfold sum
      rw [hfour]
      simp only [byteVal, intVal, tySigned, tyWidth, if_true]
      ring
    refine ⟨?_, ?_⟩
    · rw [hsum]
      rfl
    · rw [hsum]
      exact intVal_deliver_sat .i32 _
  · intro sum
    have hsum : (sum : Int) = intVal .n32 c + byteVal .n8 a 0 * byteVal .n8 b 0 + byteVal .n8 a 1 * byteVal .n8 b 1 + byteVal .n8 a 2 * byteVal .n8 b 2
        + byteVal .n8 a 3 * byteVal .n8 b 3 := by
      unfold sum
      rw [hfour]
      simp only [byteVal, intVal, tySigned, tyWidth, Bool.false_eq_true, if_false]
      push_cast
      ring
    have hword : ∀ n : Nat, wrapTo 32 (n : Int) = BitVec.ofNat 64 (n % 2 ^ 32) := fun n => by
      refine BitVec.eq_of_toNat_eq ?_
      rw [wrapTo, BitVec.ofInt_natCast, BitVec.toNat_setWidth, BitVec.toNat_ofNat, BitVec.toNat_ofNat]
    have hdef : ∀ sat, aluIdp4 .n8 sat a b c = deliver .n32 sat (sum : Int) := fun sat => by
      rw [hsum]
      rfl
    refine ⟨(hdef false).trans (hword sum), (hdef true).trans ?_⟩
    have hclamp : clampTo .n32 (sum : Int) = ((min sum (2 ^ 32 - 1) : Nat) : Int) := by
      have hmin : tyMin .n32 = 0 := rfl
      have hmax : tyMax .n32 = 2 ^ 32 - 1 := rfl
      rw [clampTo, hmin, hmax]
      split
      · omega
      · split <;> omega
    rw [deliver, if_pos rfl, hclamp]
    refine (hword _).trans ?_
    rw [Nat.mod_eq_of_lt (by omega)]

/-- Every result stands in the low bits of its word (R95). -/
theorem results_low (ty : DType) (sat : Bool) (a b c : W64) :
    ∀ r ∈ [aluAdd ty sat a b, aluSub ty sat a b, aluMul ty sat a b, aluMulh ty a b, aluMad ty sat a b c, aluDiv ty a b, aluRem ty a b, aluMin ty a b,
           aluMax ty a b, aluAbs ty sat a, aluAnd ty a b, aluOr ty a b, aluXor ty a b, aluAndn ty a b, aluNot ty a, aluShl ty a b, aluShr ty a b,
           aluSar ty a b, aluRot ty a b, aluBrev ty a, aluBfx ty a b, aluBfi ty a b c], lowBits (tyWidth ty) r = r := by
  have hw := tyWidth_le ty
  have hz : ∀ z, lowBits (tyWidth ty) (wrapTo (tyWidth ty) z) = wrapTo (tyWidth ty) z := lowBits_wrapTo hw
  have hl : ∀ x, lowBits (tyWidth ty) (lowBits (tyWidth ty) x) = lowBits (tyWidth ty) x := lowBits_lowBits hw
  have h0 : lowBits (tyWidth ty) 0 = 0 := by simp [lowBits]
  have hn : ∀ n, n < 2 ^ tyWidth ty → lowBits (tyWidth ty) (BitVec.ofNat 64 n) = BitVec.ofNat 64 n := fun n h => by
    have hle : 2 ^ tyWidth ty ≤ 2 ^ 64 := Nat.pow_le_pow_right (by norm_num) hw
    refine BitVec.eq_of_toNat_eq ?_
    rw [lowBits, BitVec.toNat_setWidth, BitVec.toNat_setWidth, BitVec.toNat_ofNat, Nat.mod_eq_of_lt (a := n) (by omega), Nat.mod_eq_of_lt h,
      Nat.mod_eq_of_lt (by omega)]
  simp only [List.forall_mem_cons]
  refine ⟨hz _, hz _, hz _, hz _, hz _, ?_, ?_, hz _, hz _, hz _, hl _, hl _, hl _, hl _, hl _, ?_, ?_, hl _, lowBits_setWidth hw _,
    hn _ (reverseBits_lt _ _), ?_, hn _ (Nat.mod_lt _ (by positivity)), fun _ h => nomatch h⟩
  · rw [aluDiv]
    split <;> exact hz _
  · rw [aluRem]
    split <;> exact hz _
  · rw [aluShl]
    split
    · exact h0
    · exact hl _
  · rw [aluShr]
    split
    · exact h0
    · refine BitVec.eq_of_toNat_eq ?_
      have hlt : (lowBits (tyWidth ty) a >>> shiftCount b).toNat < 2 ^ tyWidth ty := by
        rw [BitVec.toNat_ushiftRight, lowBits]
        have hle : ((a.setWidth (tyWidth ty)).setWidth 64).toNat ≤ (a.setWidth (tyWidth ty)).toNat := by
          rw [BitVec.toNat_setWidth]
          exact Nat.mod_le ..
        exact (Nat.shiftRight_le ..).trans_lt (hle.trans_lt (a.setWidth (tyWidth ty)).isLt)
      rw [lowBits, BitVec.toNat_setWidth, BitVec.toNat_setWidth, Nat.mod_eq_of_lt hlt, Nat.mod_eq_of_lt (BitVec.isLt _)]
  · unfold aluBfx
    dsimp only
    split
    · exact h0
    · split
      · exact hz _
      · refine hn _ ((Nat.mod_lt _ (by positivity)).trans_le (Nat.pow_le_pow_right (by norm_num) (Nat.min_le_right ..)))

/-- The integer half of O17. -/
theorem integerTable_holds : integerTable := by
  refine ⟨fun ty sat a b c _ => sums_table ty sat a b c, fun ty a b _ => quotients_table ty a b, fun ty a b j _ hj => logic_table ty a b j hj,
    fun ty a b _ h => shifts_out ty a b h, fun ty a b j _ hj h => shifts_table ty a b j hj h,
    fun ty a b j _ hj => ⟨rotations_table ty a b j hj, reversals_table ty a j hj⟩, fun ty a _ => counts_table ty a,
    fun ty a b c j _ hj => ⟨extract_table ty a b j hj, insert_table ty a b c j hj⟩, fun ty a b c h => lea_table ty a b c h,
    select_table, fun imm => ⟨rfl, rfl, rfl, rfl⟩, dot_table, fun ty sat a b c _ => results_low ty sat a b c⟩

end Sys2Proof.Machine
end

section
/-! Floating-point results that are NaNs (R107). -/

namespace Sys2Proof.Machine

/-- A code that is a sign with a magnitude up to the infinity. -/
def Fmt.signed (f : Fmt) (c : Nat) : Prop := ∃ s k, c = signCode f s + k ∧ k ≤ f.maxCode + 1

theorem Fmt.maxCode_ieee {f : Fmt} (h : f.top = .ieee) (heb : 0 < f.eb) : f.maxCode + 1 = (2 ^ f.eb - 1) * 2 ^ f.mb := by
  have h1 : 2 ^ 1 ≤ 2 ^ f.eb := Nat.pow_le_pow_right (by norm_num) heb
  have hpos : 0 < (2 ^ f.eb - 1) * 2 ^ f.mb := Nat.mul_pos (by omega) (by positivity)
  rw [Fmt.maxCode, h]
  exact Nat.sub_add_cancel hpos

/-- A finite value rounds to such a code (R108). -/
theorem Fmt.signed_roundFin (f : Fmt) (rm : Rm) (ftz s : Bool) (m : Nat) (e : Int) : f.signed (f.roundFin rm .ieee ftz s m e).1 := by
  unfold Fmt.roundFin
  split
  · exact ⟨s, 0, rfl, Nat.zero_le _⟩
  · extract_lets top q
    obtain ⟨n, inex⟩ := roundAt rm s m e q
    dsimp only
    split
    · refine ⟨s, _, rfl, ?_⟩
      split <;> omega
    · split
      · exact ⟨s, 0, rfl, Nat.zero_le _⟩
      · exact ⟨s, _, rfl, by omega⟩

/-- No such code is a NaN (R105). -/
theorem Fmt.decode_signed {f : Fmt} (h : f.top = .ieee) (heb : 0 < f.eb) {c : Nat} (hc : f.signed c) (sg : Bool) : f.decode c ≠ .nan sg := by
  obtain ⟨s, k, rfl, hk⟩ := hc
  rw [Fmt.maxCode_ieee h heb] at hk
  have hp : 0 < 2 ^ f.mb := by positivity
  have hp2 : 0 < 2 ^ f.eb := by positivity
  have hsign : signCode f s + k = 2 ^ f.mb * (2 ^ f.eb * b2n s) + k := by
    rw [signCode, Nat.pow_add]
    ring
  have hdiv : (signCode f s + k) / 2 ^ f.mb % 2 ^ f.eb = k / 2 ^ f.mb := by
    have hlt : k / 2 ^ f.mb < 2 ^ f.eb := (Nat.div_lt_iff_lt_mul hp).mpr (by nlinarith [Nat.sub_add_cancel (show 1 ≤ 2 ^ f.eb by omega)])
    rw [hsign, Nat.mul_add_div hp, Nat.mul_add_mod, Nat.mod_eq_of_lt hlt]
  unfold Fmt.decode
  dsimp only
  rw [hdiv]
  split
  · rename_i htop
    have hk2 : k = (2 ^ f.eb - 1) * 2 ^ f.mb := by
      refine le_antisymm hk ?_
      rw [← htop.2]
      exact Nat.div_mul_le_self ..
    rw [if_pos]
    · nofun
    · rw [hsign, hk2, Nat.mul_add_mod, Nat.mul_mod_left]
  · rw [h]
    simp only [reduceCtorEq, false_and, if_false]
    split <;> nofun

/-- A delivered value is the canonical NaN, or no NaN (R107). -/
theorem Fmt.deliver_nan (f : Fmt) (rm : Rm) (ftz : Bool) (v : FpVal) :
    (f.deliver rm ftz v).1 = f.nanCode ∨ f.signed (f.deliver rm ftz v).1 := by
  cases v with
  | nan => exact .inl rfl
  | inf s => exact .inr ⟨s, f.maxCode + 1, rfl, le_refl _⟩
  | fin s m e => exact .inr (f.signed_roundFin rm ftz s m e)

theorem Fmt.signed_lt {f : Fmt} (h : f.top = .ieee) (heb : 0 < f.eb) {c : Nat} (hc : f.signed c) : c < 2 ^ f.width := by
  obtain ⟨s, k, rfl, hk⟩ := hc
  rw [Fmt.maxCode_ieee h heb] at hk
  have hp2 : 0 < 2 ^ f.eb := by positivity
  have hlt : k < 2 ^ (f.eb + f.mb) := by
    rw [Nat.pow_add]
    exact hk.trans_lt (Nat.mul_lt_mul_of_pos_right (by omega) (by positivity))
  have hs : signCode f s ≤ 2 ^ (f.eb + f.mb) := by
    rw [signCode]
    cases s <;> simp [b2n]
  rw [Fmt.width, Nat.add_assoc, Nat.pow_add]
  omega

/-- A word that holds such a code is a NaN only where it is the canonical one. -/
theorem nan_of_deliver {f : Fmt} (h : f.top = .ieee) (heb : 0 < f.eb) (hw : f.width ≤ 64) {c : Nat} (hc : c = f.nanCode ∨ f.signed c) {sg : Bool}
    (hx : f.decode (BitVec.ofNat 64 c).toNat = .nan sg) : BitVec.ofNat 64 c = BitVec.ofNat 64 f.nanCode := by
  rcases hc with rfl | hc
  · rfl
  · have hlt : c < 2 ^ 64 := (Fmt.signed_lt h heb hc).trans_le (Nat.pow_le_pow_right (by norm_num) hw)
    rw [BitVec.toNat_ofNat, Nat.mod_eq_of_lt hlt] at hx
    exact absurd hx (Fmt.decode_signed h heb hc sg)

/-- The floating-point half of O17. -/
theorem nanIsCanonical_holds : nanIsCanonical := by
  intro ty m a b c hty
  obtain ⟨h, heb, hw⟩ : (tyFmt ty).top = .ieee ∧ 0 < (tyFmt ty).eb ∧ (tyFmt ty).width ≤ 64 := by
    simp only [fp3, List.mem_cons, List.not_mem_nil, or_false] at hty
    rcases hty with rfl | rfl | rfl <;> decide
  have hfin : ∀ (fl : FpFlags) (v : FpVal × FpFlags) (sg : Bool), (tyFmt ty).decode (finish (tyFmt ty) m fl v).1.toNat = .nan sg →
      (finish (tyFmt ty) m fl v).1 = BitVec.ofNat 64 (tyFmt ty).nanCode := fun fl v _ hx =>
    nan_of_deliver h heb hw ((tyFmt ty).deliver_nan m.rm m.ftz v.1) hx
  simp only [List.forall_mem_cons]
  refine ⟨hfin _ _, hfin _ _, hfin _ _, hfin _ _, hfin _ _, hfin _ _, ?_, hfin _ _, fun _ h => nomatch h⟩
  intro sg hx
  unfold fpRound at hx ⊢
  dsimp only at hx ⊢
  split at hx
  · exact nan_of_deliver h heb hw (.inr ((tyFmt ty).signed_roundFin ..)) hx
  · exact nan_of_deliver h heb hw ((tyFmt ty).deliver_nan m.rm m.ftz _) hx

/-- Settles O17, operation by operation on the integers that the words stand for and on their bits; a delivered code is a sign with a magnitude up to
infinity, or the canonical NaN. -/
theorem operationValues : Obligations.OperationValues := ⟨integerTable_holds, nanIsCanonical_holds⟩

end Sys2Proof.Machine
end

section
/-! What a beat that is done, blocks or faults leaves of its agent (R54, R55, R61, R285, R289). -/

namespace Sys2Proof.Machine

/-! ### Done -/

theorem State.lanesOf_of_agent {s : State} {a : AgentId} {x : Agent} (h : s.agent a = some x) : s.lanesOf a = some x.lanes := by
  rw [State.lanesOf, h]
  rfl

/-- A beat that is done: its agent's registers and lanes, and every register file, are as the body leaves them. -/
theorem State.done_agent {s u : State} {b : Beat} {z : Agent} (hf : u.flaws = []) (hu : u.agent b.a = some z) (hi : z.issue ≠ .barrier) (whole : Bool) :
    ∃ y, (s.conclude b whole (.done u)).agent b.a = some y ∧ y.regs = z.regs ∧ y.lanes = z.lanes ∧
      ∀ c, (s.conclude b whole (.done u)).regsOf c = u.regsOf c := by
  have hregs := State.conclude_done_regs s u hf b whole
  have hlanes := State.conclude_done_lanes s u hf b whole fun x hx => by
    rw [← Option.some.inj (hu.symm.trans hx)]
    exact hi
  have hself := hregs b.a
  rw [State.regsOf, State.regsOf, hu] at hself
  obtain ⟨y, hy, hyr⟩ := Option.map_eq_some_iff.mp hself
  rw [State.lanesOf_of_agent hu, State.lanesOf_of_agent hy] at hlanes
  exact ⟨y, hy, hyr, Option.some.inj hlanes, hregs⟩

/-- A due beat that is done: its agent's registers and lanes are as the body leaves them. -/
theorem Due.done_agent {i : Instr} {f : Fields} {s : State} {b : Beat} (h : Due i f s b) {body : Beat → State → Out} {u : State} {z : Agent}
    (hb : body b (s.begun b) = .done u) (hf : u.flaws = []) (hu : u.agent b.a = some z) (hi : z.issue ≠ .barrier) :
    ∃ t y, issueBeat i f s body = .next t ∧ t.agent b.a = some y ∧ y.regs = z.regs ∧ y.lanes = z.lanes ∧ ∀ c, t.regsOf c = u.regsOf c := by
  obtain ⟨y, hy, hrest⟩ := State.done_agent (s := s.waited b.a) hf hu hi (shapeOf i f).whole
  exact ⟨_, y, by rw [issueBeat_due h, hb], hy, hrest⟩

/-- A lane of a due beat as its body finds it. -/
theorem Beat.wantsAfter_next (b : Beat) {y : Agent} (hy : y.lanes = b.begunAgent.lanes) : wantsAfter b y fun _ => b.x.p + 1 := fun l hl => by
  have hlane : y.lane l = b.begunAgent.lane l := by rw [Agent.lane, Agent.lane, hy]
  rw [hlane, b.begunAgent_lane hl]

/-! ### Blocked -/

/-- The agent without what marks that it waits. -/
def Agent.unwaiting (x : Agent) : Agent := { x with block := none, blockedAt := 0, goose := 0, gooseSeq := 0, held := false }

section
variable {x y : Agent} (h : y.unwaiting = x.unwaiting)
include h

theorem Agent.regs_of_unwaiting : y.regs = x.regs := (congrArg Agent.regs h : y.unwaiting.regs = x.unwaiting.regs)
theorem Agent.lanes_of_unwaiting : y.lanes = x.lanes := (congrArg Agent.lanes h : y.unwaiting.lanes = x.unwaiting.lanes)
theorem Agent.issue_of_unwaiting : y.issue = x.issue := (congrArg Agent.issue h : y.unwaiting.issue = x.unwaiting.issue)
theorem Agent.arr_of_unwaiting : y.arr = x.arr := (congrArg Agent.arr h : y.unwaiting.arr = x.unwaiting.arr)

end

theorem State.blockAgent_agent {s : State} {a : AgentId} {x : Agent} (hx : s.agent a = some x) (w : BlockWhy) :
    ∃ y, (s.blockAgent a w).agent a = some y ∧ y.block = some w ∧ y.unwaiting = x.unwaiting := by
  rw [State.blockAgent, State.agent_modAgent_same, hx]
  refine ⟨_, rfl, ?_⟩
  dsimp only
  split
  · exact ⟨by assumption, rfl⟩
  · exact ⟨rfl, rfl⟩

theorem State.markHeld_self {s : State} {a : AgentId} {x : Agent} (hx : s.agent a = some x) :
    ∃ b, (s.markHeld a).agent a = some { x with held := b } := by
  obtain ⟨f, hf, he⟩ := s.markHeld_agent a a
  rw [he, hx]
  rcases hf x with h | ⟨-, h⟩
  · exact ⟨x.held, congrArg some h⟩
  · exact ⟨true, congrArg some h⟩

/-- A beat that blocks: its agent stands as it was, with the reason. -/
theorem State.conclude_block {s : State} {b : Beat} {x : Agent} (hx : s.agent b.a = some x) (whole : Bool) (w : BlockWhy) :
    ∃ y, (s.conclude b whole (.block w)).agent b.a = some y ∧ y.block = some w ∧ y.unwaiting = x.unwaiting ∧
      (s.conclude b whole (.block w)).still = s.still ∧ (s.conclude b whole (.block w)).mem = s.mem := by
  obtain ⟨y, hy, hw, hyx⟩ := State.blockAgent_agent hx w
  obtain ⟨h, hh⟩ := State.markHeld_self hy
  exact ⟨_, hh, hw, hyx, (State.markHeld_still _ _).trans (State.modAgent_still ..), rfl⟩

theorem State.waited_agent {s : State} {a : AgentId} {x : Agent} (hx : s.agent a = some x) :
    (s.waited a).agent a = some { x with arr := { x.arr with wk := 0 } } := by
  rw [State.waited, State.agent_modAgent_same, hx]
  rfl

/-- A due beat that blocks. -/
theorem Due.blocked {i : Instr} {f : Fields} {s : State} {b : Beat} (h : Due i f s b) {body : Beat → State → Out} {w : BlockWhy}
    (hb : body b (s.begun b) = .block w) : ∃ t y, issueBeat i f s body = .next t ∧ t.agent b.a = some y ∧ y.block = some w ∧ y.issue = .beats ∧
      y.lanes = b.x.lanes ∧ y.regs = b.x.regs ∧ t.still = s.still ∧ t.mem = s.mem := by
  obtain ⟨y, hy, hw, hyx, hst, hm⟩ := State.conclude_block (b := b) (State.waited_agent h.agent) (shapeOf i f).whole w
  exact ⟨_, y, by rw [issueBeat_due h, hb], hy, hw, (Agent.issue_of_unwaiting hyx).trans h.issue, (Agent.lanes_of_unwaiting hyx).trans rfl,
    (Agent.regs_of_unwaiting hyx).trans rfl, hst.trans (State.modAgent_still ..), hm⟩

/-! ### Faulted -/

/-- A beat that raises a fault of a group or control thread: its agent stops with registers and lanes as they were. -/
theorem State.conclude_fault {s : State} {b : Beat} {t : Team} {x : Agent} (ht : s.team b.a.team = some t) (hx : s.agent b.a = some x)
    (hk : x.kind ≠ .privileged) {r : Raise} (hr : r.code ≠ 0x18) (whole : Bool) {y : Agent}
    (hy : (s.conclude b whole (.fault r)).agent b.a = some y) :
    y.stoppedAs r.code r.how ∧ y.regs = x.regs ∧ y.lanes = x.lanes ∧ y.restart = if whole || r.whole then 0 else b.quad := by
  have hcode : (r.forWhole whole b.perf).code = r.code ∧ (r.forWhole whole b.perf).how = r.how := by
    unfold Raise.forWhole
    split <;> exact ⟨rfl, rfl⟩
  let x1 : Agent := { x with restart := if whole || r.whole then 0 else b.quad }
  let s1 : State := s.modAgent b.a fun x => { x with restart := if whole || r.whole then 0 else b.quad }
  have hx1 : s1.agent b.a = some x1 := by
    rw [State.agent_modAgent_same, hx]
    rfl
  obtain ⟨t1, ht1, -⟩ : ∃ t1, s1.team b.a.team = some t1 ∧ t1.bare = t.bare := (s.fixed_modAgent b.a _).team ht
  obtain ⟨h, rfl⟩ := (State.takeFault_hasOnly_own ht1 hx1 hk (hcode.1.symm ▸ hr)).markHeld y hy
  exact ⟨⟨rfl, _, rfl, hcode.1, hcode.2⟩, rfl, rfl, rfl⟩

/-- A due beat that raises a fault. -/
theorem Due.faulted {i : Instr} {f : Fields} {s : State} {b : Beat} (h : Due i f s b) (hk : b.x.kind ≠ .privileged) {body : Beat → State → Out}
    {r : Raise} (hr : r.code ≠ 0x18) (hb : body b (s.begun b) = .fault r) : ∃ t, issueBeat i f s body = .next t ∧ ∀ y, t.agent b.a = some y →
      y.stoppedAs r.code r.how ∧ y.regs = b.x.regs ∧ y.lanes = b.x.lanes ∧ y.restart = if (shapeOf i f).whole || r.whole then 0 else b.quad := by
  refine ⟨_, by rw [issueBeat_due h, hb], fun y hy => ?_⟩
  obtain ⟨t1, ht, -⟩ : ∃ t1, (s.waited b.a).team b.a.team = some t1 ∧ t1.bare = b.t.bare := (s.fixed_modAgent b.a _).team h.team
  exact State.conclude_fault ht (State.waited_agent h.agent) hk hr _ hy

end Sys2Proof.Machine
end

section
/-! Waits before the first beat, jumps, calls and returns (R16, R55, R62, R65, R66, R80 to R82). -/

namespace Sys2Proof.Machine

/-! ### Waits before the first beat -/

theorem usesQueue_false {i : Instr} {f : Fields} {r : Row} (hr : rowFor i = some r) (hq : quseOf r f = .none) : usesQueue i f = false := by
  rw [usesQueue, hr]
  dsimp only
  rw [hq]

/-- A lane form is a whole beat where its UNI says so. -/
theorem laneForm_shape {i : Instr} {f : Fields} {r : Row} (hr : rowFor i = some r) (hq : quseOf r f = .none)
    (h : (∃ op, integerForm i = some (f, op)) ∨ (∃ op, floatForm i = some (f, op)) ∨ ∃ op, longForm i = some (f, op)) :
    (shapeOf i f).whole = f.uni ∧ ∀ s, ∃ body, exec i s = issueBeat i f s body := by
  have hu := usesQueue_false hr hq
  have hwhole : (f.uni || usesQueue i f) = f.uni := by rw [hu, Bool.or_false]
  rcases h with ⟨op, h⟩ | ⟨op, h⟩ | ⟨op, h⟩
  · refine ⟨?_, fun s => ⟨_, (integerForm_spec h).1 s⟩⟩
    rw [← hwhole]
    unfold integerForm at h
    split at h
    all_goals cases h
    all_goals rfl
  · refine ⟨?_, fun s => ⟨_, (floatForm_spec h).1 s⟩⟩
    rw [← hwhole]
    unfold floatForm at h
    split at h
    all_goals cases h
    all_goals rfl
  · refine ⟨?_, fun s => ⟨_, (longForm_spec h).1 s⟩⟩
    rw [← hwhole]
    unfold longForm at h
    split at h
    all_goals cases h
    all_goals rfl

/-- What the agent at its beats is. -/
theorem State.current_parts {s : State} {a : AgentId} {t : Team} {x : Agent} (h : s.current = some (a, t, x)) :
    s.team a.team = some t ∧ s.agent a = some x ∧ x.issue = .beats := by
  unfold State.current at h
  repeat' split at h
  all_goals simp_all

theorem exists_op {α β : Type} {o : Option (α × β)} {f : α} (h : o.map Prod.fst = some f) : ∃ op, o = some (f, op) := by
  obtain ⟨e, rfl, rfl⟩ := Option.map_eq_some_iff.mp h
  exact ⟨e.2, rfl⟩

/-- A beat with an empty register traps or blocks (R55). -/
theorem beatGate_unready {s : State} {i : Instr} {b : Beat} (htok : tokensDone b.t b.x.arr.wk = true) {g : Ready}
    (hg : readiness b.x (checkedRow i b.row) b.f (if b.perf ≠ 0 then sourceLanes i b.f b.act b.perf else []) (lanesIn b.perf) (lanesIn b.act)
      (b.x.arr.granted.isSome || b.x.arr.pushed) = g) (hne : g ≠ .ready) : beatGate s i b = if g = .trap then .trap else .empty := by
  have hif : (if decide (b.perf ≠ 0) = true then sourceLanes i b.f b.act b.perf else []) =
      (if b.perf ≠ 0 then sourceLanes i b.f b.act b.perf else []) := by simp
  simp only [beatGate, htok, Bool.not_true, Bool.false_eq_true, if_false, hif, hg]
  cases g with
  | ready => exact absurd rfl hne
  | trap | blocked => rfl

/-- What the gate of a beat decides. -/
theorem issueBeat_gate {i : Instr} {r : Row} {s : State} {a : AgentId} {t : Team} {x : Agent} (hc : s.current = some (a, t, x))
    (hr : rowFor i = some r) (f : Fields) (body : Beat → State → Out) :
    issueBeat i f s body = match beatGate s i (beatOf i f r a t x) with
      | .token => .next (s.blockAgent a .token)
      | .trap => .next ((s.waited a).conclude (beatOf i f r a t x) (shapeOf i f).whole (.fault (beatFault 0x04
          (maskOf (lanesIn (beatOf i f r a t x).perf) fun l => decide (readiness x (checkedRow i r) f [l] [l] [l] true = .trap)) 0 false)))
      | .empty => .next ((s.waited a).blockAgent a .empty)
      | .acquire => .next ((s.waited a).blockAgent a .acquire)
      | .release => .next ((s.waited a).modAgent a fun y => { y with block := none })
      | .ready => .next ((s.waited a).conclude (beatOf i f r a t x) (shapeOf i f).whole
          (body (beatOf i f r a t x) (s.begun (beatOf i f r a t x)))) := by
  unfold issueBeat
  simp only [hc, hr]
  split
  · rename_i hg
    rw [hg]
  · rename_i hg
    cases h : beatGate s i (beatOf i f r a t x) with
    | token => exact absurd h hg
    | trap | empty | acquire | release | ready => rfl

/-- Settles O26: the gate of the beat decides before its body. -/
theorem formsWait : Obligations.FormsWait := by
  intro i f r s a t x hc hr hform hq b full
  obtain ⟨ht, hx, hi⟩ := State.current_parts hc
  obtain ⟨hwhole, hbody⟩ := laneForm_shape hr hq (hform.imp exists_op (Or.imp exists_op exists_op))
  obtain ⟨body, hexec⟩ := hbody s
  have hgate := issueBeat_gate hc hr f body
  refine ⟨fun htok => ?_, fun htok hblk => ?_, fun htok htrap hk => ?_⟩
  · have hg : beatGate s i b = .token := by
      unfold beatGate
      rw [show tokensDone b.t b.x.arr.wk = false from htok]
      rfl
    obtain ⟨y, hy, hw, hyx⟩ := State.blockAgent_agent hx .token
    exact ⟨_, y, by rw [hexec, hgate, hg], hy, hw, Agent.regs_of_unwaiting hyx, Agent.lanes_of_unwaiting hyx,
      (Agent.issue_of_unwaiting hyx).trans hi⟩
  · obtain ⟨y, hy, hw, hyx⟩ := State.blockAgent_agent (State.waited_agent hx) .empty
    exact ⟨_, y, by rw [hexec, hgate, beatGate_unready (s := s) (b := b) htok hblk nofun, if_neg nofun], hy, hw, (Agent.regs_of_unwaiting hyx).trans rfl,
      (Agent.lanes_of_unwaiting hyx).trans rfl, (Agent.issue_of_unwaiting hyx).trans hi⟩
  · refine ⟨_, by rw [hexec, hgate, beatGate_unready (s := s) (b := b) htok htrap nofun, if_pos rfl], fun y hy => ?_⟩
    obtain ⟨t1, ht1, -⟩ : ∃ t1, (s.waited a).team a.team = some t1 ∧ t1.bare = t.bare := (s.fixed_modAgent a _).team ht
    obtain ⟨h1, h2, h3, h4⟩ := State.conclude_fault (b := b) ht1 (State.waited_agent hx) hk (show (0x04 : Byte) ≠ 0x18 by decide) _ hy
    refine ⟨h1, h2, h3, h4.trans ?_⟩
    rw [hwhole]
    cases f.uni <;> rfl

end Sys2Proof.Machine
end

section
/-! Jumps, calls and returns (R62, R65, R66, R80 to R82). -/

namespace Sys2Proof.Machine

/-! ### Changes of several lanes -/

theorem lanesIn_nodup (m : LaneMask) : (lanesIn m).Nodup := by
  have h32 : lanes32.Nodup := by decide
  exact h32.filter _

/-- The lanes of a list changed, each once. -/
theorem Agent.lane_foldl_modLane {ls : List Nat} (hnd : ls.Nodup) (f : Nat → LaneRec → LaneRec) (x : Agent) (l : Nat) :
    (ls.foldl (fun y i => y.modLane i (f i)) x).lane l = if l ∈ ls ∧ l < x.lanes.length then f l (x.lane l) else x.lane l := by
  induction ls generalizing x with
  | nil => simp
  | cons i ls ih =>
    obtain ⟨hi, hnd⟩ := List.nodup_cons.mp hnd
    rw [List.foldl_cons, ih hnd, Agent.lane_modLane, Agent.lanes_length_modLane]
    by_cases hl : l = i
    · subst hl
      simp [hi]
    · simp [hl]

/-- Lane changes change lanes only. -/
theorem Agent.foldl_modLane_eq (ls : List Nat) (f : Nat → LaneRec → LaneRec) (x : Agent) :
    ls.foldl (fun y i => y.modLane i (f i)) x = { x with lanes := (ls.foldl (fun y i => y.modLane i (f i)) x).lanes } :=
  foldl_keeps (fun y : Agent => y = { x with lanes := y.lanes }) (fun y i => y.modLane i (f i)) ls (fun y i _ h => by rw [h]; rfl) x rfl

theorem maskOf_ne_zero {ls : List Nat} (h32 : ∀ l ∈ ls, l < 32) (p : Nat → Bool) : maskOf ls p ≠ 0 ↔ ∃ l ∈ ls, p l = true := by
  refine ⟨fun h => ?_, fun ⟨l, hl, hp⟩ h => ?_⟩
  · by_contra hno
    refine h (BitVec.eq_of_getLsbD_eq fun j _ => ?_)
    rw [getLsbD_maskOf h32]
    simp only [BitVec.ofNat_eq_ofNat, BitVec.getLsbD_zero, Bool.and_eq_false_iff, decide_eq_false_iff_not]
    by_cases hj : j ∈ ls
    · exact .inr (Bool.eq_false_iff.mpr fun hp => hno ⟨j, hj, hp⟩)
    · exact .inl hj
  · have hbit := getLsbD_maskOf h32 p l
    rw [h, hp, decide_eq_true hl] at hbit
    simp at hbit

/-- A due beat whose body changes the lanes that perform, and other agents, teams and memory as it may. -/
theorem Due.lanes_left {i : Instr} {f : Fields} {s u : State} {b : Beat} (h : Due i f s b) (whole : Bool) (g : Nat → LaneRec → LaneRec)
    (hf : u.flaws = []) (hu : u.agent b.a = some ((lanesIn b.perf).foldl (fun y i => y.modLane i (g i)) b.begunAgent)) :
    ∃ y, ((s.waited b.a).conclude b whole (.done u)).agent b.a = some y ∧ y.regs = b.x.regs ∧ ∀ l, l < b.x.lanes.length → y.lane l =
      if b.perf.getLsbD l then g l { b.x.lane l with w := b.x.p + 1 }
      else if b.act.getLsbD l then { b.x.lane l with w := b.x.p + 1 } else b.x.lane l := by
  have heq := Agent.foldl_modLane_eq (lanesIn b.perf) g b.begunAgent
  have hissue : ((lanesIn b.perf).foldl (fun y i => y.modLane i (g i)) b.begunAgent).issue ≠ .barrier := by
    rw [heq, show (_ : Agent).issue = b.begunAgent.issue from rfl, (congrArg Agent.issue b.begunAgent_eq).trans h.issue]
    nofun
  obtain ⟨y, hy, hregs, hlanes, -⟩ := State.done_agent (s := s.waited b.a) hf hu hissue whole
  refine ⟨y, hy, (hregs.trans (by rw [heq]; rfl)).trans b.begunAgent_regs, fun l hl => ?_⟩
  have hlane : y.lane l = ((lanesIn b.perf).foldl (fun y i => y.modLane i (g i)) b.begunAgent).lane l := by rw [Agent.lane, Agent.lane, hlanes]
  rw [hlane, Agent.lane_foldl_modLane (lanesIn_nodup _), b.begunAgent_lanes_length, b.begunAgent_lane hl]
  by_cases hp : b.perf.getLsbD l = true
  · rw [if_pos ⟨mem_lanesIn.mpr hp, hl⟩, if_pos hp, if_pos (h.perf_sub l hp)]
  · rw [if_neg fun hh => hp (mem_lanesIn.mp hh.1), if_neg hp]

/-- A due beat whose body changes the lanes that perform. -/
theorem Due.lanes_done {i : Instr} {f : Fields} {s : State} {b : Beat} (h : Due i f s b) (whole : Bool) (g : Nat → LaneRec → LaneRec) :
    ∃ y, ((s.waited b.a).conclude b whole (.done ((s.begun b).modLanes b.a (lanesIn b.perf) g))).agent b.a = some y ∧ y.regs = b.x.regs ∧
      ∀ l, l < b.x.lanes.length → y.lane l =
        if b.perf.getLsbD l then g l { b.x.lane l with w := b.x.p + 1 }
        else if b.act.getLsbD l then { b.x.lane l with w := b.x.p + 1 } else b.x.lane l :=
  h.lanes_left (u := (s.begun b).modLanes b.a (lanesIn b.perf) g) whole g h.clean
    (h.begun_modAgent fun x => (lanesIn b.perf).foldl (fun y i => y.modLane i (g i)) x)

/-- A due beat whose body does nothing. -/
theorem Due.begun_done {i : Instr} {f : Fields} {s : State} {b : Beat} (h : Due i f s b) (whole : Bool) :
    ∃ y, ((s.waited b.a).conclude b whole (.done (s.begun b))).agent b.a = some y ∧ y.regs = b.x.regs ∧ (wantsAfter b y fun _ => b.x.p + 1) ∧
      ∀ c, ((s.waited b.a).conclude b whole (.done (s.begun b))).regsOf c = s.regsOf c := by
  have hissue : b.begunAgent.issue ≠ .barrier := by
    rw [(congrArg Agent.issue b.begunAgent_eq).trans h.issue]
    nofun
  obtain ⟨y, hy, hregs, hlanes, hall⟩ := State.done_agent (s := s.waited b.a) (u := s.begun b) h.clean h.begun_agent hissue whole
  exact ⟨y, hy, hregs.trans b.begunAgent_regs, b.wantsAfter_next hlanes, fun c => (hall c).trans (s.begun_regsOf b c)⟩

theorem exec_j (f : Fields) (s : State) : exec (.j f) s = execJ f s := rfl
theorem exec_jr (f : Fields) (s : State) : exec (.jr f) s = execJr f s := rfl
theorem exec_call (f : Fields) (s : State) : exec (.call f) s = execCall f s := rfl
theorem exec_callr (f : Fields) (s : State) : exec (.callr f) s = execCallr f s := rfl
theorem exec_ret (f : Fields) (s : State) : exec (.ret f) s = execRet f s := rfl

theorem State.modLanes_nil (s : State) (a : AgentId) (g : Nat → LaneRec → LaneRec) : s.modLanes a [] g = s := s.modAgent_id a

theorem badTargets_ne_zero (b : Beat) : badTargets b ≠ 0 ↔ ∃ l ∈ lanesIn b.perf, 2 ^ 28 ≤ (targetVal b l).toNat := by
  rw [badTargets, maskOf_ne_zero fun _ => lt_of_mem_lanesIn]
  simp only [decide_eq_true_eq, ge_iff_le]

theorem badTargets_eq_zero {b : Beat} (h : ∀ l ∈ lanesIn b.perf, (targetVal b l).toNat < 2 ^ 28) : badTargets b = 0 := by
  by_contra hne
  obtain ⟨l, hl, hge⟩ := (badTargets_ne_zero b).mp hne
  exact absurd (h l hl) (by omega)

theorem wantsAfter_congr {b : Beat} {y : Agent} {want want' : Nat → Label} (h : wantsAfter b y want) (he : ∀ l, want l = want' l) : wantsAfter b y want' := by
  rwa [← show want = want' from funext he]

/-- A due beat whose body sends the lanes that perform to labels. -/
theorem Due.lanes_want {i : Instr} {f : Fields} {s : State} {b : Beat} (h : Due i f s b) (whole : Bool) (c : Nat → Label) :
    ∃ y, ((s.waited b.a).conclude b whole (.done ((s.begun b).modLanes b.a (lanesIn b.perf) fun i l => { l with w := c i }))).agent b.a = some y ∧
      y.regs = b.x.regs ∧ wantsAfter b y fun l => if b.perf.getLsbD l then c l else b.x.p + 1 := by
  obtain ⟨y, hy, hregs, hl⟩ := h.lanes_done whole fun i l => { l with w := c i }
  refine ⟨y, hy, hregs, fun l hlt => ?_⟩
  rw [hl l hlt]
  dsimp only
  by_cases hp : b.perf.getLsbD l = true
  · rw [if_pos hp, if_pos (h.perf_sub l hp), if_pos hp]
  · rw [if_neg hp, if_neg hp]

theorem jumpsGo_holds : jumpsGo := by
  refine ⟨fun f s b h => ?_, fun f s b h hok => ?_, fun f s b h hbad hk => ?_⟩
  · let taken := decide (f.fn = 0) || (decide (f.fn = 1) && decide (targetVal b 0 ≠ 0)) || (decide (f.fn = 2) && decide (targetVal b 0 = 0))
    have htaken : taken = true ↔ f.fn = 0 ∨ (f.fn = 1 ∧ targetVal b 0 ≠ 0) ∨ (f.fn = 2 ∧ targetVal b 0 = 0) := by
      simp only [taken, Bool.or_eq_true, Bool.and_eq_true, decide_eq_true_eq, or_assoc]
    by_cases ht : taken = true
    · obtain ⟨y, hy, -, hl⟩ := h.lanes_want (shapeOf (.j f) f).whole fun _ => immTarget f
      refine ⟨_, y, ?_, hy, wantsAfter_congr hl fun l => if_congr ?_ rfl rfl⟩
      · rw [exec_j, execJ, issueBeat_due h]
        exact congrArg (fun o => Host.Outcome.next ((s.waited b.a).conclude b (shapeOf (.j f) f).whole o)) (if_pos ht)
      · exact (and_iff_left (htaken.mp ht)).symm
    · obtain ⟨y, hy, -, hl, -⟩ := h.begun_done (shapeOf (.j f) f).whole
      refine ⟨_, y, ?_, hy, wantsAfter_congr hl fun l => (if_neg fun hh => ht (htaken.mpr hh.2)).symm⟩
      rw [exec_j, execJ, issueBeat_due h]
      exact congrArg (fun o => Host.Outcome.next ((s.waited b.a).conclude b (shapeOf (.j f) f).whole o)) (if_neg ht)
  · obtain ⟨y, hy, -, hl⟩ := h.lanes_want (shapeOf (.jr f) f).whole fun i => (targetVal b i).setWidth 28
    refine ⟨_, y, ?_, hy, hl⟩
    rw [exec_jr, execJr, issueBeat_due h]
    exact congrArg (fun o => Host.Outcome.next ((s.waited b.a).conclude b (shapeOf (.jr f) f).whole o))
      (if_neg fun hne => hne (badTargets_eq_zero hok))
  · obtain ⟨t, hnext, hstop⟩ := h.faulted hk (r := beatFault 0x08 (badTargets b) 0 false) (body := fun b s1 =>
        if badTargets b ≠ 0 then .fault (beatFault 0x08 (badTargets b) 0 false)
        else .done (s1.modLanes b.a (lanesIn b.perf) fun i l => { l with w := (targetVal b i).setWidth 28 }))
      (show (0x08 : Byte) ≠ 0x18 by decide) (if_pos ((badTargets_ne_zero b).mpr hbad))
    refine ⟨t, hnext, fun y hy => ?_⟩
    obtain ⟨h1, -, h3, h4⟩ := hstop y hy
    exact ⟨h1, h3, h4.trans (by cases hu : f.uni <;> simp [shapeOf, beatFault, hu])⟩

/-! ### Calls and returns -/

theorem seqTry_congr {s s' : State} (h : s.SameMap s') (t : Team) (who lane off : Nat) (w : Bool) : seqTry s' t who lane off w = seqTry s t who lane off w := by
  simp only [seqTry, h.ctx, h.walk, h.leafPlace, h.reaches]

theorem firstBad_congr {s s' : State} (h : s.SameMap s') (t : Team) (who : Nat) (l : List (Nat × Nat × Bool)) :
    firstBad s' t who l = firstBad s t who l := by
  induction l with
  | nil => rfl
  | cons e l ih =>
    obtain ⟨lane, off, wr⟩ := e
    simp only [firstBad, seqTry_congr h, ih]

theorem seqRead_congr {s s' : State} (h : s.SameMap s') (hseq : s'.beatSeq = s.beatSeq) (t : Team) (who lane off : Nat) :
    seqRead s' t who lane off = seqRead s t who lane off := by
  simp only [seqRead, seqPlace_congr h rfl, h.readNat, hseq]

/-- The links of a lane after a call: its lowest held link makes room where it holds eight (R66). -/
def Beat.calledLinks (b : Beat) (i : Nat) (m : Tbl Label) : Tbl Label :=
  let l := b.x.lane i
  if b.x.isGroup && decide (l.link.length ≥ 8) then Tbl.ins (Tbl.del m (lowestLink l.link)) l.d.toNat (b.x.p + 1)
  else Tbl.ins m l.d.toNat (b.x.p + 1)

theorem Beat.find?_calledLinks (b : Beat) (i : Nat) (m : Tbl Label) : Tbl.find? (b.calledLinks i m) (b.x.lane i).d.toNat = some (b.x.p + 1) := by
  unfold Beat.calledLinks
  dsimp only
  split
  · exact Tbl.find?_ins_same ..
  · exact Tbl.find?_ins_same ..

/-- A lane after a call. -/
def Beat.calledLane (b : Beat) (target : Nat → Label) (i : Nat) (l : LaneRec) : LaneRec :=
  { l with w := target i, link := b.calledLinks i l.link, d := l.d + 1 }

theorem Agent.modLane_modLane (x : Agent) (i : Nat) (f g : LaneRec → LaneRec) : (x.modLane i f).modLane i g = x.modLane i fun l => g (f l) := by
  simp only [Agent.modLane, modNth_eq, List.modify_modify_eq]
  rfl

theorem State.modLanes_one (s : State) (a : AgentId) (i : Nat) (g : Nat → LaneRec → LaneRec) : s.modLanes a [i] g = s.modAgent a fun x => x.modLane i (g i) := rfl

/-- One lane's call. -/
theorem call_lane (u : State) (b : Beat) (target : Nat → Label) (i : Nat) :
    let v := (pushLink u b i).modLanes b.a [i] fun _ l => { l with w := target i }
    v.agent b.a = (u.agent b.a).map (fun x => x.modLane i (b.calledLane target i)) ∧ u.Clean v := by
  intro v
  have hpush : ∃ w : State, w.teams = u.teams ∧ u.Clean w ∧
      pushLink u b i = w.modAgent b.a fun x => x.modLane i fun l => { l with link := b.calledLinks i l.link, d := l.d + 1 } := by
    unfold pushLink Beat.calledLinks
    dsimp only
    split
    · obtain ⟨h1, h2⟩ := seqWrite_teams u b.t b.a.who i (4 * lowestLink (b.x.lane i).link) ((Tbl.find? (b.x.lane i).link (lowestLink (b.x.lane i).link)).getD 0)
      exact ⟨_, h1, h2, rfl⟩
    · exact ⟨u, rfl, id, rfl⟩
  obtain ⟨w, hw, hclean, hp⟩ := hpush
  refine ⟨?_, fun hf => ?_⟩
  · unfold v
    rw [State.modLanes_one, hp, State.agent_modAgent_same, State.agent_modAgent_same, State.agent_congr hw, Option.map_map]
    congr 1
    funext x
    exact Agent.modLane_modLane ..
  · unfold v
    rw [hp]
    exact hclean hf

/-- The calls of some lanes. -/
theorem call_lanes (b : Beat) (target : Nat → Label) (ls : List Nat) (u : State) {x : Agent} (hx : u.agent b.a = some x) (hf : u.flaws = []) :
    let v := ls.foldl (fun u i => (pushLink u b i).modLanes b.a [i] fun _ l => { l with w := target i }) u
    v.agent b.a = some (ls.foldl (fun y i => y.modLane i (b.calledLane target i)) x) ∧ v.flaws = [] := by
  induction ls generalizing u x with
  | nil => exact ⟨hx, hf⟩
  | cons i ls ih =>
    obtain ⟨h1, h2⟩ := call_lane u b target i
    rw [hx] at h1
    exact ih _ h1 (h2 hf)

/-- The calls of a beat whose links fit and translate. -/
theorem callBody_done {i : Instr} {f : Fields} {s : State} {b : Beat} (h : Due i f s b) (target : Beat → Nat → Label) (whole : Bool)
    (hd : ∀ l ∈ lanesIn b.perf, (b.x.lane l).d ≠ 255) (hbad : firstBad s b.t b.a.who (callSpills b) = none) :
    ∃ y, ((s.waited b.a).conclude b whole (callBody target b (s.begun b))).agent b.a = some y ∧ ∀ l, l < b.x.lanes.length →
      (b.perf.getLsbD l = true → (y.lane l).w = target b l ∧ (y.lane l).d = (b.x.lane l).d + 1 ∧ (y.lane l).s = (b.x.lane l).s ∧
        Tbl.find? (y.lane l).link (b.x.lane l).d.toNat = some (b.x.p + 1)) ∧
      (b.perf.getLsbD l = false → y.lane l = if b.act.getLsbD l then { b.x.lane l with w := b.x.p + 1 } else b.x.lane l) := by
  have hdeep : maskOf (lanesIn b.perf) (fun i => decide ((b.x.lane i).d = 255)) = 0 := by
    by_contra hne
    obtain ⟨l, hl, hp⟩ := (maskOf_ne_zero (fun _ => lt_of_mem_lanesIn) _).mp hne
    exact hd l hl (of_decide_eq_true hp)
  obtain ⟨hv, hvf⟩ := call_lanes b (target b) (lanesIn b.perf) (s.begun b) h.begun_agent h.clean
  have hbody : callBody target b (s.begun b) = .done ((lanesIn b.perf).foldl
      (fun u i => (pushLink u b i).modLanes b.a [i] fun _ l => { l with w := target b i }) (s.begun b)) := by
    unfold callBody
    rw [firstBad_congr (s.sameMap_begun b), hbad, hdeep]
    rfl
  rw [hbody]
  obtain ⟨y, hy, -, hl⟩ := h.lanes_left whole (b.calledLane (target b)) hvf hv
  refine ⟨y, hy, fun l hlt => ⟨fun hp => ?_, fun hp => ?_⟩⟩
  · rw [hl l hlt, if_pos hp]
    exact ⟨rfl, rfl, rfl, b.find?_calledLinks ..⟩
  · rw [hl l hlt, hp, if_neg Bool.false_ne_true]

theorem callBody_deep {s : State} {b : Beat} (target : Beat → Nat → Label)
    (hd : ∃ l ∈ lanesIn b.perf, (b.x.lane l).d = 255) : ∃ deep, callBody target b s = .fault (beatFault 0x0C deep 0 false) := by
  obtain ⟨l, hl, h255⟩ := hd
  exact ⟨_, if_pos ((maskOf_ne_zero (fun _ => lt_of_mem_lanesIn) _).mpr ⟨l, hl, decide_eq_true h255⟩)⟩

/-- A due beat whose body faults without its lanes. -/
theorem Due.deep_fault {i : Instr} {f : Fields} {s : State} {b : Beat} (h : Due i f s b) (hk : b.x.kind ≠ .privileged) {body : Beat → State → Out}
    {m : LaneMask} (hb : body b (s.begun b) = .fault (beatFault 0x0C m 0 false)) :
    ∃ t, issueBeat i f s body = .next t ∧ ∀ y, t.agent b.a = some y → y.stoppedAs 0x0C .beat ∧ y.lanes = b.x.lanes := by
  obtain ⟨t, hnext, hstop⟩ := h.faulted hk (r := beatFault 0x0C m 0 false) (show (0x0C : Byte) ≠ 0x18 by decide) hb
  exact ⟨t, hnext, fun y hy => ⟨(hstop y hy).1, (hstop y hy).2.2.1⟩⟩

theorem popLink_congr {s s' : State} (h : s.SameMap s') (hseq : s'.beatSeq = s.beatSeq) (b : Beat) (i : Nat) : popLink s' b i = popLink s b i := by
  simp only [popLink, seqRead_congr h hseq]

/-- The returns of a beat whose links are there. -/
theorem ret_done {f : Fields} {s : State} {b : Beat} (h : Due (.ret f) f s b) (hd : ∀ l ∈ lanesIn b.perf, (b.x.lane l).d ≠ 0)
    (hbad : firstBad s b.t b.a.who (retFills b) = none) :
    exec (.ret f) s = .next ((s.waited b.a).conclude b (shapeOf (.ret f) f).whole (.done ((s.begun b).modLanes b.a (lanesIn b.perf) fun i l =>
      { l with w := popLink s b i, d := l.d - 1, link := Tbl.del l.link (l.d.toNat - 1) }))) := by
  have htop : maskOf (lanesIn b.perf) (fun i => decide ((b.x.lane i).d = 0)) = 0 := by
    by_contra hne
    obtain ⟨l, hl, hp⟩ := (maskOf_ne_zero (fun _ => lt_of_mem_lanesIn) _).mp hne
    exact hd l hl (of_decide_eq_true hp)
  rw [exec_ret, execRet, issueBeat_due h]
  simp only [htop, firstBad_congr (s.sameMap_begun b), hbad, popLink_congr (s.sameMap_begun b) rfl, ne_eq, not_true_eq_false, if_false]

theorem callsGo_holds : callsGo := by
  refine ⟨fun i f s b target hi h => ⟨fun hd hbad => ?_, fun hd hk => ?_⟩, fun f s b h => ⟨fun hd hbad => ?_, fun hd hk => ?_⟩⟩
  · rcases hi with ⟨rfl, rfl⟩ | ⟨rfl, rfl, hok⟩
    · obtain ⟨y, hy, hl⟩ := callBody_done h (fun _ _ => immTarget f) (shapeOf (.call f) f).whole hd hbad
      exact ⟨_, y, by rw [exec_call, execCall, issueBeat_due h], hy, hl⟩
    · obtain ⟨y, hy, hl⟩ := callBody_done h (fun b i => (targetVal b i).setWidth 28) (shapeOf (.callr f) f).whole hd hbad
      refine ⟨_, y, ?_, hy, hl⟩
      rw [exec_callr, execCallr, issueBeat_due h]
      exact congrArg (fun o => Host.Outcome.next ((s.waited b.a).conclude b (shapeOf (.callr f) f).whole o))
        (if_neg fun hne => hne (badTargets_eq_zero hok))
  · rcases hi with ⟨rfl, rfl⟩ | ⟨rfl, rfl, hok⟩
    · obtain ⟨deep, hdeep⟩ := callBody_deep (s := s.begun b) (fun _ _ => immTarget f) hd
      exact h.deep_fault hk hdeep
    · obtain ⟨deep, hdeep⟩ := callBody_deep (s := s.begun b) (fun b i => (targetVal b i).setWidth 28) hd
      exact h.deep_fault hk (body := fun b s1 => if badTargets b ≠ 0 then .fault (beatFault 0x08 (badTargets b) 0 false)
        else callBody (fun b i => (targetVal b i).setWidth 28) b s1) ((if_neg fun hne => hne (badTargets_eq_zero hok)).trans hdeep)
  · obtain ⟨y, hy, -, hl⟩ := h.lanes_done (shapeOf (.ret f) f).whole fun i l =>
      { l with w := popLink s b i, d := l.d - 1, link := Tbl.del l.link (l.d.toNat - 1) }
    refine ⟨_, y, ret_done h hd hbad, hy, fun l hlt => ⟨fun hp => ?_, fun hp => ?_⟩⟩
    · rw [hl l hlt, if_pos hp]
      refine ⟨rfl, rfl, ?_⟩
      simp only [popLink, Agent.isGroup, decide_eq_true_eq] <;> rfl
    · rw [hl l hlt, hp, if_neg Bool.false_ne_true]
  · obtain ⟨l, hl, h0⟩ := hd
    exact h.deep_fault hk (body := fun b s1 =>
      let top := maskOf (lanesIn b.perf) fun i => decide ((b.x.lane i).d = 0)
      if top ≠ 0 then .fault (beatFault 0x0C top 0 false)
      else match firstBad s1 b.t b.a.who (retFills b) with
        | some (lane, bad) => seqFault lane false bad
        | none => .done (s1.modLanes b.a (lanesIn b.perf) fun i l =>
            { l with w := popLink s1 b i, d := l.d - 1, link := Tbl.del l.link (l.d.toNat - 1) }))
      (if_pos ((maskOf_ne_zero (fun _ => lt_of_mem_lanesIn) _).mpr ⟨l, hl, decide_eq_true h0⟩))

/-- Settles O27, form by form. -/
theorem controlFlow : Obligations.ControlFlow := ⟨jumpsGo_holds, callsGo_holds⟩

end Sys2Proof.Machine
end

section
/-! EXIT, NOP, WTOK and YIELD, TRAP and BRK (R16, R67, R82 to R85, R92). -/

namespace Sys2Proof.Machine

/-! ### The end of a team -/

/-- Every agent is as before, every team still stands, no control thread that had gone is back, and no rank is given. -/
structure State.Calm (s t : State) : Prop where
  rankSeq : t.rankSeq = s.rankSeq
  agents : ∀ c, t.agent c = s.agent c
  teams : ∀ n u, s.team n = some u → ∃ v, t.team n = some v ∧ (u.ctlGone = true → v.ctlGone = true)

theorem State.Calm.refl (s : State) : s.Calm s := ⟨rfl, fun _ => rfl, fun _ u h => ⟨u, h, id⟩⟩
theorem State.Calm.trans {s t u : State} (h : s.Calm t) (k : t.Calm u) : s.Calm u :=
  ⟨k.rankSeq.trans h.rankSeq, fun c => (k.agents c).trans (h.agents c), fun n x hx => by
    obtain ⟨y, hy, hxy⟩ := h.teams n x hx
    obtain ⟨z, hz, hyz⟩ := k.teams n y hy
    exact ⟨z, hz, hyz ∘ hxy⟩⟩
theorem State.Calm.of_teams {s t : State} (h : t.teams = s.teams) (hr : t.rankSeq = s.rankSeq) : s.Calm t :=
  ⟨hr, fun c => State.agent_congr h c, fun n u hu => ⟨u, by rw [State.team, h]; exact hu, id⟩⟩

theorem State.calm_modTeam (s : State) (n : Nat) {f : Team → Team} (hf : ∀ t, (f t).agents = t.agents ∧ (t.ctlGone = true → (f t).ctlGone = true)) :
    s.Calm (s.modTeam n f) := by
  refine ⟨rfl, State.agent_modTeam_keep s n f fun t => (hf t).1, fun k u hu => ?_⟩
  rw [State.team_modTeam, hu]
  split
  · exact ⟨f u, rfl, (hf u).2⟩
  · exact ⟨u, rfl, id⟩

theorem Team.flushEvents_ctlGone (n : Nat) (t : Team) : (t.flushEvents n).ctlGone = t.ctlGone := by
  induction n generalizing t with
  | zero => rfl
  | succ n ih =>
    unfold Team.flushEvents
    split
    · rfl
    · split
      · exact ih _
      · rfl

theorem Team.pushEvent_ctlGone (t : Team) (w : W64) (bs : List Byte) : (t.pushEvent w bs).ctlGone = t.ctlGone := by
  unfold Team.pushEvent Team.flush
  rw [Team.flushEvents_ctlGone]
  rfl

theorem State.postEvent_calm (s : State) (team k e : Nat) (q : W32) (d : Nat) : s.Calm (s.postEvent team k e q d) :=
  s.calm_modTeam team fun t => by
    split
    · exact ⟨rfl, id⟩
    · exact ⟨Team.pushEvent_agents _ _ _, fun h => (Team.pushEvent_ctlGone ..).trans h⟩

theorem foldl_calm {α : Type} (f : State → α → State) (h : ∀ u e, State.Calm u (f u e)) (l : List α) (s : State) : s.Calm (l.foldl f s) :=
  foldl_keeps (fun u : State => s.Calm u) f l (fun u e _ hu => hu.trans (h u e)) s (.refl s)

theorem discardCopies_calm (s : State) (team : Nat) : s.Calm (discardCopies s team) := by
  unfold discardCopies
  split
  · exact .refl s
  · refine foldl_calm _ (fun u e => ?_) _ s
    split
    · refine State.Calm.trans ?_ (State.postEvent_calm ..)
      refine State.Calm.trans (u.calm_modTeam team ?_) (foldl_calm _ (fun v l => ?_) _ _)
      · exact fun t => ⟨rfl, id⟩
      split
      · exact v.calm_modTeam _ fun t => ⟨rfl, id⟩
      · exact .refl v
    · exact .refl u

theorem State.dropMons_rankSeq (s : State) (gone : Mon → Bool) : (s.dropMons gone).rankSeq = s.rankSeq :=
  (congrArg State.rankSeq (s.dropMons_still gone) : (s.dropMons gone).still.rankSeq = s.still.rankSeq)

/-- The end of a team leaves the agents, and its control thread is gone (R67, R83). -/
theorem State.teamEnd_calm (s : State) (team : Nat) :
    s.Calm (s.teamEnd team) ∧ ∀ t, s.team team = some t → ∃ v, (s.teamEnd team).team team = some v ∧ v.ctlGone = true := by
  unfold State.teamEnd
  split
  · rename_i h
    exact ⟨.refl s, fun t ht => by rw [h] at ht; cases ht⟩
  · rename_i t ht
    extract_lets s1 s2 s3 s4
    have h3 : s.Calm s3 := (discardCopies_calm s team).trans (.of_teams (State.dropMons_teams ..).1 (State.dropMons_rankSeq ..))
    have h4 : s.Calm s4 := h3.trans (s3.calm_modTeam team fun t => by split <;> exact ⟨rfl, fun _ => rfl⟩)
    refine ⟨h4.trans (.of_teams rfl rfl), fun u hu => ?_⟩
    obtain ⟨v, hv, -⟩ := h3.teams team u hu
    refine ⟨_, (State.team_modTeam_same ..).trans (congrArg (Option.map _) hv), ?_⟩
    dsimp only
    split <;> rfl

/-- What an index's census brings about leaves an agent that waits in no barrier, and a control thread that has gone. -/
theorem State.settle_calm {s : State} (hf : s.flaws = []) {a : AgentId} {x : Agent} (hx : s.agent a = some x) (hi : x.issue ≠ .barrier) :
    (s.settle a.team).agent a = some x ∧ (s.settle a.team).rankSeq = s.rankSeq ∧
      ∀ u, s.team a.team = some u → u.ctlGone = true → ∃ v, (s.settle a.team).team a.team = some v ∧ v.ctlGone = true := by
  have hrel : (s.releaseBar a.team 16).agent a = some x := by
    rw [State.releaseBar_agent s hf a.team 16 a fun y hy => by rw [← Option.some.inj (hx.symm.trans hy)]; exact hi]
    exact hx
  have hcore : ∀ u, s.team a.team = some u → u.ctlGone = true → ∃ v, (s.releaseBar a.team 16).team a.team = some v ∧ v.ctlGone = true := fun u hu hc => by
    have h := State.team_of_still (State.releaseBar_still hf a.team) a.team
    rw [hu] at h
    obtain ⟨v, hv, hvu⟩ := Option.map_eq_some_iff.mp h
    exact ⟨v, hv, (congrArg Team.ctlGone hvu : v.core.ctlGone = u.core.ctlGone).trans hc⟩
  have hseq : (s.releaseBar a.team 16).rankSeq = s.rankSeq :=
    (congrArg State.rankSeq (State.releaseBar_still hf a.team) : (s.releaseBar a.team 16).still.rankSeq = s.still.rankSeq)
  have hend := s.teamEnd_calm a.team
  have hend' := (s.releaseBar a.team 16).teamEnd_calm a.team
  unfold State.settle
  split
  · exact ⟨hx, rfl, fun u hu hc => ⟨u, hu, hc⟩⟩
  · rename_i t ht
    split
    · exact ⟨hx, rfl, fun u hu hc => ⟨u, hu, hc⟩⟩
    · split
      · exact ⟨(hend.1.agents a).trans hx, hend.1.rankSeq, fun u hu _ => hend.2 u hu⟩
      · split
        · dsimp only
          split
          · rename_i t1 ht1
            split
            · exact ⟨(hend'.1.agents a).trans hrel, hend'.1.rankSeq.trans hseq, fun u hu _ => hend'.2 t1 ht1⟩
            · exact ⟨hrel, hseq, hcore⟩
          · exact ⟨hrel, hseq, hcore⟩
        · exact ⟨hx, rfl, fun u hu hc => ⟨u, hu, hc⟩⟩

/-! ### The census of an agent whose lanes have all ended -/

/-- The census that finds every lane DONE ends the agent (R67). -/
theorem State.census_ended {s : State} (hf : s.flaws = []) {a : AgentId} {x : Agent} (hx : s.agent a = some x) (hr : x.runLanes = [])
    (hd : x.allDone = true) (frm : Nat) : ∃ y, (s.census a frm).agent a = some y ∧ y.issue = .ended := by
  obtain ⟨t, ht⟩ : ∃ t, s.team a.team = some t := by
    unfold State.agent at hx
    cases ht : s.team a.team with
    | none => simp [ht] at hx
    | some t => exact ⟨t, rfl⟩
  have hkeep := ((s.applyAcks_keeps a).agent hf a).1
  rw [State.regsOf, State.regsOf, hx] at hkeep
  obtain ⟨z, hz, -⟩ := Option.map_eq_some_iff.mp hkeep
  have hcensus : s.census a frm = s.agentEnded a := by
    unfold State.census
    simp only [ht, hx, hr, hd, if_true]
  rw [hcensus, State.agentEnded, State.agent_modAgent_same, hz]
  exact ⟨_, rfl, rfl⟩

theorem State.nextIndex_ended {s : State} (hf : s.flaws = []) {a : AgentId} {x : Agent} (hx : s.agent a = some x) (hr : x.runLanes = [])
    (hd : x.allDone = true) : ∃ y, (s.nextIndex a).agent a = some y ∧ y.issue = .ended := by
  obtain ⟨y, hy, hi⟩ := State.census_ended hf hx hr hd (x.p.toNat + 1)
  unfold State.nextIndex
  simp only [hx]
  exact ⟨y, (State.settle_calm ((State.census_keeps s a _).clean hf) hy (by rw [hi]; nofun)).1, hi⟩

/-- The last beat of an index after which every lane is DONE. -/
theorem State.conclude_ended {s u : State} {b : Beat} (hf : u.flaws = []) {x : Agent} (hx : u.agent b.a = some x) (hr : x.runLanes = [])
    (hd : x.allDone = true) {whole : Bool} (hw : whole = true ∨ quadsFrom b.x.arr.a (b.quad + 1) = []) :
    ∃ y, (s.conclude b whole (.done u)).agent b.a = some y ∧ y.issue = .ended := by
  obtain ⟨f, hff, hc⟩ := u.countBeat_agent b whole b.a
  rw [if_pos rfl, hx] at hc
  have hlanes : (f x).lanes = x.lanes := (hff x).2.1
  have hquads : (if whole = true then [] else quadsFrom b.x.arr.a (b.quad + 1)) = [] := by
    rcases hw with h | h
    · rw [if_pos h]
    · rw [h, ite_self]
  let g : Agent → Agent := fun x => { x with restart := 0, block := none }
  have hx1 : ((u.countBeat b whole).modAgent b.a g).agent b.a = some (g (f x)) := by
    rw [State.agent_modAgent_same, hc]
    rfl
  have hrun : (g (f x)).runLanes = x.runLanes :=
    congrArg (fun ls : List LaneRec => (lanes32.take ls.length).filter fun i => decide ((ls.getD i default).s = .run)) hlanes
  have hall : (g (f x)).allDone = x.allDone :=
    congrArg (fun ls : List LaneRec => (lanes32.take ls.length).all fun i => decide ((ls.getD i default).s = .done)) hlanes
  obtain ⟨y, hy, hi⟩ := State.nextIndex_ended (s := (u.countBeat b whole).modAgent b.a g) ((u.countBeat_flaws b whole).trans hf) hx1 (hrun.trans hr)
    (hall.trans hd)
  have hpass : u.afterBeat b whole = ((u.countBeat b whole).modAgent b.a g).nextIndex b.a := by
    unfold State.afterBeat State.passBeat
    rw [hquads]
  obtain ⟨h, hh⟩ := State.markHeld_self (hpass ▸ hy)
  exact ⟨_, hh, hi⟩

/-- What follows a beat leaves a control thread that has gone. -/
theorem State.conclude_ctlGone {s u : State} {b : Beat} (hf : u.flaws = []) {x : Agent} (hx : u.agent b.a = some x) (hi : x.issue = .beats) {t : Team}
    (ht : u.team b.a.team = some t) (hc : t.ctlGone = true) (whole : Bool) :
    ∃ v, (s.conclude b whole (.done u)).team b.a.team = some v ∧ v.ctlGone = true := by
  have hcore : ∀ {v w : State}, w.still = v.still → (∃ t, v.team b.a.team = some t ∧ t.ctlGone = true) →
      ∃ t, w.team b.a.team = some t ∧ t.ctlGone = true := fun {v w} hst ⟨t, ht, hc⟩ => by
    have h := State.team_of_still hst b.a.team
    rw [ht] at h
    obtain ⟨t', ht', hcore⟩ := Option.map_eq_some_iff.mp h
    exact ⟨t', ht', (congrArg Team.ctlGone hcore : t'.core.ctlGone = t.core.ctlGone).trans hc⟩
  obtain ⟨v, n, hvs, hvt, hcount⟩ := u.countBeat_eq b whole
  have hcs : (u.countBeat b whole).still = u.still := by rw [hcount, State.modAgent_still, hvs]
  obtain ⟨f, hff, hca⟩ := u.countBeat_agent b whole b.a
  rw [if_pos rfl, hx] at hca
  refine hcore (State.markHeld_still ..) ?_
  show ∃ t, (u.afterBeat b whole).team b.a.team = some t ∧ t.ctlGone = true
  unfold State.afterBeat State.passBeat
  split
  · exact hcore ((State.modAgent_still ..).trans hcs) ⟨t, ht, hc⟩
  · let w := (u.countBeat b whole).modAgent b.a fun x => { x with restart := 0, block := none }
    have hwf : w.flaws = [] := (u.countBeat_flaws b whole).trans hf
    have hwa : w.agent b.a = some { f x with restart := 0, block := none } := by
      rw [State.agent_modAgent_same, hca]
      rfl
    have hwi : ∀ z, w.agent b.a = some z → z.issue ≠ .barrier := fun z hz => by
      rw [← Option.some.inj (hwa.symm.trans hz), show ({ f x with restart := 0, block := none } : Agent).issue = x.issue from (hff x).2.2, hi]
      nofun
    have hcen : (w.census b.a ((f x).p.toNat + 1)).still = u.still :=
      (State.census_still hwf b.a _).trans ((State.modAgent_still ..).trans hcs)
    have hnext : w.nextIndex b.a = (w.census b.a ((f x).p.toNat + 1)).settle b.a.team := by
      unfold State.nextIndex
      simp only [hwa]
    show ∃ t, (w.nextIndex b.a).team b.a.team = some t ∧ t.ctlGone = true
    obtain ⟨t1, ht1, hc1⟩ := hcore hcen ⟨t, ht, hc⟩
    obtain ⟨z, hz⟩ : ∃ z, (w.census b.a ((f x).p.toNat + 1)).agent b.a = some z := by
      have hk := ((State.census_keeps w b.a ((f x).p.toNat + 1)).agent hwf b.a).1
      rw [State.regsOf, State.regsOf, hwa] at hk
      obtain ⟨z, hz, -⟩ := Option.map_eq_some_iff.mp hk
      exact ⟨z, hz⟩
    rw [hnext]
    exact (State.settle_calm ((State.census_keeps w b.a _).clean hwf) hz (State.census_issue w b.a _ hwi z hz)).2.2 t1 ht1 hc1

theorem Agent.lanes_length_foldl (ls : List Nat) (g : Nat → LaneRec → LaneRec) (x : Agent) :
    (ls.foldl (fun y i => y.modLane i (g i)) x).lanes.length = x.lanes.length :=
  foldl_keeps (fun y : Agent => y.lanes.length = x.lanes.length) (fun y i => y.modLane i (g i)) ls
    (fun _ _ _ h => (Agent.lanes_length_modLane ..).trans h) x rfl

/-! ### EXIT (R82, R83) -/

theorem exec_exit (f : Fields) (s : State) : exec (.exit f) s = execExit f s := rfl

/-- A lane that EXIT ends. -/
def Beat.exitedLane (b : Beat) (i : Nat) (l : LaneRec) : LaneRec := { l with w := (b.x.lane i).w, s := .done, d := 0, link := [] }

/-- The state that EXIT's body leaves. -/
def State.exited (s : State) (b : Beat) : State :=
  let s2 := s.modLanes b.a (lanesIn b.perf) b.exitedLane
  if b.x.isGroup || decide (b.perf = 0) then s2 else s2.modTeam b.a.team fun t => { t with ctlGone := true }

theorem exit_next {f : Fields} {s : State} {b : Beat} (h : Due (.exit f) f s b) :
    exec (.exit f) s = .next ((s.waited b.a).conclude b (shapeOf (.exit f) f).whole (.done ((s.begun b).exited b))) := by
  rw [exec_exit, execExit, issueBeat_due h, State.exited]
  dsimp only
  split <;> rfl

theorem exitsEnd_holds : exitsEnd := by
  intro f s b h
  let x1 := (lanesIn b.perf).foldl (fun y i => y.modLane i (b.exitedLane i)) b.begunAgent
  have hlanes : ((s.begun b).modLanes b.a (lanesIn b.perf) b.exitedLane).agent b.a = some x1 := h.begun_modAgent _
  have hu : ((s.begun b).exited b).agent b.a = some x1 := by
    unfold State.exited
    dsimp only
    split
    · exact hlanes
    · refine (State.agent_modTeam_keep _ _ _ ?_ _).trans hlanes
      exact fun _ => rfl
  have huf : ((s.begun b).exited b).flaws = [] := by
    unfold State.exited
    dsimp only
    split <;> exact h.clean
  obtain ⟨y, hy, hregs, hl⟩ := h.lanes_left (shapeOf (.exit f) f).whole b.exitedLane huf hu
  have heq := Agent.foldl_modLane_eq (lanesIn b.perf) b.exitedLane b.begunAgent
  refine ⟨_, y, exit_next h, hy, hregs, hl, fun hw hall => ?_, fun hk hp => ?_⟩
  · have hlen : x1.lanes.length = b.x.lanes.length :=
      (Agent.lanes_length_foldl ..).trans b.begunAgent_lanes_length
    have hdone : ∀ l ∈ x1.laneNos, (x1.lane l).s = .done := fun l hl => by
      have hlt : l < b.x.lanes.length := hlen ▸ (mem_laneNos.mp hl).2
      unfold x1
      rw [Agent.lane_foldl_modLane (lanesIn_nodup _), b.begunAgent_lanes_length]
      split
      · rfl
      · rename_i hno
        rw [b.begunAgent_lane hlt]
        rcases hall l hlt with hp | hd
        · exact absurd ⟨mem_lanesIn.mpr hp, hlt⟩ hno
        · split <;> exact hd
    have hrun : x1.runLanes = [] := List.filter_eq_nil_iff.mpr fun l hl => by rw [hdone l hl]; decide
    have hall : x1.allDone = true := List.all_eq_true.mpr fun l hl => decide_eq_true (hdone l hl)
    obtain ⟨z, hz, hi⟩ := State.conclude_ended (s := s.waited b.a) huf hu hrun hall (whole := (shapeOf (.exit f) f).whole) hw
    rw [Option.some.inj (hy.symm.trans hz)]
    exact hi
  · obtain ⟨t, ht, -⟩ := ((s.begun_fixed b).trans ((s.begun b).fixed_modAgent b.a
      fun x => (lanesIn b.perf).foldl (fun y i => y.modLane i (b.exitedLane i)) x)).team h.team
    have hexit : (s.begun b).exited b = ((s.begun b).modLanes b.a (lanesIn b.perf) b.exitedLane).modTeam b.a.team fun t => { t with ctlGone := true } := by
      unfold State.exited
      dsimp only
      rw [if_neg]
      rw [Agent.isGroup, decide_eq_false hk, decide_eq_false hp]
      decide
    have ht' : ((s.begun b).exited b).team b.a.team = some { t with ctlGone := true } := by
      rw [hexit, State.team_modTeam_same]
      exact congrArg (Option.map _) ht
    have hissue : x1.issue = .beats := by
      unfold x1
      rw [heq]
      exact (congrArg Agent.issue b.begunAgent_eq).trans h.issue
    exact State.conclude_ctlGone huf hu hissue ht' rfl _

end Sys2Proof.Machine
end

section
/-! Accesses that perform and acknowledgements leave all of an agent but its accesses, replies and GWCT (R145, R149, R155). -/

namespace Sys2Proof.Machine

/-- The agent without its accesses, the replies under way and what acknowledgements raise. -/
def Agent.apart (x : Agent) : Agent := { x with ops := [], pend := [], acks := [], gwct := 0 }

/-- Where no line stores an uncorrectable error, none does, and every agent is as before but for its accesses, replies and GWCT. -/
structure State.Apart (s t : State) : Prop where
  clean : s.Clean t
  agents : s.flaws = [] → ∀ c, (t.agent c).map Agent.apart = (s.agent c).map Agent.apart

theorem State.Apart.refl (s : State) : s.Apart s := ⟨id, fun _ _ => rfl⟩
theorem State.Apart.trans {s t u : State} (h : s.Apart t) (k : t.Apart u) : s.Apart u :=
  ⟨k.clean ∘ h.clean, fun hf c => (k.agents (h.clean hf) c).trans (h.agents hf c)⟩
theorem State.Apart.of_teams {s t : State} (h : t.teams = s.teams) (hf : s.Clean t) : s.Apart t := ⟨hf, fun _ c => by rw [State.agent_congr h]⟩
theorem State.SameData.apart {s t : State} (h : s.SameData t) : s.Apart t := .of_teams h.2.1 h.2.2

theorem State.apart_modAgent (s : State) (a : AgentId) {f : Agent → Agent} (hf : ∀ x, (f x).apart = x.apart) : s.Apart (s.modAgent a f) := by
  refine ⟨id, fun _ c => ?_⟩
  rw [State.agent_modAgent]
  split
  · rw [Option.map_map]
    congr 1
    funext x
    exact hf x
  · rfl

theorem State.apart_setAgent {s : State} {a : AgentId} {x y : Agent} (hx : s.agent a = some x) (hy : y.apart = x.apart) : s.Apart (s.setAgent a y) := by
  refine ⟨id, fun _ c => ?_⟩
  by_cases hc : c = a
  · subst hc
    rw [State.agent_setAgent_self hx, hx]
    exact congrArg some hy
  · rw [State.setAgent, State.agent_modAgent, if_neg hc]

theorem foldl_apart {α : Type} (s : State) (l : List α) (f : State → α → State) (h : ∀ (u : State) (e : α), u.Apart (f u e)) : s.Apart (l.foldl f s) :=
  foldl_keeps (fun u : State => s.Apart u) f l (fun u e _ hu => hu.trans (h u e)) s (.refl s)

theorem State.opDone_apart (s : State) (a : AgentId) (n : Nat) (f : Agent → Agent) (hf : ∀ x, (f x).apart = x.apart) : s.Apart (s.opDone a n f) :=
  s.apart_modAgent a fun x => (hf { x with ops := Tbl.del x.ops n }).trans rfl

theorem State.stored_apart (s : State) (q : Perf) (n : Nat) (o : MemOp) (bs : List Byte) (near : Bool) (c : Option Nat) :
    s.Apart (s.stored q n o bs near c) := by
  unfold State.stored
  extract_lets chip vline s1
  clear_value chip
  have h1 : s.Apart s1 := s.opDone_apart _ _ _ fun _ => rfl
  split
  · split
    · exact h1.trans (.of_teams rfl id)
    · exact h1
  · refine s.opDone_apart _ _ _ ?_
    exact fun _ => rfl

theorem State.storePerforms_apart (s : State) (q : Perf) (n : Nat) (o : MemOp) (bs : List Byte) : s.Apart (s.storePerforms q n o bs) :=
  (State.Apart.of_teams (State.writeWith_keeps ..).1 (State.writeWith_keeps ..).2).trans (State.stored_apart ..)

theorem State.performs_apart (s : State) (q : Perf) (n : Nat) (o : MemOp) : s.Apart (s.performs q n o) := by
  unfold State.performs
  cases o.kind with
  | load size reply off =>
    simp only [State.loadPerforms]
    split
    · exact .refl s
    · refine (s.readBy_same ..).apart.trans (State.opDone_apart _ _ _ _ ?_)
      exact fun _ => rfl
  | store bs => exact s.storePerforms_apart q n o bs
  | zero => exact (State.Apart.of_teams (s.zeroed_same ..).1 (s.zeroed_same ..).2).trans (State.stored_apart ..)
  | atomic fn ty rm cas v reply =>
    have h1 : s.Apart (s.rmw q o ty (atomicStores fn ty rm cas v)).2.2.2.2 := .of_teams (s.rmw_teams ..).1 (s.rmw_teams ..).2
    simp only [State.atomicPerforms]
    split
    · refine h1.trans (State.opDone_apart _ _ _ _ ?_)
      exact fun _ => rfl
    · exact h1.trans (State.stored_apart ..)
  | replayed ty new =>
    simp only [State.replayPerforms]
    split
    · exact s.storePerforms_apart ..
    · exact s.opDone_apart _ _ _ fun _ => rfl

theorem State.performsAt_apart (s : State) (q : Perf) (n : Nat) (o : MemOp) : s.Apart (s.performsAt q n o) :=
  ⟨fun h => by rw [State.performsAt_clean h]; exact (s.performs_apart q n o).clean h,
   fun h => by rw [State.performsAt_clean h]; exact (s.performs_apart q n o).agents h⟩

theorem State.access_apart (s : State) (a : AgentId) (n : Nat) : s.Apart (s.access a n) := by
  unfold State.access
  split
  · split
    · split
      · refine (foldl_apart s _ _ fun u e => u.performsAt_apart _ _ _).trans (State.apart_modAgent _ _ ?_)
        exact fun _ => rfl
      · exact .refl s
    · exact .refl s
  · exact .refl s

theorem State.accessAll_apart (s : State) (a : AgentId) : s.Apart (s.accessAll a) := by
  unfold State.accessAll
  split
  · exact .refl s
  · exact foldl_apart s _ _ fun u n => u.access_apart a n

theorem State.applyAck_apart (s : State) (a : AgentId) (n : Nat) : s.Apart (s.applyAck a n) := by
  unfold State.applyAck
  split
  · rename_i t x ht hx
    split
    · exact .refl s
    · rename_i k hk
      have h1 : s.Apart (s.setAgent a { x with acks := Tbl.del x.acks n, gwct := max x.gwct k.c }) := State.apart_setAgent hx rfl
      dsimp only
      split
      · exact h1.trans (.of_teams rfl id)
      · exact h1
  · exact .refl s

theorem State.applyAcks_apart (s : State) (a : AgentId) : s.Apart (s.applyAcks a) := by
  unfold State.applyAcks
  dsimp only
  split
  · exact s.accessAll_apart a
  · exact (s.accessAll_apart a).trans (foldl_apart _ _ _ fun u n => u.applyAck_apart a n)

/-- What is left of an agent in an apart state. -/
theorem State.Apart.agent {s t : State} (h : s.Apart t) (hf : s.flaws = []) {a : AgentId} {x : Agent} (hx : s.agent a = some x) :
    ∃ y, t.agent a = some y ∧ y.apart = x.apart := by
  have hc := h.agents hf a
  rw [hx] at hc
  exact Option.map_eq_some_iff.mp hc

/-! ### The end of any beat that is done -/

/-- The agent without what the sweep, its rail and accesses change. -/
def Agent.placid (x : Agent) : Agent := { x.core.apart with rail := 0 }

theorem setFrame_core {s : State} {a : AgentId} {z : Agent} (hz : s.agent a = some z) (t : Team) (x : Agent) (d : Nat) (l : Label) :
    ∃ y, (setFrame s a t x d l).agent a = some y ∧ y.core = x.core := setFrame_agent s a t x d l hz

/-- The census leaves all else of its agent. -/
theorem State.census_placid {s : State} (hf : s.flaws = []) {a : AgentId} {x : Agent} (hx : s.agent a = some x) (frm : Nat) :
    ∃ y, (s.census a frm).agent a = some y ∧ y.placid = x.placid := by
  have hset : ∀ z : Agent, (s.setAgent a z).agent a = some z := fun z => State.agent_setAgent_self hx
  obtain ⟨t, ht⟩ : ∃ t, s.team a.team = some t := by
    unfold State.agent at hx
    cases ht : s.team a.team with
    | none => simp [ht] at hx
    | some t => exact ⟨t, rfl⟩
  unfold State.census
  simp only [ht, hx]
  split
  · split
    · obtain ⟨y, hy, hyx⟩ := (s.applyAcks_apart a).agent hf hx
      refine ⟨_, by rw [State.agentEnded, State.agent_modAgent_same, hy]; rfl, ?_⟩
      exact (congrArg Agent.placid hyx : y.apart.placid = x.apart.placid)
    · exact ⟨_, hset _, rfl⟩
  · split
    · obtain ⟨y, hy, hyx⟩ := setFrame_core hx t x x.f.toNat (BitVec.ofNat 28 frm)
      refine ⟨_, by rw [State.agent_modAgent_same, hy]; rfl, ?_⟩
      exact (congrArg Agent.placid hyx : y.core.placid = x.core.placid)
    · split <;> exact ⟨_, hset _, rfl⟩

/-- What follows a beat that is done leaves all else of its agent, and gives no rank. -/
theorem State.conclude_done_placid {s u : State} {b : Beat} (hf : u.flaws = []) {x : Agent} (hx : u.agent b.a = some x) (hi : x.issue = .beats) (whole : Bool) :
    ∃ y, (s.conclude b whole (.done u)).agent b.a = some y ∧ y.placid = x.placid ∧ (s.conclude b whole (.done u)).rankSeq = u.rankSeq := by
  have hmark : ∀ {v : State} {z : Agent}, v.agent b.a = some z → z.placid = x.placid → v.rankSeq = u.rankSeq →
      ∃ y, (v.markHeld b.a).agent b.a = some y ∧ y.placid = x.placid ∧ (v.markHeld b.a).rankSeq = u.rankSeq := fun hz hp hr => by
    obtain ⟨h, hh⟩ := State.markHeld_self hz
    exact ⟨_, hh, hp, hr⟩
  have hseq : ∀ {v w : State}, w.still = v.still → w.rankSeq = v.rankSeq := fun {v w} h => (congrArg State.rankSeq h : w.still.rankSeq = v.still.rankSeq)
  obtain ⟨v, n, hvs, hvt, hcount⟩ := u.countBeat_eq b whole
  have hva : v.agent b.a = some x := (State.agent_congr hvt b.a).trans hx
  have hcr : (u.countBeat b whole).rankSeq = u.rankSeq := by
    rw [hcount]
    exact hseq ((v.modAgent_still b.a _).trans hvs)
  let f1 : Agent → Agent := fun x => { x with lastBeat := n, active := x.active || (x.isGroup && decide (x.issue = .beats)) }
  have hca : (u.countBeat b whole).agent b.a = some (f1 x) := by
    rw [hcount, State.agent_modAgent_same, hva]
    rfl
  show ∃ y, ((u.afterBeat b whole).markHeld b.a).agent b.a = some y ∧ _ ∧ ((u.afterBeat b whole).markHeld b.a).rankSeq = _
  unfold State.afterBeat State.passBeat
  split
  · have hwq : ∀ q : Nat, ((u.countBeat b whole).modAgent b.a fun x => { x with restart := q, block := none, arr := { x.arr with noWatch := false } }).agent b.a =
        some { f1 x with restart := q, block := none, arr := { x.arr with noWatch := false } } := fun q => by
      rw [State.agent_modAgent_same, hca]
      rfl
    exact hmark (hwq _) rfl hcr
  · let w := (u.countBeat b whole).modAgent b.a fun x => { x with restart := 0, block := none }
    have hwf : w.flaws = [] := (u.countBeat_flaws b whole).trans hf
    have hwa : w.agent b.a = some { f1 x with restart := 0, block := none } := by
      rw [State.agent_modAgent_same, hca]
      rfl
    have hwi : ∀ z, w.agent b.a = some z → z.issue ≠ .barrier := fun z hz => by
      rw [← Option.some.inj (hwa.symm.trans hz), show ({ f1 x with restart := 0, block := none } : Agent).issue = x.issue from rfl, hi]
      nofun
    obtain ⟨z, hz, hzp⟩ := State.census_placid hwf hwa (x.p.toNat + 1)
    have hnext : w.nextIndex b.a = (w.census b.a (x.p.toNat + 1)).settle b.a.team := by
      unfold State.nextIndex
      simp only [hwa]
      rfl
    obtain ⟨ha, hr, -⟩ := State.settle_calm ((State.census_keeps w b.a _).clean hwf) hz (State.census_issue w b.a _ hwi z hz)
    rw [← hnext] at ha hr
    exact hmark ha hzp (hr.trans ((hseq (State.census_still hwf b.a _)).trans hcr))

/-! ### NOP, WTOK and YIELD (R16, R84, R85) -/

theorem exec_nop (f : Fields) (s : State) : exec (.nop f) s = execNop f s := rfl
theorem exec_wtok (f : Fields) (s : State) : exec (.wtok f) s = execWtok f s := rfl
theorem exec_yield (f : Fields) (s : State) : exec (.yield f) s = execYield f s := rfl

/-- A beat that leaves its agent's lanes and every register passes them on. -/
theorem State.pass_done {s v u : State} {b : Beat} (hf : u.flaws = []) {z : Agent} (hz : u.agent b.a = some z) (hl : z.lanes = b.begunAgent.lanes)
    (hi : z.issue = .beats) (hregs : ∀ c, u.regsOf c = s.regsOf c) (whole : Bool) :
    ∃ y, (v.conclude b whole (.done u)).agent b.a = some y ∧ (wantsAfter b y fun _ => b.x.p + 1) ∧
      (∀ c, (v.conclude b whole (.done u)).regsOf c = s.regsOf c) ∧ y.rank = z.rank ∧ (v.conclude b whole (.done u)).rankSeq = u.rankSeq := by
  obtain ⟨y, hy, -, hyl, hall⟩ := State.done_agent (s := v) (b := b) hf hz (by rw [hi]; nofun) whole
  obtain ⟨y', hy', hp, hr⟩ := State.conclude_done_placid (s := v) hf hz hi whole
  obtain rfl := Option.some.inj (hy.symm.trans hy')
  exact ⟨y, hy, b.wantsAfter_next (hyl.trans hl), fun c => (hall c).trans (hregs c), (congrArg Agent.rank hp : y.placid.rank = z.placid.rank), hr⟩

theorem Due.begun_issue {i : Instr} {f : Fields} {s : State} {b : Beat} (h : Due i f s b) : b.begunAgent.issue = .beats :=
  (congrArg Agent.issue b.begunAgent_eq).trans h.issue

theorem Beat.begunAgent_rank (b : Beat) : b.begunAgent.rank = b.x.rank := (congrArg Agent.rank b.begunAgent_eq).trans rfl

/-- The state of a YIELD that performs. -/
theorem Beat.yielded (b : Beat) (s : State) :
    ∃ g : Agent → Agent, (∀ x, (g x).regs = x.regs ∧ (g x).lanes = x.lanes ∧ (g x).issue = x.issue ∧ (g x).rank = x.rank) ∧ (s.begun b).yieldPoint b.a = (s.begun b).modAgent b.a g :=
  ⟨fun x => { x with held := x.held || (((s.begun b).team b.a.team).map fun t => t.saveAsked).getD false }, fun _ => ⟨rfl, rfl, rfl, rfl⟩, rfl⟩

/-- A form that does nothing passes its lanes on. -/
theorem Due.passes {i : Instr} {f : Fields} {s : State} {b : Beat} (h : Due i f s b) {body : Beat → State → Out} (hb : body b (s.begun b) = .done (s.begun b)) :
    ∃ t y, issueBeat i f s body = .next t ∧ t.agent b.a = some y ∧ (wantsAfter b y fun _ => b.x.p + 1) ∧ (∀ c, t.regsOf c = s.regsOf c) ∧
      y.rank = b.x.rank ∧ t.rankSeq = s.rankSeq := by
  obtain ⟨y, hy, hw, hregs, hrank, hseq⟩ := State.pass_done (v := s.waited b.a) (u := s.begun b) h.clean h.begun_agent rfl h.begun_issue (s.begun_regsOf b)
    (shapeOf i f).whole
  exact ⟨_, y, by rw [issueBeat_due h, hb], hy, hw, hregs, hrank.trans b.begunAgent_rank, hseq⟩

/-- YIELD, with and without a performing lane. -/
theorem Due.yields {f : Fields} {s : State} {b : Beat} (h : Due (.yield f) f s b) :
    ∃ t y, exec (.yield f) s = .next t ∧ t.agent b.a = some y ∧ (wantsAfter b y fun _ => b.x.p + 1) ∧ (∀ c, t.regsOf c = s.regsOf c) ∧
      (if b.perf = 0 then y.rank = b.x.rank ∧ t.rankSeq = s.rankSeq else y.rank = s.rankSeq ∧ t.rankSeq = s.rankSeq + 1) := by
  obtain ⟨g, hg, hpoint⟩ := b.yielded s
  let v := (s.begun b).modAgent b.a g
  have hva : v.agent b.a = some (g b.begunAgent) := h.begun_modAgent g
  have hvf : v.flaws = [] := h.clean
  have hvr : ∀ c, v.regsOf c = s.regsOf c := fun c => ((s.begun b).regsOf_modAgent b.a g (fun x => (hg x).1) c).trans (s.begun_regsOf b c)
  obtain ⟨-, hgl, hgi, hgk⟩ := hg b.begunAgent
  have hexec : exec (.yield f) s = .next ((s.waited b.a).conclude b (shapeOf (.yield f) f).whole (.done (if b.perf = 0 then v else v.yieldRank b.a))) := by
    rw [exec_yield, execYield, issueBeat_due h]
    dsimp only
    rw [hpoint]
  by_cases hp : b.perf = 0
  · obtain ⟨y, hy, hw, hregs, hrank, hseq⟩ := State.pass_done (v := s.waited b.a) (u := v) h.clean hva hgl (hgi.trans h.begun_issue) hvr (shapeOf (.yield f) f).whole
    rw [if_pos hp] at hexec
    exact ⟨_, y, hexec, hy, hw, hregs, by rw [if_pos hp]; exact ⟨hrank.trans (hgk.trans b.begunAgent_rank), hseq⟩⟩
  · let w := v.yieldRank b.a
    have hwa : w.agent b.a = some { (g b.begunAgent).restartGoose ((s.begun b).beatSeq + 1) with rank := s.rankSeq } := by
      show (v.modAgent b.a _).agent b.a = _
      rw [State.agent_modAgent_same, hva]
      rfl
    have hwr : ∀ c, w.regsOf c = s.regsOf c := fun c =>
      (v.regsOf_modAgent b.a (fun x => { x.restartGoose (v.beatSeq + 1) with rank := v.rankSeq }) (fun _ => rfl) c).trans (hvr c)
    have hwf : w.flaws = v.flaws := rfl
    have hwq : w.rankSeq = s.rankSeq + 1 := (rfl : w.rankSeq = v.rankSeq + 1)
    obtain ⟨y, hy, hw, hregs, hrank, hseq⟩ := State.pass_done (v := s.waited b.a) (u := w) (hwf.trans hvf) hwa hgl (hgi.trans h.begun_issue) hwr (shapeOf (.yield f) f).whole
    rw [if_neg hp] at hexec
    exact ⟨_, y, hexec, hy, hw, hregs, by rw [if_neg hp]; exact ⟨hrank, hseq.trans hwq⟩⟩

theorem passingForms_holds : passingForms := by
  intro i f s b hi h
  obtain rfl | rfl | rfl := hi
  · obtain ⟨t, y, hnext, hy, hw, hregs, hrank⟩ := h.passes (body := fun _ s1 => .done s1) rfl
    exact ⟨t, y, by rw [exec_nop, execNop, ← hnext], hy, hw, hregs, nofun, fun _ => hrank⟩
  · obtain ⟨t, y, hnext, hy, hw, hregs, hrank⟩ := h.passes (body := fun _ s1 => .done s1) rfl
    exact ⟨t, y, by rw [exec_wtok, execWtok, ← hnext], hy, hw, hregs, nofun, fun _ => hrank⟩
  · obtain ⟨t, y, hnext, hy, hw, hregs, hrank⟩ := h.yields
    refine ⟨t, y, hnext, hy, hw, hregs, fun _ hp => ?_, fun hor => ?_⟩
    · rw [if_neg hp] at hrank
      exact hrank
    · rw [if_pos (hor.resolve_left fun hne => hne rfl)] at hrank
      exact hrank

/-- Settles O28: lanes end, the census ends the group, and the passing forms send every lane on. -/
theorem lanesGoOnOrEnd : Obligations.LanesGoOnOrEnd := ⟨exitsEnd_holds, passingForms_holds⟩

end Sys2Proof.Machine
end

section
/-! O30: TRAP and BRK. -/

namespace Sys2Proof.Machine

theorem State.HasOnly.modAgent {s : State} {a : AgentId} {x : Agent} (h : s.HasOnly a x) (f : Agent → Agent) : (s.modAgent a f).HasOnly a (f x) :=
  ⟨fun y hy => by
    rw [State.agent_modAgent_same] at hy
    obtain ⟨z, hz, rfl⟩ := Option.map_eq_some_iff.mp hy
    rw [h.eq_of_agent z hz]⟩

/-- The agent after the beat counts. -/
theorem State.HasOnly.countBeat {s : State} {b : Beat} {x : Agent} (h : s.HasOnly b.a x) (whole : Bool) :
    ∃ y, (s.countBeat b whole).HasOnly b.a y ∧ y.core = x.core ∧ y.issue = x.issue ∧ y.restart = x.restart := by
  obtain ⟨u, n, -, ht, hu⟩ := s.countBeat_eq b whole
  have hmod := (h.of_teams ht).modAgent fun x => { x with lastBeat := n, active := x.active || (x.isGroup && decide (x.issue = .beats)) }
  rw [← hu] at hmod
  exact ⟨_, hmod, rfl, rfl, rfl⟩

theorem State.traceBreak_teams (s : State) (t : Team) (who : Nat) (x : Agent) (tag : W32) (lanes : LaneMask) :
    (s.traceBreak t who x tag lanes).teams = s.teams := by
  unfold State.traceBreak
  split
  · rfl
  · dsimp only
    split
    · exact State.trace_teams ..
    · rfl

theorem exec_trap (f : Fields) (s : State) : exec (.trap f) s = execTrap f s := rfl
theorem exec_brk (f : Fields) (s : State) : exec (.brk f) s = execBrk f s := rfl

/-- A stop of the agent as a whole, after the beat: its sweep's state and registers are as the beat left them. -/
theorem State.stopped_whole {s : State} {b : Beat} {t : Team} {x : Agent} (ht : s.team b.a.team = some t) (hx : s.agent b.a = some x)
    (hk : x.kind ≠ .privileged) {r : Raise} (hr : r.code ≠ 0x18) {y : Agent}
    (hy : ((((s.modAgent b.a fun x => { x with restart := 0 }).takeFault b.a r).countBeat b true).markHeld b.a).agent b.a = some y) :
    y.stoppedAs r.code r.how ∧ y.restart = 0 ∧ y.regs = x.regs ∧ y.lanes = x.lanes := by
  let x1 : Agent := { x with restart := 0 }
  let s1 : State := s.modAgent b.a fun x => { x with restart := 0 }
  have hx1 : s1.agent b.a = some x1 := by
    rw [State.agent_modAgent_same, hx]
    rfl
  obtain ⟨t1, ht1, -⟩ : ∃ t1, s1.team b.a.team = some t1 ∧ t1.bare = t.bare := (s.fixed_modAgent b.a _).team ht
  obtain ⟨z, hz, hcore, hissue, hrestart⟩ := (State.takeFault_hasOnly_own ht1 hx1 hk hr).countBeat true
  obtain ⟨h, rfl⟩ := hz.markHeld y hy
  have hstop : z.stop = (x1.faulted t1 b.a.who s1.beatSeq r).stop := (congrArg Agent.stop hcore : z.core.stop = (x1.faulted t1 b.a.who s1.beatSeq r).core.stop)
  have hregs : z.regs = (x1.faulted t1 b.a.who s1.beatSeq r).regs := (congrArg Agent.regs hcore : z.core.regs = (x1.faulted t1 b.a.who s1.beatSeq r).core.regs)
  have hlanes : z.lanes = (x1.faulted t1 b.a.who s1.beatSeq r).lanes := (congrArg Agent.lanes hcore : z.core.lanes = (x1.faulted t1 b.a.who s1.beatSeq r).core.lanes)
  exact ⟨⟨hissue, _, hstop, rfl, rfl⟩, hrestart, hregs, hlanes⟩

/-- The beat of a TRAP or BRK with a performing lane, in the state `u` that the beat has begun. -/
theorem Due.stops {i : Instr} {f : Fields} {s : State} {b : Beat} (h : Due i f s b) {u : State} (hu : u.teams = (s.begun b).teams)
    (hk : b.x.kind ≠ .privileged) {r : Raise} (hr : r.code ≠ 0x18) {y : Agent}
    (hy : ((((u.modAgent b.a fun x => { x with restart := 0 }).takeFault b.a r).countBeat b true).markHeld b.a).agent b.a = some y) :
    y.stoppedAs r.code r.how ∧ y.restart = 0 ∧ y.regs = b.x.regs ∧ wantsAfter b y fun _ => b.x.p + 1 := by
  obtain ⟨t, ht, -⟩ := (s.begun_fixed b).team h.team
  have hteam : u.team b.a.team = some t := (congrArg (Tbl.find? · b.a.team) hu : Tbl.find? u.teams _ = Tbl.find? _ _).trans ht
  obtain ⟨hstop, hrestart, hregs, hlanes⟩ := State.stopped_whole hteam ((State.agent_congr hu b.a).trans h.begun_agent) (b.begunAgent_kind ▸ hk) hr hy
  exact ⟨hstop, hrestart, hregs.trans b.begunAgent_regs, b.wantsAfter_next hlanes⟩

/-- TRAP and BRK are one form: a stop with a code, in a state whose agents are those of the beat. -/
theorem Due.trap_or_brk {i : Instr} {f : Fields} {s : State} {b : Beat} (h : Due i f s b) {code : Byte} (hcode : code ≠ 0x18) {body : Beat → State → Out} {u : State}
    (hu : u.teams = (s.begun b).teams) (hw : (shapeOf i f).whole = true)
    (hb : body b (s.begun b) = if b.perf = 0 then .done (s.begun b) else stopAfter code b u) (he : exec i s = issueBeat i f s body) :
    (b.perf = 0 → ∃ t y, exec i s = .next t ∧ t.agent b.a = some y ∧ y.regs = b.x.regs ∧ wantsAfter b y fun _ => b.x.p + 1) ∧
    (b.perf ≠ 0 → exec i s = .next ((((u.modAgent b.a fun x => { x with restart := 0 }).takeFault b.a
        { code := code, how := .census, lanes := b.perf, addr := f.imm.setWidth 64, write := false }).countBeat b true).markHeld b.a)) ∧
    (b.perf ≠ 0 → b.x.kind ≠ .privileged → ∃ t, exec i s = .next t ∧ ∀ y, t.agent b.a = some y →
      y.stoppedAs code .census ∧ y.restart = 0 ∧ y.regs = b.x.regs ∧ wantsAfter b y fun _ => b.x.p + 1) := by
  have hstop (hp : b.perf ≠ 0) : exec i s = .next ((((u.modAgent b.a fun x => { x with restart := 0 }).takeFault b.a
        { code := code, how := .census, lanes := b.perf, addr := f.imm.setWidth 64, write := false }).countBeat b true).markHeld b.a) := by
    rw [he, issueBeat_due h, hb, if_neg hp, hw, stopAfter, if_neg hp, h.f_eq]
    rfl
  refine ⟨fun hp => ?_, hstop, fun hp hk => ⟨_, hstop hp, fun y hy => h.stops hu hk hcode hy⟩⟩
  obtain ⟨y, hy, hregs, hwants, -⟩ := h.begun_done (shapeOf i f).whole
  exact ⟨_, y, by rw [he, issueBeat_due h, hb, if_pos hp], hy, hregs, hwants⟩

/-- Settles O30: TRAP and BRK stop the agent as a whole. -/
theorem trapsStop : Obligations.TrapsStop := by
  intro i code f s b hi h
  obtain ⟨rfl, rfl⟩ | ⟨rfl, rfl⟩ := hi
  · obtain ⟨hzero, hstop, hafter⟩ := h.trap_or_brk (code := 0x15) (by decide) (body := stopAfter 0x15) (u := s.begun b) rfl rfl
      (by
        by_cases hp : b.perf = 0
        · simp only [stopAfter, hp, if_true]
        · simp only [hp, if_false]) (by rw [exec_trap, execTrap])
    exact ⟨hzero, fun hp => ⟨_, fun _ => rfl, nofun, hstop hp⟩, hafter⟩
  · let u := (s.begun b).traceBreak b.t b.a.who b.x f.imm b.perf
    obtain ⟨hzero, hstop, hafter⟩ := h.trap_or_brk (code := 0x14) (by decide) (u := u) (State.traceBreak_teams ..) rfl
      (body := fun b s1 => stopAfter 0x14 b (if b.perf = 0 then s1 else s1.traceBreak b.t b.a.who b.x f.imm b.perf))
      (by
        by_cases hp : b.perf = 0
        · simp only [stopAfter, hp, if_true]
        · simp only [hp, if_false]
          rfl) (by rw [exec_brk, execBrk])
    exact ⟨hzero, fun hp => ⟨_, nofun, fun _ => rfl, hstop hp⟩, hafter⟩

end Sys2Proof.Machine
end

section
/-! O53: the registers of a host queue, and what a fault-queue record leaves of a partition (R270 to R272). -/

namespace Sys2Proof.Machine

/-- The partition's record without its fault queue's entries. -/
def Part.unqueued (p : Part) : Part := { p with fqWr := 0, heldRecords := [], replays := [] }

theorem State.partition_modPart (s : State) (p n : Nat) (f : Part → Part) : (s.modPart p f).partition n = if n = p then f (s.partition p) else s.partition n := by
  unfold State.partition
  rw [State.modPart_parts, Tbl.find?_ins]
  split <;> rfl

theorem State.partition_congr {s t : State} (h : t.parts = s.parts) (n : Nat) : t.partition n = s.partition n := by
  unfold State.partition
  rw [h]

/-- A change of a partition that leaves all but its fault queue. -/
theorem State.modPart_unqueued (s : State) (p n : Nat) {f : Part → Part} (hf : ∀ q, (f q).unqueued = q.unqueued) :
    ((s.modPart p f).partition n).unqueued = (s.partition n).unqueued := by
  rw [State.partition_modPart]
  split
  next h => rw [h, hf]
  next => rfl

theorem State.writeAt_parts (s : State) (p : Place) (bs : List Byte) (cl : Option Nat) : (s.writeAt p bs cl).1.parts = s.parts :=
  (congrArg State.parts (s.writeAt_still p bs cl) : (s.writeAt p bs cl).1.still.parts = s.still.parts)

theorem State.writeAt_msix (s : State) (p : Place) (bs : List Byte) (cl : Option Nat) : (s.writeAt p bs cl).1.msix = s.msix :=
  (congrArg State.msix (s.writeAt_still p bs cl) : (s.writeAt p bs cl).1.still.msix = s.still.msix)

/-- A write of a record to the fault queue leaves the rest of every partition. -/
theorem State.fqWrite_unqueued (s : State) (part : Nat) (h : HeldRecord) (size n : Nat) :
    ((s.fqWrite part h size).partition n).unqueued = (s.partition n).unqueued := by
  unfold State.fqWrite
  extract_lets p s1 s2 s3
  have h3 : s3.parts = s2.parts := by
    unfold s3
    split <;> rfl
  calc (s3.dmcEvent.partition n).unqueued
      = (s2.partition n).unqueued := congrArg Part.unqueued (State.partition_congr (s := s2) h3 n)
    _ = (s1.partition n).unqueued := s1.modPart_unqueued part n (fun q => rfl)
    _ = (s.partition n).unqueued := congrArg Part.unqueued (State.partition_congr (s.writeAt_parts ..) n)

theorem State.fqWrite_msix (s : State) (part : Nat) (h : HeldRecord) (size : Nat) {e : Msix} (he : e ∈ s.msix) : e ∈ (s.fqWrite part h size).msix := by
  unfold State.fqWrite
  extract_lets p s1 s2 s3
  have h1 : e ∈ s1.msix := (s.writeAt_msix (physPlace (p.fqBase.toNat + 32 * (p.fqWr.toNat % size))) h.bytes none).symm ▸ he
  show e ∈ s3.msix
  unfold s3
  split
  · exact List.mem_cons_of_mem _ h1
  · exact h1

/-- A record to the fault queue leaves the rest of every partition. -/
theorem State.fqSend_unqueued (s : State) (part : Nat) (h : HeldRecord) (n : Nat) : ((s.fqSend part h).partition n).unqueued = (s.partition n).unqueued := by
  unfold State.fqSend
  dsimp only
  split
  · rfl
  · split
    · exact s.fqWrite_unqueued ..
    · exact s.modPart_unqueued part n (fun _ => rfl)

theorem State.fqSend_msix (s : State) (part : Nat) (h : HeldRecord) {e : Msix} (he : e ∈ s.msix) : e ∈ (s.fqSend part h).msix := by
  unfold State.fqSend
  dsimp only
  split
  · exact he
  · split
    · exact s.fqWrite_msix _ _ _ he
    · exact he

/-! ### Host queues -/

theorem State.hostq_of_unqueued {s t : State} {part : Nat} (h : (t.partition part).unqueued = (s.partition part).unqueued) (q : Nat) : t.hostq part q = s.hostq part q := by
  have hq : (t.partition part).queues = (s.partition part).queues := (congrArg Part.queues h : (t.partition part).unqueued.queues = (s.partition part).unqueued.queues)
  unfold State.hostq
  rw [hq]

@[simp] theorem State.hostq_modQueue (s : State) (part q : Nat) (f : HostQ → HostQ) : (s.modQueue part q f).hostq part q = f (s.hostq part q) := by
  unfold State.hostq State.modQueue
  rw [State.partition_modPart, if_pos rfl]
  exact congrArg (Option.getD · HostQ.reset) (Tbl.find?_ins_same _ _ _)

/-- A queue stops: QSTAT names the packet and the code. -/
theorem State.hostq_queueStop (s : State) (part q : Nat) (code : Byte) (failed : Option Nat) (cause : Nat) :
    (s.queueStop part q code failed cause).hostq part q =
      { s.hostq part q with
        stat := BitVec.ofNat 64 ((failed.getD (s.hostq part q).rd.toNat % 2 ^ 32) * 2 ^ 32 + code.toNat * 256 + 1),
        failed := (match failed with | some i => some i | none => (s.hostq part q).failed),
        running := (match failed with | some i => (s.hostq part q).running.filter (fun k => k != i) | none => (s.hostq part q).running),
        waitmon := (s.hostq part q).waitmon.filter fun w => some w.1 != failed } := by
  unfold State.queueStop
  rw [State.hostq_of_unqueued (State.fqSend_unqueued ..), apply_ite (fun u : State => u.hostq part q)]
  exact (ite_self _).trans (State.hostq_modQueue ..)

theorem State.queueStop_msix (s : State) (part q : Nat) (code : Byte) (failed : Option Nat) (cause : Nat) (hb : bit (s.hostq part q).stat 0 = false) :
    ({ fn := part + 1, vector := 1 } : Msix) ∈ (s.queueStop part q code failed cause).msix := by
  unfold State.queueStop
  refine State.fqSend_msix _ _ _ ?_
  rw [if_neg (by rw [hb]; nofun)]
  exact List.mem_cons_self

/-- A queue that stops with a code, from a state with the same queue but for registers that QSTAT does not name. -/
theorem State.queueStop_stoppedWith {s u : State} {part q : Nat} (code : Byte) (failed : Option Nat) (cause : Nat)
    (hb : bit (u.hostq part q).stat 0 = bit (s.hostq part q).stat 0) :
    stoppedWith s (u.queueStop part q code failed cause) part q (failed.getD (u.hostq part q).rd.toNat) code.toNat :=
  ⟨congrArg HostQ.stat (State.hostq_queueStop ..), fun h => State.queueStop_msix _ _ _ _ _ _ (hb.trans h)⟩

/-! ### QCTL and the doorbell -/

theorem exec_queueEnable (part q : Nat) (w : W64) (s : State) : exec (.queueEnable part q w) s = execQueueEnable part q w s := rfl
theorem exec_queueDisable (part q : Nat) (w : W64) (s : State) : exec (.queueDisable part q w) s = execQueueDisable part q w s := rfl
theorem exec_qdoor (part q : Nat) (w : W64) (s : State) : exec (.qdoor part q w) s = execQdoor part q w s := rfl

/-- A QCTL write with EN that the rules take (R270). -/
def qctlSound (h : HostQ) (w : W64) : Prop :=
  h.base.toNat % 4096 = 0 ∧ (tagOf h.base = 0 ∨ tagOf h.base = 0xC) ∧ bits w 63 32 = 0 ∧ bits w 30 29 = 0 ∧ bits w 23 18 = 0 ∧
    4 ≤ bits w 28 24 ∧ bits w 28 24 ≤ 16

theorem execQueueEnable_live {s : State} {part : Nat} (hl : (s.partition part).live = true) (q : Nat) {w : W64} (hw : bit w 31 = true) :
    (qctlSound (s.hostq part q) w → execQueueEnable part q w s = .next (s.modQueue part q fun h => { h with ctl := w })) ∧
    (¬ qctlSound (s.hostq part q) w → execQueueEnable part q w s = .next ((s.modQueue part q fun h => { h with ctl := w }).queueStop part q 0x01 none 0)) := by
  unfold execQueueEnable
  rw [if_neg (by simp [hw, hl])]
  extract_lets s1 h okBase okCtl
  have hbase : h.base = (s.hostq part q).base := (congrArg HostQ.base (s.hostq_modQueue part q fun h => { h with ctl := w })).trans rfl
  have hok : (okBase && okCtl) = true ↔ qctlSound (s.hostq part q) w := by
    simp only [okBase, okCtl, hbase, qctlSound, Bool.and_eq_true, Bool.or_eq_true, decide_eq_true_eq, and_assoc]
  exact ⟨fun hs => if_pos (hok.mpr hs), fun hs => if_neg (mt hok.mp hs)⟩

theorem execQdoor_live {s : State} {part : Nat} (hl : (s.partition part).live = true) (q : Nat) (w : W64) :
    execQdoor part q w s = if w.toNat < (s.hostq part q).accepted.toNat ∨ w.toNat > (s.hostq part q).rd.toNat + (s.hostq part q).size
      then .next ((s.modQueue part q fun h => { h with door := w }).queueStop part q 0x02 none 0)
      else .next ((s.modQueue part q fun h => { h with door := w }).modQueue part q fun h => { h with accepted := w }) := by
  unfold execQdoor
  extract_lets h s1
  exact if_neg (by simp [hl])

/-- Settles O53: the registers of a host queue. -/
theorem queueRegisters : Obligations.QueueRegisters := by
  refine ⟨fun s part q w hl => ⟨fun hw hs => ?_, fun hw hs => ?_, fun hw => ?_, fun hlo hhi => ?_, fun hout => ?_⟩, fun s part q w i hl hi => ?_⟩
  · exact ⟨_, (exec_queueEnable ..).trans ((execQueueEnable_live hl q hw).1 hs), State.hostq_modQueue ..⟩
  · refine ⟨_, (exec_queueEnable ..).trans ((execQueueEnable_live hl q hw).2 hs), ?_⟩
    have hq := s.hostq_modQueue part q fun h => { h with ctl := w }
    have hstop := State.queueStop_stoppedWith (s := s) 0x01 none 0 (congrArg (fun h => bit h.stat 0) hq)
    rw [hq] at hstop
    exact hstop
  · refine ⟨_, (exec_queueDisable ..).trans (if_neg (by simp [hw, hl])), ?_⟩
    rw [State.hostq_modQueue]
    exact ⟨rfl, rfl, rfl⟩
  · refine ⟨_, ((exec_qdoor ..).trans (execQdoor_live hl q w)).trans (if_neg (by omega)), ?_⟩
    rw [State.hostq_modQueue, State.hostq_modQueue]
  · refine ⟨_, ((exec_qdoor ..).trans (execQdoor_live hl q w)).trans (if_pos hout), ?_⟩
    have hq := s.hostq_modQueue part q fun h => { h with door := w }
    have hstop := State.queueStop_stoppedWith (s := s) 0x02 none 0 (congrArg (fun h => bit h.stat 0) hq)
    rw [hq] at hstop
    exact hstop
  · obtain rfl | rfl | rfl := hi
    · exact (exec_queueEnable ..).trans (if_pos (by simp [hl]))
    · exact (exec_queueDisable ..).trans (if_pos (by simp [hl]))
    · exact (exec_qdoor ..).trans (if_pos (by simp [hl]))

end Sys2Proof.Machine
end

section
/-! O55: telemetry frames, fail-safe and the timers of the power controller (R307 to R313, R317 to R320). -/

namespace Sys2Proof.Machine

/-! ### Events -/

/-- The team without its queues and held events. -/
def Team.eventless (t : Team) : Team := { t with q := [], heldEvents := [] }

theorem Team.flushEvents_eventless (n : Nat) (t : Team) : (t.flushEvents n).eventless = t.eventless := by
  induction n generalizing t with
  | zero => rfl
  | succ n ih =>
    unfold Team.flushEvents
    split
    · rfl
    · split
      · exact ih _
      · rfl

/-- An event changes the queues and held events alone. -/
theorem Team.pushEvent_eventless (t : Team) (w : W64) (bs : List Byte) : (t.pushEvent w bs).eventless = t.eventless :=
  Team.flushEvents_eventless _ _

/-! ### Classes that join and leave the mask -/

/-- Each team stays in its class and place, and what is asked of it stays asked. -/
structure State.AsksOn (s u : State) : Prop where
  team : ∀ n t, s.team n = some t → ∃ w, u.team n = some w ∧ w.cls = t.cls ∧ w.res = t.res ∧ w.priv = t.priv ∧
    (t.saveAsked = true → w.saveAsked = true) ∧ (t.shedNote = true → w.shedNote = true)

theorem State.AsksOn.refl (s : State) : s.AsksOn s := ⟨fun _ t ht => ⟨t, ht, rfl, rfl, rfl, id, id⟩⟩

theorem State.AsksOn.trans {s u v : State} (h : s.AsksOn u) (k : u.AsksOn v) : s.AsksOn v := ⟨fun n t ht => by
  obtain ⟨w, hw, hc, hr, hp, ha, hn⟩ := h.team n t ht
  obtain ⟨z, hz, hc', hr', hp', ha', hn'⟩ := k.team n w hw
  exact ⟨z, hz, hc'.trans hc, hr'.trans hr, hp'.trans hp, ha' ∘ ha, hn' ∘ hn⟩⟩

theorem State.AsksOn.congr {s u v : State} (h : s.AsksOn u) (k : v.teams = u.teams) : s.AsksOn v := ⟨fun n t ht => by
  rw [State.team, k]
  exact h.team n t ht⟩

theorem State.asksOn_modTeam (s : State) (n : Nat) {f : Team → Team}
    (hf : ∀ t, (f t).cls = t.cls ∧ (f t).res = t.res ∧ (f t).priv = t.priv ∧ (t.saveAsked = true → (f t).saveAsked = true) ∧
      (t.shedNote = true → (f t).shedNote = true)) : s.AsksOn (s.modTeam n f) := ⟨fun k t ht => by
  rw [State.team_modTeam, ht]
  split
  · exact ⟨f t, rfl, hf t⟩
  · exact ⟨t, rfl, rfl, rfl, rfl, id, id⟩⟩

theorem State.postEvent_asksOn (s : State) (team k e : Nat) (q : W32) (d : Nat) : s.AsksOn (s.postEvent team k e q d) := by
  refine s.asksOn_modTeam team fun t => ?_
  split
  · exact ⟨rfl, rfl, rfl, id, id⟩
  · have h := t.pushEvent_eventless (eventWord k e q d) []
    exact ⟨(congrArg Team.cls h : (t.pushEvent _ []).eventless.cls = t.eventless.cls), (congrArg Team.res h : (t.pushEvent _ []).eventless.res = t.eventless.res),
      (congrArg Team.priv h : (t.pushEvent _ []).eventless.priv = t.eventless.priv),
      fun ha => (congrArg Team.saveAsked h : (t.pushEvent _ []).eventless.saveAsked = t.eventless.saveAsked).trans ha,
      fun ha => (congrArg Team.shedNote h : (t.pushEvent _ []).eventless.shedNote = t.eventless.shedNote).trans ha⟩

/-- A team of a class that joins is told: its event, SHEDNOTE and the save. -/
def State.shedTell (s : State) (cls : Nat) (u : State) (n : Nat) : State :=
  (match u.team n with | some x => u.postEvent n 0x04 8 x.cseq cls | none => u).modTeam n fun x =>
    { x with shedNote := true, saveAsked := true, shedBy := some (s.dtime + s.pwc.grace.toNat * 1000 + 60000 * s.shedHere x),
             agents := x.agents.map fun (g : Nat × Agent) => (g.1, { g.2 with held := g.2.held || g.2.atShedPoint }) }

theorem State.shedTell_pre (u : State) (n cls : Nat) :
    ∃ v, (match u.team n with | some x => u.postEvent n 0x04 8 x.cseq cls | none => u) = v ∧ u.AsksOn v ∧ v.pwc = u.pwc := by
  split
  next x hx => exact ⟨_, rfl, u.postEvent_asksOn .., rfl⟩
  next => exact ⟨_, rfl, .refl u, rfl⟩

theorem State.shedTell_asksOn (s : State) (cls : Nat) (u : State) (n : Nat) : u.AsksOn (s.shedTell cls u n) := by
  obtain ⟨v, hv, hasks, -⟩ := u.shedTell_pre n cls
  unfold State.shedTell
  rw [hv]
  exact hasks.trans (v.asksOn_modTeam n fun t => ⟨rfl, rfl, rfl, fun _ => rfl, fun _ => rfl⟩)

theorem State.shedTell_told (s : State) (cls : Nat) {u : State} {n : Nat} {t : Team} (ht : u.team n = some t) :
    ∃ w, (s.shedTell cls u n).team n = some w ∧ w.saveAsked = true ∧ w.shedNote = true := by
  obtain ⟨v, hv, hasks, -⟩ := u.shedTell_pre n cls
  obtain ⟨w, hw, -⟩ := hasks.team n t ht
  unfold State.shedTell
  rw [hv, State.team_modTeam_same, hw]
  exact ⟨_, rfl, rfl, rfl⟩

theorem State.shedTell_pwc (s : State) (cls : Nat) (u : State) (n : Nat) : (s.shedTell cls u n).pwc = u.pwc := by
  obtain ⟨v, hv, -, hp⟩ := u.shedTell_pre n cls
  unfold State.shedTell
  rw [hv]
  exact hp

theorem foldl_asksOn {α : Type} {f : State → α → State} (hf : ∀ u a, State.AsksOn u (f u a)) (l : List α) (s : State) : s.AsksOn (l.foldl f s) :=
  foldl_keeps (fun u : State => s.AsksOn u) f l (fun u a _ h => h.trans (hf u a)) s (.refl s)

theorem State.shedTell_foldl (s : State) (cls : Nat) (l : List Nat) {n : Nat} (hn : n ∈ l) (u : State) {t : Team} (ht : u.team n = some t) :
    ∃ w, (l.foldl (s.shedTell cls) u).team n = some w ∧ w.saveAsked = true ∧ w.shedNote = true := by
  induction l generalizing u t with
  | nil => exact absurd hn List.not_mem_nil
  | cons k l ih =>
    obtain rfl | hl := List.mem_cons.mp hn
    · obtain ⟨w, hw, ha, hs⟩ := s.shedTell_told cls ht
      obtain ⟨z, hz, -, -, -, ha', hs'⟩ := (foldl_asksOn (fun v k => s.shedTell_asksOn cls v k) l (s.shedTell cls u n)).team n w hw
      exact ⟨z, hz, ha' ha, hs' hs⟩
    · obtain ⟨w, hw, -⟩ := (s.shedTell_asksOn cls u k).team n t ht
      exact ih hl _ hw

theorem State.shedStart_eq (s : State) (cls : Nat) : ∃ v : State, ∃ g : Tbl Nat,
    s.shedStart cls = { v with pwc := { v.pwc with graceAt := g } } ∧
      v = ((s.teams.filter fun e => e.2.cls == cls && e.2.resident && !e.2.priv).map (·.1)).foldl (s.shedTell cls) s := ⟨_, _, rfl, rfl⟩

theorem State.shedStart_asksOn (s : State) (cls : Nat) : s.AsksOn (s.shedStart cls) := by
  obtain ⟨v, g, hs, hv⟩ := s.shedStart_eq cls
  have hasks : s.AsksOn v := hv ▸ foldl_asksOn (fun u k => s.shedTell_asksOn cls u k) _ s
  rw [hs]
  exact hasks.congr rfl

/-- A class that joins the mask asks its teams to be saved. -/
theorem State.shedStart_asks (s : State) {n : Nat} {t : Team} (ht : s.team n = some t) (hres : t.resident = true) (hpriv : t.priv = false) :
    ∃ w, (s.shedStart t.cls).team n = some w ∧ w.saveAsked = true ∧ w.shedNote = true := by
  obtain ⟨v, g, hs, hv⟩ := s.shedStart_eq t.cls
  rw [hs]
  show ∃ w, v.team n = some w ∧ _
  rw [hv]
  refine s.shedTell_foldl t.cls _ (List.mem_map.mpr ⟨(n, t), List.mem_filter.mpr ⟨Tbl.mem_of_find? ht, ?_⟩, rfl⟩) s ht
  simp [hres, hpriv]

/-- The power controller's registers without the mask and its times. -/
def Pwc.unmasked (p : Pwc) : Pwc := { p with mask := 0, maskAt := 0, graceAt := [] }

theorem State.shedStart_pwc (s : State) (cls : Nat) : (s.shedStart cls).pwc.unmasked = s.pwc.unmasked ∧ (s.shedStart cls).pwc.mask = s.pwc.mask := by
  obtain ⟨v, g, hs, hv⟩ := s.shedStart_eq cls
  have hp : v.pwc = s.pwc := by
    rw [hv]
    exact foldl_keeps (fun u : State => u.pwc = s.pwc) _ _ (fun u k _ h => (s.shedTell_pwc cls u k).trans h) s rfl
  rw [hs]
  show v.pwc.unmasked = _ ∧ v.pwc.mask = _
  rw [hp]
  exact ⟨rfl, rfl⟩

theorem State.shedEnd_pwc (s : State) (cls : Nat) : (s.shedEnd cls).pwc.unmasked = s.pwc.unmasked ∧ (s.shedEnd cls).pwc.mask = s.pwc.mask := ⟨rfl, rfl⟩

/-- A class that leaves the mask leaves the teams of other classes. -/
theorem State.shedEnd_team (s : State) {cls n : Nat} {t : Team} (ht : s.team n = some t) (hc : t.cls ≠ cls) : (s.shedEnd cls).team n = some t := by
  have hmap : (s.shedEnd cls).teams = s.teams.map fun e => (e.1, if e.2.cls == cls && e.2.resident && !e.2.priv then e.2.unshed else e.2) :=
    List.map_congr_left fun e _ => by split <;> rfl
  rw [State.team, hmap, Tbl.find?_map s.teams (fun _ x => if x.cls == cls && x.resident && !x.priv then x.unshed else x)]
  rw [show Tbl.find? s.teams n = some t from ht]
  simp [hc]

theorem mem_classesIn {m : BitVec 4} {c : Nat} : c ∈ classesIn m ↔ m.getLsbD c = true := by
  unfold classesIn
  rw [List.mem_filter]
  refine ⟨fun h => h.2, fun h => ⟨?_, h⟩⟩
  have hlt : c < 4 := BitVec.lt_of_getLsbD h
  interval_cases c <;> simp

/-- The mask is applied: it stands in the register, and the other registers but the times stay. -/
theorem State.setMask_pwc (s : State) (m : BitVec 4) : (s.setMask m).pwc.unmasked = s.pwc.unmasked ∧ (s.setMask m).pwc.mask = m := by
  unfold State.setMask
  extract_lets old p s1
  split
  next h => exact ⟨rfl, h.symm⟩
  next =>
    have hend := foldl_keeps (fun u : State => u.pwc.unmasked = s.pwc.unmasked ∧ u.pwc.mask = m) State.shedEnd (classesIn (old &&& ~~~m))
      (fun u c _ h => ⟨(u.shedEnd_pwc c).1.trans h.1, (u.shedEnd_pwc c).2.trans h.2⟩) s1 ⟨rfl, rfl⟩
    exact foldl_keeps (fun u : State => u.pwc.unmasked = s.pwc.unmasked ∧ u.pwc.mask = m) State.shedStart (classesIn (m &&& ~~~old))
      (fun u c _ h => ⟨(u.shedStart_pwc c).1.trans h.1, (u.shedStart_pwc c).2.trans h.2⟩) _ hend

/-- The teams of a class that joins the mask are to be saved. -/
theorem State.setMask_asks (s : State) (m : BitVec 4) {n : Nat} {t : Team} (ht : s.team n = some t) (hres : t.resident = true) (hpriv : t.priv = false)
    (hm : m.getLsbD t.cls = true) (hold : s.pwc.mask.getLsbD t.cls = false) :
    ∃ w, (s.setMask m).team n = some w ∧ w.saveAsked = true ∧ w.shedNote = true := by
  unfold State.setMask
  extract_lets old p s1
  split
  next h =>
    rw [h, hold] at hm
    exact Bool.noConfusion hm
  next =>
    have hend := foldl_keeps (fun u : State => u.team n = some t) State.shedEnd (classesIn (old &&& ~~~m))
      (fun u c hc h => u.shedEnd_team h fun hcls => by
        rw [mem_classesIn, BitVec.getLsbD_and, ← hcls, hold] at hc
        exact Bool.noConfusion hc) s1 ht
    generalize (classesIn (old &&& ~~~m)).foldl State.shedEnd s1 = s2 at hend ⊢
    have hjoin : t.cls ∈ classesIn (m &&& ~~~old) := mem_classesIn.mpr (by
      have hlt : t.cls < 4 := BitVec.lt_of_getLsbD hm
      rw [BitVec.getLsbD_and, BitVec.getLsbD_not, hm, hold]
      simp [hlt])
    obtain ⟨l1, l2, hl⟩ := List.append_of_mem hjoin
    rw [hl, List.foldl_append, List.foldl_cons]
    obtain ⟨w, hw, hc, hr, hp, -⟩ := (foldl_asksOn State.shedStart_asksOn l1 s2).team n t hend
    generalize l1.foldl State.shedStart s2 = s3 at hw ⊢
    have hres' : w.resident = true := by
      rw [Team.resident, Team.cluster, hr]
      exact hres
    obtain ⟨z, hz, ha, hs⟩ := s3.shedStart_asks hw hres' (hp.trans hpriv)
    obtain ⟨y, hy, -, -, -, ha', hs'⟩ := (foldl_asksOn State.shedStart_asksOn l2 (s3.shedStart w.cls)).team n z hz
    rw [hc] at hy
    exact ⟨y, hy, ha' ha, hs' hs⟩

/-- The next mask holds every class of the target. -/
theorem target_nextMask (p : Pwc) (target : BitVec 4) (now : Nat) {c : Nat} (hc : target.getLsbD c = true) : (nextMask p target now).getLsbD c = true := by
  have hlt : c < 4 := BitVec.lt_of_getLsbD hc
  unfold nextMask
  extract_lets joined
  have hj : joined.getLsbD c = true := by simp [joined, hc]
  split
  · exact hj
  next h =>
    rw [Decidable.not_not.mp h] at hj
    split
    next d _ hd =>
      split
      · have hne : d ≠ c := fun he => by
          have := mem_classesIn.mp (hd ▸ List.mem_cons_self : d ∈ classesIn (p.mask &&& ~~~target))
          simp [he, hc] at this
        simp only [BitVec.getLsbD_and, BitVec.getLsbD_not, BitVec.getLsbD_shiftLeft, hj, hlt]
        have : ¬ (c - d = 0 ∧ d ≤ c) := by omega
        by_cases hdc : c < d
        · simp [hdc]
        · have : (1#4).getLsbD (c - d) = false := by
            rw [BitVec.getLsbD_one]
            simp
            omega
          simp [this]
      · exact hj
    next => exact hj

/-! ### The curves are applied -/

/-- The curve that the present inputs give. -/
def State.curveOf (s : State) (volt : Bool) : Curve :=
  let p := s.pwc
  if volt then p.volt.tick true (p.failsafe || p.volt.invalid) (validPoints p.vpt) (bits p.hyst 31 16) p.holdNs s.dtime
  else p.freq.tick false (p.failsafe || p.freq.invalid) (validPoints p.fpt) (bits p.hyst 15 0) p.holdNs s.dtime

/-- The combined target of both curves. -/
def State.target (s : State) : Demand :=
  let p := s.pwc
  ((s.curveOf false).demand false (p.failsafe || p.freq.invalid) (validPoints p.fpt) p.fspt).worse
    ((s.curveOf true).demand true (p.failsafe || p.volt.invalid) (validPoints p.vpt) p.fspt)

theorem State.applyCurves_eq (s : State) : ∃ at', s.applyCurves =
    ({ s with pwc := { s.pwc with freq := s.curveOf false, volt := s.curveOf true, cap := s.target.cap, capAt := at' } } : State).setMask
      (nextMask s.pwc s.target.mask s.dtime) := ⟨_, rfl⟩

/-- The curves change the levels, cap and mask alone of the power controller. -/
theorem State.applyCurves_pwc (s : State) : ∃ at', s.applyCurves.pwc.unmasked =
    ({ s.pwc with freq := s.curveOf false, volt := s.curveOf true, cap := s.target.cap, capAt := at' } : Pwc).unmasked := by
  obtain ⟨at', he⟩ := s.applyCurves_eq
  rw [he]
  exact ⟨at', (State.setMask_pwc ..).1⟩

/-- What stands in the registers after the curves. -/
theorem State.applied_applyCurves (s : State) : applied s s.applyCurves := by
  obtain ⟨at', hp⟩ := s.applyCurves_pwc
  obtain ⟨at'', he⟩ := s.applyCurves_eq
  have hmask : s.applyCurves.pwc.mask = nextMask s.pwc s.target.mask s.dtime := by
    rw [he]
    exact (State.setMask_pwc ..).2
  refine ⟨(congrArg Pwc.freq hp : s.applyCurves.pwc.unmasked.freq = _), (congrArg Pwc.volt hp : s.applyCurves.pwc.unmasked.volt = _),
    (congrArg Pwc.cap hp : s.applyCurves.pwc.unmasked.cap = _), hmask, fun c _ hc => ?_, fun n t ht _ hres hpriv hm hold => ?_⟩
  · rw [hmask]
    exact target_nextMask s.pwc _ s.dtime hc
  · rw [hmask] at hm
    rw [he]
    exact State.setMask_asks _ _ ht hres hpriv hm hold

/-! ### Frames (R307 to R311) -/

theorem exec_telemetryFrame (b : Bool) (bs : List Byte) (s : State) : exec (.telemetryFrame b bs) s = execTelemetryFrame b bs s := rfl
theorem exec_partialFrameDiscard (b : Bool) (s : State) : exec (.partialFrameDiscard b) s = execPartialFrameDiscard b s := rfl
theorem exec_linkValidFrameTimeout (b : Bool) (s : State) : exec (.linkValidFrameTimeout b) s = execLinkValidFrameTimeout b s := rfl
theorem exec_failsafeEntry (s : State) : exec .failsafeEntry s = execFailsafeEntry s := rfl
theorem exec_curveTick (s : State) : exec .curveTick s = execCurveTick s := rfl
theorem exec_graceExpiry (c : Nat) (s : State) : exec (.graceExpiry c) s = execGraceExpiry c s := rfl

/-- The registers after a valid frame, before it is accepted. -/
def Pwc.marked (p : Pwc) (b : Bool) (now : Nat) : Pwc :=
  if b then { p.setPart b none with linkB := some now } else { p.setPart b none with linkA := some now }

theorem Pwc.marked_accepts (p : Pwc) (b : Bool) (now seq : Nat) : (p.marked b now).accepts seq = p.accepts seq := by
  cases b <;> rfl

theorem execTelemetryFrame_eq (b : Bool) (bytes : List Byte) (s : State) : execTelemetryFrame b bytes s =
    if frameValid (s.pwc.received b s.dtime ++ bytes) = false then .next { s with pwc := s.pwc.setPart b none }
    else if s.pwc.accepts (frameField (s.pwc.received b s.dtime ++ bytes) 5 4) = true then
      .next (({ s with pwc := (s.pwc.marked b s.dtime).take (s.pwc.received b s.dtime ++ bytes) s.dtime } : State).applyCurves)
    else .next { s with pwc := s.pwc.marked b s.dtime } := by
  unfold execTelemetryFrame
  extract_lets frame p0 p1
  have hp1 : p1 = s.pwc.marked b s.dtime := rfl
  rw [hp1, Pwc.marked_accepts]
  cases frameValid frame <;> rfl

/-- The curves leave what a frame has brought. -/
theorem State.applyCurves_inputs (s : State) : s.applyCurves.pwc.linkA = s.pwc.linkA ∧ s.applyCurves.pwc.linkB = s.pwc.linkB ∧
    s.applyCurves.pwc.lastSeq = s.pwc.lastSeq ∧ s.applyCurves.pwc.since = s.pwc.since ∧ s.applyCurves.pwc.failsafe = s.pwc.failsafe ∧
    s.applyCurves.pwc.first = s.pwc.first ∧ s.applyCurves.pwc.headroom = s.pwc.headroom ∧ s.applyCurves.pwc.rocof = s.pwc.rocof ∧
    s.applyCurves.pwc.tickAt = s.pwc.tickAt := by
  obtain ⟨at', h⟩ := s.applyCurves_pwc
  exact ⟨(congrArg Pwc.linkA h : s.applyCurves.pwc.unmasked.linkA = _), (congrArg Pwc.linkB h : s.applyCurves.pwc.unmasked.linkB = _),
    (congrArg Pwc.lastSeq h : s.applyCurves.pwc.unmasked.lastSeq = _), (congrArg Pwc.since h : s.applyCurves.pwc.unmasked.since = _),
    (congrArg Pwc.failsafe h : s.applyCurves.pwc.unmasked.failsafe = _), (congrArg Pwc.first h : s.applyCurves.pwc.unmasked.first = _),
    (congrArg Pwc.headroom h : s.applyCurves.pwc.unmasked.headroom = _), (congrArg Pwc.rocof h : s.applyCurves.pwc.unmasked.rocof = _),
    (congrArg Pwc.tickAt h : s.applyCurves.pwc.unmasked.tickAt = _)⟩

theorem framesAreTaken_holds : framesAreTaken := by
  intro s b bytes frame
  have hexec := (exec_telemetryFrame b bytes s).trans (execTelemetryFrame_eq b bytes s)
  refine ⟨fun hv => hexec.trans (if_pos hv), fun hv ha => ⟨_, hexec.trans ((if_neg (by rw [hv]; nofun)).trans (if_neg (by rw [ha]; nofun))), ?_⟩, fun hv ha => ?_⟩
  · cases b <;> exact ⟨rfl, rfl, rfl, rfl, rfl, rfl, rfl⟩
  · intro s1
    have hs1 : s1 = { s with pwc := (s.pwc.marked b s.dtime).take frame s.dtime } := by cases b <;> rfl
    refine ⟨?_, s1.applied_applyCurves, rfl, rfl, ?_⟩
    · rw [hs1]
      exact hexec.trans ((if_neg (by rw [hv]; nofun)).trans (if_pos ha))
    · obtain ⟨hA, hB, hseq, hsince, hfail, hfirst, hhead, hroc, -⟩ := s1.applyCurves_inputs
      intro u
      refine ⟨?_, hseq.trans ?_, hsince.trans ?_, hfail.trans ?_, hfirst.trans ?_, rfl, ?_, ?_, ?_, ?_, hhead.trans ?_, hroc.trans ?_⟩
      · cases b
        · exact hA
        · exact hB
      all_goals
        cases b <;> rfl

/-! ### Timers (R307, R310, R311, R313, R320) -/

/-- A curve that yields stands at fail-safe. -/
theorem Curve.tick_yields (c : Curve) (volt : Bool) (pts : List W64) (hyst : Int) (hold now : Nat) :
    (c.tick volt true pts hyst hold now).level = .failsafe := rfl

theorem Curve.demand_failsafe {c : Curve} (hc : c.level = .failsafe) (volt : Bool) (pts : List W64) (fspt : W64) :
    (c.demand volt true pts fspt).cap = ptCap fspt := by
  unfold Curve.demand
  dsimp only
  rw [if_neg fun h => Bool.noConfusion h.2, hc]
  rfl

/-- In fail-safe both curves stand at fail-safe, and the cap is FSPT's (R310). -/
theorem State.applyCurves_failsafe {s : State} (h : s.pwc.failsafe = true) :
    s.applyCurves.pwc.freq.level = .failsafe ∧ s.applyCurves.pwc.volt.level = .failsafe ∧ s.applyCurves.pwc.cap = ptCap s.pwc.fspt := by
  obtain ⟨at', hp⟩ := s.applyCurves_pwc
  have hfreq : (s.curveOf false).level = .failsafe := by
    unfold State.curveOf
    dsimp only
    rw [h]
    rfl
  have hvolt : (s.curveOf true).level = .failsafe := by
    unfold State.curveOf
    dsimp only
    rw [h]
    rfl
  have hcap : s.target.cap = ptCap s.pwc.fspt := by
    unfold State.target
    dsimp only
    rw [h]
    show min (Curve.demand ..).cap (Curve.demand ..).cap = _
    rw [Bool.true_or, Bool.true_or, Curve.demand_failsafe hfreq, Curve.demand_failsafe hvolt, min_self]
  exact ⟨(congrArg (fun p => p.freq.level) hp : s.applyCurves.pwc.unmasked.freq.level = _).trans hfreq,
    (congrArg (fun p => p.volt.level) hp : s.applyCurves.pwc.unmasked.volt.level = _).trans hvolt,
    (congrArg Pwc.cap hp : s.applyCurves.pwc.unmasked.cap = _).trans hcap⟩

/-- The teams of a class whose grace is over are to be pre-empted. -/
theorem State.graceTeams (s : State) (cls n : Nat) {t : Team} (ht : s.team n = some t) :
    Tbl.find? (s.teams.map fun e => if e.2.cls == cls && e.2.resident && e.2.saveAsked then (e.1, { e.2 with preempt := true }) else e) n =
      some (if t.cls = cls ∧ t.resident = true ∧ t.saveAsked = true then { t with preempt := true } else t) := by
  have hmap : (s.teams.map fun e => if e.2.cls == cls && e.2.resident && e.2.saveAsked then (e.1, { e.2 with preempt := true }) else e) =
      s.teams.map fun e => (e.1, if e.2.cls = cls ∧ e.2.resident = true ∧ e.2.saveAsked = true then { e.2 with preempt := true } else e.2) :=
    List.map_congr_left fun e _ => by
      simp only [Bool.and_eq_true, beq_iff_eq, and_assoc]
      split <;> rfl
  rw [hmap, Tbl.find?_map s.teams (fun _ x => if x.cls = cls ∧ x.resident = true ∧ x.saveAsked = true then { x with preempt := true } else x),
    show Tbl.find? s.teams n = some t from ht]
  rfl

theorem powerTimers_holds : powerTimers := by
  refine ⟨fun s b p hp => ⟨fun hd => ?_, fun hd => ?_⟩, fun s b t ht => ⟨fun hd => ?_, fun hd => ?_⟩, fun s => ⟨fun hen hfs hd => ?_, fun hd => ?_,
    fun hen hd htick hfirst => ?_, fun hd => ?_⟩, fun s cls t0 ht0 => ⟨fun hd => ?_, fun hd => ?_⟩⟩
  · rw [exec_partialFrameDiscard, execPartialFrameDiscard, Pwc.received, hp]
    exact ⟨if_pos hd, if_pos hd⟩
  · rw [exec_partialFrameDiscard, execPartialFrameDiscard, Pwc.received, hp]
    exact ⟨if_neg (by omega), if_neg (by omega)⟩
  · rw [exec_linkValidFrameTimeout, execLinkValidFrameTimeout, ht]
    exact if_pos hd
  · rw [exec_linkValidFrameTimeout, execLinkValidFrameTimeout, ht]
    exact if_neg (by omega)
  · let s1 : State := { s with pwc := { s.pwc with failsafe := true, tickAt := s.dtime } }
    have hexec : exec .failsafeEntry s = .next (s1.applyCurves.fire 0 1) :=
      (exec_failsafeEntry s).trans (if_pos (by simp [hen, hfs, hd]))
    obtain ⟨hfreq, hvolt, hcap⟩ := State.applyCurves_failsafe (s := s1) rfl
    obtain ⟨-, -, -, -, hfail, -⟩ := s1.applyCurves_inputs
    exact ⟨_, hexec, hfail, hfreq, hvolt, hcap, List.mem_cons_self, (State.applyCurves_mem (s := s1)).trans rfl⟩
  · rw [exec_failsafeEntry, execFailsafeEntry, if_neg (by simp; omega)]
  · let s1 : State := { s with pwc := { s.pwc with tickAt := s.dtime } }
    have hexec : exec .curveTick s = .next s1.applyCurves :=
      (exec_curveTick s).trans (if_pos (by simpa [hen, hd, htick] using hfirst))
    obtain ⟨-, -, -, hsince, -, -, -, -, htickAt⟩ := s1.applyCurves_inputs
    exact ⟨_, hexec, s1.applied_applyCurves, (State.applyCurves_mem (s := s1)).trans rfl, hsince, htickAt⟩
  · rw [exec_curveTick, execCurveTick, if_neg]
    simp only [Bool.and_eq_true, decide_eq_true_eq]
    omega
  · have hexec := exec_graceExpiry cls s
    rw [execGraceExpiry, ht0] at hexec
    exact ⟨_, hexec.trans (if_pos hd), (Tbl.find?_del ..).trans (if_pos rfl), rfl, fun n t ht => s.graceTeams cls n ht⟩
  · rw [exec_graceExpiry, execGraceExpiry, ht0]
    exact if_neg (by omega)

/-- Settles O55: telemetry frames, fail-safe and the timers of the power controller. -/
theorem powerFrames : Obligations.PowerFrames := ⟨framesAreTaken_holds, powerTimers_holds⟩

end Sys2Proof.Machine
end

section
/-! O56: the clock, Mule, heat and gating (R310 to R316, R322 to R324). -/

namespace Sys2Proof.Machine

theorem exec_powerEnable (w : W64) (s : State) : exec (.powerEnable w) s = execPowerEnable w s := rfl
theorem exec_powerDisable (w : W64) (s : State) : exec (.powerDisable w) s = execPowerDisable w s := rfl
theorem exec_controlInterval (die : Nat) (temps : List Nat) (s : State) : exec (.controlInterval die temps) s = execControlInterval die temps s := rfl
theorem exec_currentLimit (p : Nat) (above : Bool) (s : State) : exec (.currentLimit p above) s = execCurrentLimit p above s := rfl
theorem exec_mule (p l u : Nat) (s : State) : exec (.mule p l u) s = execMule p l u s := rfl
theorem exec_thermalMigration (p : Nat) (s : State) : exec (.thermalMigration p) s = execThermalMigration p s := rfl
theorem exec_pairPowerGate (p : Nat) (s : State) : exec (.pairPowerGate p) s = execPairPowerGate p s := rfl

/-- PCTL's modes hold no EN. -/
theorem bit_modes (w r : W64) : bit (w &&& 6#64 ||| (r &&& 0x10#64)) 0 = false := by
  unfold bit
  simp

/-- The writes of PCTL (R310 to R312). -/
theorem powerWrites (s : State) (w : W64) : let p := s.pwc
    (bit w 0 = true → p.en = false → tableOk false p.fpt = true → tableOk true p.vpt = true → ptBad p.fspt 0x000F07FF00000000#64 = false →
      ∃ u, exec (.powerEnable w) s = .next u ∧ u.pwc.pctl = (w &&& 6#64 ||| 1#64) ∧ u.pwc.first = true ∧ u.pwc.since = s.dtime ∧
        u.pwc.freq.level = .none ∧ u.pwc.volt.level = .none ∧ u.pwc.cap = p.cap ∧ u.pwc.mask = p.mask) ∧
    (bit w 0 = true → p.en = false → tableOk false p.fpt = false ∨ tableOk true p.vpt = false ∨ ptBad p.fspt 0x000F07FF00000000#64 = true →
      ∃ u, exec (.powerEnable w) s = .next u ∧ u.pwc.pctl = (w &&& 6#64 ||| 0x10#64) ∧ u.pwc.first = p.first) ∧
    (bit w 0 = false → ∃ u, exec (.powerDisable w) s = .next u ∧ u.pwc.en = false ∧ u.pwc.cap = 1024 ∧ u.pwc.mask = 0) := by
  intro p
  have henable (hw : bit w 0 = true) (hen : p.en = false) : exec (.powerEnable w) s =
      if tableOk false p.fpt && tableOk true p.vpt && !ptBad p.fspt 0x000F07FF00000000#64 then
        .next { s with pwc := { p with pctl := (w &&& 6#64) ||| 1#64, first := true, since := s.dtime, tickAt := s.dtime, failsafe := false,
                                       freq := Curve.reset, volt := Curve.reset } }
      else .next { s with pwc := { p with pctl := (w &&& 6#64) ||| 0x10#64 } } := by
    rw [exec_powerEnable, execPowerEnable, if_neg (by rw [hw]; nofun)]
    exact if_neg (by rw [hen]; nofun)
  refine ⟨fun hw hen hf hv hb => ⟨_, (henable hw hen).trans (if_pos (by rw [hf, hv, hb]; rfl)), rfl, rfl, rfl, rfl, rfl, rfl, rfl⟩,
    fun hw hen hbad => ⟨_, (henable hw hen).trans (if_neg ?_), rfl, rfl⟩, fun hw => ?_⟩
  · obtain h | h | h := hbad <;> simp [h]
  · let p1 : Pwc := { p with
      pctl := (w &&& 6#64) ||| (p.pctl &&& 0x10#64), failsafe := false, cap := 1024, capAt := if p.cap = 1024 then p.capAt else some s.dtime,
      freq := Curve.reset, volt := Curve.reset }
    have hexec : exec (.powerDisable w) s = .next (({ s with pwc := p1 } : State).setMask 0) := by
      rw [exec_powerDisable, execPowerDisable, if_neg (by rw [hw]; nofun)]
    obtain ⟨hun, hmask⟩ := State.setMask_pwc ({ s with pwc := p1 } : State) 0
    refine ⟨_, hexec, ?_, (congrArg Pwc.cap hun : (Pwc.unmasked _).cap = _), hmask⟩
    have hpctl : (({ s with pwc := p1 } : State).setMask 0).pwc.pctl = p1.pctl :=
      (congrArg Pwc.pctl hun : (({ s with pwc := p1 } : State).setMask 0).pwc.unmasked.pctl = _)
    rw [Pwc.en, hpctl]
    exact bit_modes w p.pctl

/-! ### Pairs -/

theorem State.pair_modPair (s : State) (k n : Nat) (f : Pair → Pair) : (s.modPair k f).pair n = if n = k then f (s.pair k) else s.pair n := by
  unfold State.pair
  rw [State.modPair_pairs, Tbl.find?_ins]
  split <;> rfl

@[simp] theorem State.pair_modPair_same (s : State) (k : Nat) (f : Pair → Pair) : (s.modPair k f).pair k = f (s.pair k) := by
  rw [State.pair_modPair, if_pos rfl]

theorem State.pair_congr {s t : State} (h : t.pairs = s.pairs) (n : Nat) : t.pair n = s.pair n := by
  unfold State.pair
  rw [h]

/-- What is due no more in its period. -/
theorem duePeriod_none {n now : Nat} {o : Option Nat} (h : ∀ t, o = some t → t / n < now / n) : duePeriod n now o = true := by
  cases o with
  | none => rfl
  | some t => exact decide_eq_true (h t rfl)

theorem duePeriod_some {n now t : Nat} {o : Option Nat} (ho : o = some t) (h : now / n ≤ t / n) : duePeriod n now o = false := by
  rw [ho]
  exact decide_eq_false (by omega)

/-- The current limit and Mule (R315, R323). -/
theorem pairEvents (s : State) (pair lower upper : Nat) :
    (∃ u, exec (.currentLimit pair true) s = .next u ∧ (u.pair pair).throttle = min 16 ((s.pair pair).throttle + 1)) ∧
    exec (.currentLimit pair false) s = .next s ∧
    (∀ t, (s.pair pair).measured = some t → s.dtime / 1000 ≤ t / 1000 → exec (.mule pair lower upper) s = .next s) ∧
    ((∀ t, (s.pair pair).measured = some t → t / 1000 < s.dtime / 1000) → ∃ u, exec (.mule pair lower upper) s = .next u ∧
      (u.pair pair).measured = some s.dtime ∧
      (80 < upper - lower → (u.pair pair).upper = max 4 ((s.pair pair).upper - 1) ∧ (u.pair pair).lower = (s.pair pair).lower ∧
        (u.pair pair).heavy = some true) ∧
      (80 < lower - upper → (u.pair pair).lower = max 4 ((s.pair pair).lower - 1) ∧ (u.pair pair).upper = (s.pair pair).upper ∧
        (u.pair pair).heavy = some false) ∧
      (upper - lower < 40 → lower - upper < 40 → (u.pair pair).lower = min 16 ((s.pair pair).lower + 1) ∧
        (u.pair pair).upper = min 16 ((s.pair pair).upper + 1) ∧ (u.pair pair).heavy = none) ∧
      (100 < upper - lower ∨ 100 < lower - upper → let n := (s.pair pair).overFor + 1
        (n < 10 → (u.pair pair).overFor = n ∧ (u.pair pair).overLong = (s.pair pair).overLong) ∧
        (10 ≤ n → (u.pair pair).overFor = 0 ∧ (u.pair pair).overLong = true)) ∧
      (upper - lower ≤ 100 → lower - upper ≤ 100 → (u.pair pair).overFor = 0 ∧ (u.pair pair).overLong = (s.pair pair).overLong)) := by
  refine ⟨⟨_, rfl, by rw [State.pair_modPair_same]⟩, rfl, fun t ht hd => ?_, fun hd => ?_⟩
  · rw [exec_mule, execMule, duePeriod_some ht hd]
    rfl
  · refine ⟨_, (exec_mule ..).trans (if_neg (by rw [duePeriod_none hd]; nofun)), ?_⟩
    rw [State.pair_modPair_same]
    unfold distance
    refine ⟨rfl, fun h => ?_, fun h => ?_, fun h h' => ?_, fun h => ⟨fun hn => ?_, fun hn => ?_⟩, fun h h' => ?_⟩
    · have hlt : lower < upper := by omega
      have hd' : lower - upper + (upper - lower) > 80 ∧ ¬ lower - upper + (upper - lower) < 40 := by omega
      simp [hlt, hd']
    · have hlt : ¬ lower < upper := by omega
      have hd' : lower - upper + (upper - lower) > 80 ∧ ¬ lower - upper + (upper - lower) < 40 := by omega
      simp [hlt, hd']
    · have hd' : ¬ lower - upper + (upper - lower) > 80 ∧ lower - upper + (upper - lower) < 40 := by omega
      simp [hd']
    · have hd' : lower - upper + (upper - lower) > 100 := by omega
      have hn' : ¬ 10 ≤ (s.pair pair).overFor + 1 := by omega
      simp [hd', hn']
    · have hd' : lower - upper + (upper - lower) > 100 := by omega
      have hn' : 10 ≤ (s.pair pair).overFor + 1 := hn
      simp [hd', hn']
    · have hd' : ¬ lower - upper + (upper - lower) > 100 := by omega
      simp [hd']

/-- Migration for heat, and gating (R322, R324). -/
theorem heatEvents (s : State) (pair : Nat) :
    ((s.pair pair).temp ≤ bits s.pwc.therm 7 0 → exec (.thermalMigration pair) s = .next s) ∧
    (∀ team c s1 rest, bits s.pwc.therm 7 0 < (s.pair pair).temp → (∀ t, (s.pair pair).moved = some t → t + 1000000 ≤ s.dtime) →
      ((s.teams.filter fun e => (decide (e.2.cluster = some (2 * pair)) || decide (e.2.cluster = some (2 * pair + 1))) && !e.2.priv).map (·.1)) = [team] →
      s.coolClusters (pair / 16) = c :: rest → ({ s with fresh := s.fresh + 1 } : State).migrate team c = some s1 →
      ∃ u, exec (.thermalMigration pair) s = .next u ∧ u.teams = s1.teams ∧ (u.pair pair).moved = some s.dtime) ∧
    (s.teamsAt (2 * pair) = [] → s.teamsAt (2 * pair + 1) = [] → ∃ u, exec (.pairPowerGate pair) s = .next u ∧ (u.pair pair).gated = true) ∧
    (s.teamsAt (2 * pair) ≠ [] ∨ s.teamsAt (2 * pair + 1) ≠ [] → exec (.pairPowerGate pair) s = .next s) := by
  refine ⟨fun h => ?_, fun team c s1 rest hhot hmoved hteams hcool hmig => ?_, fun h h' => ⟨_, if_pos ⟨h, h'⟩, ?_⟩, fun h => if_neg ?_⟩
  · rw [exec_thermalMigration, execThermalMigration]
    exact if_pos (.inl h)
  · have hexec : exec (.thermalMigration pair) s = .next (s1.modPair pair fun p => { p with moved := some s.dtime }) := by
      show execThermalMigration pair s = _
      unfold execThermalMigration
      extract_lets p due teams pick s0
      have hdue : due = true := by
        cases hm : p.moved with
        | none => simp only [due, hm]
        | some t => simp only [due, hm, ge_iff_le, hmoved t hm, decide_true]
      have hpick : pick = some team := by
        simp only [pick, show teams = [team] from hteams]
      have hfirst : ({ s with fresh := s.fresh + 1 } : State).firstMigration team (s.coolClusters (pair / 16)) = some s1 := by
        rw [hcool, State.firstMigration, hmig]
      rw [if_neg (by rw [hdue]; exact fun h => h.elim (Nat.not_le.mpr hhot) Bool.noConfusion), hpick]
      dsimp only
      rw [hfirst]
    exact ⟨_, hexec, rfl, by rw [State.pair_modPair_same]⟩
  · rw [State.pair_modPair_same]
  · rintro ⟨h1, h2⟩
    exact h.elim (· h1) (· h2)

/-! ### The control interval (R305, R315, R316, R324) -/

theorem mem_pairsOf {die n : Nat} : n ∈ pairsOf die ↔ ∃ k, k < 16 ∧ n = 16 * die + k := by
  simp [pairsOf, eq_comm]

theorem pairsOf_getElem? (die k : Nat) (hk : k < 16) : (pairsOf die)[k]? = some (16 * die + k) := by
  simp [pairsOf, hk]

theorem length_pairsOf (die : Nat) : (pairsOf die).length = 16 := by simp [pairsOf]

/-- Pairs whose temperatures are reported: the last report of each stands, and nothing else changes. -/
theorem State.reported_other (l : List (Nat × Nat)) (s : State) {n : Nat} (hn : ∀ e ∈ l, e.1 ≠ n) :
    (l.foldl (fun u e => u.modPair e.1 fun p => { p with temp := e.2 }) s).pair n = s.pair n :=
  foldl_keeps (fun u : State => u.pair n = s.pair n) _ l (fun u e he h => by rw [State.pair_modPair, if_neg (hn e he).symm, h]) s rfl

theorem State.reported (l : List (Nat × Nat)) (hl : (l.map Prod.fst).Nodup) (s : State) {e : Nat × Nat} (he : e ∈ l) :
    (l.foldl (fun u e => u.modPair e.1 fun p => { p with temp := e.2 }) s).pair e.1 = { s.pair e.1 with temp := e.2 } := by
  induction l generalizing s with
  | nil => exact absurd he List.not_mem_nil
  | cons d l ih =>
    rw [List.map_cons, List.nodup_cons] at hl
    obtain rfl | hmem := List.mem_cons.mp he
    · rw [List.foldl_cons, State.reported_other l _ fun d hd heq => hl.1 (List.mem_map.mpr ⟨d, hd, heq⟩), State.pair_modPair_same]
    · rw [List.foldl_cons, ih hl.2 _ hmem, State.pair_modPair, if_neg fun heq => hl.1 (List.mem_map.mpr ⟨e, hmem, heq⟩)]

/-- The pairs of a die after their temperatures are reported. -/
def State.heated (s : State) (die : Nat) (temps : List Nat) : State :=
  ((pairsOf die).zip temps).foldl (fun u e => u.modPair e.1 fun p => { p with temp := e.2 }) s

theorem State.heated_pair (s : State) (die : Nat) {temps : List Nat} (hl : temps.length = 16) {k t : Nat} (ht : temps[k]? = some t) :
    (s.heated die temps).pair (16 * die + k) = { s.pair (16 * die + k) with temp := t } := by
  have hk : k < 16 := by
    obtain ⟨h, -⟩ := List.getElem?_eq_some_iff.mp ht
    omega
  have hnodup : (((pairsOf die).zip temps).map Prod.fst).Nodup := by
    rw [List.map_fst_zip (by rw [length_pairsOf, hl])]
    exact List.nodup_range.map fun _ _ => Nat.add_left_cancel
  refine State.reported _ hnodup s (e := (16 * die + k, t)) (List.mem_iff_getElem?.mpr ⟨k, ?_⟩)
  rw [List.getElem?_zip_eq_some]
  exact ⟨pairsOf_getElem? die k hk, ht⟩

/-- Everything but the pairs. -/
def State.unpaired (s : State) : State := { s with pairs := [] }

theorem foldl_unpaired {α : Type} {f : State → α → State} (hf : ∀ u a, (f u a).unpaired = u.unpaired) (l : List α) (s : State) :
    (l.foldl f s).unpaired = s.unpaired :=
  foldl_keeps (fun u : State => u.unpaired = s.unpaired) f l (fun u a _ h => (hf u a).trans h) s rfl

theorem State.modPair_unpaired (s : State) (k : Nat) (f : Pair → Pair) : (s.modPair k f).unpaired = s.unpaired := rfl

theorem State.heated_unpaired (s : State) (die : Nat) (temps : List Nat) : (s.heated die temps).unpaired = s.unpaired :=
  foldl_unpaired (f := fun u (e : Nat × Nat) => u.modPair e.1 fun p => { p with temp := e.2 }) (fun _ _ => rfl) _ s

/-- The pair without the marks that an interval takes. -/
def Pair.cleared (p : Pair) : Pair := { p with throttle := 0, overLong := false }

/-- The pairs of a die after the interval has taken their marks. -/
def State.taken (s : State) (die : Nat) : State := (pairsOf die).foldl (fun u k => u.modPair k Pair.cleared) s

theorem State.taken_unpaired (s : State) (die : Nat) : (s.taken die).unpaired = s.unpaired :=
  foldl_unpaired (fun u k => u.modPair_unpaired k _) _ s

theorem State.pair_cleared (s : State) (n : Nat) (l : List Nat) (u : State) (hu : u.pair n = s.pair n ∨ u.pair n = (s.pair n).cleared)
    (hn : n ∈ l ∨ u.pair n = (s.pair n).cleared) : (l.foldl (fun u k => u.modPair k Pair.cleared) u).pair n = (s.pair n).cleared := by
  induction l generalizing u with
  | nil => exact hn.resolve_left List.not_mem_nil
  | cons k l ih =>
    by_cases hk : n = k
    · have hset : (u.modPair k Pair.cleared).pair n = (s.pair n).cleared := by
        rw [State.pair_modPair, if_pos hk, ← hk]
        obtain h | h := hu <;> rw [h]
        rfl
      exact ih _ (.inr hset) (.inr hset)
    · have hkeep : (u.modPair k Pair.cleared).pair n = u.pair n := (u.pair_modPair k n _).trans (if_neg hk)
      refine ih _ (by rwa [hkeep]) (hn.imp (fun h => (List.mem_cons.mp h).resolve_left hk) hkeep.trans)

theorem State.taken_pair (s : State) {die n : Nat} (hn : n ∈ pairsOf die) : (s.taken die).pair n = (s.pair n).cleared :=
  s.pair_cleared n _ s (.inl rfl) (.inl hn)

theorem State.die_ins (s : State) (d n : Nat) (x : Die) : ({ s with dies := Tbl.ins s.dies d x } : State).die n = if n = d then x else s.die n := by
  unfold State.die
  rw [Tbl.find?_ins]
  split <;> rfl

theorem State.die_congr {s t : State} (h : t.dies = s.dies) (n : Nat) : t.die n = s.die n := by
  unfold State.die
  rw [h]

/-- A team after the event of a die's DMC: the parked threads of the die's privileged one go on (R305). -/
def Team.unhaltedOn (die : Nat) (t : Team) : Team := if t.priv && t.part == 12 + die then { t with agents := t.agents.map fun g => (g.1, g.2.unhalt) } else t

theorem State.team_dmcEventOn (s : State) (die n : Nat) : (s.dmcEventOn die).team n = (s.team n).map (Team.unhaltedOn die) :=
  Tbl.find?_map s.teams (fun _ t => t.unhaltedOn die) n

/-- A thread that is parked in HALT goes on at its die's DMC event. -/
theorem State.dmcEventOn_wakes (s : State) {die : Nat} {a : AgentId} {t : Team} {x : Agent} (ht : s.team a.team = some t) (hp : t.priv = true)
    (hd : t.part = 12 + die) (hx : s.agent a = some x) (hh : x.block = some .halt) :
    ∃ y, (s.dmcEventOn die).agent a = some y ∧ y.block = none ∧ y.answer = some 0 ∧ y.lanes = x.lanes := by
  have hfind : Tbl.find? t.agents a.who = some x := by
    unfold State.agent at hx
    rw [ht] at hx
    exact hx
  unfold State.agent
  rw [State.team_dmcEventOn, ht]
  simp only [Option.map_some, Option.bind_some, Team.unhaltedOn, hp, hd, Bool.true_and, beq_self_eq_true, if_true]
  rw [Tbl.find?_map t.agents (fun _ x => x.unhalt), hfind]
  refine ⟨x.unhalt, rfl, ?_⟩
  rw [Agent.unhalt, if_pos hh]
  exact ⟨rfl, rfl, rfl⟩

/-- A die after its interval, by the present state's pairs. -/
def State.nextDie (s : State) (die : Nat) : Die :=
  let ps := (pairsOf die).map s.pair
  let d := s.die die
  let th := nextTherm d.clock d.thermCap s.pwc.tcap (ps.map fun p => p.temp)
  let cu := nextCurrent d.clock d.curCap s.fresh ps
  { d with thermCap := th, curCap := cu, clock := max 200 (min (min th cu) (s.gridStep die)), served := some s.dtime }

/-- The state with a die's record replaced. -/
def State.setDie (s : State) (die : Nat) (d : Die) : State := { s with dies := Tbl.ins s.dies die d }

/-- What is left to do once the pairs have taken their marks changes neither pairs, dies nor teams, but for the DMC's event. -/
theorem State.intervalEnd (s3 : State) (c : Bool) (draw : Nat) (p : Pwc) (die : Nat) :
    let s4 : State := { s3 with fresh := draw, pwc := p }
    ∃ v : State, (if c then s4.fire 0 1 else s4).dmcEventOn die = v.dmcEventOn die ∧ v.pairs = s3.pairs ∧ v.dies = s3.dies ∧ v.teams = s3.teams := by
  intro s4
  refine ⟨_, rfl, ?_⟩
  cases c <;> exact ⟨rfl, rfl, rfl⟩

theorem execControlInterval_due {s : State} {die : Nat} (hd : ∀ t, (s.die die).served = some t → t / 10000 < s.dtime / 10000) (temps : List Nat) :
    ∃ v : State, execControlInterval die temps s = .next (v.dmcEventOn die) ∧
      v.pairs = (((s.heated die temps).setDie die ((s.heated die temps).nextDie die)).taken die).pairs ∧
      v.dies = (((s.heated die temps).setDie die ((s.heated die temps).nextDie die)).taken die).dies ∧
      v.teams = (((s.heated die temps).setDie die ((s.heated die temps).nextDie die)).taken die).teams := by
  have hdtime : s.dtime = (s.heated die temps).dtime :=
    (congrArg State.dtime (s.heated_unpaired die temps) : (s.heated die temps).unpaired.dtime = s.unpaired.dtime).symm
  unfold execControlInterval
  rw [if_neg (by rw [duePeriod_none hd]; nofun)]
  extract_lets s1 ps d th cu clock s2 s3 miss s4
  have h3 : s3 = ((s.heated die temps).setDie die ((s.heated die temps).nextDie die)).taken die := by
    unfold s3 s2
    rw [hdtime]
    rfl
  obtain ⟨v, hv, hp, hdies, ht⟩ := s3.intervalEnd (miss && !s.pwc.capMiss) (s3.fresh + 1) { s3.pwc with capMiss := miss } die
  exact ⟨v, congrArg Host.Outcome.next hv, hp.trans (h3 ▸ rfl), hdies.trans (h3 ▸ rfl), ht.trans (h3 ▸ rfl)⟩

/-- A list that maps to the temperatures. -/
theorem State.heated_temps (s : State) (die : Nat) {temps : List Nat} (hl : temps.length = 16) :
    ((pairsOf die).map (s.heated die temps).pair).map (fun p => p.temp) = temps := by
  refine List.ext_getElem? fun k => ?_
  by_cases hk : k < 16
  · have ht : temps[k]? = some (temps[k]'(hl ▸ hk)) := List.getElem?_eq_getElem _
    rw [List.getElem?_map, List.getElem?_map, pairsOf_getElem? die k hk, ht]
    exact congrArg (fun p : Pair => some p.temp) (s.heated_pair die hl ht)
  · rw [List.getElem?_eq_none (by simp [pairsOf]; omega), List.getElem?_eq_none (by omega)]

/-- A mark of a pair of the die that heating leaves. -/
theorem State.heated_any (s : State) (die : Nat) {temps : List Nat} (hl : temps.length = 16) {p : Pair → Bool} (hp : ∀ q t, p { q with temp := t } = p q) :
    ((pairsOf die).map (s.heated die temps).pair).any p = true ↔ ∃ k, k < 16 ∧ p (s.pair (16 * die + k)) = true := by
  have hpair : ∀ k, k < 16 → p ((s.heated die temps).pair (16 * die + k)) = p (s.pair (16 * die + k)) := fun k hk => by
    rw [s.heated_pair die hl (List.getElem?_eq_getElem (hl ▸ hk)), hp]
  rw [List.any_map, List.any_eq_true]
  constructor
  · rintro ⟨n, hn, h⟩
    obtain ⟨k, hk, rfl⟩ := mem_pairsOf.mp hn
    exact ⟨k, hk, (hpair k hk).symm.trans h⟩
  · rintro ⟨k, hk, h⟩
    exact ⟨16 * die + k, mem_pairsOf.mpr ⟨k, hk, rfl⟩, (hpair k hk).trans h⟩

/-- The current cap by what the interval has seen (R315, R323). -/
theorem nextCurrent_cases (clock cap draw : Nat) (ps : List Pair) :
    let differs := ps.any (fun p => p.overLong) = true
    let throttled := ps.any (fun p => decide (p.throttle > 0)) = true
    let less := max 200 (cap - 25)
    let slow := max 200 (clock - 25)
    (differs → ¬ throttled → nextCurrent clock cap draw ps = min 850 less) ∧ (¬ differs → throttled → nextCurrent clock cap draw ps = min 850 slow) ∧
      (differs → throttled → nextCurrent clock cap draw ps = min less slow) := by
  intro differs throttled less slow
  unfold nextCurrent
  extract_lets free l w
  refine ⟨fun hd ht => ?_, fun hd ht => ?_, fun hd ht => ?_⟩
  · rw [if_pos (by rw [show ps.any _ = true from hd]; rfl), show l = less from if_pos hd, show w = 850 from if_neg ht, Nat.min_comm]
  · rw [if_pos (by rw [show ps.any (fun p => decide (p.throttle > 0)) = true from ht, Bool.or_true]), show l = 850 from if_neg hd, show w = slow from if_pos ht]
  · rw [if_pos (by rw [show ps.any _ = true from hd]; rfl), show l = less from if_pos hd, show w = slow from if_pos ht]

/-- The die's record after the interval (R314, R315, R324). -/
theorem State.nextDie_heated (s : State) (die : Nat) {temps : List Nat} (hl : temps.length = 16) :
    ((s.heated die temps).nextDie die).served = some s.dtime ∧
      ((s.heated die temps).nextDie die).thermCap = nextTherm (s.die die).clock (s.die die).thermCap (bits s.pwc.therm 15 8) temps ∧
      ((s.heated die temps).nextDie die).clock =
        max 200 (min (min ((s.heated die temps).nextDie die).thermCap ((s.heated die temps).nextDie die).curCap) (s.gridStep die)) ∧
      ((s.heated die temps).nextDie die).curCap =
        nextCurrent (s.die die).clock (s.die die).curCap s.fresh ((pairsOf die).map (s.heated die temps).pair) := by
  have h1 := s.heated_unpaired die temps
  have htemps := s.heated_temps die hl
  generalize s.heated die temps = s1 at h1 htemps
  have hd1 : s1.die die = s.die die := State.die_congr (congrArg State.dies h1 : s1.unpaired.dies = s.unpaired.dies) die
  have hpwc : s1.pwc = s.pwc := (congrArg State.pwc h1 : s1.unpaired.pwc = s.unpaired.pwc)
  have hfresh : s1.fresh = s.fresh := (congrArg State.fresh h1 : s1.unpaired.fresh = s.unpaired.fresh)
  have htime : s1.dtime = s.dtime := (congrArg State.dtime h1 : s1.unpaired.dtime = s.unpaired.dtime)
  have hgrid : s1.gridStep die = s.gridStep die := by rw [State.gridStep, State.gridStep, hpwc, hfresh]
  unfold State.nextDie
  dsimp only
  rw [htemps, hd1, hpwc, hfresh, htime, hgrid]
  exact ⟨rfl, rfl, rfl, rfl⟩

/-- The control interval. -/
theorem intervalEvents (s : State) (die : Nat) (temps : List Nat) (hl : temps.length = 16) :
    (∀ t, (s.die die).served = some t → s.dtime / 10000 ≤ t / 10000 → exec (.controlInterval die temps) s = .next s) ∧
    ((∀ t, (s.die die).served = some t → t / 10000 < s.dtime / 10000) → ∃ u, exec (.controlInterval die temps) s = .next u ∧
      (u.die die).served = some s.dtime ∧
      (u.die die).thermCap = nextTherm (s.die die).clock (s.die die).thermCap (bits s.pwc.therm 15 8) temps ∧
      (u.die die).clock = max 200 (min (min (u.die die).thermCap (u.die die).curCap) (s.gridStep die)) ∧
      (∀ k t, temps[k]? = some t → (u.pair (16 * die + k)).temp = t ∧ (u.pair (16 * die + k)).throttle = 0 ∧ (u.pair (16 * die + k)).overLong = false) ∧
      (let differs := ∃ k, k < 16 ∧ (s.pair (16 * die + k)).overLong = true
       let throttled := ∃ k, k < 16 ∧ 0 < (s.pair (16 * die + k)).throttle
       let less := max 200 ((s.die die).curCap - 25)
       let slow := max 200 ((s.die die).clock - 25)
       (differs → ¬ throttled → (u.die die).curCap = min 850 less) ∧ (¬ differs → throttled → (u.die die).curCap = min 850 slow) ∧
         (differs → throttled → (u.die die).curCap = min less slow)) ∧
      (∀ d, d ≠ die → u.die d = s.die d) ∧
      ∀ a t x, s.team a.team = some t → t.priv = true → t.part = 12 + die → s.agent a = some x → x.block = some .halt →
        ∃ y, u.agent a = some y ∧ y.block = none ∧ y.answer = some 0) := by
  refine ⟨fun t ht hd => ?_, fun hd => ?_⟩
  · rw [exec_controlInterval, execControlInterval, duePeriod_some ht hd]
    rfl
  · obtain ⟨v, hexec, hpairs, hdies, hteams⟩ := execControlInterval_due hd temps
    obtain ⟨hserved, hth, hclock, hcu⟩ := s.nextDie_heated die hl
    have h1 := s.heated_unpaired die temps
    have hheated := fun k t => s.heated_pair die hl (k := k) (t := t)
    have hover := s.heated_any die hl (p := fun q => q.overLong) fun _ _ => rfl
    have hthr := s.heated_any die hl (p := fun q => decide (q.throttle > 0)) fun _ _ => rfl
    simp only [decide_eq_true_eq] at hthr
    generalize s.heated die temps = s1 at *
    generalize hnd : s1.nextDie die = nd at *
    have h2 := (s1.setDie die nd).taken_unpaired die
    have hvd : (v.dmcEventOn die).dies = (s1.setDie die nd).dies :=
      hdies.trans (congrArg State.dies h2 : ((s1.setDie die nd).taken die).unpaired.dies = (s1.setDie die nd).unpaired.dies)
    have h2t : ((s1.setDie die nd).taken die).teams = s1.teams :=
      (congrArg State.teams h2 : ((s1.setDie die nd).taken die).unpaired.teams = (s1.setDie die nd).unpaired.teams)
    have hvt : v.teams = s.teams := hteams.trans (h2t.trans (congrArg State.teams h1 : s1.unpaired.teams = s.unpaired.teams))
    have h1d : s1.dies = s.dies := (congrArg State.dies h1 : s1.unpaired.dies = s.unpaired.dies)
    have hdie : ∀ n, (v.dmcEventOn die).die n = if n = die then nd else s.die n := fun n => by
      rw [State.die_congr (s := s1.setDie die nd) hvd, ← State.die_congr h1d n]
      exact s1.die_ins die n nd
    have hself : (v.dmcEventOn die).die die = nd := (hdie die).trans (if_pos rfl)
    have hcases := nextCurrent_cases (s.die die).clock (s.die die).curCap s.fresh ((pairsOf die).map s1.pair)
    refine ⟨_, hexec, ?_⟩
    rw [hself, ← hcu] at *
    refine ⟨hserved, hth, hclock, fun k t ht => ?_, ?_, fun n hn => (hdie n).trans (if_neg hn), fun a t x ht hp hpart hx hh => ?_⟩
    · obtain ⟨hk, -⟩ := List.getElem?_eq_some_iff.mp ht
      have hpair : (v.dmcEventOn die).pair (16 * die + k) = ((s1.setDie die nd).taken die).pair (16 * die + k) :=
        State.pair_congr (show (v.dmcEventOn die).pairs = _ from hpairs) _
      rw [hpair, State.taken_pair _ (mem_pairsOf.mpr ⟨k, hl ▸ hk, rfl⟩)]
      exact ⟨(congrArg Pair.temp (hheated k t ht) : (s1.pair (16 * die + k)).temp = t), rfl, rfl⟩
    · obtain ⟨hless, hslow, hboth⟩ := hcases
      exact ⟨fun hd ht => hless (hover.mpr hd) (mt hthr.mp ht), fun hd ht => hslow (mt hover.mp hd) (hthr.mpr ht), fun hd ht => hboth (hover.mpr hd) (hthr.mpr ht)⟩
    · obtain ⟨y, hy, hb, ha, -⟩ := v.dmcEventOn_wakes (by rw [State.team, hvt]; exact ht) hp hpart ((State.agent_congr hvt a).trans hx) hh
      exact ⟨y, hy, hb, ha⟩

/-- Settles O56: the clock, Mule, heat and gating. -/
theorem powerControl : Obligations.PowerControl := ⟨powerWrites, intervalEvents, pairEvents, heatEvents⟩

end Sys2Proof.Machine
end

section
/-! O58: host and peer accesses (R338, R340, R345, R346). -/

namespace Sys2Proof.Machine

/-! ### What a write lands -/

/-- A write puts its bytes, and leaves every other byte but the monitors' own. -/
theorem State.lands_writeWith (s : State) (p : Place) (bs : List Byte) (cl : Option Nat) (pol : Nat) : lands s (s.writeWith p bs cl pol).1 p.loc (bs.map some) := by
  intro a ha
  rw [(s.writeWith_bytes p bs cl pol).2 a ha, List.length_map]
  split
  next h =>
    rw [List.getD_eq_getElem _ _ (by omega), List.getD_eq_getElem _ _ (by rw [List.length_map]; omega), List.getElem_map]
    rfl
  next => rfl

theorem State.lands_writeAt (s : State) (p : Place) (bs : List Byte) (cl : Option Nat) : lands s (s.writeAt p bs cl).1 p.loc (bs.map some) :=
  s.lands_writeWith p bs cl 0

/-- A write from a state with the same memory and spill area. -/
theorem lands_congr {s t u v : State} {loc : Nat} {d : List (Option Byte)} (h : lands s u loc d) (hm : s.mem = t.mem) (hs : ∀ a, t.spillByte a = false → s.spillByte a = false)
    (hv : v.mem = u.mem) : lands t v loc d := fun a ha => by
  rw [State.byteAt_congr hv, h a (hs a ha), State.byteAt_congr hm]

theorem State.spillByte_congr {s t : State} (hm : t.mons = s.mons) (hp : t.parts = s.parts) (a : Nat) : t.spillByte a = s.spillByte a := by
  unfold State.spillByte
  rw [hm]
  exact congrArg (List.any s.mons) (funext fun m => by rw [State.partition_congr hp])

/-! ### The window of a partition -/

theorem Part.dies_nodup (p : Part) : p.dies.Nodup := List.Nodup.filter _ (by decide)

theorem Part.dies_lt {p : Part} {d : Nat} (h : d ∈ p.dies) : d < 12 := by
  have hmem := (List.mem_filter.mp h).1
  simp at hmem
  omega

theorem State.diesOf_part (s : State) {part : Nat} (h : part < 12) : s.diesOf part = (s.partition part).dies := if_pos h

/-- The location of an offset in the window. -/
theorem State.barLoc_eq_some {s : State} {part off l : Nat} : s.barLoc part off = some l ↔
    ∃ d, (s.diesOf part)[off / 2 ^ 37]? = some d ∧ off % 2 ^ 37 < hbmBytes ∧ l = d * 2 ^ 37 + off % 2 ^ 37 := by
  unfold State.barLoc
  split
  next d hd =>
    rw [hd]
    split
    next h =>
      rw [locOf, Nat.zero_mul, Nat.zero_add]
      exact ⟨fun he => ⟨d, rfl, h, (Option.some.inj he).symm⟩, fun ⟨e, he, _, hl⟩ => by rw [hl, Option.some.inj he]⟩
    next h => exact ⟨nofun, fun ⟨e, he, hlt, _⟩ => absurd hlt h⟩
  next hd => exact ⟨nofun, fun ⟨e, he, _⟩ => by rw [hd] at he; cases he⟩

theorem State.barLoc_lt {s : State} {part off l : Nat} (hp : part < 12) (h : s.barLoc part off = some l) : l < 2 ^ 64 := by
  obtain ⟨d, hd, hoff, rfl⟩ := State.barLoc_eq_some.mp h
  rw [s.diesOf_part hp] at hd
  have := Part.dies_lt (List.mem_of_getElem? hd)
  have := Nat.mod_lt off (show 0 < 2 ^ 37 by decide)
  omega

/-- Two offsets have no location in common. -/
theorem State.barLoc_inj {s : State} {part o o' l : Nat} (hp : part < 12) (h : s.barLoc part o = some l) (h' : s.barLoc part o' = some l) : o = o' := by
  obtain ⟨d, hd, -, hl⟩ := State.barLoc_eq_some.mp h
  obtain ⟨d', hd', -, hl'⟩ := State.barLoc_eq_some.mp h'
  have := Nat.mod_lt o (show 0 < 2 ^ 37 by decide)
  have := Nat.mod_lt o' (show 0 < 2 ^ 37 by decide)
  have hdd : d = d' := by omega
  rw [s.diesOf_part hp] at hd hd'
  subst hdd
  have hidx : o / 2 ^ 37 = o' / 2 ^ 37 :=
    (List.getElem?_inj (List.getElem?_eq_some_iff.mp hd).1 (s.partition part).dies_nodup).mp (hd.trans hd'.symm)
  omega

/-- The bytes of an aligned part lie one after the other. -/
theorem State.barLoc_add (s : State) (part off : Nat) {k : Nat} (hk : off % 8 + k < 8) : s.barLoc part (off + k) = (s.barLoc part off).map (· + k) := by
  have hdiv : (off + k) / 2 ^ 37 = off / 2 ^ 37 := by omega
  have hmod : (off + k) % 2 ^ 37 = off % 2 ^ 37 + k := by omega
  have hin : off % 2 ^ 37 + k < hbmBytes ↔ off % 2 ^ 37 < hbmBytes := by
    unfold hbmBytes
    omega
  unfold State.barLoc
  rw [hdiv, hmod]
  split
  next d hd =>
    by_cases h : off % 2 ^ 37 < hbmBytes
    · rw [if_pos h, if_pos (hin.mpr h)]
      simp [locOf, Nat.add_assoc]
    · rw [if_neg h, if_neg (mt hin.mp h)]
      rfl
  next => rfl

theorem physPlace_loc {l : Nat} (h : l < 2 ^ 64) : (physPlace (l % 2 ^ 64)).loc = l := by
  rw [Nat.mod_eq_of_lt h]
  simp [physPlace, locOf]

/-- A state with the same partitions has the same window. -/
theorem State.barLoc_congr {s t : State} (h : t.parts = s.parts) (part off : Nat) : t.barLoc part off = s.barLoc part off := by
  unfold State.barLoc State.diesOf
  rw [State.partition_congr h]

/-! ### Host accesses -/

theorem exec_hostWrite (part off : Nat) (bs : List Byte) (s : State) : exec (.hostWrite part off bs) s = execHostWrite part off bs s := rfl
theorem exec_hostRead (part off n : Nat) (s : State) : exec (.hostRead part off n) s = execHostRead part off n s := rfl
theorem exec_peerAccess (d p part : Nat) (op : PeerOp) (s : State) : exec (.peerAccess d p part op) s = execPeerAccess d p part op s := rfl

/-- What a write leaves of the state: the partitions, the teams, and no new monitor. -/
structure State.Writes (s u : State) : Prop where
  parts : u.parts = s.parts
  teams : u.teams = s.teams
  mons : ∀ m ∈ u.mons, m ∈ s.mons

theorem State.Writes.refl (s : State) : s.Writes s := ⟨rfl, rfl, fun _ => id⟩
theorem State.Writes.trans {s u v : State} (h : s.Writes u) (k : u.Writes v) : s.Writes v :=
  ⟨k.parts.trans h.parts, k.teams.trans h.teams, fun m hm => h.mons m (k.mons m hm)⟩
theorem State.Writes.spill {s u : State} (h : s.Writes u) {a : Nat} (ha : s.spillByte a = false) : u.spillByte a = false :=
  State.spillByte_mono h.mons h.parts ha
theorem State.writeAt_writes (s : State) (p : Place) (bs : List Byte) (cl : Option Nat) : s.Writes (s.writeAt p bs cl).1 :=
  ⟨s.writeAt_parts p bs cl, s.writeAt_teams_eq p bs cl, (s.writeWith_bytes p bs cl 0).1⟩

/-- One aligned part written through the window. -/
theorem State.barPart (s : State) {part off : Nat} (hp : part < 12) {bs : List Byte} (hb : off % 8 + bs.length ≤ 8) :
    let u := match s.barLoc part off with | some l => (s.writeAt (physPlace (l % 2 ^ 64)) bs none).1 | none => s
    s.Writes u ∧ windowWritten s u part off bs := by
  cases hl : s.barLoc part off with
  | none =>
    refine ⟨.refl s, fun k b l hk hkl => ?_, fun l _ _ => rfl⟩
    have hlt := (List.getElem?_eq_some_iff.mp hk).1
    rw [s.barLoc_add part off (by omega), hl] at hkl
    cases hkl
  | some l0 =>
    have hloc := physPlace_loc (State.barLoc_lt hp hl)
    refine ⟨s.writeAt_writes .., fun k b l hk hkl hsp => ?_, fun l hno hsp => ?_⟩
    · obtain ⟨hlt, hkb⟩ := List.getElem?_eq_some_iff.mp hk
      rw [s.barLoc_add part off (by omega), hl] at hkl
      obtain rfl : l0 + k = l := Option.some.inj hkl
      refine ((s.writeWith_bytes _ bs none 0).2 _ hsp).trans ?_
      rw [hloc, if_pos (by omega), Nat.add_sub_cancel_left, List.getD_eq_getElem _ _ hlt]
      exact hkb
    · refine ((s.writeWith_bytes _ bs none 0).2 _ hsp).trans ?_
      rw [hloc, if_neg]
      rintro ⟨hlo, hhi⟩
      refine hno (l - l0) (by omega) ?_
      rw [s.barLoc_add part off (by omega), hl]
      exact congrArg some (Nat.add_sub_cancel' hlo)

/-- Bytes written through the window, part by part (R338). -/
theorem State.barWrite_window (fuel : Nat) (s : State) {part : Nat} (hp : part < 12) (off : Nat) (bs : List Byte) (hf : bs.length < fuel) :
    s.Writes (s.barWrite part off bs fuel) ∧ windowWritten s (s.barWrite part off bs fuel) part off bs := by
  induction fuel generalizing s off bs with
  | zero => exact absurd hf (Nat.not_lt_zero _)
  | succ fuel ih =>
    unfold State.barWrite
    split
    next h =>
      subst h
      exact ⟨.refl s, fun k b l hk => by simp at hk, fun l _ _ => rfl⟩
    next h =>
      extract_lets n s1
      have hpos : 0 < bs.length := List.length_pos_iff.mpr h
      have hn : 0 < n ∧ n ≤ bs.length ∧ off % 8 + n ≤ 8 := by omega
      have htake : (bs.take n).length = n := by rw [List.length_take]; omega
      have hdrop : (bs.drop n).length = bs.length - n := List.length_drop
      obtain ⟨hw, hput, hkeep⟩ := s.barPart hp (off := off) (bs := bs.take n) (by omega)
      change s.Writes s1 at hw
      obtain ⟨hw', hput', hkeep'⟩ := ih s1 (off + n) (bs.drop n) (by omega)
      refine ⟨hw.trans hw', fun k b l hk hkl hsp => ?_, fun l hno hsp => ?_⟩
      · have hlt := (List.getElem?_eq_some_iff.mp hk).1
        by_cases hkn : k < n
        · rw [hkeep' l (fun j hj hjl => ?_) (hw.spill hsp)]
          · exact hput k b l (by rw [List.getElem?_take_of_lt hkn]; exact hk) hkl hsp
          · rw [State.barLoc_congr hw.parts] at hjl
            have := State.barLoc_inj hp hkl hjl
            omega
        · refine hput' (k - n) b l ?_ ?_ (hw.spill hsp)
          · rw [List.getElem?_drop, Nat.add_sub_cancel' (by omega)]
            exact hk
          · rw [State.barLoc_congr hw.parts, show off + n + (k - n) = off + k by omega]
            exact hkl
      · refine (hkeep' l (fun j hj hjl => ?_) (hw.spill hsp)).trans (hkeep l (fun j hj => hno j (by omega)) hsp)
        rw [State.barLoc_congr hw.parts, Nat.add_assoc] at hjl
        exact hno (n + j) (by omega) hjl

theorem State.barRead_window (s : State) (part off n : Nat) : windowRead s part off n (s.barRead part off n) := by
  refine ⟨by rw [State.barRead, List.length_map, List.length_range], fun k hk => ?_⟩
  rw [State.barRead, List.getElem?_map, List.getElem?_range hk]
  rfl

/-- Lines given up for a read change no memory and no team. -/
theorem State.barRecalls_keeps (s : State) (part off n : Nat) : (s.barRecalls part off n).mem = s.mem ∧ (s.barRecalls part off n).teams = s.teams := by
  refine foldl_keeps (fun u : State => u.mem = s.mem ∧ u.teams = s.teams) _ _ (fun u k _ h => ?_) s ⟨rfl, rfl⟩
  split
  · unfold State.barRecall
    split
    · exact ⟨(State.recall_mem ..).trans h.1, (u.recall_same _ _).2.1.trans h.2⟩
    · exact h
  · exact h

/-! ### A peer's read-modify-write (R346) -/

/-- A partition without armed watchpoints reports no remote atomic. -/
theorem State.remoteWatched_none (s : State) {part : Nat} (h : ∀ e ∈ (s.partition part).debug, ∀ w ∈ e.2.wp, w.2.loc = none) (dev loc n : Nat) :
    s.remoteWatched part dev loc n = s := by
  have hnone : remoteWatch (s.partition part) loc n = [] := by
    unfold remoteWatch
    rw [List.filterMap_eq_nil_iff]
    intro e he
    rw [List.findSome?_eq_none_iff]
    intro k _
    have hk : (e.2.watch k).loc = none := by
      unfold Debug.watch
      cases hf : Tbl.find? e.2.wp k with
      | none => rfl
      | some w => exact h e he (k, w) (Tbl.mem_of_find? hf)
    simp only [hk]
  unfold State.remoteWatched
  rw [hnone]
  rfl

/-- A peer's read-modify-write of a place without watchpoints. -/
theorem State.peerRmw_lands (s : State) {part off l : Nat} (hp : part < 12) (hwp : ∀ e ∈ (s.partition part).debug, ∀ w ∈ e.2.wp, w.2.loc = none)
    (hl : s.barLoc part off = some l) (dev w : Nat) (new : W64 → Option W64) :
    (s.peerRmw part dev off w new).peerData = some (s.read l (w / 8)) ∧
      (∀ v, new (BitVec.ofNat 64 (s.readNat l (w / 8))) = some v → lands s (s.peerRmw part dev off w new) l ((toBytes (w / 8) v.toNat).map some)) ∧
      (new (BitVec.ofNat 64 (s.readNat l (w / 8))) = none → (s.peerRmw part dev off w new).mem = s.mem) := by
  let s1 := s.recall (l / 128) none
  let s2 := match new (BitVec.ofNat 64 (s.readNat l (w / 8))) with
    | some v => (s1.writeAt (physPlace (l % 2 ^ 64)) (toBytes (w / 8) v.toNat) none).1
    | none => s1
  have hmem : s1.mem = s.mem := State.recall_mem ..
  have hparts : s1.parts = s.parts := State.parts_of_still (State.recall_still ..)
  have hs2p : s2.parts = s.parts := by
    unfold s2
    split
    · exact (State.writeAt_parts ..).trans hparts
    · exact hparts
  have heq : s.peerRmw part dev off w new = { s2 with peerData := some (s.read l (w / 8)) } := by
    have hread : s1.read l (w / 8) = s.read l (w / 8) := State.read_congr hmem l (w / 8)
    rw [← s2.remoteWatched_none (by rw [State.partition_congr hs2p]; exact hwp) dev l (w / 8), ← hread]
    unfold s2 State.readNat
    rw [← hread]
    unfold State.peerRmw
    rw [hl] <;> rfl
  rw [heq]
  refine ⟨rfl, fun v hv => ?_, fun hv => ?_⟩
  · have hs2 : s2 = (s1.writeAt (physPlace (l % 2 ^ 64)) (toBytes (w / 8) v.toNat) none).1 := by
      unfold s2
      rw [hv]
    have hland := s1.lands_writeAt (physPlace (l % 2 ^ 64)) (toBytes (w / 8) v.toNat) none
    rw [physPlace_loc (State.barLoc_lt hp hl)] at hland
    refine lands_congr hland hmem (fun a ha => ?_) (congrArg State.mem hs2 : s2.mem = _)
    rw [State.spillByte_congr (State.recall_mons ..) hparts]
    exact ha
  · have hs2 : s2 = s1 := by
      unfold s2
      rw [hv]
    exact (congrArg State.mem hs2).trans hmem

theorem toBytes_mod (n x : Nat) : toBytes n (x % 2 ^ (8 * n)) = toBytes n x := by
  induction n generalizing x with
  | zero => rfl
  | succ n ih =>
    have hpow : 2 ^ (8 * (n + 1)) = 256 * 2 ^ (8 * n) := by rw [Nat.mul_succ, Nat.pow_add, Nat.mul_comm]
    have hhead : BitVec.ofNat 8 (x % 2 ^ (8 * (n + 1))) = BitVec.ofNat 8 x := by
      refine BitVec.eq_of_toNat_eq ?_
      rw [BitVec.toNat_ofNat, BitVec.toNat_ofNat, hpow]
      exact Nat.mod_mul_right_mod x 256 _
    rw [toBytes, toBytes, hhead, hpow, Nat.mod_mul_right_div_self, ih]

theorem ofBytes_lt (bs : List Byte) : ofBytes bs < 2 ^ (8 * bs.length) := by
  induction bs with
  | nil => exact Nat.one_pos
  | cons b bs ih =>
    have hb := b.isLt
    have hpow : 2 ^ (8 * (bs.length + 1)) = 256 * 2 ^ (8 * bs.length) := by rw [Nat.mul_succ, Nat.pow_add, Nat.mul_comm]
    rw [ofBytes, List.length_cons, hpow]
    omega

theorem State.readNat_lt (s : State) (l n : Nat) : s.readNat l n < 2 ^ (8 * n) := by
  have h := ofBytes_lt (s.read l n)
  rwa [show (s.read l n).length = n from Tbl.length_getMany ..] at h

theorem toNat_lowBits {w : Nat} (hw : w ≤ 64) (x : W64) : (lowBits w x).toNat = x.toNat % 2 ^ w := by
  rw [lowBits, BitVec.toNat_setWidth, BitVec.toNat_setWidth]
  exact Nat.mod_eq_of_lt (lt_of_lt_of_le (Nat.mod_lt _ (Nat.two_pow_pos w)) (Nat.pow_le_pow_right (by decide) hw))

/-- The compare of a compare-and-swap, of 4 or 8 bytes. -/
theorem lowBits_read {s : State} {n : Nat} (hn : 8 * n ≤ 64) (l : Nat) (e : W64) :
    lowBits (8 * n) (BitVec.ofNat 64 (s.readNat l n)) = lowBits (8 * n) e ↔ s.readNat l n = e.toNat % 2 ^ (8 * n) := by
  have hlt := s.readNat_lt l n
  have hle : 2 ^ (8 * n) ≤ 2 ^ 64 := Nat.pow_le_pow_right (by decide) hn
  rw [← BitVec.toNat_inj, toNat_lowBits hn, toNat_lowBits hn, BitVec.toNat_ofNat, Nat.mod_eq_of_lt (lt_of_lt_of_le hlt hle), Nat.mod_eq_of_lt hlt]

/-! ### The obligation -/

/-- Settles O58: host and peer accesses. -/
theorem outsideAccesses : Obligations.OutsideAccesses := by
  refine ⟨fun s part off n bs hp => ⟨fun hl => ⟨⟨_, (exec_hostWrite ..).trans (congrArg Host.Outcome.next (if_pos hl)), ?_⟩,
      ⟨_, (exec_hostRead ..).trans (if_pos hl), ?_⟩⟩, fun hl => ⟨(exec_hostWrite ..).trans (congrArg Host.Outcome.next (if_neg ?_)),
      _, (exec_hostRead ..).trans (if_neg ?_), rfl, rfl⟩⟩, fun s dev srcPart part op hp => ⟨fun ha => ?_, fun ha => ⟨fun off n ho => ?_, fun off bs ho => ?_,
      fun l off hwp hl => ⟨fun fn ty rm v ho => ?_, fun wide expect new ho => ?_⟩⟩⟩⟩
  · obtain ⟨hw, hwin⟩ := State.barWrite_window (bs.length + 1) s hp off bs (Nat.lt_succ_self _)
    exact ⟨hwin, hw.teams⟩
  · obtain ⟨hm, ht⟩ := s.barRecalls_keeps part off n
    exact ⟨s.barRead_window part off n, hm, ht⟩
  · rw [hl]; nofun
  · rw [hl]; nofun
  · exact (exec_peerAccess dev srcPart part op s).trans (if_pos (by rw [ha]; rfl))
  · subst ho
    have hexec := (exec_peerAccess dev srcPart part (.read off n) s).trans (if_neg (by rw [ha]; nofun))
    exact ⟨_, _, hexec, rfl, s.barRead_window part off n, (s.barRecalls_keeps part off n).1⟩
  · subst ho
    have hexec := (exec_peerAccess dev srcPart part (.write off bs) s).trans (if_neg (by rw [ha]; nofun))
    exact ⟨_, hexec, (State.barWrite_window (bs.length + 1) s hp off bs (Nat.lt_succ_self _)).2⟩
  · subst ho
    have hexec := (exec_peerAccess dev srcPart part (.atomic fn ty rm off v) s).trans (if_neg (by rw [ha]; nofun))
    obtain ⟨hdata, hput, -⟩ := s.peerRmw_lands hp hwp hl dev (tyWidth ty) fun old => some (atomicNew fn ty rm old v).1
    exact ⟨_, hexec, hdata, hput _ rfl⟩
  · subst ho
    intro n
    have hn : 8 * n ≤ 64 := by cases wide <;> decide
    have hexec : exec (.peerAccess dev srcPart part (.cas wide off expect new)) s = .next (s.peerRmw part dev off (8 * n) fun old =>
        if lowBits (8 * n) old = lowBits (8 * n) expect then some (lowBits (8 * n) new) else none) := by
      refine ((exec_peerAccess ..).trans (if_neg (by rw [ha]; nofun))).trans ?_
      cases wide <;> rfl
    obtain ⟨hdata, hput, hnot⟩ := s.peerRmw_lands hp hwp hl dev (8 * n) fun old =>
      if lowBits (8 * n) old = lowBits (8 * n) expect then some (lowBits (8 * n) new) else none
    rw [Nat.mul_div_cancel_left n (by decide)] at hdata hput hnot
    refine ⟨_, hexec, hdata, fun heq => ?_, fun hne => hnot (if_neg (mt (lowBits_read hn l expect).mp hne))⟩
    have hland := hput _ (if_pos ((lowBits_read hn l expect).mpr heq))
    rw [toNat_lowBits hn, toBytes_mod] at hland
    exact hland

end Sys2Proof.Machine
end

section
/-! O44 and O49 fail in states with an uncorrectable error: an access that a group's end performs can consume it, and its context ends (R67, R351). -/

namespace Sys2Proof.Machine

/-- A load that has been issued and not performed, of line 0. -/
def flawedLoad : MemOp := { (default : MemOp) with place := { (default : Place) with owned := .pinned }, kind := .load 4 0 0 }

/-- A machine whose line 0 stores an uncorrectable error, with one team, of no live partition, on cluster 0. -/
def flawedState (agents : Tbl Agent) (bars : Tbl Bar) (wakes : Tbl Wake) : State :=
  { State.reset with
    teams := [(0, { (default : Team) with res := .on 0, part := 12, agents := agents, bars := bars })]
    wakes := wakes
    flaws := [0] }

/-- The state after a step. -/
def stepsTo : Next → State
  | .next u => u
  | _ => State.reset

theorem agent_of_steps {s u : State} {i : Instr} {a : AgentId} (h : exec i s = .next u) : u.agent a = (stepsTo (exec i s)).agent a := by
  rw [h]
  rfl

/-! ### O44 -/

/-- A group that waits with a napping lane, and one at the team barrier that has ended its lanes and has a load of the flawed line under way; the
barrier counts both. -/
def napState : State :=
  flawedState
    [(0, { (default : Agent) with kind := .group, issue := .idle, lanes := [{ (default : LaneRec) with s := .nap }] }),
      (1, { (default : Agent) with kind := .group, issue := .barrier, ops := [(0, flawedLoad)] })]
    [(16, { (default : Bar) with waiters := [0, 1] })] []

/-- The lane that runs on opens the barrier, the other group ends, its load consumes the error, and the team is stopped with nothing saved. -/
theorem napState_stopped : (stepsTo (exec (.napWake ⟨0, 0⟩ 0) napState)).agent ⟨0, 0⟩ = none := by decide

/-- Refutes O44: the barrier that opens as a napping lane runs on can end the context, and the agent is gone. -/
theorem not_betweenBeats : ¬ Obligations.BetweenBeats := by
  unfold Obligations.BetweenBeats
  rintro ⟨hrail, -⟩
  obtain ⟨-, -, hnap, -⟩ := hrail napState ⟨0, 0⟩ _ _ rfl rfl
  obtain ⟨u, y, hu, hy, -⟩ := hnap 0 (by decide) (by decide) (by decide) (by decide) (by decide)
  rw [agent_of_steps hu, napState_stopped] at hy
  cases hy

/-! ### O49 -/

/-- A stopped group with a load of the flawed line under way, and the wake that disposes of it with 2. -/
def abortState : State :=
  flawedState
    [(0, { (default : Agent) with kind := .group, issue := .stopped, stop := some default, ops := [(0, flawedLoad)] })] []
    [(0, { mon := { (default : Mon) with part := 12, disp := true }, value := 2, pred := true, c := 0 })]

theorem abortState_stopped : (stepsTo (exec (.monitorWake 0) abortState)).agent ⟨0, 0⟩ = none := by decide

/-- Refutes O49: a disposition of 2 ends its agent, whose last load consumes the error: the context ends, and the agent is gone. -/
theorem not_monitors : ¬ Obligations.Monitors := by
  unfold Obligations.Monitors
  rintro ⟨-, -, hwake, -⟩
  obtain ⟨-, -, -, hdisp⟩ := hwake abortState 0 _ ⟨0, 0⟩ _ _ rfl rfl rfl rfl rfl
  obtain ⟨-, -, habort, -⟩ := hdisp _ rfl rfl rfl rfl
  obtain ⟨u, y, hu, hy, -⟩ := habort rfl
  rw [agent_of_steps hu, abortState_stopped] at hy
  cases hy

end Sys2Proof.Machine
end

section
/-! O57 fails in a state with an uncorrectable error, as O44 does: the barrier that opens as a lane runs on can end the context (R67, R335, R351). -/

namespace Sys2Proof.Machine

/-- A lane that a replay run holds at its WAIT. -/
def heldWait : LaneRec := { (default : LaneRec) with s := .mon, held := true, mates := 1, codeD := .u 3, codeE := .p 1 }

/-- A waiting group whose lane 0 is held, whose log's next record, at 0x20000, is its wake; the group at the barrier is that of O44's state. -/
def deliveryState : State :=
  { flawedState
      [(0, { (default : Agent) with kind := .group, issue := .idle, lanes := [heldWait] }),
        (1, { (default : Agent) with kind := .group, issue := .barrier, ops := [(0, flawedLoad)] })]
      [(16, { (default : Bar) with waiters := [0, 1] })] [] with
    mem := [(0x20000, 0x11)]
    fwTable := [(0, (0, 0))]
    tlb := [{ (default : TlbEnt) with part := 12, level := 1, pte := 1 }, { (default : TlbEnt) with part := 12, level := 2, tag := 1, pte := 9 }] }

theorem deliveryState_stopped : (stepsTo (exec (.replayWaitDelivery ⟨0, 0⟩ 0) deliveryState)).agent ⟨0, 0⟩ = none := by decide

/-- The lane's WAIT alone is parked. -/
theorem deliveryState_oneWait : ∃ x, deliveryState.agent ⟨0, 0⟩ = some x ∧ oneWait x (1#32 <<< 0) 0 := by
  refine ⟨_, rfl, by decide, by decide, nofun, fun r k => ⟨nofun, nofun⟩⟩

/-- Refutes O57: a logged wake is delivered, the barrier opens, and the context ends; the agent is gone. -/
theorem not_debugEvents : ¬ Obligations.DebugEvents := by
  unfold Obligations.DebugEvents
  rintro ⟨-, -, -, -, hreplay⟩
  obtain ⟨x, hx, hone⟩ := deliveryState_oneWait
  obtain ⟨-, hwoken, -⟩ := hreplay deliveryState ⟨0, 0⟩ _ x 0 rfl hx (by decide)
    (by cases hx; decide) (by cases hx; decide) (by cases hx; decide) (by cases hx; decide) (by decide) hone
  obtain ⟨u, y, hu, hy, -⟩ := hwoken (by cases hx; decide) (by decide)
  rw [agent_of_steps hu, deliveryState_stopped] at hy
  cases hy

end Sys2Proof.Machine
end

section
/-! O42: SYSC, HALT, TLBI and ERET (R296, R305, R306). -/

namespace Sys2Proof.Machine

/-- The body of the forms that wait for an answer: what they do with it, and why they block without one. -/
def answerBody (why : BlockWhy) (k : Beat → W64 → State → State) (b : Beat) (s1 : State) : Out :=
  if b.perf = 0 then .done s1
  else match b.x.answer with
    | some w => .done (k b w (s1.takeAnswer b.a))
    | none => .block why

theorem exec_sysc (f : Fields) (s : State) : exec (.sysc f) s = issueBeat (.sysc f) f s (answerBody .sysc resultTo) := rfl
theorem exec_halt (f : Fields) (s : State) : exec (.halt f) s = issueBeat (.halt f) f s (answerBody .halt fun _ _ u => u) := rfl
theorem exec_tlbi (f : Fields) (s : State) : exec (.tlbi f) s = issueBeat (.tlbi f) f s (answerBody .tlbi fun _ _ u => u) := rfl
theorem exec_eret (f : Fields) (s : State) : exec (.eret f) s = execEret f s := rfl

theorem answerBody_some {why : BlockWhy} {k : Beat → W64 → State → State} {b : Beat} {w : W64} (hp : b.perf ≠ 0) (hw : b.x.answer = some w) (s1 : State) :
    answerBody why k b s1 = .done (k b w (s1.takeAnswer b.a)) := by
  unfold answerBody
  rw [if_neg hp, hw]

theorem answerBody_none {why : BlockWhy} {k : Beat → W64 → State → State} {b : Beat} (hp : b.perf ≠ 0) (hw : b.x.answer = none) (s1 : State) :
    answerBody why k b s1 = .block why := by
  unfold answerBody
  rw [if_neg hp, hw]

theorem Tbl.modify_modify {α : Type} (m : Tbl α) (k : Nat) (f g : α → α) : Tbl.modify (Tbl.modify m k f) k g = Tbl.modify m k fun x => g (f x) := by
  induction m with
  | nil => rfl
  | cons e m ih =>
    by_cases h : e.1 = k
    · simp [Tbl.modify, h]
    · simp [Tbl.modify, h, ih]

theorem State.modAgent_modAgent (s : State) (a : AgentId) (f g : Agent → Agent) : (s.modAgent a f).modAgent a g = s.modAgent a fun x => g (f x) := by
  unfold State.modAgent State.modTeam
  simp only [Tbl.modify_modify]

/-- The lanes that run are as the beat found them. -/
theorem Beat.begun_alive {b : Beat} (h : b.alive) : b.begunAgent.runLanes ≠ [] := by
  rw [b.begunAgent_runLanes]
  exact h

/-- A form that changes its agent but neither lanes nor issue goes on. -/
theorem Due.goes_on {i : Instr} {f : Fields} {s : State} {b : Beat} (h : Due i f s b) (hal : b.alive) {body : Beat → State → Out} {g : Agent → Agent}
    (hb : body b (s.begun b) = .done ((s.begun b).modAgent b.a g)) (hg : (g b.begunAgent).lanes = b.begunAgent.lanes ∧ (g b.begunAgent).issue = b.begunAgent.issue) :
    ∃ t y, issueBeat i f s body = .next t ∧ t.agent b.a = some y ∧ y.core = (g b.begunAgent).core ∧ (wantsAfter b y fun _ => b.x.p + 1) ∧ t.still = s.still := by
  have hrun : (g b.begunAgent).runLanes ≠ [] := by
    have hlanes : (g b.begunAgent).runLanes = b.begunAgent.runLanes := by
      unfold Agent.runLanes Agent.laneNos Agent.lane
      rw [hg.1]
    rw [hlanes]
    exact b.begun_alive hal
  obtain ⟨t, y, hnext, hy, hcore, hstill⟩ := h.done_core hb (hg.2.trans h.begun_issue) hrun
  exact ⟨t, y, hnext, hy, hcore, b.wantsAfter_next ((congrArg Agent.lanes hcore : y.core.lanes = (g b.begunAgent).core.lanes).trans hg.1), hstill⟩

/-- The forms that wait for an answer, and go on once it has come. -/
theorem Due.answered {i : Instr} {f : Fields} {s : State} {b : Beat} (h : Due i f s b) (hal : b.alive) (hp : b.perf ≠ 0) {why : BlockWhy} {w : W64}
    (hw : b.x.answer = some w) :
    ∃ t y, issueBeat i f s (answerBody why fun _ _ u => u) = .next t ∧ t.agent b.a = some y ∧ y.answer = none ∧ y.regs = b.x.regs ∧
      wantsAfter b y fun _ => b.x.p + 1 := by
  obtain ⟨t, y, hnext, hy, hcore, hwants, -⟩ := h.goes_on hal (body := answerBody why fun _ _ u => u) (g := fun x => { x with answer := none })
    (answerBody_some hp hw (s.begun b)) ⟨rfl, rfl⟩
  exact ⟨t, y, hnext, hy, (congrArg Agent.answer hcore : y.core.answer = _),
    ((congrArg Agent.regs hcore).trans rfl : y.regs = b.begunAgent.regs).trans b.begunAgent_regs, hwants⟩

/-- And wait without one. -/
theorem Due.unanswered {i : Instr} {f : Fields} {s : State} {b : Beat} (h : Due i f s b) (hp : b.perf ≠ 0) {why : BlockWhy} {k : Beat → W64 → State → State}
    (hw : b.x.answer = none) :
    ∃ t y, issueBeat i f s (answerBody why k) = .next t ∧ t.agent b.a = some y ∧ y.block = some why ∧ y.issue = .beats ∧ y.lanes = b.x.lanes ∧ y.regs = b.x.regs := by
  obtain ⟨t, y, hnext, hy, hblock, hissue, hlanes, hregs, -⟩ := h.blocked (answerBody_none hp hw (s.begun b))
  exact ⟨t, y, hnext, hy, hblock, hissue, hlanes, hregs⟩

/-! ### ERET -/

theorem Agent.laneNos_single {x : Agent} (h1 : x.lanes.length = 1) : x.laneNos = [0] := by
  unfold Agent.laneNos
  rw [h1]
  rfl

/-- An agent of one lane, which runs. -/
theorem Agent.runLanes_single {x : Agent} (h1 : x.lanes.length = 1) (hr : x.runLanes ≠ []) : x.runLanes = [0] := by
  have hno := Agent.laneNos_single h1
  unfold Agent.runLanes at hr ⊢
  rw [hno] at hr ⊢
  by_cases h0 : (x.lane 0).s = .run
  · simp [h0]
  · exact absurd (by simp [h0]) hr

/-- The one lane of an agent decides where it arrives (R64). -/
theorem State.census_single {s : State} {a : AgentId} {x : Agent} (hx : s.agent a = some x) (h1 : x.lanes.length = 1) (hr : x.runLanes ≠ []) (frm : Nat) :
    ∃ y, (s.census a frm).agent a = some y ∧ y.issue = .arrive true ∧ y.p = (x.lane 0).w := by
  obtain ⟨t, ht⟩ : ∃ t, s.team a.team = some t := by
    unfold State.agent at hx
    cases ht : s.team a.team with
    | none => simp [ht] at hx
    | some t => exact ⟨t, rfl⟩
  have hrun := Agent.runLanes_single h1 hr
  have hf : greatestOf (x.runLanes.map fun i => (x.lane i).d.toNat) = (x.lane 0).d.toNat := by
    rw [hrun]
    exact Nat.zero_max _
  have hwants : ∀ y : Agent, y.lanes = x.lanes → y.wants (y.atDepth (x.lane 0).d.toNat) = [(x.lane 0).w.toNat] := fun y hy => by
    have hl : ∀ i, y.lane i = x.lane i := fun i => by rw [Agent.lane, Agent.lane, hy]
    have hyr : y.runLanes = [0] := by
      rw [← hrun]
      unfold Agent.runLanes Agent.laneNos Agent.lane
      rw [hy]
    unfold Agent.wants Agent.atDepth
    rw [hyr]
    simp [hl]
  have harr : ∀ y : Agent, (y.arriveAt (x.lane 0).w.toNat).issue = .arrive true ∧ (y.arriveAt (x.lane 0).w.toNat).p = (x.lane 0).w := fun y =>
    ⟨rfl, BitVec.ofNat_toNat _ _⟩
  unfold State.census
  simp only [ht, hx, hrun]
  rw [hrun] at hf
  rw [hf]
  split
  · obtain ⟨y, hy, hyx⟩ := setFrame_core hx t x x.f.toNat (BitVec.ofNat 28 frm)
    refine ⟨_, by rw [State.agent_modAgent_same, hy]; rfl, ?_⟩
    have hlanes : y.lanes = x.lanes := (congrArg Agent.lanes hyx : y.core.lanes = x.core.lanes)
    dsimp only
    rw [hwants y hlanes]
    exact harr _
  · have hset : ∀ z : Agent, (s.setAgent a z).agent a = some z := fun z => State.agent_setAgent_self hx
    rw [hwants { x with f := BitVec.ofNat 8 (x.lane 0).d.toNat } rfl]
    generalize (if (x.lane 0).d.toNat < x.f.toNat then (frameOf s a t x (x.lane 0).d.toNat).toNat else frm) = frm'
    by_cases hge : (x.lane 0).w.toNat ≥ frm'
    · simp only [List.filter_cons, hge, decide_true, if_true, List.filter_nil, leastOf]
      exact ⟨_, hset _, harr _⟩
    · simp only [List.filter_cons, hge, decide_false, Bool.false_eq_true, if_false, List.filter_nil, leastOf]
      exact ⟨_, hset _, harr _⟩

/-- A whole beat whose agent has one lane: it arrives where the lane wants. -/
theorem State.conclude_single {s u : State} {b : Beat} (hf : u.flaws = []) {x : Agent} (hx : u.agent b.a = some x) (hi : x.issue = .beats)
    (h1 : x.lanes.length = 1) (hr : x.runLanes ≠ []) :
    ∃ y, (s.conclude b true (.done u)).agent b.a = some y ∧ y.issue = .arrive true ∧ y.p = (x.lane 0).w ∧ y.placid = x.placid := by
  obtain ⟨v, n, hvs, hvt, hcount⟩ := u.countBeat_eq b true
  let f1 : Agent → Agent := fun x => { x with lastBeat := n, active := x.active || (x.isGroup && decide (x.issue = .beats)), restart := 0, block := none }
  let w := (u.countBeat b true).modAgent b.a fun x => { x with restart := 0, block := none }
  have hva : v.agent b.a = some x := (State.agent_congr hvt b.a).trans hx
  have hwf : w.flaws = [] := (u.countBeat_flaws b true).trans hf
  have hwa : w.agent b.a = some (f1 x) := by
    rw [State.agent_modAgent_same, hcount, State.agent_modAgent_same, hva]
    rfl
  have hwi : ∀ z, w.agent b.a = some z → z.issue ≠ .barrier := fun z hz => by
    rw [← Option.some.inj (hwa.symm.trans hz), show (f1 x).issue = x.issue from rfl, hi]
    nofun
  obtain ⟨z, hz, hzi, hzp⟩ := State.census_single hwa h1 hr (x.p.toNat + 1)
  obtain ⟨z', hz', hplacid⟩ := State.census_placid hwf hwa (x.p.toNat + 1)
  obtain rfl := Option.some.inj (hz.symm.trans hz')
  have hnext : w.nextIndex b.a = (w.census b.a (x.p.toNat + 1)).settle b.a.team := by
    unfold State.nextIndex
    simp only [hwa]
    rfl
  obtain ⟨ha, -⟩ := State.settle_calm ((State.census_keeps w b.a _).clean hwf) hz (State.census_issue w b.a _ hwi z hz)
  rw [← hnext] at ha
  obtain ⟨h, hh⟩ := State.markHeld_self ha
  exact ⟨_, hh, hzi, hzp, hplacid⟩

theorem Agent.writeAll_outline (x : Agent) (ws : List RegWrite) : (x.writeAll ws).outline = x.outline :=
  foldl_keeps (fun y : Agent => y.outline = x.outline) Agent.write ws (fun y w _ h => (Agent.write_outline y w).trans h) x rfl

/-- The answer of a SYSC fills D. -/
theorem Due.syscAnswered {f : Fields} {s : State} {b : Beat} (h : Due (.sysc f) f s b) (hal : b.alive) (hp : b.perf ≠ 0) {w : W64} (hw : b.x.answer = some w) :
    ∃ t y, exec (.sysc f) s = .next t ∧ t.agent b.a = some y ∧ y.answer = none ∧ y.holds 64 0 f.d w ∧ wantsAfter b y fun _ => b.x.p + 1 := by
  let g : Agent → Agent := fun x => Agent.writeAll { x with answer := none } (laneWrites 64 [0] (fun _ => w) f.d)
  have hb : answerBody .sysc resultTo b (s.begun b) = .done ((s.begun b).modAgent b.a g) := by
    rw [answerBody_some hp hw, resultTo, State.takeAnswer, State.modAgent_modAgent, h.f_eq]
    simp only [g, laneWrites, List.flatMap_cons, List.flatMap_nil, List.append_nil]
  have hpair : ∀ n, f.d = .v n → 64 = 64 → n.toNat % 2 = 0 := fun n hn _ => by
    obtain ⟨-, hd⟩ := h.dest_ok (opc := 0xE0) rfl
    rw [← Option.some.inj h.row_eq, hn] at hd
    exact Bool.noConfusion hd
  have hout : (g b.begunAgent).outline = { b.begunAgent with answer := none }.outline := Agent.writeAll_outline ..
  obtain ⟨t, y, hnext, hy, hcore, hwants, -⟩ := h.goes_on hal (g := g) hb
    ⟨(congrArg Agent.lanes hout : (g b.begunAgent).outline.lanes = _), (congrArg Agent.issue hout : (g b.begunAgent).outline.issue = _)⟩
  have hregs : y.regs = (g b.begunAgent).regs := (congrArg Agent.regs hcore).trans rfl
  refine ⟨t, y, (exec_sysc f s).trans hnext, hy, ?_, ?_, hwants⟩
  · exact ((congrArg Agent.answer hcore : y.core.answer = _).trans rfl).trans (congrArg Agent.answer hout)
  · exact holds_of_laneWrites (laneWrites_agree hpair fun _ _ _ _ _ _ => rfl) hregs (List.mem_singleton_self 0) (by decide)

theorem Agent.privReturn_lane {x : Agent} (h1 : x.lanes.length = 1) : (x.privReturn.lane 0).w = x.pepc ∧ (x.privReturn.lane 0).s = (x.lane 0).s := by
  obtain ⟨r, hr⟩ := List.length_eq_one_iff.mp h1
  unfold Agent.privReturn Agent.modLane Agent.lane
  rw [hr]
  exact ⟨rfl, rfl⟩

theorem Agent.privReturn_length {x : Agent} (h1 : x.lanes.length = 1) : x.privReturn.lanes.length = 1 := by
  obtain ⟨r, hr⟩ := List.length_eq_one_iff.mp h1
  unfold Agent.privReturn Agent.modLane
  rw [hr]
  rfl

theorem Agent.privReturn_runLanes {x : Agent} (h1 : x.lanes.length = 1) (hr : x.runLanes ≠ []) : x.privReturn.runLanes ≠ [] := by
  have hrun := Agent.runLanes_single h1 hr
  have h0 : (x.lane 0).s = .run := by
    have := List.mem_singleton_self 0
    rw [← hrun] at this
    unfold Agent.runLanes at this
    simpa using (List.mem_filter.mp this).2
  have hl : x.privReturn.runLanes = [0] := by
    unfold Agent.runLanes
    rw [Agent.laneNos_single (Agent.privReturn_length h1)]
    simp only [List.filter_cons, List.filter_nil, (Agent.privReturn_lane h1).2, h0, decide_true, if_true]
  rw [hl]
  nofun

/-- What of an agent a census keeps. -/
theorem Agent.of_placid {x y : Agent} (h : y.placid = x.placid) :
    y.lanes = x.lanes ∧ y.inh = x.inh ∧ y.regs = x.regs ∧ y.pepc = x.pepc ∧ y.pcause = x.pcause :=
  ⟨(congrArg Agent.lanes h : y.placid.lanes = _), (congrArg Agent.inh h : y.placid.inh = _), (congrArg Agent.regs h : y.placid.regs = _),
    (congrArg Agent.pepc h : y.placid.pepc = _), (congrArg Agent.pcause h : y.placid.pcause = _)⟩

/-- A privileged thread returns from its handler. -/
theorem Due.returns {f : Fields} {s : State} {b : Beat} (h : Due (.eret f) f s b) (hp : b.perf ≠ 0) (hal : b.alive) (hinh : b.x.inh = true) (h1 : b.x.lanes.length = 1) :
    ∃ t y, exec (.eret f) s = .next t ∧ t.agent b.a = some y ∧ (y.lane 0).w = b.x.pepc ∧ y.p = b.x.pepc ∧ y.issue = .arrive true ∧ y.inh = false ∧
      y.regs = b.x.regs ∧ y.pepc = b.x.pepc ∧ y.pcause = b.x.pcause := by
  have hga := h.begun_modAgent Agent.privReturn
  have hexec : exec (.eret f) s = .next ((s.waited b.a).conclude b true (.done ((s.begun b).modAgent b.a Agent.privReturn))) := by
    rw [exec_eret, execEret, issueBeat_due h, if_neg hp, if_pos hinh]
    rfl
  have hone : b.begunAgent.lanes.length = 1 := b.begunAgent_lanes_length.trans h1
  have hpepc : b.begunAgent.pepc = b.x.pepc := (congrArg Agent.pepc b.begunAgent_eq).trans rfl
  have hpcause : b.begunAgent.pcause = b.x.pcause := (congrArg Agent.pcause b.begunAgent_eq).trans rfl
  have hw := (Agent.privReturn_lane hone).1.trans hpepc
  have hf : ((s.begun b).modAgent b.a Agent.privReturn).flaws = [] := h.clean
  obtain ⟨y, hy, hyi, hyp, hplacid⟩ := State.conclude_single (s := s.waited b.a) hf hga (h.begun_issue : b.begunAgent.privReturn.issue = _)
    (Agent.privReturn_length hone) (Agent.privReturn_runLanes hone (b.begun_alive hal))
  obtain ⟨hl, hyinh, hyregs, hypepc, hypcause⟩ := Agent.of_placid hplacid
  have hyl : (y.lane 0).w = b.x.pepc := by
    rw [Agent.lane, hl]
    exact hw
  exact ⟨_, y, hexec, hy, hyl, hyp.trans hw, hyi, hyinh, hyregs.trans b.begunAgent_regs, hypepc.trans hpepc, hypcause.trans hpcause⟩

/-- Settles O42: SYSC, HALT, TLBI and ERET. -/
theorem privilegedForms : Obligations.PrivilegedForms := by
  refine ⟨fun f s b h hp hal => ⟨fun w hw => h.syscAnswered hal hp hw, fun hw => h.unanswered hp hw (k := resultTo)⟩, fun i why f s b hi h hp hal => ?_,
    fun f s b h hp hal hinh h1 => h.returns hp hal hinh h1⟩
  obtain ⟨rfl, rfl⟩ | ⟨rfl, rfl⟩ := hi
  · exact ⟨fun w hw => exec_halt f s ▸ h.answered hal hp hw, fun hw => exec_halt f s ▸ h.unanswered hp hw⟩
  · exact ⟨fun w hw => exec_tlbi f s ▸ h.answered hal hp hw, fun hw => exec_tlbi f s ▸ h.unanswered hp hw⟩

end Sys2Proof.Machine
end

section
/-! O60: firmware, management registers, attestation and reset (R3, R296, R304, R305, R311, R338, R339, R347 to R349). -/

namespace Sys2Proof.Machine

theorem exec_mdoor (w : W64) (s : State) : exec (.mdoor w) s = execMdoor w s := rfl
theorem exec_firmwareTimer (die : Nat) (s : State) : exec (.firmwareTimer die) s = execFirmwareTimer die s := rfl
theorem exec_syscAnswer (a : AgentId) (w : W64) (s : State) : exec (.syscAnswer a w) s = execSyscAnswer a w s := rfl
theorem exec_tlbiComplete (a : AgentId) (s : State) : exec (.tlbiComplete a) s = execTlbiComplete a s := rfl
theorem exec_privilegedThreadStart (die entry : Nat) (s : State) : exec (.privilegedThreadStart die entry) s = execPrivilegedThreadStart die entry s := rfl
theorem exec_registerWrite (vf : Option Nat) (bar off : Nat) (w : W64) (s : State) :
    exec (.registerWrite vf bar off w) s = execRegisterWrite vf bar off w s := rfl
theorem exec_atcmd (part : Nat) (w : W64) (s : State) : exec (.atcmd part w) s = execAtcmd part w s := rfl
theorem exec_attestationReport (part : Nat) (ok : Bool) (s : State) : exec (.attestationReport part ok) s = execAttestationReport part ok s := rfl
theorem exec_powerOnReset (s : State) : exec .powerOnReset s = execPowerOnReset s := rfl

/-! ### DMC events and answers -/

/-- A state whose privileged teams of the given kind have had their parked threads go on. -/
theorem wokenThread_of_unhalt {s u : State} {mine : Team → Prop}
    (h : ∀ n t, s.team n = some t → t.priv = true → mine t → u.team n = some { t with agents := t.agents.map fun g => (g.1, g.2.unhalt) }) :
    wokenThread s u mine := by
  intro a t x ht hp hm hx hh
  have hfind : Tbl.find? t.agents a.who = some x := by
    unfold State.agent at hx
    rw [ht] at hx
    exact hx
  unfold State.agent
  rw [h a.team t ht hp hm]
  refine ⟨x.unhalt, ?_, ?_⟩
  · rw [Option.bind_some, Tbl.find?_map t.agents (fun _ x => x.unhalt), hfind]
    rfl
  · rw [Agent.unhalt, if_pos hh]
    exact ⟨rfl, rfl, rfl⟩

theorem dmcEvents (s : State) (w : W64) (die : Nat) : (∃ u, exec (.mdoor w) s = .next u ∧ u.mdoor = w ∧ wokenThread s u fun _ => True) ∧
    ∃ u, exec (.firmwareTimer die) s = .next u ∧ (wokenThread s u fun t => t.part = 12 + die) ∧ u.mem = s.mem := by
  refine ⟨⟨_, exec_mdoor w s, rfl, wokenThread_of_unhalt fun n t ht hp _ => ?_⟩,
    ⟨_, exec_firmwareTimer die s, wokenThread_of_unhalt fun n t ht hp hd => ?_, rfl⟩⟩
  · refine (Tbl.find?_map s.teams (fun _ t => if t.priv then { t with agents := t.agents.map fun g => (g.1, g.2.unhalt) } else t) n).trans ?_
    rw [show Tbl.find? s.teams n = some t from ht, Option.map_some, if_pos hp]
  · rw [State.team_dmcEventOn, ht, Option.map_some, Team.unhaltedOn, hp, hd]
    simp

theorem Agent.receive_waiting {x : Agent} (hi : x.issue = .beats) (ha : x.answer = none) {why : BlockWhy} (hb : x.block = some why) (w : W64) :
    x.receive why w = { x with answer := some w, block := none } := if_pos ⟨hi, hb, ha⟩

/-- An answer reaches the thread that waits for it. -/
theorem State.receive_agent {s : State} {a : AgentId} {x : Agent} (hx : s.agent a = some x) (hi : x.issue = .beats) (ha : x.answer = none) {why : BlockWhy}
    (hb : x.block = some why) (w : W64) :
    ∃ y, (s.modAgent a fun y => y.receive why w).agent a = some y ∧ y.answer = some w ∧ y.block = none ∧ y.lanes = x.lanes :=
  ⟨{ x with answer := some w, block := none }, by rw [State.agent_modAgent_same, hx, Option.map_some, Agent.receive_waiting hi ha hb], rfl, rfl, rfl⟩

theorem answers (s : State) (a : AgentId) (x : Agent) (w : W64) (hx : s.agent a = some x) (hi : x.issue = .beats) (ha : x.answer = none) :
    (x.block = some .sysc → ∃ u y, exec (.syscAnswer a w) s = .next u ∧ u.agent a = some y ∧ y.answer = some w ∧ y.block = none ∧ y.lanes = x.lanes) ∧
    (∀ f, x.block = some .tlbi → parse x.arr.word = .ok (.tlbi f) →
      (s.tlbiWaits f.fn (regOrZero x f.a) (regOrZero x f.b) = false → ∃ u y, exec (.tlbiComplete a) s = .next u ∧ u.agent a = some y ∧
        y.answer = some 0 ∧ y.block = none ∧ y.lanes = x.lanes ∧
        ∀ e, e ∈ u.tlb ↔ e ∈ s.tlb ∧ tlbiNames f.fn (regOrZero x f.a) (regOrZero x f.b) e.part e.asid (fun va => e.tag == levelTag e.level va) = false) ∧
      (s.tlbiWaits f.fn (regOrZero x f.a) (regOrZero x f.b) = true → exec (.tlbiComplete a) s = .next s)) := by
  refine ⟨fun hb => ?_, fun f hb hf => ⟨fun hwait => ?_, fun hwait => ?_⟩⟩
  · obtain ⟨y, hy, hya⟩ := State.receive_agent hx hi ha hb w
    exact ⟨_, y, exec_syscAnswer a w s, hy, hya⟩
  · obtain ⟨y, hy, hya, hyb, hyl⟩ := State.receive_agent (s := s.dropTlb f.fn (regOrZero x f.a) (regOrZero x f.b)) hx hi ha hb 0
    refine ⟨_, y, ?_, hy, hya, hyb, hyl, fun e => ?_⟩
    · rw [exec_tlbiComplete, execTlbiComplete, hx]
      simp only [hf, hi, hb, hwait, ne_eq, not_true_eq_false, Bool.false_eq_true, or_self, if_false]
    · refine (List.mem_filter (as := s.tlb)).trans ?_
      rw [Bool.not_eq_true']
  · rw [exec_tlbiComplete, execTlbiComplete, hx]
    simp only [hf, hwait, or_true, if_true]

/-! ### Privileged threads -/

theorem Tbl.find?_of_lt {α : Type} {m : Tbl α} {k : Nat} (h : ∀ e ∈ m, e.1 < k) : Tbl.find? m k = none := by
  cases hf : Tbl.find? m k with
  | none => rfl
  | some x => exact absurd (h _ (Tbl.mem_of_find? hf)) (Nat.lt_irrefl k)

theorem Tbl.lt_freshKey {α : Type} (m : Tbl α) : ∀ e ∈ m, e.1 < Tbl.freshKey m := by
  have hgrow : ∀ (m : Tbl α) (n : Nat), n ≤ m.foldl (fun n e => max n (e.1 + 1)) n ∧ ∀ e ∈ m, e.1 < m.foldl (fun n e => max n (e.1 + 1)) n := by
    intro m
    induction m with
    | nil => exact fun n => ⟨Nat.le_refl n, nofun⟩
    | cons d m ih =>
      intro n
      obtain ⟨hle, hlt⟩ := ih (max n (d.1 + 1))
      refine ⟨Nat.le_trans (Nat.le_max_left ..) hle, fun e he => ?_⟩
      rcases List.mem_cons.mp he with rfl | he
      · exact Nat.lt_of_lt_of_le (Nat.lt_succ_self _) (Nat.le_trans (Nat.le_max_right ..) hle)
      · exact hlt e he
  exact (hgrow m 0).2

/-- A key that no entry has. -/
theorem Tbl.find?_freshKey {α : Type} (m : Tbl α) : Tbl.find? m (Tbl.freshKey m) = none := Tbl.find?_of_lt (Tbl.lt_freshKey m)

/-- A team that its cluster has loaded starts there, its agents as loaded but for their ranks. -/
theorem State.startTeam_team {s : State} {n cl : Nat} {t : Team} (ht : s.team n = some t) (hr : t.res = .loading cl) :
    (s.startTeam n).team n = some { t with res := .on cl, slot := s.lowestSlot t.part t.asid, age := s.ageSeq, agents := youngest t.agents s.rankSeq s.beatSeq } := by
  unfold State.startTeam
  simp -zeta only [ht, hr]
  extract_lets slot s1 src s2
  have hs2 : s2.team n = some { t with res := .on cl, slot := slot, age := s.ageSeq, agents := youngest t.agents s.rankSeq s.beatSeq } :=
    Tbl.find?_ins_same ..
  clear_value s2
  cases s2.ctx t.part t.asid with
  | none => exact hs2
  | some c =>
    change (Option.getD _ s2).team n = _
    cases hd : s2.deviceWrite cl t.part t.asid (localVaOf c slot ctlWho 0 0) (toBytes 8 (tcbVa c slot)) with
    | none => exact hs2
    | some v => exact (congrArg (Tbl.find? · n) (State.deviceWrite_teams hd)).trans hs2

theorem find?_youngest_ctl (agents : Tbl Agent) (rank seq : Nat) : Tbl.find? (youngest agents rank seq) ctlWho = Tbl.find? agents ctlWho := by
  induction agents with
  | nil => rfl
  | cons e agents ih =>
    unfold youngest at ih ⊢
    by_cases he : e.1 = ctlWho
    · simp [Tbl.find?, he]
    · simp [Tbl.find?, he, ih]

theorem threadStart (s : State) (die entry cl : Nat) (hcl : s.privCluster die = some cl) :
    (bit s.bootStat 0 = true → ∃ u n t x, exec (.privilegedThreadStart die entry) s = .next u ∧ s.team n = none ∧ u.team n = some t ∧ t.res = .on cl ∧
      t.priv = true ∧ t.part = 12 + die ∧ Tbl.find? t.agents ctlWho = some x ∧ x.kind = .privileged ∧ x.p = BitVec.ofNat 28 entry ∧
      x.issue = .arrive true ∧ x.inh = false) ∧
    (bit s.bootStat 0 = false → exec (.privilegedThreadStart die entry) s = .next s) := by
  rw [exec_privilegedThreadStart]
  unfold execPrivilegedThreadStart
  rw [hcl]
  refine ⟨fun hb => ?_, fun hb => ?_⟩
  · simp only [hb, Bool.not_true, Bool.false_eq_true, if_false]
    generalize hn : Tbl.freshKey s.teams = n
    generalize ht0 : ({ Team.fresh (12 + die) 0 noGrid 0 (newThread .privileged (BitVec.ofNat 28 entry)) true with
        res := .loading cl, set := [n], priv := true } : Team) = t0
    have ht : (((s.ungate cl).own cl (12 + die) 0).setTeam n t0).team n = some t0 := Tbl.find?_ins_same ..
    have hteam := State.startTeam_team (cl := cl) ht (by rw [← ht0])
    subst hn ht0
    exact ⟨_, _, _, _, rfl, Tbl.find?_freshKey s.teams, hteam, rfl, rfl, rfl, find?_youngest_ctl .., rfl, rfl, rfl, rfl⟩
  · simp only [hb, Bool.not_false, if_true]

/-! ### Registers -/

theorem within_iff (w : W64) (lo hi : Nat) : (decide (lo ≤ w.toNat) && decide (w.toNat ≤ hi)) = true ↔ lo ≤ w.toNat ∧ w.toNat ≤ hi := by
  rw [Bool.and_eq_true, decide_eq_true_iff, decide_eq_true_iff]

theorem Pwc.writeReg_fpt (p : Pwc) {i : Nat} (hi : i < 16) (w : W64) :
    Tbl.get 0 (p.writeReg (0x080 + 8 * i) w).fpt i = if p.en = true then Tbl.get 0 p.fpt i else w := by
  have hmod : (0x080 + 8 * i) % 8 = 0 := by omega
  have hreg : p.writeReg (0x080 + 8 * i) w = if p.en || decide ((0x080 + 8 * i) % 8 ≠ 0) then p
      else { p with fpt := Tbl.put 0 p.fpt ((0x080 + 8 * i - 0x080) / 8) w } := by
    unfold Pwc.writeReg
    split
    case h_7 => exact if_congr Iff.rfl rfl (if_pos (by omega))
    all_goals omega
  rw [hreg, hmod]
  cases p.en with
  | true => rfl
  | false => exact (Tbl.get_put ..).trans (if_pos (by omega))

theorem registers (s : State) (bar off : Nat) (w : W64) (vf : Option Nat) :
    (off % 8 ≠ 0 → exec (.registerWrite vf bar off w) s = .next s) ∧
    (∃ u, exec (.registerWrite none 0 0x008 w) s = .next u ∧ u.pwc.pmax = if 1000 ≤ w.toNat ∧ w.toNat ≤ 7200 then w else s.pwc.pmax) ∧
    (∃ u, exec (.registerWrite none 0 0x010 w) s = .next u ∧ u.pwc.grace = if 100 ≤ w.toNat ∧ w.toNat ≤ 8000 then w else s.pwc.grace) ∧
    (∃ u, exec (.registerWrite none 0 0x018 w) s = .next u ∧ u.pwc.hold = if 100 ≤ w.toNat ∧ w.toNat ≤ 60000 then w else s.pwc.hold) ∧
    (∀ i, i < 16 → ∃ u, exec (.registerWrite none 0 (0x080 + 8 * i) w) s = .next u ∧
      Tbl.get 0 u.pwc.fpt i = if s.pwc.en = true then Tbl.get 0 s.pwc.fpt i else w) ∧
    (∀ part, (s.partition part).live = false → exec (.registerWrite (some part) bar off w) s = .next s) ∧
    (∀ part q, q < 64 → (s.partition part).live = true → ∃ u, exec (.registerWrite (some part) 0 (64 * q) w) s = .next u ∧
      u.hostq part q = { s.hostq part q with base := w }) := by
  refine ⟨fun h => ?_, ⟨_, rfl, ?_⟩, ⟨_, rfl, ?_⟩, ⟨_, rfl, ?_⟩, fun i hi => ?_, fun part h => ?_, fun part q hq h => ?_⟩
  · rw [exec_registerWrite]
    unfold execRegisterWrite
    rw [if_pos h]
  · exact (apply_ite Pwc.pmax _ _ _).trans (if_congr (within_iff ..) rfl rfl)
  · exact (apply_ite Pwc.grace _ _ _).trans (if_congr (within_iff ..) rfl rfl)
  · exact (apply_ite Pwc.hold _ _ _).trans (if_congr (within_iff ..) rfl rfl)
  · refine ⟨{ s with pwc := s.pwc.writeReg (0x080 + 8 * i) w }, ?_, s.pwc.writeReg_fpt hi w⟩
    rw [exec_registerWrite]
    unfold execRegisterWrite State.writePf
    rw [if_neg (by omega)]
    simp only [if_true, if_pos (show 0x080 + 8 * i < 0x1000 by omega)]
  · rw [exec_registerWrite]
    unfold execRegisterWrite
    split
    · rfl
    · simp only [State.vf, h, Bool.false_eq_true, if_false]
  · refine ⟨s.modQueue part q fun h => { h with base := w }, ?_, State.hostq_modQueue ..⟩
    rw [exec_registerWrite]
    unfold execRegisterWrite State.vf State.writeVf
    rw [if_neg (by omega)]
    simp only [h, if_true]
    rw [if_pos (by omega), if_pos (by omega), Nat.mul_div_cancel_left q (by decide)]

/-! ### Reports -/

theorem shake256_length (m : List Byte) : (shake256 m).length ≤ 64 := by
  have hbytes : ∀ ls : List W64, (ls.flatMap fun l => toBytes 8 l.toNat).length = ls.length * 8 := fun ls => by
    induction ls with
    | nil => rfl
    | cons l ls ih => rw [List.flatMap_cons, List.length_append, toBytes_length, ih, List.length_cons]; omega
  unfold shake256
  extract_lets p
  rw [hbytes, List.length_take]
  omega

/-- A report is at most 256 bytes and its signature. -/
theorem State.reportBody_length (s : State) (part : Nat) (h : (s.partition part).mail.nonce.length = 32) : (s.reportBody part).length ≤ 256 := by
  have h1 := shake256_length Config.certChain
  have h2 := shake256_length (s.measures part)
  unfold State.reportBody
  extract_lets p
  have hn : p.mail.nonce.length = 32 := h
  simp only [List.length_append, toBytes_length, List.length_replicate, List.flatMap_cons, List.flatMap_nil, List.length_nil, hn]
  omega

theorem fitBytes_length (n : Nat) (l : List Byte) : (fitBytes n l).length = n := by
  unfold fitBytes
  rw [List.length_take, List.length_append, List.length_replicate]
  omega

/-- Two writes one after the other put the bytes of both. -/
theorem lands_append {s u v : State} {loc : Nat} {d e : List Byte} (h : lands s u loc (d.map some)) (hw : s.Writes u)
    (h' : lands u v (loc + d.length) (e.map some)) : lands s v loc ((d ++ e).map some) := by
  intro a ha
  rw [h' a (hw.spill ha), h a ha]
  simp only [List.length_map, List.length_append, List.map_append]
  by_cases hlo : loc ≤ a
  · by_cases hd : a < loc + d.length
    · rw [if_neg (by omega), if_pos ⟨hlo, hd⟩, if_pos ⟨hlo, by omega⟩, List.getD_append _ _ _ _ (by rw [List.length_map]; omega)]
    · by_cases he : a < loc + d.length + e.length
      · rw [if_pos ⟨by omega, he⟩, if_neg (by omega), if_pos ⟨hlo, by omega⟩, List.getD_append_right _ _ _ _ (by rw [List.length_map]; omega),
          List.length_map, Nat.sub_add_eq, List.getD_eq_getElem _ _ (by rw [List.length_map]; omega), List.getElem_map]
      · rw [if_neg (by omega), if_neg (by omega), if_neg (by omega)]
  · rw [if_neg (by omega), if_neg (by omega), if_neg (by omega)]

/-- Bytes that the module writes over the bus, line by line. -/
theorem State.busWrite_lands (fuel : Nat) (s : State) (addr : Nat) (bs : List Byte) (hf : bs = [] ∨ addr % 128 + bs.length ≤ 128 * fuel) :
    s.Writes (s.busWrite addr bs fuel) ∧ lands s (s.busWrite addr bs fuel) (locOf 1 addr) (bs.map some) := by
  have hnil : ∀ u : State, lands u u (locOf 1 addr) ([].map some) := fun u a _ => by
    rw [List.map_nil, List.length_nil, if_neg (by omega)]
  induction fuel generalizing s addr bs with
  | zero =>
    obtain rfl : bs = [] := hf.elim id fun h => List.length_eq_zero_iff.mp (by omega)
    exact ⟨.refl s, hnil s⟩
  | succ fuel ih =>
    unfold State.busWrite
    split
    next h =>
      subst h
      exact ⟨.refl s, hnil s⟩
    next h =>
      extract_lets n
      have hlen := hf.resolve_left h
      generalize hu : (s.writeAt _ (bs.take n) none).1 = u
      have hpos : 0 < bs.length := List.length_pos_iff.mpr h
      have hn : n ≤ bs.length ∧ (n = bs.length ∨ addr % 128 + n = 128) := by omega
      have hw : s.Writes u := hu ▸ s.writeAt_writes ..
      have hl : lands s u (locOf 1 addr) ((bs.take n).map some) := by
        rw [← hu]
        exact s.lands_writeAt _ _ _
      have hloc : locOf 1 addr + (bs.take n).length = locOf 1 (addr + n) := by
        rw [List.length_take, Nat.min_eq_left hn.1]
        unfold locOf
        omega
      obtain ⟨hw', hl'⟩ := ih u (addr + n) (bs.drop n) (by
        rw [List.length_drop, List.drop_eq_nil_iff]
        omega) fun u a _ => by rw [List.map_nil, List.length_nil, if_neg (by omega)]
      refine ⟨hw.trans hw', ?_⟩
      have := lands_append hl hw (hloc ▸ hl')
      rwa [List.take_append_drop] at this

/-- A report asked for, with what the mailbox then says and the interrupt. -/
def State.reported3 (s : State) (part : Nat) (stat : Nat) : State := (s.modPart part fun p => { p with mail := { p.mail with stat := stat } }).fire (part + 1) 3

theorem State.reported3_stat (s : State) (part stat : Nat) : ((s.reported3 part stat).partition part).mail.stat = stat := by
  unfold State.reported3
  rw [State.partition_congr (State.fire_parts ..), State.partition_modPart, if_pos rfl]

theorem attested {s : State} {part : Nat} (h : (s.partition part).mail.stat = 1) :
    exec (.attestationReport part true) s = .next ((s.busWrite (s.partition part).mail.dst.toNat
      (s.reportBody part ++ fitBytes 1280 (Config.sign (s.reportBody part))) 14).reported3 part 2) ∧
    exec (.attestationReport part false) s = .next (s.reported3 part 3) := by
  rw [exec_attestationReport, exec_attestationReport]
  unfold execAttestationReport
  simp only [h, ne_eq, not_true_eq_false, if_false, if_true, Bool.false_eq_true]
  exact ⟨rfl, rfl⟩

theorem State.mem_reported3 (s : State) (part stat : Nat) : { fn := part + 1, vector := 3 } ∈ (s.reported3 part stat).msix := List.mem_cons_self

theorem State.reported3_mem (s : State) (part stat : Nat) : (s.reported3 part stat).mem = s.mem := rfl

theorem reports (s : State) (part : Nat) (w : W64) : let m := (s.partition part).mail
    ((s.partition part).live = true → bit w 0 = true → m.stat ≠ 1 → ∃ u, exec (.atcmd part w) s = .next u ∧
      (u.partition part).mail = { m with stat := 1 }) ∧
    ((s.partition part).live = true → m.stat = 1 → exec (.atcmd part w) s = .next s) ∧
    (m.stat = 1 → m.nonce.length = 32 → ∃ u, exec (.attestationReport part true) s = .next u ∧ (u.partition part).mail.stat = 2 ∧
      { fn := part + 1, vector := 3 } ∈ u.msix ∧
      ∀ k b, (s.reportBody part ++ fitBytes 1280 (Config.sign (s.reportBody part)))[k]? = some b → s.spillByte (locOf 1 m.dst.toNat + k) = false →
        u.byteAt (locOf 1 m.dst.toNat + k) = b) ∧
    (m.stat = 1 → ∃ u, exec (.attestationReport part false) s = .next u ∧ (u.partition part).mail.stat = 3 ∧ u.mem = s.mem) ∧
    (m.stat ≠ 1 → ∀ ok, exec (.attestationReport part ok) s = .next s) := by
  intro m
  refine ⟨fun hl hw hm => ?_, fun hl hm => ?_, fun hm hn => ?_, fun hm => ?_, fun hm ok => ?_⟩
  · refine ⟨s.modPart part fun p => { p with mail := { p.mail with stat := 1 } }, ?_, ?_⟩
    · rw [exec_atcmd, execAtcmd, State.vf, if_pos hl, if_neg]
      simp only [hw, Bool.not_true, Bool.false_or, decide_eq_true_iff]
      exact hm
    · rw [State.partition_modPart, if_pos rfl]
  · rw [exec_atcmd, execAtcmd, State.vf, if_pos hl, if_pos]
    rw [Bool.or_eq_true, decide_eq_true_iff]
    exact .inr hm
  · refine ⟨_, (attested hm).1, State.reported3_stat .., ?_, fun k b hk hsp => ?_⟩
    · exact State.mem_reported3 ..
    · have hlen := s.reportBody_length part hn
      obtain ⟨-, hland⟩ := s.busWrite_lands 14 m.dst.toNat (s.reportBody part ++ fitBytes 1280 (Config.sign (s.reportBody part)))
        (.inr (by rw [List.length_append, fitBytes_length]; omega))
      obtain ⟨hlt, hkb⟩ := List.getElem?_eq_some_iff.mp hk
      refine ((State.byteAt_congr (State.reported3_mem ..) _).trans (hland _ hsp)).trans ?_
      rw [List.length_map, if_pos (by omega), Nat.add_sub_cancel_left, List.getD_eq_getElem _ _ (by rwa [List.length_map]), List.getElem_map, hkb]
      rfl
  · exact ⟨_, (attested hm).2, State.reported3_stat .., State.reported3_mem ..⟩
  · rw [exec_attestationReport, execAttestationReport]
    exact if_pos hm

/-! ### Reset and boot -/

/-- A state without what booting writes. -/
def State.unbooted (s : State) : State := { s with dies := [], bootStat := 0 }

theorem bootFrom_unbooted (l : List (Nat × Nat)) (s : State) : (bootFrom s l).unbooted = s.unbooted := by
  induction l generalizing s with
  | nil => rfl
  | cons e l ih =>
    obtain ⟨stage, die⟩ := e
    unfold bootFrom
    extract_lets image
    split
    · exact (ih _).trans rfl
    · rfl

theorem imageCheck_verdict (stage die : Nat) (image : List Byte) : imageCheck stage die image = verdict stage die image := by
  unfold imageCheck verdict imageDigest minVersion
  simp only [Bool.not_eq_true']

/-- The image of a stage. -/
def State.image (s : State) (stage : Nat) : List Byte := (Tbl.find? s.flash stage).getD []

theorem bootFrom_sound {s : State} {stage die : Nat} (h : verdict stage die (s.image stage) = 0) (l : List (Nat × Nat)) :
    bootFrom s ((stage, die) :: l) = bootFrom (s.extend die (stage - 1) (imageDigest (s.image stage))) l := by
  conv_lhs => unfold bootFrom
  extract_lets image
  have h0 : imageCheck stage die image = 0 := (imageCheck_verdict ..).trans h
  rw [h0] <;> rfl

theorem bootFrom_unsound {s : State} {stage die : Nat} (h : verdict stage die (s.image stage) ≠ 0) (l : List (Nat × Nat)) :
    bootFrom s ((stage, die) :: l) = { s with bootStat := BitVec.ofNat 64 (verdict stage die (s.image stage) * 65536 + die * 4096 + stage * 256) } := by
  unfold bootFrom
  extract_lets image
  have h0 : imageCheck stage die image = verdict stage die (s.image stage) := imageCheck_verdict ..
  rw [← h0] at h ⊢
  split
  next hz => exact absurd hz h
  next => rfl

theorem State.image_extend (s : State) (die i : Nat) (h : List Byte) (stage : Nat) : (s.extend die i h).image stage = s.image stage := rfl

theorem State.die_extend (s : State) (die i : Nat) (h : List Byte) (d : Nat) : (s.extend die i h).die d =
    if d = die then { s.die die with mreg := Tbl.ins (s.die die).mreg i (shake256 ((Tbl.find? (s.die die).mreg i).getD (List.replicate 64 0) ++ h)) }
    else s.die d := State.die_ins ..

/-- Sound images in front are passed. -/
theorem bootFrom_append (pre post : List (Nat × Nat)) (s : State) (h : ∀ e ∈ pre, verdict e.1 e.2 (s.image e.1) = 0) :
    ∃ u, bootFrom s (pre ++ post) = bootFrom u post ∧ u.flash = s.flash := by
  induction pre generalizing s with
  | nil => exact ⟨s, rfl, rfl⟩
  | cons e pre ih =>
    rw [List.cons_append, bootFrom_sound (h e List.mem_cons_self)]
    obtain ⟨u, hu, hflash⟩ := ih (s.extend e.2 (e.1 - 1) (imageDigest (s.image e.1))) fun e' he => h e' (List.mem_cons_of_mem _ he)
    exact ⟨u, hu, hflash⟩

/-- A measurement register that later images leave. -/
theorem bootFrom_mreg_keeps (l : List (Nat × Nat)) (s : State) (hv : ∀ e ∈ l, verdict e.1 e.2 (s.image e.1) = 0) {d i : Nat}
    (hl : ∀ e ∈ l, e.2 = d → e.1 - 1 ≠ i) : Tbl.find? ((bootFrom s l).die d).mreg i = Tbl.find? (s.die d).mreg i := by
  induction l generalizing s with
  | nil => rfl
  | cons e l ih =>
    rw [bootFrom_sound (hv e List.mem_cons_self), ih (s.extend e.2 (e.1 - 1) (imageDigest (s.image e.1))) (fun e' he => hv e' (List.mem_cons_of_mem _ he)) fun e' he => hl e' (List.mem_cons_of_mem _ he),
      State.die_extend]
    split
    next hd =>
      subst hd
      exact Tbl.find?_ins_other _ _ (hl e List.mem_cons_self rfl).symm
    next => rfl

/-- Every image sound: boot succeeds, and an image that is judged once for a register extends it. -/
theorem bootFrom_mreg (pre post : List (Nat × Nat)) (s : State) (stage d : Nat) (hv : ∀ e ∈ pre ++ (stage, d) :: post, verdict e.1 e.2 (s.image e.1) = 0)
    (hpre : ∀ e ∈ pre, e.2 = d → e.1 - 1 ≠ stage - 1) (hpost : ∀ e ∈ post, e.2 = d → e.1 - 1 ≠ stage - 1)
    (h0 : Tbl.find? (s.die d).mreg (stage - 1) = none) :
    Tbl.find? ((bootFrom s (pre ++ (stage, d) :: post)).die d).mreg (stage - 1) = some (shake256 (List.replicate 64 0 ++ imageDigest (s.image stage))) := by
  induction pre generalizing s with
  | nil =>
    rw [List.nil_append, bootFrom_sound (hv (stage, d) List.mem_cons_self),
      bootFrom_mreg_keeps post (s.extend d (stage - 1) (imageDigest (s.image stage))) (fun e he => hv e (List.mem_cons_of_mem _ he)) hpost, State.die_extend, if_pos rfl, h0]
    exact Tbl.find?_ins_same ..
  | cons e pre ih =>
    rw [List.cons_append, bootFrom_sound (hv e List.mem_cons_self)]
    refine ih (s.extend e.2 (e.1 - 1) (imageDigest (s.image e.1))) (fun e' he => hv e' (List.mem_cons_of_mem _ he)) (fun e' he => hpre e' (List.mem_cons_of_mem _ he)) ?_
    rw [State.die_extend]
    split
    next hd =>
      subst hd
      exact (Tbl.find?_ins_other _ _ (hpre e List.mem_cons_self rfl).symm).trans h0
    next => exact h0

theorem bootFrom_bootStat (l : List (Nat × Nat)) (s : State) (hv : ∀ e ∈ l, verdict e.1 e.2 (s.image e.1) = 0) : (bootFrom s l).bootStat = 1 := by
  induction l generalizing s with
  | nil => rfl
  | cons e l ih =>
    rw [bootFrom_sound (hv e List.mem_cons_self)]
    exact ih _ fun e' he => hv e' (List.mem_cons_of_mem _ he)

/-- No die judges two images for one register. -/
theorem bootOrder_split {d i : Nat} (hd : d < 12) (hi : i < 4) : ∃ pre post, bootOrder = pre ++ (i + 1, d) :: post ∧
    (∀ e ∈ pre, e.2 = d → e.1 - 1 ≠ i) ∧ ∀ e ∈ post, e.2 = d → e.1 - 1 ≠ i := by
  have hall : ∀ d < 12, ∀ i < 4, bootOrder = bootOrder.take (12 * i + d) ++ (i + 1, d) :: bootOrder.drop (12 * i + d + 1) ∧
      (∀ e ∈ bootOrder.take (12 * i + d), e.2 = d → e.1 - 1 ≠ i) ∧ ∀ e ∈ bootOrder.drop (12 * i + d + 1), e.2 = d → e.1 - 1 ≠ i := by decide
  exact ⟨_, _, hall d hd i hi⟩

theorem State.outside_low (s : State) {l : Nat} (hl : l < 2 ^ 64) : s.outside.byteAt l = 0 := by
  have hnone : Tbl.find? s.outside.mem l = none := by
    cases hf : Tbl.find? s.outside.mem l with
    | none => rfl
    | some b =>
      have hmem := (List.mem_filter (as := s.mem)).mp (Tbl.mem_of_find? hf)
      rw [Bool.and_eq_true, decide_eq_true_iff] at hmem
      exact absurd hmem.2.1 (by simpa using hl)
  unfold State.byteAt Tbl.get
  rw [hnone]
  rfl

theorem powerOn_unbooted (s : State) : ∃ u, exec .powerOnReset s = .next u ∧ u.unbooted = s.outside.unbooted ∧
    ((∀ d, d < 12 → Config.syncs d = true) → u = bootFrom s.outside bootOrder) ∧
    ∀ d, d < 12 → Config.syncs d = false → (∀ k, k < d → Config.syncs k = true) → u.bootStat = BitVec.ofNat 64 (d * 4096) := by
  rw [exec_powerOnReset]
  unfold execPowerOnReset
  cases hf : (List.range 12).find? fun d => !Config.syncs d with
  | none =>
    rw [List.find?_eq_none] at hf
    refine ⟨_, rfl, bootFrom_unbooted .., fun _ => rfl, fun d hd hs _ => ?_⟩
    exact absurd (hf d (List.mem_range.mpr hd)) (by rw [hs]; decide)
  | some k =>
    obtain ⟨hk, hlt, hlow⟩ := List.find?_range_eq_some.mp hf
    rw [Bool.not_eq_true'] at hk
    rw [List.mem_range] at hlt
    refine ⟨_, rfl, rfl, fun h => ?_, fun d hd hs hbelow => ?_⟩
    · rw [h k hlt] at hk
      cases hk
    · rcases Nat.lt_trichotomy d k with h | h | h
      · exact absurd (hlow d h) (by rw [hs]; decide)
      · rw [h]
      · exact absurd (hbelow k h) (by rw [hk]; decide)

theorem verdicts {s u : State} (hu : u = bootFrom s.outside bootOrder) : let image := fun (stage : Nat) => (Tbl.find? s.flash stage).getD []
    ((∀ e ∈ bootOrder, verdict e.1 e.2 (image e.1) = 0) → u.bootStat = 1 ∧ ∀ d i, d < 12 → i < 4 →
       Tbl.find? (u.die d).mreg i = some (shake256 (List.replicate 64 0 ++ shake256 (Config.signedPart (image (i + 1)))))) ∧
     ∀ pre post stage d, bootOrder = pre ++ (stage, d) :: post → (∀ e ∈ pre, verdict e.1 e.2 (image e.1) = 0) → verdict stage d (image stage) ≠ 0 →
       u.bootStat = BitVec.ofNat 64 (verdict stage d (image stage) * 65536 + d * 4096 + stage * 256) := by
  intro image
  subst hu
  refine ⟨fun h => ⟨bootFrom_bootStat _ _ h, fun d i hd hi => ?_⟩, fun pre post stage d ho hpre hv => ?_⟩
  · obtain ⟨pre, post, ho, hpre, hpost⟩ := bootOrder_split hd hi
    rw [ho] at h ⊢
    exact bootFrom_mreg pre post s.outside (i + 1) d h hpre hpost rfl
  · rw [ho]
    obtain ⟨u, hu, hflash⟩ := bootFrom_append pre ((stage, d) :: post) s.outside hpre
    have himage : u.image stage = image stage := by
      unfold State.image
      rw [hflash]
      rfl
    rw [hu, bootFrom_unsound (himage.symm ▸ hv), himage]

theorem resets (s : State) : ∃ u, exec .powerOnReset s = .next u ∧ u.dtime = 0 ∧ u.teams = [] ∧ u.cmds = [] ∧ u.pwc = State.reset.pwc ∧
    u.parts = State.reset.parts ∧ u.flash = s.flash ∧ (∀ l, l < 2 ^ 64 → u.byteAt l = 0) ∧
    (let image := fun (stage : Nat) => (Tbl.find? s.flash stage).getD []
     (∀ d, d < 12 → Config.syncs d = true) →
     ((∀ e ∈ bootOrder, verdict e.1 e.2 (image e.1) = 0) → u.bootStat = 1 ∧ ∀ d i, d < 12 → i < 4 →
       Tbl.find? (u.die d).mreg i = some (shake256 (List.replicate 64 0 ++ shake256 (Config.signedPart (image (i + 1)))))) ∧
     ∀ pre post stage d, bootOrder = pre ++ (stage, d) :: post → (∀ e ∈ pre, verdict e.1 e.2 (image e.1) = 0) → verdict stage d (image stage) ≠ 0 →
       u.bootStat = BitVec.ofNat 64 (verdict stage d (image stage) * 65536 + d * 4096 + stage * 256)) ∧
    ∀ d, d < 12 → Config.syncs d = false → (∀ k, k < d → Config.syncs k = true) → u.bootStat = BitVec.ofNat 64 (d * 4096) := by
  obtain ⟨u, hnext, hun, hboot, hfail⟩ := powerOn_unbooted s
  exact ⟨u, hnext, (congrArg State.dtime hun : u.unbooted.dtime = _), (congrArg State.teams hun : u.unbooted.teams = _),
    (congrArg State.cmds hun : u.unbooted.cmds = _), (congrArg State.pwc hun : u.unbooted.pwc = _), (congrArg State.parts hun : u.unbooted.parts = _),
    (congrArg State.flash hun : u.unbooted.flash = _), fun l hl => (State.byteAt_congr (congrArg State.mem hun : u.unbooted.mem = _) l).trans (s.outside_low hl),
    fun hs => verdicts (hboot hs), hfail⟩

/-- Settles O60: firmware, registers, reports and reset, each from what its row does. -/
theorem management : Obligations.Management :=
  ⟨dmcEvents, answers, threadStart, registers, reports, resets⟩

end Sys2Proof.Machine
end

section
/-! O36, O46 and O52 fail on states that no run reaches, but that their statements do not exclude. -/

namespace Sys2Proof.Machine

/-! ### O36 -/

/-- `CCTL` with FN = 3: the copies of the context are discarded. -/
def dropAll : Fields := { (default : Fields) with fn := 3, pg := 7 }

/-- A load that has been issued and not performed, of a line that an L1 may hold. -/
def lateLoad : MemOp := { (default : MemOp) with place := { (default : Place) with owned := .slice }, kind := .load 4 0 0 }

/-- A group at a `CCTL` whose lanes are all DONE, with a load under way. -/
def dropAgent : Agent :=
  { (default : Agent) with
    kind := .group, issue := .beats, lanes := [{ (default : LaneRec) with s := .done }], arr := { (default : Arrival) with a := 1 }, ops := [(0, lateLoad)] }

def dropTeam : Team := { (default : Team) with res := .on 0, part := 12, agents := [(0, dropAgent)] }

def dropState : State := { State.reset with cur := some ⟨0, 0⟩, teams := [(0, dropTeam)] }

def dropBeat : Beat := beatOf (.cctl dropAll) dropAll ((rowFor (.cctl dropAll)).getD default) ⟨0, 0⟩ dropTeam dropAgent

theorem dropBeat_due : Due (.cctl dropAll) dropAll dropState dropBeat where
  now := ⟨_, rfl, rfl, rfl⟩
  legal := by decide
  tokens := by decide
  full := by decide
  held := fun _ _ => by decide
  released := fun sc h => by revert sc; decide
  clean := rfl

/-- The group ends after the beat, and its load, which performs then, brings a copy of its line into the L1. -/
theorem dropState_copies : ∃ c ∈ (stepsTo (exec (.cctl dropAll) dropState)).l1, c.cluster = 0 ∧ c.part = 12 ∧ c.asid = 0 := by decide

/-- Refutes O36: a beat that ends its group brings a copy back that its `CCTL` has discarded. -/
theorem not_cacheForms : ¬ Obligations.CacheForms := by
  unfold Obligations.CacheForms
  rintro ⟨-, -, -, hdrop, -⟩
  obtain ⟨t, y, ht, -, -, -, hnone⟩ := hdrop dropAll dropState dropBeat rfl dropBeat_due (by decide)
  obtain ⟨c, hc, hcopy⟩ := dropState_copies
  rw [ht] at hc
  exact hnone c hc hcopy

/-! ### O46 -/

/-- A gather of two refused elements, each longer than the address space: the second has come, all of ones, and the first's zeros are to land. -/
def wrapCmd : GeCmd :=
  { (default : GeCmd) with
    kind := 0, dst := 0x4000000000000000, count := 2, esz := 2 ^ 64 + 1, idx := some [0, 0], held := [(2, List.replicate (2 ^ 64 + 1) 1)], done := [(2, true)] }

def wrapRun : Cmd := { (default : Cmd) with owner := .agent 0 0, started := true, kind := .ge wrapCmd }

def wrapState : State :=
  { State.reset with
    teams := [(0, { (default : Team) with res := .on 0, part := 12 })]
    cmds := [(0, wrapRun)] }

def wrapPlace : Place := { loc := spLoc 0 0, owned := .scratch 0, pte := 0, va := 0 }

/-- The gather once the first element's zeros have landed. -/
def wrapLanded : GeCmd := { wrapCmd with held := Tbl.ins wrapCmd.held 0 (List.replicate (2 ^ 64 + 1) 0), done := Tbl.put false wrapCmd.done 0 true }

/-- One element of the gather. -/
def wrapPart (n : Nat) : GePart := { key := 2 * n, off := n * (2 ^ 64 + 1), addr := none, len := 2 ^ 64 + 1 }

theorem wrapCmd_parts : wrapCmd.parts = [wrapPart 0, wrapPart 1] := by rfl

theorem wrapLanded_held : ∀ e ∈ wrapCmd.parts, wrapLanded.isDone e.key = true → ∃ hb, Tbl.find? wrapLanded.held e.key = some hb ∧ hb.length = e.len := by
  rw [wrapCmd_parts]
  intro e he _
  simp only [List.mem_cons, List.not_mem_nil, or_false] at he
  rcases he with rfl | rfl
  · exact ⟨List.replicate (2 ^ 64 + 1) 0, rfl, List.length_replicate⟩
  · exact ⟨List.replicate (2 ^ 64 + 1) 1, rfl, List.length_replicate⟩

theorem mem_spanLines {addr n l : Nat} (hn : n ≠ 0) : l ∈ spanLines addr n ↔ addr / 128 ≤ l ∧ l ≤ (addr + n - 1) / 128 := by
  unfold spanLines
  rw [if_neg hn]
  simp only [List.mem_map, List.mem_range]
  constructor
  · rintro ⟨k, hk, rfl⟩
    omega
  · rintro ⟨hlo, hhi⟩
    exact ⟨l - addr / 128, by omega, by omega⟩

/-- Refutes O46: line 2^57 of the second element has the address of line 0 of the first, and its byte 1 would be both 0 and 1. -/
theorem not_engineWrites : ¬ Obligations.EngineWrites := by
  unfold Obligations.EngineWrites
  rintro ⟨-, hge, -⟩
  obtain ⟨hgather, -⟩ := hge wrapState wrapState 0 0 wrapRun wrapCmd (wrapPart 0) default (List.replicate (2 ^ 64 + 1) 0) 0 rfl rfl rfl rfl
    (fun e (he : e ∈ []) => absurd he List.not_mem_nil) rfl rfl (by decide) rfl rfl rfl rfl rfl rfl
  obtain ⟨u, c1, -, -, -, hbytes, -⟩ := hgather rfl wrapLanded_held
  have hfirst := hbytes 0 ((mem_spanLines (by decide)).mpr (by decide)) wrapPlace rfl rfl (wrapPart 0) (by rw [wrapCmd_parts]; exact List.mem_cons_self)
    (List.replicate (2 ^ 64 + 1) 0) rfl 1 1 ⟨by decide, by decide, by decide⟩ rfl
  have hsecond := hbytes (2 ^ 57) ((mem_spanLines (by decide)).mpr (by decide)) wrapPlace rfl rfl (wrapPart 1)
    (by rw [wrapCmd_parts]; exact List.mem_cons_of_mem _ List.mem_cons_self) (List.replicate (2 ^ 64 + 1) 1) rfl 0 1 ⟨by decide, by decide, by decide⟩ rfl
  have hget : ∀ (b : Byte) (j : Nat), j < 2 ^ 64 + 1 → (List.replicate (2 ^ 64 + 1) b).getD j 0 = b := fun b j hj => by
    rw [List.getD_eq_getElem _ _ (by rwa [List.length_replicate]), List.getElem_replicate]
  rw [hget 0 1 (by decide)] at hfirst
  rw [hget 1 0 (by decide)] at hsecond
  exact absurd (hfirst.symm.trans hsecond) (by decide)

/-! ### O52 -/

/-- A team that its cluster has loaded, with one group. -/
def loadedTeam : Team := { (default : Team) with res := .loading 0, agents := [(0, { (default : Agent) with rank := 1 })] }

/-- A grid whose one team stands in the table as often as the distributor's next free number makes it start. -/
def loadedState : State :=
  { State.reset with
    teams := List.replicate (Config.freeNat 0 + 1) (0, loadedTeam)
    grids := [(0, default)]
    fresh := 0 }

theorem loadedState_loadingOf : loadedState.loadingOf 0 = List.replicate (Config.freeNat 0 + 1) 0 := by
  unfold State.loadingOf loadedState
  generalize Config.freeNat 0 + 1 = n
  induction n with
  | zero => rfl
  | succ n ih =>
    rw [List.replicate_succ, List.replicate_succ]
    exact congrArg (List.cons 0) ih

theorem loadedState_length : (loadedState.loadingOf 0).length = Config.freeNat 0 + 1 := by rw [loadedState_loadingOf, List.length_replicate]

/-- The free number, which is what it is, names a place of the list. -/
theorem loadedState_draw : Config.freeNat loadedState.fresh % ((loadedState.loadingOf 0).length + 1) = Config.freeNat 0 := by
  rw [loadedState_length]
  exact Nat.mod_eq_of_lt (Nat.lt_succ_of_lt (Nat.lt_succ_self _))

theorem loadedState_drawn : (loadedState.loadingOf 0).getD (Config.freeNat 0) 0 = 0 := by
  rw [List.getD_eq_getElem _ _ (by rw [loadedState_length]; omega)]
  simp [loadedState_loadingOf]

theorem loadedState_ne : loadedState.loadingOf 0 ≠ [] := by
  rw [loadedState_loadingOf]
  exact List.cons_ne_nil _ _

theorem loadedState_starts : exec (.teamStart 0) loadedState = .next (({ loadedState with fresh := 1 } : State).startTeam 0) := by
  have hlt : Config.freeNat 0 < (loadedState.loadingOf 0).length := by
    rw [loadedState_length]
    omega
  change execTeamStart 0 loadedState = _
  unfold execTeamStart
  rw [show Tbl.find? loadedState.grids 0 = some default from rfl]
  dsimp only
  rw [if_neg (by decide)]
  split
  next h => exact absurd h loadedState_ne
  next =>
    rw [loadedState_draw, if_pos hlt, loadedState_drawn]
    rfl

/-- Refutes O52: the groups of a team that starts take the youngest ranks, so its agents are not as they were loaded. -/
theorem not_gridsRun : ¬ Obligations.GridsRun := by
  unfold Obligations.GridsRun
  rintro ⟨hstart, -⟩
  obtain ⟨hload, -⟩ := hstart loadedState 0 default rfl rfl (by decide)
  have hteam : loadedState.team 0 = some loadedTeam := rfl
  obtain ⟨u, v, hu, hv, -, -, -, -, hagents, -⟩ := hload 0 loadedTeam 0 loadedState_ne
    (by rw [loadedState_draw, loadedState_length]; omega) (by rw [loadedState_draw]; exact loadedState_drawn) hteam rfl
  have hstarted := State.startTeam_team (s := { loadedState with fresh := 1 }) hteam rfl
  obtain rfl := Host.Outcome.next.inj (loadedState_starts.symm.trans hu)
  rw [← Option.some.inj (hstarted.symm.trans hv)] at hagents
  exact absurd hagents (by decide)

end Sys2Proof.Machine
end

section
/-! O54: host packets (R268, R271 to R277). -/

namespace Sys2Proof.Machine

/-! ### Where a place stays what it is -/

/-- A partition without its host queues. -/
def Part.mapping (p : Part) : Part := { p with queues := [] }

/-- What translation reads has stayed, and no uncorrectable error is new. -/
structure State.Maps (s t : State) : Prop where
  mem : t.mem = s.mem
  tlb : t.tlb = s.tlb
  fwTable : t.fwTable = s.fwTable
  devNum : t.devNum = s.devNum
  teams : t.teams = s.teams
  parts : ∀ n, (t.partition n).mapping = (s.partition n).mapping
  flaws : ∀ l ∈ t.flaws, l ∈ s.flaws

theorem State.Maps.refl (s : State) : s.Maps s := ⟨rfl, rfl, rfl, rfl, rfl, fun _ => rfl, fun _ => id⟩
theorem State.Maps.trans {s t u : State} (h : s.Maps t) (k : t.Maps u) : s.Maps u :=
  ⟨k.mem.trans h.mem, k.tlb.trans h.tlb, k.fwTable.trans h.fwTable, k.devNum.trans h.devNum, k.teams.trans h.teams,
    fun n => (k.parts n).trans (h.parts n), fun l hl => h.flaws l (k.flaws l hl)⟩

theorem State.maps_recall (s : State) (l : Nat) (but : Option Nat) : s.Maps (s.recall l but) := by
  unfold State.recall
  extract_lets r
  split
  · exact .refl s
  · split
    · exact .refl s
    · exact ⟨rfl, rfl, rfl, rfl, rfl, fun _ => rfl, fun l hl => (List.mem_filter.mp hl).1⟩

theorem State.maps_setLine (s : State) (l : Nat) (r : LineRec) : s.Maps (s.setLine l r) := ⟨rfl, rfl, rfl, rfl, rfl, fun _ => rfl, fun _ => id⟩

theorem State.maps_evictLine (s : State) (l : Nat) : s.Maps (s.evictLine l) :=
  (s.maps_recall l none).trans ⟨rfl, rfl, rfl, rfl, rfl, fun _ => rfl, fun _ => id⟩

theorem State.maps_makeRoom (s : State) (slice l : Nat) (data : Bool) : s.Maps (s.makeRoom slice l data) := by
  unfold State.makeRoom
  split
  · exact .refl s
  · extract_lets here noWay vs
    split
    · split
      · exact s.maps_evictLine _
      · exact .refl s
    · exact .refl s

theorem State.maps_touchLine (s : State) (p : Place) (pol : Nat) : s.Maps (s.touchLine p pol) := by
  unfold State.touchLine
  extract_lets s0 l isNew bare r0 s1 r
  have h0 : s.Maps s0 := ⟨rfl, rfl, rfl, rfl, rfl, fun _ => rfl, fun _ => id⟩
  have h1 : s0.Maps s1 := by
    unfold s1
    split
    · exact s0.maps_makeRoom ..
    · exact .refl s0
  exact (h0.trans h1).trans (s1.maps_setLine ..)

theorem State.maps_modQueue (s : State) (part q : Nat) (f : HostQ → HostQ) : s.Maps (s.modQueue part q f) where
  mem := rfl
  tlb := rfl
  fwTable := rfl
  devNum := rfl
  teams := rfl
  parts n := by
    unfold State.modQueue
    rw [State.partition_modPart]
    split
    next h => subst h; rfl
    next => rfl
  flaws _ := id

/-- The place that a host queue's page gives. -/
def State.leafPlaced (s : State) (part : Nat) (addr : W64) (write : Bool) : Xlat → EPlace
  | .fault k => .fault k.toNat
  | .replay => .replay (bits addr 51 0 / 65536)
  | .leaf pte big =>
    let p := s.leafPlace part pte big (bits addr 51 0)
    if !s.reaches part p then .fault 0x08
    else if tagOf addr = 0xC ∧ (pteKind pte = 0 ∨ pteKind pte = 3) then .fault 0x08
    else if write && !bit pte 1 then (if writeReplays pte then .replay (pageOf big (bits addr 51 0)) else .fault 0x08)
    else .ok p

theorem State.engPlace_host (s : State) (part asid q idx : Nat) (addr : W64) (write : Bool) :
    s.engPlace (hostCmd part asid q idx) addr write =
      if !tagOk addr || decide (tagOf addr = 6) then .fault 0x08
      else if tagOf addr = 4 ∨ tagOf addr = 5 then .fault 0x08
      else if tagOf addr = 8 then
        (if s.reaches part (s.onPeer part { loc := locOf 3 (bits addr 59 0), owned := .peer, pte := 0, va := 0 }) then
          .ok (s.onPeer part { loc := locOf 3 (bits addr 59 0), owned := .peer, pte := 0, va := 0 }) else .fault 0x08)
      else s.leafPlaced part addr write (s.walk (s.engUnit part (.host part q idx)) part asid (bits addr 51 0)) := by
  unfold State.engPlace State.leafPlaced hostCmd
  rfl

namespace State.Maps
variable {s t : State} (h : s.Maps t)
include h

theorem readNat (loc n : Nat) : t.readNat loc n = s.readNat loc n := by rw [State.readNat, State.readNat, State.read_congr h.mem]

theorem findCtxFrom (base asid n i : Nat) : Machine.findCtxFrom t base asid n i = Machine.findCtxFrom s base asid n i := by
  induction n generalizing i with
  | zero => rfl
  | succ n ih => simp only [Machine.findCtxFrom, h.readNat, ih]

theorem ctxBase (n : Nat) : (t.partition n).ctxBase = (s.partition n).ctxBase := (congrArg Part.ctxBase (h.parts n) : (t.partition n).mapping.ctxBase = _)
theorem peers (n : Nat) : (t.partition n).peers = (s.partition n).peers := (congrArg Part.peers (h.parts n) : (t.partition n).mapping.peers = _)
theorem dies (n : Nat) : (t.partition n).dies = (s.partition n).dies := (congrArg Part.dies (h.parts n) : (t.partition n).mapping.dies = _)

theorem ctx (part asid : Nat) : t.ctx part asid = s.ctx part asid := by
  rw [State.ctx, State.ctx, h.findCtxFrom, h.ctxBase, h.fwTable]

theorem entryAt (unit part asid level table va : Nat) : Machine.entryAt t unit part asid level table va = Machine.entryAt s unit part asid level table va := by
  simp only [Machine.entryAt, h.tlb, h.readNat]

theorem entryFlawed {unit part asid level table va : Nat} (hs : Machine.entryFlawed s unit part asid level table va = false) :
    Machine.entryFlawed t unit part asid level table va = false := by
  rw [Bool.eq_false_iff] at hs ⊢
  intro ht
  refine hs ?_
  unfold Machine.entryFlawed at ht ⊢
  rw [h.tlb] at ht
  rw [Bool.and_eq_true, Bool.and_eq_true] at ht ⊢
  obtain ⟨⟨-, hc⟩, htlb⟩ := ht
  have hin := h.flaws _ (List.contains_iff_mem.mp hc)
  refine ⟨⟨?_, List.contains_iff_mem.mpr hin⟩, htlb⟩
  rw [Bool.not_eq_true', List.isEmpty_eq_false_iff]
  exact List.ne_nil_of_mem hin

/-- A walk that meets no uncorrectable error stays what it was. -/
theorem walk {unit part asid va : Nat} (hok : s.walk unit part asid va ≠ .fault 0x18) : t.walk unit part asid va = s.walk unit part asid va := by
  unfold State.walk at hok ⊢
  rw [h.ctx]
  cases hc : s.ctx part asid with
  | none => rfl
  | some c =>
    simp only [hc] at hok ⊢
    simp only [h.entryAt]
    generalize Machine.entryAt s unit part asid 1 c.root va = e1 at hok ⊢
    generalize Machine.entryAt s unit part asid 2 (pteFrame e1 * 65536) va = e2 at hok ⊢
    have hflaw : ∀ level table {r : Xlat}, (if Machine.entryFlawed s unit part asid level table va then .fault 0x18 else r) ≠ .fault 0x18 →
        Machine.entryFlawed s unit part asid level table va = false := fun level table r hr => by
      rw [Bool.eq_false_iff]
      exact fun hf => hr (if_pos hf)
    have h1 := hflaw _ _ hok
    rw [h1] at hok
    rw [h1, h.entryFlawed h1]
    simp only [Bool.false_eq_true, if_false] at hok ⊢
    by_cases hb : (!bit e1 0) = true
    · simp only [hb, if_true]
    by_cases hb3 : bit e1 3 = true
    · simp only [hb3, if_true]
    simp only [if_neg hb, if_neg hb3] at hok ⊢
    have h2 := hflaw _ _ hok
    rw [h2] at hok
    rw [h2, h.entryFlawed h2]
    simp only [Bool.false_eq_true, if_false] at hok ⊢
    by_cases hc0 : (!bit e2 0) = true
    · simp only [hc0, if_true]
    by_cases hc3 : bit e2 3 = true
    · simp only [hc3, if_true]
    simp only [if_neg hc0, if_neg hc3] at hok ⊢
    have h3 := hflaw _ _ hok
    rw [h3, h.entryFlawed h3]

theorem diesOf (part : Nat) : t.diesOf part = s.diesOf part := by rw [State.diesOf, State.diesOf, h.dies]

theorem sliceOf (part : Nat) (p : Place) : t.sliceOf part p = s.sliceOf part p := by simp only [State.sliceOf, h.diesOf]

theorem onPeer (part : Nat) (p : Place) : t.onPeer part p = s.onPeer part p := by simp only [State.onPeer, h.peers]

theorem leafPlace (part : Nat) (e : W64) (big : Bool) (va : Nat) : t.leafPlace part e big va = s.leafPlace part e big va := by
  simp only [State.leafPlace, h.onPeer, h.sliceOf]

theorem reaches (part : Nat) (p : Place) : t.reaches part p = s.reaches part p := by
  simp only [State.reaches, State.peerOk, h.peers, h.devNum]

theorem team (n : Nat) : t.team n = s.team n := by rw [State.team, State.team, h.teams]

theorem engUnit (part : Nat) (o : Owner) : t.engUnit part o = s.engUnit part o := by
  unfold State.engUnit
  simp only [h.team, h.diesOf]

/-- The place of a byte of a host queue stays what it was. -/
theorem engPlace {part asid q idx : Nat} {addr : W64} {write : Bool} {p : Place} (hp : s.engPlace (hostCmd part asid q idx) addr write = .ok p) :
    t.engPlace (hostCmd part asid q idx) addr write = .ok p := by
  rw [State.engPlace_host] at hp ⊢
  by_cases h1 : (!tagOk addr || decide (tagOf addr = 6)) = true
  · rw [if_pos h1] at hp
    cases hp
  rw [if_neg h1] at hp ⊢
  by_cases h2 : tagOf addr = 4 ∨ tagOf addr = 5
  · rw [if_pos h2] at hp
    cases hp
  rw [if_neg h2] at hp ⊢
  by_cases h3 : tagOf addr = 8
  · rw [if_pos h3] at hp ⊢
    rw [h.onPeer, h.reaches]
    exact hp
  · rw [if_neg h3] at hp ⊢
    have hw : s.walk (s.engUnit part (.host part q idx)) part asid (bits addr 51 0) ≠ .fault 0x18 := fun hw => by
      rw [hw] at hp
      cases hp
    rw [h.engUnit, h.walk hw]
    unfold State.leafPlaced at hp ⊢
    simp only [h.reaches, h.leafPlace]
    exact hp

theorem spillByte (hm : t.mons = s.mons) (a : Nat) : t.spillByte a = s.spillByte a := by
  have hsp : ∀ n, (t.partition n).spBase = (s.partition n).spBase := fun n => (congrArg Part.spBase (h.parts n) : (t.partition n).mapping.spBase = _)
  unfold State.spillByte
  rw [hm]
  simp only [hsp]

end State.Maps

/-! ### Writes of a host queue -/

/-- What a host queue's steps leave: translation, memory's monitors and what `still` keeps but the partitions. -/
structure State.Serves (s t : State) : Prop where
  maps : s.Maps t
  mons : t.mons = s.mons
  grids : t.grids = s.grids
  orderSeq : t.orderSeq = s.orderSeq
  cmdSeq : t.cmdSeq = s.cmdSeq
  dtime : t.dtime = s.dtime

theorem State.Serves.refl (s : State) : s.Serves s := ⟨.refl s, rfl, rfl, rfl, rfl, rfl⟩
theorem State.Serves.trans {s t u : State} (h : s.Serves t) (k : t.Serves u) : s.Serves u :=
  ⟨h.maps.trans k.maps, k.mons.trans h.mons, k.grids.trans h.grids, k.orderSeq.trans h.orderSeq, k.cmdSeq.trans h.cmdSeq, k.dtime.trans h.dtime⟩

theorem State.Serves.of_still {s t : State} (hm : s.Maps t) (hn : t.mons = s.mons) (h : t.still = s.still) : s.Serves t :=
  ⟨hm, hn, (congrArg State.grids h : t.still.grids = _), (congrArg State.orderSeq h : t.still.orderSeq = _),
    (congrArg State.cmdSeq h : t.still.cmdSeq = _), (congrArg State.dtime h : t.still.dtime = _)⟩

theorem State.serves_recall (s : State) (l : Nat) (but : Option Nat) : s.Serves (s.recall l but) :=
  .of_still (s.maps_recall l but) (State.recall_mons ..) (State.recall_still ..)
theorem State.serves_touchLine (s : State) (p : Place) (pol : Nat) : s.Serves (s.touchLine p pol) :=
  .of_still (s.maps_touchLine p pol) (State.touchLine_mons ..) (State.touchLine_still ..)
theorem State.serves_modQueue (s : State) (part q : Nat) (f : HostQ → HostQ) : s.Serves (s.modQueue part q f) :=
  ⟨s.maps_modQueue part q f, rfl, rfl, rfl, rfl, rfl⟩

/-- A write of a host queue puts its bytes, and raises no more than its queue's completion time. -/
theorem State.hostWrite_lands {s t : State} (h : s.Serves t) (part asid q idx : Nat) (p : Place) (bs : List Byte) :
    lands s (t.hostWrite (hostCmd part asid q idx) p bs) p.loc (bs.map some) :=
  lands_congr (t.lands_writeAt p bs none) h.maps.mem (fun a ha => (h.maps.spillByte h.mons a).trans ha) rfl

theorem State.hostWrite_mapping (s : State) (part asid q idx : Nat) (p : Place) (bs : List Byte) (n : Nat) :
    ((s.hostWrite (hostCmd part asid q idx) p bs).partition n).mapping = (s.partition n).mapping :=
  ((State.maps_modQueue (s.writeAt p bs none).1 part q _).parts n).trans
    (congrArg Part.mapping (State.partition_congr (s.writeAt_parts p bs none) n))

theorem State.hostq_hostWrite (s : State) (part asid q idx : Nat) (p : Place) (bs : List Byte) :
    ∃ g, (s.hostWrite (hostCmd part asid q idx) p bs).hostq part q = { s.hostq part q with gwct := max (s.hostq part q).gwct g } := by
  have hq : (s.writeAt p bs none).1.hostq part q = s.hostq part q := by
    unfold State.hostq
    rw [State.partition_congr (s.writeAt_parts p bs none)]
  refine ⟨(s.writeAt p bs none).2.getD 0, ?_⟩
  rw [← hq]
  exact State.hostq_modQueue ..

/-- Bytes that one line holds are put by one write. -/
theorem State.hostPut_line {s : State} {part asid q idx : Nat} {addr : W64} {p : Place} (hp : s.engPlace (hostCmd part asid q idx) addr true = .ok p)
    {bs : List Byte} (hb : bs ≠ []) (hl : addr.toNat % 128 + bs.length ≤ 128) :
    s.hostPut part asid q idx addr bs = some (s.hostWrite (hostCmd part asid q idx) p bs) := by
  have hm : min bs.length (128 - addr.toNat % 128) = bs.length := by omega
  have hnil : ∀ (u : State) (c : Cmd) (a : W64) (n : Nat), u.hostPutFrom c a [] n = some u := fun u c a n => by
    cases n with
    | zero => rfl
    | succ n => unfold State.hostPutFrom; exact if_pos rfl
  unfold State.hostPut State.hostPutFrom
  rw [if_neg hb]
  dsimp only
  rw [hm, hp]
  dsimp only
  rw [List.take_length, List.drop_length, hnil]

/-! ### The packet at the head of a queue -/

theorem exec_launchPacket (part q : Nat) (s : State) : exec (.launchPacket part q) s = execLaunchPacket part q s := rfl
theorem exec_copyPacket (part q : Nat) (s : State) : exec (.copyPacket part q) s = execCopyPacket part q s := rfl
theorem exec_signalPacket (part q : Nat) (s : State) : exec (.signalPacket part q) s = execSignalPacket part q s := rfl
theorem exec_waitmonPacket (part q : Nat) (s : State) : exec (.waitmonPacket part q) s = execWaitmonPacket part q s := rfl
theorem exec_fencePacket (part q : Nat) (s : State) : exec (.fencePacket part q) s = execFencePacket part q s := rfl
theorem exec_markerPacket (part q : Nat) (s : State) : exec (.markerPacket part q) s = execMarkerPacket part q s := rfl

/-- The state in which a packet has been read and begun. -/
structure PacketBegun (s s1 : State) (part q : Nat) : Prop where
  serves : s.Serves s1
  hostq : s1.hostq part q = { s.hostq part q with rd := BitVec.ofNat 64 ((s.hostq part q).rd.toNat + 1), running := (s.hostq part q).rd.toNat :: (s.hostq part q).running }

theorem HostQ.not_err_of_may {h : HostQ} (hm : h.may = true) : bit h.stat 0 = false := by
  unfold HostQ.may HostQ.err at hm
  simp only [Bool.and_eq_true, Bool.not_eq_true'] at hm
  exact hm.1.1.2

/-- What a due packet does: another type than 1 to 6 stops its queue, and one of its type begins. -/
theorem packetDue.withPacket {s : State} {part q : Nat} {bs : List Byte} (hd : packetDue s part q bs) :
    let idx := (s.hostq part q).rd.toNat
    let ty := bits (packetWord bs 0) 7 0
    ∃ s1, PacketBegun s s1 part q ∧
      (∀ type k, ty = 0 ∨ 6 < ty → stoppedWith s (s.withPacket part q type k) part q idx 0x01) ∧
      ∀ type k, ty = type → 0 < type → type ≤ 6 →
        (∀ u, k (s.hostq part q) idx bs s1 = .ok u → s.withPacket part q type k = u) ∧
        ∀ code, k (s.hostq part q) idx bs s1 = .error code → stoppedWith s (s.withPacket part q type k) part q idx code.toNat := by
  intro idx ty
  obtain ⟨hmay, hturn, p, hp, hbs⟩ := hd
  let s0 := if p.owned = .slice then (s.recall (p.loc / 128) none).touchLine p 0 else s
  have h0 : s.Serves s0 := by
    unfold s0
    split
    · exact (s.serves_recall _ _).trans (State.serves_touchLine _ _ _)
    · exact .refl s
  have hparts : s0.parts = s.parts := by
    unfold s0
    split
    · exact State.parts_of_still ((State.touchLine_still ..).trans (State.recall_still ..))
    · rfl
  have hq0 : s0.hostq part q = s.hostq part q := by
    unfold State.hostq
    rw [State.partition_congr hparts]
  let s1 := s0.beginPacket part q idx
  have hq1 : s1.hostq part q = { s.hostq part q with rd := BitVec.ofNat 64 (idx + 1), running := idx :: (s.hostq part q).running } :=
    hq0 ▸ State.hostq_modQueue ..
  have hread : s0.read p.loc 64 = bs := (State.read_congr h0.maps.mem p.loc 64).trans hbs.symm
  have heq : ∀ type k, s.withPacket part q type k =
      if ty = 0 ∨ ty > 6 then s0.queueStop part q 0x01 (some idx) 0
      else if ty ≠ type ∨ (s.hostq part q).inTurn (bit (packetWord bs 0) 8) = false then s
      else match k (s.hostq part q) idx bs s1 with
        | .ok u => u
        | .error code => s1.queueStop part q code (some idx) 0 := fun type k => by
    unfold State.withPacket
    extract_lets h idx' c addr
    rw [if_neg (by rw [show h.may = true from hmay]; nofun), show s.engPlace c addr false = .ok p from hp]
    dsimp -zeta only
    extract_lets -merge s0' bs' ty'
    have hb : bs' = bs := hread
    clear_value bs'
    subst hb
    rfl
  refine ⟨s1, ⟨h0.trans (State.serves_modQueue _ _ _ _), hq1⟩, fun type k hty => ?_, fun type k hty hpos hle => ⟨fun u hu => ?_, fun code hc => ?_⟩⟩
  · rw [heq, if_pos hty]
    exact State.queueStop_stoppedWith 0x01 (some idx) 0 (by rw [hq0])
  · rw [heq, if_neg (by omega), if_neg (by simp [hty, hturn]), hu]
  · rw [heq, if_neg (by omega), if_neg (by simp [hty, hturn]), hc]
    exact State.queueStop_stoppedWith code (some idx) 0 (by rw [hq1])

namespace PacketBegun
variable {s s1 : State} {part q : Nat} (h : PacketBegun s s1 part q)
include h

/-- A state with the partitions of the begun packet's has passed QRD. -/
theorem rd {u : State} (hu : u.parts = s1.parts) : (u.hostq part q).rd = BitVec.ofNat 64 ((s.hostq part q).rd.toNat + 1) := by
  unfold State.hostq
  rw [State.partition_congr hu]
  exact congrArg HostQ.rd h.hostq

theorem running {u : State} (hu : u.parts = s1.parts) : (s.hostq part q).rd.toNat ∈ (u.hostq part q).running := by
  unfold State.hostq
  rw [State.partition_congr hu]
  exact (congrArg HostQ.running h.hostq).symm ▸ List.mem_cons_self

end PacketBegun

theorem State.everFits_congr {s t : State} (h : s.Maps t) (part : Nat) (l : Launch) : t.everFits part l = s.everFits part l := by
  unfold State.everFits
  rw [h.diesOf]

/-- A grid joins the order. -/
def State.withGrid (s : State) (g : Grid) : State := { s.addGrid g with orderSeq := s.orderSeq + 1 }

/-- The grid of a host queue's LAUNCH packet. -/
def hostGrid (s : State) (part q : Nat) (bs : List Byte) (order : Nat) : Grid :=
  newGrid part (s.hostq part q).asid (bits (s.hostq part q).ctl 17 16) order (parseLaunch bs) (some (q, (s.hostq part q).rd.toNat))

theorem signalPacket_waits {s : State} {part q : Nat} (h : (s.hostq part q).gwct ≠ 0) (hlt : s.dtime < (s.hostq part q).gwct + 4) : exec (.signalPacket part q) s = .next s := by
  rw [exec_signalPacket]
  unfold execSignalPacket HostQ.released
  rw [if_pos (by simp [h]; omega)]

theorem hostPlace_ok {s : State} {part asid q idx : Nat} {addr : W64} {write : Bool} {p : Place} (h : s.engPlace (hostCmd part asid q idx) addr write = .ok p) :
    hostPlace s part asid q idx addr write = some p := by
  unfold hostPlace
  rw [h]

theorem State.hostq_packetDone (s : State) (part q idx : Nat) :
    (s.packetDone part q idx).hostq part q = { s.hostq part q with running := (s.hostq part q).running.filter fun i => i != idx } := State.hostq_modQueue ..

theorem notMem_filter_ne (l : List Nat) (i : Nat) : i ∉ l.filter fun k => k != i := fun h => by
  have := (List.mem_filter.mp h).2
  simp at this

/-- A packet of the queue that writes and completes has passed QRD, and runs no longer. -/
theorem PacketBegun.wrote {s s1 : State} {part q : Nat} (h : PacketBegun s s1 part q) {t : State} (ht : t.parts = s1.parts) (asid : Nat) (p : Place) (ws : List Byte) :
    let idx := (s.hostq part q).rd.toNat
    let u := (t.hostWrite (hostCmd part asid q idx) p ws).packetDone part q idx
    (u.hostq part q).rd = BitVec.ofNat 64 (idx + 1) ∧ idx ∉ (u.hostq part q).running := by
  intro idx u
  obtain ⟨g, hg⟩ := t.hostq_hostWrite part asid q idx p ws
  have hq : u.hostq part q = _ := State.hostq_packetDone ..
  rw [hq, hg]
  exact ⟨h.rd ht, notMem_filter_ne _ _⟩

/-- With no debug block open a record is dropped. -/
theorem State.trace_closed {s : State} {part : Nat} (h : ∀ e ∈ (s.partition part).debug, e.2.isOpen = false) (asid : Nat) (r : Nguxis) : s.trace part asid r = s := by
  unfold State.trace
  split
  · rfl
  next c _ =>
    have hcl : (s.debugOf part c.idx).isOpen = false := by
      unfold State.debugOf
      cases hf : Tbl.find? (s.partition part).debug c.idx with
      | none => rfl
      | some d => exact h _ (Tbl.mem_of_find? hf)
    rw [hcl]
    rfl

section
variable {s : State} {part q : Nat} {bs : List Byte} (hd : packetDue s part q bs)
include hd

theorem launchPacket_sound (hty : bits (packetWord bs 0) 7 0 = 1) (hl : launchOk bs false = true) :
    (s.everFits part (parseLaunch bs) = true → ∃ u k g, exec (.launchPacket part q) s = .next u ∧
      (u.hostq part q).rd = BitVec.ofNat 64 ((s.hostq part q).rd.toNat + 1) ∧ (s.hostq part q).rd.toNat ∈ (u.hostq part q).running ∧
      Tbl.find? s.grids k = none ∧ Tbl.find? u.grids k = some g ∧ g.launch = parseLaunch bs ∧ g.host = some (q, (s.hostq part q).rd.toNat) ∧
      g.order = s.orderSeq ∧ g.part = part ∧ g.asid = (s.hostq part q).asid ∧ u.orderSeq = s.orderSeq + 1) ∧
    (s.everFits part (parseLaunch bs) = false → ∃ u, exec (.launchPacket part q) s = .next u ∧ stoppedWith s u part q (s.hostq part q).rd.toNat 0x06) := by
  obtain ⟨s1, hb, -, hdue⟩ := packetDue.withPacket hd
  obtain ⟨hok, herr⟩ := hdue 1 _ hty (by decide) (by decide)
  refine ⟨fun hf => ⟨s1.withGrid (hostGrid s part q bs s1.orderSeq), Tbl.freshKey s1.grids, hostGrid s part q bs s1.orderSeq, congrArg Host.Outcome.next (hok _ ?_), hb.rd rfl, hb.running rfl, ?_, Tbl.find?_ins_same .., rfl, rfl,
    hb.serves.orderSeq, rfl, rfl, congrArg (· + 1) hb.serves.orderSeq⟩, fun hf => ⟨_, rfl, herr 0x06 ?_⟩⟩
  · simp only [hl, State.everFits_congr hb.serves.maps, hf, Bool.not_true, Bool.false_eq_true, if_false]
    rfl
  · rw [← hb.serves.grids]
    exact Tbl.find?_freshKey _
  · simp only [hl, State.everFits_congr hb.serves.maps, hf, Bool.not_true, Bool.not_false, Bool.false_eq_true, if_false, if_true]

theorem launchPacket_unsound (hty : bits (packetWord bs 0) 7 0 = 1) (hl : launchOk bs false = false) :
    ∃ u, exec (.launchPacket part q) s = .next u ∧ stoppedWith s u part q (s.hostq part q).rd.toNat 0x01 := by
  obtain ⟨s1, hb, -, hdue⟩ := packetDue.withPacket hd
  refine ⟨_, rfl, (hdue 1 _ hty (by decide) (by decide)).2 0x01 ?_⟩
  simp only [hl, Bool.not_false, if_true]

theorem copyPacket_sound (hty : bits (packetWord bs 0) 7 0 = 2) : let k := packetSlice bs
    bits (packetWord bs 0) 63 9 = 0 → wordsZero bs 6 = true → k.formed = true → endpointOk k.src k.srcTop = true → endpointOk k.dst k.dstTop = true →
    farTag k.src → farTag k.dst → k.geom.sparse = false → k.src.toNat % 4 = 0 → k.dst.toNat % 4 = 0 → k.pitchesOk = true →
    ∃ u d, exec (.copyPacket part q) s = .next u ∧ (u.hostq part q).rd = BitVec.ofNat 64 ((s.hostq part q).rd.toNat + 1) ∧
      Tbl.find? u.cmds s.cmdSeq = some d ∧ d.owner = .host part q (s.hostq part q).rd.toNat ∧ d.started = true ∧ d.kind = copyCmd [k] 0 none ∧
      (s.hostq part q).rd.toNat ∈ (u.hostq part q).running := by
  intro k hres hzero hformed hsrc hdst htsrc htdst hsparse hasrc hadst hpitch
  obtain ⟨s1, hb, -, hdue⟩ := packetDue.withPacket hd
  obtain ⟨hok, -⟩ := hdue 2 _ hty (by decide) (by decide)
  let d : Cmd := { hostCmd part (s.hostq part q).asid q (s.hostq part q).rd.toNat with kind := copyCmd [k] 0 none }
  refine ⟨s1.addCmd d, { d with seq := s1.cmdSeq }, congrArg Host.Outcome.next (hok _ (if_pos ?_)), hb.rd rfl, ?_, rfl, rfl, rfl, hb.running rfl⟩
  · obtain ⟨hs4, hs5, hs6⟩ := htsrc
    obtain ⟨hd4, hd5, hd6⟩ := htdst
    simp only [Bool.and_eq_true, decide_eq_true_eq, Bool.not_eq_true']
    exact ⟨⟨⟨⟨⟨⟨⟨⟨⟨⟨hres, hzero⟩, hformed⟩, hsrc⟩, hdst⟩, ⟨hs4, hs5⟩, hs6⟩, ⟨hd4, hd5⟩, hd6⟩, hsparse⟩, hasrc⟩, hadst⟩, hpitch⟩
  · rw [← hb.serves.cmdSeq]
    exact Tbl.find?_ins_same ..

theorem signalPacket_sound (p : Place) (hty : bits (packetWord bs 0) 7 0 = 3) : let w := packetWord bs
    let n := if bit (w 0) 18 then 8 else 4
    bits (w 0) 63 19 = 0 → bits (w 0) 15 9 = 0 → bits (w 0) 17 16 ≤ 1 → wordsZero bs 3 = true → (w 1).toNat % n = 0 →
    (n = 4 → bits (w 2) 63 32 = 0) → s.engPlace (hostCmd part (s.hostq part q).asid q (s.hostq part q).rd.toNat) (w 1) true = .ok p →
    (s.hostq part q).gwct = 0 ∨ (s.hostq part q).gwct + 4 ≤ s.dtime →
    ∃ u, exec (.signalPacket part q) s = .next u ∧ (u.hostq part q).rd = BitVec.ofNat 64 ((s.hostq part q).rd.toNat + 1) ∧
      (s.hostq part q).rd.toNat ∉ (u.hostq part q).running ∧
      lands s u p.loc ((toBytes n (if bits (w 0) 17 16 = 0 then (w 2).toNat else s.readNat p.loc n + (w 2).toNat)).map some) := by
  intro w n h63 h15 hop hzero hal hhi hp hrel
  obtain ⟨s1, hb, -, hdue⟩ := packetDue.withPacket hd
  obtain ⟨hok, -⟩ := hdue 3 _ hty (by decide) (by decide)
  let s2 := if p.owned = .slice then s1.recall (p.loc / 128) none else s1
  have h2 : s.Serves s2 ∧ s2.parts = s1.parts := by
    unfold s2
    split
    · exact ⟨hb.serves.trans (s1.serves_recall _ _), State.parts_of_still (State.recall_still ..)⟩
    · exact ⟨hb.serves, rfl⟩
  let v := if bits (w 0) 17 16 = 0 then (w 2).toNat else s2.readNat p.loc n + (w 2).toNat
  have hv : v = if bits (w 0) 17 16 = 0 then (w 2).toNat else s.readNat p.loc n + (w 2).toNat := by
    unfold v
    rw [h2.1.maps.readNat]
  obtain ⟨hrd, hrun⟩ := hb.wrote h2.2 (s.hostq part q).asid p (toBytes n v)
  refine ⟨(s2.hostWrite (hostCmd part (s.hostq part q).asid q (s.hostq part q).rd.toNat) p (toBytes n v)).packetDone part q (s.hostq part q).rd.toNat,
    ?_, hrd, hrun, ?_⟩
  · rw [exec_signalPacket]
    unfold execSignalPacket HostQ.released
    rw [if_neg (by rcases hrel with h | h <;> simp [h])]
    refine congrArg Host.Outcome.next (hok _ ?_)
    extract_lets
    rw [if_neg (by
      rintro (h | h | h | h | h | ⟨h, h'⟩)
      · exact h h63
      · exact h h15
      · exact absurd hop (Nat.not_le.mpr h)
      · exact absurd hzero (by rw [h]; nofun)
      · exact h hal
      · exact h' (hhi h)), hostPlace_ok (hb.serves.maps.engPlace hp)]
  · rw [← hv]
    exact State.hostWrite_lands h2.1 part (s.hostq part q).asid q (s.hostq part q).rd.toNat p (toBytes n v)

theorem waitmonPacket_sound (p : Place) (hty : bits (packetWord bs 0) 7 0 = 4) : let w := packetWord bs
    let n := if bit (w 0) 20 then 8 else 4
    let idx := (s.hostq part q).rd.toNat
    let c := hostCmd part (s.hostq part q).asid q idx
    bits (w 0) 63 22 = 0 → bits (w 0) 15 9 = 0 → bits (w 0) 19 16 ≤ 11 → wordsZero bs 5 = true → (w 1).toNat % n = 0 →
      (n = 4 → bits (w 2) 63 32 = 0) → (w 4).toNat % 8 = 0 → (w 4 = 0 ∨ ∃ r, s.engPlace c (w 4) true = .ok r) → tagOf (w 1) ∉ [4, 5, 6, 8] →
      s.engPlace c (w 1) false = .ok p →
      (p.owned ≠ .slice → ∃ u, exec (.waitmonPacket part q) s = .next u ∧ stoppedWith s u part q idx 0x04) ∧
      (p.owned = .slice → ∃ u k b r, exec (.waitmonPacket part q) s = .next u ∧ (u.hostq part q).rd = BitVec.ofNat 64 (idx + 1) ∧
        (u.hostq part q).waitmon = some (idx, bit (w 0) 21, w 4) ∧
        Tbl.find? u.batches k = some b ∧ b.host = some (part, q, idx) ∧ b.reqs = [r] ∧ r.mon.loc = p.loc ∧ r.mon.operand = w 2 ∧
        r.mon.fn = BitVec.ofNat 4 (bits (w 0) 19 16) ∧ r.mon.hostq = true ∧ r.mon.deadline = (if w 3 = 0 then 2 ^ 64 - 1 else (w 3).toNat)) := by
  intro w n idx c h63 h15 hfn hzero hal hhi hal4 hres htag hp
  obtain ⟨s1, hb, -, hdue⟩ := packetDue.withPacket hd
  obtain ⟨hok, herr⟩ := hdue 4 _ hty (by decide) (by decide)
  have hsound : ¬ (bits (w 0) 63 22 ≠ 0 ∨ bits (w 0) 15 9 ≠ 0 ∨ bits (w 0) 19 16 > 11 ∨ wordsZero bs 5 = false ∨ (w 1).toNat % n ≠ 0
      ∨ (n = 4 ∧ bits (w 2) 63 32 ≠ 0) ∨ (w 4).toNat % 8 ≠ 0 ∨ tagOf (w 1) = 4 ∨ tagOf (w 1) = 5 ∨ tagOf (w 1) = 6 ∨ tagOf (w 1) = 8) := by
    simp only [List.mem_cons, List.not_mem_nil, or_false, not_or] at htag
    obtain ⟨ht4, ht5, ht6, ht8⟩ := htag
    rintro (h | h | h | h | h | ⟨h, h'⟩ | h | h | h | h | h)
    · exact h h63
    · exact h h15
    · exact absurd hfn (Nat.not_le.mpr h)
    · exact absurd hzero (by rw [h]; nofun)
    · exact h hal
    · exact h' (hhi h)
    · exact h hal4
    · exact ht4 h
    · exact ht5 h
    · exact ht6 h
    · exact ht8 h
  have hplace := hostPlace_ok (hb.serves.maps.engPlace hp)
  have hresult : decide (w 4 = 0 ∨ (hostPlace s1 part (s.hostq part q).asid q idx (w 4) true).isSome = true) = true := by
    rw [decide_eq_true_iff]
    rcases hres with h | ⟨r, hr⟩
    · exact .inl h
    · right
      rw [hostPlace_ok (hb.serves.maps.engPlace hr)]
      rfl
  refine ⟨fun hs => ⟨_, rfl, herr 0x04 ?_⟩, fun hs => ?_⟩
  · extract_lets
    rw [if_neg hsound, hplace, hresult]
    exact if_pos hs
  · let m : Mon := { operand := w 2, deadline := if w 3 = 0 then 2 ^ 64 - 1 else (w 3).toNat, lanes := 0, loc := p.loc, group := q,
                     slot := 0, asid := (s.hostq part q).asid, part := part, fn := BitVec.ofNat 4 (bits (w 0) 19 16), w64 := bit (w 0) 20, hostq := true,
                     spill := none, disp := false, ctl := false, slice := p.slice }
    let r : RegReq := { mon := m, pte := p.pte, va := p.va, addr := w 1 }
    let batch : RegBatch := { agent := none, host := some (part, q, idx), reqs := [r] }
    let s2 := s1.modQueue part q fun h => { h with waitmon := some (idx, bit (w 0) 21, w 4) }
    let u : State := { s2 with batches := Tbl.ins s2.batches (Tbl.freshKey s2.batches) batch }
    have hq : s2.hostq part q = _ := State.hostq_modQueue ..
    have hu : u.hostq part q = s2.hostq part q := rfl
    refine ⟨u, Tbl.freshKey s2.batches, batch, r, congrArg Host.Outcome.next (hok u ?_), ?_, ?_, Tbl.find?_ins_same .., rfl, rfl, rfl, rfl, rfl, rfl, rfl⟩
    · extract_lets
      rw [if_neg hsound, hplace, hresult]
      exact if_neg (not_not_intro hs)
    · rw [hu, hq, hb.hostq]
    · rw [hu, hq]

theorem fencePacket_sound (hty : bits (packetWord bs 0) 7 0 = 5) (h63 : bits (packetWord bs 0) 63 18 = 0) (h15 : bits (packetWord bs 0) 15 9 = 0)
    (hop : 2 ≤ bits (packetWord bs 0) 17 16) (hzero : wordsZero bs 1 = true) (hdue0 : (s.hostq part q).fenceDue = none) :
    ∃ u, exec (.fencePacket part q) s = .next u ∧ (u.hostq part q).rd = BitVec.ofNat 64 ((s.hostq part q).rd.toNat + 1) ∧
      (u.hostq part q).fences = (s.hostq part q).fences ++ [(s.hostq part q).rd.toNat] ∧ (s.hostq part q).rd.toNat ∈ (u.hostq part q).running := by
  obtain ⟨s1, hb, -, hdue⟩ := packetDue.withPacket hd
  obtain ⟨hok, -⟩ := hdue 5 _ hty (by decide) (by decide)
  let u := s1.modQueue part q fun h => { h with fences := h.fences ++ [(s.hostq part q).rd.toNat] }
  have hu : u.hostq part q = _ := State.hostq_modQueue ..
  refine ⟨u, ?_, ?_⟩
  · rw [exec_fencePacket]
    unfold execFencePacket
    rw [hdue0]
    refine congrArg Host.Outcome.next (hok _ ?_)
    extract_lets
    rw [if_neg]
    rintro (h | h | h | h)
    · exact h h63
    · exact h h15
    · exact absurd hop (Nat.not_le.mpr h)
    · exact absurd hzero (by rw [h]; nofun)
  · rw [hu, hb.hostq]
    exact ⟨rfl, rfl, List.mem_cons_self⟩

theorem markerPacket_sound (hty : bits (packetWord bs 0) 7 0 = 6) (h63 : bits (packetWord bs 0) 63 9 = 0) (hzero : wordsZero bs 3 = true)
    (hal : (packetWord bs 1).toNat % 8 = 0) (hcl : ∀ e ∈ (s.partition part).debug, e.2.isOpen = false) :
    let idx := (s.hostq part q).rd.toNat
    let c := hostCmd part (s.hostq part q).asid q idx
    (packetWord bs 1 = 0 → ∃ u, exec (.markerPacket part q) s = .next u ∧ (u.hostq part q).rd = BitVec.ofNat 64 (idx + 1) ∧ idx ∉ (u.hostq part q).running ∧ u.mem = s.mem) ∧
    (∀ p, packetWord bs 1 ≠ 0 → s.engPlace c (packetWord bs 1) true = .ok p → ∃ u, exec (.markerPacket part q) s = .next u ∧
      (u.hostq part q).rd = BitVec.ofNat 64 (idx + 1) ∧ idx ∉ (u.hostq part q).running ∧ lands s u p.loc ((toBytes 8 s.dtime).map some)) := by
  intro idx c
  obtain ⟨s1, hb, -, hdue⟩ := packetDue.withPacket hd
  obtain ⟨hok, -⟩ := hdue 6 _ hty (by decide) (by decide)
  have hsound : ¬ (bits (packetWord bs 0) 63 9 ≠ 0 ∨ wordsZero bs 3 = false ∨ (packetWord bs 1).toNat % 8 ≠ 0) := by
    rintro (h | h | h)
    · exact h h63
    · exact absurd hzero (by rw [h]; nofun)
    · exact h hal
  have hcl1 : ∀ e ∈ (s1.partition part).debug, e.2.isOpen = false :=
    (congrArg Part.debug (hb.serves.maps.parts part) : (s1.partition part).mapping.debug = _).symm ▸ hcl
  refine ⟨fun h0 => ?_, fun p h0 hp => ?_⟩
  · refine ⟨s1.packetDone part q idx, congrArg Host.Outcome.next (hok _ ?_), ?_, ?_, hb.serves.maps.mem⟩
    · extract_lets w put
      have hput : put = some s1 := if_pos h0
      rw [if_neg hsound, hput]
      dsimp only
      rw [State.trace_closed hcl1]
    · rw [State.hostq_packetDone, hb.hostq]
    · rw [State.hostq_packetDone]
      exact notMem_filter_ne _ _
  · obtain ⟨hrd, hrun⟩ := hb.wrote rfl (s.hostq part q).asid p (toBytes 8 s1.dtime)
    refine ⟨(s1.hostWrite c p (toBytes 8 s1.dtime)).packetDone part q idx, congrArg Host.Outcome.next (hok _ ?_), hrd, hrun, ?_⟩
    · have hput := State.hostPut_line (bs := toBytes 8 s1.dtime) (hb.serves.maps.engPlace hp) (List.ne_nil_of_length_eq_add_one (toBytes_length 8 _)) (by rw [toBytes_length]; omega)
      extract_lets w put
      have hp : put = _ := (if_neg h0).trans hput
      rw [if_neg hsound, hp]
      dsimp only
      rw [State.trace_closed fun e he => hcl1 e ?_]
      have hm : ((s1.hostWrite c p (toBytes 8 s1.dtime)).partition part).mapping = (s1.partition part).mapping := State.hostWrite_mapping ..
      exact (congrArg Part.debug hm : ((s1.hostWrite c p (toBytes 8 s1.dtime)).partition part).mapping.debug = _) ▸ he
    · rw [← hb.serves.dtime]
      exact State.hostWrite_lands hb.serves part (s.hostq part q).asid q idx p _

end

/-- A packet that cannot be read stops its queue. -/
theorem State.withPacket_unread {s : State} {part q : Nat} (hmay : (s.hostq part q).may = true)
    (hp : ∀ p, s.engPlace (hostCmd part (s.hostq part q).asid q (s.hostq part q).rd.toNat)
      ((s.hostq part q).base + BitVec.ofNat 64 (64 * ((s.hostq part q).rd.toNat % (s.hostq part q).size))) false ≠ .ok p)
    (type : Nat) (k : HostQ → Nat → List Byte → State → Except Byte State) :
    stoppedWith s (s.withPacket part q type k) part q (s.hostq part q).rd.toNat 0x03 := by
  unfold State.withPacket
  extract_lets h idx c addr
  rw [if_neg (by rw [show h.may = true from hmay]; nofun)]
  have hno : ∀ p, s.engPlace c addr false ≠ .ok p := hp
  cases he : s.engPlace c addr false with
  | ok p => exact absurd he (hno p)
  | _ => exact State.queueStop_stoppedWith 0x03 (some idx) 0 rfl

section
variable {s : State} {part q f : Nat} (hf : (s.hostq part q).fenceDue = some f)
include hf

theorem fencePacket_waits (h : (s.hostq part q).gwct ≠ 0) (hlt : s.dtime < (s.hostq part q).gwct + 4) : exec (.fencePacket part q) s = .next s := by
  rw [exec_fencePacket]
  unfold execFencePacket HostQ.released
  simp only [hf]
  rw [if_pos (by simp [h]; omega)]

theorem fencePacket_completes (h : (s.hostq part q).gwct = 0 ∨ (s.hostq part q).gwct + 4 ≤ s.dtime) :
    ∃ u, exec (.fencePacket part q) s = .next u ∧ f ∉ (u.hostq part q).fences ∧ f ∉ (u.hostq part q).running := by
  let s1 := s.modQueue part q fun h => { h with fences := h.fences.filter fun i => i != f }
  refine ⟨s1.packetDone part q f, ?_, ?_⟩
  · rw [exec_fencePacket]
    unfold execFencePacket HostQ.released
    simp only [hf]
    rw [if_neg (by rcases h with h | h <;> simp [h])]
  · rw [State.hostq_packetDone, show s1.hostq part q = _ from State.hostq_modQueue ..]
    exact ⟨notMem_filter_ne _ _, notMem_filter_ne _ _⟩

end

/-! ### The wake of a WAITMON packet -/

section
variable {s : State} {n idx : Nat} {w : Wake} {toerr : Bool} {result : W64}

/-- The queue of a WAITMON whose wake has come. -/
def State.wokenQueue (s : State) (n : Nat) (w : Wake) : State :=
  ({ s with wakes := Tbl.del s.wakes n } : State).modQueue w.mon.part w.mon.group fun h => { h with waitmon := none, gwct := max h.gwct w.c }

theorem State.wokenQueue_serves (s : State) (n : Nat) (w : Wake) : s.Serves (s.wokenQueue n w) :=
  State.Serves.trans (t := { s with wakes := Tbl.del s.wakes n }) ⟨⟨rfl, rfl, rfl, rfl, rfl, fun _ => rfl, fun _ => id⟩, rfl, rfl, rfl, rfl, rfl⟩ (State.serves_modQueue ..)

theorem State.hostq_wokenQueue (s : State) (n : Nat) (w : Wake) : (s.wokenQueue n w).hostq w.mon.part w.mon.group =
    { s.hostq w.mon.part w.mon.group with waitmon := none, gwct := max (s.hostq w.mon.part w.mon.group).gwct w.c } := State.hostq_modQueue ..

theorem exec_monitorWake_host (hw : Tbl.find? s.wakes n = some w) (hh : w.mon.hostq = true)
    (hq : (s.hostq w.mon.part w.mon.group).waitmon = some (idx, toerr, result)) : exec (.monitorWake n) s = .next
      (match (if result = 0 then some (s.wokenQueue n w)
        else (s.wokenQueue n w).hostPut w.mon.part w.mon.asid w.mon.group idx result (toBytes 8 w.value.toNat ++ toBytes 8 (b2n w.pred))) with
      | none => (s.wokenQueue n w).queueStop w.mon.part w.mon.group 0x03 (some idx) 0
      | some s1 => if !w.pred && toerr then s1.queueStop w.mon.part w.mon.group 0x05 (some idx) 0 else s1.packetDone w.mon.part w.mon.group idx) := by
  show execMonitorWake n s = _
  unfold execMonitorWake
  rw [hw]
  dsimp only
  rw [if_pos hh]
  unfold State.waitmonWake
  rw [show ({ s with wakes := Tbl.del s.wakes n } : State).hostq w.mon.part w.mon.group = s.hostq w.mon.part w.mon.group from rfl, hq]
  rfl

variable (hw : Tbl.find? s.wakes n = some w) (hh : w.mon.hostq = true) (hq : (s.hostq w.mon.part w.mon.group).waitmon = some (idx, toerr, result))
include hw hh hq

theorem monitorWake_completes (hc : toerr = false ∨ w.pred = true) (hr : result = 0) : ∃ u, exec (.monitorWake n) s = .next u ∧
    (u.hostq w.mon.part w.mon.group).waitmon = none ∧ idx ∉ (u.hostq w.mon.part w.mon.group).running ∧ u.mem = s.mem ∧
    w.c ≤ (u.hostq w.mon.part w.mon.group).gwct := by
  refine ⟨(s.wokenQueue n w).packetDone w.mon.part w.mon.group idx, ?_, ?_⟩
  · rw [exec_monitorWake_host hw hh hq, if_pos hr]
    dsimp only
    rw [if_neg (by rcases hc with h | h <;> simp [h])]
  · rw [State.hostq_packetDone, s.hostq_wokenQueue n w]
    exact ⟨rfl, notMem_filter_ne _ _, (s.wokenQueue_serves n w).maps.mem, Nat.le_max_right ..⟩

theorem monitorWake_writes {p : Place} (hc : toerr = false ∨ w.pred = true) (hr : result ≠ 0) (hl : result.toNat % 128 ≤ 112)
    (hp : s.engPlace (hostCmd w.mon.part w.mon.asid w.mon.group idx) result true = .ok p) : ∃ u, exec (.monitorWake n) s = .next u ∧
    (u.hostq w.mon.part w.mon.group).waitmon = none ∧ idx ∉ (u.hostq w.mon.part w.mon.group).running ∧ w.c ≤ (u.hostq w.mon.part w.mon.group).gwct ∧
    lands s u p.loc ((toBytes 8 w.value.toNat ++ toBytes 8 (b2n w.pred)).map some) := by
  have hs := s.wokenQueue_serves n w
  let bs := toBytes 8 w.value.toNat ++ toBytes 8 (b2n w.pred)
  have hlen : bs.length = 16 := by simp [bs, toBytes_length]
  have hput := State.hostPut_line (bs := bs) (hs.maps.engPlace hp) (List.ne_nil_of_length_eq_add_one hlen) (by omega)
  refine ⟨((s.wokenQueue n w).hostWrite (hostCmd w.mon.part w.mon.asid w.mon.group idx) p bs).packetDone w.mon.part w.mon.group idx, ?_, ?_⟩
  · rw [exec_monitorWake_host hw hh hq, if_neg hr, hput]
    dsimp only
    rw [if_neg (by rcases hc with h | h <;> simp [h])]
  · obtain ⟨g, hg⟩ := (s.wokenQueue n w).hostq_hostWrite w.mon.part w.mon.asid w.mon.group idx p bs
    rw [State.hostq_packetDone, hg, s.hostq_wokenQueue n w]
    exact ⟨rfl, notMem_filter_ne _ _, le_max_of_le_left (Nat.le_max_right ..), State.hostWrite_lands hs w.mon.part w.mon.asid w.mon.group idx p bs⟩

theorem monitorWake_stops (ht : toerr = true) (hc : w.pred = false) (hr : result = 0) : ∃ u, exec (.monitorWake n) s = .next u ∧
    stoppedWith s u w.mon.part w.mon.group idx 0x05 := by
  refine ⟨(s.wokenQueue n w).queueStop w.mon.part w.mon.group 0x05 (some idx) 0, ?_,
    State.queueStop_stoppedWith 0x05 (some idx) 0 (by rw [s.hostq_wokenQueue n w])⟩
  rw [exec_monitorWake_host hw hh hq, if_pos hr]
  dsimp only
  rw [if_pos (by simp [hc, ht])]

end

/-- Settles O54: each packet's soundness conditions against `State.withPacket`, whose writes go through `State.hostPut`. -/
theorem packetsRun : Obligations.PacketsRun := by
  refine ⟨fun s part q hmay hp => ⟨_, rfl, State.withPacket_unread hmay hp ..⟩, fun s n idx w toerr result hw hh hq => ⟨?_, fun p hc hr hl hp => ?_, ?_⟩,
    fun s part q bs hd => ⟨fun hty => ⟨_, rfl, ?_⟩, fun hty hl => ?_, fun hty hl => launchPacket_unsound hd hty hl, fun hty => copyPacket_sound hd hty,
      fun p hty h63 h15 hop hzero hal hhi hp => ⟨signalPacket_waits, signalPacket_sound hd p hty h63 h15 hop hzero hal hhi hp⟩,
      fun p hty => waitmonPacket_sound hd p hty, fun hty => fencePacket_sound hd hty, fun f hf => fencePacket_waits hf, fun f hf => fencePacket_completes hf,
      fun hty => markerPacket_sound hd hty⟩⟩
  · exact fun hc hr => monitorWake_completes hw hh hq hc hr
  · exact monitorWake_writes hw hh hq hc hr hl hp
  · exact fun ht hc hr => monitorWake_stops hw hh hq ht hc hr
  · obtain ⟨s1, -, hstop, -⟩ := packetDue.withPacket hd
    exact hstop _ _ hty
  · obtain ⟨hfits, hnot⟩ := launchPacket_sound hd hty hl
    exact ⟨fun h => by
      obtain ⟨u, k, g, he, hrd, hrun, hrest⟩ := hfits h
      exact ⟨u, k, g, he, hrd, hrun, hrest⟩, hnot⟩

end Sys2Proof.Machine
end

section
/-! O47 fails where the number of a command's token reaches the bits of its event's kind: the event is then held as a stop's (R22). -/

namespace Sys2Proof.Machine

/-- A copy without a line, whose token has a number of 57 bits. -/
def wideTokCmd : Cmd := { (default : Cmd) with owner := .agent 0 0, kind := .copy default, tok := 2 ^ 56, ev := true, started := true }

/-- A team with the copy, whose group 0 has an access under way. -/
def wideTokState : State :=
  { State.reset with
    teams := [(0, { (default : Team) with res := .on 0, agents := [(0, { (default : Agent) with kind := .group, issue := .beats, ops := [(0, default)] })] })]
    cmds := [(0, wideTokCmd)] }

/-- The completed copy's event stays held. -/
theorem wideTokState_held : ((stepsTo (exec (.copyComplete 0) wideTokState)).team 0).map (fun v => v.queue 15) = some [] := by decide

/-- Refutes O47: the event of a completed copy does not enter q15, whose room it has, while the group that its word then names has an access under way. -/
theorem not_commandsEnd : ¬ Obligations.CommandsEnd := by
  unfold Obligations.CommandsEnd
  intro h
  obtain ⟨hdone, -⟩ := h wideTokState (.copyComplete 0) 0 0 0 3 0 wideTokCmd _ rfl rfl rfl rfl
  obtain ⟨u, v, hu, -, -, hv, -, -, -, hev, -⟩ := hdone (.inl ⟨default, rfl, rfl, rfl, by decide, by decide⟩) (by decide)
  have hq := hev rfl rfl (by decide) rfl
  have hheld := wideTokState_held
  rw [hu] at hheld
  rw [show stepsTo (.next u) = u from rfl, hv] at hheld
  have hnil : v.queue 15 = [] := Option.some.inj hheld
  rw [hnil] at hq
  exact absurd hq.symm (List.append_ne_nil_of_right_ne_nil _ (List.cons_ne_nil _ _))

end Sys2Proof.Machine
end

section
/-! O45: waiters and held events of a queue (R15, R22, R212, R289). -/

namespace Sys2Proof.Machine

/-! ### Waiters -/

/-- The agent gone from the waiters of a queue. -/
def Team.unwaits (v : Team) (q who : Nat) : Team := { v with qwait := Tbl.put [] v.qwait q ((v.waiters q).filter fun w => decide (w ≠ who)) }

theorem Team.notMem_waiters_unwaits (v : Team) (q who : Nat) : who ∉ (v.unwaits q who).waiters q := by
  unfold Team.unwaits Team.waiters
  dsimp only
  rw [Tbl.get_put, if_pos rfl]
  exact fun h => of_decide_eq_true (List.mem_filter.mp h).2 rfl

/-- A team in which nobody waits on a queue. -/
def Team.alone (t : Team) (q : Nat) : Team := { t with qwait := Tbl.put [] t.qwait q [] }

theorem Team.waitersLike_alone (t : Team) (q : Nat) (g : Bool) : (t.alone q).waitersLike q g = [] := by
  unfold Team.alone Team.waitersLike Team.waiters
  rw [Tbl.get_put, if_pos rfl]
  rfl

theorem popQueue_alone {t : Team} {x : Agent} {q : Nat} {w : W64} {c : W32} {es : List (W64 × W32)} (hg : x.arr.granted = none) (hlt : q < 8)
    (hq : t.queue q = (w, c) :: es) : popQueue (t.alone q) x q = .entry w c [] ((t.alone q).setQueue q es) := by
  unfold popQueue
  rw [hg]
  dsimp only
  rw [if_neg (by omega), show (t.alone q).queue q = (w, c) :: es from hq, Team.waitersLike_alone]
  dsimp only
  rw [if_neg (by omega)]

theorem pushQueue_alone {s : State} {team : Nat} {t : Team} {x : Agent} {q : Nat} (hlt : q < 8) (hroom : (t.queue q).length + t.letThrough q < 64)
    (hp : x.arr.pushed = false) : ∃ u, pushQueue s team (t.alone q) x q 0 [] = .ok u := by
  unfold pushQueue
  extract_lets mine
  rw [if_pos hlt]
  split
  · exact ⟨_, rfl⟩
  · have hm : mine = false := hp
    rw [if_pos]
    · exact ⟨_, rfl⟩
    · rw [hm, Team.waitersLike_alone]
      exact ⟨hroom, .inr rfl⟩

theorem exec_queueWake_first {s u : State} {team q who : Nat} {ws : List Nat} {t : Team} {x : Agent} (ht : s.team team = some t) (hr : t.resident = true)
    (hsave : t.saveAsked = false) (hpre : t.preempt = false) (hws : t.waitersLike q true = who :: ws) (hx : s.agent ⟨team, who⟩ = some x)
    (hi : x.issue = .queue) (hu : wakeWaiter s team q who t x = some u) : exec (.queueWake team q) s = .next u := by
  show execQueueWake team q s = _
  unfold execQueueWake
  rw [ht]
  dsimp only
  have hw : wakeFirst s team q t true = some u := by
    unfold wakeFirst
    rw [hws]
    dsimp only
    rw [hx]
    dsimp only
    rw [if_pos hi, hu]
  rw [if_neg (by rw [hr, hsave, hpre]; nofun), hw]

/-- An agent after one of its team has left the waiters of a queue and goes on. -/
theorem State.agent_unwaited {s : State} {team who : Nat} {x : Agent} (hx : s.agent ⟨team, who⟩ = some x) {f : Team → Team} (hf : ∀ t, (f t).agents = t.agents)
    (q : Nat) (g : Agent → Agent) : (((s.modTeam team f).modTeam team fun v => v.unwaits q who).modAgent ⟨team, who⟩ g).agent ⟨team, who⟩ = some (g x) := by
  rw [State.agent_modAgent_same, State.agent_modTeam_keep _ _ (fun v => v.unwaits q who) fun _ => rfl, State.agent_modTeam_keep _ _ _ hf, hx]
  rfl

/-- And its team. -/
theorem State.team_unwaited {s : State} {team who : Nat} {t : Team} (ht : s.team team = some t) (f : Team → Team) (q : Nat) (g : Agent → Agent) :
    (((s.modTeam team f).modTeam team fun v => v.unwaits q who).modAgent ⟨team, who⟩ g).team team =
      some { (f t).unwaits q who with agents := Tbl.modify ((f t).unwaits q who).agents who g } := by
  rw [State.team_modAgent, if_pos rfl, State.team_modTeam_same, State.team_modTeam_same, ht]
  rfl

/-- A waiting agent that goes on with an entry. -/
def Agent.grant (x : Agent) (w : W64) (c : W32) (bs : List Byte) : Agent := { x.unpark with arr := { x.unpark.arr with granted := some (w, c, bs) } }

/-- A waiting agent that goes on with room kept for its word. -/
def Agent.letIn (x : Agent) : Agent := { x.unpark with arr := { x.unpark.arr with pushed := true } }

section
variable {s : State} {team q who : Nat} {ws : List Nat} {t : Team} {x : Agent} (ht : s.team team = some t) (hr : t.resident = true)
  (hsave : t.saveAsked = false) (hpre : t.preempt = false) (hws : t.waitersLike q true = who :: ws) (hx : s.agent ⟨team, who⟩ = some x)
  (hi : x.issue = .queue) (hlt : q < 8)
include ht hr hsave hpre hws hx hi hlt

theorem queueWake_reader {qq : BitVec 4} {wide : Bool} {w : W64} {c : W32} {es : List (W64 × W32)} (hu : x.queueUse = .read qq wide)
    (hg : x.arr.granted = none) (hq : t.queue q = (w, c) :: es) : ∃ u y v, exec (.queueWake team q) s = .next u ∧ u.agent ⟨team, who⟩ = some y ∧
      y.issue = .beats ∧ y.block = none ∧ y.arr.granted = some (w, c, []) ∧ y.lanes = x.lanes ∧ u.team team = some v ∧ v.queue q = es ∧
      who ∉ v.waiters q := by
  let t2 := (t.alone q).setQueue q es
  let f : Team → Team := fun v => { v with q := t2.q, drain := t2.drain, heldEvents := t2.heldEvents }
  refine ⟨_, _, _, exec_queueWake_first (u := ((s.modTeam team f).modTeam team fun v => v.unwaits q who).modAgent ⟨team, who⟩ fun y => y.grant w c [])
    ht hr hsave hpre hws hx hi ?_, State.agent_unwaited hx (f := f) (fun _ => rfl) q _, rfl, rfl, rfl, rfl, State.team_unwaited ht f q _, ?_, ?_⟩
  · unfold wakeWaiter
    extract_lets t1 rest
    have hpop : popQueue t1 x q = .entry w c [] t2 := popQueue_alone hg hlt hq
    rw [hu]
    dsimp -zeta only
    rw [hpop]
    rfl
  · exact Tbl.get_put .. |>.trans (if_pos rfl)
  · exact Team.notMem_waiters_unwaits (f t) q who

theorem queueWake_writer {qq : BitVec 4} {wide : Bool} (hu : x.queueUse = .write qq wide) (hp : x.arr.pushed = false)
    (hroom : (t.queue q).length + t.letThrough q < 64) : ∃ u y v, exec (.queueWake team q) s = .next u ∧ u.agent ⟨team, who⟩ = some y ∧
      y.issue = .beats ∧ y.block = none ∧ y.arr.pushed = true ∧ y.lanes = x.lanes ∧ u.team team = some v ∧ v.queue q = t.queue q ∧
      who ∉ v.waiters q := by
  have hid : s.modTeam team id = s := by
    show { s with teams := Tbl.modify s.teams team id } = s
    rw [Tbl.modify_id]
  have hag := State.agent_unwaited hx (f := id) (fun _ => rfl) q Agent.letIn
  have htm := State.team_unwaited (who := who) ht id q Agent.letIn
  rw [hid] at hag htm
  refine ⟨_, _, _, exec_queueWake_first (u := (s.modTeam team fun v => v.unwaits q who).modAgent ⟨team, who⟩ Agent.letIn)
    ht hr hsave hpre hws hx hi ?_, hag, rfl, rfl, rfl, rfl, htm, rfl, ?_⟩
  · obtain ⟨u, hpush⟩ := pushQueue_alone (s := s) (team := team) hlt hroom hp
    unfold wakeWaiter
    extract_lets t1 rest
    have hpush : pushQueue s team t1 x q 0 [] = .ok u := hpush
    rw [hu]
    dsimp -zeta only
    rw [hpush]
    rfl
  · exact Team.notMem_waiters_unwaits t q who

end

/-! ### Held events -/

theorem Team.flushEvents_queue (n : Nat) (t : Team) : ∃ r, (t.flushEvents n).queue 15 = t.queue 15 ++ r := by
  induction n generalizing t with
  | zero => exact ⟨[], (List.append_nil _).symm⟩
  | succ n ih =>
    unfold Team.flushEvents
    split
    · exact ⟨[], (List.append_nil _).symm⟩
    next e _ =>
      split
      · obtain ⟨r, hr⟩ := ih ({ t with heldEvents := t.heldEvents.erase e }.setQueue 15 (t.queue 15 ++ [(e.word, t.cseq)]))
        refine ⟨(e.word, t.cseq) :: r, hr.trans ?_⟩
        unfold Team.queue Team.setQueue
        rw [Tbl.get_put, if_pos rfl, List.append_assoc]
        rfl
      · exact ⟨[], (List.append_nil _).symm⟩

/-- The first event, if it need not wait, enters q15 first. -/
theorem Team.flush_queue {t : Team} {e : HeldEvent} {es : List HeldEvent} (he : t.heldEvents = e :: es) (hr : t.resident = true)
    (hlen : (t.queue 15).length < 64) (hready : t.eventReady e = true) : ∃ r, t.flush.queue 15 = t.queue 15 ++ (e.word, t.cseq) :: r := by
  unfold Team.flush
  rw [he, List.length_cons]
  unfold Team.flushEvents
  rw [he, List.find?_cons_of_pos hready]
  dsimp only
  rw [if_pos ⟨hr, hlen⟩]
  obtain ⟨r, hq⟩ := Team.flushEvents_queue es.length ({ t with heldEvents := t.heldEvents.erase e }.setQueue 15 (t.queue 15 ++ [(e.word, t.cseq)]))
  rw [he] at hq
  refine ⟨r, hq.trans ?_⟩
  unfold Team.queue Team.setQueue
  rw [Tbl.get_put, if_pos rfl, List.append_assoc]
  rfl

theorem Team.flush_full {t : Team} (h : 64 ≤ (t.queue 15).length) : t.flush = t := by
  unfold Team.flush
  cases t.heldEvents.length with
  | zero => rfl
  | succ n =>
    unfold Team.flushEvents
    split
    · rfl
    · exact if_neg fun h' => absurd h'.2 (Nat.not_lt.mpr h)

theorem Team.flush_waiting {t : Team} (h : ∀ e ∈ t.heldEvents, t.eventReady e = false) : t.flush = t := by
  unfold Team.flush
  cases t.heldEvents.length with
  | zero => rfl
  | succ n =>
    unfold Team.flushEvents
    rw [List.find?_eq_none.mpr fun e he => by rw [h e he]; nofun]

/-- An event waits exactly where it is that of a stop whose group has accesses or acknowledgements to come. -/
theorem Team.eventReady_eq_false_iff (t : Team) (e : HeldEvent) : t.eventReady e = false ↔
    bits e.word 63 56 = 2 ∧ ∃ x, Tbl.find? t.agents (bits e.word 6 0) = some x ∧ (x.ops ≠ [] ∨ x.acks ≠ []) := by
  unfold Team.eventReady
  cases hx : Tbl.find? t.agents (bits e.word 6 0) with
  | none => simp
  | some x =>
    simp only [Option.some.injEq, exists_eq_left', Bool.or_eq_false_iff, decide_eq_false_iff_not, not_not, Bool.and_eq_false_iff, List.isEmpty_eq_false_iff]

section
variable {s : State} {team : Nat} {t : Team} {e : HeldEvent} {es : List HeldEvent} (ht : s.team team = some t)
include ht

theorem eventPost_flushes (hc : t.ctlGone = false) : exec (.eventPost team) s = .next (s.modTeam team Team.flush) := by
  show execEventPost team s = _
  unfold execEventPost
  rw [ht]
  dsimp only
  rw [if_pos (by rw [hc]; rfl)]

variable (he : t.heldEvents = e :: es) (hc : t.ctlGone = true)
include he hc

theorem eventPost_discards (h2 : bits e.word 63 56 ≠ 2) (h3 : bits e.word 63 56 ≠ 3) :
    exec (.eventPost team) s = .next (s.modTeam team fun v => { v with heldEvents := es }) := by
  show execEventPost team s = _
  unfold execEventPost
  rw [ht]
  dsimp only
  rw [if_neg (by rw [hc]; nofun), he]
  exact if_neg (not_or.mpr ⟨h2, h3⟩)

theorem eventPost_ends (h : bits e.word 63 56 = 2 ∨ bits e.word 63 56 = 3) : exec (.eventPost team) s = .next (s.endContext t.part t.asid e.bytes) := by
  show execEventPost team s = _
  unfold execEventPost
  rw [ht]
  dsimp only
  rw [if_neg (by rw [hc]; nofun), he]
  exact if_pos h

end

/-- A team whose context ends is ended, and its agents are gone. -/
theorem State.team_endContext_self {s : State} {team : Nat} {t : Team} (ht : s.team team = some t) (he : t.isEnded = false) (rec : List Byte) :
    ∃ v, (s.endContext t.part t.asid rec).team team = some v ∧ v.isEnded = true ∧ v.agents = [] := by
  obtain ⟨f, g, hg, hteam⟩ := s.team_endContext t.part t.asid rec team
  have hin : t.inCtx t.part t.asid = true := by simp [Team.inCtx, he]
  rw [ht, Option.map_some, if_pos hin] at hteam
  refine ⟨_, hteam, ?_⟩
  obtain rfl | rfl := hg
  · exact ⟨rfl, rfl⟩
  · unfold Team.unhalted
    split <;> exact ⟨rfl, rfl⟩

/-- Settles O45: the waiter's own read or write with nobody before it, and the flush of held events. -/
theorem queueWakes : Obligations.QueueWakes := by
  refine ⟨fun s team q who ws t x ht hr hsave hpre hws hx hi hlt => ⟨fun qq wide w c es hu hg hq => queueWake_reader ht hr hsave hpre hws hx hi hlt hu hg hq,
    fun qq wide hu hp hroom => queueWake_writer ht hr hsave hpre hws hx hi hlt hu hp hroom⟩, fun s team t e es ht he => ⟨fun hc hr hlen hw => ?_, fun hc hw => ?_,
    fun hc h2 h3 => ?_, fun hc hend h => ?_⟩⟩
  · have hready : t.eventReady e = true := by
      rw [← Bool.not_eq_false, Team.eventReady_eq_false_iff]
      exact hw
    obtain ⟨r, hq⟩ := Team.flush_queue he hr hlen hready
    exact ⟨_, t.flush, r, eventPost_flushes ht hc, by rw [State.team_modTeam_same, ht]; rfl, hq, Team.flushEvents_agents _ t⟩
  · have hfl : t.flush = t := by
      obtain hfull | hwait := hw
      · exact Team.flush_full hfull
      · exact Team.flush_waiting fun g hg => (Team.eventReady_eq_false_iff t g).mpr (hwait g hg)
    exact ⟨_, t.flush, eventPost_flushes ht hc, by rw [State.team_modTeam_same, ht]; rfl, by rw [hfl], by rw [hfl]⟩
  · exact ⟨_, { t with heldEvents := es }, eventPost_discards ht he hc h2 h3, by rw [State.team_modTeam_same, ht]; rfl, rfl, rfl⟩
  · obtain ⟨v, hv, hended, hnone⟩ := State.team_endContext_self ht hend e.bytes
    exact ⟨_, v, eventPost_ends ht he hc h, hv, hended, hnone⟩

end Sys2Proof.Machine
end

section
/-! O50: the end of a context, and the fault queue's answers (R291, R293, R294). -/

namespace Sys2Proof.Machine

/-! ### Bytes that are zero -/

theorem State.dropMons_zero {s : State} {l : Nat} (h : s.byteAt l = 0) (gone : Mon → Bool) : (s.dropMons gone).byteAt l = 0 := by
  unfold State.dropMons
  extract_lets out kept s1
  have h1 : s1.byteAt l = 0 := by
    refine foldl_keeps (fun u : State => u.byteAt l = 0) _ out (fun u m _ hu => ?_) s h
    split
    · rw [State.byteAt_poke]
      split
      · rw [List.getD_replicate _ (by simp at *; omega)]
      · exact hu
    · exact hu
  exact h1

theorem State.compare_zero {s : State} {l : Nat} (h : s.byteAt l = 0) (loc n c : Nat) : (s.compare loc n c).byteAt l = 0 := by
  unfold State.compare
  extract_lets hit out
  exact foldl_keeps (fun u : State => u.byteAt l = 0) (fun t m => t.sendWake { mon := m, value := s.monWord m, pred := true, c := c, stamp := s.writeSeq })
    out (fun u m _ hu => hu) _ (State.dropMons_zero h hit)

/-- A write elsewhere leaves a zero byte zero: the records of entries that leave the spill area are cleared. -/
theorem State.writeAt_zero {s : State} {l : Nat} (h : s.byteAt l = 0) (p : Place) (bs : List Byte) (hl : ¬ (p.loc ≤ l ∧ l < p.loc + bs.length)) :
    (s.writeAt p bs none).1.byteAt l = 0 := by
  have hpoke : ∀ u : State, u.mem = s.mem → (u.poke p.loc bs).byteAt l = 0 := fun u hu => by
    rw [State.byteAt_poke, if_neg hl, State.byteAt_congr hu, h]
  have hcmp : ∀ u : State, u.mem = s.mem → ∀ r loc n c, (((u.poke p.loc bs).setLine (p.loc / 128) r).compare loc n c).byteAt l = 0 :=
    fun u hu r loc n c => State.compare_zero (s := (u.poke p.loc bs).setLine (p.loc / 128) r) (hpoke u hu) loc n c
  have hs := s.serialised_same p bs.length none 0
  unfold State.writeAt State.writeWith
  cases p.owned with
  | slice =>
    simp only
    generalize ((({ s with writeSeq := s.writeSeq + 1 } : State).recall (p.loc / 128) none).touchLine p 0).rewritten (p.loc / 128) bs.length = u at hs ⊢
    split
    · exact hpoke u hs.1
    · split
      · exact hcmp _ ((State.makeRoom_same ..).1.trans hs.1) _ _ _ _
      · exact hcmp u hs.1 _ _ _ _
  | scratch t | pinned | peer => exact hpoke _ rfl

/-- A place of the fault queue, its whole record in the low regions of memory. -/
theorem fqPlace_lt (p : Part) {size : Nat} (hs : p.fqSize = some size) (k : Nat) : (physPlace (p.fqBase.toNat + 32 * (k % size))).loc + 32 ≤ 2 ^ 64 + 2 ^ 36 := by
  unfold Part.fqSize at hs
  split at hs
  · cases hs
  · obtain rfl := Option.some.inj hs
    have hb := p.fqBase.isLt
    have hlt : k % 2 ^ bits p.fqCtl 4 0 < 2 ^ 31 :=
      (Nat.mod_lt _ (Nat.two_pow_pos _)).trans_le (Nat.pow_le_pow_right (by decide) (Nat.le_of_lt_succ (Nat.mod_lt _ (by decide))))
    show 0 * 2 ^ 64 + (p.fqBase.toNat + 32 * (k % 2 ^ bits p.fqCtl 4 0)) + 32 ≤ _
    omega

theorem State.fqSend_zero {s : State} {l : Nat} (h : s.byteAt l = 0) (hl : 2 ^ 64 + 2 ^ 36 ≤ l) (part : Nat) {r : HeldRecord} (hr : r.bytes.length = 32) :
    (s.fqSend part r).byteAt l = 0 := by
  unfold State.fqSend
  dsimp only
  split
  · exact h
  next size hsize =>
    split
    · have hlt := fqPlace_lt (s.partition part) hsize (s.partition part).fqWr.toNat
      have hw := State.writeAt_zero h (physPlace ((s.partition part).fqBase.toNat + 32 * ((s.partition part).fqWr.toNat % size))) r.bytes (by omega)
      unfold State.fqWrite
      extract_lets p s1 s2 s3
      have h3 : s3.byteAt l = 0 := by
        unfold s3
        split <;> exact hw
      exact h3
    · exact h

/-- Entries dropped by their keys. -/
theorem Tbl.find?_filter_key {α : Type} (m : Tbl α) (p : Nat → Bool) (k : Nat) :
    Tbl.find? (m.filter fun e => p e.1) k = if p k = true then Tbl.find? m k else none := by
  induction m with
  | nil => simp
  | cons e m ih =>
    obtain ⟨j, v⟩ := e
    by_cases hj : j = k
    · subst hj
      by_cases hp : p j = true
      · rw [List.filter_cons, if_pos (show p (j, v).1 = true from hp), if_pos hp]
        simp only [Tbl.find?, if_true]
      · rw [List.filter_cons, if_neg (show ¬ p (j, v).1 = true from hp), ih, if_neg hp, if_neg hp]
    · have hcons : Tbl.find? ((j, v) :: m) k = Tbl.find? m k := by simp only [Tbl.find?, hj, if_false]
      rw [hcons, ← ih]
      by_cases hp : p j = true
      · rw [List.filter_cons, if_pos (show p (j, v).1 = true from hp)]
        simp only [Tbl.find?, hj, if_false]
      · rw [List.filter_cons, if_neg (show ¬ p (j, v).1 = true from hp)]

theorem State.byteAt_clear (s : State) (loc n l : Nat) : (s.clear loc n).byteAt l = if l < loc ∨ loc + n ≤ l then s.byteAt l else 0 := by
  unfold State.clear State.byteAt Tbl.get
  rw [Tbl.find?_filter_key s.mem fun k => decide (k < loc) || decide (loc + n ≤ k)]
  simp only [Bool.or_eq_true, decide_eq_true_eq]
  split <;> rfl

theorem State.clear_zero {s : State} {l : Nat} (h : s.byteAt l = 0) (loc n : Nat) : (s.clear loc n).byteAt l = 0 := by
  rw [State.byteAt_clear, h, ite_self]

/-- The scratchpad of a team that ends with its context is cleared. -/
theorem State.dropContexts_zero {s : State} {n k : Nat} {t : Team} (ht : s.team n = some t) {mine : Nat → Nat → Bool} (hm : mine t.part t.asid = true)
    (he : t.isEnded = false) (hk : k < 2 ^ 22) : (s.dropContexts mine).byteAt (spLoc n 0 + k) = 0 := by
  unfold State.dropContexts
  extract_lets out s1 dead s2
  have h1 : s1.byteAt (spLoc n 0 + k) = 0 := by
    have hmem : (n, t) ∈ s.teams.filter fun e => out e.2 := List.mem_filter.mpr ⟨Tbl.mem_of_find? ht, by simp only [out, hm, he]; rfl⟩
    obtain ⟨as, bs, hab⟩ := List.append_of_mem hmem
    unfold s1
    rw [hab, List.foldl_append, List.foldl_cons]
    refine foldl_keeps (fun u : State => u.byteAt (spLoc n 0 + k) = 0) _ bs (fun u e _ hu => State.clear_zero (State.clear_zero hu _ _) _ _) _ ?_
    refine State.clear_zero ?_ _ _
    rw [State.byteAt_clear, if_neg (by dsimp only; omega)]
  exact State.dropMons_zero (s := s2) h1 _

theorem Rec.length_encode (r : Rec) : r.encode.length = 32 := toBytes_length ..

/-! ### The end of a context -/

section
variable (s : State) (part asid : Nat) (rec : List Byte)

/-- The state in which a context has ended, but for its record. -/
def State.endedContext (s : State) (part asid : Nat) : State :=
  let s1 := (s.endSession part asid).dropContexts fun p a => p == part && a == asid
  if part < 12 then s1.modPart part fun p =>
      { p with queues := p.queues.map fun e => if bits e.2.ctl 15 0 = asid then (e.1, e.2.halted) else e,
               replays := p.replays.filter fun r => r.asid != asid,
               heldRecords := p.heldRecords.filter fun h => match h.replay with | some r => r.asid != asid | none => true }
  else s1

theorem State.endContext_eq : s.endContext part asid rec =
    if part < 12 then (s.endedContext part asid).fqSend part { bytes := rec, replay := none } else s.endedContext part asid := by
  unfold State.endContext State.endedContext
  dsimp only
  split <;> rfl

theorem State.endContext_zero {n k : Nat} {t : Team} (ht : s.team n = some t) (hp : t.part = part) (ha : t.asid = asid) (he : t.isEnded = false)
    (hr : rec.length = 32) (hk : k < 2 ^ 22) : (s.endContext part asid rec).byteAt (spLoc n 0 + k) = 0 := by
  obtain ⟨f, hf⟩ := s.team_endSession part asid n
  have ht1 : (s.endSession part asid).team n = some { t with logEnd := f t } := by rw [hf, ht]; rfl
  have h1 : ((s.endSession part asid).dropContexts fun p a => p == part && a == asid).byteAt (spLoc n 0 + k) = 0 :=
    State.dropContexts_zero ht1 (by simp [hp, ha]) he hk
  have h2 : (s.endedContext part asid).byteAt (spLoc n 0 + k) = 0 := by
    unfold State.endedContext
    dsimp only
    split <;> exact h1
  rw [State.endContext_eq]
  split
  · refine State.fqSend_zero h2 ?_ part hr
    unfold spLoc locOf
    omega
  · exact h2

theorem State.fqWrite_mons (h : HeldRecord) (size : Nat) : ∀ m ∈ (s.fqWrite part h size).mons, m ∈ s.mons := by
  unfold State.fqWrite
  extract_lets p s1 s2 s3
  have h3 : s3.mons = s1.mons := by
    unfold s3
    split <;> rfl
  intro m hm
  exact (s.writeWith_bytes (physPlace (p.fqBase.toNat + 32 * (p.fqWr.toNat % size))) h.bytes none 0).1 m (h3 ▸ hm)

theorem State.fqWrite_cmds (h : HeldRecord) (size : Nat) : (s.fqWrite part h size).cmds = s.cmds := by
  unfold State.fqWrite
  extract_lets p s1 s2 s3
  have h3 : s3.cmds = s1.cmds := by
    unfold s3
    split <;> rfl
  exact h3.trans (congrArg State.cmds (s.writeAt_still (physPlace (p.fqBase.toNat + 32 * (p.fqWr.toNat % size))) h.bytes none) : s1.still.cmds = s.still.cmds)

theorem State.fqSend_mons (h : HeldRecord) : ∀ m ∈ (s.fqSend part h).mons, m ∈ s.mons := by
  unfold State.fqSend
  dsimp only
  split
  · exact fun _ => id
  · split
    · exact s.fqWrite_mons part h _
    · exact fun _ => id

theorem State.fqSend_cmds (h : HeldRecord) : (s.fqSend part h).cmds = s.cmds := by
  unfold State.fqSend
  dsimp only
  split
  · rfl
  · split
    · exact s.fqWrite_cmds part h _
    · rfl

theorem State.endedContext_cmds : ∀ e ∈ (s.endedContext part asid).cmds, ¬ (e.2.part = part ∧ e.2.asid = asid) := by
  have h1 : ∀ e ∈ ((s.endSession part asid).dropContexts fun p a => p == part && a == asid).cmds, ¬ (e.2.part = part ∧ e.2.asid = asid) := by
    unfold State.dropContexts
    extract_lets out s1 dead s2
    intro e he
    have hd : (s2.dropMons fun m => (fun p a => p == part && a == asid) m.part m.asid).cmds = s2.cmds :=
      (congrArg State.cmds (s2.dropMons_still _) : (s2.dropMons _).still.cmds = s2.still.cmds)
    rw [hd] at he
    have hf := (List.mem_filter.mp (show e ∈ s1.cmds.filter _ from he)).2
    rintro ⟨hp, ha⟩
    simp [hp, ha] at hf
  unfold State.endedContext
  dsimp only
  split <;> exact h1

theorem State.endedContext_mons : ∀ m ∈ (s.endedContext part asid).mons, ¬ (m.part = part ∧ m.asid = asid) := by
  have h1 : ∀ m ∈ ((s.endSession part asid).dropContexts fun p a => p == part && a == asid).mons, ¬ (m.part = part ∧ m.asid = asid) := by
    unfold State.dropContexts
    extract_lets out s1 dead s2
    intro e he
    have hf := (List.mem_filter.mp (show e ∈ s2.mons.filter _ from he)).2
    rintro ⟨hp, ha⟩
    simp [hp, ha] at hf
  unfold State.endedContext
  dsimp only
  split <;> exact h1

theorem State.endContext_gone : (∀ e ∈ (s.endContext part asid rec).cmds, ¬ (e.2.part = part ∧ e.2.asid = asid)) ∧
    ∀ m ∈ (s.endContext part asid rec).mons, ¬ (m.part = part ∧ m.asid = asid) := by
  rw [State.endContext_eq]
  split
  · rw [State.fqSend_cmds]
    exact ⟨s.endedContext_cmds part asid, fun m hm => s.endedContext_mons part asid m (State.fqSend_mons _ part _ m hm)⟩
  · exact ⟨s.endedContext_cmds part asid, s.endedContext_mons part asid⟩

/-- In a table with rising keys every entry is what its key finds. -/
theorem Tbl.find?_of_rising {α : Type} {m : Tbl α} {o : Option Nat} (h : Tbl.rising o m = true) {e : Nat × α} (he : e ∈ m) : Tbl.find? m e.1 = some e.2 := by
  induction m generalizing o with
  | nil => cases he
  | cons d m ih =>
    obtain ⟨j, v⟩ := d
    simp only [Tbl.rising, Bool.and_eq_true] at h
    rcases List.mem_cons.mp he with rfl | he
    · simp only [Tbl.find?, if_true]
    · have hlt := Tbl.rising_above h.2 he
      simp only [Tbl.find?, if_neg (Nat.ne_of_lt hlt)]
      exact ih h.2 he

theorem State.endLog_team_other (c : Ctx) (ctl : W64) {k n : Nat} (t : Team) (h : n ≠ k) : (s.endLog c ctl k t).team n = s.team n := by
  unfold State.endLog
  split
  · rfl
  · extract_lets size j r s1
    have hs1 : s1.teams = s.teams := by
      unfold s1
      cases hw : s.deviceWrite (t.cluster.getD 0) t.part t.asid (logVa c t + 32 * (j % size)) (r.encode s.dtime) with
      | none => rfl
      | some u => exact State.deviceWrite_teams hw
    rw [State.team_modTeam, if_neg h, State.team, State.team, hs1]

theorem State.endSession_team_other {n : Nat} {t : Team} (hr : Tbl.rising none s.teams = true) (ht : s.team n = some t) (hn : t.inCtx part asid = false) :
    (s.endSession part asid).team n = some t := by
  unfold State.endSession
  split
  · exact ht
  next c _ =>
    split
    · extract_lets lostNow s1 s2 s3 ctl
      have hs3 : s3.teams = s.teams := by simp [s3, s2, s1]
      have h3 : s3.team n = some t := by rw [State.team, hs3]; exact ht
      refine foldl_keeps (fun u : State => u.team n = some t) _ _ (fun u e he hu => ?_) s3 h3
      split
      next hin =>
        rw [State.endLog_team_other _ _ _ _ ?_, hu]
        rintro rfl
        rw [hs3] at he
        have hf := Tbl.find?_of_rising hr he
        obtain rfl := Option.some.inj (hf.symm.trans ht)
        rw [hn] at hin
        cases hin
      · exact hu
    · exact ht

theorem Team.unhalted_of_not_priv {t : Team} (h : t.priv = false) : t.unhalted = t := by
  unfold Team.unhalted
  rw [h]
  rfl

theorem State.endContext_team_other {n : Nat} {t : Team} (hr : Tbl.rising none s.teams = true) (ht : s.team n = some t) (hn : t.part ≠ part ∨ t.asid ≠ asid)
    (hp : t.priv = false) : (s.endContext part asid rec).team n = some t := by
  have hmine : (t.part == part && t.asid == asid) = false := by
    rw [Bool.and_eq_false_iff, beq_eq_false_iff_ne, beq_eq_false_iff_ne]
    exact hn
  have hin : t.inCtx part asid = false := by
    unfold Team.inCtx
    rw [hmine]
    rfl
  have h1 : ((s.endSession part asid).dropContexts fun p a => p == part && a == asid).team n = some t := by
    rw [State.team_dropContexts, s.endSession_team_other part asid hr ht hin, Option.map_some, hmine]
    rfl
  have h2 : (s.endedContext part asid).team n = some t := by
    unfold State.endedContext
    dsimp only
    split <;> exact h1
  rw [State.endContext_eq]
  split
  · obtain h | h := (s.endedContext part asid).team_fqSend part { bytes := rec, replay := none } n
    · rw [h, h2]
    · rw [h, h2, Option.map_some, Team.unhalted_of_not_priv hp]
  · exact h2

end

/-- The record of the end of a context that firmware destroys. -/
def State.endRec (s : State) (part asid : Nat) : Rec :=
  { code := BitVec.ofNat 8 (Config.freeNat s.fresh), eng := Config.freeNat (s.fresh + 1) % 10, group := 0, ctl := false, slot := 0,
    asid := asid, part := part, restart := 0, write := false, replay := false, site := ⟨0, 0⟩, addr := 0, lanes := 0 }

theorem exec_contextEnd {s : State} {part asid : Nat} {c : Ctx} (hc : s.ctx part asid = some c) : exec (.contextEnd part asid) s =
    .next (({ s with fresh := s.fresh + 2 } : State).endContext part asid (s.endRec part asid).encode) := by
  show execContextEnd part asid s = _
  unfold execContextEnd
  rw [hc]
  rfl

/-! ### Answers to a pending record -/

theorem exec_faultQueueRetry (part idx : Nat) (s : State) : exec (.faultQueueRetry part idx) s = execFaultQueueRetry part idx s := rfl
theorem exec_faultQueueRefuse (part idx : Nat) (s : State) : exec (.faultQueueRefuse part idx) s = execFaultQueueRefuse part idx s := rfl
theorem exec_fqrdWrite (part : Nat) (w : W64) (s : State) : exec (.fqrdWrite part w) s = execFqrdWrite part w s := rfl

theorem State.vf_live {s : State} {part : Nat} (h : (s.partition part).live = true) (f : State → State) : s.vf part f = f s := if_pos h

theorem Agent.retry_retry (x : Agent) : x.retry.retry = x.retry := by
  unfold Agent.retry
  by_cases h : x.issue = .replay
  · rw [if_pos h]
    exact if_neg nofun
  · rw [if_neg h, if_neg h]

/-- Agents that go on, each once. -/
theorem State.agent_retries (l : List AgentId) (s : State) (a : AgentId) :
    (l.foldl (fun u a => u.modAgent a Agent.retry) s).agent a = if a ∈ l then (s.agent a).map Agent.retry else s.agent a := by
  induction l generalizing s with
  | nil => rfl
  | cons c l ih =>
    rw [List.foldl_cons, ih, State.agent_modAgent]
    by_cases hc : a = c
    · subst hc
      simp only [if_true, Option.map_map, List.mem_cons, true_or]
      split
      · exact congrArg (Option.map · _) (funext fun x => x.retry_retry)
      · rfl
    · simp only [hc, if_false, List.mem_cons, false_or]

/-- Commands that go on, each once. -/
theorem Cmd.retry_retry (c : Cmd) (w : Bool) : (c.retry w).retry w = c.retry w := by
  unfold Cmd.retry
  simp only [Bool.or_assoc, Bool.or_self]

theorem find?_retries (l : List Nat) (m : Tbl Cmd) (w : Bool) (n : Nat) :
    Tbl.find? (l.foldl (fun m n => Tbl.modify m n fun c => c.retry w) m) n = if n ∈ l then (Tbl.find? m n).map (Cmd.retry · w) else Tbl.find? m n := by
  induction l generalizing m with
  | nil => rfl
  | cons k l ih =>
    rw [List.foldl_cons, ih, Tbl.find?_modify]
    by_cases hk : n = k
    · subst hk
      simp only [if_true, Option.map_map, List.mem_cons, true_or]
      split
      · exact congrArg (Option.map · _) (funext fun c => c.retry_retry w)
      · rfl
    · simp only [hk, if_false, List.mem_cons, false_or]

section
variable {s : State} {part idx : Nat} {r : Replay} (hl : (s.partition part).live = true) (hr : (s.partition part).pending idx = some r)
include hl hr

theorem faultQueueRetry_goes_on : ∃ u, exec (.faultQueueRetry part idx) s = .next u ∧ (∀ q ∈ (u.partition part).replays, q.idx ≠ r.idx) ∧
    (∀ a x, a ∈ r.agents → s.agent a = some x → x.issue = .replay → ∃ y, u.agent a = some y ∧ y.issue = .beats ∧ y.block = none ∧
      y.restart = x.restart ∧ y.lanes = x.lanes ∧ y.regs = x.regs) ∧
    ∀ n c, n ∈ r.cmds → Tbl.find? s.cmds n = some c → ∃ d, Tbl.find? u.cmds n = some d ∧ d.parked = false ∧ d.kind = c.kind ∧
      (r.watch = true → d.noWatch = true) := by
  let s1 := s.modPart part fun p => { p with replays := p.replays.filter fun q => q.idx != r.idx }
  let s2 := r.agents.foldl (fun u a => u.modAgent a Agent.retry) s1
  let u : State := { s2 with cmds := r.cmds.foldl (fun m n => Tbl.modify m n fun c => c.retry r.watch) s2.cmds }
  have h2 : s2.parts = s1.parts ∧ s2.cmds = s1.cmds :=
    foldl_keeps (fun v : State => v.parts = s1.parts ∧ v.cmds = s1.cmds) (fun u a => u.modAgent a Agent.retry) r.agents (fun v a _ hv => hv) s1 ⟨rfl, rfl⟩
  obtain ⟨hparts, hcmds⟩ := h2
  refine ⟨u, ?_, fun q hq => ?_, fun a x ha hx hi => ⟨x.retry, ?_, ?_⟩, fun n c hn hc => ⟨c.retry r.watch, ?_, rfl, rfl, fun h => ?_⟩⟩
  · rw [exec_faultQueueRetry]
    unfold execFaultQueueRetry
    rw [State.vf_live hl]
    unfold State.answer
    rw [hr]
    rfl
  · have hp : u.partition part = s1.partition part := State.partition_congr (t := u) hparts part
    rw [hp, State.partition_modPart, if_pos rfl] at hq
    simpa using (List.mem_filter.mp hq).2
  · show s2.agent a = _
    rw [State.agent_retries, if_pos ha, show s1.agent a = s.agent a from rfl, hx]
    rfl
  · unfold Agent.retry
    rw [if_pos hi]
    exact ⟨rfl, rfl, rfl, rfl, rfl⟩
  · show Tbl.find? (r.cmds.foldl _ s2.cmds) n = _
    rw [find?_retries, if_pos hn, hcmds, show s1.cmds = s.cmds from rfl, hc]
    rfl
  · unfold Cmd.retry
    rw [h]
    exact Bool.or_true _

theorem faultQueueRefuse_stops {a : AgentId} {x : Agent} {q : ParkedFault} (ha : r.agents = [a]) (hc : r.cmds = []) (hx : s.agent a = some x) (hi : x.issue = .replay)
    (hq : x.replay = some q) (hk : x.kind ≠ .privileged) : ∃ u, exec (.faultQueueRefuse part idx) s = .next u ∧
      ∀ y, u.agent a = some y → y.stoppedAs 0x07 .beat ∧ y.lanes = x.lanes ∧ y.restart = x.restart := by
  let s1 := s.modPart part fun p => { p with replays := p.replays.filter fun q => q.idx != r.idx }
  let x1 : Agent := { x with issue := .beats, replay := none }
  let raise : Raise := { code := 0x07, how := .beat, lanes := q.lanes, addr := q.addr, write := q.write }
  refine ⟨(s1.setAgent a x1).takeFault a raise, ?_, ?_⟩
  · rw [exec_faultQueueRefuse]
    unfold execFaultQueueRefuse
    rw [State.vf_live hl]
    unfold State.answer
    rw [hr]
    dsimp only
    rw [if_neg nofun, ha, hc]
    show Host.Outcome.next (s1.refuseAgent a) = _
    unfold State.refuseAgent
    rw [show s1.agent a = some x from hx]
    dsimp only
    rw [hq]
    dsimp only
    rw [if_pos hi]
  · cases ht : s.team a.team with
    | none =>
      rw [State.agent, ht] at hx
      cases hx
    | some t =>
      obtain ⟨h⟩ := State.takeFault_hasOnly_own (State.team_setAgent_self (s := s1) x1 ht) (State.agent_setAgent_self (s := s1) (y := x1) hx) (r := raise) hk (show (0x07 : Byte) ≠ 0x18 by decide)
      refine fun y hy => ?_
      obtain rfl := h y hy
      exact ⟨⟨rfl, _, rfl, rfl, rfl⟩, rfl, rfl⟩

end

/-! ### A new FQRD -/

/-- Bytes that stand in memory one after the other are what a read gives. -/
theorem State.read_of_byteAt {s : State} {loc : Nat} {bs : List Byte} (h : ∀ k, k < bs.length → s.byteAt (loc + k) = bs.getD k 0) : s.read loc bs.length = bs := by
  refine List.ext_getElem (Tbl.length_getMany ..) fun k h1 h2 => ?_
  have hg := Tbl.getD_getMany (0 : Byte) s.mem loc bs.length k h2
  have hd := List.getD_eq_getElem (Tbl.getMany 0 s.mem loc bs.length) 0 h1
  exact hd.symm.trans (hg.trans ((h k h2).trans (List.getD_eq_getElem _ _ h2)))

theorem State.spillByte_none {s : State} (h : ∀ m ∈ s.mons, m.spill = none) (l : Nat) : s.spillByte l = false := by
  rw [Bool.eq_false_iff]
  intro hs
  obtain ⟨m, hm, i, hi, -⟩ := State.spillByte_iff.mp hs
  rw [h m hm] at hi
  cases hi

theorem State.fqWrite_partition (s : State) (part : Nat) (h : HeldRecord) (size : Nat) : (s.fqWrite part h size).partition part =
    { s.partition part with
      fqWr := (s.partition part).fqWr + 1,
      replays := match h.replay with
        | none => (s.partition part).replays
        | some r => { r with idx := (s.partition part).fqWr.toNat } :: (s.partition part).replays } := by
  unfold State.fqWrite
  extract_lets p s1 s2 s3
  have h3 : s3.parts = s2.parts := by
    unfold s3
    split <;> rfl
  have h1 : s1.partition part = s.partition part := State.partition_congr (s.writeAt_parts ..) part
  calc s3.dmcEvent.partition part = s2.partition part := State.partition_congr (s := s2) (t := s3.dmcEvent) h3 part
    _ = _ := by
      rw [State.partition_modPart, if_pos rfl, h1] <;> cases h.replay <;> rfl

theorem State.fqFlush_one {s : State} {part size : Nat} {h : HeldRecord} (hh : (s.partition part).heldRecords = [h]) (hs : (s.partition part).fqSize = some size)
    (hroom : ((s.partition part).fqWr - (s.partition part).fqRd).toNat < size) :
    s.fqFlush part 1 = (s.modPart part fun q => { q with heldRecords := [] }).fqWrite part h size := by
  unfold State.fqFlush
  dsimp only
  rw [hh, hs]
  dsimp only
  rw [if_pos hroom]
  rfl

theorem State.fqWrite_read {s : State} (part : Nat) (h : HeldRecord) (size : Nat) (hm : ∀ m ∈ s.mons, m.spill = none) :
    (s.fqWrite part h size).read (locOf 0 ((s.partition part).fqBase.toNat + 32 * ((s.partition part).fqWr.toNat % size))) h.bytes.length = h.bytes := by
  refine State.read_of_byteAt fun k hk => ?_
  let place := physPlace ((s.partition part).fqBase.toNat + 32 * ((s.partition part).fqWr.toNat % size))
  have hw := (s.writeWith_bytes place h.bytes none 0).2 (place.loc + k) (State.spillByte_none hm _)
  rw [if_pos (by omega), Nat.add_sub_cancel_left] at hw
  rw [← hw]
  refine State.byteAt_congr ?_ _
  unfold State.fqWrite
  extract_lets p s1 s2 s3
  have h3 : s3.mem = s1.mem := by
    unfold s3
    split <;> rfl
  exact h3

section
variable {s : State} {part : Nat} (w : W64) (hl : (s.partition part).live = true)

/-- The state with a new FQRD, before records enter. -/
def State.fqrdSet (s : State) (part : Nat) (w : W64) : State :=
  let s1 := s.modPart part fun p => { p with fqRd := w }
  if (s.partition part).fqWr = (s.partition part).fqRd ∧ w ≠ (s.partition part).fqWr then s1.fire (part + 1) 0 else s1

theorem State.fqrdSet_partition (s : State) : (s.fqrdSet part w).partition part = { s.partition part with fqRd := w } := by
  have h1 : (s.modPart part fun p => { p with fqRd := w }).partition part = { s.partition part with fqRd := w } := by
    rw [State.partition_modPart, if_pos rfl]
  unfold State.fqrdSet
  dsimp only
  split <;> exact h1

theorem State.fqrdSet_mons (s : State) : (s.fqrdSet part w).mons = s.mons := by
  unfold State.fqrdSet
  dsimp only
  split <;> rfl

include hl

theorem exec_fqrdWrite_live : exec (.fqrdWrite part w) s = .next ((s.fqrdSet part w).fqFlush part (s.partition part).heldRecords.length) := by
  rw [exec_fqrdWrite]
  unfold execFqrdWrite
  rw [State.vf_live hl]
  rfl

theorem fqrdWrite_one {h : HeldRecord} {size : Nat} (hh : (s.partition part).heldRecords = [h]) (hs : (s.partition part).fqSize = some size)
    (hroom : ((s.partition part).fqWr - w).toNat < size) (hlen : h.bytes.length = 32) (hm : ∀ m ∈ s.mons, m.spill = none) :
    ∃ u, exec (.fqrdWrite part w) s = .next u ∧ (u.partition part).fqRd = w ∧ (u.partition part).fqWr = (s.partition part).fqWr + 1 ∧
      (u.partition part).heldRecords = [] ∧
      u.read (locOf 0 ((s.partition part).fqBase.toNat + 32 * ((s.partition part).fqWr.toNat % size))) 32 = h.bytes := by
  let s1 := (s.fqrdSet part w).modPart part fun q => { q with heldRecords := [] }
  have hp1 : s1.partition part = { s.partition part with fqRd := w, heldRecords := [] } := by
    rw [State.partition_modPart, if_pos rfl, State.fqrdSet_partition]
  have hp2 := s1.fqWrite_partition part h size
  rw [hp1] at hp2
  have hread := State.fqWrite_read (s := s1) part h size (fun m hmem => hm m ((State.fqrdSet_mons w s) ▸ hmem))
  rw [hp1, hlen] at hread
  refine ⟨s1.fqWrite part h size, ?_, by rw [hp2], by rw [hp2], by rw [hp2], hread⟩
  rw [exec_fqrdWrite_live w hl, hh, List.length_singleton]
  refine congrArg Host.Outcome.next (State.fqFlush_one ?_ ?_ ?_)
  · rw [State.fqrdSet_partition, ← hh]
  · rw [State.fqrdSet_partition, ← hs]
    rfl
  · rw [State.fqrdSet_partition]
    exact hroom

end

/-- Settles O50: what the end of a context takes away, and the agents, commands and records that an answer lets go on. -/
theorem faultQueueAnswers : Obligations.FaultQueueAnswers := by
  refine ⟨fun s part asid c hr hc => ?_, fun s part idx r hl hr => ⟨faultQueueRetry_goes_on hl hr, fun a x q ha hcs hx hi hq hk =>
    faultQueueRefuse_stops hl hr ha hcs hx hi hq hk⟩, fun s part w hl => ⟨fun hh => ?_, fun h size hh hs hroom hlen hm => fqrdWrite_one w hl hh hs hroom hlen hm⟩⟩
  · let r := s.endRec part asid
    obtain ⟨hcmds, hmons⟩ := State.endContext_gone { s with fresh := s.fresh + 2 } part asid r.encode
    refine ⟨_, exec_contextEnd hc, fun n t ht hp ha hend => ?_, fun n t ht hne hp => State.endContext_team_other { s with fresh := s.fresh + 2 } part asid _ hr ht hne hp,
      fun n k hk => hcmds _ (Tbl.mem_of_find? hk), hmons⟩
    obtain ⟨v, hv, hvend, hva⟩ := State.team_endContext_self (s := { s with fresh := s.fresh + 2 }) ht hend r.encode
    rw [hp, ha] at hv
    exact ⟨v, hv, hvend, hva, fun k hk => State.endContext_zero { s with fresh := s.fresh + 2 } part asid _ ht hp ha hend r.length_encode hk⟩
  · refine ⟨s.fqrdSet part w, ?_, ?_, ?_⟩
    · rw [exec_fqrdWrite_live w hl, hh]
      rfl
    · rw [State.fqrdSet_partition]
    · rw [State.fqrdSet_partition]

end Sys2Proof.Machine
end

section
/-! O41: CSRR and CSRW (R204, R267, R297, R305, R306, R347). -/

namespace Sys2Proof.Machine

/-! ### The end of a beat that stores nothing -/

/-- The state without the teams and the counts of beats. -/
def State.teamless (s : State) : State := { s.uncounted with teams := [] }

theorem State.modAgent_teamless (s : State) (a : AgentId) (f : Agent → Agent) : (s.modAgent a f).teamless = s.teamless := rfl
theorem State.setAgent_teamless (s : State) (a : AgentId) (x : Agent) : (s.setAgent a x).teamless = s.teamless := rfl
theorem State.begun_teamless (s : State) (b : Beat) : (s.begun b).teamless = s.teamless := rfl
theorem State.waited_teamless (s : State) (a : AgentId) : (s.waited a).teamless = s.teamless := rfl

/-- The census of an agent that runs on stores no frame word below depth 16, or of a thread. -/
theorem State.census_teamless {s : State} {a : AgentId} {x : Agent} (hx : s.agent a = some x) (hr : x.runLanes ≠ [])
    (hq : x.f.toNat < 16 ∨ x.kind ≠ .group) (frm : Nat) : (s.census a frm).teamless = s.teamless := by
  unfold State.census
  split
  next t y _ hy =>
    obtain rfl := Option.some.inj (hy.symm.trans hx)
    split
    next h => exact absurd h hr
    next =>
      extract_lets f gf s1 from' x1 ws
      split
      · have h1 : s1.teamless = s.teamless := by
          unfold s1 setFrame
          extract_lets out y
          have hout : out = false := by
            unfold out
            rcases hq with h | h
            · rw [decide_eq_false (by omega)]
              rfl
            · rw [decide_eq_false h, Bool.and_false]
              rfl
          rw [if_neg (by rw [hout]; nofun)]
          rfl
        exact h1
      · split <;> rfl
  next => rfl

/-- The end of a beat of an agent that runs on, where no barrier releases and no frame word is stored: teams and counts apart, the state is what the body leaves. -/
theorem State.conclude_done_quiet {s u : State} {b : Beat} {z : Agent} (hz : u.agent b.a = some z)
    (hi : z.issue = .beats) (hr : z.runLanes ≠ []) (hu : u.Unreleased b.a.team) (hq : z.f.toNat < 16 ∨ z.kind ≠ .group) (whole : Bool) :
    (s.conclude b whole (.done u)).teamless = u.teamless := by
  obtain ⟨v, n, hv, he⟩ := u.countBeat_uncounted b whole
  have hvt : v.teams = u.teams := (congrArg State.teams hv : v.uncounted.teams = u.uncounted.teams)
  have hvq : v.teamless = u.teamless := by
    unfold State.teamless
    rw [hv]
  show (u.afterBeat b whole).teamless = _
  unfold State.afterBeat
  rw [he]
  let f1 : Agent → Agent := fun x => { x with lastBeat := n, active := x.active || (x.isGroup && decide (x.issue = .beats)) }
  unfold State.passBeat
  split
  · exact hvq
  · let f2 : Agent → Agent := fun x => { x with restart := 0, block := none }
    let w := (v.modAgent b.a f1).modAgent b.a f2
    have hagent : w.agent b.a = some (f2 (f1 z)) := by
      rw [State.agent_modAgent_same, State.agent_modAgent_same, State.agent_congr hvt, hz]
      rfl
    have hrun : w.RunsOn b.a (f2 (f1 z)) := ⟨_, hagent, rfl, .inl hi⟩
    have hun : w.Unreleased b.a.team := ((hu.congr hvt).modAgent (f := f1) fun _ h => h).modAgent (f := f2) fun _ h => h
    have hnext : w.nextIndex b.a = w.census b.a ((f2 (f1 z)).p.toNat + 1) := by
      unfold State.nextIndex
      simp only [hagent]
      exact State.settle_unreleased (State.unreleased_census hun hrun hr _) (State.census_runsOn hrun hr _)
    show (w.nextIndex b.a).teamless = _
    rw [hnext]
    exact (State.census_teamless hagent hr hq _).trans hvq

/-- A due beat whose body leaves its agent at its beats, where nothing is stored at the end: the agent as the body leaves it but for what the sweep
changes, the other agents and teams, and all else, as the body leaves them. -/
theorem Due.quiet {i : Instr} {f : Fields} {s u : State} {b : Beat} (h : Due i f s b) (hn : noSpill b) {body : Beat → State → Out} {z : Agent} {t : Team}
    (hb : body b (s.begun b) = .done u) (ht : u.team b.a.team = some t) (hz : u.agent b.a = some z) (hlanes : z.lanes = b.begunAgent.lanes)
    (hi : z.issue = .beats) (hf : z.f = b.x.f) (hk : z.kind = b.x.kind) (hbar : t.barReady = false) (hfl : u.flaws = []) :
    ∃ v y, issueBeat i f s body = .next v ∧ v.agent b.a = some y ∧ y.core = z.core ∧ (wantsAfter b y fun _ => b.x.p + 1) ∧ v.teamless = u.teamless ∧
      u.Fixed b.a v := by
  obtain ⟨hq, -, hal⟩ := hn
  have hr : z.runLanes ≠ [] := by
    have hrun : z.runLanes = b.begunAgent.runLanes := by
      unfold Agent.runLanes Agent.laneNos Agent.lane
      rw [hlanes]
    rw [hrun]
    exact b.begun_alive hal
  have hu : u.Unreleased b.a.team := fun v hv => by
    obtain rfl := Option.some.inj (hv.symm.trans ht)
    exact hbar
  have hq' : z.f.toNat < 16 ∨ z.kind ≠ .group := by rw [hf, hk]; exact hq
  obtain ⟨y, hy, hcore, -⟩ := State.conclude_done_runsOn (s := s.waited b.a) hfl hz hi hr (shapeOf i f).whole
  refine ⟨_, y, by rw [issueBeat_due h, hb], hy, hcore, b.wantsAfter_next ?_, State.conclude_done_quiet hz hi hr hu hq' _,
    (State.conclude_done_ends ht hz hi hr hu _).fixed⟩
  exact (congrArg Agent.lanes hcore : y.core.lanes = z.core.lanes).trans hlanes

/-! ### CSRR -/

theorem exec_csrr (f : Fields) (s : State) : exec (.csrr f) s = execCsrr f s := rfl
theorem exec_csrw (f : Fields) (s : State) : exec (.csrw f) s = execCsrw f s := rfl

theorem Due.begun_team {i : Instr} {f : Fields} {s : State} {b : Beat} (h : Due i f s b) : ∃ t, (s.begun b).team b.a.team = some t ∧ t.bare = b.t.bare :=
  (s.begun_fixed b).team h.team

/-- No barrier of the issuing agent's team is ready once the beat has begun. -/
theorem Due.begun_unreleased {i : Instr} {f : Fields} {s : State} {b : Beat} (h : Due i f s b) (hbar : b.t.barReady = false) : (s.begun b).Unreleased b.a.team := by
  have hun : s.Unreleased b.a.team := fun u hu => by rw [Option.some.inj (hu.symm.trans h.team)]; exact hbar
  have hwait : (s.waited b.a).Unreleased b.a.team := hun.modAgent (f := fun y => { y with arr := { y.arr with wk := 0 } }) fun _ e => e
  exact hwait.modAgent fun x e => by rw [Agent.advance_eq] at e; exact e

theorem Due.csrReads {f : Fields} {s : State} {b : Beat} (h : Due (.csrr f) f s b) (hp : b.perf ≠ 0) (hn : noSpill b) :
    ∃ t y, exec (.csrr f) s = .next t ∧ t.agent b.a = some y ∧ y.holds 64 0 f.d (s.csr b.x f.imm.toNat) ∧ (wantsAfter b y fun _ => b.x.p + 1) ∧
      t.parts = s.parts ∧ t.mem = s.mem := by
  let w := s.csr b.x f.imm.toNat
  let g : Agent → Agent := fun x => x.writeAll (laneWrites 64 [0] (fun _ => w) f.d)
  let u := (s.begun b).modAgent b.a g
  let body : Beat → State → Out := fun b s1 => if b.perf = 0 then .done s1 else .done (resultTo b (s.csr b.x f.imm.toNat) s1)
  have hb : body b (s.begun b) = .done u := by
    show (if b.perf = 0 then _ else _) = _
    rw [if_neg hp, resultTo, h.f_eq]
    simp only [u, g, w, laneWrites, List.flatMap_cons, List.flatMap_nil, List.append_nil]
  have hout : (g b.begunAgent).outline = b.begunAgent.outline := Agent.writeAll_outline ..
  obtain ⟨t, ht, -⟩ := h.begun_team
  have htm : u.team b.a.team = some { t with agents := Tbl.modify t.agents b.a.who g } := by
    show ((s.begun b).modAgent b.a g).team b.a.team = _
    rw [State.team_modAgent, if_pos rfl, ht]
    rfl
  have hun : u.Unreleased b.a.team := (h.begun_unreleased hn.2.1).modAgent fun x e => by
    have ho : (g x).issue = x.issue := (congrArg Agent.issue (Agent.writeAll_outline x (laneWrites 64 [0] (fun _ => w) f.d)) : (g x).outline.issue = _)
    rw [← ho]
    exact e
  obtain ⟨v, y, hnext, hy, hcore, hwants, hq, -⟩ := h.quiet hn hb htm (h.begun_modAgent g) (congrArg Agent.lanes hout : (g b.begunAgent).outline.lanes = _)
    ((congrArg Agent.issue hout : (g b.begunAgent).outline.issue = _).trans h.begun_issue) ((congrArg Agent.f hout : (g b.begunAgent).outline.f = _).trans b.begunAgent_f)
    ((congrArg Agent.kind hout : (g b.begunAgent).outline.kind = _).trans b.begunAgent_kind) (hun _ htm) h.clean
  have hpair : ∀ n, f.d = .v n → 64 = 64 → n.toNat % 2 = 0 := fun n hd _ => by
    obtain ⟨-, hok⟩ := h.dest_ok (opc := 0xE1) rfl
    rw [← Option.some.inj h.row_eq, hd] at hok
    exact Bool.noConfusion hok
  have hregs : y.regs = (g b.begunAgent).regs := (congrArg Agent.regs hcore).trans rfl
  have hqs : v.teamless = s.teamless := hq.trans (((s.begun b).modAgent_teamless b.a g).trans (s.begun_teamless b))
  refine ⟨v, y, ?_, hy, holds_of_laneWrites (laneWrites_agree hpair fun _ _ _ _ _ _ => rfl) hregs (List.mem_singleton_self 0) (by decide),
    hwants, (congrArg State.parts hqs : v.teamless.parts = s.teamless.parts), (congrArg State.mem hqs : v.teamless.mem = s.teamless.mem)⟩
  rw [exec_csrr, execCsrr]
  exact hnext

/-! ### CSRW -/

theorem State.dropMons_parts (s : State) (gone : Mon → Bool) : (s.dropMons gone).parts = s.parts := State.parts_of_still (State.dropMons_still ..)
theorem State.dropMons_cmds (s : State) (gone : Mon → Bool) : (s.dropMons gone).cmds = s.cmds :=
  (congrArg State.cmds (s.dropMons_still gone) : (s.dropMons gone).still.cmds = s.still.cmds)
theorem State.dropMons_wakes (s : State) (gone : Mon → Bool) : (s.dropMons gone).wakes = s.wakes := by
  unfold State.dropMons
  extract_lets out kept s1
  have h1 : s1.wakes = s.wakes := by
    refine foldl_keeps (fun u : State => u.wakes = s.wakes) _ out (fun u m _ hu => ?_) s rfl
    split
    · exact (State.poke_wakes ..).trans hu
    · exact hu
  exact h1

theorem State.clear_rest (s : State) (l k m n : Nat) : ((s.clear l m).clear k n).parts = s.parts ∧ ((s.clear l m).clear k n).flaws = s.flaws := by
  simp only [State.clear_parts, State.clear_flaws, and_self]

/-- The clearing of the buffers of a list of teams. -/
def State.clearBuffers (m n : Nat) (s : State) (e : Nat × Team) : State := (s.clear (spLoc e.1 0) m).clear (obLoc e.1 0) n

theorem foldl_clear_rest (m n : Nat) (l : Tbl Team) (s : State) :
    (l.foldl (State.clearBuffers m n) s).parts = s.parts ∧ (l.foldl (State.clearBuffers m n) s).flaws = s.flaws :=
  foldl_keeps (fun u : State => u.parts = s.parts ∧ u.flaws = s.flaws) (State.clearBuffers m n) l (fun u e _ hu =>
    ⟨(u.clear_rest (spLoc e.1 0) (obLoc e.1 0) m n).1.trans hu.1, (u.clear_rest (spLoc e.1 0) (obLoc e.1 0) m n).2.trans hu.2⟩) s ⟨rfl, rfl⟩

/-- Contexts that are dropped leave the partitions, and nothing of theirs among commands, monitor entries and wakes (R267, R291). -/
theorem State.dropContexts_rest (s : State) (mine : Nat → Nat → Bool) : (s.dropContexts mine).parts = s.parts ∧ s.Clean (s.dropContexts mine) ∧
    (∀ e ∈ (s.dropContexts mine).cmds, mine e.2.part e.2.asid = false) ∧ (∀ m ∈ (s.dropContexts mine).mons, mine m.part m.asid = false) ∧
    ∀ e ∈ (s.dropContexts mine).wakes, mine e.2.mon.part e.2.mon.asid = false := by
  unfold State.dropContexts
  extract_lets out s1 dead s2
  have h1 : s1.parts = s.parts ∧ s1.flaws = s.flaws := foldl_clear_rest ..
  have hkeep : ∀ {b : Bool}, (!b) = true → b = false := fun h => by simpa using h
  refine ⟨(State.dropMons_parts s2 _).trans h1.1, fun hf => (State.dropMons_teams s2 _).2 (h1.2.trans hf), fun e he => ?_, fun m hm => ?_, fun e he => ?_⟩
  · rw [State.dropMons_cmds] at he
    exact hkeep (List.mem_filter.mp (show e ∈ s1.cmds.filter _ from he)).2
  · exact hkeep (List.mem_filter.mp (show m ∈ s2.mons.filter _ from hm)).2
  · rw [State.dropMons_wakes] at he
    exact hkeep (List.mem_filter.mp (show e ∈ s1.wakes.filter _ from he)).2

/-- A partition that is written not live, when it was. -/
def State.csrResets (s : State) (part f : Nat) (w : W64) : Prop :=
  f = 0 ∧ (s.partition part).live = true ∧ (bit w 16 && bit s.bootStat 0) = false

/-- What a write of a field of a partition's record leaves. -/
structure State.CsrSet (s u : State) (part f : Nat) (w : W64) : Prop where
  teams : ∀ n t, s.team n = some t → (s.csrResets part f w → t.part ≠ part) → u.team n = some t
  clean : s.flaws = [] → u.flaws = []
  others : ∀ m, m ≠ part → u.partition m = s.partition m
  field : f ≠ 0 → (u.partition part).csr f = w
  pstate : f = 0 → (u.partition part).csr 0 = if (bit w 16 && bit s.bootStat 0) = true then w else w &&& 0xFFF#64
  rest : ∀ k, k ≤ 6 → k ≠ f → f ≤ 6 → (u.partition part).csr k = (s.partition part).csr k
  mem : ¬ s.csrResets part f w → u.mem = s.mem
  cmds : s.csrResets part f w → ∀ e ∈ u.cmds, e.2.part ≠ part
  mons : s.csrResets part f w → ∀ m ∈ u.mons, m.part ≠ part
  wakes : s.csrResets part f w → ∀ e ∈ u.wakes, e.2.mon.part ≠ part
  ended : s.csrResets part f w → ∀ n t, s.team n = some t → t.part = part → ∃ v, u.team n = some v ∧ v.isEnded = true

/-- A field other than PSTATE. -/
theorem State.csrSet_field (s : State) (part f : Nat) (w : W64) (g : Part → Part) (hf : f ≠ 0) (hw : ∀ p, (g p).csr f = w)
    (hg : f ≤ 6 → ∀ p k, k ≤ 6 → (g p).csr k = if k = f then w else p.csr k) : s.CsrSet (s.modPart part g) part f w where
  teams _ _ ht _ := ht
  clean := id
  others m hm := by rw [State.partition_modPart, if_neg hm]
  field _ := by rw [State.partition_modPart, if_pos rfl, hw]
  pstate h := absurd h hf
  rest k hk hkf hf6 := by rw [State.partition_modPart, if_pos rfl, hg hf6 _ k hk, if_neg hkf]
  mem _ := rfl
  cmds h := absurd h.1 hf
  mons h := absurd h.1 hf
  wakes h := absurd h.1 hf
  ended h := absurd h.1 hf

/-- A digest that extends a measurement register changes the dies alone. -/
theorem foldl_extend (l : List Nat) (h : List Byte) (s : State) : ∃ d, l.foldl (fun u d => u.extend d 1 h) s = { s with dies := d } :=
  foldl_keeps (fun u : State => ∃ d, u = { s with dies := d }) (fun u d => u.extend d 1 h) l (fun u e _ hu => by
    obtain ⟨d, rfl⟩ := hu
    exact ⟨_, rfl⟩) s ⟨s.dies, rfl⟩

theorem State.csrSet_dies {s u : State} {part f : Nat} {w : W64} (h : s.CsrSet u part f w) (d : Tbl Die) : s.CsrSet { u with dies := d } part f w :=
  ⟨h.teams, h.clean, h.others, h.field, h.pstate, h.rest, h.mem, h.cmds, h.mons, h.wakes, h.ended⟩

theorem State.scrub_teams (s : State) (part : Nat) : (s.scrub part).teams = s.teams ∧ (s.scrub part).parts = s.parts ∧ (s.flaws = [] → (s.scrub part).flaws = []) := by
  unfold State.scrub
  exact ⟨rfl, rfl, fun h => by dsimp only; rw [h]; rfl⟩

/-- PSTATE is written; a partition that was live and is so no more is reset. -/
theorem State.csrSet_pstate (s : State) (part : Nat) (w : W64) : s.CsrSet (s.setPstate part w) part 0 w := by
  unfold State.setPstate
  extract_lets live was s0 s1
  have hres : s.csrResets part 0 w ↔ (was && !live) = true := by
    unfold State.csrResets
    rw [Bool.and_eq_true, Bool.not_eq_true']
    exact ⟨fun h => h.2, fun h => ⟨rfl, h⟩⟩
  have hcsr : ∀ (p : Part) (v : W64) (k : Nat), k ≤ 6 → k ≠ 0 → ({ p with pstate := v } : Part).csr k = p.csr k := fun p v k hk h0 => by
    unfold Part.csr
    match k with
    | 0 => exact absurd rfl h0
    | 1 | 2 | 3 | 4 | 5 | 6 => rfl
    | k + 7 => omega
  have hset : s.CsrSet s1 part 0 w := by
    by_cases h : (was && !live) = true
    · have hs0 : s0 = s.resetPart part := if_pos h
      obtain ⟨hteams, hparts, hflaws⟩ := s.scrub_teams part
      obtain ⟨hdp, hdc, hcmds, hmons, hwakes⟩ := (s.scrub part).dropContexts_rest fun p _ => p == part
      have hteam : ∀ n, s1.team n = (s.team n).map fun t => if (t.part == part && !t.isEnded) = true then t.stopped else t := fun n => by
        have hn : s1.team n = ((s.scrub part).dropContexts fun p _ => p == part).team n := by
          unfold s1
          rw [hs0]
          rfl
        rw [hn, State.team_dropContexts, State.team, hteams]
        rfl
      have hpart : ∀ m, s1.partition m = if m = part then
          { s.partition part with queues := (s.partition part).queues.map (fun e => (e.1, e.2.halted)), replays := [], heldRecords := [],
                                  pstate := if live = true then w else w &&& 0xFFF#64 } else s.partition m := fun m => by
        have hd : ∀ n, ((s.scrub part).dropContexts fun p _ => p == part).partition n = s.partition n := State.partition_congr (hdp.trans hparts)
        unfold s1
        rw [State.partition_modPart, hs0, State.resetPart, State.partition_modPart, State.partition_modPart, if_pos rfl, hd, hd]
        split <;> rfl
      exact
        { teams := fun n t ht hne => by
            rw [hteam, ht, Option.map_some, if_neg (by simp [hne (hres.mpr h)])]
          clean := fun hf => by
            have := hdc (hflaws hf)
            unfold s1
            rw [hs0]
            exact this
          others := fun m hm => by rw [hpart, if_neg hm]
          field := fun h0 => absurd rfl h0
          pstate := fun _ => by rw [hpart, if_pos rfl]; rfl
          rest := fun k hk h0 _ => by rw [hpart, if_pos rfl]; exact (hcsr { s.partition part with queues := _, replays := [], heldRecords := [] } _ k hk h0).trans rfl
          mem := fun hn => absurd (hres.mpr h) hn
          cmds := fun _ e he => by
            have hc : s1.cmds = ((s.scrub part).dropContexts fun p _ => p == part).cmds := by unfold s1; rw [hs0]; rfl
            exact ne_of_beq_false (hcmds e (hc ▸ he))
          mons := fun _ m hm => by
            have hc : s1.mons = ((s.scrub part).dropContexts fun p _ => p == part).mons := by unfold s1; rw [hs0]; rfl
            exact ne_of_beq_false (hmons m (hc ▸ hm))
          wakes := fun _ e he => by
            have hc : s1.wakes = ((s.scrub part).dropContexts fun p _ => p == part).wakes := by unfold s1; rw [hs0]; rfl
            exact ne_of_beq_false (hwakes e (hc ▸ he))
          ended := fun _ n t ht hp => by
            rw [hteam, ht]
            cases he : t.isEnded with
            | true => exact ⟨t, by simp [he], he⟩
            | false => exact ⟨t.stopped, by simp [he, hp], rfl⟩ }
    · have hs0 : s0 = s := if_neg h
      have hpart : ∀ m, s1.partition m = if m = part then { s.partition part with pstate := if live = true then w else w &&& 0xFFF#64 } else s.partition m :=
        fun m => by
          unfold s1
          rw [State.partition_modPart, hs0]
      have hno : ¬ s.csrResets part 0 w := fun hr => h (hres.mp hr)
      exact
        { teams := fun n t ht _ => by
            have hn : s1.team n = s.team n := by unfold s1; rw [hs0]; rfl
            rw [hn, ht]
          clean := fun hf => by
            unfold s1
            rw [hs0]
            exact hf
          others := fun m hm => by rw [hpart, if_neg hm]
          field := fun h0 => absurd rfl h0
          pstate := fun _ => by rw [hpart, if_pos rfl]; rfl
          rest := fun k hk h0 _ => by rw [hpart, if_pos rfl]; exact hcsr _ _ k hk h0
          mem := fun _ => by
            unfold s1
            rw [hs0]
            rfl
          cmds := fun hr => absurd hr hno
          mons := fun hr => absurd hr hno
          wakes := fun hr => absurd hr hno
          ended := fun hr => absurd hr hno }
  clear_value s1
  split
  · obtain ⟨d, hd⟩ := foldl_extend (s1.partition part).dies (shake256 (s1.partition part).config) s1
    rw [hd]
    exact State.csrSet_dies hset d
  · exact hset

/-- A write of a partition's field by a privileged thread (R306). -/
theorem State.csrSet_setPartCsr (s : State) (part f : Nat) (w : W64) : s.CsrSet (s.setPartCsr part f w) part f w := by
  match f with
  | 0 => exact s.csrSet_pstate part w
  | 1 => exact s.csrSet_field part 1 w (fun p => { p with ctxBase := w }) (by decide) (fun _ => rfl) fun _ p k hk => by interval_cases k <;> rfl
  | 2 => exact s.csrSet_field part 2 w (fun p => { p with htBase := w }) (by decide) (fun _ => rfl) fun _ p k hk => by interval_cases k <;> rfl
  | 3 => exact s.csrSet_field part 3 w (fun p => { p with htLen := w }) (by decide) (fun _ => rfl) fun _ p k hk => by interval_cases k <;> rfl
  | 4 => exact s.csrSet_field part 4 w (fun p => { p with spBase := w }) (by decide) (fun _ => rfl) fun _ p k hk => by interval_cases k <;> rfl
  | 5 => exact s.csrSet_field part 5 w (fun p => { p with spillB := w }) (by decide) (fun _ => rfl) fun _ p k hk => by interval_cases k <;> rfl
  | 6 => exact s.csrSet_field part 6 w (fun p => { p with goose := w }) (by decide) (fun _ => rfl) fun _ p k hk => by interval_cases k <;> rfl
  | f + 7 => exact s.csrSet_field part (f + 7) w (fun p => { p with goose := w }) (by omega) (fun _ => rfl) fun h => absurd h (by omega)

theorem Due.csrWrites {f : Fields} {s u : State} {b : Beat} {z : Agent} (h : Due (.csrw f) f s b) (hp : b.perf ≠ 0) (hn : noSpill b)
    (ht : csrTakes f.imm.toNat (regOrZero b.x f.a) = true) (hu : (s.begun b).setCsr b.a f.imm.toNat (regOrZero b.x f.a) = u)
    {t : Team} (hteam : u.team b.a.team = some t) (hz : u.agent b.a = some z) (hbar : t.barReady = false) (hfl : u.flaws = [])
    (hout : ∃ e g, z = { b.begunAgent with pepc := e, phnd := g }) :
    ∃ v y, exec (.csrw f) s = .next v ∧ v.agent b.a = some y ∧ y.core = z.core ∧ (wantsAfter b y fun _ => b.x.p + 1) ∧ v.teamless = u.teamless ∧
      u.Fixed b.a v := by
  obtain ⟨e, g, rfl⟩ := hout
  let body : Beat → State → Out := fun b s1 =>
    let w := regOrZero b.x f.a
    if b.perf = 0 then .done s1 else if csrTakes f.imm.toNat w then .done (s1.setCsr b.a f.imm.toNat w) else issueFault b 0x01
  have hb : body b (s.begun b) = .done u := by
    simp only [body, hp, ht, hu, if_true, if_false]
  exact h.quiet hn hb hteam hz rfl h.begun_issue b.begunAgent_f b.begunAgent_kind hbar hfl

/-- A write of PEPC or PHND: the agent's record changes so, and nothing else. -/
theorem Due.csrWrites_own {f : Fields} {s : State} {b : Beat} (h : Due (.csrw f) f s b) (hp : b.perf ≠ 0) (hn : noSpill b)
    (ht : csrTakes f.imm.toNat (regOrZero b.x f.a) = true) {g : Agent → Agent} {e q : BitVec 28}
    (hu : (s.begun b).setCsr b.a f.imm.toNat (regOrZero b.x f.a) = (s.begun b).modAgent b.a g)
    (hz : g b.begunAgent = { b.begunAgent with pepc := e, phnd := q }) (hg : ∀ x, (g x).issue = x.issue) :
    ∃ v y, exec (.csrw f) s = .next v ∧ v.agent b.a = some y ∧ y.core = ({ b.begunAgent with pepc := e, phnd := q } : Agent).core ∧
      (wantsAfter b y fun _ => b.x.p + 1) ∧ v.teamless = s.teamless := by
  obtain ⟨t, hteam, -⟩ := h.begun_team
  have htm : ((s.begun b).modAgent b.a g).team b.a.team = some { t with agents := Tbl.modify t.agents b.a.who g } := by
    rw [State.team_modAgent, if_pos rfl, hteam]
    rfl
  have hbar := ((h.begun_unreleased hn.2.1).modAgent (f := g) fun x hx => (hg x).symm.trans hx) _ htm
  obtain ⟨v, y, hnext, hy, hcore, hwants, hq, -⟩ := h.csrWrites hp hn ht hu htm ((h.begun_modAgent g).trans (congrArg some hz)) hbar h.clean ⟨e, q, rfl⟩
  exact ⟨v, y, hnext, hy, hcore, hwants, hq.trans (((s.begun b).modAgent_teamless b.a g).trans (s.begun_teamless b))⟩

/-- What the core of the writing agent says of its own registers. -/
theorem Beat.csr_fields {b : Beat} {y : Agent} {e q : BitVec 28} (h : y.core = ({ b.begunAgent with pepc := e, phnd := q } : Agent).core) :
    y.regs = b.x.regs ∧ y.pepc = e ∧ y.phnd = q ∧ y.pcause = b.x.pcause ∧ y.paddr = b.x.paddr ∧ y.inh = b.x.inh :=
  ⟨(congrArg Agent.regs h : y.core.regs = _).trans b.begunAgent_regs, (congrArg Agent.pepc h : y.core.pepc = _), (congrArg Agent.phnd h : y.core.phnd = _),
    (congrArg Agent.pcause h : y.core.pcause = _).trans ((congrArg Agent.pcause b.begunAgent_eq).trans rfl),
    (congrArg Agent.paddr h : y.core.paddr = _).trans ((congrArg Agent.paddr b.begunAgent_eq).trans rfl),
    (congrArg Agent.inh h : y.core.inh = _).trans ((congrArg Agent.inh b.begunAgent_eq).trans rfl)⟩

theorem State.setCsr_part (s : State) (a : AgentId) {n : Nat} (h1 : n ≠ 1) (h3 : n ≠ 3) (w : W64) :
    s.setCsr a n w = s.setPartCsr ((n - 0x100) / 0x20) (n % 0x20) w := by
  unfold State.setCsr
  split
  · exact absurd rfl h1
  · exact absurd rfl h3
  · rfl

theorem State.csrSet_partition {s u v : State} {part f : Nat} {w : W64} (h : s.CsrSet u part f w) (hv : v.parts = u.parts) :
    (∀ m, m ≠ part → v.partition m = s.partition m) ∧ (f ≠ 0 → (v.partition part).csr f = w) ∧
      (f = 0 → (v.partition part).csr 0 = if (bit w 16 && bit s.bootStat 0) = true then w else w &&& 0xFFF#64) ∧
      ∀ k, k ≤ 6 → k ≠ f → f ≤ 6 → (v.partition part).csr k = (s.partition part).csr k := by
  have hpart : ∀ m, v.partition m = u.partition m := State.partition_congr hv
  simp only [hpart]
  exact ⟨h.others, h.field, h.pstate, h.rest⟩

/-- A write of another partition's field, or of one that does not reset its own partition. -/
theorem Due.csrWrites_part {f : Fields} {s : State} {b : Beat} (h : Due (.csrw f) f s b) (hp : b.perf ≠ 0) (hn : noSpill b)
    (ht : csrTakes f.imm.toNat (regOrZero b.x f.a) = true) {part k : Nat} {w : W64}
    (hu : (s.begun b).setCsr b.a f.imm.toNat (regOrZero b.x f.a) = (s.begun b).setPartCsr part k w)
    (hown : (s.begun b).csrResets part k w → b.t.part ≠ part) :
    ∃ v y, exec (.csrw f) s = .next v ∧ v.agent b.a = some y ∧ y.core = b.begunAgent.core ∧ (wantsAfter b y fun _ => b.x.p + 1) ∧
      v.teamless = ((s.begun b).setPartCsr part k w).teamless ∧ ((s.begun b).setPartCsr part k w).Fixed b.a v := by
  have hset := (s.begun b).csrSet_setPartCsr part k w
  generalize (s.begun b).setPartCsr part k w = u at hu hset ⊢
  obtain ⟨t, hteam, hbare⟩ := h.begun_team
  have hpart : t.part = b.t.part := (congrArg Team.part hbare : t.bare.part = b.t.bare.part)
  have htm : u.team b.a.team = some t := hset.teams _ _ hteam fun hr => hpart ▸ hown hr
  have hz : u.agent b.a = some b.begunAgent := by
    rw [← h.begun_agent, State.agent, State.agent, htm, hteam]
  exact h.csrWrites hp hn ht hu htm hz (h.begun_unreleased hn.2.1 _ hteam) (hset.clean h.clean) ⟨_, _, rfl⟩

/-- Settles O41: the one write of the form is laid out first, and the beat's end changes no more than the sweep. -/
theorem csrForms : Obligations.CsrForms := by
  unfold Obligations.CsrForms
  refine ⟨fun f s b h hp hn => h.csrReads hp hn, fun f s b h hp hn => ?_⟩
  intro n w part live resets ht hown
  have hmem : ∀ {v : State}, v.teamless = s.teamless → v.mem = s.mem := fun hv => (congrArg State.mem hv : _ = s.teamless.mem)
  have hparts : ∀ {v : State}, v.teamless = s.teamless → v.parts = s.parts := fun hv => (congrArg State.parts hv : _ = s.teamless.parts)
  have hpepc : b.begunAgent.pepc = b.x.pepc := (congrArg Agent.pepc b.begunAgent_eq).trans rfl
  have hphnd : b.begunAgent.phnd = b.x.phnd := (congrArg Agent.phnd b.begunAgent_eq).trans rfl
  by_cases h1 : n = 1
  · have hu : (s.begun b).setCsr b.a n w = (s.begun b).modAgent b.a fun x => { x with pepc := w.setWidth 28 } := by rw [h1]; rfl
    obtain ⟨v, y, hnext, hy, hcore, hwants, hq⟩ := h.csrWrites_own hp hn ht hu (e := w.setWidth 28) (q := b.begunAgent.phnd) rfl fun _ => rfl
    obtain ⟨hregs, he, hg, hcause, haddr, hinh⟩ := Beat.csr_fields hcore
    refine ⟨v, y, hnext, hy, hwants, hregs, fun _ => hmem hq, ?_, ?_, hcause, haddr, hinh, fun _ => hparts hq, fun hne => absurd h1 hne, fun hr => absurd h1 hr.1⟩
    · rw [he, if_pos h1]
    · rw [hg, if_neg (by omega), hphnd]
  by_cases h3 : n = 3
  · have hu : (s.begun b).setCsr b.a n w = (s.begun b).modAgent b.a fun x => { x with phnd := w.setWidth 28 } := by rw [h3]; rfl
    obtain ⟨v, y, hnext, hy, hcore, hwants, hq⟩ := h.csrWrites_own hp hn ht hu (e := b.begunAgent.pepc) (q := w.setWidth 28) rfl fun _ => rfl
    obtain ⟨hregs, he, hg, hcause, haddr, hinh⟩ := Beat.csr_fields hcore
    refine ⟨v, y, hnext, hy, hwants, hregs, fun _ => hmem hq, ?_, ?_, hcause, haddr, hinh, fun _ => hparts hq, fun _ hne => absurd h3 hne, fun hr => absurd h3 hr.2.1⟩
    · rw [he, if_neg h1, hpepc]
    · rw [hg, if_pos h3]
  have hu : (s.begun b).setCsr b.a n w = (s.begun b).setPartCsr part (n % 0x20) w := State.setCsr_part _ _ h1 h3 w
  have hres : (s.begun b).csrResets part (n % 0x20) w ↔ resets :=
    ⟨fun ⟨h0, hl, hw⟩ => ⟨h1, h3, h0, hl, hw⟩, fun ⟨_, _, h0, hl, hw⟩ => ⟨h0, hl, hw⟩⟩
  have hset := (s.begun b).csrSet_setPartCsr part (n % 0x20) w
  obtain ⟨v, y, hnext, hy, hcore, hwants, hq, hfix⟩ := h.csrWrites_part hp hn ht hu fun hr => hown (hres.mp hr)
  generalize (s.begun b).setPartCsr part (n % 0x20) w = u at hu hset hq hfix
  obtain ⟨hregs, he, hg, hcause, haddr, hinh⟩ := Beat.csr_fields (e := b.begunAgent.pepc) (q := b.begunAgent.phnd) hcore
  refine ⟨v, y, hnext, hy, hwants, hregs, fun hr => ?_, ?_, ?_, hcause, haddr, hinh, fun hor => absurd hor (by omega), fun _ _ => ?_, fun hr => ?_⟩
  · exact (congrArg State.mem hq : v.teamless.mem = u.teamless.mem).trans (hset.mem fun hr' => hr (hres.mp hr'))
  · rw [he, if_neg h1, hpepc]
  · rw [hg, if_neg h3, hphnd]
  · exact State.csrSet_partition (s := s.begun b) hset (congrArg State.parts hq : v.teamless.parts = u.teamless.parts)
  · have hr' := hres.mpr hr
    refine ⟨fun e hm => hset.cmds hr' e ?_, fun m hm => hset.mons hr' m ?_, fun e hm => hset.wakes hr' e ?_, fun k t hk hp => ?_⟩
    · exact (congrArg State.cmds hq : v.teamless.cmds = u.teamless.cmds) ▸ hm
    · exact (congrArg State.mons hq : v.teamless.mons = u.teamless.mons) ▸ hm
    · exact (congrArg State.wakes hq : v.teamless.wakes = u.teamless.wakes) ▸ hm
    · obtain ⟨t1, ht1, hb1⟩ := (s.begun_fixed b).team hk
      obtain ⟨t2, ht2, he2⟩ := hset.ended hr' k t1 ht1 ((congrArg Team.part hb1 : t1.bare.part = t.bare.part).trans hp)
      obtain ⟨t3, ht3, hb3⟩ := hfix.team ht2
      exact ⟨t3, ht3, (congrArg Team.isEnded hb3 : t3.bare.isEnded = t2.bare.isEnded).trans he2⟩

end Sys2Proof.Machine
end

section
/-! A fault issues no command (R289 to R291). -/

namespace Sys2Proof.Machine

/-! ### A fault issues no command -/

/-- The later state lists no new command and no new child, and numbers none. -/
structure State.Cuts (s u : State) : Prop where
  cmds : ∀ e ∈ u.cmds, e ∈ s.cmds
  seq : u.cmdSeq = s.cmdSeq
  children : ∀ e ∈ u.children, e ∈ s.children

theorem Tbl.ne_of_find?_none {α : Type} {m : Tbl α} {k : Nat} (h : Tbl.find? m k = none) {e : Nat × α} (he : e ∈ m) : e.1 ≠ k := by
  induction m with
  | nil => cases he
  | cons d m ih =>
    rw [Tbl.find?] at h
    split at h
    · cases h
    · rcases List.mem_cons.mp he with rfl | he
      · assumption
      · exact ih h he

namespace State.Cuts

theorem refl (s : State) : s.Cuts s := ⟨fun _ h => h, rfl, fun _ h => h⟩
theorem trans {s t u : State} (h : s.Cuts t) (k : t.Cuts u) : s.Cuts u := ⟨fun e he => h.cmds e (k.cmds e he), k.seq.trans h.seq, fun e he => h.children e (k.children e he)⟩
theorem of_eq {s u : State} (h : u.cmds = s.cmds) (hs : u.cmdSeq = s.cmdSeq) (hc : u.children = s.children) : s.Cuts u :=
  ⟨fun _ he => h ▸ he, hs, fun _ he => hc ▸ he⟩
theorem of_still {s u : State} (h : u.still = s.still) : s.Cuts u :=
  of_eq (congrArg State.cmds h : u.still.cmds = s.still.cmds) (congrArg State.cmdSeq h : u.still.cmdSeq = s.still.cmdSeq)
    (congrArg State.children h : u.still.children = s.still.children)
theorem foldl {α : Type} {f : State → α → State} (hf : ∀ (u : State) (a : α), State.Cuts u (f u a)) (l : List α) (s : State) : s.Cuts (l.foldl f s) :=
  foldl_keeps (fun u => s.Cuts u) f l (fun u a _ hu => hu.trans (hf u a)) s (refl s)

theorem find? {s u : State} (h : s.Cuts u) {n : Nat} (hn : Tbl.find? s.cmds n = none) : Tbl.find? u.cmds n = none :=
  Option.eq_none_iff_forall_ne_some.mpr fun _ hc => Tbl.ne_of_find?_none hn (h.cmds _ (Tbl.mem_of_find? hc)) rfl

end State.Cuts

theorem State.cuts_deviceWrite {s u : State} {unit part asid va : Nat} {bs : List Byte} (h : s.deviceWrite unit part asid va bs = some u) : s.Cuts u := by
  unfold State.deviceWrite at h
  split at h
  · dsimp only at h
    split at h
    · rw [← Option.some.inj h]
      exact .of_still (State.writeAt_still ..)
    · cases h
  · cases h

/-- A merged entry that has spilled is written again (R265). -/
def State.respill (m : Mon) (t : State) (e : Mon) : State :=
  match e.spill with
  | some i => if e.same m then t.poke (locOf 0 ((t.partition e.part).spBase.toNat + 32 * i)) e.encode else t
  | none => t

theorem State.cuts_respill (s : State) (m e : Mon) : s.Cuts (s.respill m e) := by
  unfold State.respill
  split
  · split
    · exact .of_still (State.poke_still ..)
    · exact .refl _
  · exact .refl _

theorem State.cuts_insertMon {s u : State} {m : Mon} (h : s.insertMon m = some u) : s.Cuts u := by
  unfold State.insertMon at h
  split at h
  · extract_lets s1 at h
    have h1 : s.Cuts s1 := .of_eq rfl rfl rfl
    clear_value s1
    rw [← Option.some.inj h]
    exact h1.trans (.foldl (f := State.respill m) (fun u e => u.cuts_respill m e) _ _)
  · split at h
    · rw [← Option.some.inj h]
      exact .of_eq rfl rfl rfl
    · extract_lets b used at h
      split at h
      · cases h
      · split at h
        · cases h
        · extract_lets m1 s1 r s2 at h
          have hc : u.cmds = s2.cmds := by rw [← Option.some.inj h]
          have hs : u.cmdSeq = s2.cmdSeq := by rw [← Option.some.inj h]
          have hch : u.children = s2.children := by rw [← Option.some.inj h]
          exact .of_eq ((hc.trans (State.setLine_cmds ..)).trans (State.poke_cmds ..)) ((hs.trans (State.setLine_cmdSeq ..)).trans (State.poke_cmdSeq ..))
            ((hch.trans (State.setLine_children ..)).trans (State.poke_children ..))

theorem State.cuts_modPart (s : State) (n : Nat) (f : Part → Part) : s.Cuts (s.modPart n f) := .of_eq rfl rfl rfl
theorem State.cuts_modTeam (s : State) (n : Nat) (f : Team → Team) : s.Cuts (s.modTeam n f) := .of_eq rfl rfl rfl
theorem State.cuts_modAgent (s : State) (a : AgentId) (f : Agent → Agent) : s.Cuts (s.modAgent a f) := .of_eq rfl rfl rfl

theorem State.cuts_sinkPut (s : State) (part asid i : Nat) (r : Nguxis) : s.Cuts (s.sinkPut part asid i r) := by
  unfold State.sinkPut
  extract_lets d va
  split
  · extract_lets s1 s2
    have h2 : s.Cuts s2 := .trans (t := s1) (.of_still (State.writeAt_still ..)) (.of_eq rfl rfl rfl)
    split
    · exact h2.trans (.of_eq rfl rfl rfl)
    · exact h2
  · exact .of_eq rfl rfl rfl

theorem State.cuts_sink (s : State) (part asid i : Nat) (r : Nguxis) : s.Cuts (s.sink part asid i r) := by
  unfold State.sink
  extract_lets d s1 d1
  have h1 : s.Cuts s1 := (s.cuts_sinkPut ..).trans (State.cuts_modPart ..)
  split
  · exact .of_eq rfl rfl rfl
  · split
    · split
      · exact h1.trans (.of_eq rfl rfl rfl)
      · exact h1.trans (s1.cuts_sinkPut ..)
    · exact s.cuts_sinkPut ..

theorem State.cuts_adaptPeriod (s : State) (part asid i : Nat) : s.Cuts (s.adaptPeriod part asid i) := by
  unfold State.adaptPeriod
  extract_lets d f per cur new s1
  split
  · exact .refl s
  · split
    · exact .refl s
    · exact .trans (t := s1) (.of_eq rfl rfl rfl) ((s1.cuts_sink ..).trans (State.cuts_modPart ..))

theorem State.cuts_trace (s : State) (part asid : Nat) (r : Nguxis) : s.Cuts (s.trace part asid r) := by
  unfold State.trace
  split
  · exact .refl s
  · split
    · exact (s.cuts_sink ..).trans (State.cuts_adaptPeriod ..)
    · exact .refl s

theorem State.cuts_fqSend (s : State) (part : Nat) (h : HeldRecord) : s.Cuts (s.fqSend part h) := by
  have hw : ∀ size, s.Cuts (s.fqWrite part h size) := fun size => by
    unfold State.fqWrite
    extract_lets p s1 s2 s3
    have h2 : s.Cuts s2 := .trans (t := s1) (.of_still (State.writeAt_still ..)) (.of_eq rfl rfl rfl)
    have h3 : s2.Cuts s3 := by
      unfold s3
      split
      · exact .of_eq rfl rfl rfl
      · exact .refl _
    exact h2.trans (h3.trans (.of_eq rfl rfl rfl))
  unfold State.fqSend
  dsimp only
  split
  · exact .refl s
  · split
    · exact hw _
    · exact .of_eq rfl rfl rfl

theorem State.cuts_endLog (s : State) (c : Ctx) (ctl : W64) (team : Nat) (t : Team) : s.Cuts (s.endLog c ctl team t) := by
  unfold State.endLog
  split
  · exact .refl s
  · extract_lets size k r s1
    refine .trans (t := s1) ?_ (State.cuts_modTeam ..)
    unfold s1
    cases hd : s.deviceWrite (t.cluster.getD 0) t.part t.asid (logVa c t + 32 * (k % size)) (r.encode s.dtime) with
    | none => exact .refl s
    | some u => exact State.cuts_deviceWrite hd

theorem State.cuts_endSession (s : State) (part asid : Nat) : s.Cuts (s.endSession part asid) := by
  unfold State.endSession
  split
  · exact .refl s
  · split
    · extract_lets lost s1 s2 s3 ctl
      have h3 : s.Cuts s3 := (s.cuts_sink ..).trans ((s1.cuts_sink ..).trans (State.cuts_modPart ..))
      refine h3.trans (.foldl (fun u e => ?_) _ _)
      split
      · exact u.cuts_endLog ..
      · exact .refl u
    · exact .refl s

theorem State.cuts_clearBuffers (s : State) (m n : Nat) (l : Tbl Team) : s.Cuts (l.foldl (State.clearBuffers m n) s) :=
  .foldl (f := State.clearBuffers m n) (fun _ _ => .of_eq rfl rfl rfl) _ _

theorem State.cuts_dropContexts (s : State) (mine : Nat → Nat → Bool) : s.Cuts (s.dropContexts mine) := by
  unfold State.dropContexts
  extract_lets out s1 dead s2
  have h1 : s.Cuts s1 := State.cuts_clearBuffers ..
  have h2 : s1.Cuts s2 := ⟨fun e he => List.mem_of_mem_filter he, rfl, fun e he => List.mem_of_mem_filter he⟩
  exact h1.trans (h2.trans (.of_still (s2.dropMons_still _)))

theorem State.cuts_endContext (s : State) (part asid : Nat) (rec : List Byte) : s.Cuts (s.endContext part asid rec) := by
  unfold State.endContext
  extract_lets s1
  have h1 : s.Cuts s1 := (s.cuts_endSession ..).trans (State.cuts_dropContexts ..)
  split
  · exact h1.trans ((State.cuts_modPart ..).trans (State.cuts_fqSend ..))
  · exact h1

theorem State.cuts_writeRecord (s : State) (die part asid slot who : Nat) (rec : List Byte) : s.Cuts (s.writeRecord die part asid slot who rec).1 := by
  unfold State.writeRecord
  split
  · exact .refl s
  · split
    · next hd => exact State.cuts_deviceWrite hd
    · exact .refl s

theorem State.cuts_openDisp (s : State) (die part asid slot who : Nat) (rec : List Byte) : s.Cuts (s.openDisp die part asid slot who rec).1 := by
  unfold State.openDisp
  extract_lets r
  have hr : s.Cuts r.1 := s.cuts_writeRecord ..
  split
  · exact .refl s
  · dsimp only
    split
    · next hd _ =>
      have h1 := hr.trans (State.cuts_deviceWrite hd)
      split
      · split
        · next hm => exact h1.trans (State.cuts_insertMon hm)
        · exact h1
      · exact h1
    · exact hr

theorem State.cuts_postFault (s : State) (team kind eng : Nat) (cseq : W32) (detail : Nat) (rec : Rec) : s.Cuts (s.postFault team kind eng cseq detail rec) := by
  unfold State.postFault
  split
  · exact .refl s
  · split
    · exact s.cuts_endContext ..
    · exact s.cuts_modTeam ..

/-- A fault issues no command (R289 to R291). -/
theorem State.cuts_takeFault (s : State) (a : AgentId) (r : Raise) : s.Cuts (s.takeFault a r) := by
  unfold State.takeFault
  split
  next t x _ _ =>
    split
    · exact s.cuts_endContext ..
    · split
      · dsimp only
        split
        · exact .of_eq rfl rfl rfl
        · exact .of_eq rfl rfl rfl
      · extract_lets rec0 s1 s0 s2
        have h1 : s.Cuts s1 := .of_eq rfl rfl rfl
        have h0 : s.Cuts s0 := by
          unfold s0
          split
          · exact h1.trans (s1.cuts_trace ..)
          · exact h1
        have h2 : s.Cuts s2 := h0.trans (s0.cuts_trace ..)
        have hd := s2.cuts_openDisp (t.cluster.getD 0) t.part t.asid t.slot a.who rec0.encode
        split
        · split
          · exact h2.trans (s2.cuts_endContext ..)
          · split
            · exact h2.trans ((s2.cuts_writeRecord ..).trans (State.cuts_endContext ..))
            · split
              · next he =>
                rw [he] at hd
                exact h2.trans (hd.trans (State.cuts_endContext ..))
              · next he =>
                rw [he] at hd
                exact h2.trans (hd.trans (State.cuts_fqSend ..))
        · split
          · next he =>
            rw [he] at hd
            exact h2.trans (hd.trans (State.cuts_endContext ..))
          · next he =>
            rw [he] at hd
            exact h2.trans (hd.trans (State.cuts_postFault ..))
  next => exact .refl s

/-- The end of a beat that faults issues no command. -/
theorem State.cuts_conclude_fault (s : State) (b : Beat) (whole : Bool) (r : Raise) : s.Cuts (s.conclude b whole (.fault r)) :=
  ((s.cuts_modAgent ..).trans (State.cuts_takeFault ..)).trans (State.cuts_modTeam ..)

end Sys2Proof.Machine
end

section
/-! The start of an engine command: its masks, its locks and its place among the commands (R155, R187). -/

namespace Sys2Proof.Machine

/-- The command without what its start settles. -/
def Cmd.unbegun (c : Cmd) : Cmd := { c with started := false, kind := .copy default, src := [], c := 0, ranges := [] }

/-- Masks that a command reads: only what it has read changes, and nothing else of the commands, the locks and the teams. -/
structure State.Reads (n : Nat) (s u : State) : Prop where
  rlt : u.rlt = s.rlt
  seq : u.cmdSeq = s.cmdSeq
  teams : u.teams = s.teams
  clean : s.Clean u
  cmd : ∀ c, Tbl.find? s.cmds n = some c → ∃ x y, Tbl.find? u.cmds n = some { c with src := x, c := y }

theorem State.Reads.refl (n : Nat) (s : State) : s.Reads n s := ⟨rfl, rfl, rfl, id, fun c h => ⟨c.src, c.c, h⟩⟩
theorem State.Reads.trans {n : Nat} {s t u : State} (h : s.Reads n t) (k : t.Reads n u) : s.Reads n u :=
  ⟨k.rlt.trans h.rlt, k.seq.trans h.seq, k.teams.trans h.teams, k.clean ∘ h.clean, fun c hc => by
    obtain ⟨x, y, hxy⟩ := h.cmd c hc
    obtain ⟨z, w, hzw⟩ := k.cmd _ hxy
    exact ⟨z, w, hzw⟩⟩
theorem State.Reads.of_still {n : Nat} {s u : State} (h : u.still = s.still) (ht : u.teams = s.teams) (hf : s.Clean u) : s.Reads n u :=
  ⟨(congrArg State.rlt h : u.still.rlt = s.still.rlt), (congrArg State.cmdSeq h : u.still.cmdSeq = s.still.cmdSeq), ht, hf,
    fun c hc => ⟨c.src, c.c, (congrArg (fun m => Tbl.find? m n) (congrArg State.cmds h : u.still.cmds = s.still.cmds)).trans hc⟩⟩

theorem State.reads_readLine {s u : State} {n l : Nat} (h : s.readLine n l = .ok u) : s.Reads n u := by
  unfold State.readLine at h
  split at h
  · rw [← Except.ok.inj h]
    exact .refl n s
  next c hc =>
    split at h
    · rw [← Except.ok.inj h]
      exact .refl n s
    · split at h
      · split at h
        · cases h
        next p _ _ =>
          extract_lets s1 wc at h
          have h1 : s.Reads n s1 := by
            unfold s1
            split
            · obtain ⟨-, ht, hf⟩ := (s.recall_same (p.loc / 128) none).trans ((s.recall (p.loc / 128) none).touchLine_same p 0)
              exact .of_still ((State.touchLine_still ..).trans (State.recall_still ..)) ht hf
            · exact .refl n s
          rw [← Except.ok.inj h]
          refine h1.trans ⟨rfl, rfl, rfl, id, fun c hc => ?_⟩
          exact ⟨_, _, by rw [State.modCmd, Tbl.find?_modify_same, hc]; rfl⟩
      · cases h

theorem State.reads_readLines {n : Nat} (ls : List Nat) {s u : State} (h : s.readLines n ls = .ok u) : s.Reads n u := by
  induction ls generalizing s with
  | nil =>
    rw [← Except.ok.inj h]
    exact .refl n s
  | cons l ls ih =>
    rw [State.readLines] at h
    split at h
    · next h1 => exact (State.reads_readLine h1).trans (ih h)
    · cases h

theorem State.reads_readMasks (s : State) (n : Nat) (kind : CmdKind) : s.Reads n (s.readMasks n kind) := by
  unfold State.readMasks
  split
  · split
    · next h => exact State.reads_readLines _ h
    · exact .refl n s
  · exact .refl n s

/-- What a copy's start leaves of the teams. -/
theorem State.startCopy_frame (s : State) (team : Nat) (k : CopyCmd) : (s.startCopy team k).1.cmds = s.cmds ∧ (s.startCopy team k).1.rlt = s.rlt ∧
    (s.startCopy team k).1.cmdSeq = s.cmdSeq ∧ (s.startCopy team k).1.flaws = s.flaws := by
  unfold State.startCopy
  split
  · exact ⟨rfl, rfl, rfl, rfl⟩
  next t _ =>
    extract_lets s1 s2
    have h1 : s1.cmds = s.cmds ∧ s1.rlt = s.rlt ∧ s1.cmdSeq = s.cmdSeq ∧ s1.flaws = s.flaws :=
      foldl_keeps (fun u : State => u.cmds = s.cmds ∧ u.rlt = s.rlt ∧ u.cmdSeq = s.cmdSeq ∧ u.flaws = s.flaws) _ _ (fun u c _ hu => by
        unfold State.clearMembers
        refine foldl_keeps (fun v : State => v.cmds = s.cmds ∧ v.rlt = s.rlt ∧ v.cmdSeq = s.cmdSeq ∧ v.flaws = s.flaws) _ _ (fun v e _ hv => ?_) _ hu
        split
        · split
          · exact hv
          · exact hv
        · exact hv) s ⟨rfl, rfl, rfl, rfl⟩
    unfold s2
    split
    · exact h1
    · exact h1

/-- The kind and the teams with which an agent's command starts. -/
def State.starting (s : State) (team : Nat) (kind : CmdKind) : State × CmdKind :=
  match kind with
  | .copy k => ((s.startCopy team k).1, .copy (s.startCopy team k).2)
  | k => (s, k)

theorem State.starting_frame (s : State) (team : Nat) (kind : CmdKind) : (s.starting team kind).1.cmds = s.cmds ∧ (s.starting team kind).1.rlt = s.rlt ∧
    (s.starting team kind).1.cmdSeq = s.cmdSeq ∧ (s.starting team kind).1.flaws = s.flaws := by
  unfold State.starting
  split
  · exact s.startCopy_frame ..
  · exact ⟨rfl, rfl, rfl, rfl⟩

/-- An agent's command that starts: it holds the locks of its ranges, and stays else as it was issued. -/
theorem State.startCmd_starts {s : State} {n team who : Nat} {c : Cmd} (cl : Nat) (hc : Tbl.find? s.cmds n = some c) (ho : c.owner = .agent team who) :
    ∃ c1, Tbl.find? (s.startCmd cl n).cmds n = some c1 ∧ c1.started = true ∧ c1.unbegun = c.unbegun ∧ c1.kind = (s.starting team c.kind).2 ∧
      c1.ranges = ({ c1 with ranges := c.ranges } : Cmd).locks ∧ (s.startCmd cl n).rlt = s.rlt ++ c1.entries cl n ∧
      (s.startCmd cl n).cmdSeq = s.cmdSeq ∧ (s.startCmd cl n).teams = (s.starting team c.kind).1.teams ∧ s.Clean (s.startCmd cl n) := by
  obtain ⟨hcmds, hrlt, hseq, hflaws⟩ := s.starting_frame team c.kind
  unfold State.startCmd
  rw [hc]
  dsimp -zeta only
  extract_lets r src s1
  have hr : r = s.starting team c.kind := by
    unfold r State.starting
    rw [ho]
    cases c.kind <;> rfl
  rw [← hr] at hcmds hrlt hseq hflaws ⊢
  clear_value r
  have hreads := State.reads_readMasks { r.1 with cmds := Tbl.ins r.1.cmds n { c with started := true, kind := r.2 } } n r.2
  obtain ⟨x, y, hx⟩ := hreads.cmd { c with started := true, kind := r.2 } (Tbl.find?_ins_same ..)
  have hs1 : Tbl.find? s1.cmds n = some { c with started := true, kind := r.2, src := x, c := y } := hx
  rw [hs1]
  refine ⟨_, Tbl.find?_ins_same .., rfl, rfl, rfl, rfl, ?_, hreads.seq.trans hseq, hreads.teams, fun h => hreads.clean (hflaws.trans h)⟩
  exact congrArg (· ++ _) (hreads.rlt.trans hrlt)

end Sys2Proof.Machine
end

section
/-! O48: what a command waits for is given in order (R155, R187, R199, R238 to R240). -/

namespace Sys2Proof.Machine

theorem exec_rltGrant (cmd : Nat) (s : State) : exec (.rltGrant cmd) s = execRltGrant cmd s := rfl
theorem exec_oxRingRead (cmd : Nat) (s : State) : exec (.oxRingRead cmd) s = execOxRingRead cmd s := rfl
theorem exec_acallocGrant (cl : Nat) (s : State) : exec (.acallocGrant cl) s = execAcallocGrant cl s := rfl

/-! ### Range locks -/

section
variable {s : State} {cmd team who cl : Nat} {c : Cmd} {t : Team} {x : Agent} (hc : Tbl.find? s.cmds cmd = some c) (ho : c.owner = .agent team who)
  (ht : s.team team = some t) (hcl : t.cluster = some cl) (hx : s.agent ⟨team, who⟩ = some x) (hw : x.arr.cmd = some cmd) (hs : c.started = false)
include hc ho ht hcl hx hw hs

theorem execRltGrant_plain (hk : ∀ g, c.kind ≠ .ge g) :
    execRltGrant cmd s = .next (if s.rltRoom cl c.ranges.length then s.startCmd cl cmd else s) := by
  unfold execRltGrant
  simp only [hc, ho, ht, hx, hw, hs, hcl, Option.bind_some, Option.map_some, Option.getD_some, decide_true, Bool.not_true, Bool.or_self, Bool.false_eq_true,
    if_false]
  split
  · exact absurd ‹_› (hk _)
  · exact absurd ‹_› (hk _)
  · rfl

theorem execRltGrant_ge {g : GeCmd} {b : Beat} (hk : c.kind = .ge g) (hb : s.beatAt ⟨team, who⟩ = some b) :
    execRltGrant cmd s = .next (geGrant g.kind s b cmd) := by
  unfold execRltGrant
  simp only [hc, ho, ht, hx, hw, hs, hcl, hk, hb, Option.bind_some, Option.map_some, Option.getD_some, decide_true, Bool.not_true, Bool.or_self,
    Bool.false_eq_true, if_false]

end

/-- The beat at which an agent stands is its own. -/
theorem State.beatAt_own {s : State} {a : AgentId} {t : Team} {x : Agent} {b : Beat} (hb : s.beatAt a = some b) (ht : s.team a.team = some t)
    (hx : s.agent a = some x) : b.a = a ∧ b.t = t ∧ b.x = x ∧ b.cluster = t.cluster.getD 0 ∧ x.issue = .beats := by
  unfold State.beatAt at hb
  rw [ht, hx] at hb
  dsimp only at hb
  split at hb
  · split at hb
    · split at hb
      · obtain rfl := Option.some.inj hb
        exact ⟨rfl, rfl, rfl, rfl, by assumption⟩
      · cases hb
    · cases hb
  · cases hb

theorem Cmd.locks_plain (c : Cmd) (rs : List (Nat × Nat × Nat × Bool)) (h : ∀ k, c.kind = .copy k → k.maskLines = []) :
    ({ c with ranges := rs } : Cmd).locks = rs := by
  unfold Cmd.locks
  dsimp only
  split
  next k hk => rw [if_neg (fun hm => hm.1 (h k hk))]
  next => rfl

/-- The checks at a grant read the state's memory and handle table only. -/
theorem geChecks_tokenDown (s : State) (team k : Nat) (t : Team) (f : Fields) (g : GeArgs) : geChecks (s.tokenDown team k) t f g = geChecks s t f g := rfl

/-- No check of a gather or scatter raises 0x18 (R198). -/
theorem geChecks_code {s : State} {t : Team} {f : Fields} {g : GeArgs} {code : Byte} (h : geChecks s t f g = some code) : code ≠ 0x18 := by
  unfold geChecks at h
  dsimp only at h
  repeat' split at h
  all_goals cases h
  all_goals decide

/-- Lines whose presence bits are cleared are absent, and the others as before. -/
theorem get_foldl_absent (ls : List Nat) (m : Tbl Bool) (k : Nat) :
    Tbl.get false (ls.foldl (fun m l => Tbl.put false m l true) m) k = (decide (k ∈ ls) || Tbl.get false m k) := by
  induction ls generalizing m with
  | nil => simp
  | cons l ls ih =>
    rw [List.foldl_cons, ih, Tbl.get_put]
    by_cases hk : k = l
    · simp [hk]
    · simp [hk]

/-- The team of a thread that takes a number: the control thread's alone counts. -/
theorem State.takeSeq_team {s : State} {a : AgentId} {t : Team} (ht : s.team a.team = some t) :
    ∃ g, (s.takeSeq a).team a.team = some { t with agents := g, cseq := if a.who = ctlWho then nextSeq t.cseq else t.cseq } := by
  unfold State.takeSeq
  split
  · rw [ht]
    dsimp only
    rw [State.team_modAgent, if_pos rfl, State.team_modTeam_same, ht]
    exact ⟨_, rfl⟩
  · exact ⟨t.agents, ht⟩

theorem geBegin_team {s : State} {b : Beat} {t : Team} (ht : s.team b.a.team = some t) (g : GeArgs) (e : Handle) :
    ∃ ag, (geBegin b g e s).team b.a.team = some { t with
      agents := ag
      absent := (geLines g e).foldl (fun m l => Tbl.put false m l true) t.absent
      cseq := if b.a.who = ctlWho then nextSeq t.cseq else t.cseq } := by
  have h1 : (s.clearPresence b.a.team (geLines g e)).team b.a.team =
      some { t with absent := (geLines g e).foldl (fun m l => Tbl.put false m l true) t.absent } := by
    rw [State.clearPresence, State.team_modTeam_same, ht]
    rfl
  exact State.takeSeq_team h1

theorem State.takeSeq_frame (s : State) (a : AgentId) : (s.takeSeq a).rlt = s.rlt ∧ (s.takeSeq a).cmds = s.cmds ∧ (s.takeSeq a).cmdSeq = s.cmdSeq := by
  unfold State.takeSeq
  split
  · split <;> exact ⟨rfl, rfl, rfl⟩
  · exact ⟨rfl, rfl, rfl⟩

theorem geBegin_frame (b : Beat) (g : GeArgs) (e : Handle) (s : State) :
    (geBegin b g e s).rlt = s.rlt ∧ (geBegin b g e s).cmds = s.cmds ∧ (geBegin b g e s).cmdSeq = s.cmdSeq := by
  obtain ⟨hr, hc, hs⟩ := (s.clearPresence b.a.team (geLines g e)).takeSeq_frame b.a
  exact ⟨hr, hc, hs⟩

section
variable {s : State} {team cl : Nat} {t : Team} {b : Beat} (n kind : Nat) (ht : s.team team = some t) (hat : b.a.team = team) (hbt : b.t = t) (hbc : b.cluster = cl)
include ht hat hbt hbc

/-- A gather or scatter whose checks hold at its grant issues, where the lock table has room (R187, R199). -/
theorem geGrant_issues {t1 : Team} (ht1 : (s.tokenDown team (tokOf b.f.md)).team team = some t1) (hok : geChecks s t1 b.f (geArgs b kind) = none) :
    let g := geArgs b kind
    let e := s.handle t.part g.h
    let rs := geRanges team t g e
    (s.rltRoom cl rs.length = false → geGrant kind s b n = s) ∧
    (s.rltRoom cl rs.length = true → ∃ v c1 k, (geGrant kind s b n).team team = some v ∧ v.tok = t.tok ∧ (∀ l ∈ geLines g e, Tbl.get false v.absent l = true) ∧
      v.cseq = (if b.a.who = ctlWho then nextSeq t.cseq else t.cseq) ∧ Tbl.find? (geGrant kind s b n).cmds n = some c1 ∧ c1.started = true ∧
      c1.ranges = rs ∧ c1.kind = .ge k ∧ k.base = e.base ∧ k.limit = e.limit ∧ k.esz = e.esz ∧ (geGrant kind s b n).rlt = s.rlt ++ c1.entries cl n) := by
  intro g e rs
  subst hat hbt hbc
  let c0 : Cmd := { cmdOf b (((geBegin b g e s).agent b.a).getD b.x) (geCmd b g e) (tokOf b.f.md) (evOf b.f.md) rs with seq := n }
  have hgrant : geGrant kind s b n = if s.rltRoom b.cluster rs.length then
      (({ geBegin b g e s with cmds := Tbl.ins (geBegin b g e s).cmds n c0 } : State).startCmd b.cluster n) else s := by
    unfold geGrant
    dsimp only
    rw [ht1, Option.getD_some, geChecks_tokenDown, hok]
  refine ⟨fun hroom => by rw [hgrant, if_neg (by rw [hroom]; nofun)], fun hroom => ?_⟩
  rw [hgrant, if_pos hroom]
  obtain ⟨hr, -, -⟩ := geBegin_frame b g e s
  obtain ⟨ag, hteam⟩ := geBegin_team ht g e
  obtain ⟨c1, hc1, hstart, -, hkind, hranges, hrlt, -, hteams, -⟩ := State.startCmd_starts
    (s := { geBegin b g e s with cmds := Tbl.ins (geBegin b g e s).cmds n c0 }) b.cluster (Tbl.find?_ins_same _ n c0) rfl
  have hk : c1.kind = geCmd b g e := hkind
  refine ⟨_, c1, _, (congrArg (fun m => Tbl.find? m b.a.team) hteams).trans hteam, rfl, fun l hl => ?_, rfl, hc1, hstart, ?_, hk, rfl, rfl, rfl, ?_⟩
  · rw [get_foldl_absent]
    simp [hl]
  · exact hranges.trans (c1.locks_plain rs fun k hk' => by cases hk.symm.trans hk')
  · exact hrlt.trans (congrArg (· ++ _) hr)

omit hbt hbc in
/-- One that fails its checks at the grant is stopped, and its command is gone (R198, log entry 43). -/
theorem geGrant_stops {x : Agent} {t1 : Team} (hx : s.agent b.a = some x) (hp : x.kind ≠ .privileged) (ht1 : (s.tokenDown team (tokOf b.f.md)).team team = some t1)
    {code : Byte} (hbad : geChecks s t1 b.f (geArgs b kind) = some code) :
    Tbl.find? (geGrant kind s b n).cmds n = none ∧ ∀ y, (geGrant kind s b n).agent b.a = some y → y.stoppedAs code .beat ∧ y.lanes = x.lanes := by
  subst hat
  let s1 := s.tokenDown b.a.team (tokOf b.f.md)
  let s2 := ({ s1 with cmds := Tbl.del s1.cmds n } : State).modAgent b.a fun x => { x with arr := { x.arr with cmd := none } }
  have hgrant : geGrant kind s b n = s2.conclude b true (issueFault b code) := by
    unfold geGrant
    dsimp only
    rw [ht1, Option.getD_some, geChecks_tokenDown, hbad]
  have hx1 : s1.agent b.a = some x := by
    show (s.modTeam b.a.team _).agent b.a = _
    rw [State.agent_modTeam, if_pos rfl, ht]
    rw [State.agent, ht] at hx
    exact hx
  have hx2 : s2.agent b.a = some { x with arr := { x.arr with cmd := none } } := by
    show (State.modAgent _ b.a _).agent b.a = _
    rw [State.agent_modAgent_same]
    exact congrArg (Option.map _) hx1
  have ht2 : ∃ t2, s2.team b.a.team = some t2 := by
    show ∃ t2, (State.modAgent _ b.a _).team b.a.team = _
    rw [State.team_modAgent, if_pos rfl]
    exact ⟨_, congrArg (Option.map _) ht1⟩
  obtain ⟨t2, ht2⟩ := ht2
  rw [hgrant]
  refine ⟨(s2.cuts_conclude_fault b true _).find? (by rw [show s2.cmds = Tbl.del s.cmds n from rfl, Tbl.find?_del, if_pos rfl]), fun y hy => ?_⟩
  obtain ⟨hstop, -, hlanes, -⟩ := State.conclude_fault ht2 hx2 hp (geChecks_code hbad) true hy
  exact ⟨hstop, hlanes⟩

end

/-! ### Ring lines -/

/-- Zeros that a table does not list are read all the same. -/
theorem Tbl.get_filter_nonzero {m : Tbl Byte} {k : Nat} {v : Byte} (hin : (k, v) ∈ m) (hun : ∀ e ∈ m, e.1 = k → e.2 = v) :
    Tbl.get 0 (m.filter fun e => decide (e.2 ≠ 0)) k = v := by
  unfold Tbl.get
  cases hf : Tbl.find? (m.filter fun e => decide (e.2 ≠ 0)) k with
  | some w => exact hun _ (List.mem_of_mem_filter (Tbl.mem_of_find? hf)) rfl
  | none =>
    by_contra hv
    exact Tbl.ne_of_find?_none hf (List.mem_filter.mpr ⟨hin, decide_eq_true (Ne.symm hv)⟩) rfl

theorem State.getElem?_read (s : State) (p n j : Nat) : (s.read p n)[j]? = if j < n then some (s.byteAt (p + j)) else none := by
  split
  next h =>
    have hlen : j < (s.read p n).length := by rwa [State.read, Tbl.length_getMany]
    rw [List.getElem?_eq_getElem hlen, State.byteAt, ← Tbl.getD_getMany 0 s.mem p n j h]
    exact congrArg some (List.getD_eq_getElem _ _ hlen).symm
  next h => exact List.getElem?_eq_none (by rw [State.read, Tbl.length_getMany]; omega)

/-- The byte of a ring line that a command has read (R238). -/
theorem ringBytes_get (s : State) (team : Nat) (t : Team) (o : OxSrc) (q : Nat) {u l j : Nat} (hl : l < u) (hj : j < 128) :
    Tbl.get 0 (ringBytes s team t o q u) (128 * l + j) =
      s.byteAt (obLoc team ((o.first + (ringStart (t.bind q) + ((t.ring q).rd - ringStart (t.bind q) + l) % ringLines (t.bind q))) * 128) + j) := by
  unfold ringBytes
  refine Tbl.get_filter_nonzero ?_ fun e he hk => ?_
  · refine List.mem_flatMap.mpr ⟨l, List.mem_range.mpr hl, List.mem_map.mpr ⟨(_, j), List.mem_zipIdx_iff_getElem?.mpr ?_, rfl⟩⟩
    exact (State.getElem?_read ..).trans (if_pos hj)
  · obtain ⟨l', hl', he⟩ := List.mem_flatMap.mp he
    obtain ⟨⟨w, i⟩, hw, rfl⟩ := List.mem_map.mp he
    have hget := List.mem_zipIdx_iff_getElem?.mp hw
    rw [State.getElem?_read] at hget
    split at hget
    · obtain ⟨rfl, rfl⟩ : l' = l ∧ i = j := by
        dsimp only at hk
        omega
      exact (Option.some.inj hget).symm
    · cases hget

section
variable {s : State} {cmd team q : Nat} {t : Team} {c : Cmd} {k : OxCmd} {a b : OxSrc} (hr : s.runningOx cmd = some (team, t, c, k)) (hs : k.srcs = some (a, b))
include hr hs

theorem execOxRingRead_first (hw : k.waitA = true) (hq : a.ring = some q) : execOxRingRead cmd s = if s.tileTurn team cmd k = false then .next s else
    if ringReady s team cmd t q (a.ringNeed (k.span.1 + k.span.2 - 1)) = true then
      .next ((s.modTeam team fun t => t.consume q (a.ringNeed (k.span.1 + k.span.2 - 1))).setOx cmd
        { k with waitA := false, lines := ringBytes s team t a q (a.ringNeed (k.span.1 + k.span.2 - 1)) })
    else .next s := by
  unfold execOxRingRead
  simp only [hr, hs, hw, hq]
  cases s.tileTurn team cmd k <;> rfl

theorem execOxRingRead_second (hw : k.waitA = false) (hwb : k.waitB = true) (hq : b.ring = some q) : execOxRingRead cmd s = if s.tileTurn team cmd k = false then .next s else
    if ringReady s team cmd t q (b.ringNeed (k.span.1 + k.span.2 - 1)) = true then
      .next ((s.modTeam team fun t => t.consume q (b.ringNeed (k.span.1 + k.span.2 - 1))).setOx cmd
        { k with waitB := false, linesB := ringBytes s team t b q (b.ringNeed (k.span.1 + k.span.2 - 1)) })
    else .next s := by
  unfold execOxRingRead
  simp only [hr, hs, hw, hwb, hq]
  cases s.tileTurn team cmd k <;> rfl

end

theorem State.runningOx_iff {s : State} {cmd team : Nat} {t : Team} {c : Cmd} {k : OxCmd} (h : s.runningOx cmd = some (team, t, c, k)) :
    Tbl.find? s.cmds cmd = some c ∧ s.team team = some t ∧ c.kind = .ox k := by
  unfold State.runningOx at h
  split at h
  · split at h
    · split at h
      · split at h
        · cases h
          exact ⟨by assumption, by assumption, by assumption⟩
        · cases h
      · cases h
    · cases h
  · cases h

theorem State.oxRead_result {s : State} {cmd team : Nat} {t : Team} {c : Cmd} {k : OxCmd} (h : s.runningOx cmd = some (team, t, c, k)) (q n : Nat) (k1 : OxCmd) :
    ∃ v c1, ((s.modTeam team fun t => t.consume q n).setOx cmd k1).team team = some v ∧
      v.ring q = { wc := (t.ring q).wc, rd := ringStart (t.bind q) + ((t.ring q).rd - ringStart (t.bind q) + n) % (max 1 (ringLines (t.bind q))), fill := (t.ring q).fill - n } ∧
      Tbl.find? ((s.modTeam team fun t => t.consume q n).setOx cmd k1).cmds cmd = some c1 ∧ c1.kind = .ox k1 := by
  obtain ⟨hc, ht, -⟩ := State.runningOx_iff h
  refine ⟨t.consume q n, { c with kind := .ox k1 }, ?_, ?_, ?_, rfl⟩
  · show (s.modTeam team fun t => t.consume q n).team team = _
    rw [State.team_modTeam_same, ht]
    rfl
  · unfold Team.ring Team.consume
    rw [Tbl.find?_ins_same]
    rfl
  · show Tbl.find? (Tbl.modify s.cmds cmd _) cmd = _
    rw [Tbl.find?_modify_same, hc]
    rfl

/-! ### Tiles -/

theorem Tbl.find?_foldl_ins {α : Type} (ks : List Nat) (v : α) (m : Tbl α) (j : Nat) :
    Tbl.find? (ks.foldl (fun m k => Tbl.ins m k v) m) j = if j ∈ ks then some v else Tbl.find? m j := by
  induction ks generalizing m with
  | nil => rfl
  | cons k ks ih =>
    rw [List.foldl_cons, ih, Tbl.find?_ins]
    by_cases hj : j = k
    · simp [hj]
    · simp [hj]

theorem Tbl.rising_modify {α : Type} {m : Tbl α} {o : Option Nat} (h : Tbl.rising o m = true) (k : Nat) (f : α → α) : Tbl.rising o (Tbl.modify m k f) = true := by
  induction m generalizing o with
  | nil => rfl
  | cons d m ih =>
    obtain ⟨j, x⟩ := d
    simp only [Tbl.rising, Bool.and_eq_true] at h
    rw [Tbl.modify]
    split
    · simp only [Tbl.rising, Bool.and_eq_true]
      exact h
    · simp only [Tbl.rising, Bool.and_eq_true]
      exact ⟨h.1, ih h.2⟩

/-- A request that is served is one of a team's that waits. -/
theorem State.oldestAlloc_waits {s : State} (h : Tbl.rising none s.teams = true) {cl team age n : Nat} (ho : oldestAlloc (s.blockedAllocs cl) = some (team, age, n)) :
    ∃ t, s.team team = some t ∧ t.alloc = some n := by
  obtain ⟨e, he, hm⟩ := List.mem_filterMap.mp (List.mem_of_find?_eq_some ho)
  split at hm
  · obtain ⟨k, hk, heq⟩ := Option.map_eq_some_iff.mp hm
    cases heq
    exact ⟨e.2, Tbl.find?_of_rising h he, hk⟩
  · cases hm

/-- The team that waits for nothing stays while other requests are served. -/
theorem State.serveTiles_team {s : State} (h : Tbl.rising none s.teams = true) {team : Nat} {v : Team} (hv : s.team team = some v) (ha : v.alloc = none) (cl k : Nat) :
    (s.serveTiles cl k).team team = some v := by
  induction k generalizing s with
  | zero => exact hv
  | succ k ih =>
    rw [State.serveTiles]
    split
    · exact hv
    next other _ n ho =>
      split
      · obtain ⟨t, ht, hn⟩ := State.oldestAlloc_waits h ho
        have hne : team ≠ other := by
          rintro rfl
          cases ht.symm.trans hv
          cases ha.symm.trans hn
        exact ih (Tbl.rising_modify h _ _) (by rw [State.team_modTeam, if_neg hne]; exact hv)
      · exact hv

theorem State.failTiles_team {s : State} {team : Nat} {v : Team} (hv : s.team team = some v) (ha : v.alloc = none) (cl : Nat) : (s.failTiles cl).team team = some v := by
  unfold State.failTiles
  split
  · exact hv
  next old _ _ _ =>
    split
    · exact hv
    · have hmap : (s.teams.map fun e => if e.2.cluster = some cl ∧ e.1 ≠ old ∧ e.2.alloc.isSome = true then
          (e.1, { e.2 with alloc := none, allocated := some 0xFFFFFFFFFFFFFFFF#64 }) else e) =
          s.teams.map fun e => (e.1, if e.2.cluster = some cl ∧ e.1 ≠ old ∧ e.2.alloc.isSome = true then
            { e.2 with alloc := none, allocated := some 0xFFFFFFFFFFFFFFFF#64 } else e.2) := List.map_congr_left fun e _ => by split <;> rfl
      show Tbl.find? (s.teams.map _) team = _
      rw [hmap]
      refine (Tbl.find?_map s.teams (fun k t => if t.cluster = some cl ∧ k ≠ old ∧ t.alloc.isSome = true then
            { t with alloc := none, allocated := some 0xFFFFFFFFFFFFFFFF#64 } else t) team).trans ?_
      rw [State.team] at hv
      rw [hv, Option.map_some, if_neg (fun hc => by simp [ha] at hc)]

/-- Settles O48: each grant's step is laid out for the command or team that it serves. -/
theorem engineGrants : Obligations.EngineGrants := by
  unfold Obligations.EngineGrants
  refine ⟨fun s cmd team who cl c t x hc ho ht hcl hx hw hs hk => ⟨fun hroom => ?_, fun hroom => ?_⟩,
    fun s cmd team who cl c old t t1 x b hc ho ht hcl hx hw hs hk hb ht1 => ?_,
    fun s cmd team q t c k a b o first hr hs hcase hq => ?_, fun s cl team age n t hrise ht hold => ⟨fun hfree => ?_, fun hfree hcan => ?_⟩⟩
  · obtain ⟨c1, hc1, hstart, hrest, hkind, hranges, hrlt, -, -⟩ := State.startCmd_starts cl hc ho
    refine ⟨s.startCmd cl cmd, c1, by rw [exec_rltGrant, execRltGrant_plain hc ho ht hcl hx hw hs hk, if_pos hroom], hc1, hstart,
      (congrArg Cmd.tok hrest : c1.unbegun.tok = c.unbegun.tok), (congrArg Cmd.site hrest : c1.unbegun.site = c.unbegun.site), hranges,
      fun hm => hranges.trans (c1.locks_plain c.ranges hm), hrlt⟩
  · rw [exec_rltGrant, execRltGrant_plain hc ho ht hcl hx hw hs hk, if_neg (by rw [hroom]; nofun)]
  · obtain ⟨hat, hbt, -, hbc, -⟩ := State.beatAt_own hb ht hx
    have hbc' : b.cluster = cl := by rw [hbc, hcl]; rfl
    have hexec : exec (.rltGrant cmd) s = .next (geGrant old.kind s b cmd) := by
      rw [exec_rltGrant, execRltGrant_ge hc ho ht hcl hx hw hs hk hb]
    intro g e rs
    refine ⟨fun hok hroom => ?_, fun hok hroom => ?_, fun code hbad hp => ?_⟩
    · obtain ⟨v, c1, k, hv, htok, habs, hseq, hc1, hst, hrs, hk1, hbase, hlim, hesz, hrlt⟩ :=
        (geGrant_issues cmd old.kind ht (congrArg AgentId.team hat) hbt hbc' ht1 hok).2 hroom
      refine ⟨_, v, c1, k, hexec, hv, htok, habs, by rw [hseq, hat], hc1, hst, hrs, hk1, hbase, hlim, hesz, ?_⟩
      rw [hrlt, Cmd.entries, hrs]
    · rw [hexec, (geGrant_issues cmd old.kind ht (congrArg AgentId.team hat) hbt hbc' ht1 hok).1 hroom]
    · obtain ⟨hnone, hstop⟩ := geGrant_stops cmd old.kind ht (congrArg AgentId.team hat) (hat ▸ hx) hp ht1 hbad
      exact ⟨_, hexec, hnone, fun y hy => hstop y (hat ▸ hy)⟩
  · rcases hcase with ⟨rfl, hw, rfl⟩ | ⟨rfl, hw, hwb, rfl⟩
    · rw [exec_oxRingRead, execOxRingRead_first hr hs hw hq]
      refine ⟨fun hno => if_pos hno, fun hturn hready => ?_, fun hready =>
        (ite_congr rfl (fun _ => rfl) fun _ => if_neg (by rw [hready]; nofun)).trans (ite_self _)⟩
      obtain ⟨v, c1, hv, hring, hc1, hk1⟩ := State.oxRead_result hr q (o.ringNeed (k.span.1 + k.span.2 - 1))
        { k with waitA := false, lines := ringBytes s team t o q (o.ringNeed (k.span.1 + k.span.2 - 1)) }
      refine ⟨_, v, c1, _, by rw [if_neg (by rw [hturn]; nofun), if_pos hready], hv, hring, hc1, hk1, rfl, rfl, rfl, fun l j hl hj => ?_⟩
      exact ringBytes_get s team t o q hl hj
    · rw [exec_oxRingRead, execOxRingRead_second hr hs hw hwb hq]
      refine ⟨fun hno => if_pos hno, fun hturn hready => ?_, fun hready =>
        (ite_congr rfl (fun _ => rfl) fun _ => if_neg (by rw [hready]; nofun)).trans (ite_self _)⟩
      obtain ⟨v, c1, hv, hring, hc1, hk1⟩ := State.oxRead_result hr q (o.ringNeed (k.span.1 + k.span.2 - 1))
        { k with waitB := false, linesB := ringBytes s team t o q (o.ringNeed (k.span.1 + k.span.2 - 1)) }
      refine ⟨_, v, c1, _, by rw [if_neg (by rw [hturn]; nofun), if_pos hready], hv, hring, hc1, hk1, hw, rfl, rfl, fun l j hl hj => ?_⟩
      exact ringBytes_get s team t o q hl hj
  · let s1 := s.modTeam team fun t => t.giveTiles n
    have hv : s1.team team = some (t.giveTiles n) := by
      rw [State.team_modTeam_same, ht]
      rfl
    have hexec : exec (.acallocGrant cl) s = .next ((s1.serveTiles cl 383).failTiles cl) := by
      rw [exec_acallocGrant, execAcallocGrant]
      show (.next ((s.serveTiles cl (383 + 1)).failTiles cl) : Next) = _
      rw [State.serveTiles, hold]
      dsimp only
      rw [if_pos hfree]
    refine ⟨_, _, hexec, State.failTiles_team (State.serveTiles_team (Tbl.rising_modify hrise _ _) hv rfl cl 383) rfl cl, rfl, rfl, fun k hk => ?_, fun k hk => ?_⟩
    · exact (Tbl.find?_foldl_ins ..).trans (if_pos hk)
    · exact (Tbl.find?_foldl_ins ..).trans (if_neg hk)
  · have hserve : s.serveTiles cl 384 = s := by
      show s.serveTiles cl (383 + 1) = _
      rw [State.serveTiles, hold]
      dsimp only
      rw [if_neg (by omega)]
    obtain ⟨w, hw, hon, hfree⟩ := hcan
    rw [exec_acallocGrant, execAcallocGrant, hserve, State.failTiles, hold]
    dsimp only
    rw [if_pos (List.any_eq_true.mpr ⟨w, hw, by rw [decide_eq_true hon, hfree]; rfl⟩)]

end Sys2Proof.Machine
end

section
/-! O43: taking a fault (R22, R285, R289 to R291, R305, R306). -/

namespace Sys2Proof.Machine

/-! ### A privileged thread -/

theorem State.takeFault_privileged {s : State} {a : AgentId} {t : Team} {x : Agent} {r : Raise} (ht : s.team a.team = some t) (hx : s.agent a = some x)
    (hk : x.kind = .privileged) (hr : r.code ≠ 0x18) : s.takeFault a r =
      if x.inh then { s.setAgent a { x.privFault r with gooseSeq := s.beatSeq } with dmcErrors := a :: (s.setAgent a { x.privFault r with gooseSeq := s.beatSeq }).dmcErrors }
      else s.setAgent a { x.privFault r with gooseSeq := s.beatSeq } := by
  unfold State.takeFault
  simp only [ht, hx, hk, if_true, if_neg hr]

/-- The registers with which a privileged thread enters its handler. -/
structure Agent.Entered (x y : Agent) (r : Raise) : Prop where
  pcause : y.pcause = r.code
  paddr : y.paddr = r.addr
  pepc : y.pepc = if r.code = 0x14 ∨ r.code = 0x15 then x.p + 1 else x.p
  phnd : y.phnd = x.phnd
  lane : (y.lane 0).w = x.phnd
  p : y.p = x.phnd
  inh : y.inh = true
  issue : y.issue = .arrive true
  regs : y.regs = x.regs

theorem Agent.privFault_entered {x : Agent} (hi : x.inh = false) (hl : x.lanes ≠ []) (r : Raise) (q : Nat) : x.Entered { x.privFault r with gooseSeq := q } r := by
  have heq : x.privFault r = { (x.modLane 0 fun l => { l with w := x.phnd }) with
      pcause := r.code, paddr := r.addr, pepc := if r.code = 0x14 ∨ r.code = 0x15 then x.p + 1 else x.p, inh := true, p := x.phnd, restart := 0,
      issue := .arrive true, block := none } := by
    unfold Agent.privFault
    rw [if_neg (by rw [hi]; nofun)]
  rw [heq]
  refine ⟨rfl, rfl, rfl, rfl, ?_, rfl, rfl, rfl, rfl⟩
  show ((x.modLane 0 fun l => { l with w := x.phnd }).lane 0).w = x.phnd
  rw [Agent.lane_modLane, if_pos ⟨rfl, List.length_pos_iff.mpr hl⟩]

/-- A privileged thread's fault outside a handler (R305). -/
theorem State.takeFault_enters {s : State} {a : AgentId} {t : Team} {x : Agent} {r : Raise} (ht : s.team a.team = some t) (hx : s.agent a = some x)
    (hk : x.kind = .privileged) (hr : r.code ≠ 0x18) (hi : x.inh = false) (hl : x.lanes ≠ []) :
    ∃ y, (s.takeFault a r).agent a = some y ∧ x.Entered y r ∧ (s.takeFault a r).parts = s.parts ∧ (s.takeFault a r).mem = s.mem ∧
      (s.takeFault a r).dmcErrors = s.dmcErrors := by
  rw [State.takeFault_privileged ht hx hk hr, if_neg (by rw [hi]; nofun)]
  exact ⟨_, State.agent_setAgent_self hx, Agent.privFault_entered hi hl r _, rfl, rfl, rfl⟩

/-- A privileged thread's fault in a handler (R305, log entry 63). -/
theorem State.takeFault_halts {s : State} {a : AgentId} {t : Team} {x : Agent} {r : Raise} (ht : s.team a.team = some t) (hx : s.agent a = some x)
    (hk : x.kind = .privileged) (hr : r.code ≠ 0x18) (hi : x.inh = true) :
    ∃ y, (s.takeFault a r).agent a = some y ∧ y.issue = .ended ∧ y.pcause = x.pcause ∧ y.pepc = x.pepc ∧ y.regs = x.regs ∧
      (s.takeFault a r).dmcErrors = a :: s.dmcErrors := by
  have hp : x.privFault r = { x with issue := .ended } := by
    unfold Agent.privFault
    rw [if_pos hi]
  rw [State.takeFault_privileged ht hx hk hr, if_pos hi, hp]
  exact ⟨_, State.agent_setAgent_self (s := s) hx, rfl, rfl, rfl, rfl, rfl⟩

/-! ### A stopped agent -/

theorem State.trace_shut {s : State} {part asid : Nat} {c : Ctx} (hc : s.ctx part asid = some c) (h : (s.debugOf part c.idx).isOpen = false) (r : Nguxis) :
    s.trace part asid r = s := by
  unfold State.trace
  rw [hc]
  dsimp only
  rw [h]
  rfl

/-- The state in which the agent stands stopped, before anything is written. -/
def State.stopped (s : State) (a : AgentId) (t : Team) (x : Agent) (r : Raise) : State :=
  (s.setAgent a (x.faulted t a.who s.beatSeq r)).modTeam a.team fun t => { t with lastStop := some { who := a.who, site := x.site } }

theorem State.stopped_sameMap (s : State) (a : AgentId) (t : Team) (x : Agent) (r : Raise) : s.SameMap (s.stopped a t x r) := ⟨rfl, rfl, rfl, rfl, rfl, rfl⟩

theorem State.stopped_debugOf (s : State) (a : AgentId) (t : Team) (x : Agent) (r : Raise) (part i : Nat) :
    (s.stopped a t x r).debugOf part i = s.debugOf part i := rfl

theorem State.stopped_team {s : State} {a : AgentId} {t : Team} {x : Agent} (ht : s.team a.team = some t) (hx : s.agent a = some x) (r : Raise) :
    ∃ ag, (s.stopped a t x r).team a.team = some { t with agents := ag, lastStop := some { who := a.who, site := x.site } } ∧
      Tbl.find? ag a.who = some (x.faulted t a.who s.beatSeq r) := by
  have hset := State.team_setAgent_self (x.faulted t a.who s.beatSeq r) ht
  refine ⟨_, by rw [State.stopped, State.team_modTeam_same, hset]; rfl, ?_⟩
  rw [State.agent, ht] at hx
  have hf : Tbl.find? t.agents a.who = some x := hx
  rw [Tbl.find?_modify_same, hf]
  rfl

section
variable {s : State} {a : AgentId} {t : Team} {x : Agent} {c : Ctx} {r : Raise} (ht : s.team a.team = some t) (hx : s.agent a = some x)
  (hk : x.kind ≠ .privileged) (hc : s.ctx t.part t.asid = some c) (hopen : (s.debugOf t.part c.idx).isOpen = false) (hr : r.code ≠ 0x18)
include ht hx hk hc hopen hr

/-- The handler that a fault goes to, where no session records the stop. -/
theorem State.takeFault_shut : s.takeFault a r =
    if a.who = ctlWho then
      if !c.dbg then ((s.stopped a t x r).writeRecord (t.cluster.getD 0) t.part t.asid t.slot a.who (recOf t a.who x r).encode).1.endContext t.part t.asid (recOf t a.who x r).encode
      else match (s.stopped a t x r).openDisp (t.cluster.getD 0) t.part t.asid t.slot a.who (recOf t a.who x r).encode with
        | (s3, false) => s3.endContext t.part t.asid (recOf t a.who x r).encode
        | (s3, true) => s3.fqSend t.part { bytes := (recOf t a.who x r).encode, replay := none }
    else match (s.stopped a t x r).openDisp (t.cluster.getD 0) t.part t.asid t.slot a.who (recOf t a.who x r).encode with
      | (s3, false) => s3.endContext t.part t.asid (recOf t a.who x r).encode
      | (s3, true) => s3.postFault a.team 0x02 0 x.cseq (r.code.toNat * 256 + whoGroup a.who) (recOf t a.who x r) := by
  have hctx : (s.stopped a t x r).ctx t.part t.asid = some c := (s.stopped_sameMap a t x r).ctx t.part t.asid |>.trans hc
  have htrace : ∀ q, (s.stopped a t x r).trace t.part t.asid q = s.stopped a t x r := fun q => State.trace_shut hctx hopen q
  unfold State.takeFault
  simp -zeta only [ht, hx, hk, if_false, if_neg hr]
  extract_lets rec0 s1 s0 s2
  have h0 : s0 = s.stopped a t x r := by
    unfold s0
    split
    · exact htrace _
    · rfl
  have h2 : s2 = s.stopped a t x r := by
    unfold s2
    rw [h0]
    exact htrace _
  rw [h2, hctx] <;> rfl

end

/-- A form marked P is due for a privileged thread alone (R47). -/
theorem Due.privileged {i : Instr} {f : Fields} {s : State} {b : Beat} (h : Due i f s b) (hf : ∃ n, formOf i = some (n, f))
    (hm : (rowFor i).map Row.mark = some .p) : b.x.kind = .privileged := by
  obtain ⟨hmark, -⟩ := h.checks hf
  rw [h.row_eq] at hm
  rw [show b.row.mark = .p from Option.some.inj hm] at hmark
  cases hk : b.x.kind
  · rw [hk] at hmark
    cases hmark
  · rw [hk] at hmark
    cases hmark
  · rfl

/-- A due beat of a privileged thread outside a handler that raises a fault (R305). -/
theorem Due.enters {i : Instr} {f : Fields} {s : State} {b : Beat} (h : Due i f s b) (hal : b.alive) (hk : b.x.kind = .privileged) (hi : b.x.inh = false)
    {body : Beat → State → Out} (hb : body b (s.begun b) = issueFault b 0x01) :
    ∃ t y, issueBeat i f s body = .next t ∧ t.agent b.a = some y ∧ y.pcause = 0x01 ∧ y.pepc = b.x.p ∧ (y.lane 0).w = b.x.phnd ∧ y.inh = true ∧
      y.issue = .arrive true ∧ y.regs = b.x.regs ∧ t.parts = s.parts := by
  have hl : b.x.lanes ≠ [] := by
    rintro he
    refine hal ?_
    unfold Agent.runLanes Agent.laneNos
    rw [he]
    rfl
  let w : Bool := (shapeOf i f).whole
  let r0 := beatFault 0x01 b.perf 0 false
  have hcode : (r0.forWhole w b.perf).code = 0x01 := by
    unfold Raise.forWhole
    split <;> rfl
  let x1 : Agent := { b.x with arr := { b.x.arr with wk := 0 }, restart := if w || r0.whole then 0 else b.quad }
  let s1 : State := (s.waited b.a).modAgent b.a fun x => { x with restart := if w || r0.whole then 0 else b.quad }
  have hx1 : s1.agent b.a = some x1 := by
    rw [State.agent_modAgent_same, State.waited_agent h.agent]
    rfl
  obtain ⟨t1, ht1, -⟩ : ∃ t1, s1.team b.a.team = some t1 ∧ t1.bare = b.t.bare := ((s.fixed_modAgent b.a _).trans (State.fixed_modAgent _ b.a _)).team h.team
  obtain ⟨z, hz, hent, hparts, -, -⟩ := State.takeFault_enters ht1 hx1 hk (by rw [hcode]; decide) hi hl (r := r0.forWhole w b.perf)
  obtain ⟨hd, hy⟩ := State.markHeld_self hz
  refine ⟨_, _, by rw [issueBeat_due h, hb]; rfl, hy, hent.pcause.trans hcode, ?_, hent.lane, hent.inh, hent.issue, hent.regs, hparts⟩
  have hp := hent.pepc
  rw [hcode] at hp
  exact hp

/-! ### The record, DISP and its entry (R289) -/

theorem State.leafPlace_parts {s u : State} (h : u.parts = s.parts) (part : Nat) (e : W64) (big : Bool) (va : Nat) :
    u.leafPlace part e big va = s.leafPlace part e big va := by
  have hp : ∀ n, u.partition n = s.partition n := State.partition_congr h
  simp only [State.leafPlace, State.onPeer, State.sliceOf, State.diesOf, hp]

/-- A device write to a translated page is a write at its place. -/
theorem State.deviceWrite_leaf {s u : State} {unit part asid va : Nat} {bs : List Byte} {pte : W64} {big : Bool}
    (hw : s.walk unit part asid (va % 2 ^ 52) = .leaf pte big) (h : s.deviceWrite unit part asid va bs = some u) :
    u = (s.writeAt (s.leafPlace part pte big (va % 2 ^ 52)) bs none).1 := by
  unfold State.deviceWrite at h
  rw [hw] at h
  dsimp only at h
  split at h
  · exact (Option.some.inj h).symm
  · cases h

/-- An entry that enters a table with room, where nothing has spilled, changes no byte. -/
theorem State.insertMon_plain {s u : State} {m : Mon} (h : s.insertMon m = some u) (hm : ∀ k ∈ s.mons, k.spill = none) (hlen : s.mons.length < 512) :
    u.mem = s.mem ∧ ∃ k ∈ u.mons, k.same m = true := by
  unfold State.insertMon at h
  split at h
  next hany =>
    extract_lets s1 at h
    have hmons : ∀ k ∈ s1.mons, k.spill = none := fun k hk => by
      obtain ⟨e, he, rfl⟩ := List.mem_map.mp (show k ∈ s.mons.map _ from hk)
      split
      · exact hm e he
      · exact hm e he
    have hu : u = s1 := by
      rw [← Option.some.inj h]
      refine foldl_keeps (fun v : State => v = s1) (State.respill m) s1.mons (fun v e he hv => ?_) s1 rfl
      unfold State.respill
      rw [hmons e he]
      exact hv
    obtain ⟨e, he, hs⟩ := List.any_eq_true.mp hany
    rw [hu]
    refine ⟨rfl, { e with lanes := e.lanes ||| m.lanes }, List.mem_map.mpr ⟨e, he, ?_⟩, hs⟩
    rw [if_pos hs]
  next =>
    rw [if_pos (lt_of_le_of_lt (List.length_filter_le ..) hlen)] at h
    rw [← Option.some.inj h]
    refine ⟨rfl, m, List.mem_append_right _ (List.mem_singleton_self m), ?_⟩
    simp [Mon.same]

theorem Rec.encode_length (r : Rec) : r.encode.length = 32 := toBytes_length ..

theorem State.compare_mons_le (s : State) (loc n c : Nat) : (s.compare loc n c).mons.length ≤ s.mons.length := by
  unfold State.compare
  extract_lets hit out
  exact foldl_keeps (fun u : State => u.mons.length ≤ s.mons.length)
    (fun t m => t.sendWake { mon := m, value := s.monWord m, pred := true, c := c, stamp := s.writeSeq }) out (fun u m _ hu => hu) _ (List.length_filter_le ..)

/-- No write lengthens the monitor table (R260). -/
theorem State.writeAt_mons_le (s : State) (p : Place) (bs : List Byte) (cl : Option Nat) : (s.writeAt p bs cl).1.mons.length ≤ s.mons.length := by
  have hmons : (((({ s with writeSeq := s.writeSeq + 1 } : State).recall (p.loc / 128) cl).touchLine p 0).rewritten (p.loc / 128) bs.length).mons =
      s.mons := by simp
  unfold State.writeAt State.writeWith
  cases p.owned with
  | slice =>
    simp only
    generalize ((({ s with writeSeq := s.writeSeq + 1 } : State).recall (p.loc / 128) cl).touchLine p 0).rewritten (p.loc / 128) bs.length = u at hmons ⊢
    split
    · exact le_of_eq (congrArg List.length hmons)
    · have hroom : ∀ v : State, v.mons = u.mons → ∀ r c, (((v.poke p.loc bs).setLine (p.loc / 128) r).compare p.loc bs.length c).mons.length ≤ s.mons.length :=
        fun v hv r c => (State.compare_mons_le ..).trans (le_of_eq (congrArg List.length (hv.trans hmons)))
      split
      · exact hroom _ (State.makeRoom_mons ..) _ _
      · exact hroom u rfl _ _
  | scratch t | pinned | peer => exact le_rfl

/-- Two writes that do not overlap both stand, where no entry is written to memory. -/
theorem State.writes_apart {s s1 s2 : State} {pr pd : Place} {bs ds : List Byte} (e1 : s1 = (s.writeAt pr bs none).1) (e2 : s2 = (s1.writeAt pd ds none).1)
    (hm : ∀ k ∈ s.mons, k.spill = none) (hap : pr.loc + bs.length ≤ pd.loc ∨ pd.loc + ds.length ≤ pr.loc) :
    s2.read pr.loc bs.length = bs ∧ s2.read pd.loc ds.length = ds ∧ (∀ k ∈ s2.mons, k ∈ s.mons) ∧ s2.mons.length ≤ s.mons.length := by
  obtain ⟨hsub1, hb1⟩ := s.writeWith_bytes pr bs none 0
  obtain ⟨hsub2, hb2⟩ := s1.writeWith_bytes pd ds none 0
  rw [← State.writeAt, ← e1] at hsub1 hb1
  rw [← State.writeAt, ← e2] at hsub2 hb2
  have hm1 : ∀ k ∈ s1.mons, k.spill = none := fun k hk => hm k (hsub1 k hk)
  refine ⟨State.read_of_byteAt fun k hk => ?_, State.read_of_byteAt fun k hk => ?_, fun k hk => hsub1 k (hsub2 k hk), ?_⟩
  · rw [hb2 _ (State.spillByte_none hm1 _), if_neg (by omega), hb1 _ (State.spillByte_none hm _), if_pos (by omega), Nat.add_sub_cancel_left]
  · rw [hb2 _ (State.spillByte_none hm1 _), if_pos (by omega), Nat.add_sub_cancel_left]
  · rw [e2]
    refine (s1.writeAt_mons_le pd ds none).trans ?_
    rw [e1]
    exact s.writeAt_mons_le pr bs none

section
variable {s s1 s2 s3 : State} {die part asid slot who : Nat} {c : Ctx} {rec : List Byte} {pteD : W64} {bigD : Bool}
  (hc : s.ctx part asid = some c) (hwho : who ≠ ctlWho) (h1 : s.deviceWrite die part asid (tcbVa c slot + 32 * who) rec = some s1)
  (hw : s1.walk die part asid ((tcbVa c slot + (0x1080 + 4 * who)) % 2 ^ 52) = .leaf pteD bigD)
  (h2 : s1.deviceWrite die part asid (tcbVa c slot + (0x1080 + 4 * who)) (toBytes 4 0) = some s2)
  (h3 : s2.insertMon (dispMon s2 part asid slot who (tcbVa c slot + (0x1080 + 4 * who)) pteD bigD) = some s3)
include hc hwho h1 hw h2 h3

/-- Where the record and DISP can be written and the entry on DISP registers, they are, in that order. -/
theorem State.openDisp_opens : s.openDisp die part asid slot who rec = (s3, true) := by
  have hrec : s.writeRecord die part asid slot who rec = (s1, true) := by
    unfold State.writeRecord
    rw [hc]
    dsimp only
    rw [if_neg hwho, h1]
  unfold State.openDisp
  rw [hrec, hc]
  dsimp only
  rw [if_neg hwho, h2, hw]
  dsimp only
  rw [if_pos rfl, h3]

omit h3 hc hwho in
/-- The bytes of the record and of DISP stand in memory once both are written. -/
theorem State.openDisp_bytes {pteR : W64} {bigR : Bool} (hm : ∀ k ∈ s.mons, k.spill = none) (hlen : rec.length = 32)
    (hwr : s.walk die part asid ((tcbVa c slot + 32 * who) % 2 ^ 52) = .leaf pteR bigR)
    (hap : (s.leafPlace part pteR bigR ((tcbVa c slot + 32 * who) % 2 ^ 52)).loc + 32 ≤ (s.leafPlace part pteD bigD ((tcbVa c slot + (0x1080 + 4 * who)) % 2 ^ 52)).loc ∨
      (s.leafPlace part pteD bigD ((tcbVa c slot + (0x1080 + 4 * who)) % 2 ^ 52)).loc + 4 ≤ (s.leafPlace part pteR bigR ((tcbVa c slot + 32 * who) % 2 ^ 52)).loc) :
    s2.read (s.leafPlace part pteR bigR ((tcbVa c slot + 32 * who) % 2 ^ 52)).loc 32 = rec ∧
      s2.read (s.leafPlace part pteD bigD ((tcbVa c slot + (0x1080 + 4 * who)) % 2 ^ 52)).loc 4 = toBytes 4 0 ∧
      (∀ k ∈ s2.mons, k ∈ s.mons) ∧ s2.mons.length ≤ s.mons.length := by
  have e1 := State.deviceWrite_leaf hwr h1
  have e2 := State.deviceWrite_leaf hw h2
  rw [e1, State.leafPlace_parts (s.writeAt_parts ..), ← e1] at e2
  generalize s.leafPlace part pteR bigR ((tcbVa c slot + 32 * who) % 2 ^ 52) = pr at *
  generalize s.leafPlace part pteD bigD ((tcbVa c slot + (0x1080 + 4 * who)) % 2 ^ 52) = pd at *
  obtain ⟨hr, hd, hsub⟩ := State.writes_apart e1 e2 hm (by rw [hlen, toBytes_length]; exact hap)
  rw [hlen] at hr
  rw [toBytes_length] at hd
  exact ⟨hr, hd, hsub⟩

end

/-- A group's fault, where the record and DISP can be written and the entry registers: its team holds the event (R289). -/
theorem State.takeFault_opens {s s3 : State} {a : AgentId} {t : Team} {x : Agent} {c : Ctx} {r : Raise} (ht : s.team a.team = some t) (hx : s.agent a = some x)
    (hk : x.kind ≠ .privileged) (hc : s.ctx t.part t.asid = some c) (hopen : (s.debugOf t.part c.idx).isOpen = false) (hr : r.code ≠ 0x18) (hwho : a.who ≠ ctlWho)
    (hd : (s.stopped a t x r).openDisp (t.cluster.getD 0) t.part t.asid t.slot a.who (recOf t a.who x r).encode = (s3, true)) :
    (t.ctlGone = true → s.takeFault a r = s3.endContext t.part t.asid (recOf t a.who x r).encode) ∧
    (t.ctlGone = false → ∃ u, (s.takeFault a r).team a.team = some u ∧ (s.takeFault a r).agent a = some (x.faulted t a.who s.beatSeq r) ∧ u.q = t.q ∧
      u.heldEvents = t.heldEvents ++ [{ word := eventWord 0x02 0 x.cseq (r.code.toNat * 256 + whoGroup a.who), bytes := (recOf t a.who x r).encode }] ∧
      (s.takeFault a r).mem = s3.mem ∧ (s.takeFault a r).mons = s3.mons) := by
  obtain ⟨ag, hteam, hag⟩ := State.stopped_team ht hx r
  have hteams := (s.stopped a t x r).openDisp_teams (t.cluster.getD 0) t.part t.asid t.slot a.who (recOf t a.who x r).encode
  rw [hd] at hteams
  have h3 : s3.team a.team = some { t with agents := ag, lastStop := some { who := a.who, site := x.site } } :=
    (congrArg (fun m => Tbl.find? m a.team) hteams).trans hteam
  rw [State.takeFault_shut ht hx hk hc hopen hr, if_neg hwho, hd]
  dsimp only
  unfold State.postFault
  rw [h3]
  dsimp only
  refine ⟨fun hg => by rw [if_pos hg], fun hg => ?_⟩
  rw [if_neg (by rw [hg]; nofun)]
  let rec0 := (recOf t a.who x r).encode
  have hteam3 := State.team_modTeam_same s3 a.team fun t =>
    if 0x02 = 0x02 then t.holdEvent (eventWord 0x02 0 x.cseq (r.code.toNat * 256 + whoGroup a.who)) rec0
    else t.pushEvent (eventWord 0x02 0 x.cseq (r.code.toNat * 256 + whoGroup a.who)) rec0
  rw [h3] at hteam3
  refine ⟨_, hteam3, ?_, rfl, rfl, rfl, rfl⟩
  rw [State.agent, hteam3]
  exact hag

/-- An uncorrectable error that an agent consumes ends its context (R351). -/
theorem State.takeFault_consumed {s : State} {a : AgentId} {t : Team} {x : Agent} {r : Raise} (ht : s.team a.team = some t) (hx : s.agent a = some x)
    (hr : r.code = 0x18) : s.takeFault a r = s.endContext t.part t.asid (recOf t a.who x r).encode := by
  unfold State.takeFault
  simp only [ht, hx, if_pos hr]

/-- Settles O43: the entry of a privileged thread, the three ways a stop can go, and the two ends of the context. -/
theorem faultEntry : Obligations.FaultEntry := by
  unfold Obligations.FaultEntry privilegedFault stoppedAgent
  refine ⟨⟨fun s a t x r ht hx hk hl hr => ⟨fun hi => ?_, fun hi => State.takeFault_halts ht hx hk hr hi⟩, fun i f s b h hp hal hcase hi => ?_⟩, ?_, ?_, ?_⟩
  · obtain ⟨y, hy, he, -, hmem, hdmc⟩ := State.takeFault_enters ht hx hk hr hi hl
    exact ⟨y, hy, he.pcause, he.paddr, he.pepc, he.phnd, he.lane, he.p, he.inh, he.issue, he.regs, hmem, hdmc⟩
  · have hpriv : b.x.kind = .privileged := by
      rcases hcase with ⟨rfl, -⟩ | ⟨rfl, -⟩
      · exact h.privileged ⟨_, rfl⟩ rfl
      · exact h.privileged ⟨_, rfl⟩ rfl
    rcases hcase with ⟨rfl, hno⟩ | ⟨rfl, -⟩
    · rw [exec_csrw]
      refine h.enters hal hpriv hi (body := fun b s1 => let w := regOrZero b.x f.a
        if b.perf = 0 then .done s1 else if csrTakes f.imm.toNat w then .done (s1.setCsr b.a f.imm.toNat w) else issueFault b 0x01) ?_
      simp only [hp, hno, if_false, Bool.false_eq_true]
    · rw [exec_eret]
      refine h.enters hal hpriv hi (body := fun b s1 =>
        if b.perf = 0 then .done s1 else if b.x.inh then .done (s1.modAgent b.a Agent.privReturn) else issueFault b 0x01) ?_
      simp only [hp, hi, if_false, Bool.false_eq_true]
  · intro s s1 s2 s3 a t x c r pteR pteD bigR bigD ht hx hk hwho hc hopen hr cl recVa dispVa rec0 word pr pd s0 m z hwr h1 hw h2 h3
    have hs0 : s0 = s.stopped a t x r := rfl
    have hctx : s0.ctx t.part t.asid = some c := ((s.stopped_sameMap a t x r).ctx t.part t.asid).trans hc
    have hd : s0.openDisp cl t.part t.asid t.slot a.who rec0 = (s3, true) := State.openDisp_opens hctx hwho h1 hw h2 h3
    obtain ⟨hgone, hthere⟩ := State.takeFault_opens ht hx hk hc hopen hr hwho hd
    refine ⟨fun hg => ?_, hgone⟩
    obtain ⟨u, hu, hy, hq, hheld, hmem, hmons⟩ := hthere hg
    refine ⟨_, u, hy, ⟨rfl, _, rfl, rfl, rfl⟩, rfl, rfl, rfl, rfl, hu, by rw [Team.queue, hq, Team.queue], hheld, fun hspill hlen hap => ?_⟩
    obtain ⟨hrec, hdisp, hsub, hle⟩ := State.openDisp_bytes h1 hw h2 (s := s0) hspill (Rec.encode_length _) hwr hap
    obtain ⟨hmem3, hmon⟩ := State.insertMon_plain h3 (fun k hk => hspill k (hsub k hk)) (lt_of_le_of_lt hle hlen)
    have hread : ∀ p n, z.read p n = s2.read p n := State.read_congr (hmem.trans hmem3)
    refine ⟨(hread ..).trans hrec, (hread ..).trans hdisp, ?_⟩
    rw [hmons]
    exact hmon
  · intro s team t x c r ht hx hk hc hdbg he hopen
    by_cases hr : r.code = 0x18
    · rw [State.takeFault_consumed (a := ⟨team, ctlWho⟩) ht hx hr]
      obtain ⟨u, hu, hend, hnone⟩ := State.team_endContext_self ht he (recOf t ctlWho x r).encode
      exact ⟨u, hu, hnone, hend⟩
    · rw [State.takeFault_shut (a := ⟨team, ctlWho⟩) ht hx hk hc hopen hr, if_pos rfl, if_pos (by rw [hdbg]; rfl)]
      obtain ⟨ag, hteam, -⟩ := State.stopped_team (a := ⟨team, ctlWho⟩) ht hx r
      obtain ⟨u, hu, hend, hnone⟩ := State.team_endContext_self (team := team)
        (s := ((s.stopped ⟨team, ctlWho⟩ t x r).writeRecord (t.cluster.getD 0) t.part t.asid t.slot ctlWho (recOf t ctlWho x r).encode).1)
        ((congrArg (fun m => Tbl.find? m team) (State.writeRecord_teams ..)).trans hteam) he (recOf t ctlWho x r).encode
      exact ⟨u, hu, hnone, hend⟩
  · intro s a t x r ht hx hr he
    rw [State.takeFault_consumed ht hx hr]
    obtain ⟨u, hu, hend, hnone⟩ := State.team_endContext_self ht he (recOf t a.who x r).encode
    exact ⟨u, hu, hnone, hend⟩

end Sys2Proof.Machine
end

section
/-! O29: team and named barriers (R86, R87, R89). -/

namespace Sys2Proof.Machine

/-! ### What happens to agents changes no team beyond them -/

/-- Where no line stores an uncorrectable error, none does, and every team is as before but for its agents. -/
structure State.Bare (s t : State) : Prop where
  clean : s.Clean t
  teams : s.flaws = [] → ∀ n, (t.team n).map Team.bare = (s.team n).map Team.bare

namespace State.Bare

theorem refl (s : State) : s.Bare s := ⟨id, fun _ _ => rfl⟩
theorem trans {s t u : State} (h : s.Bare t) (k : t.Bare u) : s.Bare u := ⟨k.clean ∘ h.clean, fun hf n => (k.teams (h.clean hf) n).trans (h.teams hf n)⟩
theorem of_teams {s t : State} (h : t.teams = s.teams) (hf : s.Clean t) : s.Bare t := ⟨hf, fun _ n => by rw [State.team, State.team, h]⟩
theorem foldl {α : Type} {f : State → α → State} (hf : ∀ (u : State) (a : α), State.Bare u (f u a)) (l : List α) (s : State) : s.Bare (l.foldl f s) :=
  foldl_keeps (fun u => s.Bare u) f l (fun u a _ hu => hu.trans (hf u a)) s (refl s)

theorem team {s t : State} (h : s.Bare t) (hf : s.flaws = []) {n : Nat} {u : Team} (hu : s.team n = some u) : ∃ v, t.team n = some v ∧ v.bare = u.bare := by
  have hn := h.teams hf n
  rw [hu] at hn
  exact Option.map_eq_some_iff.mp hn

end State.Bare

theorem State.SameData.bare {s t : State} (h : s.SameData t) : s.Bare t := .of_teams h.2.1 h.2.2

theorem State.bare_modAgent (s : State) (a : AgentId) (f : Agent → Agent) : s.Bare (s.modAgent a f) := ⟨id, fun _ => (s.fixed_modAgent a f).teams⟩

theorem State.bare_setAgent (s : State) (a : AgentId) (x : Agent) : s.Bare (s.setAgent a x) := s.bare_modAgent a _

theorem State.bare_stored (s : State) (q : Perf) (n : Nat) (o : MemOp) (bs : List Byte) (near : Bool) (c : Option Nat) : s.Bare (s.stored q n o bs near c) := by
  unfold State.stored
  extract_lets chip vline s1
  clear_value chip
  have h1 : s.Bare s1 := s.bare_modAgent ..
  split
  · split
    · exact h1.trans (.of_teams rfl id)
    · exact h1
  · exact s.bare_modAgent ..

theorem State.bare_storePerforms (s : State) (q : Perf) (n : Nat) (o : MemOp) (bs : List Byte) : s.Bare (s.storePerforms q n o bs) :=
  (State.Bare.of_teams (State.writeWith_keeps ..).1 (State.writeWith_keeps ..).2).trans (State.bare_stored ..)

theorem State.bare_performs (s : State) (q : Perf) (n : Nat) (o : MemOp) : s.Bare (s.performs q n o) := by
  unfold State.performs
  cases o.kind with
  | load size reply off =>
    simp only [State.loadPerforms]
    split
    · exact .refl s
    · exact (s.readBy_same ..).bare.trans (State.bare_modAgent ..)
  | store bs => exact s.bare_storePerforms q n o bs
  | zero => exact (State.Bare.of_teams (s.zeroed_same ..).1 (s.zeroed_same ..).2).trans (State.bare_stored ..)
  | atomic fn ty rm cas v reply =>
    have h1 : s.Bare (s.rmw q o ty (atomicStores fn ty rm cas v)).2.2.2.2 := .of_teams (s.rmw_teams ..).1 (s.rmw_teams ..).2
    simp only [State.atomicPerforms]
    split
    · exact h1.trans (State.bare_modAgent ..)
    · exact h1.trans (State.bare_stored ..)
  | replayed ty new =>
    simp only [State.replayPerforms]
    split
    · exact s.bare_storePerforms ..
    · exact s.bare_modAgent ..

theorem State.bare_performsAt (s : State) (q : Perf) (n : Nat) (o : MemOp) : s.Bare (s.performsAt q n o) :=
  ⟨fun h => by rw [State.performsAt_clean h]; exact (s.bare_performs q n o).clean h,
   fun h => by rw [State.performsAt_clean h]; exact (s.bare_performs q n o).teams h⟩

theorem State.bare_access (s : State) (a : AgentId) (n : Nat) : s.Bare (s.access a n) := by
  unfold State.access
  split
  · split
    · split
      · exact (State.Bare.foldl (fun u e => u.bare_performsAt _ _ _) _ s).trans (State.bare_modAgent ..)
      · exact .refl s
    · exact .refl s
  · exact .refl s

theorem State.bare_accessAll (s : State) (a : AgentId) : s.Bare (s.accessAll a) := by
  unfold State.accessAll
  split
  · exact .refl s
  · exact .foldl (fun u n => u.bare_access a n) _ s

theorem State.bare_applyAck (s : State) (a : AgentId) (n : Nat) : s.Bare (s.applyAck a n) := by
  unfold State.applyAck
  split
  · split
    · exact .refl s
    · dsimp only
      split
      · exact (s.bare_setAgent ..).trans (.of_teams rfl id)
      · exact s.bare_setAgent ..
  · exact .refl s

theorem State.bare_agentEnded (s : State) (a : AgentId) : s.Bare (s.agentEnded a) := by
  have h : s.Bare (s.applyAcks a) := by
    unfold State.applyAcks
    dsimp only
    split
    · exact s.bare_accessAll a
    · exact (s.bare_accessAll a).trans (.foldl (fun u n => u.bare_applyAck a n) _ _)
  exact h.trans (State.bare_modAgent ..)

theorem State.bare_census (s : State) (a : AgentId) (frm : Nat) : s.Bare (s.census a frm) := by
  unfold State.census
  split
  next t x _ hx =>
    split
    · split
      · exact s.bare_agentEnded a
      · exact s.bare_setAgent ..
    · extract_lets f gf s1 from' x1 ws
      split
      · have h1 : s.Bare s1 := ⟨(setFrame_keeps s a t x hx ..).clean, fun _ => (State.fixed_setFrame ..).teams⟩
        exact h1.trans (State.bare_modAgent ..)
      · split <;> exact s.bare_setAgent ..
  · exact .refl s

/-- The census sends an agent with a running lane to an index, whatever it stood at (R63). -/
theorem State.census_running {s : State} {a : AgentId} {x : Agent} (hx : s.agent a = some x) (hr : x.runLanes ≠ []) (frm : Nat) : (s.census a frm).RunsOn a x := by
  have hset : ∀ z : Agent, (s.setAgent a z).agent a = some z := fun z => State.agent_setAgent_self hx
  unfold State.census
  split
  next t y _ hy =>
    obtain rfl := Option.some.inj (hy.symm.trans hx)
    split
    next h => exact absurd h hr
    next =>
      dsimp only
      split
      · obtain ⟨z, hz, hzc⟩ := setFrame_agent s a t y y.f.toNat (BitVec.ofNat 28 frm) hy
        exact ⟨_, by rw [State.agent_modAgent_same, hz]; rfl, by exact hzc, .inr rfl⟩
      · split
        · exact ⟨_, hset _, rfl, .inr rfl⟩
        · exact ⟨_, hset _, rfl, .inr rfl⟩
  next hno =>
    obtain ⟨t, ht⟩ : ∃ t, s.team a.team = some t := by
      unfold State.agent at hx
      cases ht : s.team a.team with
      | none => simp [ht] at hx
      | some t => exact ⟨t, rfl⟩
    exact absurd hx (hno t x ht)

/-! ### The release of a barrier phase -/

/-- A waiter of a barrier that has released goes on. -/
def State.passWaiter (team : Nat) (u : State) (g : Nat) : State :=
  match u.agent ⟨team, g⟩ with
  | none => u
  | some x => if x.issue = .barrier then (u.setAgent ⟨team, g⟩ x.passBarrier).census ⟨team, g⟩ (x.p.toNat + 1) else u

theorem State.bare_passWaiter (team : Nat) (u : State) (g : Nat) : u.Bare (u.passWaiter team g) := by
  unfold State.passWaiter
  split
  · exact .refl u
  · split
    · exact (u.bare_setAgent ..).trans (State.bare_census ..)
    · exact .refl u

theorem State.releaseBar_eq {s : State} {team id : Nat} {t : Team} {k : Bar} (ht : s.team team = some t) (hk : Tbl.find? t.bars id = some k) :
    s.releaseBar team id = k.waiters.foldl (State.passWaiter team) (s.modTeam team fun t => { t with bars := Tbl.del t.bars id }) := by
  unfold State.releaseBar
  rw [ht]
  dsimp only
  rw [hk]
  rfl

/-- The barrier that releases is zero again, and nothing else of its team but its agents changes. -/
theorem State.releaseBar_team {s : State} (hf : s.flaws = []) {team id : Nat} {t : Team} {k : Bar} (ht : s.team team = some t) (hk : Tbl.find? t.bars id = some k) :
    ∃ v, (s.releaseBar team id).team team = some v ∧ v.bare = ({ t with bars := Tbl.del t.bars id } : Team).bare := by
  rw [State.releaseBar_eq ht hk]
  refine (State.Bare.foldl (fun u g => u.bare_passWaiter team g) k.waiters (s.modTeam team fun t => { t with bars := Tbl.del t.bars id })).team hf ?_
  rw [State.team_modTeam_same, ht]
  rfl

theorem State.passWaiter_other {s : State} (hf : s.flaws = []) {a : AgentId} {g : Nat} (hg : g ≠ a.who) : (s.passWaiter a.team g).agent a = s.agent a := by
  have hne : a ≠ ⟨a.team, g⟩ := fun h => hg (congrArg AgentId.who h).symm
  unfold State.passWaiter
  split
  · rfl
  next x _ =>
    split
    · exact ((State.others_setAgent s ⟨a.team, g⟩ x.passBarrier).trans (State.census_others _ _ _)).agent hf a hne
    · rfl

theorem State.passWaiter_runsOn {s : State} (hf : s.flaws = []) {a : AgentId} {z : Agent} (h : s.RunsOn a z) (g : Nat) : (s.passWaiter a.team g).RunsOn a z := by
  obtain ⟨y, hy, hc, hi⟩ := h.found
  by_cases hg : g = a.who
  · have hsame : s.passWaiter a.team g = s := by
      unfold State.passWaiter
      rw [hg, hy]
      exact if_neg (h.notBarrier y hy)
    rw [hsame]
    exact h
  · exact ⟨y, (State.passWaiter_other hf hg).trans hy, hc, hi⟩

theorem State.passWaiters_runsOn {s : State} (hf : s.flaws = []) {a : AgentId} {z : Agent} (h : s.RunsOn a z) (ws : List Nat) :
    (ws.foldl (State.passWaiter a.team) s).RunsOn a z ∧ (ws.foldl (State.passWaiter a.team) s).flaws = [] :=
  foldl_keeps (fun u : State => u.RunsOn a z ∧ u.flaws = []) (State.passWaiter a.team) ws
    (fun u g _ hu => ⟨State.passWaiter_runsOn hu.2 hu.1 g, (u.bare_passWaiter a.team g).clean hu.2⟩) s ⟨h, hf⟩

/-- An agent that waits in the barrier goes on once, with its lanes past it (R86). -/
theorem State.passWaiters_self {s : State} (hf : s.flaws = []) {a : AgentId} {x : Agent} (hx : s.agent a = some x) (hi : x.issue = .barrier)
    (hr : x.passBarrier.runLanes ≠ []) {ws : List Nat} (hw : a.who ∈ ws) :
    (ws.foldl (State.passWaiter a.team) s).RunsOn a x.passBarrier ∧ (ws.foldl (State.passWaiter a.team) s).flaws = [] := by
  induction ws generalizing s with
  | nil => cases hw
  | cons g ws ih =>
    rw [List.foldl_cons]
    have hf1 := (s.bare_passWaiter a.team g).clean hf
    by_cases hg : g = a.who
    · refine State.passWaiters_runsOn hf1 ?_ ws
      unfold State.passWaiter
      rw [hg, hx]
      dsimp only
      rw [if_pos hi]
      exact State.census_running (State.agent_setAgent_self hx) hr _
    · refine ih hf1 ((State.passWaiter_other hf hg).trans hx) ?_
      rcases List.mem_cons.mp hw with h | h
      · exact absurd h.symm hg
      · exact h

/-- The lanes of an agent that has passed a barrier. -/
theorem Agent.passBarrier_lane (x : Agent) (l : Nat) : x.passBarrier.lane l =
    if l ∈ lanesIn x.arr.a ∧ l < x.lanes.length then (if (x.lane l).s = .run ∧ (x.lane l).w = x.p then { x.lane l with w := x.p + 1 } else x.lane l) else x.lane l :=
  Agent.lane_foldl_modLane (lanesIn_nodup x.arr.a) (fun _ l => if l.s = .run ∧ l.w = x.p then { l with w := x.p + 1 } else l) x l

theorem Agent.passBarrier_runLanes (x : Agent) : x.passBarrier.runLanes = x.runLanes := by
  have hlen : x.passBarrier.lanes.length = x.lanes.length :=
    foldl_keeps (fun y : Agent => y.lanes.length = x.lanes.length)
      (fun y i => y.modLane i fun l => if l.s = .run ∧ l.w = x.p then { l with w := x.p + 1 } else l) (lanesIn x.arr.a)
      (fun y i _ h => (Agent.lanes_length_modLane ..).trans h) x rfl
  have hs : ∀ l, (x.passBarrier.lane l).s = (x.lane l).s := fun l => by
    rw [Agent.passBarrier_lane]
    split
    · split <;> rfl
    · rfl
  unfold Agent.runLanes Agent.laneNos
  simp only [hlen, hs]

/-- A team with one agent's record changed and a barrier's state set. -/
def Team.gathered (t : Team) (who : Nat) (g : Agent → Agent) (id : Nat) (k : Bar) : Team :=
  { t with agents := Tbl.modify t.agents who g, bars := Tbl.ins t.bars id k }

/-- The agent's team as the arrival at a barrier leaves it. -/
def State.arrivedAt (s : State) (b : Beat) (id : Nat) (k : Bar) : State :=
  (s.waitAt b).modTeam b.a.team fun t => { t with bars := Tbl.ins t.bars id k }

section
variable {i : Instr} {f : Fields} {s : State} {b : Beat} (h : Due i f s b) (id : Nat) (k : Bar)
include h

/-- The agent waits in the barrier with its lanes as they were. -/
theorem Due.arrivedAt_agent : ∃ z, (s.arrivedAt b id k).agent b.a = some z ∧ z.issue = .barrier ∧ z.lanes = b.x.lanes ∧ z.arr = b.x.arr ∧ z.p = b.x.p := by
  have hw : ∃ z, (s.waitAt b).agent b.a = some z ∧ z.issue = .barrier ∧ z.lanes = b.x.lanes ∧ z.arr = b.x.arr ∧ z.p = b.x.p := by
    rw [State.waitAt, State.agent_modAgent_same, h.agent]
    exact ⟨_, rfl, rfl, rfl, rfl, rfl⟩
  obtain ⟨z, hz, hrest⟩ := hw
  exact ⟨z, (State.agent_modTeam_keep (s.waitAt b) b.a.team (fun t => { t with bars := Tbl.ins t.bars id k }) (fun _ => rfl) b.a).trans hz, hrest⟩

theorem Due.arrivedAt_team : ∃ g : Agent → Agent, (s.arrivedAt b id k).team b.a.team = some (b.t.gathered b.a.who g id k) := by
  let g : Agent → Agent := fun x =>
    { (x.restartGoose s.beatSeq).blockOn (s.railTime b.a.team x) .barrier with issue := .barrier, restart := 0 }
  have hw : (s.waitAt b).team b.a.team = some { b.t with agents := Tbl.modify b.t.agents b.a.who g } := by
    rw [State.waitAt, State.team_modAgent, if_pos rfl, h.team]
    rfl
  refine ⟨g, ?_⟩
  rw [State.arrivedAt, State.team_modTeam_same, hw]
  rfl

end

theorem Tbl.of_mem_modify {α : Type} {m : Tbl α} {k : Nat} {f : α → α} {e : Nat × α} (h : e ∈ Tbl.modify m k f) : e ∈ m ∨ e.1 = k := by
  induction m with
  | nil => cases h
  | cons d m ih =>
    obtain ⟨j, v⟩ := d
    simp only [Tbl.modify] at h
    split at h
    · rcases List.mem_cons.mp h with rfl | hm
      · exact .inr (by assumption)
      · exact .inl (List.mem_cons_of_mem _ hm)
    · rcases List.mem_cons.mp h with rfl | hm
      · exact .inl List.mem_cons_self
      · exact (ih hm).imp (List.mem_cons_of_mem _) id

theorem Bar.mem_arrive {old : Option Bar} {n w g : Nat} : g ∈ (Bar.arrive old n (some w)).waiters ↔ g = w ∨ ∃ k, old = some k ∧ g ∈ k.waiters := by
  unfold Bar.arrive
  cases old with
  | none => simp
  | some k => simp [or_comm]

/-- The team barrier is ready with the last arrival (R86). -/
theorem Beat.barReady_iff (b : Beat) (g : Agent → Agent) :
    (b.t.gathered b.a.who g 16 (Bar.arrive (Tbl.find? b.t.bars 16) 0 (some b.a.who))).barReady = true ↔ othersArrived b := by
  have hself : b.a.who ∈ (Bar.arrive (Tbl.find? b.t.bars 16) 0 (some b.a.who)).waiters := Bar.mem_arrive.mpr (.inl rfl)
  have hiff : (b.t.gathered b.a.who g 16 (Bar.arrive (Tbl.find? b.t.bars 16) 0 (some b.a.who))).barReady = true ↔
      ∀ e ∈ Tbl.modify b.t.agents b.a.who g, e.1 = ctlWho ∨ e.2.issue = .ended ∨ e.1 ∈ (Bar.arrive (Tbl.find? b.t.bars 16) 0 (some b.a.who)).waiters := by
    unfold Team.barReady Team.gathered
    dsimp only
    rw [Tbl.find?_ins_same]
    simp only [List.ne_nil_of_mem hself, ne_eq, not_false_eq_true, decide_true, Bool.true_and, List.all_eq_true, Bool.or_eq_true, decide_eq_true_eq,
      List.contains_iff_mem, or_assoc]
  rw [hiff]
  constructor
  · intro hall e he
    rcases Tbl.mem_modify (k := b.a.who) (f := g) he with h1 | ⟨h1, -⟩
    · rcases hall e h1 with hc | hd | hw
      · exact .inl hc
      · exact .inr (.inr (.inl hd))
      · exact (Bar.mem_arrive.mp hw).elim (fun hs => .inr (.inl hs)) fun hk => .inr (.inr (.inr hk))
    · exact .inr (.inl h1)
  · intro hall e he
    rcases Tbl.of_mem_modify he with h1 | h1
    · rcases hall e h1 with hc | hs | hd | hk
      · exact .inl hc
      · exact .inr (.inr (Bar.mem_arrive.mpr (.inl hs)))
      · exact .inr (.inl hd)
      · exact .inr (.inr (Bar.mem_arrive.mpr (.inr hk)))
    · exact .inr (.inr (h1 ▸ hself))

/-! ### The end of an arrival -/

theorem State.bare_countBeat (s : State) (b : Beat) (whole : Bool) : s.Bare (s.countBeat b whole) := by
  refine ⟨fun h => (State.countBeat_flaws ..).trans h, fun _ n => ?_⟩
  obtain ⟨u, k, -, ht, he⟩ := s.countBeat_eq b whole
  rw [he]
  exact ((u.fixed_modAgent b.a _).teams n).trans (by rw [State.team, State.team, ht])

theorem State.bare_left (s t : State) (b : Beat) (whole : Bool) : t.Bare (s.conclude b whole (.left t)) :=
  (t.bare_countBeat b whole).trans ⟨id, fun _ => (State.fixed_markHeld ..).teams⟩

/-- An agent that waits keeps its place and its lanes at the count of its beat. -/
theorem State.left_agent {s t : State} {b : Beat} {z : Agent} (hz : t.agent b.a = some z) (whole : Bool) :
    ∃ y, (s.conclude b whole (.left t)).agent b.a = some y ∧ y.issue = z.issue ∧ y.lanes = z.lanes := by
  obtain ⟨f, hf, hagent⟩ := t.countBeat_agent b whole b.a
  rw [if_pos rfl, hz] at hagent
  obtain ⟨hd, hh⟩ := State.markHeld_self hagent
  exact ⟨_, hh, (hf z).2.2, (hf z).2.1⟩

/-- An agent that runs on after its barrier has released has passed it (R86). -/
theorem State.left_passed {s t : State} {b : Beat} {z : Agent} (hz : z.lanes = b.x.lanes) (ha : z.arr = b.x.arr) (hp : z.p = b.x.p)
    (hr : t.RunsOn b.a z.passBarrier) (whole : Bool) : ∃ y, (s.conclude b whole (.left t)).agent b.a = some y ∧ passedOn b y := by
  obtain ⟨y, hy, hcore, -⟩ := (State.markHeld_runsOn (State.countBeat_runsOn hr whole).1).found
  refine ⟨y, hy, fun l hl hlen hs hw => ?_⟩
  have hlane : y.lane l = z.passBarrier.lane l := congrArg (fun ls : List LaneRec => ls.getD l default) (congrArg Agent.lanes hcore : y.core.lanes = z.passBarrier.core.lanes)
  have hzl : z.lane l = b.x.lane l := congrArg (fun ls : List LaneRec => ls.getD l default) hz
  rw [hlane, Agent.passBarrier_lane, hzl, ha, hp, hz, if_pos ⟨hl, hlen⟩, if_pos ⟨hs, hw⟩]

section
variable {i : Instr} {f : Fields} {s : State} {b : Beat} (h : Due i f s b)
include h

/-- A group that has arrived and waits. -/
theorem Due.arrival_waits (s0 : State) (id : Nat) (k : Bar) (whole : Bool) :
    ∃ y u, (s0.conclude b whole (.left (s.arrivedAt b id k))).agent b.a = some y ∧
      (s0.conclude b whole (.left (s.arrivedAt b id k))).team b.a.team = some u ∧ y.issue = .barrier ∧ y.lanes = b.x.lanes ∧ Tbl.find? u.bars id = some k := by
  obtain ⟨z, hz, hi, hl, -, -⟩ := h.arrivedAt_agent id k
  obtain ⟨g, hg⟩ := h.arrivedAt_team id k
  obtain ⟨y, hy, hyi, hyl⟩ := State.left_agent (s := s0) hz whole
  obtain ⟨u, hu, hbare⟩ := (State.bare_left s0 (s.arrivedAt b id k) b whole).team h.clean hg
  refine ⟨y, u, hy, hu, hyi.trans hi, hyl.trans hl, ?_⟩
  have hbars : u.bars = Tbl.ins b.t.bars id k := (congrArg Team.bars hbare : u.bare.bars = (b.t.gathered b.a.who g id k).bare.bars)
  rw [hbars, Tbl.find?_ins_same]

/-- A group whose arrival lets the barrier release: it runs on. -/
theorem Due.arrival_runsOn (hal : b.alive) (id : Nat) (k : Bar) (hw : b.a.who ∈ k.waiters) :
    ∃ z : Agent, z.lanes = b.x.lanes ∧ z.arr = b.x.arr ∧ z.p = b.x.p ∧ ((s.arrivedAt b id k).releaseBar b.a.team id).RunsOn b.a z.passBarrier ∧
      ∃ v, ((s.arrivedAt b id k).releaseBar b.a.team id).team b.a.team = some v ∧ Tbl.find? v.bars id = none ∧ v.isEnded = b.t.isEnded := by
  obtain ⟨z, hz, hi, hl, ha, hp⟩ := h.arrivedAt_agent id k
  obtain ⟨g, hg⟩ := h.arrivedAt_team id k
  have hk : Tbl.find? (b.t.gathered b.a.who g id k).bars id = some k := Tbl.find?_ins_same ..
  have hr : z.passBarrier.runLanes ≠ [] := by
    rw [Agent.passBarrier_runLanes]
    unfold Agent.runLanes Agent.laneNos Agent.lane
    rw [hl]
    exact hal
  obtain ⟨v, hv, hbare⟩ := State.releaseBar_team (s := s.arrivedAt b id k) h.clean hg hk
  have hbars : v.bars = Tbl.del (b.t.gathered b.a.who g id k).bars id := (congrArg Team.bars hbare : v.bare.bars = _)
  refine ⟨z, hl, ha, hp, ?_, v, hv, ?_, (congrArg Team.isEnded hbare : v.bare.isEnded = _)⟩
  · rw [State.releaseBar_eq hg hk]
    refine (State.passWaiters_self (s := (s.arrivedAt b id k).modTeam b.a.team fun t => { t with bars := Tbl.del t.bars id }) (a := b.a) h.clean ?_ hi hr hw).1
    exact (State.agent_modTeam_keep (s.arrivedAt b id k) b.a.team (fun t => { t with bars := Tbl.del t.bars id }) (fun _ => rfl) b.a).trans hz
  · rw [hbars, Tbl.find?_del, if_pos rfl]

/-- The end of the beat with which a barrier releases. -/
theorem Due.arrival_releases (hal : b.alive) (s0 : State) (id : Nat) (k : Bar) (hw : b.a.who ∈ k.waiters) (whole : Bool) :
    ∃ y u, (s0.conclude b whole (.left ((s.arrivedAt b id k).releaseBar b.a.team id))).agent b.a = some y ∧
      (s0.conclude b whole (.left ((s.arrivedAt b id k).releaseBar b.a.team id))).team b.a.team = some u ∧ Tbl.find? u.bars id = none ∧ passedOn b y := by
  obtain ⟨z, hl, ha, hp, hr, v, hv, hnone, -⟩ := h.arrival_runsOn hal id k hw
  obtain ⟨y, hy, hpass⟩ := State.left_passed (s := s0) hl ha hp hr whole
  have hclean : ((s.arrivedAt b id k).releaseBar b.a.team id).flaws = [] := (State.releaseBar_regs ..).clean h.clean
  obtain ⟨u, hu, hbare⟩ := (State.bare_left s0 ((s.arrivedAt b id k).releaseBar b.a.team id) b whole).team hclean hv
  have hbars : u.bars = v.bars := (congrArg Team.bars hbare : u.bare.bars = v.bare.bars)
  exact ⟨y, u, hy, hu, by rw [hbars, hnone], hpass⟩

/-- A team barrier that an arrival readies releases when the beat settles; else the group waits (R86). -/
theorem Due.settle_arrival (hal : b.alive) (he : b.t.isEnded = false) :
    let k := Bar.arrive (Tbl.find? b.t.bars 16) 0 (some b.a.who)
    (othersArrived b → (s.arrivedAt b 16 k).settle b.a.team = (s.arrivedAt b 16 k).releaseBar b.a.team 16) ∧
    (¬ othersArrived b → (s.arrivedAt b 16 k).settle b.a.team = s.arrivedAt b 16 k) := by
  intro k
  obtain ⟨g, hg⟩ := h.arrivedAt_team 16 k
  obtain ⟨z, hz, hi, -⟩ := h.arrivedAt_agent 16 k
  have hends : (b.t.gathered b.a.who g 16 k).allEnded = false := by
    have hf : Tbl.find? (b.t.gathered b.a.who g 16 k).agents b.a.who = some z := by
      rw [State.agent, hg] at hz
      exact hz
    refine Bool.eq_false_iff.mpr fun hall => ?_
    simp only [Team.allEnded, Bool.and_eq_true, List.all_eq_true, decide_eq_true_eq] at hall
    have hend := hall.2 _ (Tbl.mem_of_find? hf)
    rw [hi] at hend
    cases hend
  have hended : (b.t.gathered b.a.who g 16 k).isEnded = false := he
  unfold State.settle
  rw [hg]
  dsimp only
  rw [if_neg (by rw [hended]; nofun), if_neg (by rw [hends]; nofun)]
  refine ⟨fun ho => ?_, fun ho => if_neg fun hr => ho ((b.barReady_iff g).mp hr)⟩
  rw [if_pos ((b.barReady_iff g).mpr ho)]
  obtain ⟨z, -, -, -, hr, v, hv, -⟩ := h.arrival_runsOn hal 16 k (Bar.mem_arrive.mpr (.inl rfl))
  rw [hv]
  dsimp only
  rw [Team.allEnded_of_runsOn hr hv]
  rfl

end

theorem Tbl.modify_congr {α : Type} {m : Tbl α} {k : Nat} {v : α} (h : Tbl.find? m k = some v) {f g : α → α} (hf : f v = g v) : Tbl.modify m k f = Tbl.modify m k g := by
  induction m with
  | nil => rfl
  | cons d m ih =>
    obtain ⟨j, w⟩ := d
    rw [Tbl.find?] at h
    rw [Tbl.modify, Tbl.modify]
    split
    next hj =>
      rw [if_pos hj] at h
      rw [Option.some.inj h, hf]
    next hj =>
      rw [if_neg hj] at h
      rw [ih h]

theorem State.modTeam_congr {s : State} {n : Nat} {t : Team} (ht : s.team n = some t) {f g : Team → Team} (hf : f t = g t) : s.modTeam n f = s.modTeam n g := by
  rw [State.modTeam, State.modTeam, Tbl.modify_congr ht hf]

theorem exec_bar (f : Fields) (s : State) : exec (.bar f) s = execBar f s := rfl
theorem exec_barn (f : Fields) (s : State) : exec (.barn f) s = execBarn f s := rfl
theorem exec_bara (f : Fields) (s : State) : exec (.bara f) s = execBara f s := rfl

theorem Due.bar {f : Fields} {s : State} {b : Beat} (h : Due (.bar f) f s b) : exec (.bar f) s = .next ((s.waited b.a).conclude b true
    (.left ((s.arrivedAt b 16 (Bar.arrive (Tbl.find? b.t.bars 16) 0 (some b.a.who))).settle b.a.team))) := by
  have hw : ∃ t0, (s.waitAt b).team b.a.team = some t0 ∧ t0.bare = b.t.bare := (s.fixed_modAgent b.a _).team h.team
  obtain ⟨t0, ht0, hbare⟩ := hw
  have hbars : t0.bars = b.t.bars := (congrArg Team.bars hbare : t0.bare.bars = b.t.bare.bars)
  have hmod : ((s.waitAt b).modTeam b.a.team fun t => { t with bars := Tbl.ins t.bars 16 (Bar.arrive (Tbl.find? t.bars 16) 0 (some b.a.who)) }) =
      s.arrivedAt b 16 (Bar.arrive (Tbl.find? b.t.bars 16) 0 (some b.a.who)) := State.modTeam_congr ht0 (by rw [hbars])
  rw [exec_bar, execBar, issueBeat_due h, hmod]
  rfl

theorem Due.barn {f : Fields} {s : State} {b : Beat} (h : Due (.barn f) f s b) (hok : barRefused b = false) :
    let k := Bar.arrive (Tbl.find? b.t.bars f.fn.toNat) (barCount b) (some b.a.who)
    exec (.barn f) s = .next ((s.waited b.a).conclude b true (.left (if k.arrived = k.count then (s.arrivedAt b f.fn.toNat k).releaseBar b.a.team f.fn.toNat
      else s.arrivedAt b f.fn.toNat k))) := by
  intro k
  rw [exec_barn, execBarn, issueBeat_due h, if_neg (by rw [hok]; nofun)]
  unfold State.arriveNamed
  rw [h.f_eq]
  rfl

/-- A BARA that lets its barrier release, or is counted: the agent runs on either way (R87). -/
theorem Due.bara {f : Fields} {s : State} {b : Beat} (h : Due (.bara f) f s b) (hok : barRefused b = false) (hal : b.alive) :
    let k := Bar.arrive (Tbl.find? b.t.bars f.fn.toNat) (barCount b) none
    ∃ t y u, exec (.bara f) s = .next t ∧ t.agent b.a = some y ∧ t.team b.a.team = some u ∧ (wantsAfter b y fun _ => b.x.p + 1) ∧
      Tbl.find? u.bars f.fn.toNat = if k.arrived = k.count then none else some k := by
  intro k
  let n := f.fn.toNat
  let s1 := (s.begun b).modTeam b.a.team fun t => { t with bars := Tbl.ins t.bars n k }
  let u := if k.arrived = k.count then s1.releaseBar b.a.team n else s1
  obtain ⟨t0, ht0, hbare⟩ := h.begun_team
  have hbars : t0.bars = b.t.bars := (congrArg Team.bars hbare : t0.bare.bars = b.t.bare.bars)
  have ht1 : s1.team b.a.team = some { t0 with bars := Tbl.ins t0.bars n k } := by
    rw [State.team_modTeam_same, ht0]
    rfl
  have hx1 : s1.agent b.a = some b.begunAgent :=
    (State.agent_modTeam_keep (s.begun b) b.a.team (fun t => { t with bars := Tbl.ins t.bars n k }) (fun _ => rfl) b.a).trans h.begun_agent
  have hu : u.flaws = [] ∧ u.agent b.a = some b.begunAgent ∧ ∃ v, u.team b.a.team = some v ∧ Tbl.find? v.bars n = if k.arrived = k.count then none else some k := by
    unfold u
    split
    · obtain ⟨v, hv, hvb⟩ := State.releaseBar_team (s := s1) h.clean ht1 (Tbl.find?_ins_same ..)
      have hvbars : v.bars = Tbl.del (Tbl.ins t0.bars n k) n := (congrArg Team.bars hvb : v.bare.bars = _)
      refine ⟨(s1.releaseBar_regs ..).clean h.clean, ?_, v, hv, by rw [hvbars, Tbl.find?_del, if_pos rfl]⟩
      rw [State.releaseBar_agent s1 h.clean b.a.team n b.a fun x hx => ?_, hx1]
      rw [← Option.some.inj (hx1.symm.trans hx), h.begun_issue]
      nofun
    · exact ⟨h.clean, hx1, _, ht1, Tbl.find?_ins_same ..⟩
  obtain ⟨hclean, hz, v, hv, hfind⟩ := hu
  obtain ⟨y, hy, hcore, hstill⟩ := State.conclude_done_runsOn (s := s.waited b.a) hclean hz h.begun_issue (b.begun_alive hal) (shapeOf (.bara f) f).whole
  obtain ⟨w, hw, hwc⟩ : ∃ w, ((s.waited b.a).conclude b (shapeOf (.bara f) f).whole (.done u)).team b.a.team = some w ∧ w.core = v.core := by
    have hteam := State.team_of_still hstill b.a.team
    rw [hv] at hteam
    exact Option.map_eq_some_iff.mp hteam
  have hne : n ≠ 16 := by
    have := f.fn.isLt
    omega
  refine ⟨_, y, w, ?_, hy, hw, b.wantsAfter_next (congrArg Agent.lanes hcore : y.core.lanes = b.begunAgent.core.lanes), ?_⟩
  · rw [exec_bara, execBara, issueBeat_due h, if_neg (by rw [hok]; nofun)]
    unfold State.arriveNamed
    rw [h.f_eq]
    rfl
  · have hdel : Tbl.del w.bars 16 = Tbl.del v.bars 16 := (congrArg Team.bars hwc : w.core.bars = v.core.bars)
    have hfd := congrArg (fun m => Tbl.find? m n) hdel
    simp only [Tbl.find?_del, if_neg hne] at hfd
    exact hfd.trans hfind

theorem Due.act_whole {i : Instr} {f : Fields} {s : State} {b : Beat} (h : Due i f s b) (hw : (shapeOf i f).whole = true) : b.act = b.x.arr.a := by
  obtain ⟨r, -, -, hb⟩ := h.now
  have hact : b.act = (nextBeat b.x (shapeOf i f).whole).1 := (congrArg Beat.act hb).trans rfl
  rw [hact, hw]
  rfl

/-- Settles O29: an arrival waits or releases; a release is a run of the waiters in which the arriving group is one. -/
theorem barriers : Obligations.Barriers := by
  unfold Obligations.Barriers
  refine ⟨fun f s b h he hal hwho => ?_, fun i f s b hi h hal => ⟨fun hok => ?_, fun hbad hk => ?_⟩⟩
  · let k := Bar.arrive (Tbl.find? b.t.bars 16) 0 (some b.a.who)
    obtain ⟨hrel, hwait⟩ := h.settle_arrival hal he
    by_cases ho : othersArrived b
    · obtain ⟨y, u, hy, hu, hnone, hpass⟩ := h.arrival_releases hal (s.waited b.a) 16 k (Bar.mem_arrive.mpr (.inl rfl)) true
      exact ⟨_, y, u, by rw [h.bar, hrel ho], hy, hu, fun _ => ⟨hnone, hpass⟩, fun hno => absurd ho hno⟩
    · obtain ⟨y, u, hy, hu, hyi, hyl, hk⟩ := h.arrival_waits (s.waited b.a) 16 k true
      exact ⟨_, y, u, by rw [h.bar, hwait ho], hy, hu, fun hyes => absurd hyes ho, fun _ => ⟨hyi, hyl, hk⟩⟩
  · rcases hi with rfl | rfl
    · rw [if_pos rfl, h.barn hok]
      by_cases hk : (Bar.arrive (Tbl.find? b.t.bars f.fn.toNat) (barCount b) (some b.a.who)).arrived =
          (Bar.arrive (Tbl.find? b.t.bars f.fn.toNat) (barCount b) (some b.a.who)).count
      · obtain ⟨y, u, hy, hu, hnone, hpass⟩ := h.arrival_releases hal (s.waited b.a) f.fn.toNat
          (Bar.arrive (Tbl.find? b.t.bars f.fn.toNat) (barCount b) (some b.a.who)) (Bar.mem_arrive.mpr (.inl rfl)) true
        exact ⟨_, y, u, by rw [if_pos hk], hy, hu, fun _ => ⟨hnone, hpass⟩, fun hno => absurd hk hno⟩
      · obtain ⟨y, u, hy, hu, hyi, hyl, hfind⟩ := h.arrival_waits (s.waited b.a) f.fn.toNat
          (Bar.arrive (Tbl.find? b.t.bars f.fn.toNat) (barCount b) (some b.a.who)) true
        exact ⟨_, y, u, by rw [if_neg hk], hy, hu, fun hyes => absurd hyes hk, fun _ => ⟨hfind, fun _ => ⟨hyi, hyl⟩, nofun⟩⟩
    · rw [if_neg nofun]
      obtain ⟨t, y, u, hnext, hy, hu, hwants, hfind⟩ := h.bara hok hal
      refine ⟨t, y, u, hnext, hy, hu, fun hk => ⟨by rw [hfind, if_pos hk], fun l hl hlen _ _ => ?_⟩, fun hk => ⟨by rw [hfind, if_neg hk], nofun, fun _ => hwants⟩⟩
      have hact : b.act.getLsbD l = true := by
        rw [h.act_whole rfl]
        exact mem_lanesIn.mp hl
      rw [hwants l hlen, if_pos hact]
  · obtain ⟨t, hnext, hstop⟩ : ∃ t, exec i s = .next t ∧ ∀ y, t.agent b.a = some y →
        y.stoppedAs 0x0B .beat ∧ y.regs = b.x.regs ∧ y.lanes = b.x.lanes ∧ y.restart = 0 := by
      rcases hi with rfl | rfl
      · exact h.faulted hk (body := fun b _ =>
          if barRefused b then .fault (beatFault 0x0B b.act 0 false) else .left ((s.waitAt b).arriveNamed b true)) (show (0x0B : Byte) ≠ 0x18 by decide) (if_pos hbad)
      · exact h.faulted hk (body := fun b s1 =>
          if barRefused b then .fault (beatFault 0x0B b.act 0 false) else .done (s1.arriveNamed b false)) (show (0x0B : Byte) ≠ 0x18 by decide) (if_pos hbad)
    exact ⟨t, hnext, fun y hy => ⟨(hstop y hy).1, (hstop y hy).2.2.2, (hstop y hy).2.2.1⟩⟩

end Sys2Proof.Machine
end

section
/-! O32: LAUNCH queues its children (R16, R284). -/

namespace Sys2Proof.Machine

theorem Tbl.ins_above {α : Type} {m : Tbl α} {k : Nat} (h : ∀ e ∈ m, e.1 < k) (v : α) : Tbl.ins m k v = m ++ [(k, v)] := by
  induction m with
  | nil => rfl
  | cons e m ih =>
    obtain ⟨j, x⟩ := e
    have hj : j < k := h _ List.mem_cons_self
    rw [Tbl.ins, if_neg (by omega), if_neg (by omega), ih fun e he => h e (List.mem_cons_of_mem _ he)]
    rfl

theorem Tbl.find?_append {α : Type} (m n : Tbl α) (k : Nat) : Tbl.find? (m ++ n) k = (Tbl.find? m k).or (Tbl.find? n k) := by
  induction m with
  | nil => rfl
  | cons e m ih =>
    obtain ⟨j, x⟩ := e
    rw [List.cons_append, Tbl.find?, Tbl.find?]
    split
    · rfl
    · exact ih

/-! ### One child -/

/-- What the reading of a packet changes: caches alone. -/
structure State.Fetches (s u : State) : Prop where
  mem : u.mem = s.mem
  clean : s.Clean u
  teams : u.teams = s.teams
  children : u.children = s.children
  order : u.orderSeq = s.orderSeq

theorem State.Fetches.refl (s : State) : s.Fetches s := ⟨rfl, id, rfl, rfl, rfl⟩
theorem State.Fetches.trans {s t u : State} (h : s.Fetches t) (k : t.Fetches u) : s.Fetches u :=
  ⟨k.mem.trans h.mem, k.clean ∘ h.clean, k.teams.trans h.teams, k.children.trans h.children, k.order.trans h.order⟩

theorem State.fetches_touchTlb (s : State) (b : Beat) (p : Place) : s.Fetches (s.touchTlb b p) := by
  unfold State.touchTlb
  split
  · exact .refl s
  · obtain ⟨l, hl⟩ := s.cacheWalk_eq b.cluster b.t.part b.t.asid p.va
    rw [hl]
    exact ⟨rfl, id, rfl, rfl, rfl⟩

theorem State.fetches_touch (s : State) (l : Nat) (p : Place) : s.Fetches ((s.recall l none).touchLine p 0) := by
  obtain ⟨hm, ht, hc⟩ := (s.recall_same l none).trans ((s.recall l none).touchLine_same p 0)
  have hstill : ((s.recall l none).touchLine p 0).still = s.still := (State.touchLine_still ..).trans (State.recall_still ..)
  exact ⟨hm, hc, ht, (congrArg State.children hstill : _ = s.still.children), (congrArg State.orderSeq hstill : _ = s.still.orderSeq)⟩

/-- The child of a lane's packet, the k-th after a state. -/
structure State.ChildOf (s : State) (b : Beat) (k : Nat) (q : Nat × Place) (c : Child) : Prop where
  packet : c.packet = s.read q.2.loc 64
  order : c.order = s.orderSeq + k
  team : c.team = b.a.team
  who : c.who = b.a.who
  part : c.part = b.t.part
  asid : c.asid = b.t.asid
  cls : c.cls = b.t.cls
  tok : c.tok = tokOf b.f.md

/-- Children queued for the lanes of a list, in its order (R284). -/
structure State.Queues (s : State) (b : Beat) (qs : List (Nat × Place)) (u : State) : Prop where
  mem : u.mem = s.mem
  clean : s.Clean u
  agents : ∀ a, u.agent a = s.agent a
  team : ∀ t, s.team b.a.team = some t → ∃ v, u.team b.a.team = some v ∧
    Tbl.get 0 v.tok (tokOf b.f.md) = Tbl.get 0 t.tok (tokOf b.f.md) + qs.length
  order : u.orderSeq = s.orderSeq + qs.length
  children : ∃ cs : Tbl Child, u.children = s.children ++ cs ∧ cs.length = qs.length ∧ (∀ e ∈ cs, e.2.part = b.t.part) ∧
    ∀ k q, qs[k]? = some q → ∃ n c, Tbl.find? u.children n = some c ∧ s.ChildOf b k q c

theorem State.queues_nil (s : State) (b : Beat) : s.Queues b [] s where
  mem := rfl
  clean := id
  agents _ := rfl
  team t ht := ⟨t, ht, rfl⟩
  order := rfl
  children := ⟨[], (List.append_nil _).symm, rfl, nofun, nofun⟩

/-- One child more, before the others. -/
theorem State.Queues.cons {s v u : State} {b : Beat} {q : Nat × Place} {qs : List (Nat × Place)} (h : s.Queues b [q] v) (k : v.Queues b qs u) :
    s.Queues b (q :: qs) u where
  mem := k.mem.trans h.mem
  clean := k.clean ∘ h.clean
  agents a := (k.agents a).trans (h.agents a)
  team t ht := by
    obtain ⟨w, hw, htok⟩ := h.team t ht
    obtain ⟨z, hz, hztok⟩ := k.team w hw
    refine ⟨z, hz, ?_⟩
    rw [hztok, htok]
    simp only [List.length_cons, List.length_nil]
    omega
  order := by
    rw [k.order, h.order]
    simp only [List.length_cons, List.length_nil]
    omega
  children := by
    obtain ⟨cs, hcs, hlen, hpart, hget⟩ := h.children
    obtain ⟨ds, hds, hdlen, hdpart, hdget⟩ := k.children
    refine ⟨cs ++ ds, by rw [hds, hcs, List.append_assoc], by rw [List.length_append, hlen, hdlen, List.length_cons, List.length_cons, List.length_nil]; omega,
      fun e he => (List.mem_append.mp he).elim (hpart e) (hdpart e), fun j r hj => ?_⟩
    cases j with
    | zero =>
      obtain ⟨n, c, hn, hc⟩ := hget 0 r hj
      exact ⟨n, c, by rw [hds, Tbl.find?_append, hn, Option.some_or], hc⟩
    | succ j =>
      obtain ⟨n, c, hn, hc⟩ := hdget j r hj
      refine ⟨n, c, hn, ?_⟩
      have ho := hc.order
      rw [h.order, List.length_cons, List.length_nil] at ho
      exact { hc with packet := hc.packet.trans (State.read_congr h.mem _ _), order := by omega }

theorem queueChild_queues (b : Beat) (s : State) (q : Nat × Place) : s.Queues b [q] (queueChild b s q) := by
  unfold queueChild
  extract_lets s1 s2 site child
  have h2 : s.Fetches s2 := by
    have h1 : s.Fetches s1 := s.fetches_touchTlb ..
    unfold s2
    split
    · exact h1.trans (s1.fetches_touch ..)
    · exact h1
  have hch : s.ChildOf b 0 q child := ⟨State.read_congr h2.mem _ _, h2.order, rfl, rfl, rfl, rfl, rfl, rfl⟩
  clear_value child s2
  exact
    { mem := h2.mem
      clean := h2.clean
      agents := fun a => (State.agent_modTeam_keep s2 b.a.team (fun t => { t with tok := Tbl.put 0 t.tok (tokOf b.f.md) (Tbl.get 0 t.tok (tokOf b.f.md) + 1) })
        (fun _ => rfl) a).trans (State.agent_congr h2.teams a)
      team := fun t ht => by
        have ht2 : s2.team b.a.team = some t := (congrArg (fun m => Tbl.find? m b.a.team) h2.teams).trans ht
        refine ⟨{ t with tok := Tbl.put 0 t.tok (tokOf b.f.md) (Tbl.get 0 t.tok (tokOf b.f.md) + 1) }, ?_, ?_⟩
        · show (s2.modTeam b.a.team _).team b.a.team = _
          rw [State.team_modTeam_same, ht2]
          rfl
        · exact (Tbl.get_put 0 t.tok (tokOf b.f.md) (tokOf b.f.md) (Tbl.get 0 t.tok (tokOf b.f.md) + 1)).trans (if_pos rfl)
      order := congrArg (· + 1) h2.order
      children := by
        have hins : Tbl.ins s2.children (Tbl.freshKey s2.children) child = s.children ++ [(Tbl.freshKey s2.children, child)] := by
          rw [Tbl.ins_above (Tbl.lt_freshKey s2.children), h2.children]
        refine ⟨[(Tbl.freshKey s2.children, child)], hins, rfl, fun e he => ?_, fun k r hk => ?_⟩
        · rw [List.mem_singleton.mp he]
          exact hch.part
        · cases k with
          | zero =>
            obtain rfl := Option.some.inj hk
            exact ⟨Tbl.freshKey s2.children, child, Tbl.find?_ins_same .., hch⟩
          | succ k => cases hk }

theorem foldl_queueChild (b : Beat) (qs : List (Nat × Place)) (s : State) : s.Queues b qs (qs.foldl (queueChild b) s) := by
  induction qs generalizing s with
  | nil => exact s.queues_nil b
  | cons q qs ih => exact (queueChild_queues b s q).cons (ih _)

/-- The queued children of a partition count. -/
theorem State.Queues.childCount {s u : State} {b : Beat} {qs : List (Nat × Place)} (h : s.Queues b qs u) :
    u.childCount b.t.part = s.childCount b.t.part + qs.length := by
  obtain ⟨cs, hcs, hlen, hpart, -⟩ := h.children
  have hall : cs.filter (fun e => e.2.part == b.t.part) = cs := List.filter_eq_self.mpr fun e he => by rw [hpart e he, beq_self_eq_true]
  rw [State.childCount, hcs, List.filter_append, hall, List.length_append, hlen]
  rfl

/-! ### The beat -/

theorem exec_launch (f : Fields) (s : State) : exec (.launch f) s = execLaunch f s := rfl

/-- The body of LAUNCH. -/
def launchBody (f : Fields) (s : State) (b : Beat) (s1 : State) : Out :=
  let all := if f.uni then 1 else (lanesIn (performing b.x f b.x.arr.a)).length
  let first := f.uni || decide ((quadsFrom b.x.arr.a 0).head? = some b.quad)
  match b.x.arr.left with
  | some qs => queueChildren s s1 b qs
  | none =>
    if first && decide (all ≠ 0) && decide (Tbl.get 0 b.t.tok (tokOf f.md) + all > 255) then
      .fault { beatFault 0x0F (performing b.x f b.x.arr.a) 0 false with whole := true }
    else if b.perf = 0 then .done s1
    else if b.a.who = ctlWho ∧ s.logRoom b.t 1 = false then .block .replayRoom
    else
      let rs := b.lanes.map fun l => (l, launchPtr b l, launchCheck s b l (launchPtr b l))
      if rs.all fun r => r.2.2.step == 9 then
        queueChildren s (s1.takeSeq b.a) b (rs.filterMap fun r => match r.2.2 with | .ok p => some (r.1, p) | _ => none)
      else firstFailing rs false

theorem execLaunch_eq (f : Fields) (s : State) : execLaunch f s = issueBeat (.launch f) f s (launchBody f s) := rfl

/-- The lanes whose packets have passed their checks, with their places. -/
theorem launchLanes_eq {s : State} {b : Beat} {qs : List (Nat × Place)} {ls : List Nat} (hfst : qs.map Prod.fst = ls)
    (hok : ∀ q ∈ qs, launchCheck s b q.1 (launchPtr b q.1) = .ok q.2) :
    let rs := ls.map fun l => (l, launchPtr b l, launchCheck s b l (launchPtr b l))
    (rs.all fun r => r.2.2.step == 9) = true ∧ (rs.filterMap fun r => match r.2.2 with | .ok p => some (r.1, p) | _ => none) = qs := by
  induction qs generalizing ls with
  | nil =>
    obtain rfl := hfst
    exact ⟨rfl, rfl⟩
  | cons q qs ih =>
    obtain rfl := hfst
    obtain ⟨h1, h2⟩ := ih rfl fun r hr => hok r (List.mem_cons_of_mem _ hr)
    have hq := hok q List.mem_cons_self
    dsimp only at h1 h2 ⊢
    rw [List.map_cons, List.map_cons, List.all_cons, List.filterMap_cons, hq, h1, h2]
    exact ⟨rfl, rfl⟩

/-- What a LAUNCH that is due queues: from the beat's state, with the thread's number taken where it has one. -/
theorem launchBody_due {f : Fields} {s : State} {b : Beat} {qs : List (Nat × Place)} (hp : b.perf ≠ 0) (hd : launchDue f s b qs) (s1 : State) :
    ∃ v, (v = s1 ∨ v = s1.takeSeq b.a) ∧ launchBody f s b s1 = queueChildren s v b qs := by
  unfold launchBody
  extract_lets all first
  rcases hd with hl | ⟨hl, hroom, htok, hfst, hok⟩
  · exact ⟨s1, .inl rfl, by rw [hl]⟩
  · refine ⟨s1.takeSeq b.a, .inr rfl, ?_⟩
    obtain ⟨hall, hqs⟩ := launchLanes_eq hfst hok
    have hfew : ¬ (first && decide (all ≠ 0) && decide (Tbl.get 0 b.t.tok (tokOf f.md) + all > 255)) = true := by
      simp only [first, Bool.and_eq_true, Bool.or_eq_true, decide_eq_true_eq]
      rintro ⟨⟨hfirst, -⟩, hgt⟩
      have hle : Tbl.get 0 b.t.tok (tokOf f.md) + all ≤ 255 := htok hfirst
      omega
    have hctl : ¬ (b.a.who = ctlWho ∧ s.logRoom b.t 1 = false) := fun ⟨hw, hno⟩ => by
      rw [hroom hw] at hno
      cases hno
    rw [hl]
    dsimp only
    rw [if_neg hfew, if_neg hp, if_neg hctl, if_pos hall, hqs]

theorem State.takeSeq_agent {s : State} {a : AgentId} {x : Agent} (hx : s.agent a = some x) : ∃ q, (s.takeSeq a).agent a = some { x with cseq := q } := by
  unfold State.takeSeq
  split
  · split
    · exact ⟨x.cseq, hx⟩
    next t ht =>
      refine ⟨nextSeq t.cseq, ?_⟩
      rw [State.agent_modAgent_same, State.agent_modTeam_keep s a.team (fun t' => { t' with cseq := nextSeq t.cseq }) (fun _ => rfl) a, hx]
      rfl
  · exact ⟨x.cseq, hx⟩

/-- The state from which children are queued: the beat's, but for the thread's number. -/
structure Due.From (s : State) (b : Beat) (v : State) : Prop where
  mem : v.mem = s.mem
  clean : v.flaws = []
  agent : ∃ q, v.agent b.a = some { b.begunAgent with cseq := q }
  team : ∃ t, v.team b.a.team = some t ∧ t.tok = b.t.tok
  order : v.orderSeq = s.orderSeq
  children : v.children = s.children

theorem Due.from {i : Instr} {f : Fields} {s v : State} {b : Beat} (h : Due i f s b) (hv : v = s.begun b ∨ v = (s.begun b).takeSeq b.a) : Due.From s b v := by
  obtain ⟨t, ht, hbare⟩ := h.begun_team
  have htok : t.tok = b.t.tok := (congrArg Team.tok hbare : t.bare.tok = b.t.bare.tok)
  rcases hv with rfl | rfl
  · exact ⟨rfl, h.clean, ⟨_, h.begun_agent⟩, ⟨t, ht, htok⟩, rfl, rfl⟩
  · obtain ⟨g, hg⟩ := State.takeSeq_team ht
    have hframe : ((s.begun b).takeSeq b.a).mem = s.mem ∧ ((s.begun b).takeSeq b.a).flaws = s.flaws ∧ ((s.begun b).takeSeq b.a).orderSeq = s.orderSeq ∧
        ((s.begun b).takeSeq b.a).children = s.children := by
      unfold State.takeSeq
      split
      · split <;> exact ⟨rfl, rfl, rfl, rfl⟩
      · exact ⟨rfl, rfl, rfl, rfl⟩
    obtain ⟨hmem, hflaws, horder, hch⟩ := hframe
    exact ⟨hmem, hflaws.trans h.clean, State.takeSeq_agent h.begun_agent, ⟨_, hg, htok⟩, horder, hch⟩

/-- All the children of a beat for which there is room are queued, and the lanes go on. -/
theorem Due.launchAll {f : Fields} {s v : State} {b : Beat} {qs : List (Nat × Place)} (h : Due (.launch f) f s b) (hv : Due.From s b v) (hal : b.alive)
    (hbody : launchBody f s b (s.begun b) = queueChildren s v b qs) (htok : Tbl.get 0 b.t.tok (tokOf f.md) + qs.length ≤ 255)
    (hroom : qs.length ≤ 4096 - s.childCount b.t.part) :
    ∃ t u, exec (.launch f) s = .next t ∧ t.team b.a.team = some u ∧ Tbl.get 0 u.tok (tokOf f.md) = Tbl.get 0 b.t.tok (tokOf f.md) + qs.length ∧
      t.orderSeq = s.orderSeq + qs.length ∧ ∀ k q, qs[k]? = some q → ∃ n c, Tbl.find? t.children n = some c ∧ childOf f s b k q c := by
  let u := (qs.foldl (queueChild b) v).modAgent b.a fun x => { x with arr := { x.arr with left := none } }
  have hqueues := foldl_queueChild b qs v
  have hcount : v.childCount b.t.part = s.childCount b.t.part := by rw [State.childCount, hv.children]; rfl
  have hdone : launchBody f s b (s.begun b) = .done u := by
    rw [hbody]
    unfold queueChildren
    extract_lets room left
    have hr : room = 4096 - s.childCount b.t.part := congrArg (4096 - ·) hcount
    rw [if_neg (by rw [h.f_eq]; omega), if_neg, if_pos (hr ▸ hroom)]
    rintro ⟨h0, hne⟩
    have := List.length_pos_iff.mpr hne
    omega
  obtain ⟨q, hx⟩ := hv.agent
  let z : Agent := { b.begunAgent with cseq := q, arr := { b.begunAgent.arr with left := none } }
  have hz : u.agent b.a = some z := by
    rw [State.agent_modAgent_same, hqueues.agents, hx]
    rfl
  obtain ⟨t, ht, htk⟩ := hv.team
  obtain ⟨w, hw, hwtok⟩ := hqueues.team t ht
  have hwu : ∃ w', u.team b.a.team = some w' ∧ w'.bare = w.bare := (State.fixed_modAgent _ b.a _).team hw
  obtain ⟨w', hw', hwb⟩ := hwu
  obtain ⟨y, hy, -, hstill⟩ := State.conclude_done_runsOn (s := s.waited b.a) (t := u) (hqueues.clean hv.clean) hz h.begun_issue (b.begun_alive hal) (shapeOf (.launch f) f).whole
  have hteam := State.team_of_still hstill b.a.team
  rw [hw'] at hteam
  obtain ⟨z', hz', hzc⟩ := Option.map_eq_some_iff.mp hteam
  have hch := (congrArg State.children hstill : _ = u.still.children)
  have hord := (congrArg State.orderSeq hstill : _ = u.still.orderSeq)
  refine ⟨_, z', by rw [exec_launch, execLaunch_eq, issueBeat_due h, hdone], hz', ?_, ?_, fun k q hk => ?_⟩
  · have htz : z'.tok = w.tok := (congrArg Team.tok hzc : z'.core.tok = w'.core.tok).trans (congrArg Team.tok hwb : w'.bare.tok = w.bare.tok)
    rw [htz, ← h.f_eq, hwtok, htk]
  · exact hord.trans (hqueues.order.trans (congrArg (· + qs.length) hv.order))
  · obtain ⟨cs, -, -, -, hget⟩ := hqueues.children
    obtain ⟨n, c, hn, hc⟩ := hget k q hk
    refine ⟨n, c, (congrArg (fun m => Tbl.find? m n) hch).trans hn, hc.packet.trans (State.read_congr hv.mem _ _), hc.order.trans (by rw [hv.order]), hc.team, hc.who, hc.part,
      hc.asid, hc.cls, ?_⟩
    rw [hc.tok, h.f_eq]

theorem State.conclude_wait (s u : State) (b : Beat) (whole : Bool) :
    s.conclude b whole (.wait u) = (u.modAgent b.a fun x => { x with arr := { x.arr with wk := 0 } }).markHeld b.a := rfl

/-- With room for some lanes only, theirs are queued and the beat blocks with the others. -/
theorem Due.launchSome {f : Fields} {s v : State} {b : Beat} {qs : List (Nat × Place)} (h : Due (.launch f) f s b) (hv : Due.From s b v)
    (hbody : launchBody f s b (s.begun b) = queueChildren s v b qs) (htok : Tbl.get 0 b.t.tok (tokOf f.md) + qs.length ≤ 255)
    (h0 : 0 < 4096 - s.childCount b.t.part) (hroom : 4096 - s.childCount b.t.part < qs.length) :
    let room := 4096 - s.childCount b.t.part
    ∃ t y u, exec (.launch f) s = .next t ∧ t.agent b.a = some y ∧ t.team b.a.team = some u ∧ y.block = some .children ∧ y.lanes = b.x.lanes ∧
      y.arr.left = some (qs.drop room) ∧ t.childCount b.t.part = 4096 ∧ Tbl.get 0 u.tok (tokOf f.md) = Tbl.get 0 b.t.tok (tokOf f.md) + room ∧
      ∀ k q, k < room → qs[k]? = some q → ∃ n c, Tbl.find? t.children n = some c ∧ childOf f s b k q c := by
  intro room
  let s1 := (qs.take room).foldl (queueChild b) s
  let s2 := s1.blockAgent b.a .children
  let u := s2.modAgent b.a fun x => { x with arr := { x.arr with left := some (qs.drop room) } }
  have hqueues : s.Queues b (qs.take room) s1 := foldl_queueChild b (qs.take room) s
  have hlen : (qs.take room).length = room := by rw [List.length_take]; omega
  have hcount : v.childCount b.t.part = s.childCount b.t.part := by rw [State.childCount, hv.children]; rfl
  have hwait : launchBody f s b (s.begun b) = .wait u := by
    rw [hbody]
    unfold queueChildren
    extract_lets room' left
    have hr : room' = room := congrArg (4096 - ·) hcount
    rw [if_neg (by rw [h.f_eq]; omega), if_neg (fun hz => by omega), if_neg (by omega), hr]
  clear_value s1
  have hx1 : s1.agent b.a = some b.x := (hqueues.agents b.a).trans h.agent
  obtain ⟨z, hz, hblock, hwaits⟩ := State.blockAgent_agent hx1 .children
  have hzu : u.agent b.a = some { z with arr := { z.arr with left := some (qs.drop room) } } := by
    rw [State.agent_modAgent_same, hz]
    rfl
  let u1 := u.modAgent b.a fun x => { x with arr := { x.arr with wk := 0 } }
  have hzu1 : u1.agent b.a = some { z with arr := { z.arr with left := some (qs.drop room), wk := 0 } } := by
    rw [State.agent_modAgent_same, hzu]
    rfl
  obtain ⟨hd, hh⟩ := State.markHeld_self hzu1
  obtain ⟨w, hw, hwtok⟩ := hqueues.team b.t h.team
  have hfix : s1.Fixed b.a (u1.markHeld b.a) :=
    ((s1.fixed_modAgent b.a _).trans (State.fixed_modAgent s2 b.a _)).trans ((State.fixed_modAgent u b.a _).trans (State.fixed_markHeld ..))
  obtain ⟨w', hw', hwb⟩ := hfix.team hw
  have hch : (u1.markHeld b.a).children = s1.children := rfl
  refine ⟨u1.markHeld b.a, _, w', by rw [exec_launch, execLaunch_eq, issueBeat_due h, hwait, State.conclude_wait], hh, hw', hblock, (Agent.lanes_of_unwaiting (x := b.x) (y := z) hwaits :), rfl, ?_, ?_,
    fun k q hk hq => ?_⟩
  · rw [State.childCount, hch]
    have hc := hqueues.childCount
    rw [hlen] at hc
    exact hc.trans (by omega)
  · have htw : w'.tok = w.tok := (congrArg Team.tok hwb : w'.bare.tok = w.bare.tok)
    rw [htw, ← h.f_eq, hwtok, hlen]
  · obtain ⟨cs, -, -, -, hget⟩ := hqueues.children
    obtain ⟨n, c, hn, hc⟩ := hget k q (by rw [List.getElem?_take, if_pos hk, hq])
    exact ⟨n, c, by rw [hch, hn], hc.packet, hc.order, hc.team, hc.who, hc.part, hc.asid, hc.cls, by rw [hc.tok, h.f_eq]⟩

/-- The lanes of a beat perform among those of the arrival. -/
theorem performing_quad {x : Agent} {f : Fields} {m : LaneMask} {q : Nat} (h : performing x f (quadOf m q) ≠ 0) : performing x f m ≠ 0 := by
  have h32 : ∀ m : LaneMask, ∀ l ∈ lanesIn m, l < 32 := fun m l hl => lt_of_mem_lanesIn hl
  obtain ⟨l, hl, hg⟩ := (maskOf_ne_zero (h32 _) _).mp h
  refine (maskOf_ne_zero (h32 _) _).mpr ⟨l, ?_, hg⟩
  rw [mem_lanesIn] at hl ⊢
  unfold quadOf at hl
  rw [BitVec.getLsbD_and, Bool.and_eq_true] at hl
  exact hl.1

/-- Some lane of the arrival performs where some lane of the beat does. -/
theorem Due.launch_lanes {f : Fields} {s : State} {b : Beat} (h : Due (.launch f) f s b) (hp : b.perf ≠ 0) :
    (lanesIn (performing b.x f b.x.arr.a)).length ≠ 0 := by
  obtain ⟨r, -, -, hb⟩ := h.now
  have hperf : b.perf = performing b.x f (nextBeat b.x (shapeOf (.launch f) f).whole).1 := (congrArg Beat.perf hb).trans rfl
  have hne : performing b.x f b.x.arr.a ≠ 0 := by
    rw [hperf] at hp
    unfold nextBeat at hp
    split at hp
    · exact hp
    · split at hp
      · exact performing_quad hp
      · exact absurd rfl hp
  exact List.length_pos_iff.mpr (mem_lanesIn_ne_nil hne) |>.ne'

/-- Settles O32: the packets that are due are queued one by one, all of them or as many as there is room for. -/
theorem launchQueues : Obligations.LaunchQueues := by
  unfold Obligations.LaunchQueues
  intro f s b h hp tok room
  refine ⟨fun qs hd htok hroom hal => ?_, fun qs hd htok h0 hroom => ?_, fun hl hfirst hgt hk => ?_⟩
  · obtain ⟨v, hv, hbody⟩ := launchBody_due hp hd (s.begun b)
    exact h.launchAll (h.from hv) hal hbody htok hroom
  · obtain ⟨v, hv, hbody⟩ := launchBody_due hp hd (s.begun b)
    exact h.launchSome (h.from hv) hbody htok h0 hroom
  · let r : Raise := { beatFault 0x0F (performing b.x f b.x.arr.a) 0 false with whole := true }
    have hbody : launchBody f s b (s.begun b) = .fault r := by
      unfold launchBody
      extract_lets all first
      rw [hl]
      dsimp only
      refine if_pos ?_
      simp only [first, Bool.and_eq_true, Bool.or_eq_true, decide_eq_true_eq]
      refine ⟨⟨hfirst, ?_⟩, hgt⟩
      unfold all
      split
      · exact one_ne_zero
      · exact h.launch_lanes hp
    rw [exec_launch, execLaunch_eq]
    obtain ⟨t, hnext, hstop⟩ := h.faulted hk (show (0x0F : Byte) ≠ 0x18 by decide) hbody
    refine ⟨t, hnext, ?_, fun y hy => ?_⟩
    · rw [issueBeat_due h, hbody] at hnext
      cases hnext
      exact ((s.cuts_modAgent b.a _).trans (State.cuts_conclude_fault _ b _ r)).children
    · obtain ⟨h1, -, h2, h3⟩ := hstop y hy
      exact ⟨h1, h3.trans (by rw [show r.whole = true from rfl, Bool.or_true]; rfl), h2⟩

end Sys2Proof.Machine
end

section
/-! The issue of an engine command: its token, its number, its start or its wait for locks (R16, R18, R24, R155, R183 to R187). -/

namespace Sys2Proof.Machine

/-! ### What an issue does before its locks -/

/-- A step of an issue: the token rises by d, the thread's number is taken where sq says so, and else only tiles, copies and presence bits change. -/
structure State.Began (b : Beat) (tok d : Nat) (sq : Bool) (s u : State) : Prop where
  rlt : u.rlt = s.rlt
  cmds : u.cmds = s.cmds
  seq : u.cmdSeq = s.cmdSeq
  flaws : u.flaws = s.flaws
  agent : ∀ x, s.agent b.a = some x → ∃ q, u.agent b.a = some { x with cseq := q } ∧ (sq = false → q = x.cseq) ∧
    (sq = true → b.a.who = ctlWho → ∀ t, s.team b.a.team = some t → q = nextSeq t.cseq)
  team : ∀ t, s.team b.a.team = some t → ∃ v, u.team b.a.team = some v ∧ Tbl.get 0 v.tok tok = Tbl.get 0 t.tok tok + d ∧
    (sq = false → v.cseq = t.cseq) ∧ (sq = true → b.a.who = ctlWho → v.cseq = nextSeq t.cseq)

namespace State.Began
variable {b : Beat} {tok : Nat}

theorem refl (s : State) : s.Began b tok 0 false s :=
  ⟨rfl, rfl, rfl, rfl, fun x hx => ⟨x.cseq, hx, fun _ => rfl, nofun⟩, fun t ht => ⟨t, ht, rfl, fun _ => rfl, nofun⟩⟩

/-- Two steps of an issue, of which one at most takes the number. -/
theorem trans {s t u : State} {d e : Nat} {p q : Bool} (hpq : p = false ∨ q = false) (h : s.Began b tok d p t) (k : t.Began b tok e q u) :
    s.Began b tok (d + e) (p || q) u where
  rlt := k.rlt.trans h.rlt
  cmds := k.cmds.trans h.cmds
  seq := k.seq.trans h.seq
  flaws := k.flaws.trans h.flaws
  agent x hx := by
    obtain ⟨n, hn, hn0, hn1⟩ := h.agent x hx
    obtain ⟨m, hm, hm0, hm1⟩ := k.agent _ hn
    refine ⟨m, hm, fun hf => ?_, fun ht hw v hv => ?_⟩
    · obtain ⟨hp, hq⟩ := Bool.or_eq_false_iff.mp hf
      exact (hm0 hq).trans (hn0 hp)
    · obtain ⟨v1, hv1, -, hv10, -⟩ := h.team v hv
      rcases hpq with rfl | rfl
      · rw [hm1 ht hw v1 hv1, hv10 rfl]
      · rw [Bool.or_false] at ht
        exact (hm0 rfl).trans (hn1 ht hw v hv)
  team v hv := by
    obtain ⟨v1, hv1, htok1, hv10, hv11⟩ := h.team v hv
    obtain ⟨v2, hv2, htok2, hv20, hv21⟩ := k.team v1 hv1
    refine ⟨v2, hv2, by rw [htok2, htok1, Nat.add_assoc], fun hf => ?_, fun ht hw => ?_⟩
    · obtain ⟨hp, hq⟩ := Bool.or_eq_false_iff.mp hf
      exact (hv20 hq).trans (hv10 hp)
    · rcases hpq with rfl | rfl
      · rw [hv21 ht hw, hv10 rfl]
      · rw [Bool.or_false] at ht
        exact (hv20 rfl).trans (hv11 ht hw)

end State.Began

theorem State.began_modTeam {b : Beat} {tok : Nat} (s : State) (n : Nat) {f : Team → Team} (hf : ∀ t, (f t).agents = t.agents ∧ (f t).tok = t.tok ∧ (f t).cseq = t.cseq) :
    s.Began b tok 0 false (s.modTeam n f) where
  rlt := rfl
  cmds := rfl
  seq := rfl
  flaws := rfl
  agent x hx := ⟨x.cseq, (State.agent_modTeam_keep s n f (fun t => (hf t).1) b.a).trans hx, fun _ => rfl, nofun⟩
  team t ht := by
    rw [State.team_modTeam]
    split
    · rw [ht]
      exact ⟨f t, rfl, by rw [(hf t).2.1]; rfl, fun _ => (hf t).2.2, nofun⟩
    · exact ⟨t, ht, rfl, fun _ => rfl, nofun⟩

theorem State.began_tokenUp {b : Beat} (s : State) (tok : Nat) : s.Began b tok 1 false (s.tokenUp b.a.team tok) where
  rlt := rfl
  cmds := rfl
  seq := rfl
  flaws := rfl
  agent x hx := ⟨x.cseq, (State.agent_modTeam_keep s b.a.team (fun t => { t with tok := Tbl.put 0 t.tok tok (Tbl.get 0 t.tok tok + 1) }) (fun _ => rfl) b.a).trans hx,
    fun _ => rfl, nofun⟩
  team t ht := by
    refine ⟨{ t with tok := Tbl.put 0 t.tok tok (Tbl.get 0 t.tok tok + 1) }, ?_, ?_, fun _ => rfl, nofun⟩
    · rw [State.tokenUp, State.team_modTeam_same, ht]
      rfl
    · exact (Tbl.get_put 0 t.tok tok tok (Tbl.get 0 t.tok tok + 1)).trans (if_pos rfl)

theorem State.began_takeSeq {b : Beat} {tok : Nat} (s : State) : s.Began b tok 0 true (s.takeSeq b.a) where
  rlt := (s.takeSeq_frame b.a).1
  cmds := (s.takeSeq_frame b.a).2.1
  seq := (s.takeSeq_frame b.a).2.2
  flaws := by
    unfold State.takeSeq
    split
    · split <;> rfl
    · rfl
  agent x hx := by
    by_cases hw : b.a.who = ctlWho
    · cases ht : s.team b.a.team with
      | none =>
        rw [State.agent, ht] at hx
        cases hx
      | some t =>
        refine ⟨nextSeq t.cseq, ?_, nofun, fun _ _ v hv => by rw [← Option.some.inj hv]⟩
        unfold State.takeSeq
        rw [if_pos hw, ht]
        dsimp only
        rw [State.agent_modAgent_same, State.agent_modTeam_keep s b.a.team (fun t' => { t' with cseq := nextSeq t.cseq }) (fun _ => rfl) b.a, hx]
        rfl
    · refine ⟨x.cseq, ?_, nofun, fun _ h => absurd h hw⟩
      rw [State.takeSeq, if_neg hw, hx]
  team t ht := by
    obtain ⟨g, hg⟩ := State.takeSeq_team ht
    exact ⟨_, hg, rfl, nofun, fun _ hw => if_pos hw⟩

theorem State.began_foldl {b : Beat} {tok : Nat} {α : Type} {f : State → α → State} (hf : ∀ (u : State) (a : α), State.Began b tok 0 false u (f u a)) (l : List α) (s : State) :
    s.Began b tok 0 false (l.foldl f s) :=
  foldl_keeps (fun u => s.Began b tok 0 false u) f l (fun u a _ hu => hu.trans (.inl rfl) (hf u a)) s (.refl s)

theorem State.began_clearPresence {b : Beat} {tok : Nat} (s : State) (n : Nat) (ls : List Nat) : s.Began b tok 0 false (s.clearPresence n ls) :=
  s.began_modTeam n fun _ => ⟨rfl, rfl, rfl⟩

theorem State.began_arriveSlice {b : Beat} {tok : Nat} (s : State) (c : CopySlice) (mask : Nat) : s.Began b tok 0 false (arriveSlice s b c mask).1 := by
  unfold arriveSlice State.clearMembers
  refine State.began_foldl (fun u e => ?_) _ s
  split
  · split
    · exact u.began_clearPresence _ _
    · exact .refl u
  · exact .refl u

/-! ### The start of a copy in its team -/

/-- The team without its copies and its lines' presence bits. -/
def Team.uncopied (t : Team) : Team := { t with copies := [], absent := [] }

theorem State.uncopied_clearPresence (s : State) (n k : Nat) (ls : List Nat) :
    ((s.clearPresence n ls).team k).map (fun t => (t.uncopied, t.copies)) = (s.team k).map fun t => (t.uncopied, t.copies) := by
  rw [State.clearPresence, State.team_modTeam]
  split
  · rw [Option.map_map]
    rfl
  · rfl

theorem Team.of_uncopied {u v : Team} (h : u.uncopied = v.uncopied) : u.agents = v.agents ∧ u.tok = v.tok ∧ u.cseq = v.cseq :=
  ⟨(congrArg Team.agents h : u.uncopied.agents = v.uncopied.agents), (congrArg Team.tok h : u.uncopied.tok = v.uncopied.tok),
    (congrArg Team.cseq h : u.uncopied.cseq = v.uncopied.cseq)⟩

theorem Team.of_core {u v : Team} (h : u.core = v.core) : u.tok = v.tok ∧ u.cseq = v.cseq ∧ u.copies = v.copies :=
  ⟨(congrArg Team.tok h : u.core.tok = v.core.tok), (congrArg Team.cseq h : u.core.cseq = v.core.cseq), (congrArg Team.copies h : u.core.copies = v.core.copies)⟩

theorem Team.of_bare {u v : Team} (h : u.bare = v.bare) : u.tok = v.tok ∧ u.cseq = v.cseq ∧ u.copies = v.copies ∧ u.absent = v.absent :=
  ⟨(congrArg Team.tok h : u.bare.tok = v.bare.tok), (congrArg Team.cseq h : u.bare.cseq = v.bare.cseq), (congrArg Team.copies h : u.bare.copies = v.bare.copies),
    (congrArg Team.absent h : u.bare.absent = v.bare.absent)⟩

theorem State.rltRoom_congr {s u : State} (h : u.rlt = s.rlt) (cl n : Nat) : u.rltRoom cl n = s.rltRoom cl n := by
  unfold State.rltRoom
  rw [h]

/-- A command that starts changes no team but for the copies and the presence bits, and takes out the copy state that it leaves. -/
theorem State.starting_team (s : State) (team : Nat) (kind : CmdKind) {k : Nat} {t : Team} (ht : s.team k = some t) :
    ∃ v, (s.starting team kind).1.team k = some v ∧ v.uncopied = t.uncopied ∧
      ∀ c i, kind = .copy c → c.id = some i → k = team → v.copies = Tbl.del t.copies i := by
  unfold State.starting
  split
  next c =>
    unfold State.startCopy
    split
    next hnone =>
      refine ⟨t, ht, rfl, fun c i hc hi hk => ?_⟩
      rw [hk, hnone] at ht
      cases ht
    next t0 _ =>
      extract_lets s1 s2
      have h1 : (s1.team k).map (fun t => (t.uncopied, t.copies)) = (s.team k).map fun t => (t.uncopied, t.copies) :=
        foldl_keeps (fun u : State => (u.team k).map (fun t => (t.uncopied, t.copies)) = (s.team k).map fun t => (t.uncopied, t.copies)) _ _ (fun u c _ hu => by
          unfold State.clearMembers
          refine foldl_keeps (fun v : State => (v.team k).map (fun t => (t.uncopied, t.copies)) = (s.team k).map fun t => (t.uncopied, t.copies)) _ _ (fun v e _ hv => ?_) _ hu
          split
          · split
            · exact (v.uncopied_clearPresence _ k _).trans hv
            · exact hv
          · exact hv) s rfl
      rw [ht] at h1
      obtain ⟨v, hv, hvt⟩ := Option.map_eq_some_iff.mp h1
      obtain ⟨hu, hc⟩ := Prod.mk.inj hvt
      unfold s2
      cases hid : c.id with
      | none =>
        refine ⟨v, hv, hu, fun c' i hc' hi => ?_⟩
        cases hc'
        rw [hid] at hi
        cases hi
      | some i =>
        dsimp only
        rw [State.team_modTeam]
        split
        · rw [hv]
          refine ⟨_, rfl, hu, fun c' j hc' hj _ => ?_⟩
          cases hc'
          rw [← Option.some.inj (hid.symm.trans hj)]
          exact congrArg (Tbl.del · i) hc
        · exact ⟨v, hv, hu, fun _ _ _ _ hk => absurd hk (by assumption)⟩
  next hno => exact ⟨t, ht, rfl, fun c i hc => absurd hc (hno c)⟩

/-! ### The two ends of an issue -/

section
variable {i : Instr} {f : Fields} {s : State} {b : Beat} {mk token : State → State} {c : State → Cmd} {d : Nat} {sq : Bool}
  (h : Due i f s b) (hmk : ∀ u : State, u.Began b (tokOf f.md) d sq (mk u)) (hc : ∀ u : State, ∃ who, (c u).owner = .agent b.a.team who)
include h hmk hc

/-- A command for whose locks there is room starts in the beat that issues it (R187). -/
theorem Due.issues (hal : b.alive) (hroom : s.rltRoom b.cluster (c (mk (s.begun b))).ranges.length = true) {body : Beat → State → Out}
    (hb : body b (s.begun b) = issueCommand s (s.begun b) b token mk c) :
    ∃ t u v c1, issueBeat i f s body = .next t ∧ t.team b.a.team = some u ∧ (mk (s.begun b)).team b.a.team = some v ∧
      Tbl.get 0 u.tok (tokOf f.md) = Tbl.get 0 b.t.tok (tokOf f.md) + d ∧ (sq = true → b.a.who = ctlWho → u.cseq = nextSeq b.t.cseq) ∧
      (∀ k i, (c (mk (s.begun b))).kind = .copy k → k.id = some i → u.copies = Tbl.del v.copies i) ∧
      Tbl.find? t.cmds s.cmdSeq = some c1 ∧ t.cmdSeq = s.cmdSeq + 1 ∧ c1.started = true ∧ c1.unbegun = ({ c (mk (s.begun b)) with seq := s.cmdSeq } : Cmd).unbegun ∧
      c1.kind = (((mk (s.begun b)).addCmd (c (mk (s.begun b)))).starting b.a.team (c (mk (s.begun b))).kind).2 ∧
      c1.ranges = ({ c1 with ranges := (c (mk (s.begun b))).ranges } : Cmd).locks ∧ t.rlt = s.rlt ++ c1.entries b.cluster s.cmdSeq := by
  have hbegan := hmk (s.begun b)
  obtain ⟨who, howner⟩ := hc (mk (s.begun b))
  let s1 := mk (s.begun b)
  let k := c s1
  let w := (s1.addCmd k).startCmd b.cluster s1.cmdSeq
  have hrlt1 : s1.rlt = s.rlt := hbegan.rlt
  have hseq1 : s1.cmdSeq = s.cmdSeq := hbegan.seq
  have hdone : body b (s.begun b) = .done w := by
    rw [hb]
    exact if_pos ((State.rltRoom_congr hrlt1 _ _).trans hroom)
  obtain ⟨tb, htb, htbare⟩ := h.begun_team
  obtain ⟨q, hxq, -, -⟩ := hbegan.agent _ h.begun_agent
  obtain ⟨v, hv, htok, -, hcseq⟩ := hbegan.team tb htb
  obtain ⟨c1, hc1, hstarted, hcore, hkind, hranges, hrlt, hseq, hteams, hclean⟩ := State.startCmd_starts (s := s1.addCmd k) b.cluster (Tbl.find?_ins_same s1.cmds s1.cmdSeq _) howner
  obtain ⟨u, hu, huv, hcopies⟩ := State.starting_team (s1.addCmd k) b.a.team k.kind (k := b.a.team) (t := v) hv
  have hwu : w.team b.a.team = some u := (congrArg (Tbl.find? · b.a.team) hteams).trans hu
  have hwx : w.agent b.a = some { b.begunAgent with cseq := q } := by
    rw [State.agent, hwu, ← hxq, State.agent, hv]
    exact congrArg (Tbl.find? · b.a.who) (Team.of_uncopied huv).1
  have hwf : w.flaws = [] := hclean (hbegan.flaws.trans h.clean)
  obtain ⟨-, -, -, hstill⟩ := State.conclude_done_runsOn (s := s.waited b.a) hwf hwx h.begun_issue
    (show ({ b.begunAgent with cseq := q } : Agent).runLanes ≠ [] from Beat.begun_alive hal) (shapeOf i f).whole
  let t := (s.waited b.a).conclude b (shapeOf i f).whole (.done w)
  have hstill : t.still = w.still := hstill
  obtain ⟨z, hz, hzu⟩ := Option.map_eq_some_iff.mp ((State.team_of_still hstill b.a.team).trans (congrArg (Option.map Team.core) hwu))
  obtain ⟨hztok, hzseq, hzcopies⟩ := Team.of_core hzu
  obtain ⟨-, hutok, huseq⟩ := Team.of_uncopied huv
  obtain ⟨hbtok, hbseq, -, -⟩ := Team.of_bare htbare
  have htcmds : t.cmds = w.cmds := (congrArg State.cmds hstill : t.still.cmds = w.still.cmds)
  have htrlt : t.rlt = w.rlt := (congrArg State.rlt hstill : t.still.rlt = w.still.rlt)
  refine ⟨t, z, v, c1, ?_, hz, hv, ?_, fun hs hw => ?_, fun k i hk hi => ?_, ?_, ?_, hstarted, ?_, hkind, hranges, ?_⟩
  · rw [issueBeat_due h, hdone]
  · rw [hztok, hutok, htok, hbtok]
  · rw [hzseq, huseq, hcseq hs hw, hbseq]
  · exact hzcopies.trans (hcopies k i hk hi rfl)
  · rw [htcmds, ← hseq1]
    exact hc1
  · exact (congrArg State.cmdSeq hstill).trans (hseq.trans (congrArg (· + 1) hseq1))
  · rw [hcore, ← hseq1]
  · rw [htrlt, hrlt, ← hrlt1, hseq1]
    rfl

omit hc in
/-- A command for whose locks there is no room is listed, and its issuer blocks until there is (R187). -/
theorem Due.awaits (hroom : s.rltRoom b.cluster (c (mk (s.begun b))).ranges.length = false) {body : Beat → State → Out} {e : Nat} {sq' : Bool}
    (hb : body b (s.begun b) = issueCommand s (s.begun b) b token mk c) (htok : ∀ u : State, u.Began b (tokOf f.md) e sq' (token u)) :
    ∃ t y u v, issueBeat i f s body = .next t ∧ t.agent b.a = some y ∧ y.block = some .rlt ∧ y.arr.cmd = some s.cmdSeq ∧ y.lanes = b.x.lanes ∧
      Tbl.find? t.cmds s.cmdSeq = some { c (token s) with seq := s.cmdSeq } ∧ t.rlt = s.rlt ∧ t.team b.a.team = some u ∧ (token s).team b.a.team = some v ∧ u.bare = v.bare ∧
      Tbl.get 0 v.tok (tokOf f.md) = Tbl.get 0 b.t.tok (tokOf f.md) + e := by
  let s2 := token s
  let blocked : Agent → Agent := fun x => { (x.restartGoose s.beatSeq).blockOn (s.railTime b.a.team x) .rlt with arr := { x.arr with cmd := some s2.cmdSeq } }
  let unwaited : Agent → Agent := fun x => { x with arr := { x.arr with wk := 0 } }
  let w := (s2.addCmd (c s2)).modAgent b.a blocked
  have hbegan := htok s
  have hwait : body b (s.begun b) = .wait w := by
    rw [hb]
    refine if_neg fun hyes => ?_
    rw [State.rltRoom_congr (hmk (s.begun b)).rlt, State.rltRoom_congr (s := s) (u := s.begun b) rfl, hroom] at hyes
    cases hyes
  obtain ⟨q, hxq, -, -⟩ := hbegan.agent _ h.agent
  obtain ⟨v, hv, hvtok, -, -⟩ := hbegan.team _ h.team
  let w1 := w.modAgent b.a unwaited
  have hx : w1.agent b.a = some (unwaited (blocked { b.x with cseq := q })) := by
    rw [State.agent_modAgent_same, State.agent_modAgent_same, show (s2.addCmd (c s2)).agent b.a = _ from hxq]
    rfl
  obtain ⟨held, hy⟩ := State.markHeld_self hx
  have hfix : (s2.addCmd (c s2)).Fixed b.a (w1.markHeld b.a) := ((State.fixed_modAgent _ _ _).trans (State.fixed_modAgent _ _ _)).trans (State.fixed_markHeld _ _)
  obtain ⟨u, hu, huv⟩ := hfix.team (t := v) hv
  refine ⟨_, _, u, v, by rw [issueBeat_due h, hwait, State.conclude_wait], hy, rfl, ?_, rfl, ?_, hbegan.rlt, hu, hv, huv, hvtok⟩
  · exact (congrArg some hbegan.seq)
  · rw [← hbegan.seq]
    exact Tbl.find?_ins_same ..

end

end Sys2Proof.Machine
end

section
/-! CPSL: slices arrive, and the last one starts the copy of all (R183, R185, R187). -/

namespace Sys2Proof.Machine

/-- An issue that waits for nothing forms its command at once. -/
theorem State.unissued {s : State} {b : Beat} (hcmd : b.x.arr.cmd = none)
    (hlog : b.a.who = ctlWho → s.logRoom b.t 1 = true) (first : Out) : issuedBefore (s.begun b) b first = first := by
  unfold issuedBefore
  rw [hcmd]
  refine if_neg fun hno => ?_
  rw [(s.sameMap_begun b).logRoom, hlog hno.1] at hno
  exact absurd hno.2 (by decide)

/-- A slice that arrives at its copy state (R183). -/
def State.sliceArrived (b : Beat) (c : CopySlice) (n tok mask : Nat) (u : State) : State :=
  let old := Tbl.find? b.t.copies b.f.fn.toNat
  let u1 := if old.isNone then u.tokenUp b.a.team tok else u
  let r := arriveSlice u1 b c mask
  r.1.modTeam b.a.team fun t => { t with copies := Tbl.ins t.copies b.f.fn.toNat (CopyState.take old r.2 n tok mask (evOf b.f.md) b.x.site) }

/-- The body of CPSL. -/
def cpslBody (f : Fields) (s : State) (b : Beat) (s1 : State) : Out := issuedBefore s1 b <|
  let n := bits (f.imm.setWidth 64) 15 8
  let mask := bits (f.imm.setWidth 64) 23 16
  let c := sliceOfBeat b (bits (f.imm.setWidth 64) 6 0)
  match copyChecks s b.a.team b.t c mask with
  | some code => issueFault b code
  | none =>
    if sliceClash b.t (Tbl.find? b.t.copies f.fn.toNat) c n (tokOf f.md) mask then issueFault b 0x0F
    else cpslArrive s b s1 c n (tokOf f.md) mask

theorem exec_cpsl (f : Fields) (s : State) : exec (.cpsl f) s = issueBeat (.cpsl f) f s (cpslBody f s) := rfl

theorem cpslArrive_eq (s s1 : State) (b : Beat) (c : CopySlice) (n tok mask : Nat) :
    let k := CopyState.take (Tbl.find? b.t.copies b.f.fn.toNat) (arriveSlice s1 b c mask).2 n tok mask (evOf b.f.md) b.x.site
    let sl := sortSlices k.slices
    let mk := State.sliceArrived b c n tok mask
    cpslArrive s b s1 c n tok mask = if k.arrived = n then
      issueCommand s s1 b mk mk fun _ => cmdOf b b.x (copyCmd sl mask (some b.f.fn.toNat)) tok k.ev (copyRanges b.a.team b.t sl) else .done (mk s1) := rfl

theorem State.began_sliceArrived (b : Beat) (c : CopySlice) (n tok mask : Nat) (u : State) :
    u.Began b tok (if Tbl.find? b.t.copies b.f.fn.toNat = none then 1 else 0) false (u.sliceArrived b c n tok mask) := by
  have htok : u.Began b tok (if Tbl.find? b.t.copies b.f.fn.toNat = none then 1 else 0) false
      (if (Tbl.find? b.t.copies b.f.fn.toNat).isNone then u.tokenUp b.a.team tok else u) := by
    cases Tbl.find? b.t.copies b.f.fn.toNat with
    | none => exact u.began_tokenUp tok
    | some k => exact .refl u
  unfold State.sliceArrived
  extract_lets old u1 r
  exact (htok.trans (.inl rfl) (State.began_arriveSlice _ c mask)).trans (.inl rfl) (r.1.began_modTeam b.a.team
    (f := fun t => { t with copies := Tbl.ins t.copies b.f.fn.toNat (CopyState.take old r.2 n tok mask (evOf b.f.md) b.x.site) }) fun _ => ⟨rfl, rfl, rfl⟩)

/-- The copy state that a slice has joined. -/
theorem State.sliceArrived_copies {b : Beat} {u : State} {v : Team} (c : CopySlice) (n tok mask : Nat) (hv : (u.sliceArrived b c n tok mask).team b.a.team = some v) :
    ∃ c', Tbl.find? v.copies b.f.fn.toNat = some (CopyState.take (Tbl.find? b.t.copies b.f.fn.toNat) c' n tok mask (evOf b.f.md) b.x.site) := by
  unfold State.sliceArrived at hv
  rw [State.team_modTeam_same] at hv
  obtain ⟨t, -, rfl⟩ := Option.map_eq_some_iff.mp hv
  exact ⟨_, Tbl.find?_ins_same ..⟩

theorem CopyState.take_counts (old : Option CopyState) (c c' : CopySlice) (n tok mask : Nat) (ev : Bool) (site : Site) :
    (CopyState.take old c n tok mask ev site).arrived = (CopyState.take old c' n tok mask ev site).arrived ∧
    (CopyState.take old c n tok mask ev site).count = (CopyState.take old c' n tok mask ev site).count ∧
    (CopyState.take old c n tok mask ev site).tok = (CopyState.take old c' n tok mask ev site).tok := by
  cases old <;> exact ⟨rfl, rfl, rfl⟩

/-- An issue whose body only begins goes on with its team as it then is. -/
theorem Due.begins {i : Instr} {f : Fields} {s : State} {b : Beat} {tok d : Nat} {sq : Bool} (h : Due i f s b) (hal : b.alive) {body : Beat → State → Out} {w : State}
    (hbody : body b (s.begun b) = .done w) (hw : (s.begun b).Began b tok d sq w) :
    ∃ t u v, issueBeat i f s body = .next t ∧ t.team b.a.team = some u ∧ w.team b.a.team = some v ∧ u.core = v.core ∧ t.cmds = s.cmds ∧
      Tbl.get 0 v.tok tok = Tbl.get 0 b.t.tok tok + d := by
  obtain ⟨tb, htb, htbare⟩ := h.begun_team
  obtain ⟨q, hxq, -, -⟩ := hw.agent _ h.begun_agent
  obtain ⟨v, hv, htok, -, -⟩ := hw.team tb htb
  obtain ⟨-, -, -, hstill⟩ := State.conclude_done_runsOn (s := s.waited b.a) (hw.flaws.trans h.clean) hxq h.begun_issue
    (show ({ b.begunAgent with cseq := q } : Agent).runLanes ≠ [] from Beat.begun_alive hal) (shapeOf i f).whole
  let t := (s.waited b.a).conclude b (shapeOf i f).whole (.done w)
  have hstill : t.still = w.still := hstill
  obtain ⟨z, hz, hzu⟩ := Option.map_eq_some_iff.mp ((State.team_of_still hstill b.a.team).trans (congrArg (Option.map Team.core) hv))
  have htcmds : t.cmds = w.cmds := (congrArg State.cmds hstill : t.still.cmds = w.still.cmds)
  refine ⟨t, z, v, by rw [issueBeat_due h, hbody], hz, hv, hzu, htcmds.trans hw.cmds, ?_⟩
  rw [htok, (Team.of_bare htbare).1]

end Sys2Proof.Machine

open Sys2Proof.Machine in
/-- Settles O39: a slice's arrival only begins an issue; the last one issues the copy of all slices, whose start deletes the copy state. -/
theorem slicesArrive : Obligations.SlicesArrive := by
  unfold Obligations.SlicesArrive
  intro f s b h hcmd hlog n mask c old k hchk hclash hal
  obtain rfl : b.f = f := h.f_eq
  let mk := State.sliceArrived b c n (tokOf b.f.md) mask
  have hmk : ∀ u : State, u.Began b (tokOf b.f.md) (if old = none then 1 else 0) false (mk u) := State.began_sliceArrived b c n (tokOf b.f.md) mask
  have hbody : cpslBody b.f s b (s.begun b) = cpslArrive s b (s.begun b) c n (tokOf b.f.md) mask := by
    unfold cpslBody
    rw [State.unissued hcmd hlog]
    extract_lets
    rw [hchk]
    exact if_neg (by rw [hclash]; nofun)
  rw [cpslArrive_eq] at hbody
  have hexec := exec_cpsl b.f s
  refine ⟨fun hne => ?_, fun hn hroom => ?_⟩
  · obtain ⟨t, u, v, ht, hu, hv, huv, hcmds, htok⟩ := h.begins hal (hbody.trans (if_neg hne)) (hmk _)
    obtain ⟨c', hc'⟩ := State.sliceArrived_copies c n (tokOf b.f.md) mask hv
    obtain ⟨hutok, -, hucopies⟩ := Team.of_core huv
    obtain ⟨ha, hcount, hk⟩ := CopyState.take_counts old c' (arriveSlice (s.begun b) b c mask).2 n (tokOf b.f.md) mask (evOf b.f.md) b.x.site
    exact ⟨t, u, _, hexec.trans ht, hu, by rw [hucopies]; exact hc', ha, hcount, hk, hcmds, by rw [hutok]; exact htok⟩
  · obtain ⟨t, u, v, c1, ht, hu, -, -, -, hcopies, hc1, -, hstarted, hcore, -, hranges, hrlt⟩ := h.issues hmk (fun _ => ⟨b.a.who, rfl⟩) hal hroom (hbody.trans (if_pos hn))
    refine ⟨t, u, c1, hexec.trans ht, hu, ?_, hc1, hstarted, ?_, ?_, fun hm => ?_, hranges, hrlt⟩
    · rw [hcopies _ _ rfl rfl, Sys2Proof.Tbl.find?_del, if_pos rfl]
    · exact (congrArg Cmd.tok hcore : c1.unbegun.tok = _)
    · exact (congrArg Cmd.owner hcore : c1.unbegun.owner = _)
    · exact hranges.trans (c1.locks_plain _ hm)
end

section
/-! CPC, GATH, SCAT, SCATA, MMA, MMAG, ACZERO and DRAIN issue their commands (R16, R18, R24, R155, R183, R187, R199). -/

namespace Sys2Proof.Machine

section
variable {i : Instr} {f : Fields} {s : State} {b : Beat} {body : Beat → State → Out} {mk token : State → State} {kind : CmdKind} {rs : List (Nat × Nat × Nat × Bool)}
  (h : Due i f s b)
include h

/-- The command of an engine form carries its operands, its token and its site, and starts where the lock table has room. -/
theorem Due.commandStarts (hexec : exec i s = issueBeat i f s body)
    (hbody : body b (s.begun b) = issueCommand s (s.begun b) b token mk fun u => cmdOf b ((u.agent b.a).getD b.x) kind (tokOf f.md) (evOf f.md) rs)
    (hmk : ∀ u : State, u.Began b (tokOf f.md) 1 true (mk u)) (hdesc : ∀ w : State, describes b i (w.starting b.a.team kind).2)
    (hroom : s.rltRoom b.cluster rs.length = true) (hal : b.alive) :
    ∃ t u c, exec i s = .next t ∧ t.team b.a.team = some u ∧ Tbl.find? t.cmds s.cmdSeq = some c ∧ t.cmdSeq = s.cmdSeq + 1 ∧
      c.owner = .agent b.a.team b.a.who ∧ c.part = b.t.part ∧ c.asid = b.t.asid ∧ c.tok = tokOf f.md ∧ c.ev = evOf f.md ∧ c.started = true ∧
      ((∀ k, c.kind = .copy k → k.maskLines = []) → c.ranges = rs) ∧ c.ranges = ({ c with ranges := rs } : Cmd).locks ∧ c.site.pc = b.x.p ∧
      (b.a.who = ctlWho → c.site.cseq = nextSeq b.t.cseq ∧ u.cseq = nextSeq b.t.cseq) ∧
      describes b i c.kind ∧ Tbl.get 0 u.tok (tokOf f.md) = Tbl.get 0 b.t.tok (tokOf f.md) + 1 ∧
      t.rlt = s.rlt ++ c.ranges.map fun r => { cluster := b.cluster, cmd := s.cmdSeq, space := r.1, lo := r.2.1, hi := r.2.2.1, dst := r.2.2.2 } := by
  obtain ⟨t, u, v, c1, ht, hu, -, htok, hseq, -, hc1, hn, hstarted, hcore, hkind, hranges, hrlt⟩ :=
    h.issues (c := fun u => cmdOf b ((u.agent b.a).getD b.x) kind (tokOf f.md) (evOf f.md) rs) hmk (fun _ => ⟨b.a.who, rfl⟩) hal hroom hbody
  obtain ⟨q, hxq, -, hq⟩ := (hmk (s.begun b)).agent _ h.begun_agent
  obtain ⟨tb, htb, htbare⟩ := h.begun_team
  have hsite : c1.site = { pc := b.x.p, cseq := q } := by
    refine (congrArg Cmd.site hcore : c1.unbegun.site = _).trans ?_
    show (((mk (s.begun b)).agent b.a).getD b.x).site = _
    rw [hxq]
    show ({ pc := b.begunAgent.p, cseq := q } : Site) = _
    rw [show b.begunAgent.p = b.x.p from (congrArg Agent.p b.begunAgent_eq).trans rfl]
  refine ⟨t, u, c1, hexec.trans ht, hu, hc1, hn, (congrArg Cmd.owner hcore : c1.unbegun.owner = _), (congrArg Cmd.part hcore : c1.unbegun.part = _),
    (congrArg Cmd.asid hcore : c1.unbegun.asid = _), (congrArg Cmd.tok hcore : c1.unbegun.tok = _), (congrArg Cmd.ev hcore : c1.unbegun.ev = _), hstarted,
    fun hm => hranges.trans (c1.locks_plain _ hm), hranges, congrArg Site.pc hsite, fun hw => ⟨?_, hseq rfl hw⟩, ?_, htok, hrlt⟩
  · rw [hsite, hq rfl hw tb htb, (Team.of_bare htbare).2.1]
  · rw [hkind]
    exact hdesc _

/-- Where the lock table has no room, the command of an engine form is listed, and the issuer blocks. -/
theorem Due.commandWaits {sq' : Bool} (hexec : exec i s = issueBeat i f s body)
    (hbody : body b (s.begun b) = issueCommand s (s.begun b) b token mk fun u => cmdOf b ((u.agent b.a).getD b.x) kind (tokOf f.md) (evOf f.md) rs)
    (hmk : ∀ u : State, u.Began b (tokOf f.md) 1 true (mk u)) (htok : ∀ u : State, u.Began b (tokOf f.md) 1 sq' (token u))
    (hge : (i = .gath f ∨ i = .scat f ∨ i = .scata f) → ∀ u : State, token u = u.tokenUp b.a.team (tokOf f.md))
    (hroom : s.rltRoom b.cluster rs.length = false) :
    ∃ t y u c, exec i s = .next t ∧ t.agent b.a = some y ∧ y.block = some .rlt ∧ y.arr.cmd = some s.cmdSeq ∧ y.lanes = b.x.lanes ∧
      Tbl.find? t.cmds s.cmdSeq = some c ∧ c.started = false ∧ t.rlt = s.rlt ∧ t.team b.a.team = some u ∧
      Tbl.get 0 u.tok (tokOf f.md) = Tbl.get 0 b.t.tok (tokOf f.md) + 1 ∧
      ((i = .gath f ∨ i = .scat f ∨ i = .scata f) → u.cseq = b.t.cseq ∧ u.absent = b.t.absent) := by
  obtain ⟨t, y, u, v, ht, hy, hblock, hcmd, hlanes, hc, hrlt, hu, hv, huv, hvtok⟩ :=
    h.awaits (c := fun u => cmdOf b ((u.agent b.a).getD b.x) kind (tokOf f.md) (evOf f.md) rs) hmk hroom hbody htok
  obtain ⟨hutok, hucseq, -, huabsent⟩ := Team.of_bare huv
  refine ⟨t, y, u, _, hexec.trans ht, hy, hblock, hcmd, hlanes, hc, rfl, hrlt, hu, by rw [hutok]; exact hvtok, fun hi => ?_⟩
  rw [hge hi s, State.tokenUp, State.team_modTeam_same, h.team] at hv
  obtain rfl := Option.some.inj hv
  exact ⟨hucseq, huabsent⟩

/-- A check that fails raises its code with nothing issued (R186, R198, R243). -/
theorem Due.commandFaults {code : Byte} (hexec : exec i s = issueBeat i f s body) (hwhole : (shapeOf i f).whole = true)
    (hbody : body b (s.begun b) = issueFault b code) (hcode : code ≠ 0x18) (hk : b.x.kind ≠ .privileged) :
    ∃ t, exec i s = .next t ∧ t.cmdSeq = s.cmdSeq ∧ ∀ y, t.agent b.a = some y → y.stoppedAs code .beat ∧ y.restart = 0 ∧ y.lanes = b.x.lanes := by
  obtain ⟨t, ht, hy⟩ := h.faulted (r := beatFault code b.perf 0 false) hk hcode hbody
  have ht2 := issueBeat_due h body
  rw [hbody, ht] at ht2
  obtain rfl := Host.Outcome.next.inj ht2
  refine ⟨_, hexec.trans ht, (State.cuts_conclude_fault (s.waited b.a) b (shapeOf i f).whole _).seq, fun y hya => ?_⟩
  obtain ⟨hstop, -, hlanes, hrestart⟩ := hy y hya
  exact ⟨hstop, by rw [hrestart, hwhole]; rfl, hlanes⟩

end

/-! ### What the forms do before their locks -/

/-- What CPC does before its locks (R183). -/
def State.issueCopy (b : Beat) (c : CopySlice) (tok mask : Nat) (u : State) : State := (arriveSlice ((u.takeSeq b.a).tokenUp b.a.team tok) b c mask).1

theorem State.began_issueCopy (b : Beat) (c : CopySlice) (tok mask : Nat) (u : State) : u.Began b tok 1 true (State.issueCopy b c tok mask u) :=
  ((u.began_takeSeq (b := b)).trans (.inr rfl) (State.began_tokenUp _ tok)).trans (.inr rfl) (State.began_arriveSlice _ c mask)

theorem State.began_geBegin (b : Beat) (g : GeArgs) (e : Handle) (tok : Nat) (u : State) : u.Began b tok 1 true (geBegin b g e (u.tokenUp b.a.team tok)) :=
  ((u.began_tokenUp tok).trans (.inl rfl) (State.began_clearPresence _ b.a.team (geLines g e))).trans (.inl rfl) (State.began_takeSeq _)

theorem State.began_oxBegin (b : Beat) {upd : Team → Team} (hupd : ∀ t, (upd t).agents = t.agents ∧ (upd t).tok = t.tok ∧ (upd t).cseq = t.cseq) (lines : List Nat) (u : State) :
    u.Began b (tokOf b.f.md) 1 true (oxBegin b upd lines u) :=
  (((u.began_takeSeq (b := b)).trans (.inr rfl) (State.began_tokenUp _ _)).trans (.inr rfl) (State.began_modTeam _ _ hupd)).trans (.inr rfl) (State.began_clearPresence _ _ _)


/-! ### The forms -/

/-- What the body of an engine form does with what `issueOf` names: it issues the command, or raises the code of the check that fails. -/
structure Issues (i : Instr) (f : Fields) (s : State) (b : Beat) (fails : Option Byte) (rs : List (Nat × Nat × Nat × Bool)) : Prop where
  issue : ∃ body mk token kind sq', exec i s = issueBeat i f s body ∧
    (∀ u : State, u.Began b (tokOf f.md) 1 true (mk u)) ∧ (∀ u : State, u.Began b (tokOf f.md) 1 sq' (token u)) ∧
    ((i = .gath f ∨ i = .scat f ∨ i = .scata f) → ∀ u : State, token u = u.tokenUp b.a.team (tokOf f.md)) ∧
    (∀ w : State, describes b i (w.starting b.a.team kind).2) ∧
    (fails = none → body b (s.begun b) = issueCommand s (s.begun b) b token mk fun u => cmdOf b ((u.agent b.a).getD b.x) kind (tokOf f.md) (evOf f.md) rs) ∧
    ∀ code, fails = some code → body b (s.begun b) = issueFault b code
  whole : (shapeOf i f).whole = true
  code : fails ≠ some 0x18

/-- The body of CPC. -/
def cpcBody (f : Fields) (s : State) (b : Beat) (s1 : State) : Out :=
  if b.perf = 0 then .done s1
  else issuedBefore s1 b <|
    let mask := bits (f.imm.setWidth 64) 23 16
    let c := sliceOfBeat b 0
    let tok := tokOf f.md
    match copyChecks s b.a.team b.t c mask with
    | some code => issueFault b code
    | none =>
      if tokenFull b.t tok then issueFault b 0x0F
      else issueCommand s s1 b (State.issueCopy b c tok mask) (State.issueCopy b c tok mask) fun u =>
        cmdOf b ((u.agent b.a).getD b.x) (copyCmd [(arriveSlice s1 b c mask).2] mask none) tok (evOf f.md) (copyRanges b.a.team b.t [c])

theorem exec_cpc (f : Fields) (s : State) : exec (.cpc f) s = issueBeat (.cpc f) f s (cpcBody f s) := rfl

theorem State.startCopy_slices (s : State) (team : Nat) (k : CopyCmd) : (s.startCopy team k).2.slices = k.slices ∧ (s.startCopy team k).2.landed = k.landed := by
  unfold State.startCopy
  split <;> exact ⟨rfl, rfl⟩

/-- The body of ACZERO. -/
def aczeroBody (f : Fields) (s : State) (b : Beat) (s1 : State) : Out :=
  if b.perf = 0 then .done s1
  else issuedBefore s1 b <|
    let tile := bits (f.imm.setWidth 64) 4 0
    if (Tbl.find? b.t.tiles tile).isNone then issueFault b 0x12
    else if tokenFull b.t (tokOf f.md) then issueFault b 0x0F
    else oxIssue s b s1 .aczero tile (fun t => { t with tiles := Tbl.modify t.tiles tile fun k => { k with ty := none } }) [] []

theorem exec_aczero (f : Fields) (s : State) : exec (.aczero f) s = issueBeat (.aczero f) f s (aczeroBody f s) := rfl

/-- The body of DRAIN. -/
def drainBody (s : State) (b : Beat) (s1 : State) : Out :=
  if b.perf = 0 then .done s1
  else issuedBefore s1 b <|
    match drainChecks b.t (drainArgs b) (tokOf b.f.md) with
    | some code => issueFault b code
    | none =>
      let g := drainArgs b
      oxIssue s b s1 (.drain g.kind g.cmp g.trap g.mxf g.bl g.queue g.dst g.pitch g.scale g.status) g.tile id g.lines
        (g.areas.flatMap fun r => if tagOf r.1 = 4 then [] else rangeOf b.a.team b.t r.1 r.2 true)

/-- The kind of the command of MMA or MMAG. -/
def mmaKind (g : MmaArgs) : OxKind :=
  match g.grouped with
  | none => .mma g.a g.b (kFirst g.k) (kCount g.k)
  | some d => .mmag g.a g.b (kFirst g.k) (kCount g.k) (bits g.k 63 48) (bits d 21 0) (bits d 40 32)

theorem copyChecks_code {s : State} {team : Nat} {t : Team} {c : CopySlice} {mask : Nat} : copyChecks s team t c mask ≠ some 0x18 := by
  unfold copyChecks
  dsimp only
  repeat' split
  all_goals decide

theorem mmaChecks_code {t : Team} {g : MmaArgs} {tok : Nat} : mmaChecks t g tok ≠ some 0x18 := by
  unfold mmaChecks
  repeat' split
  all_goals decide

theorem ite_ne_of_ne {α : Type} {c : Prop} [Decidable c] {u v x : α} (hu : u ≠ x) (hv : v ≠ x) : (if c then u else v) ≠ x := by
  split
  · exact hu
  · exact hv

theorem drainChecks_code {t : Team} {g : DrainArgs} {tok : Nat} : drainChecks t g tok ≠ some 0x18 := by
  unfold drainChecks
  dsimp only
  cases Tbl.find? t.tiles g.tile with
  | none => exact fun h => absurd (Option.some.inj h) (by decide)
  | some tile =>
    refine ite_ne_of_ne (by decide) (ite_ne_of_ne (by decide) (ite_ne_of_ne (by decide) (ite_ne_of_ne (by decide) (ite_ne_of_ne (by decide) ?_))))
    exact ite_ne_of_ne (by decide) (ite_ne_of_ne (by decide) (by decide))

section
variable {f : Fields} {s : State} {b : Beat} (hperf : b.perf ≠ 0) (hcmd : b.x.arr.cmd = none) (hlog : b.a.who = ctlWho → s.logRoom b.t 1 = true)
include hperf hcmd hlog

theorem geIssue_eq (kind : Nat) : geIssue kind s b (s.begun b) =
    match geChecks s b.t b.f (geArgs b kind) with
    | some code => issueFault b code
    | none => issueCommand s (s.begun b) b (fun u => u.tokenUp b.a.team (tokOf b.f.md))
        (fun u => geBegin b (geArgs b kind) (s.handle b.t.part (geArgs b kind).h) (u.tokenUp b.a.team (tokOf b.f.md))) fun u =>
        cmdOf b ((u.agent b.a).getD b.x) (geCmd b (geArgs b kind) (s.handle b.t.part (geArgs b kind).h)) (tokOf b.f.md) (evOf b.f.md)
          (geRanges b.a.team b.t (geArgs b kind) (s.handle b.t.part (geArgs b kind).h)) := by
  unfold geIssue
  exact (if_neg hperf).trans (State.unissued hcmd hlog _)

theorem geIssue_issues (i : Instr) (kind : Nat) (hexec : exec i s = issueBeat i b.f s (geIssue kind s)) (hwhole : (shapeOf i b.f).whole = true)
    (hdesc : describes b i (geCmd b (geArgs b kind) (s.handle b.t.part (geArgs b kind).h))) :
    Issues i b.f s b (geChecks s b.t b.f (geArgs b kind)) (geRanges b.a.team b.t (geArgs b kind) (s.handle b.t.part (geArgs b kind).h)) where
  issue := by
    refine ⟨geIssue kind s, _, _, geCmd b (geArgs b kind) (s.handle b.t.part (geArgs b kind).h), false, hexec, State.began_geBegin b (geArgs b kind) (s.handle b.t.part (geArgs b kind).h) _, fun u => u.began_tokenUp _, fun _ _ => rfl, fun _ => hdesc, fun hf => ?_, fun code hf => ?_⟩
    · rw [geIssue_eq hperf hcmd hlog, hf]
    · rw [geIssue_eq hperf hcmd hlog, hf]
  whole := hwhole
  code h := geChecks_code h rfl

omit hperf in
/-- The matrix forms take the number and the token in one step. -/
theorem oxIssue_issues (i : Instr) (body : Beat → State → Out) (kind : OxKind) (tile : Nat) {upd : Team → Team} (lines : List Nat) (fails : Option Byte)
    (rs : List (Nat × Nat × Nat × Bool)) (hexec : exec i s = issueBeat i b.f s body) (hge : ¬ (i = .gath b.f ∨ i = .scat b.f ∨ i = .scata b.f))
    (hbody : body b (s.begun b) = issuedBefore (s.begun b) b (match fails with
      | some code => issueFault b code
      | none => oxIssue s b (s.begun b) kind tile upd lines rs))
    (hupd : ∀ t, (upd t).agents = t.agents ∧ (upd t).tok = t.tok ∧ (upd t).cseq = t.cseq) (hdesc : describes b i (oxNew kind tile))
    (hwhole : (shapeOf i b.f).whole = true) (hcode : fails ≠ some 0x18) : Issues i b.f s b fails rs where
  issue := by
    rw [State.unissued hcmd hlog] at hbody
    refine ⟨body, _, _, oxNew kind tile, true, hexec, State.began_oxBegin b hupd lines, State.began_oxBegin b hupd lines, fun h => absurd h hge, fun _ => hdesc,
      fun hf => ?_, fun code hf => ?_⟩
    · rw [hbody, hf]
      rfl
    · rw [hbody, hf]
  whole := hwhole
  code := hcode

theorem cpcBody_eq : cpcBody b.f s b (s.begun b) =
    match copyChecks s b.a.team b.t (sliceOfBeat b 0) (bits (b.f.imm.setWidth 64) 23 16) with
    | some code => issueFault b code
    | none => if tokenFull b.t (tokOf b.f.md) then issueFault b 0x0F
      else issueCommand s (s.begun b) b (State.issueCopy b (sliceOfBeat b 0) (tokOf b.f.md) (bits (b.f.imm.setWidth 64) 23 16))
        (State.issueCopy b (sliceOfBeat b 0) (tokOf b.f.md) (bits (b.f.imm.setWidth 64) 23 16)) fun u =>
          cmdOf b ((u.agent b.a).getD b.x)
            (copyCmd [(arriveSlice (s.begun b) b (sliceOfBeat b 0) (bits (b.f.imm.setWidth 64) 23 16)).2] (bits (b.f.imm.setWidth 64) 23 16) none)
            (tokOf b.f.md) (evOf b.f.md) (copyRanges b.a.team b.t [sliceOfBeat b 0]) := by
  unfold cpcBody
  exact (if_neg hperf).trans (State.unissued hcmd hlog _)

theorem copy_issues : Issues (.cpc b.f) b.f s b (match copyChecks s b.a.team b.t (sliceOfBeat b 0) (bits (b.f.imm.setWidth 64) 23 16) with
      | some c => some c
      | none => if tokenFull b.t (tokOf b.f.md) then some 0x0F else none) (copyRanges b.a.team b.t [sliceOfBeat b 0]) where
  issue := by
    have hbody := cpcBody_eq (s := s) hperf hcmd hlog
    let mask := bits (b.f.imm.setWidth 64) 23 16
    let c := sliceOfBeat b 0
    refine ⟨cpcBody b.f s, State.issueCopy b c (tokOf b.f.md) mask, State.issueCopy b c (tokOf b.f.md) mask, copyCmd [(arriveSlice (s.begun b) b c mask).2] mask none, true,
      exec_cpc b.f s, State.began_issueCopy b c (tokOf b.f.md) mask, State.began_issueCopy b c (tokOf b.f.md) mask, fun hge => ?_, fun w => ?_, fun hf => ?_, fun code hf => ?_⟩
    · rcases hge with hge | hge | hge <;> cases hge
    · obtain ⟨hslices, hlanded⟩ := w.startCopy_slices b.a.team { slices := [(arriveSlice (s.begun b) b c mask).2], mask := mask, undelivered := 0, landed := [], id := none }
      exact ⟨congrArg (List.map fun z : CopySlice => (z.dst, z.src, z.geo, z.sstr, z.dstr)) hslices, hlanded⟩
    · rw [hbody]
      cases hchk : copyChecks s b.a.team b.t c mask with
      | some code =>
        rw [hchk] at hf
        cases hf
      | none =>
        rw [hchk] at hf
        exact if_neg fun hfull => by rw [if_pos hfull] at hf; cases hf
    · rw [hbody]
      cases hchk : copyChecks s b.a.team b.t c mask with
      | some code' =>
        rw [hchk] at hf
        exact congrArg (issueFault b) (Option.some.inj hf)
      | none =>
        rw [hchk] at hf
        dsimp only at hf ⊢
        split at hf
        · rename_i hfull
          rw [if_pos hfull, Option.some.inj hf]
        · cases hf
  whole := rfl
  code h := by
    split at h
    · rename_i hchk
      exact copyChecks_code (hchk.trans h)
    · split at h
      · exact absurd (Option.some.inj h) (by decide)
      · cases h

end

/-- What `issueOf` names of a form is what its body does. -/
theorem issueOf_issues {i : Instr} {n : BitVec 8} {f : Fields} {fails : Option Byte} {rs : List (Nat × Nat × Nat × Bool)} {s : State} {b : Beat}
    (hi : formOf i = some (n, f)) (ho : issueOf s b i = some (fails, rs)) (h : Due i f s b) (hperf : b.perf ≠ 0) (hcmd : b.x.arr.cmd = none)
    (hlog : b.a.who = ctlWho → s.logRoom b.t 1 = true) : Issues i f s b fails rs := by
  obtain rfl : b.f = f := h.f_eq
  unfold issueOf at ho
  split at ho
  all_goals cases ho
  all_goals cases hi
  · exact copy_issues hperf hcmd hlog
  · exact geIssue_issues hperf hcmd hlog _ 0 rfl rfl ⟨rfl, rfl, rfl, rfl, rfl⟩
  · exact geIssue_issues hperf hcmd hlog _ 1 rfl rfl ⟨rfl, rfl, rfl, rfl, rfl⟩
  · exact geIssue_issues hperf hcmd hlog _ 2 rfl rfl ⟨rfl, rfl, rfl, rfl, rfl, rfl, rfl⟩
  · exact oxIssue_issues hcmd hlog _ (mmaIssue false s) (mmaKind (mmaArgs b false)) (mmaArgs b false).tile (upd := fun t => t.typeTile (mmaArgs b false).tile (decide ((mmaArgs b false).a.layout.fmt = 6))) [] _ _ rfl
      (by rintro (h | h | h) <;> cases h) (if_neg hperf) (fun _ => ⟨rfl, rfl, rfl⟩) ⟨rfl, rfl, _, _, rfl⟩ rfl mmaChecks_code
  · exact oxIssue_issues hcmd hlog _ (mmaIssue true s) (mmaKind (mmaArgs b true)) (mmaArgs b true).tile (upd := fun t => t.typeTile (mmaArgs b true).tile (decide ((mmaArgs b true).a.layout.fmt = 6))) [] _ _ rfl
      (by rintro (h | h | h) <;> cases h) (if_neg hperf) (fun _ => ⟨rfl, rfl, rfl⟩) ⟨rfl, rfl, _, _, _, _, _, rfl⟩ rfl mmaChecks_code
  · refine oxIssue_issues hcmd hlog _ (aczeroBody b.f s) .aczero (bits (b.f.imm.setWidth 64) 4 0) (upd := fun t => { t with tiles := Tbl.modify t.tiles (bits (b.f.imm.setWidth 64) 4 0) fun k => { k with ty := none } }) [] _ _ (exec_aczero b.f s)
      (by rintro (h | h | h) <;> cases h) ?_ (fun _ => ⟨rfl, rfl, rfl⟩) ⟨rfl, rfl⟩ rfl (ite_ne_of_ne (by decide) (ite_ne_of_ne (by decide) (by decide)))
    unfold aczeroBody
    rw [if_neg hperf]
    dsimp only
    split
    · rfl
    · split <;> rfl
  · exact oxIssue_issues hcmd hlog _ (drainBody s) _ (drainArgs b).tile (upd := id) (drainArgs b).lines _ _ rfl
      (by rintro (h | h | h) <;> cases h) (if_neg hperf) (fun _ => ⟨rfl, rfl, rfl⟩) ⟨rfl, rfl, _, _, _, _, _, _, _, _, rfl⟩ rfl drainChecks_code

end Sys2Proof.Machine

open Sys2Proof.Machine in
/-- Settles O38: each form's body is an issue behind its checks, and an issue starts its command or waits for locks. -/
theorem commandsIssue : Obligations.CommandsIssue := by
  unfold Obligations.CommandsIssue
  intro i f n fails rs s b hi ho h hperf hcmd hlog
  obtain ⟨⟨body, mk, token, kind, sq', hexec, hmk, htok, hge, hdesc, hissue, hfault⟩, hwhole, hcode⟩ := issueOf_issues hi ho h hperf hcmd hlog
  exact ⟨fun hno hroom hal => h.commandStarts hexec (hissue hno) hmk hdesc hroom hal, fun hno hroom => h.commandWaits hexec (hissue hno) hmk htok hge hroom,
    fun code hf hk => h.commandFaults hexec hwhole (hfault code hf) (fun h18 => hcode (hf.trans (congrArg some h18))) hk⟩
end

section
/-! Reservations of operand lines and tiles, and the bindings of queues (R215 to R217, R236 to R241). -/

namespace Sys2Proof.Machine

/-! ### A beat that changes its team and its agent -/

/-- A due beat whose body changes its team and its agent's registers leaves both as the body leaves them, but for the sweep's own state. -/
theorem Due.settles {i : Instr} {f : Fields} {s u : State} {b : Beat} (h : Due i f s b) (hal : b.alive) {body : Beat → State → Out} {z : Agent} {t : Team}
    (hb : body b (s.begun b) = .done u) (hfl : u.flaws = []) (hz : u.agent b.a = some z) (ht : u.team b.a.team = some t) (hlanes : z.lanes = b.begunAgent.lanes)
    (hi : z.issue = .beats) :
    ∃ v y w, issueBeat i f s body = .next v ∧ v.agent b.a = some y ∧ y.core = z.core ∧ v.team b.a.team = some w ∧ w.core = t.core ∧ v.still = u.still ∧
      (noSpill b → u.Unreleased b.a.team → z.f = b.x.f → z.kind = b.x.kind → v.mem = u.mem) := by
  have hrun : z.runLanes ≠ [] := by
    have he : z.runLanes = b.begunAgent.runLanes := by
      unfold Agent.runLanes Agent.laneNos Agent.lane
      rw [hlanes]
    rw [he]
    exact Beat.begun_alive hal
  obtain ⟨y, hy, hcore, hstill⟩ := State.conclude_done_runsOn (s := s.waited b.a) hfl hz hi hrun (shapeOf i f).whole
  obtain ⟨w, hw, hwt⟩ := Option.map_eq_some_iff.mp ((State.team_of_still hstill b.a.team).trans (congrArg (Option.map Team.core) ht))
  refine ⟨(s.waited b.a).conclude b (shapeOf i f).whole (.done u), y, w, by rw [issueBeat_due h, hb], hy, hcore, hw, hwt, hstill, fun hn hu hf hk => ?_⟩
  have hq := State.conclude_done_quiet (s := s.waited b.a) hz hi hrun hu (by rw [hf, hk]; exact hn.1) (shapeOf i f).whole
  exact (congrArg State.mem hq : State.mem (((s.waited b.a).conclude b (shapeOf i f).whole (.done u)).teamless) = State.mem u.teamless)

/-- The body of a form that changes its team alone. -/
theorem Due.changesTeam {i : Instr} {f : Fields} {s : State} {b : Beat} (h : Due i f s b) (hal : b.alive) {body : Beat → State → Out} {f1 : Team → Team}
    (hf1 : ∀ t, (f1 t).agents = t.agents) (hb : body b (s.begun b) = .done ((s.begun b).modTeam b.a.team f1)) :
    ∃ v w t, issueBeat i f s body = .next v ∧ v.team b.a.team = some w ∧ w.core = (f1 t).core ∧ t.bare = b.t.bare := by
  obtain ⟨t, ht, hbare⟩ := h.begun_team
  obtain ⟨v, -, w, hv, -, -, hw, hwt, -, -⟩ := h.settles hal hb h.clean ((State.agent_modTeam_keep _ _ f1 hf1 b.a).trans h.begun_agent)
    (by rw [State.team_modTeam_same, ht]; rfl) rfl h.begun_issue
  exact ⟨v, w, t, hv, hw, hwt, hbare⟩

/-- The body of a form that changes its team and brings a value to D. -/
theorem Due.answers {i : Instr} {f : Fields} {s w0 : State} {b : Beat} (h : Due i f s b) (hal : b.alive) {body : Beat → State → Out} {f1 : Team → Team} {w : W64}
    (hw0 : w0.teams = (s.begun b).teams) (hfl : w0.flaws = []) (hf1 : ∀ t, (f1 t).agents = t.agents ∧ (f1 t).bars = t.bars)
    (hpair : ∀ n, f.d = .v n → 64 = 64 → n.toNat % 2 = 0) (hb : body b (s.begun b) = .done (resultTo b w (w0.modTeam b.a.team f1))) :
    ∃ v y u t, issueBeat i f s body = .next v ∧ v.agent b.a = some y ∧ y.holds 64 0 f.d w ∧ v.team b.a.team = some u ∧ u.core = (f1 t).core ∧ t.bare = b.t.bare ∧
      (noSpill b → v.mem = w0.mem) := by
  obtain rfl : b.f = f := h.f_eq
  obtain ⟨t, ht, hbare⟩ := h.begun_team
  let g : Agent → Agent := fun x => x.writeAll (destWrites 64 0 w b.f.d)
  have hout : (g b.begunAgent).outline = b.begunAgent.outline := Agent.writeAll_outline ..
  let t1 : Team := { f1 t with agents := Tbl.modify (f1 t).agents b.a.who g }
  have hx : (w0.modTeam b.a.team f1).agent b.a = some b.begunAgent := (State.agent_modTeam_keep _ _ f1 (fun t => (hf1 t).1) b.a).trans ((State.agent_congr hw0 b.a).trans h.begun_agent)
  have htm : (w0.modTeam b.a.team f1).team b.a.team = some (f1 t) := by
    rw [State.team_modTeam_same, State.team, hw0]
    exact congrArg (Option.map f1) ht
  obtain ⟨v, y, u, hv, hy, hcore, hu, hut, -, hmem⟩ := h.settles hal hb hfl (z := g b.begunAgent) (t := t1)
    (by rw [resultTo, State.agent_modAgent_same, hx]; rfl) (by rw [resultTo, State.team_modAgent, if_pos rfl, htm]; rfl)
    (congrArg Agent.lanes hout : (g b.begunAgent).outline.lanes = _) ((congrArg Agent.issue hout : (g b.begunAgent).outline.issue = _).trans h.begun_issue)
  have hregs : y.regs = (b.begunAgent.writeAll (laneWrites 64 [0] (fun _ => w) b.f.d)).regs := by
    rw [laneWrites, List.flatMap_cons, List.flatMap_nil, List.append_nil]
    exact (congrArg Agent.regs hcore).trans rfl
  refine ⟨v, y, u, t, hv, hy, holds_of_laneWrites (laneWrites_agree hpair fun _ _ _ _ _ _ => rfl) hregs (List.mem_singleton_self 0) (by decide), hu, hut, hbare,
    fun hn => hmem hn ?_ ((congrArg Agent.f hout : (g b.begunAgent).outline.f = _).trans b.begunAgent_f) ((congrArg Agent.kind hout : (g b.begunAgent).outline.kind = _).trans b.begunAgent_kind)⟩
  have hun : (w0.modTeam b.a.team f1).Unreleased b.a.team := fun v hv => by
    obtain rfl := Option.some.inj (hv.symm.trans htm)
    unfold Team.barReady
    rw [(hf1 t).1, (hf1 t).2]
    exact h.begun_unreleased hn.2.1 t ht
  refine hun.modAgent fun x e => ?_
  have ho : (g x).issue = x.issue := (congrArg Agent.issue (Agent.writeAll_outline x (destWrites 64 0 w b.f.d)) : (g x).outline.issue = _)
  rw [← ho]
  exact e

/-! ### Faults of these forms -/

/-- What reservations and bindings are of a team. -/
def Team.wares (t : Team) : Tbl ObRange × Tbl Tile × Tbl W64 × Tbl Ring := (t.ranges, t.tiles, t.qbind, t.rings)


theorem Team.flushEvents_wares (n : Nat) (t : Team) : (t.flushEvents n).wares = t.wares := by
  induction n generalizing t with
  | zero => rfl
  | succ n ih =>
    simp only [Team.flushEvents]
    split
    · rfl
    · split
      · rw [ih]
        rfl
      · rfl

theorem Team.pushEvent_wares (t : Team) (w : W64) (bs : List Byte) : (t.pushEvent w bs).wares = t.wares := by
  unfold Team.pushEvent Team.flush
  rw [Team.flushEvents_wares]
  rfl

/-- A team that has gone, or whose reservations and bindings are w. -/
structure State.Stocks (n : Nat) (w : Tbl ObRange × Tbl Tile × Tbl W64 × Tbl Ring) (s : State) : Prop where
  wares : ∀ t, s.team n = some t → t.agents = [] ∨ t.wares = w

namespace State.Stocks
variable {n : Nat} {w : Tbl ObRange × Tbl Tile × Tbl W64 × Tbl Ring} {s : State}

theorem of_teams (h : s.Stocks n w) {u : State} (hu : u.teams = s.teams) : u.Stocks n w := ⟨fun t ht => h.wares t ((congrArg (Tbl.find? · n) hu).symm.trans ht)⟩

theorem map (h : s.Stocks n w) {u : State} {f : Team → Team} (hf : ∀ t, ((f t).agents = [] ∨ ((t.agents = [] → (f t).agents = []) ∧ (f t).wares = t.wares)))
    (hu : u.team n = (s.team n).map f) : u.Stocks n w := ⟨fun t ht => by
  rw [hu] at ht
  obtain ⟨v, hv, rfl⟩ := Option.map_eq_some_iff.mp ht
  rcases hf v with hf | ⟨hag, hw⟩
  · exact .inl hf
  · exact (h.wares v hv).imp hag hw.trans⟩

theorem modTeam (h : s.Stocks n w) (k : Nat) {f : Team → Team} (hf : ∀ t, (t.agents = [] → (f t).agents = []) ∧ (f t).wares = t.wares) : (s.modTeam k f).Stocks n w := by
  by_cases hk : n = k
  · exact h.map (fun t => .inr (hf t)) (by rw [hk, State.team_modTeam_same])
  · exact ⟨fun t ht => h.wares t (by rw [State.team_modTeam, if_neg hk] at ht; exact ht)⟩

theorem modAgent (h : s.Stocks n w) (a : AgentId) (f : Agent → Agent) : (s.modAgent a f).Stocks n w :=
  h.modTeam a.team (f := fun t => { t with agents := Tbl.modify t.agents a.who f }) fun t => ⟨fun ht => by show Tbl.modify t.agents _ _ = []; rw [ht]; rfl, rfl⟩

theorem unhalted_keeps (t : Team) : (t.agents = [] → t.unhalted.agents = []) ∧ t.unhalted.wares = t.wares := by
  unfold Team.unhalted
  split
  · exact ⟨fun ht => by show List.map _ t.agents = []; rw [ht]; rfl, rfl⟩
  · exact ⟨id, rfl⟩

theorem fqSend (h : s.Stocks n w) (part : Nat) (r : HeldRecord) : (s.fqSend part r).Stocks n w := by
  rcases s.team_fqSend part r n with hu | hu
  · exact ⟨fun t ht => h.wares t (hu ▸ ht)⟩
  · exact h.map (fun t => .inr (unhalted_keeps t)) hu

theorem endContext (h : s.Stocks n w) (part asid : Nat) (rec : List Byte) : (s.endContext part asid rec).Stocks n w := by
  obtain ⟨f, g, hg, hu⟩ := s.team_endContext part asid rec n
  have hgk : ∀ t, (t.agents = [] → (g t).agents = []) ∧ (g t).wares = t.wares := by
    rcases hg with rfl | rfl
    · exact fun t => ⟨id, rfl⟩
    · exact unhalted_keeps
  refine h.map (fun t => ?_) hu
  split
  · exact .inl ((hgk _).1 rfl)
  · exact .inr ⟨fun ht => (hgk _).1 ht, (hgk _).2⟩

theorem postFault (h : s.Stocks n w) (team kind eng : Nat) (q : W32) (d : Nat) (r : Rec) : (s.postFault team kind eng q d r).Stocks n w := by
  unfold State.postFault
  split
  · exact h
  · split
    · exact h.endContext ..
    · refine h.modTeam _ fun t => ?_
      split
      · exact ⟨id, rfl⟩
      · exact ⟨fun ht => (Team.pushEvent_agents ..).trans ht, t.pushEvent_wares ..⟩

theorem takeFault (h : s.Stocks n w) (a : AgentId) (r : Raise) : (s.takeFault a r).Stocks n w := by
  unfold State.takeFault
  split
  next t x _ _ =>
    split
    · exact h.endContext ..
    · split
      · have h1 : (s.setAgent a { x.privFault r with gooseSeq := s.beatSeq }).Stocks n w := h.modAgent a _
        extract_lets s1
        split
        · exact h1.of_teams rfl
        · exact h1
      · extract_lets rec0 s1 s0 s2
        have h1 : s1.Stocks n w := State.Stocks.modTeam (h.modAgent a _) a.team fun _ => ⟨id, rfl⟩
        have h0 : s0.teams = s1.teams := by
          simp only [s0]
          split
          · exact State.trace_teams ..
          · rfl
        have h2 : s2.Stocks n w := h1.of_teams ((State.trace_teams ..).trans h0)
        have hdisp := h2.of_teams (s2.openDisp_teams (t.cluster.getD 0) t.part t.asid t.slot a.who rec0.encode)
        split
        · split
          · exact h2.endContext ..
          · split
            · exact (h2.of_teams (State.writeRecord_teams ..)).endContext ..
            · split
              · next hd =>
                rw [hd] at hdisp
                exact hdisp.endContext ..
              · next hd =>
                rw [hd] at hdisp
                exact hdisp.fqSend ..
        · split
          · next hd =>
            rw [hd] at hdisp
            exact hdisp.endContext ..
          · next hd =>
            rw [hd] at hdisp
            exact hdisp.postFault ..
  next => exact h

theorem markHeld (h : s.Stocks n w) (a : AgentId) : (s.markHeld a).Stocks n w := by
  refine h.modTeam a.team fun t => ?_
  split
  · exact ⟨fun ht => by show Tbl.modify t.agents _ _ = []; rw [ht]; rfl, rfl⟩
  · exact ⟨id, rfl⟩

end State.Stocks

/-- A fault of a group or control thread leaves the ranges, tiles and bindings of a team that stays. -/
theorem Due.faultsKeeping {i : Instr} {f : Fields} {s : State} {b : Beat} (h : Due i f s b) (hk : b.x.kind ≠ .privileged) {body : Beat → State → Out}
    {r : Raise} (hr : r.code ≠ 0x18) (hb : body b (s.begun b) = .fault r) : ∃ t, issueBeat i f s body = .next t ∧ ∀ y, t.agent b.a = some y →
      y.stoppedAs r.code r.how ∧ y.lanes = b.x.lanes ∧
      ∃ u, t.team b.a.team = some u ∧ u.ranges = b.t.ranges ∧ u.tiles = b.t.tiles ∧ u.qbind = b.t.qbind ∧ u.rings = b.t.rings := by
  have hkeeps : s.Stocks b.a.team b.t.wares := ⟨fun t ht => .inr (congrArg Team.wares (Option.some.inj (ht.symm.trans h.team)))⟩
  have hend : ((s.waited b.a).conclude b (shapeOf i f).whole (.fault r)).Stocks b.a.team b.t.wares :=
    (((hkeeps.modAgent b.a _).modAgent b.a _).takeFault b.a _).markHeld b.a
  obtain ⟨t, ht, hy⟩ := h.faulted hk hr hb
  have ht2 := issueBeat_due h body
  rw [hb, ht] at ht2
  obtain rfl := Host.Outcome.next.inj ht2
  refine ⟨_, ht, fun y hya => ?_⟩
  obtain ⟨hstop, -, hlanes, -⟩ := hy y hya
  refine ⟨hstop, hlanes, ?_⟩
  rw [State.agent] at hya
  obtain ⟨u, hu, huy⟩ := Option.bind_eq_some_iff.mp hya
  rcases hend.wares u hu with he | he
  · rw [he] at huy
    cases huy
  · obtain ⟨h1, h234⟩ := Prod.mk.inj he
    obtain ⟨h2, h34⟩ := Prod.mk.inj h234
    obtain ⟨h3, h4⟩ := Prod.mk.inj h34
    exact ⟨u, hu, h1, h2, h3, h4⟩

end Sys2Proof.Machine
end

section
/-! O40: OBRES, OBREL, ACALLOC, ACFREE and QCFG. -/

namespace Sys2Proof.Machine

/-! ### Their bodies -/

theorem exec_obres (f : Fields) (s : State) : exec (.obres f) s = execObres f s := rfl
theorem exec_obrel (f : Fields) (s : State) : exec (.obrel f) s = execObrel f s := rfl
theorem exec_acalloc (f : Fields) (s : State) : exec (.acalloc f) s = execAcalloc f s := rfl
theorem exec_acfree (f : Fields) (s : State) : exec (.acfree f) s = execAcfree f s := rfl
theorem exec_qcfg (f : Fields) (s : State) : exec (.qcfg f) s = execQcfg f s := rfl

theorem State.modTeam_id (s : State) (n : Nat) : s.modTeam n id = s := by
  rw [State.modTeam, Tbl.modify_id]

theorem leastOf_mem {l : List Nat} {n : Nat} (h : leastOf l = some n) : n ∈ l := by
  induction l generalizing n with
  | nil => cases h
  | cons x xs ih =>
    rw [leastOf] at h
    split at h
    · rw [← Option.some.inj h]
      exact List.mem_cons_self
    next y hy =>
      rcases Nat.le_total x y with hxy | hxy
      · rw [← Option.some.inj h, Nat.min_eq_left hxy]
        exact List.mem_cons_self
      · rw [← Option.some.inj h, Nat.min_eq_right hxy]
        exact List.mem_cons_of_mem x (ih hy)

theorem firstFit_free {t : Team} {n l : Nat} (h : firstFit t n = some l) : linesFree t l n = true := (List.mem_filter.mp (leastOf_mem h)).2

/-- Queues that are unbound are, and the tiles and ranges stay. -/
theorem Team.foldl_unbind (qs : List Nat) (t : Team) : (qs.foldl Team.unbind t).agents = t.agents ∧ (qs.foldl Team.unbind t).ranges = t.ranges ∧
    (qs.foldl Team.unbind t).tiles = t.tiles ∧ ∀ q, (q ∈ qs ∨ t.bind q = 0) → (qs.foldl Team.unbind t).bind q = 0 := by
  induction qs generalizing t with
  | nil => exact ⟨rfl, rfl, rfl, fun q hq => hq.resolve_left List.not_mem_nil⟩
  | cons k qs ih =>
    obtain ⟨ha, hr, ht, hb⟩ := ih (t.unbind k)
    refine ⟨ha, hr, ht, fun q hq => hb q ?_⟩
    have hget : (t.unbind k).bind q = if q = k then 0 else t.bind q := Tbl.get_put 0 t.qbind k q 0
    by_cases hk : q = k
    · exact .inr (by rw [hget, if_pos hk])
    · refine hq.imp (fun hm => (List.mem_cons.mp hm).resolve_left hk) fun h0 => ?_
      rw [hget, if_neg hk, h0]

theorem Tbl.find?_foldl_del {α : Type} (ks : List Nat) (m : Tbl α) (j : Nat) : Tbl.find? (ks.foldl Tbl.del m) j = if j ∈ ks then none else Tbl.find? m j := by
  induction ks generalizing m with
  | nil => simp
  | cons k ks ih =>
    rw [List.foldl_cons, ih, Tbl.find?_del]
    by_cases hj : j = k
    · simp [hj]
    · simp [hj]

theorem Team.of_core_wares {u v : Team} (h : u.core = v.core) : u.ranges = v.ranges ∧ u.tiles = v.tiles ∧ u.qbind = v.qbind ∧ u.rings = v.rings ∧ u.alloc = v.alloc :=
  ⟨(congrArg Team.ranges h : u.core.ranges = v.core.ranges), (congrArg Team.tiles h : u.core.tiles = v.core.tiles), (congrArg Team.qbind h : u.core.qbind = v.core.qbind),
    (congrArg Team.rings h : u.core.rings = v.core.rings), (congrArg Team.alloc h : u.core.alloc = v.core.alloc)⟩

theorem Team.of_bare_wares {u v : Team} (h : u.bare = v.bare) : u.ranges = v.ranges ∧ u.tiles = v.tiles ∧ u.qbind = v.qbind ∧ u.rings = v.rings :=
  ⟨(congrArg Team.ranges h : u.bare.ranges = v.bare.ranges), (congrArg Team.tiles h : u.bare.tiles = v.bare.tiles), (congrArg Team.qbind h : u.bare.qbind = v.bare.qbind),
    (congrArg Team.rings h : u.bare.rings = v.bare.rings)⟩

section
variable {f : Fields} {s : State} {b : Beat}

/-- OBRES gives the first lines that fit, zeroed, or answers all ones (R237). -/
theorem Due.obres (h : Due (.obres f) f s b) (hp : b.perf ≠ 0) (hn : noSpill b) (hok : recOk (regOrZero b.x f.a) = true)
    (hnew : Tbl.find? b.t.ranges f.fn.toNat = none) :
    ∃ t y u, exec (.obres f) s = .next t ∧ t.agent b.a = some y ∧ t.team b.a.team = some u ∧
      (∀ l, firstFit b.t (recLines (regOrZero b.x f.a)) = some l → linesFree b.t l (recLines (regOrZero b.x f.a)) = true ∧ y.holds 64 0 f.d (BitVec.ofNat 64 l) ∧
        Tbl.find? u.ranges f.fn.toNat = some { word := regOrZero b.x f.a, first := l } ∧
        ∀ k, k < recLines (regOrZero b.x f.a) * 128 → t.byteAt (obLoc b.a.team (l * 128) + k) = 0) ∧
      (firstFit b.t (recLines (regOrZero b.x f.a)) = none → u.ranges = b.t.ranges ∧ y.holds 64 0 f.d 0xFFFFFFFFFFFFFFFF#64) := by
  let w := regOrZero b.x f.a
  have hpair : ∀ n, f.d = .v n → 64 = 64 → n.toNat % 2 = 0 := fun n hd _ => by
    obtain ⟨-, hok⟩ := h.dest_ok (opc := 0xC5) rfl
    rw [← Option.some.inj h.row_eq, hd] at hok
    exact Bool.noConfusion hok
  have hbad : ¬ ((!recOk w || (Tbl.find? b.t.ranges f.fn.toNat).isSome) = true) := by
    rw [hok, hnew]
    nofun
  cases hfit : firstFit b.t (recLines w) with
  | none =>
    obtain ⟨body, hexec, hb⟩ : ∃ body, exec (.obres f) s = issueBeat (.obres f) f s body ∧
        body b (s.begun b) = .done (resultTo b 0xFFFFFFFFFFFFFFFF#64 ((s.begun b).modTeam b.a.team id)) := by
      refine ⟨_, (exec_obres f s).trans (execObres.eq_1 f s), ?_⟩
      dsimp only
      rw [if_neg hp, if_neg hbad, hfit, State.modTeam_id]
    obtain ⟨v, y, u, t, hv, hy, hd, hu, hut, ht, -⟩ := h.answers hn.2.2 rfl h.clean (fun _ => ⟨rfl, rfl⟩) hpair hb
    exact ⟨v, y, u, hexec.trans hv, hy, hu, ⟨nofun, fun _ => ⟨(Team.of_core_wares hut).1.trans (Team.of_bare_wares ht).1, hd⟩⟩⟩
  | some l =>
    let f1 : Team → Team := fun t => { t with ranges := Tbl.ins t.ranges f.fn.toNat { word := w, first := l } }
    let w0 := (s.begun b).clear (obLoc b.a.team (l * 128)) (recLines w * 128)
    obtain ⟨body, hexec, hb⟩ : ∃ body, exec (.obres f) s = issueBeat (.obres f) f s body ∧ body b (s.begun b) = .done (resultTo b (BitVec.ofNat 64 l) (w0.modTeam b.a.team f1)) := by
      refine ⟨_, (exec_obres f s).trans (execObres.eq_1 f s), ?_⟩
      dsimp only
      rw [if_neg hp, if_neg hbad, hfit]
    obtain ⟨v, y, u, t, hv, hy, hd, hu, hut, ht, hmem⟩ := h.answers (f1 := f1) hn.2.2 (State.clear_teams ..) ((State.clear_flaws ..).trans h.clean) (fun _ => ⟨rfl, rfl⟩) hpair hb
    refine ⟨v, y, u, hexec.trans hv, hy, hu, fun l' hl => ?_, nofun⟩
    obtain rfl := Option.some.inj hl
    refine ⟨firstFit_free hfit, hd, ?_, fun k hk => ?_⟩
    · rw [(Team.of_core_wares hut).1]
      exact Tbl.find?_ins_same ..
    · rw [State.byteAt_congr (hmem hn), State.byteAt_clear, if_neg (fun ho => by have hk : k < recLines w * 128 := hk; omega)]

/-- OBREL returns a range and unbinds its feed queues (R238). -/
theorem Due.obrel (h : Due (.obrel f) f s b) (hp : b.perf ≠ 0) (hal : b.alive) (hthere : (Tbl.find? b.t.ranges f.fn.toNat).isSome = true)
    (hidle : ∀ e ∈ s.oxOf b.a.team, e.2.2.readsRange f.fn.toNat = false) :
    ∃ t u, exec (.obrel f) s = .next t ∧ t.team b.a.team = some u ∧ Tbl.find? u.ranges f.fn.toNat = none ∧ ∀ q ∈ b.t.feedsOf f.fn.toNat, u.bind q = 0 := by
  let f1 : Team → Team := fun t => { (t.feedsOf f.fn.toNat).foldl Team.unbind t with ranges := Tbl.del ((t.feedsOf f.fn.toNat).foldl Team.unbind t).ranges f.fn.toNat }
  obtain ⟨body, hexec, hb⟩ : ∃ body, exec (.obrel f) s = issueBeat (.obrel f) f s body ∧ body b (s.begun b) = .done ((s.begun b).modTeam b.a.team f1) := by
    refine ⟨_, (exec_obrel f s).trans (execObrel.eq_1 f s), ?_⟩
    dsimp only
    rw [if_neg hp, if_neg (by rw [Option.isNone_iff_eq_none]; intro hn; rw [hn] at hthere; cases hthere), if_neg]
    intro hany
    obtain ⟨e, he, hr⟩ := List.any_eq_true.mp hany
    rw [hidle e he] at hr
    cases hr
  obtain ⟨v, u, t, hv, hu, hut, ht⟩ := h.changesTeam hal (f1 := f1) (fun t => (t.foldl_unbind _).1) hb
  obtain ⟨hr, -, hq, -, -⟩ := Team.of_core_wares hut
  refine ⟨v, u, hexec.trans hv, hu, ?_, fun q hq' => ?_⟩
  · rw [hr]
    exact (Tbl.find?_del ..).trans (if_pos rfl)
  · have hf : t.feedsOf f.fn.toNat = b.t.feedsOf f.fn.toNat := by
      unfold Team.feedsOf Team.bind
      rw [(Team.of_bare_wares ht).2.2.1]
    rw [Team.bind, hq]
    exact (t.foldl_unbind _).2.2.2 q (.inl (hf ▸ hq'))

/-- ACALLOC gives the lowest free names, or waits for the tiles (R239, R240). -/
theorem Due.acalloc (h : Due (.acalloc f) f s b) (hp : b.perf ≠ 0) (hal : b.alive) (hgiven : b.t.allocated = none) (hasked : b.t.alloc = none)
    (h0 : (litOrReg b f.a).toNat ≠ 0) (hcap : (litOrReg b f.a).toNat + b.t.tiles.length ≤ b.t.acc) :
    ((litOrReg b f.a).toNat ≤ s.freeTiles b.cluster → (∀ e ∈ s.blockedAllocs b.cluster, b.t.age < e.2.1) →
      ∃ t y u, exec (.acalloc f) s = .next t ∧ t.agent b.a = some y ∧ t.team b.a.team = some u ∧
        y.holds 64 0 f.d (BitVec.ofNat 64 ((b.t.newNames (litOrReg b f.a).toNat).foldl (fun m k => m + 2 ^ k) 0)) ∧
        (∀ k ∈ b.t.newNames (litOrReg b f.a).toNat, Tbl.find? u.tiles k = some { els := [], ty := none }) ∧
        (∀ k, k ∉ b.t.newNames (litOrReg b f.a).toNat → Tbl.find? u.tiles k = Tbl.find? b.t.tiles k)) ∧
    (s.freeTiles b.cluster < (litOrReg b f.a).toNat → ∃ t y u, exec (.acalloc f) s = .next t ∧ t.agent b.a = some y ∧ t.team b.a.team = some u ∧
      y.block = some .acalloc ∧ y.lanes = b.x.lanes ∧ u.alloc = some (litOrReg b f.a).toNat ∧ u.tiles = b.t.tiles) := by
  let n := (litOrReg b f.a).toNat
  have hbad : ¬ (n = 0 ∨ n + b.t.tiles.length > b.t.acc) := by
    rintro (hn | hn)
    · exact h0 hn
    · exact absurd hcap (by omega)
  refine ⟨fun hfree hfirst => ?_, fun hfull => ?_⟩
  · let f1 : Team → Team := fun t => { t.giveTiles n with allocated := none }
    let w := BitVec.ofNat 64 ((b.t.newNames n).foldl (fun m k => m + 2 ^ k) 0)
    have hpair : ∀ n, f.d = .v n → 64 = 64 → n.toNat % 2 = 0 := fun n hd _ => by
      obtain ⟨-, hok⟩ := h.dest_ok (opc := 0xC2) rfl
      rw [← Option.some.inj h.row_eq, hd] at hok
      exact Bool.noConfusion hok
    obtain ⟨body, hexec, hb⟩ : ∃ body, exec (.acalloc f) s = issueBeat (.acalloc f) f s body ∧ body b (s.begun b) = .done (resultTo b w ((s.begun b).modTeam b.a.team f1)) := by
      refine ⟨_, (exec_acalloc f s).trans (execAcalloc.eq_1 f s), ?_⟩
      dsimp only
      rw [if_neg hp, hgiven, hasked]
      dsimp only
      rw [if_neg nofun, if_neg hbad, if_pos ⟨hfree, List.all_eq_true.mpr fun e he => decide_eq_true (hfirst e he)⟩]
      rfl
    obtain ⟨v, y, u, t, hv, hy, hd, hu, hut, ht, -⟩ := h.answers hal (f1 := f1) rfl h.clean (fun _ => ⟨rfl, rfl⟩) hpair hb
    have htiles : u.tiles = (b.t.newNames n).foldl (fun m k => Tbl.ins m k { els := [], ty := none }) b.t.tiles := by
      rw [(Team.of_core_wares hut).2.1]
      show (t.newNames n).foldl _ t.tiles = _
      unfold Team.newNames
      rw [(Team.of_bare_wares ht).2.1]
    refine ⟨v, y, u, hexec.trans hv, hy, hu, hd, fun k hk => ?_, fun k hk => ?_⟩
    · rw [htiles, Tbl.find?_foldl_ins, if_pos hk]
    · rw [htiles, Tbl.find?_foldl_ins, if_neg hk]
  · let f1 : Team → Team := fun t => { t with alloc := some n }
    obtain ⟨body, hexec, hb⟩ : ∃ body, exec (.acalloc f) s = issueBeat (.acalloc f) f s body ∧ body b (s.begun b) = .wait ((s.blockAgent b.a .acalloc).modTeam b.a.team f1) := by
      refine ⟨_, (exec_acalloc f s).trans (execAcalloc.eq_1 f s), ?_⟩
      dsimp only
      rw [if_neg hp, hgiven, hasked]
      dsimp only
      rw [if_neg nofun, if_neg hbad, if_neg fun hyes => absurd hyes.1 (by omega)]
    obtain ⟨y, hy, hblock, hyx⟩ := State.blockAgent_agent h.agent .acalloc
    let unwaited : Agent → Agent := fun x => { x with arr := { x.arr with wk := 0 } }
    let w1 := ((s.blockAgent b.a .acalloc).modTeam b.a.team f1).modAgent b.a unwaited
    have hy1 : w1.agent b.a = some (unwaited y) := by
      rw [State.agent_modAgent_same, State.agent_modTeam_keep _ _ f1 (fun _ => rfl) b.a, hy]
      rfl
    obtain ⟨held, hz⟩ := State.markHeld_self hy1
    obtain ⟨t, ht, hbare⟩ := (s.fixed_modAgent b.a _ : s.Fixed b.a (s.blockAgent b.a .acalloc)).team h.team
    have ht : (s.blockAgent b.a .acalloc).team b.a.team = some t := ht
    obtain ⟨u, hu, hubare⟩ := ((State.fixed_modAgent _ b.a unwaited).trans (State.fixed_markHeld _ b.a) :
      ((s.blockAgent b.a .acalloc).modTeam b.a.team f1).Fixed b.a (w1.markHeld b.a)).team (t := f1 t) (by rw [State.team_modTeam_same, ht]; rfl)
    refine ⟨_, _, u, by rw [hexec, issueBeat_due h, hb, State.conclude_wait], hz, hu, hblock, (Agent.lanes_of_unwaiting hyx).trans rfl, ?_, ?_⟩
    · exact (congrArg Team.alloc hubare : u.bare.alloc = (f1 t).bare.alloc)
    · exact (Team.of_bare_wares hubare).2.1.trans (Team.of_bare_wares hbare).2.1

/-- ACFREE returns the named tiles (R241). -/
theorem Due.acfree (h : Due (.acfree f) f s b) (hp : b.perf ≠ 0) (hal : b.alive) (hhigh : bits (litOrReg b f.a) 63 32 = 0)
    (hfree : ∀ k ∈ namesIn (litOrReg b f.a), (Tbl.find? b.t.tiles k).isSome = true ∧ s.tileBusy b.a.team k = false) :
    ∃ t u, exec (.acfree f) s = .next t ∧ t.team b.a.team = some u ∧
      ∀ k, Tbl.find? u.tiles k = if k ∈ namesIn (litOrReg b f.a) then none else Tbl.find? b.t.tiles k := by
  let ks := namesIn (litOrReg b f.a)
  let t1 : Team → Team := fun t => ([12, 13].filter fun q => bound (t.bind q) && ks.contains (bits (t.bind q) 4 0)).foldl Team.unbind t
  let f1 : Team → Team := fun t => { t1 t with tiles := ks.foldl Tbl.del (t1 t).tiles }
  obtain ⟨body, hexec, hb⟩ : ∃ body, exec (.acfree f) s = issueBeat (.acfree f) f s body ∧ body b (s.begun b) = .done ((s.begun b).modTeam b.a.team f1) := by
    refine ⟨_, (exec_acfree f s).trans (execAcfree.eq_1 f s), ?_⟩
    dsimp only
    rw [if_neg hp, if_neg, if_neg]
    · intro hany
      obtain ⟨k, hk, hbusy⟩ := List.any_eq_true.mp hany
      rw [(hfree k hk).2] at hbusy
      cases hbusy
    · rintro (hb | hany)
      · exact hb hhigh
      · obtain ⟨k, hk, hnone⟩ := List.any_eq_true.mp hany
        have hsome := (hfree k hk).1
        rw [Option.isNone_iff_eq_none.mp hnone] at hsome
        cases hsome
  obtain ⟨v, u, t, hv, hu, hut, ht⟩ := h.changesTeam hal (f1 := f1) (fun t => (t.foldl_unbind _).1) hb
  refine ⟨v, u, hexec.trans hv, hu, fun k => ?_⟩
  rw [(Team.of_core_wares hut).2.1]
  show Tbl.find? (ks.foldl Tbl.del (t1 t).tiles) k = _
  rw [Tbl.find?_foldl_del, (t.foldl_unbind _).2.2.1, (Team.of_bare_wares ht).2.1]

/-- QCFG binds a queue (R215 to R217). -/
theorem Due.qcfg (h : Due (.qcfg f) f s b) (hp : b.perf ≠ 0) (hal : b.alive) (hformed : bindingFormed f.fn.toNat (litOrReg b f.a) = true)
    (hfill : b.t.fillOf f.fn.toNat = 0) (hused : s.bindingUsed b.a.team b.t f.fn.toNat = false)
    (hring : bound (litOrReg b f.a) = true → f.fn.toNat ≤ 11 → ringLines (litOrReg b f.a) ≠ 0 ∧
      ∃ r, Tbl.find? b.t.ranges (bits (litOrReg b f.a) 3 0) = some r ∧ ringStart (litOrReg b f.a) + ringLines (litOrReg b f.a) ≤ recLines r.word)
    (htile : bound (litOrReg b f.a) = true → 11 < f.fn.toNat → (Tbl.find? b.t.tiles (bits (litOrReg b f.a) 4 0)).isSome = true) :
    ∃ t u, exec (.qcfg f) s = .next t ∧ t.team b.a.team = some u ∧ u.bind f.fn.toNat = litOrReg b f.a ∧
      (f.fn.toNat ≤ 11 → bound (litOrReg b f.a) = true → Tbl.find? u.rings f.fn.toNat =
        some { wc := ringStart (litOrReg b f.a), rd := ringStart (litOrReg b f.a), fill := 0 }) := by
  let n := f.fn.toNat
  let w := litOrReg b f.a
  let f1 : Team → Team := fun t =>
    if n ≤ 11 then { t with qbind := Tbl.put 0 t.qbind n w,
                            rings := if bound w then Tbl.ins t.rings n { wc := ringStart w, rd := ringStart w, fill := 0 } else Tbl.del t.rings n }
    else { t with qbind := Tbl.put 0 t.qbind n w }
  have hf1 : ∀ t, (f1 t).agents = t.agents := fun t => by
    unfold f1
    split <;> rfl
  obtain ⟨body, hexec, hb⟩ : ∃ body, exec (.qcfg f) s = issueBeat (.qcfg f) f s body ∧ body b (s.begun b) = .done ((s.begun b).modTeam b.a.team f1) := by
    refine ⟨_, (exec_qcfg f s).trans (execQcfg.eq_1 f s), ?_⟩
    dsimp only
    rw [if_neg hp, hformed, if_neg nofun, if_neg, if_neg, if_neg]
    · intro hbad
      simp only [Bool.and_eq_true, decide_eq_true_eq] at hbad
      obtain ⟨⟨hbd, hn⟩, hnone⟩ := hbad
      have hsome := htile hbd hn
      rw [Option.isNone_iff_eq_none.mp hnone] at hsome
      cases hsome
    · intro hbad
      simp only [Bool.and_eq_true, decide_eq_true_eq] at hbad
      obtain ⟨⟨hbd, hn⟩, hrest⟩ := hbad
      obtain ⟨hlines, r, hr, hfits⟩ := hring hbd hn
      rw [hr] at hrest
      simp [hlines] at hrest
      omega
    · rintro (hf | hu)
      · exact hf hfill
      · rw [hused] at hu
        cases hu
  obtain ⟨v, u, t, hv, hu, hut, ht⟩ := h.changesTeam hal hf1 hb
  obtain ⟨-, -, hq, hr, -⟩ := Team.of_core_wares hut
  refine ⟨v, u, hexec.trans hv, hu, ?_, fun hn hbd => ?_⟩
  · rw [Team.bind, hq]
    have hqb : (f1 t).qbind = Tbl.put 0 t.qbind n w := by
      unfold f1
      split <;> rfl
    rw [hqb, Tbl.get_put 0 t.qbind n n w, if_pos rfl]
  · rw [hr]
    unfold f1
    rw [if_pos hn, if_pos hbd]
    exact Tbl.find?_ins_same ..

end

/-! ### What they refuse -/

/-- What R236 to R241 refuse. -/
theorem Due.refuses {i : Instr} {f : Fields} {s : State} {b : Beat} (h : Due i f s b) (hp : b.perf ≠ 0)
    (hbad : (i = .obres f ∧ (recOk (regOrZero b.x f.a) = false ∨ (Tbl.find? b.t.ranges f.fn.toNat).isSome = true)) ∨
      (i = .obrel f ∧ Tbl.find? b.t.ranges f.fn.toNat = none) ∨
      (i = .acalloc f ∧ b.t.allocated = none ∧ b.t.alloc = none ∧ ((litOrReg b f.a).toNat = 0 ∨ b.t.acc < (litOrReg b f.a).toNat + b.t.tiles.length)) ∨
      (i = .acfree f ∧ (bits (litOrReg b f.a) 63 32 ≠ 0 ∨ ∃ k ∈ namesIn (litOrReg b f.a), Tbl.find? b.t.tiles k = none))) :
    ∃ body, exec i s = issueBeat i f s body ∧ body b (s.begun b) = issueFault b 0x12 := by
  rcases hbad with ⟨rfl, hbad⟩ | ⟨rfl, hbad⟩ | ⟨rfl, hgiven, hasked, hbad⟩ | ⟨rfl, hbad⟩
  · refine ⟨_, (exec_obres f s).trans (execObres.eq_1 f s), ?_⟩
    dsimp only
    rw [if_neg hp, if_pos]
    rcases hbad with hb | hb <;> simp [hb]
  · refine ⟨_, (exec_obrel f s).trans (execObrel.eq_1 f s), ?_⟩
    dsimp only
    rw [if_neg hp, if_pos (by rw [hbad]; rfl)]
  · refine ⟨_, (exec_acalloc f s).trans (execAcalloc.eq_1 f s), ?_⟩
    dsimp only
    rw [if_neg hp, hgiven, hasked]
    dsimp only
    rw [if_neg nofun, if_pos hbad]
  · refine ⟨_, (exec_acfree f s).trans (execAcfree.eq_1 f s), ?_⟩
    dsimp only
    rw [if_neg hp, if_pos]
    refine hbad.imp id fun ⟨k, hk, hnone⟩ => List.any_eq_true.mpr ⟨k, hk, by rw [hnone]; rfl⟩

theorem bindingFormed_iff (n : Nat) (w : W64) : bindingFormed n w = true ↔
    (if n ≤ 11 then bits w 63 38 = 0 ∧ bits w 23 21 = 0 ∧ bits w 6 4 = 0 else bits w 63 8 = 0 ∧ bits w 6 5 = 0) ∧ (bit w 7 = true ∨ w = 0) := by
  unfold bindingFormed
  split <;> simp [and_assoc]

/-- What QCFG refuses, in the order of its checks. -/
theorem qcfg_refuses {f : Fields} {s : State} {b : Beat} {code : Byte} (hp : b.perf ≠ 0)
    (hbad : let n := f.fn.toNat
      let w := litOrReg b f.a
      let idle := b.t.fillOf n = 0 ∧ s.bindingUsed b.a.team b.t n = false
      let there := if n ≤ 11 then ∃ r, Tbl.find? b.t.ranges (bits w 3 0) = some r ∧ bits w 37 24 ≠ 0 ∧ bits w 20 8 + bits w 37 24 ≤ recLines r.word
        else (Tbl.find? b.t.tiles (bits w 4 0)).isSome = true
      (¬ bindingFormed n w = true ∧ code = 0x01) ∨ (bindingFormed n w = true ∧ ¬ idle ∧ code = 0x0D) ∨
        (bindingFormed n w = true ∧ idle ∧ bit w 7 = true ∧ ¬ there ∧ code = 0x12)) :
    ∃ body, exec (.qcfg f) s = issueBeat (.qcfg f) f s body ∧ body b (s.begun b) = issueFault b code := by
  refine ⟨_, (exec_qcfg f s).trans (execQcfg.eq_1 f s), ?_⟩
  dsimp only
  rw [if_neg hp]
  rcases hbad with ⟨hform, rfl⟩ | ⟨hform, hidle, rfl⟩ | ⟨hform, hidle, hbd, hthere, rfl⟩
  · rw [if_pos (by simpa using hform)]
  · rw [hform, if_neg nofun, if_pos]
    by_cases hf : b.t.fillOf f.fn.toNat = 0
    · exact .inr (Bool.not_eq_false _ ▸ fun hu => hidle ⟨hf, hu⟩)
    · exact .inl hf
  · rw [hform, if_neg nofun, if_neg (by rintro (hf | hu); exacts [hf hidle.1, by rw [hidle.2] at hu; cases hu])]
    have hbound : bound (litOrReg b f.a) = true := hbd
    by_cases hn : f.fn.toNat ≤ 11
    · rw [if_pos hn] at hthere
      rw [if_pos]
      simp only [hbound, hn, decide_true, Bool.true_and, Bool.or_eq_true, decide_eq_true_eq]
      by_cases hl : ringLines (litOrReg b f.a) = 0
      · exact .inl hl
      · refine .inr ?_
        cases hr : Tbl.find? b.t.ranges (bits (litOrReg b f.a) 3 0) with
        | none => rfl
        | some r => exact decide_eq_true (Nat.lt_of_not_le fun hfit => hthere ⟨r, hr, hl, hfit⟩)
    · rw [if_neg hn] at hthere
      rw [if_neg (by simp [hn]), if_pos]
      simp only [hbound, Bool.true_and, Bool.and_eq_true, decide_eq_true_eq]
      exact ⟨by omega, by simpa using hthere⟩

end Sys2Proof.Machine

open Sys2Proof.Machine in
/-- Settles O40: each form's body, its answer and the team it leaves; and what is refused leaves the reservations. -/
theorem reservationsAct : Obligations.ReservationsAct := by
  unfold Obligations.ReservationsAct
  refine ⟨fun f s b h hp hn hok hnew => h.obres hp hn hok hnew, fun f s b h hp hal hthere hidle => h.obrel hp hal hthere hidle,
    fun f s b h hp hal hgiven hasked h0 hcap => h.acalloc hp hal hgiven hasked h0 hcap, fun f s b h hp hal hhigh hfree => h.acfree hp hal hhigh hfree,
    fun f s b h hp hal hformed hfill hused hring htile => h.qcfg hp hal hformed hfill hused hring htile, fun i f s b h hp hk hbad => ?_,
    fun f s b code h hp hk hbad => ?_⟩
  · obtain ⟨body, hexec, hb⟩ := h.refuses hp hbad
    obtain ⟨t, ht, hy⟩ := h.faultsKeeping hk (r := beatFault 0x12 b.perf 0 false) (show (0x12 : BitVec 8) ≠ 0x18 by decide) hb
    exact ⟨t, hexec.trans ht, hy⟩
  · have hcode : code ≠ 0x18 := by
      rcases hbad with ⟨-, rfl⟩ | ⟨-, -, rfl⟩ | ⟨-, -, -, -, rfl⟩ <;> decide
    obtain ⟨body, hexec, hb⟩ := qcfg_refuses (s := s) hp (code := code) (by simpa only [bindingFormed_iff] using hbad)
    obtain ⟨t, ht, hy⟩ := h.faultsKeeping hk (r := beatFault code b.perf 0 false) hcode hb
    exact ⟨t, hexec.trans ht, hy⟩
end

section
/-! O31: WAIT sends its requests or parks its lanes, NAP parks its lanes (R256 to R260, R269, R335). -/

namespace Sys2Proof.Machine

theorem exec_wait (f : Fields) (s : State) : exec (.wait f) s = execWait f s := rfl
theorem exec_nap (f : Fields) (s : State) : exec (.nap f) s = execNap f s := rfl

/-! ### Parked lanes -/

/-- Lane k stands parked in the monitor table, as the beat's WAIT parks it. -/
def Agent.parkedAt (x : Agent) (b : Beat) (held : Bool) (k : Nat) : Prop := (x.lane k).s = .mon ∧ (x.lane k).held = held ∧ (x.lane k).w = b.x.p + 1

/-- One lane parks, with its registers empty. -/
def Agent.parkLane (x : Agent) (b : Beat) (m : LaneMask) (held : Bool) (i : Nat) : Agent :=
  (x.modLane i fun l => l.park b m held).emptyAll (waitMarks b.f.d b.f.e (decide (tyWidth b.f.ty = 64)) i 0 false)

theorem Agent.parkLanes_eq (x : Agent) (b : Beat) (masks : List LaneMask) (held : Bool) :
    x.parkLanes b masks held = masks.foldl (fun y m => (lanesIn m).foldl (fun z i => z.parkLane b m held i) y) x := rfl

theorem Agent.parkLane_lanes (x : Agent) (b : Beat) (m : LaneMask) (held : Bool) (i : Nat) :
    (x.parkLane b m held i).lanes = (x.modLane i fun l => l.park b m held).lanes ∧ (x.parkLane b m held i).issue = x.issue := by
  rw [Agent.parkLane, Agent.emptyAll_eq]
  exact ⟨rfl, rfl⟩

theorem Agent.parkLane_parks (x : Agent) (b : Beat) (m : LaneMask) (held : Bool) {i k : Nat} (hk : k < x.lanes.length) (hi : i = k ∨ x.parkedAt b held k) :
    (x.parkLane b m held i).parkedAt b held k := by
  have hlane : (x.parkLane b m held i).lane k = if k = i ∧ k < x.lanes.length then (x.lane k).park b m held else x.lane k := by
    rw [Agent.lane, (x.parkLane_lanes b m held i).1]
    exact Agent.lane_modLane ..
  unfold Agent.parkedAt
  rw [hlane]
  by_cases h : k = i
  · rw [if_pos ⟨h, hk⟩]
    exact ⟨rfl, rfl, rfl⟩
  · rw [if_neg fun hh => h hh.1]
    exact hi.resolve_left fun hh => h hh.symm

/-- The lanes of one mask park. -/
theorem Agent.foldl_parkLane (b : Beat) (m : LaneMask) (held : Bool) {k : Nat} (ls : List Nat) (x : Agent) (hk : k < x.lanes.length) :
    let y := ls.foldl (fun z i => z.parkLane b m held i) x
    y.lanes.length = x.lanes.length ∧ y.issue = x.issue ∧ ((k ∈ ls ∨ x.parkedAt b held k) → y.parkedAt b held k) := by
  induction ls generalizing x with
  | nil => exact ⟨rfl, rfl, fun h => h.resolve_left List.not_mem_nil⟩
  | cons i ls ih =>
    have hlen : (x.parkLane b m held i).lanes.length = x.lanes.length := by
      rw [(x.parkLane_lanes b m held i).1, Agent.lanes_length_modLane]
    obtain ⟨hl, hi, hp⟩ := ih (x.parkLane b m held i) (hlen.symm ▸ hk)
    refine ⟨hl.trans hlen, hi.trans (x.parkLane_lanes b m held i).2, fun h => hp ?_⟩
    rcases h with h | h
    · rcases List.mem_cons.mp h with rfl | h
      · exact .inr (x.parkLane_parks b m held hk (.inl rfl))
      · exact .inl h
    · exact .inr (x.parkLane_parks b m held hk (.inr h))

/-- A lane of any of the masks ends parked. -/
theorem Agent.parkLanes_parks (b : Beat) (masks : List LaneMask) (held : Bool) {k : Nat} (x : Agent) (hk : k < x.lanes.length) :
    (x.parkLanes b masks held).lanes.length = x.lanes.length ∧ (x.parkLanes b masks held).issue = x.issue ∧
      (((∃ m ∈ masks, k ∈ lanesIn m) ∨ x.parkedAt b held k) → (x.parkLanes b masks held).parkedAt b held k) := by
  rw [Agent.parkLanes_eq]
  induction masks generalizing x with
  | nil => exact ⟨rfl, rfl, fun h => h.resolve_left fun ⟨_, hm, _⟩ => List.not_mem_nil hm⟩
  | cons m masks ih =>
    obtain ⟨hl, hi, hp⟩ := Agent.foldl_parkLane b m held (lanesIn m) x hk
    obtain ⟨hl', hi', hp'⟩ := ih _ (hl.symm ▸ hk)
    refine ⟨hl'.trans hl, hi'.trans hi, fun h => hp' ?_⟩
    rcases h with ⟨m', hm, hin⟩ | h
    · rcases List.mem_cons.mp hm with rfl | hm
      · exact .inr (hp (.inl hin))
      · exact .inl ⟨m', hm, hin⟩
    · exact .inr (hp (.inr h))

theorem Agent.parkLanes_issue (b : Beat) (masks : List LaneMask) (held : Bool) (x : Agent) : (x.parkLanes b masks held).issue = x.issue := by
  rw [Agent.parkLanes_eq]
  exact foldl_keeps (fun y : Agent => y.issue = x.issue) _ masks (fun y m _ hy => foldl_keeps (fun z : Agent => z.issue = x.issue) _ (lanesIn m)
    (fun z i _ hz => (z.parkLane_lanes b m held i).2.trans hz) y hy) x rfl

/-! ### WAIT -/

section
variable {f : Fields} {s : State} {b : Beat} {l : List Passed} (h : Due (.wait f) f s b) (hp : b.perf ≠ 0) (hidle : s.batchOf b.a = false)
  (hpass : waitAll s b (tyWidth f.ty / 8) = .pass l)
include h hp hidle hpass

/-- The requests of a beat go to their slices, and its lanes wait at P (R258 to R260). -/
theorem Due.waitSends (hplay : replaying (s.tctlOf b.t) = false) (hroom : s.logRoom b.t (if f.uni then 1 else l.length) = true)
    (hready : s.logReady b.t b.x = true) :
    ∃ t y n bt, exec (.wait f) s = .next t ∧ t.agent b.a = some y ∧ y.lanes = b.x.lanes ∧ y.issue = .beats ∧ y.block = some .monitor ∧
      Tbl.find? t.batches n = some bt ∧ bt.agent = some b.a ∧ bt.reqs = l.map fun q => { mon := waitMon b q, pte := q.place.pte, va := q.place.va, addr := q.addr } := by
  obtain rfl : b.f = f := h.f_eq
  let s2 := l.foldl (fun u q => u.touchTlb b q.place) s
  let reqs : List RegReq := l.map fun q => { mon := waitMon b q, pte := q.place.pte, va := q.place.va, addr := q.addr }
  let batch : RegBatch := { agent := some b.a, host := none, reqs := reqs }
  let s3 : State := { s2 with batches := Tbl.ins s2.batches (Tbl.freshKey s2.batches) batch }
  have hteams : s3.teams = s.teams := (foldl_keeps (fun u => s.Fetches u) _ l (fun u q _ hu => hu.trans (u.fetches_touchTlb b q.place)) s (.refl s)).teams
  obtain ⟨body, hexec, hb⟩ : ∃ body, exec (.wait b.f) s = issueBeat (.wait b.f) b.f s body ∧ body b (s.begun b) = .wait ((s3.countBeat b b.f.uni).blockAgent b.a .monitor) := by
    refine ⟨_, (exec_wait b.f s).trans (execWait.eq_1 b.f s), ?_⟩
    dsimp only
    rw [if_neg hp, hidle, if_neg nofun, hpass]
    dsimp only
    rw [hplay, hroom, hready, if_neg nofun, if_neg nofun]
  obtain ⟨v, n, hv, hcount⟩ := s3.countBeat_uncounted b b.f.uni
  let counted : Agent → Agent := fun x => { x with lastBeat := n, active := x.active || (x.isGroup && decide (x.issue = .beats)) }
  have hvt : v.teams = s.teams := ((congrArg State.teams hv : v.uncounted.teams = s3.uncounted.teams)).trans hteams
  have hx : (s3.countBeat b b.f.uni).agent b.a = some (counted b.x) := by
    rw [hcount, State.agent_modAgent_same, State.agent_congr hvt, h.agent]
    rfl
  obtain ⟨y, hy, hblock, hyx⟩ := State.blockAgent_agent hx .monitor
  let unwaited : Agent → Agent := fun x => { x with arr := { x.arr with wk := 0 } }
  let w := (s3.countBeat b b.f.uni).blockAgent b.a .monitor
  have hy1 : (w.modAgent b.a unwaited).agent b.a = some (unwaited y) := by
    rw [State.agent_modAgent_same, hy]
    rfl
  obtain ⟨held, hz⟩ := State.markHeld_self hy1
  refine ⟨(w.modAgent b.a unwaited).markHeld b.a, _, Tbl.freshKey s2.batches, batch, by rw [hexec, issueBeat_due h, hb, State.conclude_wait], hz, (Agent.lanes_of_unwaiting hyx).trans rfl,
    ((Agent.issue_of_unwaiting hyx).trans rfl).trans h.issue, hblock, ?_, rfl, rfl⟩
  have hbatches : (s3.countBeat b b.f.uni).batches = s3.batches := by
    rw [hcount]
    exact (congrArg State.batches hv : v.uncounted.batches = s3.uncounted.batches)
  show Tbl.find? (s3.countBeat b b.f.uni).batches _ = _
  rw [hbatches]
  exact Tbl.find?_ins_same ..

/-- In a replay run the lanes park at once (R335, log entry 36). -/
theorem Due.waitReplays (hplay : replaying (s.tctlOf b.t) = true) :
    ∃ t y, exec (.wait f) s = .next t ∧ t.agent b.a = some y ∧ ∀ q ∈ l, ∀ k ∈ lanesIn (waitMon b q).lanes, k < b.x.lanes.length →
      (y.lane k).s = .mon ∧ (y.lane k).held = true ∧ (y.lane k).w = b.x.p + 1 := by
  let masks := l.map fun q => (waitMon b q).lanes
  let g : Agent → Agent := fun x => (x.restartGoose (s.begun b).beatSeq).parkLanes b masks true
  obtain ⟨body, hexec, hb⟩ : ∃ body, exec (.wait f) s = issueBeat (.wait f) f s body ∧ body b (s.begun b) = .done ((s.begun b).modAgent b.a g) := by
    refine ⟨_, (exec_wait f s).trans (execWait.eq_1 f s), ?_⟩
    dsimp only
    rw [if_neg hp, hidle, if_neg nofun, hpass]
    dsimp only
    rw [hplay, if_pos rfl]
  have hissue : (g b.begunAgent).issue = .beats := (Agent.parkLanes_issue b masks true _).trans h.begun_issue
  obtain ⟨y, hy, -, hlanes, -⟩ := State.done_agent (s := s.waited b.a) (u := (s.begun b).modAgent b.a g) (b := b) h.clean (h.begun_modAgent g) (by rw [hissue]; nofun) (shapeOf (.wait f) f).whole
  refine ⟨_, y, by rw [hexec, issueBeat_due h, hb], hy, fun q hq k hk hlt => ?_⟩
  have hlane : y.lane k = (g b.begunAgent).lane k := by rw [Agent.lane, Agent.lane, hlanes]
  rw [hlane]
  exact (Agent.parkLanes_parks b masks true _ (k := k) (by rw [← b.begunAgent_lanes_length] at hlt; exact hlt)).2.2 (.inl ⟨_, List.mem_map_of_mem hq, hk⟩)

end

/-- A lane register as deadline is no legal operand (R256). -/
theorem decodeFault_waitLane (k : AgentKind) (budget : Nat) (g : Fields) (r : BitVec 7) (hg : g.g = .v r) : decodeFault k budget (.wait g) = some 0x01 := by
  have hbad : ∀ (any : Bool) (r1 : Row), r1.g = .val false 1 64 false true true true false → operandsOk k any r1 g = false := fun any r1 hr1 => by
    unfold operandsOk
    simp [hr1, hg, slotOk]
  unfold decodeFault
  simp only [rowFor, formOf]
  split
  · rfl
  · split
    · rfl
    · split
      · rfl
      · rw [if_pos (by rw [hbad _ _ rfl]; rfl)]

/-! ### NAP -/

theorem napsPark_holds : napsPark := by
  intro f s b h
  obtain rfl : b.f = f := h.f_eq
  let src : Nat → Nat := fun i => if b.f.uni then lowestLane b.act else i
  let sleepers := (lanesIn b.perf).filter fun i => decide (s.dtime < napTime s b (src i))
  have hmem : ∀ l, l ∈ sleepers ↔ b.perf.getLsbD l = true ∧ s.dtime < napTime s b (src l) := fun l => by
    rw [List.mem_filter, mem_lanesIn, decide_eq_true_eq]
  by_cases hnone : sleepers = []
  · obtain ⟨y, hy, hregs, hwants, -⟩ := h.begun_done (shapeOf (.nap b.f) b.f).whole
    refine ⟨_, y, ?_, hy, hregs, fun l hl => ?_⟩
    · rw [exec_nap, execNap, issueBeat_due h]
      exact congrArg (fun o => Host.Outcome.next ((s.waited b.a).conclude b (shapeOf (.nap b.f) b.f).whole o)) (if_pos hnone)
    · have hawake : ¬ (b.perf.getLsbD l = true ∧ s.dtime < napTime s b (src l)) := fun hs => by
        have hin := (hmem l).mpr hs
        rw [hnone] at hin
        cases hin
      exact (hwants l hl).trans (if_neg hawake).symm
  · let g : Nat → LaneRec → LaneRec := fun i l => { l with s := .nap, nap := napTime s b (src i) }
    let z := sleepers.foldl (fun y i => y.modLane i (g i)) b.begunAgent
    have hz : ((s.begun b).modLanes b.a sleepers g).agent b.a = some z := h.begun_modAgent fun x => sleepers.foldl (fun y i => y.modLane i (g i)) x
    have hzeq : z = { b.begunAgent with lanes := z.lanes } := Agent.foldl_modLane_eq sleepers g b.begunAgent
    let restarted : Agent → Agent := fun x => x.restartGoose (s.begun b).beatSeq
    let u := ((s.begun b).modLanes b.a sleepers g).modAgent b.a restarted
    have hu : u.agent b.a = some (restarted z) := by
      rw [State.agent_modAgent_same, hz]
      rfl
    have hissue : (restarted z).issue = .beats := (congrArg Agent.issue hzeq : z.issue = _).trans h.begun_issue
    obtain ⟨y, hy, hregs, hlanes, -⟩ := State.done_agent (s := s.waited b.a) (u := u) (b := b) h.clean hu (by rw [hissue]; nofun) (shapeOf (.nap b.f) b.f).whole
    refine ⟨_, y, ?_, hy, (hregs.trans (congrArg Agent.regs hzeq : z.regs = _)).trans b.begunAgent_regs, fun l hl => ?_⟩
    · rw [exec_nap, execNap, issueBeat_due h]
      exact congrArg (fun o => Host.Outcome.next ((s.waited b.a).conclude b (shapeOf (.nap b.f) b.f).whole o)) (if_neg hnone)
    · have hlane : y.lane l = z.lane l := by
        rw [Agent.lane, hlanes]
        rfl
      show y.lane l = if b.perf.getLsbD l = true ∧ s.dtime < napTime s b (src l) then { b.x.lane l with s := .nap, nap := napTime s b (src l), w := b.x.p + 1 }
        else if b.act.getLsbD l then { b.x.lane l with w := b.x.p + 1 } else b.x.lane l
      rw [hlane, Agent.lane_foldl_modLane ((lanesIn_nodup _).filter _), b.begunAgent_lanes_length, b.begunAgent_lane hl]
      by_cases hs : b.perf.getLsbD l = true ∧ s.dtime < napTime s b (src l)
      · rw [if_pos ⟨(hmem l).mpr hs, hl⟩, if_pos hs, if_pos (h.perf_sub l hs.1)]
      · rw [if_neg fun hh => hs ((hmem l).mp hh.1), if_neg hs]

end Sys2Proof.Machine

open Sys2Proof.Machine in
/-- Settles O31: a batch of requests or parked lanes, and the lanes that NAP parks. -/
theorem lanesPark : Obligations.LanesPark := by
  refine ⟨fun f s b l h hp hidle hpass => ⟨fun hplay hroom hready => ?_, fun hplay => h.waitReplays hp hidle hpass hplay, decodeFault_waitLane⟩, napsPark_holds⟩
  obtain ⟨t, y, n, bt, hexec, hy, hlanes, hissue, hblock, hbt, hagent, hreqs⟩ := h.waitSends hp hidle hpass hplay hroom hready
  obtain rfl : b.f = f := h.f_eq
  refine ⟨t, y, n, bt, hexec, hy, hlanes, hissue, hblock, hbt, hagent, by rw [hreqs, List.length_map], fun k q hk => ?_⟩
  refine ⟨{ mon := waitMon b q, pte := q.place.pte, va := q.place.va, addr := q.addr }, by rw [hreqs, List.getElem?_map, hk]; rfl, rfl, rfl, rfl, rfl, fun hg => ?_, fun g hg => ?_⟩
  · show (waitMon b q).deadline = _
    unfold waitMon
    rw [hg]
  · show (waitMon b q).deadline = _
    unfold waitMon
    rw [hg]
end

section
/-! O24: a form that reads a queue takes its oldest entry, parks or faults (R12 to R15, R19, R83, R212, R213, R248). -/

namespace Sys2Proof.Machine

/-! ### The writes of any results -/

/-- The writes of results r of the lanes that a beat computes (R42). -/
def Beat.writesBy (b : Beat) (r : Nat → Res) : List RegWrite := b.written.flatMap fun l => resWrites b l (r (b.sourceOf l))

theorem spread_by (b : Beat) (r : Nat → Res) : spread b (b.lanes.map fun l => (l, r l)) = b.writesBy r := by
  cases hu : b.f.uni <;> simp [spread, Beat.lanes, Beat.writesBy, Beat.written, Beat.sourceOf, hu, List.flatMap_map]

section
variable {b : Beat} {r : Nat → Res} (hs : b.single) (hpair : ∀ n, b.f.d = .v n → slotWidth b.row.d = 64 → n.toNat % 2 = 0)
include hs hpair

theorem Beat.writesBy_agree (hde : ∀ n, b.f.d = .p n → ∀ l, (r l).e = none) : RegWrite.Agree (b.writesBy r) := by
  intro g hg h hh hgh
  obtain ⟨l, hl, hg⟩ := List.mem_flatMap.mp hg
  obtain ⟨k, hk, hh⟩ := List.mem_flatMap.mp hh
  have noBoth : ∀ {i j : Nat} {c d : Bool} {q : Nat} {f : RegWrite}, f ∈ destWrites (slotWidth b.row.d) i (r (b.sourceOf i)).d b.f.d →
      (r (b.sourceOf j)).e = some d → (RegWrite.p q j c).sameReg f = true → False := fun hf he hsame => by
    obtain ⟨n, hn⟩ := pred_of_mem_destWrites hf hsame
    rw [hde n hn] at he
    cases he
  rcases mem_resWrites hg with hgd | ⟨c, n, hc, hn, rfl⟩ <;> rcases mem_resWrites hh with hhd | ⟨d, m, hd, hm, rfl⟩
  · exact destWrites_agree hpair (fun n hn => by rw [b.sourceOf_eq_of_single hs hn hl hk]) (fun e => by rw [e]) hgd hhd hgh
  · exact (noBoth hgd hd hgh).elim
  · exact (noBoth hhd hc (RegWrite.sameReg_comm _ _ ▸ hgh)).elim
  · obtain rfl : n = m := by simpa [hn] using hm
    obtain rfl : k = l := by simpa [RegWrite.sameReg] using hgh
    obtain rfl : c = d := Option.some.inj (hc.symm.trans hd)
    rfl

/-- A lane whose result leaves D: no write of the beat names D's registers in it. -/
theorem Beat.writesBy_keep (he : ∀ l, (r l).e = none) {l : Nat} (hl : l ∈ b.written) (hk : (r (b.sourceOf l)).keep = true) {g : RegWrite}
    (hg : g ∈ destWrites (slotWidth b.row.d) l 0 b.f.d) {h : RegWrite} (hh : h ∈ b.writesBy r) : h.sameReg g = false := by
  refine Bool.eq_false_iff.mpr fun hsame => ?_
  obtain ⟨k, hkm, hw⟩ := List.mem_flatMap.mp hh
  have hdest : (r (b.sourceOf k)).keep = false ∧ h ∈ destWrites (slotWidth b.row.d) k (r (b.sourceOf k)).d b.f.d := by
    rcases List.mem_append.mp hw with hd | hd
    · cases hkeep : (r (b.sourceOf k)).keep <;> simp_all
    · simp [he] at hd
  have hsrc : b.sourceOf k = b.sourceOf l := by
    rcases lane_of_sameReg_destWrites hpair hg hdest.2 hsame with rfl | ⟨n, hn⟩
    · rfl
    · exact b.sourceOf_eq_of_single hs hn hkm hl
  rw [hsrc, hk] at hdest
  cases hdest.1

/-- Each written lane takes its result. -/
theorem Beat.takes_of_writesBy (hde : ∀ n, b.f.d = .p n → ∀ l, (r l).e = none) (hke : (∀ l, (r l).keep = false) ∨ ∀ l, (r l).e = none) {x x0 y : Agent}
    (hy : y.regs = (x.writeAll (b.writesBy r)).regs) (hx : ∀ g, x.reads g = x0.reads g ∧ x.isEmpty g = x0.isEmpty g) {l : Nat} (hl : l ∈ b.written) :
    y.takes x0 (slotWidth b.row.d) l b.f.d (r (b.sourceOf l)) := by
  unfold Agent.takes
  split
  next hkeep =>
    have he : ∀ l, (r l).e = none := hke.resolve_left fun hno => by rw [hno] at hkeep; cases hkeep
    intro g hg
    obtain ⟨hr, hE⟩ := Agent.reads_writeAll_other x fun w hw => Beat.writesBy_keep hs hpair he hl hkeep hg hw
    obtain ⟨hr', hE'⟩ := Agent.reads_congr hy g
    exact ⟨(hr'.trans hr).trans (hx g).1, (hE'.trans hE).trans (hx g).2⟩
  next hkeep =>
    refine Agent.holds_of_has (b.lt_of_mem_written hl) fun g hg hlast =>
      (Agent.has_congr hy g).mpr (Agent.has_writeAll x (Beat.writesBy_agree hs hpair hde) ?_ hlast)
    exact List.mem_flatMap.mpr ⟨l, hl, List.mem_append_left _ (by rw [if_neg hkeep]; exact hg)⟩

end

/-! ### The queue that a form reads -/

theorem QUse.of_join_read {x y : QUse} {q : BitVec 4} {w : Bool} (h : x.join y = .none ∨ x.join y = .read q w) :
    (x = .none ∨ x = .read q w) ∧ (y = .none ∨ y = .read q w) := by
  cases x <;> cases y <;> simp_all [QUse.join]

theorem quse_q_ne_none (s : Slot) (n : BitVec 4) : quse s (.q n) ≠ .none := by
  unfold quse
  split <;> simp_all

theorem quse_a_of_read {r : Row} {f : Fields} {q n : BitVec 4} {w : Bool} (h : quseOf r f = .read q w) (ha : f.a = .q n) : quse r.a (.q n) = .read q w := by
  unfold quseOf at h
  have h1 := (QUse.of_join_read (QUse.of_join_read (QUse.of_join_read (QUse.of_join_read (.inr h)).1).1).1).2
  rw [ha] at h1
  exact h1.resolve_left (quse_q_ne_none _ _)

theorem quse_d_of_read {r : Row} {f : Fields} {q n : BitVec 4} {w : Bool} (h : quseOf r f = .read q w) (hd : f.d = .q n) : quse r.d (.q n) = .read q w := by
  unfold quseOf at h
  have h1 := (QUse.of_join_read (QUse.of_join_read (QUse.of_join_read (QUse.of_join_read (.inr h)).1).1).1).1
  rw [hd] at h1
  exact h1.resolve_left (quse_q_ne_none _ _)

theorem quse_dest_ne_read (n w : Nat) (v u c z i : Bool) (m q : BitVec 4) (wide : Bool) : quse (.val true n w v u c z i) (.q m) ≠ .read q wide := by
  cases c <;> simp [quse]

/-- A source that a queue may stand in has 64 bits or at most 32. -/
def Slot.split64 : Slot → Prop
  | .val _ _ w _ _ _ _ _ => w ≤ 32 ∨ w = 64
  | _ => True

theorem tyWidth_split (ty : DType) : tyWidth ty ≤ 32 ∨ tyWidth ty = 64 := by cases ty <;> decide

theorem registerForm_split {i : Instr} {f : Fields} {op : Vals → Res} (h : integerForm i = some (f, op) ∨ floatForm i = some (f, op) ∨ longForm i = some (f, op))
    {r : Row} (hr : rowFor i = some r) : r.a.split64 := by
  unfold integerForm floatForm longForm at h
  rcases h with h | h | h
  all_goals split at h
  all_goals cases h
  all_goals cases hr
  all_goals simp only [srcV, Slot.split64, tyWidth_split, Nat.le_refl, true_or, or_true]

theorem queueForm_iff {i : Instr} {f : Fields} {op : Vals → Res} {long : Bool} (h : queueForm i = some (f, op, long)) :
    (integerForm i = some (f, op) ∧ long = false) ∨ (floatForm i = some (f, op) ∧ long = false) ∨ (longForm i = some (f, op) ∧ long = true) := by
  unfold queueForm at h
  cases hi : integerForm i with
  | some e =>
    rw [hi] at h
    obtain ⟨rfl, rfl, rfl⟩ : e.1 = f ∧ e.2 = op ∧ false = long := by simpa using h
    exact .inl ⟨rfl, rfl⟩
  | none =>
    rw [hi] at h
    cases hf : floatForm i with
    | some e =>
      rw [hf] at h
      obtain ⟨rfl, rfl, rfl⟩ : e.1 = f ∧ e.2 = op ∧ false = long := by simpa using h
      exact .inr (.inl ⟨rfl, rfl⟩)
    | none =>
      rw [hf] at h
      cases hl : longForm i with
      | some e =>
        rw [hl] at h
        obtain ⟨rfl, rfl, rfl⟩ : e.1 = f ∧ e.2 = op ∧ true = long := by simpa using h
        exact .inr (.inr ⟨rfl, rfl⟩)
      | none =>
        rw [hl] at h
        cases h

/-- What a form that may name a queue is. -/
theorem queueForm_spec {i : Instr} {f : Fields} {op : Vals → Res} {long : Bool} (h : queueForm i = some (f, op, long)) :
    (∀ s, exec i s = laneOp i f long op s) ∧ (∃ n, formOf i = some (n, f)) ∧ (∀ r, rowFor i = some r → RegisterRow r op ∧ r.a.split64) ∧
      ((∀ v, (op v).keep = false) ∨ ∀ v, (op v).e = none) := by
  rcases queueForm_iff h with ⟨hi, rfl⟩ | ⟨hi, rfl⟩ | ⟨hi, rfl⟩
  · obtain ⟨he, hf, hr, hk⟩ := integerForm_spec hi
    exact ⟨he, hf, fun r hrow => ⟨hr r hrow, registerForm_split (.inl hi) hrow⟩, .inl fun v => (hk v).1⟩
  · obtain ⟨he, hf, hr⟩ := floatForm_spec hi
    exact ⟨he, hf, fun r hrow => ⟨hr r hrow, registerForm_split (.inr (.inl hi)) hrow⟩, .inr (floatForm_second hi)⟩
  · obtain ⟨he, hf, hr, hk⟩ := longForm_spec hi
    exact ⟨he, hf, fun r hrow => ⟨hr r hrow, registerForm_split (.inr (.inr hi)) hrow⟩, .inl hk⟩

/-! ### The oldest entry -/

theorem Team.queue_setQueue (t : Team) (q k : Nat) (l : List (W64 × W32)) : (t.setQueue q l).queue k = if k = q then l else t.queue k :=
  Tbl.get_put [] t.q q k l

/-- The oldest entry leaves its queue where nobody of the reader's class waits before it (R14, R22). -/
theorem popQueue_entry {t : Team} {x : Agent} {q : BitVec 4} {w : W64} {c : W32} {bytes : List Byte} (hg : x.arr.granted = none)
    (ho : oldest t q.toNat w c bytes) (hw : t.waitersLike q.toNat x.isGroup = []) : ∃ t1, popQueue t x q.toNat = .entry w c bytes t1 ∧ popped t1 t q.toNat := by
  unfold popQueue
  rw [hg]
  dsimp only
  unfold oldest at ho
  by_cases hd : q.toNat = 12 ∨ q.toNat = 13
  · rw [if_pos hd] at ho
    obtain ⟨hb, rfl, rfl, -, es, hes⟩ := ho
    rw [if_pos (by omega), hb, hes, hw]
    refine ⟨_, rfl, ?_⟩
    unfold popped
    rw [if_pos hd, hes]
    exact (Tbl.get_put [] t.drain q.toNat q.toNat es).trans (if_pos rfl)
  · rw [if_neg hd] at ho
    obtain ⟨rfl, es, hes⟩ := ho
    rw [if_neg (by omega), hes, hw]
    refine ⟨_, rfl, ?_⟩
    unfold popped
    rw [if_neg hd, hes]
    by_cases h15 : q.toNat = 15
    · rw [if_pos h15]
      obtain ⟨more, hm⟩ := Team.flushEvents_queue (t.setQueue q.toNat es).heldEvents.length (t.setQueue q.toNat es)
      refine ⟨more, ?_, fun hn => absurd h15 hn⟩
      rw [h15] at hm ⊢
      rw [Team.queue_setQueue, if_pos rfl] at hm
      exact hm
    · rw [if_neg h15]
      exact ⟨[], by rw [Team.queue_setQueue, if_pos rfl, List.append_nil]; rfl, fun _ => rfl⟩

/-- Without an entry for it the reader waits (R14, R19, R83). -/
theorem popQueue_park {t : Team} {x : Agent} {q : BitVec 4} (hg : x.arr.granted = none)
    (hwait : (¬ dry t q.toNat ∧ t.waitersLike q.toNat x.isGroup ≠ []) ∨
      (dry t q.toNat ∧ (q.toNat ≤ 3 → t.ctlGone = false) ∧ (4 ≤ q.toNat → q.toNat ≤ 7 → t.groupsRemain = true)))
    (hb : q = 12 ∨ q = 13 → bound (t.bind q.toNat) = true) : popQueue t x q.toNat = .park := by
  unfold popQueue
  rw [hg]
  dsimp only
  unfold dry at hwait
  by_cases hd : q.toNat = 12 ∨ q.toNat = 13
  · rw [if_pos hd] at hwait
    rw [if_pos (by omega), hb (hd.imp (fun h => BitVec.eq_of_toNat_eq h) fun h => BitVec.eq_of_toNat_eq h)]
    rw [if_neg (by decide)]
    split
    next e es hes hw => 
      rcases hwait with ⟨-, hwait⟩ | ⟨hdry, -⟩
      · exact absurd hw hwait
      · rw [hes] at hdry
        cases hdry
    next => rfl
  · rw [if_neg hd] at hwait
    rw [if_neg (by omega)]
    split
    next w c es hes hw =>
      rcases hwait with ⟨-, hwait⟩ | ⟨hdry, -⟩
      · exact absurd hw hwait
      · rw [hes] at hdry
        cases hdry
    next hes =>
      obtain ⟨hctl, hgroups⟩ : (q.toNat ≤ 3 → t.ctlGone = false) ∧ (4 ≤ q.toNat → q.toNat ≤ 7 → t.groupsRemain = true) :=
        hwait.elim (fun h => absurd hes h.1) And.right
      rw [if_neg fun h => absurd (hctl h.1) (by rw [h.2]; nofun), if_neg fun h => absurd (hgroups h.1 h.2.1) (by rw [h.2.2]; nofun)]
    next => rfl

theorem popQueue_fault {t : Team} {x : Agent} {q : BitVec 4} (hg : x.arr.granted = none)
    (hbad : ((q = 12 ∨ q = 13) ∧ bound (t.bind q.toNat) = false) ∨ (dry t q.toNat ∧ q.toNat ≤ 3 ∧ t.ctlGone = true) ∨
        (dry t q.toNat ∧ 4 ≤ q.toNat ∧ q.toNat ≤ 7 ∧ t.groupsRemain = false)) : popQueue t x q.toNat = .fault := by
  unfold popQueue
  rw [hg]
  dsimp only
  rcases hbad with ⟨hq, hb⟩ | ⟨hdry, h3, hgone⟩ | ⟨hdry, h4, h7, hgone⟩
  · rw [if_pos (by rcases hq with rfl | rfl <;> decide), hb]
    rfl
  · unfold dry at hdry
    rw [if_neg (by omega)] at hdry
    rw [if_neg (by omega), hdry]
    exact if_pos ⟨h3, hgone⟩
  · unfold dry at hdry
    rw [if_neg (by omega)] at hdry
    rw [if_neg (by omega), hdry]
    exact (if_neg fun h => absurd h.1 (by omega)).trans (if_pos ⟨h4, h7, hgone⟩)

/-! ### The beat -/

/-- The word of a drain entry's lane fits 32 bits. -/
theorem ofBytes_four_lt (bytes : List Byte) (k : Nat) : ofBytes ((bytes.drop k).take 4) < 2 ^ 32 :=
  Nat.lt_of_lt_of_le (ofBytes_lt _) (Nat.pow_le_pow_right (by decide) (by rw [List.length_take]; omega))

/-- The value that the queue source gives a lane (R12, R212). -/
theorem valsOf_queue {b : Beat} {q : BitVec 4} {wide : Bool} {w : W64} {c : W32} {bytes : List Byte} (hq : quseOf b.row b.f = .read q wide) (hsplit : b.row.a.split64)
    (ha : b.f.a = .q q) (ho : oldest b.t q.toNat w c bytes) (l : Nat) :
    (valsOf b w bytes l).a = if q = 12 ∨ q = 13 then BitVec.ofNat 64 (ofBytes ((bytes.drop (4 * l)).take 4)) else if wide = true then w else lowBits 32 w := by
  have hquse := quse_a_of_read hq ha
  have hval : (valsOf b w bytes l).a = if slotWidth b.row.a = 64 then queueVal w bytes l else lowBits 32 (queueVal w bytes l) := by
    show readOp b.x l (slotWidth b.row.a) b.signed b.f.imm (queueVal w bytes l) b.f.a = _
    rw [ha]
    rfl
  rw [hval]
  have hwide : slotWidth b.row.a = 64 ↔ wide = true := by
    generalize b.row.a = r at hquse hsplit
    unfold quse at hquse
    split at hquse
    · cases hquse
    · cases hquse
      simp only [Slot.split64] at hsplit
      simp only [slotWidth, decide_eq_true_eq]
      split <;> omega
    all_goals cases hquse
  unfold oldest at ho
  by_cases hd : q = 12 ∨ q = 13
  · rw [if_pos (hd.imp (fun h => by rw [h]; rfl) fun h => by rw [h]; rfl)] at ho
    have hne : bytes ≠ [] := fun hb => by
      have hlen := ho.2.2.2.1
      rw [hb] at hlen
      cases hlen
    have hword : lowBits 32 (queueVal w bytes l) = queueVal w bytes l := by
      rw [queueVal, if_neg hne]
      refine BitVec.eq_of_toNat_eq ?_
      have hlt := ofBytes_four_lt bytes (4 * l)
      simp only [lowBits, BitVec.toNat_setWidth, BitVec.toNat_ofNat]
      omega
    rw [hword, ite_self, if_pos hd, queueVal, if_neg hne]
  · rw [if_neg (fun h => hd (h.imp (fun h => BitVec.eq_of_toNat_eq h) fun h => BitVec.eq_of_toNat_eq h))] at ho
    rw [if_neg hd, queueVal, if_pos ho.1]
    simp only [hwide]

/-- The agent that a queue entry has reached, with the results of its lanes. -/
def Beat.queueRead (b : Beat) (q : BitVec 4) (c : W32) (long : Bool) (r : Nat → Res) : Agent → Agent := fun x =>
  let x1 : Agent := { x with cseq := if x.isGroup && decide (q.toNat ≤ 3) then c else x.cseq, arr := { x.arr with granted := none } }
  deliverWrites long (b.writesBy r) { x1 with fp := x1.fp ||| (b.lanes.map fun l => (l, r l)).foldl (fun m e => m ||| e.2.fl) (0 : FpFlags) }

theorem Beat.queueRead_frame (b : Beat) (q : BitVec 4) (c : W32) (long : Bool) (r : Nat → Res) (x : Agent) :
    (b.queueRead q c long r x).lanes = x.lanes ∧ (b.queueRead q c long r x).issue = x.issue ∧
      (b.queueRead q c long r x).cseq = if x.isGroup && decide (q.toNat ≤ 3) then c else x.cseq := by
  unfold Beat.queueRead deliverWrites
  dsimp only
  split
  · rw [Agent.addPending, Agent.emptyAll_eq]
    exact ⟨rfl, rfl, rfl⟩
  · have hout (z : Agent) := Agent.writeAll_outline z (b.writesBy r)
    exact ⟨(congrArg Agent.lanes (hout _) : (Agent.outline _).lanes = _), (congrArg Agent.issue (hout _) : (Agent.outline _).issue = _),
      (congrArg Agent.cseq (hout _) : (Agent.outline _).cseq = _)⟩

section
variable {i : Instr} {f : Fields} {op : Vals → Res} {long : Bool} {s : State} {b : Beat} {q : BitVec 4} {wide : Bool}
  (h : Due i f s b) (hq : quseOf b.row f = .read q wide) (hp : b.perf ≠ 0)
include h hq hp

theorem Due.laneBody_read {w : W64} {c : W32} {bytes : List Byte} {t1 : Team} (hpop : popQueue b.t b.x q.toNat = .entry w c bytes t1) :
    laneBody s long op b (s.begun b) = .done (((s.begun b).modTeam b.a.team fun t => { t with q := t1.q, drain := t1.drain, heldEvents := t1.heldEvents }).modAgent b.a
      (b.queueRead q c long fun l => op (valsOf b w bytes l))) := by
  obtain rfl : b.f = f := h.f_eq
  have hspread := spread_by b fun l => op (valsOf b w bytes l)
  unfold laneBody withQueue finishOrPark finishLanes
  rw [if_neg hp, hq]
  dsimp only
  rw [hpop]
  dsimp only
  rw [hspread, State.modAgent_modAgent]
  split
  next hd hrow =>
    have hdq := quse_d_of_read hq hd
    rw [hrow] at hdq
    exact absurd hdq (quse_dest_ne_read _ _ _ _ _ _ _ _ _ _)
  next => rfl

/-- A reader parks on the queue, its place kept behind the others (R14). -/
theorem Due.queueParks (hpop : popQueue b.t b.x q.toNat = .park) :
    ∃ t y u, laneOp i f long op s = .next t ∧ t.agent b.a = some y ∧ y.issue = .queue ∧ y.lanes = b.x.lanes ∧ t.team b.a.team = some u ∧
      u.waiters q.toNat = b.t.waiters q.toNat ++ [b.a.who] ∧ u.queue q.toNat = b.t.queue q.toNat ∧ u.drain = b.t.drain := by
  obtain rfl : b.f = f := h.f_eq
  let marks := spread b (b.lanes.map fun l => (l, { d := 0, e := some false, fl := 0 }))
  have hb : laneBody s long op b (s.begun b) = .wait (parkOnQueue s b q.toNat marks) := by
    unfold laneBody withQueue
    rw [if_neg hp, hq]
    dsimp only
    rw [hpop]
  let parked : Agent → Agent := fun x => { (((x.restartGoose s.beatSeq).blockOn (s.railTime b.a.team x) .queue).emptyAll marks) with issue := .queue, restart := 0 }
  let f1 : Team → Team := fun t => { t with qwait := Tbl.put [] t.qwait q.toNat (t.waiters q.toNat ++ [b.a.who]) }
  let unwaited : Agent → Agent := fun x => { x with arr := { x.arr with wk := 0 } }
  let w1 := ((s.modAgent b.a parked).modTeam b.a.team f1).modAgent b.a unwaited
  have hy1 : w1.agent b.a = some (unwaited (parked b.x)) := by
    rw [State.agent_modAgent_same, State.agent_modTeam_keep _ _ f1 (fun _ => rfl) b.a, State.agent_modAgent_same, h.agent]
    rfl
  obtain ⟨held, hz⟩ := State.markHeld_self hy1
  obtain ⟨t, ht, hbare⟩ := (s.fixed_modAgent b.a parked).team h.team
  obtain ⟨u, hu, hubare⟩ := ((State.fixed_modAgent _ b.a unwaited).trans (State.fixed_markHeld _ b.a) :
    ((s.modAgent b.a parked).modTeam b.a.team f1).Fixed b.a (w1.markHeld b.a)).team (t := f1 t) (by rw [State.team_modTeam_same, ht]; rfl)
  have hlanes : (parked b.x).lanes = b.x.lanes := by
    show ((((b.x.restartGoose s.beatSeq).blockOn (s.railTime b.a.team b.x) .queue).emptyAll marks)).lanes = _
    rw [Agent.emptyAll_eq]
    rfl
  have hqwait : t.qwait = b.t.qwait := (congrArg Team.qwait hbare : t.bare.qwait = b.t.bare.qwait)
  refine ⟨w1.markHeld b.a, _, u, by rw [laneOp, issueBeat_due h, hb]; rfl, hz, rfl, hlanes, hu, ?_, ?_, ?_⟩
  · have huq : u.qwait = (f1 t).qwait := (congrArg Team.qwait hubare : u.bare.qwait = (f1 t).bare.qwait)
    rw [Team.waiters, huq]
    refine (Tbl.get_put [] t.qwait q.toNat q.toNat _).trans ((if_pos rfl).trans ?_)
    rw [Team.waiters, hqwait]
    rfl
  · have hqq : u.q = b.t.q := (congrArg Team.q hubare : u.bare.q = (f1 t).bare.q).trans (congrArg Team.q hbare : t.bare.q = b.t.bare.q)
    rw [Team.queue, hqq]
    rfl
  · exact (congrArg Team.drain hubare : u.bare.drain = (f1 t).bare.drain).trans (congrArg Team.drain hbare : t.bare.drain = b.t.bare.drain)

theorem Due.queueFaults (hpop : popQueue b.t b.x q.toNat = .fault) (hk : b.x.kind ≠ .privileged) :
    ∃ t, laneOp i f long op s = .next t ∧ ∀ y, t.agent b.a = some y → y.stoppedAs 0x0D .beat ∧ y.regs = b.x.regs ∧ y.lanes = b.x.lanes := by
  obtain rfl : b.f = f := h.f_eq
  obtain ⟨t, ht, hy⟩ := h.faulted hk (r := beatFault 0x0D b.perf 0 false) (body := laneBody s long op) (show (0x0D : Byte) ≠ 0x18 by decide) (by
    unfold laneBody withQueue
    rw [if_neg hp, hq]
    dsimp only
    rw [hpop])
  exact ⟨t, ht, fun y hya => ⟨(hy y hya).1, (hy y hya).2.1, (hy y hya).2.2.1⟩⟩

/-- A reader that an entry reaches goes on with its results (R12 to R15, R19). -/
theorem Due.queueReads {w : W64} {c : W32} {bytes : List Byte} {t1 : Team} (hal : b.alive) (hpop : popQueue b.t b.x q.toNat = .entry w c bytes t1) :
    ∃ t y u, laneOp i f long op s = .next t ∧ t.agent b.a = some y ∧ t.team b.a.team = some u ∧ u.q = t1.q ∧ u.drain = t1.drain ∧
      y.core = (b.queueRead q c long (fun l => op (valsOf b w bytes l)) b.begunAgent).core := by
  let r : Nat → Res := fun l => op (valsOf b w bytes l)
  let g := b.queueRead q c long r
  let f1 : Team → Team := fun t => { t with q := t1.q, drain := t1.drain, heldEvents := t1.heldEvents }
  have hb := h.laneBody_read hq hp (op := op) (long := long) hpop
  obtain ⟨hlanes, hissue, -⟩ := b.queueRead_frame q c long r b.begunAgent
  obtain ⟨t0, ht0, -⟩ := h.begun_team
  have hx : ((s.begun b).modTeam b.a.team f1).agent b.a = some b.begunAgent := (State.agent_modTeam_keep _ _ f1 (fun _ => rfl) b.a).trans h.begun_agent
  have ht1 : ((s.begun b).modTeam b.a.team f1).team b.a.team = some (f1 t0) := by
    rw [State.team_modTeam_same, ht0]
    rfl
  obtain ⟨v, y, u, hv, hy, hcore, hu, hut, -⟩ := h.settles (body := laneBody s long op) hal hb h.clean (z := g b.begunAgent)
    (t := { f1 t0 with agents := Tbl.modify (f1 t0).agents b.a.who g })
    (by rw [State.agent_modAgent_same, hx]; rfl) (by rw [State.team_modAgent, if_pos rfl, ht1]; rfl) hlanes (hissue.trans h.begun_issue)
  exact ⟨v, y, u, hv, hy, hu, (congrArg Team.q hut : u.core.q = _), (congrArg Team.drain hut : u.core.drain = _), hcore⟩

end

end Sys2Proof.Machine

open Sys2Proof.Machine in
/-- Settles O24: what the queue gives the reader decides among entry, park and fault. -/
theorem queueReads : Obligations.QueueReads := by
  unfold Obligations.QueueReads
  intro i f op long s b q wide hform h hq hg hp hal
  obtain ⟨hexec, hf, hrow, hke⟩ := queueForm_spec hform
  obtain ⟨hreg, hsplit⟩ := hrow _ h.row_eq
  obtain rfl : b.f = f := h.f_eq
  refine ⟨fun w c bytes ho hwait => ⟨fun ha l _ => valsOf_queue hq hsplit ha ho l, ?_⟩, fun hwait hb => ?_, fun hbad hk => ?_⟩
  · obtain ⟨t1, hpop, hpopped⟩ := popQueue_entry hg ho hwait
    obtain ⟨t, y, u, ht, hy, hu, huq, hud, hcore⟩ := h.queueReads hq hp (op := op) (long := long) hal hpop
    let r : Nat → Res := fun l => op (valsOf b w bytes l)
    obtain ⟨-, -, hcseq⟩ := b.queueRead_frame q c long r b.begunAgent
    refine ⟨t, y, u, (hexec s).trans ht, hy, hu, ?_, ?_, fun hl hs l hw => ?_, fun hl => ?_⟩
    · unfold popped Team.queue at hpopped ⊢
      rw [huq, hud]
      exact hpopped
    · have hyc : y.cseq = (b.queueRead q c long r b.begunAgent).cseq := (congrArg Agent.cseq hcore : y.core.cseq = _)
      have hbk : b.begunAgent.isGroup = decide (b.x.kind = .group) := congrArg (fun k : AgentKind => decide (k = .group)) b.begunAgent_kind
      have hbc : b.begunAgent.cseq = b.x.cseq := (congrArg Agent.cseq b.begunAgent_eq).trans rfl
      rw [hyc, hcseq, hbk, hbc]
      simp only [Bool.and_eq_true, decide_eq_true_eq]
    · subst hl
      let x1 : Agent := { b.begunAgent with cseq := if b.begunAgent.isGroup && decide (q.toNat ≤ 3) then c else b.begunAgent.cseq, arr := { b.begunAgent.arr with granted := none } }
      let x2 : Agent := { x1 with fp := x1.fp ||| (b.lanes.map fun l => (l, r l)).foldl (fun m e => m ||| e.2.fl) (0 : FpFlags) }
      have hregs : y.regs = (x2.writeAll (b.writesBy r)).regs := Agent.regs_of_core hcore
      exact Beat.takes_of_writesBy hs (h.pair_even hf hreg) (fun n hn l => h.pred_alone hf hreg n hn _) (hke.imp (fun hk l => hk _) fun he l => he _) hregs
        (fun g => by
          obtain ⟨h1, h2⟩ := Agent.reads_congr b.begunAgent_regs g
          rw [← h1, ← h2]
          cases g <;> exact ⟨rfl, rfl⟩) hw
    · subst hl
      rw [Agent.pend_of_core hcore, show (b.lanes.map fun l => (l, op (valsOf b w bytes l))) = b.lanes.map fun l => (l, r l) from rfl, spread_by]
      exact ⟨_, Sys2Proof.Tbl.find?_ins_same ..⟩
  · obtain ⟨t, y, u, ht, hrest⟩ := h.queueParks hq hp (op := op) (long := long) (popQueue_park hg hwait hb)
    exact ⟨t, y, u, (hexec s).trans ht, hrest⟩
  · obtain ⟨t, ht, hrest⟩ := h.queueFaults hq hp (op := op) (long := long) (popQueue_fault hg hbad) hk
    exact ⟨t, (hexec s).trans ht, hrest⟩
end

section
/-! Loads, stores and atomics issue their accesses (R145, R149, R152, R160, R165 to R167). -/

namespace Sys2Proof.Machine

/-! ### Accesses of one lane -/

/-- The agent without its accesses and replies under way. -/
def Agent.unasked (x : Agent) : Agent := { x with ops := [], opSeq := 0, pend := [], vE := [], uE := [], prE := [] }

/-- Accesses that an agent issues follow on from its last. -/
theorem Agent.foldl_addOp (os : List MemOp) (x : Agent) :
    let y := os.foldl Agent.addOp x
    y.opSeq = x.opSeq + os.length ∧ (∀ j o, os[j]? = some o → Tbl.find? y.ops (x.opSeq + j) = some o) ∧
      (∀ n, n < x.opSeq → Tbl.find? y.ops n = Tbl.find? x.ops n) ∧ y.pend = x.pend ∧ y.regs = x.regs ∧ y.unasked = x.unasked := by
  induction os generalizing x with
  | nil => exact ⟨rfl, fun j o hj => by simp at hj, fun _ _ => rfl, rfl, rfl, rfl⟩
  | cons o os ih =>
    obtain ⟨hseq, hops, hold, hrest⟩ := ih (x.addOp o)
    have hfind : ∀ n, Tbl.find? (x.addOp o).ops n = if n = x.opSeq then some o else Tbl.find? x.ops n := fun n => Tbl.find?_ins ..
    have hnext : (x.addOp o).opSeq = x.opSeq + 1 := rfl
    refine ⟨?_, fun j o' hj => ?_, fun n hn => ?_, ?_⟩
    · rw [List.foldl_cons, hseq, hnext, List.length_cons]
      omega
    · rw [List.foldl_cons]
      cases j with
      | zero =>
        obtain rfl : o = o' := by simpa using hj
        rw [hold _ (by rw [hnext]; omega), hfind, if_pos (Nat.add_zero _)]
      | succ j =>
        have h := hops j o' (by simpa using hj)
        rw [hnext] at h
        rw [show x.opSeq + (j + 1) = x.opSeq + 1 + j by omega]
        exact h
    · rw [List.foldl_cons, hold n (by rw [hnext]; omega), hfind, if_neg (by omega)]
    · rw [List.foldl_cons]
      exact hrest

/-- The agent with the reply of a lane under way, if it waits for one, and the registers that it fills empty. -/
def Agent.asks (x : Agent) : Option Pending → Agent
  | none => x
  | some p => (x.emptyAll p.lands).addPending p

theorem Agent.asks_frame (x : Agent) (po : Option Pending) : (x.asks po).opSeq = x.opSeq ∧ (x.asks po).ops = x.ops ∧ (x.asks po).unasked = x.unasked := by
  cases po with
  | none => exact ⟨rfl, rfl, rfl⟩
  | some p =>
    rw [Agent.asks, Agent.addPending, Agent.emptyAll_eq]
    exact ⟨rfl, rfl, rfl⟩

theorem Agent.isEmpty_emptyAll_mono (x : Agent) (ws : List RegWrite) {g : RegWrite} (hg : x.isEmpty g = true) : (x.emptyAll ws).isEmpty g = true :=
  foldl_keeps (fun y : Agent => y.isEmpty g = true) Agent.markEmpty ws (fun y h _ hy => Agent.isEmpty_markEmpty_mono y h hy) x hg

/-! ### Accesses of a beat -/

/-- A beat has issued the accesses `os` of each of some lanes, m to a lane, with the reply that P allows. -/
structure Agent.Asked (m : Nat) (os : Passed → Option Nat → List MemOp) (P : Passed → Option Pending → Prop) (x : Agent) (l : List Passed) (key : Nat → Option Nat)
    (y : Agent) : Prop where
  seq : y.opSeq = x.opSeq + l.length * m
  ops : ∀ k j q o, l[k]? = some q → (os q (key k))[j]? = some o → Tbl.find? y.ops (x.opSeq + k * m + j) = some o
  reply : ∀ k q, l[k]? = some q → ∃ po, P q po ∧ (po = none → key k = none) ∧
    ∀ p, po = some p → ∃ n, key k = some n ∧ Tbl.find? y.pend n = some p ∧ ∀ w ∈ p.lands, w.lasts → y.isEmpty w = true
  quiet : (∀ q po, P q po → po = none) → y.pend = x.pend ∧ y.regs = x.regs ∧ ∀ k, key k = none

/-- Records that share accesses, replies and registers have asked the same. -/
theorem Agent.Asked.congr {m : Nat} {os : Passed → Option Nat → List MemOp} {P : Passed → Option Pending → Prop} {x y x' y' : Agent} {l : List Passed}
    {key : Nat → Option Nat} (h : Agent.Asked m os P x l key y) (hx : x'.opSeq = x.opSeq ∧ x'.pend = x.pend ∧ x'.regs = x.regs)
    (hy : y'.opSeq = y.opSeq ∧ y'.ops = y.ops ∧ y'.pend = y.pend ∧ y'.regs = y.regs) : Agent.Asked m os P x' l key y' := by
  obtain ⟨hx1, hx2, hx3⟩ := hx
  obtain ⟨hy1, hy2, hy3, hy4⟩ := hy
  refine ⟨by rw [hy1, hx1, h.seq], fun k j q o hk ho => by rw [hy2, hx1]; exact h.ops k j q o hk ho, fun k q hk => ?_, fun hn => by rw [hy3, hy4, hx2, hx3]; exact h.quiet hn⟩
  obtain ⟨po, hP, hnone, hsome⟩ := h.reply k q hk
  refine ⟨po, hP, hnone, fun p hp => ?_⟩
  obtain ⟨n, hn, hfind, hempty⟩ := hsome p hp
  exact ⟨n, hn, by rw [hy3]; exact hfind, fun w hw hl => by rw [(Agent.reads_congr hy4 w).2]; exact hempty w hw hl⟩

theorem Agent.Asked.nil {m : Nat} {os : Passed → Option Nat → List MemOp} {P : Passed → Option Pending → Prop} (x : Agent) : Agent.Asked m os P x [] (fun _ => none) x where
  seq := by simp
  ops k j q o h := by simp at h
  reply k q h := by simp at h
  quiet _ := ⟨rfl, rfl, fun _ => rfl⟩

/-- One more lane's accesses are issued. -/
theorem Agent.Asked.snoc {m : Nat} {os : Passed → Option Nat → List MemOp} {P : Passed → Option Pending → Prop} {x y : Agent} {l : List Passed} {key : Nat → Option Nat}
    (h : Agent.Asked m os P x l key y) (hm : ∀ q κ, (os q κ).length = m) (q : Passed) {po : Option Pending} (hP : P q po) :
    Agent.Asked m os P x (l ++ [q]) (fun k => if k = l.length then po.map fun _ => Tbl.freshKey y.pend else key k)
      ((os q (po.map fun _ => Tbl.freshKey y.pend)).foldl Agent.addOp (y.asks po)) := by
  let κ := po.map fun _ => Tbl.freshKey y.pend
  let z := (os q κ).foldl Agent.addOp (y.asks po)
  obtain ⟨hseq, hops, hold, hzpend, hzregs, -⟩ := Agent.foldl_addOp (os q κ) (y.asks po)
  obtain ⟨haseq, haops, -⟩ := y.asks_frame po
  have hzseq : z.opSeq = x.opSeq + (l.length + 1) * m := by
    rw [show z.opSeq = _ from hseq, haseq, h.seq, hm, Nat.add_mul, Nat.one_mul, Nat.add_assoc]
  have hzempty : ∀ w, z.isEmpty w = (y.asks po).isEmpty w := fun w => (Agent.reads_congr hzregs w).2
  have hlast : ∀ k, (l ++ [q])[k]? = if k = l.length then some q else l[k]? := fun k => by
    by_cases hk : k = l.length
    · rw [if_pos hk, hk]
      simp
    · rw [if_neg hk, List.getElem?_append]
      split
      · rfl
      · rw [List.getElem?_eq_none (by simp; omega), List.getElem?_eq_none (by omega)]
  refine ⟨by rw [hzseq, List.length_append]; rfl, fun k j q' o hk ho => ?_, fun k q' hk => ?_, fun hnone => ?_⟩
  · rw [hlast] at hk
    by_cases hkl : k = l.length
    · rw [if_pos hkl] at hk ho
      obtain rfl := Option.some.inj hk
      have hfind := hops j o ho
      rw [haseq, h.seq] at hfind
      rw [hkl]
      exact hfind
    · rw [if_neg hkl] at hk ho
      have hlt : k < l.length := (List.getElem?_eq_some_iff.mp hk).1
      have hj : j < m := by
        have := (List.getElem?_eq_some_iff.mp ho).1
        rwa [hm] at this
      have hmul : k * m + m ≤ l.length * m := by
        rw [← Nat.succ_mul]
        exact Nat.mul_le_mul_right m hlt
      rw [hold _ (by rw [haseq, h.seq]; omega), haops]
      exact h.ops k j q' o hk ho
  · rw [hlast] at hk
    by_cases hkl : k = l.length
    · rw [if_pos hkl] at hk
      obtain rfl := Option.some.inj hk
      refine ⟨po, hP, fun hpo => by rw [if_pos hkl, hpo]; rfl, fun p hp => ⟨Tbl.freshKey y.pend, by rw [if_pos hkl, hp]; rfl, ?_, fun w hw hl => ?_⟩⟩
      · rw [show z.pend = _ from hzpend, hp, Agent.asks, Agent.addPending, Agent.emptyAll_eq]
        exact Tbl.find?_ins_same ..
      · rw [show z.isEmpty w = _ from hzempty w, hp]
        have hE := Agent.isEmpty_emptyAll y hw hl
        cases w <;> exact hE
    · rw [if_neg hkl] at hk
      obtain ⟨po', hP', hkey, hreply⟩ := h.reply k q' hk
      refine ⟨po', hP', fun hpo => by rw [if_neg hkl]; exact hkey hpo, fun p hp => ?_⟩
      obtain ⟨n, hn, hfind, hempty⟩ := hreply p hp
      refine ⟨n, by rw [if_neg hkl]; exact hn, ?_, fun w hw hl => ?_⟩
      · rw [show z.pend = _ from hzpend]
        cases po with
        | none => exact hfind
        | some p' =>
          rw [Agent.asks, Agent.addPending, Agent.emptyAll_eq]
          refine (Tbl.find?_ins ..).trans ((if_neg fun he => ?_).trans hfind)
          rw [he, Tbl.find?_freshKey] at hfind
          cases hfind
      · rw [show z.isEmpty w = _ from hzempty w]
        cases po with
        | none => exact hempty w hw hl
        | some p' =>
          have hE := Agent.isEmpty_emptyAll_mono y p'.lands (hempty w hw hl)
          cases w <;> exact hE
  · obtain ⟨hpend, hregs, hkey⟩ := h.quiet hnone
    obtain rfl := hnone q po hP
    refine ⟨hzpend.trans hpend, ?_, fun k => ?_⟩
    · rw [← hregs]
      exact hzregs
    · split
      · rfl
      · exact hkey k

/-- What the issue of a beat's accesses leaves: memory and every other agent. -/
structure State.Sends (a : AgentId) (s u : State) : Prop where
  mem : u.mem = s.mem
  clean : s.Clean u
  fixed : s.Fixed a u
  unreleased : s.Unreleased a.team → u.Unreleased a.team

theorem State.Sends.refl (a : AgentId) (s : State) : s.Sends a s := ⟨rfl, id, .refl a s, id⟩
theorem State.Sends.trans {a : AgentId} {s t u : State} (h : s.Sends a t) (k : t.Sends a u) : s.Sends a u :=
  ⟨k.mem.trans h.mem, k.clean ∘ h.clean, h.fixed.trans k.fixed, k.unreleased ∘ h.unreleased⟩

theorem State.sends_touchTlb (a : AgentId) (s : State) (b : Beat) (p : Place) : s.Sends a (s.touchTlb b p) :=
  ⟨(s.fetches_touchTlb b p).mem, (s.fetches_touchTlb b p).clean, .of_teams (s.fetches_touchTlb b p).teams, fun h => h.congr (s.fetches_touchTlb b p).teams⟩

theorem State.sends_modAgent (s : State) (a : AgentId) {f : Agent → Agent} (hf : ∀ x, (f x).unasked = x.unasked) : s.Sends a (s.modAgent a f) :=
  ⟨rfl, id, s.fixed_modAgent a f, fun h => h.modAgent fun x hx => by
    have hi : (f x).issue = x.issue := (congrArg Agent.issue (hf x) : (f x).unasked.issue = x.unasked.issue)
    rw [← hi]
    exact hx⟩

section
variable {b : Beat} {m : Nat} {os : Passed → Option Nat → List MemOp} {P : Passed → Option Pending → Prop} {F : State → Passed → State}
  (hm : ∀ q κ, (os q κ).length = m)
  (hF : ∀ u q, ∃ po, P q po ∧ F u q = (u.touchTlb b q.place).modAgent b.a fun x => (os q (po.map fun _ => Tbl.freshKey x.pend)).foldl Agent.addOp (x.asks po))
include hm hF

/-- The lanes of a beat issue their accesses one after the other. -/
theorem State.foldl_asks (l : List Passed) {s : State} {x : Agent} (hx : s.agent b.a = some x) :
    ∃ y key, (l.foldl F s).agent b.a = some y ∧ Agent.Asked m os P x l key y ∧ y.unasked = x.unasked ∧ s.Sends b.a (l.foldl F s) := by
  induction l using List.reverseRecOn with
  | nil => exact ⟨x, _, hx, .nil x, rfl, .refl b.a s⟩
  | append_singleton l q ih =>
    obtain ⟨y, key, hy, hasked, hframe, hsends⟩ := ih
    obtain ⟨po, hP, hstep⟩ := hF (l.foldl F s) q
    rw [List.foldl_append, List.foldl_cons, List.foldl_nil, hstep]
    have hun : ∀ z : Agent, ((os q (po.map fun _ => Tbl.freshKey z.pend)).foldl Agent.addOp (z.asks po)).unasked = z.unasked := fun z =>
      (Agent.foldl_addOp _ _).2.2.2.2.2.trans (z.asks_frame po).2.2
    refine ⟨_, _, ?_, hasked.snoc hm q hP, (hun y).trans hframe, (hsends.trans (State.sends_touchTlb b.a _ b q.place)).trans (State.sends_modAgent _ _ hun)⟩
    rw [State.agent_modAgent_same, State.agent_congr (State.fetches_touchTlb _ b q.place).teams, hy]
    rfl

/-- A due beat that issues its lanes' accesses goes on. -/
theorem Due.asks {i : Instr} {f : Fields} {s : State} (h : Due i f s b) (hal : b.alive) {body : Beat → State → Out} {l : List Passed}
    (hb : body b (s.begun b) = .done (l.foldl F (s.begun b))) :
    ∃ t y key, issueBeat i f s body = .next t ∧ t.agent b.a = some y ∧ Agent.Asked m os P b.x l key y ∧ (wantsAfter b y fun _ => b.x.p + 1) ∧
      (noSpill b → t.mem = s.mem) ∧ ((∀ q po, P q po → po = none) → ∀ c, t.regsOf c = s.regsOf c) := by
  obtain ⟨z, key, hz, hasked, hframe, hsends⟩ := State.foldl_asks hm hF l h.begun_agent
  obtain ⟨tb, htb, -⟩ := h.begun_team
  obtain ⟨tu, htu, -⟩ := hsends.fixed.team htb
  have hlanes : z.lanes = b.begunAgent.lanes := (congrArg Agent.lanes hframe : z.unasked.lanes = b.begunAgent.unasked.lanes)
  have hissue : z.issue = b.begunAgent.issue := (congrArg Agent.issue hframe : z.unasked.issue = b.begunAgent.unasked.issue)
  have hzf : z.f = b.begunAgent.f := (congrArg Agent.f hframe : z.unasked.f = b.begunAgent.unasked.f)
  have hkind : z.kind = b.begunAgent.kind := (congrArg Agent.kind hframe : z.unasked.kind = b.begunAgent.unasked.kind)
  obtain ⟨t, y, -, ht, hy, hcore, -, -, -, hmem⟩ := h.settles hal hb (hsends.clean h.clean) hz htu hlanes (hissue.trans h.begun_issue)
  refine ⟨t, y, key, ht, hy, ?_, b.wantsAfter_next ((congrArg Agent.lanes hcore : y.core.lanes = z.core.lanes).trans hlanes), fun hn => ?_, fun hnone c => ?_⟩
  · refine hasked.congr ⟨?_, ?_, b.begunAgent_regs.symm⟩ ⟨(congrArg Agent.opSeq hcore : y.core.opSeq = z.core.opSeq), Agent.ops_of_core hcore, Agent.pend_of_core hcore, Agent.regs_of_core hcore⟩
    · exact ((congrArg Agent.opSeq b.begunAgent_eq).trans rfl).symm
    · exact ((congrArg Agent.pend b.begunAgent_eq).trans rfl).symm
  · exact (hmem hn (hsends.unreleased (h.begun_unreleased hn.2.1)) (hzf.trans b.begunAgent_f) (hkind.trans b.begunAgent_kind)).trans hsends.mem
  · have ht2 := issueBeat_due h body
    rw [hb, ht] at ht2
    obtain rfl := Host.Outcome.next.inj ht2
    refine (State.conclude_done_regs _ _ (hsends.clean h.clean) b _ c).trans (Eq.trans ?_ (State.begun_regsOf s b c))
    by_cases hc : c = b.a
    · rw [hc, State.regsOf, State.regsOf, hz, h.begun_agent]
      exact congrArg some (hasked.quiet hnone).2.1
    · rw [State.regsOf, State.regsOf, hsends.fixed.others c hc]

end

end Sys2Proof.Machine
end

section
/-! O33, O34 and the issue of O35: LD, ST, ATOM, RED and CAS (R145, R149, R152, R160, R165 to R167). -/

namespace Sys2Proof.Machine

theorem exec_ld (f : Fields) (s : State) : exec (.ld f) s = execLd f s := rfl
theorem exec_st (f : Fields) (s : State) : exec (.st f) s = execSt f s := rfl
theorem exec_atom (f : Fields) (s : State) : exec (.atom f) s = execAtom f s := rfl
theorem exec_red (f : Fields) (s : State) : exec (.red f) s = execRed f s := rfl
theorem exec_cas (f : Fields) (s : State) : exec (.cas f) s = execCas f s := rfl

/-- What a reply of memory fills takes effect: it names no predicate. -/
theorem lasts_of_loadWrites {ty : DType} {d : Operand} {lane n j : Nat} {bs : List Byte} {w : RegWrite} (h : w ∈ loadWrites ty d lane n bs j) : w.lasts := by
  induction n generalizing bs j with
  | zero => cases h
  | succ n ih =>
    cases d with
    | v r =>
      rw [loadWrites, vWrites] at h
      rcases List.mem_append.mp h with h | h
      · by_cases h64 : (if tyWidth ty = 64 then 64 else 32) = 64
        · rw [if_pos h64] at h
          rcases List.mem_pair.mp h with rfl | rfl <;> trivial
        · rw [if_neg h64] at h
          rw [List.mem_singleton.mp h]
          trivial
      · exact ih h
    | u r =>
      rw [loadWrites] at h
      rcases List.mem_append.mp h with h | h
      · rw [List.mem_singleton.mp h]
        trivial
      · exact ih h
    | p | q | zero | imm => exact ih (by simpa [loadWrites] using h)

theorem lasts_of_lands {p : Pending} {r : ReplyForm} (hp : p.form = some r) {w : RegWrite} (h : w ∈ p.lands) : w.lasts := by
  unfold Pending.lands at h
  rw [hp] at h
  obtain ⟨l, -, hl⟩ := List.mem_flatMap.mp h
  exact lasts_of_loadWrites hl

/-! ### LD -/

/-- The reads of a lane's load (R145, R165). -/
def loadOps (b : Beat) (n : Nat) (q : Passed) (κ : Option Nat) : List MemOp := (partsOf n).map fun e => b.op q e.1 (.load e.2 (κ.getD 0) e.1)

theorem loadLane_asks (b : Beat) (n : Nat) (u : State) (q : Passed) : ∃ po, po = some (b.reply q n (multOf b.f.fn)) ∧ loadLane b n u q =
    (u.touchTlb b q.place).modAgent b.a fun x => (loadOps b n q (po.map fun _ => Tbl.freshKey x.pend)).foldl Agent.addOp (x.asks po) := by
  refine ⟨_, rfl, congrArg (State.modAgent _ b.a) (funext fun x => ?_)⟩
  rw [loadOps, List.foldl_map]
  rfl

/-- Settles O33: the lanes that have passed issue their reads and leave their replies under way. -/
theorem loadsRead : Obligations.LoadsRead := by
  unfold Obligations.LoadsRead
  intro f s b l h hp n hpass hal
  obtain rfl : b.f = f := h.f_eq
  obtain ⟨body, hexec, hb⟩ : ∃ body, exec (.ld b.f) s = issueBeat (.ld b.f) b.f s body ∧ body b (s.begun b) = .done (l.foldl (loadLane b n) (s.begun b)) := by
    refine ⟨_, (exec_ld b.f s).trans (execLd.eq_1 b.f s), ?_⟩
    dsimp only
    rw [if_neg hp, hpass]
  obtain ⟨t, y, key, ht, hy, hasked, hwants, hmem, -⟩ := h.asks (m := (partsOf n).length) (os := loadOps b n) (P := fun q po => po = some (b.reply q n (multOf b.f.fn)))
    (fun q κ => by rw [loadOps, List.length_map]) (loadLane_asks b n) hal hb
  refine ⟨t, y, fun k => (key k).getD 0, hexec.trans ht, hy, hmem, hwants, ⟨hasked.seq, fun k j q e hk hj => ?_⟩, fun k q hk => ?_⟩
  · exact hasked.ops k j q _ hk (by rw [loadOps, List.getElem?_map, hj]; rfl)
  · obtain ⟨po, rfl, -, hreply⟩ := hasked.reply k q hk
    obtain ⟨r, hr, hfind, hempty⟩ := hreply _ rfl
    refine ⟨_, (congrArg (fun κ : Option Nat => Tbl.find? y.pend (κ.getD 0)) hr).trans hfind, rfl, rfl, rfl, List.length_replicate .., rfl, fun w hw => hempty w hw (lasts_of_lands rfl hw)⟩

/-! ### ST -/

theorem length_storeBytes (b : Beat) (lane n j : Nat) : (storeBytes b lane n j).length = elemBytes b.f.ty * n := by
  induction n generalizing j with
  | zero => rfl
  | succ n ih =>
    rw [storeBytes, List.length_append, ih, toBytes_length, Nat.mul_succ, Nat.add_comm]

/-- The writes of a lane's store (R145, R165). -/
def storeOps (b : Beat) (q : Passed) (_ : Option Nat) : List MemOp :=
  (partsOf (elemBytes b.f.ty * multOf b.f.fn)).map fun e => b.op q e.1 (.store (((storeBytes b q.lane (multOf b.f.fn) 0).drop e.1).take e.2))

theorem storeLane_asks (b : Beat) (u : State) (q : Passed) : ∃ po : Option Pending, po = none ∧ storeLane b u q =
    (u.touchTlb b q.place).modAgent b.a fun x => (storeOps b q (po.map fun _ => Tbl.freshKey x.pend)).foldl Agent.addOp (x.asks po) := by
  refine ⟨none, rfl, congrArg (State.modAgent _ b.a) (funext fun x => ?_)⟩
  rw [storeOps, List.foldl_map, length_storeBytes]
  rfl

/-- Settles O34: the lanes that have passed issue their writes, and nothing else changes. -/
theorem storesWrite : Obligations.StoresWrite := by
  unfold Obligations.StoresWrite
  intro f s b l h hp n hpass hal
  obtain rfl : b.f = f := h.f_eq
  obtain ⟨body, hexec, hb⟩ : ∃ body, exec (.st b.f) s = issueBeat (.st b.f) b.f s body ∧ body b (s.begun b) = .done (l.foldl (storeLane b) (s.begun b)) := by
    refine ⟨_, (exec_st b.f s).trans (execSt.eq_1 b.f s), ?_⟩
    dsimp only
    rw [if_neg hp, hpass]
  obtain ⟨t, y, key, ht, hy, hasked, hwants, hmem, hregs⟩ := h.asks (m := (partsOf n).length) (os := storeOps b) (P := fun _ po => po = none)
    (fun q κ => by rw [storeOps, List.length_map]) (storeLane_asks b) hal hb
  obtain ⟨hpend, hyregs, -⟩ := hasked.quiet fun _ _ h => h
  refine ⟨t, y, hexec.trans ht, hy, fun hn => ⟨hmem hn, hregs fun _ _ h => h⟩, hyregs, hpend, hwants, hasked.seq, fun k j q e hk hj => ?_⟩
  exact hasked.ops k j q _ hk (by rw [storeOps, List.getElem?_map, hj]; rfl)

/-! ### ATOM, RED and CAS -/

/-- The read-modify-write of a lane. -/
def atomicOps (b : Beat) (cas : Bool) (q : Passed) (κ : Option Nat) : List MemOp := [b.op q 0 (b.atomic cas q.lane κ)]

/-- A reply that brings the old value (R166, R167). -/
def oldValue (b : Beat) (q : Passed) (po : Option Pending) : Prop := ∃ log, po = some { b.reply q (elemBytes b.f.ty) 1 with parts := 1, log := log }

theorem atomLane_asks (b : Beat) (cas : Bool) (u : State) (q : Passed) : ∃ po, oldValue b q po ∧ atomLane b cas u q =
    (u.touchTlb b q.place).modAgent b.a fun x => (atomicOps b cas q (po.map fun _ => Tbl.freshKey x.pend)).foldl Agent.addOp (x.asks po) :=
  ⟨some (b.oldReply (u.touchTlb b q.place) q), ⟨_, rfl⟩, rfl⟩

theorem redLane_asks (b : Beat) (u : State) (q : Passed) : ∃ po : Option Pending, po = none ∧ redLane b u q =
    (u.touchTlb b q.place).modAgent b.a fun x => (atomicOps b false q (po.map fun _ => Tbl.freshKey x.pend)).foldl Agent.addOp (x.asks po) := ⟨none, rfl, rfl⟩

/-- The body of ATOM or CAS outside a replay run. -/
theorem atomBody_pass {s : State} {b : Beat} {acc : Access} {cas : Bool} {l : List Passed} (hp : b.perf ≠ 0)
    (hpass : checkAll s b acc (elemBytes b.f.ty) (elemBytes b.f.ty) = .pass l) (hplay : replaying (s.tctlOf b.t) = false) (hroom : s.logRoom b.t l.length = true) :
    atomBody s acc cas b (s.begun b) = .done (l.foldl (atomLane b cas) (s.begun b)) := by
  unfold atomBody
  rw [if_neg hp]
  dsimp only
  rw [hpass]
  dsimp only
  rw [(s.sameMap_begun b).tctlOf, hplay, if_neg nofun, (s.sameMap_begun b).logRoom, hroom, if_neg nofun]

/-- Each lane has issued its one read-modify-write. -/
theorem Agent.Asked.atomic {b : Beat} {cas : Bool} {P : Passed → Option Pending → Prop} {x y : Agent} {l : List Passed} {key : Nat → Option Nat}
    (h : Agent.Asked 1 (atomicOps b cas) P x l key y) {kind : Passed → Option Nat → OpKind} (hk : ∀ q κ, b.atomic cas q.lane κ = kind q κ) :
    y.opSeq = x.opSeq + l.length ∧ ∀ k q, l[k]? = some q → Tbl.find? y.ops (x.opSeq + k) = some (b.op q 0 (kind q (key k))) := by
  refine ⟨by rw [h.seq, Nat.mul_one], fun k q hq => ?_⟩
  have hfind := h.ops k 0 q _ hq (by rw [atomicOps]; rfl)
  rw [Nat.mul_one] at hfind
  rw [← hk]
  exact hfind

/-- Each lane has a reply under way that brings it the old value. -/
theorem Agent.Asked.oldValues {b : Beat} {cas : Bool} {x y : Agent} {l : List Passed} {key : Nat → Option Nat} (h : Agent.Asked 1 (atomicOps b cas) (oldValue b) x l key y)
    (k : Nat) (q : Passed) (hq : l[k]? = some q) :
    ∃ n p, key k = some n ∧ Tbl.find? y.pend n = some p ∧ p.mem = true ∧ p.acq = b.acqMask q.lane ∧
      p.form = some { ty := b.f.ty, d := b.f.d, lanes := b.replyLanes q.lane, mult := 1 } ∧ p.parts = 1 ∧ ∀ w ∈ p.lands, y.isEmpty w = true := by
  obtain ⟨po, ⟨log, rfl⟩, -, hreply⟩ := h.reply k q hq
  obtain ⟨n, hn, hfind, hempty⟩ := hreply _ rfl
  exact ⟨n, _, hn, hfind, rfl, rfl, rfl, rfl, fun w hw => hempty w hw (lasts_of_lands rfl hw)⟩

theorem atomicsIssue_holds : atomicsIssue := by
  intro i f acc s b l hi h hp hpass hlog hal w want
  obtain rfl : b.f = f := h.f_eq
  rcases hi with ⟨rfl, rfl⟩ | ⟨rfl, rfl⟩ | ⟨rfl, rfl⟩
  · obtain ⟨hplay, hroom⟩ := hlog nofun
    obtain ⟨t, y, key, ht, hy, hasked, hwants, hmem, -⟩ := h.asks (m := 1) (os := atomicOps b false) (P := oldValue b) (fun _ _ => rfl) (atomLane_asks b false) hal
      (atomBody_pass hp hpass hplay hroom)
    refine ⟨t, y, key, (exec_atom b.f s).trans ht, hy, hmem, hwants, hasked.atomic fun q κ => rfl, fun _ => hasked.oldValues, nofun⟩
  · obtain ⟨body, hexec, hb⟩ : ∃ body, exec (.red b.f) s = issueBeat (.red b.f) b.f s body ∧ body b (s.begun b) = .done (l.foldl (redLane b) (s.begun b)) := by
      refine ⟨_, (exec_red b.f s).trans (execRed.eq_1 b.f s), ?_⟩
      dsimp only
      rw [if_neg hp, hpass]
    obtain ⟨t, y, key, ht, hy, hasked, hwants, hmem, -⟩ := h.asks (m := 1) (os := atomicOps b false) (P := fun _ po => po = none) (fun _ _ => rfl) (redLane_asks b) hal hb
    obtain ⟨hpend, hregs, hkey⟩ := hasked.quiet fun _ _ h => h
    exact ⟨t, y, key, hexec.trans ht, hy, hmem, hwants, hasked.atomic fun q κ => rfl, fun hne => absurd rfl hne, fun _ => ⟨hkey, hpend, hregs⟩⟩
  · obtain ⟨hplay, hroom⟩ := hlog nofun
    obtain ⟨t, y, key, ht, hy, hasked, hwants, hmem, -⟩ := h.asks (m := 1) (os := atomicOps b true) (P := oldValue b) (fun _ _ => rfl) (atomLane_asks b true) hal
      (atomBody_pass hp hpass hplay hroom)
    refine ⟨t, y, key, (exec_cas b.f s).trans ht, hy, hmem, hwants, hasked.atomic fun q κ => ?_, fun _ => hasked.oldValues, nofun⟩
    have hw : want q = (some (dataOf b w q.lane b.f.c), dataOf b w q.lane b.f.e) := if_pos rfl
    rw [hw]
    rfl

end Sys2Proof.Machine
end

section
/-! O35 fails on a state that its statement does not exclude: a store whose place names another slice than the one that the hash gives its line. -/

namespace Sys2Proof.Machine

/-- The store of one byte of line 0, whose place names another slice than the line's home. -/
def strayStore : MemOp :=
  { (default : MemOp) with place := { (default : Place) with owned := .slice, slice := homeSlice 0 + 1 }, kind := .store [0] }

def strayAgent : Agent := { (default : Agent) with ops := [(0, strayStore)] }

def strayTeam : Team := { (default : Team) with res := .on 0, agents := [(0, strayAgent)] }

/-- The line was evicted from its home with a lease that ends at 1. -/
def strayState : State := { State.reset with teams := [(0, strayTeam)], evMax := [(setKey (homeSlice 0) 0, 1)] }

theorem setKey_succ_ne (slice l : Nat) : setKey slice l ≠ setKey (slice + 1) l := by
  unfold setKey
  omega

/-- The home of the line keeps the latest lease of the lines that it has evicted. -/
theorem strayState_lmax : (strayState.line 0).lmax = 1 := by
  simp [State.line, State.lineIn, strayState, State.reset, Tbl.get, Tbl.find?]

/-- The slice that the place names keeps none. -/
theorem strayState_other : Tbl.get 0 strayState.evMax (setKey strayStore.place.slice 0) = 0 := by
  simp [strayState, strayStore, Tbl.get, Tbl.find?, setKey_succ_ne]

/-- A slice that has no records takes a line with the latest lease that it remembers (R142). -/
theorem State.touchLine_empty {s : State} (p : Place) (pol : Nat) (hl : s.lines = []) :
    ∃ r, s.touchLine p pol = s.unpin.setLine (p.loc / 128) r ∧ r.lmax = Tbl.get 0 s.evMax (setKey p.slice (p.loc / 128)) ∧ r.excl = none := by
  have hu : s.unpin.lines = [] := by simp [State.unpin, hl]
  have hroom : ∀ sl l d, s.unpin.makeRoom sl l d = s.unpin := fun sl l d => by simp [State.makeRoom, hu]
  unfold State.touchLine
  extract_lets u l isNew bare r0 s1 r
  have hs1 : s1 = s.unpin := (ite_congr rfl (fun _ => hroom ..) fun _ => rfl).trans (ite_self _)
  clear_value s1
  subst hs1
  refine ⟨_, rfl, show (s.unpin.lineIn p.slice l).lmax = _ from ?_, show (s.unpin.lineIn p.slice l).excl = none from ?_⟩
  · rw [State.lineIn, hu]
    rfl
  · rw [State.lineIn, hu]
    rfl

/-- A write to a line that no cluster holds and no slice has a record of commits after the leases that its place's slice remembers (R143, R146). -/
theorem State.writeWith_commit {s : State} {p : Place} (bs : List Byte) (cl : Option Nat) (pol : Nat) (hp : p.owned = .slice) (hl : s.lines = [])
    (hbs : bs.length ≠ 128) : (s.writeWith p bs cl pol).2 = some (max s.dtime (Tbl.get 0 s.evMax (setKey p.slice (p.loc / 128)))) := by
  have hrecall : (({ s with writeSeq := s.writeSeq + 1 } : State).recall (p.loc / 128) cl) = { s with writeSeq := s.writeSeq + 1 } := by
    simp [State.recall, State.line, State.lineIn, hl, Tbl.find?]
  obtain ⟨r, htouch, hlmax, hexcl⟩ := State.touchLine_empty (s := { s with writeSeq := s.writeSeq + 1 }) p pol hl
  have hline : ∀ u : State, (u.setLine (p.loc / 128) r).line (p.loc / 128) = r := fun u => by simp [State.line, State.lineIn, Tbl.find?_ins]
  unfold State.writeWith
  simp only [hp, hrecall, htouch, State.rewritten, hbs, if_false, State.holds, hline, hexcl, hlmax]
  rfl

/-- A store at a slice that the cluster does not hold waits for its acknowledgement with the write's commit time (R143, R165). -/
theorem State.storePerforms_ack {s : State} {q : Perf} {x : Agent} (n : Nat) {o : MemOp} (bs : List Byte) (hx : s.agent q.a = some x)
    (ho : o.place.owned = .slice) (hfar : s.holds (o.place.loc / 128) (some q.cluster) = false) :
    ∃ k, (s.storePerforms q n o bs).agent q.a = some { x with ops := Tbl.del x.ops n, acks := Tbl.ins x.acks n k } ∧
      k.c = (s.writeWith o.place bs (some q.cluster) o.policy).2.getD 0 := by
  have hw : (s.writeWith o.place bs (some q.cluster) o.policy).1.agent q.a = some x :=
    (State.agent_congr (s.writeWith_keeps ..).1 q.a).trans hx
  simp only [State.storePerforms, State.isNear, ho, hfar, State.stored, State.opDone]
  simp only [decide_true, Bool.true_and, Bool.or_self, Bool.false_eq_true, if_false]
  rw [State.agent_modAgent, if_pos rfl, hw]
  exact ⟨_, rfl, rfl⟩

end Sys2Proof.Machine

open Sys2Proof.Machine in
/-- Refutes O35: a store at another slice than its line's home commits before the leases end that the home remembers. -/
theorem not_atomicsPerform : ¬ Obligations.AtomicsPerform := by
  unfold Obligations.AtomicsPerform
  rintro ⟨-, hperforms⟩
  obtain ⟨y, hy, -, -, -, -, -, -, -, halone⟩ := hperforms strayState ⟨0, 0⟩ 0 strayTeam strayAgent strayStore 0 rfl rfl rfl rfl (by decide) rfl
  obtain ⟨k, hk, -, -, -, -, hc⟩ := (halone rfl).2 [0] rfl rfl rfl
  obtain ⟨k', hk', hc'⟩ := strayState.storePerforms_ack (q := ⟨⟨0, 0⟩, 0, 0, 0⟩) 0 [0] (show _ = some strayAgent from rfl) (show strayStore.place.owned = .slice from rfl) rfl
  rw [State.writeWith_commit _ _ _ rfl rfl (by decide), Option.getD_some] at hc'
  have haccess : strayState.access ⟨0, 0⟩ 0 = (strayState.storePerforms ⟨⟨0, 0⟩, 0, 0, 0⟩ 0 strayStore [0]).modAgent ⟨0, 0⟩ fun y => y.markHalf [(0, strayStore)] := rfl
  rw [haccess, State.agent_modAgent, if_pos rfl, hk'] at hy
  obtain rfl := Option.some.inj hy
  obtain rfl := Option.some.inj ((show _ = some k' from rfl).symm.trans hk)
  rw [hc', show strayStore.place.loc / 128 = 0 from rfl, strayState_other, strayState_lmax] at hc
  exact absurd hc (by decide)
end

section
/-! O37: the checks of a beat (R164): which lane and which check decide, and what a beat that fails or parks leaves (R23, R292 to R294). -/

namespace Sys2Proof.Machine

/-! ### What one lane's checks can give -/

/-- An outcome that stands in R164's table at step m or later: a fault at a step, with a code of the table, a park at an absent member or line, or a
replayable page. -/
def Chk.Tabled (m : Nat) : Chk → Prop
  | .ok _ => True
  | .fault step code _ => m ≤ step ∧ step ≤ 8 ∧ code ≠ 0x18
  | .wait step why => (step = 3 ∧ why = .member) ∨ (step = 7 ∧ why = .absent)
  | .replay step _ => step = 4

theorem Chk.Tabled.step_le {m : Nat} {c : Chk} (h : c.Tabled m) (hm : m ≤ 3) : m ≤ c.step := by
  cases c with
  | ok p => exact hm.trans (show 3 ≤ 9 by decide)
  | fault step code w => exact h.1
  | wait step why =>
    rcases h with ⟨rfl, -⟩ | ⟨rfl, -⟩
    · exact hm
    · exact hm.trans (show 3 ≤ 7 by decide)
  | replay step page =>
    obtain rfl : step = 4 := h
    exact hm.trans (show 3 ≤ 4 by decide)

theorem Chk.Tabled.mono {m k : Nat} {c : Chk} (h : c.Tabled m) (hk : k ≤ m) : c.Tabled k := by
  cases c with
  | fault step code w => exact ⟨hk.trans h.1, h.2⟩
  | ok | wait | replay => exact h

/-- Where a lane does not fault at its step, it waits, meets a replayable page or passes. -/
theorem Chk.Tabled.unfaulted {m step : Nat} {c : Chk} (h : c.Tabled m) (hs : c.step = step) (hf : ∀ code v, c ≠ .fault step code v) :
    c = .wait 3 .member ∨ c = .wait 7 .absent ∨ (∃ page, c = .replay 4 page) ∨ step = 9 := by
  subst hs
  cases c with
  | ok p => exact .inr (.inr (.inr rfl))
  | fault n code w => exact absurd rfl (hf code w)
  | wait n why =>
    rcases h with ⟨rfl, rfl⟩ | ⟨rfl, rfl⟩
    · exact .inl rfl
    · exact .inr (.inl rfl)
  | replay n page =>
    obtain rfl : n = 4 := h
    exact .inr (.inr (.inl ⟨page, rfl⟩))

/-- What a state without uncorrectable errors gives a walk that fails (R292, R351). -/
theorem State.walk_fault {s : State} (hs : s.flaws = []) {unit part asid va : Nat} {c : Byte} (h : s.walk unit part asid va = .fault c) : c ≠ 0x18 := by
  have hflaw : ∀ level table, entryFlawed s unit part asid level table va = false := fun level table => by simp [entryFlawed, hs]
  have hleaf : ∀ e big, leafOf e big = .fault c → c = 0x07 := fun e big he => by
    unfold leafOf at he
    split at he
    · exact (Xlat.fault.inj he).symm
    · cases he
  have hnone : ∀ e, notPresent e = .fault c → c = 0x07 := fun e he => by
    unfold notPresent at he
    split at he
    · cases he
    · exact (Xlat.fault.inj he).symm
  suffices hc : c = 0x07 from hc ▸ by decide
  unfold State.walk at h
  simp only [hflaw, Bool.false_eq_true, if_false] at h
  repeat' split at h
  all_goals
    first
    | exact hnone _ h
    | exact hleaf _ _ h
    | exact (Xlat.fault.inj h).symm

section
variable (s : State) (b : Beat) (acc : Access) (addr : W64) (n : Nat)

theorem lateChecks_tabled (p : Place) : (lateChecks s b acc addr n p).Tabled 3 := by
  unfold lateChecks
  extract_lets absent
  split
  · trivial
  split
  · exact ⟨by decide, by decide, by decide⟩
  split
  · exact ⟨by decide, by decide, by decide⟩
  split
  · exact .inr ⟨rfl, rfl⟩
  cases (if b.x.arr.noWatch then none else watched s b.t acc addr n) with
  | none => trivial
  | some w => exact ⟨by decide, by decide, by decide⟩

theorem pageChecks_tabled {s : State} (hs : s.flaws = []) (va : Nat) : (pageChecks s b acc addr n va).Tabled 3 := by
  unfold pageChecks
  split
  next c hc => exact ⟨by decide, by decide, State.walk_fault hs hc⟩
  next => rfl
  next pte big _ =>
    extract_lets k p
    split
    · exact ⟨by decide, by decide, by decide⟩
    split
    · exact ⟨by decide, by decide, by decide⟩
    split
    · split
      · rfl
      · exact ⟨by decide, by decide, by decide⟩
    split
    · exact ⟨by decide, by decide, by decide⟩
    · exact lateChecks_tabled s b acc addr n p

/-- An unassigned tag or a set zero bit decides first (R132, R164). -/
theorem laneChecks_of_tag (lane al : Nat) (htag : tagOk addr = false) : laneChecks s b acc lane addr n al = .fault 1 0x06 0 := by
  rw [laneChecks, htag]
  rfl

/-- A misaligned address decides next (R163, R164). -/
theorem laneChecks_of_align (lane : Nat) {al : Nat} (htag : tagOk addr = true) (hal : addr.toNat % al ≠ 0) :
    laneChecks s b acc lane addr n al = .fault 2 0x05 0 := by
  rw [laneChecks, htag]
  exact if_pos hal

/-- A sound and aligned address fails at step 3 or later (R164). -/
theorem laneChecks_tabled {s : State} (hs : s.flaws = []) (lane : Nat) {al : Nat} (htag : tagOk addr = true) (hal : addr.toNat % al = 0) :
    (laneChecks s b acc lane addr n al).Tabled 3 := by
  have hfault : ∀ (k : Nat) (c : Byte) (w : Nat), 3 ≤ k → k ≤ 8 → c ≠ 0x18 → (Chk.fault k c w).Tabled 3 := fun _ _ _ h1 h2 h3 => ⟨h1, h2, h3⟩
  unfold laneChecks
  extract_lets tag off p off'
  rw [htag, if_neg (by decide), if_neg (not_not.mpr hal)]
  repeat' split
  all_goals
    first
    | exact hfault _ _ _ (by decide) (by decide) (by decide)
    | exact lateChecks_tabled ..
    | exact pageChecks_tabled _ _ _ _ hs _
    | exact .inl ⟨rfl, rfl⟩

theorem laneChecks_tabled_one {s : State} (hs : s.flaws = []) (lane al : Nat) : (laneChecks s b acc lane addr n al).Tabled 1 := by
  cases htag : tagOk addr with
  | false =>
    rw [laneChecks_of_tag s b acc addr n lane al htag]
    exact ⟨by decide, by decide, by decide⟩
  | true =>
    by_cases hal : addr.toNat % al = 0
    · exact (laneChecks_tabled b acc addr n hs lane htag hal).mono (by decide)
    · rw [laneChecks_of_align s b acc addr n lane htag hal]
      exact ⟨by decide, by decide, by decide⟩

theorem two_le_laneChecks {s : State} (hs : s.flaws = []) (lane al : Nat) (htag : tagOk addr = true) : 2 ≤ (laneChecks s b acc lane addr n al).step := by
  by_cases hal : addr.toNat % al = 0
  · exact Nat.le_of_succ_le ((laneChecks_tabled b acc addr n hs lane htag hal).step_le (Nat.le_refl 3))
  · rw [laneChecks_of_align s b acc addr n lane htag hal]
    exact Nat.le_refl 2

/-- A load of an absent line of the team's own scratchpad parks, where no earlier check fails (R23, R164). -/
theorem laneChecks_absent (lane : Nat) {al : Nat} (ht : s.team b.a.team = some b.t) (h4 : tagOf addr = 4) (htag : tagOk addr = true) (hal : addr.toNat % al = 0)
    (hroom : bits addr 21 0 + n ≤ s.scratchOf b.a.team) (hlock : locked s b.cluster b.a.team b.t .load addr n = false)
    (habs : Tbl.get false b.t.absent (bits addr 21 0 / 128) = true) : laneChecks s b .load lane addr n al = .wait 7 .absent := by
  have hoff : spLoc b.a.team (bits addr 21 0) % 2 ^ 22 = bits addr 21 0 := by
    have hlt : bits addr 21 0 < 2 ^ 22 := Nat.mod_lt _ (by decide)
    unfold spLoc locOf
    omega
  have hlate : lateChecks s b .load addr n { loc := spLoc b.a.team (bits addr 21 0), owned := .scratch b.a.team, pte := 0, va := 0 } = .wait 7 .absent := by
    unfold lateChecks
    dsimp only
    rw [if_neg (by decide), hlock, ht, hoff, if_neg (by decide)]
    simp [habs, Access.writes]
  unfold laneChecks
  simp only [h4, htag, hal, spTeam]
  rw [← hlate]
  simp [Nat.not_lt.mpr hroom]

end

/-! ### The check that decides -/

theorem leastOf_of {l : List Nat} {n : Nat} (hn : n ∈ l) (hle : ∀ m ∈ l, n ≤ m) : leastOf l = some n := by
  induction l with
  | nil => cases hn
  | cons x xs ih =>
    rw [leastOf]
    cases hm : leastOf xs with
    | none =>
      cases xs with
      | nil => rw [List.mem_singleton.mp hn]
      | cons y ys => rw [leastOf] at hm; split at hm <;> cases hm
    | some m =>
      have hmem := leastOf_mem hm
      refine congrArg some (Nat.le_antisymm ?_ (Nat.le_min.mpr ⟨hle x List.mem_cons_self, hle m (List.mem_cons_of_mem _ hmem)⟩))
      rcases List.mem_cons.mp hn with rfl | hxs
      · exact Nat.min_le_left ..
      · have := ih hxs fun k hk => hle k (List.mem_cons_of_mem _ hk)
        rw [← Option.some.inj (this.symm.trans hm)]
        exact Nat.min_le_right ..

/-- The search over an ascending list finds the entry of the lowest lane that passes. -/
theorem find?_lowest {α : Type} (g : Nat → α) (p : α → Bool) {l : List Nat} (hl : l.Pairwise (· < ·)) {k : Nat} (hk : k ∈ l) (hp : p (g k) = true)
    (hlow : ∀ j ∈ l, j < k → p (g j) = false) : (l.map g).find? p = some (g k) := by
  induction l with
  | nil => cases hk
  | cons j l ih =>
    rw [List.map_cons, List.find?_cons]
    obtain ⟨hj, hl⟩ := List.pairwise_cons.mp hl
    rcases List.mem_cons.mp hk with rfl | hk
    · rw [hp]
    · rw [hlow j List.mem_cons_self (hj k hk)]
      exact ih hl hk fun i hi => hlow i (List.mem_cons_of_mem _ hi)

section
variable {l : List Nat} (addr : Nat → W64) {chk : Nat → Chk} (write : Bool) (hl : l.Pairwise (· < ·)) {k : Nat} (hk : k ∈ l)
include hl hk

/-- The lowest lane with a fault at the first step that fails decides (R164). -/
theorem firstFailing_fault {step w : Nat} {code : Byte} (hc : chk k = .fault step code w) (hle : ∀ j ∈ l, step ≤ (chk j).step)
    (hlow : ∀ j ∈ l, j < k → ∀ c v, chk j ≠ .fault step c v) :
    ∃ r, firstFailing (l.map fun j => (j, addr j, chk j)) write = .fault r ∧ r.code = code ∧ r.how = .beat ∧ r.whole = false := by
  have hstep : (chk k).step = step := by rw [hc]; rfl
  have hleast : leastOf ((l.map fun j => (j, addr j, chk j)).map fun r => r.2.2.step) = some step := by
    rw [List.map_map]
    refine leastOf_of (List.mem_map.mpr ⟨k, hk, hstep⟩) fun m hm => ?_
    obtain ⟨j, hj, rfl⟩ := List.mem_map.mp hm
    exact hle j hj
  unfold firstFailing
  rw [hleast]
  dsimp only [Option.getD_some]
  rw [find?_lowest (fun j => (j, addr j, chk j)) _ hl hk (by simp [hc, Chk.step]) fun j hj hjk => ?_]
  · rw [hc]
    exact ⟨_, rfl, rfl, rfl, rfl⟩
  · have := hlow j hj hjk
    cases hj : chk j <;> simp_all [Chk.step]

/-- Where no lane faults at the first step that fails, the lowest lane that fails there decides (R164). -/
theorem firstFailing_rest {step : Nat} (hc : (chk k).step = step) (hle : ∀ j ∈ l, step ≤ (chk j).step)
    (hnone : ∀ j ∈ l, ∀ c v, chk j ≠ .fault step c v) (hlow : ∀ j ∈ l, j < k → (chk j).step ≠ step) :
    (∀ why, chk k = .wait step why → firstFailing (l.map fun j => (j, addr j, chk j)) write = .block why) ∧
    ∀ page, chk k = .replay step page → ∃ r, firstFailing (l.map fun j => (j, addr j, chk j)) write = .replay r page ∧ r.how = .beat ∧ r.whole = false := by
  have hleast : leastOf ((l.map fun j => (j, addr j, chk j)).map fun r => r.2.2.step) = some step := by
    rw [List.map_map]
    refine leastOf_of (List.mem_map.mpr ⟨k, hk, hc⟩) fun m hm => ?_
    obtain ⟨j, hj, rfl⟩ := List.mem_map.mp hm
    exact hle j hj
  have hfind := find?_lowest (fun j => (j, addr j, chk j)) (fun r => r.2.2.step == step) hl hk (by simp [hc]) fun j hj hjk => by simpa using hlow j hj hjk
  unfold firstFailing
  rw [hleast]
  dsimp only [Option.getD_some]
  rw [List.find?_eq_none.mpr fun r hr => ?_, hfind]
  rotate_left
  · obtain ⟨j, hj, rfl⟩ := List.mem_map.mp hr
    have := hnone j hj
    cases hj : chk j <;> simp_all [Chk.step]
  refine ⟨fun why hw => ?_, fun page hp => ?_⟩
  · simp only [hw]
  · simp only [hp]
    exact ⟨_, rfl, rfl, rfl⟩

end

/-! ### The forms that make the checks -/

/-- A form of R164 runs its beat through one body, which ends as its checks do where they do not pass. -/
theorem accessForm_body {i : Instr} {acc : Access} {n al : Nat} (s : State) {b : Beat}
    (hi : accessForm i = some (b.f, acc, n, al)) (hp : b.perf ≠ 0) : ∃ body, exec i s = issueBeat i b.f s body ∧ (shapeOf i b.f).whole = b.f.uni ∧
      ∀ o, checkAll s b acc n al = .out o → body b (s.begun b) = o := by
  have hatom : ∀ cas, (∀ o, checkAll s b acc n al = .out o → n = elemBytes b.f.ty → al = elemBytes b.f.ty → atomBody s acc cas b (s.begun b) = o) :=
    fun cas o ho hn hal => by
      subst hn hal
      rw [atomBody, if_neg hp]
      dsimp only
      rw [ho]
  unfold accessForm at hi
  split at hi
  next f =>
    cases hi
    refine ⟨_, (exec_ld b.f s).trans (execLd.eq_1 b.f s), rfl, fun o ho => ?_⟩
    dsimp only
    rw [if_neg hp, ho]
  next f =>
    cases hi
    refine ⟨_, (exec_st b.f s).trans (execSt.eq_1 b.f s), rfl, fun o ho => ?_⟩
    dsimp only
    rw [if_neg hp, ho]
  next f =>
    cases hi
    exact ⟨_, (exec_atom b.f s).trans (execAtom.eq_1 b.f s), rfl, fun o ho => hatom false o ho rfl rfl⟩
  next f =>
    cases hi
    refine ⟨_, (exec_red b.f s).trans (execRed.eq_1 b.f s), rfl, fun o ho => ?_⟩
    dsimp only
    rw [if_neg hp, ho]
  next f =>
    cases hi
    exact ⟨_, (exec_cas b.f s).trans (execCas.eq_1 b.f s), rfl, fun o ho => hatom true o ho rfl rfl⟩
  next f =>
    split at hi
    · cases hi
    next hfn =>
      cases hi
      refine ⟨_, execCctl.eq_1 b.f s, ?_, fun o ho => ?_⟩
      · rw [shapeOf, decide_eq_false hfn, Bool.or_false]
      · rw [if_neg hp, if_neg hfn, ho]
  next f =>
    cases hi
    refine ⟨_, execTestp.eq_1 b.f s, rfl, fun o ho => ?_⟩
    dsimp only
    rw [if_neg hp, ho]
  next => cases hi

/-! ### Parks on a replayable page -/

/-- A record that enters the fault queue, or is held back, leaves an agent that no DMC event wakes (R294, R305). -/
theorem State.fqSend_agent {s : State} {a : AgentId} {x : Agent} (hx : s.agent a = some x) (hu : x.unhalt = x) (part : Nat) (r : HeldRecord) :
    (s.fqSend part r).agent a = some x := by
  obtain ⟨t, ht, hfind⟩ := Option.bind_eq_some_iff.mp hx
  rcases s.team_fqSend part r a.team with h | h
  · exact Option.bind_eq_some_iff.mpr ⟨t, h.trans ht, hfind⟩
  · refine Option.bind_eq_some_iff.mpr ⟨t.unhalted, by rw [h, ht]; rfl, ?_⟩
    unfold Team.unhalted
    split
    · rw [Tbl.find?_map t.agents (fun _ g => g.unhalt), hfind]
      exact congrArg some hu
    · exact hfind

/-- The fault queue once a record of a replayable page has met it (R293, R294). -/
structure Part.Takes (q v : Part) (asid page size : Nat) (a : AgentId) : Prop where
  joins : q.pendingPage asid page = true → v.fqWr = q.fqWr ∧
    ∀ r ∈ q.replays, r.asid = asid → r.page = page → r.watch = false → { r with agents := r.agents ++ [a] } ∈ v.replays
  enters : q.pendingPage asid page = false → (q.fqWr - q.fqRd).toNat < size → q.heldRecords = [] → v.fqWr = q.fqWr + 1 ∧
    ∃ r ∈ v.replays, r.idx = q.fqWr.toNat ∧ r.asid = asid ∧ r.page = page ∧ r.agents = [a]
  isHeld : q.pendingPage asid page = false → ¬ ((q.fqWr - q.fqRd).toNat < size ∧ q.heldRecords = []) → v.fqWr = q.fqWr ∧
    ∃ h r, v.heldRecords = q.heldRecords ++ [h] ∧ h.replay = some r ∧ r.asid = asid ∧ r.page = page ∧ r.agents = [a]

/-- A beat that meets a replayable page parks its agent, and the page's record has the agent among its waiters (R293, R294). -/
theorem State.parkReplay_parks {s : State} {a : AgentId} {t : Team} {x : Agent} (ht : s.team a.team = some t) (hx : s.agent a = some x) {size : Nat}
    (hq : (s.partition t.part).fqSize = some size) (r : Raise) (page : Nat) :
    ∃ y, (s.parkReplay a r page).agent a = some y ∧ y.issue = .replay ∧ y.lanes = x.lanes ∧ y.regs = x.regs ∧ y.restart = x.restart ∧
      (s.partition t.part).Takes ((s.parkReplay a r page).partition t.part) t.asid page size a := by
  unfold State.parkReplay
  rw [ht, hx]
  dsimp only
  rw [hq]
  dsimp only
  set x1 : Agent := { x with
    goose := 0, gooseSeq := s.beatSeq, issue := .replay, block := some .faultQueue, replay := some { lanes := r.lanes, addr := r.addr, write := r.write } }
  have hx1 : (s.setAgent a x1).agent a = some x1 := State.agent_setAgent_self hx
  have hp1 : (s.setAgent a x1).partition t.part = s.partition t.part := rfl
  split
  next hpend =>
    refine ⟨x1, hx1, rfl, rfl, rfl, rfl, ⟨fun _ => ?_, fun h => absurd hpend (by simp [h]), fun h => absurd hpend (by simp [h])⟩⟩
    rw [State.partition_modPart, if_pos rfl, hp1]
    refine ⟨rfl, fun q hq hasid hpage hwatch => List.mem_map.mpr ⟨q, hq, if_pos ?_⟩⟩
    simp [Replay.ofPage, hasid, hpage, hwatch]
  next hpend =>
    refine ⟨x1, State.fqSend_agent hx1 rfl .., rfl, rfl, rfl, rfl, ⟨fun h => absurd h hpend, fun _ hroom hempty => ?_, fun _ hfull => ?_⟩⟩
    · unfold State.fqSend
      dsimp only
      rw [hp1, hq]
      dsimp only
      rw [if_pos ⟨hroom, hempty⟩, State.fqWrite_partition, hp1]
      exact ⟨rfl, _, List.mem_cons_self, rfl, rfl, rfl, rfl⟩
    · unfold State.fqSend
      dsimp only
      rw [hp1, hq]
      dsimp only
      rw [if_neg hfull, State.partition_modPart, if_pos rfl, hp1]
      exact ⟨rfl, _, _, rfl, rfl, rfl, rfl, rfl⟩

/-- A due beat that meets a replayable page: it parks where the fault queue is enabled, and else raises 0x07 (R293, R294). -/
theorem Due.replays {i : Instr} {f : Fields} {s : State} {b : Beat} (h : Due i f s b) (hk : b.x.kind ≠ .privileged) {body : Beat → State → Out}
    {r : Raise} {page : Nat} (hr : r.whole = false) (hb : body b (s.begun b) = .replay r page) :
    ((s.partition b.t.part).fqSize = none → ∃ t, issueBeat i f s body = .next t ∧ ∀ y, t.agent b.a = some y →
      y.stoppedAs 0x07 r.how ∧ y.lanes = b.x.lanes ∧ y.regs = b.x.regs ∧ y.restart = if (shapeOf i f).whole then 0 else b.quad) ∧
    ∀ size, (s.partition b.t.part).fqSize = some size → ∃ t y, issueBeat i f s body = .next t ∧ t.agent b.a = some y ∧ y.issue = .replay ∧
      y.lanes = b.x.lanes ∧ y.regs = b.x.regs ∧ (y.restart = if (shapeOf i f).whole then 0 else b.quad) ∧
      (s.partition b.t.part).Takes (t.partition b.t.part) b.t.asid page size b.a := by
  let s1 := (s.waited b.a).modAgent b.a fun x => { x with restart := if (shapeOf i f).whole then 0 else b.quad }
  let x1 : Agent := { b.x with arr := { b.x.arr with wk := 0 }, restart := if (shapeOf i f).whole then 0 else b.quad }
  have hx1 : s1.agent b.a = some x1 := by
    rw [State.agent_modAgent_same, State.waited_agent h.agent]
    rfl
  obtain ⟨t1, ht1, hbare⟩ : ∃ t1, s1.team b.a.team = some t1 ∧ t1.bare = b.t.bare :=
    ((s.fixed_modAgent b.a _).trans (State.fixed_modAgent _ b.a _)).team h.team
  have hpart : t1.part = b.t.part := (congrArg Team.part hbare : t1.bare.part = b.t.bare.part)
  have hasid : t1.asid = b.t.asid := (congrArg Team.asid hbare : t1.bare.asid = b.t.bare.asid)
  have hnext : issueBeat i f s body = .next ((s1.parkReplay b.a (r.forWhole (shapeOf i f).whole b.perf) page).markHeld b.a) := by
    rw [issueBeat_due h, hb]
    rfl
  refine ⟨fun hq => ⟨_, hnext, fun y hy => ?_⟩, fun size hq => ?_⟩
  · have hq1 : (s1.partition t1.part).fqSize = none := by
      rw [hpart]
      exact hq
    have hcode : { r.forWhole (shapeOf i f).whole b.perf with code := 0x07 } = ({ r with code := 0x07 } : Raise).forWhole (shapeOf i f).whole b.perf := by
      unfold Raise.forWhole
      split <;> rfl
    have hfault : s1.parkReplay b.a (r.forWhole (shapeOf i f).whole b.perf) page =
        (s.waited b.a).concludeBeat b (shapeOf i f).whole (.fault { r with code := 0x07 }) := by
      unfold State.parkReplay State.concludeBeat
      rw [ht1, hx1]
      dsimp only
      rw [hq1]
      dsimp only
      rw [hcode, hr, Bool.or_false]
    rw [hfault] at hy
    obtain ⟨t2, ht2, -⟩ : ∃ t2, (s.waited b.a).team b.a.team = some t2 ∧ t2.bare = b.t.bare := (s.fixed_modAgent b.a _).team h.team
    obtain ⟨hstop, hregs, hlanes, hrestart⟩ := State.conclude_fault ht2 (State.waited_agent h.agent) hk (r := { r with code := 0x07 })
      (show (0x07 : Byte) ≠ 0x18 by decide) _ hy
    refine ⟨hstop, hlanes, hregs, ?_⟩
    rw [hrestart, hr, Bool.or_false]
  · have hq1 : (s1.partition t1.part).fqSize = some size := by
      rw [hpart]
      exact hq
    obtain ⟨y, hy, hissue, hlanes, hregs, hrestart, htakes⟩ := State.parkReplay_parks ht1 hx1 hq1 (r.forWhole (shapeOf i f).whole b.perf) page
    obtain ⟨k, hheld⟩ := State.markHeld_self hy
    rw [hpart, hasid] at htakes
    exact ⟨_, _, hnext, hheld, hissue, hlanes, hregs, hrestart, htakes⟩

/-! ### O37 -/

theorem Beat.lanes_sorted (b : Beat) : b.lanes.Pairwise (· < ·) := by
  unfold Beat.lanes
  split
  · exact List.pairwise_singleton ..
  · exact lanesIn_sorted _

/-- A lane that fails a check keeps the beat from passing. -/
theorem checkAll_out {s : State} {b : Beat} {acc : Access} {n al k : Nat} (hk : k ∈ b.lanes)
    (hstep : (laneChecks s b acc k (addressOf b.x b.f k) n al).step ≠ 9) : checkAll s b acc n al =
      .out (firstFailing (b.lanes.map fun l => (l, addressOf b.x b.f l, laneChecks s b acc l (addressOf b.x b.f l) n al)) acc.writes) := by
  unfold checkAll
  extract_lets rs
  refine if_neg fun hall => hstep ?_
  exact beq_iff_eq.mp (List.all_eq_true.mp hall _ (List.mem_map.mpr ⟨k, hk, rfl⟩))

/-- The lowest entry of a list that has one. -/
theorem exists_lowest {p : Nat → Prop} {l : List Nat} (h : ∃ k ∈ l, p k) : ∃ k ∈ l, p k ∧ ∀ j ∈ l, j < k → ¬ p j := by
  classical
  obtain ⟨hmem, hp⟩ := Nat.find_spec h
  exact ⟨Nat.find h, hmem, hp, fun j hj hlt hpj => Nat.find_min h hlt ⟨hj, hpj⟩⟩

end Sys2Proof.Machine

open Sys2Proof.Machine in
/-- Settles O37, by the lowest lane whose check fails first: its outcome is the beat's. -/
theorem accessesFault : Obligations.AccessesFault := by
  unfold Obligations.AccessesFault
  intro i f acc n al s b hi h hp hk stops chk
  obtain rfl : b.f = f := h.f_eq
  obtain ⟨body, hexec, hwhole, hbody⟩ := accessForm_body s hi hp
  have htab : ∀ l, (chk l).Tabled 1 := fun l => laneChecks_tabled_one b acc (addressOf b.x b.f l) n h.clean l al
  have hout : ∀ k ∈ b.lanes, (chk k).step ≠ 9 → body b (s.begun b) = firstFailing (b.lanes.map fun l => (l, addressOf b.x b.f l, chk l)) acc.writes :=
    fun k hkl hstep => hbody _ (checkAll_out hkl hstep)
  have hfault : ∀ k step code w, k ∈ b.lanes → chk k = .fault step code w → (∀ l ∈ b.lanes, step ≤ (chk l).step) →
      (∀ l ∈ b.lanes, l < k → ∀ c v, chk l ≠ .fault step c v) → stops code := by
    intro k step code w hkl hc hle hlow
    have hrow := htab k
    rw [hc] at hrow
    obtain ⟨-, hstep, hcode⟩ := hrow
    obtain ⟨r, hr, rfl, hhow, hrw⟩ := firstFailing_fault (addressOf b.x b.f) acc.writes b.lanes_sorted hkl hc hle hlow
    obtain ⟨t, ht, hy⟩ := h.faulted hk hcode ((hout k hkl (by rw [hc]; exact Nat.ne_of_lt (Nat.lt_succ_of_le hstep))).trans hr)
    refine ⟨t, hexec.trans ht, fun y hya => ?_⟩
    obtain ⟨hstop, hregs, hlanes, hrestart⟩ := hy y hya
    rw [hhow] at hstop
    rw [hwhole, hrw, Bool.or_false] at hrestart
    exact ⟨hstop, hlanes, hregs, hrestart⟩
  refine ⟨fun hbad => ?_, fun htag hbad => ?_, hfault, ?_, ?_, ?_⟩
  · obtain ⟨k, hkl, htag, hlow⟩ := exists_lowest hbad
    refine hfault k 1 0x06 0 hkl (laneChecks_of_tag _ _ _ _ _ _ _ htag) (fun l _ => (htab l).step_le (by decide)) fun l hl hlt c v hc => ?_
    have hstep := two_le_laneChecks b acc (addressOf b.x b.f l) n h.clean l al (Bool.eq_true_of_not_eq_false (hlow l hl hlt))
    rw [show laneChecks .. = _ from hc] at hstep
    exact absurd hstep (show ¬ 2 ≤ 1 by decide)
  · obtain ⟨k, hkl, hal, hlow⟩ := exists_lowest hbad
    refine hfault k 2 0x05 0 hkl (laneChecks_of_align _ _ _ _ _ _ (htag k hkl) hal) (fun l hl => two_le_laneChecks _ _ _ _ h.clean _ _ (htag l hl))
      fun l hl hlt c v hc => ?_
    have hstep := (laneChecks_tabled b acc (addressOf b.x b.f l) n h.clean l (htag l hl) (not_not.mp (hlow l hl hlt))).step_le (Nat.le_refl 3)
    rw [show laneChecks .. = _ from hc] at hstep
    exact absurd hstep (show ¬ 3 ≤ 2 by decide)
  · intro k step why hkl hc hle hnone
    have hwait := htab k
    rw [hc] at hwait
    have hstep : (chk k).step = step := by rw [hc]; rfl
    obtain ⟨j, hjl, hj, hlow⟩ := exists_lowest (p := fun j => (chk j).step = step) ⟨k, hkl, hstep⟩
    have hjc : chk j = .wait step why := by
      rcases hwait with ⟨rfl, rfl⟩ | ⟨rfl, rfl⟩
      all_goals
        rcases (htab j).unfaulted hj (hnone j hjl) with hjc | hjc | ⟨page, hjc⟩ | hjc
        all_goals simp_all [Chk.step]
    obtain ⟨t, y, ht, hy, hblock, hissue, hlanes, hregs, -, hmem⟩ := h.blocked
      ((hout k hkl (by rw [hstep]; rcases hwait with ⟨rfl, -⟩ | ⟨rfl, -⟩ <;> decide)).trans ((firstFailing_rest (addressOf b.x b.f) acc.writes b.lanes_sorted hjl hj hle hnone hlow).1 why hjc))
    exact ⟨hwait, t, y, hexec.trans ht, hy, hissue, hblock, hlanes, hregs, hmem⟩
  · rintro rfl l addr h4 htag hal hroom hlock habs
    exact laneChecks_absent s b addr n l h.team h4 htag hal hroom hlock habs
  · intro k page hkl hc hle hnone hlow
    have hstep : (chk k).step = 4 := by rw [hc]; rfl
    obtain ⟨r, hr, hhow, hrw⟩ := (firstFailing_rest (addressOf b.x b.f) acc.writes b.lanes_sorted hkl hstep hle hnone fun j hj hjk h4 => by
      rcases (htab j).unfaulted h4 (hnone j hj) with hjc | hjc | ⟨p, hjc⟩ | hjc
      · rw [hjc] at h4
        cases h4
      · rw [hjc] at h4
        cases h4
      · exact hlow j hj hjk p hjc
      · cases hjc).2 page hc
    obtain ⟨hoff, hon⟩ := h.replays hk hrw ((hout k hkl (by rw [hstep]; decide)).trans hr)
    rw [hwhole, hhow] at hoff
    rw [hwhole] at hon
    refine ⟨fun hq => ?_, fun size hq => ?_⟩
    · obtain ⟨t, ht, hy⟩ := hoff hq
      exact ⟨t, hexec.trans ht, hy⟩
    · obtain ⟨t, y, ht, hy, hissue, hlanes, hregs, hrestart, htakes⟩ := hon size hq
      exact ⟨t, y, hexec.trans ht, hy, hissue, hlanes, hregs, hrestart, htakes.joins, htakes.enters, htakes.isHeld⟩
end

section
/-! O51 fails in a state in which the save of a team ends its context: a line of a copy that lands meets a watchpoint, no fault queue can hold the
report, and no control thread stands that the event could go to (R20, R192, R291, R333). -/

namespace Sys2Proof.Machine

/-- A copy of one byte from address 0 to address 0. -/
def watchedCopy : CopyCmd := { (default : CopyCmd) with slices := [{ (default : CopySlice) with geo := 1 }] }

/-- It has started and has read its source line. -/
def watchedCmd : Cmd :=
  { (default : Cmd) with owner := .agent 0 0, part := 12, kind := .copy watchedCopy, started := true, src := [(0, List.replicate 128 0)] }

/-- A team without a control thread that is to be pre-empted. -/
def endedTeam : Team := { (default : Team) with res := .on 0, part := 12, ctlGone := true, preempt := true }

/-- The watchpoint of the copy's byte. -/
def byteWatch : Watch := { addr := 0, mask := 1, ctl := 0x900, loc := some 0 }

def watchedState : State :=
  { State.reset with
    teams := [(0, endedTeam)]
    cmds := [(0, watchedCmd)]
    fwTable := [(0, (0, 0))]
    parts := [(12, { Part.reset with debug := [(0, { Debug.reset with wp := [(0, byteWatch)] })] })]
    tlb := [{ (default : TlbEnt) with unit := dieUnit 0, part := 12, level := 1, pte := 1 },
            { (default : TlbEnt) with unit := dieUnit 0, part := 12, level := 2, pte := 0xB }] }

/-- The line lands, and the copy's end in fault 0x1A ends the context. -/
theorem watchedState_lands : ∃ (u : State) (rec : List Byte) (v : Team), landAllRead watchedState 0 = u.endContext 12 0 rec ∧ u.team 0 = some v ∧ v.part = 12 ∧ v.asid = 0 ∧
    v.isEnded = false := ⟨_, [], _, rfl, rfl, rfl, rfl, rfl⟩

theorem watchedState_settles : watchedState.settleCmds 0 = (landAllRead watchedState 0).rewindDrain 0 := rfl

/-- A drain that stands after a whole row again leaves its team ended as it is. -/
theorem State.rewindDrain_ended {s : State} {m : Nat} {t : Team} (ht : s.team m = some t) (he : t.isEnded = true) (n : Nat) :
    ∃ v, (s.rewindDrain n).team m = some v ∧ v.isEnded = true := by
  have hkeep : ∀ (team : Nat) (f : Team → Team), (∀ u, (f u).isEnded = u.isEnded) → ∃ v, (s.modTeam team f).team m = some v ∧ v.isEnded = true :=
    fun team f hf => by
      rw [State.team_modTeam, ht]
      split
      · exact ⟨_, rfl, (hf t).trans he⟩
      · exact ⟨t, rfl, he⟩
  unfold State.rewindDrain
  repeat' split
  · dsimp only
    split
    · exact ⟨t, ht, he⟩
    · exact hkeep _ (fun u => { u with drain := _ }) fun _ => rfl
  all_goals exact ⟨t, ht, he⟩

/-- The save leaves the team ended. -/
theorem watchedState_ended : ∃ v, (watchedState.saveTeam 0 endedTeam).team 0 = some v ∧ v.isEnded = true := by
  obtain ⟨u, rec, v, hland, hv, hpart, hasid, he⟩ := watchedState_lands
  obtain ⟨v1, hv1, he1, -⟩ := State.team_endContext_self hv he rec
  rw [hpart, hasid, ← hland] at hv1
  obtain ⟨v2, hv2, he2⟩ := State.rewindDrain_ended hv1 he1 0
  have hteams : ∀ gone, ((watchedState.settleCmds 0).dropMons gone).team 0 = some v2 := fun gone =>
    (congrArg (Tbl.find? · 0) (State.dropMons_teams _ gone).1).trans hv2
  refine ⟨v2, ?_, he2⟩
  unfold State.saveTeam
  extract_lets s1 mine s2 cmds s3
  rw [State.team_modTeam_same, show s3.team 0 = some v2 from hteams mine, Option.map_some, if_pos he2]

end Sys2Proof.Machine

open Sys2Proof.Machine in
/-- Refutes O51: a save lands a line of the team's copy, and the fault that this raises ends the team's context, so that the team is not saved. -/
theorem not_teamsMove : ¬ Obligations.TeamsMove := by
  unfold Obligations.TeamsMove
  rintro ⟨hsave, -⟩
  obtain ⟨hsaved, -⟩ := hsave watchedState 0 endedTeam rfl (.inr (.inl rfl))
  obtain ⟨u, v, hu, hv, hres, -⟩ := hsaved rfl (by decide) (by decide)
  have hexec : exec (.teamSave 0) watchedState = .next (watchedState.saveTeam 0 endedTeam) := rfl
  obtain ⟨w, hw, hended⟩ := watchedState_ended
  obtain rfl := Host.Outcome.next.inj (hexec.symm.trans hu)
  obtain rfl := Option.some.inj (hw.symm.trans hv)
  rw [Team.isEnded, hres] at hended
  cases hended
end

section
/-! The numbers that the codes of a floating-point format stand for (R105), as one rising sequence of magnitudes. -/

namespace Sys2Proof.Machine

/-- A sign as a factor. -/
def sgn (s : Bool) : ℝ := if s = true then -1 else 1

@[simp] theorem sgn_true : sgn true = -1 := rfl
@[simp] theorem sgn_false : sgn false = 1 := rfl

theorem abs_sgn (s : Bool) : |sgn s| = 1 := by cases s <;> simp
theorem sgn_mul_self (s : Bool) : sgn s * sgn s = 1 := by cases s <;> simp
theorem sgn_not (s : Bool) : sgn (!s) = -sgn s := by cases s <;> simp
theorem sgn_xor (s t : Bool) : sgn (s != t) = sgn s * sgn t := by cases s <;> cases t <;> simp

theorem isReal_fin (s : Bool) (m : Nat) (e : Int) (x : ℝ) : isReal (.fin s m e) x ↔ x = sgn s * (m * (2 : ℝ) ^ e) := by
  rw [isReal, mul_assoc]
  rfl

theorem FpVal.eq_fin {v : FpVal} {x : ℝ} (h : isReal v x) : ∃ m e, v = .fin v.sign m e ∧ x = sgn v.sign * (m * (2 : ℝ) ^ e) := by
  cases v with
  | nan => exact h.elim
  | inf => exact h.elim
  | fin s m e => exact ⟨m, e, rfl, (isReal_fin s m e x).mp h⟩

/-! ### The sequence of magnitudes -/

/-- The magnitude of code k, also beyond the format's largest: the exponent field counts on (R105). -/
noncomputable def Fmt.mag (f : Fmt) (k : Nat) : ℝ :=
  ((k - (k / 2 ^ f.mb - 1) * 2 ^ f.mb : Nat) : ℝ) * (2 : ℝ) ^ (f.emin + ((k / 2 ^ f.mb - 1 : Nat) : Int))

/-- The codes from an exponent field on stand for the multiples of one quantum. -/
theorem Fmt.mag_at (f : Fmt) {ex i : Nat} (hlo : ex = 0 ∨ 2 ^ f.mb ≤ i) (hhi : i ≤ 2 * 2 ^ f.mb) :
    f.mag (ex * 2 ^ f.mb + i) = i * (2 : ℝ) ^ (f.emin + (ex : Int)) := by
  have hp : 0 < 2 ^ f.mb := by positivity
  rcases Nat.lt_or_ge i (2 * 2 ^ f.mb) with hi | hi
  · have hdiv : (ex * 2 ^ f.mb + i) / 2 ^ f.mb - 1 = ex := by
      rw [Nat.mul_comm, Nat.mul_add_div hp]
      rcases hlo with rfl | hlo
      · have : i / 2 ^ f.mb < 2 := (Nat.div_lt_iff_lt_mul hp).mpr hi
        omega
      · rw [show i / 2 ^ f.mb = 1 from Nat.div_eq_of_lt_le (by omega) (by omega)]
        omega
    rw [Fmt.mag, hdiv, Nat.add_sub_cancel_left]
  · obtain rfl : i = 2 * 2 ^ f.mb := Nat.le_antisymm hhi hi
    have hk : ex * 2 ^ f.mb + 2 * 2 ^ f.mb = (ex + 2) * 2 ^ f.mb := by ring
    have hsub : (ex + 2) * 2 ^ f.mb - (ex + 1) * 2 ^ f.mb = 2 ^ f.mb := by
      rw [← Nat.sub_mul, show ex + 2 - (ex + 1) = 1 by omega, Nat.one_mul]
    rw [Fmt.mag, hk, Nat.mul_div_cancel _ hp, show ex + 2 - 1 = ex + 1 by omega, hsub, Nat.cast_add, Nat.cast_one, ← add_assoc,
      zpow_add_one₀ (by norm_num)]
    push_cast
    ring

@[simp] theorem Fmt.mag_zero (f : Fmt) : f.mag 0 = 0 := by simp [Fmt.mag]

theorem Fmt.mag_lt_succ (f : Fmt) (k : Nat) : f.mag k < f.mag (k + 1) := by
  have hp : 0 < 2 ^ f.mb := by positivity
  obtain ⟨ex, i, hk, hlo, hi⟩ : ∃ ex i, k = ex * 2 ^ f.mb + i ∧ (ex = 0 ∨ 2 ^ f.mb ≤ i) ∧ i < 2 * 2 ^ f.mb := by
    have hmod := Nat.mod_lt k hp
    have hdm := Nat.div_add_mod k (2 ^ f.mb)
    rcases hq : k / 2 ^ f.mb with _ | q
    · rw [hq] at hdm
      exact ⟨0, k, by omega, .inl rfl, by omega⟩
    · rw [hq, Nat.mul_comm, Nat.add_mul] at hdm
      exact ⟨q, 2 ^ f.mb + k % 2 ^ f.mb, by omega, .inr (by omega), by omega⟩
  rw [hk, Nat.add_assoc, f.mag_at hlo hi.le, f.mag_at (hlo.imp id fun h => by omega) hi]
  exact mul_lt_mul_of_pos_right (by norm_num) (by positivity)

theorem Fmt.mag_strictMono (f : Fmt) : StrictMono f.mag := strictMono_nat_of_lt_succ f.mag_lt_succ

theorem Fmt.mag_nonneg (f : Fmt) (k : Nat) : 0 ≤ f.mag k := f.mag_zero ▸ f.mag_strictMono.monotone (Nat.zero_le k)

/-! ### Codes -/

/-- A format whose exponent has two bits and whose mantissa has one. -/
structure Fmt.Sound (f : Fmt) : Prop where
  eb : 1 < f.eb
  mb : 0 < f.mb

theorem Fmt.maxCode_lt {f : Fmt} (h : f.Sound) : f.maxCode < 2 ^ (f.eb + f.mb) := by
  have h1 : 2 ^ 1 ≤ 2 ^ f.eb := Nat.pow_le_pow_right (by norm_num) h.eb.le
  have hp : 0 < 2 ^ f.mb := by positivity
  have hle : (2 ^ f.eb - 1) * 2 ^ f.mb ≤ 2 ^ f.eb * 2 ^ f.mb := Nat.mul_le_mul_right _ (Nat.sub_le ..)
  have hpos : 0 < 2 ^ (f.eb + f.mb) := by positivity
  have hpos2 : 0 < (2 ^ f.eb - 1) * 2 ^ f.mb := Nat.mul_pos (by omega) hp
  unfold Fmt.maxCode
  split
  · rw [Nat.pow_add]
    omega
  · omega
  · omega

/-- The fields of a code below the sign. -/
theorem Fmt.fields {f : Fmt} {k : Nat} (hk : k < 2 ^ (f.eb + f.mb)) (s : Bool) :
    (signCode f s + k) / 2 ^ (f.eb + f.mb) = b2n s ∧ (signCode f s + k) / 2 ^ f.mb % 2 ^ f.eb = k / 2 ^ f.mb ∧ (signCode f s + k) % 2 ^ f.mb = k % 2 ^ f.mb ∧
      (signCode f s + k) % 2 ^ (f.eb + f.mb) = k := by
  have hp : 0 < 2 ^ f.mb := by positivity
  have hp2 : 0 < 2 ^ (f.eb + f.mb) := by positivity
  have hsign : signCode f s + k = 2 ^ f.mb * (2 ^ f.eb * b2n s) + k := by
    rw [signCode, Nat.pow_add]
    ring
  have hlt : k / 2 ^ f.mb < 2 ^ f.eb := (Nat.div_lt_iff_lt_mul hp).mpr (by rwa [← Nat.pow_add])
  refine ⟨?_, ?_, ?_, ?_⟩
  · rw [signCode, Nat.mul_comm, Nat.mul_add_div hp2, Nat.div_eq_of_lt hk, Nat.add_zero]
  · rw [hsign, Nat.mul_add_div hp, Nat.mul_add_mod, Nat.mod_eq_of_lt hlt]
  · rw [hsign, Nat.mul_add_mod]
  · rw [signCode, Nat.mul_comm, Nat.mul_add_mod, Nat.mod_eq_of_lt hk]

/-- Every code is a sign with a magnitude code. -/
theorem Fmt.exists_signed (f : Fmt) {c : Nat} (hc : c < 2 ^ f.width) : ∃ s k, c = signCode f s + k ∧ k < 2 ^ (f.eb + f.mb) := by
  have hp2 : 0 < 2 ^ (f.eb + f.mb) := by positivity
  rw [Fmt.width, Nat.add_assoc, Nat.pow_add] at hc
  rcases Nat.lt_or_ge c (2 ^ (f.eb + f.mb)) with h | h
  · exact ⟨false, c, by simp [signCode, b2n], h⟩
  · exact ⟨true, c - 2 ^ (f.eb + f.mb), by simp [signCode, b2n]; omega, by omega⟩

theorem signCode_lt {f : Fmt} {k : Nat} (hk : k < 2 ^ (f.eb + f.mb)) (s : Bool) : signCode f s + k < 2 ^ f.width := by
  rw [Fmt.width, Nat.add_assoc, Nat.pow_add, signCode]
  cases s <;> simp [b2n] <;> omega

end Sys2Proof.Machine
end

section
/-! What a code decodes to: a finite number up to the largest code, and beyond it an infinity or a NaN (R105). -/

namespace Sys2Proof.Machine

theorem Fmt.mag_fields (f : Fmt) (k : Nat) : f.mag k = if k / 2 ^ f.mb = 0 then ((k % 2 ^ f.mb : Nat) : ℝ) * (2 : ℝ) ^ f.emin
    else ((2 ^ f.mb + k % 2 ^ f.mb : Nat) : ℝ) * (2 : ℝ) ^ (f.emin + ((k / 2 ^ f.mb - 1 : Nat) : Int)) := by
  have hp : 0 < 2 ^ f.mb := by positivity
  have hdm := Nat.div_add_mod k (2 ^ f.mb)
  have hmod := Nat.mod_lt k hp
  rcases hq : k / 2 ^ f.mb with _ | q
  · rw [hq, Nat.mul_zero, Nat.zero_add] at hdm
    have hat := f.mag_at (ex := 0) (i := k) (.inl rfl) (by omega)
    rw [Nat.zero_mul, Nat.zero_add, Nat.cast_zero, add_zero] at hat
    rw [hat, if_pos rfl, hdm]
  · have hk : k = q * 2 ^ f.mb + (2 ^ f.mb + k % 2 ^ f.mb) := by
      rw [hq] at hdm
      linarith
    rw [if_neg (by omega), Nat.add_sub_cancel]
    conv_lhs => rw [hk]
    exact f.mag_at (.inr (by omega)) (by omega)

/-- The codes above the largest finite one have the top exponent; those of the one format with a single NaN are that NaN (R105). -/
theorem Fmt.le_maxCode_iff {f : Fmt} (h : f.Sound) {k : Nat} (hk : k < 2 ^ (f.eb + f.mb)) : k ≤ f.maxCode ↔
    ¬ (f.top = .ieee ∧ k / 2 ^ f.mb = 2 ^ f.eb - 1) ∧ ¬ (f.top = .oneNan ∧ k / 2 ^ f.mb = 2 ^ f.eb - 1 ∧ k % 2 ^ f.mb = 2 ^ f.mb - 1) := by
  have h1 : 2 ^ 1 ≤ 2 ^ f.eb := Nat.pow_le_pow_right (by norm_num) h.eb.le
  have hp : 0 < 2 ^ f.mb := by positivity
  have hpos2 : 0 < (2 ^ f.eb - 1) * 2 ^ f.mb := Nat.mul_pos (by omega) hp
  have hdm := Nat.div_add_mod k (2 ^ f.mb)
  have hmod := Nat.mod_lt k hp
  have hlt : k / 2 ^ f.mb < 2 ^ f.eb := (Nat.div_lt_iff_lt_mul hp).mpr (by rwa [← Nat.pow_add])
  have hsplit : (2 ^ f.eb - 1) * 2 ^ f.mb + 2 ^ f.mb = 2 ^ (f.eb + f.mb) := by
    rw [Nat.pow_add, ← Nat.succ_mul, Nat.succ_eq_add_one, Nat.sub_add_cancel (by omega)]
  cases htop : f.top with
  | ieee =>
    rw [Fmt.maxCode, htop]
    simp only [true_and, reduceCtorEq, false_and, not_false_eq_true, and_true]
    constructor
    · intro hle heq
      rw [heq, Nat.mul_comm] at hdm
      omega
    · intro hne
      have hle : k / 2 ^ f.mb + 1 ≤ 2 ^ f.eb - 1 := by omega
      have := Nat.mul_le_mul_right (2 ^ f.mb) hle
      rw [Nat.add_mul, Nat.mul_comm] at this
      omega
  | oneNan =>
    rw [Fmt.maxCode, htop]
    simp only [true_and, reduceCtorEq, false_and, not_false_eq_true]
    constructor
    · rintro hle ⟨heq, hma⟩
      rw [heq, hma, Nat.mul_comm] at hdm
      omega
    · intro hne
      by_contra hgt
      have hkeq : k = (2 ^ f.eb - 1) * 2 ^ f.mb + (2 ^ f.mb - 1) := by omega
      refine hne ⟨?_, ?_⟩
      · rw [hkeq, Nat.mul_comm, Nat.mul_add_div hp, Nat.div_eq_of_lt (by omega), Nat.add_zero]
      · rw [hkeq, Nat.mul_comm, Nat.mul_add_mod, Nat.mod_eq_of_lt (by omega)]
  | finite =>
    rw [Fmt.maxCode, htop]
    simp only [reduceCtorEq, false_and, not_false_eq_true, and_self, iff_true]
    omega

/-- A finite code is its sign times its magnitude. -/
theorem Fmt.decode_finite {f : Fmt} (h : f.Sound) {k : Nat} (hk : k ≤ f.maxCode) (s : Bool) :
    (f.decode (signCode f s + k)).sign = s ∧ isReal (f.decode (signCode f s + k)) (sgn s * f.mag k) := by
  have hlt := hk.trans_lt (f.maxCode_lt h)
  obtain ⟨hsign, hex, hma, -⟩ := Fmt.fields hlt s
  obtain ⟨hieee, hone⟩ := (Fmt.le_maxCode_iff h hlt).mp hk
  have hs : decide ((signCode f s + k) / 2 ^ (f.eb + f.mb) % 2 = 1) = s := by
    rw [hsign]
    cases s <;> rfl
  unfold Fmt.decode
  dsimp only
  rw [hs, hex, hma, if_neg hieee, if_neg hone, f.mag_fields k]
  split
  · exact ⟨rfl, (isReal_fin ..).mpr rfl⟩
  · exact ⟨rfl, (isReal_fin ..).mpr rfl⟩

/-- A code above the largest finite one is no number. -/
theorem Fmt.decode_top {f : Fmt} (h : f.Sound) {k : Nat} (hlt : k < 2 ^ (f.eb + f.mb)) (hk : f.maxCode < k) (s : Bool) :
    f.decode (signCode f s + k) = if f.top = .ieee ∧ k % 2 ^ f.mb = 0 then .inf s else .nan (decide (f.top = .ieee ∧ k % 2 ^ f.mb < 2 ^ (f.mb - 1))) := by
  obtain ⟨hsign, hex, hma, -⟩ := Fmt.fields hlt s
  have hs : decide ((signCode f s + k) / 2 ^ (f.eb + f.mb) % 2 = 1) = s := by
    rw [hsign]
    cases s <;> rfl
  unfold Fmt.decode
  dsimp only
  rw [hs, hex, hma]
  by_cases hieee : f.top = .ieee ∧ k / 2 ^ f.mb = 2 ^ f.eb - 1
  · rw [if_pos hieee, hieee.1]
    simp
  · have hone : f.top = .oneNan ∧ k / 2 ^ f.mb = 2 ^ f.eb - 1 ∧ k % 2 ^ f.mb = 2 ^ f.mb - 1 := by
      by_contra hone
      exact absurd ((Fmt.le_maxCode_iff h hlt).mpr ⟨hieee, hone⟩) (by omega)
    rw [if_neg hieee, if_pos hone, hone.1]
    simp

/-- The finite codes of a format are the signed magnitudes up to the largest. -/
theorem codeReal_iff {f : Fmt} (h : f.Sound) {c : Nat} {y : ℝ} : codeReal f c y ↔ ∃ s k, c = signCode f s + k ∧ k ≤ f.maxCode ∧ y = sgn s * f.mag k := by
  constructor
  · rintro ⟨hc, hy⟩
    obtain ⟨s, k, rfl, hk⟩ := f.exists_signed hc
    by_cases hle : k ≤ f.maxCode
    · obtain ⟨-, hreal⟩ := Fmt.decode_finite h hle s
      refine ⟨s, k, rfl, hle, ?_⟩
      revert hy hreal
      cases f.decode (signCode f s + k) with
      | nan => exact fun hy => hy.elim
      | inf => exact fun hy => hy.elim
      | fin => exact fun hy hreal => hy.trans hreal.symm
    · rw [Fmt.decode_top h hk (by omega) s] at hy
      split at hy <;> exact hy.elim
  · rintro ⟨s, k, rfl, hk, rfl⟩
    exact ⟨signCode_lt (hk.trans_lt (f.maxCode_lt h)) s, (Fmt.decode_finite h hk s).2⟩

theorem isReal_unique {v : FpVal} {x y : ℝ} (hx : isReal v x) (hy : isReal v y) : x = y := by
  cases v with
  | nan => exact hx.elim
  | inf => exact hx.elim
  | fin => exact Eq.trans hx (Eq.symm hy)

end Sys2Proof.Machine
end

section
/-! Rounding a magnitude to a multiple of a quantum (R108). A magnitude stands for a real number exactly, or, with an odd last bit that nothing of the
number's own is, for a number between its neighbours. -/

namespace Sys2Proof.Machine

/-- n is t rounded in a mode, for a number of a sign. -/
def roundsMag (rm : Rm) (s : Bool) (t : ℝ) (n : Nat) : Prop :=
  match rm with
  | .rne => 2 * |t - n| ≤ 1 ∧ (2 * |t - n| = 1 → n % 2 = 0)
  | .rz => n ≤ t ∧ t < n + 1
  | .rd => if s = true then t ≤ n ∧ (n : ℝ) < t + 1 else n ≤ t ∧ t < n + 1
  | .ru => if s = true then n ≤ t ∧ t < n + 1 else t ≤ n ∧ (n : ℝ) < t + 1

/-- m times 2^e stands for the number a where it is rounded to multiples of 2^q. -/
def standsAt (q : Int) (m : Nat) (e : Int) (a : ℝ) : Prop :=
  a = m * (2 : ℝ) ^ e ∨ (m % 2 = 1 ∧ e + 2 ≤ q ∧ ((m : ℝ) - 1) * (2 : ℝ) ^ e < a ∧ a < (m + 1) * (2 : ℝ) ^ e)

/-- The whole quanta below a number, and the number in them. -/
theorem roundsMag_of_floor {rm : Rm} {s up : Bool} {t : ℝ} {n : Nat} (hlo : n ≤ t) (hhi : t < n + 1)
    (hdown : (rm = .rz ∨ (rm = .rd ∧ s = false) ∨ (rm = .ru ∧ s = true)) → up = false)
    (hup : ((rm = .rd ∧ s = true) ∨ (rm = .ru ∧ s = false)) → (up = false ↔ t = n))
    (hnear : rm = .rne → if up = true then 1 ≤ 2 * (t - n) ∧ (2 * (t - n) = 1 → n % 2 = 1) else 2 * (t - n) ≤ 1 ∧ (2 * (t - n) = 1 → n % 2 = 0)) :
    roundsMag rm s t (n + b2n up) := by
  have habs0 : |t - n| = t - n := abs_of_nonneg (by linarith)
  cases rm with
  | rne =>
    have hnear := hnear rfl
    cases up with
    | false =>
      obtain ⟨h1, h2⟩ := hnear
      simp only [roundsMag, b2n, Nat.add_zero, Bool.false_eq_true, if_false, habs0]
      exact ⟨h1, h2⟩
    | true =>
      obtain ⟨h1, h2⟩ := hnear
      have habs1 : |t - ((n + 1 : Nat) : ℝ)| = n + 1 - t := by
        rw [abs_sub_comm, abs_of_nonneg] <;> push_cast <;> linarith
      refine ⟨?_, fun h => ?_⟩
      · rw [show n + b2n true = n + 1 from rfl, habs1]
        linarith
      · rw [show n + b2n true = n + 1 from rfl, habs1] at h
        have := h2 (by linarith)
        change (n + 1) % 2 = 0
        omega
  | rz =>
    obtain rfl := hdown (.inl rfl)
    exact ⟨hlo, hhi⟩
  | rd =>
    cases s with
    | false =>
      obtain rfl := hdown (.inr (.inl ⟨rfl, rfl⟩))
      exact ⟨hlo, hhi⟩
    | true =>
      have h := hup (.inl ⟨rfl, rfl⟩)
      cases up with
      | false => exact ⟨(h.mp rfl).le, (h.mp rfl) ▸ by simp⟩
      | true =>
        have hne : t ≠ n := fun heq => by cases h.mpr heq
        have hgt : (n : ℝ) < t := lt_of_le_of_ne hlo (Ne.symm hne)
        simp only [roundsMag, b2n, if_true]
        push_cast
        exact ⟨hhi.le, by linarith⟩
  | ru =>
    cases s with
    | true =>
      obtain rfl := hdown (.inr (.inr ⟨rfl, rfl⟩))
      exact ⟨hlo, hhi⟩
    | false =>
      have h := hup (.inr ⟨rfl, rfl⟩)
      cases up with
      | false => exact ⟨(h.mp rfl).le, (h.mp rfl) ▸ by simp⟩
      | true =>
        have hne : t ≠ n := fun heq => by cases h.mpr heq
        have hgt : (n : ℝ) < t := lt_of_le_of_ne hlo (Ne.symm hne)
        simp only [roundsMag, b2n, Bool.false_eq_true, if_false, if_true]
        push_cast
        exact ⟨hhi.le, by linarith⟩

/-- A magnitude over a power of two: the quotient is the floor, and the remainder says which way to round. -/
theorem roundsMag_div {rm : Rm} {s : Bool} {m k : Nat} {a : ℝ} (hk : 0 < k)
    (ha : a = m ∨ (m % 2 = 1 ∧ 2 ≤ k ∧ (m : ℝ) - 1 < a ∧ a < m + 1)) :
    roundsMag rm s (a / 2 ^ k) (m / 2 ^ k + b2n (roundsUp rm s (m / 2 ^ k) (m % 2 ^ k) k)) := by
  obtain ⟨d, hd⟩ : ∃ d, 2 ^ k = 2 * d := ⟨2 ^ (k - 1), by rw [← Nat.pow_succ']; congr 1; omega⟩
  have hd0 : 0 < d := by have : 0 < 2 ^ k := by positivity
                         omega
  have hdr : (2 : ℝ) ^ k = 2 * d := by exact_mod_cast hd
  have hdpos : (0 : ℝ) < d := by exact_mod_cast hd0
  generalize hn : m / 2 ^ k = n
  generalize hr : m % 2 ^ k = r
  have hm : m = 2 * d * n + r := by rw [← hn, ← hr, ← hd, Nat.div_add_mod]
  have hrlt : r < 2 * d := by rw [← hr, ← hd]; exact Nat.mod_lt _ (by positivity)
  have hmr : (m : ℝ) = 2 * d * n + r := by exact_mod_cast hm
  have hrest : 0 ≤ a - 2 * d * n ∧ a - 2 * d * n < 2 * d ∧ (r = 0 ↔ a - 2 * d * n = 0) ∧ (d < r → d < a - 2 * d * n) ∧ (r < d → a - 2 * d * n < d) ∧
      (r = d → a - 2 * d * n = d) := by
    rcases ha with rfl | ⟨hodd, hk2, hlo, hhi⟩
    · rw [hmr, add_sub_cancel_left]
      exact ⟨by positivity, by exact_mod_cast hrlt, by exact_mod_cast Iff.rfl, fun h => by exact_mod_cast h, fun h => by exact_mod_cast h,
        fun h => by exact_mod_cast h⟩
    · obtain ⟨d', hd'⟩ : ∃ d', d = 2 * d' := ⟨2 ^ (k - 2), by
        have : 2 ^ k = 2 * (2 * 2 ^ (k - 2)) := by rw [← Nat.pow_succ', ← Nat.pow_succ']; congr 1; omega
        omega⟩
      have hrodd : r % 2 = 1 := by
        rw [hm, hd', Nat.mul_assoc, Nat.mul_assoc, Nat.mul_add_mod] at hodd
        exact hodd
      have hr1 : (1 : ℝ) ≤ r := by exact_mod_cast (show 1 ≤ r by omega)
      have hr2 : (r : ℝ) + 1 ≤ 2 * d := by exact_mod_cast (show r + 1 ≤ 2 * d by omega)
      refine ⟨by linarith, by linarith, ⟨fun h => by omega, fun h => by linarith⟩, fun h => ?_, fun h => ?_, fun h => by omega⟩
      · have : (d : ℝ) + 1 ≤ r := by exact_mod_cast h
        linarith
      · have : (r : ℝ) + 1 ≤ d := by exact_mod_cast h
        linarith
  obtain ⟨h0, h1, hzero, habove, hbelow, hhalf⟩ := hrest
  have hscale : 2 * (a / 2 ^ k - n) = (a - 2 * d * n) / d := by
    rw [hdr]
    field_simp
  have hone : ∀ y : ℝ, (1 ≤ y / d ↔ d ≤ y) ∧ (y / d ≤ 1 ↔ y ≤ d) ∧ (y / d = 1 ↔ y = d) := fun y =>
    ⟨one_le_div₀ hdpos, div_le_one₀ hdpos, div_eq_one_iff_eq hdpos.ne'⟩
  refine roundsMag_of_floor ?_ ?_ ?_ ?_ ?_
  · rw [le_div_iff₀ (by positivity), hdr]
    linarith
  · rw [div_lt_iff₀ (by positivity), hdr]
    linarith
  · rintro (rfl | ⟨rfl, rfl⟩ | ⟨rfl, rfl⟩) <;> rfl
  · have hiff : (decide (r ≠ 0) = false ↔ a / 2 ^ k = n) := by
      rw [decide_eq_false_iff_not, not_not, hzero, div_eq_iff (by positivity), hdr, sub_eq_zero, mul_comm (n : ℝ)]
    rintro (⟨rfl, rfl⟩ | ⟨rfl, rfl⟩)
    · exact hiff
    · exact hiff
  · rintro rfl
    rw [hscale, (hone _).1, (hone _).2.1, (hone _).2.2]
    simp only [roundsUp, hd]
    rcases Nat.lt_trichotomy r d with hlt | rfl | hgt
    · rw [decide_eq_false (show ¬ 2 * r > 2 * d by omega), decide_eq_false (show ¬ 2 * r = 2 * d by omega)]
      have := hbelow hlt
      exact ⟨this.le, fun h => absurd h this.ne⟩
    · rw [decide_eq_false (show ¬ 2 * r > 2 * r by omega), decide_eq_true (show 2 * r = 2 * r from rfl), decide_eq_true (show k ≠ 0 by omega)]
      have := hhalf rfl
      by_cases hn2 : n % 2 = 1
      · rw [decide_eq_true hn2]
        exact ⟨this.ge, fun _ => hn2⟩
      · rw [decide_eq_false hn2]
        exact ⟨this.le, fun _ => by omega⟩
    · rw [decide_eq_true (show 2 * r > 2 * d by omega)]
      have := habove hgt
      exact ⟨this.le, fun h => absurd h this.ne'⟩

/-- A magnitude rounded to a multiple of a quantum (R108). -/
theorem roundsMag_roundAt (rm : Rm) (s : Bool) {m : Nat} {e q : Int} {a : ℝ} (ha : standsAt q m e a) :
    roundsMag rm s (a / (2 : ℝ) ^ q) (roundAt rm s m e q).1 := by
  unfold roundAt alignTo
  have he0 : (0 : ℝ) < (2 : ℝ) ^ e := by positivity
  split
  · rename_i hqe
    rcases ha with rfl | ⟨-, hlt, -⟩
    · obtain ⟨k, hk⟩ : ∃ k : Nat, e = q + k := ⟨(e - q).toNat, by omega⟩
      have ht : m * (2 : ℝ) ^ e / (2 : ℝ) ^ q = ((m * 2 ^ k : Nat) : ℝ) := by
        rw [hk, zpow_add₀ (by norm_num), zpow_natCast, ← mul_assoc, mul_right_comm, mul_div_cancel_right₀ _ (by positivity)]
        push_cast
        rfl
      have hup : roundsUp rm s (m * 2 ^ k) 0 0 = false := by
        cases rm <;> cases s <;> simp [roundsUp]
      dsimp only
      rw [show (e - q).toNat = k by omega, ht, hup]
      exact roundsMag_of_floor le_rfl (by linarith) (fun _ => rfl) (fun _ => ⟨fun _ => rfl, fun _ => rfl⟩) fun _ => by norm_num
    · omega
  · rename_i hqe
    dsimp only
    obtain ⟨k, hk⟩ : ∃ k : Nat, q = e + k := ⟨(q - e).toNat, by omega⟩
    have hk0 : 0 < k := by omega
    rw [show (q - e).toNat = k by omega]
    have hdiv : a / (2 : ℝ) ^ q = a / (2 : ℝ) ^ e / 2 ^ k := by
      rw [hk, zpow_add₀ (by norm_num), zpow_natCast, div_div]
    rw [hdiv]
    refine roundsMag_div hk0 (ha.imp (fun h => ?_) fun ⟨hodd, hle, hlo, hhi⟩ => ⟨hodd, by omega, ?_, ?_⟩)
    · rw [h, mul_div_cancel_right₀ _ he0.ne']
    · rwa [lt_div_iff₀ he0]
    · rwa [div_lt_iff₀ he0]

end Sys2Proof.Machine
end

section
/-! Rounding once to a format: the code of the rounded magnitude in the sequence of all magnitudes (R108). -/

namespace Sys2Proof.Machine

/-- Code k is that of the magnitude a rounded among all magnitudes of the sequence, for a number of a sign. -/
def Fmt.roundsIdx (f : Fmt) (rm : Rm) (s : Bool) (a : ℝ) (k : Nat) : Prop :=
  match rm with
  | .rne => ∀ j, |a - f.mag k| ≤ |a - f.mag j| ∧ (|a - f.mag k| = |a - f.mag j| → j ≠ k → k % 2 = 0)
  | .rz => f.mag k ≤ a ∧ ∀ j, f.mag j ≤ a → j ≤ k
  | .rd => if s = true then a ≤ f.mag k ∧ ∀ j, a ≤ f.mag j → k ≤ j else f.mag k ≤ a ∧ ∀ j, f.mag j ≤ a → j ≤ k
  | .ru => if s = true then f.mag k ≤ a ∧ ∀ j, f.mag j ≤ a → j ≤ k else a ≤ f.mag k ∧ ∀ j, a ≤ f.mag j → k ≤ j

/-- A number rounded to a multiple of the quantum at its place has the code of the rounded magnitude. -/
theorem Fmt.roundsIdx_of_mag {f : Fmt} (hf : f.Sound) {rm : Rm} {s : Bool} {a : ℝ} {ex n : Nat} (ha : 0 ≤ a)
    (hlo : ex = 0 ∨ (2 ^ f.mb : ℝ) ≤ a / (2 : ℝ) ^ (f.emin + (ex : Int))) (hhi : a / (2 : ℝ) ^ (f.emin + (ex : Int)) < 2 * 2 ^ f.mb)
    (hn : roundsMag rm s (a / (2 : ℝ) ^ (f.emin + (ex : Int))) n) : f.roundsIdx rm s a (ex * 2 ^ f.mb + n) := by
  have hmag := fun i => f.mag_at (ex := ex) (i := i)
  have hu : (0 : ℝ) < (2 : ℝ) ^ (f.emin + (ex : Int)) := by positivity
  generalize (2 : ℝ) ^ (f.emin + (ex : Int)) = u at *
  obtain ⟨t, rfl⟩ : ∃ t, a = t * u := ⟨a / u, (div_mul_cancel₀ a hu.ne').symm⟩
  rw [mul_div_cancel_right₀ _ hu.ne'] at hlo hhi hn
  have ht : 0 ≤ t := nonneg_of_mul_nonneg_left ha hu
  obtain ⟨i, hi1, hi2⟩ : ∃ i : Nat, (i : ℝ) ≤ t ∧ t < i + 1 := ⟨⌊t⌋₊, Nat.floor_le ht, Nat.lt_floor_add_one t⟩
  have hihi : i < 2 * 2 ^ f.mb := by exact_mod_cast hi1.trans_lt hhi
  have hilo : ex = 0 ∨ 2 ^ f.mb ≤ i := hlo.imp id fun h => by
    have : (2 ^ f.mb : ℝ) < i + 1 := h.trans_lt hi2
    exact Nat.lt_succ_iff.mp (by exact_mod_cast this)
  have hm0 : f.mag (ex * 2 ^ f.mb + i) = i * u := hmag i hilo hihi.le
  have hm1 : f.mag (ex * 2 ^ f.mb + (i + 1)) = (i + 1) * u := by
    rw [hmag (i + 1) (hilo.imp id fun h => by omega) hihi]
    push_cast
    rfl
  have hbelow : ∀ j, f.mag j ≤ t * u → j ≤ ex * 2 ^ f.mb + i := fun j hj => by
    by_contra hgt
    have := f.mag_strictMono.monotone (show ex * 2 ^ f.mb + (i + 1) ≤ j by omega)
    rw [hm1] at this
    nlinarith
  have hle : i * u ≤ t * u := by nlinarith
  have hdown : (n : ℝ) ≤ t ∧ t < n + 1 → f.mag (ex * 2 ^ f.mb + n) ≤ t * u ∧ ∀ j, f.mag j ≤ t * u → j ≤ ex * 2 ^ f.mb + n := fun ⟨h1, h2⟩ => by
    obtain rfl : n = i := by
      have h3 : n < i + 1 := by exact_mod_cast h1.trans_lt hi2
      have h4 : i < n + 1 := by exact_mod_cast hi1.trans_lt h2
      omega
    exact ⟨hm0.trans_le hle, hbelow⟩
  have hup : t ≤ n ∧ (n : ℝ) < t + 1 → t * u ≤ f.mag (ex * 2 ^ f.mb + n) ∧ ∀ j, t * u ≤ f.mag j → ex * 2 ^ f.mb + n ≤ j := fun ⟨h1, h2⟩ => by
    have h3 : i ≤ n := by exact_mod_cast hi1.trans h1
    have h4 : n < i + 2 := by
      have : (n : ℝ) < i + 2 := by linarith
      exact_mod_cast this
    obtain rfl | rfl : n = i ∨ n = i + 1 := by omega
    · obtain rfl : t = n := le_antisymm h1 hi1
      exact ⟨hm0.ge, fun j hj => f.mag_strictMono.le_iff_le.mp (hm0.trans_le hj)⟩
    · have hne : (i : ℝ) < t := by
        push_cast at h2
        linarith
      refine ⟨by rw [hm1]; nlinarith, fun j hj => ?_⟩
      by_contra hlt
      have := f.mag_strictMono.monotone (show j ≤ ex * 2 ^ f.mb + i by omega)
      rw [hm0] at this
      nlinarith
  cases rm with
  | rz => exact hdown hn
  | rd =>
    cases s with
    | false => exact hdown hn
    | true => exact hup hn
  | ru =>
    cases s with
    | false => exact hup hn
    | true => exact hdown hn
  | rne =>
    obtain ⟨hclose, heven⟩ := hn
    have heven2 : ∀ k, (ex * 2 ^ f.mb + k) % 2 = k % 2 := fun k => by
      obtain ⟨d, hd⟩ : ∃ d, 2 ^ f.mb = 2 * d := ⟨2 ^ (f.mb - 1), by rw [← Nat.pow_succ']; congr 1; have := hf.mb; omega⟩
      rw [hd, show ex * (2 * d) + k = 2 * (ex * d) + k by ring, Nat.mul_add_mod]
    -- every magnitude lies at or below the whole quanta, or at or above one more
    have hfar : ∀ j, (j ≤ ex * 2 ^ f.mb + i ∧ (t - i) * u ≤ |t * u - f.mag j| ∧ ((t - i) * u = |t * u - f.mag j| → j = ex * 2 ^ f.mb + i)) ∨
        (ex * 2 ^ f.mb + (i + 1) ≤ j ∧ (i + 1 - t) * u ≤ |t * u - f.mag j| ∧ ((i + 1 - t) * u = |t * u - f.mag j| → j = ex * 2 ^ f.mb + (i + 1))) :=
        fun j => by
      rcases Nat.lt_or_ge (ex * 2 ^ f.mb + i) j with hj | hj
      · right
        have hmono := f.mag_strictMono.monotone (show ex * 2 ^ f.mb + (i + 1) ≤ j by omega)
        rw [hm1] at hmono
        have habs : |t * u - f.mag j| = f.mag j - t * u := by
          rw [abs_sub_comm, abs_of_nonneg]
          nlinarith
        rw [habs]
        refine ⟨by omega, by linarith, fun heq => ?_⟩
        exact f.mag_strictMono.injective (by rw [hm1]; linarith)
      · left
        have hmono := f.mag_strictMono.monotone hj
        rw [hm0] at hmono
        have habs : |t * u - f.mag j| = t * u - f.mag j := abs_of_nonneg (by linarith)
        rw [habs]
        refine ⟨hj, by linarith, fun heq => ?_⟩
        exact f.mag_strictMono.injective (by rw [hm0]; linarith)
    have hn01 : n = i ∨ n = i + 1 := by
      obtain ⟨h1, h2⟩ := abs_le.mp (show |t - n| ≤ 1 / 2 by linarith)
      have h3 : (n : ℝ) < i + 2 := by linarith
      have h4 : (i : ℝ) < n + 1 := by linarith
      have h3' : n < i + 2 := by exact_mod_cast h3
      have h4' : i < n + 1 := by exact_mod_cast h4
      omega
    intro j
    rcases hn01 with rfl | rfl
    · rw [abs_of_nonneg (by linarith : 0 ≤ t - n)] at hclose heven
      have hself : |t * u - f.mag (ex * 2 ^ f.mb + n)| = (t - n) * u := by rw [hm0, ← sub_mul, abs_of_nonneg (by nlinarith)]
      rw [hself, heven2]
      rcases hfar j with ⟨-, hd, heq⟩ | ⟨-, hd, heq⟩
      · exact ⟨hd, fun h hne => absurd (heq h) hne⟩
      · refine ⟨le_trans (by nlinarith) hd, fun h _ => heven ?_⟩
        have : (t - n) * u = (n + 1 - t) * u := le_antisymm (by nlinarith) (by linarith)
        have := mul_right_cancel₀ hu.ne' this
        linarith
    · have habs : |t - ((i + 1 : Nat) : ℝ)| = i + 1 - t := by
        rw [abs_sub_comm, abs_of_nonneg] <;> push_cast <;> linarith
      rw [habs] at hclose heven
      have hself : |t * u - f.mag (ex * 2 ^ f.mb + (i + 1))| = (i + 1 - t) * u := by
        rw [hm1, abs_sub_comm, ← sub_mul, abs_of_nonneg (by nlinarith)]
      rw [hself, heven2]
      rcases hfar j with ⟨-, hd, heq⟩ | ⟨-, hd, heq⟩
      · refine ⟨le_trans (by nlinarith) hd, fun h _ => heven ?_⟩
        have : (i + 1 - t) * u = (t - i) * u := le_antisymm (by nlinarith) (by linarith)
        have := mul_right_cancel₀ hu.ne' this
        linarith
      · exact ⟨hd, fun h hne => absurd (heq h) hne⟩

end Sys2Proof.Machine
end

section
/-! A finite value rounded once to a format (R108, R110, R116). -/

namespace Sys2Proof.Machine

/-- m times 2^e stands for the number a: exactly, or as an odd number of many bits between whose neighbours a lies. -/
def standsFor (m : Nat) (e : Int) (a : ℝ) : Prop :=
  a = m * (2 : ℝ) ^ e ∨ (m % 2 = 1 ∧ 2 ^ 40 ≤ m ∧ ((m : ℝ) - 1) * (2 : ℝ) ^ e < a ∧ a < (m + 1) * (2 : ℝ) ^ e)

theorem standsFor.nonneg {m : Nat} {e : Int} {a : ℝ} (h : standsFor m e a) : 0 ≤ a := by
  have he : (0 : ℝ) < (2 : ℝ) ^ e := by positivity
  rcases h with rfl | ⟨-, hm, hlo, -⟩
  · positivity
  · have : (1 : ℝ) ≤ m := by exact_mod_cast (show 1 ≤ m by omega)
    exact (mul_nonneg (by linarith) he.le).trans hlo.le

theorem standsFor.eq_zero_iff {m : Nat} {e : Int} {a : ℝ} (h : standsFor m e a) : a = 0 ↔ m = 0 := by
  have he : (0 : ℝ) < (2 : ℝ) ^ e := by positivity
  rcases h with rfl | ⟨-, hm, hlo, -⟩
  · simp [he.ne']
  · have : (2 : ℝ) ≤ m := by exact_mod_cast (show 2 ≤ m by omega)
    have : 0 < a := (mul_pos (by linarith) he).trans hlo
    constructor
    · intro h
      exact absurd h this.ne'
    · omega

/-- The place of the leading bit. -/
theorem standsFor.top {m : Nat} {e : Int} {a : ℝ} (h : standsFor m e a) (hm : m ≠ 0) :
    (2 : ℝ) ^ ((Nat.log2 m : Int) + e) ≤ a ∧ a < (2 : ℝ) ^ ((Nat.log2 m : Int) + e + 1) := by
  have he : (0 : ℝ) < (2 : ℝ) ^ e := by positivity
  have hlo : 2 ^ Nat.log2 m ≤ m := Nat.log2_self_le hm
  have hhi : m < 2 ^ (Nat.log2 m + 1) := Nat.lt_log2_self
  rw [add_right_comm, zpow_add₀ (by norm_num), zpow_add₀ (by norm_num : (2 : ℝ) ≠ 0) _ e, ← Nat.cast_succ, zpow_natCast, zpow_natCast]
  rcases h with rfl | ⟨hodd, hm40, h1, h2⟩
  · exact ⟨mul_le_mul_of_nonneg_right (by exact_mod_cast hlo) he.le, mul_lt_mul_of_pos_right (by exact_mod_cast hhi) he⟩
  · have hl : Nat.log2 m ≠ 0 := by
      intro h0
      rw [h0] at hhi
      omega
    obtain ⟨d, hd⟩ : ∃ d, 2 ^ Nat.log2 m = 2 * d := ⟨2 ^ (Nat.log2 m - 1), by rw [← Nat.pow_succ']; congr 1; omega⟩
    rw [Nat.pow_succ] at hhi
    have hlo' : (2 ^ Nat.log2 m : ℝ) ≤ (m : ℝ) - 1 := by
      have : 2 ^ Nat.log2 m + 1 ≤ m := by omega
      have : (2 ^ Nat.log2 m : ℝ) + 1 ≤ m := by exact_mod_cast this
      linarith
    have hhi' : (m : ℝ) + 1 ≤ 2 ^ (Nat.log2 m + 1) := by
      rw [pow_succ]
      exact_mod_cast (show m + 1 ≤ 2 ^ Nat.log2 m * 2 by omega)
    exact ⟨(mul_le_mul_of_nonneg_right hlo' he.le).trans h1.le, h2.trans_le (mul_le_mul_of_nonneg_right hhi' he.le)⟩

/-- What a rounded code becomes: over the largest code an infinity or the largest, under FTZ a zero for a subnormal one (R108, R110, R116). -/
def Fmt.settleCode (f : Fmt) (rm : Rm) (ov : OverflowTo) (ftz : Bool) (s : Bool) (k : Nat) : Nat :=
  if k > f.maxCode then
    signCode f s + (if (match ov, rm with | .largest, _ => false | .ieee, .rne => true | .ieee, .rz => false | .ieee, .rd => s | .ieee, .ru => !s) = true
      then f.maxCode + 1 else f.maxCode)
  else if ftz && decide (k < 2 ^ f.mb) && decide (k ≠ 0) then signCode f s
  else signCode f s + k

/-- A finite value is delivered as the code of its rounded magnitude (R108). -/
theorem Fmt.roundFin_code {f : Fmt} (hf : f.Sound) (hmb : f.mb ≤ 38) (rm : Rm) (ov : OverflowTo) (ftz s : Bool) {m : Nat} {e : Int} {a : ℝ}
    (h : standsFor m e a) : ∃ k, f.roundsIdx rm s a k ∧ (f.roundFin rm ov ftz s m e).1 = f.settleCode rm ov ftz s k := by
  unfold Fmt.roundFin
  split
  · rename_i hm
    obtain rfl := h.eq_zero_iff.mpr hm
    refine ⟨0, ?_, ?_⟩
    · have hzero : roundsMag rm s (0 / (2 : ℝ) ^ (f.emin + ((0 : Nat) : Int))) 0 := by
        cases rm <;> cases s <;> simp [roundsMag]
      have := Fmt.roundsIdx_of_mag hf (ex := 0) le_rfl (.inl rfl) (by rw [zero_div]; positivity) hzero
      rwa [Nat.zero_mul] at this
    · simp [Fmt.settleCode]
  · rename_i hm
    extract_lets top q
    obtain ⟨htop1, htop2⟩ := h.top hm
    have hq : f.emin + ((q - f.emin).toNat : Int) = q := by omega
    have hu : (0 : ℝ) < (2 : ℝ) ^ q := by positivity
    refine ⟨(roundAt rm s m e q).1 + (q - f.emin).toNat * 2 ^ f.mb, ?_, ?_⟩
    rotate_left
    · rw [apply_ite Prod.fst, apply_ite Prod.fst]
      rfl
    rw [Nat.add_comm]
    refine Fmt.roundsIdx_of_mag hf h.nonneg ?_ ?_ ?_
    · rw [hq]
      refine (Nat.eq_zero_or_pos (q - f.emin).toNat).imp id fun hpos => ?_
      rw [le_div_iff₀ hu, ← zpow_natCast, ← zpow_add₀ (by norm_num), show (f.mb : Int) + q = top by omega]
      exact htop1
    · rw [hq, div_lt_iff₀ hu, ← pow_succ', ← zpow_natCast, ← zpow_add₀ (by norm_num)]
      refine htop2.trans_le (zpow_le_zpow_right₀ (by norm_num) ?_)
      push_cast
      omega
    · rw [hq]
      refine roundsMag_roundAt rm s (h.imp id fun ⟨hodd, hm40, hlo, hhi⟩ => ⟨hodd, ?_, hlo, hhi⟩)
      have : 40 ≤ Nat.log2 m := (Nat.le_log2 hm).mpr hm40
      omega

end Sys2Proof.Machine
end

section
/-! What a rounded code is to the number that it stands for: the number rounded to the finite numbers of the format, or an overflow (R108, R110, R116). -/

namespace Sys2Proof.Machine

/-! ### Distances to the numbers of a format -/

section
variable {a g : ℝ} (ha : 0 ≤ a) (hg : 0 ≤ g)

theorem abs_sub_same_sign (s : Bool) : |sgn s * a - sgn s * g| = |a - g| := by rw [← mul_sub, abs_mul, abs_sgn, one_mul]

include ha hg

theorem abs_sub_other_sign {s t : Bool} (h : t ≠ s) : |sgn s * a - sgn t * g| = a + g := by
  rw [Bool.eq_not_of_ne h, sgn_not, neg_mul, sub_neg_eq_add, ← mul_add, abs_mul, abs_sgn, one_mul, abs_of_nonneg (add_nonneg ha hg)]

end

theorem abs_sgn_mul (s : Bool) {g : ℝ} (hg : 0 ≤ g) : |sgn s * g| = g := by rw [abs_mul, abs_sgn, one_mul, abs_of_nonneg hg]

theorem signCode_even {f : Fmt} (hf : f.Sound) (s : Bool) (k : Nat) : (signCode f s + k) % 2 = k % 2 := by
  obtain ⟨c, hc⟩ : ∃ c, signCode f s = 2 * c := ⟨b2n s * 2 ^ (f.eb + f.mb - 1), by
    have := hf.mb
    rw [signCode, Nat.mul_left_comm, ← Nat.pow_succ']
    congr 2
    omega⟩
  rw [hc, Nat.mul_add_mod]

/-! ### Finite results -/

/-- The rounded magnitude, where it is finite, is the number rounded. -/
theorem roundsTo_of_idx {f : Fmt} (hf : f.Sound) {rm : Rm} {s : Bool} {a : ℝ} {k : Nat} (ha : 0 ≤ a) (hk : f.roundsIdx rm s a k) (hmax : k ≤ f.maxCode) :
    roundsTo f rm (sgn s * a) (signCode f s + k) := by
  refine ⟨sgn s * f.mag k, (codeReal_iff hf).mpr ⟨s, k, rfl, hmax, rfl⟩, ?_⟩
  have hg := f.mag_nonneg
  have hmono := f.mag_strictMono.monotone
  cases rm with
  | rne =>
    intro d z hz
    obtain ⟨t, j, rfl, -, rfl⟩ := (codeReal_iff hf).mp hz
    rw [abs_sub_same_sign, signCode_even hf]
    by_cases hts : t = s
    · subst hts
      rw [abs_sub_same_sign]
      exact ⟨(hk j).1, fun heq hne => (hk j).2 heq fun hjk => hne (by rw [hjk])⟩
    · rw [abs_sub_other_sign ha (hg j) hts]
      have hzero := hk 0
      rw [f.mag_zero, sub_zero, abs_of_nonneg ha] at hzero
      refine ⟨by linarith [hzero.1, hg j], fun heq _ => ?_⟩
      by_cases hk0 : k = 0
      · rw [hk0]
      · exact hzero.2 (by linarith [hzero.1, hg j]) (Ne.symm hk0)
  | rz =>
    obtain ⟨hle, hlast⟩ := hk
    rw [abs_sgn_mul s (hg k), abs_sgn_mul s ha]
    refine ⟨hle, ?_, fun d z hz _ hza => ?_⟩
    · rw [mul_mul_mul_comm, sgn_mul_self, one_mul]
      exact mul_nonneg ha (hg k)
    · obtain ⟨t, j, rfl, -, rfl⟩ := (codeReal_iff hf).mp hz
      rw [abs_sgn_mul t (hg j)] at hza ⊢
      exact hmono (hlast j hza)
  | rd =>
    cases s with
    | false =>
      obtain ⟨hle, hlast⟩ := hk
      refine ⟨by simpa using hle, fun d z hz hza => ?_⟩
      obtain ⟨t, j, rfl, -, rfl⟩ := (codeReal_iff hf).mp hz
      cases t with
      | false => simpa using hmono (hlast j (by simpa using hza))
      | true =>
        have := hg j
        have := hg k
        simp only [sgn_true, sgn_false]
        linarith
    | true =>
      obtain ⟨hle, hfirst⟩ := hk
      refine ⟨by simpa using hle, fun d z hz hza => ?_⟩
      obtain ⟨t, j, rfl, -, rfl⟩ := (codeReal_iff hf).mp hz
      have hj : a ≤ f.mag j := by
        have := hg j
        cases t <;> simp only [sgn_true, sgn_false] at hza <;> linarith
      have := hmono (hfirst j hj)
      cases t with
      | true => simpa using this
      | false =>
        have h0 : f.mag j = 0 := by
          have := hg j
          simp only [sgn_true, sgn_false] at hza
          linarith
        have := hg k
        simp only [sgn_true, sgn_false]
        linarith
  | ru =>
    cases s with
    | true =>
      obtain ⟨hle, hlast⟩ := hk
      refine ⟨by simpa using hle, fun d z hz hza => ?_⟩
      obtain ⟨t, j, rfl, -, rfl⟩ := (codeReal_iff hf).mp hz
      cases t with
      | true => simpa using hmono (hlast j (by simpa using hza))
      | false =>
        have := hg j
        have := hg k
        simp only [sgn_true, sgn_false]
        linarith
    | false =>
      obtain ⟨hle, hfirst⟩ := hk
      refine ⟨by simpa using hle, fun d z hz hza => ?_⟩
      obtain ⟨t, j, rfl, -, rfl⟩ := (codeReal_iff hf).mp hz
      have hj : a ≤ f.mag j := by
        have := hg j
        cases t <;> simp only [sgn_true, sgn_false] at hza <;> linarith
      have := hmono (hfirst j hj)
      cases t with
      | false => simpa using this
      | true =>
        have h0 : f.mag j = 0 := by
          have := hg j
          simp only [sgn_true, sgn_false] at hza
          linarith
        have := hg k
        simp only [sgn_true, sgn_false]
        linarith

/-! ### Results beyond the largest finite number -/

/-- A magnitude that rounds beyond the largest code is above the largest finite number. -/
theorem Fmt.roundsIdx.above {f : Fmt} {rm : Rm} {s : Bool} {a : ℝ} {k : Nat} (hk : f.roundsIdx rm s a k) (hmax : f.maxCode < k) : f.mag f.maxCode < a := by
  have hlt := f.mag_strictMono hmax
  have hdown : f.mag k ≤ a ∧ (∀ j, f.mag j ≤ a → j ≤ k) → f.mag f.maxCode < a := fun h => hlt.trans_le h.1
  have hup : a ≤ f.mag k ∧ (∀ j, a ≤ f.mag j → k ≤ j) → f.mag f.maxCode < a := fun h => by
    by_contra hle
    exact absurd (h.2 f.maxCode (not_lt.mp hle)) (by omega)
  cases rm with
  | rz => exact hdown hk
  | rd => cases s with
    | false => exact hdown hk
    | true => exact hup hk
  | ru => cases s with
    | false => exact hup hk
    | true => exact hdown hk
  | rne =>
    by_contra hle
    have := (hk f.maxCode).1
    rw [abs_of_nonpos (by linarith), abs_of_nonpos (by linarith)] at this
    linarith

/-- The largest finite number of the sign is the one that a magnitude above it rounds to, in every mode but the one that turns away from zero. -/
theorem roundsTo_max {f : Fmt} (hf : f.Sound) {rm : Rm} {s : Bool} {a : ℝ} (ha : f.mag f.maxCode < a) (hrd : rm = .rd → s = false)
    (hru : rm = .ru → s = true) : roundsTo f rm (sgn s * a) (signCode f s + f.maxCode) := by
  have hg := f.mag_nonneg
  have ha0 : 0 ≤ a := (hg _).trans ha.le
  have hle : ∀ {d z}, codeReal f d z → |z| ≤ f.mag f.maxCode := fun hz => by
    obtain ⟨t, j, rfl, hj, rfl⟩ := (codeReal_iff hf).mp hz
    rw [abs_sgn_mul t (hg j)]
    exact f.mag_strictMono.monotone hj
  refine ⟨sgn s * f.mag f.maxCode, (codeReal_iff hf).mpr ⟨s, _, rfl, le_rfl, rfl⟩, ?_⟩
  cases rm with
  | rne =>
    intro d z hz
    have hzle := abs_le.mp (hle hz)
    have hfar : a - f.mag f.maxCode ≤ |sgn s * a - z| ∧ (a - f.mag f.maxCode = |sgn s * a - z| → z = sgn s * f.mag f.maxCode) := by
      cases s with
      | false =>
        rw [sgn_false, one_mul, one_mul, abs_of_nonneg (by linarith)]
        exact ⟨by linarith, fun h => by linarith⟩
      | true =>
        rw [sgn_true, neg_one_mul, neg_one_mul, abs_of_nonpos (by linarith)]
        exact ⟨by linarith, fun h => by linarith⟩
    rw [abs_sub_same_sign, abs_of_nonneg (by linarith)]
    exact ⟨hfar.1, fun h hne => absurd (hfar.2 h) hne⟩
  | rz =>
    rw [abs_sgn_mul s (hg _), abs_sgn_mul s ha0]
    refine ⟨ha.le, ?_, fun d z hz _ _ => hle hz⟩
    rw [mul_mul_mul_comm, sgn_mul_self, one_mul]
    exact mul_nonneg ha0 (hg _)
  | rd =>
    obtain rfl := hrd rfl
    rw [sgn_false, one_mul, one_mul]
    exact ⟨ha.le, fun d z hz _ => (abs_le.mp (hle hz)).2⟩
  | ru =>
    obtain rfl := hru rfl
    rw [sgn_true, neg_one_mul, neg_one_mul]
    exact ⟨by linarith, fun d z hz _ => (abs_le.mp (hle hz)).1⟩

/-- In the mode that turns away from zero there is no finite number to round to. -/
theorem not_roundsTo {f : Fmt} (hf : f.Sound) {rm : Rm} {s : Bool} {a : ℝ} (ha : f.mag f.maxCode < a)
    (haway : (rm = .rd ∧ s = true) ∨ (rm = .ru ∧ s = false)) (c : Nat) : ¬ roundsTo f rm (sgn s * a) c := by
  rintro ⟨y, hy, hround⟩
  obtain ⟨t, j, rfl, hj, rfl⟩ := (codeReal_iff hf).mp hy
  have hg := f.mag_nonneg j
  have hjm := f.mag_strictMono.monotone hj
  rcases haway with ⟨rfl, rfl⟩ | ⟨rfl, rfl⟩
  · have := hround.1
    cases t <;> simp only [sgn_true, sgn_false] at this <;> linarith
  · have := hround.1
    cases t <;> simp only [sgn_true, sgn_false] at this <;> linarith

end Sys2Proof.Machine
end

section
/-! What the floating-point operations deliver, and what the element formats saturate to (R108, R110, R116). -/

namespace Sys2Proof.Machine

/-! ### Overflow -/

/-- The code above the largest finite one of a format with infinities stands one step further, and is even. -/
theorem Fmt.mag_above {f : Fmt} (hf : f.Sound) (htop : f.top = .ieee) :
    f.mag (f.maxCode + 1) - f.mag f.maxCode = f.mag f.maxCode - f.mag (f.maxCode - 1) ∧ (f.maxCode + 1) % 2 = 0 ∧ 1 ≤ f.maxCode ∧ 2 ^ f.mb ≤ f.maxCode := by
  obtain ⟨d, hd⟩ : ∃ d, 2 ^ f.mb = 2 * d := ⟨2 ^ (f.mb - 1), by rw [← Nat.pow_succ']; congr 1; have := hf.mb; omega⟩
  have hd0 : 0 < 2 ^ f.mb := by positivity
  have heb : 2 ^ 2 ≤ 2 ^ f.eb := Nat.pow_le_pow_right (by norm_num) hf.eb
  obtain ⟨ex, hex⟩ : ∃ ex, 2 ^ f.eb - 1 = ex + 2 := ⟨2 ^ f.eb - 3, by omega⟩
  have hmax : f.maxCode + 1 = ex * 2 ^ f.mb + 2 * 2 ^ f.mb := by
    have hpos : 0 < (2 ^ f.eb - 1) * 2 ^ f.mb := Nat.mul_pos (by omega) hd0
    rw [Fmt.maxCode, htop, ← Nat.add_mul, ← hex]
    exact Nat.sub_add_cancel hpos
  have h0 : f.mag (f.maxCode + 1) = ((2 * 2 ^ f.mb : Nat) : ℝ) * (2 : ℝ) ^ (f.emin + (ex : Int)) := by
    rw [hmax]
    exact f.mag_at (.inr (by omega)) le_rfl
  have h1 : f.mag f.maxCode = ((2 * 2 ^ f.mb - 1 : Nat) : ℝ) * (2 : ℝ) ^ (f.emin + (ex : Int)) := by
    rw [show f.maxCode = ex * 2 ^ f.mb + (2 * 2 ^ f.mb - 1) by omega]
    exact f.mag_at (.inr (by omega)) (by omega)
  have h2 : f.mag (f.maxCode - 1) = ((2 * 2 ^ f.mb - 2 : Nat) : ℝ) * (2 : ℝ) ^ (f.emin + (ex : Int)) := by
    rw [show f.maxCode - 1 = ex * 2 ^ f.mb + (2 * 2 ^ f.mb - 2) by omega]
    exact f.mag_at (.inr (by omega)) (by omega)
  have hex1 : 2 ^ f.mb ≤ ex * 2 ^ f.mb := Nat.le_mul_of_pos_left _ (by omega)
  refine ⟨?_, ?_, by omega, by omega⟩
  · rw [h0, h1, h2, Nat.cast_sub (by omega), Nat.cast_sub (by omega)]
    push_cast
    ring
  · rw [hmax, ← Nat.add_mul, hd, Nat.mul_left_comm]
    exact Nat.mul_mod_right ..

/-- Whether a magnitude beyond the largest becomes an infinity (R108). -/
def toInf (rm : Rm) (s : Bool) : Bool :=
  match rm with
  | .rne => true
  | .rz => false
  | .rd => s
  | .ru => !s

theorem Fmt.settleCode_ieee (f : Fmt) (rm : Rm) (ftz s : Bool) (k : Nat) : f.settleCode rm .ieee ftz s k =
    if k > f.maxCode then signCode f s + (if toInf rm s = true then f.maxCode + 1 else f.maxCode)
    else if ftz && decide (k < 2 ^ f.mb) && decide (k ≠ 0) then signCode f s
    else signCode f s + k := by
  cases rm <;> rfl

/-- The largest finite number and the one below it are what an overflow is measured by (R108). -/
theorem overflows_mag {f : Fmt} (hf : f.Sound) (rm : Rm) (x : ℝ) : overflows f rm x ↔ match rm with
    | .rne => 3 * f.mag f.maxCode - f.mag (f.maxCode - 1) ≤ 2 * |x|
    | .rz => False
    | .rd => x < -f.mag f.maxCode
    | .ru => f.mag f.maxCode < x := by
  have hcode : ∀ j y, j ≤ f.maxCode → (codeReal f j y ↔ y = f.mag j) := fun j y hj => by
    have hself : codeReal f j (f.mag j) := (codeReal_iff hf).mpr ⟨false, j, by simp [signCode, b2n], hj, by simp⟩
    exact ⟨fun hy => isReal_unique hy.2 hself.2, fun h => h ▸ hself⟩
  constructor
  · rintro ⟨t, n, ht, hn, h⟩
    rw [← (hcode _ _ le_rfl).mp ht, ← (hcode _ _ (Nat.sub_le ..)).mp hn]
    exact h
  · exact fun h => ⟨_, _, (hcode _ _ le_rfl).mpr rfl, (hcode _ _ (Nat.sub_le ..)).mpr rfl, h⟩

/-- A number overflows where its magnitude rounds beyond the largest code and the mode does not turn back (R108). -/
theorem overflows_iff {f : Fmt} (hf : f.Sound) (htop : f.top = .ieee) {rm : Rm} {s : Bool} {a : ℝ} {k : Nat} (ha : 0 ≤ a) (hk : f.roundsIdx rm s a k) :
    overflows f rm (sgn s * a) ↔ f.maxCode < k ∧ toInf rm s = true := by
  obtain ⟨hstep, heven, hpos, -⟩ := Fmt.mag_above hf htop
  have hg := f.mag_nonneg
  rw [overflows_mag hf]
  have hbelow : ∀ {j}, ¬ f.maxCode < j → f.mag j ≤ f.mag f.maxCode := fun hj => f.mag_strictMono.monotone (not_lt.mp hj)
  cases rm with
  | rne =>
    simp only [toInf, and_true, abs_sgn_mul s ha]
    constructor
    · intro hover
      by_contra hle
      have hgk := hbelow hle
      have hnear := hk (f.maxCode + 1)
      have hlt := f.mag_lt_succ f.maxCode
      have hdist : |a - f.mag (f.maxCode + 1)| ≤ |a - f.mag k| := by
        rw [abs_of_nonneg (by linarith : 0 ≤ a - f.mag k)]
        exact abs_le.mpr ⟨by linarith, by linarith⟩
      have heq := le_antisymm hnear.1 hdist
      have hpar := hnear.2 heq (by omega)
      -- the two are equally near: the largest code, which is odd
      rw [abs_of_nonneg (by linarith : 0 ≤ a - f.mag k)] at heq
      have hkmax : k = f.maxCode := f.mag_strictMono.injective (le_antisymm hgk (by
        rcases abs_choice (a - f.mag (f.maxCode + 1)) with h | h <;> linarith))
      omega
    · intro hlt
      have habove := hk.above hlt
      have hnear := (hk f.maxCode).1
      have hmono := f.mag_strictMono.monotone (show f.maxCode + 1 ≤ k from hlt)
      rw [abs_of_pos (by linarith : 0 < a - f.mag f.maxCode)] at hnear
      have := (abs_le.mp hnear).1
      linarith
  | rz => simp [toInf]
  | rd =>
    cases s with
    | false =>
      simp only [toInf, sgn_false, one_mul, Bool.false_eq_true, and_false, iff_false]
      have := hg f.maxCode
      linarith
    | true =>
      simp only [toInf, sgn_true, neg_one_mul, neg_lt_neg_iff, and_true]
      exact ⟨fun h => by_contra fun hle => absurd (hk.1.trans (hbelow hle)) (not_le.mpr h), fun h => hk.above h⟩
  | ru =>
    cases s with
    | true =>
      simp only [toInf, sgn_true, neg_one_mul, Bool.not_true, Bool.false_eq_true, and_false, iff_false]
      have := hg f.maxCode
      linarith
    | false =>
      simp only [toInf, sgn_false, one_mul, Bool.not_false, and_true]
      exact ⟨fun h => by_contra fun hle => absurd (hk.1.trans (hbelow hle)) (not_le.mpr h), fun h => hk.above h⟩

/-! ### Delivery -/

/-- The sign of a code is that of its number. -/
theorem signedAs_of {f : Fmt} {s zero : Bool} {a : ℝ} {k : Nat} (ha : 0 ≤ a) (hz : a = 0 → s = zero) (hk : k < 2 ^ (f.eb + f.mb)) :
    signedAs f zero (sgn s * a) (signCode f s + k) := by
  rw [signedAs, (Fmt.fields hk s).1]
  cases s with
  | true =>
    simp only [sgn_true, neg_one_mul]
    exact ⟨fun _ => rfl, fun h => by linarith, fun h => hz (by linarith) ▸ rfl⟩
  | false =>
    simp only [sgn_false, one_mul]
    exact ⟨fun h => by linarith, fun _ => rfl, fun h => hz h ▸ rfl⟩

/-- A finite value is delivered as R108 and R110 say. -/
theorem delivers_roundFin {f : Fmt} (hf : f.Sound) (htop : f.top = .ieee) (hmb : f.mb ≤ 38) (rm : Rm) (ftz : Bool) {s zero : Bool} {m : Nat} {e : Int} {a : ℝ}
    (h : standsFor m e a) (hz : m = 0 → s = zero) :
    delivers f rm ftz zero (sgn s * a) (BitVec.ofNat 64 (f.roundFin rm .ieee ftz s m e).1) := by
  obtain ⟨k, hk, hcode⟩ := Fmt.roundFin_code hf hmb rm .ieee ftz s h
  obtain ⟨-, -, hmax1, hmaxmb⟩ := Fmt.mag_above hf htop
  have hover := overflows_iff hf htop h.nonneg hk
  have hzero : a = 0 → s = zero := fun h0 => hz (h.eq_zero_iff.mp h0)
  have hlt : f.maxCode + 1 < 2 ^ (f.eb + f.mb) := by
    have h1 : 2 ^ 1 ≤ 2 ^ f.eb := Nat.pow_le_pow_right (by norm_num) hf.eb.le
    have hp : 0 < 2 ^ f.mb := by positivity
    have hpos : 0 < (2 ^ f.eb - 1) * 2 ^ f.mb := Nat.mul_pos (by omega) hp
    rw [Fmt.maxCode, htop, Nat.pow_add]
    have : (2 ^ f.eb - 1) * 2 ^ f.mb + 2 ^ f.mb = 2 ^ f.eb * 2 ^ f.mb := by
      rw [← Nat.succ_mul, Nat.succ_eq_add_one, Nat.sub_add_cancel (by omega)]
    dsimp only
    omega
  have hsub : ∀ j, j < 2 ^ (f.eb + f.mb) → f.isSubnormal (signCode f s + j) = (decide (j < 2 ^ f.mb) && decide (j ≠ 0)) ∧
      (j < 2 ^ f.mb → signCode f s + j - (signCode f s + j) % 2 ^ f.mb = signCode f s) := fun j hj => by
    obtain ⟨-, hex, hma, -⟩ := Fmt.fields hj s
    have hp : 0 < 2 ^ f.mb := by positivity
    constructor
    · rw [Fmt.isSubnormal, hex, hma]
      by_cases hjlt : j < 2 ^ f.mb
      · rw [Nat.div_eq_of_lt hjlt, Nat.mod_eq_of_lt hjlt, decide_eq_true hjlt]
        rfl
      · have : j / 2 ^ f.mb ≠ 0 := by
          rw [Ne, Nat.div_eq_zero_iff]
          omega
        rw [decide_eq_false this, decide_eq_false hjlt]
        rfl
    · intro hjlt
      rw [hma, Nat.mod_eq_of_lt hjlt, Nat.add_sub_cancel]
  rw [hcode, Fmt.settleCode_ieee]
  by_cases hkmax : f.maxCode < k
  · rw [if_pos hkmax]
    have hj : (if toInf rm s = true then f.maxCode + 1 else f.maxCode) < 2 ^ (f.eb + f.mb) := by split <;> omega
    refine ⟨_, signedAs_of h.nonneg hzero hj, fun ho => ?_, fun ho => ?_, congrArg _ ?_⟩
    · rw [(Fmt.fields hj s).2.2.2, if_pos (hover.mp ho).2]
    · have hinf : ¬ toInf rm s = true := fun hi => ho (hover.mpr ⟨hkmax, hi⟩)
      rw [if_neg hinf]
      refine roundsTo_max hf (hk.above hkmax) ?_ ?_
      · rintro rfl
        exact Bool.eq_false_iff.mpr hinf
      · rintro rfl
        simpa [toInf] using hinf
    · refine (if_neg fun hflush => ?_).symm
      have hlow := hflush.2
      rw [(hsub _ hj).1, decide_eq_false (by split <;> omega)] at hlow
      cases hlow
  · rw [if_neg hkmax]
    have hj : k < 2 ^ (f.eb + f.mb) := by omega
    refine ⟨_, signedAs_of h.nonneg hzero hj, fun ho => absurd (hover.mp ho).1 hkmax, fun _ => roundsTo_of_idx hf h.nonneg hk (not_lt.mp hkmax), congrArg _ ?_⟩
    rw [(hsub k hj).1]
    by_cases hflush : ftz = true ∧ k < 2 ^ f.mb ∧ k ≠ 0
    · obtain ⟨rfl, hlow, hk0⟩ := hflush
      rw [if_pos (by simp [hlow, hk0]), if_pos (by simp [hlow, hk0]), (hsub k hj).2 hlow]
    · rw [if_neg (by simpa [and_assoc] using hflush), if_neg (by simpa using hflush)]

/-- A finite value saturates as R116 says. -/
theorem saturates_roundFin {f : Fmt} (hf : f.Sound) (hmb : f.mb ≤ 38) (rm : Rm) {s zero : Bool} {m : Nat} {e : Int} {a : ℝ}
    (h : standsFor m e a) (hz : m = 0 → s = zero) : saturates f rm zero (sgn s * a) (f.roundFin rm .largest false s m e).1 := by
  obtain ⟨k, hk, hcode⟩ := Fmt.roundFin_code hf hmb rm .largest false s h
  have hzero : a = 0 → s = zero := fun h0 => hz (h.eq_zero_iff.mp h0)
  have hlt := f.maxCode_lt hf
  have hset : f.settleCode rm .largest false s k = signCode f s + min k f.maxCode := by
    unfold Fmt.settleCode
    by_cases hkmax : f.maxCode < k
    · rw [if_pos hkmax, Nat.min_eq_right hkmax.le]
      rfl
    · rw [if_neg hkmax, Nat.min_eq_left (not_lt.mp hkmax)]
      rfl
  rw [hcode, hset]
  have hj : min k f.maxCode < 2 ^ (f.eb + f.mb) := (Nat.min_le_right ..).trans_lt hlt
  refine ⟨signedAs_of h.nonneg hzero hj, ?_, ?_⟩
  · by_cases hkmax : f.maxCode < k
    · rintro ⟨d, hd⟩
      rw [Nat.min_eq_right hkmax.le]
      have habove := hk.above hkmax
      refine roundsTo_max hf habove ?_ ?_
      · rintro rfl
        exact Bool.eq_false_iff.mpr fun hs => not_roundsTo hf habove (.inl ⟨rfl, hs⟩) d hd
      · rintro rfl
        by_contra hs
        exact not_roundsTo hf habove (.inr ⟨rfl, Bool.eq_false_iff.mpr hs⟩) d hd
    · rw [Nat.min_eq_left (not_lt.mp hkmax)]
      exact fun _ => roundsTo_of_idx hf h.nonneg hk (not_lt.mp hkmax)
  · intro hnone
    rw [(Fmt.fields hj s).2.2.2]
    refine Nat.min_eq_right (le_of_lt (by_contra fun hkmax => ?_))
    exact hnone _ (roundsTo_of_idx hf h.nonneg hk (not_lt.mp hkmax))

end Sys2Proof.Machine
end

section
/-! The exact values of the floating-point operations: products, sums, order and the elementary functions (R111 to R113). -/

namespace Sys2Proof.Machine

/-- A finite value stands for a number. -/
def FpVal.standsAs (v : FpVal) (x : ℝ) : Prop :=
  match v with
  | .fin s m e => ∃ a, standsFor m e a ∧ x = sgn s * a
  | _ => False

theorem standsAs_of_isReal {v : FpVal} {x : ℝ} (h : isReal v x) : v.standsAs x := by
  cases v with
  | nan => exact h.elim
  | inf => exact h.elim
  | fin s m e => exact ⟨_, .inl rfl, (isReal_fin s m e x).mp h⟩

theorem FpVal.exists_fin {v : FpVal} {x : ℝ} (h : isReal v x) : ∃ s m e, v = .fin s m e ∧ x = sgn s * (m * (2 : ℝ) ^ e) := by
  obtain ⟨m, e, hv, hx⟩ := FpVal.eq_fin h
  exact ⟨_, m, e, hv, hx⟩

/-- The sign of a finite value is that of its number. -/
theorem sign_of_isReal {v : FpVal} {x : ℝ} (h : isReal v x) : (0 < x → v.sign = false) ∧ (x < 0 → v.sign = true) := by
  obtain ⟨s, m, e, rfl, rfl⟩ := FpVal.exists_fin h
  have hm : 0 ≤ (m : ℝ) * (2 : ℝ) ^ e := by positivity
  cases s with
  | false =>
    rw [sgn_false, one_mul]
    exact ⟨fun _ => rfl, fun hneg => absurd hneg (not_lt.mpr hm)⟩
  | true =>
    rw [sgn_true, neg_one_mul]
    exact ⟨fun hpos => absurd hpos (by linarith), fun _ => rfl⟩

/-- The formats of the floating-point operations. -/
theorem fp3_sound {ty : DType} (h : ty ∈ fp3) : (tyFmt ty).Sound ∧ (tyFmt ty).top = .ieee ∧ (tyFmt ty).mb ≤ 38 ∧ (tyFmt ty).width ≤ 32 := by
  simp only [fp3, List.mem_cons, List.not_mem_nil, or_false] at h
  rcases h with rfl | rfl | rfl
  all_goals exact ⟨⟨by decide, by decide⟩, by decide, by decide, by decide⟩

/-- A value that stands for a number is delivered as that number. -/
theorem delivers_deliver {f : Fmt} (hf : f.Sound) (htop : f.top = .ieee) (hmb : f.mb ≤ 38) (rm : Rm) (ftz : Bool) {zero : Bool} {v : FpVal} {x : ℝ}
    (h : v.standsAs x) (hz : x = 0 → v.sign = zero) : delivers f rm ftz zero x (BitVec.ofNat 64 (f.deliver rm ftz v).1) := by
  cases v with
  | nan => exact h.elim
  | inf => exact h.elim
  | fin s m e =>
    obtain ⟨a, ha, rfl⟩ := h
    refine delivers_roundFin hf htop hmb rm ftz ha fun hm => hz ?_
    rw [ha.eq_zero_iff.mpr hm, mul_zero]

theorem delivers_finish {ty : DType} (hty : ty ∈ fp3) (p : FpMod) (fl : FpFlags) {zero : Bool} {v : FpVal × FpFlags} {x : ℝ} (h : v.1.standsAs x)
    (hz : x = 0 → v.1.sign = zero) : delivers (tyFmt ty) p.rm p.ftz zero x (finish (tyFmt ty) p fl v).1 := by
  obtain ⟨hf, htop, hmb, -⟩ := fp3_sound hty
  exact delivers_deliver hf htop hmb p.rm p.ftz h hz

/-! ### Products -/

theorem isReal_mulVals {u v : FpVal} {x y : ℝ} (hx : isReal u x) (hy : isReal v y) :
    isReal (mulVals u v).1 (x * y) ∧ (mulVals u v).1.sign = (u.sign != v.sign) := by
  obtain ⟨m, e, hu, rfl⟩ := FpVal.eq_fin hx
  obtain ⟨n, d, hv, rfl⟩ := FpVal.eq_fin hy
  rw [hu, hv]
  refine ⟨(isReal_fin ..).mpr ?_, rfl⟩
  rw [sgn_xor, zpow_add₀ (by norm_num)]
  push_cast
  simp only [FpVal.sign]
  ring

/-! ### Sums -/

/-- A finite term as a number. -/
noncomputable def termReal (t : Bool × Nat × Int) : ℝ := sgn t.1 * (t.2.1 * (2 : ℝ) ^ t.2.2)

theorem signedAt_real (s : Bool) (m : Nat) {e q : Int} (h : q ≤ e) : (signedAt s m e q : ℝ) * (2 : ℝ) ^ q = termReal (s, m, e) := by
  obtain ⟨k, rfl⟩ : ∃ k : Nat, e = q + k := ⟨(e - q).toNat, by omega⟩
  unfold signedAt termReal
  rw [show (q + k - q).toNat = k by omega, zpow_add₀ (by norm_num), zpow_natCast]
  cases s <;> simp <;> ring

theorem leastExp_le (ts : List (Bool × Nat × Int)) : ∀ t ∈ ts, leastExp ts ≤ t.2.2 := by
  induction ts with
  | nil => nofun
  | cons u us ih =>
    cases us with
    | nil =>
      intro t ht
      rw [List.mem_singleton.mp ht]
      exact le_rfl
    | cons w ws =>
      intro t ht
      rw [show leastExp (u :: w :: ws) = min u.2.2 (leastExp (w :: ws)) from rfl]
      rcases List.mem_cons.mp ht with rfl | ht
      · exact min_le_left ..
      · exact (min_le_right ..).trans (ih t ht)

theorem foldl_signedAt {q : Int} {ts : List (Bool × Nat × Int)} (h : ∀ t ∈ ts, q ≤ t.2.2) (z : Int) :
    ((ts.foldl (fun acc t => acc + signedAt t.1 t.2.1 t.2.2 q) z : Int) : ℝ) * (2 : ℝ) ^ q = z * (2 : ℝ) ^ q + (ts.map termReal).sum := by
  induction ts generalizing z with
  | nil => simp
  | cons t ts ih =>
    rw [List.foldl_cons, ih (fun u hu => h u (List.mem_cons_of_mem _ hu)), List.map_cons, List.sum_cons,
      ← signedAt_real t.1 t.2.1 (h t List.mem_cons_self)]
    push_cast
    ring

/-- The exact sum of finite terms, with the sign of an exact zero (R108). -/
theorem isReal_sumFin (rm : Rm) (ts : List (Bool × Nat × Int)) : isReal (sumFin rm ts) (ts.map termReal).sum ∧
    ((ts.map termReal).sum = 0 → (sumFin rm ts).sign = zeroSumSign rm (ts.map (·.1))) := by
  have hsum := foldl_signedAt (leastExp_le ts) 0
  rw [Int.cast_zero, zero_mul, zero_add] at hsum
  unfold sumFin
  extract_lets q z
  have hq : (2 : ℝ) ^ q ≠ 0 := by positivity
  split
  · rename_i hz
    rw [show (ts.foldl (fun acc t => acc + signedAt t.1 t.2.1 t.2.2 (leastExp ts)) 0) = 0 from hz, Int.cast_zero, zero_mul] at hsum
    refine ⟨(isReal_fin ..).mpr ?_, fun _ => rfl⟩
    rw [← hsum]
    simp
  · rename_i hz
    refine ⟨(isReal_fin ..).mpr ?_, fun h0 => ?_⟩
    · rw [← hsum, ← mul_assoc]
      congr 1
      have habs : ((z.natAbs : Nat) : ℝ) = |(z : ℝ)| := by rw [Nat.cast_natAbs, Int.cast_abs]
      rw [habs]
      rcases lt_or_ge z 0 with hneg | hpos
      · rw [decide_eq_true hneg, sgn_true, abs_of_neg (by exact_mod_cast hneg)]
        ring
      · rw [decide_eq_false (not_lt.mpr hpos), sgn_false, abs_of_nonneg (by exact_mod_cast hpos)]
        ring
    · rw [h0] at hsum
      exact absurd (by exact_mod_cast (mul_eq_zero.mp hsum).resolve_right hq) hz

/-- The exact sum of finite values, with the sign of an exact zero (R108, R111). -/
theorem isReal_sumVals (rm : Rm) {vs : List FpVal} {xs : List ℝ} (h : List.Forall₂ isReal vs xs) :
    isReal (sumVals rm vs).1 xs.sum ∧ (xs.sum = 0 → (sumVals rm vs).1.sign = zeroOf rm (vs.map FpVal.sign)) := by
  have hterms : vs.any FpVal.isNan = false ∧ (∀ s, vs.contains (.inf s) = false) ∧ (finTerms vs).map termReal = xs ∧
      (finTerms vs).map (·.1) = vs.map FpVal.sign := by
    induction h with
    | nil => exact ⟨rfl, fun _ => rfl, rfl, rfl⟩
    | cons hx _ ih =>
      obtain ⟨hnan, hinf, hmap, hsign⟩ := ih
      obtain ⟨m, e, hv, rfl⟩ := FpVal.eq_fin hx
      rw [hv]
      refine ⟨by simpa [FpVal.isNan] using hnan, fun s => by simpa using hinf s, ?_, ?_⟩
      · rw [finTerms, List.map_cons, hmap]
        rfl
      · rw [finTerms, List.map_cons, hsign]
        rfl
  obtain ⟨hnan, hinf, hmap, hsign⟩ := hterms
  have hfin : (sumVals rm vs).1 = sumFin rm (finTerms vs) := by
    unfold sumVals
    dsimp only
    rw [hnan, hinf, hinf]
    rfl
  rw [hfin, ← hmap, ← hsign]
  exact isReal_sumFin rm (finTerms vs)

/-! ### Order -/

theorem isReal_compare {u v : FpVal} {x y : ℝ} (hx : isReal u x) (hy : isReal v y) :
    (cmpVals u v = .lt ↔ x < y) ∧ (cmpVals u v = .eq ↔ x = y) ∧ (cmpVals u v = .gt ↔ y < x) := by
  obtain ⟨s, m, e, rfl, rfl⟩ := FpVal.exists_fin hx
  obtain ⟨t, n, d, rfl, rfl⟩ := FpVal.exists_fin hy
  have hq : (0 : ℝ) < (2 : ℝ) ^ min e d := by positivity
  rw [show sgn s * (m * (2 : ℝ) ^ e) = _ from (signedAt_real s m (min_le_left e d)).symm,
    show sgn t * (n * (2 : ℝ) ^ d) = _ from (signedAt_real t n (min_le_right e d)).symm]
  simp only [cmpVals, compare_lt_iff_lt, compare_eq_iff_eq, compare_gt_iff_gt, mul_lt_mul_iff_of_pos_right hq, mul_left_inj' hq.ne', Int.cast_lt, Int.cast_inj,
    and_self]

theorem isNan_of_isReal {v : FpVal} {x : ℝ} (h : isReal v x) : v.isNan = false := by
  cases v with
  | nan => exact h.elim
  | inf => exact h.elim
  | fin => rfl

/-- The lesser or the greater of two finite values; of two zeros the negative one is the lesser (R112). -/
theorem isReal_minMaxNum {u v : FpVal} {x y : ℝ} (hx : isReal u x) (hy : isReal v y) :
    (isReal (minMaxNum false u v) (min x y) ∧ (min x y = 0 → (minMaxNum false u v).sign = (u.sign || v.sign))) ∧
    (isReal (minMaxNum true u v) (max x y) ∧ (max x y = 0 → (minMaxNum true u v).sign = (u.sign && v.sign))) := by
  obtain ⟨hlt, heq, hgt⟩ := isReal_compare hx hy
  have hsu := sign_of_isReal hx
  have hsv := sign_of_isReal hy
  have hpick : ∀ big, minMaxNum big u v = if ((match cmpVals u v with | .lt => true | .gt => false | .eq => u.sign) != big) = true then u else v :=
    fun big => by
      unfold minMaxNum
      rw [isNan_of_isReal hx, isNan_of_isReal hy] <;> rfl
  rw [hpick, hpick]
  cases hc : cmpVals u v with
  | lt =>
    have h := hlt.mp hc
    rw [min_eq_left h.le, max_eq_right h.le]
    refine ⟨⟨hx, fun h0 => ?_⟩, ⟨hy, fun h0 => ?_⟩⟩
    · rw [hsv.1 (by linarith), Bool.or_false]
      rfl
    · rw [hsu.2 (by linarith), Bool.true_and]
      rfl
  | gt =>
    have h := hgt.mp hc
    rw [min_eq_right h.le, max_eq_left h.le]
    refine ⟨⟨hy, fun h0 => ?_⟩, ⟨hx, fun h0 => ?_⟩⟩
    · rw [hsu.1 (by linarith), Bool.false_or]
      rfl
    · rw [hsv.2 (by linarith), Bool.and_true]
      rfl
  | eq =>
    obtain rfl := heq.mp hc
    rw [min_self, max_self]
    cases hs : u.sign with
    | true => exact ⟨⟨hx, fun _ => hs⟩, ⟨hy, fun _ => rfl⟩⟩
    | false => exact ⟨⟨hy, fun _ => rfl⟩, ⟨hx, fun _ => hs⟩⟩

end Sys2Proof.Machine
end

section
/-! Reciprocals, square roots and their reciprocals, which stand for their exact numbers (R113). -/

namespace Sys2Proof.Machine

/-! ### Integer square roots -/

theorem isqrtFrom_spec (n : Nat) : ∀ k r, r * r ≤ n → n < (r + 2 ^ k) * (r + 2 ^ k) →
    isqrtFrom k n r * isqrtFrom k n r ≤ n ∧ n < (isqrtFrom k n r + 1) * (isqrtFrom k n r + 1) := by
  intro k
  induction k with
  | zero => exact fun r hlo hhi => ⟨hlo, hhi⟩
  | succ k ih =>
    intro r hlo hhi
    rw [isqrtFrom]
    split
    next hc => exact ih _ hc (by rwa [Nat.add_assoc, ← Nat.two_mul, ← Nat.pow_succ'])
    next hc => exact ih _ hlo (not_le.mp hc)

theorem isqrt_spec (n : Nat) : isqrt n * isqrt n ≤ n ∧ n < (isqrt n + 1) * (isqrt n + 1) := by
  refine isqrtFrom_spec n _ 0 (Nat.zero_le n) ?_
  rw [Nat.zero_add, ← Nat.pow_add]
  exact Nat.lt_log2_self.trans_le (Nat.pow_le_pow_right (by norm_num) (by omega))

/-- A root that is at least a power of two. -/
theorem le_isqrt {n k : Nat} (h : (2 ^ k + 1) * (2 ^ k + 1) ≤ n) : 2 ^ k ≤ isqrt n := by
  by_contra hlt
  have hle : isqrt n + 1 ≤ 2 ^ k := by omega
  have := (isqrt_spec n).2.trans_le (Nat.mul_le_mul hle hle)
  nlinarith

/-- The root of a real number between two squares of integers. -/
theorem sqrt_between {n : ℝ} {r : Nat} (hlo : (r : ℝ) * r ≤ n) (hhi : n < (r + 1) * (r + 1)) :
    (r : ℝ) ≤ √n ∧ √n < r + 1 ∧ ((r : ℝ) * r = n → √n = r) ∧ ((r : ℝ) * r ≠ n → (r : ℝ) < √n) := by
  have hr : (0 : ℝ) ≤ r := Nat.cast_nonneg r
  have hle : (r : ℝ) ≤ √n := Real.le_sqrt_of_sq_le (by nlinarith)
  refine ⟨hle, (Real.sqrt_lt' (by linarith)).mpr (by nlinarith), fun h => ?_, fun h => lt_of_le_of_ne hle fun heq => h ?_⟩
  · rw [← h, Real.sqrt_mul_self hr]
  · rw [heq, Real.mul_self_sqrt ((mul_nonneg hr hr).trans hlo)]

/-! ### Values between two neighbours -/

theorem standsAs_between {exact : Bool} {s : Bool} {r : Nat} {e : Int} {a : ℝ} (hr : 2 ^ 39 ≤ r) (hexact : exact = true → a = r * (2 : ℝ) ^ e)
    (hnot : exact = false → r * (2 : ℝ) ^ e < a ∧ a < (r + 1) * (2 : ℝ) ^ e) : (between exact s r e).standsAs (sgn s * a) := by
  unfold between
  cases exact with
  | true => exact ⟨a, .inl (hexact rfl), rfl⟩
  | false =>
    obtain ⟨hlo, hhi⟩ := hnot rfl
    have he : (2 : ℝ) ^ e = 2 * (2 : ℝ) ^ (e - 1) := by
      rw [← zpow_one_add₀ (by norm_num)]
      congr 1
      omega
    rw [he] at hlo hhi
    refine ⟨a, .inr ⟨by omega, by omega, ?_, ?_⟩, rfl⟩
    · push_cast
      linarith
    · push_cast
      linarith

theorem sign_between (exact s : Bool) (r : Nat) (e : Int) : (between exact s r e).sign = s := by cases exact <;> rfl

/-! ### Reciprocals -/

/-- A quotient of naturals and its floor. -/
theorem div_floor {k m : Nat} (hm : 0 < m) : ((k / m : Nat) : ℝ) ≤ (k : ℝ) / m ∧ (k : ℝ) / m < ((k / m : Nat) : ℝ) + 1 ∧
    (k % m = 0 ↔ ((k / m : Nat) : ℝ) = (k : ℝ) / m) := by
  have hmr : (0 : ℝ) < m := by exact_mod_cast hm
  have hdm : (m : ℝ) * ((k / m : Nat) : ℝ) + ((k % m : Nat) : ℝ) = k := by exact_mod_cast Nat.div_add_mod k m
  have hmod : ((k % m : Nat) : ℝ) < m := by exact_mod_cast Nat.mod_lt k hm
  have hnn : (0 : ℝ) ≤ ((k % m : Nat) : ℝ) := Nat.cast_nonneg _
  rw [le_div_iff₀ hmr, div_lt_iff₀ hmr, eq_div_iff hmr.ne']
  refine ⟨by linarith, by linarith, ⟨fun h => ?_, fun h => ?_⟩⟩
  · rw [h, Nat.cast_zero] at hdm
    linarith
  · have : ((k % m : Nat) : ℝ) = 0 := by linarith
    exact_mod_cast this

/-- The reciprocal of a finite value (R113). -/
theorem standsAs_recip {s : Bool} {m : Nat} {e : Int} (hm : m ≠ 0) :
    (recipVal s m e).standsAs (1 / (sgn s * (m * (2 : ℝ) ^ e))) ∧ (recipVal s m e).sign = s := by
  have hmr : (0 : ℝ) < m := by exact_mod_cast Nat.pos_of_ne_zero hm
  refine ⟨?_, sign_between ..⟩
  unfold recipVal
  extract_lets k
  have hk : 39 + (Nat.log2 m + 1) ≤ k := by unfold k; omega
  clear_value k
  obtain ⟨hlo, hhi, heq⟩ := div_floor (k := 2 ^ k) (Nat.pos_of_ne_zero hm)
  have hval : 1 / (sgn s * (m * (2 : ℝ) ^ e)) = sgn s * (((2 ^ k : Nat) : ℝ) / m * (2 : ℝ) ^ (-(k : Int) - e)) := by
    have hs : sgn s ≠ 0 := by cases s <;> norm_num
    rw [zpow_sub₀ (by norm_num), zpow_neg, zpow_natCast]
    push_cast
    rw [one_div, mul_inv, mul_inv, show (sgn s)⁻¹ = sgn s from by cases s <;> norm_num]
    field_simp
  rw [hval]
  have hu : (0 : ℝ) < (2 : ℝ) ^ (-(k : Int) - e) := by positivity
  refine standsAs_between ?_ (fun h => ?_) (fun h => ?_)
  · rw [Nat.le_div_iff_mul_le (Nat.pos_of_ne_zero hm)]
    calc 2 ^ 39 * m ≤ 2 ^ 39 * 2 ^ (Nat.log2 m + 1) := Nat.mul_le_mul_left _ Nat.lt_log2_self.le
      _ = 2 ^ (39 + (Nat.log2 m + 1)) := (Nat.pow_add ..).symm
      _ ≤ 2 ^ k := Nat.pow_le_pow_right (by norm_num) hk
  · rw [heq.mp (of_decide_eq_true h)]
  · have hne : ((2 ^ k / m : Nat) : ℝ) ≠ ((2 ^ k : Nat) : ℝ) / m := fun h0 => of_decide_eq_false h (heq.mpr h0)
    exact ⟨mul_lt_mul_of_pos_right (lt_of_le_of_ne hlo hne) hu, mul_lt_mul_of_pos_right hhi hu⟩

/-! ### Square roots -/

theorem evenExp_spec (m : Nat) (e : Int) : ((evenExp m e).1 : ℝ) * (2 : ℝ) ^ (evenExp m e).2 = m * (2 : ℝ) ^ e ∧
    (∃ h, (evenExp m e).2 = 2 * h) ∧ m ≤ (evenExp m e).1 ∧ (evenExp m e).1 ≤ 2 * m := by
  unfold evenExp
  split
  · exact ⟨rfl, ⟨e / 2, by dsimp only; omega⟩, le_rfl, by dsimp only; omega⟩
  · refine ⟨?_, ⟨(e - 1) / 2, by dsimp only; omega⟩, by dsimp only; omega, le_rfl⟩
    rw [zpow_sub_one₀ (by norm_num)]
    push_cast
    ring

/-- The root of a positive value (R113). -/
theorem standsAs_sqrt {m : Nat} {e : Int} (hm : m ≠ 0) :
    (sqrtVal m e).standsAs √(m * (2 : ℝ) ^ e) ∧ (sqrtVal m e).sign = false := by
  refine ⟨?_, sign_between ..⟩
  obtain ⟨hval, ⟨h, hh⟩, hle, -⟩ := evenExp_spec m e
  unfold sqrtVal
  extract_lets p n r
  replace hval : (p.1 : ℝ) * (2 : ℝ) ^ p.2 = m * (2 : ℝ) ^ e := hval
  obtain ⟨hlo, hhi⟩ := isqrt_spec n
  obtain ⟨hle2, hlt2, heq2, hne2⟩ := sqrt_between (n := (n : ℝ)) (r := r) (by exact_mod_cast hlo) (by exact_mod_cast hhi)
  have hroot : √(m * (2 : ℝ) ^ e) = √(n : ℝ) * (2 : ℝ) ^ (p.2 / 2 - 40) := by
    have hu : (0 : ℝ) ≤ (2 : ℝ) ^ (p.2 / 2 - 40) := by positivity
    rw [← hval, ← Real.sqrt_sq hu, ← Real.sqrt_mul (Nat.cast_nonneg n)]
    congr 1
    rw [sq, ← zpow_add₀ (by norm_num), show p.2 / 2 - 40 + (p.2 / 2 - 40) = p.2 - 80 by have : p.2 = 2 * h := hh; omega,
      zpow_sub₀ (by norm_num)]
    have hn : (n : ℝ) = p.1 * 2 ^ 80 := by exact_mod_cast rfl
    rw [hn]
    have : (2 : ℝ) ^ (80 : Int) = 2 ^ 80 := by norm_cast
    rw [this]
    field_simp
  have hu : (0 : ℝ) < (2 : ℝ) ^ (p.2 / 2 - 40) := by positivity
  have hs : √(m * (2 : ℝ) ^ e) = sgn false * √(m * (2 : ℝ) ^ e) := (one_mul _).symm
  rw [hs, hroot]
  refine standsAs_between (le_isqrt (k := 39) ?_) (fun hd => ?_) (fun hd => ?_)
  · have : 1 ≤ p.1 := (Nat.one_le_iff_ne_zero.mpr hm).trans hle
    calc (2 ^ 39 + 1) * (2 ^ 39 + 1) ≤ 1 * 2 ^ 80 := by norm_num
      _ ≤ p.1 * 2 ^ 80 := Nat.mul_le_mul_right _ this
  · rw [heq2 (by exact_mod_cast of_decide_eq_true hd)]
  · exact ⟨mul_lt_mul_of_pos_right (hne2 (by exact_mod_cast of_decide_eq_false hd)) hu, mul_lt_mul_of_pos_right hlt2 hu⟩

/-- The reciprocal of the root of a positive value (R113). -/
theorem standsAs_rsqrt {m : Nat} {e : Int} (hm : m ≠ 0) (hmb : m < 2 ^ 64) :
    (rsqrtVal m e).standsAs (1 / √(m * (2 : ℝ) ^ e)) ∧ (rsqrtVal m e).sign = false := by
  refine ⟨?_, sign_between ..⟩
  obtain ⟨hval, ⟨h, hh⟩, hle, hle2m⟩ := evenExp_spec m e
  unfold rsqrtVal
  extract_lets p r
  replace hval : (p.1 : ℝ) * (2 : ℝ) ^ p.2 = m * (2 : ℝ) ^ e := hval
  have hp : 0 < p.1 := (Nat.pos_of_ne_zero hm).trans_le hle
  have hpr : (0 : ℝ) < p.1 := by exact_mod_cast hp
  obtain ⟨hflo, hfhi, -⟩ := div_floor (k := 2 ^ 200) hp
  obtain ⟨hlo, hhi⟩ := isqrt_spec (2 ^ 200 / p.1)
  have hlo' : (r : ℝ) * r ≤ ((2 ^ 200 : Nat) : ℝ) / p.1 := le_trans (by exact_mod_cast hlo) hflo
  have hhi' : ((2 ^ 200 : Nat) : ℝ) / p.1 < (r + 1) * (r + 1) := hfhi.trans_le (by exact_mod_cast hhi)
  obtain ⟨hle2, hlt2, heq2, hne2⟩ := sqrt_between hlo' hhi'
  have hroot : 1 / √(m * (2 : ℝ) ^ e) = √(((2 ^ 200 : Nat) : ℝ) / p.1) * (2 : ℝ) ^ (-100 - p.2 / 2) := by
    have hu : (0 : ℝ) ≤ (2 : ℝ) ^ (-100 - p.2 / 2) := by positivity
    rw [← hval, ← Real.sqrt_sq hu, ← Real.sqrt_mul (by positivity), ← Real.sqrt_one, ← Real.sqrt_div (by norm_num)]
    congr 1
    rw [sq, ← zpow_add₀ (by norm_num), show -100 - p.2 / 2 + (-100 - p.2 / 2) = -200 - p.2 by have : p.2 = 2 * h := hh; omega,
      zpow_sub₀ (by norm_num), zpow_neg]
    have : (2 : ℝ) ^ (200 : Int) = 2 ^ 200 := by norm_cast
    rw [this]
    push_cast
    field_simp
    norm_num
  have hu : (0 : ℝ) < (2 : ℝ) ^ (-100 - p.2 / 2) := by positivity
  have hs : 1 / √(m * (2 : ℝ) ^ e) = sgn false * (1 / √(m * (2 : ℝ) ^ e)) := (one_mul _).symm
  have hiff : r * r * p.1 = 2 ^ 200 ↔ (r : ℝ) * r = ((2 ^ 200 : Nat) : ℝ) / p.1 := by
    rw [eq_div_iff hpr.ne']
    exact_mod_cast Iff.rfl
  rw [hs, hroot]
  refine standsAs_between (le_isqrt (k := 39) ?_) (fun hd => ?_) (fun hd => ?_)
  · rw [Nat.le_div_iff_mul_le hp]
    have : p.1 ≤ 2 * m := hle2m
    calc (2 ^ 39 + 1) * (2 ^ 39 + 1) * p.1 ≤ (2 ^ 39 + 1) * (2 ^ 39 + 1) * 2 ^ 65 := Nat.mul_le_mul_left _ (by omega)
      _ ≤ 2 ^ 200 := by norm_num
  · rw [heq2 (hiff.mp (of_decide_eq_true hd))]
  · exact ⟨mul_lt_mul_of_pos_right (hne2 fun h0 => of_decide_eq_false hd (hiff.mpr h0)) hu, mul_lt_mul_of_pos_right hlt2 hu⟩

end Sys2Proof.Machine
end

section
/-! The numbers of the codes, and the sources of the operations (R105, R110, R111). -/

namespace Sys2Proof.Machine

/-- The formats that R105 gives. -/
def formats : List Fmt := [fmtF32, fmtF16, fmtBf16, fmtE5m2, fmtE4m3, fmtE3m2, fmtE2m3, fmtE2m1]

theorem formats_sound {f : Fmt} (h : f ∈ formats) : f.Sound ∧ f.mb ≤ 38 ∧ (f.top = .oneNan → f = fmtE4m3) := by
  simp only [formats, List.mem_cons, List.not_mem_nil, or_false] at h
  rcases h with rfl | rfl | rfl | rfl | rfl | rfl | rfl | rfl
  all_goals exact ⟨⟨by decide, by decide⟩, by decide, by decide⟩

/-- A magnitude by its fields, as R105 writes it. -/
theorem Fmt.mag_fraction (f : Fmt) (k : Nat) : f.mag k = if k / 2 ^ f.mb = 0 then (2 : ℝ) ^ (1 - (f.bias : Int)) * (((k % 2 ^ f.mb : Nat) : ℝ) / 2 ^ f.mb)
    else (2 : ℝ) ^ (((k / 2 ^ f.mb : Nat) : Int) - f.bias) * (1 + ((k % 2 ^ f.mb : Nat) : ℝ) / 2 ^ f.mb) := by
  have hp : (2 : ℝ) ^ f.mb ≠ 0 := by positivity
  have hemin : ∀ z : Int, (2 : ℝ) ^ (f.emin + z) = (2 : ℝ) ^ (1 + z - (f.bias : Int)) / 2 ^ f.mb := fun z => by
    rw [Fmt.emin, ← zpow_natCast, ← zpow_sub₀ (by norm_num)]
    congr 1
    ring
  rw [f.mag_fields]
  split
  · have h0 := hemin 0
    rw [add_zero, add_zero] at h0
    rw [h0]
    field_simp
  · rename_i hne
    have hex : (1 : Int) + ((k / 2 ^ f.mb - 1 : Nat) : Int) = ((k / 2 ^ f.mb : Nat) : Int) := by
      generalize k / 2 ^ f.mb = q at hne ⊢
      omega
    rw [hemin, hex]
    push_cast
    field_simp

/-- The first clause of `codeValues`. -/
theorem decode_values {f : Fmt} (h : f ∈ formats) {c : Nat} (hc : c < 2 ^ f.width) :
    let neg := decide (2 ^ (f.eb + f.mb) ≤ c)
    let ex := c / 2 ^ f.mb % 2 ^ f.eb
    let ma := c % 2 ^ f.mb
    let top := decide (f.top = .ieee ∧ ex = 2 ^ f.eb - 1 ∨ f = fmtE4m3 ∧ c % 128 = 127)
    (top = true → f.decode c = if f.top = .ieee ∧ ma = 0 then .inf neg else .nan (decide (f.top = .ieee ∧ ma < 2 ^ (f.mb - 1)))) ∧
    (top = false → (f.decode c).sign = neg ∧ isReal (f.decode c) ((if neg = true then -1 else 1) *
      (if ex = 0 then (2 : ℝ) ^ (1 - (f.bias : Int)) * (ma / 2 ^ f.mb) else (2 : ℝ) ^ ((ex : Int) - f.bias) * (1 + ma / 2 ^ f.mb)))) := by
  intro neg ex ma top
  obtain ⟨hf, -, hone⟩ := formats_sound h
  obtain ⟨s, k, rfl, hk⟩ := f.exists_signed hc
  obtain ⟨-, hex, hma, hlow⟩ := Fmt.fields hk s
  have hneg : neg = s := by
    unfold neg
    cases s with
    | true => exact decide_eq_true (by simp [signCode, b2n])
    | false => exact decide_eq_false (by simpa [signCode, b2n] using hk)
  have htop : top = decide (f.maxCode < k) := by
    unfold top ex
    rw [hex]
    refine decide_eq_decide.mpr ?_
    by_cases he : f = fmtE4m3
    · subst he
      have hmod : (signCode fmtE4m3 s + k) % 128 = k := hlow
      have hmax : fmtE4m3.maxCode = 126 := rfl
      have hlt : k < 128 := hk
      rw [hmod, hmax]
      have hne : fmtE4m3.top ≠ .ieee := by decide
      simp only [hne, false_and, false_or, true_and]
      omega
    · rw [← not_le, Fmt.le_maxCode_iff hf hk]
      have : f.top ≠ .oneNan := fun h1 => he (hone h1)
      simp [he, this]
  rw [show ex = k / 2 ^ f.mb from hex, show ma = k % 2 ^ f.mb from hma, hneg, htop]
  refine ⟨fun h => Fmt.decode_top hf hk (of_decide_eq_true h) s, fun h => ?_⟩
  obtain ⟨hsign, hreal⟩ := Fmt.decode_finite hf (not_lt.mp (of_decide_eq_false h)) s
  rw [f.mag_fraction] at hreal
  exact ⟨hsign, hreal⟩

/-- A source is its code's number after FTZ, abs and neg (R110, R111). -/
theorem source_values {f : Fmt} (ftz abs neg : Bool) {w : W64} {x : ℝ} (hx : isReal (f.decode (w.setWidth f.width).toNat) x) :
    let c := (w.setWidth f.width).toNat
    let y := if ftz = true ∧ f.isSubnormal c = true then 0 else x
    let z := if abs = true then |y| else y
    isReal (f.source ftz abs neg w) (if neg = true then -z else z) ∧ (f.source ftz abs neg w).sign = (neg != (!abs && (f.decode c).sign)) := by
  intro c y z
  obtain ⟨s, m, e, hv, rfl⟩ := FpVal.exists_fin hx
  obtain ⟨n, hn, hy⟩ : ∃ n, (if ftz && f.isSubnormal c then (match f.decode c with | .fin s _ e => FpVal.fin s 0 e | v => v) else f.decode c) = .fin s n e ∧
      y = sgn s * (n * (2 : ℝ) ^ e) := by
    unfold y
    rw [show f.decode c = _ from hv]
    by_cases hflush : ftz = true ∧ f.isSubnormal c = true
    · exact ⟨0, if_pos (by simpa using hflush), by rw [if_pos hflush]; simp⟩
    · exact ⟨m, if_neg (by simpa using hflush), by rw [if_neg hflush]⟩
  have hpos : (0 : ℝ) ≤ n * (2 : ℝ) ^ e := by positivity
  have habs : |y| = n * (2 : ℝ) ^ e := by rw [hy, abs_sgn_mul s hpos]
  have hsource : f.source ftz abs neg w = (if neg then FpVal.neg else id) ((if abs then FpVal.abs else id) (.fin s n e)) := by
    rw [← hn]
    unfold Fmt.source
    cases abs <;> cases neg <;> rfl
  rw [hsource, show (f.decode c).sign = s by rw [show f.decode c = _ from hv]; rfl]
  unfold z
  rw [habs, hy]
  cases abs <;> cases neg <;> simp [FpVal.abs, FpVal.neg, FpVal.sign, isReal_fin, sgn_not]

theorem codeReal_of_decode {f : Fmt} {c m : Nat} {e : Int} {y : ℝ} (hc : c < 2 ^ f.width) (hd : f.decode c = .fin false m e) (hy : y = m * (2 : ℝ) ^ e) :
    codeReal f c y := by
  refine ⟨hc, ?_⟩
  rw [hd, isReal_fin, sgn_false, one_mul, hy]

theorem codeValues_hold : codeValues := by
  refine ⟨fun f hf c hc => decode_values hf hc, ?_, ?_, ?_, ?_, ?_, ?_, ?_, ?_, fun f _ ftz abs neg w x hx => source_values ftz abs neg hx⟩
  · exact codeReal_of_decode (m := 2 ^ 24 - 1) (e := 104) (by decide) (by decide) (by norm_num)
  · exact codeReal_of_decode (m := 2 ^ 11 - 1) (e := 5) (by decide) (by decide) (by norm_num)
  · exact codeReal_of_decode (m := 2 ^ 8 - 1) (e := 120) (by decide) (by decide) (by norm_num)
  · exact codeReal_of_decode (m := 7) (e := 13) (by decide) (by decide) (by norm_num)
  · exact codeReal_of_decode (m := 14) (e := 5) (by decide) (by decide) (by norm_num)
  · exact codeReal_of_decode (m := 7) (e := 2) (by decide) (by decide) (by norm_num)
  · exact codeReal_of_decode (m := 15) (e := -1) (by decide) (by decide) (by norm_num)
  · exact codeReal_of_decode (m := 3) (e := 1) (by decide) (by decide) (by norm_num)

end Sys2Proof.Machine
end

section
/-! Sources as fields of their format, rounding to an integral value, scaling and classing (R110, R112, R115). -/

namespace Sys2Proof.Machine

/-! ### Sources -/

theorem Fmt.decode_fin_lt {f : Fmt} {c : Nat} {s : Bool} {m : Nat} {e : Int} (h : f.decode c = .fin s m e) : m < 2 ^ (f.mb + 1) := by
  have hp : 0 < 2 ^ f.mb := by positivity
  have hmod := Nat.mod_lt c hp
  rw [Nat.pow_succ]
  unfold Fmt.decode at h
  dsimp only at h
  split at h
  · split at h <;> cases h
  · split at h
    · cases h
    · split at h <;> (cases h; omega)

theorem Fmt.isSubnormal_signed {f : Fmt} {k : Nat} (hk : k < 2 ^ (f.eb + f.mb)) (s : Bool) :
    f.isSubnormal (signCode f s + k) = true ↔ k < 2 ^ f.mb ∧ k ≠ 0 := by
  obtain ⟨-, hex, hma, -⟩ := Fmt.fields hk s
  have hp : 0 < 2 ^ f.mb := by positivity
  rw [Fmt.isSubnormal, hex, hma, Bool.and_eq_true, decide_eq_true_eq, decide_eq_true_eq, Nat.div_eq_zero_iff]
  constructor
  · rintro ⟨h, h0⟩
    have hlt : k < 2 ^ f.mb := h.resolve_left hp.ne'
    exact ⟨hlt, by rwa [Nat.mod_eq_of_lt hlt] at h0⟩
  · rintro ⟨hlt, h0⟩
    exact ⟨.inr hlt, by rwa [Nat.mod_eq_of_lt hlt]⟩

theorem Fmt.decode_of_source {f : Fmt} {ftz abs neg : Bool} {w : W64} {x : ℝ} (hx : isReal (f.source ftz abs neg w) x) :
    ∃ y, isReal (f.decode (w.setWidth f.width).toNat) y := by
  unfold Fmt.source at hx
  dsimp only at hx
  generalize f.decode (w.setWidth f.width).toNat = v, (ftz && f.isSubnormal (w.setWidth f.width).toNat) = b at hx ⊢
  cases v with
  | nan => cases b <;> cases abs <;> cases neg <;> simp [isReal, FpVal.abs, FpVal.neg] at hx
  | inf => cases b <;> cases abs <;> cases neg <;> simp [isReal, FpVal.abs, FpVal.neg] at hx
  | fin s m e => exact ⟨_, rfl⟩

/-- A finite source is the number of a finite code, which is zero where FTZ has flushed it. -/
theorem Fmt.source_fin {f : Fmt} (hf : f.Sound) {ftz abs neg : Bool} {w : W64} {x : ℝ} (hx : isReal (f.source ftz abs neg w) x) :
    ∃ s m e t j, f.source ftz abs neg w = .fin s m e ∧ m < 2 ^ (f.mb + 1) ∧ (w.setWidth f.width).toNat = signCode f t + j ∧ j ≤ f.maxCode ∧
      (m : ℝ) * (2 : ℝ) ^ e = f.mag (if ftz = true ∧ f.isSubnormal (signCode f t + j) = true then 0 else j) := by
  obtain ⟨t, j, hc, hj⟩ := f.exists_signed (w.setWidth f.width).isLt
  have hle : j ≤ f.maxCode := by
    by_contra hgt
    obtain ⟨y, hy⟩ := Fmt.decode_of_source hx
    rw [hc, Fmt.decode_top hf hj (not_le.mp hgt) t] at hy
    split at hy <;> exact hy.elim
  obtain ⟨s, m, e, hd, hm⟩ := FpVal.exists_fin (Fmt.decode_finite hf hle t).2
  have hs : s = t := by
    have := (Fmt.decode_finite hf hle t).1
    rwa [hd] at this
  subst hs
  replace hm := mul_left_cancel₀ (by cases s <;> norm_num) hm
  refine ⟨neg != (!abs && s), if ftz = true ∧ f.isSubnormal (signCode f s + j) = true then 0 else m, e, s, j, ?_, ?_, hc, hle, ?_⟩
  · rw [Fmt.source, hc, hd]
    cases ftz <;> cases f.isSubnormal (signCode f s + j) <;> cases abs <;> cases neg <;> simp [FpVal.abs, FpVal.neg]
  · split
    · positivity
    · exact Fmt.decode_fin_lt hd
  · split
    · simp
    · exact hm.symm

/-! ### Integral values -/

/-- At most one integer is a number rounded. -/
theorem integral_unique {rm : Rm} {x : ℝ} {n k : Int} (hn : integral rm x n) (hk : integral rm x k) : n = k := by
  have hfloor : ∀ {y : ℝ} {a b : Int}, (a : ℝ) ≤ y → y < a + 1 → (b : ℝ) ≤ y → y < b + 1 → a = b := fun h1 h2 h3 h4 =>
    le_antisymm (Int.lt_add_one_iff.mp (by exact_mod_cast h1.trans_lt h4)) (Int.lt_add_one_iff.mp (by exact_mod_cast h3.trans_lt h2))
  cases rm with
  | rd => exact hfloor hn.1 hn.2 hk.1 hk.2
  | ru =>
    have := hfloor (y := -x) (a := -n) (b := -k) (by push_cast; linarith [hn.2]) (by push_cast; linarith [hn.1]) (by push_cast; linarith [hk.2])
      (by push_cast; linarith [hk.1])
    omega
  | rz =>
    have htrunc : ∀ {a : Int}, integral .rz x a → (0 ≤ x → (a : ℝ) ≤ x ∧ x < a + 1) ∧ (x ≤ 0 → ((-a : Int) : ℝ) ≤ -x ∧ -x < ((-a : Int) : ℝ) + 1) :=
      fun {a} ⟨h1, h2, h3⟩ => by
        have h1' := abs_lt.mp h1
        push_cast
        constructor
        · intro hx
          rw [abs_of_nonneg hx] at h2
          exact ⟨(le_abs_self _).trans h2, by linarith⟩
        · intro hx
          rw [abs_of_nonpos hx] at h2
          exact ⟨(neg_le_abs _).trans h2, by linarith⟩
    rcases le_total 0 x with h | h
    · obtain ⟨h1, h2⟩ := (htrunc hn).1 h
      obtain ⟨h3, h4⟩ := (htrunc hk).1 h
      exact hfloor h1 h2 h3 h4
    · obtain ⟨h1, h2⟩ := (htrunc hn).2 h
      obtain ⟨h3, h4⟩ := (htrunc hk).2 h
      have := hfloor h1 h2 h3 h4
      omega
  | rne =>
    obtain ⟨hn1, hn2⟩ := hn
    obtain ⟨hk1, hk2⟩ := hk
    have hn' := abs_le.mp (show |x - n| ≤ 1 / 2 by linarith)
    have hk' := abs_le.mp (show |x - k| ≤ 1 / 2 by linarith)
    have hle : n ≤ k + 1 := by exact_mod_cast (show (n : ℝ) ≤ k + 1 by linarith)
    have hge : k ≤ n + 1 := by exact_mod_cast (show (k : ℝ) ≤ n + 1 by linarith)
    have htie : (n : ℝ) - k = 1 ∨ (k : ℝ) - n = 1 → n % 2 = 0 ∧ k % 2 = 0 := by
      rintro (h | h)
      · exact ⟨hn2 (by rw [abs_of_nonpos (by linarith)]; linarith), hk2 (by rw [abs_of_nonneg (by linarith)]; linarith)⟩
      · exact ⟨hn2 (by rw [abs_of_nonneg (by linarith)]; linarith), hk2 (by rw [abs_of_nonpos (by linarith)]; linarith)⟩
    rcases (show n = k ∨ n - k = 1 ∨ k - n = 1 by omega) with h | h | h
    · exact h
    · have := htie (.inl (by exact_mod_cast h))
      omega
    · have := htie (.inr (by exact_mod_cast h))
      omega

/-- A magnitude rounded to a whole number, with its sign. -/
theorem integral_of_roundsMag {rm : Rm} {s : Bool} {a : ℝ} {n : Nat} (ha : 0 ≤ a) (h : roundsMag rm s a n) :
    integral rm (sgn s * a) (if s = true then -(n : Int) else n) := by
  have hn : (0 : ℝ) ≤ n := Nat.cast_nonneg n
  have habs : |sgn s * a - ((if s = true then -(n : Int) else n : Int) : ℝ)| = |a - n| := by
    cases s with
    | false => simp
    | true =>
      rw [← abs_neg]
      congr 1
      simp
      ring
  cases rm with
  | rne =>
    rw [integral, habs]
    refine ⟨h.1, fun ht => ?_⟩
    have := h.2 ht
    cases s <;> simp <;> omega
  | rz =>
    rw [integral, habs]
    refine ⟨abs_lt.mpr ⟨by linarith [h.1], by linarith [h.2]⟩, ?_, ?_⟩
    · rw [abs_sgn_mul s ha]
      cases s <;> simpa using h.1
    · cases s <;> simp <;> positivity
  | rd =>
    cases s with
    | false =>
      obtain ⟨h1, h2⟩ := h
      simp only [integral, sgn_false, Bool.false_eq_true, if_false, Int.cast_natCast]
      exact ⟨by linarith, by linarith⟩
    | true =>
      obtain ⟨h1, h2⟩ := h
      simp only [integral, sgn_true, if_true, Int.cast_neg, Int.cast_natCast]
      exact ⟨by linarith, by linarith⟩
  | ru =>
    cases s with
    | false =>
      obtain ⟨h1, h2⟩ := h
      simp only [integral, sgn_false, Bool.false_eq_true, if_false, Int.cast_natCast]
      exact ⟨by linarith, by linarith⟩
    | true =>
      obtain ⟨h1, h2⟩ := h
      simp only [integral, sgn_true, if_true, Int.cast_neg, Int.cast_natCast]
      exact ⟨by linarith, by linarith⟩

/-- An integer that a value is rounded to is the model's. -/
theorem integral_roundAt {rm : Rm} {s : Bool} {m : Nat} {e : Int} {a : ℝ} (ha : 0 ≤ a) (h : standsAt 0 m e a) {n : Int} (hn : integral rm (sgn s * a) n) :
    n = if s = true then -((roundAt rm s m e 0).1 : Int) else (roundAt rm s m e 0).1 := by
  have hr := roundsMag_roundAt rm s h
  rw [zpow_zero, div_one] at hr
  exact integral_unique hn (integral_of_roundsMag ha hr)

end Sys2Proof.Machine
end

section
/-! Rounding to an integral value, scaling, classing and the elementary functions of a finite source (R112, R113, R115). -/

namespace Sys2Proof.Machine

section
variable {ty : DType} {p : FpMod} {a b : W64} {x : ℝ}

theorem delivers_fpRound (hty : ty ∈ fp3) (hx : isReal (p.a (tyFmt ty) a) x) {n : Int} (hn : integral p.rm x n) :
    delivers (tyFmt ty) p.rm p.ftz (p.a (tyFmt ty) a).sign n (fpRound ty p a).1 := by
  obtain ⟨hf, htop, hmb, -⟩ := fp3_sound hty
  obtain ⟨s, m, e, hv, rfl⟩ := FpVal.exists_fin hx
  have hn' := integral_roundAt (by positivity) (.inl rfl) hn
  have hreal : (n : ℝ) = sgn s * (roundAt p.rm s m e 0).1 := by
    rw [hn']
    cases s <;> simp
  unfold fpRound
  dsimp only
  rw [hv, hreal]
  exact delivers_roundFin hf htop hmb p.rm p.ftz (.inl (by simp)) fun _ => rfl

/-! ### Scaling -/

/-- A magnitude at or above that of a code rounds to the code or above. -/
theorem Fmt.roundsIdx.le_of_mag_le {f : Fmt} {rm : Rm} {s : Bool} {a : ℝ} {k i : Nat} (hk : f.roundsIdx rm s a k) (hi : f.mag i ≤ a) : i ≤ k := by
  have hup : a ≤ f.mag k → i ≤ k := fun h => f.mag_strictMono.le_iff_le.mp (hi.trans h)
  cases rm with
  | rz => exact hk.2 i hi
  | rd => cases s with
    | false => exact hk.2 i hi
    | true => exact hup hk.1
  | ru => cases s with
    | false => exact hup hk.1
    | true => exact hk.2 i hi
  | rne =>
    by_contra hlt
    have hmag := f.mag_strictMono (not_le.mp hlt)
    have := (hk i).1
    rw [abs_of_nonneg (by linarith), abs_of_nonneg (by linarith)] at this
    linarith

/-- Whether a mode turns away from zero for a sign. -/
def away (rm : Rm) (s : Bool) : Bool :=
  match rm with
  | .rne => false
  | .rz => false
  | .rd => s
  | .ru => !s

/-- A magnitude below half the least rounds to zero or to the least, by its mode alone. -/
theorem Fmt.roundsIdx.eq_of_small {f : Fmt} {rm : Rm} {s : Bool} {a : ℝ} {k : Nat} (hk : f.roundsIdx rm s a k) (h0 : 0 < a) (h1 : 2 * a < f.mag 1) :
    k = b2n (away rm s) := by
  have hdown : f.mag k ≤ a → k = 0 := fun h => by
    have : k < 1 := f.mag_strictMono.lt_iff_lt.mp (by linarith)
    omega
  have hup : a ≤ f.mag k → (∀ j, a ≤ f.mag j → k ≤ j) → k = 1 := fun h hj => by
    have hne : k ≠ 0 := by
      rintro rfl
      rw [f.mag_zero] at h
      linarith
    have := hj 1 (by linarith)
    omega
  cases rm with
  | rz => exact hdown hk.1
  | rd => cases s with
    | false => exact hdown hk.1
    | true => exact hup hk.1 hk.2
  | ru => cases s with
    | false => exact hup hk.1 hk.2
    | true => exact hdown hk.1
  | rne =>
    by_contra hne
    have hge : f.mag 1 ≤ f.mag k := f.mag_strictMono.monotone (Nat.one_le_iff_ne_zero.mpr hne)
    have := (hk 0).1
    rw [f.mag_zero, sub_zero, abs_of_pos h0, abs_of_nonpos (by linarith)] at this
    linarith

/-- The magnitudes of the three formats stand between 2^-149 and 2^128. -/
theorem fp3_mag (hty : ty ∈ fp3) : (2 : ℝ) ^ (-149 : Int) ≤ (tyFmt ty).mag 1 ∧ (tyFmt ty).mag ((tyFmt ty).maxCode + 1) ≤ (2 : ℝ) ^ (128 : Int) := by
  have hone : ∀ f : Fmt, f.mag 1 = (2 : ℝ) ^ f.emin := fun f => by
    have hp : 0 < 2 ^ f.mb := by positivity
    have h := f.mag_at (ex := 0) (i := 1) (.inl rfl) (by omega)
    simpa using h
  rw [hone]
  have hlast : ∀ (f : Fmt) (ex : Nat), f.maxCode + 1 = ex * 2 ^ f.mb + 2 ^ f.mb → f.mag (f.maxCode + 1) = (2 : ℝ) ^ (f.emin + (ex : Int) + f.mb) :=
    fun f ex h => by
      rw [h, f.mag_at (.inr le_rfl) (by omega), zpow_add₀ (by norm_num) _ (f.mb : Int), zpow_natCast, mul_comm]
      push_cast
      rfl
  simp only [fp3, List.mem_cons, List.not_mem_nil, or_false] at hty
  rcases hty with rfl | rfl | rfl
  · rw [hlast _ 254 (by decide)]
    exact ⟨zpow_le_zpow_right₀ (by norm_num) (by decide), zpow_le_zpow_right₀ (by norm_num) (by decide)⟩
  · rw [hlast _ 30 (by decide)]
    exact ⟨zpow_le_zpow_right₀ (by norm_num) (by decide), zpow_le_zpow_right₀ (by norm_num) (by decide)⟩
  · rw [hlast _ 254 (by decide)]
    exact ⟨zpow_le_zpow_right₀ (by norm_num) (by decide), zpow_le_zpow_right₀ (by norm_num) (by decide)⟩

/-- Beyond 600 either way a scale no longer matters: the result overflows, or is below half the least number. -/
theorem roundFin_scale (hty : ty ∈ fp3) (rm : Rm) (ftz s : Bool) {m : Nat} {e : Int} (hlo : (2 : ℝ) ^ (-149 : Int) ≤ m * (2 : ℝ) ^ e)
    (hhi : m * (2 : ℝ) ^ e ≤ (2 : ℝ) ^ (128 : Int)) (n : Int) :
    ((tyFmt ty).roundFin rm .ieee ftz s m (e + if n > 600 then 600 else if n < -600 then -600 else n)).1 = ((tyFmt ty).roundFin rm .ieee ftz s m (e + n)).1 := by
  obtain ⟨hf, htop, hmb, -⟩ := fp3_sound hty
  obtain ⟨hleast, hmost⟩ := fp3_mag hty
  have hsplit : ∀ d : Int, (m : ℝ) * (2 : ℝ) ^ (e + d) = m * (2 : ℝ) ^ e * (2 : ℝ) ^ d := fun d => by
    rw [zpow_add₀ (by norm_num), mul_assoc]
  have hcode := fun d : Int => Fmt.roundFin_code hf hmb rm .ieee ftz s (m := m) (e := e + d) (.inl rfl)
  have hlarge : ∀ d : Int, 600 ≤ d → ∃ k, (tyFmt ty).maxCode < k ∧
      ((tyFmt ty).roundFin rm .ieee ftz s m (e + d)).1 = (tyFmt ty).settleCode rm .ieee ftz s k := fun d hd => by
    obtain ⟨k, hk, hc⟩ := hcode d
    refine ⟨k, hk.le_of_mag_le (hmost.trans ?_), hc⟩
    rw [hsplit]
    calc (2 : ℝ) ^ (128 : Int) ≤ (2 : ℝ) ^ (-149 : Int) * (2 : ℝ) ^ d := by
          rw [← zpow_add₀ (by norm_num)]
          exact zpow_le_zpow_right₀ (by norm_num) (by omega)
      _ ≤ _ := mul_le_mul_of_nonneg_right hlo (by positivity)
  have hsmall : ∀ d : Int, d ≤ -600 →
      ((tyFmt ty).roundFin rm .ieee ftz s m (e + d)).1 = (tyFmt ty).settleCode rm .ieee ftz s (b2n (away rm s)) := fun d hd => by
    obtain ⟨k, hk, hc⟩ := hcode d
    have hpos : (0 : ℝ) < m * (2 : ℝ) ^ e := lt_of_lt_of_le (by positivity) hlo
    rw [hc, hk.eq_of_small]
    · rw [hsplit]
      positivity
    · refine lt_of_lt_of_le ?_ hleast
      rw [hsplit]
      calc 2 * (m * (2 : ℝ) ^ e * (2 : ℝ) ^ d) ≤ 2 * ((2 : ℝ) ^ (128 : Int) * (2 : ℝ) ^ d) :=
            mul_le_mul_of_nonneg_left (mul_le_mul_of_nonneg_right hhi (by positivity)) (by norm_num)
        _ = (2 : ℝ) ^ (1 + (128 + d)) := by rw [zpow_add₀ (by norm_num), zpow_add₀ (by norm_num), zpow_one]
        _ < (2 : ℝ) ^ (-149 : Int) := zpow_lt_zpow_right₀ (by norm_num) (by omega)
  by_cases h1 : n > 600
  · rw [if_pos h1]
    obtain ⟨k, hk, hc⟩ := hlarge 600 le_rfl
    obtain ⟨j, hj, hd⟩ := hlarge n h1.le
    rw [hc, hd, Fmt.settleCode_ieee, Fmt.settleCode_ieee, if_pos hk, if_pos hj]
  · rw [if_neg h1]
    by_cases h2 : n < -600
    · rw [if_pos h2, hsmall _ le_rfl, hsmall _ h2.le]
    · rw [if_neg h2]

theorem delivers_fpScale (hty : ty ∈ fp3) (hx : isReal (p.a (tyFmt ty) a) x) :
    delivers (tyFmt ty) p.rm p.ftz (p.a (tyFmt ty) a).sign (x * (2 : ℝ) ^ (b.setWidth 32).toInt) (fpScale ty p a b).1 := by
  obtain ⟨hf, htop, hmb, -⟩ := fp3_sound hty
  obtain ⟨s, m, e, t, j, hv, -, -, hj, hmag⟩ := Fmt.source_fin hf hx
  replace hv : p.a (tyFmt ty) a = .fin s m e := hv
  rw [hv, isReal_fin] at hx
  obtain ⟨hleast, hmost⟩ := fp3_mag hty
  unfold fpScale
  dsimp only
  rw [hv, hx]
  generalize (b.setWidth 32).toInt = n
  have hcode : (finish (tyFmt ty) p (snanFlag [.fin s m e]) (.fin s m (e + if n > 600 then 600 else if n < -600 then -600 else n), 0)).1 =
      BitVec.ofNat 64 ((tyFmt ty).roundFin p.rm .ieee p.ftz s m (e + n)).1 := by
    rcases Nat.eq_zero_or_pos m with rfl | hm
    · unfold finish Fmt.deliver Fmt.roundFin
      rfl
    · refine congrArg (BitVec.ofNat 64) (roundFin_scale hty p.rm p.ftz s ?_ ?_ n)
      · rw [hmag]
        refine hleast.trans ((tyFmt ty).mag_strictMono.monotone (Nat.one_le_iff_ne_zero.mpr fun h0 => ?_))
        rw [h0, Fmt.mag_zero] at hmag
        have : (0 : ℝ) < m * (2 : ℝ) ^ e := by positivity
        linarith
      · rw [hmag]
        refine ((tyFmt ty).mag_strictMono.monotone ?_).trans hmost
        split <;> omega
  rw [hcode, mul_assoc, mul_assoc, ← zpow_add₀ (by norm_num)]
  exact delivers_roundFin hf htop hmb p.rm p.ftz (.inl rfl) fun _ => rfl

/-! ### Classes -/

theorem fpClass_of_isReal (hty : ty ∈ fp3) (hx : isReal (p.a (tyFmt ty) a) x) (hftz : p.ftz = false) : fpClass ty p a =
    (if x = 0 then (if (p.a (tyFmt ty) a).sign = true then 32 else 64)
     else if |x| < (2 : ℝ) ^ (1 - ((tyFmt ty).bias : Int)) then (if (p.a (tyFmt ty) a).sign = true then 16 else 128)
     else (if (p.a (tyFmt ty) a).sign = true then 8 else 256)) := by
  obtain ⟨hf, -⟩ := fp3_sound hty
  obtain ⟨s, m, e, t, j, hv, -, hc, hj, hmag⟩ := Fmt.source_fin hf hx
  replace hv : p.a (tyFmt ty) a = .fin s m e := hv
  rw [hv, isReal_fin] at hx
  rw [hftz, if_neg (by simp)] at hmag
  have hnormal : (2 : ℝ) ^ (1 - ((tyFmt ty).bias : Int)) = (tyFmt ty).mag (2 ^ (tyFmt ty).mb) := by
    have h := (tyFmt ty).mag_at (ex := 0) (i := 2 ^ (tyFmt ty).mb) (.inl rfl) (by omega)
    rw [Nat.zero_mul, Nat.zero_add, Nat.cast_zero, add_zero] at h
    rw [h, Fmt.emin, Nat.cast_pow, Nat.cast_ofNat, ← zpow_natCast, ← zpow_add₀ (by norm_num)]
    congr 1
    ring
  have habs : |x| = (tyFmt ty).mag j := by rw [hx, abs_sgn_mul s (by positivity), hmag]
  have hzero : x = 0 ↔ m = 0 := by
    have he : (2 : ℝ) ^ e ≠ 0 := by positivity
    rw [hx]
    cases s <;> simp [he]
  have hj0 : m = 0 ↔ j = 0 := by
    rw [← hzero, ← abs_eq_zero, habs, ← (tyFmt ty).mag_zero, (tyFmt ty).mag_strictMono.injective.eq_iff]
  have hsub := Fmt.isSubnormal_signed (hj.trans_lt ((tyFmt ty).maxCode_lt hf)) t
  have hlow : |x| < (2 : ℝ) ^ (1 - ((tyFmt ty).bias : Int)) ↔ j < 2 ^ (tyFmt ty).mb := by
    rw [habs, hnormal, (tyFmt ty).mag_strictMono.lt_iff_lt]
  unfold fpClass
  dsimp only
  rw [hv, hc]
  by_cases hm : m = 0
  · cases s <;> simp [hm, hzero.mpr hm, FpVal.sign]
  · have hlt : (tyFmt ty).isSubnormal (signCode (tyFmt ty) t + j) = true ↔ j < 2 ^ (tyFmt ty).mb := by
      rw [hsub, and_iff_left (fun h => hm (hj0.mpr h))]
    by_cases hjlt : j < 2 ^ (tyFmt ty).mb
    · cases s <;> simp [hm, hzero, hlt, hlow, hjlt, FpVal.sign]
    · cases s <;> simp [hm, hzero, hlt, hlow, hjlt, FpVal.sign]

/-! ### The elementary functions -/

theorem delivers_finish_pair (hty : ty ∈ fp3) (v : FpVal) {fl fl' : FpFlags} {zero : Bool} (h : v.standsAs x) (hz : v.sign = zero) :
    delivers (tyFmt ty) p.rm p.ftz zero x (finish (tyFmt ty) p fl (v, fl')).1 :=
  delivers_finish hty p fl h fun _ => hz

theorem delivers_fpElem_rcp (hty : ty ∈ fp3) (hx : isReal (p.a (tyFmt ty) a) x) (h0 : x ≠ 0) :
    delivers (tyFmt ty) p.rm p.ftz (p.a (tyFmt ty) a).sign (1 / x) (fpElem .rcp ty p a).1 := by
  obtain ⟨s, m, e, hv, rfl⟩ := FpVal.exists_fin hx
  have hm : m ≠ 0 := by
    rintro rfl
    simp at h0
  have helem : elemVal .rcp (.fin s m e) = (recipVal s m e, 0) := if_neg hm
  unfold fpElem
  dsimp only
  rw [hv, helem]
  have hrecip := standsAs_recip (s := s) (e := e) hm
  generalize recipVal s m e = v at hrecip ⊢
  exact delivers_finish_pair hty v hrecip.1 hrecip.2

theorem delivers_fpElem_sqrt (hty : ty ∈ fp3) (hx : isReal (p.a (tyFmt ty) a) x) (h0 : 0 < x) :
    delivers (tyFmt ty) p.rm p.ftz (p.a (tyFmt ty) a).sign (Real.sqrt x) (fpElem .sqrt ty p a).1 ∧
    delivers (tyFmt ty) p.rm p.ftz (p.a (tyFmt ty) a).sign (1 / Real.sqrt x) (fpElem .rsq ty p a).1 := by
  obtain ⟨hf, -, hmb, -⟩ := fp3_sound hty
  obtain ⟨s, m, e, -, -, hv, hlt, -⟩ := Fmt.source_fin hf hx
  replace hv : p.a (tyFmt ty) a = .fin s m e := hv
  rw [hv, isReal_fin] at hx
  have hs : s = false := by
    have := (sign_of_isReal ((isReal_fin s m e x).mpr hx)).1 h0
    exact this
  subst hs
  rw [sgn_false, one_mul] at hx
  have hm : m ≠ 0 := by
    rintro rfl
    simp [hx] at h0
  have h64 : m < 2 ^ 64 := hlt.trans_le (Nat.pow_le_pow_right (by norm_num) (by omega))
  have hsqrt_elem : elemVal .sqrt (.fin false m e) = (sqrtVal m e, 0) := if_neg hm
  have hrsq_elem : elemVal .rsq (.fin false m e) = (rsqrtVal m e, 0) := if_neg hm
  unfold fpElem
  dsimp only
  rw [hv, hx, hsqrt_elem, hrsq_elem]
  have hsqrt := standsAs_sqrt (e := e) hm
  have hrsq := standsAs_rsqrt (e := e) hm h64
  generalize sqrtVal m e = u at hsqrt ⊢
  generalize rsqrtVal m e = v at hrsq ⊢
  exact ⟨delivers_finish_pair hty u hsqrt.1 hsqrt.2, delivers_finish_pair hty v hrsq.1 hrsq.2⟩

end

end Sys2Proof.Machine
end

section
/-! The finite results of the floating-point operations (R111 to R115). -/

namespace Sys2Proof.Machine

theorem isReal_neg {v : FpVal} {y : ℝ} (h : isReal v y) : isReal v.neg (-y) ∧ v.neg.sign = !v.sign := by
  obtain ⟨s, m, e, rfl, rfl⟩ := FpVal.exists_fin h
  refine ⟨?_, rfl⟩
  rw [FpVal.neg, isReal_fin, sgn_not, neg_mul]

section
variable {ty : DType} {p : FpMod} {a b c : W64} {x y z : ℝ}

/-! ### Sums, products and the lesser or greater -/

/-- A sum of finite values is delivered. -/
theorem delivers_sumVals (hty : ty ∈ fp3) {vs : List FpVal} {xs : List ℝ} (h : List.Forall₂ isReal vs xs) {fl : FpFlags} :
    delivers (tyFmt ty) p.rm p.ftz (zeroOf p.rm (vs.map FpVal.sign)) xs.sum (finish (tyFmt ty) p fl (sumVals p.rm vs)).1 := by
  obtain ⟨hreal, hsign⟩ := isReal_sumVals p.rm h
  exact delivers_finish hty p fl (standsAs_of_isReal hreal) hsign

theorem delivers_fpAdd (hty : ty ∈ fp3) (hx : isReal (p.a (tyFmt ty) a) x) (hy : isReal (p.b (tyFmt ty) b) y) :
    delivers (tyFmt ty) p.rm p.ftz (zeroOf p.rm [(p.a (tyFmt ty) a).sign, (p.b (tyFmt ty) b).sign]) (x + y) (fpAdd ty p false a b).1 := by
  have h := delivers_sumVals (p := p) hty (.cons hx (.cons hy .nil)) (fl := snanFlag [p.a (tyFmt ty) a, p.b (tyFmt ty) b])
  rwa [List.sum_cons, List.sum_singleton] at h

theorem delivers_fpSub (hty : ty ∈ fp3) (hx : isReal (p.a (tyFmt ty) a) x) (hy : isReal (p.b (tyFmt ty) b) y) :
    delivers (tyFmt ty) p.rm p.ftz (zeroOf p.rm [(p.a (tyFmt ty) a).sign, !(p.b (tyFmt ty) b).sign]) (x - y) (fpAdd ty p true a b).1 := by
  obtain ⟨hneg, hsign⟩ := isReal_neg hy
  have h := delivers_sumVals (p := p) hty (.cons hx (.cons hneg .nil)) (fl := snanFlag [p.a (tyFmt ty) a, p.b (tyFmt ty) b])
  rw [List.sum_cons, List.sum_singleton, List.map_cons, List.map_singleton, hsign, ← sub_eq_add_neg] at h
  exact h

theorem delivers_fpMul (hty : ty ∈ fp3) (hx : isReal (p.a (tyFmt ty) a) x) (hy : isReal (p.b (tyFmt ty) b) y) :
    delivers (tyFmt ty) p.rm p.ftz ((p.a (tyFmt ty) a).sign != (p.b (tyFmt ty) b).sign) (x * y) (fpMul ty p a b).1 := by
  obtain ⟨hreal, hsign⟩ := isReal_mulVals hx hy
  exact delivers_finish hty p _ (standsAs_of_isReal hreal) fun _ => hsign

theorem delivers_fpFma (hty : ty ∈ fp3) (hx : isReal (p.a (tyFmt ty) a) x) (hy : isReal (p.b (tyFmt ty) b) y) (hz : isReal (p.c (tyFmt ty) c) z) :
    delivers (tyFmt ty) p.rm p.ftz (zeroOf p.rm [(p.a (tyFmt ty) a).sign != (p.b (tyFmt ty) b).sign, (p.c (tyFmt ty) c).sign]) (x * y + z)
      (fpFma ty p a b c).1 := by
  obtain ⟨hreal, hsign⟩ := isReal_mulVals hx hy
  have h := delivers_sumVals (p := p) hty (.cons hreal (.cons hz .nil))
    (fl := snanFlag [p.a (tyFmt ty) a, p.b (tyFmt ty) b, p.c (tyFmt ty) c] ||| (mulVals (p.a (tyFmt ty) a) (p.b (tyFmt ty) b)).2)
  rw [List.sum_cons, List.sum_singleton, List.map_cons, List.map_singleton, hsign] at h
  exact h

theorem delivers_fpMinMax (hty : ty ∈ fp3) (hx : isReal (p.a (tyFmt ty) a) x) (hy : isReal (p.b (tyFmt ty) b) y) :
    delivers (tyFmt ty) p.rm p.ftz ((p.a (tyFmt ty) a).sign || (p.b (tyFmt ty) b).sign) (min x y) (fpMinMax ty p false a b).1 ∧
    delivers (tyFmt ty) p.rm p.ftz ((p.a (tyFmt ty) a).sign && (p.b (tyFmt ty) b).sign) (max x y) (fpMinMax ty p true a b).1 := by
  obtain ⟨⟨hmin, hmin0⟩, hmax, hmax0⟩ := isReal_minMaxNum hx hy
  exact ⟨delivers_finish hty p _ (standsAs_of_isReal hmin) hmin0, delivers_finish hty p _ (standsAs_of_isReal hmax) hmax0⟩

theorem fpCompare_of_isReal (hx : isReal (p.a (tyFmt ty) a) x) (hy : isReal (p.b (tyFmt ty) b) y) :
    ((fpCompare 0 ty p a b).1 = true ↔ x = y) ∧ ((fpCompare 1 ty p a b).1 = true ↔ x ≠ y) ∧ ((fpCompare 2 ty p a b).1 = true ↔ x < y) ∧
    ((fpCompare 3 ty p a b).1 = true ↔ x ≤ y) ∧ ((fpCompare 4 ty p a b).1 = true ↔ x > y) ∧ ((fpCompare 5 ty p a b).1 = true ↔ x ≥ y) := by
  obtain ⟨hlt, heq, hgt⟩ := isReal_compare hx hy
  have hle : x ≤ y ↔ cmpVals (p.a (tyFmt ty) a) (p.b (tyFmt ty) b) ≠ .gt := by rw [Ne, hgt, not_lt]
  have hge : x ≥ y ↔ cmpVals (p.a (tyFmt ty) a) (p.b (tyFmt ty) b) ≠ .lt := by rw [Ne, hlt, not_lt]
  rw [hle, hge, gt_iff_lt, ← heq, ← hlt, ← hgt, Ne, ← heq]
  simp [fpCompare, isNan_of_isReal hx, isNan_of_isReal hy]

/-! ### Packed forms -/

theorem fp3_of_half (hty : ty ∈ [DType.f16, .bf16]) : ty ∈ fp3 ∧ (tyFmt ty).width = 16 ∧ (tyFmt ty).nanCode < 2 ^ (tyFmt ty).width := by
  simp only [List.mem_cons, List.not_mem_nil, or_false] at hty
  rcases hty with rfl | rfl
  · exact ⟨by decide, rfl, by decide⟩
  · exact ⟨by decide, rfl, by decide⟩

theorem delivers_fpFdp2 {x0 x1 y0 y1 : ℝ} (h0 : isReal (p.a (tyFmt ty) (half false a)) x0) (h1 : isReal (p.a (tyFmt ty) (half true a)) x1)
    (k0 : isReal (p.b (tyFmt ty) (half false b)) y0) (k1 : isReal (p.b (tyFmt ty) (half true b)) y1) (hz : isReal (p.c fmtF32 c) z) :
    delivers fmtF32 p.rm p.ftz (zeroOf p.rm [(p.a (tyFmt ty) (half false a)).sign != (p.b (tyFmt ty) (half false b)).sign,
      (p.a (tyFmt ty) (half true a)).sign != (p.b (tyFmt ty) (half true b)).sign, (p.c fmtF32 c).sign]) (x0 * y0 + x1 * y1 + z) (fpFdp2 ty p a b c).1 := by
  obtain ⟨hreal0, hsign0⟩ := isReal_mulVals h0 k0
  obtain ⟨hreal1, hsign1⟩ := isReal_mulVals h1 k1
  have h := fun fl => delivers_sumVals (ty := .f32) (p := p) (by decide) (.cons hreal0 (.cons hreal1 (.cons hz .nil))) (fl := fl)
  rw [List.sum_cons, List.sum_cons, List.sum_singleton, List.map_cons, List.map_cons, List.map_singleton, hsign0, hsign1, ← add_assoc] at h
  exact h _

/-- A packed result holds its halves. -/
theorem halves_packHalves {lo hi : W64 × FpFlags} (hlo : lowBits 16 lo.1 = lo.1) (hhi : lowBits 16 hi.1 = hi.1) :
    lowBits 16 (packHalves lo hi).1 = lo.1 ∧ lowBits 16 ((packHalves lo hi).1 >>> 16) = hi.1 ∧ (packHalves lo hi).1 = lowBits 32 (packHalves lo hi).1 := by
  have hbit : ∀ j, bit (packHalves lo hi).1 j = (bit lo.1 j && decide (j < 16) || decide (16 ≤ j ∧ j < 32) && bit hi.1 (j - 16)) := fun j => by
    unfold packHalves bit
    rw [BitVec.getLsbD_or, BitVec.getLsbD_shiftLeft, ← bit, ← bit, bit_lowBits (by norm_num), bit_lowBits (by norm_num), Bool.and_comm]
    congr 1
    by_cases h16 : j < 16
    · simp [h16, show ¬ 16 ≤ j by omega]
    · by_cases h32 : j < 32
      · simp [bit, h16, h32, show j < 64 by omega, show j - 16 < 16 by omega, show 16 ≤ j by omega]
      · simp [h32, show ¬ j - 16 < 16 by omega]
  refine ⟨?_, ?_, ?_⟩
  · refine lowBits_ext (by norm_num) (lowBits_lowBits (by norm_num) _) hlo fun j hj => ?_
    rw [bit_lowBits_lt (by norm_num) hj, hbit]
    simp [hj, show ¬ 16 ≤ j by omega]
  · refine lowBits_ext (by norm_num) (lowBits_lowBits (by norm_num) _) hhi fun j hj => ?_
    rw [bit_lowBits_lt (by norm_num) hj, bit, BitVec.getLsbD_ushiftRight, ← bit, hbit]
    simp [show 16 + j < 32 by omega]
  · refine BitVec.eq_of_getLsbD_eq fun j _ => ?_
    rw [← bit, ← bit, bit_lowBits (by norm_num), hbit]
    by_cases h32 : j < 32
    · simp [h32]
    · simp [h32, show ¬ j < 16 by omega]

/-- A delivered half has 16 bits. -/
theorem lowBits_finish (hty : ty ∈ [DType.f16, .bf16]) (fl : FpFlags) (v : FpVal × FpFlags) :
    lowBits 16 (finish (tyFmt ty) p fl v).1 = (finish (tyFmt ty) p fl v).1 := by
  obtain ⟨hfp, hw, hnan⟩ := fp3_of_half hty
  obtain ⟨hf, htop, -⟩ := fp3_sound hfp
  have hlt : ((tyFmt ty).deliver p.rm p.ftz v.1).1 < 2 ^ 16 := by
    rw [← hw]
    rcases (tyFmt ty).deliver_nan p.rm p.ftz v.1 with h | h
    · rwa [h]
    · exact Fmt.signed_lt htop (by have := hf.eb; omega) h
  refine BitVec.eq_of_toNat_eq ?_
  rw [toNat_lowBits (by norm_num), finish, BitVec.toNat_ofNat]
  exact Nat.mod_eq_of_lt ((Nat.mod_le ..).trans_lt hlt)

end

theorem fpHalves (p : FpMod) {ty : DType} (hty : ty ∈ [DType.f16, .bf16]) (a b c : W64) :
    (lowBits 16 (fpHadd2 ty p a b).1 = (fpAdd ty p false (half false a) (half false b)).1 ∧
      lowBits 16 ((fpHadd2 ty p a b).1 >>> 16) = (fpAdd ty p false (half true a) (half true b)).1 ∧ (fpHadd2 ty p a b).1 = lowBits 32 (fpHadd2 ty p a b).1) ∧
    (lowBits 16 (fpHmul2 ty p a b).1 = (fpMul ty p (half false a) (half false b)).1 ∧
      lowBits 16 ((fpHmul2 ty p a b).1 >>> 16) = (fpMul ty p (half true a) (half true b)).1 ∧ (fpHmul2 ty p a b).1 = lowBits 32 (fpHmul2 ty p a b).1) ∧
    (lowBits 16 (fpHfma2 ty p a b c).1 = (fpFma ty p (half false a) (half false b) (half false c)).1 ∧
      lowBits 16 ((fpHfma2 ty p a b c).1 >>> 16) = (fpFma ty p (half true a) (half true b) (half true c)).1 ∧
      (fpHfma2 ty p a b c).1 = lowBits 32 (fpHfma2 ty p a b c).1) :=
  ⟨halves_packHalves (lowBits_finish hty _ _) (lowBits_finish hty _ _), halves_packHalves (lowBits_finish hty _ _) (lowBits_finish hty _ _),
    halves_packHalves (lowBits_finish hty _ _) (lowBits_finish hty _ _)⟩

end Sys2Proof.Machine

open Sys2Proof.Machine hiding floatResults in
theorem floatResults_hold : floatResults := by
  refine ⟨fun ty p a b c x y z hty hx => ⟨fun n hn => delivers_fpRound hty hx hn, delivers_fpScale hty hx, delivers_fpElem_rcp hty hx,
    delivers_fpElem_sqrt hty hx, fpClass_of_isReal hty hx, fun hy => ?_⟩, fun ty p a b c x0 x1 y0 y1 z hty => ?_⟩
  · obtain ⟨hmin, hmax⟩ := delivers_fpMinMax hty hx hy
    obtain ⟨heq, hne, hlt, hle, hgt, hge⟩ := fpCompare_of_isReal hx hy
    exact ⟨delivers_fpAdd hty hx hy, delivers_fpSub hty hx hy, delivers_fpMul hty hx hy, hmin, hmax, heq, hne, hlt, hle, hgt, hge, fun hz => delivers_fpFma hty hx hy hz⟩
  · obtain ⟨⟨haddlo, haddhi, hadd⟩, ⟨hmullo, hmulhi, hmul⟩, hfmalo, hfmahi, hfma⟩ := fpHalves p hty a b c
    refine ⟨fun h0 h1 k0 k1 hz => delivers_fpFdp2 h0 h1 k0 k1 hz, ?_, ?_⟩
    · simp only [List.mem_cons, List.not_mem_nil, or_false, forall_eq_or_imp, forall_eq]
      exact ⟨⟨haddlo, hmullo, hfmalo⟩, haddhi, hmulhi, hfmahi⟩
    · simp only [List.mem_cons, List.not_mem_nil, or_false, forall_eq_or_imp, forall_eq]
      exact ⟨hadd, hmul, hfma⟩
end

section
/-! The numbers of L6 codes: powers of two to the quarter of a count (R106). -/

namespace Sys2Proof.Machine

/-- A value stands for a number where it is rounded to a format and where it is rounded to whole numbers. -/
def standsFully (s : Bool) (m : Nat) (e : Int) (x : ℝ) : Prop := ∃ a, standsFor m e a ∧ standsAt 0 m e a ∧ 0 ≤ a ∧ x = sgn s * a

theorem standsFully_of_isReal {s : Bool} {m : Nat} {e : Int} {x : ℝ} (h : isReal (.fin s m e) x) : standsFully s m e x :=
  ⟨_, .inl rfl, .inl rfl, by positivity, (isReal_fin s m e x).mp h⟩

theorem standsFully.standsAs {s : Bool} {m : Nat} {e : Int} {x : ℝ} (h : standsFully s m e x) : (FpVal.fin s m e).standsAs x := by
  obtain ⟨a, ha, -, -, hx⟩ := h
  exact ⟨a, ha, hx⟩

/-! ### Fourth roots -/

/-- The root of the root of a natural number is below its fourth root by less than one. -/
theorem fourthRoot_spec (n : Nat) : isqrt (isqrt n) ^ 4 ≤ n ∧ n < (isqrt (isqrt n) + 1) ^ 4 := by
  obtain ⟨h1, h2⟩ := isqrt_spec n
  obtain ⟨h3, h4⟩ := isqrt_spec (isqrt n)
  generalize isqrt (isqrt n) = r at *
  constructor
  · calc r ^ 4 = (r * r) * (r * r) := by ring
      _ ≤ isqrt n * isqrt n := Nat.mul_le_mul h3 h3
      _ ≤ n := h1
  · calc n < (isqrt n + 1) * (isqrt n + 1) := h2
      _ ≤ ((r + 1) * (r + 1)) * ((r + 1) * (r + 1)) := Nat.mul_le_mul h4 h4
      _ = (r + 1) ^ 4 := by ring

/-- No whole number is the fourth root of a power of two whose exponent four does not divide. -/
theorem pow_four_ne {n r : Nat} (h : n % 4 ≠ 0) : r ^ 4 ≠ 2 ^ n := fun heq => by
  obtain ⟨k, -, rfl⟩ := (Nat.dvd_prime_pow Nat.prime_two).mp (heq ▸ dvd_pow_self r (by norm_num))
  rw [← pow_mul] at heq
  have := Nat.pow_right_injective le_rfl heq
  omega

/-- The number of a quarter count. -/
theorem quarterPower_stands (s : Bool) {l : Int} (hlo : -15 ≤ l) :
    ∃ m e, quarterPower s l = .fin s m e ∧ standsFully s m e (sgn s * (2 : ℝ) ^ ((l : ℝ) / 4)) := by
  unfold quarterPower
  have hpos : (0 : ℝ) < (2 : ℝ) ^ ((l : ℝ) / 4) := by positivity
  split
  · rename_i h4
    refine ⟨1, l / 4, rfl, standsFully_of_isReal ?_⟩
    rw [isReal_fin, Nat.cast_one, one_mul, ← Real.rpow_intCast]
    congr 2
    obtain ⟨q, rfl⟩ : ∃ q, l = 4 * q := ⟨l / 4, by omega⟩
    rw [Int.mul_ediv_cancel_left _ (by norm_num)]
    push_cast
    ring
  · rename_i h4
    obtain ⟨n, hn⟩ : ∃ n : Nat, l + 320 = n := ⟨(l + 320).toNat, by omega⟩
    rw [hn, Int.toNat_natCast]
    obtain ⟨hr1, hr2⟩ := fourthRoot_spec (2 ^ n)
    have hne := pow_four_ne (n := n) (r := isqrt (isqrt (2 ^ n))) (by omega)
    generalize isqrt (isqrt (2 ^ n)) = r at *
    have hpow : ((2 : ℝ) ^ ((l : ℝ) / 4) * 2 ^ 80) ^ 4 = 2 ^ n := by
      rw [mul_pow, ← Real.rpow_natCast, ← Real.rpow_mul (by norm_num), Nat.cast_ofNat, div_mul_cancel₀ _ (by norm_num), ← pow_mul, ← Real.rpow_natCast,
        ← Real.rpow_natCast, ← Real.rpow_add (by norm_num)]
      congr 1
      exact_mod_cast hn
    have hbig : 2 ^ 39 ≤ r := by
      have h1 : (2 ^ 39) ^ 4 < (r + 1) ^ 4 := by
        rw [← pow_mul]
        exact (Nat.pow_le_pow_right (by norm_num) (by omega)).trans_lt hr2
      have := lt_of_pow_lt_pow_left₀ 4 (Nat.zero_le _) h1
      omega
    have hlow : (r : ℝ) < (2 : ℝ) ^ ((l : ℝ) / 4) * 2 ^ 80 := by
      refine lt_of_pow_lt_pow_left₀ 4 (by positivity) ?_
      rw [hpow]
      exact_mod_cast lt_of_le_of_ne hr1 hne
    have hhigh : (2 : ℝ) ^ ((l : ℝ) / 4) * 2 ^ 80 < r + 1 := by
      refine lt_of_pow_lt_pow_left₀ 4 (by positivity) ?_
      rw [hpow]
      exact_mod_cast hr2
    have hscale : (2 : ℝ) ^ (-81 : Int) * (2 * 2 ^ 80) = 1 := by norm_num
    have hbounds : (((2 * r + 1 : Nat) : ℝ) - 1) * (2 : ℝ) ^ (-81 : Int) < (2 : ℝ) ^ ((l : ℝ) / 4) ∧
        (2 : ℝ) ^ ((l : ℝ) / 4) < (((2 * r + 1 : Nat) : ℝ) + 1) * (2 : ℝ) ^ (-81 : Int) := by
      have hu : (0 : ℝ) < (2 : ℝ) ^ (-81 : Int) := by positivity
      push_cast
      constructor <;> nlinarith
    exact ⟨2 * r + 1, -81, rfl, _, .inr ⟨by omega, by omega, hbounds⟩, .inr ⟨by omega, by norm_num, hbounds⟩, hpos.le, rfl⟩

/-! ### Codes -/

theorem l6Quarters_eq (c : Nat) : l6Quarters c = (BitVec.ofNat 5 c).toInt := by
  rw [l6Quarters, BitVec.toInt_eq_toNat_cond, BitVec.toNat_ofNat]
  split <;> split <;> omega

/-- The magnitude of an L6 code does not depend on its sign (R106). -/
theorem l6Val_signed (k : Nat) (hk : k < 32) : ∃ m e, ∀ s, l6Val (k + 32 * b2n s) = .fin s m e ∧
    standsFully s m e (sgn s * if k = 16 then 0 else (2 : ℝ) ^ (((BitVec.ofNat 5 k).toInt : ℝ) / 4)) := by
  have hsign : ∀ s, decide ((k + 32 * b2n s) / 32 % 2 = 1) = s := fun s => by
    cases s <;> simp [b2n] <;> omega
  have hquarters : ∀ s, l6Quarters (k + 32 * b2n s) = (BitVec.ofNat 5 k).toInt := fun s => by
    rw [← l6Quarters_eq, l6Quarters, l6Quarters, Nat.add_mul_mod_self_left]
  have hrange : -16 ≤ (BitVec.ofNat 5 k).toInt ∧ ((BitVec.ofNat 5 k).toInt = -16 ↔ k = 16) := by
    rw [← l6Quarters_eq, l6Quarters, Nat.mod_eq_of_lt hk]
    split <;> omega
  by_cases h16 : k = 16
  · refine ⟨0, 0, fun s => ⟨?_, ?_⟩⟩
    · rw [l6Val, hsign, hquarters, if_pos (hrange.2.mpr h16)]
    · rw [if_pos h16]
      exact standsFully_of_isReal (by rw [isReal_fin]; simp)
  · have hlo : -15 ≤ (BitVec.ofNat 5 k).toInt := by
      have := fun h => h16 (hrange.2.mp h)
      omega
    obtain ⟨m, e, hq, -⟩ := quarterPower_stands false hlo
    refine ⟨m, e, fun s => ?_⟩
    obtain ⟨m', e', hq', hs⟩ := quarterPower_stands s hlo
    have hsame : m' = m ∧ e' = e := by
      unfold quarterPower between at hq hq'
      split at hq
      · rename_i h4
        rw [if_pos h4] at hq'
        cases hq
        cases hq'
        exact ⟨rfl, rfl⟩
      · rename_i h4
        rw [if_neg h4] at hq'
        cases hq
        cases hq'
        exact ⟨rfl, rfl⟩
    obtain ⟨rfl, rfl⟩ := hsame
    rw [if_neg h16, l6Val, hsign, hquarters, if_neg fun h => h16 (hrange.2.mp h)]
    exact ⟨hq', hs⟩

/-- The value of an L6 code stands for its number (R106). -/
theorem l6Val_stands {c : Nat} (hc : c < 64) {x : ℝ} (h : l6Real c x) : ∃ m e, l6Val c = .fin (decide (32 ≤ c)) m e ∧ standsFully (decide (32 ≤ c)) m e x := by
  obtain ⟨m, e, hv⟩ := l6Val_signed (c % 32) (by omega)
  obtain ⟨hval, hs⟩ := hv (decide (32 ≤ c))
  have hcode : c % 32 + 32 * b2n (decide (32 ≤ c)) = c := by
    by_cases h32 : 32 ≤ c <;> simp [h32, b2n] <;> omega
  rw [hcode] at hval
  have hmod : BitVec.ofNat 5 (c % 32) = BitVec.ofNat 5 c := BitVec.eq_of_toNat_eq (by simp)
  have hx : x = sgn (decide (32 ≤ c)) * if c % 32 = 16 then 0 else (2 : ℝ) ^ (((BitVec.ofNat 5 c).toInt : ℝ) / 4) := by
    unfold l6Real at h
    split at h
    · rename_i h16
      rw [h, if_pos h16, mul_zero]
    · rename_i h16
      rw [h, if_neg h16]
      by_cases h32 : 32 ≤ c <;> simp [h32]
  rw [hmod, ← hx] at hs
  exact ⟨m, e, hval, hs⟩

/-! ### Sources of CVT -/

theorem l6SourceCode_lt (p : FpMod) (a : W64) : l6SourceCode p a < 64 := by
  unfold l6SourceCode
  dsimp only
  generalize (if p.negA = true then _ else _ : Bool) = s
  cases s <;> simp [b2n] <;> omega

theorem cvtSource_l6 (p : FpMod) (a : W64) : cvtSource .l6 p a = l6Val (l6SourceCode p a) := by
  have hlt : (a.setWidth 6).toNat < 64 := (a.setWidth 6).isLt
  obtain ⟨m, e, hv⟩ := l6Val_signed ((a.setWidth 6).toNat % 32) (by omega)
  have hcode : (a.setWidth 6).toNat = (a.setWidth 6).toNat % 32 + 32 * b2n (decide ((a.setWidth 6).toNat / 32 = 1)) := by
    generalize (a.setWidth 6).toNat = c at hlt
    by_cases h32 : c / 32 = 1 <;> simp [h32, b2n] <;> omega
  have hsource : l6Val (a.setWidth 6).toNat = .fin (decide ((a.setWidth 6).toNat / 32 = 1)) m e := by
    conv_lhs => rw [hcode]
    exact (hv _).1
  unfold cvtSource l6SourceCode
  dsimp only
  rw [if_neg (by decide), (hv _).1, hsource]
  cases p.absA <;> cases p.negA <;> simp [FpVal.abs, FpVal.neg]

/-- A finite source of CVT stands for its number; one that is no L6 number is exactly that (R116). -/
theorem cvtSource_stands {src : DType} {p : FpMod} {a : W64} {x : ℝ} (hsrc : src ≠ .e8m0) (h : cvtReal src p a x) :
    ∃ s m e, cvtSource src p a = .fin s m e ∧ standsFully s m e x ∧ (src ≠ .l6 → isReal (.fin s m e) x) := by
  unfold cvtReal at h
  by_cases hint : tyIsInt src = true
  · rw [if_pos hint] at h
    have hx : isReal (.fin (decide (intVal src a < 0)) (intVal src a).natAbs 0) x := by
      rw [isReal_fin, h]
      by_cases hneg : intVal src a < 0
      · have : ((intVal src a).natAbs : ℝ) = -(intVal src a : ℝ) := by rw [Nat.cast_natAbs, abs_of_neg hneg, Int.cast_neg]
        simp [hneg, this]
      · have : ((intVal src a).natAbs : ℝ) = (intVal src a : ℝ) := by rw [Nat.cast_natAbs, abs_of_nonneg (not_lt.mp hneg)]
        simp [hneg, this]
    exact ⟨_, _, _, if_pos hint, standsFully_of_isReal hx, fun _ => hx⟩
  · rw [if_neg hint] at h
    by_cases hl6 : src = .l6
    · subst hl6
      rw [if_pos rfl] at h
      obtain ⟨m, e, hv, hs⟩ := l6Val_stands (l6SourceCode_lt p a) h
      exact ⟨_, m, e, (cvtSource_l6 p a).trans hv, hs, fun h => absurd rfl h⟩
    · rw [if_neg hl6] at h
      have hv : cvtSource src p a = (tyFmt src).source (p.ftz && tyIsFp src) p.absA p.negA a := by
        unfold cvtSource
        rw [if_neg hint]
        split
        · exact absurd rfl hl6
        · exact absurd rfl hsrc
        · rfl
      obtain ⟨s, m, e, hfin, -⟩ := FpVal.exists_fin h
      rw [hfin] at h
      exact ⟨s, m, e, hv.trans hfin, standsFully_of_isReal h, fun _ => h⟩

end Sys2Proof.Machine
end

section
/-! Conversions to integers, to the three formats and to the element formats (R116). -/

namespace Sys2Proof.Machine

/-! ### Integers -/

theorem setWidth_ofInt {v w : Nat} (h : w ≤ v) (z : Int) : (BitVec.ofInt v z).setWidth w = BitVec.ofInt w z := by
  refine BitVec.eq_of_toNat_eq ?_
  rw [BitVec.toNat_setWidth, BitVec.toNat_ofInt, BitVec.toNat_ofInt]
  have hdvd : ((2 ^ w : Nat) : Int) ∣ ((2 ^ v : Nat) : Int) := by exact_mod_cast pow_dvd_pow 2 h
  zify
  rw [Int.toNat_of_nonneg (Int.emod_nonneg _ (by positivity)), Int.toNat_of_nonneg (Int.emod_nonneg _ (by positivity))]
  exact_mod_cast Int.emod_emod_of_dvd z hdvd

/-- An integer destination holds its type's integer, sign-extended to 32 bits for the small signed types (R116). -/
theorem placeInt_spec {ty : DType} {z : Int} (h : tyMin ty ≤ z ∧ z ≤ tyMax ty) :
    placeInt ty z = (if tySigned ty = true ∧ tyWidth ty < 32 then lowBits 32 (signBits (tyWidth ty) (placeInt ty z)) else lowBits (tyWidth ty) (placeInt ty z)) ∧
      (placeInt ty z).setWidth (tyWidth ty) = BitVec.ofInt (tyWidth ty) z := by
  unfold placeInt
  by_cases hsmall : tySigned ty = true ∧ tyWidth ty < 32
  · rw [if_pos (by simpa using hsmall), if_pos hsmall]
    have hlow : (lowBits 32 (BitVec.ofInt 64 z)).setWidth (tyWidth ty) = BitVec.ofInt (tyWidth ty) z := by
      rw [lowBits, BitVec.setWidth_setWidth_of_le _ (tyWidth_le ty), setWidth_ofInt (by norm_num), setWidth_ofInt hsmall.2.le]
    have hz : (BitVec.ofInt (tyWidth ty) z).toInt = z := by
      have := intVal_wrapTo h
      rwa [intVal, if_pos hsmall.1, setWidth_wrapTo (tyWidth_le ty)] at this
    refine ⟨?_, hlow⟩
    rw [signBits, hlow, BitVec.signExtend, hz]
  · rw [if_neg (by simpa using hsmall), if_neg hsmall, lowBits_wrapTo (tyWidth_le ty)]
    exact ⟨rfl, setWidth_wrapTo (tyWidth_le ty) z⟩

section
variable {ty src : DType} {p : FpMod} {sat : Bool} {a : W64} {x : ℝ}

theorem intVal_wrapTo_eq (ty : DType) (z : Int) : intVal ty (wrapTo (tyWidth ty) z) =
    if tySigned ty = true then (BitVec.ofInt (tyWidth ty) z).toInt else ((BitVec.ofInt (tyWidth ty) z).toNat : Int) := by
  rw [intVal, setWidth_wrapTo (tyWidth_le ty)]

/-- An integer converts to an integer clamped or wrapped (R116). -/
theorem fpCvt_int_of_int (hty : tyIsInt ty = true) (hsrc : tyIsInt src = true) : ∃ z, (fpCvt ty src p sat a).1 = placeInt ty z ∧ (tyMin ty ≤ z ∧ z ≤ tyMax ty) ∧
    BitVec.ofInt (tyWidth ty) z = BitVec.ofInt (tyWidth ty) (if sat = true then clampTo ty (intVal src a) else intVal src a) := by
  unfold fpCvt
  rw [if_pos hty, if_pos hsrc, ← intVal_wrapTo_eq]
  refine ⟨_, rfl, ?_⟩
  cases sat with
  | true => exact ⟨clampTo_range ty _, rfl⟩
  | false =>
    rw [if_neg Bool.false_ne_true, if_neg Bool.false_ne_true]
    exact ⟨intVal_range ty _, by rw [ofInt_intVal, setWidth_wrapTo (tyWidth_le ty)]⟩

/-- Another source converts to the integer that it rounds to, clamped (R116). -/
theorem fpCvt_int_of_value (hty : tyIsInt ty = true) (hint : tyIsInt src = false) (hsrc : src ≠ .e8m0) (hx : cvtReal src p a x) :
    ∃ z, (fpCvt ty src p sat a).1 = placeInt ty z ∧ (tyMin ty ≤ z ∧ z ≤ tyMax ty) ∧ ∀ n, integral p.rm x n → z = clampTo ty n := by
  obtain ⟨s, m, e, hv, ⟨b, -, hb, hb0, rfl⟩, -⟩ := cvtSource_stands hsrc hx
  have hclamp : (toInteger ty p.rm (.fin s m e)).1 = clampTo ty (if s = true then -((roundAt p.rm s m e 0).1 : Int) else (roundAt p.rm s m e 0).1) := by
    unfold toInteger
    dsimp only
    generalize (if s = true then -((roundAt p.rm s m e 0).1 : Int) else (roundAt p.rm s m e 0).1) = z
    split
    · rename_i h
      exact h.symm
    · rfl
  unfold fpCvt
  rw [if_pos hty, if_neg (by simp [hint])]
  dsimp only
  rw [hv, hclamp]
  exact ⟨_, rfl, clampTo_range ty _, fun n hn => by rw [integral_roundAt hb0 hb hn]⟩

/-- The clause of `conversionResults` about integer destinations. -/
theorem fpCvt_int (hty : tyIsInt ty = true) (hsrc : src ≠ .e8m0) (hx : cvtReal src p a x) :
    let r := (fpCvt ty src p sat a).1
    r = (if tySigned ty = true ∧ tyWidth ty < 32 then lowBits 32 (signBits (tyWidth ty) r) else lowBits (tyWidth ty) r) ∧
      (tyIsInt src = true → r.setWidth (tyWidth ty) =
        BitVec.ofInt (tyWidth ty) (if sat = true then clampTo ty (intVal src a) else intVal src a)) ∧
      (tyIsInt src = false → ∀ n, integral p.rm x n → r.setWidth (tyWidth ty) = BitVec.ofInt (tyWidth ty) (clampTo ty n)) := by
  intro r
  unfold r
  cases hint : tyIsInt src with
  | true =>
    obtain ⟨z, hr, hrange, hz⟩ := fpCvt_int_of_int (p := p) (sat := sat) (a := a) hty hint
    rw [hr]
    obtain ⟨hplace, hlow⟩ := placeInt_spec hrange
    exact ⟨hplace, fun _ => hlow.trans hz, nofun⟩
  | false =>
    obtain ⟨z, hr, hrange, hz⟩ := fpCvt_int_of_value (sat := sat) hty hint hsrc hx
    rw [hr]
    obtain ⟨hplace, hlow⟩ := placeInt_spec hrange
    exact ⟨hplace, nofun, fun _ n hn => by rw [hlow, hz n hn]⟩

/-! ### The three formats -/

theorem fpCvt_fp (hty : ty ∈ fp3) (src : DType) (p : FpMod) (sat : Bool) (a : W64) :
    (fpCvt ty src p sat a).1 = (finish (tyFmt ty) p (snanFlag [cvtSource src p a]) (cvtSource src p a, 0)).1 := by
  simp only [fp3, List.mem_cons, List.not_mem_nil, or_false] at hty
  rcases hty with rfl | rfl | rfl <;> rfl

theorem fpCvt_delivers (hty : ty ∈ fp3) (hsrc : src ≠ .e8m0) (hx : cvtReal src p a x) :
    delivers (tyFmt ty) p.rm p.ftz (cvtSource src p a).sign x (fpCvt ty src p sat a).1 := by
  obtain ⟨s, m, e, hv, hs, -⟩ := cvtSource_stands hsrc hx
  rw [fpCvt_fp hty, hv]
  exact delivers_finish_pair hty _ hs.standsAs rfl

/-- A scale factor is a power of two (R106, R116). -/
theorem fpCvt_e8m0_source (p : FpMod) (sat : Bool) (a : W64) (h : bits a 7 0 < 255) :
    delivers fmtF32 p.rm p.ftz false ((2 : ℝ) ^ ((bits a 7 0 : Int) - 127)) (fpCvt .f32 .e8m0 p sat a).1 := by
  have hbits : (a.setWidth 8).toNat = bits a 7 0 := by
    rw [BitVec.toNat_setWidth, bits, Nat.pow_zero, Nat.div_one]
  have hv : cvtSource .e8m0 p a = .fin false 1 ((bits a 7 0 : Int) - 127) := by
    rw [show cvtSource .e8m0 p a = e8m0Val (a.setWidth 8).toNat from rfl, hbits, e8m0Val, Nat.mod_eq_of_lt (by omega), if_neg (by omega)]
  rw [fpCvt_fp (by decide), hv]
  refine delivers_finish_pair (ty := .f32) (by decide) _ (standsAs_of_isReal ?_) rfl
  rw [isReal_fin]
  simp

/-! ### The element formats -/

theorem roundFin_largest_lt {f : Fmt} (hf : f.Sound) (rm : Rm) (s : Bool) (m : Nat) (e : Int) : (f.roundFin rm .largest false s m e).1 < 2 ^ f.width := by
  have hmax := f.maxCode_lt hf
  unfold Fmt.roundFin
  split
  · exact signCode_lt (Nat.zero_lt_of_lt hmax) s
  · extract_lets top q
    obtain ⟨n, inex⟩ := roundAt rm s m e q
    dsimp only
    split
    · exact signCode_lt hmax s
    · rename_i hle
      rw [if_neg (by simp)]
      exact signCode_lt ((not_lt.mp hle).trans_lt hmax) s

/-- A finite value in an element format is rounded and saturated, and its code has the format's width (R116). -/
theorem saturates_deliverSat {f : Fmt} (hf : f ∈ formats) (rm : Rm) {s : Bool} {m : Nat} {e : Int} (h : (FpVal.fin s m e).standsAs x) :
    saturates f rm s x (f.deliverSat rm (.fin s m e)).1 ∧ (f.deliverSat rm (.fin s m e)).1 < 2 ^ f.width := by
  obtain ⟨hsound, hmb, -⟩ := formats_sound hf
  obtain ⟨b, hb, rfl⟩ := h
  exact ⟨saturates_roundFin hsound hmb rm hb fun _ => rfl, roundFin_largest_lt hsound rm s m e⟩

theorem fpCvt_element (hty : ty ∈ [DType.e4m3, .e5m2, .e2m1]) (src : DType) (p : FpMod) (sat : Bool) (a : W64) {s : Bool} {m : Nat} {e : Int}
    (hv : cvtSource src p a = .fin s m e) : (fpCvt ty src p sat a).1 = BitVec.ofNat 64 ((tyFmt ty).deliverSat p.rm (.fin s m e)).1 := by
  simp only [List.mem_cons, List.not_mem_nil, or_false] at hty
  unfold fpCvt
  dsimp only
  rw [hv]
  rcases hty with rfl | rfl | rfl <;> rfl

theorem fpCvt_saturates (hty : ty ∈ [DType.e4m3, .e5m2, .e2m1]) (hsrc : src ≠ .e8m0) (hx : cvtReal src p a x) :
    saturates (tyFmt ty) p.rm (cvtSource src p a).sign x (fpCvt ty src p sat a).1.toNat := by
  obtain ⟨s, m, e, hv, hs, -⟩ := cvtSource_stands hsrc hx
  have hf : tyFmt ty ∈ formats ∧ (tyFmt ty).width ≤ 64 := by
    simp only [List.mem_cons, List.not_mem_nil, or_false] at hty
    rcases hty with rfl | rfl | rfl <;> exact ⟨by decide, by decide⟩
  obtain ⟨hsat, hlt⟩ := saturates_deliverSat hf.1 p.rm hs.standsAs
  rw [fpCvt_element hty src p sat a hv, hv, BitVec.toNat_ofNat, Nat.mod_eq_of_lt (hlt.trans_le (Nat.pow_le_pow_right (by norm_num) hf.2))]
  exact hsat

end

end Sys2Proof.Machine
end

section
/-! Conversions to L6 numbers and to scale factors (R106, R117, R118). -/

namespace Sys2Proof.Machine

/-- The place of a natural number's leading bit. -/
theorem log2_bounds {m : Nat} (hm : m ≠ 0) (e : Int) :
    (2 : ℝ) ^ ((Nat.log2 m : Int) + e) ≤ m * (2 : ℝ) ^ e ∧ (m : ℝ) * (2 : ℝ) ^ e < (2 : ℝ) ^ ((Nat.log2 m : Int) + e + 1) := by
  have he : (0 : ℝ) < (2 : ℝ) ^ e := by positivity
  have hlo : ((2 : ℝ) ^ Nat.log2 m) ≤ m := by exact_mod_cast Nat.log2_self_le hm
  have hhi : (m : ℝ) < (2 : ℝ) ^ (Nat.log2 m + 1) := by exact_mod_cast Nat.lt_log2_self
  constructor
  · rw [zpow_add₀ (by norm_num), zpow_natCast]
    exact mul_le_mul_of_nonneg_right hlo he.le
  · rw [show (Nat.log2 m : Int) + e + 1 = ((Nat.log2 m + 1 : Nat) : Int) + e by push_cast; ring, zpow_add₀ (by norm_num), zpow_natCast]
    exact mul_lt_mul_of_pos_right hhi he

/-- Powers of two on either side of a number order their exponents. -/
theorem lt_of_two_zpow {j k : Int} {y : ℝ} (h1 : (2 : ℝ) ^ j ≤ y) (h2 : y < (2 : ℝ) ^ k) : j < k :=
  (zpow_lt_zpow_iff_right₀ (by norm_num)).mp (h1.trans_lt h2)

/-! ### L6 numbers -/

/-- A finite value in L6 is its number's nearest quarter count, zero below the least and the greatest beyond it (R117). -/
theorem l6Rounds_toL6 {s : Bool} {m : Nat} {e k : Int} {x : ℝ} (hx : x = sgn s * (m * (2 : ℝ) ^ (e - k))) : l6Rounds x (toL6 (.fin s m e) k).1 := by
  have habs : |x| = m * (2 : ℝ) ^ (e - k) := by rw [hx, abs_sgn_mul s (by positivity)]
  unfold toL6
  dsimp only
  split
  · rename_i hm
    have h0 : |x| ^ 8 = 0 := by rw [habs, hm]; simp
    refine ⟨fun _ => rfl, fun h => ?_, fun l _ _ h => ?_⟩
    all_goals
      rw [h0] at h
      exact absurd h (not_le.mpr (by positivity))
  · rename_i hm
    have hpow : |x| ^ 8 = ((m ^ 8 : Nat) : ℝ) * (2 : ℝ) ^ (8 * (e - k)) := by
      rw [habs, mul_pow, ← zpow_natCast ((2 : ℝ) ^ (e - k)), ← zpow_mul, mul_comm (e - k)]
      push_cast
      rfl
    obtain ⟨hlo, hhi⟩ := log2_bounds (pow_ne_zero 8 hm) (8 * (e - k))
    rw [← hpow] at hlo hhi
    have hl : l6Round m (e - k) = ((Nat.log2 (m ^ 8) : Int) + 8 * (e - k) + 1) / 2 := rfl
    generalize l6Round m (e - k) = l at hl ⊢
    generalize (Nat.log2 (m ^ 8) : Int) + 8 * (e - k) = t at hl hlo hhi
    have hcode : ∀ j : Int, (x < 0 → l6Code s j = 32 + (j % 32).toNat) ∧ (0 < x → l6Code s j = (j % 32).toNat) := fun j => by
      obtain ⟨hpos, hneg⟩ := sign_of_isReal ((isReal_fin s m (e - k) x).mpr hx)
      exact ⟨fun h => by rw [l6Code, show s = true from hneg h]; rfl, fun h => by rw [l6Code, show s = false from hpos h]; exact Nat.zero_add _⟩
    refine ⟨fun h => ?_, fun h => ?_, fun j hj1 hj2 h1 h2 => ?_⟩
    · have := lt_of_two_zpow hlo h
      rw [if_pos (by omega)]
    · have := lt_of_two_zpow h hhi
      rw [if_neg (by omega), if_pos (by omega)]
      exact hcode 15
    · have hup := lt_of_two_zpow hlo h2
      have hdown := lt_of_two_zpow h1 hhi
      obtain rfl : l = j := by omega
      rw [if_neg (by omega), if_neg (by omega)]
      exact hcode l

theorem l6Code_lt (s : Bool) (l : Int) : l6Code s l < 64 := by
  unfold l6Code
  cases s <;> simp [b2n] <;> omega

theorem toL6_lt (s : Bool) (m : Nat) (e k : Int) : (toL6 (.fin s m e) k).1 < 64 := by
  unfold toL6
  dsimp only
  split
  · norm_num
  · split
    · norm_num
    · split
      · exact l6Code_lt s 15
      · exact l6Code_lt s _

section
variable {src : DType} {p : FpMod} {sat : Bool} {a : W64} {x : ℝ}

theorem fpCvt_l6 (hsrc : src ≠ .e8m0) (hl6 : src ≠ .l6) (hx : cvtReal src p a x) : l6Rounds x (fpCvt .l6 src p sat a).1.toNat := by
  obtain ⟨s, m, e, hv, -, hreal⟩ := cvtSource_stands hsrc hx
  have hcode : (fpCvt .l6 src p sat a).1 = BitVec.ofNat 64 (toL6 (.fin s m e) 0).1 := by
    unfold fpCvt
    dsimp only
    rw [if_neg (by decide), if_neg hl6, hv]
  have hlt := toL6_lt s m e 0
  rw [hcode, BitVec.toNat_ofNat, Nat.mod_eq_of_lt (by omega)]
  exact l6Rounds_toL6 (by rw [sub_zero]; exact (isReal_fin ..).mp (hreal hl6))

theorem fpCvt_l6_l6 (p : FpMod) (sat : Bool) (a : W64) :
    (fpCvt .l6 .l6 p sat a).1.toNat = if l6SourceCode p a % 32 = 16 then 16 else l6SourceCode p a := by
  have hlt := l6SourceCode_lt p a
  unfold fpCvt
  dsimp only
  rw [if_neg (by decide), if_pos rfl]
  split
  · rfl
  · rw [BitVec.toNat_ofNat, Nat.mod_eq_of_lt (by omega)]

/-! ### Scale factors -/

theorem fpCvt_e8m0 (hx : cvtReal .f32 p a x) : (x = 0 → (fpCvt .e8m0 .f32 p sat a).1 = 0) ∧
    ∀ k : Int, (2 : ℝ) ^ k ≤ |x| → |x| < (2 : ℝ) ^ (k + 1) → (fpCvt .e8m0 .f32 p sat a).1 = BitVec.ofNat 64 (max 0 (min 254 (k + 127))).toNat := by
  obtain ⟨s, m, e, hv, -, hreal⟩ := cvtSource_stands (by decide) hx
  replace hreal := (isReal_fin ..).mp (hreal (by decide))
  have habs : |x| = m * (2 : ℝ) ^ e := by rw [hreal, abs_sgn_mul s (by positivity)]
  have hcode : (fpCvt .e8m0 .f32 p sat a).1 = BitVec.ofNat 64 (toE8m0 (.fin s m e)) := by
    rw [← hv]
    rfl
  rw [hcode, toE8m0]
  constructor
  · intro h0
    have hm : m = 0 := by
      rw [h0, abs_zero] at habs
      have := (mul_eq_zero.mp habs.symm).resolve_right (by positivity)
      exact_mod_cast this
    rw [if_pos hm]
    rfl
  · intro k h1 h2
    have hm : m ≠ 0 := by
      rintro rfl
      rw [habs, Nat.cast_zero, zero_mul] at h1
      exact absurd h1 (not_le.mpr (by positivity))
    obtain ⟨hlo, hhi⟩ := log2_bounds hm e
    rw [← habs] at hlo hhi
    have hup := lt_of_two_zpow hlo h2
    have hdown := lt_of_two_zpow h1 hhi
    rw [if_neg hm]
    dsimp only
    generalize (Nat.log2 m : Int) + e = t at hup hdown ⊢
    congr 1
    split
    · omega
    · split <;> omega

end

end Sys2Proof.Machine
end

section
/-! The scaled pack and unpack forms (R106, R118). -/

namespace Sys2Proof.Machine

/-! ### Slots -/

/-- The bits of a number with one field replaced. -/
theorem testBit_setField {n c at0 wd : Nat} (hc : c < 2 ^ wd) (j : Nat) :
    (n - n / 2 ^ at0 % 2 ^ wd * 2 ^ at0 + c * 2 ^ at0).testBit j = if at0 ≤ j ∧ j < at0 + wd then c.testBit (j - at0) else n.testBit j := by
  have h1 : 0 < 2 ^ at0 := by positivity
  have hlow := Nat.mod_lt n h1
  obtain ⟨hi, mid, lo, hmid, hlo, hn⟩ : ∃ hi mid lo, mid < 2 ^ wd ∧ lo < 2 ^ at0 ∧ n = 2 ^ at0 * (2 ^ wd * hi + mid) + lo :=
    ⟨n / 2 ^ at0 / 2 ^ wd, n / 2 ^ at0 % 2 ^ wd, n % 2 ^ at0, Nat.mod_lt _ (by positivity), hlow, by rw [Nat.div_add_mod, Nat.div_add_mod]⟩
  have hfield : n / 2 ^ at0 % 2 ^ wd = mid := by
    rw [hn, Nat.mul_add_div h1, Nat.div_eq_of_lt hlo, Nat.add_zero, Nat.mul_add_mod, Nat.mod_eq_of_lt hmid]
  have hnew : n - n / 2 ^ at0 % 2 ^ wd * 2 ^ at0 + c * 2 ^ at0 = 2 ^ at0 * (2 ^ wd * hi + c) + lo := by
    rw [hfield, hn]
    have : 2 ^ at0 * (2 ^ wd * hi + mid) + lo - mid * 2 ^ at0 = 2 ^ at0 * (2 ^ wd * hi) + lo := by
      rw [Nat.mul_add, Nat.mul_comm mid]
      omega
    rw [this]
    ring
  rw [hnew, hn, Nat.testBit_two_pow_mul_add _ hlo, Nat.testBit_two_pow_mul_add _ hlo, Nat.testBit_two_pow_mul_add _ hc, Nat.testBit_two_pow_mul_add _ hmid]
  by_cases hj : j < at0
  · rw [if_pos hj, if_pos hj, if_neg (by omega)]
  · rw [if_neg hj, if_neg hj]
    by_cases hw : j - at0 < wd
    · rw [if_pos hw, if_pos (by omega)]
    · rw [if_neg hw, if_neg hw, if_neg (by omega)]

/-- The bits of a word whose slot has been filled. -/
theorem bit_putSlot {wd i c : Nat} (hc : c < 2 ^ wd) (hfit : wd * i + wd ≤ 32) (d : W64) (j : Nat) :
    bit (putSlot wd i c d) j = if wd * i ≤ j ∧ j < wd * i + wd then c.testBit (j - wd * i) else (decide (j < 32) && bit d j) := by
  have hlow : (d.setWidth 32).toNat.testBit j = (decide (j < 32) && bit d j) := by
    rw [BitVec.testBit_toNat, BitVec.getLsbD_setWidth]
    rfl
  unfold putSlot bit
  dsimp only
  rw [BitVec.getLsbD_ofNat, testBit_setField hc, hlow]
  by_cases hj : j < 64
  · rw [decide_eq_true hj, Bool.true_and]
    rfl
  · rw [decide_eq_false hj, Bool.false_and, if_neg (by omega), decide_eq_false (by omega), Bool.false_and]

/-- The formats of CVTS and their slots (R118). -/
theorem cvts_formats {fm : Nat} (h : fm < 6) : (cvtsSlots fm).1 = [6, 4, 6, 6, 8, 8].getD fm 0 ∧ (cvtsSlots fm).1 * (cvtsSlots fm).2 ≤ 32 ∧
    (fm = 0 ∧ cvtsFmt fm = none ∧ (cvtsSlots fm).1 = 6 ∨ fm ≠ 0 ∧ ∃ f ∈ formats, cvtsFmt fm = some f ∧ f.width = (cvtsSlots fm).1) := by
  interval_cases fm
  · exact ⟨rfl, by decide, .inl ⟨rfl, rfl, rfl⟩⟩
  · exact ⟨rfl, by decide, .inr ⟨by decide, fmtE2m1, by decide, rfl, rfl⟩⟩
  · exact ⟨rfl, by decide, .inr ⟨by decide, fmtE2m3, by decide, rfl, rfl⟩⟩
  · exact ⟨rfl, by decide, .inr ⟨by decide, fmtE3m2, by decide, rfl, rfl⟩⟩
  · exact ⟨rfl, by decide, .inr ⟨by decide, fmtE4m3, by decide, rfl, rfl⟩⟩
  · exact ⟨rfl, by decide, .inr ⟨by decide, fmtE5m2, by decide, rfl, rfl⟩⟩

/-! ### Packing -/

section
variable {fm : Nat} {p : FpMod} {a b c d : W64} {x : ℝ}

theorem cvtsSlots_fit (hfm : fm < 6) (hin : cvtsInRange fm c = true) : (c.setWidth 32).toNat < (cvtsSlots fm).2 ∧
    (cvtsSlots fm).1 * (c.setWidth 32).toNat + (cvtsSlots fm).1 ≤ 32 := by
  have hj : (c.setWidth 32).toNat < (cvtsSlots fm).2 := of_decide_eq_true hin
  refine ⟨hj, le_trans ?_ (cvts_formats hfm).2.1⟩
  rw [← Nat.mul_succ]
  exact Nat.mul_le_mul_left _ hj

/-- The code that a pack puts into its slot. -/
def packCode (fm : Nat) (p : FpMod) (k : Int) (s : Bool) (m : Nat) (e : Int) : Nat :=
  match cvtsFmt fm with
  | none => (toL6 (.fin s m e) k).1
  | some f => (f.deliverSat p.rm (.fin s m (e - k))).1

theorem cvtsPack_fin {s : Bool} {m : Nat} {e : Int} (hb : bits b 7 0 < 255) (hv : p.a fmtF32 a = .fin s m e) :
    (cvtsPack fm p d a b c).1 = putSlot (cvtsSlots fm).1 (c.setWidth 32).toNat (packCode fm p ((bits b 7 0 : Int) - 127) s m e) d := by
  unfold cvtsPack packCode
  dsimp only
  rw [if_neg (by omega), hv]
  cases cvtsFmt fm <;> rfl

theorem cvtsPack_spec (hfm : fm < 6) (hin : cvtsInRange fm c = true) (hb : bits b 7 0 < 255) (hx : isReal (p.a fmtF32 a) x) :
    ∃ k, (fm = 0 → l6Rounds (x / (2 : ℝ) ^ ((bits b 7 0 : Int) - 127)) k) ∧
      (∀ f, cvtsFmt fm = some f → saturates f p.rm (p.a fmtF32 a).sign (x / (2 : ℝ) ^ ((bits b 7 0 : Int) - 127)) k) ∧
      ∀ j, bit (cvtsPack fm p d a b c).1 j =
        if (cvtsSlots fm).1 * (c.setWidth 32).toNat ≤ j ∧ j < (cvtsSlots fm).1 * (c.setWidth 32).toNat + (cvtsSlots fm).1
        then k.testBit (j - (cvtsSlots fm).1 * (c.setWidth 32).toNat) else (decide (j < 32) && bit d j) := by
  obtain ⟨s, m, e, hv, rfl⟩ := FpVal.exists_fin hx
  generalize hk : (bits b 7 0 : Int) - 127 = k
  have hscaled : sgn s * (m * (2 : ℝ) ^ e) / (2 : ℝ) ^ k = sgn s * (m * (2 : ℝ) ^ (e - k)) := by
    rw [zpow_sub₀ (by norm_num)]
    ring
  obtain ⟨-, -, hformat⟩ := cvts_formats hfm
  obtain ⟨-, hfit⟩ := cvtsSlots_fit hfm hin
  have hcode : packCode fm p k s m e < 2 ^ (cvtsSlots fm).1 ∧ (fm = 0 → l6Rounds (sgn s * (m * (2 : ℝ) ^ (e - k))) (packCode fm p k s m e)) ∧
      ∀ f, cvtsFmt fm = some f → saturates f p.rm s (sgn s * (m * (2 : ℝ) ^ (e - k))) (packCode fm p k s m e) := by
    unfold packCode
    rcases hformat with ⟨rfl, hnone, hw⟩ | ⟨h0, f, hf, hsome, hw⟩
    · rw [hnone, hw]
      exact ⟨toL6_lt s m e k, fun _ => l6Rounds_toL6 rfl, nofun⟩
    · obtain ⟨hsat, hlt⟩ := saturates_deliverSat hf p.rm (standsAs_of_isReal ((isReal_fin s m (e - k) _).mpr rfl))
      rw [hsome, ← hw]
      exact ⟨hlt, fun h => absurd h h0, fun g hg => by rwa [← Option.some.inj hg]⟩
  obtain ⟨hlt, hl6, hsat⟩ := hcode
  rw [hscaled, hv, cvtsPack_fin hb hv, hk]
  exact ⟨_, hl6, hsat, bit_putSlot hlt hfit d⟩

/-! ### Unpacking -/

theorem standsFor.scale {m : Nat} {e : Int} {y : ℝ} (h : standsFor m e y) (k : Int) : standsFor m (e + k) (y * (2 : ℝ) ^ k) := by
  have hk : (0 : ℝ) < (2 : ℝ) ^ k := by positivity
  unfold standsFor at h ⊢
  rw [zpow_add₀ (by norm_num), ← mul_assoc, ← mul_assoc, ← mul_assoc]
  exact h.imp (congrArg (· * _)) fun ⟨h1, h2, h3, h4⟩ => ⟨h1, h2, mul_lt_mul_of_pos_right h3 hk, mul_lt_mul_of_pos_right h4 hk⟩

theorem standsAs_scaleVal {v : FpVal} (h : v.standsAs x) (k : Int) : (scaleVal k v).standsAs (x * (2 : ℝ) ^ k) ∧ (scaleVal k v).sign = v.sign := by
  cases v with
  | nan => exact h.elim
  | inf => exact h.elim
  | fin s m e =>
    obtain ⟨y, hy, rfl⟩ := h
    exact ⟨⟨_, hy.scale k, mul_assoc ..⟩, rfl⟩

/-- The value of an element code. -/
def elementVal (fm k : Nat) : FpVal :=
  match cvtsFmt fm with
  | none => l6Val k
  | some f => f.decode k

theorem elementVal_stands (hfm : fm < 6) {k : Nat} (hk : k < 2 ^ (cvtsSlots fm).1)
    (h : (fm = 0 ∧ l6Real k x) ∨ (∃ f, cvtsFmt fm = some f ∧ isReal (f.decode k) x)) :
    (elementVal fm k).standsAs x ∧ (elementVal fm k).sign = decide (k / 2 ^ ((cvtsSlots fm).1 - 1) = 1) := by
  obtain ⟨-, -, hformat⟩ := cvts_formats hfm
  unfold elementVal
  rcases hformat with ⟨rfl, hnone, hw⟩ | ⟨h0, f, hf, hsome, hw⟩
  · rw [hw] at hk ⊢
    rcases h with ⟨-, hl6⟩ | ⟨f, hf, -⟩
    · obtain ⟨m, e, hv, hs⟩ := l6Val_stands hk hl6
      rw [hnone, hv]
      refine ⟨hs.standsAs, decide_eq_decide.mpr ?_⟩
      omega
    · rw [hnone] at hf
      cases hf
  · rcases h with ⟨rfl, -⟩ | ⟨g, hg, hreal⟩
    · exact absurd rfl h0
    · obtain rfl : f = g := Option.some.inj (hsome.symm.trans hg)
      rw [hsome, ← hw]
      refine ⟨standsAs_of_isReal hreal, ?_⟩
      rw [← hw] at hk
      obtain ⟨hsound, -⟩ := formats_sound hf
      obtain ⟨s, i, rfl, hi⟩ := f.exists_signed hk
      have hsign : (f.decode (signCode f s + i)).sign = s := by
        by_cases hle : i ≤ f.maxCode
        · exact (Fmt.decode_finite hsound hle s).1
        · rw [Fmt.decode_top hsound hi (not_le.mp hle) s] at hreal
          split at hreal <;> exact hreal.elim
      rw [hsign, show f.width - 1 = f.eb + f.mb by rw [Fmt.width]; omega, (Fmt.fields hi s).1]
      cases s <;> rfl

theorem cvtsUnpack_spec (hfm : fm < 6) (hin : cvtsInRange fm c = true) (hb : bits b 7 0 < 255) {k : Nat}
    (hk : k = (a.setWidth 32).toNat / 2 ^ ((cvtsSlots fm).1 * (c.setWidth 32).toNat) % 2 ^ (cvtsSlots fm).1)
    (h : (fm = 0 ∧ l6Real k x) ∨ (∃ f, cvtsFmt fm = some f ∧ isReal (f.decode k) x)) :
    delivers fmtF32 p.rm p.ftz (decide (k / 2 ^ ((cvtsSlots fm).1 - 1) = 1)) (x * (2 : ℝ) ^ ((bits b 7 0 : Int) - 127)) (cvtsUnpack fm p a b c).1 := by
  obtain ⟨hstands, hsign⟩ := elementVal_stands hfm (hk ▸ Nat.mod_lt _ (by positivity)) h
  obtain ⟨hscaled, hssign⟩ := standsAs_scaleVal hstands ((bits b 7 0 : Int) - 127)
  have hvalue : (cvtsUnpack fm p a b c).1 =
      (finish fmtF32 p (snanFlag [elementVal fm k]) (scaleVal ((bits b 7 0 : Int) - 127) (elementVal fm k), 0)).1 := by
    unfold cvtsUnpack
    dsimp only
    rw [if_neg (by have := (cvtsSlots_fit hfm hin).1; omega), if_neg (by omega), ← hk]
    rfl
  rw [hvalue]
  exact delivers_finish_pair (ty := .f32) (by decide) _ hscaled (hssign.trans hsign)

end

end Sys2Proof.Machine

open Sys2Proof.Machine in
theorem conversionResults_hold : conversionResults := by
  refine ⟨fun ty src p sat a x hsrc hx => ⟨fun hty => fpCvt_int hty hsrc hx, fun hty => fpCvt_delivers hty hsrc hx, fun hty => fpCvt_saturates hty hsrc hx, ?_, ?_, ?_⟩,
    fpCvt_e8m0_source, fun fm p d a b c x hfm hin hb => ?_⟩
  · rintro rfl hl6
    exact fpCvt_l6 hsrc hl6 hx
  · rintro rfl rfl
    exact fpCvt_l6_l6 p sat a
  · rintro rfl rfl
    exact fpCvt_e8m0 hx
  · dsimp only
    rw [← (cvts_formats hfm).1]
    exact ⟨fun hx => cvtsPack_spec hfm hin hb hx, fun h => cvtsUnpack_spec hfm hin hb rfl h⟩

open Sys2Proof.Machine in
/-- Settles O18: every finite value stands, exactly or between neighbours that no rounding tells apart, for its real number, and a rounding to a format is
that of the number among the rising magnitudes of the format's codes. -/
theorem floatValues : Obligations.FloatValues := ⟨codeValues_hold, floatResults_hold, conversionResults_hold⟩
end
